-- ==== Sys2Proof/Word.lean ====
section
/-! DEFINITION. The byte and word types of the model (R7: a multi-byte field is little-endian, bit 0 is the least
significant bit). Byte strings are lists, byte offset 0 first. -/

namespace Sys2Proof

/-- One byte of a message, a stripe, a record or a register value. -/
abbrev Byte := BitVec 8

/-- A byte string, byte offset 0 first (R7). -/
abbrev Bytes := List Byte

/-- A 32-bit word: an FP32 bit pattern, a CRC-32C or a micro-op. -/
abbrev W32 := BitVec 32

/-- A 64-bit word: a hash, a digest, a whorl word. -/
abbrev W64 := BitVec 64

end Sys2Proof
end

