-- ==== Sys2Proof/Config.lean ====
section
/-! DEFINITION. What a build configuration fixes (R4, R33, Table 1.9), the constants of block version 0x0003_0001, and the
values the manual leaves open as constants without a body. -/

namespace Sys2Proof

/-- The three build configurations (Table 0.1). -/
inductive Build where
  | h4 | h8 | h12
  deriving DecidableEq, Repr

namespace Build

/-- Hearth channels C (R4, Table 1.9). -/
def channels : Build → Nat
  | .h4 => 4 | .h8 => 8 | .h12 => 12

/-- Update lanes, 64 per channel (R93). -/
def lanes (b : Build) : Nat := 64 * b.channels

/-- Spindles, two per channel (R148). -/
def spindles (b : Build) : Nat := 2 * b.channels

/-- Whorl generators, four per channel (Table 1.9). -/
def generators (b : Build) : Nat := 4 * b.channels

/-- Internal SRAM in KiB (Table 14.6, entry 0x1000.06). -/
def sramKiB : Build → Nat
  | .h4 => 20480 | .h8 => 38912 | .h12 => 57344

/-- Banks of internal SRAM (Table 15.2). -/
def banks : Build → Nat
  | .h4 => 80 | .h8 => 152 | .h12 => 224

/-- Entry 0x1000.07: 1 where the word code with merge buffers is used (R424). -/
def wordCode : Build → Bool
  | .h12 => true | _ => false

/-- Entry 0x1000.09: the configuration's name (Table 14.6). -/
def name : Build → String
  | .h4 => "Lomaz 4H" | .h8 => "Lomaz 8H" | .h12 => "Lomaz 12H"

end Build

namespace Config

/-- Block version (R4). -/
def blockVersion : Nat := 0x00030001

/-- Fabric ways (Table 1.9). -/
def fabricWays : Nat := 2

/-- Hall and memory ways per channel (Table 1.9). -/
def hallWays : Nat := 16

/-- Pantry ways (R351). -/
def pantryWays : Nat := 4

/-- Bytes of a stripe (Table 0.4). -/
def stripe : Nat := 4096

/-- Elements of an element group (R91). -/
def groupElems : Nat := 2048

/-- Bytes of a page (R273). -/
def page : Nat := 65536

/-- Bytes of one channel's address range: `mw_req_addr` has 38 bits (R347). -/
def channelSpan : Nat := 2 ^ 38

/-- Largest value of a U64; a counter saturates here (R416). -/
def u64Max : Nat := 2 ^ 64 - 1

/-- DESIGN CHOICE (logs 4, 45): word `i` of table `j` of the default whorl table set that the body of a firmware image carries (R257).
Where the set lies in the body is not in the manual, so nothing constrains the words here. -/
opaque defaultTableWord : List (BitVec 8) → Nat → Nat → BitVec 64

/-- DESIGN CHOICE (log 5): the P-384 point (x, y) of Sabowell's firmware verification key in the boot ROM (Table 13.1, R393);
its value is not in the manual. -/
opaque bootKey : Nat × Nat

/-- DESIGN CHOICE (log 6): the bytes of the factory calibration record of the firmware (Table 13.14, 0x3061.01). -/
opaque factoryCalibrationByte : Nat → BitVec 8

/-- DESIGN CHOICE (log 7): a byte that the manual calls undefined (R146: target blocks of a stopped offload job), or a value it
states no result for. Applied to the counter `State.free`, so that each use is a fresh value. -/
opaque freeByte : Nat → BitVec 8

/-- DESIGN CHOICE (log 51): the bank and the row of internal SRAM that hold a piece of state. The suite's bank map is not in the manual
(R424), so nothing constrains them here. The list names the piece: [0, hank, half header] for a header window, [1, hank, band, residue,
role] for tags, [2, slot] for the scalars of a program. -/
opaque sramPlace : List Nat → Nat × Nat

/-- DESIGN CHOICE (log 12): a demand or capacity figure of a structural refusal for which the manual states no figure. -/
opaque unstatedFigure : Nat → Nat

end Config

end Sys2Proof
end

