-- ==== Sys2Proof/Syntax.lean ====
section
/-! DEFINITION. The commands of the block: one constructor per row of spec/opcode_table.json, with the operands the row's
rule gives it. Operands that stand on pins or in message fields are bit vectors of the manual's width. -/

namespace Sys2Proof

/-- The path that carries a dictionary access (R9, R408: 0 register port, 1 Ocper, 2 Jutus). An Ocper access names its client. -/
inductive Path where
  | regPort
  | ocper (node : BitVec 16)
  | jutus
  | jtag
  deriving DecidableEq, Repr

/-- A dictionary value: a scalar, or the bytes of a STR or DOM entry (R406). -/
inductive Val where
  | num (n : Nat)
  | blob (b : Bytes)
  deriving DecidableEq, Repr

/-- The common header of an inbound fabric message (Table 11.1) with its trailer and the way it came on. The type field is
the row's own; `length` is the body's length, because byte 64 + length is the end of the message (R302; DEDUCED, log 197). -/
structure RxHdr where
  way         : Bool
  job         : BitVec 32
  epoch       : BitVec 32
  step        : BitVec 64
  source      : BitVec 16
  destination : BitVec 16
  cls         : BitVec 8
  flags       : BitVec 8
  rsvA        : BitVec 8
  alive       : BitVec 32
  incarnation : BitVec 16
  request     : BitVec 16
  rsvB        : BitVec 96
  auth        : BitVec 128
  trailer     : BitVec 32
  deriving DecidableEq, Repr

/-- The body header fields of an Ocper frame and its data (Table 13.10); the operation is the row's own. -/
structure OcperReq where
  status  : BitVec 8
  xid     : BitVec 16
  address : BitVec 32
  offset  : BitVec 32
  count   : BitVec 32
  data    : Bytes
  deriving DecidableEq, Repr

/-- A hall-way request (Table 12.4), less write data and byte enables. -/
structure HallReq where
  ch    : BitVec 4
  way   : BitVec 4
  op    : BitVec 3
  addr  : BitVec 48
  hank  : BitVec 12
  len   : BitVec 7
  tag   : BitVec 10
  view  : BitVec 3
  acode : BitVec 3
  die   : BitVec 2
  ext   : Bool
  cache : Bool
  deriving DecidableEq, Repr

/-- One item of a WRITE: 128 data bytes as one number and the byte enables (Table 12.4, R339). -/
structure WBeat where
  data : BitVec 1024
  be   : BitVec 128
  deriving DecidableEq, Repr

/-- The holder of a row of internal SRAM (Tables 15.3, 15.7; the suite's bank map, which gives the holder of each bank, is not
in the manual, so the command that reports an error names the holder). Of a header it names the bytes that cannot be read, bit i for
byte i. -/
inductive SramHolder where
  | coreSram
  | eventLog (seq : Nat)
  | keyStore (key : BitVec 3)
  | bobbinOld (position : Nat) (hank : Nat) (group : Nat)
  | bobbinNew (position : Nat) (hank : Nat) (group : Nat)
  | tagStore (role : BitVec 1) (band : Nat) (residue : BitVec 4)
  | header (hank : Nat) (index : BitVec 7) (bytes : BitVec 128)
  | tableBank (channel : BitVec 4)
  | presence (channel : BitVec 4) (index : Nat)
  | other
  deriving DecidableEq, Repr

/-- What reading one row of internal SRAM finds (R426). -/
inductive RowRead where
  | clean
  | corrected
  | uncorrectable (holder : SramHolder)
  deriving DecidableEq, Repr

/-- What the memory controllers, the expansion port, the journal window and internal SRAM answer to a command's own accesses (R349,
R352, R366, R426): the 128-byte blocks of the hearth, by key (channel * 2^38 + channel offset) / 128, that a read finds corrected, those
that it finds uncorrectable or not performed, those whose write is not performed twice running, the 64-byte lines of the pantry that a
read finds poisoned or failed, the lines of the journal window whose read is answered with an error, and the rows of internal SRAM, bank
and row, that a read of the command corrects or finds uncorrectable. Every other access is answered OK. -/
structure MemAns where
  corrected : List Nat
  bad       : List Nat
  lost      : List Nat
  poisoned  : List Nat
  npBad     : List Nat
  sram      : List (BitVec 16 × BitVec 16 × RowRead)
  deriving DecidableEq, Repr

/-- Every access is answered OK. -/
def MemAns.clean : MemAns := { corrected := [], bad := [], lost := [], poisoned := [], npBad := [], sram := [] }

/-- A lane or spindle fault found by the shadow computations of R381. -/
inductive UnitFault where
  | lane (channel : BitVec 4) (lane : BitVec 6)
  | spindle (spindle : BitVec 5)
  deriving DecidableEq, Repr

/-- The commands. -/
inductive Instr where
  | lzReset (level : Bool) (npSize : BitVec 3)
  | sramFillDone (failed : List (BitVec 16 × BitVec 16)) (ht : BitVec 64) (mem : MemAns)
  | journalResponse (status : BitVec 2) (rdata : BitVec 512)
  | creditInit (way : Bool) (hdr : List (BitVec 16)) (unit : List (BitVec 16))
  | hallTimeInvalid (clocks : BitVec 64) (sample : BitVec 64) (mem : MemAns)
  | tick (stepNo : BitVec 64) (ht : BitVec 64) (mem : MemAns)
  | rollcall (epoch : BitVec 32) (withTick : Bool) (ht : BitVec 64) (mem : MemAns)
  | earlyClose (site : BitVec 6) (mem : MemAns)
  | siteClose (site : BitVec 6) (ht : BitVec 64) (mem : MemAns)
  | carderGroupStart (hank : BitVec 12) (group : BitVec 27) (mem : MemAns) (faults : List UnitFault)
  | viewTrailingPass (view : BitVec 12) (mem : MemAns)
  | initialEncodeStart (hank : BitVec 12) (mem : MemAns)
  | adoptedGroupComplete (position : BitVec 4) (hank : BitVec 12) (group : BitVec 27) (mem : MemAns) (faults : List UnitFault)
  | audit (ht : BitVec 64) (mem : MemAns)
  | sealDelayExpiry (ht : BitVec 64) (mem : MemAns)
  | auditGraceExpiry (ht : BitVec 64) (mem : MemAns)
  | porchPlainRead (q : HallReq) (mem : MemAns)
  | porchTransposedRead (q : HallReq) (mem : MemAns)
  | porchMaskedPlainRead (q : HallReq) (mem : MemAns)
  | porchMaskedTransposedRead (q : HallReq) (mem : MemAns)
  | whorlWindowRead (q : HallReq) (waited : BitVec 32) (mem : MemAns)
  | porchWrite (q : HallReq) (beats : List WBeat) (mem : MemAns)
  | porchAtomic (q : HallReq) (beat : WBeat) (mem : MemAns)
  | invalidationAck (channel : BitVec 4) (die : BitVec 2) (mem : MemAns)
  | invalidationOverdue (channel : BitVec 4) (die : BitVec 2)
  | memoryResponse (channel : BitVec 4) (way : BitVec 4) (tag : BitVec 10) (last : Bool) (status : BitVec 2) (data : BitVec 1024)
      (mem : MemAns)
  | controllerErrorReport (channel : BitVec 4) (addr : BitVec 38) (kind : BitVec 2) (mem : MemAns)
  | pantryResponse (way : BitVec 2) (tag : BitVec 12) (status : BitVec 2) (data : BitVec 512) (mem : MemAns)
  | pantryRequestOverdue (way : BitVec 2) (tag : BitVec 12)
  | stripeRepairStart (mem : MemAns)
  | internalPatrolRead (found : List (BitVec 16 × RowRead)) (mem : MemAns)
  | hearthPatrolRead (channel : BitVec 4) (mem : MemAns)
  | mergeBufferIdle (bank : BitVec 16)
  | deltaSet (h : RxHdr) (body : Bytes) (fault : List UnitFault) (mem : MemAns)
  | deltaAck (h : RxHdr) (body : Bytes) (mem : MemAns)
  | mirrorPiece (h : RxHdr) (body : Bytes) (mem : MemAns)
  | mirrorAck (h : RxHdr) (body : Bytes) (mem : MemAns)
  | reRequest (h : RxHdr) (body : Bytes) (mem : MemAns)
  | reRequestAnswer (h : RxHdr) (body : Bytes) (mem : MemAns)
  | plyRead (h : RxHdr) (body : Bytes) (mem : MemAns)
  | stripeRead (h : RxHdr) (body : Bytes) (mem : MemAns)
  | readAnswer (h : RxHdr) (body : Bytes) (mem : MemAns)
  | fillSet (h : RxHdr) (body : Bytes) (mem : MemAns)
  | fillAck (h : RxHdr) (body : Bytes) (mem : MemAns)
  | adoptionReport (h : RxHdr) (body : Bytes) (mem : MemAns)
  | reportAck (h : RxHdr) (body : Bytes) (mem : MemAns)
  | wcomp (h : RxHdr) (body : Bytes) (ht : BitVec 64) (mem : MemAns)
  | rdata (h : RxHdr) (body : Bytes) (mem : MemAns)
  | fabricAtomic (h : RxHdr) (body : Bytes) (mem : MemAns)
  | hello (h : RxHdr) (body : Bytes) (mem : MemAns)
  | heartbeat (h : RxHdr) (body : Bytes) (mem : MemAns)
  | vote (h : RxHdr) (body : Bytes) (mem : MemAns)
  | epochRequest (h : RxHdr) (body : Bytes) (mem : MemAns)
  | epochRecord (h : RxHdr) (body : Bytes) (mem : MemAns)
  | vacate (h : RxHdr) (body : Bytes) (mem : MemAns)
  | vacateAck (h : RxHdr) (body : Bytes) (mem : MemAns)
  | recoded (h : RxHdr) (body : Bytes) (mem : MemAns)
  | recordNotice (h : RxHdr) (body : Bytes) (mem : MemAns)
  | ocperRead (h : RxHdr) (q : OcperReq) (mem : MemAns)
  | ocperWrite (h : RxHdr) (q : OcperReq) (mem : MemAns)
  | ocperBlockRead (h : RxHdr) (q : OcperReq) (mem : MemAns)
  | ocperBlockWriteSegment (h : RxHdr) (q : OcperReq) (mem : MemAns)
  | ocperBlockApply (h : RxHdr) (q : OcperReq) (mem : MemAns)
  | creditReturn (way : Bool) (hdr : BitVec 3) (unit : BitVec 6) (mem : MemAns)
  | heartbeatPeriod (ht : BitVec 64) (mem : MemAns)
  | suspicion (position : BitVec 4) (mem : MemAns)
  | catchUpTimeout (mem : MemAns)
  | helloInterval (ht : BitVec 64) (mem : MemAns)
  | ackTimeout (hank : BitVec 12) (role : BitVec 1) (group : BitVec 32) (position : BitVec 4) (mem : MemAns)
  | requestTimeout (engine : BitVec 3) (entry : BitVec 9) (mem : MemAns)
  | watchdogExpiry (ht : BitVec 64) (mem : MemAns)
  | trialTimerExpiry (mem : MemAns)
  | healthPeriod (raw : List (BitVec 32)) (ht : BitVec 64)
  | ocperBufferTimeout (buffer : Bool)
  | jutusUnlockExpiry
  | jutusLockoutExpiry
  | eventFrameSend (subscriber : BitVec 2) (ht : BitVec 64)
  | tableCopyDone
  | offloadJobComplete (hank : BitVec 12) (slot : BitVec 12) (mem : MemAns)
  | planLoad (path : Path) (plan : Bytes)
  | admissionComplete (mem : MemAns)
  | epochProposal (path : Path) (body : Bytes) (mem : MemAns)
  | exclusionNotice (path : Path) (body : Bytes) (mem : MemAns)
  | rollcallRequest (path : Path) (step : BitVec 64)
  | coreClockWrite (path : Path) (mhz : BitVec 32)
  | tableSetWrite (path : Path) (body : Bytes)
  | restoreRequest (path : Path) (body : Bytes) (mem : MemAns)
  | contextRestore (path : Path) (body : Bytes) (mem : MemAns)
  | hashProbe (path : Path) (body : Bytes) (mem : MemAns)
  | maskStripeRepair (path : Path) (body : Bytes) (mem : MemAns)
  | lostMaskCopy (path : Path) (body : Bytes) (mem : MemAns)
  | pageDiscard (path : Path) (body : Bytes) (mem : MemAns)
  | replicaCopyStart (path : Path) (node : BitVec 16) (mem : MemAns)
  | firmwareLoad (path : Path) (image : Bytes)
  | firmwareVerifyDone
  | securityMinimumWrite (path : Path) (value : BitVec 32)
  | journalFormat (path : Path) (mib : BitVec 16)
  | eventAcknowledge (path : Path) (line : BitVec 3) (seq : BitVec 64)
  | transferTarget (target : BitVec 32)
  | transferDataRead
  | transferDataWrite (word : BitVec 32)
  | transferApply (length : BitVec 32) (mem : MemAns)
  | rcRead (path : Path) (address : BitVec 24)
  | counterBulkRead (path : Path)
  | u64ReadLatch (address : BitVec 24)
  | dictionaryWrite (path : Path) (address : BitVec 24) (value : Val) (mem : MemAns)
  | jutusHelp
  | jutusVersion
  | jutusRead (address : BitVec 24)
  | jutusDump (address : BitVec 24) (offset : Option (BitVec 32))
  | jutusWrite (address : BitVec 24) (value : BitVec 64) (mem : MemAns)
  | jutusLog (n : Option (BitVec 32))
  | jutusAck (line : BitVec 8) (seq : BitVec 64)
  | jutusSensors
  | jutusHealth
  | jutusCounters (index : BitVec 16)
  | jutusSkein
  | jutusStep
  | jutusFrameTrace (n : Option (BitVec 32))
  | jutusPlan
  | jutusMasks
  | jutusJournal
  | jutusFirmware
  | jutusChallenge (ht : BitVec 64)
  | jutusUnlock (response : Bytes)
  | jutusLock
  | jutusBaud (baud : BitVec 32)
  | jtagIdcode
  | jtagDictrd (address : BitVec 24)
  | jtagMbist (start : Bool)
  | mbistDone (fail : Bool) (bank : BitVec 16)
  | jtagBypass (code : BitVec 5)
  | jtagTestLogicReset
  | hallTimeValid (sample : BitVec 64) (mem : MemAns)
  | tableBankCopyAgainDone (channel : BitVec 4) (mem : MemAns)
  deriving DecidableEq, Repr

end Sys2Proof
end

