-- ==== Sys2Proof/Machine/State.lean ====
section
/-! DEFINITION. The state of the block: every register, buffer, queue, counter, mode and pin the manual gives it, as plain data,
and the state after reset. Dictionary counters and settings are sparse maps keyed by {index, subindex} (index * 256 +
subindex); an RO entry that shows a field of the block is a view of that field (Machine/Dict.lean). -/

namespace Sys2Proof.Machine

/-- Why the machine stops. -/
inductive Fault where
  /-- Raised by every command that names a channel, a way, a line, a bank or a unit of the block by number when the build has none of
  that number (R331, R33, R424). Safe: no port of the hardware carries that command. -/
  | noSuchPort
  deriving DecidableEq, Repr

/-- Why a command has no meaning. -/
inductive Refusal where
  /-- Raised by an arm of exec whose command has no meaning yet. Safe. -/
  | notModelled (mnemonic : String)
  deriving DecidableEq, Repr

/-! ## The plan (chapters 1, 2, 3, 4, 6, 7, 10) -/

/-- A hank descriptor (Table 2.2). -/
structure Desc where
  cls : Nat
  state : Nat
  household : Nat
  job : Nat
  flags : Nat
  planes : Nat
  formats : Nat
  viewFormat : Nat
  program : Nat
  tierPolicy : Nat
  source : Nat
  rows : Nat
  cols : Nat
  count : Nat
  /-- base0 to base4, in 4 KiB units. -/
  bases : List Nat
  maskA : Nat
  maskB : Nat
  deriving DecidableEq, Repr

/-- The frame declaration (Table 1.6). -/
structure FrameDecl where
  firstStep : Nat
  pMin : Nat
  tRc : Nat
  ackBound : Nat
  shareG : Nat
  shareW : Nat
  reelBytes : Nat
  whorlBytes : Nat
  moverBytes : Nat
  offloadBytes : Nat
  flags : Nat
  deriving DecidableEq, Repr

/-- A job-list entry (chapter 1). -/
structure JobEnt where
  tag : Nat
  household : Nat
  flags : Nat
  deriving DecidableEq, Repr

/-- An optimizer program record (Table 4.2) with its micro-op words; `raw` is the record with header and padding. -/
structure Prog where
  slot : Nat
  len : Nat
  needs : Nat
  rounding : Nat
  writes : Nat
  ops : List Nat
  raw : Bytes
  builtin : Bool
  deriving DecidableEq, Repr

/-- A contributor entry (Table 3.3). -/
structure Contrib where
  node : Nat
  source : Nat
  sourceSite : Nat
  deriving DecidableEq, Repr

/-- A site record (Table 3.2) with its contributor list. -/
structure Site where
  id : Nat
  stage : Nat
  kind : Nat
  width : Nat
  slots : Nat
  flags : Nat
  selfSlot : Nat
  slotHank : Nat
  targetHank : Nat
  nextNode : Nat
  nextSite : Nat
  nextSlot : Nat
  first : Nat
  extent : Nat
  capacity : Nat
  cols : Nat
  pitch : Nat
  contribs : List Contrib
  deriving DecidableEq, Repr

/-- An outbox entry (Table 3.3). -/
structure Outbox where
  destNode : Nat
  destSite : Nat
  destSlot : Nat
  kind : Nat
  localSite : Nat
  offset : Nat
  bytes : Nat
  deriving DecidableEq, Repr

/-- A bucket map (R62, Table 3.1). -/
structure BucketMap where
  outboxHank : Nat
  mirrorHank : Nat
  mirrorArea : Nat
  mirrorIn : Nat
  sites : List Site
  outbox : List Outbox
  deriving DecidableEq, Repr

/-- An inheritance entry (Table 7.2). -/
structure Inherit where
  lostPosition : Nat
  lostHank : Nat
  localHank : Nat
  deriving DecidableEq, Repr

/-- The skein section (Tables 7.1, 7.2). `members` are (node, ply_base); `hanks` are (hank, planes, formats); `counts` has one
list of element counts per member. -/
structure SkeinSec where
  skeinId : Nat
  n : Nat
  m : Nat
  position : Nat
  lintel : Nat
  epoch : Nat
  flags : Nat
  dims : Nat
  oldPlyBase : Nat
  members : List (Nat × Nat)
  hanks : List (Nat × Nat × Nat)
  counts : List (List Nat)
  neighbours : List Nat
  inherits : List Inherit
  digest : Nat
  deriving DecidableEq, Repr

/-- A household record (Table 10.4): number, flags, quotas of hearth, pantry and cellar. -/
structure Household where
  id : Nat
  flags : Nat
  quotas : List Nat
  deriving DecidableEq, Repr

/-- A tier policy record (Table 10.4). -/
structure Policy where
  index : Nat
  tiers : Nat
  home : Nat
  decay : Nat
  promoteAt : Nat
  demoteAt : Nat
  flags : Nat
  deriving DecidableEq, Repr

/-- An area record (Table 10.5). -/
structure Area where
  tier : Nat
  channel : Nat
  node : Nat
  pages : Nat
  base : Nat
  deriving DecidableEq, Repr

/-- The tier-policy section (R276). -/
structure TierSec where
  pantryG : Nat
  pantryW : Nat
  pantryBytes : Nat
  pantryPlyBase : Nat
  households : List Household
  policies : List Policy
  areas : List Area
  deriving DecidableEq, Repr

/-- A spare entry (Table 6.3). -/
structure Spare where
  node : Nat
  position : Nat
  flags : Nat
  deriving DecidableEq, Repr

/-- An entry for a second hank name under which an heir serves a lost hank (Table 6.3, R161). -/
structure AliasEnt where
  position : Nat
  hank : Nat
  aliasHank : Nat
  maskDigest : Nat
  deriving DecidableEq, Repr

/-- The replica-and-spare section (R165). -/
structure ReplicaSec where
  reserveBase : Nat
  drainNode : Nat
  spareOf : Nat
  drainBase : Nat
  replicas : List Nat
  spares : List Spare
  aliases : List AliasEnt
  /-- The other positions' bucket maps. -/
  peers : List (Nat × BucketMap)
  deriving DecidableEq, Repr

/-- A plan: its bytes, its digest and its sections. -/
structure Plan where
  raw : Bytes
  digest : Nat
  frame : FrameDecl
  jobs : List JobEnt
  skein : Option SkeinSec
  descs : List Desc
  progs : List Prog
  bucket : Option BucketMap
  tier : Option TierSec
  replica : Option ReplicaSec
  deriving DecidableEq, Repr

/-! ## Outputs -/

/-- A fabric message as it is handed to a way (Table 11.1). -/
structure TxMsg where
  way : Nat
  job : Nat
  epoch : Nat
  step : Nat
  source : Nat
  destination : Nat
  cls : Nat
  typ : Nat
  flags : Nat
  alive : Nat
  incarnation : Nat
  request : Nat
  body : Bytes
  auth : Nat
  trailer : Nat
  deriving DecidableEq, Repr

/-- The status codes of a hall-way response (Table 12.6). -/
inductive HallStatus where
  | ok | poison | refused | retry | fenced
  deriving DecidableEq, Repr

/-- What the block puts on its output ports in one command. -/
inductive Out where
  /-- One hall-way response item (Table 12.5): channel, way, tag, last, status, data, side band. -/
  | hall (ch way tag : Nat) (last : Bool) (status : HallStatus) (data : Bytes) (side : Nat)
  /-- A start entry of the header lane (R306, R353): way, class, transfer slot, the 96 bytes, and for a single-entry message its
  trailer. -/
  | fxStart (way cls slot : Nat) (data : Bytes) (trailer : Option Nat)
  /-- A unit of the data lane: way, transfer slot, 128 bytes. -/
  | fxUnit (way slot : Nat) (data : Bytes)
  /-- An end entry: way, class, transfer slot, trailer. -/
  | fxEnd (way cls slot trailer : Nat)
  /-- A fabric message whose last entry has gone out, whole (R302): what the entries and units before it carry. -/
  | fx (m : TxMsg)
  /-- An invalidation (Table 12.7). -/
  | inv (ch die hank region page : Nat)
  /-- A register-port response (Table 12.13): status and read word. -/
  | rp (status rdata : Nat)
  /-- The answer to a write that came on another path: 0 done, 1 to 6 the reason of refusal (Table 14.3), 7 retry, 8 no such
  entry. -/
  | wr (path : Path) (reason : Nat)
  /-- A value returned on a path other than the register port. -/
  | val (path : Path) (v : Bytes)
  /-- A line of text on the serial line (R401). -/
  | serial (text : String)
  /-- The data register captured by JTAG (Table 12.19), shifted out on `jt_tdo` with `jt_tdo_en` high. -/
  | jtag (bits : Nat)
  /-- The instruction register captured by JTAG, shifted out in the same way. -/
  | jtagIr (bits : Nat)
  /-- A pulse on `tk_threshold` (Table 12.12). -/
  | threshold
  /-- The pulses that state Lomaz's inbound grant on `fx_rx_crd_init` (R355): way, header and unit credits per class. -/
  | creditGrant (way : Nat) (hdr unit : List Nat)
  /-- Inbound credits returned for a message taken in (R313): way, class, header and unit credits. -/
  | crd (way cls hdr unit : Nat)
  /-- A journal-window request (Table 12.17): write, line; of a write its data and the byte enables. -/
  | np (write : Bool) (line : Nat) (data : Bytes) (be : Nat)
  /-- A memory-way request (Table 12.8): channel, way, write, tag, channel offset, beats; of a write its data and the byte enables, bit i
  for byte i of the beats. -/
  | mw (ch way : Nat) (write : Bool) (tag addr beats : Nat) (data : Bytes) (be : Nat)
  /-- A pantry-way request (Table 12.10): way, write, tag, line; of a write its data and the byte enables. -/
  | pw (way : Nat) (write : Bool) (tag line : Nat) (data : Bytes) (be : Nat)
  deriving DecidableEq, Repr

/-! ## System, time and frame -/

/-- What the integrator straps or the build fixes; no command changes it. -/
structure Straps where
  build : Build
  /-- Hearth bytes of one channel (R33: stacks of up to 256 GB per channel). -/
  hearthBytes : Nat
  /-- `jt_mfr` (Table 12.18). -/
  jtMfr : Nat
  deriving DecidableEq, Repr

/-- Housekeeper state, entry 0x3000.01. -/
inductive HkState where
  | starting | running | restarting | recovery
  deriving DecidableEq, Repr

/-- System pins (Table 12.2) and the power-on order (R420). -/
structure SysSt where
  /-- `lz_reset`. -/
  lzReset : Bool
  /-- `lz_ready`. -/
  ready : Bool
  hk : HkState
  /-- `np_size`, held while lz_reset is low. -/
  npSize : Nat
  /-- The fill and read-back of every internal bank are done. -/
  filled : Bool
  deriving DecidableEq, Repr

/-- Hall time (R337): the largest sample seen, and the clocks counted past it while hall time is invalid. -/
structure TimeSt where
  base : Nat
  clocks : Nat
  valid : Bool
  deriving DecidableEq, Repr

/-- Entry 0x1200.03 without the fenced case. -/
inductive Phase where
  | none | gather | update | sealed
  deriving DecidableEq, Repr

/-- The tick logic (chapter 1, Table 12.12). -/
structure FrameSt where
  /-- The step last opened (0x1200.01). -/
  step : Nat
  /-- A step has been opened since reset. -/
  opened : Bool
  phase : Phase
  /-- `tk_rollcall_out`. -/
  rcOut : Bool
  /-- `tk_rollcall_in` was seen in the open step. -/
  rcSeen : Bool
  /-- `tk_sealed`. -/
  sealedPin : Bool
  /-- Hall time sampled at the last accepted tick (0x1200.02). -/
  htSample : Nat
  /-- Last step sealed (0x1200.04); `everSealed` tells 0 from none. -/
  lastSealed : Nat
  everSealed : Bool
  /-- A held tick: its number and its hall-time sample (R214, R358). -/
  held : Option (Nat × Nat)
  /-- E_N, the epoch sampled at roll-call (0x2210.02). -/
  eN : Nat
  /-- When the conditions of R23 came to hold while a member was suspected (R210). -/
  sealReadyAt : Option Nat
  /-- The seal of this frame was counted in 0x5060.0E. -/
  noQuorumCounted : Bool
  /-- The seal of this frame was counted in 0x5060.0D. -/
  delayCounted : Bool
  /-- The roll-call epoch wait of this step was counted (R208). -/
  epochWaitCounted : Bool
  /-- The open step is a drain step (R180). -/
  drainStep : Bool
  /-- An uncorrectable internal error withholds the seal of the open step (Table 15.3). -/
  withheld : Bool
  deriving DecidableEq, Repr

/-- Admission result entries (Table 1.11) and the load under admission. -/
structure AdmSt where
  state : Nat
  code : Nat
  index : Nat
  demand : Nat
  capacity : Nat
  digest : Nat
  loading : Option Bytes
  /-- The load is a context restore (R247): epoch, record digest, seed entries. -/
  context : Option (Nat × Nat × Bytes)
  /-- The pending plan came with a context (R247). -/
  pendContext : Option (Nat × Nat × Bytes)
  /-- Tier of the last 0x23 refusal (0x2500.02). -/
  tier : Nat
  deriving DecidableEq, Repr

/-! ## Hanks -/

/-- A whorl table set: the default one that a firmware image's body carries (R257), or 131,072 loaded bytes. -/
inductive TableSet where
  | default (body : Bytes)
  | loaded (b : Bytes)
  deriving DecidableEq, Repr

/-- A hank in effect: the descriptor in effect and what the block knows of it beside the descriptor. -/
structure HankRt where
  hank : Nat
  desc : Desc
  /-- State in effect (subindex 0x02). -/
  state : Nat
  /-- A state held under R38. -/
  heldState : Option Nat
  /-- Mask digest (subindex 0x11). -/
  maskDigest : Nat
  /-- Shard digest as the carder and the ledger keep it (R228). -/
  digest : Nat
  /-- Shard digest at the last sealed step (subindex 0x12). -/
  digestSealed : Nat
  /-- VIEW: stripes (region, t) not yet generated (R46). -/
  ungenerated : List (Nat × Nat)
  /-- Mask stripes unreadable: (copy, t) with copy 0 or 1 (R61). -/
  maskBad : List (Nat × Nat)
  /-- STATE: groups whose initial encode has not been acknowledged at both holders (R137). -/
  encodeWait : List Nat
  /-- The encode sets of the hank have been sent. -/
  encodeSent : Bool
  /-- Step N0 whose threshold started the encode. -/
  encodeStep : Nat
  /-- The vacate of the hank has finished; it turns EMPTY at the next threshold (R37). -/
  vacDone : Bool
  /-- A restore has filled and verified the hank; it goes LIVE only as R244 says. -/
  restored : Bool
  /-- Inherited hank: groups written since it became LOADING (R220, R221). -/
  inheritedDone : List Nat
  /-- OFFLOAD: job-slot count J read when the hank became LIVE (R143). -/
  jobSlots : Nat
  /-- A home move under way (R288): the descriptor of the old home and the number of groups moved. -/
  moving : Option (Desc × Nat)
  /-- Ply stripes of the hank, as laps, that this holder has moved (R288). -/
  plyMoved : Nat
  /-- Pages of a read-only placement hank, as (channel, page), still to be moved to the policy's home (R289). -/
  toPlace : List (Nat × Nat)
  deriving DecidableEq, Repr

/-- A page of a paged hank with a home, or in use (Table 10.2, R275, R280). -/
structure PageRt where
  hank : Nat
  channel : Nat
  page : Nat
  tier : Nat
  inTransit : Bool
  lost : Bool
  queued : Bool
  heat : Nat
  count : Nat
  area : Nat
  index : Nat
  deriving DecidableEq, Repr

/-- An open memory-way request (R347, R348): `addr` is the channel offset of the next response item, `left` the items to come;
`again` marks a write issued once more (R349). `owner` tells the engine what the answer is for. -/
structure MemReq where
  ch : Nat
  way : Nat
  tag : Nat
  addr : Nat
  left : Nat
  write : Bool
  again : Bool
  owner : List Nat
  deriving DecidableEq, Repr

/-- An open pantry-way request (R351, R352). -/
structure PantryReq where
  way : Nat
  tag : Nat
  line : Nat
  write : Bool
  owner : List Nat
  deriving DecidableEq, Repr

/-- A page move in progress (R282): where it goes, and the bytes and requests it waits for. -/
structure MoveRt where
  hank : Nat
  channel : Nat
  page : Nat
  tier : Nat
  area : Nat
  index : Nat
  /-- Read answers still to come: stripes of a hearth or cellar source, lines of a pantry source. -/
  reads : List Nat
  /-- Write answers still to come. -/
  writes : Nat
  /-- Bytes taken so far from a cellar source, by offset. -/
  got : List (Nat × Bytes)
  deriving DecidableEq, Repr

/-- One unit of a STATE home move that is being copied (R288): a group of the hank, or with `ply` the ply stripes of one of its laps; the
requests still to be answered, in all. -/
structure HomeMv where
  hank : Nat
  ply : Bool
  index : Nat
  reads : Nat
  writes : Nat
  /-- The bytes read at the old home. -/
  bytes : List Bytes
  deriving DecidableEq, Repr

/-- A hall-way request that is open and waits: a write or atomic (R283, R284, R296), a read that a die will cache (R296), a window
read on a channel whose table bank is copied again (Table 15.3), or a request with an open tag that is answered REFUSED after the
open one (R343). -/
structure HeldHall where
  q : HallReq
  beats : List WBeat
  refuse : Bool
  /-- The step open and the table set in effect when the request was accepted (R256, R263). -/
  step : Nat
  tables : TableSet
  /-- The hank's use-1 seed then. -/
  seed : Nat
  deriving DecidableEq, Repr

/-- A message held for later handling: the header fields the handlers use, and the body. -/
structure HeldMsg where
  typ : Nat
  way : Nat
  job : Nat
  epoch : Nat
  step : Nat
  source : Nat
  request : Nat
  body : Bytes
  isLocal : Bool
  deriving DecidableEq, Repr

/-- Tiers (chapter 10). -/
structure TierSt where
  pages : List PageRt
  moves : List MoveRt
  /-- Queued demand promotions and allocations, in arrival order (R281): hank, channel, page. -/
  demand : List (Nat × Nat × Nat)
  held : List HeldHall
  /-- Fabric atomics that wait for a page or for dies (R292, R296). -/
  heldAtoms : List HeldMsg
  /-- Presence directory entries (R296): hank, region, channel, page, die vector. -/
  presence : List (Nat × Nat × Nat × Nat × Nat)
  /-- Open invalidations, oldest first: channel, die, hank, region, page. -/
  invOpen : List (Nat × Nat × Nat × Nat × Nat)
  /-- STATE home move (0x2530.01, .02). -/
  homeMove : Nat
  homeMoved : Nat
  /-- Bytes the mover has charged in this frame: per channel and in total (R281). -/
  used : List Nat
  usedTot : Nat
  /-- Groups and laps that home moves are copying. -/
  homeMvs : List HomeMv
  /-- Page attempts of this frame that found a pool full and were counted (R278): hank, channel, page, tier. -/
  fullSeen : List (Nat × Nat × Nat × Nat)
  /-- Hanks whose padding is not written yet, because a die holds a copy of one of its pages (R39, R296). -/
  padDue : List Nat
  /-- Discards that wait for invalidations: the path that the write came on, hank, byte offset, length. -/
  discards : List (Path × Nat × Nat × Nat)
  deriving DecidableEq, Repr

/-! ## Landing (chapter 3) -/

/-- An exclusion notice (Table 3.7). -/
structure Notice where
  epoch : Nat
  entries : List (Nat × Nat)
  deriving DecidableEq, Repr

/-- What one site produced in the open step (R82, Table 8.6). -/
structure SiteRes where
  site : Nat
  arrived : Nat
  excluded : Nat
  missing : Nat
  overflowed : Nat
  overflowElems : Nat
  weight : Nat
  inputDigest : Nat
  outputDigest : Nat
  /-- (slot, bin) of every skipped slot (Table 8.5, section 7). -/
  skipped : List (Nat × Nat)
  deriving DecidableEq, Repr

/-- A mirror piece held (R84): sender position, sequence, site, piece, length, count, dropped. -/
structure MirrorRt where
  sender : Nat
  seq : Nat
  site : Nat
  piece : Nat
  length : Nat
  count : Nat
  dropped : Nat
  deriving DecidableEq, Repr

/-- Landing's state. -/
structure LandSt where
  /-- Header windows in internal SRAM (R64): key hank * 128 + index, value the 128 bytes; absent reads as zeros. -/
  headers : List (Nat × Bytes)
  /-- Headers with bytes lost to an uncorrectable internal error (Table 15.3): (key, mask of the bytes). -/
  badHeaders : List (Nat × Nat)
  /-- Headers of the open step first written later than t_rc after its tick, other than as a confirmation or revision (R88). -/
  lateHdrs : List Nat
  /-- Present leaf slots of the open step as frozen at roll-call: (site, slot) (R68). -/
  frozen : List (Nat × Nat)
  /-- The exclusion set of the open step once it is known (R69). -/
  exclusion : Option (List (Nat × Nat))
  notices : List Notice
  /-- 0x2220.01 to 0x2220.04, bit per site. -/
  early : Nat
  heldSites : Nat
  revised : Nat
  closed : Nat
  /-- Stamp of each early output: (site, epoch). -/
  stamps : List (Nat × Nat)
  results : List SiteRes
  mirrors : List MirrorRt
  /-- Mirror pieces sent in the step and not yet acknowledged: (holder node, seq). -/
  mirrorOpen : List (Nat × Nat)
  heldReqs : List HeldMsg
  /-- Stage levels counted as saturated in this frame (R88). -/
  late : List Nat
  /-- Sites whose last slot is resolved, bit per site; roll-call came later than t_rc after the tick (R88). -/
  resolved : Nat
  rcLate : Bool
  deriving DecidableEq, Repr

/-! ## Carder and coding (chapters 4, 5) -/

/-- One delta set of a group in flight. -/
structure SetRt where
  role : Nat
  dest : Nat
  acked : Bool
  /-- An acknowledgement timeout has been counted (R132). -/
  timedOut : Bool
  deriving DecidableEq, Repr

/-- A view write that goes with a group: view hank, region, byte offset, bytes. -/
structure ViewWrite where
  hank : Nat
  region : Nat
  offset : Nat
  bytes : Bytes
  deriving DecidableEq, Repr

/-- An element group whose delta sets await acknowledgement; its bobbin entries (R130). `position` is the owner's position:
this member's own, or a lost member's for an adopted group. -/
structure GroupRt where
  position : Nat
  hank : Nat
  group : Nat
  step : Nat
  encode : Bool
  old : List Bytes
  new : List Bytes
  views : List ViewWrite
  sets : List SetRt
  deriving DecidableEq, Repr

/-- Carder state. -/
structure CardSt where
  inflight : List GroupRt
  /-- Groups committed at the open step: (position, hank, group). -/
  done : List (Nat × Nat × Nat)
  /-- Groups held: (position, hank, group, reason), the reason 1 an unreadable mask, 2 a shadow-lane disagreement, 3 a page in transit, 4 a
  repair before the group is read again. -/
  heldGroups : List (Nat × Nat × Nat × Nat)
  /-- View hanks whose trailing pass of the open step has run (R116). -/
  trailing : List Nat
  /-- An event for a NaN or infinite master has been raised in this step (Table 4.11). -/
  nanEvent : Bool
  infEvent : Bool
  deriving DecidableEq, Repr

/-- A tag: the key (hank, band, residue, role, slot) and its two bits (R128). -/
structure TagRt where
  hank : Nat
  band : Nat
  residue : Nat
  role : Nat
  slot : Nat
  bits : Nat
  deriving DecidableEq, Repr

/-- A band role being recomputed (R142): what has been answered so far, per slot and stripe p. -/
structure RecompRt where
  hank : Nat
  band : Nat
  residue : Nat
  role : Nat
  /-- (slot, p, parity, bytes). -/
  got : List (Nat × Nat × Nat × Bytes)
  /-- (slot, p) still awaited. -/
  want : List (Nat × Nat)
  deriving DecidableEq, Repr

/-- A layout of rows and plies (R126), as a skein section and its epoch give it. -/
structure Layout where
  n : Nat
  m : Nat
  position : Nat
  epoch : Nat
  plyBase : Nat
  members : List (Nat × Nat)
  hanks : List (Nat × Nat × Nat)
  counts : List (List Nat)
  deriving DecidableEq, Repr

/-- A porch read through an alias hank that waits for decodes (R141): the stripes of the HI plane still awaited and those got. -/
structure HallRead where
  /-- Tells the decodes made for this request from those for another. -/
  id : Nat
  q : HallReq
  masked : Bool
  todo : List Nat
  got : List (Nat × Bytes)
  deriving DecidableEq, Repr

/-- The pantry ply store that a re-code keeps (R222, R287): its base, and by hank the laps that lie in it, first and last + 1. -/
structure OldStore where
  base : Nat
  hanks : List (Nat × Nat × Nat)
  deriving DecidableEq, Repr

/-- A ply stripe of a band role that this member took over (R172): its row by lap and residue. -/
structure TakenPly where
  hank : Nat
  lap : Nat
  residue : Nat
  role : Nat
  bytes : Bytes
  deriving DecidableEq, Repr

/-- A band role that a survivor holds in place of a lost member (R172). -/
structure RoleRt where
  hank : Nat
  band : Nat
  residue : Nat
  role : Nat
  holder : Nat
  deriving DecidableEq, Repr

/-- Coding state of a ply holder. -/
structure CodeSt where
  tags : List TagRt
  /-- Sets held, with why: 0 under order 2 of Table 5.5, 1 under order 5, 2 for a ply page in transit (Table 10.6). -/
  heldSets : List (Nat × HeldMsg)
  recomps : List RecompRt
  /-- Ply reads held until an epoch applies (R166). -/
  heldReads : List HeldMsg
  hallReads : List HallRead
  /-- The layout in effect. -/
  layout : Option Layout
  /-- The ply stripes of band roles taken over (R172); the manual gives them no place in the hearth (log 62). -/
  taken : List TakenPly
  /-- Re-coding: the layout, tags, roles and taken ply stripes before the plan, until the old store is released (R222, R223). -/
  oldLayout : Option Layout
  /-- The part of the old store that lies in the pantry. -/
  oldStore : OldStore
  oldTags : List TagRt
  oldRoles : List RoleRt
  oldTaken : List TakenPly
  /-- The epoch in effect before the last re-coding plan (R223). -/
  oldEpoch : Option Nat
  /-- The adoptions in effect before the re-coding plan, (lost position, hank, group, heir), for groups that inherited hanks took. -/
  oldAdopted : List (Nat × Nat × Nat × Nat)
  deriving DecidableEq, Repr

/-- A decode in progress of one stripe (R140, R141, R223, R435). -/
structure DecodeRt where
  /-- 0 repair of a stripe; 1 host read through an alias hank; 2 a stripe for the encode under a new layout; 3 and 4 as 0 and 1, from the
  row of the old layout. -/
  purpose : Nat
  /-- The host read that it is for. -/
  id : Nat
  position : Nat
  hank : Nat
  group : Nat
  p : Nat
  /-- The parity that the slot's tag must show; 2 for either. -/
  parity : Nat
  /-- Plies read so far: role, tag word, bytes. -/
  plies : List (Nat × Nat × Bytes)
  /-- Roles whose holder gave no usable ply. -/
  dead : List Nat
  /-- (slot, parity, bytes) read so far. -/
  got : List (Nat × Nat × Bytes)
  /-- Stripe reads that were answered "not held", (slot, parity): the plies are read anew before such a slot is asked again (Table 5.12). -/
  refused : List (Nat × Nat)
  /-- Slots that were answered without data. -/
  gone : List Nat
  deriving DecidableEq, Repr

/-! ## Losses (chapter 6) -/

/-- An adopted group: lost position, hank, group, index a, heir position, step at which it is materialized here (none: not
yet). -/
structure AdoptRt where
  position : Nat
  hank : Nat
  group : Nat
  heir : Nat
  atStep : Option Nat
  deriving DecidableEq, Repr

/-- A re-request answer held (R162): the step, the site's node, the site, slot, offset, header window and data. -/
structure InputAns where
  step : Nat
  node : Nat
  site : Nat
  slot : Nat
  offset : Nat
  header : Bytes
  data : Bytes
  deriving DecidableEq, Repr

/-- A group the heir is completing (R167): the plies and stripes read so far. -/
structure CompRt where
  position : Nat
  hank : Nat
  group : Nat
  step : Nat
  /-- Ply answers: (role, p, tag word, ply bytes). -/
  plies : List (Nat × Nat × Nat × Bytes)
  /-- Roles whose holder answered without data. -/
  deadRoles : List Nat
  /-- Stripe answers: (slot, p, parity, bytes). -/
  stripes : List (Nat × Nat × Nat × Bytes)
  /-- Slots of lost owners whose heir does not hold the stripe: (slot, p, parity). -/
  gone : List (Nat × Nat × Nat)
  /-- Stripes of the group decoded so far under Table 6.4: (p, step, bytes). -/
  decoded : List (Nat × Nat × Bytes)
  /-- What the shadow lane and the spindles' samples find when the group is computed (R381). -/
  faults : List UnitFault
  deriving DecidableEq, Repr

/-- The sums a record heir holds for one lost position and step (R170), with the epoch of the report. -/
structure ReportRt where
  position : Nat
  step : Nat
  epoch : Nat
  heir : Nat
  hank : Nat
  flags : Nat
  groups : Nat
  digest : Nat
  touched : Nat
  committed : Nat
  unrecoverable : List (Nat × Nat × Nat × Nat)
  deriving DecidableEq, Repr

/-- A drain (R180 to R182). -/
structure DrainRt where
  step : Nat
  slot : Nat
  startAt : Nat
  /-- What the headers of the image carry, as it stood when the drain began (R182): the epoch, the digest of the shard record of the
  sealed step, the layout, job and node, and where the image goes. -/
  layout : Layout
  job : Nat
  node : Nat
  epoch : Nat
  recordDigest : Nat
  target : Nat
  base : Nat
  /-- Next coded stripe of each channel, as the place of the stripe in the order of that channel (R181). -/
  next : List Nat
  /-- Writes sent and not yet answered. -/
  openWrites : Nat
  failed : Bool
  /-- 0 first header written, 1 stripes, 2 last header sent. -/
  stage : Nat
  deriving DecidableEq, Repr

/-- A copy of the shard to another node by fill sets (R178, R186). -/
structure CopyRt where
  target : Nat
  kind : Nat
  step : Nat
  /-- Groups not yet sent. -/
  todo : List (Nat × Nat)
  /-- Groups acknowledged as stored: (hank, group, step). -/
  acked : List (Nat × Nat × Nat)
  deriving DecidableEq, Repr

/-- Losses, spares, drain and health-driven evacuation. -/
structure LossSt where
  /-- Lost positions not yet covered, as bits (0x2040.02). -/
  lost : Nat
  adopted : List AdoptRt
  /-- Band roles of lost holders, with their new holders (R172). -/
  roles : List RoleRt
  comps : List CompRt
  /-- Inputs pulled for the lost members' sites in the open step (R162): answers with data, and (step, node, site, slot, offset) of
  those answered "not held". -/
  inputs : List InputAns
  noInputs : List (Nat × Nat × Nat × Nat × Nat)
  /-- Inputs counted as unrecoverable in the open step: (site node, site, slot, piece). -/
  unrecoverable : List (Nat × Nat × Nat × Nat)
  /-- This heir's own sums per lost position and hank, before they are reported; `groups` counts those committed. -/
  parts : List ReportRt
  reports : List ReportRt
  /-- Re-requests for a lost node's site output that this member answers as the notice's heir (R86). -/
  heldOut : List HeldMsg
  /-- Verified mask copies: (position, hank, stripe, bytes) (R160). -/
  masks : List (Nat × Nat × Nat × Bytes)
  /-- Mask digests verified: (position, hank). -/
  maskOk : List (Nat × Nat)
  frayed : Bool
  /-- Positions excluded from an epoch of the plan in effect, with the node they had, oldest first (R204). -/
  excludedNodes : List (Nat × Nat)
  /-- Step of the last adopted record (0x2040.06). -/
  lastAdopted : Nat
  /-- Adopted records still to be issued: (position, step). -/
  recordsDue : List (Nat × Nat)
  /-- Adopted records issued: (position, step). -/
  recordsIssued : List (Nat × Nat)
  /-- The epoch under which groups of lost members last found heirs: reports of earlier ones do not count (R170). -/
  spreadEpoch : Nat
  /-- Positions whose loss is carried from step N into N + 1 (R171). -/
  carry : List (Nat × Nat)
  /-- Positions lost after the roll-call of the open step (R171). -/
  lateLost : List Nat
  /-- Losses whose class the roll-call epoch of the step will tell: (position, epoch that excludes it) (R154). -/
  unclassed : List (Nat × Nat)
  /-- Adoption reports sent: (position, hank, step). -/
  reportsSent : List (Nat × Nat × Nat)
  /-- Groups that the evacuation target has stored: (hank, group, step). -/
  evacAcked : List (Nat × Nat × Nat)
  /-- Hall time of the tick that opened first_step of the plan in effect (R184). -/
  firstAt : Nat
  /-- The scalars (by entry address) and the exclusion set of the step sealed last, for a carried completion (R171). -/
  prevScalars : List (Nat × Nat)
  prevExclusion : List (Nat × Nat)
  /-- E_N of the step sealed last (R171). -/
  prevEN : Nat
  drain : Option DrainRt
  drains : Nat
  drainImageStep : Nat
  drainDuration : Nat
  suggested : Nat
  mtbl : Nat
  losses : Nat
  /-- Hall times of the last 256 ticks, newest first, for the mean period (R184). -/
  tickTimes : List Nat
  evac : Nat
  evacTarget : Nat
  evacDoneStep : Nat
  copy : Option CopyRt
  copyState : Nat
  copyStep : Nat
  /-- A spare's fill: (hank, group, step) held (R173). -/
  filled : List (Nat × Nat × Nat)
  spareState : Nat
  spareStep : Nat
  deriving DecidableEq, Repr

/-! ## Membership (chapter 7) -/

/-- An epoch proposal (Table 7.4). -/
structure Proposal where
  epoch : Nat
  base : Nat
  skeinId : Nat
  members : Nat
  lintel : Nat
  nodes : List Nat
  raw : Bytes
  deriving DecidableEq, Repr

/-- A discovery-table entry (R200). -/
structure Disc where
  node : Nat
  state : Nat
  source : Nat
  job : Nat
  epoch : Nat
  deriving DecidableEq, Repr

/-- Skein controller. -/
structure MemSt where
  skeinId : Nat
  /-- Membership state 0 to 6 (0x2000.02). -/
  state : Nat
  epoch : Nat
  /-- Positions named in the epoch in effect. -/
  named : Nat
  lintel : Nat
  /-- Node of each of the 16 positions under the epoch in effect; 0xFFFF where not named. -/
  nodes : List Nat
  suspected : Nat
  confirmed : Nat
  /-- Positions confirmed by a HELLO of state 1, 2 or 3 (R201). -/
  confirmedLive : Nat
  fenceReason : Nat
  heldState : Option Nat
  digest : Nat
  /-- Proposal voted for or written and pending (0x2010.02). -/
  pending : Option Proposal
  /-- Bases this member has voted on. -/
  votedBases : List Nat
  /-- The highest epoch seen in an accepted message (R207). -/
  seenEpoch : Nat
  /-- Votes held: (voter position, proposal bytes). -/
  votes : List (Nat × Bytes)
  /-- Epoch records, oldest first: (proposal, voters). -/
  records : List (Proposal × Nat)
  discovery : List Disc
  /-- Silent periods counted per position (R209). -/
  silent : List Nat
  /-- Nodes heard in the current heartbeat period. -/
  heard : List Nat
  /-- Nodes to which a message was sent in the current heartbeat period. -/
  sentTo : List Nat
  /-- Nodes asked for records in this heartbeat period (R207). -/
  askedNow : List Nat
  /-- Catch-up answers since the last change of epoch: (node, has the needed record, has a later one). -/
  catchUp : List (Nat × Bool × Bool)
  /-- HELLO messages processed from a node in the current interval, and HELLO answers sent. -/
  helloSeen : List (Nat × Nat)
  helloAnswered : List Nat
  /-- Re-code (0x2030.01, .02). -/
  recode : Nat
  recodedFrom : Nat
  /-- Vacate in progress: skein left, position held, nodes whose acknowledgement is awaited. -/
  vacating : Option (Nat × Nat × List Nat)
  /-- Nodes that the vacate goes to without being awaited: the epoch in effect does not name them (R216). -/
  vacateMore : List Nat
  /-- Vacates received and not yet acknowledged: (node, skein id, position). -/
  vacateWait : List (Nat × Nat × Nat)
  deriving DecidableEq, Repr

/-! ## Ledger (chapter 8) -/

/-- A shard record held in the ring. -/
structure RecRt where
  step : Nat
  subject : Nat
  position : Nat
  adopted : Bool
  body : Bytes
  mac : Bytes
  digest : Nat
  deriving DecidableEq, Repr

/-- A restore candidate (Table 8.8). -/
structure Candidate where
  drainNode : Nat
  slot : Nat
  drainBase : Nat
  step : Nat
  record : Bytes
  deriving DecidableEq, Repr

/-- A restore in progress (R243). -/
structure RestoreRt where
  position : Nat
  target : Nat
  job : Nat
  cands : List Candidate
  /-- Status and first differing hank of each candidate of the request, in request order. -/
  status : List (Nat × Nat)
  /-- Index of the candidate being read; none when every candidate has been tried. -/
  current : Option Nat
  /-- Header read and accepted. -/
  headerOk : Bool
  /-- Stripes asked for and stripes stored so far. -/
  sent : Nat
  next : Nat
  /-- Running sums per hank. -/
  sums : List (Nat × Nat)
  deriving DecidableEq, Repr

/-- Ledger. -/
structure LedSt where
  setsSent : Nat
  setsAcked : Nat
  setsResent : Nat
  touched : Nat
  committed : Nat
  /-- Credits issued and returned for messages of the open step, per (way, direction): out 0, out 1, in 0, in 1. -/
  issued : List Nat
  returned : List Nat
  /-- Sets of the step acknowledged: (position, hank, role, group). -/
  ackedSets : List (Nat × Nat × Nat × Nat)
  auditState : Nat
  failing : Nat
  auditAt : Option Nat
  graceOver : Bool
  /-- The conservation block kept for 0x2620.02. -/
  block : Bytes
  ring : List RecRt
  /-- Chain head per position (index 16: position 0xFF): step and digest of the newest record that this member issued. -/
  heads : List (Nat × Nat × Nat)
  /-- Notices held: (position, step, digest, adopted). -/
  notices : List (Nat × Nat × Nat × Bool)
  jobKey : Option Bytes
  /-- An FADD reached an unordered hank of the framed job in this frame (R235). -/
  fadd : Bool
  /-- Prev digest fixed by a verified restore or a context for the next first record. -/
  prevOverride : Option Nat
  probe : Option Bytes
  probeResult : Bytes
  restore : Option RestoreRt
  /-- Image stripes read whose write waits for a die (R296): stripe index and bytes. -/
  restoreHeld : List (Nat × Bytes)
  restoreReport : Bytes
  restoreState : Nat
  restoredStep : Nat
  restoredHanks : List Nat
  restoredRecord : Nat
  /-- The epoch in effect and the step sealed last at the last threshold, for the block context (R246). -/
  ctxEpoch : Nat
  ctxSealed : Nat
  deriving DecidableEq, Repr

/-! ## Whorl (chapter 9) -/

/-- A seed entry: hank, use, seed. -/
structure SeedEnt where
  hank : Nat
  use : Nat
  seed : Nat
  deriving DecidableEq, Repr

/-- Whorl. -/
structure WhorlSt where
  tables : TableSet
  stagedTables : Option TableSet
  /-- 0x2400.04. -/
  copyState : Nat
  seeds : List SeedEnt
  /-- Channels whose table bank is being copied again (Table 15.3). -/
  badBanks : List Nat
  /-- Window bytes delivered per channel since the last tick (R269). -/
  windowBytes : List Nat
  /-- Reel hearth bytes per channel since the last tick (R50). -/
  reelBytes : List Nat
  deriving DecidableEq, Repr

/-- What the step sealed last ran under, for completions and records carried into the next step (R171, R236). -/
structure PrevStep where
  plan : Option Plan
  /-- RW and RS scalars in effect. -/
  regs : List (Nat × Nat)
  tables : TableSet
  seeds : List SeedEnt
  fadd : Bool
  drainStep : Bool
  deriving DecidableEq, Repr

/-! ## Fabric and twist unit (chapter 11) -/

/-- Credits of one class on one way: what the adapter granted and what is held. -/
structure Credit where
  hdrGrant : Nat
  unitGrant : Nat
  hdr : Nat
  unit : Nat
  deriving DecidableEq, Repr

/-- A receive context (R315): the incarnation, the highest counter, the map of 63 older ones. -/
structure RxCtx where
  node : Nat
  cls : Nat
  incarnation : Nat
  last : Nat
  map : Nat
  deriving DecidableEq, Repr

/-- An outstanding request (R318). `key` tells the feature which piece of its work the answer is for. -/
structure ReqRt where
  engine : Nat
  entry : Nat
  gen : Nat
  /-- The feature in whose share of the engine's entries it stands (R31). -/
  feature : Nat
  dest : Nat
  typ : Nat
  way : Nat
  /-- The message takes the ways in turn (R307). -/
  alt : Bool
  step : Nat
  body : Bytes
  key : List Nat
  deriving DecidableEq, Repr

/-- A twist context's parameters and register (Table 11.9). -/
structure TwistCtx where
  width : Nat
  flags : Nat
  poly : Nat
  init : Nat
  xorout : Nat
  reg : Nat
  deriving DecidableEq, Repr

/-- A message on its way out (R306, R310): whether its start entry has gone out, the units still to go, the transfer slot that it holds
and the twist context that forms its trailer (R325), if it has data-lane units. -/
structure TxRt where
  msg : TxMsg
  started : Bool
  left : Nat
  slot : Nat
  ctx : Option Nat
  deriving DecidableEq, Repr

/-- A request that waits for an entry of its engine's table (R318): `alt` takes the ways in turn as it is sent, `again` marks one sent
again. -/
structure ReqWait where
  engine : Nat
  dest : Nat
  typ : Nat
  way : Nat
  alt : Bool
  again : Bool
  epoch : Nat
  step : Nat
  body : Bytes
  key : List Nat
  deriving DecidableEq, Repr

/-- An inbound message that a way holds back until a twist context of its feature's share is free (R326). -/
structure RxWait where
  typ : Nat
  hdr : RxHdr
  body : Bytes
  deriving DecidableEq, Repr

/-- Fabric interface. -/
structure FxSt where
  /-- Outbound credits, way-major, three classes each. -/
  credits : List Credit
  /-- `fx_tx_crd_init` has fallen on this way. -/
  initDone : List Bool
  /-- Credits spent and not yet returned, oldest first: way, class, step, header credits, unit credits. -/
  spent : List (Nat × Nat × Nat × Nat × Nat)
  sendQ : List TxRt
  /-- Requests without an entry yet, in the order formed. -/
  waitQ : List ReqWait
  /-- Alternation of other traffic over the ways (R307). -/
  altWay : Nat
  incarnation : Nat
  /-- The incarnation was raised in this command and its journal record is due (R317). -/
  incRaised : Bool
  /-- Send counters: (destination, class, last value sent). -/
  sendCtx : List (Nat × Nat × Nat)
  recvCtx : List RxCtx
  /-- Nodes with a dynamic context (R316), least recently used first. -/
  dynUse : List Nat
  /-- Last send counters of MGMT contexts that were evicted, by node, so that no value is used again in this incarnation (R314). -/
  evicted : List (Nat × Nat)
  reqs : List ReqRt
  /-- Generation last used by each (engine, entry). -/
  gens : List (Nat × Nat)
  /-- Messages delivered inside the block and not yet handled (R300). -/
  localIn : List HeldMsg
  /-- Inbound messages held back, in the order they came. -/
  rxHeld : List RxWait
  partners : List Nat
  twist : List (Nat × TwistCtx)
  /-- Running registers of the four fixed contexts of the management class: out 0, out 1, in 0, in 1 (R325). -/
  fixedCtx : List Nat
  sessionKey : Option Bytes
  oldKey : Option Bytes
  nextKey : Option Bytes
  blockKey : Option Bytes
  /-- An authentication failure has been raised as an event in this frame. -/
  authEvent : Bool
  deriving DecidableEq, Repr

/-! ## Housekeeper (chapter 13) -/

/-- An event entry (Table 13.3). -/
structure Event where
  seq : Nat
  time : Nat
  kind : Nat
  line : Nat
  acked : Bool
  journaled : Bool
  entry : Nat
  detail : Nat
  deriving DecidableEq, Repr

/-- An event subscriber (R386): node, line mask, job tag, newest seq sent, hall time of the last frame. -/
structure Subscriber where
  node : Nat
  mask : Nat
  job : Nat
  sent : Nat
  lastAt : Nat
  deriving DecidableEq, Repr

/-- A frame-trace entry (R386). -/
structure TraceEnt where
  step : Nat
  tick : Nat
  rcOut : Nat
  rcIn : Nat
  lastCommit : Nat
  sealedAt : Nat
  threshold : Nat
  epoch : Nat
  late : Bool
  deriving DecidableEq, Repr

/-- A journal-window request that is open or waiting. `what` tells what completes with it: 0 nothing (a body line), 1 the header line of
a record, 2 the superblock of a compaction, 3 a firmware line, 4 the read-back of a firmware line, whose data are the line expected, 5 the
superblock of a format. -/
structure NpReq where
  write : Bool
  line : Nat
  data : Bytes
  what : Nat
  recType : Nat
  /-- Newest event seq of an event batch, else 0. -/
  mark : Nat
  again : Bool
  deriving DecidableEq, Repr

/-- The journal (R387 to R392). -/
structure JournalSt where
  state : Nat
  head : Nat
  tail : Nat
  used : Nat
  seq : Nat
  headSeq : Nat
  generation : Nat
  snapshot : Nat
  /-- Where the snapshot under way begins: offset and seq. -/
  snapAt : Option (Nat × Nat)
  /-- The superblock copy in force, 0 or 1 (R387). -/
  copy : Nat
  /-- Requests in the order they are issued; the first `opened` of them are open at the port (R366). -/
  queue : List NpReq
  opened : Nat
  deriving DecidableEq, Repr

/-- A firmware slot: 0 empty, 1 verifying, 2 stored. -/
structure FwSlot where
  state : Nat
  version : Nat
  security : Nat
  header : Bytes
  deriving DecidableEq, Repr

/-- Firmware management (R394, R395). -/
structure FwSt where
  slots : List FwSlot
  inEffect : Nat
  load : Nat
  detail : Nat
  minimum : Nat
  runningVersion : Nat
  /-- The image being verified. -/
  image : Option Bytes
  /-- A trial of a new slot runs; the previous slot. -/
  trial : Option Nat
  /-- A switchover held for the first threshold after a restart. -/
  switchHeld : Option Nat
  /-- Cause of the start in progress: Table 13.4, kind 0x0005. -/
  cause : Nat
  /-- Hall times of the last watchdog expiries. -/
  watchdogs : List Nat
  deriving DecidableEq, Repr

/-- An Ocper buffer (R399). -/
structure OcperBuf where
  node : Nat
  address : Nat
  snapshot : Bool
  data : Bytes
  deriving DecidableEq, Repr

/-- Jutus (R401, R402). -/
structure JutusSt where
  unlocked : Bool
  lockedOut : Bool
  wrong : Nat
  challenge : Option Bytes
  baud : Nat
  /-- The device key (0x3110.01). -/
  deviceKey : Option Bytes
  deriving DecidableEq, Repr

/-- The items one health period counts (Table 13.2): uncorrectable, corrected, trailer mismatches, unit faults. -/
structure HealthWin where
  uncorrectable : Nat
  corrected : Nat
  trailers : Nat
  spindleFaults : List Nat
  laneFaults : List Nat
  deriving DecidableEq, Repr

/-- Sensors and health (R379, R380, R185, R187). -/
structure HealthSt where
  score : Nat
  terms : List Nat
  readings : List W32
  /-- The last 1,024 periods, newest first; the head is the period under way. -/
  window : List HealthWin
  /-- 0x3050.04. -/
  levels : Nat
  /-- The levels that the score has crossed and not yet cleared, as bits (R185); a fence sets bit 1 of `levels` alone (R213). -/
  crossed : Nat
  /-- Shedding stage in effect (0x3050.06). -/
  stage : Nat
  /-- The stage whose masks are staged for the next threshold. -/
  stageNext : Option Nat
  /-- A stage held in this frame has been counted (R187). -/
  stageHeld : Bool
  /-- The enable bits that each stage in effect cleared, newest first: the spindle mask, or the lane masks by channel. -/
  shed : List (List Nat)
  /-- Fault retirements (R381): spindles, and lanes as channel * 64 + lane. -/
  retiredSpindles : List Nat
  retiredLanes : List Nat
  calibration : Option Bytes
  deriving DecidableEq, Repr

/-- The housekeeper. -/
structure HouseSt where
  events : List Event
  nextSeq : Nat
  /-- Events of this frame per (kind, entry), and how many were suppressed (R383). -/
  frameEvents : List (Nat × Nat × Nat × Nat)
  /-- Acknowledged seq per line (0x3070.10 to .17). -/
  acked : List Nat
  subscribers : List Subscriber
  trace : List TraceEnt
  journal : JournalSt
  fw : FwSt
  ocper : List (Option OcperBuf)
  /-- The last 16 xids of each client that were applied: (node, xid). -/
  xids : List (Nat × Nat)
  /-- The last pieces of snapshots that freed their buffer, kept to be answered again: (node, xid, address, offset, bytes) (R399). -/
  rereads : List (Nat × Nat × Nat × Nat × Bytes)
  jutus : JutusSt
  health : HealthSt
  /-- Transfer window (R364): buffer and snapshot length. -/
  xfer : Bytes
  xferLen : Nat
  /-- U64 high-word latch (0x10FE.01). -/
  latch : Nat
  /-- A counter index has been written to 0x5FFE.01: 0x5FFE.02 is no longer empty (R406, R417). -/
  bulkNamed : Bool
  /-- 0x10FB.01 of each path that has written it: register port, Jutus, Ocper clients (R413). -/
  views : List (Path × Nat)
  /-- 0x10FC.01 to .03. -/
  refusedAt : Nat
  refusedWhy : Nat
  refusedPath : Nat
  deriving DecidableEq, Repr

/-- The states of the TAP controller (R368; IEEE 1149.1, PRESUMED, log 189). -/
inductive Tap where
  | reset | idle
  | selectDr | captureDr | shiftDr | exit1Dr | pauseDr | exit2Dr | updateDr
  | selectIr | captureIr | shiftIr | exit1Ir | pauseIr | exit2Ir | updateIr
  deriving DecidableEq, Repr

/-- JTAG (R368). -/
structure JtagSt where
  /-- The state of the TAP controller. -/
  tap : Tap
  /-- The instruction in effect. -/
  ir : Nat
  dictAddr : Nat
  dictWord : Nat
  dictStatus : Nat
  mbistRunning : Bool
  mbistDone : Bool
  mbistFail : Bool
  mbistBank : Nat
  deriving DecidableEq, Repr

/-! ## Scrubber and stored-data protection (chapter 15) -/

/-- A watch-list entry (0x3090.06): bank, row, corrected passes, uncorrectable reads, on a spare; `passes` are the patrol
passes in which it was corrected. -/
structure Watch where
  bank : Nat
  row : Nat
  corrected : Nat
  uncorrectable : Nat
  onSpare : Bool
  deriving DecidableEq, Repr

/-- A row with corrected reads that has not reached the watch list: bank, row, pass of the last corrected read. -/
structure CorrRow where
  bank : Nat
  row : Nat
  pass : Nat
  deriving DecidableEq, Repr

/-- A stripe under repair (R435). -/
structure RepairRt where
  position : Nat
  hank : Nat
  group : Nat
  p : Nat
  /-- 0 queued, 1 reading, 2 waiting for the carder's write, 3 held, 4 writing, 5 reading back, 6 writing once more, 7 reading back
  again. -/
  state : Nat
  /-- The recovered stripe, the answers still to come and whether one failed. -/
  bytes : Bytes
  wait : Nat
  failed : Bool
  deriving DecidableEq, Repr

/-- Scrubber. -/
structure ScrubSt where
  watch : List Watch
  corrRows : List CorrRow
  /-- Retired rows in effect, in list order: (bank, row). -/
  retired : List (Nat × Nat)
  /-- Rows that failed the read-back of power-on; their events wait until firmware runs (R422). -/
  failedRows : List (Nat × Nat)
  /-- Rows moved to spares, in the order of the moves: (bank, row); a bank's first stands on its spare 0, its second on spare 1. -/
  spares : List (Nat × Nat)
  /-- Position of the internal patrol in its pass: a row, or 4,096 and the number of a spare; and passes completed (0x3090.05). -/
  patrolRows : Nat
  passes : Nat
  /-- Merge buffers of 12H that hold a row: (bank, row). -/
  merge : List (Nat × Nat)
  /-- Hearth patrol: next stripe index per channel. -/
  hearthNext : List Nat
  repairs : List RepairRt
  /-- 128-byte blocks known uncorrectable: keys / 128 (R349). -/
  badBlocks : List Nat
  /-- Pantry 64-byte lines known poisoned. -/
  badLines : List Nat
  /-- Poisoned tiles: (hank, tile) (R55). -/
  tiles : List (Nat × Nat)
  /-- Open memory-way requests. -/
  memOpen : List MemReq
  /-- Open pantry-way requests. -/
  pantryOpen : List PantryReq
  /-- Writes of the memory and pantry ways that wait until an open request on the same block or line is answered (R348, R352). -/
  later : List Out
  decodes : List DecodeRt
  deriving DecidableEq, Repr

/-- An offload job that has been accepted (R146): hank, slot. -/
structure JobRt where
  hank : Nat
  slot : Nat
  /-- 0 reading its sources, 1 cellar writes of its targets open, 2 its header still to be set to done, 3 to refused once it is
  stopped, 4 to accepted, 5 to refused with the detail that `result` holds. -/
  stage : Nat
  /-- Region offsets of cellar accesses still open, and cellar data got: (offset, bytes). -/
  want : List Nat
  got : List (Nat × Bytes)
  /-- The check value of an op 3. -/
  result : Nat
  deriving DecidableEq, Repr

/-- Offload. -/
structure OffSt where
  jobs : List JobRt
  /-- Source bytes accepted in this frame. -/
  charged : Nat
  deriving DecidableEq, Repr

/-! ## The whole -/

/-- The state of the block. -/
structure State where
  straps : Straps
  sys : SysSt
  time : TimeSt
  fr : FrameSt
  planEff : Option Plan
  planPend : Option Plan
  adm : AdmSt
  /-- RC counters, by {index, subindex}; absent is 0 (R416). -/
  counters : List (Nat × Nat)
  /-- RW and RS scalars in effect that differ from their default, by {index, subindex}. -/
  regs : List (Nat × Nat)
  /-- The staging store (R15): at most one value per RS entry. -/
  staged : List (Nat × Val)
  hanks : List HankRt
  hearth : List Host.Cell
  pantry : List Host.Cell
  /-- The journal window (R365). -/
  nv : List Host.Cell
  tier : TierSt
  land : LandSt
  card : CardSt
  code : CodeSt
  loss : LossSt
  mem : MemSt
  led : LedSt
  whorl : WhorlSt
  fx : FxSt
  house : HouseSt
  jtag : JtagSt
  scrub : ScrubSt
  off : OffSt
  /-- What the step before the open one ran under. -/
  prev : PrevStep
  /-- The model's own: what the memory controllers answer to the accesses of the command under way (log 158). -/
  ans : MemAns
  /-- What the last command put on the output ports. -/
  out : List Out
  /-- The model's own: how many free values have been used (log 7). -/
  free : Nat
  /-- Commands waiting, first in first out. -/
  pending : List Instr
  deriving DecidableEq, Repr

namespace State

/-! ### Reset (R335, R418, R420, R421) -/

def resetSys (npSize : Nat) : SysSt :=
  { lzReset := false, ready := false, hk := .starting, npSize := npSize, filled := false }

def resetTime : TimeSt := { base := 0, clocks := 0, valid := true }

def resetFrame : FrameSt :=
  { step := 0, opened := false, phase := .none, rcOut := false, rcSeen := false, sealedPin := false, htSample := 0,
    lastSealed := 0, everSealed := false, held := none, eN := 0, sealReadyAt := none, noQuorumCounted := false,
    delayCounted := false, epochWaitCounted := false, drainStep := false, withheld := false }

def resetAdm : AdmSt :=
  { state := 0, code := 0, index := 0xFF, demand := 0, capacity := 0, digest := 0, loading := none, context := none,
    pendContext := none, tier := 0 }

def resetTier : TierSt :=
  { pages := [], moves := [], demand := [], held := [], heldAtoms := [], presence := [], invOpen := [], homeMove := 0, homeMoved := 0,
    used := [], usedTot := 0, homeMvs := [],
    fullSeen := [], padDue := [], discards := [] }

def resetLand : LandSt :=
  { headers := [], badHeaders := [], lateHdrs := [], frozen := [], exclusion := none, notices := [], early := 0, heldSites := 0,
    revised := 0, closed := 0, stamps := [], results := [], mirrors := [], mirrorOpen := [], heldReqs := [], late := [], resolved := 0, rcLate := false }

def resetCard : CardSt :=
  { inflight := [], done := [], heldGroups := [], trailing := [], nanEvent := false, infEvent := false }

def resetCode : CodeSt :=
  { tags := [], heldSets := [], recomps := [], heldReads := [], hallReads := [], layout := none, taken := [], oldLayout := none,
    oldStore := { base := 0, hanks := [] }, oldTags := [], oldRoles := [], oldTaken := [], oldEpoch := none, oldAdopted := [] }

def resetLoss : LossSt :=
  { lost := 0, adopted := [], roles := [], comps := [], inputs := [], noInputs := [], unrecoverable := [], parts := [],
    reports := [], heldOut := [], masks := [], maskOk := [], frayed := false, excludedNodes := [],
    lastAdopted := 0, recordsDue := [], recordsIssued := [], spreadEpoch := 0, carry := [], lateLost := [], unclassed := [],
    reportsSent := [], evacAcked := [], firstAt := 0, prevScalars := [], prevExclusion := [], prevEN := 0,
    drain := none, drains := 0, drainImageStep := 0, drainDuration := 0,
    suggested := 0, mtbl := 0, losses := 0, tickTimes := [], evac := 0, evacTarget := 0xFFFF, evacDoneStep := 0,
    copy := none, copyState := 0, copyStep := 0, filled := [], spareState := 0, spareStep := 0 }

def resetMem : MemSt :=
  { skeinId := 0xFFFF, state := 0, epoch := 0, named := 0, lintel := 0xFF, nodes := [], suspected := 0, confirmed := 0, confirmedLive := 0,
    fenceReason := 0, heldState := none, digest := 0, pending := none, votedBases := [], seenEpoch := 0, votes := [], records := [],
    discovery := [], silent := [], heard := [], sentTo := [], askedNow := [], catchUp := [], helloSeen := [],
    helloAnswered := [], recode := 0, recodedFrom := 0, vacating := none, vacateMore := [], vacateWait := [] }

def resetLed : LedSt :=
  { setsSent := 0, setsAcked := 0, setsResent := 0, touched := 0, committed := 0, issued := [0, 0, 0, 0],
    returned := [0, 0, 0, 0], ackedSets := [], auditState := 0, failing := 0, auditAt := none, graceOver := false,
    block := List.replicate 96 0, ring := [], heads := [], notices := [], jobKey := none, fadd := false,
    prevOverride := none, probe := none, probeResult := [], restore := none, restoreHeld := [], restoreReport := [], restoreState := 0,
    restoredStep := 0, restoredHanks := [], restoredRecord := 0, ctxEpoch := 0, ctxSealed := 0 }

def resetWhorl : WhorlSt :=
  { tables := .default [], stagedTables := none, copyState := 0, seeds := [], badBanks := [], windowBytes := [],
    reelBytes := [] }

def resetPrev : PrevStep := { plan := none, regs := [], tables := .default [], seeds := [], fadd := false, drainStep := false }

def resetCredit : Credit := { hdrGrant := 0, unitGrant := 0, hdr := 0, unit := 0 }

def resetFx : FxSt :=
  { credits := List.replicate 6 resetCredit, initDone := [false, false], spent := [], sendQ := [], waitQ := [], altWay := 0,
    incarnation := 0, incRaised := false, sendCtx := [], recvCtx := [], dynUse := [], evicted := [], reqs := [], gens := [], localIn := [], rxHeld := [],
    partners := [], twist := [], fixedCtx := [0, 0, 0, 0],
    sessionKey := none, oldKey := none, nextKey := none, blockKey := none, authEvent := false }

def resetHealthWin : HealthWin :=
  { uncorrectable := 0, corrected := 0, trailers := 0, spindleFaults := [], laneFaults := [] }

def resetHealth : HealthSt :=
  { score := 0, terms := [0, 0, 0, 0, 0, 0], readings := [], window := [resetHealthWin], levels := 0, crossed := 0, stage := 0,
    stageNext := none, stageHeld := false, shed := [],
    retiredSpindles := [], retiredLanes := [], calibration := none }

def resetJournal : JournalSt :=
  { state := 0, head := 0, tail := 0, used := 0, seq := 0, headSeq := 1, generation := 0, snapshot := 0, snapAt := none,
    copy := 0, queue := [], opened := 0 }

def resetSlot : FwSlot := { state := 0, version := 0, security := 0, header := [] }

def resetFw : FwSt :=
  { slots := [resetSlot, resetSlot], inEffect := 0, load := 0, detail := 0, minimum := 0, runningVersion := 0,
    image := none, trial := none, switchHeld := none, cause := 1, watchdogs := [] }

def resetJutus : JutusSt :=
  { unlocked := false, lockedOut := false, wrong := 0, challenge := none, baud := 115200, deviceKey := none }

def resetHouse : HouseSt :=
  { events := [], nextSeq := 1, frameEvents := [], acked := [0, 0, 0, 0, 0, 0, 0, 0], subscribers := [], trace := [],
    journal := resetJournal, fw := resetFw, ocper := [none, none], xids := [], rereads := [], jutus := resetJutus, health := resetHealth,
    xfer := [], xferLen := 0, latch := 0, bulkNamed := false, views := [], refusedAt := 0, refusedWhy := 0,
    refusedPath := 0 }

/-- IDCODE is selected by test logic reset (Table 12.19); its code is 0x01. -/
def resetJtag : JtagSt :=
  { tap := .reset, ir := 1, dictAddr := 0, dictWord := 0, dictStatus := 2, mbistRunning := false, mbistDone := false, mbistFail := false,
    mbistBank := 0 }

def resetScrub : ScrubSt :=
  { watch := [], corrRows := [], retired := [], failedRows := [], spares := [], patrolRows := 0, passes := 0, merge := [], hearthNext := [], repairs := [],
    badBlocks := [], badLines := [], tiles := [], memOpen := [], pantryOpen := [], later := [], decodes := [] }

/-- The state of the block after `lz_reset`, given the straps, `np_size` and what stands in the memories that a reset does not
touch: the hearth, the pantry and the journal window. -/
def afterReset (straps : Straps) (npSize : Nat) (hearth pantry nv : List Host.Cell) : State :=
  { straps := straps, sys := resetSys npSize, time := resetTime, fr := resetFrame, planEff := none, planPend := none,
    adm := resetAdm, counters := [], regs := [], staged := [], hanks := [], hearth := hearth, pantry := pantry, nv := nv,
    tier := resetTier, land := resetLand, card := resetCard, code := resetCode, loss := resetLoss, mem := resetMem,
    led := resetLed, whorl := resetWhorl, fx := resetFx, house := resetHouse, jtag := resetJtag, scrub := resetScrub,
    off := { jobs := [], charged := 0 }, prev := resetPrev, ans := .clean, out := [], free := 0, pending := [] }

/-- DESIGN CHOICE (log 2): the build is 8H, with the 128 GiB stack of the reference integration and the smallest journal
window; no statement rests on it. -/
def resetStraps : Straps := { build := .h8, hearthBytes := 128 * 2 ^ 30, jtMfr := 0 }

/-- The machine right after reset: nothing in the hearth, the pantry or the journal window (log 3), no command waiting. -/
def reset : State := afterReset resetStraps 0 [] [] []

end State

end Sys2Proof.Machine
end

