-- ==== Sys2Proof/Machine/Bytes.lean ====
section
/-! DEFINITION. Byte strings, numbers in little-endian order (R7), and sparse maps in one canonical form: keys strictly rising,
no entry at the default value. -/

namespace Sys2Proof.Machine

/-! ## Byte strings -/

/-- The number a little-endian byte string spells. -/
def leNat : Bytes → Nat
  | [] => 0
  | b :: bs => b.toNat + 256 * leNat bs

/-- The low `k` bytes of a number, least significant first. -/
def toLE : Nat → Nat → Bytes
  | 0, _ => []
  | k + 1, n => BitVec.ofNat 8 n :: toLE k (n / 256)

/-- The number a big-endian byte string spells. -/
def beNat (bs : Bytes) : Nat := leNat bs.reverse

/-- The low `k` bytes of a number, most significant first. -/
def toBE (k n : Nat) : Bytes := (toLE k n).reverse

/-- `k` zero bytes. -/
def zeros (k : Nat) : Bytes := List.replicate k 0

/-- A byte string cut or padded with zeros to `k` bytes. -/
def fit (k : Nat) (bs : Bytes) : Bytes := bs.take k ++ zeros (k - bs.length)

/-- `k` bytes at an offset; bytes past the end read zero. -/
def sub (off k : Nat) (bs : Bytes) : Bytes := fit k (bs.drop off)

/-- The number in a field of `k` bytes at an offset (R7). -/
def fld (off k : Nat) (bs : Bytes) : Nat := leNat ((bs.drop off).take k)

/-- Every byte is zero. -/
def allZero (bs : Bytes) : Bool := bs.all (fun b => b == 0)

/-- The bytes with `new` written at an offset. -/
def patch (off : Nat) (new bs : Bytes) : Bytes := bs.take off ++ new ++ bs.drop (off + new.length)

/-- Bytewise exclusive or. -/
def xorB (a b : Bytes) : Bytes := List.zipWith (fun x y => x ^^^ y) a b

/-- A byte string cut into pieces of `k` bytes, at most `n` of them. -/
def chunks (k : Nat) : Nat → Bytes → List Bytes
  | 0, _ => []
  | n + 1, bs => if bs.isEmpty then [] else bs.take k :: chunks k n (bs.drop k)

/-- The pieces of `k` bytes of a whole byte string. -/
def pieces (k : Nat) (bs : Bytes) : List Bytes := chunks k bs.length bs

/-- The bytes of a string of ASCII characters. -/
def ascii (s : String) : Bytes := s.toList.map (fun c => BitVec.ofNat 8 c.toNat)

/-- Bit `i` of a number. -/
def bit (n i : Nat) : Bool := n / 2 ^ i % 2 == 1

/-- The positions of the bits that are set, among the low `k`. -/
def bitsOf (k n : Nat) : List Nat := (List.range k).filter (fun i => bit n i)

/-- How many of the low `k` bits are set. -/
def popCount (k n : Nat) : Nat := (bitsOf k n).length

/-- A number with bit `i` set. -/
def setBit (n i : Nat) : Nat := if bit n i then n else n + 2 ^ i

/-- A number with bit `i` clear. -/
def clearBit (n i : Nat) : Nat := if bit n i then n - 2 ^ i else n

/-- Division rounding up. -/
def ceilDiv (a b : Nat) : Nat := (a + b - 1) / b

/-! ## Lists -/

/-- Act once for each element, in order. -/
def forEach {α σ : Type} (l : List α) (f : α → σ → σ) (s : σ) : σ := l.foldl (fun s a => f a s) s

/-- Act on a value when there is one. -/
def whenSome {α σ : Type} (o : Option α) (f : α → σ → σ) (s : σ) : σ :=
  match o with
  | some a => f a s
  | none => s

/-- The list with element `i` replaced. -/
def setAt {α : Type} (l : List α) (i : Nat) (a : α) : List α := l.set i a

/-- Element `i` of a list of numbers; 0 past the end. -/
def natAt (l : List Nat) (i : Nat) : Nat := l.getD i 0

/-- A list of numbers with element `i` raised by `n`, padded with zeros where it is short. -/
def addAt (l : List Nat) (i n : Nat) : List Nat :=
  let l := l ++ List.replicate (i + 1 - l.length) 0
  l.set i (natAt l i + n)

/-- The list with no element twice, first occurrences kept. -/
def nub {α : Type} [BEq α] (l : List α) : List α := l.foldl (fun acc a => if acc.contains a then acc else acc ++ [a]) []

/-- Change every element that a test selects. -/
def mapIf {α : Type} (p : α → Bool) (f : α → α) (l : List α) : List α := l.map (fun a => if p a then f a else a)

/-- The sum of a list. -/
def sumL (l : List Nat) : Nat := l.foldl (· + ·) 0

/-- The largest element of a list, 0 for none. -/
def maxL (l : List Nat) : Nat := l.foldl max 0

/-- The least of a list, 0 for none. -/
def minL : List Nat → Nat
  | [] => 0
  | a :: l => l.foldl min a

/-- Insert into a list ordered by a key. -/
def insertBy {α : Type} (le : α → α → Bool) (a : α) : List α → List α
  | [] => [a]
  | b :: bs => if le a b then a :: b :: bs else b :: insertBy le a bs

/-- A list put in the order of a test. -/
def sortBy {α : Type} (le : α → α → Bool) (l : List α) : List α := l.foldl (fun acc a => insertBy le a acc) []

/-! ## Numbers by key -/

/-- The value at a key; 0 for an absent key. -/
def natGet (m : List (Nat × Nat)) (k : Nat) : Nat :=
  match m.find? (fun c => c.1 == k) with
  | some c => c.2
  | none => 0

/-- The map with a value put at a key; the value 0 removes the entry. -/
def natSet (m : List (Nat × Nat)) (k v : Nat) : List (Nat × Nat) :=
  m.filter (fun c => decide (c.1 < k)) ++ (if v = 0 then [] else [(k, v)]) ++ m.filter (fun c => decide (k < c.1))

/-- Keys strictly rising, no value 0. -/
def natMapWf (m : List (Nat × Nat)) : Prop := m.Pairwise (fun a b => a.1 < b.1) ∧ ∀ c ∈ m, c.2 ≠ 0

/-! ## Memory (R34, R273, R365): byte cells in canonical form -/

/-- DESIGN CHOICE (log 3): what an unlisted byte of the hearth, the pantry or the journal window reads as. -/
def Memory.blank : Byte := 0

/-- One byte. -/
def Memory.get (m : List Host.Cell) (a : Nat) : Byte :=
  match m.find? (fun c => c.1 == a) with
  | some c => c.2
  | none => Memory.blank

/-- The cells from an address on. -/
def Memory.from (a : Nat) : List Host.Cell → List Host.Cell
  | [] => []
  | c :: cs => if c.1 < a then Memory.from a cs else c :: cs

/-- `k` bytes in address order, taken in one pass from cells that begin at or after `a`. -/
def Memory.take : Nat → Nat → List Host.Cell → Bytes
  | 0, _, _ => []
  | k + 1, a, [] => Memory.blank :: Memory.take k (a + 1) []
  | k + 1, a, c :: cs =>
    if c.1 = a then c.2 :: Memory.take k (a + 1) cs else Memory.blank :: Memory.take k (a + 1) (c :: cs)

/-- `k` bytes at an address. -/
def Memory.read (m : List Host.Cell) (a k : Nat) : Bytes := Memory.take k a (Memory.from a m)

/-- The cells of a byte string laid at an address: none for a byte equal to the blank. -/
def Memory.cells : Nat → Bytes → List Host.Cell
  | _, [] => []
  | a, b :: bs => if b = Memory.blank then Memory.cells (a + 1) bs else (a, b) :: Memory.cells (a + 1) bs

/-- Write a byte string at an address. -/
def Memory.write (m : List Host.Cell) (a : Nat) (bs : Bytes) : List Host.Cell :=
  m.filter (fun c => decide (c.1 < a)) ++ Memory.cells a bs ++ m.filter (fun c => decide (a + bs.length ≤ c.1))

/-- The canonical form: addresses strictly rising, no entry equal to the blank. -/
abbrev Memory.wf (m : List Host.Cell) : Prop := m.Pairwise (fun a b => a.1 < b.1) ∧ ∀ c ∈ m, c.2 ≠ Memory.blank

end Sys2Proof.Machine
end

