-- ==== Sys2Proof/Machine/Hash.lean ====
section
/-! DEFINITION. Check values and hashes: crc64 (R225, R226), the cyclic checks of the twist unit with CRC-32C among them (R325,
R328), SHA-256 and HMAC (R240, R321, R402), SHA-384 (R393). -/

namespace Sys2Proof.Machine

/-! ## crc64 (R225) -/

/-- One bit of crc64. -/
def crc64Bit (r : Nat) : Nat := if r ≥ 2 ^ 63 then (r * 2 % 2 ^ 64) ^^^ 0x42F0E1EBA9EA3693 else r * 2

/-- One byte of crc64. -/
def crc64Byte (r : Nat) (x : Byte) : Nat :=
  crc64Bit (crc64Bit (crc64Bit (crc64Bit (crc64Bit (crc64Bit (crc64Bit (crc64Bit (r ^^^ (x.toNat * 2 ^ 56)))))))))

/-- crc64(seed, bytes). -/
def crc64 (seed : Nat) (bs : Bytes) : Nat := bs.foldl crc64Byte seed

/-- The stripe hash of stripe t of a region of a hank (Table 8.1). -/
def stripeHash (hank region t : Nat) (bs : Bytes) : Nat := crc64 (hank * 2 ^ 48 + region * 2 ^ 40 + t) bs

/-- Plan digest. -/
def planDigest (bs : Bytes) : Nat := crc64 0xF000000000000001 bs

/-- Skein digest. -/
def skeinDigest (bs : Bytes) : Nat := crc64 0xF000000000000002 bs

/-- Program digest. -/
def programDigest (bs : Bytes) : Nat := crc64 0xF000000000000003 bs

/-- Record digest. -/
def recordDigest (bs : Bytes) : Nat := crc64 0xF000000000000004 bs

/-- Table-set digest. -/
def tableDigest (bs : Bytes) : Nat := crc64 0xF000000000000005 bs

/-- Slot input digest. -/
def slotDigest (site slot : Nat) (bs : Bytes) : Nat := crc64 (0xF100000000000000 + site * 256 + slot) bs

/-- Site output digest. -/
def siteDigest (site : Nat) (bs : Bytes) : Nat := crc64 (0xF200000000000000 + site) bs

/-- A sum taken mod 2^64. -/
def add64 (a b : Nat) : Nat := (a + b) % 2 ^ 64

/-- A difference taken mod 2^64. -/
def sub64 (a b : Nat) : Nat := (a + 2 ^ 64 - b % 2 ^ 64) % 2 ^ 64

/-! ## Cyclic checks of the twist unit (R328) -/

/-- A byte with its bits in reverse order. -/
def revByte (b : Nat) : Nat := (List.range 8).foldl (fun a i => a + (if bit b i then 2 ^ (7 - i) else 0)) 0

/-- A register of `w` bits with its bits in reverse order. -/
def revBits (w n : Nat) : Nat := (List.range w).foldl (fun a i => a + (if bit n i then 2 ^ (w - 1 - i) else 0)) 0

/-- One bit of a check of width `w`, most significant first. -/
def twistBit (w poly : Nat) (r : Nat) (inBit : Bool) : Nat :=
  let top := (r / 2 ^ (w - 1) % 2 == 1) != inBit
  let sh := r * 2 % 2 ^ w
  if top then sh ^^^ poly else sh

/-- One byte of a check; `refin` takes the byte bit 0 first. -/
def twistByte (w poly : Nat) (refin : Bool) (r : Nat) (x : Byte) : Nat :=
  (List.range 8).foldl (fun r i => twistBit w poly r (bit x.toNat (if refin then i else 7 - i))) r

/-- The check value of a byte string from a register value. -/
def twistRun (w poly : Nat) (refin : Bool) (reg : Nat) (bs : Bytes) : Nat := bs.foldl (twistByte w poly refin) reg

/-- The result of a register: reflected out, then xored. -/
def twistOut (w : Nat) (refout : Bool) (xorout reg : Nat) : Nat := (if refout then revBits w reg else reg) ^^^ xorout

/-- One bit of CRC-32C in its reflected form. -/
def crc32cBit (r : Nat) : Nat := if r % 2 = 1 then (r / 2) ^^^ 0x82F63B78 else r / 2

/-- One byte of CRC-32C. -/
def crc32cByte (r : Nat) (x : Byte) : Nat :=
  crc32cBit (crc32cBit (crc32cBit (crc32cBit (crc32cBit (crc32cBit (crc32cBit (crc32cBit (r ^^^ x.toNat))))))))

/-- CRC-32C (R325): width 32, polynomial 0x1EDC_6F41, reflected, init and xorout all ones. -/
def crc32c (bs : Bytes) : Nat := bs.foldl crc32cByte 0xFFFFFFFF ^^^ 0xFFFFFFFF

/-! ## SHA-2 (FIPS 180-4) -/

/-- A prime. -/
def isPrime (n : Nat) : Bool := 2 ≤ n && (List.range n).all (fun d => d < 2 || n % d != 0)

/-- The first 80 primes. -/
def primes80 : List Nat := (List.range 410).filter isPrime

/-- The largest r of `k` bits with r^e ≤ n. -/
def rootGo (e n : Nat) : Nat → Nat → Nat
  | 0, r => r
  | k + 1, r => if (r + 2 ^ k) ^ e ≤ n then rootGo e n k (r + 2 ^ k) else rootGo e n k r

/-- The first 64 fraction bits of the cube root of a prime. -/
def cbrtFrac (p : Nat) : Nat := rootGo 3 (p * 2 ^ 192) 70 0 % 2 ^ 64

/-- The first 64 fraction bits of the square root of a prime. -/
def sqrtFrac (p : Nat) : Nat := rootGo 2 (p * 2 ^ 128) 70 0 % 2 ^ 64

/-- The round constants of SHA-512 and SHA-384. -/
def sha512K : List (BitVec 64) := primes80.map (fun p => BitVec.ofNat 64 (cbrtFrac p))

/-- The round constants of SHA-256. -/
def sha256K : List W32 := (primes80.take 64).map (fun p => BitVec.ofNat 32 (cbrtFrac p / 2 ^ 32))

/-- The initial hash value of SHA-256. -/
def sha256H : List W32 := (primes80.take 8).map (fun p => BitVec.ofNat 32 (sqrtFrac p / 2 ^ 32))

/-- The initial hash value of SHA-384. -/
def sha384H : List (BitVec 64) := ((primes80.drop 8).take 8).map (fun p => BitVec.ofNat 64 (sqrtFrac p))

/-- The rotation and shift amounts of a member of the family: Σ0, Σ1, σ0, σ1. -/
structure ShaAmounts where
  bigA : Nat × Nat × Nat
  bigE : Nat × Nat × Nat
  smallA : Nat × Nat × Nat
  smallB : Nat × Nat × Nat

/-- SHA-256. -/
def amounts256 : ShaAmounts := { bigA := (2, 13, 22), bigE := (6, 11, 25), smallA := (7, 18, 3), smallB := (17, 19, 10) }

/-- SHA-512 and SHA-384. -/
def amounts512 : ShaAmounts := { bigA := (28, 34, 39), bigE := (14, 18, 41), smallA := (1, 8, 7), smallB := (19, 61, 6) }

/-- Three rotations. -/
def rot3 {w : Nat} (t : Nat × Nat × Nat) (x : BitVec w) : BitVec w :=
  x.rotateRight t.1 ^^^ x.rotateRight t.2.1 ^^^ x.rotateRight t.2.2

/-- Two rotations and a shift. -/
def rotShift {w : Nat} (t : Nat × Nat × Nat) (x : BitVec w) : BitVec w :=
  x.rotateRight t.1 ^^^ x.rotateRight t.2.1 ^^^ (x >>> t.2.2)

/-- Word `i` of a list, zero past the end. -/
def wordAt {w : Nat} (l : List (BitVec w)) (i : Nat) : BitVec w := l.getD i 0

/-- The message schedule, newest word first: each further word from the words 2, 7, 15 and 16 before it. -/
def shaSchedule {w : Nat} (am : ShaAmounts) : Nat → List (BitVec w) → List (BitVec w)
  | 0, ws => ws
  | n + 1, ws =>
    shaSchedule am n ((rotShift am.smallB (wordAt ws 1) + wordAt ws 6 + rotShift am.smallA (wordAt ws 14) + wordAt ws 15) :: ws)

/-- One round on the eight working variables. -/
def shaRound {w : Nat} (am : ShaAmounts) (v : List (BitVec w)) (kw : BitVec w × BitVec w) : List (BitVec w) :=
  match v with
  | [a, b, c, d, e, f, g, h] =>
    let t1 := h + rot3 am.bigE e + ((e &&& f) ^^^ (~~~e &&& g)) + kw.1 + kw.2
    let t2 := rot3 am.bigA a + ((a &&& b) ^^^ (a &&& c) ^^^ (b &&& c))
    [t1 + t2, a, b, c, d + t1, e, f, g]
  | _ => v

/-- One block. -/
def shaBlock {w : Nat} (am : ShaAmounts) (ks : List (BitVec w)) (h : List (BitVec w)) (blk : Bytes) : List (BitVec w) :=
  let ws := (pieces (w / 8) blk).map (fun p => BitVec.ofNat w (beNat p))
  let sched := (shaSchedule am (ks.length - 16) ws.reverse).reverse
  List.zipWith (· + ·) h ((List.zip ks sched).foldl (shaRound am) h)

/-- Padding to blocks of `blk` bytes with a length field of `lf` bytes. -/
def shaPad (blk lf : Nat) (bs : Bytes) : Bytes :=
  let z := (blk - (bs.length + 1 + lf) % blk) % blk
  bs ++ [0x80] ++ zeros z ++ toBE lf (8 * bs.length)

/-- A hash of the family. -/
def shaRun {w : Nat} (am : ShaAmounts) (ks h0 : List (BitVec w)) (bs : Bytes) : Bytes :=
  let blk := w * 2
  let h := (pieces blk (shaPad blk (w / 4) bs)).foldl (shaBlock am ks) h0
  h.flatMap (fun x => toBE (w / 8) x.toNat)

/-- SHA-256. -/
def sha256 (bs : Bytes) : Bytes := shaRun amounts256 sha256K sha256H bs

/-- SHA-384. -/
def sha384 (bs : Bytes) : Bytes := (shaRun amounts512 sha512K sha384H bs).take 48

/-- HMAC-SHA-256 (FIPS 198-1). -/
def hmac256 (key msg : Bytes) : Bytes :=
  let k := fit 64 (if key.length > 64 then sha256 key else key)
  let ipad := k.map (fun b => b ^^^ 0x36)
  let opad := k.map (fun b => b ^^^ 0x5C)
  sha256 (opad ++ sha256 (ipad ++ msg))

end Sys2Proof.Machine
end

