-- ==== Sys2Proof/Machine/Ecdsa.lean ====
section
/-! DEFINITION. ECDSA verification over the curve P-384 with SHA-384 (R393). The curve's numbers are those of the standard the
rule names (log 8). -/

namespace Sys2Proof.Machine

namespace P384

/-- The field prime. -/
def p : Nat := 2 ^ 384 - 2 ^ 128 - 2 ^ 96 + 2 ^ 32 - 1

/-- The order of the group. -/
def n : Nat := 0xffffffffffffffffffffffffffffffffffffffffffffffffc7634d81f4372ddf581a0db248b0a77aecec196accc52973

/-- The coefficient b; a is −3. -/
def b : Nat := 0xb3312fa7e23ee7e4988e056be3f82d19181d9c6efe8141120314088f5013875ac656398d8a2ed19d2a85c8edd3ec2aef

/-- The base point's x. -/
def gx : Nat := 0xaa87ca22be8b05378eb1c71ef320ad746e1d3b628ba79b9859f741e082542a385502f25dbf55296c3a545e3872760ab7

/-- The base point's y. -/
def gy : Nat := 0x3617de4a96262c6f5d9e98bf9292dc29f8f41dbd289a147ce9da3113b5f0b8c00a60b1ce1d7e819d7a431d7c90ea0e5f

/-- base^e mod m, over the low `k` bits of e. -/
def powMod (m : Nat) : Nat → Nat → Nat → Nat
  | 0, _, _ => 1
  | k + 1, base, e => let r := powMod m k (base * base % m) (e / 2); if e % 2 = 1 then r * base % m else r

/-- The inverse modulo a prime. -/
def invMod (m a : Nat) : Nat := powMod m 384 (a % m) (m - 2)

/-- a − b mod m. -/
def subMod (m a b : Nat) : Nat := (a + m - b % m) % m

/-- The sum of two points; none is the point at infinity. -/
def addPt (a b : Option (Nat × Nat)) : Option (Nat × Nat) :=
  match a, b with
  | none, q => q
  | q, none => q
  | some (x1, y1), some (x2, y2) =>
    if x1 = x2 && (y1 + y2) % p = 0 then none
    else
      let l :=
        if x1 = x2 then subMod p (3 * x1 * x1) 3 * invMod p (2 * y1) % p
        else subMod p y2 y1 * invMod p (subMod p x2 x1) % p
      let x := subMod p (l * l) (x1 + x2)
      some (x, subMod p (l * subMod p x1 x) y1)

/-- The multiple of a point, over the low `k` bits of the factor. -/
def mulPt : Nat → Nat → Option (Nat × Nat) → Option (Nat × Nat)
  | 0, _, _ => none
  | k + 1, e, q => let r := mulPt k (e / 2) (addPt q q); if e % 2 = 1 then addPt r q else r

/-- Verify a signature (r, s) of a message under a key. -/
def verify (key : Nat × Nat) (msg : Bytes) (r s : Nat) : Bool :=
  if r = 0 || s = 0 || r ≥ n || s ≥ n then false
  else
    let z := beNat (sha384 msg)
    let w := invMod n s
    match addPt (mulPt 384 (z * w % n) (some (gx, gy))) (mulPt 384 (r * w % n) (some key)) with
    | none => false
    | some (x, _) => x % n == r

end P384

end Sys2Proof.Machine
end

