-- ==== Sys2Proof/Machine/Gf.lean ====
section
/-! DEFINITION. GF(2^8) with the polynomial 0x11D and generator 0x02 (R121), and the inverse of a small matrix over it
(R140, R144). -/

namespace Sys2Proof.Machine

namespace Gf

/-- The product with x. -/
def xtime (a : Nat) : Nat := if a ≥ 128 then (2 * a) ^^^ 0x11D else 2 * a

/-- The product, one bit of the first factor at a time. -/
def mulGo : Nat → Nat → Nat → Nat → Nat
  | 0, _, _, acc => acc
  | k + 1, a, b, acc => mulGo k (a / 2) (xtime b) (if a % 2 = 1 then acc ^^^ b else acc)

/-- `gf_mul`. -/
def mul (a b : Nat) : Nat := mulGo 8 a b 0

/-- a to the power n. -/
def pow (a : Nat) : Nat → Nat
  | 0 => 1
  | n + 1 => mul a (pow a n)

/-- g^i; g has order 255 (R121). -/
def gpow (i : Nat) : Nat := pow 2 (i % 255)

/-- The inverse of a non-zero element: its power 254. -/
def inv (a : Nat) : Nat := pow a 254

/-- A field element times every byte of a string. -/
def mulB (c : Nat) (bs : Bytes) : Bytes := bs.map (fun b => BitVec.ofNat 8 (mul c b.toNat))

/-- Row operation on a matrix with an augmented part: scale the pivot row, clear the column elsewhere. -/
def clearCol (col : Nat) (rows : List (List Nat)) (piv : List Nat) : List (List Nat) :=
  rows.map (fun r => List.zipWith (fun x y => x ^^^ mul (natAt r col) y) r piv)

/-- Gauss–Jordan over the columns that remain; rows already used stand in `done`. -/
def solveGo : Nat → Nat → List (List Nat) → List (List Nat) → Option (List (List Nat))
  | 0, _, done, _ => some done
  | n + 1, col, done, rest =>
    match rest.find? (fun r => natAt r col != 0) with
    | none => none
    | some r =>
      let p := r.map (fun x => mul (inv (natAt r col)) x)
      let others := rest.erase r
      solveGo n (col + 1) (clearCol col done p ++ [p]) (clearCol col others p)

/-- The inverse of an e × e matrix, none when it is singular. -/
def inverse (e : Nat) (m : List (List Nat)) : Option (List (List Nat)) :=
  let aug := (List.range e).map (fun i => m.getD i [] ++ (List.range e).map (fun j => if i = j then 1 else 0))
  (solveGo e 0 [] aug).map (fun rows => rows.map (fun r => r.drop e))

end Gf

end Sys2Proof.Machine
end

