-- ==== Sys2Proof/Machine/Fp.lean ====
section
/-! DEFINITION. The arithmetic of the carder and of landing (R77, R108 to R111, R115): IEEE 754 binary32 by exact integer
arithmetic and one rounding, conversions to BF16, FP8 and E2M1, and the reciprocal square root method. Values are bit
patterns. -/

namespace Sys2Proof.Machine

namespace Fp

/-- The canonical NaN (R108). -/
def qnan : W32 := 0x7FC00000

/-- +infinity. -/
def pinf : W32 := 0x7F800000

/-- +0.0. -/
def pzero : W32 := 0

/-- Sign bit. -/
def sgn (w : W32) : Bool := w.toNat / 2 ^ 31 == 1

/-- The bits below the sign. -/
def mag (w : W32) : Nat := w.toNat % 2 ^ 31

/-- A NaN. -/
def isNaN (w : W32) : Bool := mag w > 0x7F800000

/-- An infinity. -/
def isInf (w : W32) : Bool := mag w == 0x7F800000

/-- +0 or −0. -/
def isZero (w : W32) : Bool := mag w == 0

/-- The integer significand of a finite value. -/
def sig (w : W32) : Nat :=
  let e := mag w / 2 ^ 23
  let f := mag w % 2 ^ 23
  if e = 0 then f else f + 2 ^ 23

/-- The exponent of the significand's unit: value = sig × 2^exp. -/
def exp (w : W32) : Int :=
  let e : Nat := mag w / 2 ^ 23
  if e = 0 then -149 else (e : Int) - 150

/-- A pattern with a sign put to a magnitude. -/
def withSign (s : Bool) (m : Nat) : W32 := BitVec.ofNat 32 (if s then 2 ^ 31 + m % 2 ^ 31 else m % 2 ^ 31)

/-- The signed infinity. -/
def infS (s : Bool) : W32 := withSign s 0x7F800000

/-- Bit length of a number. -/
def bitLen (n : Nat) : Nat := if n = 0 then 0 else n.log2 + 1

/-- |value| = m × 2^e (a little more when `sticky`) rounded to a multiple of 2^q, to nearest, ties to even. -/
def roundTo (m : Nat) (e q : Int) (sticky : Bool) : Nat :=
  if q ≤ e then m * 2 ^ (e - q).toNat
  else
    let k := (q - e).toNat
    let hi := m / 2 ^ k
    let lo := m % 2 ^ k
    let half := 2 ^ (k - 1)
    if lo > half || (lo == half && (sticky || hi % 2 == 1)) then hi + 1 else hi

/-- The spacing exponent of a format with `p` fraction bits and smallest normal exponent `emin` at m × 2^e. -/
def spacing (p : Nat) (emin : Int) (m : Nat) (e : Int) : Int :=
  max ((bitLen m : Int) - 1 + e - p) (emin - p)

/-- The exponent-and-fraction code of M × 2^q: a carry out of the fraction moves into the exponent. -/
def pack (p : Nat) (emin q : Int) (m : Nat) : Nat := (q - (emin - p)).toNat * 2 ^ p + m

/-- Round to binary32 (R108). -/
def round32 (s : Bool) (m : Nat) (e : Int) (sticky : Bool) : W32 :=
  if m = 0 then withSign s 0
  else
    let q := spacing 23 (-126) m e
    let c := pack 23 (-126) q (roundTo m e q sticky)
    if c ≥ 0x7F800000 then infS s else withSign s c

/-- Round a signed exact sum; an exact zero is +0, or −0 when both addends were −0. -/
def roundInt (v : Int) (e : Int) (bothNegZero : Bool) : W32 :=
  if v = 0 then withSign bothNegZero 0 else round32 (decide (v < 0)) v.natAbs e false

/-- The signed significand. -/
def sInt (w : W32) : Int := if sgn w then -(sig w : Int) else sig w

/-- x × 2^ex + y × 2^ey, exact, rounded once. -/
def sumExact (x : Int) (ex : Int) (xNegZero : Bool) (y : Int) (ey : Int) (yNegZero : Bool) : W32 :=
  let e := min ex ey
  roundInt (x * 2 ^ (ex - e).toNat + y * 2 ^ (ey - e).toNat) e (x == 0 && y == 0 && xNegZero && yNegZero)

/-- a + b. -/
def add (a b : W32) : W32 :=
  if isNaN a || isNaN b then qnan
  else if isInf a then (if isInf b && sgn a != sgn b then qnan else a)
  else if isInf b then b
  else sumExact (sInt a) (exp a) (sgn a) (sInt b) (exp b) (sgn b)

/-- a with its sign inverted (numbers only). -/
def flip (a : W32) : W32 := a ^^^ 0x80000000

/-- a − b. -/
def sub (a b : W32) : W32 := if isNaN a || isNaN b then qnan else add a (flip b)

/-- a × b. -/
def mul (a b : W32) : W32 :=
  let s := sgn a != sgn b
  if isNaN a || isNaN b then qnan
  else if isInf a then (if isZero b then qnan else infS s)
  else if isInf b then (if isZero a then qnan else infS s)
  else round32 s (sig a * sig b) (exp a + exp b) false

/-- a × b + c with one rounding. -/
def fma (a b c : W32) : W32 :=
  let s := sgn a != sgn b
  if isNaN a || isNaN b || isNaN c then qnan
  else if isInf a || isInf b then
    if isZero a || isZero b then qnan
    else if isInf c && sgn c != s then qnan
    else infS s
  else if isInf c then c
  else
    let m : Int := (sig a * sig b : Nat)
    sumExact (if s then -m else m) (exp a + exp b) s (sInt c) (exp c) (sgn c)

/-- c − a × b with one rounding. -/
def fnm (a b c : W32) : W32 :=
  if isNaN a || isNaN b || isNaN c then qnan else fma (flip a) b c

/-- a / b, correctly rounded. -/
def div (a b : W32) : W32 :=
  let s := sgn a != sgn b
  if isNaN a || isNaN b then qnan
  else if isInf a then (if isInf b then qnan else infS s)
  else if isInf b then withSign s 0
  else if isZero b then (if isZero a then qnan else infS s)
  else
    let n := sig a * 2 ^ 64
    round32 s (n / sig b) (exp a - exp b - 64) (n % sig b != 0)

/-- The integer square root of `n`, below 2^k, found bit by bit. -/
def isqrtGo (n : Nat) : Nat → Nat → Nat
  | 0, r => r
  | k + 1, r => if (r + 2 ^ k) * (r + 2 ^ k) ≤ n then isqrtGo n k (r + 2 ^ k) else isqrtGo n k r

/-- The integer square root. -/
def isqrt (n : Nat) : Nat := isqrtGo n (bitLen n / 2 + 1) 0

/-- Square root, correctly rounded. -/
def sqrt (a : W32) : W32 :=
  if isNaN a then qnan
  else if isZero a then a
  else if sgn a then qnan
  else if isInf a then a
  else
    let odd := exp a % 2 != 0
    let m := if odd then 2 * sig a else sig a
    let e := if odd then exp a - 1 else exp a
    let n := m * 2 ^ 80
    let r := isqrt n
    round32 false r (e / 2 - 40) (r * r != n)

/-- a > b, for numbers. -/
def gt (a b : W32) : Bool :=
  if isZero a && isZero b then false
  else if sgn a then (sgn b && mag a < mag b)
  else (sgn b || mag a > mag b)

/-- The entry t[i] of the reciprocal-square-root table: 4,096 × sqrt(128 / (129 + 2i)) to the nearest integer (R109):
floor(s + 1/2) is the half of floor(2s) + 1, and 4s² = 4 × 128 × 4,096² / (129 + 2i). -/
def rsqTable (i : Nat) : Nat :=
  let d := 129 + 2 * i
  (isqrt (4 * 128 * 4096 * 4096 / d) + 1) / 2

/-- One Newton step of R109. -/
def rsqStep (h y : W32) : W32 := mul y (sub 0x3FC00000 (mul h (mul y y)))

/-- The reciprocal square root by the method of R109. -/
def rsq (a : W32) : W32 :=
  if isNaN a then qnan
  else if isZero a then (if sgn a then infS true else pinf)
  else if sgn a then qnan
  else if isInf a then pzero
  else
    let l := bitLen (sig a)
    let fr := sig a * 2 ^ (24 - l) % 2 ^ 23
    let e : Int := exp a + (l : Int) - 1
    let even := e % 2 == 0
    let ep := if even then e else e - 1
    let i := if even then fr / 2 ^ 17 else 64 + fr / 2 ^ 16
    let y := round32 false (rsqTable i) (-12) false
    let h := round32 false (2 ^ 23 + fr) (if even then -24 else -23) false
    let y2 := rsqStep h (rsqStep h y)
    round32 false (sig y2) (exp y2 - ep / 2) false

/-! ## Conversions (R110, R111, R115) -/

/-- FP32 to BF16, round-to-nearest-even. -/
def toBf16 (w : W32) : BitVec 16 :=
  if isNaN w then 0x7FC0
  else if isInf w then BitVec.ofNat 16 (w.toNat / 65536)
  else
    let n := w.toNat
    BitVec.ofNat 16 ((n + 0x7FFF + n / 65536 % 2) / 65536)

/-- FP32 to BF16 with 16 random bits. -/
def toBf16Sr (w : W32) (r : Nat) : BitVec 16 :=
  if isNaN w then 0x7FC0
  else if isInf w then BitVec.ofNat 16 (w.toNat / 65536)
  else BitVec.ofNat 16 ((w.toNat + r) / 65536)

/-- BF16 widened exactly to FP32. -/
def ofBf16 (h : BitVec 16) : W32 := BitVec.ofNat 32 (h.toNat * 65536)

/-- A narrow grid: fraction bits, smallest normal exponent, largest code. -/
structure Grid where
  p : Nat
  emin : Int
  top : Nat
  deriving DecidableEq, Repr

/-- FP8 E4M3: largest finite value 448 is code 0x7E. -/
def e4m3 : Grid := { p := 3, emin := -6, top := 0x7E }

/-- FP8 E5M2: largest finite value 57,344 is code 0x7B. -/
def e5m2 : Grid := { p := 2, emin := -14, top := 0x7B }

/-- E2M1: largest value 6 is code 7. -/
def e2m1 : Grid := { p := 1, emin := 0, top := 7 }

/-- The magnitude code of m × 2^e on a grid, and whether it saturated; `r` is the 16 random bits of a stochastic rounding
(R111). -/
def toGrid (g : Grid) (m : Nat) (e : Int) (r : Option Nat) : Nat × Bool :=
  if m = 0 then (0, false)
  else
    let q := spacing g.p g.emin m e
    let k : Nat :=
      match r with
      | none => roundTo m e q false
      | some r =>
        if q ≤ e then m * 2 ^ (e - q).toNat
        else
          let sh := (q - e).toNat
          let lo := m % 2 ^ sh
          if lo * 65536 / 2 ^ sh + r ≥ 65536 then m / 2 ^ sh + 1 else m / 2 ^ sh
    let c := pack g.p g.emin q k
    if c > g.top then (g.top, true) else (c, false)

/-- FP32 to an FP8 code and whether it saturated; `nan` is the format's NaN code. -/
def toFp8 (g : Grid) (nan : Nat) (w : W32) (r : Option Nat) : Nat × Bool :=
  if isNaN w then (nan, false)
  else
    let s := if sgn w then 128 else 0
    if isInf w then (s + g.top, true)
    else
      let c := toGrid g (sig w) (exp w) r
      (s + c.1, c.2)

/-- The value of an FP8 code widened to FP32 (exact); E4M3 has no infinity. -/
def ofFp8 (g : Grid) (ieee : Bool) (c : Nat) : W32 :=
  let s := c / 128 % 2 == 1
  let m := c % 128
  if m > g.top then (if ieee && m == 0x7C then infS s else qnan)
  else
    let ex := m / 2 ^ g.p
    let fr := m % 2 ^ g.p
    if ex = 0 then round32 s fr (g.emin - g.p) false
    else round32 s (fr + 2 ^ g.p) (g.emin - g.p + ex - 1) false

/-! ## MXFP4 (R115) -/

/-- A block's scale byte, from the masters at its mask-1 positions. -/
def mxScale (ws : List W32) : Nat :=
  if ws.any isNaN then 0xFF
  else if ws.any isInf then 0xFE
  else
    let top := maxL (ws.map mag)
    if top = 0 then 0x7F
    else
      let w : W32 := BitVec.ofNat 32 top
      let lg : Int := exp w + (bitLen (sig w) : Int) - 1
      (max (-127) (lg - 2) + 127).toNat

/-- One element of a block with the given scale byte, and whether it saturated. -/
def mxElem (scale : Nat) (w : W32) (r : Option Nat) : Nat × Bool :=
  if scale = 0xFF then (0, false)
  else
    let s := if sgn w then 8 else 0
    if isInf w then (s + 7, true)
    else if isNaN w then (0, false)
    else
      let c := toGrid e2m1 (sig w) (exp w - ((scale : Int) - 127)) r
      (if c.1 = 0 then 0 else s + c.1, c.2)

end Fp

end Sys2Proof.Machine
end

