-- ==== Sys2Proof/Machine/Entries.lean ====
section
/-! DEFINITION. The object dictionary's entries: address, type, access code, default and range (R404 to R406, Tables 0.3, 14.1,
14.2 and the entry tables of every chapter). A default or range that the build fixes, or that a rule checks in its own way, is
given where the entry is read or written (Machine/Dict.lean, Machine/DictWrite.lean). -/

namespace Sys2Proof.Machine

/-- Entry types (Table 14.2). -/
inductive EntryTy where
  | bool | u8 | u16 | u32 | u64 | i32 | f32 | str | dom
  deriving DecidableEq, Repr

/-- Access codes (R9, Table 0.3). -/
inductive EntryAcc where
  | ro | rw | rs | rc | wo
  deriving DecidableEq, Repr

/-- A row of an entry table: the indices and subindices it covers, type, access, default, and the range of the value (of the
length, for STR and DOM). -/
structure EntryRow where
  idxLo : Nat
  idxHi : Nat
  subLo : Nat
  subHi : Nat
  ty : EntryTy
  acc : EntryAcc
  dflt : Nat
  lo : Nat
  hi : Nat
  deriving DecidableEq, Repr

/-- A row of the table. -/
def row (idxLo idxHi subLo subHi : Nat) (ty : EntryTy) (acc : EntryAcc) (dflt lo hi : Nat) : EntryRow :=
  { idxLo := idxLo, idxHi := idxHi, subLo := subLo, subHi := subHi, ty := ty, acc := acc, dflt := dflt, lo := lo, hi := hi }

namespace EntryTy

/-- Bytes of a scalar value (Table 14.2); 0 for STR and DOM. -/
def bytes : EntryTy → Nat
  | .bool | .u8 => 1
  | .u16 => 2
  | .u32 | .i32 | .f32 => 4
  | .u64 => 8
  | .str | .dom => 0

/-- STR and DOM carry their own length. -/
def isBlob : EntryTy → Bool
  | .str | .dom => true
  | _ => false

end EntryTy

/-- Rows of the chapters' entry tables, part 1. -/
def entryRows1 : List EntryRow := [
  row 0x1000 0x1000 0x01 0x01 .u32 .ro 0x30001 0 0xFFFFFFFF,
  row 0x1000 0x1000 0x02 0x02 .u8 .ro 0 0 255,
  row 0x1000 0x1000 0x03 0x03 .u16 .ro 0 0 0xFFFF,
  row 0x1000 0x1000 0x04 0x04 .u8 .ro 0 0 255,
  row 0x1000 0x1000 0x05 0x05 .u8 .ro 0 0 255,
  row 0x1000 0x1000 0x06 0x06 .u32 .ro 0 0 0xFFFFFFFF,
  row 0x1000 0x1000 0x07 0x07 .u8 .ro 0 0 255,
  row 0x1000 0x1000 0x08 0x08 .u16 .ro 0x1000 0 0xFFFF,
  row 0x1000 0x1000 0x09 0x09 .str .ro 0 0 0x100,
  row 0x1000 0x1000 0x0A 0x0A .u32 .ro 0x30001 0 0xFFFFFFFF,
  row 0x1000 0x1000 0x0B 0x0B .u64 .ro 0 0 0xFFFFFFFFFFFFFFFF,
  row 0x10FB 0x10FB 0x01 0x01 .u32 .rw 0 0 0xFFFFFF,
  row 0x10FB 0x10FB 0x02 0x02 .u8 .ro 0 0 255,
  row 0x10FB 0x10FB 0x03 0x03 .dom .ro 0 0 0x100000,
  row 0x10FC 0x10FC 0x01 0x01 .u32 .ro 0 0 0xFFFFFFFF,
  row 0x10FC 0x10FC 0x02 0x02 .u8 .ro 0 0 255,
  row 0x10FC 0x10FC 0x03 0x03 .u8 .ro 0 0 255,
  row 0x10FD 0x10FD 0x01 0x01 .u32 .rw 0 0 0xFFFFFF,
  row 0x10FD 0x10FD 0x02 0x02 .u32 .rw 0 0 0x10103C,
  row 0x10FD 0x10FD 0x03 0x03 .u32 .rw 0 0 0xFFFFFFFF,
  row 0x10FD 0x10FD 0x04 0x04 .u32 .wo 0 1 0x101040,
  row 0x10FD 0x10FD 0x05 0x05 .u32 .ro 0 0 0xFFFFFFFF,
  row 0x10FE 0x10FE 0x01 0x01 .u32 .ro 0 0 0xFFFFFFFF,
  row 0x10FE 0x10FE 0x02 0x02 .u32 .rw 0 0 0xFFFFFFFF,
  row 0x1100 0x1100 0x01 0x01 .u16 .rw 0xFFFF 0 0xFFFE,
  row 0x1100 0x1100 0x02 0x02 .u16 .ro 0 0 0xFFFF,
  row 0x1100 0x1100 0x03 0x03 .u32 .ro 0 0 0xFFFFFFFF,
  row 0x1100 0x1100 0x04 0x04 .u8 .ro 0 0 255,
  row 0x1110 0x1110 0x01 0x01 .dom .wo 0 32 32,
  row 0x1110 0x1110 0x02 0x02 .dom .wo 0 32 32,
  row 0x1110 0x1110 0x03 0x03 .u8 .ro 0 0 255,
  row 0x1120 0x1120 0x01 0x01 .u16 .ro 0 0 0xFFFF,
  row 0x1120 0x1120 0x02 0x02 .u16 .ro 0 0 0xFFFF,
  row 0x1120 0x1120 0x03 0x03 .dom .rs 0 0 0x800,
  row 0x1130 0x1130 0x01 0x06 .u32 .rs 0x2710 10 0x989680,
  row 0x1140 0x1140 0x01 0x01 .dom .ro 0 48 48,
  row 0x1150 0x1150 0x01 0x01 .u16 .rs 0 0 240,
  row 0x1200 0x1200 0x01 0x01 .u64 .ro 0 0 0xFFFFFFFFFFFFFFFF,
  row 0x1200 0x1200 0x02 0x02 .u64 .ro 0 0 0xFFFFFFFFFFFFFFFF,
  row 0x1200 0x1200 0x03 0x03 .u8 .ro 0 0 255,
  row 0x1200 0x1200 0x04 0x04 .u64 .ro 0 0 0xFFFFFFFFFFFFFFFF,
  row 0x1200 0x1200 0x05 0x05 .u64 .ro 0 0 0xFFFFFFFFFFFFFFFF,
  row 0x1200 0x1200 0x06 0x06 .u64 .ro 0 0 0xFFFFFFFFFFFFFFFF,
  row 0x1200 0x1200 0x07 0x07 .u32 .ro 0 0 0xFFFFFFFF,
  row 0x1200 0x1200 0x08 0x08 .u32 .rs 0x44C 0x352 0x4E2]

/-- Rows of the chapters' entry tables, part 2. -/
def entryRows2 : List EntryRow := [
  row 0x1210 0x1210 0x01 0x01 .u8 .ro 0 0 255,
  row 0x1210 0x1210 0x02 0x02 .u8 .ro 0 0 255,
  row 0x1210 0x1210 0x03 0x03 .u8 .ro 255 0 255,
  row 0x1210 0x1210 0x04 0x04 .u64 .ro 0 0 0xFFFFFFFFFFFFFFFF,
  row 0x1210 0x1210 0x05 0x05 .u64 .ro 0 0 0xFFFFFFFFFFFFFFFF,
  row 0x1210 0x1210 0x06 0x06 .u64 .ro 0 0 0xFFFFFFFFFFFFFFFF,
  row 0x1220 0x1220 0x01 0x01 .dom .wo 0 0 0x100000,
  row 0x1220 0x1220 0x02 0x02 .u64 .ro 0 0 0xFFFFFFFFFFFFFFFF,
  row 0x1220 0x1220 0x03 0x03 .u64 .ro 0 0 0xFFFFFFFFFFFFFFFF,
  row 0x1220 0x1220 0x04 0x04 .u64 .ro 0 0 0xFFFFFFFFFFFFFFFF,
  row 0x1230 0x1230 0x01 0x01 .u64 .wo 0 0 0xFFFFFFFFFFFFFFFF,
  row 0x2000 0x2000 0x01 0x01 .u16 .ro 0xFFFF 0 0xFFFF,
  row 0x2000 0x2000 0x02 0x02 .u8 .ro 0 0 255,
  row 0x2000 0x2000 0x03 0x03 .u32 .ro 0 0 0xFFFFFFFF,
  row 0x2000 0x2000 0x04 0x04 .u16 .ro 0 0 0xFFFF,
  row 0x2000 0x2000 0x05 0x05 .u8 .ro 255 0 255,
  row 0x2000 0x2000 0x06 0x06 .u16 .ro 0 0 0xFFFF,
  row 0x2000 0x2000 0x07 0x07 .u16 .ro 0 0 0xFFFF,
  row 0x2000 0x2000 0x08 0x08 .u8 .ro 0 0 255,
  row 0x2000 0x2000 0x09 0x09 .u8 .ro 255 0 255,
  row 0x2000 0x2000 0x0A 0x0A .u64 .ro 0 0 0xFFFFFFFFFFFFFFFF,
  row 0x2001 0x2001 0x01 0x01 .u16 .rs 100 10 0x2710,
  row 0x2001 0x2001 0x02 0x02 .u8 .rs 20 2 255,
  row 0x2001 0x2001 0x03 0x03 .u32 .rs 0x1388 0 0xF4240,
  row 0x2001 0x2001 0x04 0x04 .u32 .rs 0x3E8 100 0xF4240,
  row 0x2010 0x2010 0x01 0x01 .dom .wo 0 48 48,
  row 0x2010 0x2010 0x02 0x02 .dom .ro 0 0 48,
  row 0x2010 0x2010 0x03 0x03 .u16 .ro 0 0 0xFFFF,
  row 0x2010 0x2010 0x04 0x04 .dom .ro 0 0 224,
  row 0x2020 0x2020 0x01 0x01 .dom .ro 0 0 0x300,
  row 0x2030 0x2030 0x01 0x01 .u8 .ro 0 0 255,
  row 0x2030 0x2030 0x02 0x02 .u16 .ro 0 0 0xFFFF,
  row 0x2040 0x2040 0x01 0x01 .u8 .ro 0 0 255,
  row 0x2040 0x2040 0x02 0x02 .u16 .ro 0 0 0xFFFF,
  row 0x2040 0x2040 0x03 0x03 .u64 .ro 0 0 0xFFFFFFFFFFFFFFFF,
  row 0x2040 0x2040 0x04 0x04 .u64 .ro 0 0 0xFFFFFFFFFFFFFFFF,
  row 0x2040 0x2040 0x05 0x05 .u64 .ro 0 0 0xFFFFFFFFFFFFFFFF,
  row 0x2040 0x2040 0x06 0x06 .u64 .ro 0 0 0xFFFFFFFFFFFFFFFF,
  row 0x2040 0x2040 0x07 0x07 .dom .wo 0 0x1008 0x1008,
  row 0x2050 0x2050 0x01 0x01 .u16 .rs 0xFFFF 0 0xFFFF,
  row 0x2050 0x2050 0x02 0x02 .u64 .rs 0 0 0xFFFFFFFFFFFFFFFF,
  row 0x2050 0x2050 0x03 0x03 .u8 .ro 0 0 255,
  row 0x2050 0x2050 0x04 0x04 .u64 .ro 0 0 0xFFFFFFFFFFFFFFFF,
  row 0x2050 0x2050 0x05 0x05 .u8 .ro 0 0 255,
  row 0x2050 0x2050 0x06 0x06 .u64 .ro 0 0 0xFFFFFFFFFFFFFFFF]

/-- Rows of the chapters' entry tables, part 3. -/
def entryRows3 : List EntryRow := [
  row 0x2060 0x2060 0x01 0x01 .u64 .rs 0 0 0xFFFFFFFFFFFFFFFF,
  row 0x2060 0x2060 0x02 0x02 .u32 .rs 0 0 0xFFFFFFFF,
  row 0x2060 0x2060 0x03 0x03 .u64 .ro 0 0 0xFFFFFFFFFFFFFFFF,
  row 0x2060 0x2060 0x04 0x04 .u64 .ro 0 0 0xFFFFFFFFFFFFFFFF,
  row 0x2060 0x2060 0x05 0x05 .u64 .ro 0 0 0xFFFFFFFFFFFFFFFF,
  row 0x2060 0x2060 0x06 0x06 .u32 .ro 0 0 0xFFFFFFFF,
  row 0x2060 0x2060 0x07 0x07 .u64 .ro 0 0 0xFFFFFFFFFFFFFFFF,
  row 0x2061 0x2061 0x01 0x01 .u64 .rw 0xD18C2E28000 1 0xFFFFFFFFFFFFFFFF,
  row 0x2061 0x2061 0x02 0x02 .u32 .rw 0 0 0xFFFFFFFF,
  row 0x2061 0x2061 0x03 0x03 .u64 .rw 0 0 0xFFFFFFFFFFFFFFFF,
  row 0x2070 0x2070 0x01 0x01 .u16 .rw 0xFFFF 0 0xFFFF,
  row 0x2070 0x2070 0x02 0x02 .u8 .ro 0 0 255,
  row 0x2070 0x2070 0x03 0x03 .u64 .ro 0 0 0xFFFFFFFFFFFFFFFF,
  row 0x2100 0x2100 0x01 0x01 .u8 .ro 0 0 255,
  row 0x2100 0x2100 0x02 0x02 .u8 .ro 0 0 255,
  row 0x2100 0x2100 0x03 0x03 .u8 .ro 0 0 255,
  row 0x2100 0x2100 0x04 0x04 .u32 .ro 0 0 0xFFFFFFFF,
  row 0x2100 0x2100 0x05 0x05 .u64 .ro 0 0 0xFFFFFFFFFFFFFFFF,
  row 0x2100 0x2100 0x06 0x06 .u32 .ro 0 0 0xFFFFFFFF,
  row 0x2100 0x2100 0x07 0x07 .u32 .ro 0 0 0xFFFFFFFF,
  row 0x2110 0x2110 0x01 0x01 .u8 .rs 4 2 64,
  row 0x2200 0x2200 0x01 0x01 .u8 .ro 0 0 255,
  row 0x2200 0x2200 0x02 0x02 .u8 .ro 0 0 255,
  row 0x2210 0x2210 0x01 0x01 .dom .rw 0 0 0x4000,
  row 0x2210 0x2210 0x02 0x02 .u32 .ro 0 0 0xFFFFFFFF,
  row 0x2220 0x2220 0x01 0x01 .u64 .ro 0 0 0xFFFFFFFFFFFFFFFF,
  row 0x2220 0x2220 0x02 0x02 .u64 .ro 0 0 0xFFFFFFFFFFFFFFFF,
  row 0x2220 0x2220 0x03 0x03 .u64 .ro 0 0 0xFFFFFFFFFFFFFFFF,
  row 0x2220 0x2220 0x04 0x04 .u64 .ro 0 0 0xFFFFFFFFFFFFFFFF,
  row 0x2300 0x233F 0x01 0x01 .dom .ro 0 0 0x310,
  row 0x2300 0x233F 0x02 0x02 .u8 .ro 0 0 255,
  row 0x2300 0x233F 0x03 0x03 .u64 .ro 0 0 0xFFFFFFFFFFFFFFFF,
  row 0x2300 0x233F 0x04 0x04 .u8 .ro 0 0 255,
  row 0x2300 0x233F 0x05 0x05 .bool .ro 0 0 1,
  row 0x2300 0x233F 0x10 0x1D .f32 .rs 0 0 0xFFFFFFFF,
  row 0x2400 0x2400 0x01 0x01 .dom .rs 0 0x20000 0x20000,
  row 0x2400 0x2400 0x02 0x02 .u64 .ro 0 0 0xFFFFFFFFFFFFFFFF,
  row 0x2400 0x2400 0x03 0x03 .u64 .ro 0 0 0xFFFFFFFFFFFFFFFF,
  row 0x2400 0x2400 0x04 0x04 .u8 .ro 0 0 255,
  row 0x2410 0x2410 0x01 0x01 .dom .rs 0 0 0x20000,
  row 0x2410 0x2410 0x02 0x02 .u16 .ro 0 0 0xFFFF,
  row 0x2410 0x2410 0x03 0x03 .u64 .ro 0 0 0xFFFFFFFFFFFFFFFF,
  row 0x2500 0x2500 0x01 0x01 .u8 .ro 0 0 255,
  row 0x2500 0x2500 0x02 0x02 .u8 .ro 0 0 255,
  row 0x2510 0x251F 0x01 0x03 .u64 .ro 0 0 0xFFFFFFFFFFFFFFFF]

/-- Rows of the chapters' entry tables, part 4. -/
def entryRows4 : List EntryRow := [
  row 0x2510 0x251F 0x04 0x06 .u64 .ro 0 0 0xFFFFFFFFFFFFFFFF,
  row 0x2520 0x2520 0x01 0x01 .dom .wo 0 24 24,
  row 0x2530 0x2530 0x01 0x01 .u8 .ro 0 0 255,
  row 0x2530 0x2530 0x02 0x02 .u64 .ro 0 0 0xFFFFFFFFFFFFFFFF,
  row 0x2540 0x2540 0x01 0x01 .u32 .rs 100 10 0x186A0,
  row 0x2600 0x2600 0x01 0x01 .u32 .rs 0 0 0x10000,
  row 0x2600 0x2600 0x02 0x02 .u64 .rs 0 0 0xFFFFFFFFFFFFFFFF,
  row 0x2600 0x2600 0x03 0x03 .dom .wo 0 32 32,
  row 0x2600 0x2600 0x04 0x04 .bool .rs 0 0 1,
  row 0x2600 0x2600 0x05 0x05 .u64 .rs 0 0 0xFFFFFFFFFFFFFFFF,
  row 0x2600 0x2600 0x06 0x06 .u32 .rs 100 1 0x186A0,
  row 0x2610 0x2610 0x01 0x01 .dom .ro 0 0 0x10020,
  row 0x2610 0x2610 0x02 0x02 .u64 .rw 0 0 0xFFFFFFFFFFFFFFFF,
  row 0x2610 0x2610 0x03 0x03 .dom .ro 0 0 0x10020,
  row 0x2610 0x2610 0x04 0x04 .u64 .ro 0 0 0xFFFFFFFFFFFFFFFF,
  row 0x2610 0x2610 0x05 0x05 .u64 .ro 0 0 0xFFFFFFFFFFFFFFFF,
  row 0x2610 0x2610 0x06 0x06 .dom .ro 0 0 0x100,
  row 0x2610 0x2610 0x07 0x07 .u16 .rw 0xFFFF 0 0xFFFF,
  row 0x2620 0x2620 0x01 0x01 .u8 .ro 0 0 255,
  row 0x2620 0x2620 0x02 0x02 .dom .ro 0 0 96,
  row 0x2620 0x2620 0x03 0x03 .u8 .ro 0 0 255,
  row 0x2630 0x2630 0x01 0x01 .dom .wo 0 16 16,
  row 0x2630 0x2630 0x02 0x02 .dom .ro 0 0 0x1010,
  row 0x2640 0x2640 0x01 0x01 .dom .wo 0 0 0x21000,
  row 0x2640 0x2640 0x02 0x02 .dom .ro 0 0 48,
  row 0x2640 0x2640 0x03 0x03 .u8 .ro 0 0 255,
  row 0x2640 0x2640 0x04 0x04 .u64 .ro 0 0 0xFFFFFFFFFFFFFFFF,
  row 0x2650 0x2650 0x01 0x01 .dom .ro 0 0 0x101040,
  row 0x2650 0x2650 0x02 0x02 .dom .wo 0 0 0x101040,
  row 0x2700 0x27FF 0x01 0x01 .u8 .ro 0 0 255,
  row 0x2700 0x27FF 0x02 0x02 .u8 .rs 32 8 64,
  row 0x2700 0x27FF 0x03 0x03 .u64 .rs 0x1EDC6F41 0 0xFFFFFFFFFFFFFFFF,
  row 0x2700 0x27FF 0x04 0x04 .u64 .rs 0xFFFFFFFF 0 0xFFFFFFFFFFFFFFFF,
  row 0x2700 0x27FF 0x05 0x05 .u8 .rs 3 0 7,
  row 0x2700 0x27FF 0x06 0x06 .u64 .rs 0xFFFFFFFF 0 0xFFFFFFFFFFFFFFFF,
  row 0x2700 0x27FF 0x07 0x07 .u64 .ro 0 0 0xFFFFFFFFFFFFFFFF,
  row 0x2700 0x27FF 0x08 0x08 .dom .rs 0 40 40,
  row 0x2700 0x27FF 0x0A 0x0A .u64 .ro 0xE3069283 0 0xFFFFFFFFFFFFFFFF,
  row 0x3000 0x3000 0x01 0x01 .u8 .ro 0 0 255,
  row 0x3010 0x3010 0x01 0x0C .u64 .rs 0xFFFFFFFFFFFFFFFF 1 0xFFFFFFFFFFFFFFFF,
  row 0x3020 0x3020 0x01 0x01 .u32 .rs 0xFFFFFFFF 0 0xFFFFFFFF,
  row 0x3040 0x3040 0x01 0x01 .dom .ro 0 0 0x800,
  row 0x3040 0x3040 0x02 0x02 .dom .wo 0 0x1008 0x1008,
  row 0x3050 0x3050 0x01 0x01 .u16 .ro 0 0 0xFFFF,
  row 0x3050 0x3050 0x02 0x02 .u16 .rs 0x280 64 0x3FF]

/-- Rows of the chapters' entry tables, part 5. -/
def entryRows5 : List EntryRow := [
  row 0x3050 0x3050 0x03 0x03 .u16 .rs 0x300 64 0x3FF,
  row 0x3050 0x3050 0x04 0x04 .u8 .ro 0 0 255,
  row 0x3050 0x3050 0x05 0x05 .bool .rs 1 0 1,
  row 0x3050 0x3050 0x06 0x06 .u8 .ro 0 0 255,
  row 0x3050 0x3050 0x07 0x07 .u32 .rs 0x3E8 100 0x186A0,
  row 0x3051 0x3051 0x01 0x06 .u16 .ro 0 0 0xFFFF,
  row 0x3060 0x3060 0x01 0x10 .f32 .ro 0 0 0xFFFFFFFF,
  row 0x3060 0x3060 0x11 0x18 .f32 .ro 0 0 0xFFFFFFFF,
  row 0x3061 0x3061 0x01 0x01 .dom .rs 0 0x180 0x180,
  row 0x3061 0x3061 0x02 0x02 .u64 .ro 0 0 0xFFFFFFFFFFFFFFFF,
  row 0x3062 0x3062 0x01 0x01 .f32 .rs 0x42BE0000 0x42700000 0x42FA0000,
  row 0x3062 0x3062 0x02 0x02 .f32 .rs 0x42DC0000 0x42700000 0x43020000,
  row 0x3070 0x3070 0x01 0x01 .u64 .ro 0 0 0xFFFFFFFFFFFFFFFF,
  row 0x3070 0x3070 0x02 0x02 .u64 .rw 0 0 0xFFFFFFFFFFFFFFFF,
  row 0x3070 0x3070 0x03 0x03 .dom .ro 0 0 0x400,
  row 0x3070 0x3070 0x05 0x05 .u64 .ro 0 0 0xFFFFFFFFFFFFFFFF,
  row 0x3070 0x3070 0x10 0x17 .u64 .rw 0 0 0xFFFFFFFFFFFFFFFF,
  row 0x3070 0x3070 0x20 0x20 .dom .rw 0 0 32,
  row 0x3071 0x3071 0x01 0x01 .dom .ro 0 0 0x400,
  row 0x3080 0x3080 0x01 0x18 .u16 .ro 0 0 0xFFFF,
  row 0x3081 0x3081 0x01 0x01 .dom .ro 0 0 0x300,
  row 0x3082 0x3082 0x01 0x01 .u8 .rs 3 1 255,
  row 0x3090 0x3090 0x01 0x01 .dom .rs 0 0 0x800,
  row 0x3090 0x3090 0x02 0x02 .u16 .ro 0 0 0xFFFF,
  row 0x3090 0x3090 0x03 0x03 .u16 .ro 0 0 0xFFFF,
  row 0x3090 0x3090 0x04 0x04 .u16 .rs 16 0 0x100,
  row 0x3090 0x3090 0x05 0x05 .u64 .ro 0 0 0xFFFFFFFFFFFFFFFF,
  row 0x3090 0x3090 0x06 0x06 .dom .ro 0 0 0x200,
  row 0x3100 0x3100 0x01 0x01 .dom .wo 0 0x201 0x80000,
  row 0x3100 0x3100 0x02 0x02 .u8 .ro 0 0 255,
  row 0x3100 0x3100 0x03 0x03 .u8 .ro 0 0 255,
  row 0x3100 0x3100 0x04 0x04 .u8 .rs 0 0 1,
  row 0x3100 0x3100 0x05 0x05 .u8 .ro 0 0 255,
  row 0x3100 0x3100 0x06 0x06 .u32 .rw 0 0 0xFFFFFFFF,
  row 0x3100 0x3100 0x07 0x08 .dom .ro 0 0 0x200,
  row 0x3100 0x3100 0x09 0x09 .u32 .ro 0 0 0xFFFFFFFF,
  row 0x3110 0x3110 0x01 0x01 .dom .wo 0 32 32,
  row 0x3110 0x3110 0x02 0x02 .u32 .rw 0x1C200 0x2580 0x2DC6C0,
  row 0x3110 0x3110 0x03 0x03 .u8 .ro 0 0 255,
  row 0x3200 0x3200 0x01 0x01 .u8 .ro 0 0 255,
  row 0x3200 0x3200 0x02 0x02 .u64 .ro 0 0 0xFFFFFFFFFFFFFFFF,
  row 0x3200 0x3200 0x03 0x03 .u64 .ro 0 0 0xFFFFFFFFFFFFFFFF,
  row 0x3200 0x3200 0x04 0x04 .u64 .ro 0 0 0xFFFFFFFFFFFFFFFF,
  row 0x3200 0x3200 0x06 0x06 .u16 .wo 0 0 0xFFFF,
  row 0x4000 0x4FFF 0x01 0x01 .u8 .ro 0 0 255]

/-- Rows of the chapters' entry tables, part 6. -/
def entryRows6 : List EntryRow := [
  row 0x4000 0x4FFF 0x02 0x02 .u8 .ro 0 0 255,
  row 0x4000 0x4FFF 0x03 0x03 .u8 .ro 0 0 255,
  row 0x4000 0x4FFF 0x04 0x04 .u8 .ro 0 0 255,
  row 0x4000 0x4FFF 0x05 0x05 .u8 .ro 0 0 255,
  row 0x4000 0x4FFF 0x06 0x06 .u8 .ro 0 0 255,
  row 0x4000 0x4FFF 0x07 0x07 .u8 .ro 0 0 255,
  row 0x4000 0x4FFF 0x08 0x08 .u8 .ro 0 0 255,
  row 0x4000 0x4FFF 0x09 0x09 .u8 .ro 0 0 255,
  row 0x4000 0x4FFF 0x0A 0x0A .u8 .ro 0 0 255,
  row 0x4000 0x4FFF 0x0B 0x0B .u16 .ro 0 0 0xFFFF,
  row 0x4000 0x4FFF 0x0C 0x0C .u32 .ro 0 0 0xFFFFFFFF,
  row 0x4000 0x4FFF 0x0D 0x0D .u32 .ro 0 0 0xFFFFFFFF,
  row 0x4000 0x4FFF 0x0E 0x0E .u64 .ro 0 0 0xFFFFFFFFFFFFFFFF,
  row 0x4000 0x4FFF 0x0F 0x0F .dom .ro 0 0 0x400,
  row 0x4000 0x4FFF 0x10 0x10 .dom .ro 0 0 0x400,
  row 0x4000 0x4FFF 0x11 0x11 .u64 .ro 0 0 0xFFFFFFFFFFFFFFFF,
  row 0x4000 0x4FFF 0x12 0x12 .u64 .ro 0 0 0xFFFFFFFFFFFFFFFF,
  row 0x4000 0x4FFF 0x13 0x13 .u8 .ro 255 0 255,
  row 0x4000 0x4FFF 0x14 0x14 .u64 .ro 0 0 0xFFFFFFFFFFFFFFFF,
  row 0x4000 0x4FFF 0x15 0x15 .u64 .ro 0 0 0xFFFFFFFFFFFFFFFF,
  row 0x4000 0x4FFF 0x16 0x16 .u64 .ro 0 0 0xFFFFFFFFFFFFFFFF,
  row 0x4000 0x4FFF 0x17 0x17 .u8 .ro 0 0 255,
  row 0x5000 0x5000 0x01 0x0B .u64 .rc 0 0 0xFFFFFFFFFFFFFFFF,
  row 0x5010 0x5010 0x01 0x0A .u64 .rc 0 0 0xFFFFFFFFFFFFFFFF,
  row 0x5020 0x5020 0x01 0x12 .u64 .rc 0 0 0xFFFFFFFFFFFFFFFF,
  row 0x5021 0x5021 0x01 0x08 .u64 .rc 0 0 0xFFFFFFFFFFFFFFFF,
  row 0x5030 0x5030 0x01 0x0C .u64 .rc 0 0 0xFFFFFFFFFFFFFFFF,
  row 0x5040 0x5040 0x01 0x12 .u64 .rc 0 0 0xFFFFFFFFFFFFFFFF,
  row 0x5050 0x5050 0x01 0x15 .u64 .rc 0 0 0xFFFFFFFFFFFFFFFF,
  row 0x5060 0x5060 0x01 0x15 .u64 .rc 0 0 0xFFFFFFFFFFFFFFFF,
  row 0x5070 0x5070 0x01 0x0A .u64 .rc 0 0 0xFFFFFFFFFFFFFFFF,
  row 0x5080 0x5080 0x01 0x08 .u64 .rc 0 0 0xFFFFFFFFFFFFFFFF,
  row 0x5090 0x5090 0x01 0x0F .u64 .rc 0 0 0xFFFFFFFFFFFFFFFF,
  row 0x50A0 0x50A0 0x01 0x10 .u64 .rc 0 0 0xFFFFFFFFFFFFFFFF,
  row 0x50B0 0x50B0 0x01 0x05 .u64 .rc 0 0 0xFFFFFFFFFFFFFFFF,
  row 0x50C0 0x50C0 0x01 0x14 .u64 .rc 0 0 0xFFFFFFFFFFFFFFFF,
  row 0x50D0 0x50D0 0x01 0x0F .u64 .rc 0 0 0xFFFFFFFFFFFFFFFF,
  row 0x5FFE 0x5FFE 0x01 0x01 .u16 .rw 0x5000 0 0xFFFF,
  row 0x5FFE 0x5FFE 0x02 0x02 .dom .rc 0 0 0x7F8]

/-- Every entry the manual lists (R404), but subindex 0x00. -/
def entryRows : List EntryRow :=
  entryRows1 ++ entryRows2 ++ entryRows3 ++ entryRows4 ++ entryRows5 ++ entryRows6

/-- A row covers an index and a subindex. -/
def EntryRow.covers (r : EntryRow) (idx sub : Nat) : Bool :=
  r.idxLo ≤ idx && idx ≤ r.idxHi && r.subLo ≤ sub && sub ≤ r.subHi

/-- Entries per channel or spindle exist up to the configuration's count (R405). -/
def entryInBuild (b : Build) (idx sub : Nat) : Bool :=
  if idx = 0x3010 then sub ≤ b.channels
  else if idx = 0x3080 then sub ≤ b.spindles
  else true

/-- The highest subindex an index holds in the configuration (R404). -/
def highSub (b : Build) (idx : Nat) : Nat :=
  let top := entryRows.foldl (fun m r => if r.idxLo ≤ idx && idx ≤ r.idxHi then max m r.subHi else m) 0
  if idx = 0x3010 then b.channels
  else if idx = 0x3080 then b.spindles
  else top

/-- The index holds entries (Table 14.1). -/
def indexExists (idx : Nat) : Bool := entryRows.any (fun r => r.idxLo ≤ idx && idx ≤ r.idxHi)

/-- The entry at an address, if it exists in the configuration (R404, R405). -/
def entry? (b : Build) (idx sub : Nat) : Option EntryRow :=
  if sub = 0 then
    if indexExists idx then some (row idx idx 0 0 .u8 .ro (highSub b idx) 0 255) else none
  else if entryInBuild b idx sub then entryRows.find? (fun r => r.covers idx sub)
  else none

/-- {index, subindex} of a 24-bit address. -/
def addrIdx (a : Nat) : Nat := a / 256 % 65536

/-- The subindex of a 24-bit address. -/
def addrSub (a : Nat) : Nat := a % 256

/-- The 24-bit address of an entry. -/
def addrOf (idx sub : Nat) : Nat := idx * 256 + sub

end Sys2Proof.Machine
end

