-- ==== Sys2Proof/Machine/Ops.lean ====
section
/-! DEFINITION. The named operations over the block's registers, counters, event log, clock, memories and output ports. -/

namespace Sys2Proof.Machine

namespace State

/-! ## Output ports -/

/-- Put an item on an output port. -/
def emit (o : Out) (s : State) : State := { s with out := s.out ++ [o] }

/-! ## Counters (R416) -/

/-- The value of a counter. -/
def ctr (idx sub : Nat) (s : State) : Nat := natGet s.counters (addrOf idx sub)

/-- Raise a counter by `n`; it holds at its limit (R416). -/
def bump (idx sub n : Nat) (s : State) : State :=
  { s with counters := natSet s.counters (addrOf idx sub) (min Config.u64Max (s.ctr idx sub + n)) }

/-- Clear a counter (an RC read, R416). -/
def clearCtr (idx sub : Nat) (s : State) : State := { s with counters := natSet s.counters (addrOf idx sub) 0 }

/-! ## Settings -/

/-- The default of a scalar setting. -/
def regDefault (s : State) (idx sub : Nat) : Nat :=
  match entry? s.straps.build idx sub with
  | some r => r.dflt
  | none => 0

/-- The value in effect of a scalar setting. -/
def reg (idx sub : Nat) (s : State) : Nat :=
  match s.regs.find? (fun c => c.1 == addrOf idx sub) with
  | some c => c.2
  | none => s.regDefault idx sub

/-- Put a scalar setting in effect. -/
def setReg (idx sub v : Nat) (s : State) : State :=
  let k := addrOf idx sub
  { s with regs := s.regs.filter (fun c => decide (c.1 < k)) ++ (if v = s.regDefault idx sub then [] else [(k, v)]) ++
      s.regs.filter (fun c => decide (k < c.1)) }

/-- The staged value of an RS entry (R15). -/
def stagedAt (idx sub : Nat) (s : State) : Option Val :=
  (s.staged.find? (fun c => c.1 == addrOf idx sub)).map (fun c => c.2)

/-- Stage a value; one that replaces a value not yet applied counts in 0x5000.09 (R409). -/
def stage (idx sub : Nat) (v : Val) (s : State) : State :=
  let k := addrOf idx sub
  let s1 := if (s.stagedAt idx sub).isSome then s.bump 0x5000 0x09 1 else s
  { s1 with staged := s1.staged.filter (fun c => decide (c.1 < k)) ++ [(k, v)] ++
      s1.staged.filter (fun c => decide (k < c.1)) }

/-- Take a value out of the staging store. -/
def unstage (idx sub : Nat) (s : State) : State :=
  { s with staged := s.staged.filter (fun c => c.1 != addrOf idx sub) }

/-- This block's node (0x1100.01). -/
def node (s : State) : Nat := s.reg 0x1100 0x01

/-- C, the hearth channels. -/
def C (s : State) : Nat := s.straps.build.channels

/-! ## Hall time (R337) -/

/-- Hall time as the block measures it, ns: the largest sample, extended by clocks while hall time is not valid. -/
def now (s : State) : Nat := s.time.base + s.time.clocks * 1000 / s.reg 0x1200 0x08

/-- Take a sample of `ht_time`: a sample below the largest seen is that largest value and counts in 0x50C0.06; while `ht_valid`
is low the block keeps its own count (R337). -/
def sampleTime (ht : Nat) (s : State) : State :=
  if s.time.valid then
    if ht < s.now then s.bump 0x50C0 0x06 1
    else { s with time := { base := ht, clocks := 0, valid := true } }
  else s

/-! ## Event log (R369, R382 to R384) -/

/-- The event line of a counter or entry: the first row of Table 12.20 that names it (R369). -/
def eventLine (idx sub : Nat) : Nat :=
  if (0x2600 ≤ idx && idx ≤ 0x2630) || (idx == 0x5000 && sub == 4) || (idx == 0x5060 && (sub == 0x0D || sub == 0x0E)) ||
      (idx == 0x5070 && ((1 ≤ sub && sub ≤ 5) || sub == 8 || sub == 9)) then 0
  else if (0x1200 ≤ idx && idx ≤ 0x1230) || idx == 0x5000 then 1
  else if (0x2000 ≤ idx && idx ≤ 0x2030) || idx == 0x2210 || (idx == 0x5020 && sub == 0x10) || idx == 0x5060 then 2
  else if idx == 0x3050 || idx == 0x3051 || idx == 0x3062 || (idx == 0x5050 && 0x11 ≤ sub && sub ≤ 0x14) then 3
  else if idx == 0x3040 || idx == 0x3090 || (0x4000 ≤ idx && idx ≤ 0x4FFF) || idx == 0x5010 || idx == 0x5030 ||
      (idx == 0x5090 && sub == 0x0A) || (idx == 0x50C0 && ((2 ≤ sub && sub ≤ 4) || (0x0C ≤ sub && sub ≤ 0x14))) then 4
  else if (0x1100 ≤ idx && idx ≤ 0x1150) || idx == 0x2110 || (0x2700 ≤ idx && idx ≤ 0x27FF) || idx == 0x5040 ||
      idx == 0x50A0 || idx == 0x50B0 || (idx == 0x50C0 && (sub == 8 || sub == 9)) then 5
  else if (0x2040 ≤ idx && idx ≤ 0x2070) || idx == 0x2640 || idx == 0x2650 || idx == 0x5050 ||
      (idx == 0x5070 && (sub == 6 || sub == 7 || sub == 0x0A)) then 6
  else 7

/-- Entries the event-log array holds (R384). -/
def eventCap : Nat := 65536

/-- How many of the oldest entries give way, at most `n`: an entry only once it is journaled, unless the journal is degraded. -/
def evictable (degraded : Bool) : Nat → List Event → Nat
  | 0, _ => 0
  | _, [] => 0
  | n + 1, e :: es => if e.journaled || degraded then 1 + evictable degraded n es else 0

/-- Enter an event into the log (R382, R384). -/
def enter (kind idx subi detail : Nat) (s : State) : State :=
  let h := s.house
  let line := eventLine idx subi
  let e : Event :=
    { seq := h.nextSeq, time := s.now, kind := kind, line := line, acked := decide (h.nextSeq ≤ natAt h.acked line),
      journaled := false, entry := addrOf idx subi, detail := detail }
  let all := h.events ++ [e]
  let degraded := h.journal.state == 1
  let drop := evictable degraded (all.length - eventCap) all
  let lost := ((all.take drop).filter (fun x => !x.journaled)).length
  let s1 := { s with house := { h with events := all.drop drop, nextSeq := h.nextSeq + 1 } }
  let s2 := s1.bump 0x50D0 0x08 1
  if lost = 0 then s2 else s2.bump 0x50D0 0x0A lost

/-- The frame's event counts with one pair's row changed: entered and suppressed (R383). -/
def setFrameEvents (fe : List (Nat × Nat × Nat × Nat)) (s : State) : State :=
  { s with house := { s.house with frameEvents := fe } }

/-- Raise an event: at most 16 of one (kind, entry) pair in one frame enter; the rest count in 0x50D0.09 (R383). -/
def raise (kind idx subi detail : Nat) (s : State) : State :=
  let k := addrOf idx subi
  let fe := s.house.frameEvents
  let isPair : Nat × Nat × Nat × Nat → Bool := fun r => r.1 == kind && r.2.1 == k
  match fe.find? isPair with
  | none => State.enter kind idx subi detail (s.setFrameEvents (fe ++ [(kind, k, 1, 0)]))
  | some (_, _, n, x) =>
    if n < 16 then
      State.enter kind idx subi detail (s.setFrameEvents (mapIf isPair (fun _ => (kind, k, n + 1, x)) fe))
    else
      State.bump 0x50D0 0x09 1 (s.setFrameEvents (mapIf isPair (fun _ => (kind, k, n, x + 1)) fe))

/-- At a threshold: one event of kind 6 for each pair with suppressed events, and the counts of the frame start again (R383). -/
def flushSuppressed (s : State) : State :=
  let pairs := s.house.frameEvents
  let s1 := { s with house := { s.house with frameEvents := [] } }
  forEach (pairs.filter (fun r => r.2.2.2 != 0)) (fun r st => State.enter 6 (addrIdx r.2.1) (addrSub r.2.1) r.2.2.2 st) s1

/-- A counted condition: an event of kind 1 for a counter (Table 13.4). -/
def note (idx subi detail : Nat) (s : State) : State := s.raise 1 idx subi detail

/-- Count a condition and raise its event. -/
def countNote (idx subi detail : Nat) (s : State) : State := (s.bump idx subi 1).note idx subi detail

/-- A state changed: an event of kind 2 for the state entry, with the new value (Table 13.4). -/
def changed (idx subi value : Nat) (s : State) : State := s.raise 2 idx subi value

/-- The detail of an event that names a hank with an element, stripe or offset (Table 13.4). -/
def hankDetail (hank x : Nat) : Nat := hank * 2 ^ 48 + x

/-- Line `i` is high while an event of the line stands unacknowledged (R369, R385). -/
def irq (s : State) (i : Nat) : Bool := s.house.events.any (fun e => e.line == i && !e.acked)

/-! ## Refusals of dictionary writes (R408) -/

/-- The number of a path in 0x10FC.03 (Table 14.8). -/
def pathNo : Path → Nat
  | .regPort => 0 | .ocper _ => 1 | .jutus => 2 | .jtag => 0

/-- Refuse a write: it counts once in 0x5000.07, shows in 0x10FC and enters an event of kind 4 (R11, R408). -/
def refuseWrite (path addr reason : Nat) (s : State) : State :=
  State.raise 4 (addrIdx addr) (addrSub addr) reason
    (State.bump 0x5000 0x07 1
      { s with house := { s.house with refusedAt := addr, refusedWhy := reason, refusedPath := path } })

/-! ## Memories -/

/-- The key of a byte of the hearth: channel and channel offset (R347). -/
def hearthKey (ch off : Nat) : Nat := ch * Config.channelSpan + off

/-- Store bytes in the hearth. -/
def hearthPut (key : Nat) (bs : Bytes) (s : State) : State := { s with hearth := Memory.write s.hearth key bs }

/-- The lowest number that is not among some: a free tag, entry or slot. -/
def lowestFree (used : List Nat) : Nat := ((List.range (used.length + 1)).find? (fun i => !used.contains i)).getD 0

/-- The way of a channel offset: the stripe's place in its page (log 52). -/
def offsetWay (off : Nat) : Nat := off / 4096 % 16

/-- The lowest tag that no open request on a memory way has. -/
def memTag (s : State) (ch way : Nat) : Nat :=
  lowestFree ((s.scrub.memOpen.filter (fun m => m.ch == ch && m.way == way)).map (fun m => m.tag))

/-- The lowest tag that no open request on a pantry way has. -/
def pantryTag (s : State) (way : Nat) : Nat :=
  lowestFree ((s.scrub.pantryOpen.filter (fun m => m.way == way)).map (fun m => m.tag))

/-- The byte enables of `n` bytes from byte `lo` on. -/
def enables (lo n : Nat) : Nat := (2 ^ n - 1) * 2 ^ lo

/-- Put a read of `beats` blocks from block `b` on a memory way; its answer comes within the command (log 158). -/
def askBlocks (b beats : Nat) (s : State) : State :=
  let ch := b * 128 / Config.channelSpan
  let off := b * 128 % Config.channelSpan
  let way := offsetWay off
  s.emit (.mw ch way false (s.memTag ch way) off beats [] 0)

/-- Two runs of bytes share one. -/
def sharesBytes (a n b k : Nat) : Bool := a < b + k && b < a + n

/-- A request is open on some blocks of a channel, a write where `reads` are asked for (R348). -/
def memHit (s : State) (ch off beats : Nat) (reads : Bool) : Bool :=
  s.scrub.memOpen.any (fun m => m.ch == ch && (m.write || !reads) && sharesBytes m.addr (128 * m.left) off (128 * beats))

/-- A request is open on a line of the pantry (R352). -/
def lineHit (s : State) (line : Nat) (reads : Bool) : Bool :=
  s.scrub.pantryOpen.any (fun m => m.line == line && (m.write || !reads))

/-- A waiting write covers some of the bytes of a request. -/
def laterHit (s : State) (o : Out) : Bool :=
  s.scrub.later.any (fun x => match x, o with
    | .mw ch _ _ _ off beats _ _, .mw ch' _ _ _ off' beats' _ _ => ch == ch' && sharesBytes off (128 * beats) off' (128 * beats')
    | .pw _ _ _ line _ _, .pw _ _ _ line' _ _ => line == line'
    | _, _ => false)

/-- A write must wait for an open request (R348, R352). -/
def mustWait (s : State) (o : Out) : Bool :=
  match o with
  | .mw ch _ _ _ off beats _ _ => s.memHit ch off beats false
  | .pw _ _ _ line _ _ => s.lineHit line false
  | _ => false

/-- The request with a tag that is free now. -/
def retag (s : State) (o : Out) : Out :=
  match o with
  | .mw ch way w _ off beats data be => .mw ch way w (s.memTag ch way) off beats data be
  | .pw way w _ line data be => .pw way w (s.pantryTag way) line data be
  | o => o

/-- Put a write on its way, or behind the request that it must not overtake. -/
def tell (o : Out) (s : State) : State :=
  if s.mustWait o || s.laterHit o then { s with scrub := { s.scrub with later := s.scrub.later ++ [o] } } else s.emit (s.retag o)

/-- Put the waiting writes on their ways that need not wait any more. -/
def tellLater (s : State) : State :=
  if s.scrub.later.isEmpty then s else forEach s.scrub.later tell { s with scrub := { s.scrub with later := [] } }

/-- Put a write of bytes that lie in one stripe on a memory way, answered within the command. -/
def tellBlocks (key : Nat) (bs : Bytes) (s : State) : State :=
  let ch := key / Config.channelSpan
  let off := key % Config.channelSpan
  let way := offsetWay off
  let lo := off % 128
  let beats := ceilDiv (lo + bs.length) 128
  s.tell (.mw ch way true 0 (off - lo) beats (fit (128 * beats) (zeros lo ++ bs)) (enables lo bs.length))

/-- Write bytes that lie in one stripe of the hearth (R347). -/
def hearthWrite (key : Nat) (bs : Bytes) (s : State) : State := hearthPut key bs (s.tellBlocks key bs)

/-- The bytes of a word with the enabled ones replaced (Table 12.4). -/
def mergeBytes (be : Nat) (old new : Bytes) : Bytes := (old.zip new).zipIdx.map (fun x => if bit be x.2 then x.1.2 else x.1.1)

/-- Write the enabled bytes of one 128-byte block of the hearth: a partial write of its controller (R347). -/
def hearthBeat (key be : Nat) (bs : Bytes) (s : State) : State :=
  let off := key % Config.channelSpan
  hearthPut key (mergeBytes be (Memory.read s.hearth key 128) bs)
    (s.tell (.mw (key / Config.channelSpan) (offsetWay off) true 0 off 1 (fit 128 bs) be))

/-- Read bytes of the hearth. -/
def hearthRead (s : State) (key k : Nat) : Bytes := Memory.read s.hearth key k

/-- Store bytes in the pantry. -/
def pantryPut (off : Nat) (bs : Bytes) (s : State) : State := { s with pantry := Memory.write s.pantry off bs }

/-- Put a read of a line on its pantry way (R352), answered within the command. -/
def askLine (line : Nat) (s : State) : State := s.emit (.pw (line % 4) false (s.pantryTag (line % 4)) line [] 0)

/-- Put the writes of bytes on the pantry ways, line by line, answered within the command. -/
def tellLines (off : Nat) (bs : Bytes) (s : State) : State :=
  let l0 := off / 64
  forEach (List.range (ceilDiv (off % 64 + bs.length) 64)) (fun i st =>
    let lo := if i = 0 then off % 64 else 0
    let part := (bs.drop (64 * (l0 + i) + lo - off)).take (64 - lo)
    st.tell (.pw ((l0 + i) % 4) true 0 (l0 + i) (fit 64 (zeros lo ++ part)) (enables lo part.length))) s

/-- Write bytes to the pantry (R352). -/
def pantryWrite (off : Nat) (bs : Bytes) (s : State) : State := pantryPut off bs (s.tellLines off bs)

/-- Write the enabled bytes of 128 bytes of the pantry: two lines, each a partial write where a byte is not enabled (R351). -/
def pantryBeat (off be : Nat) (bs : Bytes) (s : State) : State :=
  let l := off / 64
  let s1 := s.tell (.pw (l % 4) true 0 l (fit 64 bs) (be % 2 ^ 64))
  pantryPut off (mergeBytes be (Memory.read s.pantry off 128) bs)
    (s1.tell (.pw ((l + 1) % 4) true 0 (l + 1) (fit 64 (bs.drop 64)) (be / 2 ^ 64)))

/-- Read bytes of the pantry. -/
def pantryRead (s : State) (off k : Nat) : Bytes := Memory.read s.pantry off k

/-- Write bytes to the journal window. -/
def nvWrite (off : Nat) (bs : Bytes) (s : State) : State := { s with nv := Memory.write s.nv off bs }

/-- Read bytes of the journal window. -/
def nvRead (s : State) (off k : Nat) : Bytes := Memory.read s.nv off k

/-! ## Free values (log 7) -/

/-- `k` bytes that the manual leaves open. -/
def freeBytes (s : State) (k : Nat) : Bytes := (List.range k).map (fun i => Config.freeByte (s.free + i))

/-- Count `k` free bytes as used. -/
def spendFree (k : Nat) (s : State) : State := { s with free := s.free + k }

/-! ## Merge buffers (R427) -/

/-- In 12H a write that covers part of a word of internal SRAM goes to the merge buffer of its bank, which first writes back a row that it
holds of another place; a write to the row that it holds merges there. -/
def mergeAt (place : List Nat) (s : State) : State :=
  if !s.straps.build.wordCode then s
  else
    let p := Config.sramPlace place
    let bank := p.1 % s.straps.build.banks
    State.bump 0x50C0 0x13 1 { s with scrub := { s.scrub with
      merge := s.scrub.merge.filter (fun m => m.1 != bank) ++ [(bank, p.2 % 4096)] } }

/-! ## Hanks -/

/-- The hank of a number, when its class is not 0. -/
def hank? (s : State) (h : Nat) : Option HankRt := s.hanks.find? (fun r => r.hank == h)

/-- Change a hank. -/
def updHank (h : Nat) (f : HankRt → HankRt) (s : State) : State :=
  { s with hanks := mapIf (fun r => r.hank == h) f s.hanks }

end State

end Sys2Proof.Machine
end

