-- ==== Sys2Proof/Machine/Plan.lean ====
section
/-! DEFINITION. Reading a plan: its sections (Tables 1.4, 1.5) and their bodies (Tables 1.6, 2.2, 3.1 to 3.3, 4.2, 6.2, 6.3,
7.1, 7.2, 10.3 to 10.5), with the faults of plan format (R444). -/

namespace Sys2Proof.Machine

/-- A refusal of admission (R28): code, index, demand and capacity; none where the manual states no figure (log 12). -/
structure Refuse where
  code : Nat
  index : Nat
  demand : Option Nat
  capacity : Option Nat
  deriving DecidableEq, Repr

/-- A fault of plan format: the section type and the byte offset from the start of the plan (R444). -/
def fmtFault (typ off : Nat) : Refuse := { code := 1, index := 0xFF, demand := some typ, capacity := some off }

/-- A structural limit with a count and its limit. -/
def limitFault (demand capacity : Nat) : Refuse := { code := 3, index := 0xFF, demand := some demand, capacity := some capacity }

/-- A structural rule that names no count. -/
def ruleFault : Refuse := { code := 3, index := 0xFF, demand := none, capacity := none }

/-- Hank content refused: the hank and a position (R36). -/
def hankFault (hank pos : Nat) : Refuse := { code := 4, index := 0xFF, demand := some hank, capacity := some pos }

/-- The first failure of a list of checks, in order (R28). -/
def firstFault : List (Option Refuse) → Option Refuse
  | [] => none
  | some r :: _ => some r
  | none :: rest => firstFault rest

/-- A check: the refusal when the condition is broken. -/
def refuseIf (c : Bool) (r : Refuse) : Option Refuse := if c then some r else none

/-- A length padded to a multiple of 8. -/
def pad8 (n : Nat) : Nat := (n + 7) / 8 * 8

/-- A section: type, offset of its header in the plan, body. -/
structure Section where
  typ : Nat
  off : Nat
  body : Bytes
  deriving DecidableEq, Repr

namespace Plan

/-! ## Sections (Tables 1.4, 1.5) -/

/-- The section types. -/
def types : List Nat := [1, 2, 3, 4, 5, 6, 7, 8, 0xFFFF]

/-- The sections from an offset on: the first is the frame declaration, the last the end section, no type comes twice. A fault of a
section header or of the order shows the section type and the byte offset, as R444 has it for a body; Table 1.7 gives these refusals no
figures (DESIGN CHOICE, log 176). -/
def splitGo : Nat → Nat → List Section → Bytes → Except Refuse (List Section)
  | 0, off, _, _ => .error (fmtFault 0 off)
  | k + 1, off, seen, bs =>
    let typ := fld 0 2 bs
    let len := fld 4 4 bs
    if bs.length < 8 then .error (fmtFault typ off)
    else if !types.contains typ || seen.any (fun s => s.typ == typ) || (seen.isEmpty && typ != 1) then
      .error (fmtFault typ off)
    else if fld 2 2 bs != 0 then .error (fmtFault typ (off + 2))
    else if len % 8 != 0 || bs.length < 8 + len then .error (fmtFault typ (off + 4))
    else
      let sec : Section := { typ := typ, off := off, body := (bs.drop 8).take len }
      if typ = 0xFFFF then
        if len != 0 then .error (fmtFault typ (off + 4))
        else if bs.length != 8 then .error (fmtFault typ (off + 8))
        else .ok (seen ++ [sec])
      else splitGo k (off + 8 + len) (seen ++ [sec]) (bs.drop (8 + len))

/-- The sections of a plan. -/
def split (bs : Bytes) : Except Refuse (List Section) := splitGo 10 0 [] bs

/-- The section of a type. -/
def sect (ss : List Section) (typ : Nat) : Option Section := ss.find? (fun s => s.typ == typ)

/-! ## Frame declaration and job list -/

/-- Table 1.6. -/
def readFrame (b : Bytes) : FrameDecl :=
  { firstStep := fld 0 8 b, pMin := fld 8 8 b, tRc := fld 16 8 b, ackBound := fld 24 4 b, shareG := fld 28 2 b,
    shareW := fld 30 2 b, reelBytes := fld 32 8 b, whorlBytes := fld 40 8 b, moverBytes := fld 48 8 b,
    offloadBytes := fld 56 8 b, flags := fld 64 4 b }

/-- Faults of the frame declaration (R444). -/
def frameFault (s : Section) : Option Refuse :=
  let b := s.body
  firstFault [
    refuseIf (b.length != 72) (fmtFault 1 (s.off + 4)),
    refuseIf (!(0 < fld 16 8 b && fld 16 8 b < fld 8 8 b)) (fmtFault 1 (s.off + 8 + 16)),
    refuseIf (fld 64 4 b ≥ 2) (fmtFault 1 (s.off + 8 + 64)),
    refuseIf (fld 68 4 b != 0) (fmtFault 1 (s.off + 8 + 68))]

/-- The job list. -/
def readJobs (b : Bytes) : List JobEnt :=
  (pieces 8 b).map (fun e => { tag := fld 0 4 e, household := fld 4 1 e, flags := fld 5 1 e })

/-- Faults of the job list (R444). -/
def jobsFault (s : Section) : Option Refuse :=
  firstFault ((pieces 8 s.body).zipIdx.map (fun (e, i) => firstFault [
    refuseIf (fld 5 1 e ≥ 2) (fmtFault 2 (s.off + 8 + 8 * i + 5)),
    refuseIf (fld 6 2 e != 0) (fmtFault 2 (s.off + 8 + 8 * i + 6))]))

/-! ## Hank descriptors (Table 2.2) -/

/-- One descriptor. -/
def readDesc (d : Bytes) : Desc :=
  { cls := fld 0 1 d, state := fld 1 1 d, household := fld 2 1 d, job := fld 3 1 d, flags := fld 4 1 d,
    planes := fld 5 1 d, formats := fld 6 1 d, viewFormat := fld 7 1 d, program := fld 8 1 d, tierPolicy := fld 9 1 d,
    source := fld 10 2 d, rows := fld 12 4 d, cols := fld 16 4 d, count := fld 24 8 d,
    bases := (List.range 5).map (fun i => fld (32 + 4 * i) 4 d), maskA := fld 52 4 d, maskB := fld 56 4 d }

/-- The descriptors of the section, hank 0 first (R35). -/
def readDescs (b : Bytes) : List Desc := (pieces 64 b).map readDesc

/-! ## Optimizer programs (R101) -/

/-- One program record at the front of the bytes. -/
def readProg (b : Bytes) : Prog :=
  let len := fld 1 1 b
  { slot := fld 0 1 b, len := len, needs := fld 2 1 b, rounding := fld 3 1 b, writes := fld 4 1 b,
    ops := (List.range len).map (fun i => fld (16 + 4 * i) 4 b), raw := b.take (16 + pad8 (4 * len)), builtin := false }

/-- The records of the section with their offsets in the body; none where one does not fit. -/
def readProgsGo : Nat → Nat → Bytes → Except Nat (List (Nat × Prog))
  | 0, _, _ => .ok []
  | k + 1, off, b =>
    if b.isEmpty then .ok []
    else
      let size := 16 + pad8 (4 * fld 1 1 b)
      if b.length < size then .error off
      else
        match readProgsGo k (off + size) (b.drop size) with
        | .ok ps => .ok ((off, readProg b) :: ps)
        | .error e => .error e

/-- The records of a programs section. -/
def readProgs (b : Bytes) : Except Nat (List (Nat × Prog)) := readProgsGo (b.length / 16 + 1) 0 b

/-- Faults of format of the programs section: a record that does not fit, slots out of order, padding that is not zero. -/
def progsFault (s : Section) : Option Refuse :=
  match readProgs s.body with
  | .error off => some (fmtFault 5 (s.off + 8 + off + 1))
  | .ok ps =>
    firstFault (ps.zipIdx.map (fun (p, i) => firstFault [
      refuseIf (match (ps.drop (i + 1)).head? with
        | some q => decide (q.2.slot < p.2.slot)
        | none => false) (fmtFault 5 (s.off + 8 + p.1 + p.2.raw.length)),
      refuseIf (!allZero (p.2.raw.drop (16 + 4 * p.2.len))) (fmtFault 5 (s.off + 8 + p.1 + 16 + 4 * p.2.len))]))

/-! ## Bucket map (R62) -/

/-- One site record (Table 3.2) of a bucket-map body. -/
def readSite (b r : Bytes) : Site :=
  let slots := fld 4 1 r
  let lo := fld 44 4 r
  { id := fld 0 1 r, stage := fld 1 1 r, kind := fld 2 1 r, width := fld 3 1 r, slots := slots, flags := fld 5 1 r,
    selfSlot := fld 6 1 r, slotHank := fld 8 2 r, targetHank := fld 10 2 r, nextNode := fld 12 2 r, nextSite := fld 14 1 r,
    nextSlot := fld 15 1 r, first := fld 16 8 r, extent := fld 24 8 r, capacity := fld 32 4 r, cols := fld 36 4 r,
    pitch := fld 40 4 r,
    contribs := (List.range slots).map (fun i =>
      { node := fld (lo + 4 * i) 2 b, source := fld (lo + 4 * i + 2) 1 b, sourceSite := fld (lo + 4 * i + 3) 1 b }) }

/-- One outbox entry (Table 3.3). -/
def readOutbox (e : Bytes) : Outbox :=
  { destNode := fld 0 2 e, destSite := fld 2 1 e, destSlot := fld 3 1 e, kind := fld 4 1 e, localSite := fld 5 1 e,
    offset := fld 8 4 e, bytes := fld 12 4 e }

/-- A bucket map. -/
def readBucket (b : Bytes) : BucketMap :=
  let sc := fld 0 2 b
  let oc := fld 2 2 b
  { outboxHank := fld 4 2 b, mirrorHank := fld 6 2 b, mirrorArea := fld 8 4 b, mirrorIn := fld 16 8 b,
    sites := (List.range sc).map (fun i => readSite b (sub (24 + 64 * i) 64 b)),
    outbox := (List.range oc).map (fun i => readOutbox (sub (24 + 64 * sc + 16 * i) 16 b)) }

/-- Where the contributor lists begin and end. -/
def bucketLists (b : Bytes) : Nat × Nat :=
  let m := readBucket b
  let lo := 24 + 64 * m.sites.length + 16 * m.outbox.length
  (lo, lo + 4 * sumL (m.sites.map (fun s => s.slots)))

/-- The first site record out of the order of R62, "in increasing site id from 0": its index. Ids that R63 refuses, an id above 63
or one that comes twice, are left to that rule. -/
def siteOrder (ids : List Nat) : Option Nat :=
  if ids.any (fun x => 63 < x) || (nub ids).length != ids.length then none
  else ids.zipIdx.findIdx? (fun x => x.1 != x.2)

/-- Faults of format of a bucket-map body that stands at an offset of the plan: the length does not fit the counts, site records out
of order, a list lies outside, padding that is not zero. A count above Table 3.1 is a structural fault (R63) and is left to that
check. Of a length that does not fit its counts the offending field is the start of this body, where other sections name the header's
length field (DESIGN CHOICE, log 178). -/
def bucketFmt (typ at_ : Nat) (b : Bytes) : Option Refuse :=
  if fld 0 2 b > 64 || fld 2 2 b > 128 then none
  else
    let (lo, hi) := bucketLists b
    firstFault ([
      refuseIf (b.length != pad8 hi) (fmtFault typ at_),
      refuseIf (!allZero (b.drop hi)) (fmtFault typ (at_ + hi)),
      (siteOrder ((readBucket b).sites.map (fun s => s.id))).map (fun i => fmtFault typ (at_ + 24 + 64 * i))] ++
      (readBucket b).sites.zipIdx.map (fun (s, i) =>
        let off := fld (24 + 64 * i + 44) 4 b
        refuseIf (off < lo || hi < off + 4 * s.slots) (fmtFault typ (at_ + 24 + 64 * i + 44))))

/-! ## Skein section (R192) -/

/-- Bytes of the section for given counts. -/
def skeinLen (n h nb inh : Nat) : Nat := 32 + 8 * n + 8 * h + 8 * n * h + pad8 (2 * nb) + 8 * inh

/-- The skein section; the digest is that of R195. -/
def readSkein (b : Bytes) : SkeinSec :=
  let n := fld 2 1 b
  let h := fld 6 2 b
  let nb := fld 18 1 b
  let inh := fld 19 1 b
  let mo := 32
  let ho := mo + 8 * n
  let co := ho + 8 * h
  let no := co + 8 * n * h
  let io := no + pad8 (2 * nb)
  { skeinId := fld 0 2 b, n := n, m := fld 3 1 b, position := fld 4 1 b, lintel := fld 5 1 b, epoch := fld 8 4 b,
    flags := fld 12 4 b, dims := fld 16 2 b, oldPlyBase := fld 20 4 b,
    members := (List.range n).map (fun i => (fld (mo + 8 * i) 2 b, fld (mo + 8 * i + 4) 4 b)),
    hanks := (List.range h).map (fun i => (fld (ho + 8 * i) 2 b, fld (ho + 8 * i + 2) 1 b, fld (ho + 8 * i + 3) 1 b)),
    counts := (List.range n).map (fun j => (List.range h).map (fun i => fld (co + 8 * (j * h + i)) 8 b)),
    neighbours := (List.range nb).map (fun i => fld (no + 2 * i) 2 b),
    inherits := (List.range inh).map (fun i =>
      { lostPosition := fld (io + 8 * i) 1 b, lostHank := fld (io + 8 * i + 2) 2 b, localHank := fld (io + 8 * i + 4) 2 b }),
    digest := skeinDigest (b.take 4 ++ (b.drop 5).take 11 ++ (b.drop mo).take (no - mo)) }

/-- The first entry of the hank table that does not stand above the one before it (R192, "in increasing hank number"): its index. -/
def hankOrder (hanks : List Nat) : Option Nat :=
  (hanks.zip (hanks.drop 1)).findIdx? (fun x => x.2 ≤ x.1) |>.map (fun i => i + 1)

/-- Faults of format of the skein section: the length does not fit the counts, hank entries out of order, padding that is not
zero. -/
def skeinFmt (s : Section) : Option Refuse :=
  let b := s.body
  let n := fld 2 1 b
  let h := fld 6 2 b
  let nb := fld 18 1 b
  let no := 32 + 8 * n + 8 * h + 8 * n * h
  firstFault [
    refuseIf (b.length < 32 || b.length != skeinLen n h nb (fld 19 1 b)) (fmtFault 3 (s.off + 4)),
    (hankOrder ((readSkein b).hanks.map (fun e => e.1))).map (fun i => fmtFault 3 (s.off + 8 + 32 + 8 * n + 8 * i)),
    refuseIf (!allZero ((b.drop (no + 2 * nb)).take (pad8 (2 * nb) - 2 * nb))) (fmtFault 3 (s.off + 8 + no + 2 * nb))]

/-- Reserved fields and bits of the skein section are zero (R194). -/
def skeinReserved (b : Bytes) : Bool :=
  let n := fld 2 1 b
  let h := fld 6 2 b
  let io := 32 + 8 * n + 8 * h + 8 * n * h + pad8 (2 * fld 18 1 b)
  fld 12 4 b < 4 && fld 24 8 b == 0 &&
    (List.range n).all (fun i => fld (32 + 8 * i + 2) 2 b == 0) &&
    (List.range h).all (fun i => fld (32 + 8 * n + 8 * i + 4) 4 b == 0) &&
    (List.range (fld 19 1 b)).all (fun i => fld (io + 8 * i + 1) 1 b == 0 && fld (io + 8 * i + 6) 2 b == 0)

/-! ## Tier-policy section (R276) -/

/-- The tier-policy section. -/
def readTier (b : Bytes) : TierSec :=
  let hh := fld 0 1 b
  let pp := fld 1 1 b
  let aa := fld 2 2 b
  let po := 48 + 32 * hh
  let ao := po + 16 * pp
  { pantryG := fld 4 2 b, pantryW := fld 6 2 b, pantryBytes := fld 8 8 b, pantryPlyBase := fld 16 4 b,
    households := (List.range hh).map (fun i =>
      let o := 48 + 32 * i
      { id := fld o 1 b, flags := fld (o + 1) 1 b, quotas := [fld (o + 8) 8 b, fld (o + 16) 8 b, fld (o + 24) 8 b] }),
    policies := (List.range pp).map (fun i =>
      let o := po + 16 * i
      { index := fld o 1 b, tiers := fld (o + 1) 1 b, home := fld (o + 2) 1 b, decay := fld (o + 3) 1 b,
        promoteAt := fld (o + 4) 2 b, demoteAt := fld (o + 6) 2 b, flags := fld (o + 8) 1 b }),
    areas := (List.range aa).map (fun i =>
      let o := ao + 24 * i
      { tier := fld o 1 b, channel := fld (o + 1) 1 b, node := fld (o + 2) 2 b, pages := fld (o + 4) 4 b,
        base := fld (o + 8) 8 b }) }

/-- Faults of format of the tier-policy section. -/
def tierFmt (s : Section) : Option Refuse :=
  let b := s.body
  refuseIf (b.length < 48 || b.length != 48 + 32 * fld 0 1 b + 16 * fld 1 1 b + 24 * fld 2 2 b) (fmtFault 7 (s.off + 4))

/-- Reserved fields of the tier-policy section are zero (R277). -/
def tierReserved (b : Bytes) : Bool :=
  let hh := fld 0 1 b
  let pp := fld 1 1 b
  let po := 48 + 32 * hh
  let ao := po + 16 * pp
  allZero ((b.drop 20).take 28) &&
    (List.range hh).all (fun i => fld (48 + 32 * i + 1) 1 b < 2 && fld (48 + 32 * i + 2) 6 b == 0) &&
    (List.range pp).all (fun i => fld (po + 16 * i + 1) 1 b < 8 && fld (po + 16 * i + 8) 1 b < 2 && fld (po + 16 * i + 9) 7 b == 0) &&
    (List.range (fld 2 2 b)).all (fun i => fld (ao + 24 * i + 16) 8 b == 0)

/-! ## Replica-and-spare section (R165) -/

/-- The peers' bucket maps: position, offset in the body of the length field, bytes; none where one does not fit. -/
def readPeers : List Nat → Nat → Bytes → Except Nat (List (Nat × Nat × Bytes))
  | [], off, b => if b.isEmpty then .ok [] else .error off
  | p :: ps, off, b =>
    let len := fld 0 4 b
    let size := pad8 (4 + len)
    if b.length < size || b.length < 4 then .error off
    else
      match readPeers ps (off + size) (b.drop size) with
      | .ok r => .ok ((p, off, (b.drop 4).take len) :: r)
      | .error e => .error e

/-- Where the peers' maps begin. -/
def peersAt (b : Bytes) : Nat := 32 + pad8 (2 * fld 0 1 b) + 8 * fld 1 1 b + 16 * fld 2 2 b

/-- The positions other than this member's own: a spare stands for spare_of (R165). -/
def otherPositions (sk : Option SkeinSec) (spareOf : Nat) : List Nat :=
  match sk with
  | none => []
  | some k =>
    let own := if spareOf = 0xFF then k.position else spareOf
    (List.range k.n).filter (fun p => p != own)

/-- The replica-and-spare section. -/
def readReplica (sk : Option SkeinSec) (b : Bytes) : ReplicaSec :=
  let so := 32 + pad8 (2 * fld 0 1 b)
  let ao := so + 8 * fld 1 1 b
  { reserveBase := fld 4 4 b, drainNode := fld 8 2 b, spareOf := fld 10 1 b, drainBase := fld 16 8 b,
    replicas := (List.range (fld 0 1 b)).map (fun i => fld (32 + 2 * i) 2 b),
    spares := (List.range (fld 1 1 b)).map (fun i =>
      { node := fld (so + 8 * i) 2 b, position := fld (so + 8 * i + 2) 1 b, flags := fld (so + 8 * i + 3) 1 b }),
    aliases := (List.range (fld 2 2 b)).map (fun i =>
      let o := ao + 16 * i
      { position := fld o 1 b, hank := fld (o + 2) 2 b, aliasHank := fld (o + 4) 2 b, maskDigest := fld (o + 8) 8 b }),
    peers :=
      match readPeers (otherPositions sk (fld 10 1 b)) (peersAt b) (b.drop (peersAt b)) with
      | .ok ps => ps.map (fun p => (p.1, readBucket p.2.2))
      | .error _ => [] }

/-- Faults of format of the replica-and-spare section. -/
def replicaFmt (sk : Option SkeinSec) (s : Section) : Option Refuse :=
  let b := s.body
  let at_ := s.off + 8
  if b.length < peersAt b then some (fmtFault 8 (s.off + 4))
  else
    match readPeers (otherPositions sk (fld 10 1 b)) (peersAt b) (b.drop (peersAt b)) with
    | .error off => some (fmtFault 8 (at_ + off))
    | .ok ps =>
      firstFault (
        refuseIf (!allZero ((b.drop (32 + 2 * fld 0 1 b)).take (pad8 (2 * fld 0 1 b) - 2 * fld 0 1 b)))
          (fmtFault 8 (at_ + 32 + 2 * fld 0 1 b)) ::
        ps.map (fun p => bucketFmt 8 (at_ + p.2.1 + 4) p.2.2))

/-- Reserved fields and limits of the replica-and-spare section (R165). -/
def replicaReserved (b : Bytes) : Bool :=
  let so := 32 + pad8 (2 * fld 0 1 b)
  let ao := so + 8 * fld 1 1 b
  fld 11 5 b == 0 && fld 16 8 b < 2 ^ 48 && fld 24 8 b == 0 &&
    (List.range (fld 1 1 b)).all (fun i => fld (so + 8 * i + 3) 1 b < 2 && fld (so + 8 * i + 4) 4 b == 0) &&
    (List.range (fld 2 2 b)).all (fun i => fld (ao + 16 * i + 1) 1 b == 0 && fld (ao + 16 * i + 6) 2 b == 0)

/-! ## Built-in programs (R105, R117) -/

/-- The record of a built-in: length and name "BUILTIN" plus the slot digit (Table 8.1). -/
def builtinProg (slot needs writes : Nat) (ops : List Nat) : Prog :=
  let raw := toLE 1 slot ++ toLE 1 ops.length ++ toLE 1 needs ++ [0] ++ toLE 1 writes ++ zeros 3 ++ ascii "BUILTIN" ++
    toLE 1 (0x30 + slot) ++ fit (pad8 (4 * ops.length)) (ops.flatMap (toLE 4))
  { slot := slot, len := ops.length, needs := needs, rounding := 0, writes := writes, ops := ops, raw := raw, builtin := true }

/-- Table 4.8. -/
def builtins : List Prog := [
  builtinProg 0 7 3 [0x14241000, 0x14A02000, 0x18622080],
  builtinProg 1 15 7 [0x11A20000, 0x14A02300, 0x11400000, 0x11E65000, 0x14E43380, 0x22060000, 0x0A115000, 0x1E448000,
    0x186C1080, 0x18689080],
  builtinProg 2 7 3 [0x11620000, 0x15A02280, 0x398C0000, 0x186A1080, 0x18686080, 0x11E60000, 0x14A42380]]

/-- The programs of a plan: those of its section, and the built-ins in the slots 0 to 2 it leaves empty (R105). -/
def withBuiltins (ps : List Prog) : List Prog :=
  sortBy (fun a b => decide (a.slot ≤ b.slot)) (ps ++ builtins.filter (fun b => !ps.any (fun p => p.slot == b.slot)))

/-! ## The whole plan -/

/-- Read the sections into a plan. -/
def ofSections (bs : Bytes) (ss : List Section) : Plan :=
  let sk := (sect ss 3).map (fun s => readSkein s.body)
  let body (t : Nat) : Bytes :=
    match sect ss t with
    | some s => s.body
    | none => []
  { raw := bs, digest := planDigest bs, frame := readFrame (body 1), jobs := readJobs (body 2), skein := sk,
    descs := readDescs (body 4),
    progs := withBuiltins (match readProgs (body 5) with
      | .ok ps => ps.map (fun p => p.2)
      | .error _ => []),
    bucket := (sect ss 6).map (fun s => readBucket s.body), tier := (sect ss 7).map (fun s => readTier s.body),
    replica := (sect ss 8).map (fun s => readReplica sk s.body) }

/-- The first fault of format of the sections, in their order in the plan (R444). -/
def sectionFault (ss : List Section) (s : Section) : Option Refuse :=
  match s.typ with
  | 1 => frameFault s
  | 2 => jobsFault s
  | 3 => skeinFmt s
  | 4 => refuseIf (s.body.length % 64 != 0) (fmtFault 4 (s.off + 4))
  | 5 => progsFault s
  | 6 => bucketFmt 6 (s.off + 8) s.body
  | 7 => tierFmt s
  | 8 => replicaFmt ((sect ss 3).map (fun k => readSkein k.body)) s
  | _ => none

/-- Read a plan: the plan and its sections, or the fault of format (check 0x01). -/
def read (bs : Bytes) : Except Refuse (Plan × List Section) :=
  match split bs with
  | .error r => .error r
  | .ok ss =>
    match firstFault (ss.map (sectionFault ss)) with
    | some r => .error r
    | none => .ok (ofSections bs ss, ss)

/-! ## Parts of a plan -/

/-- The descriptor of a hank; class 0 beyond the section (R35). -/
def desc (p : Plan) (h : Nat) : Option Desc := p.descs[h]?

/-- The hank numbers with a descriptor of a class. -/
def hanksOf (p : Plan) (cls : Nat) : List Nat :=
  (p.descs.zipIdx.filter (fun (d, _) => d.cls == cls)).map (fun x => x.2)

/-- The framed job's entry. -/
def framed (p : Plan) : Option JobEnt := p.jobs.find? (fun j => bit j.flags 0)

/-- The framed job's tag; 0 without one. -/
def jobTag (p : Plan) : Nat :=
  match p.framed with
  | some j => j.tag
  | none => 0

/-- The program of a slot. -/
def prog? (p : Plan) (slot : Nat) : Option Prog := p.progs.find? (fun g => g.slot == slot)

/-- The epoch the plan carries. -/
def epoch? (p : Plan) : Option Nat := p.skein.map (fun k => k.epoch)

/-- The site of an id. -/
def site? (p : Plan) (id : Nat) : Option Site :=
  match p.bucket with
  | some b => b.sites.find? (fun s => s.id == id)
  | none => none

end Plan

namespace Desc

/-- A masked hank (flag bit 0). -/
def masked (d : Desc) : Bool := bit d.flags 0

/-- An unordered SHARED hank (flag bit 1). -/
def unordered (d : Desc) : Bool := bit d.flags 1

/-- Read-only placement (flag bit 2). -/
def readOnly (d : Desc) : Bool := bit d.flags 2

/-- Whorl window enabled (flag bit 3). -/
def window (d : Desc) : Bool := bit d.flags 3

/-- The base of plane `i` in 4 KiB units. -/
def base (d : Desc) (i : Nat) : Nat := natAt d.bases i

end Desc

/-- Bytes per element of plane `i` (0 HI, 1 LO, 2 M1, 3 M2, 4 AUX) under planes and formats fields; 0 for a plane the hank does
not have (Table 2.3). -/
def planeWidth (planes formats i : Nat) : Nat :=
  if !bit planes i then 0
  else match i with
    | 0 => 2
    | 1 => 2
    | 2 => if bit formats 0 then 2 else 4
    | 3 => if bit formats 1 then 2 else 4
    | 4 => if formats / 4 % 4 = 1 then 2 else if formats / 4 % 4 = 2 then 4 else 0
    | _ => 0

/-- The coded stripes of a group in order: (plane, index within the group, stripes of the plane per group) (Table 5.1). -/
def groupStripes (planes formats : Nat) : List (Nat × Nat × Nat) :=
  (List.range 5).flatMap (fun i =>
    let k := planeWidth planes formats i / 2
    (List.range k).map (fun j => (i, j, k)))

/-- s_h, the stripes per group (R124). -/
def stripesPerGroup (planes formats : Nat) : Nat := (groupStripes planes formats).length

/-- Groups of `count` elements (R91). -/
def groupsOf (count : Nat) : Nat := ceilDiv count Config.groupElems

/-- Elements of group `g` of a hank of `count` elements. -/
def elemsIn (count g : Nat) : Nat := min Config.groupElems (count - Config.groupElems * g)

/-- Stripes of a plane of `w` bytes per element (R39). -/
def planeStripes (count w : Nat) : Nat := ceilDiv (count * w) Config.stripe

end Sys2Proof.Machine
end

