-- ==== Sys2Proof/Machine/Layout.lean ====
section
/-! DEFINITION. Where stripes, plies, tags and adopted groups lie: planes (R39, R287), rows and laps (R126), the ply store (R127),
the spread of a lost shard (R156, R172), the adoption reserve (R157). -/

namespace Sys2Proof.Machine

/-- The members a list names, by increasing number. -/
def residuesBut (n : Nat) (p : Nat → Bool) : List Nat := (List.range n).filter p

/-- Where a stripe of a group lies in the rows (R126). -/
structure Place where
  band : Nat
  lap : Nat
  x : Nat
  slot : Nat
  deriving DecidableEq, Repr

namespace Layout

/-- The layout of a skein section. -/
def ofSkein (k : SkeinSec) : Layout :=
  { n := k.n, m := k.m, position := k.position, epoch := k.epoch,
    plyBase := (k.members.getD k.position (0, 0)).2, members := k.members, hanks := k.hanks, counts := k.counts }

/-- k, the data slots of a row. -/
def k (l : Layout) : Nat := l.n - l.m

/-- The place of a hank in the hank table. -/
def hankIdx (l : Layout) (h : Nat) : Option Nat := l.hanks.findIdx? (fun e => e.1 == h)

/-- The element count of member `j` for hank `h`. -/
def elems (l : Layout) (j h : Nat) : Nat :=
  match l.hankIdx h with
  | some i => natAt (l.counts.getD j []) i
  | none => 0

/-- The group count of member `j` for hank `h`. -/
def groups (l : Layout) (j h : Nat) : Nat := groupsOf (l.elems j h)

/-- s_h from the hank table. -/
def sOf (l : Layout) (h : Nat) : Nat :=
  match l.hanks.find? (fun e => e.1 == h) with
  | some e => stripesPerGroup e.2.1 e.2.2
  | none => 0

/-- The group stripes of a hank of the table, in order of p. -/
def stripes (l : Layout) (h : Nat) : List (Nat × Nat × Nat) :=
  match l.hanks.find? (fun e => e.1 == h) with
  | some e => groupStripes e.2.1 e.2.2
  | none => []

/-- G*_h. -/
def gmax (l : Layout) (h : Nat) : Nat := maxL ((List.range l.n).map (fun j => l.groups j h))

/-- Bands of a hank: ceil(G*_h / k). -/
def bands (l : Layout) (h : Nat) : Nat := ceilDiv (l.gmax h) l.k

/-- base_lap of a hank. -/
def baseLap (l : Layout) (h : Nat) : Nat :=
  sumL ((l.hanks.filter (fun e => decide (e.1 < h))).map (fun e => l.sOf e.1 * l.bands e.1))

/-- Λ, the laps. -/
def laps (l : Layout) : Nat := sumL (l.hanks.map (fun e => l.sOf e.1 * l.bands e.1))

/-- eligible(j): the residues of the rows in which member `j` holds no ply, increasing. -/
def eligible (l : Layout) (j : Nat) : List Nat :=
  residuesBut l.n (fun x => x != j && (l.m == 1 || x != (j + l.n - 1) % l.n))

/-- The layout's holder of a role in residue `x`. -/
def holder (l : Layout) (x role : Nat) : Nat := if role = 0 then x else (x + 1) % l.n

/-- The members that hold data slots in residue `x`, in slot order. -/
def owners (l : Layout) (x : Nat) : List Nat :=
  residuesBut l.n (fun j => j != x && (l.m == 1 || j != (x + 1) % l.n))

/-- The slot of member `j` in residue `x`. -/
def slotOf (l : Layout) (x j : Nat) : Nat := (l.owners x).findIdx (fun o => o == j)

/-- The place of stripe `p` of group `g` of hank `h` of member `j` (R126). -/
def place (l : Layout) (j h g p : Nat) : Place :=
  let x := natAt (l.eligible j) (g % l.k)
  { band := g / l.k, lap := l.baseLap h + l.sOf h * (g / l.k) + p, x := x, slot := l.slotOf x j }

/-- The group that member `j` holds in residue `x` of band `b`. -/
def groupIn (l : Layout) (j h b x : Nat) : Option Nat :=
  match (l.eligible j).findIdx? (fun y => y == x) with
  | some col => if l.k * b + col < l.groups j h then some (l.k * b + col) else none
  | none => none

/-- The hank and band of a lap, and the stripe number p in the band. -/
def bandOfLap (l : Layout) (lap : Nat) : Option (Nat × Nat × Nat) :=
  match l.hanks.find? (fun e => l.baseLap e.1 ≤ lap && lap < l.baseLap e.1 + l.sOf e.1 * l.bands e.1) with
  | some e => some (e.1, (lap - l.baseLap e.1) / l.sOf e.1, (lap - l.baseLap e.1) % l.sOf e.1)
  | none => none

/-- The index of a group in the dense group order of member `j` (R156). -/
def dense (l : Layout) (j h g : Nat) : Nat :=
  sumL ((l.hanks.filter (fun e => decide (e.1 < h))).map (fun e => l.groups j e.1)) + g

/-- Every group of member `j` in the dense order: (hank, g). -/
def groupList (l : Layout) (j : Nat) : List (Nat × Nat) :=
  (sortBy (fun a b => decide (a ≤ b)) (l.hanks.map (fun e => e.1))).flatMap (fun h =>
    (List.range (l.groups j h)).map (fun g => (h, g)))

/-- The dense stripe index u of R125. -/
def denseStripe (l : Layout) (j h g p : Nat) : Nat :=
  sumL ((l.hanks.filter (fun e => decide (e.1 < h))).map (fun e => l.groups j e.1 * l.sOf e.1)) + g * l.sOf h + p

/-- Ns, the coded stripes of member `j` (R125). -/
def ns (l : Layout) (j : Nat) : Nat := sumL (l.hanks.map (fun e => l.groups j e.1 * l.sOf e.1))

/-- The group and stripe number of dense stripe index `u` of member `j`: (hank, g, p). -/
def ofDense (l : Layout) (j u : Nat) : Option (Nat × Nat × Nat) :=
  let hs := sortBy (fun a b => decide (a ≤ b)) (l.hanks.map (fun e => e.1))
  let f (acc : Nat × Option (Nat × Nat × Nat)) (h : Nat) : Nat × Option (Nat × Nat × Nat) :=
    let size := l.groups j h * l.sOf h
    match acc.2 with
    | some r => (acc.1, some r)
    | none =>
      if acc.1 < size then (acc.1, some (h, acc.1 / l.sOf h, acc.1 % l.sOf h)) else (acc.1 - size, none)
  (hs.foldl f (u, none)).2

/-- Ply stripe index y of a lap and role (R127). -/
def plyIndex (l : Layout) (lap role : Nat) : Nat := l.m * lap + role

/-- Ply stripes of the store (R127). -/
def plyStripes (l : Layout) : Nat := l.m * l.laps

/-- The tags a member needs (R129). -/
def tagCount (l : Layout) : Nat := l.m * l.k * sumL (l.hanks.map (fun e => l.bands e.1))

/-! ## The spread of a lost shard (R156) -/

/-- The rule of R156 for one group over a survivor list. -/
def heirRule (l : Layout) (surv : List Nat) (j h g : Nat) : Nat :=
  let x := natAt (l.eligible j) (g % l.k)
  let cand := surv.filter (fun c => c != x && (l.m == 1 || c != (x + 1) % l.n))
  let cand := if cand.isEmpty then surv else cand
  natAt cand (l.dense j h g % cand.length)

/-- DEDUCED (log 20): the new holder of a band role whose holder `j` is lost: the rule of R156 for the band's first group, over
the survivors that own no group of the band in that residue where there are such, the band's other holder last, else R156's own survivor
(R172). -/
def roleRule (l : Layout) (surv : List Nat) (j h b x : Nat) : Nat :=
  let g0 := l.k * b
  let free := surv.filter (fun c => (l.groupIn c h b x).isNone)
  let cand := free.filter (fun c => c != x && (l.m == 1 || c != (x + 1) % l.n))
  let cand := if cand.isEmpty then free else cand
  if cand.isEmpty then l.heirRule surv j h g0 else natAt cand (l.dense j h g0 % cand.length)

/-- The groups of a position's hank on channel `ch` of `c`. -/
def chanGroups (l : Layout) (c ch pos h : Nat) : Nat := (l.groups pos h + c - 1 - ch) / c

/-- The place of a coded stripe among those of its channel in the carder's order: hanks, then groups (R95, R181). -/
def chanPlace (l : Layout) (c pos h g p : Nat) : Nat :=
  sumL ((l.hanks.filter (fun e => decide (e.1 < h))).map (fun e => l.sOf e.1 * l.chanGroups c (g % c) pos e.1)) + l.sOf h * (g / c) + p

/-- The coded stripe at a place of a channel's order, over some hanks in increasing order. -/
def chanStripe (l : Layout) (c ch pos : Nat) : List Nat → Nat → Option (Nat × Nat × Nat)
  | [], _ => none
  | h :: hs, i =>
    let n := l.sOf h * l.chanGroups c ch pos h
    if i < n then some (h, i / l.sOf h * c + ch, i % l.sOf h) else chanStripe l c ch pos hs (i - n)

/-- The stripes that member `me` adopts when the positions of one list are lost one after another (R157). -/
def reserveNeed (l : Layout) (me : Nat) (losses : List Nat) : Nat :=
  let surv (seen : List Nat) : List Nat := residuesBut l.n (fun c => !seen.contains c)
  let heirOf (j h g : Nat) : Nat :=
    -- the heir after the losses in turn: reassigned only when its heir is lost (R156)
    (losses.foldl (fun (acc : List Nat × Option Nat) x =>
      let seen := acc.1 ++ [x]
      if !seen.contains j then (seen, none)
      else match acc.2 with
        | none => (seen, some (l.heirRule (surv seen) j h g))
        | some c => if seen.contains c then (seen, some (l.heirRule (surv seen) j h g)) else (seen, some c)) ([], none)).2.getD 0
  sumL (losses.map (fun j => sumL ((l.groupList j).map (fun x => if heirOf j x.1 x.2 = me then l.sOf x.1 else 0))))

/-- The stripes of the adoption reserve: the largest count over every set of 1 to m other positions, a set of two taken in both
orders (R157). -/
def reserveStripes (l : Layout) (me : Nat) : Nat :=
  let others := residuesBut l.n (fun c => c != me)
  let ones := others.map (fun a => [a])
  let twos := if l.m = 2 then others.flatMap (fun a => (others.filter (fun b => b != a)).map (fun b => [a, b])) else []
  maxL ((ones ++ twos).map (l.reserveNeed me))

end Layout

/-! ## Keys of stripes -/

/-- The key of stripe `t` of a plane or region in the hearth (R39). -/
def stripeKey (c base t : Nat) : Nat := State.hearthKey (t % c) (base * 4096 + t / c * 4096)

/-- The offset of stripe `t` of a plane homed in the pantry (R287). -/
def pantryOff (base t : Nat) : Nat := base * 4096 + t * 4096

namespace State

/-- The policy of a descriptor in the plan in effect. -/
def policyOf (s : State) (d : Desc) : Option Policy :=
  match s.planEff with
  | some p => match p.tier with
    | some t => t.policies.find? (fun q => q.index == d.tierPolicy)
    | none => none
  | none => none

/-- A STATE hank homed in the pantry as a whole (R287). -/
def inPantry (s : State) (d : Desc) : Bool :=
  d.cls == 1 && (match s.policyOf d with
    | some q => q.home == 1
    | none => false)

/-- The descriptor that says where group `g` of a hank lies: the old home until the move has passed the group (R288). -/
def homeDesc (r : HankRt) (g : Nat) : Desc × Bool :=
  match r.moving with
  | some (old, n) => if g < n then (r.desc, true) else (old, false)
  | none => (r.desc, true)

/-- Read stripe `t` of plane `i` of a STATE hank; `g` is the group of the stripe. -/
def readPlane (s : State) (r : HankRt) (i t g : Nat) : Bytes :=
  let (d, cur) := homeDesc r g
  let pantry := if cur then s.inPantry d else !(s.inPantry r.desc)
  if pantry then s.pantryRead (pantryOff (d.base i) t) Config.stripe
  else s.hearthRead (stripeKey s.C (d.base i) t) Config.stripe

/-- Write stripe `t` of plane `i` of a STATE hank. -/
def writePlane (r : HankRt) (i t g : Nat) (bs : Bytes) (s : State) : State :=
  let (d, cur) := homeDesc r g
  let pantry := if cur then s.inPantry d else !(s.inPantry r.desc)
  if pantry then s.pantryWrite (pantryOff (d.base i) t) bs
  else s.hearthWrite (stripeKey s.C (d.base i) t) bs

/-- Stripe index within the plane of the stripe with place (plane, j, k) of group `g`. -/
def planeStripe (g : Nat) (pl : Nat × Nat × Nat) : Nat := g * pl.2.2 + pl.2.1

/-- The stripe of a group lies within its plane (R97): not beyond the plane's last stripe. -/
def stripeExists (d : Desc) (g : Nat) (pl : Nat × Nat × Nat) : Bool :=
  planeStripe g pl < planeStripes d.count (planeWidth d.planes d.formats pl.1)

/-- The stripes of a group in order of p; one beyond its plane reads as zeros (R97). -/
def readGroup (s : State) (r : HankRt) (g : Nat) : List Bytes :=
  (groupStripes r.desc.planes r.desc.formats).map (fun pl =>
    if stripeExists r.desc g pl then s.readPlane r pl.1 (planeStripe g pl) g else zeros Config.stripe)

/-- Write the stripes of a group. -/
def writeGroup (r : HankRt) (g : Nat) (bs : List Bytes) (s : State) : State :=
  forEach ((groupStripes r.desc.planes r.desc.formats).zip bs) (fun x st =>
    if stripeExists r.desc g x.1 then st.writePlane r x.1.1 (planeStripe g x.1) g x.2 else st) s

/-- The stripe hash of each stripe of a group, 0 for one beyond its plane (R226, R227). -/
def groupHash (d : Desc) (h g : Nat) (bs : List Bytes) : Nat :=
  ((groupStripes d.planes d.formats).zip bs).foldl (fun a x =>
    if stripeExists d g x.1 then add64 a (stripeHash h x.1.1 (planeStripe g x.1) x.2) else a) 0

/-- Stripes of a group that exist (R97, R99). -/
def groupSize (d : Desc) (g : Nat) : Nat := ((groupStripes d.planes d.formats).filter (stripeExists d g)).length

/-! ## Ply store and reserve -/

/-- The hanks of a layout that have plies in the pantry ply store; one that moves counts until its move is over. -/
def pantryPlies (s : State) (l : Layout) : List Nat :=
  (l.hanks.map (fun e => e.1)).filter (fun h => match s.hank? h with
    | some r => s.inPantry r.desc || r.moving.isSome
    | none => false)

/-- z of a ply stripe of a hank, where the hanks given have plies in the pantry: those ply stripes in increasing y (R287). -/
def plyZ (l : Layout) (hs : List Nat) (h y : Nat) : Nat :=
  sumL ((l.hanks.filter (fun e => hs.contains e.1 && decide (e.1 < h))).map (fun e => l.m * l.sOf e.1 * l.bands e.1)) +
    (y - l.m * l.baseLap h)

/-- z of a ply stripe of a pantry-homed hank. -/
def plyPantryZ (s : State) (l : Layout) (h y : Nat) : Nat := plyZ l (s.pantryPlies l) h y

/-- pantry_ply_base of the plan in effect. -/
def pantryPlyBase (s : State) : Nat :=
  match s.planEff with
  | some p => match p.tier with
    | some t => t.pantryPlyBase
    | none => 0
  | none => 0

/-- The ply stripes of lap `i` of the laps of hank `h` lie in the pantry; a home move passes them in increasing lap (R288). -/
def plyInPantry (s : State) (h i : Nat) : Bool :=
  match s.hank? h with
  | some r => if r.moving.isSome && r.plyMoved ≤ i then !(s.inPantry r.desc) else s.inPantry r.desc
  | none => false

/-- Where a stripe of this member's own ply store lies: its hearth key or pantry offset, and whether it is in the pantry. -/
def ownPlyKey (s : State) (l : Layout) (h lap role : Nat) : Nat × Bool :=
  let y := l.plyIndex lap role
  if s.plyInPantry h (lap - l.baseLap h) then (pantryOff s.pantryPlyBase (s.plyPantryZ l h y), true)
  else (stripeKey s.C l.plyBase y, false)

/-- Read a stripe of this member's own ply store (R127, R287). -/
def readOwnPly (s : State) (l : Layout) (h lap role : Nat) : Bytes :=
  let y := l.plyIndex lap role
  if s.plyInPantry h (lap - l.baseLap h) then s.pantryRead (pantryOff s.pantryPlyBase (s.plyPantryZ l h y)) Config.stripe
  else s.hearthRead (stripeKey s.C l.plyBase y) Config.stripe

/-- Write a stripe of this member's own ply store. -/
def writeOwnPly (l : Layout) (h lap role : Nat) (bs : Bytes) (s : State) : State :=
  let y := l.plyIndex lap role
  if s.plyInPantry h (lap - l.baseLap h) then s.pantryWrite (pantryOff s.pantryPlyBase (s.plyPantryZ l h y)) bs
  else s.hearthWrite (stripeKey s.C l.plyBase y) bs

/-- A ply stripe of a role that was taken over, among those given (R172). -/
def takenPly (ts : List TakenPly) (h lap x role : Nat) : Bytes :=
  match ts.find? (fun t => t.hank == h && t.lap == lap && t.residue == x && t.role == role) with
  | some t => t.bytes
  | none => zeros Config.stripe

/-- Read the ply stripe of a row (lap, residue) that this member holds: from its own ply store where the layout makes it the
holder (R127), else from the roles it took over (R172, log 62). -/
def readPly (s : State) (l : Layout) (h lap x role : Nat) : Bytes :=
  if l.holder x role = l.position then s.readOwnPly l h lap role else takenPly s.code.taken h lap x role

/-- The laps of a hank whose plies lie in the pantry now, first and last + 1: while it moves, those not passed yet where it leaves the
pantry, those passed where it comes there (R288). -/
def pantryLaps (s : State) (l : Layout) (r : HankRt) : Nat × Nat :=
  let all := l.sOf r.hank * l.bands r.hank
  if r.moving.isSome then (if s.inPantry r.desc then (0, r.plyMoved) else (r.plyMoved, all))
  else if s.inPantry r.desc then (0, all) else (0, 0)

/-- The pantry ply store of a layout as it stands: its base and, by hank, the laps that lie in it. -/
def plyStoreNow (s : State) (l : Layout) : OldStore :=
  { base := s.pantryPlyBase
    hanks := (s.pantryPlies l).filterMap (fun h => (s.hank? h).map (fun r => (h, s.pantryLaps l r))) }

/-- Where a stripe of the store kept beside a re-code lies: it stays where it was when the re-code began (R222). -/
def oldPlyKey (s : State) (l : Layout) (h lap role : Nat) : Nat × Bool :=
  let y := l.plyIndex lap role
  let o := s.code.oldStore
  let i := lap - l.baseLap h
  match o.hanks.find? (fun x => x.1 == h && x.2.1 ≤ i && i < x.2.2) with
  | some _ => (pantryOff o.base (plyZ l (o.hanks.map (fun x => x.1)) h y), true)
  | none => (stripeKey s.C l.plyBase y, false)

/-- The ply store that a re-code keeps beside the new one: bytes in the hearth and in the pantry (R222). -/
def oldPlies (s : State) : Nat × Nat :=
  match s.code.oldLayout with
  | some o =>
    if o.n ≤ o.position then (0, 0)
    else (o.plyStripes * Config.stripe, sumL (s.code.oldStore.hanks.map (fun x => o.m * o.sOf x.1 * o.bands x.1)) * Config.stripe)
  | none => (0, 0)

/-- Read a ply stripe under the old layout of a re-code (R223). -/
def readOldPly (s : State) (l : Layout) (h lap x role : Nat) : Bytes :=
  if l.holder x role = l.position then
    let k := s.oldPlyKey l h lap role
    if k.2 then s.pantryRead k.1 Config.stripe else s.hearthRead k.1 Config.stripe
  else takenPly s.code.oldTaken h lap x role

/-- The pantry ply stripes of a layout: hank, lap and role. -/
def pantryRoles (s : State) (l : Layout) : List (Nat × Nat × Nat) :=
  (s.pantryPlies l).flatMap (fun h => (List.range (l.sOf h * l.bands h)).flatMap (fun i =>
    (List.range l.m).filterMap (fun role => if s.plyInPantry h i then some (h, l.baseLap h + i, role) else none)))

/-- The numbering or the base of the pantry ply store has changed under a layout that goes on: the plies that stay in the pantry keep
their contents at their new place (R287; the manual gives no copy of them, DESIGN CHOICE, log 187). `old` is the state before. -/
def carryPlies (old : State) (s : State) : State :=
  match old.code.layout, s.code.layout with
  | some o, some l =>
    if { o with epoch := l.epoch, members := l.members } != l || l.n ≤ l.position || s.code.oldLayout != old.code.oldLayout ||
        (old.pantryPlies l == s.pantryPlies l && old.pantryPlyBase == s.pantryPlyBase) then s
    else
      forEach ((old.pantryRoles l).filter (fun x => s.plyInPantry x.1 (x.2.1 - l.baseLap x.1))) (fun x st =>
        st.writeOwnPly l x.1 x.2.1 x.2.2 (old.readOwnPly l x.1 x.2.1 x.2.2)) s
  | _, _ => s

/-- Write the ply stripe of a row that this member holds. -/
def writePly (l : Layout) (h lap x role : Nat) (bs : Bytes) (s : State) : State :=
  if l.holder x role = l.position then s.writeOwnPly l h lap role bs
  else
    let t : TakenPly := { hank := h, lap := lap, residue := x, role := role, bytes := bs }
    let isIt (u : TakenPly) : Bool := u.hank == h && u.lap == lap && u.residue == x && u.role == role
    { s with code := { s.code with taken := s.code.taken.filter (fun u => !isIt u) ++ [t] } }

/-- reserve_base of the plan in effect. -/
def reserveBase (s : State) : Nat :=
  match s.planEff with
  | some p => match p.replica with
    | some r => r.reserveBase
    | none => 0
  | none => 0

/-- This member's position. -/
def myPos (s : State) : Nat :=
  match s.code.layout with
  | some l => l.position
  | none => 0xFF

/-- The first reserve stripe of an adopted group: those of this member in order of lost position, then a (R157). -/
def reserveIndex (s : State) (l : Layout) (pos h g : Nat) : Nat :=
  let mine := s.loss.adopted.filter (fun a => a.heir == l.position)
  sumL (mine.map (fun a =>
    if a.position < pos || (a.position == pos && l.dense pos a.hank a.group < l.dense pos h g) then l.sOf a.hank else 0))

/-- Stripe `p` of a group of a position lies within its plane (R97). -/
def coded (l : Layout) (pos h g p : Nat) : Bool :=
  match l.hanks.find? (fun e => e.1 == h) with
  | some e => match (groupStripes e.2.1 e.2.2)[p]? with
    | some pl => planeStripe g pl < planeStripes (l.elems pos h) (planeWidth e.2.1 e.2.2 pl.1)
    | none => false
  | none => false

/-- The reserve stripes of an adopted group that hold bytes, as (p, key). -/
def reserveKeys (s : State) (l : Layout) (pos h g : Nat) : List (Nat × Nat) :=
  let y := s.reserveIndex l pos h g
  ((List.range (l.sOf h)).filter (fun p => coded l pos h g p)).map (fun p => (p, stripeKey s.C s.reserveBase (y + p)))

/-- Read the reserve stripes of an adopted group; one beyond its plane reads as zeros (R97). -/
def readReserve (s : State) (l : Layout) (pos h g : Nat) : List Bytes :=
  let ks := s.reserveKeys l pos h g
  (List.range (l.sOf h)).map (fun p => match ks.find? (fun k => k.1 == p) with
    | some k => s.hearthRead k.2 Config.stripe
    | none => zeros Config.stripe)

/-- Write the reserve stripes of an adopted group, none beyond its plane (R97). -/
def writeReserve (l : Layout) (pos h g : Nat) (bs : List Bytes) (s : State) : State :=
  forEach (s.reserveKeys l pos h g) (fun k st => st.hearthWrite k.2 (bs.getD k.1 [])) s

/-! ## Roles and heirs in effect -/

/-- The holder of a band role: the layout's, or the one R172 gives after a loss. -/
def roleHolder (s : State) (l : Layout) (h b x role : Nat) : Nat :=
  match s.loss.roles.find? (fun r => r.hank == h && r.band == b && r.residue == x && r.role == role) with
  | some r => r.holder
  | none => l.holder x role

/-- The holder of a band role under the old layout of a re-code (R223). -/
def oldRoleHolder (s : State) (l : Layout) (h b x role : Nat) : Nat :=
  match s.code.oldRoles.find? (fun r => r.hank == h && r.band == b && r.residue == x && r.role == role) with
  | some r => r.holder
  | none => l.holder x role

/-- The adoption entry of a group. -/
def adoption (s : State) (pos h g : Nat) : Option AdoptRt :=
  s.loss.adopted.find? (fun a => a.position == pos && a.hank == h && a.group == g)

/-- The node of a position under the epoch in effect (R202). -/
def nodeAt (s : State) (pos : Nat) : Nat := s.mem.nodes.getD pos 0xFFFF

/-- The position of a node under the epoch in effect. -/
def posOf (s : State) (node : Nat) : Option Nat :=
  if node = 0xFFFF then none else s.mem.nodes.findIdx? (fun x => x == node)

/-- A position is lost and not yet covered (R155). -/
def isLost (s : State) (pos : Nat) : Bool := bit s.loss.lost pos

/-- The member is fenced (R213). -/
def fenced (s : State) : Bool := s.mem.fenceReason != 0

/-- N, the open step. -/
def N (s : State) : Nat := s.fr.step

/-- E, the epoch in effect. -/
def E (s : State) : Nat := s.mem.epoch

/-- A step is open. -/
def stepOpen (s : State) : Bool := s.fr.opened

end State

end Sys2Proof.Machine
end

