-- ==== Sys2Proof/Machine/Operands.lean ====
section
/-! DEFINITION. Operand forms: byte spans of a region over its channels (R39), 128-byte blocks (R42), slot headers and payloads
(Tables 3.4, 3.6). -/

namespace Sys2Proof.Machine

namespace State

/-! ## Spans of a region (R39) -/

/-- The pieces of a span by stripe: (stripe, offset in the stripe, bytes). -/
def spanPieces (off len : Nat) : List (Nat × Nat × Nat) :=
  if len = 0 then []
  else
    let t0 := off / Config.stripe
    let t1 := (off + len - 1) / Config.stripe
    (List.range (t1 + 1 - t0)).map (fun i =>
      let t := t0 + i
      let lo := max off (t * Config.stripe)
      let hi := min (off + len) ((t + 1) * Config.stripe)
      (t, lo - t * Config.stripe, hi - lo))

/-- Read a span of a region that lies in the hearth. -/
def spanRead (s : State) (base off len : Nat) : Bytes :=
  (spanPieces off len).flatMap (fun x => s.hearthRead (stripeKey s.C base x.1 + x.2.1) x.2.2)

/-- Write a span of a region that lies in the hearth, one piece after another. -/
def spanPut : Nat → List (Nat × Nat × Nat) → Bytes → State → State
  | _, [], _, s => s
  | base, x :: xs, bs, s =>
    spanPut base xs (bs.drop x.2.2) (s.hearthWrite (stripeKey s.C base x.1 + x.2.1) (bs.take x.2.2))

/-- Write a span of a region. -/
def spanWrite (base off : Nat) (bs : Bytes) (s : State) : State := spanPut base (spanPieces off bs.length) bs s

/-- The number of a 128-byte block of the hearth. -/
def blockNo (key : Nat) : Nat := key / 128

/-- The blocks that a span covers. -/
def spanBlocks (s : State) (base off len : Nat) : List Nat :=
  (spanPieces off len).flatMap (fun x =>
    let k := stripeKey s.C base x.1 + x.2.1
    (List.range ((k + x.2.2 - 1) / 128 + 1 - k / 128)).map (fun i => k / 128 + i))

/-- A block of the span is known to be uncorrectable (R349). -/
def spanBad (s : State) (base off len : Nat) : Bool :=
  if s.scrub.badBlocks.isEmpty then false
  else (s.spanBlocks base off len).any (fun b => s.scrub.badBlocks.contains b)

/-- Writing a whole block makes its data good again. -/
def clearBad (blocks : List Nat) (s : State) : State :=
  if s.scrub.badBlocks.isEmpty then s
  else { s with scrub := { s.scrub with badBlocks := s.scrub.badBlocks.filter (fun b => !blocks.contains b) } }

/-! ## Header windows (R64) -/

/-- The 128 bytes of a header of a LANDING hank; one never written reads as zeros. -/
def header (s : State) (hank i : Nat) : Bytes :=
  match s.land.headers.find? (fun h => h.1 == hank * 128 + i) with
  | some h => h.2
  | none => zeros 128

/-- Hall time has passed t_rc after the tick of the open step (R88). -/
def pastRc (s : State) : Bool :=
  match s.planEff with
  | some p => decide (s.fr.htSample + p.frame.tRc < s.now)
  | none => false

/-- Bytes of a header that were lost and not written since (Table 15.3). -/
def lostBytes (s : State) (hank i : Nat) : Nat :=
  match s.land.badHeaders.find? (fun x => x.1 == hank * 128 + i) with
  | some x => x.2
  | none => 0

/-- Set the lost bytes of a header. -/
def setLostBytes (hank i mask : Nat) (s : State) : State :=
  let k := hank * 128 + i
  { s with land := { s.land with
      badHeaders := s.land.badHeaders.filter (fun x => x.1 != k) ++ (if mask = 0 then [] else [(k, mask)]) } }

/-- Write a header; one written late is noted, unless it is a confirmation or a revision (R74, R88). -/
def putHeader (hank i : Nat) (bs : Bytes) (s : State) : State :=
  let k := hank * 128 + i
  let rest := s.land.headers.filter (fun h => h.1 != k)
  let late := if s.pastRc && !s.land.lateHdrs.contains k && fld 40 1 bs / 2 % 4 = 0 then [k] else []
  setLostBytes hank i 0 { s with land := { s.land with
      headers := if allZero bs then rest else rest ++ [(k, bs)], lateHdrs := s.land.lateHdrs ++ late } }

/-- The base of a hank's region 0x00. -/
def regionBase (s : State) (h : Nat) : Nat :=
  match s.hank? h with
  | some r => r.desc.base 0
  | none => 0

end State

/-! ## Slots (Tables 3.2, 3.4) -/

namespace Site

/-- Final site (flag bit 0). -/
def final (x : Site) : Bool := bit x.flags 0

/-- Mean of the final site (flag bit 1). -/
def mean (x : Site) : Bool := bit x.flags 1

/-- Remote-bound site (flag bit 2). -/
def remote (x : Site) : Bool := bit x.flags 2

/-- The site has a self slot (flag bit 3). -/
def hasSelf (x : Site) : Bool := bit x.flags 3

/-- Bytes of a slot element. -/
def elemBytes (x : Site) : Nat := if x.width = 0 then 2 else 4

/-- Bytes of the index array of a ROWS slot with `cap` records (R63). -/
def indexBytes (cap : Nat) : Nat := ceilDiv (4 * cap) 128 * 128

/-- Bytes of one ROWS record, padding included. -/
def recBytes (cols w : Nat) : Nat := ceilDiv (cols * w) 128 * 128

/-- Bytes of a slot payload. -/
def payload (x : Site) : Nat :=
  if x.kind = 0 then x.extent * x.elemBytes else indexBytes x.capacity + x.capacity * recBytes x.cols x.elemBytes

/-- P, the slot pitch in bytes. -/
def pitchBytes (x : Site) : Nat := x.pitch * 4096

/-- Offset of the payload of bank `b`, slot `i`. -/
def slotOff (x : Site) (b i : Nat) : Nat := 16384 + (b * x.slots + i) * x.pitchBytes

/-- Offset of the gradient area. -/
def gradOff (x : Site) : Nat := 16384 + 2 * x.slots * x.pitchBytes

/-- Elements of the gradient area. -/
def gradElems (x : Site) : Nat := if x.kind = 0 then x.extent else x.extent * x.cols

/-- The first element of the bucket in the owner's hank. -/
def firstElem (x : Site) : Nat := if x.kind = 0 then x.first else x.first * x.cols

/-- Offset and bytes of the part of a slot payload that is used: L elements or records. -/
def usedBytes (x : Site) (count : Nat) : Nat :=
  if x.kind = 0 then x.extent * x.elemBytes else indexBytes x.capacity + count * recBytes x.cols x.elemBytes

end Site

/-- A slot header's fields (Table 3.6). -/
structure SlotHdr where
  job : Nat
  stamp : Nat
  step : Nat
  count : Nat
  dropped : Nat
  node : Nat
  site : Nat
  slot : Nat
  weight : Nat
  flags : Nat
  deriving DecidableEq, Repr

/-- Read a slot header. -/
def readHdr (b : Bytes) : SlotHdr :=
  { job := fld 0 4 b, stamp := fld 4 4 b, step := fld 8 8 b, count := fld 16 8 b, dropped := fld 24 8 b, node := fld 32 2 b,
    site := fld 34 1 b, slot := fld 35 1 b, weight := fld 36 4 b, flags := fld 40 1 b }

/-- The 128 bytes of a slot header. -/
def hdrBytes (h : SlotHdr) : Bytes :=
  fit 128 (toLE 4 h.job ++ toLE 4 h.stamp ++ toLE 8 h.step ++ toLE 8 h.count ++ toLE 8 h.dropped ++ toLE 2 h.node ++
    toLE 1 h.site ++ toLE 1 h.slot ++ toLE 4 h.weight ++ toLE 1 h.flags)

/-- The 4-byte words of a byte string. -/
def words (bs : Bytes) : List Nat := (pieces 4 bs).map leNat

/-- The FP32 values of a byte string of elements of width 2 (BF16) or 4. -/
def elemVals (w : Nat) (bs : Bytes) : List W32 :=
  if w = 2 then (pieces 2 bs).map (fun e => BitVec.ofNat 32 (leNat e * 65536))
  else (pieces 4 bs).map (fun e => BitVec.ofNat 32 (leNat e))

/-- The bytes of FP32 values. -/
def valBytes (vs : List W32) : Bytes := vs.flatMap (fun v => toLE 4 v.toNat)

end Sys2Proof.Machine
end

