-- ==== Sys2Proof/Machine/Combine.lean ====
section
/-! DEFINITION. The ordered combine (R76 to R81) as a function of slot contents: the balanced tree, DENSE and ROWS inputs, the
mean, the malformed slot. It serves a site's own close and an heir's work for a lost member (R162). -/

namespace Sys2Proof.Machine

/-- A column: the input of one slot at each position, or none where it is absent. -/
abbrev Column := List (Option W32)

/-- One node of the tree at one position: an absent input is skipped, never added as zero (R76). -/
def addOpt (a b : Option W32) : Option W32 :=
  match a, b with
  | some x, some y => some (Fp.add x y)
  | some x, none => some x
  | none, y => y

/-- One node of the tree over whole columns: `a` is the left operand. -/
def addCol : Column → Column → Column
  | [], ys => ys
  | xs, [] => xs
  | x :: xs, y :: ys => addOpt x y :: addCol xs ys

/-- One level of the balanced tree: neighbours in pairs. -/
def treeLevel : List Column → List Column
  | a :: b :: rest => addCol a b :: treeLevel rest
  | l => l

/-- The levels of the tree, lowest first; with an odd number of columns the last has an absent partner. -/
def treeSum : Nat → List Column → Column
  | 0, cs => cs.headD []
  | k + 1, cs => if cs.length ≤ 1 then cs.headD [] else treeSum k (treeLevel cs)

/-- The sum at the root: a NaN is written as 0x7FC0_0000, also where one input alone reaches the root (R77). -/
def sumTree (cs : List Column) : Column :=
  (treeSum 7 cs).map (fun v => v.map (fun x => if Fp.isNaN x then Fp.qnan else x))

/-- A usable slot's input. -/
structure SlotIn where
  weight : Nat
  /-- DENSE values, or nothing. -/
  dense : List W32
  /-- ROWS records: (row, values). -/
  rows : List (Nat × List W32)
  deriving DecidableEq, Repr

/-- The rows present in any input, increasing. -/
def unionRows (ins : List (Option SlotIn)) : List Nat :=
  ins.foldl (fun acc x =>
    match x with
    | none => acc
    | some i => i.rows.foldl (fun a r => if a.contains r.1 then a else insertBy (fun p q => decide (p ≤ q)) r.1 a) acc) []

/-- The column of a ROWS slot over a list of rows. -/
def rowsColumn (rows : List Nat) (cols : Nat) (i : SlotIn) : Column :=
  rows.flatMap (fun r =>
    match i.rows.find? (fun x => x.1 == r) with
    | some x => (List.range cols).map (fun j => some (x.2.getD j 0))
    | none => List.replicate cols none)

/-- The sum at each position of a list of `len` positions; an empty output is absent at each (R79). -/
def combineDense (len : Nat) (ins : List (Option SlotIn)) : Column :=
  sumTree (ins.map (fun x =>
    match x with
    | some i => i.dense.map some ++ List.replicate (len - i.dense.length) none
    | none => List.replicate len none))

/-- The sum at each position of some rows. -/
def combineRows (rows : List Nat) (cols : Nat) (ins : List (Option SlotIn)) : Column :=
  sumTree (ins.map (fun x =>
    match x with
    | some i => rowsColumn rows cols i
    | none => List.replicate (rows.length * cols) none))

/-- The final value of a position: +0.0 where every input is absent, else the sum, divided by W with the mean flag (R79). -/
def finalVal (mean : Bool) (w : Nat) (v : Option W32) : W32 :=
  match v with
  | none => 0
  | some x => if mean then Fp.div x (Fp.round32 false w 0 false) else x

/-- A malformed present slot (R81). `index` is the index array of a ROWS slot up to its count. -/
def malformedSlot (x : Site) (leaf : Bool) (h : SlotHdr) (index : List Nat) : Bool :=
  let empty := !leaf && h.weight == 0 && h.count == 0
  let denseBad := x.kind == 0 && ((h.count != x.extent && !empty) || h.dropped != 0)
  let rising := (index.zip (index.drop 1)).all (fun p => decide (p.1 < p.2))
  let rowsBad := x.kind != 0 && (h.count > x.capacity || !rising || index.any (fun r => r ≥ x.extent))
  denseBad || rowsBad || (leaf && h.weight != 1) || (!leaf && h.weight > 16777216)

/-- The input of a well-formed slot from its payload bytes. -/
def slotInput (x : Site) (h : SlotHdr) (bytes : Bytes) : SlotIn :=
  let w := x.elemBytes
  if h.weight = 0 && h.count = 0 then { weight := 0, dense := [], rows := [] }
  else if x.kind = 0 then { weight := h.weight, dense := elemVals w (bytes.take (x.extent * w)), rows := [] }
  else
    let rb := Site.recBytes x.cols w
    { weight := h.weight, dense := [],
      rows := (List.range h.count).map (fun r =>
        (fld (4 * r) 4 bytes, elemVals w (sub (Site.indexBytes x.capacity + r * rb) (x.cols * w) bytes))) }

/-- What a site makes of its inputs: element values of a final or DENSE output, or the rows of a ROWS output. -/
structure SiteOut where
  weight : Nat
  dropped : Nat
  count : Nat
  payload : Bytes
  deriving DecidableEq, Repr

/-- The output of a site that is not final: FP32, empty at weight 0; a ROWS output keeps the lowest C′ rows (R78, R79). -/
def outputOf (x : Site) (capNext : Nat) (ins : List (Option SlotIn)) : SiteOut :=
  let w := sumL (ins.map (fun i => match i with
    | some v => v.weight
    | none => 0))
  if w = 0 then { weight := 0, dropped := 0, count := 0, payload := [] }
  else if x.kind = 0 then
    { weight := w, dropped := 0, count := x.extent,
      payload := valBytes ((combineDense x.extent ins).map (fun v => v.getD 0)) }
  else
    let all := unionRows ins
    let rows := all.take capNext
    let vals := combineRows rows x.cols ins
    let rb := Site.recBytes x.cols 4
    let recs := (List.range rows.length).flatMap (fun i =>
      fit rb (valBytes (((vals.drop (i * x.cols)).take x.cols).map (fun v => v.getD 0))))
    { weight := w, dropped := all.length - rows.length, count := rows.length,
      payload := fit (Site.indexBytes capNext) (rows.flatMap (toLE 4)) ++ recs }

/-- The gradient a final site writes, in increasing element order (R75, R78, R79). -/
def gradientOf (x : Site) (ins : List (Option SlotIn)) : List W32 :=
  let w := sumL (ins.map (fun i => match i with
    | some v => v.weight
    | none => 0))
  if x.kind = 0 then
    (combineDense x.extent ins).map (finalVal x.mean w)
  else
    (combineRows (List.range x.extent) x.cols ins).map (finalVal x.mean w)

end Sys2Proof.Machine
end

