-- ==== Sys2Proof/Machine/Fabric.lean ====
section
/-! DEFINITION. Fabric messages (chapter 11): the common header, classes and lengths, sending with credits and outstanding
requests, the receive checks of Table 11.6, alive contexts. -/

namespace Sys2Proof.Machine

/-! ## The message (R302 to R304, R443) -/

/-- The class of a message type (Table 11.3); none for a type the table does not list. -/
def msgClass (typ : Nat) : Option Nat :=
  if [0x01, 0x03, 0x05, 0x10, 0x12, 0x14, 0x16, 0x17, 0x19, 0x1B].contains typ then some 0
  else if [0x02, 0x04, 0x06, 0x11, 0x13, 0x15, 0x18, 0x1A, 0x1C].contains typ then some 1
  else if 0x30 ≤ typ && typ ≤ 0x38 then some 2
  else none

/-- The length of an Ocper frame (Tables 11.12 and 13.11): the data bytes of a write, a segment or a successful read, 1 to 32 entries of an
event. -/
def ocperLenOk (b : Bytes) : Bool :=
  let op := fld 0 1 b
  let count := fld 12 4 b
  if op = 7 then b.length == 16 + count && count % 32 == 0 && 32 ≤ count && count ≤ 32 * 32
  else if op = 2 || op = 4 || ((op = 0x81 || op = 0x83) && fld 1 1 b = 0) then b.length == 16 + count
  else b.length == 16

/-- Table 11.12. -/
def bodyLenOk (typ : Nat) (b : Bytes) : Bool :=
  let n := b.length
  match typ with
  | 0x01 => n == 16 + fld 8 4 b && 1 ≤ fld 8 4 b && fld 8 4 b ≤ 65536
  | 0x02 => n == 8
  | 0x03 => n == 16
  | 0x04 => if fld 0 1 b = 0 then (n - 8) % 128 == 0 && 136 ≤ n && n ≤ 65544 else n == 8
  | 0x05 => n == 32
  | 0x06 => n == 16
  | 0x10 =>
    let count := fld 4 1 b
    let z := count - popCount count (fld 5 1 b)
    16 ≤ n && 2 ≤ count && count ≤ 8 && n == 16 + 4096 * z && fld 5 1 b < 2 ^ count
  | 0x11 => n == 16
  | 0x12 => n == 32 + fld 2 2 b && 1 ≤ fld 2 2 b && fld 2 2 b ≤ 4096
  | 0x13 => n == 16
  | 0x14 => n == 16
  | 0x15 => if fld 0 1 b = 0 then 137 ≤ n && n ≤ 136 + 65536 else n == 8
  | 0x16 => n == 8
  | 0x17 => n == 8
  | 0x18 => if fld 0 1 b = 0 then n == 4104 else n == 8
  | 0x19 => n == 16 + 4096 * fld 3 1 b && 2 ≤ fld 3 1 b && fld 3 1 b ≤ 8
  | 0x1A => n == 16
  | 0x1B => 32 ≤ n && (n - 32) % 8 == 0 && n ≤ 32 + 8 * 256 && (bit (fld 3 1 b) 0 || n == 32)
  | 0x1C => n == 8
  | 0x30 => n == 32
  | 0x31 => n == 16
  | 0x32 => n == 56
  | 0x33 => n == 8
  | 0x34 => n == 56
  | 0x35 => n == 8
  | 0x36 => n == 8
  | 0x37 => n == 24
  | 0x38 => ocperLenOk b
  | _ => false

/-- The reserved bytes of a body, as (offset, size) pairs, are zero (Tables 3.9, 3.10, 5.3, 5.4, 5.6, 6.5, 6.6, 7.3, 7.4, 8.7, 11.4). -/
def bodyReservedOk (typ : Nat) (b : Bytes) : Bool :=
  let z (l : List (Nat × Nat)) : Bool := l.all (fun r => fld r.1 r.2 b == 0)
  match typ with
  | 0x01 => z [(6, 2), (12, 4)]
  | 0x02 => z [(1, 7)]
  | 0x03 => z [(6, 2), (12, 4)]
  | 0x04 => z [(1, 7)]
  | 0x05 => z [(4, 4)]
  | 0x06 => z [(1, 7)]
  | 0x10 => z [(7, 1)] && fld 6 1 b < 4
  | 0x11 => z [(12, 4)]
  | 0x12 => z [(1, 1), (12, 4)]
  | 0x13 => z [(2, 2), (12, 4)]
  | 0x15 => z [(1, 7)]
  | 0x18 => z [(2, 2)]
  | 0x19 => z [(9, 7)]
  | 0x1A => z [(3, 1)]
  | 0x1B => fld 3 1 b < 2
  | 0x1C => z [(3, 5)]
  | 0x30 => z [(6, 2), (24, 8)]
  | 0x31 => z [(10, 6)]
  | 0x32 => z [(13, 3), (49, 7)]
  | 0x33 => z [(4, 4)]
  | 0x34 => z [(13, 3), (50, 6)]
  | 0x36 => z [(3, 1)]
  | 0x37 => z [(18, 6)] && fld 17 1 b < 2
  | _ => true

/-- The 64 header bytes of a message (Table 11.1) with a given auth field. -/
def headerBytes (m : TxMsg) (auth : Nat) : Bytes :=
  toLE 4 m.job ++ toLE 4 m.epoch ++ toLE 8 m.step ++ toLE 2 m.source ++ toLE 2 m.destination ++ toLE 1 m.cls ++
    toLE 1 m.typ ++ toLE 1 m.flags ++ [0] ++ toLE 4 m.alive ++ toLE 2 m.incarnation ++ toLE 2 m.request ++
    toLE 4 m.body.length ++ zeros 12 ++ toLE 16 auth

/-- The auth field under a key (R321). -/
def authOf (key : Bytes) (m : TxMsg) : Nat := leNat ((hmac256 key (headerBytes m 0 ++ m.body)).take 16)

/-- Data-lane units of a body (R306). -/
def unitsOf (len : Nat) : Nat := if len ≤ 32 then 0 else ceilDiv (len - 32) 128

/-! ## Serial arithmetic (R315, R317) -/

/-- c is ahead of last modulo 2^w. -/
def ahead (w c last : Nat) : Bool :=
  let d := (c + 2 ^ w - last % 2 ^ w) % 2 ^ w
  1 ≤ d && d ≤ 2 ^ (w - 1) - 1

namespace State

/-! ## Nodes with pinned contexts (R316) -/

/-- The nodes of a plan with the classes their roles use. -/
def planPins (me : Nat) (p : Plan) : List (Nat × Nat) :=
  let all3 (ns : List Nat) : List (Nat × Nat) := ns.flatMap (fun n => [(n, 0), (n, 1), (n, 2)])
  let two (ns : List Nat) : List (Nat × Nat) := ns.flatMap (fun n => [(n, 0), (n, 1)])
  let members : List Nat := match p.skein with
    | some k => k.members.map (fun m => m.1)
    | none => []
  let spares : List Nat := match p.replica with
    | some r => r.spares.map (fun x => x.node)
    | none => []
  let reps : List Nat := match p.replica with
    | some r => r.replicas ++ [r.drainNode]
    | none => []
  let bucketNodes (b : BucketMap) : List Nat :=
    b.sites.flatMap (fun x => x.contribs.map (fun c => c.node) ++ (if bit x.flags 2 then [x.nextNode] else [])) ++
      b.outbox.map (fun o => o.destNode)
  let buckets : List Nat := (match p.bucket with
    | some b => bucketNodes b
    | none => []) ++ (match p.replica with
    | some r => r.peers.flatMap (fun x => bucketNodes x.2)
    | none => [])
  let cellar : List Nat := match p.tier with
    | some t => (t.areas.filter (fun a => a.tier == 2)).map (fun a => a.node)
    | none => []
  nub ((all3 (members ++ spares) ++ two (reps ++ buckets ++ cellar)).filter (fun x => x.1 != 0xFFFF && x.1 != me))

/-- The pinned (node, class) pairs. -/
def pins (s : State) : List (Nat × Nat) :=
  let two (ns : List Nat) : List (Nat × Nat) := ns.flatMap (fun n => [(n, 0), (n, 1)])
  let me := s.node
  let plans : List (Nat × Nat) := (match s.planEff with
    | some p => planPins me p
    | none => []) ++ (match s.planPend with
    | some p => planPins me p
    | none => [])
  let notices : List (Nat × Nat) := two (s.land.notices.flatMap (fun n => n.entries.flatMap (fun e => [e.1, e.2])))
  let drains : List (Nat × Nat) := match s.led.restore with
    | some r => two (r.cands.map (fun c => c.drainNode))
    | none => []
  let copyTo : List (Nat × Nat) := match s.loss.copy with
    | some c => two [c.target]
    | none => []
  nub ((plans ++ notices ++ drains ++ copyTo ++ two s.fx.partners).filter (fun x => x.1 != 0xFFFF && x.1 != me))

/-- The dynamic contexts held: MGMT pairs of nodes that are not pinned. -/
def dynamicCtx (s : State) : List Nat :=
  let p := s.pins
  nub (((s.fx.recvCtx.filter (fun c => c.cls == 2)).map (fun c => c.node) ++
    (s.fx.sendCtx.filter (fun c => c.2.1 == 2)).map (fun c => c.1)).filter (fun n => !p.contains (n, 2)))

/-- The alive contexts of a block (R316). -/
def aliveContexts : Nat := 8192

/-- A node's MGMT context is used: it stands last in order of use. -/
def touchCtx (node : Nat) (s : State) : State :=
  { s with fx := { s.fx with dynUse := s.fx.dynUse.filter (fun n => n != node) ++ [node] } }

/-- The dynamic context least recently used gives way (R316); the last value of its send counter stays known, so that none is used again in
this incarnation (R314). -/
def evictOne (s : State) : State :=
  let dyn := s.dynamicCtx
  match (s.fx.dynUse.find? (fun n => dyn.contains n)).or dyn.head? with
  | none => s
  | some old =>
    let last := (s.fx.sendCtx.filter (fun c => c.1 == old && c.2.1 == 2)).map (fun c => (old, c.2.2))
    State.bump 0x50A0 0x0F 1
      { s with
        house := { s.house with views := s.house.views.filter (fun v => match v.1 with
          | .ocper n => n.toNat != old
          | _ => true) }
        fx := { s.fx with
          recvCtx := s.fx.recvCtx.filter (fun c => !(c.node == old && c.cls == 2))
          sendCtx := s.fx.sendCtx.filter (fun c => !(c.1 == old && c.2.1 == 2))
          dynUse := s.fx.dynUse.filter (fun n => n != old)
          evicted := s.fx.evicted.filter (fun e => e.1 != old) ++ last } }

/-- Make room for one more dynamic context in a table that is full; a pinned node's context has its place already. -/
def evictFor (node : Nat) (s : State) : State :=
  let dyn := s.dynamicCtx
  if s.pins.contains (node, 2) || dyn.contains node || s.pins.length + dyn.length < aliveContexts then s else s.evictOne

/-- Pinned contexts that came to be take the place of dynamic ones. -/
def evictOver (s : State) : State :=
  if s.fx.dynUse.isEmpty then s
  else forEach (List.range (s.pins.length + s.dynamicCtx.length - aliveContexts)) (fun _ st => st.evictOne) s

/-! ## Keys (R321 to R323) -/

/-- A job tag is that of the framed job of the plan in effect or of the pending one; the session key is its own (R322, R398). -/
def framedTag (s : State) (job : Nat) : Bool :=
  let is (p : Option Plan) : Bool := match p with
    | some p => job != 0 && p.jobTag == job
    | none => false
  is s.planEff || is s.planPend

/-- The key that signs messages of a job. -/
def signKey (s : State) (job : Nat) : Option Bytes :=
  if job = 0 then s.fx.blockKey else if s.framedTag job then s.fx.sessionKey else none

/-- The keys under which a message of a job is accepted. -/
def acceptKeys (s : State) (job : Nat) : List Bytes :=
  if job = 0 then s.fx.blockKey.toList
  else if s.framedTag job then s.fx.sessionKey.toList ++ s.fx.oldKey.toList
  else []

/-! ## Twist contexts (R325 to R327) -/

/-- A context as it stands with nothing written: CRC-32C (Table 11.9's entries, R327). -/
def twistDefault : TwistCtx :=
  { width := 32, flags := 3, poly := 0x1EDC6F41, init := 0xFFFFFFFF, xorout := 0xFFFFFFFF, reg := 0 }

/-- The context of a number. -/
def twistAt (s : State) (c : Nat) : TwistCtx :=
  match s.fx.twist.find? (fun x => x.1 == c) with
  | some x => x.2
  | none => twistDefault

/-- Put a context. -/
def putTwist (c : Nat) (x : TwistCtx) (s : State) : State :=
  { s with fx := { s.fx with twist := s.fx.twist.filter (fun y => y.1 != c) ++ (if x = twistDefault then [] else [(c, x)]) } }

/-- Some policy of a plan allows the cellar. -/
def planCellar (p : Plan) : Bool :=
  match p.tier with
  | some t => t.policies.any (fun q => bit q.tiers 2)
  | none => false

/-- Contexts of the fabric features in order: rebuild, ply update, combine, carder, drain, mover (R326). -/
def fabricContexts (p : Plan) : List Nat := [2, 2, 4, 2, if bit p.frame.flags 0 then 2 else 0, if planCellar p then 2 else 0]

/-- The owner of a context (0x2700 + c, subindex 0x01): the features from 0 upward, offload the highest numbers with the remainder,
the carder the remainder where offload declares none (R31, R326). -/
def twistOwner (s : State) (c : Nat) : Nat :=
  match s.planEff with
  | none => 0
  | some p =>
    let sizes := fabricContexts p
    let ends := (List.range 6).map (fun i => sumL (sizes.take (i + 1)))
    match (List.range 6).find? (fun i => c < natAt ends i) with
    | some i => i + 1
    | none => if s.reg 0x1150 0x01 = 0 then 4 else 7

/-- The place in `fabricContexts` of the feature that a data-class message with data-lane units belongs to, by its direction, type and
engine (Tables 11.3 and 11.7): a WRITE of the drain or of a page, RDATA of a restore or of a page, delta sets of the carder and to ply
update, mirror pieces of combine, and the traffic of rebuild. -/
def featureOf (out : Bool) (typ request : Nat) : Nat :=
  let engine := request / 8192
  if typ = 0x01 then (if engine = 4 then 4 else 5)
  else if typ = 0x04 then (if engine = 4 then 0 else 5)
  else if typ = 0x10 then (if out then 3 else 1)
  else if typ = 0x12 then 2
  else 0

/-- The context that forms or checks the trailer of such a message (R326, log 159): the one of its way in its feature's share, and of its
direction too where the share has four. -/
def contextOf (s : State) (out : Bool) (way typ request : Nat) : Option Nat :=
  match s.planEff with
  | none => none
  | some p =>
    let f := featureOf out typ request
    let sizes := fabricContexts p
    if natAt sizes f = 0 then none
    else some (sumL (sizes.take f) + (if f = 2 then 2 * (if out then 0 else 1) + way else way))

/-- A context is held by a message on its way out. -/
def contextHeld (s : State) (c : Option Nat) : Bool := c.isSome && s.fx.sendQ.any (fun t => t.started && t.ctx == c)

/-- The register that the CRC-32C of a whole message leaves in the context that formed it (R324). -/
def trailerReg (trailer : Nat) : Nat := revBits 32 (trailer ^^^ 0xFFFFFFFF)

/-- A message with data-lane units has gone through its context: the fixed one of its way and direction for the management class, else
that of its feature. -/
def leaveReg (out : Bool) (way cls trailer : Nat) (ctx : Option Nat) (s : State) : State :=
  if cls = 2 then
    { s with fx := { s.fx with fixedCtx := setAt s.fx.fixedCtx ((if out then 0 else 2) + way) (trailerReg trailer) } }
  else
    match ctx with
    | some c => s.putTwist c { twistDefault with reg := trailerReg trailer }
    | none => s

/-! ## Ledger's credit counts (R231) -/

/-- Count credits issued for messages of the open step: index 2 · direction + way, direction 0 out, 1 in. -/
def countIssued (i n : Nat) (s : State) : State := { s with led := { s.led with issued := addAt s.led.issued i n } }

/-- Count credits returned. -/
def countReturned (i n : Nat) (s : State) : State := { s with led := { s.led with returned := addAt s.led.returned i n } }

/-! ## Sending (R307 to R310, R314, R325) -/

/-- The credit row of a way and class. -/
def creditAt (s : State) (way cls : Nat) : Credit := s.fx.credits.getD (way * 3 + cls) resetCredit

/-- Change a credit row. -/
def setCredit (way cls : Nat) (c : Credit) (s : State) : State :=
  { s with fx := { s.fx with credits := setAt s.fx.credits (way * 3 + cls) c } }

/-- The next send counter of (destination, class); a passed limit raises the incarnation, which the journal then keeps, and restarts every
counter (R314, R317). The last component says that the context is fresh. -/
def nextAlive (dest cls : Nat) (s : State) : State × Nat × Bool :=
  let s := if cls = 2 then s.touchCtx dest else s
  let ctx := s.fx.sendCtx.find? (fun c => c.1 == dest && c.2.1 == cls)
  let old := if cls = 2 then s.fx.evicted.find? (fun e => e.1 == dest) else none
  let v : Nat := match ctx, old with
    | some c, _ => c.2.2
    | none, some e => e.2
    | none, none => 0
  if v + 1 < 2 ^ 32 then
    let s := if cls = 2 && ctx.isNone then s.evictFor dest else s
    let rest := s.fx.sendCtx.filter (fun c => !(c.1 == dest && c.2.1 == cls))
    ({ s with fx := { s.fx with sendCtx := rest ++ [(dest, cls, v + 1)] } }, v + 1, ctx.isNone)
  else
    let inc := (s.fx.incarnation + 1) % 65536
    ({ s with fx := { s.fx with sendCtx := [(dest, cls, 1)], evicted := [], incarnation := inc, incRaised := true } }, 1, true)

/-- Give a message its counter, incarnation, auth and trailer as it starts. Before a key is in effect the auth field has a value the manual
does not state (log 13). -/
def stamp (m : TxMsg) (s : State) : State × TxMsg :=
  let (s, alive, fresh) := s.nextAlive m.destination m.cls
  let m := { m with alive := alive, incarnation := s.fx.incarnation, flags := if m.cls = 2 && fresh then 1 else 0 }
  let s := if m.cls = 2 && (s.signKey m.job).isNone then s.spendFree 16 else s
  let auth := if m.cls != 2 then 0 else match s.signKey m.job with
    | some k => authOf k m
    | none => leNat (s.freeBytes 16)
  let m := { m with auth := auth, trailer := crc32c (headerBytes m auth ++ m.body) }
  (s, m)

/-- Note credits spent. -/
def spend (way cls step hdr unit : Nat) (s : State) : State :=
  let c := s.creditAt way cls
  let s := s.setCredit way cls { c with hdr := c.hdr - hdr, unit := c.unit - unit }
  let s := { s with fx := { s.fx with spent := s.fx.spent ++ [(way, cls, step, hdr, unit)] } }
  if cls != 2 && s.fr.opened && step == s.fr.step then s.countIssued way (hdr + unit) else s

/-- A message is traffic of a rebuild: a request of that feature, or the answer to one (R32, R190). -/
def rebuildMsg (s : State) (m : TxMsg) : Bool :=
  if m.cls = 0 then
    m.typ != 0x12 && s.fx.reqs.any (fun r => r.feature == 0 && r.engine * 8192 + r.entry * 16 + r.gen == m.request)
  else [0x15, 0x18, 0x1A, 0x1C].contains m.typ

/-- The waiting messages of a way and class in sending order: those of a rebuild have the first place (R32), and mirror pieces go ahead
of delta sets (R309). -/
def queueOf (s : State) (way cls : Nat) : List TxRt :=
  let all := s.fx.sendQ.filter (fun t => t.msg.way == way && t.msg.cls == cls)
  let first := all.filter (fun t => s.rebuildMsg t.msg)
  let q := all.filter (fun t => !s.rebuildMsg t.msg)
  first.filter (fun t => t.started) ++ first.filter (fun t => !t.started) ++
    q.filter (fun t => t.started) ++ q.filter (fun t => !t.started && t.msg.typ == 0x12) ++
    q.filter (fun t => !t.started && t.msg.typ != 0x12)

/-- The send path of a message: its type and engine. -/
def pathOf (m : TxMsg) : Nat := m.typ * 8 + m.request / 8192

/-- Transfer slots held on a way (R306). -/
def slotsHeld (s : State) (way : Nat) : List Nat :=
  (s.fx.sendQ.filter (fun t => t.started && t.msg.way == way)).map (fun t => t.slot)

/-- A message can put an entry or a unit on its lanes: it has the credits (R310), and to start also a transfer slot, a free context of
its feature's share for its units (R326), and, for a delta set, no mirror piece of its step that has yet to be sent (R83). -/
def canGo (s : State) (t : TxRt) : Bool :=
  let c := s.creditAt t.msg.way t.msg.cls
  if t.started then t.left = 0 || c.unit != 0
  else
    c.hdr != 0 && (t.left = 0 || c.unit != 0) && (t.left = 0 || decide ((s.slotsHeld t.msg.way).length < 32)) &&
      (t.left = 0 || t.msg.cls = 2 || !s.contextHeld (s.contextOf true t.msg.way t.msg.typ t.msg.request)) &&
      !(t.msg.typ == 0x10 && s.fx.waitQ.any (fun w => w.typ == 0x12 && !w.again && w.step == t.msg.step))

/-- The first message of a queue that can go. A send path starts its messages in the order formed, and delta sets wait for mirror pieces
(R309). -/
def firstGo (s : State) : List Nat → List TxRt → Option TxRt
  | _, [] => none
  | held, t :: ts =>
    if !held.contains (pathOf t.msg) && s.canGo t then some t
    else firstGo s (if t.started then held else if t.msg.typ = 0x12 then pathOf t.msg :: (0x10 * 8) :: held else pathOf t.msg :: held) ts

/-- The start entry of a message (R306, R353): header and body bytes 0 to 31; a message without units is one entry with its trailer. -/
def startEntry (t : TxRt) (s : State) : State :=
  let m := t.msg
  s.emit (.fxStart m.way m.cls t.slot (fit 96 (headerBytes m m.auth ++ m.body)) (if t.left = 0 then some m.trailer else none))

/-- `n` units of a message from those still to go, the last one filled with zeros (R306). -/
def sendUnits (t : TxRt) (n : Nat) (s : State) : State :=
  let from_ := unitsOf t.msg.body.length - t.left
  forEach (List.range n) (fun i st =>
    st.emit (.fxUnit t.msg.way t.slot (fit 128 ((t.msg.body.drop (32 + 128 * (from_ + i))).take 128)))) s

/-- A message is out: its end entry unless it was a single one, and the register of the context that formed its trailer (R325). -/
def endEntry (t : TxRt) (s : State) : State :=
  let m := t.msg
  let units := unitsOf m.body.length
  let s := if units = 0 then s
    else (s.emit (.fxEnd m.way m.cls t.slot m.trailer)).leaveReg true m.way m.cls m.trailer t.ctx
  State.emit (.fx m) (State.bump 0x50B0 0x01 1 (State.bump 0x50A0 0x0C 1 s))

/-- Start a message: it takes its counter, its transfer slot and its context. -/
def startMsg (t : TxRt) (s : State) : State × TxRt :=
  let slot := lowestFree (s.slotsHeld t.msg.way)
  let ctx := if t.left = 0 || t.msg.cls = 2 then none else s.contextOf true t.msg.way t.msg.typ t.msg.request
  let (s, m) := s.stamp t.msg
  let t := { t with msg := m, started := true, slot := if t.left = 0 then 0 else slot, ctx := ctx }
  (s.startEntry t, t)

/-- Send what the credits of one way and class allow, at most `k` messages. -/
def pumpClass : Nat → Nat → Nat → State → State
  | 0, _, _, s => s
  | k + 1, way, cls, s =>
    match s.firstGo [] (s.queueOf way cls) with
    | none => s
    | some t =>
      let h := if t.started then 0 else 1
      let u := min t.left (s.creditAt way cls).unit
      let s := State.spend way cls t.msg.step h u { s with fx := { s.fx with sendQ := s.fx.sendQ.erase t } }
      let (s, t) := if t.started then (s, t) else s.startMsg t
      let s := s.sendUnits t u
      pumpClass k way cls
        (if u = t.left then s.endEntry t
         else { s with fx := { s.fx with sendQ := { t with left := t.left - u } :: s.fx.sendQ } })

/-- The adapter has stated its grant on a way (R355). -/
def wayUp (s : State) (way : Nat) : Bool := s.fx.initDone.getD way false

/-- Send what credits allow: management, then responses, then requests, on each way (R309). -/
def pump (s : State) : State :=
  forEach [(0, 2), (0, 1), (0, 0), (1, 2), (1, 1), (1, 0)] (fun (x : Nat × Nat) st =>
    if st.wayUp x.1 then pumpClass st.fx.sendQ.length x.1 x.2 st else st) s

/-- The job tag this block's messages carry: the framed job's. -/
def jobTag (s : State) : Nat :=
  match s.planEff with
  | some p => p.jobTag
  | none => 0

/-- A node was sent a message in this heartbeat period (R209). -/
def markSent (dest : Nat) (s : State) : State :=
  if s.mem.sentTo.contains dest then s else { s with mem := { s.mem with sentTo := s.mem.sentTo ++ [dest] } }

/-- Form a message: one for this node is delivered inside the block (R300), any other waits for its credits; 0xFFFF is no node (R298). -/
def post (typ dest way job epoch step request : Nat) (body : Bytes) (s : State) : State :=
  if dest = 0xFFFF then s
  else if dest = s.node then
    let m : HeldMsg :=
      { typ := typ, way := way, job := job, epoch := epoch, step := step, source := dest, request := request, body := body,
        isLocal := true }
    State.bump 0x50A0 0x0E 1 { s with fx := { s.fx with localIn := s.fx.localIn ++ [m] } }
  else
    let cls := (msgClass typ).getD 2
    let m : TxMsg :=
      { way := way, job := job, epoch := epoch, step := step, source := s.node, destination := dest, cls := cls, typ := typ,
        flags := 0, alive := 0, incarnation := 0, request := request, body := body, auth := 0, trailer := 0 }
    let t : TxRt := { msg := m, started := false, left := unitsOf body.length, slot := 0, ctx := none }
    pump (State.markSent dest { s with fx := { s.fx with sendQ := s.fx.sendQ ++ [t] } })

/-- Send a management message: way 0 to an even node, way 1 to an odd one (R307). -/
def sendMgmt (typ dest : Nat) (body : Bytes) (s : State) : State :=
  s.post typ dest (dest % 2) s.jobTag s.mem.epoch s.fr.step 0 body

/-- Answer a request on the way it came on, with its request field (R302, R307). -/
def reply (m : HeldMsg) (typ : Nat) (body : Bytes) (s : State) : State :=
  s.post typ m.source m.way m.job s.mem.epoch s.fr.step m.request body

/-! ## Requests in flight (R318, R319) -/

/-- The request field. -/
def reqField (engine entry gen : Nat) : Nat := engine * 8192 + entry * 16 + gen

/-- The feature that a request of an engine serves (Table 11.7), numbered as in R31: 0 rebuild, 1 ply update, 2 combine, 3 carder, 4 drain,
5 mover, 6 offload, 7 management. A delta set that is sent again says so in its flags and belongs to ply update; the spindles' requests
tell their feature by their key: recomputed plies (R142), offload's cellar accesses. -/
def reqFeature (engine typ : Nat) (key : List Nat) (body : Bytes) : Nat :=
  match engine with
  | 0 => if typ = 0x10 then (if bit (fld 6 1 body) 1 then 1 else 3) else 0
  | 1 => if key.headD 0 = 1 then 1 else if key.headD 0 = 4 || key.headD 0 = 5 then 6 else 0
  | 2 => if typ = 0x14 then 0 else 2
  | 3 => 5
  | 4 => if typ = 0x03 then 0 else 4
  | _ => 7

/-- An OFFLOAD hank's tier policy allows the cellar (Table 5.10). -/
def farOffload (s : State) (p : Plan) : Bool :=
  p.descs.any (fun d => d.cls == 6 && (match s.policyOf d with
    | some q => bit q.tiers 2
    | none => false))

/-- Entries of an engine that a feature holds: a fixed partition of 512, in which the lowest-priority feature of the engine that is present
has what remains after the others' shares (R31, Tables 1.8, 4.10, 5.10, 6.8, 11.7). Tables 4.10 to 10.7 state no share for a rebuild
on the carder engine and the twist unit and for resends on the carder engine: 32 each (DESIGN CHOICE, log 84). -/
def reqShare (s : State) (engine feature : Nat) : Nat :=
  match s.planEff with
  | none => 512
  | some p =>
    match engine, feature with
    | 0, 0 => 32
    | 0, 1 => 32
    | 0, _ => 448
    | 1, 0 => 128
    | 1, 1 => if s.farOffload p then 128 else 384
    | 1, _ => if s.farOffload p then 256 else 0
    | 2, 0 => 64
    | 2, _ => 448
    | 4, 0 => if bit p.frame.flags 0 then 32 else 512
    | 4, _ => if bit p.frame.flags 0 then 480 else 0
    | _, _ => 512

/-- The lowest free entry of an engine for a request, within the share of its feature. -/
def freeEntry (s : State) (engine typ : Nat) (key : List Nat) (body : Bytes) : Option Nat :=
  let mine := s.fx.reqs.filter (fun r => r.engine == engine)
  let f := reqFeature engine typ key body
  if s.reqShare engine f ≤ (mine.filter (fun r => r.feature == f)).length then none
  else
    let used := mine.map (fun r => r.entry)
    (List.range 512).find? (fun e => !used.contains e)

/-- Types whose handlers take the header's step as that of their contents (R85, R134, R162): they carry it also when they go out later. -/
def stepOfContents (typ : Nat) : Bool := typ == 0x10 || typ == 0x12 || typ == 0x14 || typ == 0x19 || typ == 0x1B

/-- A ply read under the old layout of a re-code: it carries the epoch of that layout (R223). -/
def readsOld (w : ReqWait) : Bool := w.typ == 0x16 && w.key.headD 0 == 3 && 2 ≤ natAt w.key 3

/-- Send a request in a given entry, with the entry's next generation; one that takes the ways in turn takes its way now (R307). -/
def sendIn (entry : Nat) (w : ReqWait) (s : State) : State :=
  let gk := w.engine * 512 + entry
  let gen := natGet s.fx.gens gk % 16
  let way := if w.alt then s.fx.altWay else w.way
  let r : ReqRt :=
    { engine := w.engine, entry := entry, gen := gen, feature := reqFeature w.engine w.typ w.key w.body, dest := w.dest, typ := w.typ, way := way,
      alt := w.alt, step := w.step, body := w.body, key := w.key }
  let s := { s with fx := { s.fx with
    gens := natSet s.fx.gens gk (gen + 1), reqs := s.fx.reqs ++ [r], altWay := if w.alt then 1 - s.fx.altWay else s.fx.altWay } }
  s.post w.typ w.dest way s.jobTag (if readsOld w then w.epoch else s.mem.epoch)
    (if stepOfContents w.typ then w.step else s.fr.step) (reqField w.engine entry gen) w.body

/-- A request goes out, or waits for an entry of its feature's share. -/
def enqueue (w : ReqWait) (s : State) : State :=
  match s.freeEntry w.engine w.typ w.key w.body with
  | some e => s.sendIn e w
  | none => { s with fx := { s.fx with waitQ := s.fx.waitQ ++ [w] } }

/-- Send a request on a way. -/
def request (engine typ dest way : Nat) (body : Bytes) (key : List Nat) (s : State) : State :=
  s.enqueue { engine := engine, dest := dest, typ := typ, way := way, alt := false, again := false, epoch := s.mem.epoch, step := s.fr.step,
              body := body, key := key }

/-- Send a request on the ways in turn. -/
def requestAlt (engine typ dest : Nat) (body : Bytes) (key : List Nat) (s : State) : State :=
  s.enqueue { engine := engine, dest := dest, typ := typ, way := 0, alt := true, again := false, epoch := s.mem.epoch, step := s.fr.step,
              body := body, key := key }

/-- Free an entry; the oldest waiting request of the engine that its share admits takes one. -/
def freeReq (engine entry : Nat) (s : State) : State :=
  let s := { s with fx := { s.fx with reqs := s.fx.reqs.filter (fun r => !(r.engine == engine && r.entry == entry)) } }
  match s.fx.waitQ.find? (fun w => w.engine == engine && (s.freeEntry w.engine w.typ w.key w.body).isSome) with
  | none => s
  | some w => State.enqueue w { s with fx := { s.fx with waitQ := s.fx.waitQ.erase w } }

/-- The open request that a request field names. -/
def openReq (s : State) (field : Nat) : Option ReqRt :=
  s.fx.reqs.find? (fun r => reqField r.engine r.entry r.gen == field)

/-- The feature no longer needs the requests that a test selects: the waiting ones go, and the open ones keep their entry until the
response or the timeout, which then mean nothing to it (R318). -/
def dropReqs (p : Nat → Nat → List Nat → Bool) (s : State) : State :=
  { s with fx := { s.fx with
      reqs := mapIf (fun r => p r.engine r.typ r.key) (fun r => { r with key := [] }) s.fx.reqs
      waitQ := s.fx.waitQ.filter (fun w => !p w.engine w.typ w.key) } }

/-- Delta sets that are sent again or given up free their entries (R319). -/
def freeSets (p : List Nat → Bool) (s : State) : State :=
  let gone (e t : Nat) (k : List Nat) : Bool := e == 0 && t == 0x10 && p k
  { s with fx := { s.fx with
      reqs := s.fx.reqs.filter (fun r => !gone r.engine r.typ r.key)
      waitQ := s.fx.waitQ.filter (fun w => !gone w.engine w.typ w.key) } }

/-! ## Receiving (Table 11.6) -/

/-- The message an inbound header stands for. -/
def ofHdr (typ : Nat) (h : RxHdr) (body : Bytes) : TxMsg :=
  { way := h.way.toNat, job := h.job.toNat, epoch := h.epoch.toNat, step := h.step.toNat, source := h.source.toNat,
    destination := h.destination.toNat, cls := h.cls.toNat, typ := typ, flags := h.flags.toNat, alive := h.alive.toNat,
    incarnation := h.incarnation.toNat, request := h.request.toNat, body := body, auth := h.auth.toNat,
    trailer := h.trailer.toNat }

/-- The bytes of an inbound message that its trailer covers, reserved fields as they came (R325). -/
def rxBytes (typ : Nat) (h : RxHdr) (body : Bytes) : Bytes :=
  let b := headerBytes (ofHdr typ h body) h.auth.toNat
  patch 36 (toLE 12 h.rsvB.toNat) (patch 23 [h.rsvA] b) ++ body

/-- Order 2 of Table 11.6. -/
def malformed (s : State) (typ : Nat) (h : RxHdr) (body : Bytes) : Bool :=
  s.node == 0xFFFF || h.destination.toNat != s.node || some h.cls.toNat != msgClass typ || !bodyLenOk typ body || !bodyReservedOk typ body ||
    h.rsvA != 0 || h.rsvB != 0 || h.flags.toNat ≥ 2 || (h.flags != 0 && h.cls != 2) || (h.cls != 2 && h.auth != 0)

/-- The job lists of the plans in effect and pending name a job. -/
def knowsJob (s : State) (job : Nat) : Bool :=
  let has (p : Option Plan) : Bool := match p with
    | some p => p.jobs.any (fun j => j.tag == job)
    | none => false
  has s.planEff || has s.planPend

/-- The receive context of a source and class. -/
def recvOf (s : State) (node cls : Nat) : Option RxCtx := s.fx.recvCtx.find? (fun c => c.node == node && c.cls == cls)

/-- Put a receive context last in order of use. -/
def putRecv (c : RxCtx) (s : State) : State :=
  { s with fx := { s.fx with
      recvCtx := s.fx.recvCtx.filter (fun x => !(x.node == c.node && x.cls == c.cls)) ++ [c] } }

/-- The context after an accepted counter (R315, R317): none when the counter is repeated or stale. A context with no message yet
takes the first counter (log 14). -/
def windowStep (c : Option RxCtx) (node cls inc alive : Nat) (resync : Bool) : Option RxCtx :=
  let fresh : RxCtx := { node := node, cls := cls, incarnation := inc, last := alive, map := 0 }
  match c with
  | none => some fresh
  | some c =>
    if ahead 16 inc c.incarnation || resync then some fresh
    else if ahead 32 alive c.last then
      let d := (alive + 2 ^ 32 - c.last) % 2 ^ 32
      -- bit i - 1 stands for the counter i below last
      some { c with last := alive, map := (c.map * 2 + 1) * 2 ^ (d - 1) % 2 ^ 63 }
    else
      let b := (c.last + 2 ^ 32 - alive) % 2 ^ 32
      if 1 ≤ b && b ≤ 63 && !bit c.map (b - 1) then some { c with map := setBit c.map (b - 1) } else none

/-- Lomaz returns the credits of every message it takes in (R313), of the class in which it came; the ledger counts them for messages of the open step. -/
def takeCredits (h : RxHdr) (body : Bytes) (s : State) : State :=
  let u := unitsOf body.length
  let way := h.way.toNat
  let cls := h.cls.toNat % 4
  let s := if cls = 3 then s else s.emit (.crd way cls 1 u)
  if cls < 2 && s.fr.opened && h.step.toNat == s.fr.step then
    State.countReturned (2 + way) (1 + u) (s.countIssued (2 + way) (1 + u))
  else s

/-- Discard a message and count it. -/
def discard (idx subi : Nat) (s : State) : State × Option HeldMsg := (s.bump idx subi 1, none)

/-- Order 4 of Table 11.6: the auth field matches under no accepted key. -/
def authBad (s : State) (typ : Nat) (h : RxHdr) (body : Bytes) : Bool :=
  (msgClass typ == some 2) &&
    !(s.acceptKeys h.job.toNat).any (fun k => authOf k (ofHdr typ h body) == h.auth.toNat)

/-- A failed management authentication counts, and raises an event at the first in a frame (Table 11.10). -/
def authFailure (s : State) : State :=
  let s := s.bump 0x50A0 0x03 1
  if s.fx.authEvent then s else State.note 0x50A0 0x03 0 { s with fx := { s.fx with authEvent := true } }

/-- The trailer mismatches of the health period (Table 13.2). -/
def noteTrailer (s : State) : State :=
  let hl := s.house.health
  let w := match hl.window with
    | w :: ws => { w with trailers := w.trailers + 1 } :: ws
    | [] => []
  { s with house := { s.house with health := { hl with window := w } } }

/-- What every message does on arrival, accepted or not: its credits go back, it counts in 0x50B0.02, and its check value stands in the
context that it held (R313, R325). -/
def arrive (typ : Nat) (h : RxHdr) (body : Bytes) (s : State) : State :=
  let s := State.bump 0x50B0 0x02 1 (s.takeCredits h body)
  if unitsOf body.length = 0 then s
  else s.leaveReg false h.way.toNat ((msgClass typ).getD 2) (crc32c (rxBytes typ h body))
    (s.contextOf false h.way.toNat typ h.request.toNat)

/-- The first order of Table 11.6 that a message fails; 0 where it fails none. Before `lz_ready` nothing but power-on work goes on and a
message is discarded as order 2 discards (log 15). -/
def failedCheck (typ : Nat) (h : RxHdr) (body : Bytes) (s : State) : Nat :=
  let cls := (msgClass typ).getD 2
  let ctx := s.recvOf h.source.toNat cls
  let behind := match ctx with
    | some c => ahead 16 c.incarnation h.incarnation.toNat
    | none => false
  if !s.sys.ready then 2
  else if crc32c (rxBytes typ h body) != h.trailer.toNat then 1
  else if s.malformed typ h body then 2
  else if !s.knowsJob h.job.toNat && !(h.job == 0 && typ == 0x38) then 3
  else if s.authBad typ h body then 4
  else if behind then 5
  else if cls != 2 && !s.pins.contains (h.source.toNat, cls) then 6
  else if (windowStep ctx h.source.toNat cls h.incarnation.toNat h.alive.toNat (cls == 2 && bit h.flags.toNat 0)).isNone then 7
  else if cls == 1 && (s.openReq h.request.toNat).isNone then 8
  else 0

/-- The message that a header and body carry. -/
def heldOf (typ : Nat) (h : RxHdr) (body : Bytes) : HeldMsg :=
  { typ := typ, way := h.way.toNat, job := h.job.toNat, epoch := h.epoch.toNat, step := h.step.toNat,
    source := h.source.toNat, request := h.request.toNat, body := body, isLocal := false }

/-- A message that passes every check: its context takes its counter (R315, R316), and it counts. -/
def takeIn (typ : Nat) (h : RxHdr) (s : State) : State :=
  let src := h.source.toNat
  let cls := (msgClass typ).getD 2
  let ctx := s.recvOf src cls
  let resync := cls == 2 && bit h.flags.toNat 0
  match windowStep ctx src cls h.incarnation.toNat h.alive.toNat resync with
  | none => s
  | some c =>
    let s := if cls == 2 && ctx.isNone then s.evictFor src else s
    let s := if cls == 2 then s.touchCtx src else s
    let s := s.putRecv c
    let s := if resync then s.bump 0x50A0 0x10 1 else s
    s.bump 0x50A0 0x0D 1

/-- The checks of Table 11.6: the message when it is accepted; else the counter of the first order that it fails. -/
def receive (typ : Nat) (h : RxHdr) (body : Bytes) (s : State) : State × Option HeldMsg :=
  let s := s.arrive typ h body
  match s.failedCheck typ h body with
  | 0 => (s.takeIn typ h, some (heldOf typ h body))
  | 1 => discard 0x50A0 0x01 s.noteTrailer
  | 2 => discard 0x50A0 0x02 s
  | 3 => discard 0x5060 0x03 s
  | 4 => (s.authFailure, none)
  | 5 => discard 0x50A0 0x04 s
  | 6 => discard 0x50A0 0x05 s
  | 7 => discard 0x50A0 0x06 s
  | _ => discard 0x50A0 0x07 s

end State

end Sys2Proof.Machine
end

