-- ==== Sys2Proof/Machine/Journal.lean ====
section
/-! DEFINITION. The journal (R387 to R392) and the counts of the health period (R380, R381): appending records, batches of events,
compaction, unit faults, memory read items. -/

namespace Sys2Proof.Machine

namespace State

/-! ## Layout of the window (Table 13.5) -/

/-- Bytes of the journal window (Table 12.17). -/
def npBytes (s : State) : Nat := (s.sys.npSize + 1) * 8 * 2 ^ 20

/-- Where the stream region begins. -/
def streamBase : Nat := 2 ^ 20 + 4096

/-- Bytes of the stream region. -/
def streamBytes (s : State) : Nat := s.npBytes - streamBase

/-- Change the journal's state. -/
def setJournal (j : JournalSt) (s : State) : State := { s with house := { s.house with journal := j } }

/-! ## Requests -/

/-- A request that is issued only once every one before it is answered, and lets none after it out before its own answer: the header line of
a record (R388), a superblock (R391). -/
def npAlone (r : NpReq) : Bool := r.what == 1 || r.what == 2 || r.what == 5

/-- The request that may be issued next: at most 8 stand open (R366). -/
def npNext (j : JournalSt) : Option NpReq :=
  match j.queue[j.opened]? with
  | none => none
  | some r => if j.opened < 8 && (j.opened == 0 || !(npAlone r || (j.queue.take j.opened).any npAlone)) then some r else none

/-- Put a request on the port (Table 12.17): a write enables every byte of its line. -/
def npIssue (r : NpReq) (s : State) : State :=
  s.emit (.np r.write r.line (if r.write then r.data else []) (if r.write then 2 ^ 64 - 1 else 0))

/-- Issue what may be issued, at most `k` requests. -/
def npPump : Nat → State → State
  | 0, s => s
  | k + 1, s =>
    let j := s.house.journal
    match npNext j with
    | none => s
    | some r => npPump k (npIssue r (s.setJournal { j with opened := j.opened + 1 }))

/-- Put requests at the end of the queue. -/
def npPush (rs : List NpReq) (s : State) : State :=
  let j := s.house.journal
  npPump 8 (s.setJournal { j with queue := j.queue ++ rs })

/-- Read lines of the window, answered within the command; an answer with an error counts in 0x50C0.07 and is raised as an event (R366). -/
def npAsk (lines : List Nat) (s : State) : State :=
  forEach lines (fun l st =>
    let st := st.emit (.np false l [] 0)
    if st.ans.npBad.contains l then st.countNote 0x50C0 0x07 st.fr.step else st) s

/-- The requests that stay when a failure or a format empties the queue: those that are open, and firmware lines; an open header or
superblock completes nothing any more. -/
def npKept (j : JournalSt) : List NpReq :=
  (j.queue.take j.opened).map (fun r => if npAlone r then { r with what := 0, recType := 0 } else r) ++
    (j.queue.drop j.opened).filter (fun r => r.what == 3 || r.what == 4)

/-- A write request for a line of the window. -/
def npWrite (line : Nat) (data : Bytes) (what recType mark : Nat) : NpReq :=
  { write := true, line := line, data := data, what := what, recType := recType, mark := mark, again := false }

/-- A journal record's bytes, padded to whole lines (R388). -/
def recordBytes (typ seq time : Nat) (body : Bytes) : Bytes :=
  let head := toLE 2 typ ++ zeros 2 ++ toLE 4 body.length ++ toLE 8 seq ++ toLE 8 time ++ body
  let whole := head ++ toLE 4 (crc32c head)
  fit (ceilDiv whole.length 64 * 64) whole

/-- The requests that write a record at an offset of the stream region: the body lines before the header line (R388). -/
def recordReqs (off : Nat) (bytes : Bytes) (recType mark : Nat) : List NpReq :=
  let base := (streamBase + off) / 64
  let lines := pieces 64 bytes
  (lines.zipIdx.drop 1).map (fun l => npWrite (base + l.2) l.1 0 0 0) ++
    (lines.take 1).map (fun l => npWrite base l 1 recType mark)

/-- Append one record that fits before the end of the region. -/
def appendHere (typ : Nat) (body : Bytes) (mark : Nat) (s : State) : State :=
  let j := s.house.journal
  let bytes := recordBytes typ (j.seq + 1) s.now body
  let s := s.setJournal { j with
    tail := (j.tail + bytes.length) % s.streamBytes, used := j.used + bytes.length, seq := j.seq + 1 }
  s.npPush (recordReqs j.tail bytes typ mark)

/-- Append a record, with a pad record first where it would pass the end of the region (R388). While the journal is degraded the
state stays in the block's memories, but for a compaction that is tried (R392). A compaction that falls due follows at the end of the
command (R391). -/
def append (typ : Nat) (body : Bytes) (mark : Nat) (s : State) : State :=
  let j := s.house.journal
  if j.state = 1 && j.snapAt.isNone then s
  else
    let size := ceilDiv (28 + body.length) 64 * 64
    let left := s.streamBytes - j.tail
    let s := if left < size then s.appendHere 1 (zeros (left - 28)) 0 else s
    s.appendHere typ body mark

/-! ## Bodies of the state records (Table 13.6) -/

/-- The calibration record in effect (R379). -/
def calibration (s : State) : Bytes :=
  match s.house.health.calibration with
  | some b => b
  | none => (List.range 384).map Config.factoryCalibrationByte

/-- The retired-row list in effect. -/
def retiredRows (s : State) : Bytes := s.scrub.retired.flatMap (fun r => toLE 2 r.1 ++ toLE 2 r.2)

/-- Record 0x0020. -/
def incarnationBody (s : State) : Bytes := toLE 2 s.fx.incarnation ++ zeros 6

/-- Record 0x0021. -/
def firmwareBody (s : State) (slot prev trial : Nat) : Bytes :=
  toLE 1 slot ++ toLE 1 prev ++ toLE 1 trial ++ [0] ++ toLE 4 s.house.fw.minimum

/-- Record 0x0022. -/
def runningBody (s : State) : Bytes := toLE 4 s.house.fw.runningVersion ++ toLE 1 s.house.fw.inEffect ++ zeros 3

/-- Record 0x0025: the heads of positions 0 to 15. -/
def headsBody (s : State) : Bytes :=
  (List.range 16).flatMap (fun p =>
    match s.led.heads.find? (fun h => h.1 == p) with
    | some h => toLE 8 h.2.1 ++ toLE 8 h.2.2
    | none => zeros 16)

/-- Record 0x0026. -/
def drainBody (s : State) : Bytes :=
  toLE 8 s.loss.drains ++ toLE 8 s.loss.drainImageStep ++ toLE 1 ((s.loss.drains + 1) % 2) ++ zeros 7

/-- Record 0x0027. -/
def retirementsBody (s : State) : Bytes :=
  let h := s.house.health
  toLE 4 (h.retiredSpindles.foldl setBit 0) ++ toLE 96 (h.retiredLanes.foldl setBit 0)

/-- An event entry (Table 13.3). -/
def eventBytes (e : Event) : Bytes :=
  toLE 8 e.seq ++ toLE 8 e.time ++ toLE 2 e.kind ++ toLE 1 e.line ++ toLE 1 (e.acked.toNat + 2 * e.journaled.toNat) ++
    toLE 4 e.entry ++ toLE 8 e.detail

/-- The entries in batches of 128. -/
def batches : Nat → List Event → List (List Event)
  | 0, _ => []
  | k + 1, es => if es.isEmpty then [] else es.take 128 :: batches k (es.drop 128)

/-- Append event batches (R390). -/
def appendEvents (es : List Event) (s : State) : State :=
  forEach (batches es.length es) (fun b st =>
    st.append 0x30 (b.flatMap eventBytes) (maxL (b.map (fun e => e.seq)))) s

/-- Compaction (R391): the snapshot at the tail. -/
def snapshot (s : State) : State :=
  let j := s.house.journal
  let n := j.snapshot + 1
  let s := s.setJournal { j with snapshot := n, snapAt := some (j.tail, j.seq + 1) }
  let s := s.append 0x10 (toLE 8 n) 0
  let fw := s.house.fw
  let s := (((s.append 0x20 s.incarnationBody 0).append 0x21
    (s.firmwareBody fw.inEffect (1 - fw.inEffect) (if fw.trial.isSome then 1 else 0)) 0).append 0x22 s.runningBody
      (if s.sys.hk == .running then 0 else 1))
  let s := ((s.append 0x23 s.retiredRows 0).append 0x24 s.calibration 0).append 0x25 s.headsBody 0
  let s := (s.append 0x26 s.drainBody 0).append 0x27 s.retirementsBody 0
  let es := s.house.events
  let s := s.appendEvents (es.drop (es.length - 16384))
  s.append 0x11 (toLE 8 n) 0

/-- Compact when the bytes from head to tail reach 75% of the region (R391). -/
def compactIfDue (s : State) : State :=
  let j := s.house.journal
  if j.state != 1 && j.snapAt.isNone && s.sys.filled && s.sys.hk != .recovery && 4 * j.used ≥ 3 * s.streamBytes then s.snapshot
  else s

/-- Append a state record whose contents changed (R390). -/
def journalState (typ : Nat) (body : Bytes) (s : State) : State := s.append typ body 0

/-- The entries that no batch holds yet. -/
def unjournaled (s : State) : List Event :=
  let queued := maxL ((s.house.journal.queue.filter (fun r => r.recType == 0x30)).map (fun r => r.mark))
  s.house.events.filter (fun e => !e.journaled && queued < e.seq)

/-- Append a batch of every entry not yet journaled (R390). -/
def journalEvents (s : State) : State :=
  if s.house.journal.state = 1 then s else s.appendEvents s.unjournaled

/-- A batch goes as soon as 128 entries have accumulated (R390). -/
def journalIfFull (s : State) : State :=
  if s.sys.hk == .running && 128 ≤ s.unjournaled.length then s.journalEvents else s

/-! ## Counts of the health period (R380) -/

/-- Change the count of the period under way. -/
def countPeriod (f : HealthWin → HealthWin) (s : State) : State :=
  let h := s.house.health
  let w := match h.window with
    | w :: ws => f w :: ws
    | [] => []
  { s with house := { s.house with health := { h with window := w } } }

/-- A read item that came back uncorrectable or poisoned. -/
def countBad (n : Nat) (s : State) : State :=
  if n = 0 then s else s.countPeriod (fun w => { w with uncorrectable := w.uncorrectable + n })

/-- A read item that came back corrected. -/
def countCorrected (n : Nat) (s : State) : State :=
  if n = 0 then s else s.countPeriod (fun w => { w with corrected := w.corrected + n })

/-- The reads that ask for some blocks: runs of blocks that follow one another in one stripe, as (first block, beats). -/
def blockRuns (blocks : List Nat) : List (Nat × Nat) :=
  blocks.foldl (fun acc b => match acc.getLast? with
    | some (f, n) => if b = f + n && b / 32 = f / 32 then acc.dropLast ++ [(f, n + 1)] else acc ++ [(b, 1)]
    | none => [(b, 1)]) []

/-- A block whose write is open or waits: it is not asked for, and a read takes what is written (R348). -/
def blockWritten (s : State) (b : Nat) : Bool :=
  let ch := b * 128 / Config.channelSpan
  let off := b * 128 % Config.channelSpan
  s.memHit ch off 1 true || s.laterHit (.mw ch 0 false 0 off 1 [] 0)

/-- A line of the pantry whose write is open or waits (R352). -/
def lineWritten (s : State) (l : Nat) : Bool := s.lineHit l true || s.laterHit (.pw 0 false 0 l [] 0)

/-- Read some 128-byte blocks and take the controllers' answers (R347, R349): corrected items count in 0x50C0.03, the others in
0x50C0.02, and their blocks stand as uncorrectable until they are written. -/
def takeMem (mem : MemAns) (blocks : List Nat) (s : State) : State :=
  let blocks := blocks.filter (fun b => !s.blockWritten b)
  let s := forEach (blockRuns blocks) (fun r st => st.askBlocks r.1 r.2) s
  let c := (blocks.filter (fun b => mem.corrected.contains b)).length
  let bad := blocks.filter (fun b => mem.bad.contains b)
  let s := if c = 0 then s else (s.bump 0x50C0 0x03 c).countCorrected c
  if bad.isEmpty then s
  else
    let s := (s.bump 0x50C0 0x02 bad.length).countBad bad.length
    { s with scrub := { s.scrub with badBlocks := nub (s.scrub.badBlocks ++ bad) } }

/-- Read some lines of the pantry and take the answers (R352): a poisoned or failed line counts in 0x5090.0A and in 0x50C0.02, and
stands as poisoned until it is written. -/
def takeLines (mem : MemAns) (lines : List Nat) (s : State) : State :=
  let lines := lines.filter (fun l => !s.lineWritten l)
  let s := forEach lines (fun l st => st.askLine l) s
  let bad := lines.filter (fun l => mem.poisoned.contains l)
  if bad.isEmpty then s
  else
    let s := ((s.bump 0x5090 0x0A bad.length).bump 0x50C0 0x02 bad.length).countBad bad.length
    { s with scrub := { s.scrub with badLines := nub (s.scrub.badLines ++ bad) } }

/-- The blocks of the writes of this command that their controller did not perform, also when they were issued once more (R349): the
requests still open are answered by commands of their own. -/
def lostOf (s : State) : Out → Option (Nat × List Nat × Out)
  | .mw ch way true tag addr beats data be =>
    let key := hearthKey ch addr
    let hit := ((List.range beats).map (fun i => key / 128 + i)).filter (fun b => s.ans.lost.contains b)
    if hit.isEmpty || s.scrub.memOpen.any (fun m => m.ch == ch && m.way == way && m.tag == tag) then none
    else some (key, hit, .mw ch way true tag addr beats data be)
  | _ => none

/-- A write that was not performed is issued once more; it fails again, so its blocks stand as uncorrectable for their next read, with
an event naming the address. -/
def loseWrites (s : State) : State :=
  if s.ans.lost.isEmpty then s
  else
    forEach (s.out.filterMap s.lostOf) (fun x st =>
      let st := State.emit x.2.2 { st with scrub := { st.scrub with badBlocks := nub (st.scrub.badBlocks ++ x.2.1) } }
      st.note 0x50C0 0x02 x.1) s

/-! ## Unit faults (R381, R188) -/

/-- Stage a value the housekeeper writes itself; one that takes the place of a value not yet applied counts as on any path (R409). -/
def stageSelf (idx subi v : Nat) (s : State) : State :=
  let k := addrOf idx subi
  let s := if (s.stagedAt idx subi).isSome then s.bump 0x5000 0x09 1 else s
  { s with staged := s.staged.filter (fun c => decide (c.1 < k)) ++ [(k, .num v)] ++
      s.staged.filter (fun c => decide (k < c.1)) }

/-- The mask that will stand at the next threshold. -/
def maskNext (s : State) (idx subi : Nat) : Nat :=
  match s.stagedAt idx subi with
  | some (.num n) => n
  | _ => s.reg idx subi

/-- Faults of a unit in the window. -/
def windowCount (s : State) (f : HealthWin → List Nat) (u : Nat) : Nat :=
  sumL (s.house.health.window.map (fun w => ((f w).filter (fun x => x == u)).length))

/-- Retire a spindle for fault: its mask bit clears at the next threshold, and the retirement is journaled. -/
def retireSpindle (u : Nat) (s : State) : State :=
  let h := s.house.health
  let m := clearBit (s.maskNext 0x3020 0x01) u
  if h.retiredSpindles.contains u || m / 4 ^ (u / 2) % 4 = 0 then s
  else
    let s := { s with house := { s.house with health := { h with retiredSpindles := h.retiredSpindles ++ [u] } } }
    (s.stageSelf 0x3020 0x01 m).journalState 0x27 s.retirementsBody

/-- Retire a lane for fault. -/
def retireLane (ch lane : Nat) (s : State) : State :=
  let h := s.house.health
  let u := ch * 64 + lane
  let m := clearBit (s.maskNext 0x3010 (ch + 1)) lane
  if h.retiredLanes.contains u || m = 0 then s
  else
    let s := { s with house := { s.house with health := { h with retiredLanes := h.retiredLanes ++ [u] } } }
    (s.stageSelf 0x3010 (ch + 1) m).journalState 0x27 s.retirementsBody

/-- A unit is compared: an enabled lane, and a spindle while both of its channel are enabled (R381). -/
def unitRuns (s : State) (f : UnitFault) : Bool :=
  match f with
  | .lane ch l => bit (s.reg 0x3010 (ch.toNat + 1)) l.toNat
  | .spindle n => s.reg 0x3020 0x01 / 4 ^ (n.toNat / 2) % 4 == 3

/-- A fault of a lane or spindle: it counts in the window, and at the limit the unit is retired (R381). -/
def unitFault (f : UnitFault) (s : State) : State :=
  if !s.unitRuns f then s else
  let s := s.bump 0x50D0 0x0E 1
  match f with
  | .lane ch l =>
    let u := ch.toNat * 64 + l.toNat
    let s := s.countPeriod (fun w => { w with laneFaults := w.laneFaults ++ [u] })
    if s.reg 0x3082 0x01 ≤ s.windowCount (fun w => w.laneFaults) u then s.retireLane ch.toNat l.toNat else s
  | .spindle n =>
    let s := s.countPeriod (fun w => { w with spindleFaults := w.spindleFaults ++ [n.toNat] })
    if s.reg 0x3082 0x01 ≤ s.windowCount (fun w => w.spindleFaults) n.toNat then s.retireSpindle n.toNat else s

end State

end Sys2Proof.Machine
end

