-- ==== Sys2Proof/Machine/Landing.lean ====
section
/-! DEFINITION. Landing (chapter 3): presence, freeze, exclusion, early close, confirmation and revision, close, the self-slot
mirror, re-requests. -/

namespace Sys2Proof.Machine

namespace State

/-- The bucket map of the plan in effect. -/
def bucketMap (s : State) : Option BucketMap :=
  match s.planEff with
  | some p => p.bucket
  | none => none

/-- The sites of the plan in effect. -/
def sites (s : State) : List Site :=
  match s.bucketMap with
  | some b => b.sites
  | none => []

/-- A site of the plan in effect. -/
def site? (s : State) (id : Nat) : Option Site := s.sites.find? (fun x => x.id == id)

/-- The epoch of the plan in effect; 0 without a skein section. -/
def planEpoch (s : State) : Nat :=
  match s.planEff with
  | some p => p.epoch?.getD 0
  | none => 0

/-- The exclusion notice of an epoch. -/
def noticeOf (s : State) (epoch : Nat) : Option Notice := s.land.notices.find? (fun n => n.epoch == epoch)

/-- The notices in force (R66). -/
def noticesInForce (s : State) : List Notice :=
  if !s.fr.rcSeen then s.land.notices
  else if s.fr.eN = s.planEpoch then []
  else s.land.notices.filter (fun n => n.epoch == s.fr.eN)

/-- The bank of the open step. -/
def bank (s : State) : Nat := s.fr.step % 2

/-- The header of slot `i` of a site in the bank of the open step. -/
def slotHdr (s : State) (x : Site) (i : Nat) : SlotHdr := readHdr (s.header x.slotHank (s.bank * 64 + i))

/-- The slot's header was lost to an uncorrectable internal error (Table 15.3). -/
def hdrLost (s : State) (x : Site) (i : Nat) : Bool :=
  s.lostBytes x.slotHank (s.bank * 64 + i) != 0

/-- The contributor of a slot. -/
def contrib (x : Site) (i : Nat) : Contrib := x.contribs.getD i { node := 0xFFFF, source := 0, sourceSite := 0 }

/-- A leaf slot. -/
def isLeaf (x : Site) (i : Nat) : Bool := (contrib x i).source == 0

/-- A slot of the open step's bank is present (R66). -/
def slotPresent (s : State) (x : Site) (i : Nat) : Bool :=
  let h := s.slotHdr x i
  let c := contrib x i
  let nodeOk := h.node == c.node || (c.source != 0 && h.node != 0xFFFF && s.noticesInForce.any (fun n => n.entries.contains (c.node, h.node)))
  bit h.flags 0 && h.job == s.jobTag && h.step == s.fr.step && h.site == x.id && h.slot == i && nodeOk && !s.hdrLost x i

/-- An output slot is final: present with stamp E_N (R73). -/
def slotFinal (s : State) (x : Site) (i : Nat) : Bool :=
  s.fr.rcSeen && s.slotPresent x i && (s.slotHdr x i).stamp == s.fr.eN

/-- The leaf slot was present at roll-call (R68). -/
def slotFrozen (s : State) (x : Site) (i : Nat) : Bool := s.land.frozen.contains (x.id, i)

/-- The slot's node is in the exclusion set. -/
def slotExcluded (s : State) (x : Site) (i : Nat) : Bool :=
  match s.land.exclusion with
  | some ex => isLeaf x i && ex.any (fun e => e.1 == (contrib x i).node)
  | none => false

/-- The bytes of a slot payload that the combine reads. -/
def slotBytes (s : State) (x : Site) (i : Nat) : Bytes :=
  let h := s.slotHdr x i
  let n := if x.kind ≠ 0 && h.count > x.capacity then Site.indexBytes x.capacity else x.usedBytes h.count
  s.spanRead (s.regionBase x.slotHank) (x.slotOff s.bank i) n

/-- Read a span of a region on the memory ways, and take the answers (R347, R349). -/
def askSpan (base off len : Nat) (s : State) : State := s.takeMem s.ans (s.spanBlocks base off len)

/-- A slot's payload is read by a combine: it counts as present, and no exclusion keeps its bytes unread (R69). -/
def slotRead (s : State) (x : Site) (i : Nat) : Bool :=
  (if isLeaf x i && s.fr.rcSeen then s.slotFrozen x i else s.slotPresent x i) && !s.slotExcluded x i && !s.hdrLost x i

/-- Read the payloads of a site's slots. -/
def askSlots (x : Site) (s : State) : State :=
  forEach ((List.range x.slots).filter (fun i => s.slotRead x i)) (fun i st =>
    st.askSpan (st.regionBase x.slotHank) (x.slotOff st.bank i) (st.slotBytes x i).length) s

/-- The resolution of a slot (Table 3.8): 0 arrived, 1 excluded, 2 missing, also one whose header was lost (Table 15.3), 3 dropped > 0, 4
malformed. -/
def slotBin (s : State) (x : Site) (i : Nat) : Nat :=
  let leaf := isLeaf x i
  let present := if leaf && s.fr.rcSeen then s.slotFrozen x i else s.slotPresent x i
  if s.slotExcluded x i then 1
  else if !present || s.hdrLost x i then 2
  else
    let h := s.slotHdr x i
    let index := if x.kind = 0 || h.count > x.capacity then [] else (words (s.slotBytes x i)).take h.count
    let bad := s.spanBad (s.regionBase x.slotHank) (x.slotOff s.bank i) (x.usedBytes (min h.count x.capacity))
    if bad || malformedSlot x leaf h index then 4
    else if h.dropped > 0 then 3
    else 0

/-- The input of a slot for a resolution: none where it is not usable. -/
def slotIn (s : State) (x : Site) (i bin : Nat) : Option SlotIn :=
  if bin = 0 || bin = 3 then some (slotInput x (s.slotHdr x i) (s.slotBytes x i)) else none

/-- The bytes of the slot input digest (Table 8.1). -/
def usedPayload (x : Site) (h : SlotHdr) (bytes : Bytes) : Bytes :=
  if h.weight = 0 && h.count = 0 then []
  else if x.kind = 0 then bytes.take (x.extent * x.elemBytes)
  else
    let rb := Site.recBytes x.cols x.elemBytes
    bytes.take (4 * h.count) ++ (List.range h.count).flatMap (fun r =>
      sub (Site.indexBytes x.capacity + r * rb) (x.cols * x.elemBytes) bytes)

/-- What a close of a site found (R82, Table 8.6), less its output. -/
def siteRes (s : State) (x : Site) (bins : List Nat) (dropped weight outDigest : Nat) : SiteRes :=
  let overflow := sumL (bins.zipIdx.map (fun (b, i) =>
    let h := s.slotHdr x i
    if b = 3 then h.dropped else if b = 4 then (if x.kind = 0 then x.extent else h.count) else 0))
  { site := x.id, arrived := (bins.filter (fun b => b == 0)).length,
    excluded := (bins.filter (fun b => b == 1)).length, missing := (bins.filter (fun b => b == 2)).length,
    overflowed := (bins.filter (fun b => b ≥ 3)).length, overflowElems := overflow + dropped, weight := weight,
    inputDigest := bins.zipIdx.foldl (fun a (b, i) =>
      if b = 0 || b = 3 then
        add64 a (slotDigest x.id i (usedPayload x (s.slotHdr x i) (s.slotBytes x i)))
      else a) 0,
    outputDigest := outDigest,
    skipped := (bins.zipIdx.filter (fun (b, _) => b = 1 || b = 2 || b = 4)).map (fun (b, i) => (i, b)) }

/-- Keep a site's result. -/
def putResult (r : SiteRes) (s : State) : State :=
  { s with land := { s.land with results := s.land.results.filter (fun x => x.site != r.site) ++ [r] } }

/-- A site's closing settles: its slots are counted in their bins, once (R82, Table 3.13). -/
def settle (x : Site) (s : State) : State :=
  if bit s.land.closed x.id then s
  else
    let s := { s with land := { s.land with closed := setBit s.land.closed x.id } }
    match s.land.results.find? (fun r => r.site == x.id) with
    | none => s
    | some r =>
      let s := ((s.bump 0x5020 0x01 r.arrived).bump 0x5020 0x02 r.excluded).bump 0x5020 0x03 r.missing
      let s := (s.bump 0x5020 0x04 r.overflowed).bump 0x5020 0x06 r.overflowElems
      let s := forEach (r.skipped.filter (fun k => k.2 == 2)) (fun k st => st.note 0x5020 0x03 (x.id * 256 + k.1)) s
      forEach (r.skipped.filter (fun k => k.2 == 4)) (fun k st => st.countNote 0x5020 0x05 (x.id * 256 + k.1)) s

/-- The greatest C′ whose payload fits the bytes of an outbox entry (log 22). -/
def capOfBytes (cols bytes : Nat) : Nat :=
  let rb := Site.recBytes cols 4
  let top := bytes / (rb + 4) + 1
  ((List.range (top + 1)).reverse.find? (fun c => Site.indexBytes c + c * rb ≤ bytes)).getD 0

/-- The outbox entry of a remote-bound site, with its index. -/
def outboxOf (s : State) (x : Site) : Option (Outbox × Nat) :=
  match s.bucketMap with
  | some b => b.outbox.zipIdx.find? (fun (o, _) => o.kind == 1 && o.localSite == x.id)
  | none => none

/-- The header of a site's output. -/
def outHeader (s : State) (o : SiteOut) (stamp site slot flags : Nat) : Bytes :=
  hdrBytes { job := s.jobTag, stamp := stamp, step := s.fr.step, count := o.count, dropped := o.dropped, node := s.node,
             site := site, slot := slot, weight := o.weight, flags := flags }

/-- Combine a remote-bound site and write its output to its outbox entry, payload first (R71, R74). -/
def closeRemote (x : Site) (stamp flags : Nat) (s : State) : State :=
  match s.outboxOf x, s.bucketMap with
  | some (e, i), some b =>
    let s := s.askSlots x
    let bins := (List.range x.slots).map (fun j => s.slotBin x j)
    let ins := bins.zipIdx.map (fun (bn, j) => s.slotIn x j bn)
    let o := outputOf x (capOfBytes x.cols e.bytes) ins
    let s1 := s.spanWrite (s.regionBase b.outboxHank) (e.offset * 4096) o.payload
    let s2 := s1.putHeader b.outboxHank i (s.outHeader o stamp e.destSite e.destSlot flags)
    let s3 := s2.putResult (s.siteRes x bins o.dropped o.weight (siteDigest x.id o.payload))
    { s3 with land := { s3.land with stamps := s3.land.stamps.filter (fun t => t.1 != x.id) ++ [(x.id, stamp)] } }
  | _, _ => s

/-- A confirmation: the header again, stamped E_N with bit 1 set, the payload unchanged (R74). -/
def confirmRemote (x : Site) (s : State) : State :=
  match s.outboxOf x, s.bucketMap with
  | some (e, i), some b =>
    let h := readHdr (s.header b.outboxHank i)
    let s1 := s.putHeader b.outboxHank i
      (hdrBytes { h with stamp := s.fr.eN, site := e.destSite, slot := e.destSlot, flags := 3 })
    { s1 with land := { s1.land with stamps := s1.land.stamps.filter (fun t => t.1 != x.id) ++ [(x.id, s.fr.eN)] } }
  | _, _ => s

/-- Count and announce a confirmation or revision (R74). -/
def announce (x : Site) (s : State) : State :=
  State.changed 0x2220 0x03 (setBit s.land.revised x.id)
    (State.bump 0x5020 0x0B 1 { s with land := { s.land with revised := setBit s.land.revised x.id } })

/-- A site's leaf slots can be resolved: after roll-call, and the exclusion set is known if it has any (R69). -/
def leavesResolved (s : State) (x : Site) : Bool :=
  s.fr.rcSeen && (s.land.exclusion.isSome || (List.range x.slots).all (fun i => !isLeaf x i))

/-- Every output slot of a site is final. -/
def outputsFinal (s : State) (x : Site) : Bool :=
  (List.range x.slots).all (fun i => isLeaf x i || s.slotFinal x i)

/-- The outbox header of a site's output was lost (Table 15.3): there is none to confirm. -/
def outLost (s : State) (x : Site) : Bool :=
  match s.outboxOf x, s.bucketMap with
  | some (_, i), some b => s.lostBytes b.outboxHank i != 0
  | _, _ => false

/-- Roll-call work of one remote-bound site (R74). -/
def reviseSite (x : Site) (s : State) : State :=
  if !x.remote || bit s.land.closed x.id || !s.fr.rcSeen || s.fenced then s
  else
    let stamp := (s.land.stamps.find? (fun t => t.1 == x.id)).map (fun t => t.2)
    if stamp = some s.fr.eN then s.settle x
    else if !s.leavesResolved x || !s.outputsFinal x then s
    else
      let noExcluded := (List.range x.slots).all (fun i => !s.slotExcluded x i)
      let allConfirm := (List.range x.slots).all (fun i => isLeaf x i || bit (s.slotHdr x i).flags 1)
      if stamp.isSome && noExcluded && allConfirm && !s.outLost x then (s.confirmRemote x).announce x |>.settle x
      else ((s.closeRemote x s.fr.eN 5).announce x).settle x

/-- Levels of a chain: stages 1 to 4. -/
def chainFuel : Nat := 5

/-- A late slot is one that a missing notice, a revision or a loss delayed (R88; log 192): a leaf resolved with a roll-call that was in time, an
output whose late header is a confirmation, a revision or an heir's, an output of a site below whose own delay is so excused. -/
def delayExcused (s : State) : Nat → Site → Bool
  | 0, _ => false
  | k + 1, x =>
    !s.land.rcLate && (List.range x.slots).all (fun i =>
      let c := contrib x i
      if c.source = 2 then
        match s.site? c.sourceSite with
        | some y => s.delayExcused k y
        | none => true
      else
        c.source == 0 || !s.land.lateHdrs.contains (x.slotHank * 128 + s.bank * 64 + i) || (s.slotHdr x i).node != c.node)

/-- Count saturation of a stage level, once a frame (R88). -/
def saturate (x : Site) (s : State) : State :=
  if s.pastRc && !s.land.late.contains x.stage && !s.delayExcused chainFuel x then
    State.bump 0x5021 x.stage 1 { s with land := { s.land with late := s.land.late ++ [x.stage] } }
  else s

/-- The last slot of a site is resolved: the moment that R88 looks at. -/
def resolveSite (x : Site) (s : State) : State :=
  if bit s.land.resolved x.id || s.fenced || !s.leavesResolved x || !s.outputsFinal x then s
  else State.saturate x { s with land := { s.land with resolved := setBit s.land.resolved x.id } }

/-- Close a local-chain or final site (R75). -/
def closeLocal (x : Site) (s : State) : State :=
  let s := s.askSlots x
  let bins := (List.range x.slots).map (fun j => s.slotBin x j)
  let ins := bins.zipIdx.map (fun (bn, j) => s.slotIn x j bn)
  if x.final then
    let bytes := valBytes (gradientOf x ins)
    let w := sumL (ins.map (fun i => match i with
      | some v => v.weight
      | none => 0))
    (s.spanWrite (s.regionBase x.slotHank) x.gradOff bytes).putResult (s.siteRes x bins 0 w (siteDigest x.id bytes))
  else
    match s.site? x.nextSite with
    | none => s
    | some y =>
      let o := outputOf x y.capacity ins
      let s1 := s.spanWrite (s.regionBase y.slotHank) (y.slotOff s.bank x.nextSlot) o.payload
      let s2 := s1.putHeader y.slotHank (s.bank * 64 + x.nextSlot) (s.outHeader o s.fr.eN y.id x.nextSlot 1)
      s2.putResult (s.siteRes x bins o.dropped o.weight (siteDigest x.id o.payload))

/-- A site takes its turn to close after roll-call (R74, R75). -/
def siteTurn (x : Site) (s : State) : State :=
  if bit s.land.closed x.id || s.fenced then s
  else if x.remote then s.reviseSite x
  else if s.leavesResolved x && s.outputsFinal x then ((s.resolveSite x).closeLocal x).settle x
  else s

/-- A remote-bound site takes its turn to close early (R71). -/
def earlyTurn (x : Site) (s : State) : State :=
  let ready := (List.range x.slots).all (fun i =>
    s.slotPresent x i && (isLeaf x i || (s.slotHdr x i).stamp == s.mem.epoch))
  if !x.remote || !s.fr.opened || s.fr.rcSeen || s.fr.phase != .gather || bit s.land.early x.id || s.fenced || !ready then s
  else
    let s := s.closeRemote x s.mem.epoch 1
    State.changed 0x2220 0x01 (setBit s.land.early x.id) { s with land := { s.land with early := setBit s.land.early x.id } }

/-! ## Mirror (R83, R84) -/

/-- The sites with a self slot of this member that is frozen present. -/
def selfSites (s : State) : List Site := s.sites.filter (fun x => x.hasSelf && s.slotFrozen x x.selfSlot)

/-- The ply-P holder that receives mirror piece `i` of member `j` (R83). -/
def mirrorHolder (s : State) (l : Layout) (j i : Nat) : Option Nat :=
  let n := l.ns j
  if n = 0 then none
  else
    match l.ofDense j (i % n) with
    | some (h, g, p) =>
      let pl := l.place j h g p
      some (s.roleHolder l h pl.band pl.x 0)
    | none => none

/-- Send one mirror piece; `seqs` are the pieces sent so far to each holder. -/
def sendPiece (l : Layout) (x : Site) (i : Nat) (s : State) : State :=
  match s.mirrorHolder l l.position i with
  | none => s
  | some holder =>
    let node := s.nodeAt holder
    let q := (s.land.mirrorOpen.filter (fun m => m.1 == node)).length
    let h := s.slotHdr x x.selfSlot
    let len := min 4096 (x.payload - 4096 * i)
    let s := s.askSpan (s.regionBase x.slotHank) (x.slotOff s.bank x.selfSlot + 4096 * i) len
    let data := s.spanRead (s.regionBase x.slotHank) (x.slotOff s.bank x.selfSlot + 4096 * i) len
    let body := toLE 1 x.id ++ [0] ++ toLE 2 len ++ toLE 4 i ++ toLE 4 q ++ zeros 4 ++ toLE 8 h.count ++ toLE 8 h.dropped ++ data
    let s := { s with land := { s.land with mirrorOpen := s.land.mirrorOpen ++ [(node, q)] } }
    State.requestAlt 2 0x12 node body [node, q] (s.bump 0x5020 0x11 1)

/-- Send the pieces of every self slot (R83). -/
def sendMirror (s : State) : State :=
  match s.code.layout with
  | some l =>
    if s.fenced || l.position ≥ l.n then s
    else forEach s.selfSites (fun x st => forEach (List.range (ceilDiv x.payload 4096)) (fun i st => st.sendPiece l x i) st) s
  | none => s

/-- The position of a source node in the layout's member table or the epoch in effect. -/
def senderPos (s : State) (node : Nat) : Option Nat :=
  match s.posOf node with
  | some p => some p
  | none => match s.code.layout with
    | some l => l.members.findIdx? (fun m => m.1 == node)
    | none => none

/-- The acknowledgement of a mirror piece (Table 11.4). -/
def mirrorAckBody (b : Bytes) (status : Nat) : Bytes :=
  b.take 1 ++ toLE 1 status ++ zeros 2 ++ sub 4 4 b ++ sub 8 4 b ++ zeros 4

/-- A mirror piece arrives (R84). -/
def onMirrorPiece (m : HeldMsg) (s : State) : State :=
  let b := m.body
  let q := fld 8 4 b
  match s.senderPos m.source, s.bucketMap with
  | some j, some bm =>
    if q < bm.mirrorArea && m.step == s.fr.step && s.fr.opened && !s.fenced then
      let data := b.drop 32
      let s := s.spanWrite (s.regionBase bm.mirrorHank) ((j * bm.mirrorArea + q) * 4096) data
      let r : MirrorRt :=
        { sender := j, seq := q, site := fld 0 1 b, piece := fld 4 4 b, length := data.length, count := fld 16 8 b,
          dropped := fld 24 8 b }
      let rest := s.land.mirrors.filter (fun x => !(x.sender == j && x.seq == q))
      State.reply m 0x13 (mirrorAckBody b 0)
        (State.bump 0x5020 0x12 1 { s with land := { s.land with mirrors := rest ++ [r] } })
    else (s.bump 0x5020 0x0C 1).reply m 0x13 (mirrorAckBody b 1)
  | _, _ => (s.bump 0x5020 0x0C 1).reply m 0x13 (mirrorAckBody b 1)

/-- A mirror acknowledgement arrives: its request is over. -/
def onMirrorAck (m : HeldMsg) (s : State) : State :=
  match s.openReq m.request with
  | some r => s.freeReq r.engine r.entry
  | none => s

/-! ## Re-requests (R86) -/

/-- The outcome of a re-request: data, not held, or wait. -/
inductive ReAns where
  | data (hdr bytes : Bytes)
  | notHeld
  | wait
  deriving DecidableEq, Repr

/-- The answer a re-request has now (R86). The output of a site counts as closed, for a re-request, once the site has settled after
roll-call, not at its early close (DESIGN CHOICE, log 174). -/
def reAnswer (s : State) (m : HeldMsg) : ReAns :=
  let b := m.body
  let node := fld 0 2 b
  let site := fld 2 1 b
  let slot := fld 3 1 b
  let len := fld 4 4 b
  let off := fld 8 8 b
  if m.step != s.fr.step || !s.fr.opened then .notHeld
  else if slot = 0xFF then
    match s.senderPos node, s.bucketMap with
    | some j, some bm =>
      match s.land.mirrors.find? (fun r => r.sender == j && r.site == site && r.piece == off) with
      | some r =>
        if len ≤ r.length then
          let hdr := toLE 1 r.site ++ [0] ++ toLE 2 r.length ++ toLE 4 r.piece ++ toLE 4 r.seq ++ zeros 4 ++ toLE 8 r.count ++
            toLE 8 r.dropped
          .data (fit 128 hdr) (s.spanRead (s.regionBase bm.mirrorHank) ((j * bm.mirrorArea + r.seq) * 4096) len)
        else .notHeld
      | none => .notHeld
    | _, _ => .notHeld
  else
    match s.bucketMap with
    | none => .notHeld
    | some bm =>
      match bm.outbox.zipIdx.find? (fun (o, _) => o.destNode == node && o.destSite == site && o.destSlot == slot) with
      | none => .notHeld
      | some (o, i) =>
        let hb := s.header bm.outboxHank i
        let h := readHdr hb
        let exists_ := bit h.flags 0 && h.step == s.fr.step && (o.kind == 0 || bit s.land.closed o.localSite)
        let past := if o.kind = 0 then s.fr.rcSeen else bit s.land.closed o.localSite
        if s.lostBytes bm.outboxHank i != 0 then .notHeld
        else if exists_ && off + len ≤ o.bytes then
          .data hb (s.spanRead (s.regionBase bm.outboxHank) (o.offset * 4096 + off) len)
        else if past || off + len > o.bytes then .notHeld
        else .wait

/-- Where the bytes of a re-request's answer lie: base and offset. -/
def reSource (s : State) (m : HeldMsg) : Option (Nat × Nat) :=
  let b := m.body
  match s.bucketMap with
  | none => none
  | some bm =>
    if fld 3 1 b = 0xFF then
      match s.senderPos (fld 0 2 b) with
      | some j => (s.land.mirrors.find? (fun r => r.sender == j && r.site == fld 2 1 b && r.piece == fld 8 8 b)).map (fun r =>
          (s.regionBase bm.mirrorHank, (j * bm.mirrorArea + r.seq) * 4096))
      | none => none
    else
      (bm.outbox.find? (fun o => o.destNode == fld 0 2 b && o.destSite == fld 2 1 b && o.destSlot == fld 3 1 b)).map (fun o =>
        (s.regionBase bm.outboxHank, o.offset * 4096 + fld 8 8 b))

/-- Answer a re-request with data or "not held". -/
def sendReAnswer (m : HeldMsg) (a : ReAns) (s : State) : State :=
  match a with
  | .data hdr bytes =>
    let s := match s.reSource m with
      | some (base, off) => s.askSpan base off bytes.length
      | none => s
    (s.bump 0x5020 0x0D 1).reply m 0x15 (zeros 8 ++ hdr ++ bytes)
  | .notHeld => (s.bump 0x5020 0x0E 1).reply m 0x15 ([1] ++ zeros 7)
  | .wait => { s with land := { s.land with heldReqs := s.land.heldReqs ++ [m] } }

/-- Take up every re-request that waits. -/
def serveReqs (s : State) : State :=
  let q := s.land.heldReqs
  forEach q (fun m st => st.sendReAnswer m (st.reAnswer m)) { s with land := { s.land with heldReqs := [] } }

/-! ## Notices (R70) -/

/-- The exclusion set becomes known once its notice is held (R69). -/
def resolveExclusion (s : State) : State :=
  if !s.fr.rcSeen || s.land.exclusion.isSome then s
  else if s.fr.eN = s.planEpoch then { s with land := { s.land with exclusion := some [] } }
  else
    match s.noticeOf s.fr.eN with
    | some n => { s with land := { s.land with exclusion := some n.entries } }
    | none => s

/-- Work that presence and exclusion allow after roll-call: what is resolved, R74 at every remote-bound site, then the requests that
wait. -/
def landingPass (s : State) : State :=
  let s := s.resolveExclusion
  let s := forEach s.sites (fun x st => st.resolveSite x) s
  (forEach s.sites (fun x st => st.reviseSite x) s).serveReqs

/-- Read the notice of an exclusion write (Table 3.7); none where its bytes break the table. -/
def readNotice (b : Bytes) : Option Notice :=
  let n := fld 4 2 b
  if b.length = 8 + 4 * n && 1 ≤ n && n ≤ 64 && fld 6 2 b = 0 then
    some { epoch := fld 0 4 b, entries := (List.range n).map (fun i => (fld (8 + 4 * i) 2 b, fld (10 + 4 * i) 2 b)) }
  else none

/-- Hold a notice: the same epoch's is replaced, a fifth displaces the one held with the lowest epoch (R70). -/
def holdNotice (n : Notice) (s : State) : State :=
  let rest := s.land.notices.filter (fun x => x.epoch != n.epoch)
  let kept := rest.drop (rest.length - 3)
  landingPass { s with land := { s.land with notices := sortBy (fun a b => decide (a.epoch ≤ b.epoch)) (kept ++ [n]) } }

/-- At the tick of step N: headers of step N that were written before it and disagree with their slot count now (R66, R67). -/
def countHeaders (s : State) : State :=
  let bad (x : Site) (i : Nat) : Bool := (s.slotHdr x i).step == s.fr.step && !s.slotPresent x i &&
    !allZero (s.header x.slotHank (s.bank * 64 + i))
  s.bump 0x5020 0x09 (sumL (s.sites.map (fun x => ((List.range x.slots).filter (bad x)).length)))

/-! ## Roll-call (R21, R68, R69) -/

/-- Freeze the contributor set, sample the epoch, start the mirror and the roll-call work of the sites. The held bits of 0x2220.02
are set here, in the clock of roll-call, as R71 words it, and not before; they stand until the threshold, also once a held site has closed
(DESIGN CHOICE, log 173). -/
def rollcallAt (epoch : Nat) (s : State) : State :=
  let frozen := s.sites.flatMap (fun x =>
    ((List.range x.slots).filter (fun i => isLeaf x i && s.slotPresent x i)).map (fun i => (x.id, i)))
  let held := s.sites.foldl (fun a x => if x.remote && !bit s.land.early x.id then setBit a x.id else a) 0
  let s := { s with
    fr := { s.fr with rcSeen := true, eN := epoch, phase := .update }
    land := { s.land with frozen := frozen, heldSites := held, rcLate := s.pastRc } }
  let s := s.resolveExclusion
  let s := if s.land.exclusion.isNone then s.countNote 0x5020 0x10 epoch else s
  (s.sendMirror).landingPass

/-! ## Threshold -/

/-- What landing releases at a threshold (R85); a request still waiting is answered "not held". The held bits of 0x2220.02 clear here
(DESIGN CHOICE, log 173). -/
def landingThreshold (s : State) : State :=
  let q := s.land.heldReqs
  let s := forEach q (fun m st => st.sendReAnswer m .notHeld) { s with land := { s.land with heldReqs := [] } }
  let s := s.dropReqs (fun e t _ => e == 2 && t == 0x14)
  { s with land := { s.land with
      frozen := [], exclusion := none, early := 0, heldSites := 0, revised := 0, closed := 0, stamps := [], results := [],
      mirrors := [], mirrorOpen := [], late := [], lateHdrs := [], resolved := 0, rcLate := false } }

/-! ## The gradient of a group (R22, R75) -/

/-- The closed final site that gives the gradient of element `e` of a hank. -/
def gradSite (s : State) (h e : Nat) : Option Site :=
  s.sites.find? (fun x => x.final && x.targetHank == h && bit s.land.closed x.id && x.firstElem ≤ e &&
    e < x.firstElem + x.gradElems)

/-- The gradients of elements `lo` to `lo + n - 1`, when every one is written: taken bucket by bucket. -/
def gradSpan (s : State) (h : Nat) : Nat → Nat → Nat → Option Bytes
  | 0, _, n => if n = 0 then some [] else none
  | k + 1, lo, n =>
    if n = 0 then some []
    else
      match s.gradSite h lo with
      | none => none
      | some x =>
        let c := min n (x.firstElem + x.gradElems - lo)
        match gradSpan s h k (lo + c) (n - c) with
        | some rest => some (s.spanRead (s.regionBase x.slotHank) (x.gradOff + 4 * (lo - x.firstElem)) (4 * c) ++ rest)
        | none => none

/-- The gradients of a group, once written. -/
def gradient (s : State) (h count g : Nat) : Option (List W32) :=
  (s.gradSpan h 64 (Config.groupElems * g) (elemsIn count g)).map (elemVals 4)

end State

end Sys2Proof.Machine
end

