-- ==== Sys2Proof/Machine/Whorl.lean ====
section
/-! DEFINITION. The whorl: the word at a coordinate (R251), the shapes of the window (R264 to R267) with their tables computed
by fixed-point arithmetic of 320 fraction bits, and the carder's draws (R112, R113). -/

namespace Sys2Proof.Machine

/-! ## The word (R251) -/

/-- `fold`. -/
def whorlFold (x : W64) : W64 :=
  let x := x ^^^ (x >>> 31)
  let x := x * 0xc6a41f835b2e97d5
  let x := x ^^^ (x >>> 29)
  let x := x * 0xa54e9b073d61f28b
  x ^^^ (x >>> 32)

/-- Word `i` of table `j` of a set (R254, R257). -/
def tableWord (t : TableSet) (j i : Nat) : W64 :=
  match t with
  | .default b => Config.defaultTableWord b j i
  | .loaded b => BitVec.ofNat 64 (fld ((4096 * j + i) * 8) 8 b)

/-- The hash of a coordinate that picks table words and rotations. -/
def whorlHash (s n : Nat) (q x : Nat) : W64 :=
  let h := whorlFold (BitVec.ofNat 64 s ^^^ 0x8f3a61c527d9b4e1)
  let h := whorlFold (h ^^^ BitVec.ofNat 64 n)
  whorlFold (h ^^^ BitVec.ofNat 64 (q * 2 ^ 48 + x))

/-- The rotated word of table `j`. -/
def whorlTerm (t : TableSet) (h : W64) (j : Nat) : W64 :=
  (tableWord t j (h.toNat / 2 ^ (12 * j) % 4096)).rotateLeft (4 * (h.toNat / 2 ^ (48 + 4 * j) % 16) + j)

/-- whorl(s, n, q, x). -/
def whorl (t : TableSet) (s n q x : Nat) : W64 :=
  let h := whorlHash s n q x
  whorlTerm t h 0 ^^^ whorlTerm t h 1 ^^^ whorlTerm t h 2 ^^^ whorlTerm t h 3

/-- The 131,072 bytes of a set in the order of R254. -/
def tableBytes (t : TableSet) : Bytes :=
  match t with
  | .default b => (List.range 4).flatMap (fun j => (List.range 4096).flatMap (fun i => toLE 8 (Config.defaultTableWord b j i).toNat))
  | .loaded b => b

/-! ## Fixed-point arithmetic for the shape tables -/

/-- Fraction bits of the fixed-point numbers. -/
def fxBits : Nat := 320

/-- One. -/
def fxOne : Nat := 2 ^ fxBits

/-- The product of two fixed-point numbers. -/
def fxMul (a b : Nat) : Nat := a * b / fxOne

/-- Σ y^(2i+1) / (2i+1) from a power of y, over `k` terms; `sgn` alternates the signs for the arctangent. -/
def atanSum (y2 : Nat) (alternate : Bool) : Nat → Nat → Nat → Bool → Int
  | 0, _, _, _ => 0
  | k + 1, pw, d, neg =>
    let t : Int := (pw / d : Nat)
    (if neg then -t else t) + atanSum y2 alternate k (fxMul pw y2) (d + 2) (neg != alternate)

/-- ln(a / b) for 1 ≤ a / b ≤ 2: 2 artanh((a − b) / (a + b)). -/
def lnRatio (a b : Nat) : Nat :=
  let y := (a - b) * fxOne / (a + b)
  2 * (atanSum (fxMul y y) false 120 y 1 false).toNat

/-- ln 2. -/
def ln2 : Nat := lnRatio 2 1

/-- ln(a / b) for positive integers, as an integer over 2^320. -/
def lnFrac (a b : Nat) : Int :=
  let la := Fp.bitLen a
  let lb := Fp.bitLen b
  let a' := if la < lb then a * 2 ^ (lb - la) else a
  let b' := if lb < la then b * 2 ^ (la - lb) else b
  let e : Int := (la : Int) - lb
  let m : Int := if a' ≥ b' then (lnRatio a' b' : Int) else -(lnRatio b' a' : Int)
  m + e * (ln2 : Int)

/-- arctan(1 / n). -/
def atanInv (n : Nat) : Int :=
  let y := fxOne / n
  atanSum (fxMul y y) true 240 y 1 false

/-- π, by Machin's formula. -/
def fxPi : Nat := (16 * atanInv 5 - 4 * atanInv 239).toNat

/-- sqrt(2π). -/
def sqrtTwoPi : Nat := Fp.isqrt (2 * fxPi * fxOne)

/-- Σ (−1)^i t^(2i+1) / (2^i i! (2i+1)) over `k` terms: the integral of exp(−x²/2) from 0 to t. -/
def gaussSum (t2 : Nat) : Nat → Nat → Nat → Bool → Int
  | 0, _, _, _ => 0
  | k + 1, pw, i, neg =>
    let t : Int := (pw / (2 * i + 1) : Nat)
    (if neg then -t else t) + gaussSum t2 k (fxMul pw t2 / (2 * (i + 1))) (i + 1) (!neg)

/-- The integral of exp(−x²/2) from 0 to t. -/
def gaussInt (t : Nat) : Int := gaussSum (fxMul t t) 220 t 0 false

/-- The t below 8 at which the integral reaches c, to `k` bits after 2^3. -/
def gaussInv (c : Int) : Nat → Nat → Nat
  | 0, t => t
  | k + 1, t =>
    let t' := t + 2 ^ (fxBits + 2 - (100 - k - 1))
    if gaussInt t' ≤ c then gaussInv c k t' else gaussInv c k t

/-! ## The shape tables (R266) -/

/-- The three functions the tables are built on. -/
inductive ShapeTab where
  | n | gMinus | gPlus
  deriving DecidableEq, Repr

/-- A fixed-point value rounded to FP32. -/
def fxRound (v : Int) : W32 := if v = 0 then 0 else Fp.round32 (decide (v < 0)) v.natAbs (-(fxBits : Int)) true

/-- −ln(L) for a positive fixed-point L. -/
def negLn (l : Int) : Int := -(lnFrac l.toNat fxOne)

/-- F(num / 2^den) of a table, correctly rounded to FP32. -/
def shapePoint (tab : ShapeTab) (num den : Nat) : W32 :=
  match tab with
  | .n =>
    if 2 * num = 2 ^ den then 0
    else
      let gap := (2 ^ den - 2 * num) * fxOne / 2 ^ (den + 1)
      fxRound (-(gaussInv (fxMul gap sqrtTwoPi : Nat) 100 0 : Int))
  | .gMinus => fxRound (negLn (-(lnFrac num (2 ^ den))))
  | .gPlus => fxRound (negLn (-(lnFrac (2 ^ den - num) (2 ^ den))))

/-- direct[b] = F((b + 0.5) / 2^32). -/
def shapeDirect (tab : ShapeTab) (b : Nat) : W32 := shapePoint tab (2 * b + 1) 33

/-- knot[p][j] = F(2^(p − 32) × (1 + j / 64)). -/
def shapeKnot (tab : ShapeTab) (p j : Nat) : W32 := shapePoint tab ((64 + j) * 2 ^ (p - 6)) 32

/-- `seg`. -/
def shapeSeg (tab : ShapeTab) (b : Nat) : W32 :=
  if b < 64 then shapeDirect tab b
  else
    let p := Nat.log2 b
    let j := b / 2 ^ (p - 6) % 64
    let r := b % 2 ^ (p - 6)
    let f : W32 := if p ≤ 29 then Fp.round32 false r (-((p : Int) - 6)) false else Fp.round32 false (r / 2) (-23) false
    let k := shapeKnot tab p j
    Fp.fma f (Fp.sub (shapeKnot tab p (j + 1)) k) k

/-- `normal`. -/
def normal (u : Nat) : W32 :=
  if u < 2 ^ 31 then shapeSeg .n u else Fp.flip (shapeSeg .n (2 ^ 32 - 1 - u))

/-- `gumbel`. -/
def gumbel (u : Nat) : W32 := if u < 2 ^ 31 then shapeSeg .gMinus u else shapeSeg .gPlus (2 ^ 32 - 1 - u)

/-- A uniform FP32 value from a half-word (R113, Table 9.3). -/
def uniform32 (u : Nat) : W32 := Fp.round32 false (u / 256) (-24) false

/-- The 8 output bytes of a word in a shape (R264, R265). -/
def shapeBytes (shape : Nat) (w : W64) : Bytes :=
  let n := w.toNat
  let half (i : Nat) : Nat := n / 2 ^ (32 * i) % 2 ^ 32
  let quarter (i : Nat) : Nat := n / 2 ^ (16 * i) % 2 ^ 16
  let pair (f : Nat → W32) : Bytes := toLE 4 (f (half 0)).toNat ++ toLE 4 (f (half 1)).toNat
  let four (f : Nat → BitVec 16) : Bytes := (List.range 4).flatMap (fun a => toLE 2 (f (quarter a)).toNat)
  match shape with
  | 1 => pair uniform32
  | 2 => four (fun h => Fp.toBf16 (Fp.round32 false (h / 256) (-8) false))
  | 3 => pair normal
  | 4 => four (fun h => Fp.toBf16 (normal (h * 65536 + 32768)))
  | 5 => pair gumbel
  | 6 => four (fun h => Fp.toBf16 (gumbel (h * 65536 + 32768)))
  | _ => toLE 8 n

/-- The arithmetic-table digest (Table 14.6, entry 0x1000.0B). -/
def arithDigest : Nat :=
  let tab (t : ShapeTab) : Bytes :=
    (List.range 64).flatMap (fun b => toLE 4 (shapeDirect t b).toNat) ++
      (List.range 25).flatMap (fun p => (List.range 65).flatMap (fun j => toLE 4 (shapeKnot t (p + 6) j).toNat))
  crc64 0xF000000000000006
    ((List.range 192).flatMap (fun i => toLE 2 (Fp.rsqTable i)) ++ tab .n ++ tab .gMinus ++ tab .gPlus)

/-! ## The carder's draws (R112) -/

/-- Half-word `j` of element `e`. -/
def carderHalf (t : TableSet) (seed step e j : Nat) : Nat :=
  (whorl t seed step (0xFF00 + j) (e / 2)).toNat / 2 ^ (32 * (e % 2)) % 2 ^ 32

/-- The 16 random bits of stochastic output `i` of element `e`. -/
def carderSr (t : TableSet) (seed step e i : Nat) : Nat := carderHalf t seed step e (i / 2) / 2 ^ (16 * (i % 2)) % 2 ^ 16

end Sys2Proof.Machine
end

