-- ==== Sys2Proof/Machine/Carder.lean ====
section
/-! DEFINITION. The carder's arithmetic (chapter 4): micro-ops, scalars, random draws, rounding into planes, masks, views. A group's
update is a function of its inputs (R93), so it serves the owner and an heir alike (R168). -/

namespace Sys2Proof.Machine

/-! ## Micro-ops (R103, R108) -/

/-- The fields of a micro-op word (Table 4.4). -/
structure MicroOp where
  op : Nat
  d : Nat
  a : Nat
  b : Nat
  c : Nat
  rest : Nat
  deriving DecidableEq, Repr

/-- Read a micro-op word. -/
def readOp (w : Nat) : MicroOp :=
  { op := w / 2 ^ 26 % 64, d := w / 2 ^ 22 % 16, a := w / 2 ^ 17 % 32, b := w / 2 ^ 12 % 32, c := w / 2 ^ 7 % 32,
    rest := w % 128 }

/-- How many of the sources a, b, c an operation uses (Table 4.5); none for an op the table does not list. -/
def opSources (op : Nat) : Option Nat :=
  match op with
  | 0x00 => some 0 | 0x01 => some 1 | 0x02 => some 2 | 0x03 => some 2 | 0x04 => some 2 | 0x05 => some 3 | 0x06 => some 3
  | 0x07 => some 2 | 0x08 => some 1 | 0x09 => some 1 | 0x0A => some 2 | 0x0B => some 2 | 0x0C => some 1 | 0x0D => some 1
  | 0x0E => some 1 | 0x0F => some 3 | 0x10 => some 2 | 0x11 => some 0
  | _ => none

/-- The larger of two numbers; MAX(−0, +0) is +0 in either order. -/
def fpMax (a b : W32) : W32 :=
  if Fp.gt a b then a else if Fp.gt b a then b else if Fp.sgn a then b else a

/-- The smaller of two numbers; MIN(−0, +0) is −0 in either order. -/
def fpMin (a b : W32) : W32 :=
  if Fp.gt a b then b else if Fp.gt b a then a else if Fp.sgn a then a else b

/-- +1.0. -/
def fpOne : W32 := 0x3F800000

/-- The result of an operation on its sources; RNU takes the uniform value. -/
def opResult (op : Nat) (a b c u : W32) : W32 :=
  match op with
  | 0x01 => a
  | 0x02 => Fp.add a b
  | 0x03 => Fp.sub a b
  | 0x04 => Fp.mul a b
  | 0x05 => Fp.fma a b c
  | 0x06 => Fp.fnm a b c
  | 0x07 => Fp.div a b
  | 0x08 => Fp.sqrt a
  | 0x09 => Fp.rsq a
  | 0x0A => fpMax a b
  | 0x0B => fpMin a b
  | 0x0C => Fp.withSign false (Fp.mag a)
  | 0x0D => Fp.flip a
  | 0x0E => if Fp.isZero a then a else if Fp.sgn a then Fp.flip fpOne else fpOne
  | 0x0F => if Fp.gt a 0 then b else c
  | 0x10 => Fp.withSign (Fp.sgn b) (Fp.mag a)
  | _ => u

/-- One micro-op over the registers; `q` counts the RNUs before it. A NaN among the sources used gives the canonical NaN (R108). -/
def stepOp (scal : List W32) (rnu : Nat → W32) (st : List W32 × Nat) (w : Nat) : List W32 × Nat :=
  let o := readOp w
  let src (i : Nat) : W32 := if i < 16 then st.1.getD i 0 else scal.getD (i - 16) 0
  let a := src o.a
  let b := src o.b
  let c := src o.c
  match opSources o.op with
  | none => st
  | some n =>
    if o.op = 0 then st
    else
      let nan := (1 ≤ n && Fp.isNaN a) || (2 ≤ n && Fp.isNaN b) || (3 ≤ n && Fp.isNaN c)
      let r := if nan then Fp.qnan else opResult o.op a b c (rnu st.2)
      (st.1.set o.d r, if o.op = 0x11 then st.2 + 1 else st.2)

/-- Run a program over the registers of Table 4.3. -/
def runProg (p : Prog) (scal : List W32) (rnu : Nat → W32) (regs : List W32) : List W32 :=
  (p.ops.foldl (stepOp scal rnu) (regs, 0)).1

/-- RNU operations of a program. -/
def rnuCount (p : Prog) : Nat := (p.ops.filter (fun w => (readOp w).op == 0x11)).length

/-! ## Random draws (R112) -/

/-- The planes M1, M2, AUX of an output that is stochastically rounded. -/
def srPlanes (p : Prog) (planes formats : Nat) : List Nat :=
  [2, 3, 4].filter (fun i =>
    bit p.writes (i - 1) && planeWidth planes formats i == 2 && bit p.rounding (i - 2))

/-- nsr: stochastic outputs of an element with `nv` LIVE views. -/
def nsrOf (p : Prog) (planes formats nv : Nat) : Nat := (srPlanes p planes formats).length + (if bit p.rounding 3 then nv else 0)

/-- rand: random bytes per element (R112). -/
def randOf (p : Prog) (planes formats nv : Nat) : Nat := 4 * (ceilDiv (nsrOf p planes formats nv) 2 + rnuCount p)

/-! ## One element -/

/-- What the draws of a hank depend on. -/
structure Draw where
  table : TableSet
  seed : Nat
  step : Nat

/-- The 16 random bits of stochastic output `i` of element `e`. -/
def Draw.sr (d : Draw) (e i : Nat) : Nat := carderSr d.table d.seed d.step e i

/-- The value of the `q`-th RNU of element `e` (R113). -/
def Draw.rnu (d : Draw) (nsr e q : Nat) : W32 := uniform32 (carderHalf d.table d.seed d.step e (ceilDiv nsr 2 + q))

/-- A LIVE view of a hank: its number and format. -/
structure ViewOf where
  hank : Nat
  format : Nat
  deriving DecidableEq, Repr

/-- What the update of a group needs of its hank. -/
structure HankIn where
  planes : Nat
  formats : Nat
  prog : Prog
  scal : List W32
  draw : Draw
  views : List ViewOf

/-- A value of plane `i` widened (Table 4.3). -/
def widen (w : Nat) (b : Bytes) : W32 := if w = 2 then BitVec.ofNat 32 (leNat b * 65536) else BitVec.ofNat 32 (leNat b)

/-- The bytes of a result in a plane of width `w`; `r` holds the random bits of a stochastic conversion (R110). -/
def narrow (w : Nat) (v : W32) (r : Option Nat) : Bytes :=
  if w = 4 then toLE 4 v.toNat
  else
    match r with
    | some x => toLE 2 (Fp.toBf16Sr v x).toNat
    | none => toLE 2 (Fp.toBf16 v).toNat

/-- The new record of an element: its planes' bytes, HI first, and its master. `old` has one byte string per plane, empty for a
plane the hank does not have. -/
def updateElem (h : HankIn) (e : Nat) (grad : W32) (old : List Bytes) : List Bytes × W32 :=
  let w (i : Nat) : Nat := planeWidth h.planes h.formats i
  let o (i : Nat) : Bytes := old.getD i []
  let nsr := nsrOf h.prog h.planes h.formats h.views.length
  let sr := srPlanes h.prog h.planes h.formats
  let master : W32 := BitVec.ofNat 32 (leNat (o 0) * 65536 + leNat (o 1))
  let regs := [grad, master, widen (w 2) (o 2), widen (w 3) (o 3), widen (w 4) (o 4)] ++ List.replicate 11 0
  let res := runProg h.prog h.scal (h.draw.rnu nsr e) regs
  let m := if bit h.prog.writes 0 then res.getD 1 0 else master
  let plane (i : Nat) : Bytes :=
    if w i = 0 then []
    else if bit h.prog.writes (i - 1) then
      let r := (sr.findIdx? (fun j => j == i)).map (fun k => h.draw.sr e k)
      narrow (w i) (res.getD i 0) r
    else o i
  ([toLE 2 (m.toNat / 65536), toLE 2 (m.toNat % 65536), plane 2, plane 3, plane 4], m)

/-! ## Views (R115) -/

/-- The random bits of view number `i` (in increasing hank number) for element `e`; none for round-to-nearest-even. -/
def viewRandom (h : HankIn) (i e : Nat) : Option Nat :=
  if bit h.prog.rounding 3 then some (h.draw.sr e ((srPlanes h.prog h.planes h.formats).length + i)) else none

/-- One FP8 code and whether it saturated. -/
def fp8Code (format : Nat) (m : W32) (r : Option Nat) : Nat × Bool :=
  if format = 1 then Fp.toFp8 Fp.e4m3 0x7F m r else Fp.toFp8 Fp.e5m2 0x7E m r

/-- FP8 codes of a list of (element, mask bit, master), and how many saturated. -/
def fp8Codes (h : HankIn) (format i : Nat) (es : List (Nat × Bool × W32)) : List (Nat × Bool) :=
  es.map (fun x => if x.2.1 then fp8Code format x.2.2 (viewRandom h i x.1) else (0, false))

/-- The scale and the element codes of one MXFP4 block of (element, mask bit, master). -/
def mxBlock (h : HankIn) (i : Nat) (es : List (Nat × Bool × W32)) : Nat × List (Nat × Bool) :=
  let sc := Fp.mxScale ((es.filter (fun x => x.2.1)).map (fun x => x.2.2))
  (sc, es.map (fun x => if x.2.1 then Fp.mxElem sc x.2.2 (viewRandom h i x.1) else (0, false)))

/-- Pairs of 4-bit codes as bytes, the even element in bits 3:0 (Table 2.7). -/
def nibbles : List Nat → Bytes
  | a :: b :: rest => BitVec.ofNat 8 (a + 16 * b) :: nibbles rest
  | [a] => [BitVec.ofNat 8 a]
  | [] => []

/-- A list in blocks of 32. -/
def blocks32 {α : Type} : Nat → List α → List (List α)
  | 0, _ => []
  | k + 1, l => if l.isEmpty then [] else l.take 32 :: blocks32 k (l.drop 32)

/-- The bytes of a view over consecutive elements, the first at index `lo` of the view's order, with the saturated elements
counted. Code 4 counts its elements in column order. -/
def viewBytes (h : HankIn) (v : ViewOf) (i lo : Nat) (es : List (Nat × Bool × W32)) : List ViewWrite × Nat :=
  if v.format ≤ 2 then
    let cs := fp8Codes h v.format i es
    ([{ hank := v.hank, region := 0, offset := lo, bytes := cs.map (fun c => BitVec.ofNat 8 c.1) }],
      (cs.filter (fun c => c.2)).length)
  else
    let bs := (blocks32 es.length es).map (mxBlock h i)
    let codes := bs.flatMap (fun b => b.2)
    ([{ hank := v.hank, region := 0, offset := lo / 2, bytes := nibbles (codes.map (fun c => c.1)) },
      { hank := v.hank, region := 1, offset := lo / 32, bytes := bs.map (fun b => BitVec.ofNat 8 b.1) }],
      (codes.filter (fun c => c.2)).length)

/-! ## A group -/

/-- The result of a group's update. -/
structure GroupOut where
  stripes : List Bytes
  views : List ViewWrite
  nan : Nat
  inf : Nat
  /-- Masked positions with an old plane that was not zero (0x5030.04). -/
  forced : Nat
  saturated : Nat
  deriving DecidableEq, Repr

/-- The elements of a plane, in order, from the stripes of a group. -/
def planeElems (planes formats i : Nat) (stripes : List Bytes) : List Bytes :=
  let w := planeWidth planes formats i
  if w = 0 then []
  else pieces w (((groupStripes planes formats).zip stripes).flatMap (fun x => if x.1.1 = i then x.2 else []))

/-- The old records of the first `n` elements of a group. -/
def groupElems (planes formats n : Nat) (stripes : List Bytes) : List (List Bytes) :=
  let cols := (List.range 5).map (fun i => planeElems planes formats i stripes)
  (List.range n).map (fun e => cols.map (fun c => c.getD e []))

/-- The stripes of a group from its records, in order of p, zero beyond the last element (R91). -/
def elemStripes (planes formats : Nat) (recs : List (List Bytes)) : List Bytes :=
  (groupStripes planes formats).map (fun pl =>
    let bytes := recs.flatMap (fun r => r.getD pl.1 [])
    sub (pl.2.1 * Config.stripe) Config.stripe bytes)

/-- The mask bits of a group from 256 bytes of the mask map. -/
def maskBits (n : Nat) (bs : Bytes) : List Bool := (List.range n).map (fun i => bit (fld (i / 8) 1 bs) (i % 8))

/-- Update a group (R95, R102, R114, R115): `mask` is none for a hank without a mask. -/
def updateGroup (h : HankIn) (g n : Nat) (old : List Bytes) (grads : List W32) (mask : Option (List Bool)) : GroupOut :=
  let recs := groupElems h.planes h.formats n old
  let zero (r : List Bytes) : List Bytes := r.map (fun b => zeros b.length)
  let one (x : List Bytes × Nat) : List Bytes × Bool × W32 × Bool :=
    let on := match mask with
      | some ms => ms.getD x.2 true
      | none => true
    if on then
      let (r, m) := updateElem h (Config.groupElems * g + x.2) (grads.getD x.2 0) x.1
      (r, true, m, false)
    else (zero x.1, false, 0, !x.1.all allZero)
  let res := recs.zipIdx.map one
  let es := res.zipIdx.map (fun x => (Config.groupElems * g + x.2, x.1.2.1, x.1.2.2.1))
  let vs := h.views.zipIdx.filter (fun v => v.1.format != 4)
  let vo := vs.map (fun v => viewBytes h v.1 v.2 (Config.groupElems * g) es)
  { stripes := elemStripes h.planes h.formats (res.map (fun x => x.1)), views := vo.flatMap (fun x => x.1),
    nan := (res.filter (fun x => Fp.isNaN x.2.2.1)).length, inf := (res.filter (fun x => Fp.isInf x.2.2.1)).length,
    forced := (res.filter (fun x => x.2.2.2)).length, saturated := sumL (vo.map (fun x => x.2)) }

/-- The views of a group from masters alone (R46): no update. -/
def viewsOfGroup (h : HankIn) (g n : Nat) (stripes : List Bytes) (mask : Option (List Bool)) (only : List Nat) :
    List ViewWrite × Nat :=
  let recs := groupElems h.planes h.formats n stripes
  let es := recs.zipIdx.map (fun x =>
    let on := match mask with
      | some ms => ms.getD x.2 true
      | none => true
    (Config.groupElems * g + x.2, on, BitVec.ofNat 32 (leNat (x.1.getD 0 []) * 65536 + leNat (x.1.getD 1 []))))
  let vs := h.views.zipIdx.filter (fun v => v.1.format != 4 && only.contains v.1.hank)
  let vo := vs.map (fun v => viewBytes h v.1 v.2 (Config.groupElems * g) es)
  (vo.flatMap (fun x => x.1), sumL (vo.map (fun x => x.2)))

namespace State

/-! ## Inputs from the state -/

/-- s14: the step number mod 2^24 as FP32 (Table 4.6). -/
def stepScalar (n : Nat) : W32 := Fp.round32 false (n % 2 ^ 24) 0 false

/-- The scalar sources of a slot in step N (R106). -/
def scalars (s : State) (slot : Nat) : List W32 :=
  (List.range 14).map (fun i => BitVec.ofNat 32 (s.reg (0x2300 + slot) (0x10 + i))) ++ [stepScalar s.fr.step, fpOne]

/-- The seed of a hank for a use; 0 where none is assigned. -/
def seedOf (s : State) (h use : Nat) : Nat :=
  match s.whorl.seeds.find? (fun e => e.hank == h && e.use == use) with
  | some e => e.seed
  | none => 0

/-- The program in a slot under the plan in effect. -/
def program (s : State) (slot : Nat) : Prog :=
  match s.planEff with
  | some p => (p.prog? slot).getD (Plan.builtinProg slot 3 0 [])
  | none => Plan.builtinProg slot 3 0 []

/-- The LIVE views of a STATE hank, in increasing hank number. -/
def viewsOf (s : State) (h : Nat) : List ViewOf :=
  (sortBy (fun (a b : HankRt) => decide (a.hank ≤ b.hank))
    (s.hanks.filter (fun r => r.desc.cls == 2 && r.state == 2 && r.desc.source == h))).map
      (fun r => { hank := r.hank, format := r.desc.viewFormat })

/-- The inputs that a hank's groups share. -/
def hankIn (s : State) (h planes formats slot : Nat) (views : List ViewOf) : HankIn :=
  { planes := planes, formats := formats, prog := s.program slot, scal := s.scalars slot,
    draw := { table := s.whorl.tables, seed := s.seedOf h 0, step := s.fr.step }, views := views }

/-- The mask stripe that holds a group's bits. -/
def maskStripe (g : Nat) : Nat := g * 256 / Config.stripe

/-- A mask copy is unreadable at a stripe: marked so, or a block of it is known bad. -/
def maskCopyBad (s : State) (r : HankRt) (copy t : Nat) : Bool :=
  r.maskBad.contains (copy, t) ||
    s.spanBad (if copy = 0 then r.desc.maskA else r.desc.maskB) (t * Config.stripe) Config.stripe

/-- Bytes of the mask map from the first readable copy (R114); none when both are unreadable. -/
def maskRead (s : State) (r : HankRt) (off len : Nat) : Option Bytes :=
  let t := off / Config.stripe
  if !s.maskCopyBad r 0 t then some (s.spanRead r.desc.maskA off len)
  else if !s.maskCopyBad r 1 t then some (s.spanRead r.desc.maskB off len)
  else none

/-- The mask bits of a group: `some none` for a hank without a mask, `none` when both copies are unreadable. -/
def groupMask (s : State) (r : HankRt) (g : Nat) : Option (Option (List Bool)) :=
  if !r.desc.masked then some none
  else (s.maskRead r (g * 256) 256).map (fun bs => some (maskBits (elemsIn r.desc.count g) bs))

/-- Write view bytes to their region. -/
def writeView (v : ViewWrite) (s : State) : State :=
  match s.hank? v.hank with
  | none => s
  | some r =>
    let s := s.spanWrite (r.desc.base v.region) v.offset v.bytes
    s.clearBad (s.spanBlocks (r.desc.base v.region) v.offset v.bytes.length)

/-- Count what a group's update found (Table 4.11), with an event at the first NaN and the first infinity of a step, whose detail is the step
open (Table 13.4). -/
def countOut (o : GroupOut) (s : State) : State :=
  let s := ((s.bump 0x5030 0x04 o.forced).bump 0x5030 0x05 o.nan).bump 0x5030 0x06 o.inf
  let s := s.bump 0x5030 0x0B o.saturated
  let s := if o.nan ≠ 0 && !s.card.nanEvent then
      State.note 0x5030 0x05 s.fr.step { s with card := { s.card with nanEvent := true } } else s
  if o.inf ≠ 0 && !s.card.infEvent then
    State.note 0x5030 0x06 s.fr.step { s with card := { s.card with infEvent := true } } else s

/-- Count the whorl words that the elements of a group draw (R112, 0x5080.08): each word serves two elements of one stream. Which draws the
counter means is not in the manual; the words of a group's whole update count, with its masked positions and its views of code 4, and
those of a pass over masters alone do not (DESIGN CHOICE, log 185). -/
def countWords (h : HankIn) (n : Nat) (s : State) : State :=
  s.bump 0x5080 0x08 (randOf h.prog h.planes h.formats h.views.length / 4 * ceilDiv n 2)

end State

end Sys2Proof.Machine
end

