-- ==== Sys2Proof/Machine/Coherence.lean ====
section
/-! DEFINITION. The package coherence domain (R295, R296, R346): the presence directories and the invalidations. -/

namespace Sys2Proof.Machine

/-- The channel and page of stripe `t` of a region (R39, R273). -/
def stripePage (c t : Nat) : Nat × Nat := (t % c, t / c / 16)

/-- A page as the directory names it. -/
structure PageKey where
  hank : Nat
  region : Nat
  channel : Nat
  page : Nat
  deriving DecidableEq, Repr

/-- The pages that a span of a region covers. -/
def spanPages (c hank region off len : Nat) : List PageKey :=
  if len = 0 then []
  else
    let t0 := off / Config.stripe
    let t1 := (off + len - 1) / Config.stripe
    nub ((List.range (t1 + 1 - t0)).map (fun i =>
      let p := stripePage c (t0 + i)
      { hank := hank, region := region, channel := p.1, page := p.2 }))

/-- Entries of a channel's presence directory (R296). -/
def directoryEntries : Nat := 16384

/-- Open invalidations of a channel (R346). -/
def invLimit : Nat := 16

namespace State

/-- The die vector of a page. -/
def dies (s : State) (k : PageKey) : Nat :=
  match s.tier.presence.find? (fun e =>
    e.1 == k.hank && e.2.1 == k.region && e.2.2.1 == k.channel && e.2.2.2.1 == k.page) with
  | some e => e.2.2.2.2
  | none => 0

/-- Put a page's die vector; an entry without a die is free. -/
def setDies (k : PageKey) (v : Nat) (s : State) : State :=
  let rest := s.tier.presence.filter (fun e =>
    !(e.1 == k.hank && e.2.1 == k.region && e.2.2.1 == k.channel && e.2.2.2.1 == k.page))
  { s with tier := { s.tier with
      presence := rest ++ (if v = 0 then [] else [(k.hank, k.region, k.channel, k.page, v)]) } }

/-- The dies other than the writer that hold a copy of a page. -/
def otherDies (s : State) (k : PageKey) (writer : Option Nat) : List Nat :=
  (bitsOf 4 (s.dies k)).filter (fun d => writer != some d)

/-- No die other than the writer holds a copy of any of the pages. -/
def coherent (s : State) (ks : List PageKey) (writer : Option Nat) : Bool :=
  s.tier.presence.isEmpty || ks.all (fun k => (s.otherDies k writer).isEmpty)

/-- Send one invalidation, unless it is open already or the channel's stream is full. -/
def sendInv (k : PageKey) (die : Nat) (s : State) : State :=
  let e := (k.channel, die, k.hank, k.region, k.page)
  if s.tier.invOpen.contains e || invLimit ≤ (s.tier.invOpen.filter (fun x => x.1 == k.channel)).length then s
  else
    State.emit (.inv k.channel die k.hank k.region k.page)
      { s with tier := { s.tier with invOpen := s.tier.invOpen ++ [e] } }

/-- Send the invalidations that a change of pages needs (R296). -/
def invalidate (ks : List PageKey) (writer : Option Nat) (s : State) : State :=
  if s.tier.presence.isEmpty then s
  else forEach ks (fun k st => forEach (st.otherDies k writer) (fun d st => st.sendInv k d) st) s

/-- A die acknowledges its oldest open invalidation on the channel: its bit clears (R346). None when nothing matches. -/
def closeInv (ch die : Nat) (s : State) : Option State :=
  match s.tier.invOpen.find? (fun x => x.1 == ch && x.2.1 == die) with
  | none => none
  | some e =>
    let k : PageKey := { hank := e.2.2.1, region := e.2.2.2.1, channel := ch, page := e.2.2.2.2 }
    let s := { s with tier := { s.tier with invOpen := s.tier.invOpen.erase e } }
    some (s.setDies k (clearBit (s.dies k) die))

/-- Grant a die a copy of a page: false where the directory has no entry left; the oldest entry is then invalidated at its dies, so
that it frees (R296). -/
def grantCopy (k : PageKey) (die : Nat) (s : State) : State × Bool :=
  let v := s.dies k
  if v != 0 then (s.setDies k (setBit v die), true)
  else if (s.tier.presence.filter (fun e => e.2.2.1 == k.channel)).length < directoryEntries then
    (s.setDies k (2 ^ die), true)
  else
    match s.tier.presence.find? (fun e => e.2.2.1 == k.channel) with
    | some e =>
      let old : PageKey := { hank := e.1, region := e.2.1, channel := e.2.2.1, page := e.2.2.2.1 }
      (s.invalidate [old] none, false)
    | none => (s, false)

end State

end Sys2Proof.Machine
end

