-- ==== Sys2Proof/Machine/Coding.lean ====
section
/-! DEFINITION. Continuous coding (chapters 4 and 5): the commit sequence of the carder, delta sets and their acknowledgements, the
initial encode, the ply holder with its tags, ply and stripe reads, the recompute of a band. -/

namespace Sys2Proof.Machine

/-- Spindle beats of `n` stripes (R148). -/
def beatsOf (n : Nat) : Nat := 32 * n

namespace State

/-! ## Stripes of a group in memory -/

/-- The hearth key or pantry offset of stripe `t` of plane `i`, and whether it lies in the pantry. -/
def planeKey (s : State) (r : HankRt) (i t g : Nat) : Nat × Bool :=
  let (d, cur) := homeDesc r g
  let pantry := if cur then s.inPantry d else !(s.inPantry r.desc)
  (if pantry then pantryOff (d.base i) t else stripeKey s.C (d.base i) t, pantry)

/-- The 128-byte blocks of a stripe of the hearth. -/
def stripeBlocks (key : Nat) : List Nat := (List.range 32).map (fun b => key / 128 + b)

/-- The 64-byte lines of a stripe of the pantry. -/
def stripeLines (off : Nat) : List Nat := (List.range 64).map (fun b => off / 64 + b)

/-- The stripes of a group that exist, with their number p. -/
def groupStripesOf (d : Desc) (g : Nat) : List ((Nat × Nat × Nat) × Nat) :=
  (groupStripes d.planes d.formats).zipIdx.filter (fun x => stripeExists d g x.1)

/-- The hearth blocks of stripes of a group. -/
def blocksOf (s : State) (r : HankRt) (g : Nat) (xs : List ((Nat × Nat × Nat) × Nat)) : List Nat :=
  xs.flatMap (fun x =>
    let k := s.planeKey r x.1.1 (planeStripe g x.1) g
    if k.2 then [] else stripeBlocks k.1)

/-- A stripe is known to be uncorrectable or poisoned. -/
def keyBad (s : State) (k : Nat × Bool) : Bool :=
  if k.2 then (stripeLines k.1).any (fun l => s.scrub.badLines.contains l)
  else (stripeBlocks k.1).any (fun b => s.scrub.badBlocks.contains b)

/-- The pantry lines of stripes of a group. -/
def linesOf (s : State) (r : HankRt) (g : Nat) (xs : List ((Nat × Nat × Nat) × Nat)) : List Nat :=
  xs.flatMap (fun x =>
    let k := s.planeKey r x.1.1 (planeStripe g x.1) g
    if k.2 then stripeLines k.1 else [])

/-- Read a stripe where it lies, and take the answers (R347, R352). -/
def askKey (k : Nat × Bool) (s : State) : State :=
  if k.2 then s.takeLines s.ans (stripeLines k.1) else s.takeMem s.ans (stripeBlocks k.1)

/-- Read stripes of a group. -/
def askStripes (mem : MemAns) (r : HankRt) (g : Nat) (xs : List ((Nat × Nat × Nat) × Nat)) (s : State) : State :=
  State.takeLines mem (s.linesOf r g xs) (s.takeMem mem (s.blocksOf r g xs))

/-- Read the stripes of a group. -/
def askGroup (mem : MemAns) (r : HankRt) (g : Nat) (s : State) : State := s.askStripes mem r g (groupStripesOf r.desc g)

/-- Read the stripes of a group that hold its masters: HI and LO alone (R116). -/
def askMaster (mem : MemAns) (r : HankRt) (g : Nat) (s : State) : State :=
  s.askStripes mem r g ((groupStripesOf r.desc g).filter (fun x => decide (x.2 < 2)))

/-- A group of this member's shard is being copied to its new home (R288). -/
def groupMoves (s : State) (h g : Nat) : Bool := s.tier.homeMvs.any (fun m => m.hank == h && !m.ply && m.index == g)

/-- The stripe numbers of a group that are known to be uncorrectable. -/
def badStripes (s : State) (r : HankRt) (g : Nat) : List Nat :=
  if s.scrub.badBlocks.isEmpty && s.scrub.badLines.isEmpty then []
  else
    ((groupStripesOf r.desc g).filter (fun x => s.keyBad (s.planeKey r x.1.1 (planeStripe g x.1) g))).map (fun x => x.2)

/-- A stripe that has been written is good again. -/
def clearKey (k : Nat × Bool) (s : State) : State :=
  if k.2 then
    if s.scrub.badLines.isEmpty then s
    else
      let ls := stripeLines k.1
      { s with scrub := { s.scrub with badLines := s.scrub.badLines.filter (fun l => !ls.contains l) } }
  else s.clearBad (stripeBlocks k.1)

/-- A stripe of the shard or the reserve is marked under repair (R435). -/
def underRepair (s : State) (pos h g : Nat) : Bool :=
  s.scrub.repairs.any (fun r => r.position == pos && r.hank == h && r.group == g)

/-- The group in flight for a position. -/
def inflight? (s : State) (pos h g : Nat) : Option GroupRt :=
  s.card.inflight.find? (fun x => x.position == pos && x.hank == h && x.group == g && !x.encode)

/-- Ask the scrubber for a repair: a group between its read and its write waits for the carder's write (R435). -/
def addRepair (pos h g p : Nat) (s : State) : State :=
  if s.scrub.repairs.any (fun r => r.position == pos && r.hank == h && r.group == g && r.p == p) then s
  else
    let st := if (s.inflight? pos h g).isSome then 2 else 0
    let r : RepairRt :=
      { position := pos, hank := h, group := g, p := p, state := st, bytes := [], wait := 0, failed := false }
    { s with scrub := { s.scrub with repairs := s.scrub.repairs ++ [r] } }

/-- The hearth blocks of the gradients of a group. -/
def gradBlocks (s : State) (h count g : Nat) : List Nat :=
  let lo := Config.groupElems * g
  let hi := lo + elemsIn count g
  (s.sites.filter (fun x => x.final && x.targetHank == h)).flatMap (fun x =>
    let a := max lo x.firstElem
    let b := min hi (x.firstElem + x.gradElems)
    if a < b then s.spanBlocks (s.regionBase x.slotHank) (x.gradOff + 4 * (a - x.firstElem)) (4 * (b - a)) else [])

/-- The blocks of a mask copy that hold the bits of a group. -/
def maskBlocks (s : State) (r : HankRt) (copy g : Nat) : List Nat :=
  if r.desc.masked then s.spanBlocks (if copy = 0 then r.desc.maskA else r.desc.maskB) (g * 256) 256 else []

/-! ## Placement of a group (R126) -/

/-- The band, residue, slot and first lap of a group of a position. -/
structure GroupPlace where
  band : Nat
  residue : Nat
  slot : Nat
  lap : Nat
  deriving DecidableEq, Repr

/-- The place of a group. -/
def groupPlace (l : Layout) (pos h g : Nat) : GroupPlace :=
  let p := l.place pos h g 0
  { band := p.band, residue := p.x, slot := p.slot, lap := p.lap }

/-- The node that holds a role of a group's rows. -/
def holderNode (s : State) (l : Layout) (pos h g role : Nat) : Nat :=
  let p := groupPlace l pos h g
  s.nodeAt (s.roleHolder l h p.band p.residue role)

/-! ## Delta sets (R130 to R134) -/

/-- Which stripes of a group are zero entries (R97). -/
def zeroMap (old new : List Bytes) : Nat :=
  (old.zip new).zipIdx.foldl (fun a x => if x.1.1 == x.1.2 then setBit a x.2 else a) 0

/-- The body of a delta set (Table 5.3). -/
def setBody (l : Layout) (gr : GroupRt) (role : Nat) (resend : Bool) : Bytes :=
  let p := groupPlace l gr.position gr.hank gr.group
  let z := zeroMap gr.old gr.new
  let flags := gr.encode.toNat + 2 * resend.toNat
  let deltas := (gr.old.zip gr.new).flatMap (fun x => if x.1 == x.2 then [] else xorB x.1 x.2)
  toLE 2 gr.hank ++ toLE 1 role ++ toLE 1 p.slot ++ toLE 1 gr.new.length ++ toLE 1 z ++ toLE 1 flags ++ [0] ++
    toLE 4 gr.group ++ toLE 4 p.lap ++ deltas

/-- The key of a set's request: position, hank, role, group, and 1 for an initial encode. -/
def setKey (gr : GroupRt) (role : Nat) : List Nat := [gr.position, gr.hank, role, gr.group, gr.encode.toNat]

/-- Send one delta set of a group to a node (R131). -/
def sendSet (l : Layout) (gr : GroupRt) (role node : Nat) (resend : Bool) (s : State) : State :=
  let s := { s with led := { s.led with setsSent := s.led.setsSent + 1 } }
  let w : ReqWait :=
    { engine := 0, dest := node, typ := 0x10, way := gr.group % 2, alt := false, again := resend, epoch := s.mem.epoch, step := gr.step,
      body := setBody l gr role resend, key := setKey gr role }
  (s.bump 0x5040 0x01 1).enqueue w

/-- The roles of a layout. -/
def rolesOf (l : Layout) : List Nat := List.range l.m

/-- Put a group in flight and send its sets to its holders. -/
def launch (l : Layout) (gr : GroupRt) (s : State) : State :=
  let sets : List SetRt := (rolesOf l).map (fun role =>
    { role := role, dest := s.holderNode l gr.position gr.hank gr.group role, acked := false, timedOut := false })
  let gr := { gr with sets := sets }
  let s := { s with card := { s.card with inflight := s.card.inflight ++ [gr] } }
  let s := s.bump 0x5030 0x03 (popCount 8 (zeroMap gr.old gr.new))
  forEach sets (fun x st => st.sendSet l gr x.role x.dest false) s

/-- Change a group in flight. -/
def updGroup (gr : GroupRt) (f : GroupRt → GroupRt) (s : State) : State :=
  { s with card := { s.card with
      inflight := mapIf (fun x => x.position == gr.position && x.hank == gr.hank && x.group == gr.group && x.encode == gr.encode)
        f s.card.inflight } }

/-- Take a group out of flight. -/
def dropGroup (gr : GroupRt) (s : State) : State :=
  { s with card := { s.card with
      inflight := s.card.inflight.filter (fun x =>
        !(x.position == gr.position && x.hank == gr.hank && x.group == gr.group && x.encode == gr.encode)) } }

/-- Resend one unacknowledged set after an epoch change: the send it replaces is superseded (R133, R231). -/
def resendSet (l : Layout) (gr : GroupRt) (x : SetRt) (s : State) : State :=
  let node := s.holderNode l gr.position gr.hank gr.group x.role
  let s := s.freeSets (fun k => k == setKey gr x.role)
  let s := { s with led := { s.led with setsResent := s.led.setsResent + 1 } }
  let again (z : SetRt) : SetRt := { z with dest := node, timedOut := false }
  let s := s.updGroup gr (fun y => { y with sets := mapIf (fun z => z.role == x.role) again y.sets })
  (s.bump 0x5040 0x07 1).sendSet l gr x.role node true

/-- Resend every unacknowledged set of the open step (R133). -/
def resendAll (s : State) : State :=
  match s.code.layout with
  | none => s
  | some l =>
    let todo := s.card.inflight.flatMap (fun gr => (gr.sets.filter (fun x => !x.acked)).map (fun x => (gr, x)))
    forEach todo (fun x st => st.resendSet l x.1 x.2) s

/-! ## Views (R46, R115) -/

/-- The bytes of a region of a VIEW hank. -/
def viewBytesOf (d : Desc) (region : Nat) : Nat :=
  if d.viewFormat ≤ 2 then (if region = 0 then d.count else 0)
  else if region = 0 then ceilDiv d.count 2 else ceilDiv d.count 32

/-- Elements per byte of a region of a VIEW hank in its own order. -/
def viewElems (d : Desc) (region : Nat) : Nat :=
  if d.viewFormat ≤ 2 then 1 else if region = 0 then 2 else 32

/-- The groups of the source that cover stripe `t` of a region of a VIEW that is written with its groups. -/
def viewGroups (d : Desc) (region t : Nat) : List Nat :=
  let e0 := t * Config.stripe * viewElems d region
  let e1 := min d.count ((t + 1) * Config.stripe * viewElems d region)
  if e1 ≤ e0 then [] else (List.range ((e1 - 1) / 2048 + 1 - e0 / 2048)).map (fun i => e0 / 2048 + i)

/-- The stripes that a write touches. -/
def touchedStripes (off len : Nat) : List Nat := (spanPieces off len).map (fun x => x.1)

/-- Count the view stripes whose last group has been written, and note that they are generated. -/
def viewDone (src : Nat) (v : ViewWrite) (s : State) : State :=
  match s.hank? v.hank with
  | none => s
  | some r =>
    let full := (touchedStripes v.offset v.bytes.length).filter (fun t =>
      (viewGroups r.desc v.region t).all (fun g => s.card.done.contains (s.myPos, src, g)))
    let s := s.bump 0x5030 0x0A full.length
    if r.ungenerated.isEmpty then s
    else s.updHank v.hank (fun r => { r with
      ungenerated := r.ungenerated.filter (fun u => !(u.1 == v.region && full.contains u.2)) })

/-- The pages whose bytes a group's commit changes. -/
def commitPages (s : State) (gr : GroupRt) : List PageKey :=
  spanPages s.C gr.hank 0 (gr.group * Config.stripe) Config.stripe ++
    (gr.views.filter (fun v => v.region == 0)).flatMap (fun v => spanPages s.C v.hank 0 v.offset v.bytes.length)

/-! ## Fill sets (R173, R178, R186) -/

/-- Send a fill set of a group to a node. -/
def sendFill (node kind pos h g step : Nat) (stripes : List Bytes) (s : State) : State :=
  let body := toLE 2 h ++ toLE 1 pos ++ toLE 1 stripes.length ++ toLE 4 g ++ toLE 1 kind ++ zeros 7 ++ stripes.flatten
  let w : ReqWait :=
    { engine := 0, dest := node, typ := 0x19, way := g % 2, alt := false, again := false, epoch := s.mem.epoch, step := step, body := body,
      key := [kind, pos, h, g] }
  (s.bump 0x5050 0x0E 1).enqueue w

/-- The spare that fills for a lost position: the node the epoch in effect names there (R173). -/
def spareFor (s : State) (pos : Nat) : Option Nat :=
  let n := s.nodeAt pos
  if s.isLost pos && n != 0xFFFF then some n else none

/-! ## Commit (R95, R98, R228) -/

/-- A repair that waited for the carder's write is over (R435). -/
def healByCommit (pos h g : Nat) (s : State) : State :=
  let mine (r : RepairRt) : Bool := r.position == pos && r.hank == h && r.group == g
  let n := (s.scrub.repairs.filter mine).length
  if n = 0 then s
  else State.bump 0x50C0 0x11 n { s with scrub := { s.scrub with repairs := s.scrub.repairs.filter (fun r => !mine r) } }

/-- Note the hall time of the last commit in the frame trace (R386). -/
def traceCommit (s : State) : State :=
  let n := s.fr.step
  let t := s.now
  let tr := s.house.trace.map (fun (e : TraceEnt) => if e.step == n then { e with lastCommit := t } else e)
  { s with house := { s.house with trace := tr } }

/-- Commit a group of this member's own shard. -/
def commitOwn (r : HankRt) (gr : GroupRt) (s : State) : State :=
  let g := gr.group
  let n := groupSize r.desc g
  let s := s.writeGroup r g gr.new
  let s := forEach (groupStripesOf r.desc g) (fun x st =>
    st.clearKey (st.planeKey r x.1.1 (planeStripe g x.1) g)) s
  let s := forEach gr.views (fun v st => st.writeView v) s
  let d := sub64 (groupHash r.desc gr.hank g gr.new) (groupHash r.desc gr.hank g gr.old)
  let s := s.updHank gr.hank (fun r => { r with digest := add64 r.digest d })
  let s := s.dropGroup gr
  let s := { s with
    card := { s.card with done := s.card.done ++ [(gr.position, gr.hank, g)] }
    led := { s.led with committed := s.led.committed + n } }
  let s := (s.bump 0x5030 0x01 1).bump 0x5030 0x02 n
  let s := forEach gr.views (fun v st => st.viewDone gr.hank v) s
  let s : State := (s.healByCommit gr.position gr.hank g).traceCommit
  if 2 ≤ s.loss.evac then s.sendFill s.loss.evacTarget 1 gr.position gr.hank g gr.step gr.new else s

/-- The inherited hank that takes an adopted group, with the group's rank there (R220). -/
def inheritance (s : State) (l : Layout) (pos h g : Nat) : Option (HankRt × Nat) :=
  match s.planEff with
  | none => none
  | some p =>
    match p.skein with
    | none => none
    | some k =>
      match k.inherits.find? (fun e => e.lostPosition == pos && e.lostHank == h) with
      | none => none
      | some e =>
        match s.hank? e.localHank with
        | some r =>
          if r.state = 1 then
            let mine := s.loss.adopted.filter (fun a => a.position == pos && a.hank == h && a.heir == l.position && a.group < g)
            some (r, mine.length)
          else none
        | none => none

/-- The pages of an inherited hank that an adopted group's commit changes (R296). -/
def inheritPages (s : State) (l : Layout) (pos h g : Nat) : List PageKey :=
  match s.inheritance l pos h g with
  | some (r, rank) => spanPages s.C r.hank 0 (rank * Config.stripe) Config.stripe
  | none => []

/-- Write an adopted group's stripes into its inherited hank. -/
def fillInherited (l : Layout) (pos h g : Nat) (bs : List Bytes) (s : State) : State :=
  match s.inheritance l pos h g with
  | some (r, rank) =>
    let s := s.writeGroup r rank bs
    s.updHank r.hank (fun r => { r with
      inheritedDone := if r.inheritedDone.contains rank then r.inheritedDone else r.inheritedDone ++ [rank] })
  | none => s

/-- The descriptor an adopted group follows: this member's hank of the same number with the lost member's element count. -/
def lostDesc (s : State) (l : Layout) (pos h : Nat) : Desc :=
  let e := (l.hanks.find? (fun x => x.1 == h)).getD (h, 0, 0)
  match s.hank? h with
  | some r => { r.desc with planes := e.2.1, formats := e.2.2, count := l.elems pos h }
  | none =>
    { cls := 1, state := 2, household := 0, job := 0, flags := 0, planes := e.2.1, formats := e.2.2, viewFormat := 0,
      program := 0, tierPolicy := 0, source := 0, rows := 0, cols := 0, count := l.elems pos h, bases := [], maskA := 0, maskB := 0 }

/-- Add a committed adopted group to this heir's sums for the adoption report (Table 6.5). -/
def addPart (l : Layout) (pos h g step : Nat) (bs : List Bytes) (s : State) : State :=
  let d := s.lostDesc l pos h
  let n := groupSize d g
  let hash := groupHash d h g bs
  let isIt (r : ReportRt) : Bool := r.position == pos && r.step == step && r.hank == h
  let fresh : ReportRt :=
    { position := pos, step := step, epoch := s.mem.epoch, heir := l.position, hank := h, flags := 0, groups := 0, digest := 0, touched := 0,
      committed := 0, unrecoverable := [] }
  let parts := if s.loss.parts.any isIt then s.loss.parts else s.loss.parts ++ [fresh]
  let add (r : ReportRt) : ReportRt :=
    { r with groups := r.groups + 1, digest := add64 r.digest hash, touched := r.touched + n, committed := r.committed + n }
  { s with loss := { s.loss with parts := mapIf isIt add parts } }

/-- Write an adopted group to the reserve: it is materialized at the step (R157, R158). -/
def storeAdopted (l : Layout) (pos h g step : Nat) (bs : List Bytes) (s : State) : State :=
  let n := groupSize (s.lostDesc l pos h) g
  let s := s.writeReserve l pos h g bs
  let s := forEach (s.reserveKeys l pos h g) (fun k st => st.clearKey (k.2, false)) s
  let at_ (a : AdoptRt) : AdoptRt := { a with atStep := some step }
  let ad := mapIf (fun (a : AdoptRt) => a.position == pos && a.hank == h && a.group == g) at_ s.loss.adopted
  let s := { s with
    loss := { s.loss with adopted := ad }
    card := { s.card with done := s.card.done ++ (if step = s.fr.step then [(pos, h, g)] else []) }
    led := { s.led with committed := s.led.committed + n } }
  let s := ((s.bump 0x5030 0x01 1).bump 0x5030 0x02 n).addPart l pos h g step bs
  let s := (s.fillInherited l pos h g bs).traceCommit
  match s.spareFor pos with
  | some node => s.sendFill node 0 pos h g step bs
  | none => s

/-- Commit a group once every acknowledgement is in and no die holds a stale copy (R98, R296). A fenced or frayed member commits
nothing. -/
def tryCommit (gr : GroupRt) (s : State) : State :=
  if s.fenced || s.loss.frayed || gr.encode || !gr.sets.all (fun x => x.acked) then s
  else
    match s.code.layout with
    | none => s
    | some l =>
      if gr.position = l.position then
        match s.hank? gr.hank with
        | none => s
        | some r =>
          let ks := s.commitPages gr
          if s.coherent ks none then s.commitOwn r gr else s.invalidate ks none
      else
        let ks := s.inheritPages l gr.position gr.hank gr.group
        if s.coherent ks none then
          ((s.dropGroup gr).storeAdopted l gr.position gr.hank gr.group gr.step gr.new).healByCommit gr.position gr.hank gr.group
        else s.invalidate ks none

/-- Try every group whose acknowledgements are in: used when an invalidation is acknowledged. -/
def retryCommits (s : State) : State := forEach s.card.inflight (fun gr st => st.tryCommit gr) s

/-! ## Acknowledgements (R98, R132, R231) -/

/-- Count an acknowledgement once per set. -/
def countAck (gr : GroupRt) (role : Nat) (s : State) : State :=
  let k := (gr.position, gr.hank, role + 2 * gr.encode.toNat + 4 * gr.step, gr.group)
  if s.led.ackedSets.contains k then s
  else { s with led := { s.led with setsAcked := s.led.setsAcked + 1, ackedSets := s.led.ackedSets ++ [k] } }

/-- A group whose encode sets are both acknowledged is encoded (R137). -/
def encodeDone (gr : GroupRt) (s : State) : State :=
  let s := s.dropGroup gr
  if gr.position = s.myPos then
    s.updHank gr.hank (fun r => { r with encodeWait := r.encodeWait.filter (fun g => g != gr.group) })
  else s

/-- A set is acknowledged with code 0 or 1. -/
def ackSet (gr : GroupRt) (role : Nat) (s : State) : State :=
  let s := s.countAck gr role
  let gr1 := { gr with sets := mapIf (fun x => x.role == role) (fun x => { x with acked := true }) gr.sets }
  let s := s.updGroup gr (fun _ => gr1)
  if gr.encode then (if gr1.sets.all (fun x => x.acked) then s.encodeDone gr1 else s) else s.tryCommit gr1

/-- A delta acknowledgement arrives (R135): codes 2 and 3 leave the set unacknowledged and are logged; the event's detail names hank and
group, with the code above the group (log 161). -/
def onDeltaAck (m : HeldMsg) (s : State) : State :=
  match s.openReq m.request with
  | none => s
  | some r =>
    if r.typ != 0x10 || fld 0 2 m.body != fld 0 2 r.body || fld 2 1 m.body != fld 2 1 r.body ||
        fld 4 4 m.body != fld 8 4 r.body then s
    else if fld 3 1 m.body ≥ 2 then
      s.note 0x5040 0x05 (hankDetail (fld 0 2 r.body) (fld 3 1 m.body * 2 ^ 32 + fld 8 4 r.body))
    else
      let gr? := s.card.inflight.find? (fun x => setKey x (natAt r.key 2) == r.key)
      let s := s.freeReq r.engine r.entry
      match gr? with
      | some gr => s.ackSet gr (natAt r.key 2)
      | none => s

/-- A set has gone unacknowledged past the timeout: counted once, with an event, and not resent (R132). -/
def ackTimeout (h role g pos : Nat) (s : State) : State :=
  let isIt (x : GroupRt) : Bool := x.position == pos && x.hank == h && x.group == g &&
    x.sets.any (fun y => y.role == role && !y.acked && !y.timedOut)
  match s.card.inflight.find? isIt with
  | none => s
  | some gr =>
    State.countNote 0x5040 0x08 (hankDetail h g)
      (s.updGroup gr (fun x => { x with sets := mapIf (fun y => y.role == role) (fun y => { y with timedOut := true }) x.sets }))

/-! ## The carder takes up a group (R95) -/

/-- A policy allows a tier for a hank. -/
def allows (s : State) (d : Desc) (tier : Nat) : Bool :=
  match s.policyOf d with
  | some q => bit q.tiers tier
  | none => tier == 0

/-- A hank is paged: a heat-moved class with a policy that allows a tier other than the hearth (R274). -/
def paged (s : State) (d : Desc) : Bool := 4 ≤ d.cls && d.cls ≤ 7 && (s.allows d 1 || s.allows d 2)

/-- The plan in effect gives the mover a share: it has a mover budget or a paged hank (R29, R286). -/
def planMoves (s : State) (p : Plan) : Bool := 0 < p.frame.moverBytes || p.descs.any (fun d => d.cls != 0 && s.paged d)

/-- Bobbin entries of the carder's share on one channel: the whole ring less the mover's 16 where the plan has a share for it (R31,
Table 10.7). -/
def bobbinShare (s : State) : Nat :=
  match s.planEff with
  | some p => if s.planMoves p then 240 else 256
  | none => 256

/-- Bobbin entries in use on a channel. The manual does not say whether a stripe of the last group beyond its plane takes one; here every
stripe of the record does (DESIGN CHOICE, log 182). -/
def bobbinUsed (s : State) (ch : Nat) : Nat :=
  sumL ((s.card.inflight.filter (fun x => !x.encode && x.group % s.C == ch)).map (fun x => x.new.length))

/-- The drain cursor has passed a group of this member (R181): every stripe of it has been read into the send queue. -/
def drainPassed (s : State) (h g : Nat) : Bool :=
  match s.loss.drain with
  | some d =>
    if d.step = s.fr.step && d.stage ≤ 1 then
      d.layout.chanPlace s.C d.layout.position h g 0 + d.layout.sOf h ≤ natAt d.next (g % s.C)
    else true
  | none => true

/-- The copy cursor has passed a group (R178). -/
def copyPassed (s : State) (h g : Nat) : Bool :=
  match s.loss.copy with
  | some c => s.fr.step ≤ c.step || !c.todo.contains (h, g)
  | none => true

/-- A group is held because its results disagreed (R381). -/
def disagrees (s : State) (pos h g : Nat) : Bool := s.card.heldGroups.contains (pos, h, g, 2)

/-- The waits of R95, R137, R166, R171 and R222 that a group of this member must have behind it, but for the roll-call epoch and
the bobbin. -/
def groupReady (s : State) (r : HankRt) (g : Nat) : Bool :=
  let pos := s.myPos
  s.fr.opened && s.fr.rcSeen && s.fr.phase == .update && !s.fenced && !s.loss.frayed && r.desc.cls == 1 && r.state == 2 &&
    g < groupsOf r.desc.count && !s.card.done.contains (pos, r.hank, g) && (s.inflight? pos r.hank g).isNone &&
    !r.encodeWait.contains g && s.drainPassed r.hank g && s.copyPassed r.hank g && !s.underRepair pos r.hank g &&
    !s.disagrees pos r.hank g && !s.tier.padDue.contains r.hank

/-- A group waits for the switch of its home, which counts once a step (Table 4.1, 0x5030.0C). -/
def holdMoving (pos h g : Nat) (s : State) : State :=
  let k := (pos, h, g, 3)
  if s.card.heldGroups.contains k then s
  else State.bump 0x5030 0x0C 1 { s with card := { s.card with heldGroups := s.card.heldGroups ++ [k] } }

/-- A group whose read met an uncorrectable stripe will be read again (Table 4.11). -/
def noteReread (pos h g : Nat) (s : State) : State :=
  { s with card := { s.card with heldGroups := s.card.heldGroups.filter (fun x => x != (pos, h, g, 4)) ++ [(pos, h, g, 4)] } }

/-- Groups are read that had waited for a repair: they count as read again. -/
def countReread (p : Nat × Nat × Nat × Nat → Bool) (s : State) : State :=
  let isIt (x : Nat × Nat × Nat × Nat) : Bool := x.2.2.2 == 4 && p x
  State.bump 0x5030 0x08 (s.card.heldGroups.filter isIt).length
    { s with card := { s.card with heldGroups := s.card.heldGroups.filter (fun x => !isIt x) } }

/-- Hold a group whose mask is unreadable in both copies (R61, R114). -/
def holdMask (pos : Nat) (h g : Nat) (s : State) : State :=
  let k := (pos, h, g, 1)
  if s.card.heldGroups.contains k then s
  else State.bump 0x5030 0x09 1 { s with card := { s.card with heldGroups := s.card.heldGroups ++ [k] } }

/-- Mark a mask stripe of a copy unreadable: with both copies so, it counts and raises an event naming hank and stripe (R61). -/
def markMask (h copy t : Nat) (s : State) : State :=
  match s.hank? h with
  | none => s
  | some r =>
    if r.maskBad.contains (copy, t) then s
    else
      let s := s.updHank h (fun r => { r with maskBad := r.maskBad ++ [(copy, t)] })
      if r.maskBad.contains (1 - copy, t) then s.countNote 0x5010 0x0A (hankDetail h t) else s

/-- Read the mask bits of a group's owner hank as the carder does: the first readable copy, whose blocks the controllers answer. An
unreadable first copy is counted in 0x5010.09 (Table 2.10). -/
def readMask (r : HankRt) (g : Nat) (mem : MemAns) (s : State) : State :=
  if !r.desc.masked then s
  else
    let t := maskStripe g
    let s := s.takeMem mem (s.maskBlocks r 0 g)
    if !s.maskCopyBad r 0 t then s
    else
      let s := (s.markMask r.hank 0 t).takeMem mem (s.maskBlocks r 1 g)
      if s.maskCopyBad r 1 t then s.markMask r.hank 1 t else s.bump 0x5010 0x09 1

/-- A fault can be found while a group of a channel is computed: one of an enabled lane of the channel, or of a spindle that is sampled. -/
def foundOn (s : State) (ch : Nat) (f : UnitFault) : Bool :=
  s.unitRuns f && (match f with
    | .lane c _ => c.toNat == ch
    | .spindle _ => true)

/-- What the shadow lane of a group's channel and the spindles' samples find while the group of a position is computed (R381); false where
the results of two lanes disagree, which leaves the group held. -/
def shadow (faults : List UnitFault) (pos h g : Nat) (s : State) : State × Bool :=
  let faults := faults.filter (s.foundOn (g % s.C))
  let s := forEach faults (fun f st => st.unitFault f) s
  let lanes := (faults.filter (fun f => match f with
    | .lane _ _ => true
    | .spindle _ => false)).length
  if 2 ≤ lanes then
    (State.note 0x50D0 0x0E (hankDetail h (Config.groupElems * g + 37 * g % 2048))
      { s with card := { s.card with heldGroups := s.card.heldGroups ++ [(pos, h, g, 2)] } }, false)
  else (s, true)

/-- Compute a group and send its sets (R95); `faults` are the mismatches that the shadow lane finds (R381). -/
def computeGroup (l : Layout) (r : HankRt) (g : Nat) (grads : List W32) (mask : Option (List Bool)) (faults : List UnitFault)
    (s : State) : State :=
  let (s, agree) := s.shadow faults l.position r.hank g
  if !agree then s
  else
    let old := s.readGroup r g
    let hi := s.hankIn r.hank r.desc.planes r.desc.formats r.desc.program (s.viewsOf r.hank)
    let o := updateGroup hi g (elemsIn r.desc.count g) old grads mask
    let s := (s.countOut o).countWords hi (elemsIn r.desc.count g)
    let s := { s with led := { s.led with touched := s.led.touched + groupSize r.desc g } }
    let gr : GroupRt :=
      { position := l.position, hank := r.hank, group := g, step := s.fr.step, encode := false, old := old, new := o.stripes,
        views := o.views, sets := [] }
    s.launch l gr

/-- The step's carder work waits for the roll-call epoch (R208). -/
def waitEpoch (s : State) : State :=
  if s.fr.epochWaitCounted then s
  else State.bump 0x5060 0x15 1 { s with fr := { s.fr with epochWaitCounted := true } }

/-- A gradient block that cannot be read is an absent input: its elements take +0.0 (R349, R79; log 24). -/
def zeroBadGrads (s : State) (h count g : Nat) (gs : List W32) : List W32 :=
  if s.scrub.badBlocks.isEmpty then gs
  else
    gs.zipIdx.map (fun v =>
      let e := Config.groupElems * g + v.2
      match s.gradSite h e with
      | some x =>
        if e < count && s.spanBad (s.regionBase x.slotHank) (x.gradOff + 4 * (e - x.firstElem)) 4 then 0 else v.1
      | none => v.1)

/-- CARDER_GROUP_START: a group whose waits are met is read, updated, masked and its delta sets sent (R95). The pass of a channel whose
table bank is being copied again waits (Table 15.3). -/
def carderStart (h g : Nat) (mem : MemAns) (faults : List UnitFault) (s : State) : State :=
  match s.hank? h, s.code.layout with
  | some r, some l =>
    if !s.groupReady r g || s.whorl.badBanks.contains (g % s.C) then s
    else if s.groupMoves h g then s.holdMoving l.position h g
    else if s.mem.epoch < s.fr.eN then s.waitEpoch
    else if s.bobbinShare < s.bobbinUsed (g % s.C) + stripesPerGroup r.desc.planes r.desc.formats then s
    else
      match s.gradient h r.desc.count g with
      | none => s
      | some _ =>
        let s := s.countReread (fun x => x.1 == l.position && x.2.1 == h && x.2.2.1 == g)
        let s := ((s.askGroup mem r g).takeMem mem (s.gradBlocks h r.desc.count g)).readMask r g mem
        let bad := s.badStripes r g
        if !bad.isEmpty then forEach bad (fun p st => st.addRepair l.position h g p) (s.noteReread l.position h g)
        else
          match s.hank? h with
          | none => s
          | some r =>
            match s.groupMask r g, s.gradient h r.desc.count g with
            | some mask, some grads => s.computeGroup l r g (s.zeroBadGrads h r.desc.count g grads) mask faults
            | _, _ => s.holdMask l.position h g
  | _, _ => s

/-! ## Initial encode (R137, R201, R229) -/

/-- Every position of the member table is confirmed with state 1, 2 or 3, where the plan forms or re-codes (R201). -/
def confirmedAll (s : State) : Bool :=
  match s.planEff with
  | some p => match p.skein with
    | some k => k.flags % 4 == 0 ||
        (List.range k.n).all (fun i => i == k.position || bit s.mem.confirmedLive i)
    | none => true
  | none => true

/-- Read a group for the encode and send its sets. -/
def encodeGroup (l : Layout) (r : HankRt) (g : Nat) (s : State) : State :=
  let bs := s.readGroup r g
  let gr : GroupRt :=
    { position := l.position, hank := r.hank, group := g, step := s.fr.step, encode := true,
      old := bs.map (fun b => zeros b.length), new := bs, views := [], sets := [] }
  s.launch l gr

/-- INITIAL_ENCODE_START: the sets of every group of the hank that wait are sent, and the digest is formed from the reads. A group
with an unreadable stripe is left for the scrubber. -/
def encodeStart (h : Nat) (mem : MemAns) (s : State) : State :=
  match s.hank? h, s.code.layout with
  | some r, some l =>
    if r.desc.cls != 1 || r.state != 2 || r.encodeSent || r.encodeWait.isEmpty || !s.confirmedAll || s.fenced ||
        s.loss.frayed || !s.fr.opened || s.tier.padDue.contains h then s
    else
      let sent (st : State) (g : Nat) : Bool := st.card.inflight.any (fun x => x.encode && x.hank == h && x.group == g)
      let todo := r.encodeWait.filter (fun g => !sent s g)
      let s := forEach todo (fun g st => st.askGroup mem r g) s
      let one (g : Nat) (st : State) : State :=
        let bad := st.badStripes r g
        if bad.isEmpty then st.encodeGroup l r g else forEach bad (fun p st => st.addRepair l.position h g p) st
      let s := forEach todo one s
      let digest := (List.range (groupsOf r.desc.count)).foldl (fun a g =>
        add64 a (groupHash r.desc h g (s.readGroup r g))) 0
      let all := todo.all (fun g => sent s g)
      s.updHank h (fun r => { r with digest := digest, encodeSent := all })
  | _, _ => s

end State

end Sys2Proof.Machine
end

