-- ==== Sys2Proof/Machine/Holder.lean ====
section
/-! DEFINITION. The ply holder (chapter 5): tags, delta sets by Table 5.5, ply and stripe reads, the recompute of a band role. -/

namespace Sys2Proof.Machine

namespace State

/-! ## Tags (R128) -/

/-- The tag of a slot. -/
def tag (s : State) (h b x role slot : Nat) : Nat :=
  match s.code.tags.find? (fun t => t.hank == h && t.band == b && t.residue == x && t.role == role && t.slot == slot) with
  | some t => t.bits
  | none => 0

/-- Put a tag; 0b00 is the tag of a slot with no entry. Its 2 bits are a part of a word (R427). -/
def setTag (h b x role slot bits : Nat) (s : State) : State :=
  let rest := s.code.tags.filter (fun t =>
    !(t.hank == h && t.band == b && t.residue == x && t.role == role && t.slot == slot))
  let t : TagRt := { hank := h, band := b, residue := x, role := role, slot := slot, bits := bits }
  State.mergeAt [1, h, b, x, role] { s with code := { s.code with tags := rest ++ (if bits = 0 then [] else [t]) } }

/-- A valid tag: data stand at a known parity. -/
def tagValid (t : Nat) : Bool := 2 ≤ t

/-- The tag of a parity. -/
def tagOf (step : Nat) : Nat := 2 + step % 2

/-- The tag word of a band in a role (Table 5.6). -/
def tagWord (s : State) (l : Layout) (h b x role : Nat) : Nat :=
  sumL ((List.range l.k).map (fun i => s.tag h b x role i * 4 ^ i))

/-- The tag of a slot in a tag word. -/
def wordTag (w i : Nat) : Nat := w / 4 ^ i % 4

/-- Every tag of a band in a role is 0b00. -/
def bandEmpty (s : State) (h b x role : Nat) : Bool :=
  !s.code.tags.any (fun t => t.hank == h && t.band == b && t.residue == x && t.role == role)

/-- Where a stripe of this member's own ply store lies; none for one of a role taken over. -/
def plyKey (s : State) (l : Layout) (h lap x role : Nat) : Option (Nat × Bool) :=
  if l.holder x role != l.position then none else some (s.ownPlyKey l h lap role)

/-- Read a ply stripe where it lies. -/
def askPlyStripe (l : Layout) (h lap x role : Nat) (s : State) : State :=
  match s.plyKey l h lap x role with
  | some k => s.askKey k
  | none => s

/-- A ply stripe of a band in a role is known to be uncorrectable. -/
def plyBad (s : State) (l : Layout) (h lap x role : Nat) : Bool :=
  match s.plyKey l h lap x role with
  | some k => s.keyBad k
  | none => false

/-- A ply stripe that has been written is good again. -/
def plyGood (l : Layout) (h lap x role : Nat) (s : State) : State :=
  match s.plyKey l h lap x role with
  | some k => s.clearKey k
  | none => s

/-- The ply stripes of a lap are being copied to their new home (R288). -/
def plyMoves (s : State) (l : Layout) (h lap : Nat) : Bool :=
  s.tier.homeMvs.any (fun m => m.hank == h && m.ply && m.index == lap - l.baseLap h)

/-! ## Recompute of a band role (R142) -/

/-- The node asked for a data slot of a band: the owner, or the heir of a lost owner's group; none for a hole. -/
def slotSource (s : State) (l : Layout) (h b x slot : Nat) : Option (Nat × Nat × Nat) :=
  match (l.owners x)[slot]? with
  | none => none
  | some j =>
    match l.groupIn j h b x with
    | none => none
    | some g =>
      if s.isLost j then
        match s.adoption j h g with
        | some a => some (j, g, s.nodeAt a.heir)
        | none => some (j, g, 0xFFFF)
      else some (j, g, s.nodeAt j)

/-- Ask for one stripe of a slot (Table 5.6), on the way of bit 0 of the plane's stripe index. The key begins with what the answer
is for: 1 a recompute, 2 an adopted group, 3 a repair or host read. -/
def askStripe (l : Layout) (node h p parity g : Nat) (key : List Nat) (s : State) : State :=
  let body := toLE 2 h ++ toLE 1 p ++ toLE 1 parity ++ toLE 4 g
  let t := match (l.stripes h)[p]? with
    | some pl => planeStripe g pl
    | none => 0
  s.request 1 0x17 node (t % 2) body key

/-- Ask for one ply stripe, on the way of bit 0 of its lap. -/
def askPly (node h role x lap : Nat) (key : List Nat) (s : State) : State :=
  let body := toLE 2 h ++ toLE 1 role ++ toLE 1 x ++ toLE 4 lap
  s.request 1 0x16 node (lap % 2) body key

/-- The request key of a recompute's stripe. -/
def recompKey (h b x role slot p : Nat) : List Nat := [1, h, b, x, role, slot, p]

/-- Ask for the stripes a recompute still wants and has not open. -/
def askRecomp (l : Layout) (r : RecompRt) (s : State) : State :=
  forEach r.want (fun w st =>
    let key := recompKey r.hank r.band r.residue r.role w.1 w.2
    let isOpen := st.fx.reqs.any (fun q => q.key == key) || st.fx.waitQ.any (fun q => q.key == key)
    match st.slotSource l r.hank r.band r.residue w.1 with
    | some (_, g, node) => if isOpen || node = 0xFFFF then st else st.askStripe l node r.hank w.2 0xFF g key
    | none => st) s

/-- Change the recompute of a band role. -/
def updRecomp (r : RecompRt) (f : RecompRt → RecompRt) (s : State) : State :=
  { s with code := { s.code with
      recomps := mapIf (fun y => y.hank == r.hank && y.band == r.band && y.residue == r.residue && y.role == r.role) f
        s.code.recomps } }

/-- The bytes of a slot's stripe in a recompute. -/
def gotStripe (r : RecompRt) (slot p : Nat) : Option (Nat × Bytes) :=
  (r.got.find? (fun g => g.1 == slot && g.2.1 == p)).map (fun g => (g.2.2.1, g.2.2.2))

/-- The ply of one stripe number from the stripes got (R122). -/
def formPly (l : Layout) (r : RecompRt) (p : Nat) : Bytes :=
  (List.range l.k).foldl (fun a i =>
    match gotStripe r i p with
    | some (_, bs) => xorB a (if r.role = 0 then bs else Gf.mulB (Gf.gpow i) bs)
    | none => a) (zeros Config.stripe)

/-- Store the plies of a finished recompute with their tags (R142). -/
def finishRecomp (l : Layout) (r : RecompRt) (s : State) : State :=
  let lap0 := l.baseLap r.hank + l.sOf r.hank * r.band
  let s := forEach (List.range (l.sOf r.hank)) (fun p st =>
    (st.writePly l r.hank (lap0 + p) r.residue r.role (formPly l r p)).plyGood l r.hank (lap0 + p) r.residue r.role) s
  let s := forEach (List.range l.k) (fun i st =>
    st.setTag r.hank r.band r.residue r.role i (match gotStripe r i 0 with
      | some (par, _) => 2 + par % 2
      | none => 0)) s
  let s := { s with code := { s.code with
    recomps := s.code.recomps.filter (fun y =>
      !(y.hank == r.hank && y.band == r.band && y.residue == r.residue && y.role == r.role)) } }
  (s.bump 0x5040 0x0C 1).bump 0x5040 0x11 (beatsOf r.got.length)

/-- Start the recompute of a band role: its tags are 0b01 until it ends (R142). -/
def startRecomp (l : Layout) (h b x role : Nat) (s : State) : State :=
  if s.code.recomps.any (fun r => r.hank == h && r.band == b && r.residue == x && r.role == role) then s
  else
    let slots := (List.range l.k).filter (fun i => (s.slotSource l h b x i).isSome)
    let want := slots.flatMap (fun i => (List.range (l.sOf h)).map (fun p => (i, p)))
    let r : RecompRt := { hank := h, band := b, residue := x, role := role, got := [], want := want }
    let s := forEach (List.range l.k) (fun i st => st.setTag h b x role i 1) s
    let s := { s with code := { s.code with recomps := s.code.recomps ++ [r] } }
    -- a band with holes alone has nothing to wait for
    if want.isEmpty then s.finishRecomp l r else s.askRecomp l r

/-! ## Delta sets at the holder (R135, Table 5.5) -/

/-- Acknowledge a set (Table 5.4). -/
def ackTo (m : HeldMsg) (code : Nat) (s : State) : State :=
  let b := m.body
  s.reply m 0x11 (b.take 3 ++ toLE 1 code ++ sub 8 4 b ++ sub 12 4 b ++ zeros 4)

/-- The owner position a set is for, when this member holds the role of its rows and the slot and lap are right: the sender's own
group first, then a lost owner's group (R159). -/
def setOwner (s : State) (l : Layout) (src h role slot g lap : Nat) : Option Nat :=
  let fits (j : Nat) : Bool :=
    let p := groupPlace l j h g
    g < l.groups j h && p.slot == slot && p.lap == lap && s.roleHolder l h p.band p.residue role == l.position
  match s.posOf src with
  | none => none
  | some ps => (ps :: (bitsOf 16 s.loss.lost).filter (fun j => j != ps)).find? fits

/-- The heir that a lost owner's set must come from (R159). -/
def rightSource (s : State) (j src h g : Nat) : Bool :=
  if s.isLost j then
    match s.adoption j h g with
    | some a => s.nodeAt a.heir == src
    | none => false
  else s.nodeAt j == src

/-- Hold a set for later, with why (orders 2 and 5, Table 10.6). -/
def holdSet (why : Nat) (m : HeldMsg) (s : State) : State :=
  { s with code := { s.code with heldSets := s.code.heldSets ++ [(why, m)] } }

/-- Hold a set, counted unless it was held for the same reason before. -/
def holdCounted (idx subi why : Nat) (was : Option Nat) (m : HeldMsg) (s : State) : State :=
  (if was = some why then s else s.bump idx subi 1).holdSet why m

/-- Apply a set: its ply writes and its tag as one action (R123, R136). In a band whose tags are all 0b00 every stripe is written,
onto zeros. -/
def applySet (l : Layout) (h b x role slot lap zmap : Nat) (stripes : List Bytes) (tagStep : Nat) (s : State) : State :=
  let empty := s.bandEmpty h b x role
  let one (acc : State × List Bytes) (p : Nat) : State × List Bytes :=
    let st := acc.1
    if bit zmap p then
      (if empty then (st.writePly l h (lap + p) x role (zeros Config.stripe)).plyGood l h (lap + p) x role else st, acc.2)
    else
      let d := acc.2.headD []
      let old := if empty then zeros Config.stripe else st.readPly l h (lap + p) x role
      let new := xorB old (if role = 0 then d else Gf.mulB (Gf.gpow slot) d)
      ((st.writePly l h (lap + p) x role new).plyGood l h (lap + p) x role, acc.2.drop 1)
  let s := ((List.range (l.sOf h)).foldl one (s, stripes)).1
  (s.setTag h b x role slot (tagOf tagStep)).bump 0x5040 0x11 (beatsOf stripes.length)

/-- The position whose group a delta set is for, where its fields name a LIVE STATE hank and a role of the layout. -/
def setFor (m : HeldMsg) (l : Layout) (s : State) : Option Nat :=
  let b := m.body
  let h := fld 0 2 b
  let live := match s.hank? h with
    | some r => r.desc.cls == 1 && r.state == 2
    | none => false
  if live && fld 4 1 b == l.sOf h && fld 2 1 b < l.m then s.setOwner l m.source h (fld 2 1 b) (fld 3 1 b) (fld 8 4 b) (fld 12 4 b)
  else none

/-- A set of the step before for a lost owner's group, from the heir that completes that step after this member has sealed it (R171,
log 25). -/
def carried (s : State) (m : HeldMsg) : Bool :=
  m.step + 1 == s.fr.step && s.fr.opened &&
    match s.code.layout with
    | none => false
    | some l => match s.setFor m l with
      | some j => s.isLost j && s.loss.carry.contains (j, m.step) && s.rightSource j m.source (fld 0 2 m.body) (fld 8 4 m.body)
      | none => false

/-- Order 9 of Table 5.5: the set is applied to the ply stripes of its band, read first unless the band is empty. Where one of
them cannot be read the band is recomputed, and the set waits under order 5. The flag tells whether it was applied. -/
def takeSet (m : HeldMsg) (was : Option Nat) (l : Layout) (p : GroupPlace) (s : State) : State × Bool :=
  let b := m.body
  let h := fld 0 2 b
  let role := fld 2 1 b
  let lap := fld 12 4 b
  let enc := bit (fld 6 1 b) 0
  let empty := s.bandEmpty h p.band p.residue role
  let s := if empty then s
    else forEach ((List.range (l.sOf h)).filter (fun i => !bit (fld 5 1 b) i)) (fun i st => st.askPlyStripe l h (lap + i) p.residue role) s
  if !empty && (List.range (l.sOf h)).any (fun i => s.plyBad l h (lap + i) p.residue role) then
    ((s.startRecomp l h p.band p.residue role).holdCounted 0x5040 0x12 1 was m, false)
  else
    let s := s.applySet l h p.band p.residue role (fld 3 1 b) lap (fld 5 1 b) (pieces Config.stripe (b.drop 16))
      (if enc then m.step + 1 else m.step)
    ((s.bump 0x5040 (if enc then 0x0D else 0x02) 1).ackTo m 0, true)

/-- Orders 3 to 9 of Table 5.5, once no ply page of the set is in transit; `was` tells for what a held set waited. -/
def handleSet (m : HeldMsg) (was : Option Nat) (l : Layout) (s : State) : State × Bool :=
  let b := m.body
  let h := fld 0 2 b
  let role := fld 2 1 b
  let g := fld 8 4 b
  let enc := bit (fld 6 1 b) 0
  if s.fenced || s.loss.frayed then ((s.bump 0x5040 0x05 1).ackTo m 3, false)
  else
    match s.setFor m l with
    | none => ((s.bump 0x5040 0x05 1).ackTo m 2, false)
    | some j =>
      let p := groupPlace l j h g
      let t := s.tag h p.band p.residue role (fld 3 1 b)
      if !s.rightSource j m.source h g then (((s.bump 0x5050 0x15 1).bump 0x5040 0x05 1).ackTo m 2, false)
      else if (List.range (l.sOf h)).any (fun i => s.plyMoves l h (fld 12 4 b + i)) then (s.holdCounted 0x5090 0x0D 2 was m, false)
      else if t = 1 then (s.holdCounted 0x5040 0x12 1 was m, false)
      else if enc && tagValid t then ((s.bump 0x5040 0x03 1).ackTo m 1, false)
      else if !enc && t = 0 then ((s.bump 0x5040 0x05 1).ackTo m 2, false)
      else if tagValid t && t = tagOf m.step then ((s.bump 0x5040 0x03 1).ackTo m 1, false)
      else s.takeSet m was l p

/-- The source of a set or stripe answer is a member of the epoch in effect (R159). -/
def isMember (s : State) (node : Nat) : Bool := (s.posOf node).isSome

/-- A delta set, from order 1 of Table 5.5; `was` for one that was held. The flag tells whether it was applied. -/
def trySet (m : HeldMsg) (was : Option Nat) (s : State) : State × Bool :=
  if !s.isMember m.source then (s.bump 0x5040 0x04 1, false)
  else if m.epoch < s.mem.epoch || (m.step < s.fr.step && !s.carried m) then (s.bump 0x5040 0x04 1, false)
  else if s.mem.epoch < m.epoch || s.fr.step < m.step then (s.holdCounted 0x5040 0x06 0 was m, false)
  else
    match s.code.layout with
    | some l => s.handleSet m was l
    | none => if s.fenced then ((s.bump 0x5040 0x05 1).ackTo m 3, false) else ((s.bump 0x5040 0x05 1).ackTo m 2, false)

/-- A delta set, where no one asks whether it was applied. -/
def onDeltaSet (m : HeldMsg) (was : Option Nat) (s : State) : State := (s.trySet m was).1

/-- Handle every held set again from order 1. -/
def releaseSets (s : State) : State :=
  let q := s.code.heldSets
  forEach q (fun m st => st.onDeltaSet m.2 (some m.1)) { s with code := { s.code with heldSets := [] } }

/-! ## Ply reads (R139, R166, R218, R223) -/

/-- An answer to a ply or stripe read (Table 5.6). -/
def readReply (m : HeldMsg) (status parity tags : Nat) (data : Bytes) (s : State) : State :=
  s.reply m 0x18 (toLE 1 status ++ toLE 1 parity ++ zeros 2 ++ toLE 4 tags ++ data)

/-- The hank's plies are still held: LIVE, or VACATING while the whole member vacates (R216, R218). -/
def pliesHeld (s : State) (h : Nat) : Bool :=
  match s.hank? h with
  | some r => r.desc.cls == 1 && (r.state == 2 || (r.state == 3 && s.mem.vacating.isSome))
  | none => false

/-- The tag word of a band under the old layout of a re-code. -/
def oldTagWord (s : State) (l : Layout) (h b x role : Nat) : Nat :=
  sumL ((List.range l.k).map (fun i =>
    match s.code.oldTags.find? (fun t => t.hank == h && t.band == b && t.residue == x && t.role == role && t.slot == i) with
    | some t => t.bits * 4 ^ i
    | none => 0))

/-- Every old tag of a band in a role is 0b00: its ply stripes count as zero (R128). -/
def oldBandEmpty (s : State) (h b x role : Nat) : Bool :=
  !s.code.oldTags.any (fun t => t.hank == h && t.band == b && t.residue == x && t.role == role)

/-- Read a ply stripe of the old store where it lies. An uncorrectable one leaves the band's old tags at 0b01: no recompute runs under the
old layout (DESIGN CHOICE, log 193). -/
def askOldPly (l : Layout) (h lap b x role : Nat) (s : State) : State :=
  if l.holder x role != l.position then s
  else
    let k := s.oldPlyKey l h lap role
    let s := s.askKey k
    if !s.keyBad k then s
    else
      let isIt (t : TagRt) : Bool := t.hank == h && t.band == b && t.residue == x && t.role == role
      { s with code := { s.code with oldTags := mapIf isIt (fun t => { t with bits := 1 }) s.code.oldTags } }

/-- A read names the epoch in effect before the last re-coding plan: the old store answers it, or after the release status 2 (R223). -/
def readOld (s : State) (m : HeldMsg) : Bool := s.code.oldEpoch == some m.epoch && m.epoch < s.mem.epoch

/-- Answer a ply read under the layout in effect; a band with nothing applied holds zeros (R128). -/
def answerNew (m : HeldMsg) (h role x lap : Nat) (s : State) : State :=
  match s.code.layout with
  | none => s.readReply m 2 0 0 []
  | some l =>
    match l.bandOfLap lap with
    | some (h2, bd, _) =>
      if h2 = h && role < l.m && x < l.n && s.pliesHeld h && s.roleHolder l h bd x role == l.position && !s.readOld m then
        if s.bandEmpty h bd x role then s.readReply m 0 0 0 (zeros Config.stripe)
        else
          let s := s.askPlyStripe l h lap x role
          let s := if s.plyBad l h lap x role then s.startRecomp l h bd x role else s
          s.readReply m 0 0 (s.tagWord l h bd x role) (s.readPly l h lap x role)
      else s.readReply m 2 0 0 []
    | none => s.readReply m 2 0 0 []

/-- Answer a ply read. -/
def answerPly (m : HeldMsg) (s : State) : State :=
  let b := m.body
  let h := fld 0 2 b
  let role := fld 2 1 b
  let x := fld 3 1 b
  let lap := fld 4 4 b
  let s := s.bump 0x5040 0x09 1
  if s.fenced then s.readReply m 3 0 0 []
  else
    match s.code.oldLayout with
    | some o =>
      if s.readOld m then
        match o.bandOfLap lap with
        | some (h2, bd, _) =>
          if h2 = h && role < o.m && x < o.n && s.oldRoleHolder o h bd x role == o.position then
            if s.oldBandEmpty h bd x role then s.readReply m 0 0 0 (zeros Config.stripe)
            else
              let s := s.askOldPly o h lap bd x role
              s.readReply m 0 0 (s.oldTagWord o h bd x role) (s.readOldPly o h lap x role)
          else s.readReply m 2 0 0 []
        | none => s.readReply m 2 0 0 []
      else s.answerNew m h role x lap
    | none => s.answerNew m h role x lap

/-- A ply read: one of an epoch above this member's waits until that epoch applies (R166). -/
def onPlyRead (m : HeldMsg) (s : State) : State :=
  if s.mem.epoch < m.epoch && !s.fenced then { s with code := { s.code with heldReads := s.code.heldReads ++ [m] } }
  else s.answerPly m

/-! ## Stripe reads (R139, R142) -/

/-- The step whose state the committed stripes of a group of this member hold: N once it has committed in the open step, else the
step before; a vacating hank stands where its last update left it. -/
def committedStep (s : State) (r : HankRt) (g : Nat) : Nat :=
  if r.state = 3 then r.encodeStep + 1
  else if s.card.done.contains (s.myPos, r.hank, g) then s.fr.step
  else s.fr.step + 1

/-- What a position's stripe read has now: the parity and bytes for a committed stripe or one in the bobbin. `want` is the parity
asked for, or 0xFF for the committed stripe. -/
def stripeFrom (committed : Option (Nat × Bytes)) (fl : Option GroupRt) (p want : Nat) : Option (Nat × Bytes) :=
  let new := match fl with
    | some gr => [(gr.step % 2, gr.new.getD p [])]
    | none => []
  let old := match fl, committed with
    | some gr, none => [((gr.step + 1) % 2, gr.old.getD p [])]
    | _, _ => []
  let com := match committed with
    | some (par, b) => [(par % 2, b)]
    | none => []
  if want = 0xFF then (com ++ old).head? else (com ++ old ++ new).find? (fun c => c.1 == want % 2)

/-- The positions whose group `g` of hank `h` this member can answer for: its own, and lost ones it has adopted. -/
def readOwners (s : State) (l : Layout) (h g : Nat) : List Nat :=
  let own := match s.hank? h with
    | some r => if r.desc.cls == 1 && (r.state == 2 || r.state == 3) && g < groupsOf r.desc.count then [l.position] else []
    | none => []
  own ++ (s.loss.adopted.filter (fun a => a.hank == h && a.group == g && a.heir == l.position)).map (fun a => a.position)

/-- Answer a stripe read of this member's own group: the committed stripe or one in the bobbin; an uncorrectable stripe is repaired, and the
bobbin still answers what it holds (R435, Table 15.3). -/
def answerOwn (m : HeldMsg) (r : HankRt) (s : State) : State :=
  let h := r.hank
  let p := fld 2 1 m.body
  let want := fld 3 1 m.body
  let g := fld 4 4 m.body
  let fl := s.inflight? s.myPos h g
  match (groupStripes r.desc.planes r.desc.formats)[p]? with
  | none => s.readReply m 2 0 0 []
  | some pl =>
    let t := planeStripe g pl
    let ex := stripeExists r.desc g pl
    let s := if ex then s.askKey (s.planeKey r pl.1 t g) else s
    let bad := ex && s.keyBad (s.planeKey r pl.1 t g)
    let s := if bad && r.state = 2 then s.addRepair s.myPos h g p else s
    let bs := if ex then s.readPlane r pl.1 t g else zeros Config.stripe
    match stripeFrom (if bad then none else some (s.committedStep r g, bs)) fl p want with
    | some (par, bs) => s.readReply m 0 par 0 bs
    | none => s.readReply m 1 0 0 []

/-- Answer a stripe read of an adopted group: from the reserve once it is materialized, where an uncorrectable stripe is repaired, else with
what has been decoded under Table 6.4 (R142, R435). -/
def answerAdopted (m : HeldMsg) (l : Layout) (j : Nat) (s : State) : State :=
  let h := fld 0 2 m.body
  let p := fld 2 1 m.body
  let want := fld 3 1 m.body
  let g := fld 4 4 m.body
  if l.sOf h ≤ p then s.readReply m 2 0 0 []
  else
    let fl := s.inflight? j h g
    match s.adoption j h g with
    | some { atStep := some st, .. } =>
      let key := (s.reserveKeys l j h g).find? (fun k => k.1 == p)
      let s := match key with
        | some k => s.askKey (k.2, false)
        | none => s
      let bad := key.any (fun k => s.keyBad (k.2, false))
      let s := if bad then s.addRepair j h g p else s
      match stripeFrom (if bad then none else some (st, (s.readReserve l j h g).getD p [])) fl p want with
      | some (par, bs) => s.readReply m 0 par 0 bs
      | none => s.readReply m 1 0 0 []
    | _ =>
      let decoded := ((s.loss.comps.filter (fun c => c.position == j && c.hank == h && c.group == g)).flatMap (fun c => c.decoded)).find?
        (fun d => d.1 == p)
      match stripeFrom (decoded.map (fun d => d.2)) fl p want with
      | some (par, bs) => s.readReply m 0 par 0 bs
      | none => s.readReply m 1 0 0 []

/-- Answer a stripe read for one position. -/
def answerStripeOf (m : HeldMsg) (l : Layout) (j : Nat) (s : State) : State :=
  if j = l.position then
    match s.hank? (fld 0 2 m.body) with
    | none => s.readReply m 2 0 0 []
    | some r => s.answerOwn m r
  else s.answerAdopted m l j

/-- The position that a stripe read from inside the block is for. -/
def localOwner (s : State) (l : Layout) (m : HeldMsg) : Option Nat :=
  match s.openReq m.request with
  | none => none
  | some r =>
    match r.key with
    | [1, h, b, x, _, slot, _] => (s.slotSource l h b x slot).map (fun y => y.1)
    | _ :: _ :: _ :: _ :: _ :: j :: _ => some j
    | _ => none

/-- Answer a stripe read. The body names no owner (Table 5.6): a read from inside the block is for the position of its request; at a
node that has a group of its own and an adopted group of that number, which of them is meant is left open (log 21). -/
def answerStripe (m : HeldMsg) (s : State) : State :=
  let s := s.bump 0x5040 0x0A 1
  if s.fenced then s.readReply m 3 0 0 []
  else
    match s.code.layout with
    | none => s.readReply m 2 0 0 []
    | some l =>
      let h := fld 0 2 m.body
      let g := fld 4 4 m.body
      let cands := s.readOwners l h g
      let asked := if m.isLocal then s.localOwner l m else none
      match asked with
      | some j => if cands.contains j then s.answerStripeOf m l j else s.readReply m 2 0 0 []
      | none =>
        match cands with
        | [] => s.readReply m 2 0 0 []
        | [j] => s.answerStripeOf m l j
        | j :: _ =>
          let pick := (Config.freeByte s.free).toNat % cands.length
          (s.spendFree 1).answerStripeOf m l (natAt (cands ++ [j]) pick)

/-- A stripe read: one of an epoch above this member's waits as a ply read does (log 26). -/
def onStripeRead (m : HeldMsg) (s : State) : State :=
  if s.mem.epoch < m.epoch && !s.fenced then { s with code := { s.code with heldReads := s.code.heldReads ++ [m] } }
  else s.answerStripe m

/-- Answer the reads that waited for an epoch. -/
def releaseReads (s : State) : State :=
  let q := s.code.heldReads
  forEach q (fun m st => if m.typ = 0x16 then st.onPlyRead m else st.onStripeRead m)
    { s with code := { s.code with heldReads := [] } }

/-! ## Answers to a recompute -/

/-- A stripe answer feeds a recompute: stripes of one slot must stand at one step, so an answer at another parity starts the slot
again (R142). An answer without data is asked again at the next heartbeat period (log 27). -/
def feedRecomp (key : List Nat) (b : Bytes) (s : State) : State :=
  match s.code.layout, key with
  | some l, [_, h, bd, x, role, slot, p] =>
    match s.code.recomps.find? (fun r => r.hank == h && r.band == bd && r.residue == x && r.role == role) with
    | none => s
    | some r =>
      if fld 0 1 b != 0 || !r.want.contains (slot, p) || s.fenced then s
      else
        let par := fld 1 1 b
        let clash := r.got.any (fun e => e.1 == slot && e.2.2.1 != par)
        let r1 :=
          if clash then
            { r with got := r.got.filter (fun e => e.1 != slot)
                     want := r.want.filter (fun w => w.1 != slot) ++ (List.range (l.sOf h)).map (fun q => (slot, q)) }
          else { r with got := r.got ++ [(slot, p, par, b.drop 8)], want := r.want.erase (slot, p) }
        let s := s.updRecomp r (fun _ => r1)
        if r1.want.isEmpty then (s.finishRecomp l r1).releaseSets
        else if clash then s.askRecomp l r1 else s
  | _, _ => s

end State

end Sys2Proof.Machine
end

