-- ==== Sys2Proof/Machine/Decoder.lean ====
section
/-! DEFINITION. The decode of one stripe from its row (R140, Table 5.7), as repairs (R435), host reads through an alias hank (R141) and
reads under the old layout of a re-code (R223) use it. -/

namespace Sys2Proof.Machine

/-- Recovery of slot `a` (Table 5.7) from the plies and the surviving data of its row; `other` is a second missing slot. -/
def recover (a : Nat) (other : Option Nat) (p q : Option Bytes) (data : List (Nat × Bytes)) : Option Bytes :=
  let px := p.map (fun b => data.foldl (fun acc d => xorB acc d.2) b)
  let qx := q.map (fun b => data.foldl (fun acc d => xorB acc (Gf.mulB (Gf.gpow d.1) d.2)) b)
  match other, px, qx with
  | none, some x, _ => some x
  | none, none, some y => some (Gf.mulB (Gf.inv (Gf.gpow a)) y)
  | some b, some x, some y =>
    let c := Gf.inv (Gf.gpow a ^^^ Gf.gpow b)
    some (xorB x (Gf.mulB c (xorB y (Gf.mulB (Gf.gpow a) x))))
  | _, _, _ => none

/-- What a decode has come to. -/
inductive DecRes where
  | more
  | done (d : DecodeRt) (b : Bytes)
  | failed (d : DecodeRt)
  deriving DecidableEq, Repr

/-- What one look at a decode finds: its bytes, reads still needed (roles, slots with parity), or that the row does not give it. -/
inductive DecNext where
  /-- The bytes, and the stripes that were combined. -/
  | bytes (b : Bytes) (stripes : Nat)
  | ask (roles : List Nat) (slots : List (Nat × Nat))
  | never
  deriving DecidableEq, Repr

namespace State

/-- The same decode. -/
def sameDecode (a b : DecodeRt) : Bool :=
  a.purpose == b.purpose && a.id == b.id && a.position == b.position && a.hank == b.hank && a.group == b.group && a.p == b.p

/-- A fresh decode. -/
def newDecode (purpose id pos h g p parity : Nat) : DecodeRt :=
  { purpose := purpose, id := id, position := pos, hank := h, group := g, p := p, parity := parity, plies := [], dead := [], got := [],
    refused := [], gone := [] }

/-- The layout a decode works under. -/
def decodeLayout (s : State) (d : DecodeRt) : Option Layout := if 2 ≤ d.purpose then s.code.oldLayout else s.code.layout

/-- The position that a position's member had under the old layout of a re-code: this member's own, or that of a member lost since. -/
def oldPosition (s : State) (o : Layout) (pos : Nat) : Option Nat :=
  if pos = s.myPos then (if o.position < o.n then some o.position else none)
  else
    match s.loss.excludedNodes.reverse.find? (fun e => e.1 == pos) with
    | none => none
    | some e => o.members.findIdx? (fun m => m.1 == e.2)

/-- The group under the old layout of a re-code that holds a group of a position of the new layout: an inherited hank's group is the
adopted group of its rank (R220). -/
def oldSource (s : State) (o : Layout) (pos h g : Nat) : Option (Nat × Nat × Nat) :=
  match s.oldPosition o pos with
  | none => none
  | some op =>
    let inh : Option Inherit := match s.planEff with
      | some p => match p.skein with
        | some k => k.inherits.find? (fun (i : Inherit) => i.localHank == h)
        | none => none
      | none => none
    match inh with
    | none => some (op, h, g)
    | some i =>
      let mine := s.code.oldAdopted.filter (fun (a : Nat × Nat × Nat × Nat) => a.1 == i.lostPosition && a.2.1 == i.lostHank && a.2.2.2 == op)
      let gs := sortBy (fun a b => decide (a ≤ b)) (mine.map (fun a => a.2.2.1))
      (gs[g]?).map (fun x => (i.lostPosition, i.lostHank, x))

/-- The position, hank and group whose row a decode reads. -/
def decodeGroup (s : State) (d : DecodeRt) : Option (Nat × Nat × Nat) :=
  if 2 ≤ d.purpose then
    match s.code.oldLayout with
    | some o => s.oldSource o d.position d.hank d.group
    | none => none
  else some (d.position, d.hank, d.group)

/-- The node that holds a role of the row of a decode. -/
def decodeHolder (s : State) (l : Layout) (d : DecodeRt) (h b x role : Nat) : Nat :=
  if 2 ≤ d.purpose then
    let n := (l.members.getD (s.oldRoleHolder l h b x role) (0xFFFF, 0)).1
    if (s.posOf n).isSome then n else 0xFFFF
  else s.nodeAt (s.roleHolder l h b x role)

/-- The owner, group and node of another slot of the row of a decode. -/
def decodeSlot (s : State) (l : Layout) (d : DecodeRt) (h b x slot : Nat) : Option (Nat × Nat × Nat) :=
  if 2 ≤ d.purpose then
    match (l.owners x)[slot]? with
    | none => none
    | some j =>
      match l.groupIn j h b x with
      | none => none
      | some g =>
        let n := (l.members.getD j (0xFFFF, 0)).1
        some (j, g, if (s.posOf n).isSome then n else 0xFFFF)
  else s.slotSource l h b x slot

/-- A ply read so far serves: its tag for the slot is valid and of the wanted parity. -/
def usablePly (d : DecodeRt) (slot : Nat) (y : Nat × Nat × Bytes) : Bool :=
  let t := wordTag y.2.1 slot
  tagValid t && (d.parity ≥ 2 || t == 2 + d.parity)

/-- Look at a decode. A repair takes no second missing slot (R435). -/
def decodeNext (s : State) (l : Layout) (d : DecodeRt) (pl : GroupPlace) (h : Nat) : DecNext :=
  let slot := pl.slot
  let usable := d.plies.filter (usablePly d slot)
  let unasked := (rolesOf l).filter (fun r => !d.dead.contains r && !d.plies.any (fun y => y.1 == r))
  match usable with
  | [] =>
    match unasked with
    | r :: _ => .ask [r] []
    | [] => .never
  | y0 :: rest =>
    let others := (List.range l.k).filter (fun i => i != slot && tagValid (wordTag y0.2.1 i))
    let isGone (i : Nat) : Bool := d.gone.contains i || (match s.decodeSlot l d h pl.band pl.residue i with
      | some (_, _, n) => n == 0xFFFF
      | none => true)
    let gone := others.filter isGone
    let parOf (i : Nat) : Nat := wordTag y0.2.1 i - 2
    let want := others.filter (fun i => !isGone i && !d.got.any (fun z => z.1 == i && z.2.1 == parOf i))
    let asks := want.map (fun i => (i, parOf i))
    let data := (d.got.filter (fun z => others.contains z.1 && z.2.1 == parOf z.1)).map (fun z => (z.1, z.2.2))
    let ply (r : Nat) (ys : List (Nat × Nat × Bytes)) : Option Bytes := (ys.find? (fun y => y.1 == r)).map (fun y => y.2.2)
    if !asks.isEmpty then .ask [] asks
    else
      match gone with
      | [] =>
        match recover slot none (ply 0 [y0]) (ply 1 [y0]) data with
        | some b => .bytes b (1 + data.length)
        | none => .never
      | [b] =>
        if d.purpose = 0 || d.purpose = 3 then .never
        else
          match rest with
          | y1 :: _ =>
            if (List.range l.k).any (fun i => wordTag y1.2.1 i != wordTag y0.2.1 i) then .never
            else
              match recover slot (some b) (ply 0 [y0, y1]) (ply 1 [y0, y1]) data with
              | some x => .bytes x (2 + data.length)
              | none => .never
          | [] =>
            match unasked with
            | r :: _ => .ask [r] []
            | [] => .never
      | _ => .never

/-- Change a decode. -/
def updDecode (d : DecodeRt) (f : DecodeRt → DecodeRt) (s : State) : State :=
  { s with scrub := { s.scrub with decodes := mapIf (sameDecode d) f s.scrub.decodes } }

/-- A decode is over. -/
def dropDecode (d : DecodeRt) (s : State) : State :=
  { s with scrub := { s.scrub with decodes := s.scrub.decodes.filter (fun x => !sameDecode d x) } }

/-- The request key of a ply (256 + role) or a slot of a decode; the sixth element is the owner's position. -/
def decodeKey (d : DecodeRt) (owner x : Nat) : List Nat := [3, d.hank, d.group, d.purpose, d.position, owner, d.p, x, d.id]

/-- Send the reads a decode needs and has not open. A read under the old layout carries the old epoch (R223). -/
def sendDecode (l : Layout) (d : DecodeRt) (pl : GroupPlace) (h : Nat) (roles : List Nat) (slots : List (Nat × Nat)) (s : State) :
    State :=
  let isOpen (st : State) (k : List Nat) : Bool :=
    st.fx.reqs.any (fun r => r.engine == 1 && r.key == k) || st.fx.waitQ.any (fun r => r.engine == 1 && r.key == k)
  let s := forEach roles (fun r st =>
    let key := decodeKey d d.position (256 + r)
    let node := st.decodeHolder l d h pl.band pl.residue r
    if isOpen st key then st
    else if node = 0xFFFF then st.updDecode d (fun x => { x with dead := x.dead ++ [r] })
    else
      let body := toLE 2 h ++ toLE 1 r ++ toLE 1 pl.residue ++ toLE 4 (pl.lap + d.p)
      let w : ReqWait :=
        { engine := 1, dest := node, typ := 0x16, way := (pl.lap + d.p) % 2, alt := false, again := false,
          epoch := if 2 ≤ d.purpose then st.code.oldEpoch.getD st.mem.epoch else st.mem.epoch, step := st.fr.step, body := body, key := key }
      st.enqueue w) s
  forEach slots (fun x st =>
    match st.decodeSlot l d h pl.band pl.residue x.1 with
    | some (j, g, node) =>
      let key := decodeKey d j x.1
      if isOpen st key then st else st.askStripe l node h d.p x.2 g key
    | none => st) s

/-- Go on with a decode. -/
def advanceDecode : Nat → DecodeRt → State → State × DecRes
  | 0, _, s => (s, .more)
  | k + 1, d0, s =>
    match s.scrub.decodes.find? (sameDecode d0) with
    | none => (s, .more)
    | some d =>
      match s.decodeLayout d, s.decodeGroup d with
      | some l, some (j, h, g) =>
        let pl := groupPlace l j h g
        match s.decodeNext l d pl h with
        | .bytes b n => ((s.dropDecode d).bump 0x5040 0x11 (beatsOf n), .done d b)
        | .never => (s.dropDecode d, .failed d)
        | .ask roles slots =>
          let s1 := s.sendDecode l d pl h roles slots
          match s1.scrub.decodes.find? (sameDecode d0) with
          | some d1 => if d1.dead.length != d.dead.length then advanceDecode k d0 s1 else (s1, .more)
          | none => (s1, .more)
      | _, _ => (s.dropDecode d, .failed d)

/-- Roles of a row at most, and one look more. -/
def decodeFuel : Nat := 4

/-- Start a decode unless it runs. -/
def startDecode (d : DecodeRt) (s : State) : State × DecRes :=
  if s.scrub.decodes.any (sameDecode d) then (s, .more)
  else advanceDecode decodeFuel d { s with scrub := { s.scrub with decodes := s.scrub.decodes ++ [d] } }

/-- A decode that failed found the slot's tag 0b00 under the new layout of a re-code: the same decode from the row of the old one (R223). -/
def oldDecode (s : State) (d : DecodeRt) : Option DecodeRt :=
  if 2 ≤ d.purpose || s.code.oldLayout.isNone then none
  else
    match s.code.layout with
    | none => none
    | some l =>
      let slot := (groupPlace l d.position d.hank d.group).slot
      if d.plies.any (fun y => wordTag y.2.1 slot == 0) then
        some { newDecode (d.purpose + 3) d.id d.position d.hank d.group d.p 2 with parity := d.parity }
      else none

/-- A stripe read of a decode was answered "not held": the decode reads its plies anew and asks again (Table 5.12), or goes without the slot
where the same parity has been refused before. -/
def refuseSlot (x : Nat) (y : DecodeRt) : DecodeRt :=
  let par := match y.plies.filter (fun z => tagValid (wordTag z.2.1 x)) with
    | z :: _ => wordTag z.2.1 x - 2
    | [] => 2
  if y.refused.contains (x, par) then { y with gone := y.gone ++ [x] }
  else { y with refused := y.refused ++ [(x, par)], plies := [], dead := [] }

/-- A ply or stripe answer for a decode. -/
def feedDecode (key : List Nat) (b : Bytes) (s : State) : State × DecRes :=
  match key with
  | [_, h, g, purpose, pos, _, p, x, id] =>
    let d := newDecode purpose id pos h g p 2
    let status := fld 0 1 b
    let upd (y : DecodeRt) : DecodeRt :=
      if 256 ≤ x then
        if status = 0 then { y with plies := y.plies ++ [(x - 256, fld 4 4 b, b.drop 8)] } else { y with dead := y.dead ++ [x - 256] }
      else if status = 0 then { y with got := y.got.filter (fun z => z.1 != x) ++ [(x, fld 1 1 b, b.drop 8)] }
      else if status = 1 then refuseSlot x y
      else { y with gone := y.gone ++ [x] }
    advanceDecode decodeFuel d (s.updDecode d upd)
  | _ => (s, .more)

end State

end Sys2Proof.Machine
end

