-- ==== Sys2Proof/Machine/Fence.lean ====
section
/-! DEFINITION. HELLO messages, the membership state, fencing and the fray (R196, R197, R201, R213, R177). -/

namespace Sys2Proof.Machine

/-- The count of R205 for `v` of `n` base positions. -/
def countMet (n v : Nat) (lintelIn : Bool) : Bool := n < 2 * v || (n == 2 * v && lintelIn)

namespace State

/-- The skein section of the plan in effect. -/
def skeinSec (s : State) : Option SkeinSec :=
  match s.planEff with
  | some p => p.skein
  | none => none

/-! ## HELLO (R196, R197) -/

/-- The partners of R197 with their source code in the discovery table: 0 member, 1 dims, 2 neighbour list. -/
def partners (s : State) : List (Nat × Nat) :=
  match s.skeinSec with
  | none => []
  | some k =>
    let me := s.node
    let members := (k.members.map (fun m => (m.1, 0)))
    let dims := (bitsOf 16 k.dims).map (fun d => (me ^^^ 2 ^ d, 1))
    let near := k.neighbours.map (fun n => (n, 2))
    (members ++ dims ++ near).foldl (fun acc x =>
      if x.1 == me || x.1 == 0xFFFF || acc.any (fun y => y.1 == x.1) then acc else acc ++ [x]) []

/-- The body of this member's HELLO. -/
def helloBody (s : State) : Bytes :=
  toLE 2 s.node ++ toLE 1 s.mem.state ++ toLE 1 s.myPos ++ toLE 2 s.mem.skeinId ++ zeros 2 ++ toLE 8 s.mem.digest ++
    toLE 8 s.fr.lastSealed ++ zeros 8

/-- Send a HELLO. -/
def sendHello (node : Nat) (s : State) : State := (s.bump 0x5060 0x01 1).sendMgmt 0x30 node s.helloBody

/-- Send a HELLO to every partner. -/
def helloAll (s : State) : State := forEach s.partners (fun p st => st.sendHello p.1) s

/-- The membership state changes: every partner hears of it at once (R197). -/
def setMemState (n : Nat) (s : State) : State :=
  if s.mem.state = n then s else helloAll { s with mem := { s.mem with state := n } }

/-! ## Levels (R185) -/

/-- The event of a level crossed (Table 13.4, kind 3). -/
def levelEvent (replace clear : Bool) (s : State) : State :=
  s.raise 3 0x3050 0x01 (s.house.health.score % 65536 + (if replace then 2 ^ 16 else 0) + (if clear then 2 ^ 17 else 0))

/-- Bit 0 (warning) or bit 1 (replace-me) of 0x3050.04. -/
def setLevel (i : Nat) (on : Bool) (s : State) : State :=
  let h := s.house.health
  let v := if on then setBit h.levels i else clearBit h.levels i
  { s with house := { s.house with health := { h with levels := v } } }

/-- The score crosses a level, or falls below it by 64 (R185): the bit that a fence set stays while the member is fenced (log 162). -/
def crossLevel (i : Nat) (on : Bool) (s : State) : State :=
  let h := s.house.health
  let c := if on then setBit h.crossed i else clearBit h.crossed i
  let s : State := { s with house := { s.house with health := { h with crossed := c } } }
  if !on && i = 1 && s.fenced then s else s.setLevel i on

/-- The fence is over: its bit of 0x3050.04 falls unless the score stands at the level (log 162). -/
def endFenceLevel (s : State) : State := if bit s.house.health.crossed 1 then s else s.setLevel 1 false

/-! ## Fencing (R212, R213) -/

/-- The quorum of R212 holds: this member and the positions it does not suspect meet the count. A member without a skein has no quorum
to keep. -/
def quorum (s : State) : Bool :=
  match s.code.layout with
  | none => true
  | some l =>
    if l.position ≥ l.n then true
    else
      let named := bitsOf 16 s.mem.named
      let q := named.filter (fun p => p == l.position || !bit s.mem.suspected p)
      countMet named.length q.length (q.contains s.mem.lintel)

/-- Fence with a reason: the replace-me event, bit 1 of 0x3050.04, state 4, and the sets held are answered (R213). -/
def fence (reason : Nat) (s : State) : State :=
  if s.fenced then s
  else
    let s := { s with mem := { s.mem with fenceReason := reason } }
    let s := ((s.bump 0x5060 0x0F 1).setLevel 1 true).levelEvent true false
    let s := State.changed 0x2000 0x08 reason s
    (s.setMemState 4).releaseSets.releaseReads

/-- The skein frays: counted, an event, and the member is fenced with reason 3 (R177, R213). -/
def fray (s : State) : State :=
  if s.loss.frayed then s
  else State.fence 3 (State.countNote 0x5050 0x0A 0 { s with loss := { s.loss with frayed := true } })

end State

end Sys2Proof.Machine
end

