-- ==== Sys2Proof/Machine/LostSite.lean ====
section
/-! DEFINITION. A lost member's shard path as an heir runs it (R86, R87, R162): the inputs of the lost member's sites over the elements
of one group, pulled by re-requests, and the tree of each site over them. -/

namespace Sys2Proof.Machine

/-- One re-request that an heir needs (Table 3.10): where it goes, and the site's node, site, slot, length and offset. -/
structure Pull where
  dest : Nat
  node : Nat
  site : Nat
  slot : Nat
  length : Nat
  offset : Nat
  deriving DecidableEq, Repr

/-- What a heir knows of the lost member whose sites it runs: position, node, step, exclusion set, bucket map. -/
structure LostCtx where
  position : Nat
  node : Nat
  step : Nat
  excl : List (Nat × Nat)
  map : BucketMap
  deriving DecidableEq, Repr

/-- The bytes of a range of a slot payload: zero where they are not held, those ranges listed; the pulls still open; the inputs that
no member can supply (site node, site, slot, piece). -/
structure Got where
  hdr : Option SlotHdr
  bytes : Bytes
  missing : List (Nat × Nat)
  pulls : List Pull
  lost : List (Nat × Nat × Nat × Nat)
  deriving DecidableEq, Repr

/-- An evaluation over consecutive positions: the value and the weight at each. -/
structure Ev where
  cells : List (Option W32 × Nat)
  pulls : List Pull
  lost : List (Nat × Nat × Nat × Nat)
  deriving DecidableEq, Repr

/-- The rows of a ROWS input: the rows it has records for, with its weight. -/
structure RowsEv where
  rows : List Nat
  weight : Nat
  usable : Bool
  hdr : Option SlotHdr
  pulls : List Pull
  lost : List (Nat × Nat × Nat × Nat)
  deriving DecidableEq, Repr

/-- Consecutive elements of a bucket: elements `lo` to `lo + n - 1` of a DENSE bucket, or of row `row` of a ROWS bucket. -/
structure Span where
  row : Nat
  lo : Nat
  n : Nat
  deriving DecidableEq, Repr

/-- Where the input of a lost member's slot comes from. -/
inductive SlotSrc where
  | skip
  | self
  | remote (dest : Nat)
  | gone
  | chain (site : Nat)
  deriving DecidableEq, Repr

/-- The bytes a re-request asks for at most (Table 3.10). -/
def pullMax : Nat := 65536

/-- A byte range in pieces of at most 65,536 bytes. -/
def pullPieces : Nat → Nat → Nat → List (Nat × Nat)
  | 0, _, _ => []
  | k + 1, off, len => if len = 0 then [] else (off, min len pullMax) :: pullPieces k (off + min len pullMax) (len - pullMax)

/-- Absent at every position. -/
def blankCells (n w : Nat) : List (Option W32 × Nat) := List.replicate n (none, w)

/-- The evaluation of a skipped slot. -/
def blankEv (n : Nat) : Ev := { cells := blankCells n 0, pulls := [], lost := [] }

/-- The tree of a site over the evaluations of its slots (R76); a site that is not final writes an empty output at weight 0
(R79). -/
def evTree (n : Nat) (final : Bool) (evs : List Ev) : Ev :=
  let vals := sumTree (evs.map (fun e => e.cells.map (fun c => c.1)))
  let cells := (List.range n).map (fun i =>
    let w := sumL (evs.map (fun e => (e.cells.getD i (none, 0)).2))
    if !final && w == 0 then (none, 0) else (vals.getD i none, w))
  { cells := cells, pulls := evs.flatMap (fun e => e.pulls), lost := evs.flatMap (fun e => e.lost) }

/-- The elements of `w` bytes of a range as cells: absent where a byte of the element is missing. -/
def gotCells (g : Got) (w n weight : Nat) : List (Option W32 × Nat) :=
  (elemVals w g.bytes).zipIdx.take n |>.map (fun v =>
    if g.missing.any (fun r => r.1 < (v.2 + 1) * w && v.2 * w < r.2) then (none, 0) else (some v.1, weight))

namespace State

/-- The newest notice held that names a node (R70). -/
def noticeNaming (s : State) (node : Nat) : Option Nat :=
  match (s.land.notices.reverse.find? (fun n => n.entries.any (fun e => e.1 == node))) with
  | some n => (n.entries.find? (fun e => e.1 == node)).map (fun e => e.2)
  | none => none

/-- The plan of a step: that of the step before for a carried one (R171). -/
def planOf (s : State) (step : Nat) : Option Plan := if step = s.fr.step then s.planEff else s.prev.plan.or s.planEff

/-- A hank as the plan of a step describes it. -/
def hankUnder (p : Option Plan) (r : HankRt) : HankRt :=
  match p.bind (fun p => p.desc r.hank) with
  | some d => { r with desc := d, state := d.state }
  | none => r

/-- The settings of a step, to read from: plan, descriptors, scalars, whorl tables and seeds, which a carried step keeps (R107, R171,
R236, R256). -/
def asOf (s : State) (step : Nat) : State :=
  if step = s.fr.step then s
  else
    let p := s.planOf step
    { s with planEff := p, regs := s.prev.regs, fr := { s.fr with step := step }, hanks := s.hanks.map (hankUnder p),
             whorl := { s.whorl with tables := s.prev.tables, seeds := s.prev.seeds },
             mem := { s.mem with digest := ((p.bind (fun p => p.skein)).map (fun k => k.digest)).getD 0 } }

/-- The context of a lost member for a step: its node is the one that the plan's member table gives the position, also where an epoch has named
a spare there since; its bucket map stands in the replica-and-spare section (R165). -/
def lostCtx (s : State) (pos step : Nat) : Option LostCtx :=
  match s.planOf step with
  | none => none
  | some p =>
    match p.skein, p.replica with
    | some k, some r =>
      if !s.loss.excludedNodes.any (fun e => e.1 == pos) then none
      else
        (r.peers.find? (fun x => x.1 == pos)).map (fun x =>
          { position := pos, node := (k.members.getD pos (0xFFFF, 0)).1, step := step,
            excl := if step = s.fr.step then s.land.exclusion.getD [] else s.loss.prevExclusion, map := x.2 })
    | _, _ => none

/-- Where the input of slot `i` comes from: a contributor that is itself lost is stood for by the heir its notice names; a leaf whose
contributor is lost with the site cannot be supplied (R86, R87). -/
def lostSrc (s : State) (c : LostCtx) (x : Site) (i : Nat) : SlotSrc :=
  let e := contrib x i
  if e.source = 2 then .chain e.sourceSite
  else if e.source = 0 then
    if c.excl.any (fun y => y.1 == e.node) then .skip
    else if x.hasSelf && i == x.selfSlot then .self
    else if (s.noticeNaming e.node).isSome then .gone
    else .remote e.node
  else
    match s.noticeNaming e.node with
    | some h => if h = 0xFFFF then .gone else .remote h
    | none => .remote e.node

/-- The answer held to a pull. -/
def inputAt (s : State) (c : LostCtx) (site slot off : Nat) : Option InputAns :=
  s.loss.inputs.find? (fun a => a.step == c.step && a.node == c.node && a.site == site && a.slot == slot && a.offset == off)

/-- The pull was answered "not held". -/
def inputGone (s : State) (c : LostCtx) (site slot off : Nat) : Bool :=
  s.loss.noInputs.contains (c.step, c.node, site, slot, off)

/-- Fetch a byte range of a slot from a contributor. -/
def fetchRemote (s : State) (c : LostCtx) (dest : Nat) (x : Site) (i off len : Nat) : Got :=
  (pullPieces (len / pullMax + 1) off len).foldl (fun g r =>
    match s.inputAt c x.id i r.1 with
    | some a => { g with hdr := some (readHdr a.header), bytes := g.bytes ++ fit r.2 a.data }
    | none =>
      let rel := r.1 - off
      if s.inputGone c x.id i r.1 then
        { g with bytes := g.bytes ++ zeros r.2, missing := g.missing ++ [(rel, rel + r.2)]
                 lost := if g.lost.isEmpty then [(c.node, x.id, i, 0)] else g.lost }
      else
        let p : Pull := { dest := dest, node := c.node, site := x.id, slot := i, length := r.2, offset := r.1 }
        { g with bytes := g.bytes ++ zeros r.2, pulls := g.pulls ++ [p] })
    { hdr := none, bytes := [], missing := [], pulls := [], lost := [] }

/-- The header of a self slot as a mirror piece gives it: a leaf of weight 1. -/
def pieceHdr (c : LostCtx) (b : Bytes) : SlotHdr :=
  { job := 0, stamp := 0, step := c.step, count := fld 16 8 b, dropped := fld 24 8 b, node := c.node, site := fld 0 1 b, slot := 0,
    weight := 1, flags := 1 }

/-- Fetch a byte range of the self slot from the pieces' holders (R83, R86). -/
def fetchSelf (s : State) (c : LostCtx) (x : Site) (off len : Nat) : Got :=
  let i0 := off / 4096
  let i1 := (off + len + 4095) / 4096
  let got := (List.range (i1 - i0)).foldl (fun g k =>
    let i := i0 + k
    let n := min 4096 (x.payload - 4096 * i)
    let at_ := 4096 * i
    -- bytes of the piece that fall into the range
    let lo := max off at_
    let hi := min (off + len) (at_ + 4096)
    match s.inputAt c x.id 0xFF i with
    | some a => { g with hdr := some (pieceHdr c a.header), bytes := g.bytes ++ sub (lo - at_) (hi - lo) a.data }
    | none =>
      let dest := match s.code.layout with
        | some l => match s.mirrorHolder l c.position i with
          | some h => s.nodeAt h
          | none => 0xFFFF
        | none => 0xFFFF
      let z := zeros (hi - lo)
      if dest = 0xFFFF || s.inputGone c x.id 0xFF i then
        { g with bytes := g.bytes ++ z, missing := g.missing ++ [(lo - off, hi - off)], lost := g.lost ++ [(c.node, x.id, 0xFF, i)] }
      else
        let p : Pull := { dest := dest, node := c.node, site := x.id, slot := 0xFF, length := n, offset := i }
        { g with bytes := g.bytes ++ z, pulls := g.pulls ++ [p] })
    { hdr := none, bytes := [], missing := [], pulls := [], lost := [] }
  got

/-- Fetch a byte range of a slot. -/
def fetchSlot (s : State) (c : LostCtx) (src : SlotSrc) (x : Site) (i off len : Nat) : Got :=
  match src with
  | .self => s.fetchSelf c x off len
  | .remote d => s.fetchRemote c d x i off len
  | _ => { hdr := none, bytes := [], missing := [(0, len)], pulls := [], lost := [(c.node, x.id, i, 0)] }

/-- A DENSE slot over some elements. -/
def denseEv (s : State) (c : LostCtx) (src : SlotSrc) (x : Site) (i : Nat) (sp : Span) : Ev :=
  let w := x.elemBytes
  let g := s.fetchSlot c src x i (sp.lo * w) (sp.n * w)
  match g.hdr with
  | none => { cells := blankCells sp.n 0, pulls := g.pulls, lost := g.lost }
  | some h =>
    if malformedSlot x (isLeaf x i) h [] || (h.weight == 0 && h.count == 0) then
      { cells := blankCells sp.n 0, pulls := g.pulls, lost := g.lost }
    else { cells := gotCells g w sp.n h.weight, pulls := g.pulls, lost := g.lost }

/-- The rows of a ROWS slot, from its whole index array; a slot whose array is not held in full is not usable. -/
def slotRows (s : State) (c : LostCtx) (src : SlotSrc) (x : Site) (i : Nat) : RowsEv :=
  let g := s.fetchSlot c src x i 0 (Site.indexBytes x.capacity)
  match g.hdr with
  | none => { rows := [], weight := 0, usable := false, hdr := none, pulls := g.pulls, lost := g.lost }
  | some h =>
    let index := (words g.bytes).take h.count
    if malformedSlot x (isLeaf x i) h (if h.count > x.capacity then [] else index) || !g.missing.isEmpty then
      { rows := [], weight := 0, usable := false, hdr := some h, pulls := g.pulls, lost := g.lost }
    else { rows := index, weight := h.weight, usable := true, hdr := some h, pulls := g.pulls, lost := g.lost }

/-- A ROWS slot over one row. -/
def rowEv (s : State) (c : LostCtx) (src : SlotSrc) (x : Site) (i : Nat) (sp : Span) : Ev :=
  let r := s.slotRows c src x i
  if !r.usable || !r.pulls.isEmpty then { cells := blankCells sp.n 0, pulls := r.pulls, lost := r.lost }
  else
    match r.rows.findIdx? (fun y => y == sp.row) with
    | none => { cells := blankCells sp.n r.weight, pulls := [], lost := [] }
    | some k =>
      let w := x.elemBytes
      let off := Site.indexBytes x.capacity + k * Site.recBytes x.cols w + sp.lo * w
      let g := s.fetchSlot c src x i off (sp.n * w)
      { cells := gotCells g w sp.n r.weight, pulls := g.pulls, lost := g.lost }

/-- The rows that the output of a ROWS site keeps: the lowest `cap` of those present in any input (R78); with the rows dropped. -/
def keptRows (s : State) (c : LostCtx) : Nat → Site → Nat → RowsEv × Nat
  | 0, _, _ => ({ rows := [], weight := 0, usable := true, hdr := none, pulls := [], lost := [] }, 0)
  | k + 1, x, cap =>
    let evs := (List.range x.slots).map (fun i =>
      match s.lostSrc c x i with
      | .skip => ({ rows := [], weight := 0, usable := true, hdr := none, pulls := [], lost := [] } : RowsEv)
      | .chain y =>
        match c.map.sites.find? (fun (z : Site) => z.id == y) with
        | some z => (s.keptRows c k z x.capacity).1
        | none => { rows := [], weight := 0, usable := true, hdr := none, pulls := [], lost := [] }
      | src => s.slotRows c src x i)
    let all := unionRows (evs.map (fun e =>
      some { weight := e.weight, dense := [], rows := e.rows.map (fun r => (r, [])) }))
    let w := sumL (evs.map (fun e => e.weight))
    let rows := if w = 0 then [] else all.take cap
    ({ rows := rows, weight := w, usable := true, hdr := none, pulls := evs.flatMap (fun e => e.pulls),
       lost := evs.flatMap (fun e => e.lost) }, if w = 0 then 0 else all.length - rows.length)

/-- A site of the lost member over some elements (R76, R162). -/
def siteEv (s : State) (c : LostCtx) : Nat → Site → Span → Ev
  | 0, _, sp => blankEv sp.n
  | k + 1, x, sp =>
    let evs := (List.range x.slots).map (fun i =>
      match s.lostSrc c x i with
      | .skip => blankEv sp.n
      | .chain y =>
        match c.map.sites.find? (fun (z : Site) => z.id == y) with
        | none => blankEv sp.n
        | some z =>
          if x.kind = 0 then s.siteEv c k z sp
          else
            let r := (s.keptRows c k z x.capacity).1
            if !r.pulls.isEmpty then { cells := blankCells sp.n 0, pulls := r.pulls, lost := r.lost }
            else if r.rows.contains sp.row then s.siteEv c k z sp
            else { cells := blankCells sp.n r.weight, pulls := [], lost := r.lost }
      | src => if x.kind = 0 then s.denseEv c src x i sp else s.rowEv c src x i sp)
    evTree sp.n x.final evs

/-- The gradients of elements `lo` to `lo + n - 1` of a lost member's hank, bucket by bucket; none where no final site covers an
element. -/
def lostGrad (s : State) (c : LostCtx) (h : Nat) : Nat → Nat → Nat → Option (List W32 × List Pull × List (Nat × Nat × Nat × Nat))
  | 0, _, n => if n = 0 then some ([], [], []) else none
  | k + 1, lo, n =>
    if n = 0 then some ([], [], [])
    else
      match c.map.sites.find? (fun x => x.final && x.targetHank == h && x.firstElem ≤ lo && lo < x.firstElem + x.gradElems) with
      | none => none
      | some x =>
        let rel := lo - x.firstElem
        let m := min n (x.firstElem + x.gradElems - lo)
        -- a ROWS bucket is taken row by row
        let m := if x.kind = 0 then m else min m (x.cols - rel % x.cols)
        let sp : Span := if x.kind = 0 then { row := 0, lo := rel, n := m } else { row := rel / x.cols, lo := rel % x.cols, n := m }
        let e := s.siteEv c chainFuel x sp
        match lostGrad s c h k (lo + m) (n - m) with
        | none => none
        | some (gs, ps, ls) =>
          some (e.cells.map (fun y => finalVal x.mean y.2 y.1) ++ gs, e.pulls ++ ps, nub (e.lost ++ ls))

/-- Pieces of buckets that a group of 2,048 elements meets at most. -/
def gradFuel : Nat := 2049

/-- Send the pulls that are not open. -/
def sendPulls (ps : List Pull) (step : Nat) (s : State) : State :=
  forEach ps (fun p st =>
    let key := [step, p.node, p.site, p.slot, p.length, p.offset]
    if st.fx.reqs.any (fun r => r.typ == 0x14 && r.key == key) || st.fx.waitQ.any (fun r => r.typ == 0x14 && r.key == key) then st
    else
      let body := toLE 2 p.node ++ toLE 1 p.site ++ toLE 1 p.slot ++ toLE 4 p.length ++ toLE 8 p.offset
      st.enqueue { engine := 2, dest := p.dest, typ := 0x14, way := 0, alt := true, again := false, epoch := st.mem.epoch, step := step,
                   body := body, key := key }) s

/-- Count the inputs that no member can supply, each once a step (R87). -/
def countLost (ls : List (Nat × Nat × Nat × Nat)) (s : State) : State :=
  forEach ls (fun x st =>
    if st.loss.unrecoverable.contains x then st
    else State.bump 0x5020 0x0F 1 { st with loss := { st.loss with unrecoverable := st.loss.unrecoverable ++ [x] } }) s

/-! ## The output of a lost remote-bound site (R86, R162) -/

/-- The bytes of a range of the output payload of a lost member's remote-bound site, with its header; `free` stands for bytes of an
empty output, which has no payload. -/
def lostOutput (s : State) (c : LostCtx) (x : Site) (o : Outbox) (off len : Nat) :
    Bytes × Bytes × List Pull × List (Nat × Nat × Nat × Nat) :=
  let hdr (weight count dropped : Nat) : Bytes :=
    hdrBytes { job := s.jobTag, stamp := s.fr.eN, step := c.step, count := count, dropped := dropped, node := s.node,
               site := o.destSite, slot := o.destSlot, weight := weight, flags := 1 }
  if x.kind = 0 then
    let lo := off / 4
    let n := min x.extent ((off + len + 3) / 4) - lo
    let e := s.siteEv c chainFuel x { row := 0, lo := lo, n := n }
    -- one header stands for every position asked for: the weight is that of the position with the least (log 160)
    let w := minL (e.cells.map (fun y => y.2))
    if maxL (e.cells.map (fun y => y.2)) = 0 then (hdr 0 0 0, s.freeBytes len, e.pulls, e.lost)
    else (hdr w x.extent 0, sub (off - 4 * lo) len (valBytes (e.cells.map (fun y => y.1.getD 0))), e.pulls, e.lost)
  else
    let cap := capOfBytes x.cols o.bytes
    let (r, dropped) := s.keptRows c chainFuel x cap
    if !r.pulls.isEmpty then ([], [], r.pulls, r.lost)
    else if r.weight = 0 then (hdr 0 0 0, s.freeBytes len, [], r.lost)
    else
      let evs := r.rows.map (fun row => s.siteEv c chainFuel x { row := row, lo := 0, n := x.cols })
      let recs := evs.flatMap (fun e => fit (Site.recBytes x.cols 4) (valBytes (e.cells.map (fun y => y.1.getD 0))))
      let payload := fit (Site.indexBytes cap) (r.rows.flatMap (toLE 4)) ++ recs
      -- one header stands for every position of the rows kept: the weight is that of the position with the least (log 160)
      let w := if evs.isEmpty then r.weight else minL (evs.flatMap (fun e => e.cells.map (fun y => y.2)))
      (hdr w r.rows.length dropped, sub off len payload, evs.flatMap (fun e => e.pulls),
        nub (r.lost ++ evs.flatMap (fun e => e.lost)))

end State

end Sys2Proof.Machine
end

