-- ==== Sys2Proof/Machine/Loss.lean ====
section
/-! DEFINITION. Losses (chapter 6): the spread of a lost shard, the completion of a step for a lost member, adoption reports, ply
holders lost, the fray. -/

namespace Sys2Proof.Machine

/-- The outcome of one stripe of a completion: its bytes and the stripes combined for them; reads still needed (plies by role, slots with
parity); nothing to do until something changes; not recoverable. -/
inductive StripeGot where
  | done (b : Bytes) (stripes : Nat)
  | need (plies : List Nat) (slots : List (Nat × Nat))
  | wait
  | never
  deriving DecidableEq, Repr

namespace State

/-! ## Survivors and heirs -/

/-- Surv of R156: the positions that the epoch in effect names, in increasing order. -/
def survivors (s : State) : List Nat := bitsOf 16 s.mem.named

/-- The record heir: the surviving member with the lowest position (R170); a spare that an epoch has named at a lost position is none
before the position is covered. -/
def recordHeir (s : State) : Option Nat := (s.survivors.filter (fun p => !s.isLost p)).head?

/-- A hank leaves the skein by a vacate of its own: nothing of it is drained or adopted any more (R218). -/
def leavesSkein (s : State) (h : Nat) : Bool :=
  match s.hank? h with
  | some r => r.state == 3 && s.mem.vacating.isNone
  | none => false

/-- The heirs of a position. -/
def heirsOf (s : State) (pos : Nat) : List Nat :=
  nub ((s.loss.adopted.filter (fun a => a.position == pos)).map (fun a => a.heir))

/-- The groups of a position that this member has adopted. -/
def myAdopted (s : State) (pos : Nat) : List AdoptRt :=
  s.loss.adopted.filter (fun a => a.position == pos && a.heir == s.myPos)

/-! ## The spread (R156 to R158) -/

/-- The reserve is laid out by lost position and group (R157): what this member has materialized moves with the layout. -/
def relayReserve (l : Layout) (new : List AdoptRt) (s : State) : State :=
  let mine := s.loss.adopted.filter (fun a => a.heir == l.position && a.atStep.isSome)
  let kept := mine.filter (fun a => new.any (fun b =>
    b.position == a.position && b.hank == a.hank && b.group == a.group && b.heir == l.position))
  let data := kept.map (fun a => (a, s.readReserve l a.position a.hank a.group))
  let s := { s with loss := { s.loss with adopted := new } }
  forEach data (fun x st => st.writeReserve l x.1.position x.1.hank x.1.group x.2) s

/-- The heir of one group under an epoch: the one it had while the epoch names it, else by the rule. -/
def spreadGroup (s : State) (l : Layout) (surv : List Nat) (pos h g : Nat) : AdoptRt :=
  match s.adoption pos h g with
  | some a =>
    if surv.contains a.heir then a
    else { position := pos, hank := h, group := g, heir := l.heirRule surv pos h g, atStep := none }
  | none => { position := pos, hank := h, group := g, heir := l.heirRule surv pos h g, atStep := none }

/-- The spread of every lost position. -/
def spreadAll (s : State) (l : Layout) (surv : List Nat) : List AdoptRt :=
  (bitsOf l.n s.loss.lost).flatMap (fun pos =>
    ((l.groupList pos).filter (fun x => !s.leavesSkein x.1)).map (fun x => s.spreadGroup l surv pos x.1 x.2))

/-- Compute the spread when an epoch applies; the groups that come to this member count in 0x5050.04. -/
def adopt (l : Layout) (s : State) : State :=
  let surv := s.survivors
  let new := s.spreadAll l surv
  let came := new.filter (fun a => a.heir == l.position && (match s.adoption a.position a.hank a.group with
    | some b => b.heir != l.position
    | none => true))
  let s := s.relayReserve l new
  let gone (c : CompRt) : Bool := !new.any (fun a =>
    a.position == c.position && a.hank == c.hank && a.group == c.group && a.heir == l.position)
  let s := { s with loss := { s.loss with comps := s.loss.comps.filter (fun c => !gone c) } }
  if came.isEmpty then s else s.bump 0x5050 0x04 came.length

/-! ## Ply roles of a lost holder (R172) -/

/-- Every band role of a layout: hank, band, residue, role. -/
def bandRoles (l : Layout) : List (Nat × Nat × Nat × Nat) :=
  l.hanks.flatMap (fun e => (List.range (l.bands e.1)).flatMap (fun b => (List.range l.n).flatMap (fun x =>
    (rolesOf l).map (fun r => (e.1, b, x, r)))))

/-- Give each band role whose holder is lost its new holder; those that come to this member are recomputed (R142). -/
def moveRoles (l : Layout) (s : State) : State :=
  let surv := s.survivors
  let moved := (bandRoles l).filterMap (fun r =>
    let old := s.roleHolder l r.1 r.2.1 r.2.2.1 r.2.2.2
    if s.isLost old then
      let new := l.roleRule surv old r.1 r.2.1 r.2.2.1
      some ({ hank := r.1, band := r.2.1, residue := r.2.2.1, role := r.2.2.2, holder := new } : RoleRt)
    else none)
  let same (a b : RoleRt) : Bool := a.hank == b.hank && a.band == b.band && a.residue == b.residue && a.role == b.role
  let keep := s.loss.roles.filter (fun a => !moved.any (same a))
  let s := { s with loss := { s.loss with roles := keep ++ moved } }
  forEach (moved.filter (fun r => r.holder == l.position)) (fun r st => st.startRecomp l r.hank r.band r.residue r.role) s

/-! ## The suggested drain interval (R184) -/

/-- The largest root: floor of the square root. -/
def rootOf (n : Nat) : Nat := Fp.isqrt n

/-- Σ E × w over the coded planes: the drain term (R183). -/
def drainBytes (s : State) : Nat :=
  match s.planEff with
  | some p => sumL (p.descs.map (fun d =>
      if d.cls = 1 && d.state = 2 then
        sumL ((List.range 5).map (fun i => d.count * planeWidth d.planes d.formats i))
      else 0))
  | none => 0

/-- Publish the suggested interval: with no period measured yet the suggestion stands (log 31). -/
def suggest (s : State) : State :=
  let t := if s.reg 0x2061 0x03 != 0 then s.reg 0x2061 0x03 else s.now - s.loss.firstAt
  let n := match s.code.layout with
    | some l => l.n
    | none => 1
  let l := if s.reg 0x2061 0x03 != 0 then s.reg 0x2061 0x02 else ceilDiv (s.loss.losses * s.reg 0x2600 0x01) n
  let mtbl := (s.reg 0x2061 0x01 + t) / (1 + l)
  let td := if s.loss.drainDuration != 0 then s.loss.drainDuration
    else ceilDiv s.drainBytes 2 * 64000 / (256 * 63 * s.reg 0x1200 0x08)
  let times := s.loss.tickTimes.take 257
  let k := times.length - 1
  let span := times.headD 0 - times.getLastD 0
  let steps := if k = 0 || span = 0 then s.loss.suggested
    else max 1 (min 0xFFFFFFFF (rootOf (2 * td * mtbl * k * k / (span * span))))
  { s with loss := { s.loss with suggested := steps, mtbl := mtbl } }

/-! ## A loss (R153 to R155, R176) -/

/-- The class of a loss (Table 6.1): before roll-call where E_N is at or above the epoch that excludes the position, else after. -/
def classLoss (pos epoch : Nat) (s : State) : State :=
  if epoch ≤ s.fr.eN then s.bump 0x5050 0x02 1
  else State.bump 0x5050 0x03 1 { s with loss := { s.loss with lateLost := s.loss.lateLost ++ [pos] } }

/-- A loss whose epoch reaches this member after it has sealed step N and seen the tick of N + 1, while the lost position had N open: the
heirs complete N for it first (R171). The position has sealed N where the notice of its record is held (R237, log 194). -/
def lateCarry (s : State) (pos : Nat) : List (Nat × Nat) :=
  let sealed := s.led.notices.any (fun n => n.1 == pos && s.fr.step ≤ n.2.1 + 1)
  let same := ((s.prev.plan.bind (fun p => p.skein)).map Layout.ofSkein) == s.code.layout
  if s.fr.opened && s.fr.lastSealed + 1 = s.fr.step && (!s.fr.rcSeen || s.mem.epoch ≤ s.fr.eN) && same && !sealed then [(pos, s.fr.step - 1)]
  else []

/-- The loss of one position under the epoch in effect; its class is known once E_N is. -/
def countLoss (pos node : Nat) (s : State) : State :=
  let s := s.bump 0x5050 0x01 1
  let s := { s with loss := { s.loss with
    lost := setBit s.loss.lost pos, losses := s.loss.losses + 1, excludedNodes := s.loss.excludedNodes ++ [(pos, node)]
    carry := s.loss.carry ++ s.lateCarry pos } }
  if s.fr.opened && s.fr.rcSeen then s.classLoss pos s.mem.epoch
  else { s with loss := { s.loss with unclassed := s.loss.unclassed ++ [(pos, s.mem.epoch)] } }

/-- At roll-call the losses of the step before it take their class. -/
def classLosses (s : State) : State :=
  forEach s.loss.unclassed (fun x st => st.classLoss x.1 x.2) { s with loss := { s.loss with unclassed := [] } }

/-- The record heir and the heirs may have changed: the reports of the step are sent anew, and those of an earlier epoch count no more
(R170). -/
def renewReports (s : State) : State :=
  let s := s.dropReqs (fun e t _ => e == 0 && t == 0x1B)
  { s with loss := { s.loss with
      reportsSent := [], spreadEpoch := s.mem.epoch, reports := s.loss.reports.filter (fun r => decide (s.mem.epoch ≤ r.epoch)) } }

/-- The record heir owes an adopted record for each lost position of the open step, and of a carried one, that it has not issued. -/
def oweRecords (positions : List Nat) (s : State) : State :=
  if s.fr.opened && s.recordHeir == some s.myPos then
    let due := positions.map (fun p => (p, s.fr.step)) ++ s.loss.carry
    { s with loss := { s.loss with
        recordsDue := nub (s.loss.recordsDue ++ due.filter (fun d => !s.loss.recordsIssued.contains d)) } }
  else s

/-- Losses under an epoch that has just been applied: `gone` are the positions it newly excludes, with their nodes. -/
def onLosses (gone : List (Nat × Nat)) (s : State) : State :=
  if gone.isEmpty then s
  else
    match s.code.layout with
    | none => s
    | some l =>
      let s := forEach gone (fun x st => st.countLoss x.1 x.2) s
      if popCount 16 s.loss.lost > l.m then s.fray.suggest
      else
        let s := (s.adopt l).oweRecords (bitsOf 16 s.loss.lost)
        ((s.moveRoles l).renewReports).suggest

/-! ## Completing a group of a lost member (R166 to R169) -/

/-- The step at which an adopted group is to be completed: the carried step first (R171). -/
def compStep (s : State) (a : AdoptRt) : Nat :=
  match s.loss.carry.find? (fun c => c.1 == a.position) with
  | some c =>
    match a.atStep with
    | some n => if n < c.2 then c.2 else s.fr.step
    | none => c.2
  | none => s.fr.step

/-- The ply answer of a role for stripe p. -/
def compPly (c : CompRt) (role p : Nat) : Option (Nat × Bytes) :=
  (c.plies.find? (fun x => x.1 == role && x.2.1 == p)).map (fun x => (x.2.2.1, x.2.2.2))

/-- The stripe of a slot at a parity. -/
def compStripe (c : CompRt) (slot p par : Nat) : Option Bytes :=
  (c.stripes.find? (fun x => x.1 == slot && x.2.1 == p && x.2.2.1 == par)).map (fun x => x.2.2.2)

/-- The tag of the lost slot at a role, once the role's holder has answered. -/
def compTag (c : CompRt) (slot role : Nat) : Option Nat := (compPly c role 0).map (fun x => wordTag x.1 slot)

/-- The step at which a role's tag shows the lost slot to stand, the completion's or the one before. -/
def roleStep (c : CompRt) (slot role : Nat) : Nat := if compTag c slot role == some (tagOf c.step) then c.step else c.step - 1

/-- One stripe of a group from the plies of the roles that stand at the wanted step, with the stripes that were combined. -/
def gotOf (s : State) (l : Layout) (c : CompRt) (pl : GroupPlace) (roles : List Nat) (p : Nat) : StripeGot :=
  match roles with
  | [] => .wait
  | r0 :: rest =>
    match c.decoded.find? (fun d => d.1 == p && d.2.1 == roleStep c pl.slot r0), compPly c r0 p with
    | some d, _ => .done d.2.2 0
    | none, none => .need [r0] []
    | none, some (w, ply) =>
      let others := (List.range l.k).filter (fun i => i != pl.slot && tagValid (wordTag w i))
      let isGone (i : Nat) : Bool := c.gone.contains (i, p, wordTag w i - 2) ||
        (match s.slotSource l c.hank pl.band pl.residue i with
          | some (_, _, node) => node == 0xFFFF
          | none => false)
      let gone := others.filter (fun i => (compStripe c i p (wordTag w i - 2)).isNone && isGone i)
      let want := others.filter (fun i => (compStripe c i p (wordTag w i - 2)).isNone && !isGone i)
      let data := others.filterMap (fun i => (compStripe c i p (wordTag w i - 2)).map (fun b => (i, b)))
      let asks := want.map (fun i => (i, wordTag w i - 2))
      let as (r : Nat) (b : Bytes) (k : Nat) : Option Bytes := if r = k then some b else none
      match gone with
      | [] =>
        if asks.isEmpty then
          match recover pl.slot none (as r0 ply 0) (as r0 ply 1) data with
          | some b => .done b (1 + data.length)
          | none => .never
        else .need [] asks
      | [b] =>
        match rest with
        | [] => if (rolesOf l).any (fun r => r != r0 && (compTag c pl.slot r == some 1 || c.deadRoles.contains r)) then .wait else .never
        | r1 :: _ =>
          match compPly c r1 p with
          | none => .need [r1] asks
          | some (w1, ply1) =>
            if wordTag w1 b != wordTag w b then .never
            else if !asks.isEmpty then .need [] asks
            else if others.any (fun i => wordTag w1 i != wordTag w i) then .wait
            else
              match recover pl.slot (some b) (if r0 = 0 then some ply else some ply1) (if r0 = 0 then some ply1 else some ply) data with
              | some d => .done d (2 + data.length)
              | none => .never
      | _ => .never

/-- Send the reads that a group needs and that are not open. -/
def sendReads (l : Layout) (c : CompRt) (pl : GroupPlace) (p : Nat) (plies : List Nat) (slots : List (Nat × Nat)) (s : State) :
    State :=
  let isOpen (st : State) (k : List Nat) : Bool :=
    st.fx.reqs.any (fun r => r.engine == 1 && r.key == k) || st.fx.waitQ.any (fun r => r.engine == 1 && r.key == k)
  let s := forEach plies (fun r st =>
    let key := [2, c.position, c.hank, c.group, r, p]
    let node := st.nodeAt (st.roleHolder l c.hank pl.band pl.residue r)
    if isOpen st key || node = 0xFFFF then st else st.askPly node c.hank r pl.residue (pl.lap + p) key) s
  forEach slots (fun x st =>
    match st.slotSource l c.hank pl.band pl.residue x.1 with
    | some (j, g, node) =>
      let key := [2, c.position, c.hank, c.group, x.1, j, p]
      if isOpen st key || node = 0xFFFF then st else st.askStripe l node c.hank p x.2 g key
    | none => st) s

/-- Change a completion. -/
def updComp (c : CompRt) (f : CompRt → CompRt) (s : State) : State :=
  { s with loss := { s.loss with
      comps := mapIf (fun x => x.position == c.position && x.hank == c.hank && x.group == c.group) f s.loss.comps } }

/-- A completion is over. -/
def dropComp (c : CompRt) (s : State) : State :=
  { s with loss := { s.loss with
      comps := s.loss.comps.filter (fun x => !(x.position == c.position && x.hank == c.hank && x.group == c.group)) } }

/-- The mask bits of an adopted group: `some none` for an unmasked hank, none until a verified copy is held (R160). -/
def lostMask (s : State) (d : Desc) (pos h g : Nat) : Option (Option (List Bool)) :=
  if !d.masked then some none
  else if s.loss.maskOk.contains (pos, h) then
    let t := maskStripe g
    let bs := match s.loss.masks.find? (fun m => m.1 == pos && m.2.1 == h && m.2.2.1 == t) with
      | some m => m.2.2.2
      | none => zeros Config.stripe
    some (some (maskBits (elemsIn d.count g) (sub (g * 256 - t * Config.stripe) 256 bs)))
  else none

/-- Hold an adopted group for want of a mask copy (R160, Table 6.9). -/
def holdLost (pos h g : Nat) (s : State) : State :=
  let k := (pos, h, g, 1)
  if s.card.heldGroups.contains k then s
  else State.countNote 0x5030 0x09 (hankDetail h (Config.groupElems * g))
    { s with card := { s.card with heldGroups := s.card.heldGroups ++ [k] } }

/-- Note the inputs that a group of a position and hank found unrecoverable, for its report. -/
def addLost (l : Layout) (pos h step : Nat) (ls : List (Nat × Nat × Nat × Nat)) (s : State) : State :=
  if ls.isEmpty then s
  else
    let isIt (r : ReportRt) : Bool := r.position == pos && r.step == step && r.hank == h
    let fresh : ReportRt :=
      { position := pos, step := step, epoch := s.mem.epoch, heir := l.position, hank := h, flags := 0, groups := 0, digest := 0, touched := 0,
        committed := 0, unrecoverable := [] }
    let parts := if s.loss.parts.any isIt then s.loss.parts else s.loss.parts ++ [fresh]
    let add (r : ReportRt) : ReportRt := { r with flags := 1, unrecoverable := nub (r.unrecoverable ++ ls) }
    { s.countLost ls with loss := { (s.countLost ls).loss with parts := mapIf isIt add parts } }

/-- Count the stripes of an adopted group as touched (R99, R231). -/
def touchAdopted (l : Layout) (pos h g : Nat) (s : State) : State :=
  { s with led := { s.led with touched := s.led.touched + groupSize (s.lostDesc l pos h) g } }

/-- The heir may recompute: the inputs of the step are fixed, and the roll-call epoch applies (R69, R166, R208). -/
def mayRecompute (s : State) (step : Nat) : Bool :=
  step < s.fr.step || (s.fr.rcSeen && s.land.exclusion.isSome && s.fr.eN ≤ s.mem.epoch)

/-- Recompute an adopted group from its old stripes and send its sets (R167): the lost owner's shard path, its program with the
scalars of the step, its mask. -/
def computeAdopted (l : Layout) (c : CompRt) (old : List Bytes) (counter : Nat) (s : State) : State :=
  let v := s.asOf c.step
  let d := v.lostDesc l c.position c.hank
  if !s.mayRecompute c.step || s.bobbinShare < s.bobbinUsed (c.group % s.C) + l.sOf c.hank then s
  else
    match s.lostCtx c.position c.step with
    | none => s
    | some ctx =>
      match s.lostMask d c.position c.hank c.group with
      | none => s.holdLost c.position c.hank c.group
      | some mask =>
        let n := elemsIn d.count c.group
        match s.lostGrad ctx c.hank gradFuel (Config.groupElems * c.group) n with
        | none => s
        | some (grads, pulls, lost) =>
          if !pulls.isEmpty then s.sendPulls pulls c.step
          else
            let (s, agree) := s.shadow c.faults c.position c.hank c.group
            if !agree then s.dropComp c
            else
            let s := s.addLost l c.position c.hank c.step lost
            let hi : HankIn :=
              { planes := d.planes, formats := d.formats, prog := v.program d.program, scal := v.scalars d.program,
                draw := { table := v.whorl.tables, seed := v.seedOf c.hank 0, step := c.step }, views := v.viewsOf c.hank }
            let o := updateGroup hi c.group n old grads mask
            let s := (s.countOut { o with views := [], saturated := 0 }).countWords hi n
            let s := ((s.touchAdopted l c.position c.hank c.group).bump 0x5050 counter 1).dropComp c
            let gr : GroupRt :=
              { position := c.position, hank := c.hank, group := c.group, step := c.step, encode := false, old := old,
                new := o.stripes, views := [], sets := [] }
            s.launch l gr

/-- A stripe of a group is decoded: it is kept for the completion and for stripe reads (R142), and its beats count (R148). -/
def keepDecoded (c : CompRt) (step p : Nat) (b : Bytes) (stripes : Nat) (s : State) : State :=
  if stripes = 0 then s
  else (s.updComp c (fun x => { x with decoded := x.decoded ++ [(p, step, b)] })).bump 0x5040 0x11 (beatsOf stripes)

/-- Every stripe of a group from the roles that stand at one step; the state carries the reads that were sent. -/
def collect (l : Layout) (c : CompRt) (pl : GroupPlace) (roles : List Nat) (s : State) : State × Option (List Bytes) × Bool :=
  (List.range (l.sOf c.hank)).foldl (fun acc p =>
    match s.gotOf l c pl roles p with
    | .done b n => (acc.1.keepDecoded c (roleStep c pl.slot (roles.headD 0)) p b n, acc.2.1.map (fun bs => bs ++ [b]), acc.2.2)
    | .need plies slots => (acc.1.sendReads l c pl p plies slots, none, acc.2.2)
    | .wait => (acc.1, none, acc.2.2)
    | .never => (acc.1, none, true)) (s, some [], false)

/-- A group materialized in the reserve is good to read: an uncorrectable stripe is repaired first (R435). -/
def reserveBad (s : State) (l : Layout) (pos h g : Nat) : List Nat :=
  if s.scrub.badBlocks.isEmpty then []
  else ((s.reserveKeys l pos h g).filter (fun k => s.keyBad (k.2, false))).map (fun k => k.1)

/-- Read the reserve stripes of a group that hold bytes (R97). -/
def askReserve (l : Layout) (pos h g : Nat) (s : State) : State :=
  forEach (s.reserveKeys l pos h g) (fun k st => st.askKey (k.2, false)) s

/-- Order 2: the new stripes are the owner's own bytes and go to the reserve, once no die holds a stale copy of the inherited hank's page
(R296). -/
def completeAtN (l : Layout) (c : CompRt) (new : List Bytes) (s : State) : State :=
  let ks := s.inheritPages l c.position c.hank c.group
  if s.coherent ks none then
    let s := (s.dropComp c).touchAdopted l c.position c.hank c.group
    (s.bump 0x5050 0x05 1).storeAdopted l c.position c.hank c.group c.step new
  else s.invalidate ks none

/-- The stripes of a group got under the old layout; they stand at slot 0xFF. -/
def oldStripes (c : CompRt) (n : Nat) : List Bytes :=
  (List.range n).filterMap (fun p => (c.stripes.find? (fun x => x.1 == 0xFF && x.2.1 == p)).map (fun x => x.2.2.2))

/-- Send the initial-encode sets of an adopted group from its stripes under the old layout (R223). -/
def launchOld (l : Layout) (c : CompRt) (bs : List Bytes) (s : State) : State :=
  if s.card.inflight.any (fun x => x.encode && x.position == c.position && x.hank == c.hank && x.group == c.group) then s
  else
    let gr : GroupRt :=
      { position := c.position, hank := c.hank, group := c.group, step := c.step, encode := true,
        old := bs.map (fun b => zeros b.length), new := bs, views := [], sets := [] }
    s.launch l gr

/-- During a re-code an adopted group whose new tag is 0b00 is read under the old layout and encoded first (R223). -/
def encodeOld (l : Layout) (c : CompRt) (s : State) : State :=
  let n := l.sOf c.hank
  let have_ := oldStripes c n
  if have_.length = n then s.launchOld l c have_
  else forEach (List.range n) (fun p st =>
    (st.startDecode (newDecode 2 0 c.position c.hank c.group p 2)).1) s

/-- A stripe read under the old layout is there. -/
def gotOld (d : DecodeRt) (b : Bytes) (s : State) : State :=
  match s.code.layout, s.loss.comps.find? (fun x => x.position == d.position && x.hank == d.hank && x.group == d.group) with
  | some l, some c =>
    let s := s.updComp c (fun x => { x with stripes := x.stripes ++ [(0xFF, d.p, 2, b)] })
    match s.loss.comps.find? (fun x => x.position == d.position && x.hank == d.hank && x.group == d.group) with
    | some c =>
      let have_ := oldStripes c (l.sOf c.hank)
      if have_.length = l.sOf c.hank then s.launchOld l c have_ else s
    | none => s
  | _, _ => s

/-- Table 6.4 for a group that is not materialized at N or N − 1. -/
def advanceTags (l : Layout) (c : CompRt) (s : State) : State :=
  let pl := groupPlace l c.position c.hank c.group
  let roles := rolesOf l
  let silent := roles.filter (fun r => (compPly c r 0).isNone && !c.deadRoles.contains r)
  if !silent.isEmpty then s.sendReads l c pl 0 silent []
  else
    let valid := roles.filter (fun r => match compTag c pl.slot r with
      | some t => tagValid t
      | none => false)
    let atN := valid.filter (fun r => compTag c pl.slot r == some (tagOf c.step))
    let old := valid.filter (fun r => compTag c pl.slot r != some (tagOf c.step))
    if s.code.oldLayout.isSome && roles.any (fun r => compTag c pl.slot r == some 0) then s.encodeOld l c
    else if valid.isEmpty then
      -- order 5 while a recompute runs or a holder may still answer, else order 6
      if roles.any (fun r => compTag c pl.slot r == some 1 || c.deadRoles.contains r) then s else s.fray
    else
      let (s1, got, never) := s.collect l c pl (if old.isEmpty then atN else old)
      if never then s1.fray
      else
        match got with
        | none => s1
        | some bs =>
          if old.isEmpty then
            -- a masked hank's group waits for a verified mask copy under order 2 too (R160)
            if (s1.lostMask (s1.lostDesc l c.position c.hank) c.position c.hank c.group).isNone then s1.holdLost c.position c.hank c.group
            else s1.completeAtN l c bs
          else s1.computeAdopted l c bs (if atN.isEmpty then 0x06 else 0x07)

/-- Go on with a completion as far as what is held allows; what is lacking is asked for. -/
def advanceComp (c0 : CompRt) (s : State) : State :=
  match s.code.layout, s.loss.comps.find? (fun x => x.position == c0.position && x.hank == c0.hank && x.group == c0.group) with
  | some l, some c =>
    if s.fenced || s.loss.frayed then s
    else
      match s.adoption c.position c.hank c.group with
      | none => s.dropComp c
      | some a =>
        if a.heir != l.position then s.dropComp c
        else if a.atStep == some c.step then s.dropComp c
        else if a.atStep.isSome && a.atStep == some (c.step - 1) then
          if s.underRepair c.position c.hank c.group then s
          else
            let s := s.countReread (fun x => x.1 == c.position && x.2.1 == c.hank && x.2.2.1 == c.group)
            let s := s.askReserve l c.position c.hank c.group
            let bad := s.reserveBad l c.position c.hank c.group
            if bad.isEmpty then s.computeAdopted l c (s.readReserve l c.position c.hank c.group) 0x06
            else forEach bad (fun p st => st.addRepair c.position c.hank c.group p) (s.noteReread c.position c.hank c.group)
        else s.advanceTags l c
  | _, _ => s

/-- Go on with every completion. -/
def advanceComps (s : State) : State := forEach s.loss.comps (fun c st => st.advanceComp c) s

/-- ADOPTED_GROUP_COMPLETE: this member takes up an adopted group (R166): after roll-call, or at once for a carried step; `faults` are the
mismatches that the shadow lane finds when it is computed (R381). -/
def completeStart (pos h g : Nat) (faults : List UnitFault) (s : State) : State :=
  match s.adoption pos h g with
  | none => s
  | some a =>
    let step := s.compStep a
    let ready := s.fr.opened && (s.fr.rcSeen || step < s.fr.step) && a.heir == s.myPos && !s.fenced && !s.loss.frayed &&
      a.atStep != some step && (s.inflight? pos h g).isNone && !s.underRepair pos h g && !s.disagrees pos h g
    if !ready then s
    else
      let fresh : CompRt :=
        { position := pos, hank := h, group := g, step := step, plies := [], deadRoles := [], stripes := [], gone := [],
          decoded := [], faults := faults }
      let isIt (x : CompRt) : Bool := x.position == pos && x.hank == h && x.group == g && x.step == step
      if s.loss.comps.any isIt then State.advanceComp fresh (s.updComp fresh (fun x => { x with faults := faults }))
      else
        let s := s.dropComp fresh
        State.advanceComp fresh { s with loss := { s.loss with comps := s.loss.comps ++ [fresh] } }

/-- Once a heartbeat period what was answered without data is asked again: a holder at 0b01 may have finished its recompute, an heir
may have materialized (Table 6.4 order 5; log 27). -/
def retryComps (s : State) : State :=
  match s.code.layout with
  | none => s
  | some l =>
    let again (c : CompRt) : CompRt :=
      let slot := (groupPlace l c.position c.hank c.group).slot
      { c with deadRoles := [], gone := [], plies := c.plies.filter (fun x => tagValid (wordTag x.2.2.1 slot)) }
    advanceComps { s with loss := { s.loss with comps := s.loss.comps.map again } }

/-- A ply or stripe answer for a completion. -/
def feedComp (r : ReqRt) (b : Bytes) (s : State) : State :=
  let status := fld 0 1 b
  let drop (c : CompRt) (p : Nat) : CompRt :=
    { c with plies := c.plies.filter (fun x => x.2.1 != p), stripes := c.stripes.filter (fun x => x.2.1 != p) }
  let find (pos h g : Nat) : Option CompRt := s.loss.comps.find? (fun x => x.position == pos && x.hank == h && x.group == g)
  match r.key with
  | [_, pos, h, g, role, p] =>
    match find pos h g with
    | none => s
    | some c =>
      let upd (x : CompRt) : CompRt :=
        if status = 0 then
          { x with plies := x.plies.filter (fun y => !(y.1 == role && y.2.1 == p)) ++ [(role, p, fld 4 4 b, b.drop 8)] }
        else { x with deadRoles := x.deadRoles ++ [role] }
      (s.updComp c upd).advanceComp c
  | [_, pos, h, g, slot, j, p] =>
    match find pos h g with
    | none => s
    | some c =>
      let par := fld 3 1 r.body
      if status = 0 then
        (s.updComp c (fun x => { x with stripes := x.stripes ++ [(slot, p, par, b.drop 8)] })).advanceComp c
      else if status = 1 && s.isLost j then
        (s.updComp c (fun x => { x with gone := x.gone ++ [(slot, p, par)] })).advanceComp c
      else s.updComp c (fun x => drop x p)
  | _ => s

/-! ## Re-requests at an heir (R86, R162) -/

/-- The lost remote-bound site whose output a re-request asks this member for, as the heir that a notice names. -/
def lostSiteOf (s : State) (m : HeldMsg) : Option (LostCtx × Site × Outbox) :=
  let node := fld 0 2 m.body
  let site := fld 2 1 m.body
  let slot := fld 3 1 m.body
  (bitsOf 16 s.loss.lost).findSome? (fun pos =>
    match s.lostCtx pos s.fr.step with
    | none => none
    | some c =>
      if s.noticeNaming c.node != some s.node then none
      else
        match c.map.outbox.find? (fun o => o.kind == 1 && o.destNode == node && o.destSite == site && o.destSlot == slot) with
        | none => none
        | some o =>
          match c.map.sites.find? (fun x => x.id == o.localSite) with
          | some x => some (c, x, o)
          | none => none)

/-- A re-request for the output of another position's site, whose notice or epoch has not come yet: this member may be the heir that answers
it, so the request waits as one for an output of its own does (R86; log 195). -/
def maySiteOf (s : State) (m : HeldMsg) : Bool :=
  let named (o : Outbox) : Bool :=
    o.kind == 1 && o.destNode == fld 0 2 m.body && o.destSite == fld 2 1 m.body && o.destSlot == fld 3 1 m.body
  match s.planEff with
  | none => false
  | some p =>
    match p.skein, p.replica with
    | some k, some r => r.peers.any (fun x =>
        let heir := s.noticeNaming (k.members.getD x.1 (0xFFFF, 0)).1
        x.1 != k.position && x.2.outbox.any named && (heir == none || (heir == some s.node && !s.isLost x.1)))
    | _, _ => false

/-- Inputs of a lost site that no member can supply: they count, and this heir's report of the position's first hank lists them (R87,
R170); one that was sent goes again. -/
def reportLost (pos : Nat) (ls : List (Nat × Nat × Nat × Nat)) (s : State) : State :=
  let new := ls.filter (fun x => !s.loss.unrecoverable.contains x)
  match s.code.layout with
  | none => s.countLost ls
  | some l =>
    if new.isEmpty then s
    else
      let h := minL (l.hanks.map (fun e => e.1))
      let s := s.addLost l pos h s.fr.step new
      { s with loss := { s.loss with reportsSent := s.loss.reportsSent.filter (fun x => x != (pos, h, s.fr.step)) } }

/-- Answer a re-request for a lost site's output, or pull what it still needs. -/
def serveLost (m : HeldMsg) (c : LostCtx) (x : Site) (o : Outbox) (s : State) : State :=
  let len := fld 4 4 m.body
  let off := fld 8 8 m.body
  let hold (st : State) : State :=
    if st.loss.heldOut.contains m then st else { st with loss := { st.loss with heldOut := st.loss.heldOut ++ [m] } }
  let free (st : State) : State := { st with loss := { st.loss with heldOut := st.loss.heldOut.erase m } }
  if off + len > o.bytes then (free s).sendReAnswer m .notHeld
  else if !s.mayRecompute s.fr.step then hold s
  else
    let (hdr, bytes, pulls, lost) := s.lostOutput c x o off len
    if !pulls.isEmpty then (hold s).sendPulls pulls s.fr.step
    else (((free s).reportLost c.position lost).spendFree len).sendReAnswer m (.data hdr bytes)

/-- A re-request arrives (R86). -/
def onReRequest (m : HeldMsg) (s : State) : State :=
  if m.step = s.fr.step && s.fr.opened && !s.fenced then
    match s.lostSiteOf m with
    | some (c, x, o) => s.serveLost m c x o
    | none =>
      if s.maySiteOf m then { s with loss := { s.loss with heldOut := s.loss.heldOut ++ [m] } } else s.sendReAnswer m (s.reAnswer m)
  else s.sendReAnswer m (s.reAnswer m)

/-- Take up the held re-requests for lost sites' outputs. One that is this member's to answer no more is answered as any other. -/
def serveHeldOut (s : State) : State :=
  forEach s.loss.heldOut (fun m st =>
    match st.lostSiteOf m with
    | some (c, x, o) => st.serveLost m c x o
    | none =>
      if st.maySiteOf m then st
      else
        let st := { st with loss := { st.loss with heldOut := st.loss.heldOut.erase m } }
        st.sendReAnswer m (st.reAnswer m)) s

/-- A re-request answer arrives: data are held, "not held" is final; an answer of another length is a failed response and the
request is sent again (R86, R319, R443). -/
def onReAnswer (m : HeldMsg) (s : State) : State :=
  match s.openReq m.request with
  | none => s
  | some r =>
    if r.typ != 0x14 then s
    else
      match r.key with
      | [step, node, site, slot, length, offset] =>
        let data := m.body.drop 136
        if fld 0 1 m.body = 0 && data.length != length then
          let s := s.freeReq r.engine r.entry
          s.sendPulls [{ dest := r.dest, node := node, site := site, slot := slot, length := length, offset := offset }] step
        else
          let s := s.freeReq r.engine r.entry
          let l := s.loss
          let s :=
            if fld 0 1 m.body = 0 then
              let a : InputAns :=
                { step := step, node := node, site := site, slot := slot, offset := offset, header := sub 8 128 m.body, data := data }
              { s with loss := { l with inputs := l.inputs ++ [a] } }
            else { s with loss := { l with noInputs := l.noInputs ++ [(step, node, site, slot, offset)] } }
          s.advanceComps.serveHeldOut
      | _ => s.freeReq r.engine r.entry

/-! ## Mask copies (R160) -/

/-- The alias entry of a position and hank. -/
def aliasOf (s : State) (pos h : Nat) : Option AliasEnt :=
  match s.planEff with
  | some p => match p.replica with
    | some r => r.aliases.find? (fun a => a.position == pos && a.hank == h)
    | none => none
  | none => none

/-- Bytes of a mask map of `count` elements (R53). -/
def maskBytes (count : Nat) : Nat := ceilDiv count 8

/-- A mask stripe of a lost member's hank is written to 0x2040.07: the copy is accepted once every stripe is there and the digest
agrees. False where the write is refused. -/
def lostMaskStripe (pos h t : Nat) (bs : Bytes) (s : State) : State × Bool :=
  match s.code.layout, s.aliasOf pos h with
  | some l, some a =>
    let n := ceilDiv (maskBytes (l.elems pos h)) Config.stripe
    if t ≥ n then (s, false)
    else
      let isIt (m : Nat × Nat × Nat × Bytes) : Bool := m.1 == pos && m.2.1 == h && m.2.2.1 == t
      let masks := s.loss.masks.filter (fun m => !isIt m) ++ [(pos, h, t, bs)]
      let have_ := masks.filter (fun m => m.1 == pos && m.2.1 == h)
      let digest := have_.foldl (fun acc m => add64 acc (stripeHash h 0x10 m.2.2.1 m.2.2.2)) 0
      let ok := have_.length == n && digest == a.maskDigest
      let s := { s with loss := { s.loss with
        masks := masks
        maskOk := s.loss.maskOk.filter (fun k => k != (pos, h)) ++ (if ok then [(pos, h)] else []) } }
      if ok then
        let held := s.card.heldGroups.filter (fun k => !(k.1 == pos && k.2.1 == h && k.2.2.2 == 1))
        (advanceComps { s with card := { s.card with heldGroups := held } }, true)
      else (s, true)
  | _, _ => (s, false)

/-! ## Adoption reports (R170) -/

/-- The body of an adoption report (Table 6.5). -/
def reportBody (r : ReportRt) : Bytes :=
  let le (a b : Nat × Nat × Nat × Nat) : Bool :=
    decide ((((a.1 * 256 + a.2.1) * 256 + a.2.2.1) * 2 ^ 32 + a.2.2.2) ≤ (((b.1 * 256 + b.2.1) * 256 + b.2.2.1) * 2 ^ 32 + b.2.2.2))
  let ls := (sortBy le r.unrecoverable).take 256
  toLE 2 r.hank ++ toLE 1 r.position ++ toLE 1 (if ls.isEmpty then 0 else 1) ++ toLE 4 r.groups ++ toLE 8 r.digest ++
    toLE 8 r.touched ++ toLE 8 r.committed ++ ls.flatMap (fun x => toLE 2 x.1 ++ toLE 1 x.2.1 ++ toLE 1 x.2.2.1 ++ toLE 4 x.2.2.2)

/-- This heir's groups of a position and hank have committed the step. -/
def hankDone (s : State) (pos h step : Nat) : Bool :=
  (s.myAdopted pos).all (fun a => a.hank != h || s.leavesSkein h || (match a.atStep with
    | some n => step ≤ n
    | none => false))

/-- Send the reports that are due. -/
def sendReports (s : State) : State :=
  if s.loss.lost = 0 || s.fenced || s.loss.frayed then s
  else
    match s.code.layout, s.recordHeir with
    | some l, some heir =>
      let steps (pos : Nat) : List Nat :=
        ((s.loss.carry.filter (fun c => c.1 == pos)).map (fun c => c.2)) ++
          (if s.fr.opened && s.fr.rcSeen then [s.fr.step] else [])
      let due := (bitsOf 16 s.loss.lost).flatMap (fun pos =>
        if (s.myAdopted pos).isEmpty && !s.loss.parts.any (fun p => p.position == pos) then []
        else (steps pos).flatMap (fun st => ((l.hanks.map (fun e => e.1)).filter (fun h => !s.leavesSkein h)).filterMap (fun h =>
          if s.hankDone pos h st && !s.loss.reportsSent.contains (pos, h, st) then some (pos, h, st) else none)))
      forEach due (fun x st =>
        let zero : ReportRt :=
          { position := x.1, step := x.2.2, epoch := st.mem.epoch, heir := l.position, hank := x.2.1, flags := 0, groups := 0, digest := 0, touched := 0,
            committed := 0, unrecoverable := [] }
        let r := (st.loss.parts.find? (fun p => p.position == x.1 && p.hank == x.2.1 && p.step == x.2.2)).getD zero
        let st := { st with loss := { st.loss with reportsSent := st.loss.reportsSent ++ [x] } }
        let st := st.bump 0x5050 0x08 1
        st.enqueue { engine := 0, dest := st.nodeAt heir, typ := 0x1B, way := 0, alt := true, again := false, epoch := st.mem.epoch,
                     step := x.2.2, body := reportBody r, key := [x.1, x.2.1, x.2.2] }) s
    | _, _ => s

/-- The inputs that a report names: of the record heir's own, every one it holds (R170). -/
def reportInputs (s : State) (pos h step heir : Nat) (b : Bytes) : List (Nat × Nat × Nat × Nat) :=
  let own := s.loss.parts.find? (fun p => p.position == pos && p.hank == h && p.step == step)
  match own with
  | some p => if heir = s.myPos then p.unrecoverable else
      (pieces 8 (b.drop 32)).map (fun e => (fld 0 2 e, fld 2 1 e, fld 3 1 e, fld 4 4 e))
  | none => (pieces 8 (b.drop 32)).map (fun e => (fld 0 2 e, fld 2 1 e, fld 3 1 e, fld 4 4 e))

/-- A report arrives at the record heir. One sent before the epoch that last moved groups is acknowledged and counts no more (R170). -/
def onReport (m : HeldMsg) (s : State) : State :=
  let b := m.body
  let s := s.reply m 0x1C (b.take 3 ++ zeros 5)
  match s.posOf m.source with
  | none => s
  | some heir =>
    let r : ReportRt :=
      { position := fld 2 1 b, step := m.step, epoch := m.epoch, heir := heir, hank := fld 0 2 b, flags := fld 3 1 b, groups := fld 4 4 b,
        digest := fld 8 8 b, touched := fld 16 8 b, committed := fld 24 8 b,
        unrecoverable := s.reportInputs (fld 2 1 b) (fld 0 2 b) m.step heir b }
    let isIt (x : ReportRt) : Bool := x.position == r.position && x.step == r.step && x.heir == r.heir && x.hank == r.hank
    if m.epoch < s.loss.spreadEpoch then s
    else { s with loss := { s.loss with reports := s.loss.reports.filter (fun x => !isIt x) ++ [r] } }

/-- A report acknowledgement arrives. -/
def onReportAck (m : HeldMsg) (s : State) : State :=
  match s.openReq m.request with
  | some r => if r.typ = 0x1B then s.freeReq r.engine r.entry else s
  | none => s

/-- Every expected report of a position and step is in: one per heir and hank (R170). -/
def reportsIn (s : State) (pos step : Nat) : Bool :=
  match s.code.layout with
  | none => false
  | some l => (s.heirsOf pos).all (fun heir => l.hanks.all (fun e => s.leavesSkein e.1 || s.loss.reports.any (fun r =>
      r.position == pos && r.step == step && r.heir == heir && r.hank == e.1)))

/-- The adopted groups of this member have committed every step they owe (R171). -/
def adoptedDone (s : State) : Bool :=
  s.loss.lost = 0 || s.loss.adopted.all (fun a => a.heir != s.myPos || s.leavesSkein a.hank || a.atStep == some s.fr.step)

/-! ## Cover again (R155, R164) -/

/-- A position is covered again: its adoption ends, its reserve stripes are released, its roles go back to the layout's holder. -/
def coverPosition (pos : Nat) (s : State) : State :=
  match s.code.layout with
  | none => s
  | some l =>
    let back := s.loss.roles.filter (fun r => l.holder r.residue r.role == pos)
    let s := forEach (back.filter (fun r => r.holder == l.position)) (fun r st =>
      forEach (List.range l.k) (fun i st2 => st2.setTag r.hank r.band r.residue r.role i 0) st) s
    let isBack (r : RecompRt) : Bool := back.any (fun b =>
      b.hank == r.hank && b.band == r.band && b.residue == r.residue && b.role == r.role)
    let s := s.relayReserve l (s.loss.adopted.filter (fun a => a.position != pos))
    { s with
      loss := { s.loss with
        lost := clearBit s.loss.lost pos
        roles := s.loss.roles.filter (fun r => !(l.holder r.residue r.role == pos))
        comps := s.loss.comps.filter (fun c => c.position != pos)
        unclassed := s.loss.unclassed.filter (fun x => x.1 != pos)
        recordsDue := s.loss.recordsDue.filter (fun r => r.1 != pos)
        carry := s.loss.carry.filter (fun c => c.1 != pos)
        masks := s.loss.masks.filter (fun m => m.1 != pos)
        maskOk := s.loss.maskOk.filter (fun m => m.1 != pos) }
      code := { s.code with
        recomps := s.code.recomps.filter (fun r => !isBack r)
        taken := s.code.taken.filter (fun t => l.holder t.residue t.role != pos) }
      card := { s.card with
        inflight := s.card.inflight.filter (fun g => g.position != pos)
        heldGroups := s.card.heldGroups.filter (fun g => g.1 != pos) } }

/-! ## Threshold -/

/-- What losses release and carry at the threshold of step `n` (R171). -/
def lossThreshold (n : Nat) (s : State) : State :=
  -- the wait of a re-request for a lost site's output ends here (R86)
  let s := forEach s.loss.heldOut (fun m st => st.sendReAnswer m .notHeld) s
  let l := s.loss
  let carry := l.lateLost.map (fun p => (p, n))
  let scal := s.regs.filter (fun r => 0x2300 ≤ addrIdx r.1 && addrIdx r.1 ≤ 0x233F)
  { s with loss := { l with
      inputs := l.inputs.filter (fun a => a.step == n && !carry.isEmpty)
      noInputs := l.noInputs.filter (fun a => a.1 == n && !carry.isEmpty)
      unrecoverable := [], parts := l.parts.filter (fun p => p.step == n), reports := l.reports.filter (fun r => r.step == n)
      reportsSent := l.reportsSent.filter (fun r => r.2.2 == n), recordsIssued := l.recordsIssued.filter (fun r => r.2 == n)
      heldOut := [], lateLost := [], carry := carry, prevScalars := scal, prevExclusion := s.land.exclusion.getD [], prevEN := s.fr.eN
      comps := l.comps.filter (fun c => c.step == n && carry.any (fun k => k.1 == c.position)) } }

/-- The record heir owes the adopted records of the step that has just opened. -/
def oweOpened (s : State) : State := s.oweRecords (bitsOf 16 s.loss.lost)

end State

end Sys2Proof.Machine
end

