-- ==== Sys2Proof/Machine/Rebuild.lean ====
section
/-! DEFINITION. Spares, evacuation and replica copies by fill sets (R173 to R178, R186), and the durable drain (R180 to R184). -/

namespace Sys2Proof.Machine

namespace State

/-- The replica-and-spare section of the plan in effect. -/
def replicaSec (s : State) : Option ReplicaSec :=
  match s.planEff with
  | some p => p.replica
  | none => none

/-- The position this member stands for as a spare; 0xFF for a skein member. -/
def spareOf (s : State) : Nat :=
  match s.replicaSec with
  | some r => r.spareOf
  | none => 0xFF

/-! ## A spare or target (R173 to R175) -/

/-- Every group of the LOADING STATE hanks: (hank, g). -/
def loadingGroups (s : State) : List (Nat × Nat) :=
  (s.hanks.filter (fun r => r.desc.cls == 1 && r.state == 1)).flatMap (fun r =>
    (List.range (groupsOf r.desc.count)).map (fun g => (r.hank, g)))

/-- The spare holds every group at a step: it shows the step and raises an event (R174, R175). -/
def checkSpare (step : Nat) (s : State) : State :=
  let all := s.loadingGroups
  if !all.isEmpty && all.all (fun x => s.loss.filled.contains (x.1, x.2, step)) then
    State.changed 0x2050 0x06 step { s with loss := { s.loss with spareState := 2, spareStep := step } }
  else s

/-- A fill set arrives: stored when this member is a spare or target of the position and the hank is LOADING, once no die holds a copy of
the page that it changes (R296). A fenced member keeps its hearth unchanged (R213) and refuses the set. -/
def onFillSet (m : HeldMsg) (s : State) : State :=
  let b := m.body
  let h := fld 0 2 b
  let pos := fld 2 1 b
  let g := fld 4 4 b
  let kind := fld 8 1 b
  let target := s.spareOf == pos || (kind == 2 && s.myPos == pos)
  let ack (code : Nat) (st : State) : State :=
    st.reply m 0x1A (toLE 2 h ++ toLE 1 code ++ [0] ++ toLE 4 g ++ toLE 8 m.step)
  match s.hank? h with
  | none => ack 1 s
  | some r =>
    let ks := spanPages s.C h 0 (g * Config.stripe) Config.stripe
    if !(r.desc.cls = 1 && r.state = 1 && target && g < groupsOf r.desc.count &&
        fld 3 1 b == stripesPerGroup r.desc.planes r.desc.formats) || s.fenced then ack 1 s
    else if !s.coherent ks none then
      State.invalidate ks none { s with tier := { s.tier with heldAtoms := s.tier.heldAtoms ++ [m] } }
    else
      let s := s.writeGroup r g (pieces Config.stripe (b.drop 16))
      let s := forEach (groupStripesOf r.desc g) (fun x st =>
        st.clearKey (st.planeKey r x.1.1 (planeStripe g x.1) g)) s
      let filled := s.loss.filled.filter (fun f => !(f.1 == h && f.2.1 == g)) ++ [(h, g, m.step)]
      let state := if s.loss.spareState = 0 then 1 else s.loss.spareState
      let s := { s with loss := { s.loss with filled := filled, spareState := state } }
      ack 0 ((s.bump 0x5050 0x0F 1).checkSpare m.step)

/-- Fill sets that waited for a die are tried again. -/
def retryFills (s : State) : State :=
  let fills := s.tier.heldAtoms.filter (fun m => m.typ == 0x19)
  if fills.isEmpty then s
  else
    forEach fills (fun m st => st.onFillSet m)
      { s with tier := { s.tier with heldAtoms := s.tier.heldAtoms.filter (fun m => m.typ != 0x19) } }

/-! ## Replica copy (R178) -/

/-- Every group of this member's LIVE STATE hanks. -/
def liveGroups (s : State) : List (Nat × Nat) :=
  (s.hanks.filter (fun r => r.desc.cls == 1 && r.state == 2)).flatMap (fun r =>
    (List.range (groupsOf r.desc.count)).map (fun g => (r.hank, g)))

/-- The step at which a group of this member stands. -/
def groupAt (s : State) (h g : Nat) : Nat :=
  if s.card.done.contains (s.myPos, h, g) then s.fr.step else s.fr.step - 1

/-- Send groups of a replica copy while entries are free; a group waits for the copied step to be sealed. -/
def copyPump : Nat → State → State
  | 0, s => s
  | k + 1, s =>
    match s.loss.copy with
    | none => s
    | some c =>
      match c.todo with
      | [] => s
      | (h, g) :: rest =>
        match s.hank? h with
        | none => copyPump k { s with loss := { s.loss with copy := some { c with todo := rest } } }
        | some r =>
          if (s.freeEntry 0 0x19 [2, s.myPos, h, g] []).isNone || !s.fr.everSealed || s.fr.lastSealed < c.step ||
              s.groupAt h g != c.step then s
          else
            let s := s.askGroup s.ans r g
            let bad := s.badStripes r g
            if !bad.isEmpty then forEach bad (fun p st => st.addRepair st.myPos h g p) s
            else
              let s := s.sendFill c.target 2 s.myPos h g c.step (s.readGroup r g)
              copyPump k { s with loss := { s.loss with copy := some { c with todo := rest } } }

/-- Send what a replica copy may send. -/
def copyGo (s : State) : State :=
  match s.loss.copy with
  | some c => s.copyPump (c.todo.length + 1)
  | none => s

/-- Writing a target to 0x2070.01 starts the copy of the last sealed step; once groups of the open step have been taken up, that is
the open step as it seals. -/
def copyStart (node : Nat) (s : State) : State :=
  let own (p : Nat) : Bool := p == s.myPos
  let moved := s.fr.phase == .update && (s.card.done.any (fun d => own d.1) || s.card.inflight.any (fun g => own g.position))
  let step := if moved then s.fr.step else if s.fr.phase == .sealed then s.fr.step else s.fr.step - 1
  let c : CopyRt := { target := node, kind := 2, step := step, todo := s.liveGroups, acked := [] }
  let s := s.dropReqs (fun e t k => e == 0 && t == 0x19 && k.headD 0 == 2)
  copyGo { s with loss := { s.loss with copy := some c, copyState := 1, copyStep := step } }

/-- A group of the copy is stored; with all of them the copy is served (0x5050.10). -/
def copyAck (h g step : Nat) (s : State) : State :=
  match s.loss.copy with
  | none => s
  | some c =>
    let acked := if c.acked.contains (h, g, step) then c.acked else c.acked ++ [(h, g, step)]
    let s := { s with loss := { s.loss with copy := some { c with acked := acked } } }
    if c.todo.isEmpty && s.liveGroups.all (fun x => acked.contains (x.1, x.2, c.step)) then
      State.changed 0x2070 0x02 2 (State.bump 0x5050 0x10 1
        { s with loss := { s.loss with copy := none, copyState := 2, copyStep := c.step } })
    else s.copyGo

/-! ## Evacuation (R185, R186) -/

/-- The evacuation target: the spare entry flagged for it, else 0x2050.01. -/
def evacNode (s : State) : Nat :=
  match s.replicaSec with
  | some r => match r.spares.find? (fun x => bit x.flags 0) with
    | some x => x.node
    | none => s.reg 0x2050 0x01
  | none => s.reg 0x2050 0x01

/-- Evacuation starts at the threshold that opens the step of 0x2050.02: to the target that a warning made ready, else to the one named
now. A later step written there starts one anew. -/
def evacStart (step : Nat) (s : State) : State :=
  let t := if s.loss.evac = 1 && s.loss.evacTarget != 0xFFFF then s.loss.evacTarget else s.evacNode
  if s.reg 0x2050 0x02 = step && step != 0 && t != 0xFFFF then
    State.changed 0x2050 0x03 2 { s with loss := { s.loss with evac := 2, evacTarget := t, evacAcked := [] } }
  else s

/-- The target has stored a group; complete at step S when it holds every group at S. -/
def evacAck (h g step : Nat) (s : State) : State :=
  let acked := s.loss.evacAcked.filter (fun x => !(x.1 == h && x.2.1 == g)) ++ [(h, g, step)]
  let s := { s with loss := { s.loss with evacAcked := acked } }
  if s.liveGroups.all (fun x => acked.contains (x.1, x.2, step)) then
    State.changed 0x2050 0x04 step { s with loss := { s.loss with evac := 3, evacDoneStep := step } }
  else s

/-- A fill acknowledgement arrives. -/
def onFillAck (m : HeldMsg) (s : State) : State :=
  match s.openReq m.request with
  | none => s
  | some r =>
    match r.typ, r.key with
    | 0x19, [kind, _, h, g] =>
      let s := s.freeReq r.engine r.entry
      let s :=
        if fld 2 1 m.body != 0 then s
        else if kind = 1 then s.evacAck h g (fld 8 8 m.body)
        else if kind = 2 then s.copyAck h g (fld 8 8 m.body)
        else s
      s.copyGo
    | 0x19, _ => s.freeReq r.engine r.entry
    | _, _ => s

/-! ## Durable drain (R180 to R183) -/

/-- A step drains (R180). -/
def drains (s : State) (step : Nat) : Bool :=
  match s.planEff with
  | some p =>
    let i := s.reg 0x2060 0x02
    bit p.frame.flags 0 && (step == s.reg 0x2060 0x01 ||
      (i != 0 && p.frame.firstStep ≤ step && (step - p.frame.firstStep) % i == 0))
  | none => false

/-- The digest of this member's record of a step. -/
def recordOf (s : State) (step : Nat) : Nat :=
  match s.led.ring.find? (fun r => r.step == step && !r.adopted) with
  | some r => r.digest
  | none => 0

/-- The image header (Table 6.7), with what stood when the drain began. -/
def drainHeader (s : State) (d : DrainRt) (complete : Nat) : Bytes :=
  let l := d.layout
  fit 4096 (toLE 4 d.job ++ toLE 4 d.epoch ++ toLE 8 (d.step - 1) ++ toLE 8 s.loss.drains ++ toLE 2 d.node ++
    toLE 1 l.position ++ toLE 1 complete ++ zeros 4 ++ toLE 8 (l.ns l.position) ++ toLE 8 d.recordDigest)

/-- The offset of 4 KiB block `i` of slot `slot` at the storage node. -/
def drainOff (l : Layout) (base slot i : Nat) : Nat := base + slot * (l.ns l.position + 1) * 4096 + i * 4096

/-- Send one drain write. -/
def drainWrite (d : DrainRt) (way off : Nat) (data : Bytes) (key : List Nat) (s : State) : State :=
  s.request 4 0x01 d.target way (toLE 8 off ++ toLE 4 data.length ++ zeros 4 ++ data) key

/-- Change the drain. -/
def setDrain (d : Option DrainRt) (s : State) : State := { s with loss := { s.loss with drain := d } }

/-- The coded stripe at the drain cursor of a channel (R181): hank, group, p. -/
def drainAt (s : State) (d : DrainRt) (ch : Nat) : Option (Nat × Nat × Nat) :=
  let l := d.layout
  l.chanStripe s.C ch l.position (sortBy (fun a b => decide (a ≤ b)) (l.hanks.map (fun e => e.1))) (natAt d.next ch)

/-- The memory place of a stripe of a group. -/
def stripePlace (s : State) (r : HankRt) (g p : Nat) : Option (Nat × Bool) :=
  ((groupStripesOf r.desc g).find? (fun x => x.2 == p)).map (fun x => s.planeKey r x.1.1 (planeStripe g x.1) g)

/-- Why a drain cursor does not move: the stripe cannot be read until it is repaired. -/
def drainBlocked (s : State) (x : Nat × Nat × Nat) : Bool :=
  match s.hank? x.1 with
  | none => true
  | some r => !s.leavesSkein x.1 && (s.badStripes r x.2.1).contains x.2.2

/-- The first channel, from the one whose cursor is furthest back, whose cursor can move. -/
def drainNext (s : State) (d : DrainRt) : Option (Nat × Nat × Nat × Nat) :=
  (sortBy (fun a b => decide (natAt d.next a ≤ natAt d.next b)) (List.range s.C)).findSome? (fun ch =>
    match s.drainAt d ch with
    | some x => if s.drainBlocked x then none else some (ch, x)
    | none => none)

/-- Every channel's cursor has passed its last stripe. -/
def drainExhausted (s : State) (d : DrainRt) : Bool := (List.range s.C).all (fun ch => (s.drainAt d ch).isNone)

/-- The drain's writes are all answered: it is complete, or incomplete when one failed (R182). -/
def drainEnd (d : DrainRt) (s : State) : State :=
  if d.failed then (s.setDrain none).bump 0x5050 0x0C 1
  else if d.stage = 1 then
    let s := s.setDrain (some { d with stage := 2, openWrites := 1 })
    s.drainWrite d 0 (drainOff d.layout d.base d.slot 0) (s.drainHeader d 1) [0, 2 ^ 32 + 1]
  else
    let s := { s with loss := { s.loss with
      drain := none, drains := s.loss.drains + 1, drainImageStep := d.step - 1, drainDuration := s.now - d.startAt } }
    State.suggest ((s.bump 0x5050 0x0B 1).journalState 0x26 s.drainBody)

/-- Move one channel's cursor past a stripe: it is read and sent, but a hank that leaves the skein is passed over (R218). -/
def drainMove (d : DrainRt) (ch h g p : Nat) (s : State) : State :=
  let l := d.layout
  let past := setAt d.next ch (natAt d.next ch + 1)
  match s.hank? h with
  | none => s
  | some r =>
    if s.leavesSkein h then s.setDrain (some { d with next := past })
    else
      let s := match s.stripePlace r g p with
        | some k => s.askKey k
        | none => s
      if s.drainBlocked (h, g, p) then s.addRepair l.position h g p
      else
        let u := l.denseStripe l.position h g p
        let s := s.setDrain (some { d with next := past, openWrites := d.openWrites + 1 })
        s.drainWrite d (u % 2) (drainOff l d.base d.slot (u + 1)) ((s.readGroup r g).getD p []) [0, u]

/-- Read stripes into the send queue while entries of the twist unit are free (R181). -/
def drainPump : Nat → State → State
  | 0, s => s
  | k + 1, s =>
    match s.loss.drain with
    | none => s
    | some d =>
      if d.stage != 1 || (s.freeEntry 4 0x01 [0, 0] []).isNone then s
      else
        match s.drainNext d with
        | none => s
        | some (ch, h, g, p) => drainPump k (s.drainMove d ch h g p)

/-- Send what the drain may send: a stripe that a cursor cannot read is repaired first. The drain ends with its last answer. -/
def drainGo (s : State) : State :=
  match s.loss.drain with
  | none => s
  | some d =>
    let s := forEach (List.range s.C) (fun ch st => match st.drainAt d ch with
      | some (h, g, p) => if (st.hank? h).isSome && st.drainBlocked (h, g, p) then st.addRepair d.layout.position h g p else st
      | none => st) s
    let s := s.drainPump (2 * d.layout.ns d.layout.position + 1)
    match s.loss.drain with
    | some d => if d.stage = 1 && d.openWrites = 0 && s.drainExhausted d then s.drainEnd d else s
    | none => s

/-- A drain step opens (R180, R182): a drain that still has writes outstanding goes on and the step is skipped. -/
def drainOpen (step : Nat) (s : State) : State :=
  match s.code.layout, s.replicaSec with
  | some l, some r =>
    if !s.drains step || l.position ≥ l.n then s
    else if s.loss.drain.isSome then s.countNote 0x5050 0x0D step
    else
      let d : DrainRt :=
        { step := step, slot := s.loss.drains % 2, startAt := s.now, layout := l, job := s.jobTag, node := s.node,
          epoch := s.mem.epoch, recordDigest := s.recordOf (step - 1),
          target := r.drainNode, base := r.drainBase, next := List.replicate s.C 0, openWrites := 1, failed := false, stage := 1 }
      let s := s.setDrain (some d)
      let s := s.drainWrite d 0 (drainOff l r.drainBase d.slot 0) (s.drainHeader d 0) [0, 2 ^ 32]
      drainGo { s with fr := { s.fr with drainStep := true } }
  | _, _ => s

/-- A drain write is answered, or has timed out; a plan that has changed since, or the end of the skein, leaves the drain as it was. -/
def drainAnswer (ok : Bool) (s : State) : State :=
  match s.loss.drain with
  | none => s
  | some d =>
    let d := { d with openWrites := d.openWrites - 1, failed := d.failed || !ok }
    let s := s.setDrain (some d)
    if d.stage = 2 then s.drainEnd d else s.drainGo

end State

end Sys2Proof.Machine
end

