-- ==== Sys2Proof/Machine/Membership.lean ====
section
/-! DEFINITION. Membership (chapter 7): HELLO and discovery, proposals, votes and epoch records, heartbeats and suspicion, vacate,
re-coding. -/

namespace Sys2Proof.Machine

/-- Read a proposal (Table 7.4). -/
def readProposal (b : Bytes) : Proposal :=
  { epoch := fld 0 4 b, base := fld 4 4 b, skeinId := fld 8 2 b, members := fld 10 2 b, lintel := fld 12 1 b,
    nodes := (List.range 16).map (fun i => fld (16 + 2 * i) 2 b), raw := b.take 48 }

/-- What Table 7.4 fixes of the bytes themselves: reserved bytes zero, 0xFFFF for the node of a position not named. -/
def Proposal.wellFormed (p : Proposal) : Bool :=
  fld 13 3 p.raw == 0 && (List.range 16).all (fun i => bit p.members i || natAt p.nodes i == 0xFFFF)

/-- An epoch record's 56 bytes (Table 7.3). -/
def epochRecordBytes (r : Proposal × Nat) : Bytes := r.1.raw ++ toLE 2 r.2 ++ zeros 6

/-- Entries of the discovery table (Table 7.8). -/
def discoveryCap : Nat := 48

namespace State

/-- This member's position is named in the epoch in effect. -/
def isBase (s : State) : Bool := bit s.mem.named s.myPos && s.myPos < 16

/-! ## Proposals and votes (R203 to R206) -/

/-- The conditions of R204 but for the last. -/
def proposalOk (s : State) (p : Proposal) : Bool :=
  match s.code.layout with
  | none => false
  | some l =>
    let named := bitsOf 16 p.members
    let spare (pos node : Nat) : Bool := match s.replicaSec with
      | some r => r.spares.any (fun x => x.node == node && (x.position == pos || x.position == 0xFF))
      | none => false
    p.wellFormed && p.base < p.epoch && p.base == s.mem.epoch && p.skeinId == s.mem.skeinId && p.members < 2 ^ 16 &&
      named.all (fun i => decide (i < l.n)) && bit p.members p.lintel && p.lintel < 16 &&
      named.all (fun i => if bit s.mem.named i then natAt p.nodes i == s.nodeAt i else spare i (natAt p.nodes i)) &&
      named.all (fun i => !s.loss.excludedNodes.contains (i, natAt p.nodes i))

/-- The nodes that a proposal or its base names, but for this one. -/
def voteNodes (s : State) (p : Proposal) : List Nat :=
  nub (((bitsOf 16 s.mem.named).map s.nodeAt ++ (bitsOf 16 p.members).map (fun i => natAt p.nodes i)).filter
    (fun n => n != s.node && n != 0xFFFF))

/-- Send this member's vote for a proposal to a node. -/
def sendVote (p : Proposal) (node : Nat) (s : State) : State :=
  (s.bump 0x5060 0x08 1).sendMgmt 0x32 node (p.raw ++ toLE 1 s.myPos ++ zeros 7)

/-- The base positions whose votes carry a proposal's bytes. -/
def votersOf (s : State) (raw : Bytes) : List Nat :=
  nub ((s.mem.votes.filter (fun v => v.2 == raw && bit s.mem.named v.1)).map (fun v => v.1))

/-- Requests and sets that a new epoch concerns, after the membership has changed: losses and spares (R206), the messages held for
the epoch. -/
def afterEpoch (gone : List (Nat × Nat)) (s : State) : State :=
  let s := s.onLosses gone
  let s := s.resendAll
  s.releaseSets.releaseReads.advanceComps.serveHeldOut

/-- Vacates that wait are acknowledged once the sender has no position here, or this member's own STATE hanks are VACATING or EMPTY
(R216). -/
def vacatePass (s : State) : State :=
  let live := s.hanks.any (fun r => r.desc.cls == 1 && (r.state == 1 || r.state == 2))
  let ready (v : Nat × Nat × Nat) : Bool := (s.posOf v.1).isNone || !live
  let now_ := s.mem.vacateWait.filter ready
  let s := { s with mem := { s.mem with vacateWait := s.mem.vacateWait.filter (fun v => !ready v) } }
  forEach now_ (fun v st =>
    st.sendMgmt 0x35 v.1 (toLE 2 v.2.1 ++ toLE 1 v.2.2 ++ toLE 1 1 ++ toLE 4 st.mem.epoch)) s

/-- A vacate no longer awaits the nodes that the epoch in effect does not name (R216). -/
def dropAwaited (s : State) : State :=
  match s.mem.vacating with
  | some (id, pos, nodes) =>
    let named (n : Nat) : Bool := (s.posOf n).isSome
    { s with mem := { s.mem with
        vacating := some (id, pos, nodes.filter named), vacateMore := s.mem.vacateMore ++ nodes.filter (fun n => !named n) } }
  | none => s

/-- Every position of the epoch in effect has sent Recoded: the old store and tags go (R222). -/
def recodeEnd (s : State) : State :=
  if s.mem.recode = 2 && (bitsOf 16 s.mem.named).all (fun i => bit s.mem.recodedFrom i) then
    let s := { s with
      mem := { s.mem with recode := 0 }
      code := { s.code with
        oldLayout := none, oldStore := { base := 0, hanks := [] }, oldTags := [], oldRoles := [], oldTaken := [], oldAdopted := [] } }
    (s.bump 0x5060 0x12 1).setMemState 2
  else s

/-- What a new epoch does at a fenced member: it commits, sends and stores nothing; its losses count, and the sets and reads held are
handled again, which the fence answers (R206, R213). -/
def fencedEpoch (gone : List (Nat × Nat)) (s : State) : State :=
  let s := if gone.isEmpty then s else (forEach gone (fun x st => st.countLoss x.1 x.2) s).suggest
  s.releaseSets.releaseReads

/-- Apply an epoch (R206); `rec_` when an epoch record brought it (R207). -/
def applyEpoch (p : Proposal) (voters : Nat) (rec_ : Bool) (s : State) : State :=
  let old := bitsOf 16 s.mem.named
  let gone := (old.filter (fun i => !bit p.members i)).map (fun i => (i, s.nodeAt i))
  let all := s.mem.records ++ [(p, voters)]
  let s := { s with mem := { s.mem with
    epoch := p.epoch, named := p.members, lintel := p.lintel, nodes := p.nodes, pending := none, votes := [], catchUp := [],
    suspected := (bitsOf 16 s.mem.suspected).foldl (fun a i => if bit p.members i then setBit a i else a) 0,
    records := all.drop (all.length - 4) } }
  let s := State.changed 0x2000 0x03 p.epoch (s.bump 0x5060 0x0A 1)
  let s := if rec_ then s.bump 0x5060 0x0B 1 else s
  let me := (bitsOf 16 p.members).any (fun i => natAt p.nodes i == s.node)
  let s := s.dropAwaited
  if !me then (s.fence 1).vacatePass
  else if s.fenced then (s.fencedEpoch gone).vacatePass
  else (s.afterEpoch gone).recodeEnd.vacatePass

/-- Apply whatever proposal the votes held carry to the count: the pending one, or one that meets R204 but for its last
condition (R205). -/
def countVotes (s : State) : State :=
  let named := bitsOf 16 s.mem.named
  let met (raw : Bytes) : Bool :=
    let v := s.votersOf raw
    countMet named.length v.length (v.contains s.mem.lintel)
  match (nub (s.mem.votes.map (fun v => v.2))).find? met with
  | none => s
  | some raw =>
    let p := readProposal raw
    let mine := match s.mem.pending with
      | some q => q.raw == raw
      | none => false
    if mine || s.proposalOk p then s.applyEpoch p ((s.votersOf raw).foldl setBit 0) false else s

/-- A proposal is written to 0x2010.01 (R203 to R205); the reason of a refusal. -/
def onProposal (b : Bytes) (s : State) : State × Nat :=
  let p := readProposal b
  let clash := (match s.mem.pending with
    | some q => q.epoch == p.epoch && q.raw != p.raw
    | none => false) || s.mem.records.any (fun r => r.1.epoch == p.epoch && r.1.raw != p.raw)
  let same := (match s.mem.pending with
    | some q => q.raw == p.raw
    | none => false) || s.mem.records.any (fun r => r.1.raw == p.raw)
  if !p.wellFormed then (s, 4)
  else if same then (s, 0)
  else if clash then (s.countNote 0x5060 0x14 p.epoch, 4)
  else if !s.proposalOk p || s.mem.votedBases.contains p.base then (s.bump 0x5060 0x07 1, 4)
  else
    let s := { s with mem := { s.mem with pending := some p } }
    if s.isBase then
      let s := { s with mem := { s.mem with
        votedBases := s.mem.votedBases ++ [p.base], votes := s.mem.votes ++ [(s.myPos, p.raw)] } }
      let s := forEach (s.voteNodes p) (fun n st => st.sendVote p n) s
      (s.countVotes, 0)
    else (s.countVotes, 0)

/-- A vote arrives (R205): it counts for the base position whose node sent it. -/
def onVote (m : HeldMsg) (s : State) : State :=
  let s := s.bump 0x5060 0x09 1
  let raw := m.body.take 48
  let voter := fld 48 1 m.body
  if fld 4 4 raw = s.mem.epoch && s.posOf m.source == some voter && bit s.mem.named voter &&
      !s.mem.votes.contains (voter, raw) then
    countVotes { s with mem := { s.mem with votes := s.mem.votes ++ [(voter, raw)] } }
  else s

/-! ## Catch-up (R207) -/

/-- Ask a node for records, at most once per heartbeat period: a request of the housekeeper (R318). -/
def askRecords (node : Nat) (s : State) : State :=
  if s.mem.askedNow.contains node then s
  else
    State.request 5 0x33 node (node % 2) (toLE 4 s.mem.epoch ++ zeros 4) [5]
      { s with mem := { s.mem with askedNow := s.mem.askedNow ++ [node] } }

/-- The hook of every accepted message (R207, R209): silence and suspicion end, an epoch above this member's is asked for. -/
def onAccepted (m : HeldMsg) (s : State) : State :=
  let heard := if s.mem.heard.contains m.source then s.mem.heard else s.mem.heard ++ [m.source]
  let s := { s with mem := { s.mem with heard := heard } }
  let s := match s.posOf m.source with
    | some p => { s with mem := { s.mem with
        suspected := clearBit s.mem.suspected p, silent := s.mem.silent.set p 0 } }
    | none => s
  if s.code.layout.isSome && s.mem.epoch < m.epoch then
    State.askRecords m.source { s with mem := { s.mem with seenEpoch := max s.mem.seenEpoch m.epoch } }
  else s

/-- The records held whose base is at or above an epoch, in increasing order. -/
def recordsFrom (s : State) (epoch : Nat) : List (Proposal × Nat) := s.mem.records.filter (fun r => decide (epoch ≤ r.1.base))

/-- Send records to a node, in answer to a request or, with the request field 0, to a HELLO (R200, R302). -/
def sendRecords (node epoch request : Nat) (s : State) : State :=
  forEach (s.recordsFrom epoch) (fun r st =>
    st.post 0x34 node (node % 2) st.jobTag st.mem.epoch st.fr.step request (epochRecordBytes r)) s

/-- An epoch request arrives. -/
def onEpochRequest (m : HeldMsg) (s : State) : State := s.sendRecords m.source (fld 0 4 m.body) m.request

/-- A record answers an epoch request: the request's entry is free. -/
def freeAsked (m : HeldMsg) (s : State) : State :=
  match s.openReq m.request with
  | some r => if r.typ = 0x33 then s.freeReq r.engine r.entry else s
  | none => s

/-- An epoch record arrives: applied when its base is the epoch in effect and its voters are base members that meet the count. -/
def onEpochRecord (m : HeldMsg) (s : State) : State :=
  let s := s.freeAsked m
  let p := readProposal m.body
  let voters := fld 48 2 m.body
  let vs := bitsOf 16 voters
  let named := bitsOf 16 s.mem.named
  let good := p.base == s.mem.epoch && p.base < p.epoch && p.skeinId == s.mem.skeinId && s.code.layout.isSome &&
    vs.all (fun v => bit s.mem.named v) && countMet named.length vs.length (vs.contains s.mem.lintel)
  if good then s.applyEpoch p voters true
  else if s.mem.epoch ≤ p.base then
    let rest := s.mem.catchUp.filter (fun c => c.1 != m.source)
    let old := s.mem.catchUp.find? (fun c => c.1 == m.source)
    let was : Bool × Bool := match old with
      | some c => c.2
      | none => (false, false)
    { s with mem := { s.mem with
        catchUp := rest ++ [(m.source, was.1 || p.base == s.mem.epoch, was.2 || decide (s.mem.epoch < p.base))] } }
  else s

/-- CATCH_UP_TIMEOUT: four heartbeat periods have passed: no answer holds the record needed and one holds a later one (R207). -/
def catchUpEnd (s : State) : State :=
  let c := s.mem.catchUp
  if !c.isEmpty && c.all (fun x => !x.2.1) && c.any (fun x => x.2.2) then s.fence 4 else s

/-! ## HELLO and discovery (R197, R200) -/

/-- Answer a HELLO with this member's own, at most once per interval and node. -/
def answerHello (node : Nat) (s : State) : State :=
  if s.mem.helloAnswered.contains node then s
  else State.sendHello node { s with mem := { s.mem with helloAnswered := s.mem.helloAnswered ++ [node] } }

/-- Enter a node in the discovery table (R200): a node of no list displaces at most the least recently heard of its kind. -/
def discover (e : Disc) (s : State) : State :=
  let rest := s.mem.discovery.filter (fun d => d.node != e.node)
  let put (l : List Disc) : State := { s with mem := { s.mem with discovery := l ++ [e] } }
  if rest.length < discoveryCap then put rest
  else
    match rest.find? (fun d => d.source == 3) with
    | some d => put (rest.erase d)
    | none => s

/-- A HELLO arrives (Table 7.4a). -/
def onHello (m : HeldMsg) (s : State) : State :=
  let seen := natGet s.mem.helloSeen m.source
  if 8 ≤ seen then s.bump 0x5060 0x06 1
  else
    let s := { s with mem := { s.mem with helloSeen := natSet s.mem.helloSeen m.source (seen + 1) } }
    let state := fld 2 1 m.body
    let member := match s.skeinSec with
      | some k => k.members.findIdx? (fun (x : Nat × Nat) => x.1 == m.source)
      | none => none
    match member with
    | some pos =>
      let unconfirm (st : State) : State := { st with mem := { st.mem with
        confirmed := clearBit st.mem.confirmed pos, confirmedLive := clearBit st.mem.confirmedLive pos } }
      if fld 8 8 m.body != s.mem.digest then s.countNote 0x5060 0x05 m.source
      else if state = 5 || state = 0 then (unconfirm (s.bump 0x5060 0x02 1)).answerHello m.source
      else if m.epoch < s.mem.epoch then (unconfirm (s.bump 0x5060 0x04 1)).sendRecords m.source m.epoch 0
      else if s.mem.epoch < m.epoch then ((unconfirm (s.bump 0x5060 0x02 1)).askRecords m.source).answerHello m.source
      else
        let s := s.bump 0x5060 0x02 1
        let live := if 1 ≤ state && state ≤ 3 then setBit s.mem.confirmedLive pos else clearBit s.mem.confirmedLive pos
        State.answerHello m.source { s with mem := { s.mem with confirmed := setBit s.mem.confirmed pos, confirmedLive := live } }
    | none =>
      let src := match s.partners.find? (fun (p : Nat × Nat) => p.1 == m.source) with
        | some p => p.2
        | none => 3
      (s.discover { node := m.source, state := state, source := src, job := m.job, epoch := m.epoch }).answerHello m.source

/-- HELLO_INTERVAL: HELLO to each partner not yet confirmed, a vacate again to each node that has not acknowledged it; the counts of
the interval start again (R197, R216). -/
def helloTick (s : State) : State :=
  let s := { s with mem := { s.mem with helloSeen := [], helloAnswered := [] } }
  let confirmed (n : Nat) : Bool := match s.skeinSec.bind (fun k => k.members.findIdx? (fun (x : Nat × Nat) => x.1 == n)) with
    | some p => bit s.mem.confirmed p
    | none => false
  let s := forEach (s.partners.filter (fun p => !confirmed p.1)) (fun p st => st.sendHello p.1) s
  match s.mem.vacating with
  | some (id, pos, nodes) =>
    forEach (nodes ++ s.mem.vacateMore) (fun n st => st.sendMgmt 0x35 n (toLE 2 id ++ toLE 1 pos ++ [0] ++ toLE 4 st.mem.epoch)) s
  | none => s

/-! ## Heartbeats and suspicion (R209) -/

/-- The phase of a heartbeat (Table 7.3). -/
def heartPhase (s : State) : Nat :=
  match s.fr.phase with
  | .update => 1
  | .sealed => 2
  | _ => 0

/-- A heartbeat arrives: the hook of every accepted message has done its work. -/
def onHeartbeat (_ : HeldMsg) (s : State) : State := s

/-- The votes sent again to each base member whose vote has not come (R205). -/
def resendVotes (s : State) : State :=
  match s.mem.pending with
  | none => s
  | some p =>
    if s.mem.votes.contains (s.myPos, p.raw) then
      let missing := (bitsOf 16 s.mem.named).filter (fun i => i != s.myPos && !(s.votersOf p.raw).contains i)
      forEach missing (fun i st => st.sendVote p (st.nodeAt i)) s
    else s

/-- HEARTBEAT_PERIOD: heartbeats to every other node of the epoch that was sent nothing, silent periods counted, votes and epoch
requests sent again; what was answered without data is asked again (log 27). A fenced member sends no heartbeat and reads nothing
(R213). -/
def heartPeriod (s : State) : State :=
  match s.code.layout with
  | none => { s with mem := { s.mem with heard := [], sentTo := [], askedNow := [] } }
  | some l =>
    let others := (bitsOf 16 s.mem.named).filter (fun i => i != l.position)
    let quiet := others.filter (fun i => !s.mem.sentTo.contains (s.nodeAt i))
    let silent := (List.range 16).map (fun i =>
      if others.contains i && !s.mem.heard.contains (s.nodeAt i) then natAt s.mem.silent i + 1 else 0)
    let s := { s with mem := { s.mem with silent := silent, heard := [], sentTo := [], askedNow := [] } }
    let body := toLE 8 s.fr.step ++ toLE 1 s.heartPhase ++ toLE 1 l.position ++ zeros 6
    let s : State := if s.fenced then s else forEach quiet (fun i st => st.sendMgmt 0x31 (st.nodeAt i) body) s
    let s : State := { s with mem := { s.mem with sentTo := [] } }
    let s : State := s.resendVotes
    let s := if s.mem.epoch < s.mem.seenEpoch then
        forEach (others.filter (fun i => !bit s.mem.suspected i)) (fun i st => st.askRecords (st.nodeAt i)) s
      else s
    if s.fenced then s
    else
      let s := forEach s.code.recomps (fun r st => st.askRecomp l r) s
      s.retryComps

/-- SUSPICION: a member silent for the count of 0x2001.02 is suspected. -/
def suspect (pos : Nat) (s : State) : State :=
  if s.code.layout.isSome && bit s.mem.named pos && pos != s.myPos && !bit s.mem.suspected pos && !s.fenced &&
      s.reg 0x2001 0x02 ≤ natAt s.mem.silent pos then
    State.countNote 0x5060 0x0C pos { s with mem := { s.mem with suspected := setBit s.mem.suspected pos } }
  else s

/-! ## Vacate (R216, R217) -/

/-- A vacate arrives. -/
def onVacate (m : HeldMsg) (s : State) : State :=
  let v := (m.source, fld 0 2 m.body, fld 2 1 m.body)
  let rest := s.mem.vacateWait.filter (fun x => x.1 != m.source)
  vacatePass { s with mem := { s.mem with vacateWait := rest ++ [v] } }

/-- A vacate finishes once every awaited acknowledgement is in and the last step has sealed; a fenced member seals nothing
(R217, log 32). -/
def vacateFinish (s : State) : State :=
  match s.mem.vacating with
  | some (_, _, []) =>
    if s.fr.opened && s.fr.phase != .sealed && !s.fenced then s
    else
      let freed : List HankRt := mapIf (fun (r : HankRt) => r.state == 3 && r.desc.cls == 1) (fun r => { r with vacDone := true }) s.hanks
      let s : State := { s with
        mem := { s.mem with vacating := none, vacateMore := [], fenceReason := 0, suspected := 0, confirmed := 0, confirmedLive := 0 }
        code := { s.code with
          tags := [], heldSets := [], recomps := [], heldReads := [], layout := none, taken := []
          oldLayout := none, oldStore := { base := 0, hanks := [] }, oldTags := [], oldRoles := [], oldTaken := [], oldEpoch := none, oldAdopted := [] }
        loss := { s.loss with
          unclassed := [], lost := 0, adopted := [], roles := [], comps := [], carry := [], lateLost := []
          recordsDue := [], recordsIssued := [], frayed := false, excludedNodes := [] }
        card := { s.card with inflight := [], heldGroups := [] }
        -- a fenced member leaves its open step unsealed for good
        fr := if s.fenced then { s.fr with phase := .none, held := none } else s.fr
        hanks := freed }
      (s.endFenceLevel.bump 0x5060 0x11 1).setMemState 0
  | _ => s

/-- A vacate acknowledgement arrives. -/
def onVacateAck (m : HeldMsg) (s : State) : State :=
  match s.mem.vacating with
  | some (id, pos, nodes) =>
    vacateFinish { s with mem := { s.mem with
      vacating := some (id, pos, nodes.filter (fun n => n != m.source)), vacateMore := s.mem.vacateMore.filter (fun n => n != m.source) } }
  | none => s

/-- The vacate of a member starts: a vacate to every node of the member table before the plan; those that the epoch in effect names are
awaited. -/
def vacateStart (old : SkeinSec) (s : State) : State :=
  let nodes := (old.members.map (fun m => m.1)).filter (fun n => n != s.node && n != 0xFFFF)
  let named (n : Nat) : Bool := (s.posOf n).isSome
  let s := { s with mem := { s.mem with
    vacating := some (old.skeinId, old.position, nodes.filter named), vacateMore := nodes.filter (fun n => !named n) } }
  let s := forEach nodes (fun n st =>
    st.sendMgmt 0x35 n (toLE 2 old.skeinId ++ toLE 1 old.position ++ [0] ++ toLE 4 st.mem.epoch)) s
  s.setMemState 5

/-! ## Re-coding (R222, R223) -/

/-- A group of a lost member that this member has adopted still has a tag of 0b00 somewhere: told by an encode of it that is under way
or by a completion that has not begun. -/
def adoptedEncoded (s : State) : Bool :=
  !s.card.inflight.any (fun g => g.encode && g.position != s.myPos) &&
    (s.loss.lost == 0 || s.loss.adopted.all (fun a => a.heir != s.myPos || a.atStep.isSome))

/-- Once every group this member owns is acknowledged under the new layout it sends Recoded (R222, R223). -/
def recodePass (s : State) : State :=
  if s.mem.recode != 1 then s
  else
    let live := s.hanks.filter (fun r => r.desc.cls == 1 && r.state == 2)
    if live.all (fun r => r.encodeWait.isEmpty) && s.adoptedEncoded then
      match s.skeinSec with
      | none => s
      | some k =>
        let s := { s with mem := { s.mem with recode := 2, recodedFrom := setBit s.mem.recodedFrom s.myPos } }
        let body := toLE 2 k.skeinId ++ toLE 1 s.myPos ++ [0] ++ toLE 4 k.epoch
        let s := forEach (k.members.filter (fun m => m.1 != s.node)) (fun m st => st.sendMgmt 0x36 m.1 body) s
        s.recodeEnd
    else s

/-- A Recoded arrives: held by its position. -/
def onRecoded (m : HeldMsg) (s : State) : State :=
  match s.skeinSec with
  | none => s
  | some k =>
    if fld 0 2 m.body = k.skeinId && fld 4 4 m.body = k.epoch && s.mem.recode != 0 &&
        s.posOf m.source == some (fld 2 1 m.body) then
      recodeEnd { s with mem := { s.mem with recodedFrom := setBit s.mem.recodedFrom (fld 2 1 m.body) } }
    else s

end State

end Sys2Proof.Machine
end

