-- ==== Sys2Proof/Machine/Ledger.lean ====
section
/-! DEFINITION. The ledger (chapter 8): the conservation audit, the shard record and its chain, adopted records, restore from drain
images, hash probes and the block context. -/

namespace Sys2Proof.Machine

/-- Keep the `k` newest of a list. -/
def newest {α : Type} (k : Nat) (l : List α) : List α := l.drop (l.length - k)

namespace State

/-! ## The conservation audit (R231 to R233) -/

/-- Every stripe of this member's shard is committed (R23). -/
def shardDone (s : State) : Bool :=
  let pos := s.myPos
  (s.hanks.filter (fun r => r.desc.cls == 1 && r.state == 2)).all (fun r =>
    r.encodeWait.isEmpty && (List.range (groupsOf r.desc.count)).all (fun g => s.card.done.contains (pos, r.hank, g)))

/-- The LIVE column-blocked views of this member's LIVE hanks (R116). -/
def trailingViews (s : State) : List Nat :=
  (s.hanks.filter (fun r => r.desc.cls == 2 && r.state == 2 && r.desc.viewFormat == 4 &&
    (match s.hank? r.desc.source with
      | some o => o.desc.cls == 1 && o.state == 2
      | none => false))).map (fun r => r.hank)

/-- What the audit waits for: the last stripe of the shard and of the adopted groups committed, the last set acknowledged, the
trailing passes run (R116), every site closed (log 33). -/
def auditReady (s : State) : Bool :=
  s.fr.opened && s.fr.phase == .update && !s.fenced && !s.loss.frayed && s.card.inflight.isEmpty && s.shardDone &&
    s.adoptedDone && s.trailingViews.all (fun v => s.card.trailing.contains v) &&
    s.sites.all (fun x => bit s.land.closed x.id)

/-- The result of a site in the open step. -/
def resultOf (s : State) (x : Site) : SiteRes :=
  (s.land.results.find? (fun r => r.site == x.id)).getD
    { site := x.id, arrived := 0, excluded := 0, missing := 0, overflowed := 0, overflowElems := 0, weight := 0, inputDigest := 0,
      outputDigest := 0, skipped := [] }

/-- A sum over the member's sites. -/
def overSites (s : State) (f : Site → SiteRes → Nat) : Nat := sumL (s.sites.map (fun x => f x (s.resultOf x)))

/-- The failing equalities of Table 8.3, as bits. -/
def auditBits (s : State) : Nat :=
  let sitesOk := s.sites.all (fun x =>
    let r := s.resultOf x
    x.slots == r.arrived + (r.excluded + r.missing) + r.overflowed)
  (if sitesOk then 0 else 1) + (if s.led.setsSent = s.led.setsAcked + s.led.setsResent then 0 else 2) +
    (if s.led.issued = s.led.returned then 0 else 4) + (if s.led.touched = s.led.committed then 0 else 8)

/-- The conservation block (Table 8.2). -/
def conservation (s : State) : Bytes :=
  toLE 8 (s.overSites (fun x _ => x.slots)) ++ toLE 8 (s.overSites (fun _ r => r.arrived)) ++
    toLE 8 (s.overSites (fun _ r => r.excluded + r.missing)) ++ toLE 8 (s.overSites (fun _ r => r.overflowed)) ++
    toLE 8 (s.overSites (fun _ r => r.overflowElems)) ++ toLE 8 s.led.setsSent ++ toLE 8 s.led.setsAcked ++
    toLE 8 s.led.setsResent ++ toLE 8 (sumL s.led.issued) ++ toLE 8 (sumL s.led.returned) ++ toLE 8 s.led.touched ++
    toLE 8 s.led.committed

/-! ## The record (R234, R235, R240) -/

/-- What the sections of a record hold, as bytes, with their numbers of entries. -/
structure RecParts where
  subject : Nat
  position : Nat
  flags : Nat
  epoch : Nat
  step : Nat
  prev : Nat
  block : Bytes
  exclusion : List (Nat × Nat)
  sites : List Bytes
  hanks : List Bytes
  seeds : List Bytes
  progs : List Bytes
  skipped : List Bytes
  unrecoverable : List Bytes
  unrecTotal : Nat
  deriving DecidableEq, Repr

/-- Pad a section to a multiple of 8 bytes. -/
def padSection (b : Bytes) : Bytes := b ++ zeros (pad8 b.length - b.length)

/-- Bytes 0 to length - 1 of a record (Tables 8.4 and 8.5). -/
def recordBody (s : State) (r : RecParts) : Bytes :=
  let body := r.block ++ padSection (r.exclusion.flatMap (fun e => toLE 2 e.1 ++ toLE 2 e.2)) ++ r.sites.flatten ++ r.hanks.flatten ++
    r.seeds.flatten ++ r.progs.flatten ++ padSection r.skipped.flatten ++ r.unrecoverable.flatten
  let skein := match s.skeinSec with
    | some k => k.skeinId
    | none => 0xFFFF
  let plan := match s.planEff with
    | some p => p.digest
    | none => 0
  toLE 4 s.jobTag ++ toLE 4 r.epoch ++ toLE 8 r.step ++ toLE 2 s.node ++ toLE 2 r.subject ++ toLE 2 skein ++ toLE 1 r.position ++
    toLE 1 r.flags ++ toLE 4 Config.blockVersion ++ toLE 4 (s.reg 0x2600 0x01) ++ toLE 8 (s.reg 0x2600 0x02) ++ toLE 8 plan ++
    toLE 8 s.mem.digest ++ toLE 8 (tableDigest (tableBytes s.whorl.tables)) ++ toLE 8 r.prev ++ toLE 4 (128 + body.length) ++
    toLE 1 r.exclusion.length ++ toLE 1 r.sites.length ++ toLE 1 r.progs.length ++ [0] ++ toLE 2 r.hanks.length ++
    toLE 2 r.seeds.length ++ toLE 2 r.skipped.length ++ toLE 2 r.unrecTotal ++ zeros 40 ++ body

/-- A site entry (Table 8.6). -/
def siteEntry (s : State) (x : Site) : Bytes :=
  let r := s.resultOf x
  toLE 1 x.id ++ toLE 1 x.stage ++ toLE 1 x.flags ++ [0] ++ toLE 1 x.slots ++ toLE 1 r.arrived ++ toLE 1 (r.excluded + r.missing) ++
    toLE 1 r.overflowed ++ toLE 4 r.weight ++ zeros 4 ++ toLE 8 r.overflowElems ++ toLE 8 r.inputDigest ++ toLE 8 r.outputDigest

/-- A hank entry. -/
def hankEntry (hank planes formats groups digest : Nat) : Bytes :=
  toLE 2 hank ++ toLE 1 planes ++ toLE 1 formats ++ toLE 4 groups ++ toLE 8 digest

/-- The random bytes that a hank's program draws per element (R112). -/
def hankRand (s : State) (r : HankRt) : Nat :=
  randOf (s.program r.desc.program) r.desc.planes r.desc.formats (s.viewsOf r.hank).length

/-- The (hank, use) pairs that need a seed, in order (R259). -/
def neededSeeds (s : State) (among : HankRt → Bool) : List (Nat × Nat) :=
  let hs := sortBy (fun (a b : HankRt) => decide (a.hank ≤ b.hank)) (s.hanks.filter among)
  hs.flatMap (fun r =>
    (if r.desc.cls = 1 && r.state = 2 && s.hankRand r != 0 then [(r.hank, 0)] else []) ++
      (if r.desc.window then [(r.hank, 1)] else []))

/-- A seed entry. -/
def seedEntry (s : State) (x : Nat × Nat) : Bytes := toLE 2 x.1 ++ toLE 2 x.2 ++ zeros 4 ++ toLE 8 (s.seedOf x.1 x.2)

/-- The program entries of the slots that the hanks name, with the scalars of the step (R106). -/
def progEntries (s : State) (among : HankRt → Bool) : List Bytes :=
  let slots := sortBy (fun a b => decide (a ≤ b)) (nub ((s.hanks.filter among).map (fun r => r.desc.program)))
  slots.map (fun i =>
    let p := s.program i
    toLE 1 i ++ toLE 1 p.len ++ zeros 6 ++ toLE 8 (programDigest p.raw) ++
      ((s.scalars i).take 14).flatMap (fun v => toLE 4 v.toNat))

/-- The skipped-slot entries (R82, R235). -/
def skippedEntries (s : State) : List Bytes :=
  let xs := sortBy (fun (a b : Site) => decide (a.id ≤ b.id)) s.sites
  xs.flatMap (fun x => (s.resultOf x).skipped.map (fun k => toLE 1 x.id ++ toLE 1 k.1 ++ toLE 1 k.2 ++ [0]))

/-- The index of a position among the chain heads. -/
def headIdx (pos : Nat) : Nat := if pos < 16 then pos else 16

/-- Step and digest of the newest record of a position that this member holds: issued or by notice (R238). -/
def chainHead (s : State) (pos : Nat) : Option (Nat × Nat) :=
  let own := (s.led.heads.find? (fun h => h.1 == headIdx pos)).map (fun h => h.2)
  let told := (s.led.notices.find? (fun n => n.1 == pos)).map (fun n => (n.2.1, n.2.2.1))
  match own, told with
  | some a, some b => if a.1 < b.1 then some b else some a
  | some a, none => some a
  | none, b => b

/-- Step and digest of the newest record of a position earlier than a step: among the notices, the chain heads and the ring, a record of
this member's own before a notice of the same step (R238). -/
def priorRecord (s : State) (pos step : Nat) : Option (Nat × Nat) :=
  let told := (s.led.notices.filter (fun n => n.1 == pos)).map (fun n => (n.2.1, n.2.2.1))
  let heads := (s.led.heads.filter (fun h => h.1 == headIdx pos)).map (fun h => h.2)
  let ring := (s.led.ring.filter (fun r => headIdx r.position == headIdx pos)).map (fun r => (r.step, r.digest))
  (told ++ heads ++ ring).foldl (fun (best : Option (Nat × Nat)) x =>
    if step ≤ x.1 then best
    else
      match best with
      | some b => if x.1 < b.1 then some b else some x
      | none => some x) none

/-- prev_digest of this member's record of a step (R237, R238). -/
def prevOwn (s : State) (pos step : Nat) : Nat :=
  match s.led.prevOverride with
  | some d => d
  | none =>
    match s.priorRecord pos step with
    | some h => h.2
    | none => s.reg 0x2600 0x05

/-- The HMAC of a record under the job key; before a key is written its bytes are not stated (log 13). -/
def recordMac (s : State) (body : Bytes) : State × Bytes :=
  match s.led.jobKey with
  | some k => (s, hmac256 k body)
  | none => (s.spendFree 32, s.freeBytes 32)

/-- The nodes of the epoch in effect but this member. -/
def epochNodes (s : State) : List Nat :=
  ((bitsOf 16 s.mem.named).map (fun p => s.nodeAt p)).filter (fun n => n != s.node && n != 0xFFFF)

/-- Issue a record: ring, chain head, counter, event and notices (R237, R239, R240). Its digests and settings are those of its step
(R236). -/
def issue (r : RecParts) (s : State) : State :=
  let sign := s.reg 0x2600 0x04 = 1
  let r := if sign then { r with flags := setBit r.flags 3 } else r
  let body := (s.asOf r.step).recordBody r
  let (s, mac) : State × Bytes := if sign then (s.bump 0x5070 0x09 1).recordMac body else (s, [])
  let d := recordDigest body
  let rec_ : RecRt :=
    { step := r.step, subject := r.subject, position := r.position, adopted := bit r.flags 0, body := body, mac := mac, digest := d }
  let i := headIdx r.position
  let s : State := { s with led := { s.led with
    ring := newest 8 (s.led.ring ++ [rec_])
    heads := s.led.heads.filter (fun (h : Nat × Nat × Nat) => h.1 != i) ++ [(i, r.step, d)] } }
  let s := s.countNote 0x5070 0x01 r.step
  if s.skeinSec.isNone then s
  else
    let notice := toLE 8 r.step ++ toLE 8 d ++ toLE 1 r.position ++ toLE 1 (if bit r.flags 0 then 1 else 0) ++ zeros 6
    forEach s.epochNodes (fun n st => (st.bump 0x5070 0x04 1).sendMgmt 0x37 n notice) s

/-- Write this member's record of the open step (R235). -/
def writeRecord (s : State) : State :=
  let step := s.fr.step
  let live (r : HankRt) : Bool := r.desc.cls == 1 && r.state == 2
  let hs := sortBy (fun (a b : HankRt) => decide (a.hank ≤ b.hank)) (s.hanks.filter live)
  let xs := sortBy (fun (a b : Site) => decide (a.id ≤ b.id)) s.sites
  let skein := s.skeinSec.isSome
  let pos := match s.skeinSec with
    | some k => k.position
    | none => 0xFF
  let r : RecParts :=
    { subject := s.node, position := pos, flags := (if s.led.fadd then 4 else 0) + (if s.drains step then 16 else 0),
      epoch := s.fr.eN, step := step, prev := s.prevOwn pos step, block := s.conservation,
      exclusion := s.land.exclusion.getD [], sites := xs.map (fun x => s.siteEntry x),
      hanks := if skein then hs.map (fun r =>
        hankEntry r.hank r.desc.planes r.desc.formats (groupsOf r.desc.count) r.digest) else [],
      seeds := (s.neededSeeds (fun _ => true)).map (fun x => s.seedEntry x), progs := s.progEntries live,
      skipped := s.skippedEntries, unrecoverable := [], unrecTotal := 0 }
  State.issue r { s with led := { s.led with prevOverride := none } }

/-- The audit of the open step ends: balanced with its record, or imbalanced (R232, R233). -/
def auditEnd (bits : Nat) (s : State) : State :=
  let s := { s with led := { s.led with block := s.conservation } }
  if bits = 0 then State.writeRecord { s with led := { s.led with auditState := 1, failing := 0 } }
  else State.countNote 0x5070 0x02 s.fr.step { s with led := { s.led with auditState := 2, failing := bits, graceOver := true } }

/-- The grace for credit returns has passed since the first run (R232). -/
def graceDone (s : State) : Bool :=
  match s.led.auditAt with
  | some t => t + s.reg 0x2600 0x06 * 1000 ≤ s.now
  | none => false

/-- AUDIT: the first run of a step. One that fails waits for the grace (R232, R233). -/
def audit (s : State) : State :=
  if !s.auditReady || s.led.auditState != 0 || s.led.auditAt.isSome then s
  else
    let bits := s.auditBits
    let s := { s with led := { s.led with auditAt := some s.now } }
    if bits = 0 then s.auditEnd 0 else s

/-- A credit return while only equality 2 fails runs the audit again (R232). -/
def auditAgain (s : State) : State :=
  if s.led.auditAt.isSome && s.led.auditState = 0 && !s.led.graceOver && s.auditReady && s.auditBits = 0 then s.auditEnd 0 else s

/-- AUDIT_GRACE_EXPIRY: the audit that still fails leaves the step unsealed (R233). -/
def auditGrace (s : State) : State :=
  if s.led.auditAt.isSome && s.led.auditState = 0 && s.graceDone && s.auditReady then s.auditEnd s.auditBits else s

/-! ## Adopted records (R170, R236, R238) -/

/-- The node that a lost position had. -/
def lostNode (s : State) (pos : Nat) : Nat :=
  match s.loss.excludedNodes.reverse.find? (fun e => e.1 == pos) with
  | some e => e.2
  | none => s.nodeAt pos

/-- The reports of a position and step, of the heirs of the epoch in effect. -/
def reportsOf (s : State) (pos step : Nat) : List ReportRt :=
  s.loss.reports.filter (fun r => r.position == pos && r.step == step && (s.heirsOf pos).contains r.heir)

/-- Order of unrecoverable inputs: site node, site, slot, piece (R170). -/
def unrecKey (x : Nat × Nat × Nat × Nat) : Nat := ((x.1 * 256 + x.2.1) * 256 + x.2.2.1) * 2 ^ 32 + x.2.2.2

/-- Issue the adopted record of a position and step; of a carried step (R171) with the settings of that step. -/
def issueAdopted (l : Layout) (pos step : Nat) (s : State) : State :=
  let rs := s.reportsOf pos step
  let touched := sumL (rs.map (fun r => r.touched))
  let committed := sumL (rs.map (fun r => r.committed))
  let mine (r : HankRt) : Bool := r.desc.cls == 1 && l.hanks.any (fun e => e.1 == r.hank)
  if touched != committed then
    State.countNote 0x5070 0x02 pos { s with led := { s.led with auditState := 2, failing := setBit s.led.failing 3 } }
  else
    let unrec := sortBy (fun a b => decide (unrecKey a ≤ unrecKey b)) (nub (rs.flatMap (fun r => r.unrecoverable)))
    let told := rs.any (fun r => bit r.flags 0)
    let (prev, gap) := match s.priorRecord pos step with
      | some h => if h.1 + 1 = step then (h.2, false) else (0, true)
      | none => (0, true)
    let s := if gap then s.bump 0x5070 0x03 1 else s
    let hs := sortBy (fun (a b : Nat × Nat × Nat) => decide (a.1 ≤ b.1)) l.hanks
    let sum (h : Nat) : Nat := (rs.filter (fun r => r.hank == h)).foldl (fun a r => add64 a r.digest) 0
    let now := step == s.fr.step
    let v := s.asOf step
    let r : RecParts :=
      { subject := s.lostNode pos, position := pos,
        flags := 1 + (if told || !unrec.isEmpty then 2 else 0) + (if (if now then s.led.fadd else s.prev.fadd) then 4 else 0) +
          (if (if now then s.drains step else s.prev.drainStep) then 16 else 0) + (if gap then 32 else 0),
        epoch := if now then s.fr.eN else s.loss.prevEN, step := step, prev := prev,
        block := zeros 80 ++ toLE 8 touched ++ toLE 8 committed,
        exclusion := if now then s.land.exclusion.getD [] else s.loss.prevExclusion, sites := [],
        hanks := hs.map (fun e => hankEntry e.1 e.2.1 e.2.2 (l.groups pos e.1) (sum e.1)),
        seeds := (v.neededSeeds mine).map (fun x => v.seedEntry x), progs := v.progEntries mine, skipped := [],
        unrecoverable := (unrec.take 256).map (fun x => toLE 2 x.1 ++ toLE 1 x.2.1 ++ toLE 1 x.2.2.1 ++ toLE 4 x.2.2.2),
        unrecTotal := unrec.length }
    let s := State.issue r { s with loss := { s.loss with
      lastAdopted := step, recordsDue := s.loss.recordsDue.filter (fun d => d != (pos, step))
      recordsIssued := s.loss.recordsIssued ++ [(pos, step)] } }
    s.bump 0x5050 0x09 1

/-- The record heir issues each adopted record whose reports are in. -/
def issueDue (s : State) : State :=
  match s.code.layout with
  | none => s
  | some l =>
    if s.fenced || s.loss.frayed || s.recordHeir != some l.position then s
    else forEach s.loss.recordsDue (fun d st =>
      if st.led.auditState != 2 && st.reportsIn d.1 d.2 then st.issueAdopted l d.1 d.2 else st) s

/-- A record notice arrives (R237). -/
def onNotice (m : HeldMsg) (s : State) : State :=
  let s := s.bump 0x5070 0x05 1
  let step := fld 0 8 m.body
  let pos := fld 16 1 m.body
  let older := match s.led.notices.find? (fun n => n.1 == pos) with
    | some n => step < n.2.1
    | none => false
  if older || 16 ≤ pos then s
  else
    let n := (pos, step, fld 8 8 m.body, fld 17 1 m.body == 1)
    { s with led := { s.led with notices := s.led.notices.filter (fun x => x.1 != pos) ++ [n] } }

/-! ## Restore from drain images (R242 to R245) -/

/-- The hank entries of a record: hank, planes, formats, groups, digest. -/
def recordHanks (b : Bytes) : List (Nat × Nat × Nat × Nat × Nat) :=
  let at_ := 128 + 96 + pad8 (4 * fld 76 1 b) + 40 * fld 77 1 b
  (List.range (fld 80 2 b)).map (fun i =>
    let e := sub (at_ + 16 * i) 16 b
    (fld 0 2 e, fld 2 1 e, fld 3 1 e, fld 4 4 e, fld 8 8 e))

/-- The candidates of a restore request with their records (Table 8.8); none where lengths or reserved fields break the table. -/
def readCandidates (b : Bytes) : Option (List Candidate) :=
  let n := fld 4 1 b
  if b.length < 32 || !(n == 1 || n == 2) || fld 6 2 b != 0 || fld 16 16 b != 0 || b.length < 32 + 32 * n then none
  else
    let lens := (List.range n).map (fun i => fld (36 + 32 * i) 4 b)
    let start (i : Nat) : Nat := 32 + 32 * n + sumL ((lens.take i).map pad8)
    if b.length != start n then none
    else
      let c (i : Nat) : Candidate :=
        let e := sub (32 + 32 * i) 32 b
        { drainNode := fld 0 2 e, slot := fld 2 1 e, drainBase := fld 8 8 e, step := fld 16 8 e,
          record := sub (start i) (fld 4 4 e) b }
      let ok (i : Nat) : Bool :=
        let e := sub (32 + 32 * i) 32 b
        fld 2 1 e < 2 && fld 3 1 e == 0 && fld 8 8 e < 2 ^ 48 && fld 24 8 e == 0 && 128 ≤ fld 4 4 e &&
          128 ≤ fld 72 4 (c i).record && fld 72 4 (c i).record ≤ fld 4 4 e
      if (List.range n).all ok then some ((List.range n).map c) else none

/-- Stripes of the images that a record describes: Ns (R125). -/
def recordNs (b : Bytes) : Nat := sumL ((recordHanks b).map (fun e => e.2.2.2.1 * stripesPerGroup e.2.1 e.2.2.1))

/-- The hank, group and stripe number of dense stripe `u` under a record's hank entries. -/
def recordStripe (b : Bytes) (u : Nat) : Option (Nat × Nat × Nat) :=
  let f (acc : Nat × Option (Nat × Nat × Nat)) (e : Nat × Nat × Nat × Nat × Nat) : Nat × Option (Nat × Nat × Nat) :=
    let sh := stripesPerGroup e.2.1 e.2.2.1
    match acc.2 with
    | some r => (acc.1, some r)
    | none => if acc.1 < e.2.2.2.1 * sh then (acc.1, some (e.1, acc.1 / sh, acc.1 % sh)) else (acc.1 - e.2.2.2.1 * sh, none)
  ((recordHanks b).foldl f (u, none)).2

/-- A hank of a supplied record is a LOADING STATE hank with the same shape (R242). -/
def loadingAs (s : State) (e : Nat × Nat × Nat × Nat × Nat) : Bool :=
  match s.hank? e.1 with
  | some r => r.desc.cls == 1 && r.state == 1 && r.desc.planes == e.2.1 && r.desc.formats == e.2.2.1 &&
      groupsOf r.desc.count == e.2.2.2.1
  | none => false

/-- Change the restore. -/
def setRestore (r : Option RestoreRt) (s : State) : State := { s with led := { s.led with restore := r } }

/-- The restore report (Table 8.9). -/
def restoreReportBytes (s : State) (r : RestoreRt) (state restored : Nat) : Bytes :=
  toLE 2 s.node ++ toLE 1 r.position ++ toLE 1 state ++ zeros 4 ++ toLE 8 restored ++
    (r.cands.zip r.status).flatMap (fun x => toLE 8 x.1.step ++ toLE 1 x.2.1 ++ [0] ++ toLE 2 x.2.2 ++ zeros 4)

/-- Offset of 4 KiB block `i` of a candidate's image. -/
def imageOff (c : Candidate) (i : Nat) : Nat := c.drainBase + c.slot * (recordNs c.record + 1) * 4096 + i * 4096

/-- Ask for a block of an image: restore reads are of the twist unit (Table 11.7), stripe u on the way of its bit 0. -/
def askImage (c : Candidate) (ci u i : Nat) (s : State) : State :=
  s.request 4 0x03 c.drainNode (u % 2) (toLE 8 (imageOff c i) ++ toLE 4 4096 ++ zeros 4) [1, ci, u]

/-- The header read of an image has this number among the keys. -/
def headerKey : Nat := 2 ^ 32

/-- The candidate to try after those already tried: the greatest step; with a target only that step (R243). -/
def nextCandidate (r : RestoreRt) : Option Nat :=
  let open_ := (r.cands.zip r.status).zipIdx.filter (fun x =>
    x.1.2.1 == 5 && (r.target == 0 || x.1.1.step == r.target))
  (open_.foldl (fun (best : Option (Nat × Nat)) x =>
    match best with
    | some (st, i) => if st < x.1.1.step then some (x.1.1.step, x.2) else some (st, i)
    | none => some (x.1.1.step, x.2)) none).map (fun b => b.2)

/-- The steps of the candidates that were tried. -/
def triedSteps (r : RestoreRt) : List Nat := ((r.cands.zip r.status).filter (fun x => x.2.1 != 5)).map (fun x => x.1.step)

/-- The restore ends: no candidate verified. An event's detail holds one number, so one event names this node and one each step tried
(log 163). -/
def restoreNone (r : RestoreRt) (s : State) : State :=
  let s := s.setRestore none
  let s := forEach (s.node :: triedSteps r) (fun x st => st.note 0x2640 0x02 x) s
  State.changed 0x2640 0x03 3 { s with led := { s.led with
    restoreState := 3, restoreReport := s.restoreReportBytes r 3 0, restoredStep := 0, restoredHanks := [] } }

/-- Take up the next candidate, or end (R243). -/
def restoreNext (r : RestoreRt) (s : State) : State :=
  let s := s.dropReqs (fun e _ k => e == 4 && natAt k 0 == 1)
  let s : State := { s with led := { s.led with restoreHeld := [] } }
  match nextCandidate r with
  | none => s.restoreNone r
  | some i =>
    match r.cands[i]? with
    | none => s.restoreNone r
    | some c =>
      let r := { r with current := some i, headerOk := false, sent := 0, next := 0,
                        sums := (recordHanks c.record).map (fun e => (e.1, 0)) }
      let s := s.setRestore (some r)
      State.askImage c i headerKey 0 { s with led := { s.led with restoreReport := s.restoreReportBytes r 1 0 } }

/-- The candidate being read takes a status, and the next one follows. -/
def restoreFail (r : RestoreRt) (status hank : Nat) (s : State) : State :=
  let i := r.current.getD 0
  let s := if status = 3 then s.bump 0x5070 0x07 1 else s
  s.restoreNext { r with status := setAt r.status i (status, hank), current := none }

/-- A candidate verified. -/
def restoreOk (r : RestoreRt) (c : Candidate) (s : State) : State :=
  let r := { r with status := setAt r.status (r.current.getD 0) (0, 0) }
  let s := (s.setRestore none).bump 0x5070 0x06 1
  let marked := mapIf (fun (h : HankRt) => r.sums.any (fun x => x.1 == h.hank)) (fun h => { h with restored := true }) s.hanks
  State.changed 0x2640 0x03 2 { s with
    hanks := marked
    led := { s.led with
      restoreState := 2, restoreReport := s.restoreReportBytes r 2 c.step, restoredStep := c.step,
      restoredHanks := r.sums.map (fun x => x.1), restoredRecord := recordDigest (c.record.take (fld 72 4 c.record)) } }

/-- Every stripe is stored: the sums are compared with the record's digests (R243). -/
def restoreVerify (r : RestoreRt) (c : Candidate) (s : State) : State :=
  let es := sortBy (fun (a b : Nat × Nat × Nat × Nat × Nat) => decide (a.1 ≤ b.1)) (recordHanks c.record)
  match es.find? (fun e => !r.sums.contains (e.1, e.2.2.2.2)) with
  | some e => s.restoreFail r 3 e.1
  | none => s.restoreOk r c

/-- Ask for image stripes while entries of the twist unit are free. -/
def restorePump : Nat → State → State
  | 0, s => s
  | k + 1, s =>
    match s.led.restore with
    | none => s
    | some r =>
      match r.current with
      | none => s
      | some i =>
        match r.cands[i]? with
        | none => s
        | some c =>
          if !r.headerOk || r.sent ≥ recordNs c.record || (s.freeEntry 4 0x03 [1, i, r.sent] []).isNone then s
          else restorePump k ((s.setRestore (some { r with sent := r.sent + 1 })).askImage c i r.sent (r.sent + 1))

/-- RESTORE_REQUEST: 0 when accepted, else the reason of refusal (R242). -/
def restoreRequest (b : Bytes) (s : State) : State × Nat :=
  match readCandidates b with
  | none => (s, 3)
  | some cs =>
    let position := fld 5 1 b
    if s.planEff.isNone || fld 0 4 b != s.jobTag ||
        !cs.all (fun c => fld 22 1 c.record == position && (recordHanks c.record).all (fun e => s.loadingAs e)) then (s, 4)
    else if s.led.restore.isSome then (s, 5)
    else
      let r : RestoreRt :=
        { position := position, target := fld 8 8 b, job := fld 0 4 b, cands := cs, status := cs.map (fun _ => (5, 0)),
          current := none, headerOk := false, sent := 0, next := 0, sums := [] }
      let s := { s with
        led := { s.led with restoreState := 1, restoredStep := 0, restoredHanks := [], restoreReport := s.restoreReportBytes r 1 0 } }
      (s.restoreNext r, 0)

/-- The header of an image is read (R243). -/
def restoreHeader (r : RestoreRt) (c : Candidate) (b : Bytes) (s : State) : State :=
  let length := fld 72 4 c.record
  if fld 0 4 b != r.job || fld 0 4 c.record != r.job || fld 26 1 b != r.position || fld 8 8 b != c.step ||
      fld 8 8 c.record != c.step then s.restoreFail r 1 0
  else if fld 27 1 b != 1 then s.restoreFail r 2 0
  else if fld 40 8 b != recordDigest (c.record.take length) then s.restoreFail r 1 0
  else
    let r := { r with headerOk := true }
    let s := s.setRestore (some r)
    if recordNs c.record = 0 then s.restoreVerify r c else s.restorePump (recordNs c.record + 1)

/-- A stripe of an image is read: written to its plane, once no die holds a copy of the page that it changes (R296), and added to its
hank's sum (R243). -/
def restoreStripe (r : RestoreRt) (c : Candidate) (u : Nat) (b : Bytes) (s : State) : State :=
  match recordStripe c.record u with
  | none => s
  | some (h, g, p) =>
    match s.hank? h with
    | none => s
    | some hr =>
      match (groupStripesOf hr.desc g).find? (fun x => x.2 == p) with
      | none =>
        let r := { r with next := r.next + 1 }
        let s := s.setRestore (some r)
        if r.next = recordNs c.record then s.restoreVerify r c else s.restorePump 1
      | some (pl, _) =>
        let t := planeStripe g pl
        let ks := if pl.1 = 0 then spanPages s.C h 0 (t * Config.stripe) Config.stripe else []
        if !s.coherent ks none then
          State.invalidate ks none { s with led := { s.led with restoreHeld := s.led.restoreHeld ++ [(u, b)] } }
        else
        let s := (s.writePlane hr pl.1 t g b).clearKey (s.planeKey hr pl.1 t g)
        let hash := stripeHash h pl.1 t b
        let r := { r with next := r.next + 1, sums := mapIf (fun x => x.1 == h) (fun x => (x.1, add64 x.2 hash)) r.sums }
        let s := s.setRestore (some r)
        if r.next = recordNs c.record then s.restoreVerify r c else s.restorePump 1

/-- A restore read is answered: none is a failed read. -/
def restoreAnswer (key : List Nat) (data : Option Bytes) (s : State) : State :=
  match s.led.restore with
  | none => s
  | some r =>
    if natAt key 0 != 1 || r.current != some (natAt key 1) then s
    else
      match r.cands[natAt key 1]?, data with
      | some c, some b =>
        if natAt key 2 = headerKey then s.restoreHeader r c b else s.restoreStripe r c (natAt key 2) b
      | _, _ => s.restoreFail r 4 0

/-- Image stripes that waited for a die are tried again. -/
def retryRestore (s : State) : State :=
  forEach s.led.restoreHeld (fun x st => st.restoreAnswer [1, ((st.led.restore.bind (fun r => r.current)).getD 0), x.1] (some x.2))
    { s with led := { s.led with restoreHeld := [] } }

/-- A host write reaches a restored hank (R244). -/
def restoredWrite (h : Nat) (s : State) : State :=
  if s.led.restoredHanks.contains h then { s with led := { s.led with restoredStep := 0, restoredHanks := [] } } else s

/-! ## Hash probe (R249) -/

/-- Bytes and stripes of a probed region: the plane's or the mask map's. -/
def probeStripes (r : HankRt) (region : Nat) : Nat :=
  if region = 0x10 then (if r.desc.masked then ceilDiv (maskBytes r.desc.count) Config.stripe else 0)
  else planeStripes r.desc.count (planeWidth r.desc.planes r.desc.formats region)

/-- The group of stripe `t` of a plane. -/
def groupOfStripe (d : Desc) (i t : Nat) : Nat := t / max 1 (planeWidth d.planes d.formats i / 2)

/-- The hash of a stripe of a region. -/
def regionHash (s : State) (r : HankRt) (region t : Nat) : Nat :=
  let bytes := if region = 0x10 then
      fit Config.stripe (s.spanRead r.desc.maskA (t * Config.stripe) (min Config.stripe (maskBytes r.desc.count - t * Config.stripe)))
    else s.readPlane r region t (groupOfStripe r.desc region t)
  stripeHash r.hank region t bytes

/-- A LOADING hank that a restore fills or has filled (Table 8.12). -/
def underRestore (s : State) (h : Nat) : Bool :=
  s.led.restoredHanks.contains h || (match s.led.restore with
    | some r => r.sums.any (fun x => x.1 == h)
    | none => false)

/-- The step of the data that a probe of a hank reads: a vacating hank stands where its last update left it. R249 says no more of that
step than 'step of the data': a LOADING hank shows the restored step, which is 0 while its restore runs, and a result refused or not
finished shows the step sealed last (DESIGN CHOICE, log 183). -/
def probeStep (s : State) (r : HankRt) : Nat :=
  if r.state = 1 then s.led.restoredStep else if r.state = 3 then r.encodeStep - 1 else s.fr.lastSealed

/-- The head of a probe result. -/
def probeHead (step count status : Nat) : Bytes := toLE 8 step ++ toLE 4 count ++ toLE 1 status ++ zeros 3

/-- Serve the pending probe, in the gather phase. -/
def serveProbe (s : State) : State :=
  match s.led.probe with
  | none => s
  | some b =>
    if !s.fr.opened || s.fr.phase != .gather || s.fr.rcSeen then s
    else
      let h := fld 0 2 b
      let region := fld 2 1 b
      let mode := fld 3 1 b
      let count := fld 4 4 b
      let first := fld 8 8 b
      let s := { s with led := { s.led with probe := none } }
      let refuse (st : State) : State := { st with led := { st.led with probeResult := probeHead st.fr.lastSealed count 1 } }
      match s.hank? h with
      | none => refuse s
      | some r =>
        if r.desc.cls != 1 || !(r.state == 2 || r.state == 3 || (r.state == 1 && s.underRestore h)) ||
            !(region ≤ 4 || region == 0x10) || mode > 1 || count = 0 || (mode == 0 && count > 512) || probeStripes r region < first + count then refuse s
        else
          let hs := (List.range count).map (fun i => s.regionHash r region (first + i))
          let out := if mode = 0 then hs.flatMap (fun x => toLE 8 x) else toLE 8 (hs.foldl add64 0)
          State.bump 0x5070 0x08 1 { s with led := { s.led with probeResult := probeHead (s.probeStep r) count 0 ++ out } }

/-- HASH_PROBE: the request is kept for the gather phase; one of another length is refused. -/
def hashProbe (b : Bytes) (s : State) : State × Nat :=
  if b.length != 16 then (s, 3) else (State.serveProbe { s with led := { s.led with probe := some b } }, 0)

/-- A probe not served before roll-call has status 2 and is resumed in the next gather (R249). -/
def probeRollcall (s : State) : State :=
  match s.led.probe with
  | some b => { s with led := { s.led with probeResult := probeHead s.fr.lastSealed (fld 4 4 b) 2 } }
  | none => s

/-! ## Block context (R246) -/

/-- The block context (Table 8.10), as the last threshold left the block. -/
def contextBytes (s : State) : Bytes :=
  match s.planEff with
  | none => []
  | some p =>
    let seeds := (s.neededSeeds (fun _ => true)).map (fun x => s.seedEntry x)
    let own := match s.led.ring.reverse.find? (fun r => r.step == s.led.ctxSealed && !r.adopted) with
      | some r => r.digest
      | none => 0
    toLE 4 p.jobTag ++ toLE 4 s.led.ctxEpoch ++ toLE 8 s.led.ctxSealed ++ toLE 8 own ++
      toLE 8 (tableDigest (tableBytes s.whorl.tables)) ++ toLE 4 p.raw.length ++ toLE 1 s.C ++ toLE 1 seeds.length ++ zeros 26 ++
      seeds.flatten ++ padSection p.raw

/-! ## Threshold -/

/-- A count of the ledger beyond what the conservation block of the sealed step holds at an offset: work of that step done after its
seal (R171), which the audit of the step that opens takes in. -/
def beyondSeal (s : State) (count off : Nat) : Nat := if s.led.auditState = 1 then count - fld off 8 s.led.block else 0

/-- The counts of the ledger start again with the step that opens. Sets sent and stripes touched after the seal, for a group that the
seal did not wait for, stay counted: their acknowledgements and commits come in the step that opens (R171, R231). -/
def ledgerThreshold (s : State) : State :=
  { s with led := { s.led with
      setsSent := s.beyondSeal s.led.setsSent 40, setsAcked := s.beyondSeal s.led.setsAcked 48
      setsResent := s.beyondSeal s.led.setsResent 56, touched := s.beyondSeal s.led.touched 80
      committed := s.beyondSeal s.led.committed 88, issued := [0, 0, 0, 0], returned := [0, 0, 0, 0]
      ackedSets := s.led.ackedSets.filter (fun k => s.led.auditState == 1 && k.2.2.1 / 4 == s.fr.step)
      auditState := 0, failing := 0, auditAt := none, graceOver := false, fadd := false,
      block := zeros 96 } }

end State

end Sys2Proof.Machine
end

