-- ==== Sys2Proof/Machine/Views.lean ====
section
/-! DEFINITION. The passes that generate views: the trailing pass of a column-blocked view (R116) and the view-only pass of the first
frame in which a view is LIVE (R46). -/

namespace Sys2Proof.Machine

namespace State

/-- The mask bits and committed masters of a group of a STATE hank, as (element, mask bit, master); none where a stripe that holds masters
is bad, or where the mask counts and is unreadable. It does not count for the trailing pass, which reads HI and LO alone: what the step has
committed under a zero mask bit is zero (R114, R116). -/
def groupMasters (s : State) (r : HankRt) (useMask : Bool) (g : Nat) : Option (List (Nat × Bool × W32)) :=
  match if useMask then s.groupMask r g else some none with
  | none => none
  | some mask =>
    if (s.badStripes r g).any (fun p => p < 2) then none
    else
      let n := elemsIn r.desc.count g
      let recs := groupElems r.desc.planes r.desc.formats n (s.readGroup r g)
      some (recs.zipIdx.map (fun x =>
        let on := match mask with
          | some ms => ms.getD x.2 true
          | none => true
        (Config.groupElems * g + x.2, on, BitVec.ofNat 32 (leNat (x.1.getD 0 []) * 65536 + leNat (x.1.getD 1 [])))))

/-- The masters of a whole STATE hank. -/
def hankMasters (s : State) (r : HankRt) (useMask : Bool) : Option (List (Nat × Bool × W32)) :=
  let gs := (List.range (groupsOf r.desc.count)).map (fun g => s.groupMasters r useMask g)
  if gs.all Option.isSome then some (gs.flatMap (fun x => x.getD [])) else none

/-- Elements in the column order of a column-blocked view (Table 2.7). -/
def columnOrder (d : Desc) (es : List (Nat × Bool × W32)) : List (Nat × Bool × W32) :=
  (List.range d.cols).flatMap (fun c => (List.range d.rows).map (fun r => es.getD (r * d.cols + c) (0, false, 0)))

/-- The number of a view among the LIVE views of its source, with its format. -/
def viewNo (s : State) (v src : Nat) : Option (ViewOf × Nat) := (s.viewsOf src).zipIdx.find? (fun x => x.1.hank == v)

/-- The bytes of a column-blocked view from the committed masters of its source, with the saturated elements. -/
def columnView (s : State) (r src : HankRt) (useMask : Bool) : Option (List ViewWrite × Nat) :=
  match s.viewNo r.hank src.hank, s.hankMasters src useMask with
  | some (v, i), some es =>
    let h := s.hankIn src.hank src.desc.planes src.desc.formats src.desc.program (s.viewsOf src.hank)
    some (viewBytes h v i 0 (columnOrder src.desc es))
  | _, _ => none

/-- The pages whose bytes view writes change. -/
def writePages (c : Nat) (ws : List ViewWrite) : List PageKey :=
  (ws.filter (fun w => w.region == 0)).flatMap (fun w => spanPages c w.hank 0 w.offset w.bytes.length)

/-- Stripes of both regions of a view: (region, stripe). -/
def viewStripes (d : Desc) : List (Nat × Nat) :=
  [0, 1].flatMap (fun rg => (List.range (ceilDiv (viewBytesOf d rg) Config.stripe)).map (fun t => (rg, t)))

/-- Read the masters of a hank's groups. -/
def askMasters (mem : MemAns) (r : HankRt) (s : State) : State :=
  forEach (List.range (groupsOf r.desc.count)) (fun g st => st.askMaster mem r g) s

/-- Ask for the repair of every bad stripe that holds masters of a hank; its groups are read again afterwards. -/
def repairHank (r : HankRt) (s : State) : State :=
  forEach (List.range (groupsOf r.desc.count)) (fun g st =>
    let bad := (st.badStripes r g).filter (fun p => decide (p < 2))
    if bad.isEmpty then st
    else forEach bad (fun p st2 => st2.addRepair s.myPos r.hank g p) (st.noteReread s.myPos r.hank g)) s

/-- VIEW_TRAILING_PASS: the column-blocked view is written from the committed masters after the source's last group (R116). -/
def trailingPass (v : Nat) (mem : MemAns) (s : State) : State :=
  match s.hank? v with
  | none => s
  | some r =>
    match s.hank? r.desc.source with
    | none => s
    | some src =>
      let pos := s.myPos
      let due := s.trailingViews.contains v && !s.card.trailing.contains v && s.fr.opened && s.fr.phase == .update && !s.fenced &&
        !s.loss.frayed && (List.range (groupsOf src.desc.count)).all (fun g => s.card.done.contains (pos, src.hank, g))
      if !due then s
      else
        let s := s.askMasters mem src
        match s.columnView r src false with
        | none => s.repairHank src
        | some (ws, sat) =>
          let s := s.countReread (fun x => x.1 == pos && x.2.1 == src.hank)
          let ks := writePages s.C ws
          if !s.coherent ks none then s.invalidate ks none
          else
            let s := forEach ws (fun w st => st.writeView w) s
            let s := (s.bump 0x5030 0x0B sat).bump 0x5030 0x0A (viewStripes r.desc).length
            State.updHank v (fun x => { x with ungenerated := [] })
              { s with card := { s.card with trailing := s.card.trailing ++ [v] } }

/-- Generate what a view lacks from the masters that stand. -/
def generateView (r : HankRt) (s : State) : State :=
  match s.hank? r.desc.source with
  | none => s
  | some src =>
    if r.desc.viewFormat = 4 then
      let s := s.askMasters s.ans src
      match s.columnView r src true with
      | none => s.repairHank src
      | some (ws, sat) =>
        let ks := writePages s.C ws
        if !s.coherent ks none then s.invalidate ks none
        else
        let s := s.countReread (fun x => x.1 == s.myPos && x.2.1 == src.hank)
        let s := forEach ws (fun w st => st.writeView w) s
        State.updHank r.hank (fun x => { x with ungenerated := [] })
          ((s.bump 0x5030 0x0B sat).bump 0x5030 0x0A r.ungenerated.length)
    else
      let h := s.hankIn src.hank src.desc.planes src.desc.formats src.desc.program (s.viewsOf src.hank)
      let gs := nub (r.ungenerated.flatMap (fun u => viewGroups r.desc u.1 u.2))
      let s := forEach gs (fun g st => st.askMaster st.ans src g) s
      let written (st : State) (g : Nat) : List ViewWrite × Nat :=
        match st.groupMask src g with
        | none => ([], 0)
        | some mask => viewsOfGroup h g (elemsIn src.desc.count g) (st.readGroup src g) mask [r.hank]
      let good := gs.filter (fun g => (s.groupMasters src true g).isSome)
      -- a group whose view pages a die holds waits for the invalidation (R296)
      let s := forEach good (fun g st => st.invalidate (writePages st.C (written st g).1) none) s
      let okay := good.filter (fun g => s.coherent (writePages s.C (written s g).1) none)
      let one (g : Nat) (st : State) : State :=
          let (ws, sat) := written st g
          let st := st.countReread (fun x => x.1 == st.myPos && x.2.1 == src.hank && x.2.2.1 == g)
          forEach ws (fun w st2 => st2.writeView w) (st.bump 0x5030 0x0B sat)
      let s := forEach okay one s
      let made := r.ungenerated.filter (fun u => (viewGroups r.desc u.1 u.2).all (fun g => okay.contains g))
      let s := State.updHank r.hank (fun x => { x with ungenerated := x.ungenerated.filter (fun u => !made.contains u) })
        (s.bump 0x5030 0x0A made.length)
      if good.length = gs.length then s else s.repairHank src

/-- The view-only pass (R46): in gather, for the views that lack stripes. -/
def viewOnlyPass (s : State) : State :=
  if !s.fr.opened || s.fr.phase != .gather || s.fenced then s
  else forEach (s.hanks.filter (fun r => r.desc.cls == 2 && r.state == 2 && !r.ungenerated.isEmpty)) (fun r st => st.generateView r) s

end State

end Sys2Proof.Machine
end

