-- ==== Sys2Proof/Machine/Tiers.lean ====
section
/-! DEFINITION. Hearth, pantry and cellar (chapter 10): pages and their homes, quotas and pools, the mover, STATE home moves, discards,
atomics; the requests on the memory and pantry ways that page copies use. -/

namespace Sys2Proof.Machine

namespace State

/-! ## Pages (R273 to R275) -/

/-- Bytes of a page. -/
def pageBytes : Nat := 65536

/-- The area records of the plan in effect. -/
def areas (s : State) : List Area :=
  match s.planEff with
  | some p => match p.tier with
    | some t => t.areas
    | none => []
  | none => []

/-- The page of a byte offset of a region: channel, page, offset within the page (R273). -/
def pageOf (s : State) (off : Nat) : Nat × Nat × Nat :=
  let t := off / Config.stripe
  (t % s.C, t / s.C / 16, t / s.C % 16 * Config.stripe + off % Config.stripe)

/-- Stripes of a region of `len` bytes on channel `c`. -/
def stripesOn (c channels len : Nat) : Nat :=
  let t := ceilDiv len Config.stripe
  t / channels + (if c < t % channels then 1 else 0)

/-- Pages of a region on a channel. -/
def pagesOn (c channels len : Nat) : Nat := ceilDiv (stripesOn c channels len) 16

/-- The entry of a page; one that is not listed has no home and no heat. -/
def page? (s : State) (h c p : Nat) : Option PageRt := s.tier.pages.find? (fun x => x.hank == h && x.channel == c && x.page == p)

/-- The page-map entry of a page (Table 10.2). -/
def pageAt (s : State) (h c p : Nat) : PageRt :=
  (s.page? h c p).getD
    { hank := h, channel := c, page := p, tier := 3, inTransit := false, lost := false, queued := false, heat := 0, count := 0,
      area := 0, index := 0 }

/-- The 16 bytes of a page-map entry (Table 10.2). -/
def mapBytes (x : PageRt) : Bytes :=
  toLE 1 x.tier ++ toLE 1 (x.inTransit.toNat + 2 * x.lost.toNat + 4 * x.queued.toNat) ++ toLE 2 x.heat ++
    (if x.tier = 3 then zeros 12 else toLE 2 x.area ++ zeros 2 ++ toLE 8 x.index)

/-- The key of the entry of page `p` of channel `c` in a paged hank's page map (R275). -/
def mapKey (r : HankRt) (c p : Nat) : Nat := hearthKey c (r.desc.base 0 * 4096 + 16 * p)

/-- Write a page's entry to the page map in the hearth. -/
def writeMap (x : PageRt) (s : State) : State :=
  match s.hank? x.hank with
  | some r => if s.paged r.desc && r.state != 0 then s.hearthWrite (mapKey r x.channel x.page) (mapBytes x) else s
  | none => s

/-- Read a page's entry where the map holds it. -/
def askMap (h c p : Nat) (s : State) : State :=
  match s.hank? h with
  | some r => s.takeMem s.ans [mapKey r c p / 128]
  | none => s

/-- The block of the page map that holds a page's entry is known to be uncorrectable (R349). -/
def mapBad (s : State) (h c p : Nat) : Bool :=
  match s.hank? h with
  | some r => s.scrub.badBlocks.contains (mapKey r c p / 128)
  | none => false

/-- The page map of a hank with no page homed yet: every entry with tier 3. -/
def freshMap (r : HankRt) (s : State) : State :=
  forEach (List.range s.C) (fun c st =>
    let n := pagesOn c st.C r.desc.count
    forEach (List.range (ceilDiv n 256)) (fun i st =>
      let k := min 256 (n - 256 * i)
      let key := mapKey r c (256 * i)
      State.clearBad ((List.range (k / 8)).map (fun b => key / 128 + b))
        (st.hearthWrite key (List.replicate k (toLE 1 3 ++ zeros 15)).flatten)) st) s

/-- Put a page's entry, in the map as well where it changes there. -/
def putPage (x : PageRt) (s : State) : State :=
  let rest := s.tier.pages.filter (fun y => !(y.hank == x.hank && y.channel == x.channel && y.page == x.page))
  let s := if mapBytes (s.pageAt x.hank x.channel x.page) = mapBytes x then s else s.writeMap x
  let blank := x.tier == 3 && !x.lost && !x.queued && x.heat == 0 && x.count == 0 && !x.inTransit
  { s with tier := { s.tier with pages := rest ++ (if blank then [] else [x]) } }

/-- The base of a home: hearth key, pantry offset or offset at the lending node. -/
def homeBase (s : State) (tier channel area index : Nat) : Nat :=
  match (s.areas)[area]? with
  | some a => if tier = 0 then hearthKey channel (a.base + index * pageBytes) else a.base + index * pageBytes
  | none => 0

/-- The node that lends an area. -/
def areaNode (s : State) (area : Nat) : Nat :=
  match (s.areas)[area]? with
  | some a => a.node
  | none => 0xFFFF

/-- Bytes of a page from its home in the hearth or the pantry; a page without a home reads as zero (R275). -/
def pageRead (s : State) (x : PageRt) (off len : Nat) : Bytes :=
  let b := s.homeBase x.tier x.channel x.area x.index
  if x.tier = 0 then s.hearthRead (b + off) len else if x.tier = 1 then s.pantryRead (b + off) len else zeros len

/-- Read bytes of a page on the way of its home, and take the answers (R272, R347). -/
def askPage (x : PageRt) (off len : Nat) (s : State) : State :=
  let b := s.homeBase x.tier x.channel x.area x.index + off
  if x.tier = 0 then s.takeMem s.ans ((List.range (ceilDiv (b % 128 + len) 128)).map (fun i => b / 128 + i))
  else if x.tier = 1 then s.takeLines s.ans ((List.range (ceilDiv (b % 64 + len) 64)).map (fun i => b / 64 + i))
  else s

/-- Write bytes of a page at its home. -/
def pageWrite (x : PageRt) (off : Nat) (bs : Bytes) (s : State) : State :=
  let b := s.homeBase x.tier x.channel x.area x.index
  if x.tier = 0 then s.hearthWrite (b + off) bs else if x.tier = 1 then s.pantryWrite (b + off) bs else s

/-- Write the enabled bytes of a 128-byte beat of a page at its home (R347, R351). -/
def pageMerge (x : PageRt) (off be : Nat) (bs : Bytes) (s : State) : State :=
  let b := s.homeBase x.tier x.channel x.area x.index
  if x.tier = 0 then s.hearthBeat (b + off) be bs else if x.tier = 1 then s.pantryBeat (b + off) be bs else s

/-- A 128-byte beat of a page is known uncorrectable or poisoned. -/
def pageBad (s : State) (x : PageRt) (off : Nat) : Bool :=
  let b := s.homeBase x.tier x.channel x.area x.index + off
  if x.tier = 0 then s.scrub.badBlocks.contains (b / 128)
  else x.tier == 1 && (s.scrub.badLines.contains (b / 64) || s.scrub.badLines.contains (b / 64 + 1))

/-- A 128-byte beat that is written whole is good again. -/
def pageGood (x : PageRt) (off : Nat) (s : State) : State :=
  let b := s.homeBase x.tier x.channel x.area x.index + off
  if x.tier = 0 then s.clearBad [b / 128]
  else { s with scrub := { s.scrub with badLines := s.scrub.badLines.filter (fun l => l != b / 64 && l != b / 64 + 1) } }

/-! ## Quotas (R278) -/

/-- Bytes that a descriptor places statically: in the hearth and in the pantry (R278). -/
def descStatic (channels : Nat) (isPaged pantryHome : Bool) (d : Desc) : Nat × Nat :=
  let stripes (n : Nat) : Nat := ceilDiv n Config.stripe * Config.stripe
  match d.cls with
  | 1 =>
    let planes := sumL ((List.range 5).map (fun i => stripes (d.count * planeWidth d.planes d.formats i)))
    let masks := if d.masked then 2 * stripes (maskBytes d.count) else 0
    if pantryHome then (masks, planes) else (planes + masks, 0)
  | 2 => (stripes (viewBytesOf d 0) + stripes (viewBytesOf d 1), 0)
  | _ =>
    if isPaged then (sumL ((List.range channels).map (fun c => stripes (16 * pagesOn c channels d.count))), 0)
    else (stripes d.count, 0)

/-- The household of the framed job. -/
def framedHousehold (p : Plan) : Nat :=
  match p.framed with
  | some j => j.household
  | none => 0

/-- Ply stores and reserve of a layout: bytes in the hearth and in the pantry. A spare holds none. -/
def plyStatic (channels : Nat) (l : Layout) (me : Nat) (pantryHanks : List Nat) : Nat × Nat :=
  if l.n ≤ me then (0, 0)
  else ((l.plyStripes + ceilDiv (l.reserveStripes me) channels * channels) * Config.stripe,
    sumL (pantryHanks.map (fun h => l.m * l.sOf h * l.bands h)) * Config.stripe)

/-- The planes that a moving STATE hank still holds at its old home: bytes in the hearth and in the pantry (R288). -/
def oldStatic (s : State) (r : HankRt) : Nat × Nat :=
  match r.moving with
  | some (old, _) =>
    let n := sumL ((List.range 5).map (fun i =>
      ceilDiv (old.count * planeWidth old.planes old.formats i) Config.stripe * Config.stripe))
    if s.inPantry r.desc then (n, 0) else (0, n)
  | none => (0, 0)

/-- The use of a household in a tier: static bytes and the pages homed there or in transit to there. -/
def use (s : State) (hh tier : Nat) : Nat :=
  let mine := s.hanks.filter (fun r => r.desc.household == hh)
  let pick (x : Nat × Nat) : Nat := if tier = 0 then x.1 else if tier = 1 then x.2 else 0
  let static := sumL ((mine.filter (fun r => r.state != 0)).map (fun r =>
    pick (descStatic s.C (s.paged r.desc) (s.inPantry r.desc) r.desc) + pick (s.oldStatic r)))
  let plies := match s.planEff, s.code.layout with
    | some p, some l =>
      if framedHousehold p = hh then pick (plyStatic s.C l l.position (s.pantryPlies l)) + pick s.oldPlies else 0
    | _, _ => 0
  let ofMine (h : Nat) : Bool := mine.any (fun r => r.hank == h)
  let homed := (s.tier.pages.filter (fun x => x.tier == tier && ofMine x.hank)).length
  let coming := (s.tier.moves.filter (fun m => m.tier == tier && ofMine m.hank)).length
  static + plies + (homed + coming) * pageBytes

/-- The quota of a household in a tier. -/
def quota (s : State) (hh tier : Nat) : Nat :=
  match s.planEff with
  | some p => match p.tier with
    | some t => match t.households.find? (fun x => x.id == hh) with
      | some x => natAt x.quotas tier
      | none => 0
    | none => 0
  | none => 0

/-- Pages of an area that requests of a dropped move still name: no other request may cover them (R348, R352). -/
def stillOpen (s : State) (tier a : Nat) : List Nat :=
  match (s.areas)[a]? with
  | some r =>
    let at_ (o : Nat) : List Nat := if r.base ≤ o && o < r.base + r.pages * pageBytes then [(o - r.base) / pageBytes] else []
    if tier = 0 then (s.scrub.memOpen.filter (fun m => m.ch == r.channel && m.owner.headD 0 == 9)).flatMap (fun m => at_ m.addr)
    else if tier = 1 then (s.scrub.pantryOpen.filter (fun m => m.owner.headD 0 == 9)).flatMap (fun m => at_ (64 * m.line))
    else []
  | none => []

/-- A free page of the pools of a tier (for the hearth: of a channel): the first one in area order (log 34). -/
def freePage (s : State) (tier c : Nat) : Option (Nat × Nat) :=
  let cands := (s.areas.zipIdx.filter (fun a => a.1.tier == tier && (tier != 0 || a.1.channel == c)))
  let taken (a : Nat) : List Nat :=
    ((s.tier.pages.filter (fun x => x.tier == tier && x.area == a)).map (fun x => x.index)) ++
      ((s.tier.moves.filter (fun m => m.tier == tier && m.area == a)).map (fun m => m.index)) ++
      s.stillOpen tier a
  let firstIn (a : Area × Nat) : Option (Nat × Nat) :=
    let t := taken a.2
    ((List.range (t.length + 1)).find? (fun i => i < a.1.pages && !t.contains i)).map (fun i => (a.2, i))
  cands.findSome? firstIn

/-- A household has quota for one more page in a tier. -/
def hasQuota (s : State) (hh tier : Nat) : Bool := s.use hh tier + pageBytes ≤ s.quota hh tier

/-- Room for a page in a tier: quota and a free pool page. -/
def room (s : State) (hh tier c : Nat) : Option (Nat × Nat) := if s.hasQuota hh tier then s.freePage tier c else none

/-- An attempt to home a page that found the pool full while the quota has room is counted (R278), once while the same attempt goes on. -/
def countFull (hh tier h c p : Nat) (s : State) : State :=
  let k := (h, c, p, tier)
  if s.hasQuota hh tier && (s.freePage tier c).isNone && !s.tier.fullSeen.contains k then
    State.bump 0x5090 0x08 1 { s with tier := { s.tier with fullSeen := s.tier.fullSeen ++ [k] } }
  else s

/-- An attempt to home a page is over. -/
def attemptOver (h c p : Nat) (s : State) : State :=
  { s with tier := { s.tier with fullSeen := s.tier.fullSeen.filter (fun k => !(k.1 == h && k.2.1 == c && k.2.2.1 == p)) } }

/-! ## Memory-way and pantry-way requests (R347, R348, R351, R352) -/

/-- Send a memory-way request: a read of `beats` beats, or a write of the data. -/
def memRequest (ch way off beats : Nat) (data : Bytes) (again : Bool) (owner : List Nat) (s : State) : State :=
  let tag := s.memTag ch way
  let write := !data.isEmpty
  let m : MemReq :=
    { ch := ch, way := way, tag := tag, addr := off, left := if write then 1 else beats, write := write, again := again,
      owner := owner }
  State.emit (.mw ch way write tag off beats data (enables 0 data.length))
    { s with scrub := { s.scrub with memOpen := s.scrub.memOpen ++ [m] } }

/-- Send a pantry-way request: line L on way L mod 4. -/
def pantryRequest (line : Nat) (data : Bytes) (owner : List Nat) (s : State) : State :=
  let way := line % 4
  let tag := s.pantryTag way
  let m : PantryReq := { way := way, tag := tag, line := line, write := !data.isEmpty, owner := owner }
  State.emit (.pw way (!data.isEmpty) tag line data (enables 0 data.length))
    { s with scrub := { s.scrub with pantryOpen := s.scrub.pantryOpen ++ [m] } }

/-- Pantry requests that may be open on a way (R352). -/
def pantryLimit : Nat := 512

/-- The pantry ways have room for the lines of a page. -/
def pantryRoom (s : State) : Bool :=
  (List.range 4).all (fun w => (s.scrub.pantryOpen.filter (fun m => m.way == w)).length + 256 ≤ pantryLimit)

/-- No request that is open, or waits, on lines of the pantry forbids a read of them, or a write (R352). -/
def linesFree (s : State) (first n : Nat) (reads : Bool) : Bool :=
  let mine (l : Nat) : Bool := first ≤ l && l < first + n
  !s.scrub.pantryOpen.any (fun m => mine m.line && (m.write || !reads)) && !s.scrub.later.any (fun x => match x with
    | .pw _ _ _ line _ _ => mine line
    | _ => false)

/-- No request that is open, or waits, on blocks of a channel forbids a read of them, or a write (R348). -/
def blocksFree (s : State) (ch off n : Nat) (reads : Bool) : Bool :=
  !s.memHit ch off n reads && !s.laterHit (.mw ch 0 true 0 off n [] 0)

/-- A page can be read, or written, at a home now (R348, R352). -/
def homeFree (s : State) (tier channel area index : Nat) (reads : Bool) : Bool :=
  let b := s.homeBase tier channel area index
  if tier = 0 then s.blocksFree channel (b % Config.channelSpan) 512 reads
  else if tier = 1 then s.pantryRoom && s.linesFree (b / 64) 1024 reads
  else true

/-! ## A page move (R282) -/

/-- The owner key of a move's memory and pantry requests. -/
def moveKey (m : MoveRt) (i : Nat) : List Nat := [0, m.hank, m.channel, m.page, i]

/-- The move of a page. -/
def move? (s : State) (h c p : Nat) : Option MoveRt := s.tier.moves.find? (fun m => m.hank == h && m.channel == c && m.page == p)

/-- Change a move. -/
def updMove (m : MoveRt) (f : MoveRt → MoveRt) (s : State) : State :=
  { s with tier := { s.tier with
      moves := mapIf (fun x => x.hank == m.hank && x.channel == m.channel && x.page == m.page) f s.tier.moves } }

/-- Open memory and pantry requests whose owner is gone stay open at the controller: their answers mean nothing any more, but their tags
and blocks are not used again before they come (R348). -/
def orphan (mine : List Nat → Bool) (s : State) : State :=
  { s with scrub := { s.scrub with
      memOpen := mapIf (fun (r : MemReq) => mine r.owner) (fun r => { r with owner := [9] }) s.scrub.memOpen
      pantryOpen := mapIf (fun (r : PantryReq) => mine r.owner) (fun r => { r with owner := [9] }) s.scrub.pantryOpen } }

/-- Drop a move; the answers to its requests mean nothing any more. -/
def dropMove (m : MoveRt) (s : State) : State :=
  let s := s.dropReqs (fun e _ k => e == 3 && k.take 3 == [m.hank, m.channel, m.page])
  let s := s.orphan (fun k => k.take 4 == [0, m.hank, m.channel, m.page])
  { s with tier := { s.tier with
      moves := s.tier.moves.filter (fun x => !(x.hank == m.hank && x.channel == m.channel && x.page == m.page)) } }

/-- A move is abandoned: the page keeps its home (Table 10.6). -/
def abandonMove (m : MoveRt) (s : State) : State :=
  let x := s.pageAt m.hank m.channel m.page
  (s.dropMove m).putPage { x with inTransit := false }

/-- The stripe of the hank that is stripe `i` of a page (R273): its low bit gives the fabric way. -/
def pageStripe (s : State) (c p i : Nat) : Nat := (16 * p + i) * s.C + c

/-- Ask for the bytes of the page at its home: 16 stripes, or the lines of a pantry page. -/
def moveReads (m : MoveRt) (x : PageRt) (s : State) : State :=
  let b := s.homeBase x.tier x.channel x.area x.index
  if x.tier = 0 then
    forEach (List.range 16) (fun i st =>
      st.memRequest m.channel i (b % Config.channelSpan + i * Config.stripe) 32 [] false (moveKey m i)) s
  else if x.tier = 1 then
    forEach (List.range 1024) (fun i st => st.pantryRequest (b / 64 + i) [] (moveKey m i)) s
  else
    forEach (List.range 16) (fun i st =>
      st.request 3 0x03 (st.areaNode x.area) (st.pageStripe m.channel m.page i % 2)
        (toLE 8 (b + i * Config.stripe) ++ toLE 4 Config.stripe ++ zeros 4) [m.hank, m.channel, m.page, i]) s

/-- The bytes of the page that is being copied. -/
def moveData (s : State) (m : MoveRt) (x : PageRt) : Bytes :=
  if x.tier = 2 then (List.range 16).flatMap (fun i => match m.got.find? (fun g => g.1 == i) with
    | some g => g.2
    | none => zeros Config.stripe)
  else s.pageRead x 0 pageBytes

/-- Write the bytes at the new home. -/
def moveWrites (m : MoveRt) (x : PageRt) (s : State) : State :=
  let data := s.moveData m x
  let b := s.homeBase m.tier m.channel m.area m.index
  if m.tier = 0 then
    let s := s.updMove m (fun y => { y with writes := 16, got := [] })
    let s := s.hearthPut b data
    let s := s.clearBad ((List.range 512).map (fun i => b / 128 + i))
    forEach (List.range 16) (fun i st =>
      st.memRequest m.channel i (b % Config.channelSpan + i * Config.stripe) 32 (sub (i * Config.stripe) Config.stripe data) false
        (moveKey m i)) s
  else if m.tier = 1 then
    let s := s.updMove m (fun y => { y with writes := 1024, got := [] })
    let s := s.pantryPut b data
    let good := s.scrub.badLines.filter (fun l => !(b / 64 ≤ l && l < b / 64 + 1024))
    let s := { s with scrub := { s.scrub with badLines := good } }
    forEach (List.range 1024) (fun i st => st.pantryRequest (b / 64 + i) (sub (i * 64) 64 data) (moveKey m i)) s
  else
    let s := s.updMove m (fun y => { y with writes := 16, got := [] })
    forEach (List.range 16) (fun i st =>
      st.request 3 0x01 (st.areaNode m.area) (st.pageStripe m.channel m.page i % 2)
        (toLE 8 (b + i * Config.stripe) ++ toLE 4 Config.stripe ++ zeros 4 ++ sub (i * Config.stripe) Config.stripe data)
        [m.hank, m.channel, m.page, i]) s

/-- Start a move of a page to a home (R282). -/
def startMove (x : PageRt) (tier area index : Nat) (s : State) : State :=
  let m : MoveRt :=
    { hank := x.hank, channel := x.channel, page := x.page, tier := tier, area := area, index := index,
      reads := List.range (if x.tier = 1 then 1024 else 16), writes := 0, got := [] }
  let s := { s with tier := { s.tier with moves := s.tier.moves ++ [m] } }
  (s.putPage { x with inTransit := true, queued := false }).moveReads m x

/-- Every write of a move is acknowledged: the page switches home (R282); a page of a read-only placement hank need not be placed any
more. -/
def switchHome (m : MoveRt) (s : State) : State :=
  let x := s.pageAt m.hank m.channel m.page
  let s := s.updHank m.hank (fun r => { r with toPlace := r.toPlace.filter (fun k => k != (m.channel, m.page)) })
  let s := (s.dropMove m).putPage { x with tier := m.tier, area := m.area, index := m.index, inTransit := false }
  if m.tier < x.tier then s.bump 0x5090 0x01 1 else s.bump 0x5090 0x02 1

/-- The bytes of a page are in: they go to its new home as soon as its ways are free for them (R348, R352). -/
def moveOn (m : MoveRt) (s : State) : State :=
  if s.homeFree m.tier m.channel m.area m.index false then s.moveWrites m (s.pageAt m.hank m.channel m.page) else s

/-- A read of a move is answered. -/
def moveRead (h c p i : Nat) (data : Option Bytes) (s : State) : State :=
  match s.move? h c p with
  | none => s
  | some m =>
    if !m.reads.contains i then s
    else
      let m1 := { m with reads := m.reads.erase i, got := match data with
        | some b => m.got ++ [(i, b)]
        | none => m.got }
      let s := s.updMove m (fun _ => m1)
      if m1.reads.isEmpty then s.moveOn m1 else s

/-- A write of a move is answered. -/
def moveWritten (h c p : Nat) (s : State) : State :=
  match s.move? h c p with
  | none => s
  | some m =>
    let m1 := { m with writes := m.writes - 1 }
    let s := s.updMove m (fun _ => m1)
    if m1.writes = 0 && m1.reads.isEmpty then s.switchHome m1 else s

/-- A read or write of a move at a cellar node failed (Table 10.6). -/
def moveFailed (h c p : Nat) (s : State) : State :=
  match s.move? h c p with
  | none => s
  | some m => (s.abandonMove m).bump 0x5090 0x09 1

/-- The bytes of the page could not be read: the copy is abandoned (log 35). -/
def moveBadRead (h c p : Nat) (s : State) : State :=
  match s.move? h c p with
  | none => s
  | some m => s.abandonMove m

/-! ## The mover (R281, R284, R285) -/

/-- mover_bytes of the plan in effect. -/
def moverBytes (s : State) : Nat :=
  match s.planEff with
  | some p => p.frame.moverBytes
  | none => 0

/-- What is left of a channel's budget and of the total. -/
def budLeft (s : State) (c : Nat) : Nat := ceilDiv s.moverBytes s.C - natAt s.tier.used c

def totLeft (s : State) : Nat := s.moverBytes - s.tier.usedTot

/-- Charge bytes to a channel and to the total; what exceeds them is counted (R285). -/
def charge (c bytes : Nat) (s : State) : State :=
  let excess := max (bytes - s.budLeft c) (bytes - s.totLeft)
  let used := if s.tier.used.length = s.C then s.tier.used else List.replicate s.C 0
  let s := { s with tier := { s.tier with used := addAt used c bytes, usedTot := s.tier.usedTot + bytes } }
  if excess = 0 then s else s.bump 0x5090 0x06 excess

/-- The household of a hank. -/
def householdOf (s : State) (h : Nat) : Nat :=
  match s.hank? h with
  | some r => r.desc.household
  | none => 0

/-- The channel has a page in transit: the mover's bobbin share holds one (Table 10.7). -/
def channelBusy (s : State) (c : Nat) : Bool := s.tier.moves.any (fun m => m.channel == c)

/-- The page can be read where it is. -/
def readable (s : State) (x : PageRt) : Bool := s.homeFree x.tier x.channel x.area x.index true

/-- Where a hearth page may be demoted to: the pantry if allowed with room, else the cellar. -/
def lowerHome (s : State) (x : PageRt) : Option (Nat × Nat × Nat) :=
  match s.hank? x.hank with
  | none => none
  | some r =>
    let hh := r.desc.household
    match (if s.allows r.desc 1 then s.room hh 1 x.channel else none) with
    | some (a, i) => some (1, a, i)
    | none =>
      match (if s.allows r.desc 2 then s.room hh 2 x.channel else none) with
      | some (a, i) => some (2, a, i)
      | none => none

/-- Offset of a page in its hank, as an order key. -/
def pageOrder (s : State) (x : PageRt) : Nat := x.page * s.C + x.channel

/-- `a` gives way before `b`: lower heat, then higher hank, then higher offset. -/
def colder (s : State) (a b : PageRt) : Bool :=
  if a.heat != b.heat then a.heat < b.heat
  else if a.hank != b.hank then b.hank < a.hank
  else s.pageOrder b < s.pageOrder a

/-- The coldest hearth page of a channel and a household that may be demoted and passes a test; the pages of a LOADING read-only placement
hank stay in the hearth (R289). -/
def coldest (s : State) (hh c : Nat) (test : PageRt → Bool) : Option PageRt :=
  let ok (x : PageRt) : Bool :=
    x.tier == 0 && x.channel == c && !x.inTransit && !x.lost && s.householdOf x.hank == hh &&
      (match s.hank? x.hank with
        | some r => !(r.desc.readOnly && r.state == 1) && (match s.policyOf r.desc with
          | some q => !bit q.flags 0 && x.heat ≤ q.demoteAt
          | none => false)
        | none => false) && test x
  (s.tier.pages.filter ok).foldl (fun best x => match best with
    | some b => if s.colder x b then some x else some b
    | none => some x) none

/-- The page that is demoted to make room on a channel for a household (R281). -/
def victim (s : State) (hh c : Nat) : Option PageRt := s.coldest hh c (fun x => (s.lowerHome x).isSome)

/-- A demotion that finds a pool full while the quota has room is counted (R278, R297). -/
def countLower (x : PageRt) (s : State) : State :=
  match s.hank? x.hank with
  | none => s
  | some r =>
    let hh := r.desc.household
    let s := if s.allows r.desc 1 then s.countFull hh 1 x.hank x.channel x.page else s
    if s.allows r.desc 2 && !(s.allows r.desc 1 && (s.room hh 1 x.channel).isSome) then s.countFull hh 2 x.hank x.channel x.page else s

/-- Demote a page. -/
def demote (x : PageRt) (s : State) : State :=
  if !s.readable x then s
  else
    let s := s.countLower x
    match s.lowerHome x with
    | some (t, a, i) => (s.charge x.channel pageBytes).startMove x t a i
    | none => s

/-- No page can be demoted to make room: the attempt on the coldest one is counted where a pool is full (R297). -/
def noVictim (hh c : Nat) (s : State) : State :=
  match s.coldest hh c (fun _ => true) with
  | some x => s.countLower x
  | none => s

/-- A page of a cellar or pantry home goes to the hearth, or a page makes room for it first. `force` is demand work, ahead of the
budget. -/
def promote (force : Bool) (x : PageRt) (s : State) : State :=
  let c := x.channel
  let hh := s.householdOf x.hank
  if x.inTransit || s.channelBusy c || !s.pantryRoom || !s.readable x then s
  else if !force && (s.budLeft c < pageBytes || s.totLeft < pageBytes) then s
  else
    let s := s.countFull hh 0 x.hank c x.page
    match s.room hh 0 c with
    | some (a, i) => (s.charge c pageBytes).startMove x 0 a i
    | none =>
      match s.victim hh c with
      | some v => if !force && (s.budLeft c < 2 * pageBytes || s.totLeft < 2 * pageBytes) then s else s.demote v
      | none => s.noVictim hh c

/-- A new page of a hank may have its home in the pantry: not while a read-only placement hank is LOADING (R289). -/
def homesLower (s : State) (r : HankRt) : Bool := s.allows r.desc 1 && !(r.desc.readOnly && r.state == 1)

/-- Give a page a home in the hearth or the pantry, where there is room (R284). -/
def allocate (r : HankRt) (c p : Nat) (s : State) : State × Bool :=
  let hh := r.desc.household
  let x := s.pageAt r.hank c p
  let place (tier : Nat) (ai : Nat × Nat) (st : State) : State :=
    (st.putPage { x with tier := tier, area := ai.1, index := ai.2, queued := false }).bump 0x5090 0x03 1
  let s := if s.allows r.desc 0 then s.countFull hh 0 r.hank c p else s
  match (if s.allows r.desc 0 then s.room hh 0 c else none) with
  | some ai => (place 0 ai s, true)
  | none =>
    let s := if s.homesLower r then s.countFull hh 1 r.hank c p else s
    match (if s.homesLower r then s.room hh 1 c else none) with
    | some ai => (place 1 ai s, true)
    | none => (s, false)

/-- Room can be made for a new page: the coldest page can be demoted, or a demotion on its channel is under way. -/
def canMakeRoom (s : State) (r : HankRt) (c : Nat) : Bool :=
  s.allows r.desc 0 && ((s.victim r.desc.household c).isSome ||
    s.tier.moves.any (fun m => m.channel == c && m.tier != 0 && s.householdOf m.hank == r.desc.household))

/-- Take a page off the demand queue. -/
def unqueue (e : Nat × Nat × Nat) (s : State) : State :=
  { s with tier := { s.tier with demand := s.tier.demand.erase e } }

/-- Queue a demand promotion or an allocation. -/
def queueDemand (h c p : Nat) (s : State) : State :=
  let x := s.pageAt h c p
  if x.queued then s
  else
    let s := s.putPage { x with queued := true }
    { s with tier := { s.tier with demand := s.tier.demand ++ [(h, c, p)] } }

/-- One entry of the demand queue: an allocation, or a promotion (R281, step 1). -/
def demandOne (e : Nat × Nat × Nat) (s : State) : State :=
  match s.hank? e.1 with
  | none => s.unqueue e
  | some r =>
    let x := s.pageAt e.1 e.2.1 e.2.2
    if x.tier = 3 then
      let (s1, ok) := s.allocate r e.2.1 e.2.2
      if ok then s1.unqueue e
      else if s.channelBusy e.2.1 || !s.pantryRoom then s
      else
        match s.victim r.desc.household e.2.1 with
        | some v => s.demote v
        | none => s.noVictim r.desc.household e.2.1
    else if x.tier = 2 && s.allows r.desc 0 then
      let s1 := s.promote true x
      if (s1.pageAt e.1 e.2.1 e.2.2).inTransit then s1.unqueue e else s1
    else if x.tier < 2 then (s.putPage { x with queued := false }).unqueue e
    else s

/-- Step 2: a page of a read-only placement hank that is to go to the policy's home. -/
def placeOne (x : PageRt) (s : State) : State :=
  match s.hank? x.hank with
  | none => s
  | some r =>
    match s.policyOf r.desc with
    | none => s
    | some q =>
      if x.tier != 0 || x.inTransit || q.home = 0 || s.channelBusy x.channel || !s.pantryRoom || !s.readable x ||
          s.budLeft x.channel < pageBytes || s.totLeft < pageBytes then s
      else
        let s := s.countFull r.desc.household q.home x.hank x.channel x.page
        match s.room r.desc.household q.home x.channel with
        | some (a, i) => (s.charge x.channel pageBytes).startMove x q.home a i
        | none => s

/-- Pages of read-only placement hanks that have become LIVE and still lie in the hearth, in increasing hank then offset. -/
def toPlace (s : State) : List PageRt :=
  let xs := s.tier.pages.filter (fun x => x.tier == 0 && s.hanks.any (fun r =>
    r.hank == x.hank && r.state == 2 && r.toPlace.contains (x.channel, x.page)))
  sortBy (fun a b => if a.hank != b.hank then a.hank < b.hank else s.pageOrder a ≤ s.pageOrder b) xs

/-- Step 3: the pages that heat promotes, in order. -/
def toPromote (s : State) : List PageRt :=
  let ok (x : PageRt) : Bool := (x.tier == 1 || x.tier == 2) && !x.lost && !x.inTransit &&
    (match s.hank? x.hank with
      | some r => s.allows r.desc 0 && (match s.policyOf r.desc with
        | some q => !bit q.flags 0 && q.promoteAt ≤ x.heat
        | none => false)
      | none => false)
  sortBy (fun a b =>
    if a.heat != b.heat then b.heat < a.heat
    else if a.hank != b.hank then a.hank < b.hank else s.pageOrder a ≤ s.pageOrder b) (s.tier.pages.filter ok)

/-- The mover runs between the tick and roll-call. -/
def moverRuns (s : State) : Bool := s.fr.opened && s.fr.phase == .gather && !s.fr.rcSeen && !s.fenced

/-! ### STATE home moves (R288) -/

/-- A home move is over: every group and every lap has moved. -/
def homeMoveDone (r : HankRt) (s : State) : Bool :=
  match r.moving, s.code.layout with
  | some (_, n), some l => groupsOf r.desc.count ≤ n && l.sOf r.hank * l.bands r.hank ≤ r.plyMoved
  | some (_, n), none => groupsOf r.desc.count ≤ n
  | none, _ => true

/-- The stripes of a group, or the ply stripes of a lap, at the home that a hank's entry gives them. -/
def homePlaces (s : State) (r : HankRt) (m : HomeMv) : List (Nat × Bool) :=
  if m.ply then
    match s.code.layout with
    | some l => (List.range l.m).map (fun role => s.ownPlyKey l m.hank (l.baseLap m.hank + m.index) role)
    | none => []
  else (groupStripesOf r.desc m.index).map (fun x => s.planeKey r x.1.1 (planeStripe m.index x.1) m.index)

/-- A hank once one group, or one lap, more has moved. -/
def moved (m : HomeMv) (r : HankRt) : HankRt :=
  if m.ply then { r with plyMoved := m.index + 1 } else { r with moving := r.moving.map (fun x => (x.1, m.index + 1)) }

/-- The owner key of the requests of a home move. -/
def homeKey (m : HomeMv) : List Nat := [3, m.hank, m.ply.toNat, m.index, 0]

/-- The same unit of a home move. -/
def sameHome (a b : HomeMv) : Bool := a.hank == b.hank && a.ply == b.ply && a.index == b.index

/-- Change a home move. -/
def updHome (m : HomeMv) (f : HomeMv → HomeMv) (s : State) : State :=
  { s with tier := { s.tier with homeMvs := mapIf (sameHome m) f s.tier.homeMvs } }

/-- Requests for a stripe: one memory request, or 64 lines. -/
def placeRequests (ks : List (Nat × Bool)) : Nat := sumL (ks.map (fun k => if k.2 then 64 else 1))

/-- Read a stripe, or write it with some bytes, for an owner. -/
def placeRequest (owner : List Nat) (k : Nat × Bool) (data : Bytes) (s : State) : State :=
  if k.2 then forEach (List.range 64) (fun i st => st.pantryRequest (k.1 / 64 + i) (sub (64 * i) 64 data) owner) s
  else
    let off := k.1 % Config.channelSpan
    s.memRequest (k.1 / Config.channelSpan) (offsetWay off) off 32 data false owner

/-- The pantry ways have room for the lines of some stripes. -/
def pantryRoomFor (s : State) (n : Nat) : Bool :=
  (List.range 4).all (fun w => (s.scrub.pantryOpen.filter (fun m => m.way == w)).length + 16 * n ≤ pantryLimit)

/-- Stripes can be read, or written, where they lie now (R348, R352). -/
def placesFree (s : State) (ks : List (Nat × Bool)) (reads : Bool) : Bool :=
  s.pantryRoomFor (ks.filter (fun k => k.2)).length && ks.all (fun k =>
    if k.2 then s.linesFree (k.1 / 64) 64 reads
    else s.blocksFree (k.1 / Config.channelSpan) (k.1 % Config.channelSpan) 32 reads)

/-- Start to copy a group or a lap: its charges go to the channels, its reads to the ways of the old home. -/
def startHome (r : HankRt) (m : HomeMv) (charges : List (Nat × Nat)) (s : State) : State :=
  let ks := s.homePlaces r m
  if charges.any (fun x => decide (s.budLeft x.1 < sumL ((charges.filter (fun y => y.1 == x.1)).map (fun y => y.2)))) ||
      decide (s.totLeft < sumL (charges.map (fun x => x.2))) || !s.pantryRoomFor ks.length || !s.placesFree ks true then s
  else
    let s := forEach charges (fun x st => st.charge x.1 x.2) s
    let s := { s with tier := { s.tier with homeMvs := s.tier.homeMvs ++ [{ m with reads := placeRequests ks }] } }
    forEach ks (fun k st => st.placeRequest (homeKey m) k []) s

/-- Start the move of the next group of a hank, when it is not in flight, under repair or on the move already. -/
def moveGroup (h : Nat) (s : State) : State :=
  match s.hank? h with
  | none => s
  | some r =>
    match r.moving with
    | none => s
    | some (_, g) =>
      if g ≥ groupsOf r.desc.count || s.tier.homeMvs.any (fun m => m.hank == h && !m.ply) ||
          s.card.inflight.any (fun x => x.position == s.myPos && x.hank == h && x.group == g) || s.underRepair s.myPos h g then s
      else
        let bytes := (groupStripesOf r.desc g).length * Config.stripe
        s.startHome r { hank := h, ply := false, index := g, reads := 0, writes := 0, bytes := [] } [(g % s.C, bytes)]

/-- Start the move of the ply stripes of the next lap of a hank, each charged to its own channel. -/
def moveLap (h : Nat) (s : State) : State :=
  match s.hank? h, s.code.layout with
  | some r, some l =>
    let i := r.plyMoved
    if r.moving.isNone || i ≥ l.sOf h * l.bands h || s.tier.homeMvs.any (fun m => m.hank == h && m.ply) then s
    else
      s.startHome r { hank := h, ply := true, index := i, reads := 0, writes := 0, bytes := [] }
        ((List.range l.m).map (fun role => (l.plyIndex (l.baseLap h + i) role % s.C, Config.stripe)))
  | _, _ => s

/-- 0x2530.01 tells when every home move is over. -/
def homesOver (s : State) : State :=
  if s.tier.homeMove = 1 && s.hanks.all (fun r => homeMoveDone r s) then { s with tier := { s.tier with homeMove := 2 } } else s

/-- The home moves of STATE hanks, after the demand work. -/
def homeMoves (s : State) : State :=
  (forEach ((s.hanks.filter (fun r => r.moving.isSome)).map (fun r => r.hank)) (fun h st => (st.moveGroup h).moveLap h) s).homesOver

/-- The bytes of a group or a lap at its home. -/
def homeBytes (s : State) (m : HomeMv) : List Bytes :=
  match s.hank? m.hank with
  | none => []
  | some r => (s.homePlaces r m).map (fun k => if k.2 then s.pantryRead k.1 Config.stripe else s.hearthRead k.1 Config.stripe)

/-- The bytes of a copy are in: they go to the new home as soon as its ways are free for them (R348, R352). -/
def homeWrites (m : HomeMv) (s : State) : State :=
  match s.hank? m.hank with
  | none => s
  | some r =>
    let bytes := s.homeBytes m
    let v := s.updHank m.hank (moved m)
    let ks := v.homePlaces (moved m r) m
    if !s.placesFree ks false then s
    else
    let s := s.updHome m (fun x => { x with bytes := bytes, writes := placeRequests ks })
    forEach (ks.zip bytes) (fun x st =>
      let st := if x.1.2 then st.pantryPut x.1.1 x.2 else st.hearthPut x.1.1 x.2
      (st.clearKey x.1).placeRequest (homeKey m) x.1 x.2) s

/-- The group or the lap switches home. -/
def homeSwitch (m : HomeMv) (s : State) : State :=
  let s := { s with tier := { s.tier with homeMvs := s.tier.homeMvs.filter (fun x => !sameHome m x) } }
  let s := s.updHank m.hank (moved m)
  let s := if m.ply then s else { s with tier := { s.tier with homeMoved := s.tier.homeMoved + 1 } }
  s.homesOver

/-- A copy is given up; what it copied keeps its home. -/
def homeDrop (m : HomeMv) (s : State) : State :=
  State.orphan (fun k => k.take 5 == homeKey m) { s with tier := { s.tier with homeMvs := s.tier.homeMvs.filter (fun x => !sameHome m x) } }

/-- One answer for a home move; a read that failed gives the copy up, to be taken up again once the stripe is repaired, and so does a
change of the bytes (a recompute of plies) since they were read. -/
def homeAnswer (owner : List Nat) (write last bad : Bool) (s : State) : State :=
  match s.tier.homeMvs.find? (fun m => homeKey m == owner.take 5) with
  | none => s
  | some m =>
    if bad && !write then s.homeDrop m
    else if !last then s
    else if write then
      let m1 := { m with writes := m.writes - 1 }
      if m1.writes != 0 then s.updHome m (fun _ => m1)
      else if s.homeBytes m == m.bytes then s.homeSwitch m1
      else s.homeDrop m
    else
      let m1 := { m with reads := m.reads - 1 }
      let s := s.updHome m (fun _ => m1)
      if m1.reads = 0 then s.homeWrites m1 else s

/-- Copies whose bytes are in and whose writes waited for their ways go on. -/
def retryMoves (s : State) : State :=
  let s := forEach (s.tier.moves.filter (fun m => m.reads.isEmpty && m.writes == 0)) (fun m st => st.moveOn m) s
  forEach (s.tier.homeMvs.filter (fun m => m.reads == 0 && m.writes == 0)) (fun m st => st.homeWrites m) s

/-- One pass of the mover (R281): what may start now, in order. -/
def moverPass (s : State) : State :=
  if !s.moverRuns then s
  else
    let s := forEach s.tier.demand (fun e st => st.demandOne e) s
    let s := s.homeMoves
    let s := forEach s.toPlace (fun x st => st.placeOne x) s
    forEach s.toPromote (fun x st => st.promote false x) s

/-! ## Heat (R280) -/

/-- A beat or an atomic reaches a page. -/
def heatPage (h c p : Nat) (s : State) : State :=
  let x := s.pageAt h c p
  s.putPage { x with count := x.count + 1 }

/-- Heat at a threshold. -/
def heatThreshold (s : State) : State :=
  let cool (x : PageRt) : PageRt :=
    let decay := match s.hank? x.hank with
      | some r => match s.policyOf r.desc with
        | some q => q.decay
        | none => 0
      | none => 0
    { x with heat := min 65535 (x.heat + x.count) / 2 ^ decay, count := 0 }
  forEach s.tier.pages (fun x st => st.putPage (cool x)) s

/-! ## Lost cellar nodes (Table 10.9) -/

/-- Pages homed at a node that an epoch excluded are marked lost. -/
def markLost (s : State) : State :=
  let gone := s.loss.excludedNodes.map (fun e => e.2)
  if gone.isEmpty then s
  else
    let xs := s.tier.pages.filter (fun x => x.tier == 2 && !x.lost && gone.contains (s.areaNode x.area))
    forEach xs (fun x st =>
      let st := match st.move? x.hank x.channel x.page with
        | some m => st.abandonMove m
        | none => st
      (st.putPage { x with lost := true, inTransit := false }).countNote 0x5090 0x09 (st.areaNode x.area)) s

/-! ## Discards (R290) -/

/-- The pages of a hank that lie wholly inside a range. -/
def discardPages (s : State) (h off len : Nat) : List PageRt :=
  (s.tier.pages.filter (fun x => x.hank == h)).filter (fun x =>
    (List.range 16).all (fun i =>
      let o := s.pageStripe x.channel x.page i * Config.stripe
      off ≤ o && o + Config.stripe ≤ off + len))

/-- How many pages of a hank lie wholly inside a range, those without a home among them (R290). -/
def discardCount (s : State) (r : HankRt) (off len : Nat) : Nat :=
  let a := off / Config.stripe
  let b := (off + len) / Config.stripe
  sumL ((List.range s.C).map (fun c =>
    let lo := ceilDiv (a - c) (16 * s.C)
    let hi := if 15 * s.C + c + 1 ≤ b then (b - c - 1 - 15 * s.C) / (16 * s.C) + 1 else 0
    min hi (pagesOn c s.C r.desc.count) - lo))

/-- Free the pages of a discard once no die holds a copy. R290 sets tier 3; the heat and the frame's count of a page that has no home any
more start again at 0 (DESIGN CHOICE, log 186). -/
def discardNow (h off len : Nat) (s : State) : State × Bool :=
  let xs := s.discardPages h off len
  let ks := xs.map (fun x => { hank := h, region := 0, channel := x.channel, page := x.page : PageKey })
  if !s.coherent ks none then (s.invalidate ks none, false)
  else
    let n := match s.hank? h with
      | some r => s.discardCount r off len
      | none => 0
    (forEach xs (fun x st =>
      let st := match st.move? x.hank x.channel x.page with
        | some m => st.abandonMove m
        | none => st
      let st := { st with tier := { st.tier with demand := st.tier.demand.erase (x.hank, x.channel, x.page) } }
      st.putPage { x with
        tier := 3, lost := false, queued := false, inTransit := false, heat := 0, count := 0 }) (s.bump 0x5090 0x0B n), true)

/-- PAGE_DISCARD: 0 when done, 9 where the write completes later, once the dies have let go of the pages, 7 where an Ocper client is to
write again for that; else the reason of refusal. -/
def pageDiscard (path : Path) (b : Bytes) (s : State) : State × Nat :=
  let h := fld 0 2 b
  let off := fld 8 8 b
  let len := fld 16 8 b
  if b.length != 24 then (s, 3)
  else if fld 2 6 b != 0 || off % 4096 != 0 || len % 4096 != 0 then (s, 4)
  else
    match s.hank? h with
    | none => (s, 4)
    | some r =>
      if !s.paged r.desc then (s, 4)
      else
        let (s1, done) := s.discardNow h off len
        if done then (s1, 0)
        else match path with
          | .ocper _ => (s1, 7)
          | _ => ({ s1 with tier := { s1.tier with discards := s1.tier.discards ++ [(path, h, off, len)] } }, 9)

/-- A discard that waited is complete: its write is answered. -/
def answerDiscard (path : Path) (s : State) : State :=
  match path with
  | .regPort => s.emit (.rp 0 0)
  | _ => s.emit (.wr path 0)

/-- Discards that waited for a die. -/
def retryDiscards (s : State) : State :=
  let ds := s.tier.discards
  if ds.isEmpty then s
  else
    forEach ds (fun d st =>
      let (st1, done) := st.discardNow d.2.1 d.2.2.1 d.2.2.2
      if done then st1.answerDiscard d.1 else { st1 with tier := { st1.tier with discards := st1.tier.discards ++ [d] } })
      { s with tier := { s.tier with discards := [] } }

end State

/-! ## Atomics (R291 to R293, Table 10.8) -/

/-- Signed value of a `w`-byte number. -/
def signed (w n : Nat) : Int := if n < 2 ^ (8 * w - 1) then (n : Int) else (n : Int) - 2 ^ (8 * w)

/-- The new value at the target, with the low bytes of the operands; none for a code that is not in Table 10.8 or that the width and hank do not allow. -/
def atomicNew (code w : Nat) (unordered : Bool) (old a b : Nat) : Option Nat :=
  let a := a % 2 ^ (8 * w)
  let b := b % 2 ^ (8 * w)
  match code with
  | 1 => some ((old + a) % 2 ^ (8 * w))
  | 2 => some (if signed w a < signed w old then a else old)
  | 3 => some (if signed w old < signed w a then a else old)
  | 4 => some (min old a)
  | 5 => some (max old a)
  | 6 => some (if old = a then b else old)
  | 7 => if unordered && w == 4 then some (Fp.add (BitVec.ofNat 32 old) (BitVec.ofNat 32 a)).toNat else none
  | _ => none

end Sys2Proof.Machine
end

