-- ==== Sys2Proof/Machine/Flags.lean ====
section
/-! DEFINITION. Which status a porch request gets as a whole (R42 to R44, R51, R58 rows 1 and 2, Tables 2.4 to 2.6, 3.5, 9.1, 10.11,
R143), the mask check and the side band (R51, R55, R56), what the reel counts (R50). The block has no arithmetic flags. -/

namespace Sys2Proof

namespace Machine

/-- What a porch request asks for (Table 12.4). -/
inductive HallOp where
  | read | write | atomic | none
  deriving DecidableEq, Repr

/-- The operation of an op code. -/
def hallOp (op : Nat) : HallOp :=
  match op with
  | 0 => .read
  | 1 => .write
  | 2 => .atomic
  | _ => .none

/-- A hank has a region (R42, Table 2.4). -/
def hasRegion (d : Desc) (region : Nat) : Bool :=
  region == 0 || (region == 0x20 && d.window) ||
    (d.cls == 1 && ((1 ≤ region && region ≤ 4 && planeWidth d.planes d.formats region != 0) || (region == 0x10 && d.masked))) ||
    (d.cls == 2 && region == 1 && 3 ≤ d.viewFormat)

/-- A masked selector is allowed on a hank (R51). -/
def maskedAllowed (d : Desc) : Bool := d.masked && (d.cls == 1 || (d.cls == 2 && d.viewFormat ≤ 2))

/-- The reads of region 0x00 that Tables 2.6, 3.5 and 10.11 and R143 grant by class and state. -/
def readGranted (d : Desc) (state view : Nat) : Bool :=
  match d.cls with
  | 1 => (state == 2 && (view ≤ 1 || maskedAllowed d)) || (state == 1 && view == 0)
  | 2 => state == 2 && (view == 0 || (d.viewFormat ≤ 2 && (view == 1 || maskedAllowed d)))
  | 3 => state == 2 && view == 0
  | _ => (state == 1 || state == 2) && view == 0

/-- The writes of region 0x00 that the tables grant by class and state. -/
def writeGranted (d : Desc) (state : Nat) : Bool :=
  match d.cls with
  | 1 => state == 1
  | 2 => false
  | 3 => state == 2
  | 4 => state == 1 || (state == 2 && !d.readOnly)
  | 7 => state == 1 || (state == 2 && !d.readOnly)
  | _ => state == 1 || state == 2

/-- Access by class, state, region and selector (R44). -/
def granted (d : Desc) (state region view : Nat) (op : HallOp) : Bool :=
  if region = 0x20 then op == .read && view == 4 && state == 2
  else if 3 < view then false
  else
    match op with
    | .read =>
      if region = 0 then readGranted d state view
      else if region = 0x10 then view == 0 && (state == 1 || state == 2)
      else d.cls == 2 && state == 2 && view == 0
    | .write => view == 0 && (if region = 0 then writeGranted d state else d.cls == 1 && state == 1)
    | .atomic => d.cls == 5 && state == 2 && region == 0 && view == 0
    | .none => false

end Machine

namespace HallReq

/-- The region of a request (R42). -/
def region (q : HallReq) : Nat := q.addr.toNat / 2 ^ 40

/-- The byte offset of a request in its window. -/
def off (q : HallReq) : Nat := q.addr.toNat % 2 ^ 40

/-- The response items of a request: one for an ATOMIC, else one for each beat, at least one (R341; log 36). -/
def items (q : HallReq) : Nat := if q.op = 2 then 1 else max 1 q.len.toNat

/-- Offset and length of a request are of a form that is served (R42). -/
def shapeOk (q : HallReq) : Bool := q.off % 128 == 0 && 1 ≤ q.len.toNat && q.len.toNat ≤ 64

/-- The die that a coherent request comes from; none for a request from outside the package (R295). -/
def writer (q : HallReq) : Option Nat := if q.ext then none else some q.die.toNat

/-- The die that will cache what a READ returns (R295, R339). -/
def caches (q : HallReq) : Bool := q.cache && !q.ext

end HallReq

namespace Machine

/-! ## One beat of a response -/

/-- A beat of a response: status, data, side band (Table 12.5). -/
structure Beat where
  status : HallStatus
  data : Bytes
  side : Nat
  deriving DecidableEq, Repr

/-- A beat with a status other than OK: zero data and a zero side band (R342). -/
def Beat.stop (st : HallStatus) : Beat := { status := st, data := [], side := 0 }

/-- A served beat. -/
def Beat.ok (data : Bytes) (side : Nat) : Beat := { status := .ok, data := data, side := side }

/-! ## Windows (R39, R47, R48, R53) -/

/-- Bytes of a region up to its last element. -/
def regionEnd (d : Desc) (region : Nat) : Nat :=
  match d.cls with
  | 1 => if region = 0x10 then State.maskBytes d.count else d.count * planeWidth d.planes d.formats region
  | 2 => State.viewBytesOf d region
  | _ => d.count

/-- Bytes of a region up to the end of its last stripe. -/
def regionSpan (d : Desc) (region : Nat) : Nat := ceilDiv (regionEnd d region) Config.stripe * Config.stripe

/-- T, the tile edge: 64 for the HI plane, 128 for an FP8 view (R48). -/
def tileEdge (d : Desc) : Nat := if d.cls = 1 then 64 else 128

/-- Bytes of an element of region 0x00 of a STATE or FP8 VIEW hank. -/
def elemWidth (d : Desc) : Nat := if d.cls = 1 then 2 else 1

/-- A, the tile columns. -/
def tileCols (d : Desc) : Nat := ceilDiv d.cols (tileEdge d)

/-- Beats of the transposed window: D × A × T. -/
def tileBeats (d : Desc) : Nat := ceilDiv d.rows (tileEdge d) * tileCols d * tileEdge d

/-- The tile that holds an element (R48). -/
def tileOf (d : Desc) (e : Nat) : Nat := e / d.cols / tileEdge d * tileCols d + e % d.cols / tileEdge d

/-- The elements of beat `q` of the transposed window: none for a position outside the tensor (R48, R49). -/
def tileElems (d : Desc) (q : Nat) : List (Option Nat) :=
  let t := tileEdge d
  let tile := q / t
  let c := tile % tileCols d * t + q % t
  (List.range t).map (fun i =>
    let r := tile / tileCols d * t + i
    if r < d.rows && c < d.cols then some (r * d.cols + c) else none)

/-- The codes of a plain beat at an offset: (element, code) (Table 2.7). -/
def beatCodes (d : Desc) (o : Nat) (bs : Bytes) : List (Nat × Nat) :=
  let two : List (Nat × Nat) := bs.zipIdx.flatMap (fun x =>
    [(2 * (o + x.2), x.1.toNat % 16), (2 * (o + x.2) + 1, x.1.toNat / 16)])
  let all : List (Nat × Nat) :=
    if d.cls = 1 then (pieces 2 bs).zipIdx.map (fun x => (o / 2 + x.2, leNat x.1))
    else if d.viewFormat ≤ 2 then bs.zipIdx.map (fun x => (o + x.2, x.1.toNat))
    else if d.viewFormat = 3 then two
    else two.map (fun x => (x.1 % max 1 d.rows * d.cols + x.1 / max 1 d.rows, x.2))
  all.filter (fun x => decide (x.1 < d.count))

/-! ## The side band (Table 2.8) -/

/-- The index pair of a group of four mask bits: its kept positions, filled with the lowest unset ones. -/
def indexPair (bits : List Bool) : Nat :=
  let set := (List.range 4).filter (fun i => bits.getD i false)
  let kept := (set ++ (List.range 4).filter (fun i => !bits.getD i false)).take (max 2 (min 2 set.length))
  let a := natAt kept 0
  let b := natAt kept 1
  min a b + 4 * max a b

/-- The side band of a beat with the mask bits of its elements: 64 elements of 16 bits, or 128 of 8 bits. -/
def sideBand (w : Nat) (bits : List Bool) : Nat :=
  let mask := bits.zipIdx.foldl (fun a x => if x.1 then a + 2 ^ x.2 else a) 0
  if w = 1 then mask
  else mask + 2 ^ 64 * (List.range 16).foldl (fun a g => a + 16 ^ g * indexPair ((bits.drop (4 * g)).take 4)) 0

namespace State

/-! ## Rows 1 and 2 of Table 2.9 -/

/-- Row 1: the member is fenced and the hank is STATE, VIEW or LANDING. -/
def fencedHank (s : State) (d : Desc) : Bool := s.fenced && 1 ≤ d.cls && d.cls ≤ 3

/-- The role that the bucket map gives a LANDING hank (R64): none, or a slot hank's site, or the outbox. -/
inductive LandRole where
  | none
  | slots (x : Site)
  | outbox
  deriving DecidableEq, Repr

/-- The role of a LANDING hank. -/
def landRole (s : State) (h : Nat) : LandRole :=
  match s.sites.find? (fun x => x.slotHank == h) with
  | some x => .slots x
  | none =>
    match s.bucketMap with
    | some b => if !b.outbox.isEmpty && b.outboxHank == h then .outbox else .none
    | none => .none

/-- The alias entry of a hank while this member holds adopted groups of its position and hank (R161). -/
def aliasNamed (s : State) (h : Nat) : Option AliasEnt :=
  match s.planEff with
  | none => none
  | some p =>
    match p.replica with
    | none => none
    | some r =>
      r.aliases.find? (fun a => a.aliasHank == h &&
        s.loss.adopted.any (fun x => x.position == a.position && x.hank == a.hank && x.heir == s.myPos))

/-- Access through an alias hank: region 0x00, plain and masked plain reads (R161). -/
def aliasGranted (d : Desc) (region view : Nat) (op : HallOp) : Bool :=
  op == .read && region == 0 && (view == 0 || (view == 2 && d.masked))

/-- The byte offsets of the beats of a request that lie inside a window of `span` bytes. -/
def beatOffs (q : HallReq) (span : Nat) : List Nat :=
  ((List.range q.len.toNat).map (fun i => q.off + 128 * i)).filter (fun o => decide (o < span))

/-- A read of a LANDING hank keeps to what Table 3.5 grants: the header window of a slot hank, or the outbox. -/
def landReads (s : State) (d : Desc) (q : HallReq) : Bool :=
  match s.landRole q.hank.toNat with
  | .slots _ => (beatOffs q (regionSpan d 0)).all (fun o => decide (o < 16384))
  | .outbox => true
  | .none => false

/-- A hank whose planes Lomaz fills itself from adopted groups (R220). -/
def inherited (s : State) (h : Nat) : Bool :=
  match s.planEff with
  | some p => (match p.skein with
    | some k => k.inherits.any (fun e => e.localHank == h)
    | none => false)
  | none => false

/-- The status that rows 1 and 2 of Table 2.9 give a READ or WRITE as a whole; the host writes no plane of an inherited hank (R220). -/
def wholeStatus (s : State) (q : HallReq) (op : HallOp) : Option HallStatus :=
  let h := q.hank.toNat
  match s.hank? h with
  | none => some .refused
  | some r =>
    let ok := hasRegion r.desc q.region && granted r.desc r.state q.region q.view.toNat op
    let aliasOk := (s.aliasNamed h).isSome && aliasGranted r.desc q.region q.view.toNat op
    let roleOk := r.desc.cls != 3 || q.region != 0 || (s.landRole h != .none && (op != .read || s.landReads r.desc q))
    let mine := op != .write || 4 < q.region || !(r.desc.cls == 1 && r.state == 1 && s.inherited h)
    let streamOk := q.region != 0x20 ||
      (q.off / 2 ^ 37 != 7 && !(r.desc.cls == 1 && 0xFF00 ≤ q.off / 2 ^ 21 % 65536))
    if s.fencedHank r.desc then some .fenced
    else if (ok || aliasOk) && roleOk && mine && streamOk && q.shapeOk then none
    else some .refused

/-- A refusal of a window request counts in 0x5080.02 when its selector, stream, shape or a write is at fault (Table 9.4). That row says
nothing of the op codes 3 to 7, which grant nothing at a window either; they count as a write does (DESIGN CHOICE, log 184). -/
def windowFault (s : State) (q : HallReq) (op : HallOp) : Bool :=
  match s.hank? q.hank.toNat with
  | none => false
  | some r => q.region == 0x20 && r.desc.window && r.state == 2 &&
      (op != .read || q.view != 4 || q.off / 2 ^ 37 == 7 || (r.desc.cls == 1 && 0xFF00 ≤ q.off / 2 ^ 21 % 65536))

/-! ## The reel's count of hearth bytes (R50) -/

/-- reel_bytes of the plan in effect. -/
def reelLimit (s : State) : Option Nat := s.planEff.map (fun p => p.frame.reelBytes)

/-- Charge hearth bytes to a channel; the frame in which a channel first exceeds reel_bytes is counted. -/
def chargeReel (ch n : Nat) (s : State) : State :=
  let old := s.whorl.reelBytes
  let new := addAt old ch n
  let s := { s with whorl := { s.whorl with reelBytes := new } }
  match s.reelLimit with
  | some lim => if maxL old ≤ lim && lim < maxL new then s.bump 0x5010 0x05 1 else s
  | none => s

/-! ## Masks (R51 to R56) -/

/-- The hank whose mask map a hank is read under: its own, or a view's source's. -/
def maskHank (s : State) (r : HankRt) : Option HankRt := if r.desc.cls = 2 then s.hank? r.desc.source else some r

/-- The mask bit of an element; none where both copies are unreadable. -/
def maskBit (s : State) (r : HankRt) (e : Nat) : Option Bool := (s.maskRead r (e / 8) 1).map (fun b => bit (fld 0 1 b) (e % 8))

/-- The blocks of a mask copy at byte offsets. -/
def maskBlocksAt (s : State) (r : HankRt) (copy : Nat) (offs : List Nat) : List Nat :=
  nub (offs.flatMap (fun o => s.spanBlocks (if copy = 0 then r.desc.maskA else r.desc.maskB) o 1))

/-- Read the mask map at byte offsets: the first copy, and the second where the first is unreadable; the beats that the second serves are
counted (Table 2.10). -/
def readMaskAt (h : Nat) (offs : List Nat) (mem : MemAns) (s : State) : State :=
  match s.hank? h with
  | none => s
  | some r =>
    let s := s.takeMem mem (s.maskBlocksAt r 0 offs)
    let bad := (nub (offs.map (fun o => o / Config.stripe))).filter (fun t => s.maskCopyBad r 0 t)
    if bad.isEmpty then s
    else
      let s := forEach bad (fun t st => st.markMask h 0 t) s
      let second := offs.filter (fun o => bad.contains (o / Config.stripe))
      let s := s.takeMem mem (s.maskBlocksAt r 1 second)
      let s := forEach (bad.filter (fun t => s.maskCopyBad r 1 t)) (fun t st => st.markMask h 1 t) s
      let served := second.filter (fun o => !s.maskCopyBad r 1 (o / Config.stripe))
      s.bump 0x5010 0x09 (nub (served.map (fun o => o / 128))).length

/-- Enter a tile in the poisoned-tile list where there is room (R56). -/
def listTile (h tile : Nat) (s : State) : State :=
  if s.scrub.tiles.contains (h, tile) || 256 ≤ s.scrub.tiles.length then s
  else { s with scrub := { s.scrub with tiles := s.scrub.tiles ++ [(h, tile)] } }

/-- Codes that stand under a zero mask bit (R55). -/
def maskErrors (s : State) (m : HankRt) (codes : List (Nat × Nat)) : List Nat :=
  (codes.filter (fun x => x.2 != 0 && s.maskBit m x.1 == some false)).map (fun x => x.1)

/-- The data of a hank are divided into tiles; those of an MXFP4 view are not (R55). -/
def hasTiles (d : Desc) : Bool := d.cls == 1 || d.viewFormat ≤ 2

/-- The tiles of elements (R55). -/
def tilesIn (d : Desc) (es : List Nat) : List Nat := if hasTiles d then nub (es.map (tileOf d)) else []

/-- List the tiles of elements in error. -/
def listTiles (r : HankRt) (es : List Nat) (s : State) : State := forEach (tilesIn r.desc es) (fun t st => st.listTile r.hank t) s

/-- Tiles with an error that one read could not list are counted, each once (R56). -/
def countUnlisted (r : HankRt) (es : List Nat) (s : State) : State :=
  s.bump 0x5010 0x04 ((tilesIn r.desc es).filter (fun t => !s.scrub.tiles.contains (r.hank, t))).length

/-- Elements under the mask give no data: one is in error, lies in a listed tile, or has its mask bit unreadable in both copies (R55,
Table 2.9). -/
def maskStops (s : State) (r : HankRt) (codes : List (Nat × Nat)) : Bool :=
  r.desc.masked && (match s.maskHank r with
    | none => true
    | some m => !(s.maskErrors m codes).isEmpty || codes.any (fun x => (s.maskBit m x.1).isNone) ||
        (tilesIn r.desc (codes.map (fun x => x.1))).any (fun t => s.scrub.tiles.contains (r.hank, t)))

/-- The elements in error among some codes (R55). -/
def errorsOf (s : State) (r : HankRt) (codes : List (Nat × Nat)) : List Nat :=
  if !r.desc.masked then []
  else
    match s.maskHank r with
    | none => []
    | some m => s.maskErrors m codes

/-- A beat's elements in error: their tiles are listed, and the finding is counted and logged under the first one (R55). -/
def findErrors (r : HankRt) (es : List Nat) (s : State) : State :=
  match es with
  | e :: _ => (s.listTiles r es).countNote 0x5010 0x03 (hankDetail r.hank e)
  | [] => s

/-- Check the codes of a beat against the mask: true where the beat is a data error or lies in a listed tile (R55). -/
def checkMask (r : HankRt) (codes : List (Nat × Nat)) (s : State) : State × Bool :=
  (s.findErrors r (s.errorsOf r codes), s.maskStops r codes)

/-- The side band of a beat of elements, padding positions as zero bits. -/
def sideOf (s : State) (r : HankRt) (es : List (Option Nat)) : Nat :=
  match s.maskHank r with
  | none => 0
  | some m => sideBand (elemWidth r.desc) (es.map (fun e => match e with
      | some x => (s.maskBit m x).getD false
      | none => false))

end State

end Machine

end Sys2Proof
end

