-- ==== Sys2Proof/Machine/Hall.lean ====
section
/-! DEFINITION. The porch (chapters 2, 3, 9, 10, 12): plain, transposed and masked reads, the whorl window, writes and atomics by class,
requests that are held, reads through an alias hank. -/

namespace Sys2Proof.Machine

namespace State

/-! ## Responses (R341 to R343) -/

/-- Send the items of a response in beat order. -/
def respond (q : HallReq) (beats : List Beat) (s : State) : State :=
  forEach beats.zipIdx (fun x st =>
    let ok := x.1.status == .ok
    st.emit (.hall q.ch.toNat q.way.toNat q.tag.toNat (x.2 + 1 == beats.length) x.1.status
      (if ok then fit 128 x.1.data else zeros 128) (if ok then x.1.side else 0))) s

/-- One status for every item of a request. -/
def respondAll (q : HallReq) (st : HallStatus) (s : State) : State := s.respond q (List.replicate q.items (Beat.stop st))

/-- The requests that are open on a way with a tag, but for one that waits to be refused. -/
def tagOpen (s : State) (q : HallReq) : Bool :=
  let same (p : HallReq) : Bool := p.ch == q.ch && p.way == q.way && p.tag == q.tag
  s.tier.held.any (fun h => !h.refuse && same h.q) || s.code.hallReads.any (fun h => same h.q)

/-- Open requests of a way (R343). -/
def openOn (s : State) (q : HallReq) : Nat :=
  (s.tier.held.filter (fun h => h.q.ch == q.ch && h.q.way == q.way)).length +
    (s.code.hallReads.filter (fun h => h.q.ch == q.ch && h.q.way == q.way)).length

/-- Hold a request. -/
def holdHall (q : HallReq) (beats : List WBeat) (refuse : Bool) (step : Nat) (s : State) : State :=
  let h : HeldHall :=
    { q := q, beats := beats, refuse := refuse, step := step, tables := s.whorl.tables, seed := s.seedOf q.hank.toNat 1 }
  { s with tier := { s.tier with held := s.tier.held ++ [h] } }

/-- Refuse a request by row 2 of Table 2.9. -/
def refuseHall (q : HallReq) (op : HallOp) (s : State) : State :=
  let s := if s.windowFault q op then s.bump 0x5080 0x02 1 else s
  (s.bump 0x5010 0x01 1).respondAll q .refused

/-- A beat outside the hank (R57). -/
def outside (s : State) : State × Beat := (s.bump 0x5010 0x02 1, Beat.stop .poison)

/-! ## Bytes of a region -/

/-- Bytes of a region within one stripe. -/
def regionBytes (s : State) (r : HankRt) (region o len : Nat) : Bytes :=
  if r.desc.cls = 1 && region < 5 then
    let t := o / Config.stripe
    let k := s.planeKey r region t (groupOfStripe r.desc region t)
    if k.2 then s.pantryRead (k.1 + o % Config.stripe) len else s.hearthRead (k.1 + o % Config.stripe) len
  else s.spanRead (r.desc.base region) o len

/-- The hearth blocks of bytes of a region within one stripe. -/
def regionBlocks (s : State) (r : HankRt) (region o len : Nat) : List Nat :=
  if r.desc.cls = 1 && region < 5 then
    let t := o / Config.stripe
    let k := s.planeKey r region t (groupOfStripe r.desc region t)
    if k.2 then []
    else (List.range ((k.1 + o % Config.stripe + len - 1) / 128 + 1 - (k.1 + o % Config.stripe) / 128)).map (fun i =>
      (k.1 + o % Config.stripe) / 128 + i)
  else s.spanBlocks (r.desc.base region) o len

/-- The pantry lines of bytes of a region within one stripe. -/
def regionLines (s : State) (r : HankRt) (region o len : Nat) : List Nat :=
  if r.desc.cls = 1 && region < 5 then
    let t := o / Config.stripe
    let k := s.planeKey r region t (groupOfStripe r.desc region t)
    let a := k.1 + o % Config.stripe
    if k.2 then (List.range ((a + len - 1) / 64 + 1 - a / 64)).map (fun i => a / 64 + i) else []
  else []

/-- Bytes of a region are known uncorrectable or poisoned. -/
def regionBad (s : State) (r : HankRt) (region o len : Nat) : Bool :=
  if r.desc.cls = 1 && region < 5 then
    let t := o / Config.stripe
    let k := s.planeKey r region t (groupOfStripe r.desc region t)
    if k.2 then (s.regionLines r region o len).any (fun l => s.scrub.badLines.contains l)
    else (s.regionBlocks r region o len).any (fun b => s.scrub.badBlocks.contains b)
  else s.spanBad (r.desc.base region) o len

/-- A stripe of a plane of a LIVE STATE hank is under repair or known bad: its number p in the group when so (R61). -/
def stripeHurt (s : State) (r : HankRt) (region t : Nat) : Option (Nat × Nat) :=
  let g := groupOfStripe r.desc region t
  match (groupStripesOf r.desc g).find? (fun x => x.1.1 == region && planeStripe g x.1 == t) with
  | none => none
  | some (_, p) =>
    if s.keyBad (s.planeKey r region t g) ||
        s.scrub.repairs.any (fun x => x.position == s.myPos && x.hank == r.hank && x.group == g && x.p == p) then some (g, p)
    else none

/-- A beat whose STATE stripe is under repair: RETRY, and the scrubber is asked for the repair. -/
def retryStripe (r : HankRt) (gp : Nat × Nat) (s : State) : State × Beat :=
  ((s.bump 0x5010 0x07 1).addRepair s.myPos r.hank gp.1 gp.2, Beat.stop .retry)

/-- The stripes of a region that bytes touch. -/
def stripesAt (offs : List Nat) : List Nat := nub (offs.map (fun o => o / Config.stripe))

/-- Rows 4 and 5 of Table 2.9 for element bytes of region 0x00 at offsets of `w` bytes: the answer when one of them applies. A stripe of a
hank that is not coded yet has no row to be repaired from: its beats are answered RETRY all the same (Table 2.10). -/
def hurtBeat (r : HankRt) (offs : List Nat) (w : Nat) (s : State) : Option (State × Beat) :=
  if r.desc.cls = 1 then
    if r.state = 2 then
      match (stripesAt offs).findSome? (fun t => s.stripeHurt r 0 t) with
      | some gp => some (s.retryStripe r gp)
      | none => none
    else if offs.any (fun o => s.regionBad r 0 o w) then some (s.bump 0x5010 0x07 1, Beat.stop .retry)
    else none
  else if (stripesAt offs).any (fun t => r.ungenerated.contains (0, t)) then some (s, Beat.stop .retry)
  else if offs.any (fun o => s.regionBad r 0 o w) then some (s.bump 0x5010 0x08 1, Beat.stop .poison)
  else none

/-! ## Plain and masked plain reads of STATE and VIEW hanks (R47) -/

/-- The mask-map offsets that a beat of region 0x00 needs. -/
def maskOffsets (r : HankRt) (es : List Nat) : List Nat := if r.desc.masked then nub (es.map (fun e => e / 8)) else []

/-- Charge one plain beat to the reel, unless it lies in the pantry. -/
def chargeBeat (r : HankRt) (region o : Nat) (s : State) : State :=
  if (s.regionBlocks r region o 128).isEmpty then s else s.chargeReel (o / Config.stripe % s.C) 128

/-- A beat of region 0x00 of a STATE or VIEW hank. -/
def plainBeat (r : HankRt) (masked : Bool) (o : Nat) (s : State) : State × Beat :=
  if regionSpan r.desc 0 ≤ o then s.outside
  else
    match s.hurtBeat r [o] 128 with
    | some x => x
    | none =>
      let s := s.chargeBeat r 0 o
      let bs := (s.regionBytes r 0 o 128).take (regionEnd r.desc 0 - o)
      let codes := beatCodes r.desc o bs
      let (s, bad) := s.checkMask r codes
      if bad then (s, Beat.stop .poison)
      else
        let w := elemWidth r.desc
        let es := (List.range (128 / w)).map (fun i => if o / w + i < r.desc.count then some (o / w + i) else none)
        (s, Beat.ok bs (if masked then s.sideOf r es else 0))

/-- A beat of the mask map of a STATE hank. -/
def maskBeat (r : HankRt) (o : Nat) (s : State) : State × Beat :=
  if regionSpan r.desc 0x10 ≤ o then s.outside
  else
    match s.maskRead r o 128 with
    | none => (s, Beat.stop .poison)
    | some bs =>
      let s := s.chargeReel (o / Config.stripe % s.C) 128
      (s, Beat.ok (bs.take (regionEnd r.desc 0x10 - o)) 0)

/-- A beat of the scales of an MXFP4 view. -/
def scaleBeat (r : HankRt) (o : Nat) (s : State) : State × Beat :=
  if regionSpan r.desc 1 ≤ o then s.outside
  else if r.ungenerated.contains (1, o / Config.stripe) then (s, Beat.stop .retry)
  else if s.regionBad r 1 o 128 then (s.bump 0x5010 0x08 1, Beat.stop .poison)
  else
    let s := s.chargeReel (o / Config.stripe % s.C) 128
    (s, Beat.ok ((s.regionBytes r 1 o 128).take (regionEnd r.desc 1 - o)) 0)

/-! ## Transposed reads (R48 to R50) -/

/-- The row segments of a tile: (first byte, bytes). -/
def tileRows (d : Desc) (tile : Nat) : List (Nat × Nat) :=
  let t := tileEdge d
  let w := elemWidth d
  let r0 := tile / tileCols d * t
  let c0 := tile % tileCols d * t
  let n := min t (d.cols - c0)
  (List.range (min t (d.rows - r0))).map (fun i => (((r0 + i) * d.cols + c0) * w, n * w))

/-- The 128-byte blocks of a row segment, as offsets. -/
def segBeats (x : Nat × Nat) : List Nat := (List.range ((x.1 + x.2 - 1) / 128 + 1 - x.1 / 128)).map (fun i => (x.1 / 128 + i) * 128)

/-- The elements of a tile. -/
def elemsOfTile (d : Desc) (tile : Nat) : List Nat :=
  let w := elemWidth d
  (tileRows d tile).flatMap (fun x => (List.range (x.2 / w)).map (fun i => x.1 / w + i))

/-- The code of an element of region 0x00. -/
def elemCode (s : State) (r : HankRt) (e : Nat) : Nat := leNat (s.regionBytes r 0 (e * elemWidth r.desc) (elemWidth r.desc))

/-- The elements of a tile that the reel can read, with their codes. -/
def tileCodes (s : State) (r : HankRt) (tile : Nat) : List (Nat × Nat) :=
  ((elemsOfTile r.desc tile).filter (fun e => (s.hurtBeat r [e * elemWidth r.desc] (elemWidth r.desc)).isNone)).map
    (fun e => (e, s.elemCode r e))

/-- The reel gathers a tile: its row segments are charged, and every beat of the whole tile is checked against the mask before one is
sent (R50, R55). -/
def gatherTile (r : HankRt) (tile : Nat) (s : State) : State :=
  let s := forEach ((tileRows r.desc tile).flatMap segBeats) (fun o st => st.chargeBeat r 0 o) s
  let errs := s.errorsOf r (s.tileCodes r tile)
  let t := tileEdge r.desc
  forEach (List.range t) (fun j st => st.findErrors r (errs.filter (fun e => e % r.desc.cols % t == j))) s

/-- Beat `q` of the transposed window; the errors of its tile were found when the tile was gathered, and every beat of a listed tile is
poisoned, also one that lies in the padding (R55). -/
def transBeat (r : HankRt) (masked : Bool) (q : Nat) (s : State) : State × Beat :=
  if tileBeats r.desc ≤ q then s.outside
  else
    let w := elemWidth r.desc
    let es := tileElems r.desc q
    let real := es.filterMap id
    match s.hurtBeat r (real.map (fun e => e * w)) w with
    | some x => x
    | none =>
      if (r.desc.masked && s.scrub.tiles.contains (r.hank, q / tileEdge r.desc)) ||
          s.maskStops r (real.map (fun e => (e, s.elemCode r e))) then (s, Beat.stop .poison)
      else
        let data := es.flatMap (fun e => match e with
          | some x => s.regionBytes r 0 (x * w) w
          | none => zeros w)
        (s, Beat.ok data (if masked then s.sideOf r es else 0))

/-! ## Region 0x00 of the other classes -/

/-- Note a porch access to a cellar page: RETRY and a demand promotion (R285). -/
def cellarBeat (h c p : Nat) (s : State) : State × Beat :=
  let x := s.pageAt h c p
  let s := if x.queued || x.inTransit then s else (s.bump 0x5090 0x05 1).queueDemand h c p
  (s, Beat.stop .retry)

/-- A beat of a page of a paged hank (R275, R280, R283, R285). -/
def pageBeat (r : HankRt) (o : Nat) (s : State) : State × Beat :=
  let (c, p, po) := s.pageOf o
  let x := s.pageAt r.hank c p
  if x.lost || s.mapBad r.hank c p then (s, Beat.stop .poison)
  else if x.tier = 2 then s.cellarBeat r.hank c p
  else if x.tier < 2 && s.pageBad x po then
    (if r.desc.cls = 7 then s.bump 0x5010 0x08 1 else s, Beat.stop .poison)
  else
    let s := if x.tier = 0 then s.chargeReel c 128 else s
    (s.heatPage r.hank c p, Beat.ok ((s.pageRead x po 128).take (r.desc.count - o)) 0)

/-- A beat of region 0x00 of a KV, SHARED, OFFLOAD or SCRATCH hank. -/
def dataBeat (r : HankRt) (o : Nat) (s : State) : State × Beat :=
  if regionSpan r.desc 0 ≤ o then s.outside
  else if s.paged r.desc then s.pageBeat r o
  else if s.regionBad r 0 o 128 then (if r.desc.cls = 7 then s.bump 0x5010 0x08 1 else s, Beat.stop .poison)
  else
    let s := s.chargeReel (o / Config.stripe % s.C) 128
    (s, Beat.ok ((s.regionBytes r 0 o 128).take (r.desc.count - o)) 0)

/-- A beat of a LANDING hank that Table 3.5 grants: a header, or the payload of an outbox entry (R64, R65). -/
def landBeat (r : HankRt) (o : Nat) (s : State) : State × Beat :=
  if regionSpan r.desc 0 ≤ o then s.outside
  else if o < 16384 then (s, Beat.ok (s.header r.hank (o / 128)) 0)
  else if s.regionBad r 0 o 128 then (s, Beat.stop .poison)
  else
    let s := s.chargeReel (o / Config.stripe % s.C) 128
    (s, Beat.ok ((s.regionBytes r 0 o 128).take (r.desc.count - o)) 0)

/-! ## A read as a whole -/

/-- The tiles that a transposed request touches. -/
def tilesOf (d : Desc) (q : HallReq) : List Nat :=
  nub (((List.range q.len.toNat).map (fun i => q.off / 128 + i)).filter (fun b => decide (b < tileBeats d)) |>.map (fun b => b / tileEdge d))

/-- A transposed selector. -/
def transposed (q : HallReq) : Bool := q.view == 1 || q.view == 3

/-- A masked selector. -/
def maskedSel (q : HallReq) : Bool := q.view == 2 || q.view == 3

/-- The beats of a read of a paged hank whose page-map entry can be read: page and offset in it. -/
def pageSpots (s : State) (r : HankRt) (q : HallReq) : List (PageRt × Nat) :=
  ((beatOffs q (regionSpan r.desc 0)).map s.pageOf).filterMap (fun x =>
    if s.mapBad r.hank x.1 x.2.1 then none else some (s.pageAt r.hank x.1 x.2.1, x.2.2))

/-- The page-map entries of the beats of a request for a paged hank are read (R275). -/
def askMaps (r : HankRt) (q : HallReq) (s : State) : State :=
  if s.paged r.desc && q.region = 0 then
    forEach (nub ((beatOffs q (regionSpan r.desc 0)).map (fun o => ((s.pageOf o).1, (s.pageOf o).2.1)))) (fun x st =>
      st.askMap r.hank x.1 x.2) s
  else s

/-- The hearth blocks that a read fetches. -/
def readBlocks (s : State) (r : HankRt) (q : HallReq) : List Nat :=
  if r.desc.cls = 3 && s.landRole r.hank != .outbox then []
  else if transposed q then
    (tilesOf r.desc q).flatMap (fun t => (tileRows r.desc t).flatMap (fun x => (segBeats x).flatMap (fun o => s.regionBlocks r 0 o 128)))
  else if q.region = 0x10 then []
  else if s.paged r.desc then
    (s.pageSpots r q).flatMap (fun x =>
      if x.1.tier = 0 then [(s.homeBase 0 x.1.channel x.1.area x.1.index + x.2) / 128] else [])
  else
    let from_ := if r.desc.cls = 3 then 16384 else 0
    ((beatOffs q (regionSpan r.desc q.region)).filter (fun o => decide (from_ ≤ o))).flatMap (fun o => s.regionBlocks r q.region o 128)

/-- The pantry lines that a read fetches (R272). -/
def readLines (s : State) (r : HankRt) (q : HallReq) : List Nat :=
  if r.desc.cls = 1 && q.region < 5 then
    if transposed q then
      (tilesOf r.desc q).flatMap (fun t => (tileRows r.desc t).flatMap (fun x => (segBeats x).flatMap (fun o => s.regionLines r 0 o 128)))
    else (beatOffs q (regionSpan r.desc q.region)).flatMap (fun o => s.regionLines r q.region o 128)
  else if s.paged r.desc && q.region = 0 then
    (s.pageSpots r q).flatMap (fun x =>
      let b := s.homeBase 1 x.1.channel x.1.area x.1.index + x.2
      if x.1.tier = 1 then [b / 64, b / 64 + 1] else [])
  else []

/-- The mask-map offsets that a read needs. -/
def readMaskOffs (r : HankRt) (q : HallReq) : List Nat :=
  if q.region = 0x10 then beatOffs q (regionSpan r.desc 0x10)
  else if q.region != 0 || !(r.desc.cls == 1 || r.desc.cls == 2) then []
  else if transposed q then maskOffsets r ((tilesOf r.desc q).flatMap (elemsOfTile r.desc))
  else
    let per : Nat := if r.desc.cls = 1 then 64 else if r.desc.viewFormat ≤ 2 then 128 else 256
    let zero : Bytes := zeros 128
    let codes : List (Nat × Nat) := (beatOffs q (regionSpan r.desc 0)).flatMap (fun o => beatCodes r.desc o zero)
    if per = 0 then [] else maskOffsets r (codes.map (fun x => x.1))

/-- The beats of a read, one after another. -/
def runBeats (f : Nat → State → State × Beat) (n : Nat) (s : State) : State × List Beat :=
  (List.range n).foldl (fun (acc : State × List Beat) i =>
    let (st, b) := f i acc.1
    (st, acc.2 ++ [b])) (s, [])

/-- The beat function of a read. -/
def readBeat (r : HankRt) (q : HallReq) (i : Nat) (s : State) : State × Beat :=
  let o := q.off + 128 * i
  match r.desc.cls with
  | 3 => s.landBeat r o
  | 1 =>
    if q.region = 0x10 then s.maskBeat r o
    else if transposed q then s.transBeat r (maskedSel q) (q.off / 128 + i)
    else s.plainBeat r (maskedSel q) o
  | 2 =>
    if q.region = 1 then s.scaleBeat r o
    else if transposed q then s.transBeat r (maskedSel q) (q.off / 128 + i)
    else s.plainBeat r (maskedSel q) o
  | _ => s.dataBeat r o

/-- The pages of the stripes that the beats of a read draw on. -/
def readPages (s : State) (r : HankRt) (q : HallReq) : List PageKey :=
  let ts : List Nat :=
    if transposed q then stripesAt (((List.range q.len.toNat).flatMap (fun i => (tileElems r.desc (q.off / 128 + i)).filterMap id)).map
      (fun e => e * elemWidth r.desc))
    else stripesAt (beatOffs q (regionSpan r.desc q.region))
  nub (ts.map (fun t =>
    let p := stripePage s.C t
    { hank := r.hank, region := 0, channel := p.1, page := p.2 }))

/-- A READ asks for cached copies of data that may be cached (R295). -/
def mayCache (r : HankRt) (q : HallReq) : Bool :=
  q.caches && q.region == 0 && (r.desc.cls == 1 || r.desc.cls == 2 || 4 ≤ r.desc.cls)

/-- Grant a die copies of pages; false while the directory has no entry for one of them (R296). -/
def grantAll (ks : List PageKey) (die : Nat) (s : State) : State × Bool :=
  ks.foldl (fun (acc : State × Bool) k =>
    if acc.2 then acc.1.grantCopy k die else acc) (s, true)

/-- The codes that a READ of region 0x00 checks against the mask: those of whole tiles, or of its beats that can be read. -/
def readCodes (s : State) (r : HankRt) (q : HallReq) : List (Nat × Nat) :=
  if !r.desc.masked || q.region != 0 then []
  else if transposed q then (tilesOf r.desc q).flatMap (s.tileCodes r)
  else
    ((beatOffs q (regionSpan r.desc 0)).filter (fun o => (s.hurtBeat r [o] 128).isNone)).flatMap (fun o =>
      beatCodes r.desc o ((s.regionBytes r 0 o 128).take (regionEnd r.desc 0 - o)))

/-- Serve a READ whose access is granted; it is held while the presence directory is full. -/
def serveRead (r : HankRt) (q : HallReq) (s : State) : State :=
  let errs := s.errorsOf r (s.readCodes r q)
  let s := if transposed q then forEach (tilesOf r.desc q) (fun t st => st.gatherTile r t) s else s
  let (s, beats) : State × List Beat := runBeats (fun i st => st.readBeat r q i) q.len.toNat s
  (s.countUnlisted r errs).respond q beats

/-- Serve a READ or hold it. -/
def readOrHold (r : HankRt) (q : HallReq) (s : State) : State :=
  if mayCache r q then
    let (s, ok) := s.grantAll (s.readPages r q) q.die.toNat
    if ok then s.serveRead r q else s.holdHall q [] false s.fr.step
  else s.serveRead r q

/-- Count a read of a STATE or VIEW hank between roll-call and threshold (R59); a read of its whorl window reads no such data and is not
counted (DESIGN CHOICE, log 167), nor is a read that is refused or fenced: it reads nothing (DESIGN CHOICE, log 179). -/
def countLate (d : Desc) (s : State) : State :=
  if (d.cls == 1 || d.cls == 2) && s.fr.opened && s.fr.rcSeen then s.bump 0x5010 0x06 1 else s

/-! ## Reads through an alias hank (R161, R60, R141) -/

/-- What a beat of an alias read needs: a decode still to come, or its answer. -/
inductive AliasBeat where
  | wait (g : Nat)
  | beat (b : Beat)
  /-- Data of the group, with the elements that are in error under the mask, and whether they have been decoded for this read. -/
  | data (b : Beat) (errs : List Nat) (decoded : Bool)
  | retry (g : Nat)
  | out

/-- The check and side band of an alias beat under the lost member's mask, with its elements in error; without a verified copy of the mask
the beat is answered as with both copies unreadable (log 37). Tiles are listed under the alias hank's number, by its own rows and columns
(DEDUCED, log 190). -/
def aliasData (s : State) (l : Layout) (a : AliasEnt) (masked : Bool) (o : Nat) (bs : Bytes) : Beat × List Nat :=
  let d := s.lostDesc l a.position a.hank
  let g := o / Config.stripe
  let lo := o % Config.stripe / 2
  let data := (sub (o % Config.stripe) 128 bs).take (2 * d.count - o)
  match s.lostMask d a.position a.hank g with
  | none => (Beat.stop .poison, [])
  | some none => (Beat.ok data 0, [])
  | some (some ms) =>
    let bits := (ms.drop lo).take 64
    let codes := (pieces 2 data).zip bits
    let errs := (codes.zipIdx.filter (fun x => !x.1.2 && !allZero x.1.1)).map (fun x => o / 2 + x.2)
    let listed := match s.hank? a.aliasHank with
      | some r => (tilesIn r.desc ((List.range codes.length).map (fun i => o / 2 + i))).any (fun t => s.scrub.tiles.contains (r.hank, t))
      | none => false
    if !errs.isEmpty || listed then (Beat.stop .poison, errs)
    else (Beat.ok data (if masked then sideBand 2 (bits ++ List.replicate (64 - bits.length) false) else 0), [])

/-- A beat of data of an alias read. -/
def aliasItem (x : Beat × List Nat) (decoded : Bool) : AliasBeat := .data x.1 x.2 decoded

/-- A beat of an alias read at an offset, with the stripes decoded so far. -/
def aliasBeat (s : State) (l : Layout) (a : AliasEnt) (masked : Bool) (got : List (Nat × Bytes)) (o : Nat) : AliasBeat :=
  let d := s.lostDesc l a.position a.hank
  let g := o / Config.stripe
  if ceilDiv (2 * d.count) Config.stripe * Config.stripe ≤ o then .out
  else
    match s.adoption a.position a.hank g with
    | none => .beat (Beat.stop .poison)
    | some x =>
      if x.heir != l.position then .beat (Beat.stop .poison)
      else
        match got.find? (fun y => y.1 == g) with
        | some y => aliasItem (s.aliasData l a masked o y.2) true
        | none =>
          match x.atStep with
          | none => .wait g
          | some _ =>
            if (s.reserveBad l a.position a.hank g).contains 0 || s.underRepair a.position a.hank g then .retry g
            else aliasItem (s.aliasData l a masked o ((s.readReserve l a.position a.hank g).headD [])) false

/-- Answer one beat of an alias read. -/
def aliasAnswer (a : AliasEnt) (b : AliasBeat) (s : State) : State × Beat :=
  match b with
  | .out => s.outside
  | .retry g => ((s.bump 0x5010 0x07 1).addRepair a.position a.hank g 0, Beat.stop .retry)
  | .data x errs decoded =>
    let s := s.bump 0x5040 0x0B decoded.toNat
    (match s.hank? a.aliasHank with
      | some r => s.findErrors r errs
      | none => s, x)
  | .beat x => (s, x)
  | .wait _ => (s, Beat.stop .retry)

/-- The groups that an alias read still waits for. -/
def aliasWaits (s : State) (l : Layout) (a : AliasEnt) (h : HallRead) : List Nat :=
  nub ((List.range h.q.len.toNat).filterMap (fun i =>
    match s.aliasBeat l a h.masked h.got (h.q.off + 128 * i) with
    | .wait g => some g
    | _ => none))

/-- Take an alias read out of the open ones. -/
def dropHallRead (h : HallRead) (s : State) : State := { s with code := { s.code with hallReads := s.code.hallReads.erase h } }

/-- The elements in error that the beats of an alias read meet. -/
def aliasErrs (s : State) (l : Layout) (a : AliasEnt) (h : HallRead) : List Nat :=
  (List.range h.q.len.toNat).flatMap (fun i =>
    match s.aliasBeat l a h.masked h.got (h.q.off + 128 * i) with
    | .data _ errs _ => errs
    | _ => [])

/-- Answer an alias read once no decode is awaited. -/
def finishAlias (l : Layout) (a : AliasEnt) (h : HallRead) (s : State) : State :=
  let errs := s.aliasErrs l a h
  let (s, beats) : State × List Beat := runBeats (fun i st =>
    st.aliasAnswer a (st.aliasBeat l a h.masked h.got (h.q.off + 128 * i))) h.q.len.toNat (s.dropHallRead h)
  let s := match s.hank? a.aliasHank with
    | some r => s.countUnlisted r errs
    | none => s
  s.respond h.q beats

/-- Go on with an alias read: it ends when its hank is no alias any more or the member is fenced. -/
def goAlias (h : HallRead) (s : State) : State :=
  if s.fenced then (s.dropHallRead h).respondAll h.q .fenced
  else
    match s.code.layout, s.aliasNamed h.q.hank.toNat with
    | some l, some a => if (s.aliasWaits l a h).isEmpty then s.finishAlias l a h else s
    | _, _ => ((s.dropHallRead h).bump 0x5010 0x01 1).respondAll h.q .refused

/-- Hand a decoded stripe to the alias read that it was decoded for: a later read decodes again (R141). -/
def gotHall (d : DecodeRt) (b : Bytes) (s : State) : State :=
  let mine (h : HallRead) : Bool := h.id == d.id && (match s.aliasNamed h.q.hank.toNat with
    | some a => a.position == d.position && a.hank == d.hank && h.todo.contains d.group
    | none => false)
  let reads := s.code.hallReads.map (fun (h : HallRead) =>
    if mine h then { h with todo := h.todo.erase d.group, got := h.got ++ [(d.group, b)] } else h)
  forEach reads (fun h st => st.goAlias h) { s with code := { s.code with hallReads := reads } }

/-- The outcome of a decode for a host read: its bytes are handed on, and a row of a re-code that has not got the slot yet is left for the
row of the old layout (R223). -/
def hallDecoded (res : DecRes) (s : State) : State :=
  match res with
  | .done d b => s.gotHall d b
  | .failed d =>
    (match s.oldDecode d with
    | some o =>
      let (s, res) := s.startDecode o
      (match res with
      | .done d b => s.gotHall d b
      | _ => s)
    | none => s)
  | .more => s

/-- Start the decode of a stripe for a host read. -/
def decodeForHall (id pos h g : Nat) (s : State) : State :=
  let (s, res) := s.startDecode (newDecode 1 id pos h g 0 2)
  s.hallDecoded res

/-- Start again the decodes that alias reads wait for and that do not run (log 38). -/
def restartAlias (s : State) : State :=
  forEach s.code.hallReads (fun h st =>
    match st.aliasNamed h.q.hank.toNat with
    | some a => forEach h.todo (fun g st2 => st2.decodeForHall h.id a.position a.hank g) st
    | none => st) s

/-- The hearth blocks of the reserve stripes that an alias read fetches. -/
def aliasBlocks (s : State) (l : Layout) (a : AliasEnt) (q : HallReq) : List Nat :=
  (List.range q.len.toNat).flatMap (fun i =>
    let o := q.off + 128 * i
    let g := o / Config.stripe
    match s.adoption a.position a.hank g with
    | some x =>
      if x.heir == l.position && x.atStep.isSome then
        [(stripeKey s.C s.reserveBase (s.reserveIndex l a.position a.hank g) + o % Config.stripe) / 128]
      else []
    | none => [])

/-- A number that no open alias read and no decode has. -/
def freshRead (s : State) : Nat := lowestFree (s.code.hallReads.map (fun h => h.id) ++ s.scrub.decodes.map (fun d => d.id))

/-- Serve a read of an alias hank; the reel's bytes per channel are not charged with the stripes that the heir keeps in its reserve (DESIGN
CHOICE, log 168). -/
def readAlias (a : AliasEnt) (q : HallReq) (mem : MemAns) (s : State) : State :=
  match s.code.layout with
  | none => s.respondAll q .refused
  | some l =>
    let s := s.takeMem mem (nub (s.aliasBlocks l a q))
    let h : HallRead := { id := s.freshRead, q := q, masked := maskedSel q, todo := [], got := [] }
    let waits := s.aliasWaits l a h
    let h := { h with todo := waits }
    let s := { s with code := { s.code with hallReads := s.code.hallReads ++ [h] } }
    let s := forEach waits (fun g st => st.decodeForHall h.id a.position a.hank g) s
    if waits.isEmpty then s.goAlias h else s

/-! ## The whorl window (R261 to R269) -/

/-- whorl_bytes of the plan in effect. -/
def whorlLimit (s : State) : Option Nat := s.planEff.map (fun p => p.frame.whorlBytes)

/-- Count window bytes of a channel; the frame in which a channel first exceeds whorl_bytes is counted (R269). -/
def chargeWindow (ch n : Nat) (s : State) : State :=
  let old := s.whorl.windowBytes
  let new := addAt old ch n
  let s := { s with whorl := { s.whorl with windowBytes := new } }
  match s.whorlLimit with
  | some lim => if maxL old ≤ lim && lim < maxL new then s.bump 0x5080 0x04 1 else s
  | none => s

/-- The channel that generates the beat at byte `o` of a stream (R268). -/
def windowChannel (s : State) (stream o : Nat) : Nat := (stream * 512 + o / Config.stripe) % s.C

/-- The 128 bytes at byte `o` of a stream (R263, R264) under a table set and a seed. -/
def windowBytes (tables : TableSet) (seed shape stream step o : Nat) : Bytes :=
  (List.range 16).flatMap (fun i => shapeBytes shape (Sys2Proof.Machine.whorl tables seed step stream (o / 8 + i)))

/-- A window beat. -/
def windowBeat (tables : TableSet) (seed shape stream step o : Nat) (s : State) : State × Beat :=
  if 2 ^ 21 ≤ o then s.outside
  else if !s.fr.opened then (s.bump 0x5080 0x05 1, Beat.stop .retry)
  else
    let bs := windowBytes tables seed shape stream step o
    let s := (s.bump 0x5080 0x01 1).bump 0x5080 0x08 16
    (s.chargeWindow (s.windowChannel stream o) 128, Beat.ok bs 0)

/-- The table banks of the channels of a window request are whole. -/
def banksWhole (s : State) (q : HallReq) : Bool :=
  s.whorl.badBanks.isEmpty || (List.range q.len.toNat).all (fun i =>
    !s.whorl.badBanks.contains (s.windowChannel (q.off / 2 ^ 21 % 65536) (q.off % 2 ^ 21 + 128 * i)))

/-- Serve a window read with the step, the table set and the seed at which it was accepted (R256, R263). -/
def serveWindow (q : HallReq) (step : Nat) (tables : TableSet) (seed : Nat) (s : State) : State :=
  let (s, beats) : State × List Beat := runBeats (fun i st =>
    st.windowBeat tables seed (q.off / 2 ^ 37) (q.off / 2 ^ 21 % 65536) step (q.off % 2 ^ 21 + 128 * i)) q.len.toNat s
  s.respond q beats

/-- A window read: its beats wait for a table bank that is copied again (Table 15.3). -/
def readWindow (q : HallReq) (s : State) : State :=
  if s.banksWhole q then s.serveWindow q s.fr.step s.whorl.tables (s.seedOf q.hank.toNat 1) else s.holdHall q [] false s.fr.step

/-! ## READ -/

/-- What a READ fetches: the page-map entries of its pages, its blocks and lines, and the mask bits that its beats need. -/
def askRead (r : HankRt) (q : HallReq) (mem : MemAns) (s : State) : State :=
  let s := s.askMaps r q
  let s := s.takeMem mem (nub (s.readBlocks r q))
  let s := s.takeLines mem (nub (s.readLines r q))
  match s.maskHank r with
  | some m => s.readMaskAt m.hank (readMaskOffs r q) mem
  | none => s

/-- A READ whose items are all taken. -/
def hallRead (q : HallReq) (mem : MemAns) (s : State) : State :=
  match s.wholeStatus q .read with
  | some .refused => s.refuseHall q .read
  | some st => s.respondAll q st
  | none =>
    match s.hank? q.hank.toNat with
    | none => s
    | some r =>
      if q.region = 0x20 then s.readWindow q
      else
        let s := s.countLate r.desc
        if hasRegion r.desc q.region && granted r.desc r.state q.region q.view.toNat .read then
          let s := s.askRead r q mem
          match s.hank? q.hank.toNat with
          | some r => s.readOrHold r q
          | none => s
        else
          match s.aliasNamed r.hank with
          | some a => s.readAlias a q mem
          | none => s

end State

end Sys2Proof.Machine
end

