-- ==== Sys2Proof/Machine/Porch.lean ====
section
/-! DEFINITION. Writes and atomics of the porch (R39, R44, R53, R65 to R68, R73, R85, R143, R283, R284, R291, R292, R296, R340), the
requests that were held, discards and mask repairs that the porch waits for. -/

namespace Sys2Proof.Machine

/-- The 128 data bytes of a write beat. -/
def beatBytes (b : WBeat) : Bytes := toLE 128 b.data.toNat

/-- Every byte of a beat is enabled. -/
def wholeBeat (b : WBeat) : Bool := b.be.toNat == 2 ^ 128 - 1

/-- The bytes that a beat of a write brings to offset `o`: bytes at or beyond `fin` are padding and zero, and in a mask map so are the bits
of the last byte beyond the last element (R39). -/
def beatData (fin o lastMask : Nat) (b : WBeat) : Bytes :=
  fit 128 (((beatBytes b).take (fin - o)).zipIdx.map (fun x =>
    if o + x.2 + 1 = fin then BitVec.ofNat 8 (x.1.toNat % 256 &&& lastMask) else x.1))

/-- What a beat of a write changes the bytes of a region to: the enabled ones alone. -/
def writtenBytes (fin o lastMask : Nat) (b : WBeat) (old : Bytes) : Bytes :=
  State.mergeBytes b.be.toNat old (beatData fin o lastMask b)

/-- What stands in the way of a beat of a write or an atomic. -/
inductive Way where
  /-- It can be carried out now. -/
  | go
  /-- It waits: the page is in transit, or room is being made for it. -/
  | wait
  deriving DecidableEq, Repr

namespace State

/-! ## Waiting (R283, R284) -/

/-- A new page of a hank has room now. -/
def roomNow (s : State) (r : HankRt) (c : Nat) : Bool :=
  (s.allows r.desc 0 && (s.room r.desc.household 0 c).isSome) || (s.homesLower r && (s.room r.desc.household 1 c).isSome)

/-- Take a page off the demand queue and clear its mark. -/
def unmark (h c p : Nat) (s : State) : State :=
  let x := s.pageAt h c p
  (s.putPage { x with queued := false }).unqueue (h, c, p)

/-- Prepare a page for a write: a page with no home is allocated, or waits while room is made; one in transit waits. -/
def pageWay (r : HankRt) (c p : Nat) (s : State) : State × Way :=
  let x := s.pageAt r.hank c p
  if x.lost || s.mapBad r.hank c p then (s, .go)
  else if x.inTransit then (s, .wait)
  else if x.tier != 3 then (s, .go)
  else if x.queued then
    if s.roomNow r c then (((s.unmark r.hank c p).allocate r c p).1, .go)
    else if s.canMakeRoom r c then (s, .wait)
    else (s.unmark r.hank c p, .go)
  else
    let (s1, ok) := s.allocate r c p
    if ok then (s1, .go)
    else if s1.canMakeRoom r c then (s1.queueDemand r.hank c p, .wait)
    else (s1, .go)

/-- Prepare every page of the beats of a write. -/
def pagesWay (r : HankRt) (offs : List Nat) (s : State) : State × Way :=
  if !s.paged r.desc then (s, .go)
  else
    (nub (offs.map (fun o => ((s.pageOf o).1, (s.pageOf o).2.1)))).foldl (fun (acc : State × Way) cp =>
      let (st, w) := acc.1.pageWay r cp.1 cp.2
      (st, if acc.2 == .wait then .wait else w)) (s, .go)

/-! ## Beats of writes -/

/-- Write a beat of a region of a hank that is not paged. -/
def writeRegion (r : HankRt) (region base o : Nat) (b : WBeat) (s : State) : State :=
  let fin := regionEnd r.desc region
  let last := if region = 0x10 && r.desc.count % 8 != 0 then 2 ^ (r.desc.count % 8) - 1 else 255
  if r.desc.cls = 1 && region < 5 then
    let t := o / Config.stripe
    let k := s.planeKey r region t (groupOfStripe r.desc region t)
    let a := k.1 + o % Config.stripe
    if k.2 then
      let s := s.pantryBeat a b.be.toNat (beatData fin o last b)
      if wholeBeat b then
        { s with scrub := { s.scrub with badLines := s.scrub.badLines.filter (fun l => l != a / 64 && l != a / 64 + 1) } }
      else s
    else
      let s := s.hearthBeat a b.be.toNat (beatData fin o last b)
      if wholeBeat b then s.clearBad [a / 128] else s
  else
    let s := s.hearthBeat (stripeKey s.C base (o / Config.stripe) + o % Config.stripe) b.be.toNat (beatData fin o last b)
    if wholeBeat b then s.clearBad (s.spanBlocks base o 128) else s

/-- Write a beat of the mask map to both copies (R53). -/
def writeMaskBeat (r : HankRt) (o : Nat) (b : WBeat) (s : State) : State :=
  let s := (s.writeRegion r 0x10 r.desc.maskA o b).writeRegion r 0x10 r.desc.maskB o b
  s.updHank r.hank (fun x => { x with maskBad := x.maskBad.filter (fun m => m.2 != o / Config.stripe) })

/-- A beat of a write to a page with a home (R283 to R285); one whose entry of the page map cannot be read is poisoned (R349). -/
def writePage (r : HankRt) (o : Nat) (b : WBeat) (s : State) : State × Beat :=
  let (c, p, po) := s.pageOf o
  let x := s.pageAt r.hank c p
  if s.mapBad r.hank c p then (s, Beat.stop .poison)
  else if x.tier = 2 then s.cellarBeat r.hank c p
  else
    let s := s.pageMerge x po b.be.toNat (beatData r.desc.count o 255 b)
    let s := if wholeBeat b then s.pageGood x po else s
    (s.heatPage r.hank c p, Beat.ok [] 0)

/-- Bytes of an OFFLOAD region as they stand. -/
def offloadByte (s : State) (r : HankRt) (o : Nat) : Nat :=
  if s.paged r.desc then
    let (c, p, po) := s.pageOf o
    fld 0 1 (s.pageRead (s.pageAt r.hank c p) po 1)
  else fld 0 1 (s.regionBytes r 0 o 1)

/-- A write to the control header of a LIVE OFFLOAD hank, or to a job header whose state is 2 (R143). -/
def jobLocked (s : State) (r : HankRt) (o : Nat) : Bool :=
  r.desc.cls == 6 && ((o == 0 && r.state == 2) ||
    (128 ≤ o && o < 128 + 128 * r.jobSlots && s.offloadByte r o == 2))

/-- Refuse a slot write after freeze or finality (R68, R73). -/
def slotRefused (s : State) (x : Site) (b i : Nat) : Bool :=
  s.fr.opened && b == s.bank && i < x.slots && (if isLeaf x i then s.fr.rcSeen else s.slotFinal x i)

/-- What refuses a beat of a write whose hank, region and selector are granted. -/
inductive WriteStop where
  /-- A slot after its freeze or finality (R68, R73). -/
  | frozen
  /-- The outbox from roll-call on (R85). -/
  | late
  /-- A part that Table 3.5 or R143 does not grant, or a page that is lost. -/
  | closed
  /-- A page that no home can be given (R284). -/
  | homeless
  deriving DecidableEq, Repr

/-- What refuses a beat of a write to a slot hank (Table 3.5). -/
def slotStop (s : State) (x : Site) (o : Nat) (w : WBeat) : Option WriteStop :=
  if o < 16384 then
    if !wholeBeat w then some .closed else if s.slotRefused x (o / 8192) (o / 128 % 64) then some .frozen else none
  else if x.gradOff ≤ o then some .closed
  else
    let k := (o - 16384) / x.pitchBytes
    if s.slotRefused x (k / x.slots) (k % x.slots) then some .frozen else none

/-- What refuses a beat of a write. -/
def beatStop (s : State) (r : HankRt) (region o : Nat) (w : WBeat) : Option WriteStop :=
  if regionSpan r.desc region ≤ o then none
  else
    match r.desc.cls with
    | 1 => none
    | 3 =>
      match s.landRole r.hank with
      | .none => some .closed
      | .slots x => s.slotStop x o w
      | .outbox => if s.fr.rcSeen then some .late else none
    | _ =>
      let x := s.pageAt r.hank (s.pageOf o).1 (s.pageOf o).2.1
      if s.jobLocked r o then some .closed
      else if !s.paged r.desc || s.mapBad r.hank x.channel x.page then none
      else if x.lost then some .closed
      else if x.tier = 3 then some .homeless
      else none

/-- Count a write to the bank of the next step, beat by beat (R67; log 169). -/
def countBank (b : Nat) (s : State) : State := if s.fr.opened && b != s.bank then s.bump 0x5020 0x0A 1 else s

/-- A beat of a slot's header window (R66 to R68). -/
def writeSlotHeader (r : HankRt) (x : Site) (o : Nat) (w : WBeat) (s : State) : State × Beat :=
  let b := o / 8192
  let i := o / 128 % 64
  let s := (s.countBank b).putHeader r.hank (o / 128) (beatBytes w)
  let s := if s.fr.opened && b == s.bank && i < x.slots && (s.slotHdr x i).step == s.fr.step && !s.slotPresent x i then
      s.bump 0x5020 0x09 1
    else s
  (s, Beat.ok [] 0)

/-- A beat of a slot hank (Table 3.5). -/
def writeSlot (r : HankRt) (x : Site) (o : Nat) (w : WBeat) (s : State) : State × Beat :=
  if o < 16384 then s.writeSlotHeader r x o w
  else (((s.countBank ((o - 16384) / x.pitchBytes / x.slots)).writeRegion r 0 (r.desc.base 0) o w), Beat.ok [] 0)

/-- The bytes of a header's words of 8 bytes that pass a test of the word's enables and of its lost bytes, as a mask. -/
def wordsOf (be lost : Nat) (test : Nat → Nat → Bool) : List Nat :=
  (List.range 16).filter (fun i => test (be / 256 ^ i % 256) (lost / 256 ^ i % 256))

/-- A beat writes the words of a header: those that it covers whole are good again; of one that it covers in part and that cannot be read,
the word code leaves the whole word poisoned, and the byte code the bytes that the beat does not cover (R427, R428). -/
def headerWords (hank i : Nat) (w : WBeat) (lost : Nat) (s : State) : State :=
  let be := w.be.toNat
  if s.straps.build.wordCode then
    let part (b _ : Nat) : Bool := b != 0 && b != 255
    let kept := sumL ((wordsOf be lost (fun b l => b != 255 && l != 0)).map (fun j => 255 * 256 ^ j))
    let s := forEach (nub ((wordsOf be lost part).map (fun j => j / 8))) (fun half st => st.mergeAt [0, hank, 2 * i + half]) s
    (s.bump 0x50C0 0x14 (wordsOf be lost (fun b l => part b l && l != 0)).length).setLostBytes hank i kept
  else s.setLostBytes hank i (lost &&& (2 ^ 128 - 1 - be))

/-- A beat of the outbox hank: from the threshold until roll-call (R85). -/
def writeOutbox (r : HankRt) (o : Nat) (w : WBeat) (s : State) : State × Beat :=
  if o < 16384 then
    let i := o / 128
    let lost := s.lostBytes r.hank i
    let s := s.putHeader r.hank i (State.mergeBytes w.be.toNat (s.header r.hank i) (beatBytes w))
    (s.headerWords r.hank i w lost, Beat.ok [] 0)
  else (s.writeRegion r 0 (r.desc.base 0) o w, Beat.ok [] 0)

/-- A beat of a write that nothing refuses. -/
def writeBeat (r : HankRt) (region o : Nat) (w : WBeat) (s : State) : State × Beat :=
  if regionSpan r.desc region ≤ o then s.outside
  else
    match r.desc.cls with
    | 3 =>
      match s.landRole r.hank with
      | .none => (s, Beat.stop .refused)
      | .slots x => s.writeSlot r x o w
      | .outbox => s.writeOutbox r o w
    | 1 =>
      if region = 0x10 then (s.writeMaskBeat r o w, Beat.ok [] 0)
      else (s.writeRegion r region (r.desc.base region) o w, Beat.ok [] 0)
    | _ =>
      if s.paged r.desc then s.writePage r o w
      else (s.writeRegion r 0 (r.desc.base 0) o w, Beat.ok [] 0)

/-- The pages that a write changes. -/
def pagesWritten (s : State) (r : HankRt) (q : HallReq) : List PageKey :=
  if r.desc.cls = 3 then []
  else
    nub ((stripesAt (beatOffs q (regionSpan r.desc q.region))).map (fun t =>
      let p := stripePage s.C t
      { hank := r.hank, region := q.region, channel := p.1, page := p.2 }))

/-- Beat `i` of a write. -/
def wbeat (ws : List WBeat) (i : Nat) : WBeat := ws.getD i { data := 0, be := 0 }

/-- What refuses the beats of a write. -/
def writeStops (s : State) (r : HankRt) (q : HallReq) (ws : List WBeat) : List WriteStop :=
  (List.range q.len.toNat).filterMap (fun i => s.beatStop r q.region (q.off + 128 * i) (wbeat ws i))

/-- Refuse a write as a whole (Table 2.9, row 2): it changes nothing. Frozen slots and a late outbox count beat by beat (log 169), a page
without a home once (R284). -/
def refuseWriteBeats (q : HallReq) (stops : List WriteStop) (s : State) : State :=
  let n (x : WriteStop) : Nat := (stops.filter (fun y => y == x)).length
  let s := (s.bump 0x5020 0x07 (n .frozen)).bump 0x5020 0x08 (n .late)
  ((s.bump 0x5090 0x07 (min 1 (n .homeless))).bump 0x5010 0x01 1).respondAll q .refused

/-- The attempts to give pages of a write a home are over. -/
def attemptsOver (r : HankRt) (q : HallReq) (s : State) : State :=
  if s.paged r.desc then
    forEach (beatOffs q (regionSpan r.desc q.region)) (fun o st => st.attemptOver r.hank (st.pageOf o).1 (st.pageOf o).2.1) s
  else s

/-- Carry out a write beat by beat and answer it, or refuse it. -/
def doWrite (r : HankRt) (q : HallReq) (ws : List WBeat) (s : State) : State :=
  let s := s.attemptsOver r q
  let stops := s.writeStops r q ws
  if !stops.isEmpty then s.refuseWriteBeats q stops
  else
    let s := if r.desc.cls = 1 then s.restoredWrite r.hank else s
    let (s, beats) : State × List Beat := runBeats (fun i st =>
      st.writeBeat r q.region (q.off + 128 * i) (wbeat ws i)) q.len.toNat s
    let s := s.respond q beats
    if r.desc.cls = 3 then s.landingPass else s

/-- A write goes ahead once no page of it waits and no other die holds a copy of what it changes (R296). -/
def tryWrite (r : HankRt) (q : HallReq) (ws : List WBeat) (s : State) : State × Bool :=
  let (s, w) := s.pagesWay r (beatOffs q (regionSpan r.desc q.region))
  if w == .wait then (s, false)
  else
    let ks := s.pagesWritten r q
    if s.coherent ks q.writer then (s.doWrite r q ws, true) else (s.invalidate ks q.writer, false)

/-- A WRITE whose items are all taken. -/
def hallWrite (q : HallReq) (ws : List WBeat) (s : State) : State :=
  match s.wholeStatus q .write with
  | some .refused => s.refuseHall q .write
  | some st => s.respondAll q st
  | none =>
    match s.hank? q.hank.toNat with
    | none => s
    | some r =>
      let (s, done) := (s.askMaps r q).tryWrite r q ws
      if done then s else s.holdHall q ws false s.fr.step

/-! ## Atomics (R291 to R293, R340) -/

/-- The target word that byte enables select: its first byte in the beat and its width. -/
def atomicTarget (be : Nat) : Option (Nat × Nat) :=
  let four := (List.range 32).find? (fun i => be == 15 * 2 ^ (4 * i))
  let eight := (List.range 16).find? (fun i => be == 255 * 2 ^ (8 * i))
  match four, eight with
  | some i, _ => some (4 * i, 4)
  | none, some i => some (8 * i, 8)
  | none, none => none

/-- An atomic that Lomaz carries out: offset of the word, width, code and operands. -/
structure AtomicOp where
  off : Nat
  width : Nat
  code : Nat
  a : Nat
  b : Nat
  deriving DecidableEq, Repr

/-- The atomic of a porch request, if its form is right (R340). -/
def porchAtomicOp (q : HallReq) (w : WBeat) : Option AtomicOp :=
  match atomicTarget w.be.toNat with
  | none => none
  | some (lane, width) =>
    if q.region != 0 || q.view != 0 || q.len != 1 || q.off % 128 != 0 then none
    else
      let bs := beatBytes w
      some { off := q.off + lane, width := width, code := q.acode.toNat, a := fld lane width bs, b := fld ((lane + 64) % 128) width bs }

/-- An atomic has none of the faults that R291 lists. -/
def atomicOk (r : HankRt) (op : AtomicOp) : Bool :=
  r.desc.cls == 5 && op.off % op.width == 0 && (atomicNew op.code op.width r.desc.unordered 0 0 0).isSome

/-- The hank's job is the framed one. -/
def framedHank (s : State) (r : HankRt) : Bool :=
  match s.planEff with
  | some p => (match p.jobs[r.desc.job]? with
    | some j => bit j.flags 0
    | none => false)
  | none => false

/-- The bytes of a word of a SHARED hank at its home. -/
def sharedRead (s : State) (r : HankRt) (o w : Nat) : Bytes :=
  if s.paged r.desc then
    let (c, p, po) := s.pageOf o
    s.pageRead (s.pageAt r.hank c p) po w
  else s.spanRead (r.desc.base 0) o w

/-- Write a word of a SHARED hank at its home. -/
def sharedWrite (r : HankRt) (o : Nat) (bs : Bytes) (s : State) : State :=
  if s.paged r.desc then
    let (c, p, po) := s.pageOf o
    s.pageWrite (s.pageAt r.hank c p) po bs
  else s.spanWrite (r.desc.base 0) o bs

/-- The block of a word is uncorrectable or poisoned. -/
def sharedBad (s : State) (r : HankRt) (o : Nat) : Bool :=
  if s.paged r.desc then
    let (c, p, po) := s.pageOf o
    s.pageBad (s.pageAt r.hank c p) (po / 128 * 128)
  else s.regionBad r 0 (o / 128 * 128) 128

/-- Read the block of a word of a SHARED hank at its home (R292). -/
def askShared (r : HankRt) (o : Nat) (s : State) : State :=
  if s.paged r.desc then
    let (c, p, po) := s.pageOf o
    s.askPage (s.pageAt r.hank c p) (po / 128 * 128) 128
  else s.takeMem s.ans (s.regionBlocks r 0 (o / 128 * 128) 128)

/-- The outcome of an atomic. -/
inductive AtomicRes where
  | done (old : Nat)
  | poison
  | refused
  | retry
  | wait
  deriving DecidableEq, Repr

/-- Execute an atomic at the home of its page by read-modify-write (R292). -/
def execAtomic (r : HankRt) (op : AtomicOp) (s : State) : State × AtomicRes :=
  let old := leNat (s.sharedRead r op.off op.width)
  match atomicNew op.code op.width r.desc.unordered old op.a op.b with
  | none => (s, .refused)
  | some v =>
    let s := s.sharedWrite r op.off (toLE op.width v)
    let s := if s.paged r.desc then s.heatPage r.hank (s.pageOf op.off).1 (s.pageOf op.off).2.1 else s
    let s := if op.code = 7 && s.framedHank r then { s with led := { s.led with fadd := true } } else s
    (s.bump 0x5090 0x0F 1, .done old)

/-- An atomic on a SHARED hank: outside, waiting, or executed once no other die holds a copy of the page (R283, R284, R296). -/
def runAtomic (r : HankRt) (op : AtomicOp) (writer : Option Nat) (s : State) : State × AtomicRes :=
  if regionSpan r.desc 0 ≤ op.off then (s, .poison)
  else
    let (s, w) := s.pagesWay r [op.off]
    let x := s.pageAt r.hank (s.pageOf op.off).1 (s.pageOf op.off).2.1
    if w == .wait then (s, .wait)
    else if s.paged r.desc && s.mapBad r.hank x.channel x.page then (s, .poison)
    else if s.paged r.desc && x.lost then (s, .refused)
    else if s.paged r.desc && x.tier == 3 then ((s.attemptOver r.hank x.channel x.page).bump 0x5090 0x07 1, .refused)
    else if s.paged r.desc && x.tier == 2 then (s, .retry)
    else
      let s := if s.paged r.desc then s.attemptOver r.hank x.channel x.page else s
      let t := op.off / Config.stripe
      let ks : List PageKey := [{ hank := r.hank, region := 0, channel := (stripePage s.C t).1, page := (stripePage s.C t).2 }]
      if !s.coherent ks writer then (s.invalidate ks writer, .wait)
      else
        let s := s.askShared r op.off
        if s.sharedBad r op.off then (s, .poison) else s.execAtomic r op

/-- Answer a porch atomic. -/
def answerAtomic (q : HallReq) (op : AtomicOp) (res : AtomicRes) (s : State) : State :=
  match res with
  | .done old => s.respond q [Beat.ok (zeros (op.off % 128) ++ toLE op.width old) 0]
  | .poison => (if regionSpan ((s.hank? q.hank.toNat).map (fun r => r.desc) |>.getD (readDescZero)) 0 ≤ op.off then
      s.bump 0x5010 0x02 1 else s).respondAll q .poison
  | .retry => s.respondAll q .retry
  | _ => s.respondAll q .refused
where
  /-- A descriptor of class 0. -/
  readDescZero : Desc :=
    { cls := 0, state := 0, household := 0, job := 0, flags := 0, planes := 0, formats := 0, viewFormat := 0, program := 0,
      tierPolicy := 0, source := 0, rows := 0, cols := 0, count := 0, bases := [], maskA := 0, maskB := 0 }

/-- Refuse an atomic (R291); one to a LIVE hank with read-only placement counts as a refused access too (R289). -/
def refuseAtomic (q : HallReq) (s : State) : State :=
  let ro := match s.hank? q.hank.toNat with
    | some r => r.desc.readOnly && r.state == 2
    | none => false
  ((s.bump 0x5090 0x0C 1).bump 0x5010 0x01 ro.toNat).respondAll q .refused

/-- An ATOMIC that is not fenced: true once it is answered. A SHARED hank that is not LIVE grants none (Table 10.11). -/
def tryAtomic (r : HankRt) (q : HallReq) (w : WBeat) (s : State) : State × Bool :=
  match porchAtomicOp q w with
  | none => (s.refuseAtomic q, true)
  | some op =>
    if !atomicOk r op then (s.refuseAtomic q, true)
    else if r.state != 2 then ((s.bump 0x5010 0x01 1).respondAll q .refused, true)
    else
      let (s, res) := s.runAtomic r op q.writer
      if res == .wait then (s, false) else (s.answerAtomic q op res, true)

/-- An ATOMIC. -/
def hallAtomic (q : HallReq) (w : WBeat) (s : State) : State :=
  match s.hank? q.hank.toNat with
  | none => s.refuseAtomic q
  | some r =>
    if s.fencedHank r.desc then s.respondAll q .fenced
    else
      let s := if s.paged r.desc && q.region = 0 then s.askMap r.hank (s.pageOf q.off).1 (s.pageOf q.off).2.1 else s
      let (s, done) := s.tryAtomic r q w
      if done then s else s.holdHall q [w] false s.fr.step

/-! ## Requests that were held -/

/-- Answer a held READ or WRITE that rows 1 and 2 of Table 2.9 have come to stop. -/
def stopHeld (q : HallReq) (op : HallOp) (st : HallStatus) (s : State) : State :=
  if st == .refused then s.refuseHall q op else s.respondAll q st

/-- Try a held request again; false while it still waits. -/
def retryHeld (h : HeldHall) (s : State) : State × Bool :=
  let q := h.q
  if h.refuse then (if s.tagOpen q then (s, false) else (s.respondAll q .refused, true))
  else
    match s.hank? q.hank.toNat, hallOp q.op.toNat with
    | none, .read => (s.refuseHall q .read, true)
    | none, .write => (s.refuseHall q .write, true)
    | none, _ => (s.refuseAtomic q, true)
    | some r, .read =>
      match s.wholeStatus q .read with
      | some st => (s.stopHeld q .read st, true)
      | none =>
        if q.region = 0x20 then (if s.banksWhole q then (s.serveWindow q h.step h.tables h.seed, true) else (s, false))
        else
          let (s, ok) := s.grantAll (s.readPages r q) q.die.toNat
          if ok then (s.serveRead r q, true) else (s, false)
    | some r, .write =>
      match s.wholeStatus q .write with
      | some st => (s.stopHeld q .write st, true)
      | none => s.tryWrite r q h.beats
    | some r, _ => s.tryAtomic r q (wbeat h.beats 0)

/-- Take up the held requests in the order they came; what still waits keeps its place. -/
def heldPass (s : State) : State :=
  if s.tier.held.isEmpty then s
  else
    let q := s.tier.held
    forEach q (fun h st =>
      let rest := st.tier.held.erase h
      let (st1, done) := retryHeld h { st with tier := { st.tier with held := rest } }
      if done then st1 else { st1 with tier := { st1.tier with held := st1.tier.held ++ [h] } }) s

/-! ## Fabric atomics (R291, R292, R299, Table 11.4) -/

/-- The atomic that an ATOMIC message asks for. -/
def fabricOp (b : Bytes) : AtomicOp :=
  { off := fld 8 8 b, width := fld 3 1 b, code := fld 2 1 b, a := fld 16 8 b, b := fld 24 8 b }

/-- Answer an ATOMIC message; the old value of one that was refused is not stated (log 58). -/
def atomicReply (m : HeldMsg) (old : Option Nat) (s : State) : State :=
  match old with
  | some v => s.reply m 0x06 (zeros 8 ++ toLE 8 v)
  | none => (s.spendFree 8).reply m 0x06 ([1] ++ zeros 7 ++ s.freeBytes 8)

/-- Execute an ATOMIC message, or hold it while its page or a die is waited for. -/
def fabricAtomic (m : HeldMsg) (s : State) : State :=
  let op := fabricOp m.body
  match s.hank? (fld 0 2 m.body) with
  | none => (s.bump 0x5090 0x0C 1).atomicReply m none
  | some r =>
    if !((op.width == 4 || op.width == 8) && atomicOk r op) then (s.bump 0x5090 0x0C 1).atomicReply m none
    else if r.state != 2 then s.atomicReply m none
    else
      let (s, res) := s.runAtomic r op none
      match res with
      | .done old => s.atomicReply m (some old)
      | .wait => { s with tier := { s.tier with heldAtoms := s.tier.heldAtoms ++ [m] } }
      | _ => s.atomicReply m none

/-- Take up the held atomics in the order they came; the fill sets held with them have a pass of their own. -/
def atomicPass (s : State) : State :=
  let atoms := s.tier.heldAtoms.filter (fun m => m.typ != 0x19)
  if atoms.isEmpty then s
  else
    forEach atoms (fun m st => st.fabricAtomic m)
      { s with tier := { s.tier with heldAtoms := s.tier.heldAtoms.filter (fun m => m.typ == 0x19) } }

/-- The porch takes a request: nothing while `lz_ready` is low or the way holds 256 open requests, a REFUSED answer after the open one
for a tag that is open (R335, R343). -/
def takeHall (q : HallReq) (ws : List WBeat) (f : State → State) (s : State) : State :=
  if !s.sys.ready || 256 ≤ s.openOn q then s
  else if s.tagOpen q then (s.bump 0x50C0 0x01 1).holdHall q ws true s.fr.step
  else f s

/-- A READ on the port. -/
def portRead (q : HallReq) (mem : MemAns) (s : State) : State := s.takeHall q [] (fun st => st.hallRead q mem)

/-- A WRITE on the port. -/
def portWrite (q : HallReq) (ws : List WBeat) (s : State) : State := s.takeHall q ws (fun st => st.hallWrite q ws)

/-- An ATOMIC on the port. -/
def portAtomic (q : HallReq) (w : WBeat) (s : State) : State := s.takeHall q [w] (fun st => st.hallAtomic q w)

/-- A request with an op code of 3 to 7 is refused (Table 12.4). -/
def portOther (q : HallReq) (s : State) : State := s.takeHall q [] (fun st =>
  match st.hank? q.hank.toNat with
  | some r => if st.fencedHank r.desc then st.respondAll q .fenced else st.refuseHall q .none
  | none => st.refuseHall q .none)

/-- A window read, with the clocks its beats waited for the carder (R268). -/
def portWindow (q : HallReq) (waited : Nat) (s : State) : State :=
  s.takeHall q [] (fun st =>
    let st := if q.region = 0x20 && (st.wholeStatus q .read).isNone then st.bump 0x5080 0x03 waited else st
    st.hallRead q .clean)

end State

end Sys2Proof.Machine
end

