-- ==== Sys2Proof/Machine/Offload.lean ====
section
/-! DEFINITION. Offload jobs (R143 to R146, Tables 5.8 and 5.9) and the twist contexts they use (R324, R326 to R329). -/

namespace Sys2Proof.Machine

/-! ## Job headers (Table 5.8) -/

/-- A job header's fields. -/
structure JobHdr where
  state : Nat
  op : Nat
  k : Nat
  m : Nat
  len : Nat
  erased : Nat
  ctx : Nat
  offs : List Nat
  reserved : Bool
  deriving DecidableEq, Repr

/-- Read a job header. -/
def readJob (b : Bytes) : JobHdr :=
  { state := fld 0 1 b, op := fld 1 1 b, k := fld 2 1 b, m := fld 3 1 b, len := fld 4 4 b, erased := fld 8 4 b,
    ctx := fld 12 1 b, offs := (List.range 18).map (fun i => 128 * fld (16 + 4 * i) 4 b),
    reserved := fld 14 2 b == 0 && allZero ((b.drop 104).take 24) }

namespace JobHdr

/-- Offset of block `b` within the region. -/
def block (j : JobHdr) (b : Nat) : Nat := natAt j.offs b

/-- The erased data blocks. -/
def lostData (j : JobHdr) : List Nat := (List.range j.k).filter (fun b => bit j.erased b)

/-- The erased plies. -/
def lostPlies (j : JobHdr) : List Nat := (List.range j.m).filter (fun p => bit j.erased (j.k + p))

/-- The plies that a decode reads: the e lowest-numbered ones that survive (R144). -/
def chosen (j : JobHdr) : List Nat := ((List.range j.m).filter (fun p => !bit j.erased (j.k + p))).take j.lostData.length

/-- The matrix of the chosen plies over the erased data columns. -/
def matrix (j : JobHdr) : List (List Nat) := j.chosen.map (fun p => j.lostData.map (fun i => Gf.gpow (p * i)))

/-- Detail 1: a field out of range, a reserved byte that is not zero, a block outside the hank. -/
def formBad (j : JobHdr) (size : Nat) : Bool :=
  let n := j.k + j.m
  !j.reserved || j.op = 0 || 3 < j.op || j.k = 0 || 14 < j.k || (if j.op = 3 then j.m != 0 else j.m = 0 || 4 < j.m) ||
    j.len % 128 != 0 || j.len < 128 || 65536 < j.len || (if j.op = 2 then 2 ^ n ≤ j.erased else j.erased != 0) ||
    (j.op != 3 && j.ctx != 0) || (j.offs.drop n).any (fun o => o != 0) || (j.offs.take n).any (fun o => size < o + j.len)

/-- Detail 2. -/
def tooMany (j : JobHdr) : Bool := j.op == 2 && (j.erased == 0 || j.m < j.lostData.length + j.lostPlies.length)

/-- Detail 3. -/
def singular (j : JobHdr) : Bool := j.op == 2 && (Gf.inverse j.lostData.length j.matrix).isNone

/-- Source bytes (R146). -/
def sourceBytes (j : JobHdr) : Nat := if j.op = 3 then j.len else j.k * j.len

/-- Blocks that the job reads. -/
def sources (j : JobHdr) : List Nat :=
  if j.op = 1 then List.range j.k
  else if j.op = 2 then (List.range j.k).filter (fun b => !bit j.erased b) ++ j.chosen.map (fun p => j.k + p)
  else [0]

/-- Blocks that the job writes. -/
def targets (j : JobHdr) : List Nat :=
  if j.op = 1 then (List.range j.m).map (fun p => j.k + p)
  else if j.op = 2 then j.lostData ++ j.lostPlies.map (fun p => j.k + p)
  else []

/-- Spindle beats (R146). -/
def beats (j : JobHdr) : Nat := if j.op = 3 then 0 else j.targets.length * j.k * j.len / 128

end JobHdr

/-- Ply `p` of data blocks (R144). -/
def offloadPly (p len : Nat) (data : List (Nat × Bytes)) : Bytes :=
  data.foldl (fun acc d => xorB acc (Gf.mulB (Gf.gpow (p * d.1)) d.2)) (zeros len)

/-- The blocks that a job writes, from those it read. -/
def offloadTargets (j : JobHdr) (got : List (Nat × Bytes)) : List (Nat × Bytes) :=
  let data := got.filter (fun b => b.1 < j.k)
  if j.op = 1 then (List.range j.m).map (fun p => (j.k + p, offloadPly p j.len data))
  else if j.op = 2 then
    let plyOf (p : Nat) : Bytes := match got.find? (fun b => b.1 == j.k + p) with
      | some b => b.2
      | none => zeros j.len
    let synd := j.chosen.map (fun p => xorB (plyOf p) (offloadPly p j.len data))
    let inv := (Gf.inverse j.lostData.length j.matrix).getD []
    let solved := j.lostData.zip (inv.map (fun row =>
      (row.zip synd).foldl (fun acc x => xorB acc (Gf.mulB x.1 x.2)) (zeros j.len)))
    solved ++ j.lostPlies.map (fun p => (j.k + p, offloadPly p j.len (data ++ solved)))
  else []

namespace State

/-! ## Check values (R324, R328) -/

/-- The check value that a context shows (0x2700 + c, subindex 0x0A): its result over the nine ASCII bytes of Table 11.8. -/
def twistCheck (x : TwistCtx) : Nat :=
  twistOut x.width (bit x.flags 1) x.xorout (twistRun x.width x.poly (bit x.flags 0) x.init (ascii "123456789"))

/-- A check-value job on a context: the context afterwards and the value (R328). -/
def twistJob (x : TwistCtx) (bs : Bytes) : TwistCtx × Nat :=
  let start := if bit x.flags 2 then x.reg else x.init
  let reg := twistRun x.width x.poly (bit x.flags 0) start bs
  ({ x with reg := reg }, twistOut x.width (bit x.flags 1) x.xorout reg)

/-! ## Bytes of an OFFLOAD hank -/

/-- The page of a region offset. -/
def offPage (s : State) (r : HankRt) (o : Nat) : PageRt := s.pageAt r.hank (s.pageOf o).1 (s.pageOf o).2.1

/-- A span's pieces by stripe: (region offset, bytes). -/
def offPieces (o len : Nat) : List (Nat × Nat) := (spanPieces o len).map (fun x => (x.1 * Config.stripe + x.2.1, x.2.2))

/-- Bytes of a piece at its home in the hearth or the pantry. -/
def offRead (s : State) (r : HankRt) (o len : Nat) : Bytes :=
  if s.paged r.desc then s.pageRead (s.offPage r o) (s.pageOf o).2.2 len else s.spanRead (r.desc.base 0) o len

/-- Write a piece at its home in the hearth or the pantry; whole beats are good again. -/
def offWrite (r : HankRt) (o : Nat) (bs : Bytes) (s : State) : State :=
  let n := ceilDiv bs.length 128
  if s.paged r.desc then
    let x := s.offPage r o
    let po := (s.pageOf o).2.2
    let s := s.pageWrite x po bs
    if bs.length % 128 = 0 then forEach (List.range n) (fun i st => st.pageGood x (po + 128 * i)) s else s
  else
    let s := s.spanWrite (r.desc.base 0) o bs
    if bs.length % 128 = 0 then s.clearBad (s.spanBlocks (r.desc.base 0) o bs.length) else s

/-- The home of a region offset: 0 hearth, 1 pantry, 2 cellar, 3 none. -/
def offTier (s : State) (r : HankRt) (o : Nat) : Nat := if s.paged r.desc then (s.offPage r o).tier else 0

/-- A page of a region offset is lost. -/
def offLost (s : State) (r : HankRt) (o : Nat) : Bool := s.paged r.desc && (s.offPage r o).lost

/-- The entry of the page of a region offset cannot be read from the page map (R349). -/
def offNoMap (s : State) (r : HankRt) (o : Nat) : Bool := s.paged r.desc && s.mapBad r.hank (s.pageOf o).1 (s.pageOf o).2.1

/-- The page of a region offset can be written now. -/
def offReady (s : State) (r : HankRt) (o : Nat) : Bool :=
  !s.paged r.desc ||
    ((s.offPage r o).tier < 2 && !(s.offPage r o).inTransit && !(s.offPage r o).lost && !s.offNoMap r o)

/-- The pages of some region offsets, as the presence directory knows them. -/
def offKeys (s : State) (r : HankRt) (offs : List Nat) : List PageKey :=
  nub ((stripesAt offs).map (fun t =>
    let p := stripePage s.C t
    { hank := r.hank, region := 0, channel := p.1, page := p.2 : PageKey }))

/-- Ask for a page in the cellar to come to the hearth. -/
def offFetch (r : HankRt) (o : Nat) (s : State) : State :=
  if s.paged r.desc && (s.offPage r o).tier == 2 && !(s.offPage r o).lost then
    s.queueDemand r.hank (s.pageOf o).1 (s.pageOf o).2.1
  else s

/-- Read a piece on the way of its home, its page-map entry first (R272, R275, R347). -/
def offAsk (r : HankRt) (o len : Nat) (s : State) : State :=
  if s.paged r.desc then
    let s := s.askMap r.hank (s.pageOf o).1 (s.pageOf o).2.1
    s.askPage (s.offPage r o) (s.pageOf o).2.2 len
  else s.takeMem s.ans (s.spanBlocks (r.desc.base 0) o len)

/-- A piece is known uncorrectable or poisoned. -/
def offBad (s : State) (r : HankRt) (o len : Nat) : Bool :=
  if s.paged r.desc then
    s.offNoMap r o || (List.range (ceilDiv len 128)).any (fun i => s.pageBad (s.offPage r o) ((s.pageOf o).2.2 + 128 * i))
  else s.spanBad (r.desc.base 0) o len

/-! ## Accepting jobs at a tick (R145, R146) -/

/-- Offset of a job header. -/
def jobOff (slot : Nat) : Nat := 128 + 128 * slot

/-- offload_bytes of the plan in effect. -/
def offloadBytes (s : State) : Nat :=
  match s.planEff with
  | some p => p.frame.offloadBytes
  | none => 0

/-- The detail for which a job is refused, 0 for none; the conditions in the order of Table 5.9. -/
def jobDetail (s : State) (r : HankRt) (j : JobHdr) : Nat :=
  if j.formBad (regionEnd r.desc 0) then 1
  else if j.tooMany then 2
  else if j.singular then 3
  else if s.offloadBytes < j.sourceBytes then 4
  else if j.op = 3 && s.twistOwner j.ctx != 7 then 5
  else 0

/-- Write the state and the detail of a job header. -/
def putJobState (r : HankRt) (slot state detail : Nat) (s : State) : State :=
  let s := s.offWrite r (jobOff slot) (toLE 1 state)
  if state = 2 then s else s.offWrite r (jobOff slot + 13) (toLE 1 detail)

/-- A job header can be written now; else the dies that hold copies of its page are told to let go of them (R296). -/
def headerFree (r : HankRt) (slot : Nat) (s : State) : State × Bool :=
  let ks := s.offKeys r [jobOff slot]
  if s.coherent ks none then (s, true) else (s.invalidate ks none, false)

/-- A job that has been looked at enters the accepted ones, or, with stage 5, waits for its refusal to be written. -/
def enterJob (r : HankRt) (slot stage result : Nat) (s : State) : State :=
  { s with off := { s.off with
      jobs := s.off.jobs ++ [{ hank := r.hank, slot := slot, stage := stage, want := [], got := [], result := result }] } }

/-- Refuse a job; its header is written once no die holds a copy of it. -/
def refuseJob (r : HankRt) (slot detail : Nat) (s : State) : State :=
  let (s, free) := s.headerFree r slot
  if free then (s.putJobState r slot 4 detail).bump 0x5040 0x0F 1 else s.enterJob r slot 5 detail

/-- Accept a job; its source bytes are charged, and its state is written once no die holds a copy of the header. -/
def takeJob (r : HankRt) (slot bytes : Nat) (s : State) : State :=
  let (s, free) := s.headerFree r slot
  let s := if free then (s.putJobState r slot 2 0).enterJob r slot 0 0 else s.enterJob r slot 4 0
  { s with off := { s.off with charged := s.off.charged + bytes } }

/-- One job header at a tick; the flag says that the acceptance goes on. A header whose page is in transit or in the cellar is left for a
later tick, the page being fetched, and so is one that cannot be read; later slots are looked at all the same (DESIGN CHOICE, log 170). -/
def acceptJob (r : HankRt) (slot : Nat) (x : State × Bool) : State × Bool :=
  if !x.2 || x.1.off.jobs.any (fun j => j.hank == r.hank && j.slot == slot) then x
  else
    let s := x.1.offAsk r (jobOff slot) 128
    if !s.offReady r (jobOff slot) then (s.offFetch r (jobOff slot), true)
    else
      let j := readJob (s.offRead r (jobOff slot) 128)
      if j.state != 1 || s.offBad r (jobOff slot) 128 then (s, true)
      else
        let d := s.jobDetail r j
        if d != 0 then (s.refuseJob r slot d, true)
        else if s.offloadBytes < s.off.charged + j.sourceBytes then (s, false)
        else (s.takeJob r slot j.sourceBytes, true)

/-- J of an OFFLOAD hank as its control header gives it; a count outside the range of R143 gives no job slots (log 39). -/
def readJobSlots (s : State) (r : HankRt) : Nat :=
  let j := fld 0 2 (s.offRead r 0 128)
  if j % 64 = 0 && 64 ≤ j && j ≤ 4096 then j else 0

/-- Read J of a hank that has become LIVE (R143); a control header whose page is in the cellar or in transit is fetched first (R285), and
one that cannot be read is read again at the next tick. -/
def takeSlots (r : HankRt) (s : State) : State :=
  if s.offTier r 0 == 2 || (s.paged r.desc && (s.offPage r 0).inTransit) then s.offFetch r 0
  else
    let s := s.offAsk r 0 128
    if s.offBad r 0 128 then s else s.updHank r.hank (fun x => { x with jobSlots := s.readJobSlots r })

/-- The LIVE OFFLOAD hanks, in increasing hank. -/
def offHanks (s : State) : List HankRt :=
  sortBy (fun (a b : HankRt) => decide (a.hank ≤ b.hank)) (s.hanks.filter (fun r => r.desc.cls == 6 && r.state == 2))

/-- At a tick: take the ready jobs of the LIVE OFFLOAD hanks while they fit, once no accepted job remains. -/
def acceptJobs (s : State) : State :=
  let s := forEach (s.offHanks.filter (fun r => r.jobSlots == 0)) (fun r st => st.takeSlots r) s
  if s.off.jobs.any (fun j => j.stage != 5) then s
  else
    let s := { s with off := { s.off with charged := 0 } }
    (s.offHanks.foldl (fun (x : State × Bool) r => (List.range r.jobSlots).foldl (fun x slot => acceptJob r slot x) x) (s, true)).1

/-! ## Running a job (R146) -/

/-- The accepted job of a slot. -/
def job? (s : State) (h slot : Nat) : Option JobRt := s.off.jobs.find? (fun j => j.hank == h && j.slot == slot)

/-- Change an accepted job. -/
def updJob (h slot : Nat) (f : JobRt → JobRt) (s : State) : State :=
  { s with off := { s.off with jobs := mapIf (fun j => j.hank == h && j.slot == slot) f s.off.jobs } }

/-- The job is over: its requests and its place go. -/
def dropJob (h slot : Nat) (s : State) : State :=
  let s := s.dropReqs (fun e _ k => e == 1 && (k.take 3 == [4, h, slot] || k.take 3 == [5, h, slot]))
  { s with off := { s.off with jobs := s.off.jobs.filter (fun j => !(j.hank == h && j.slot == slot)) } }

/-- Write bytes that the manual leaves open to the target blocks of a stopped job (R146, log 7). -/
def spoilTargets (r : HankRt) (j : JobHdr) (s : State) : State :=
  forEach (j.targets.flatMap (fun b => offPieces (j.block b) j.len)) (fun (x : Nat × Nat) st =>
    if st.offReady r x.1 then State.spendFree x.2 (st.offWrite r x.1 (st.freeBytes x.2)) else st) s

/-- The pages that the next write to a job's header goes with: its own, and those of the targets of a stopped job. -/
def closeKeys (s : State) (r : HankRt) (j : JobRt) (hdr : JobHdr) : List PageKey :=
  s.offKeys r (jobOff j.slot :: (if j.stage = 3 then
    hdr.targets.flatMap (fun b => (offPieces (hdr.block b) hdr.len).map (fun x => x.1)) else []))

/-- Write what a job's header is due, once it can be written and no die holds a copy: state 2; result and state 3; state 4 with detail 6
over targets of open bytes (R146); or a refusal. -/
def closeJob (h slot : Nat) (s : State) : State :=
  match s.hank? h, s.job? h slot with
  | some r, some j =>
    let hdr := readJob (s.offRead r (jobOff slot) 128)
    let ks := s.closeKeys r j hdr
    if !s.offReady r (jobOff slot) then s.offFetch r (jobOff slot)
    else if !s.coherent ks none then s.invalidate ks none
    else if j.stage = 5 then ((s.putJobState r slot 4 j.result).bump 0x5040 0x0F 1).dropJob h slot
    else if j.stage = 4 then (s.putJobState r slot 2 0).updJob h slot (fun y => { y with stage := 0 })
    else if j.stage = 3 then (((s.spoilTargets r hdr).putJobState r slot 4 6).bump 0x5040 0x0F 1).dropJob h slot
    else if j.stage = 2 then
      let s := if hdr.op = 3 then s.offWrite r (jobOff slot + 88) (toLE 8 j.result) else s
      let s := (s.putJobState r slot 3 0).dropJob h slot
      ((s.bump 0x5040 0x0E 1).bump 0x5040 0x10 hdr.beats).bump 0x5040 0x11 hdr.beats
    else s
  | _, _ => s.dropJob h slot

/-- A source read failed: the job stops (R146). -/
def stopJob (h slot : Nat) (s : State) : State :=
  let s := s.dropReqs (fun e _ k => e == 1 && k.take 3 == [4, h, slot])
  (s.updJob h slot (fun j => { j with stage := 3, want := [] })).closeJob h slot

/-- READ and WRITE of cellar blocks go on the way of the stripe index's low bit. -/
def askCellar (r : HankRt) (slot o len : Nat) (s : State) : State :=
  let x := s.offPage r o
  let b := s.homeBase x.tier x.channel x.area x.index + (s.pageOf o).2.2
  s.request 1 0x03 (s.areaNode x.area) (o / Config.stripe % 2) (toLE 8 b ++ toLE 4 len ++ zeros 4) [4, r.hank, slot, o]

/-- Write a piece of a target at a cellar node. -/
def putCellar (r : HankRt) (slot o : Nat) (bs : Bytes) (s : State) : State :=
  let x := s.offPage r o
  let b := s.homeBase x.tier x.channel x.area x.index + (s.pageOf o).2.2
  s.request 1 0x01 (s.areaNode x.area) (o / Config.stripe % 2) (toLE 8 b ++ toLE 4 bs.length ++ zeros 4 ++ bs)
    [5, r.hank, slot, o]

/-- The bytes of a source block: each piece from its home, or as it was read from the cellar. -/
def sourceBlock (s : State) (r : HankRt) (j : JobRt) (o len : Nat) : Bytes :=
  (offPieces o len).flatMap (fun x => match j.got.find? (fun g => g.1 == x.1) with
    | some g => g.2
    | none => s.offRead r x.1 x.2)

/-- Write the targets: at their homes, or by WRITE at a cellar node. -/
def putTargets (r : HankRt) (slot : Nat) (ts : List (Nat × Bytes)) (s : State) : State :=
  let pieces := ts.flatMap (fun t => (offPieces t.1 t.2.length).map (fun x => (x.1, (t.2.drop (x.1 - t.1)).take x.2)))
  let far := pieces.filter (fun x => s.offTier r x.1 == 2)
  let s := forEach pieces (fun (x : Nat × Bytes) st => if st.offTier r x.1 = 2 then st else st.offWrite r x.1 x.2) s
  let s := s.updJob r.hank slot (fun j => { j with stage := if far.isEmpty then 2 else 1, want := far.map (fun x => x.1), got := [] })
  let s := forEach far (fun (x : Nat × Bytes) st => st.putCellar r slot x.1 x.2) s
  if far.isEmpty then s.closeJob r.hank slot else s

/-- Every source is read: the targets are formed and written, once their pages can take them (Table 10.6, R284, R296). -/
def runJob (r : HankRt) (j : JobRt) (hdr : JobHdr) (s : State) : State :=
  let spans := hdr.targets.flatMap (fun b => offPieces (hdr.block b) hdr.len)
  let (s, w) := s.pagesWay r (spans.map (fun x => x.1))
  let ks := s.offKeys r (spans.map (fun x => x.1))
  if w == .wait || spans.any (fun x => s.offTier r x.1 == 3 || s.offLost r x.1) then s
  else if !s.coherent ks none then s.invalidate ks none
  else
    let blocks := hdr.sources.map (fun b => (b, s.sourceBlock r j (hdr.block b) hdr.len))
    if hdr.op = 3 then
      let (x, v) := twistJob (s.twistAt hdr.ctx) ((blocks.map (fun b => b.2)).headD [])
      (((s.putTwist hdr.ctx x).bump 0x50B0 0x04 1).updJob r.hank j.slot (fun y => { y with stage := 2, got := [], result := v })).closeJob r.hank j.slot
    else s.putTargets r j.slot ((offloadTargets hdr blocks).map (fun b => (hdr.block b.1, b.2)))

/-- An earlier accepted check-value job on the same context has not ended (R328). -/
def contextBusy (s : State) (j : JobRt) (hdr : JobHdr) : Bool :=
  hdr.op == 3 && ((s.off.jobs.takeWhile (fun x => x != j)).filter (fun x => x.stage != 5)).any (fun x =>
    match s.hank? x.hank with
    | some q =>
      let e := readJob (s.offRead q (jobOff x.slot) 128)
      e.op == 3 && e.ctx == hdr.ctx
    | none => false)

/-- OFFLOAD_JOB_COMPLETE: the spindles come to the end of an accepted job. A job whose cellar reads are open, whose header is not at
hand or whose targets wait goes on at a later completion. -/
def jobComplete (h slot : Nat) (s : State) : State :=
  match s.hank? h, s.job? h slot with
  | some r, some j =>
    if 2 ≤ j.stage then s.closeJob h slot
    else if j.stage != 0 || !j.want.isEmpty then s
    else if !s.offReady r (jobOff slot) then s.offFetch r (jobOff slot)
    else
      let hdr := readJob (s.offRead r (jobOff slot) 128)
      let spans := hdr.sources.flatMap (fun b => offPieces (hdr.block b) hdr.len)
      let far := spans.filter (fun x => s.offTier r x.1 == 2 && !j.got.any (fun g => g.1 == x.1))
      if s.contextBusy j hdr then s
      else if spans.any (fun x => s.offLost r x.1) then s.stopJob h slot
      else if !far.isEmpty then
        let s := s.updJob h slot (fun y => { y with want := far.map (fun x => x.1) })
        forEach far (fun (x : Nat × Nat) st => st.askCellar r slot x.1 x.2) s
      else
        let near := spans.filter (fun x => !j.got.any (fun g => g.1 == x.1))
        let s := forEach near (fun x st => st.offAsk r x.1 x.2) s
        if near.any (fun x => s.offBad r x.1 x.2) then s.stopJob h slot else s.runJob r j hdr
  | _, _ => s

/-- A cellar read of a source is answered; none when it failed or timed out. -/
def jobData (h slot o : Nat) (data : Option Bytes) (s : State) : State :=
  match s.job? h slot with
  | none => s
  | some j =>
    if j.stage != 0 || !j.want.contains o then s
    else
      match data with
      | none => s.stopJob h slot
      | some b => s.updJob h slot (fun y => { y with want := y.want.erase o, got := y.got ++ [(o, b)] })

/-- A cellar write of a target is completed; one that failed ends the job as a failed read does (log 40). -/
def jobWritten (h slot o : Nat) (ok : Bool) (s : State) : State :=
  match s.job? h slot with
  | none => s
  | some j =>
    if j.stage != 1 || !j.want.contains o then s
    else if !ok then (s.updJob h slot (fun y => { y with stage := 3, want := [] })).closeJob h slot
    else
      let rest := j.want.erase o
      let s := s.updJob h slot (fun y => { y with want := rest, stage := if rest.isEmpty then 2 else 1 })
      if rest.isEmpty then s.closeJob h slot else s

/-- Jobs whose header could not be written before. -/
def jobPass (s : State) : State :=
  if s.off.jobs.isEmpty then s
  else forEach (s.off.jobs.filter (fun j => 2 ≤ j.stage)) (fun j st => st.closeJob j.hank j.slot) s

end State

end Sys2Proof.Machine
end

