-- ==== Sys2Proof/Machine/Structure.lean ====
section
/-! DEFINITION. Admission, codes 0x02 to 0x04: a stale plan (R27), structural limits (R16, R63, R104, R129, R165, R192, R194, R202, R215,
R221, R241, R277, R316) and hank content (R35 to R38, R45, R54, R104, R113, R161, R220, R244, R274, R276, R277, R288, R289). -/

namespace Sys2Proof.Machine

/-- A structural check: refused under code 0x03 with no count. -/
def structIf (bad : Bool) : Option Refuse := refuseIf bad ruleFault

/-- No element comes twice. -/
def distinct {α : Type} [BEq α] (l : List α) : Bool := (nub l).length == l.length

namespace State

/-- The state as it is once a plan is in effect, as far as policies and pools go. -/
def under (s : State) (p : Plan) : State := { s with planEff := some p }

/-! ## Stale plans (R27) -/

/-- Code 0x02. -/
def staleFault (s : State) (p : Plan) : Option Refuse :=
  firstFault [
    refuseIf (s.fr.opened && p.frame.firstStep ≤ s.fr.step)
      { code := 2, index := 0xFF, demand := some p.frame.firstStep, capacity := some s.fr.step },
    match p.skein with
    | some k => refuseIf (k.epoch < s.mem.epoch) { code := 2, index := 0xFF, demand := some k.epoch, capacity := some s.mem.epoch }
    | none => none]

/-! ## Jobs (R16) -/

/-- A hank that names no job of the plan, or a STATE, VIEW or LANDING hank of a job that is not framed (R16). -/
def jobBreach (p : Plan) (d : Desc) : Bool :=
  d.cls != 0 && (match p.jobs[d.job]? with
    | some j => 1 ≤ d.cls && d.cls ≤ 3 && !bit j.flags 0
    | none => true)

/-- The breaches of R16, each with its count and the limit (log 12): jobs of 16, the household numbers used of 16, framed jobs of 1,
hanks under a job that may not own them of 0. -/
def jobsRules (p : Plan) : Option Refuse :=
  let framed := (p.jobs.filter (fun j => bit j.flags 0)).length
  let wrong := (p.descs.filter (jobBreach p)).length
  firstFault [
    refuseIf (p.jobs.isEmpty || 16 < p.jobs.length) (limitFault p.jobs.length 16),
    refuseIf (p.jobs.any (fun j => 15 < j.household)) (limitFault (maxL (p.jobs.map (fun j => j.household + 1))) 16),
    refuseIf (framed != 1) (limitFault framed 1),
    refuseIf (4096 < p.descs.length) (limitFault p.descs.length 4096),
    refuseIf (wrong != 0) (limitFault wrong 0)]

/-! ## Programs (R104) -/

/-- A fault of a program record: the slot and the micro-op, or 0xFFFF_FFFF for the header. -/
def progFault (slot i : Nat) : Refuse := { code := 3, index := 0xFF, demand := some slot, capacity := some i }

/-- A micro-op that Table 4.5 does not give, or with an unused source or reserved field that is not zero. -/
def opBad (w : Nat) : Bool :=
  let o := readOp w
  match opSources o.op with
  | none => true
  | some n => o.rest != 0 || (o.op == 0 && o.d != 0) || (n < 1 && o.a != 0) || (n < 2 && o.b != 0) || (n < 3 && o.c != 0)

/-- A header fault of a record. -/
def progHeaderBad (g : Prog) : Bool :=
  63 < g.slot || g.len = 0 || 192 < g.len || 32 ≤ g.needs || g.needs % 4 != 3 || 16 ≤ g.rounding || 16 ≤ g.writes ||
    fld 5 3 g.raw != 0 || (List.range 3).any (fun i => bit g.writes (i + 1) && !bit g.needs (i + 2))

/-- The faults of the records in order. -/
def progRules (p : Plan) : Option Refuse :=
  let gs := p.progs.filter (fun g => !g.builtin)
  firstFault (gs.zipIdx.map (fun (g, i) => firstFault [
    refuseIf (progHeaderBad g || (gs.take i).any (fun x => x.slot == g.slot)) (progFault g.slot 0xFFFFFFFF),
    (g.ops.findIdx? opBad).map (progFault g.slot)]))

/-! ## Bucket maps (R63) -/

/-- Reserved fields and unused flag bits of a bucket-map body are zero. -/
def bucketReserved (b : Bytes) : Bool :=
  let sc := fld 0 2 b
  fld 12 4 b == 0 &&
    (List.range sc).all (fun i =>
      let r := sub (24 + 64 * i) 64 b
      fld 5 1 r < 16 && fld 7 1 r == 0 && allZero (r.drop 48)) &&
    (List.range (fld 2 2 b)).all (fun i => fld (24 + 64 * sc + 16 * i + 6) 2 b == 0)

/-- The last site of the local chain from a site. -/
def chainEnd (m : BucketMap) : Nat → Site → Site
  | 0, x => x
  | k + 1, x =>
    if x.final || x.remote then x
    else match m.sites.find? (fun y => y.id == x.nextSite) with
      | some y => chainEnd m k y
      | none => x

/-- The fields of a site that its role or kind does not use are zero. -/
def siteUnused (x : Site) : Bool :=
  (x.hasSelf || x.selfSlot == 0) && (x.final || (x.targetHank == 0 && !x.mean)) && (x.remote || x.nextNode == 0) &&
    (!x.final || (x.nextSite == 0 && x.nextSlot == 0)) && (x.kind == 1 || (x.capacity == 0 && x.cols == 0)) &&
    x.contribs.all (fun c => c.source != 0 || c.sourceSite == 0)

/-- The entry of the next site that a local-chain site feeds. -/
def chainLink (m : BucketMap) (x : Site) : Bool :=
  match m.sites.find? (fun y => y.id == x.nextSite) with
  | none => false
  | some y =>
    x.stage < y.stage && y.kind == x.kind && y.extent == x.extent && y.cols == x.cols &&
      (match y.contribs[x.nextSlot]? with
        | some c => c.source == 2 && c.sourceSite == x.id
        | none => false)

/-- An entry of a contributor list: output-sourced slots name a lower stage; the only leaf of an own node is the self slot. -/
def contribOk (m : BucketMap) (own : List Nat) (x : Site) (i : Nat) (c : Contrib) : Bool :=
  c.source ≤ 2 && (c.source == 0 || 2 ≤ x.stage) &&
    (c.source != 2 || (match m.sites.find? (fun y => y.id == c.sourceSite) with
      | some y => y.stage < x.stage
      | none => false)) &&
    (c.source != 0 || own.contains c.node == (x.hasSelf && i == x.selfSlot))

/-- The counts of one site: contributors of 64, its stage of 4 (Table 1.7). -/
def siteLimits (x : Site) : Option Refuse :=
  firstFault [
    refuseIf (x.slots = 0 || 64 < x.slots) (limitFault x.slots 64),
    refuseIf (x.stage = 0 || 4 < x.stage) (limitFault x.stage 4)]

/-- A bucket lies within a target hank of this plan (R63). -/
def ownFits (p : Plan) (h : Nat) (x : Site) : Bool :=
  match p.desc h with
  | some d => d.cls == 1 && (if x.kind = 0 then x.first + x.extent ≤ d.count else x.first + x.extent ≤ d.rows && x.cols == d.cols)
  | none => false

/-- A bucket lies within a target hank of the member at a position (R63). Of that hank the skein section gives the element count, so
a ROWS bucket is held to it with its own columns for the hank's (log 12). -/
def peerFits (k : SkeinSec) (pos h : Nat) (x : Site) : Bool :=
  match k.hanks.findIdx? (fun e => e.1 == h) with
  | none => false
  | some i =>
    let count := natAt (k.counts.getD pos []) i
    if x.kind = 0 then x.first + x.extent ≤ count else (x.first + x.extent) * x.cols ≤ count && count % x.cols == 0

/-- The rules of one site. `fits` tells whether a bucket lies within the target hank of the final site that ends its chain. -/
def siteOk (m : BucketMap) (own : List Nat) (fits : Nat → Site → Bool) (x : Site) : Bool :=
  let e := chainEnd m 4 x
  x.kind ≤ 1 && x.width ≤ 1 && !(x.final && x.remote) &&
    (x.final || x.remote || chainLink m x) && (x.stage == 1 || x.width == 1) && siteUnused x &&
    x.payload ≤ x.pitchBytes &&
    (x.contribs.zipIdx.all (fun c => contribOk m own x c.2 c.1)) &&
    (!x.hasSelf || (x.selfSlot < x.slots && e.final && (match x.contribs[x.selfSlot]? with
      | some c => c.source == 0
      | none => false) && x.contribs.all (fun c => c.source != 2))) &&
    (m.outbox.filter (fun o => o.kind == 1 && o.localSite == x.id)).length == (if x.remote then 1 else 0) &&
    (m.sites.filter (fun y => y.slotHank == x.slotHank)).length == 1 &&
    (!e.final || fits e.targetHank x)

/-- The rules of a bucket map under code 0x03. -/
def bucketRules (b : Bytes) (m : BucketMap) (own : List Nat) (fits : Nat → Site → Bool) : Option Refuse :=
  firstFault [
    refuseIf (64 < fld 0 2 b) (limitFault (fld 0 2 b) 64),
    refuseIf (128 < fld 2 2 b) (limitFault (fld 2 2 b) 128),
    firstFault (m.sites.map siteLimits),
    structIf (!bucketReserved b),
    structIf (m.sites.any (fun x => 63 < x.id) || !distinct (m.sites.map (fun x => x.id))),
    structIf (m.mirrorArea == 0 && m.mirrorHank != 0),
    structIf (m.outbox.isEmpty && m.outboxHank != 0),
    structIf (m.outbox.any (fun o => 1 < o.kind || o.offset < 4 || (o.kind == 0 && o.localSite != 0) ||
      (o.kind == 1 && !m.sites.any (fun x => x.id == o.localSite && x.remote)))),
    structIf (m.sites.any (fun x => !siteOk m own fits x))]

/-- Pieces of a member's self slots that go to one ply-P holder (R83). -/
def piecesTo (l : Layout) (m : BucketMap) (j holder : Nat) : Nat :=
  let n := l.ns j
  sumL ((m.sites.filter (fun x => x.hasSelf)).map (fun x =>
    ((List.range (ceilDiv x.payload 4096)).filter (fun i => n != 0 && (match l.ofDense j (i % n) with
      | some (h, g, p) => (l.place j h g p).x == holder
      | none => false))).length))

/-- Each sending member's pieces to each holder that takes mirror pieces fit within the holder's mirror_area. -/
def mirrorFits (l : Layout) (maps : List (Nat × BucketMap)) : Bool :=
  maps.all (fun (c, mc) => mc.mirrorArea == 0 || maps.all (fun (j, mj) => j == c || piecesTo l mj j c ≤ mc.mirrorArea))

/-! ## Skein section (R192, R194, R202, R215, R221) -/

/-- The rules of R194. A count below its minimum shows the upper limit as its capacity (DESIGN CHOICE, log 177). -/
def skeinRules (s : State) (p : Plan) (b : Bytes) (k : SkeinSec) : Option Refuse :=
  let own := k.position
  firstFault [
    refuseIf (k.n < 3 || 16 < k.n) (limitFault k.n 16),
    refuseIf (k.m = 0 || 2 < k.m || k.n < k.m + 1) (limitFault k.m 2),
    structIf (!(k.position < k.n || k.position == 0xFF)),
    structIf (!(k.lintel < k.n)),
    refuseIf (16 < k.neighbours.length) (limitFault k.neighbours.length 16),
    refuseIf (32 < k.inherits.length) (limitFault k.inherits.length 32),
    structIf (!distinct (k.members.map (fun m => m.1))),
    structIf ((p.descs.zipIdx).any (fun (d, h) => d.cls == 1 && 1 ≤ d.state && !k.hanks.any (fun e => e.1 == h))),
    structIf (k.hanks.any (fun e => match p.desc e.1 with
      | some d => d.cls != 1 || d.planes != e.2.1 || d.formats != e.2.2
      | none => true)),
    structIf (own < k.n && (k.hanks.zip (k.counts.getD own [])).any (fun x => match p.desc x.1.1 with
      | some d => d.count != x.2
      | none => true)),
    structIf (own < k.n && (k.members.getD own (0, 0)).1 != s.node),
    structIf (!Plan.skeinReserved b),
    structIf (!bit k.flags 1 && k.oldPlyBase != 0)]

/-- The ply store of a layout on a channel: first and last + 1 in 4 KiB units. -/
def plyRange (l : Layout) (base c channels : Nat) : Nat × Nat := (base, base + stripesOn c channels (l.plyStripes * Config.stripe))

/-- The four cases of R221. The plan covers an adopted position where it turns the hank that inherits the adoption LIVE. -/
def recodeRules (s : State) (p : Plan) (k : SkeinSec) : Option Refuse :=
  if !bit k.flags 1 then none
  else
    let l := Layout.ofSkein k
    let overlaps : Bool := match s.code.layout with
      | none => false
      | some o => (List.range s.C).any (fun c =>
          let a := plyRange l l.plyBase c s.C
          let b := plyRange o k.oldPlyBase c s.C
          a.1 < b.2 && b.1 < a.2)
    let inh := match s.planEff with
      | some p => match p.skein with
        | some q => q.inherits
        | none => []
      | none => []
    let mine := s.loss.adopted.filter (fun a => a.heir == s.myPos)
    let taken (h : Nat) : Bool := match p.desc h with
      | some d => d.cls == 1 && d.state == 2
      | none => false
    firstFault [
      structIf (s.mem.recode != 0),
      structIf overlaps,
      structIf (inh.any (fun e => match s.hank? e.localHank with
        | some r => r.state == 1 && !(List.range (groupsOf r.desc.count)).all (fun g => r.inheritedDone.contains g)
        | none => true)),
      structIf (mine.any (fun a => !inh.any (fun e => e.lostPosition == a.position && e.lostHank == a.hank && taken e.localHank)))]

/-- A plan of the epoch in effect keeps the node of every position that the epoch names (R202). -/
def sameEpochRules (s : State) (k : SkeinSec) : Option Refuse :=
  structIf (k.epoch == s.mem.epoch && s.mem.skeinId != 0xFFFF && (List.range k.n).any (fun i =>
    bit s.mem.named i && (k.members.getD i (0, 0)).1 != s.nodeAt i))

/-- A fenced member admits only a plan that moves each of its LIVE STATE hanks to VACATING (R215). -/
def fencedRules (s : State) (p : Plan) : Option Refuse :=
  structIf (s.fenced && !(s.hanks.all (fun r => r.desc.cls != 1 || r.state != 2 || (match p.desc r.hank with
    | some d => d.cls == 1 && d.state == 3
    | none => false))))

/-! ## Tiers (R277) -/

/-- The bytes of two areas of one tier, channel and node meet. -/
def areasMeet (a b : Area) : Bool :=
  a.tier == b.tier && a.channel == b.channel && a.node == b.node && a.base < b.base + b.pages * pageBytes &&
    b.base < a.base + a.pages * pageBytes

/-- The rules of R277 under code 0x03. -/
def tierRules (channels : Nat) (p : Plan) (b : Bytes) (t : TierSec) : Option Refuse :=
  firstFault [
    refuseIf (t.households.isEmpty || 16 < t.households.length) (limitFault t.households.length 16),
    refuseIf (t.policies.isEmpty || 64 < t.policies.length) (limitFault t.policies.length 64),
    refuseIf (1024 < t.areas.length) (limitFault t.areas.length 1024),
    structIf (!distinct (t.households.map (fun x => x.id)) || !distinct (t.policies.map (fun x => x.index))),
    structIf (t.households.any (fun x => 15 < x.id)),
    structIf (p.jobs.any (fun j => !t.households.any (fun x => x.id == j.household))),
    structIf (t.policies.any (fun q => q.tiers % 8 == 0 || q.promoteAt ≤ q.demoteAt || 2 < q.home || 15 < q.decay)),
    structIf (t.policies.any (fun q => bit q.flags 0 && 1 < popCount 3 q.tiers)),
    structIf (t.areas.any (fun a => 2 < a.tier || a.base % pageBytes != 0 || (if a.tier = 0 then channels ≤ a.channel else a.channel != 0) ||
      (a.tier != 2 && a.node != 0) || (a.tier == 2 && 2 ^ 48 ≤ a.base))),
    structIf (t.areas.zipIdx.any (fun x => (t.areas.drop (x.2 + 1)).any (areasMeet x.1))),
    structIf (!Plan.tierReserved b)]

/-! ## Replica and spare section (R165) -/

/-- The rules of R165 under code 0x03. -/
def replicaRules (p : Plan) (b : Bytes) (r : ReplicaSec) : Option Refuse :=
  let n := match p.skein with
    | some k => k.n
    | none => 16
  let nodeOf (pos : Nat) : List Nat := match p.skein with
    | some k => [(k.members.getD pos (0xFFFF, 0)).1]
    | none => []
  let raws : List (Nat × Bytes) := match Plan.readPeers (Plan.otherPositions p.skein r.spareOf) (Plan.peersAt b) (b.drop (Plan.peersAt b)) with
    | .ok ps => ps.map (fun x => (x.1, x.2.2))
    | .error _ => []
  firstFault ([
    refuseIf (7 < r.replicas.length) (limitFault r.replicas.length 7),
    refuseIf (16 < r.spares.length) (limitFault r.spares.length 16),
    refuseIf (1024 < r.aliases.length) (limitFault r.aliases.length 1024),
    structIf (!(r.spareOf == 0xFF || r.spareOf < n)),
    structIf (match p.skein with
      | some k => (k.position == 0xFF) != (r.spareOf != 0xFF)
      | none => r.spareOf != 0xFF),
    structIf (r.spares.any (fun x => !(x.position == 0xFF || x.position < n))),
    structIf (!Plan.replicaReserved b)] ++
    raws.map (fun x => bucketRules x.2 (Plan.readBucket x.2) (nodeOf x.1) (match p.skein with
      | some k => peerFits k x.1
      | none => fun _ _ => true)))

/-! ## Bounds (R129, R241, R316) -/

/-- The views of a source that are LIVE under a plan (R112). -/
def liveViews (p : Plan) (h : Nat) : List Desc := p.descs.filter (fun d => d.cls == 2 && d.source == h && d.state == 2)

/-- rand of a STATE hank under a plan (R112). -/
def planRand (p : Plan) (h : Nat) (d : Desc) : Nat :=
  match p.prog? d.program with
  | some g => randOf g d.planes d.formats (liveViews p h).length
  | none => 0

/-- The bound of R241; the plan's seed entries are one for each STATE hank that draws and one for each hank with a window (log 41). -/
def recordBound (p : Plan) : Nat :=
  let states := p.descs.zipIdx.filter (fun x => x.1.cls == 1)
  let seeds := (states.filter (fun x => 0 < planRand p x.2 x.1)).length + (p.descs.filter (fun d => d.cls != 0 && d.window)).length
  let progs := (nub (states.map (fun x => x.1.program))).length
  let sites := match p.bucket with
    | some m => m.sites
    | none => []
  pad8 (128 + 96 + 4 * 64 + 40 * sites.length + 16 * states.length + 16 * seeds + 72 * progs + 4 * sumL (sites.map (fun x => x.slots)) +
    8 * 256) + 32

/-- Bounds that name a demand and a capacity. -/
def boundRules (s : State) (p : Plan) : Option Refuse :=
  let pins := ({ s with planPend := some p } : State).pins.length
  firstFault [
    match p.skein with
    | some k =>
      let l := Layout.ofSkein k
      refuseIf (k.position < k.n && s.C * 1048576 < l.tagCount) (limitFault l.tagCount (s.C * 1048576))
    | none => none,
    refuseIf (65536 < recordBound p) (limitFault (recordBound p) 65536),
    refuseIf (7680 < pins) (limitFault pins 7680)]

/-! ## Code 0x03 -/

/-- The node that the plan's own map takes for this member's (R63). -/
def ownNodes (s : State) (p : Plan) : List Nat :=
  nub (s.node :: (match p.skein with
    | some k => if k.position < k.n then [(k.members.getD k.position (0, 0)).1] else []
    | none => []))

/-- Every structural limit, in the order of the sections. -/
def structFault (s : State) (p : Plan) (ss : List Section) : Option Refuse :=
  let body (t : Nat) : Bytes := match Plan.sect ss t with
    | some x => x.body
    | none => []
  let anyState := p.descs.any (fun d => d.cls == 1)
  let maps : List (Nat × BucketMap) := match p.skein, p.bucket with
    | some k, some m => (k.position, m) :: (match p.replica with
      | some r => r.peers
      | none => [])
    | _, _ => []
  firstFault [
    s.fencedRules p,
    jobsRules p,
    structIf (p.skein.isNone && anyState),
    structIf (p.skein.isSome && p.replica.isNone),
    match p.skein with
    | some k => firstFault [s.skeinRules p (body 3) k, s.sameEpochRules k, s.recodeRules p k]
    | none => none,
    progRules p,
    match p.bucket with
    | some m => bucketRules (body 6) m (s.ownNodes p) (ownFits p)
    | none => none,
    match p.tier with
    | some t => tierRules s.C p (body 7) t
    | none => none,
    match p.replica with
    | some r => replicaRules p (body 8) r
    | none => none,
    match p.skein with
    | some k => structIf (!mirrorFits (Layout.ofSkein k) maps)
    | none => none,
    s.boundRules p]

/-! ## Hank content, code 0x04 -/

/-- State in effect of a hank number. -/
def effState (s : State) (h : Nat) : Nat :=
  match s.hank? h with
  | some r => r.state
  | none => 0

/-- The change of the state field is permitted; a source that still vacates counts as in the state named for it (R37, R38). -/
def changeOk (s : State) (p : Plan) (h : Nat) (d : Desc) : Bool :=
  let was := s.effState h
  let srcLive : Bool := match p.desc d.source with
    | some x => x.cls == 1 && x.state == 2
    | none => false
  was == d.state || (was == 0 && d.state == 1) || (was == 1 && (d.state == 2 || d.state == 0)) || (was == 2 && d.state == 3) ||
    (was == 3 && (d.state == 1 || d.state == 2)) || (d.cls == 2 && was == 0 && d.state == 2 && srcLive)

/-- The state of a VIEW agrees with that of its source, where that is a STATE hank (R36). -/
def viewStateOk (p : Plan) (d : Desc) : Bool :=
  match p.desc d.source with
  | some x => x.cls != 1 || d.state == x.state || d.state == 0 || (d.state == 3 && x.state == 2)
  | none => true

/-- A STATE descriptor's formats agree with its planes. -/
def formatsOk (d : Desc) : Bool :=
  let aux := d.formats / 4 % 4
  d.formats < 16 && (!bit d.formats 0 || bit d.planes 2) && (!bit d.formats 1 || bit d.planes 3) &&
    (if bit d.planes 4 then aux == 1 || aux == 2 else aux == 0)

/-- The household of a descriptor is privileged (R289). -/
def privileged (p : Plan) (d : Desc) : Bool :=
  match p.tier with
  | some t => t.households.any (fun x => x.id == d.household && bit x.flags 0)
  | none => false

/-- The tiers that Table 10.1 allows a class. -/
def classTiers (d : Desc) : Nat :=
  match d.cls with
  | 1 => 3 | 4 => 7 | 5 => 3 | 6 => 7 | 7 => if d.readOnly then 7 else 3 | _ => 1

/-- The tier policy of a descriptor exists and allows no tier that its class may not use; a STATE home is the hearth or the pantry. -/
def policyOk (p : Plan) (d : Desc) : Bool :=
  match p.tier with
  | none => d.tierPolicy == 0
  | some t => match t.policies.find? (fun q => q.index == d.tierPolicy) with
    | none => false
    | some q => (bitsOf 3 q.tiers).all (fun i => bit (classTiers d) i) && (d.cls != 1 || q.home ≤ 1)

/-- The fields of a descriptor that are base fields in use: offset and whether it is used. -/
def baseFields (d : Desc) : List (Nat × Bool × Nat) :=
  let used (i : Nat) : Bool := match d.cls with
    | 1 => planeWidth d.planes d.formats i != 0
    | 2 => i == 0 || (i == 1 && 3 ≤ d.viewFormat)
    | _ => i == 0
  ((List.range 5).map (fun i => (32 + 4 * i, used i, d.base i))) ++
    [(52, d.cls == 1 && d.masked, d.maskA), (56, d.cls == 1 && d.masked, d.maskB)]

/-- An alias entry names the hank (R161): position and lost hank. -/
def aliasUnder (p : Plan) (h : Nat) : List AliasEnt :=
  match p.replica with
  | some r => r.aliases.filter (fun a => a.aliasHank == h)
  | none => []

/-- The offsets at which a descriptor breaks a rule (R36 to R38, R45, R104, R113, R274, R276, R277, R288 to R290). DESIGN CHOICE
(log 156): the length of a region of any class without a tensor is at most 2^40, the reach of a porch offset, and a base, mask or
program field that the class does not use, like the masked flag of a class without a mask map, counts as unused bits that are
zero. -/
def descOffsets (s : State) (p : Plan) (h : Nat) (d : Desc) (raw : Bytes) : List Nat :=
  let st := s.under p
  let isState := d.cls == 1
  let isView := d.cls == 2
  let tensor := isState || isView
  let src := p.desc d.source
  let isPaged := st.paged d
  let moved := match s.hank? h with
    | some r => isState && st.inPantry d != s.inPantry r.desc && !homeMoveDone r s
    | none => false
  let on (bad : Bool) (o : Nat) : List Nat := if bad then [o] else []
  on (7 < d.cls) 0 ++ on (3 < d.state || !s.changeOk p h d || (isView && !viewStateOk p d)) 1 ++ on (15 < d.household) 2 ++
    on (16 ≤ d.flags || (d.masked && !tensor) || (d.unordered && d.cls != 5) ||
      (d.readOnly && (!(d.cls == 4 || d.cls == 7) || !privileged p d))) 4 ++
    on (if isState then 32 ≤ d.planes || d.planes % 4 != 3 else d.planes != 0) 5 ++
    on (if isState then !formatsOk d else d.formats != 0) 6 ++
    on (if isView then d.viewFormat = 0 || 4 < d.viewFormat else d.viewFormat != 0) 7 ++
    on (if isState then (match p.prog? d.program with
      | some g => g.needs &&& d.planes != g.needs || 32 < planRand p h d
      | none => true) else d.program != 0) 8 ++
    on (!policyOk p d || moved) 9 ++
    on (if isView then (match src with
      | some x => x.cls != 1 || x.rows != d.rows || x.cols != d.cols || x.count != d.count || x.masked != d.masked
      | none => true) else d.source != 0) 10 ++
    on (if tensor then (d.masked && d.rows % 4 != 0) || (d.viewFormat = 4 && d.rows % 32 != 0) else d.rows != 0) 12 ++
    on (if tensor then (d.masked && d.cols % 4 != 0) || (d.viewFormat = 3 && d.cols % 32 != 0) else d.cols != 0) 16 ++
    on (fld 20 4 raw != 0) 20 ++
    on (if tensor then d.count != d.rows * d.cols || 2 ^ 38 < d.count else 2 ^ 40 < d.count) 24 ++
    (baseFields d).flatMap (fun x => on (!x.2.1 && x.2.2 != 0) x.1) ++
    on (isPaged && d.base 0 % 16 != 0) 32 ++ on (fld 60 4 raw != 0) 60

/-- The first offending offset. -/
def firstOffset (l : List Nat) : Option Nat := l.foldl (fun m x => match m with
  | some y => some (min x y)
  | none => some x) none

/-! ### Placement (R36, R39, R275, R287) -/

/-- The spans that a hank claims: field offset, in the pantry, first and last + 1 in 4 KiB units, by channel (one row in the
pantry). -/
def claims (s : State) (d : Desc) : List (Nat × Bool × Nat × Nat × Nat) :=
  let rows (field base len : Nat) : List (Nat × Bool × Nat × Nat × Nat) :=
    (List.range s.C).map (fun c => (field, false, c, base, base + stripesOn c s.C len))
  match d.cls with
  | 1 =>
    let planes := (List.range 5).flatMap (fun i =>
      let len := d.count * planeWidth d.planes d.formats i
      if s.inPantry d then [(32 + 4 * i, true, 0, d.base i, d.base i + ceilDiv len Config.stripe)] else rows (32 + 4 * i) (d.base i) len)
    planes ++ (if d.masked then rows 52 d.maskA (maskBytes d.count) ++ rows 56 d.maskB (maskBytes d.count) else [])
  | 2 => rows 32 (d.base 0) (viewBytesOf d 0) ++ rows 36 (d.base 1) (viewBytesOf d 1)
  | _ =>
    if s.paged d then (List.range s.C).map (fun c => (32, false, c, d.base 0, d.base 0 + ceilDiv (16 * pagesOn c s.C d.count) Config.stripe))
    else rows 32 (d.base 0) d.count

/-- Spans that hold something. -/
def realClaims (s : State) (d : Desc) : List (Nat × Bool × Nat × Nat × Nat) :=
  (s.claims d).filter (fun x => x.2.2.2.1 < x.2.2.2.2)

/-- Pantry capacity of a plan. -/
def planPantry (p : Plan) : Nat :=
  match p.tier with
  | some t => t.pantryBytes
  | none => 0

/-- The home that a STATE hank leaves while it moves (R288): the descriptor of the old home, while its move is not finished, or of
the home in effect that the plan changes. -/
def leaving (s : State) (p : Plan) (h : Nat) (d : Desc) : Option (Desc × Bool) :=
  match s.hank? h with
  | none => none
  | some r =>
    match (if homeMoveDone r s then none else r.moving) with
    | some (old, _) => some (old, !s.inPantry r.desc)
    | none =>
      if d.cls = 1 && r.desc.cls = 1 && r.state = 2 && d.state = 2 && (s.under p).inPantry d != s.inPantry r.desc then
        some (r.desc, s.inPantry r.desc)
      else none

/-- The spans of the home that a hank leaves. -/
def leavingClaims (s : State) (x : Desc × Bool) : List (Nat × Bool × Nat × Nat × Nat) :=
  (List.range 5).flatMap (fun i =>
    let len := x.1.count * planeWidth x.1.planes x.1.formats i
    if x.2 then [(32 + 4 * i, true, 0, x.1.base i, x.1.base i + ceilDiv len Config.stripe)]
    else (List.range s.C).map (fun c => (32 + 4 * i, false, c, x.1.base i, x.1.base i + stripesOn c s.C len)))

/-- Two spans meet. -/
def meets (a b : Nat × Bool × Nat × Nat × Nat) : Bool :=
  a.2.1 == b.2.1 && a.2.2.1 == b.2.2.1 && a.2.2.2.1 < b.2.2.2.2 && b.2.2.2.1 < a.2.2.2.2

/-- The first field whose span does not fit or meets one that is taken; else the taken spans with those of the hank. -/
def placeSpans (cap pantry : Nat) : List (Nat × Bool × Nat × Nat × Nat) → List (Nat × Bool × Nat × Nat × Nat) →
    Except Nat (List (Nat × Bool × Nat × Nat × Nat))
  | taken, [] => .ok taken
  | taken, x :: xs =>
    if (if x.2.1 then pantry else cap) < x.2.2.2.2 * Config.stripe || taken.any (meets x) then .error x.1
    else placeSpans cap pantry (taken ++ [x]) xs

/-! ### One hank -/

/-- R161: what an alias descriptor breaks. Of the lost member's shape the plan gives the element count, and its mask digest tells
whether it is masked. -/
def aliasOffset (s : State) (p : Plan) (h : Nat) (d : Desc) (a : AliasEnt) : Option Nat :=
  match p.skein with
  | none => some 0
  | some k =>
    let n := (Layout.ofSkein k).elems a.position a.hank
    if d.cls != 1 then some 0
    else if d.state != 0 || !s.changeOk p h d then some 1
    else if d.masked != (a.maskDigest != 0) then some 4
    else if d.rows * d.cols != n then some 12
    else if d.count != n then some 24
    else if (List.range 5).any (fun i => d.base i != 0) then some 32
    else none

/-- R220: what an inherited hank breaks. -/
def inheritOffset (s : State) (p : Plan) (recoding : Bool) (d : Desc) (e : Inherit) : Option Nat :=
  match s.code.layout with
  | none => some 24
  | some l =>
    let pl := l.hanks.find? (fun x => x.1 == e.lostHank)
    let mine := s.loss.adopted.filter (fun a => a.position == e.lostPosition && a.hank == e.lostHank && a.heir == l.position)
    let elems := sumL (mine.map (fun a => elemsIn (l.elems e.lostPosition e.lostHank) a.group))
    let prog := match p.desc e.lostHank with
      | some x => x.program
      | none => d.program
    if d.cls != 1 then some 0
    else if d.state != 1 && !(recoding && d.state == 2) then some 1
    else if pl.map (fun x => x.2.1) != some d.planes then some 5
    else if pl.map (fun x => x.2.2) != some d.formats then some 6
    else if d.program != prog then some 8
    else if d.count != elems then some 24
    else none

/-- The bits of the mask map of a hank (R53). -/
def mapBits (s : State) (d : Desc) : List Bool :=
  ((s.spanRead d.maskA 0 (maskBytes d.count)).flatMap (fun b => (List.range 8).map (fun i => bit b.toNat i))).take d.count

/-- R54: the first element of the first group with three or more set bits, groups in increasing first element; of a row and a column
group that begin at one element the row group comes first (DEDUCED, log 180). -/
def maskFault (s : State) (d : Desc) : Option Nat :=
  let bits := s.mapBits d
  let at_ (r c : Nat) : Bool := bits.getD (r * d.cols + c) false
  let three (l : List Bool) : Bool := 3 ≤ (l.filter (fun b => b)).length
  let bad (e : Nat) : Bool :=
    let r := e / d.cols
    let c := e % d.cols
    (c % 4 == 0 && three ((List.range 4).map (fun i => at_ r (c + i)))) ||
      (r % 4 == 0 && three ((List.range 4).map (fun i => at_ (r + i) c)))
  (List.range d.count).find? bad

/-- R244: a restored hank goes LIVE only at the step after the one it was verified at. -/
def restoreFault (s : State) (p : Plan) (h : Nat) (d : Desc) : Bool :=
  match s.hank? h with
  | some r => r.restored && r.state == 1 && d.state == 2 && d.cls == 1 &&
      (!s.led.restoredHanks.contains h || p.frame.firstStep != s.led.restoredStep + 1)
  | none => false

/-- Everything about one hank number: its descriptor, its place, its role. A fault is reported at the first offending field, a base
that does not fit or meets another span among them (R36). A number that the plan does not use is EMPTY there: it may
be EMPTY or LOADING before (R35, R37). -/
def hankRules (s : State) (p : Plan) (b : Bytes) (h : Nat) (taken : List (Nat × Bool × Nat × Nat × Nat)) :
    Except Refuse (List (Nat × Bool × Nat × Nat × Nat)) :=
  let raw := sub (64 * h) 64 b
  match p.desc h with
  | none => if s.effState h ≤ 1 then .ok taken else .error (hankFault h 1)
  | some d =>
    if d.cls = 0 then
      match raw.findIdx? (fun x => x != 0) with
      | some o => .error (hankFault h o)
      | none => if s.effState h ≤ 1 then .ok taken else .error (hankFault h 1)
    else
      let names := aliasUnder p h
      let spans := (if d.state = 0 then [] else (s.under p).realClaims d) ++ (match s.leaving p h d with
        | some x => s.leavingClaims x
        | none => [])
      let placed := placeSpans s.straps.hearthBytes (planPantry p) taken
        (sortBy (fun a b => decide (a.1 ≤ b.1)) (spans.filter (fun x => x.2.2.2.1 < x.2.2.2.2)))
      let misplaced : List Nat := match placed with
        | .error o => [o]
        | .ok _ => []
      let broken := if names.isEmpty then s.descOffsets p h d raw else (names.findSome? (s.aliasOffset p h d)).toList
      match firstOffset (broken ++ misplaced) with
      | some o => .error (hankFault h o)
      | none =>
        if s.restoreFault p h d then .error { code := 4, index := 0xFF, demand := some h, capacity := none }
        else match placed with
          | .error o => .error (hankFault h o)
          | .ok t => .ok t

/-- The hanks in increasing number. -/
def hanksRules (s : State) (p : Plan) (b : Bytes) : Option Refuse :=
  let top := max p.descs.length (maxL (s.hanks.map (fun r => r.hank + 1)))
  let r := (List.range top).foldl (fun (acc : Except Refuse (List (Nat × Bool × Nat × Nat × Nat))) h => match acc with
    | .ok t => s.hankRules p b h t
    | .error e => .error e) (.ok [])
  match r with
  | .ok _ => none
  | .error e => some e

/-- The LANDING hanks that the bucket map names, with the bytes that Table 3.4 needs (R63). -/
def landingNeeds (p : Plan) : List (Nat × Nat) :=
  match p.bucket with
  | none => []
  | some m =>
    let n := match p.skein with
      | some k => k.n
      | none => 0
    m.sites.map (fun x => (x.slotHank, x.gradOff + (if x.final then 4 * x.gradElems else 0))) ++
      (if m.outbox.isEmpty then [] else [(m.outboxHank, maxL (m.outbox.map (fun o => o.offset * 4096 + o.bytes)))]) ++
      (if m.mirrorArea = 0 then [] else [(m.mirrorHank, n * m.mirrorArea * 4096)])

/-- A bucket map's hanks are LANDING hanks, LIVE once the plan applies, and large enough (R63). -/
def landingFault (p : Plan) : Option Refuse :=
  firstFault ((sortBy (fun a b => decide (a.1 ≤ b.1)) (landingNeeds p)).map (fun x => match p.desc x.1 with
    | none => some (hankFault x.1 0)
    | some d => firstFault [refuseIf (d.cls != 3) (hankFault x.1 0), refuseIf (d.state != 2) (hankFault x.1 1),
        refuseIf (d.count < x.2) (hankFault x.1 24)]))

/-- The mask maps of the hanks that go LIVE (R54). -/
def masksFault (s : State) (p : Plan) : Option Refuse :=
  firstFault (p.descs.zipIdx.map (fun (d, h) =>
    if d.cls = 1 && d.masked && d.state = 2 && s.effState h = 1 then (s.maskFault d).map (hankFault h) else none))

/-- The hanks that alias and inheritance entries name (R161, R220). -/
def roleFaults (s : State) (p : Plan) : Option Refuse :=
  let names : List Nat := match p.replica with
    | some r => r.aliases.map (fun (a : AliasEnt) => a.aliasHank)
    | none => []
  let inherits : List (Bool × Inherit) := match p.skein with
    | some k => k.inherits.map (fun e => (bit k.flags 1, e))
    | none => []
  firstFault (names.map (fun h => match p.desc h with
      | some d => refuseIf (d.cls != 1) (hankFault h 0)
      | none => some (hankFault h 0)) ++
    inherits.map (fun (x : Bool × Inherit) => match p.desc x.2.localHank with
      | some d => (s.inheritOffset p x.1 d x.2).map (hankFault x.2.localHank)
      | none => some (hankFault x.2.localHank 0)))

/-- Code 0x04. -/
def contentFault (s : State) (p : Plan) (ss : List Section) : Option Refuse :=
  let body := match Plan.sect ss 4 with
    | some x => x.body
    | none => []
  firstFault [s.hanksRules p body, s.roleFaults p, landingFault p, s.masksFault p]

end State

end Sys2Proof.Machine
end

