-- ==== Sys2Proof/Machine/Fit.lean ====
section
/-! DEFINITION. Admission, codes 0x10 to 0x23: bandwidth, lanes, whorl, spindles, fabric, bobbin, partitions, capacity and quotas (R28,
R29, R31, R46, R89, R118, R138, R147, R149, R151, R157, R183, R278, R279, R287, R288; Tables 1.7, 1.8, 3.11, 4.9, 4.10, 5.10, 5.11,
6.8, 10.7). -/

namespace Sys2Proof.Machine

/-! ## Charges by channel; the last element of a row is index C, the pantry (R279) -/

/-- Add two rows. -/
def rowAdd (a b : List Nat) : List Nat := List.zipWith (fun x y => x + y) a b

/-- A row of zeros. -/
def rowZero (c : Nat) : List Nat := List.replicate (c + 1) 0

/-- The sum of rows. -/
def rowSum (c : Nat) (l : List (List Nat)) : List Nat := l.foldl rowAdd (rowZero c)

/-- A row times a number. -/
def rowMul (k : Nat) (a : List Nat) : List Nat := a.map (fun x => k * x)

/-- The larger of two rows, channel by channel. -/
def rowMax (a b : List Nat) : List Nat := List.zipWith max a b

/-- Units below `x` that lie on channel `c`, when pieces of `u` units turn over the channels. -/
def onBelow (u channels c x : Nat) : Nat :=
  let q := x / u
  (q / channels + (if c < q % channels then 1 else 0)) * u + (if q % channels = c then x % u else 0)

/-- Bytes at an offset of a region, charged to the channel that holds each stripe (R39). -/
def spread (channels off n : Nat) : List Nat :=
  (List.range channels).map (fun c => onBelow Config.stripe channels c (off + n) - onBelow Config.stripe channels c off) ++ [0]

/-- Bytes charged at index C. -/
def atPantry (channels n : Nat) : List Nat := List.replicate channels 0 ++ [n]

/-- Bytes of a plane, in the pantry or spread over the channels. -/
def planeRow (channels : Nat) (pantry : Bool) (n : Nat) : List Nat := if pantry then atPantry channels n else spread channels 0 n

/-- Elements of the groups whose home channel is `c` (R92). -/
def elemsOn (channels c count : Nat) : Nat := onBelow Config.groupElems channels c count

namespace State

/-! ## Landing terms (R89, Table 3.11) -/

/-- Gather and combine charges of one bank. -/
def bankTerms (channels : Nat) (m : BucketMap) (b : Nat) : List Nat × List Nat :=
  let one (x : Site) : List Nat × List Nat :=
    let slots := x.contribs.zipIdx
    let writes := rowSum channels ((slots.filter (fun c => c.1.source < 2)).map (fun c => spread channels (x.slotOff b c.2) x.payload))
    let reads := rowSum channels (slots.map (fun c => spread channels (x.slotOff b c.2) x.payload))
    if x.remote then
      let outs := (m.outbox.filter (fun o => o.kind == 1 && o.localSite == x.id)).map (fun o => spread channels (o.offset * 4096) o.bytes)
      (rowSum channels (writes :: reads :: outs), rowZero channels)
    else if x.final then (writes, rowAdd reads (spread channels x.gradOff (4 * x.gradElems)))
    else
      let out := match m.sites.find? (fun y => y.id == x.nextSite) with
        | some y => spread channels (y.slotOff b x.nextSlot) y.payload
        | none => rowZero channels
      (writes, rowAdd reads out)
  let ts := m.sites.map one
  let leaves := (m.outbox.filter (fun o => o.kind == 0)).map (fun o => spread channels (o.offset * 4096) o.bytes)
  (rowSum channels (ts.map (fun t => t.1) ++ leaves), rowSum channels (ts.map (fun t => t.2)))

/-- gather_wr and the combine part of combine_rw: each channel takes the larger of the two banks. -/
def landingTerms (channels : Nat) (p : Plan) : List Nat × List Nat :=
  match p.bucket with
  | none => (rowZero channels, rowZero channels)
  | some m =>
    let a := bankTerms channels m 0
    let b := bankTerms channels m 1
    (rowMax a.1 b.1, rowMax a.2 b.2)

/-- mirror_in. -/
def mirrorIn (p : Plan) : Nat :=
  match p.bucket with
  | some m => m.mirrorIn
  | none => 0

/-- Mirror pieces received, per channel. -/
def mirrorRow (channels : Nat) (p : Plan) : List Nat :=
  match p.skein with
  | some k =>
    if mirrorIn p = 0 then rowZero channels
    else List.replicate channels ((ceilDiv (ceilDiv (mirrorIn p) 4096) channels + k.n) * 4096) ++ [0]
  | none => rowZero channels

/-- mirror_out: self-slot payload bytes. -/
def mirrorOut (p : Plan) : Nat :=
  match p.bucket with
  | some m => sumL ((m.sites.filter (fun x => x.hasSelf)).map (fun x => x.payload))
  | none => 0

/-! ## STATE hanks under a plan -/

/-- The STATE hanks that are LIVE in the frame, by number. -/
def liveState (p : Plan) : List (Nat × Desc) := (p.descs.zipIdx.filter (fun x => x.1.cls == 1 && x.1.state == 2)).map (fun x => (x.2, x.1))

/-- Coded bytes of a hank: E × w over its planes. -/
def codedBytes (d : Desc) : Nat := sumL ((List.range 5).map (fun i => d.count * planeWidth d.planes d.formats i))

/-- The homes at which a hank's per-frame bytes are charged: its own, and the one it leaves (R288). -/
def homesOf (s : State) (p : Plan) (h : Nat) (d : Desc) : List Bool :=
  (s.under p).inPantry d :: (match s.leaving p h d with
    | some x => [x.2]
    | none => [])

/-- The plane bytes of a hank by channel, at each home. -/
def planesRow (s : State) (p : Plan) (h : Nat) (d : Desc) : List Nat :=
  rowSum s.C ((s.homesOf p h d).flatMap (fun pantry =>
    (List.range 5).map (fun i => planeRow s.C pantry (d.count * planeWidth d.planes d.formats i))))

/-- HI and LO bytes of a hank, 4 B per element, at each home. -/
def masterRow (s : State) (p : Plan) (h : Nat) (d : Desc) : List Nat :=
  rowSum s.C ((s.homesOf p h d).map (fun pantry => rowMul 2 (planeRow s.C pantry (2 * d.count))))

/-- Bytes of a view by channel. -/
def viewRow (channels : Nat) (d : Desc) : List Nat :=
  rowAdd (spread channels 0 (viewBytesOf d 0)) (spread channels 0 (viewBytesOf d 1))

/-- The initial encode of R138 and R221 takes place for a hank under the plan. -/
def encodes (s : State) (p : Plan) (h : Nat) : Bool :=
  s.effState h == 1 || (match p.skein with
    | some k => bit k.flags 1
    | none => false)

/-- How many times a frame moves the deltas of a hank: its update, and its initial encode. -/
def deltaTimes (s : State) (p : Plan) (h : Nat) : Nat := if s.encodes p h then 2 else 1

/-- Bytes of a group's existing elements in the stripe with place (plane, j, k). -/
def stripeBytes (planes formats count g : Nat) (pl : Nat × Nat × Nat) : Nat :=
  let w := planeWidth planes formats pl.1
  let per := Config.stripe / w
  w * min per (elemsIn count g - per * pl.2.1)

/-- The ply stripes that this member's store holds for a hank: ply index and bytes that come in for it (Table 5.11). -/
def plyBytes (l : Layout) (h : Nat) : List (Nat × Nat) :=
  match l.hanks.find? (fun e => e.1 == h) with
  | none => []
  | some e =>
    (List.range l.m).flatMap (fun role =>
      let x := if role = 0 then l.position else (l.position + l.n - 1) % l.n
      (List.range (l.bands h)).flatMap (fun b =>
        (l.owners x).flatMap (fun j => match l.groupIn j h b x with
          | none => []
          | some g => (l.stripes h).zipIdx.map (fun y =>
              (l.plyIndex (l.baseLap h + l.sOf h * b + y.2) role, stripeBytes e.2.1 e.2.2 (l.elems j h) g y.1)))))

/-- delta_in of a hank by the channel of its ply stripes under R127, which is the channel of the spindles. -/
def deltaRow (s : State) (l : Layout) (h : Nat) : List Nat :=
  let ys := plyBytes l h
  (List.range s.C).map (fun c => sumL ((ys.filter (fun y => y.1 % s.C == c)).map (fun y => y.2))) ++ [0]

/-- The same bytes by where the ply stripes are homed (R287). -/
def plyRow (s : State) (p : Plan) (l : Layout) (h : Nat) (d : Desc) : List Nat :=
  let row := s.deltaRow l h
  rowSum s.C ((s.homesOf p h d).map (fun pantry => if pantry then atPantry s.C (sumL row) else row))

/-! ## The demands of a plan -/

/-- What the checks of R29 compare, by channel and in total. -/
structure Demand where
  gather : List Nat
  work : List Nat
  clocks : List Nat
  rand : List Nat
  deltaIn : List Nat
  /-- delta_in of checks 0x17 and 0x18: the update's bytes by layout, and m times the coded bytes of each hank that is encoded. -/
  deltaInAll : Nat
  deltaOut : Nat
  drain : Nat
  offIn : Nat
  offOut : Nat
  deriving DecidableEq, Repr

/-- 32 B per page of each paged hank, on the channel that holds the entry (R279). -/
def mapRow (s : State) (p : Plan) : List Nat :=
  let hs := p.descs.filter (fun d => d.cls != 0 && d.state != 0 && (s.under p).paged d)
  (List.range s.C).map (fun c => sumL (hs.map (fun d => 32 * pagesOn c s.C d.count))) ++ [0]

/-- Views that the plan moves from EMPTY to LIVE, with their sources (R46). A plan whose admission runs again while it is in effect has
moved them already: the pass of a view that is LIVE in effect is no longer charged (DESIGN CHOICE, log 181). -/
def newViews (s : State) (p : Plan) : List (Desc × Desc) :=
  (p.descs.zipIdx.filter (fun x => x.1.cls == 2 && x.1.state == 2 && s.effState x.2 == 0)).filterMap (fun x =>
    (p.desc x.1.source).map (fun src => (x.1, src)))

/-- Enabled lanes of a channel in effect (R30, R94). -/
def lanesOn (s : State) (c : Nat) : Nat := popCount 64 (s.reg 0x3010 (c + 1))

/-- Enabled spindles of a channel in effect (R149). -/
def spindlesOn (s : State) (c : Nat) : Nat := popCount 2 (s.reg 0x3020 0x01 / 4 ^ c)

/-- Bytes of OFFLOAD pages homed in the cellar now, which bound what a frame moves (R147, log 42). -/
def offloadFar (s : State) : Nat :=
  pageBytes * (s.tier.pages.filter (fun x => x.tier == 2 && (match s.hank? x.hank with
    | some r => r.desc.cls == 6
    | none => false))).length

/-- The carder's charge for one LIVE STATE hank in the work window (Table 4.9). -/
def carderRow (s : State) (p : Plan) (h : Nat) (d : Desc) : List Nat :=
  let c := s.C
  let views := liveViews p h
  let grads := match p.bucket with
    | some m => (m.sites.filter (fun x => x.final && x.targetHank == h)).map (fun x => spread c x.gradOff (4 * x.gradElems))
    | none => []
  let trailing := (views.filter (fun v => v.viewFormat == 4)).map (fun _ => s.masterRow p h d)
  let mask := if d.masked then spread c 0 (ceilDiv d.count 8) else rowZero c
  rowSum c (rowMul 2 (s.planesRow p h d) :: mask :: (grads ++ views.map (viewRow c) ++ trailing))

/-- Lane clocks of one LIVE STATE hank. -/
def clocksRow (s : State) (p : Plan) (h : Nat) (d : Desc) : List Nat :=
  let len := match p.prog? d.program with
    | some g => g.len
    | none => 0
  let cpe := max (ceilDiv len 48) (ceilDiv (planRand p h d) 4)
  let cols := ((liveViews p h).filter (fun v => v.viewFormat == 4)).length
  (List.range s.C).map (fun c => ceilDiv (elemsOn s.C c d.count) (max 1 (s.lanesOn c)) * (cpe + cols)) ++ [0]

/-- The demands of a plan. -/
def demand (s : State) (p : Plan) : Demand :=
  let c := s.C
  let f := p.frame
  let live := liveState p
  let land := landingTerms c p
  let layout := p.skein.map Layout.ofSkein
  let drainOn := bit f.flags 0
  let drainRd := if drainOn then rowSum c (live.map (fun x => s.planesRow p x.1 x.2)) else rowZero c
  let encodeRd := rowSum c ((live.filter (fun x => s.encodes p x.1)).map (fun x => s.planesRow p x.1 x.2))
  let viewOnly := rowSum c ((s.newViews p).map (fun v => rowAdd (s.masterRow p v.1.source v.2) (viewRow c v.1)))
  let reel := List.replicate c f.reelBytes ++ [0]
  let mover := List.replicate c (ceilDiv f.moverBytes c) ++ [f.moverBytes]
  let deltas := match layout with
    | some l => if l.position < l.n then live.map (fun (x : Nat × Desc) => rowMul (s.deltaTimes p x.1) (s.deltaRow l x.1)) else []
    | none => []
  let plies := match layout with
    | some l => if l.position < l.n then live.map (fun (x : Nat × Desc) => rowMul (s.deltaTimes p x.1) (s.plyRow p l x.1 x.2)) else []
    | none => []
  let m := match layout with
    | some l => l.m
    | none => 0
  let rand := (List.range c).map (fun ch => sumL (live.map (fun x => planRand p x.1 x.2 * elemsOn c ch x.2.count))) ++ [0]
  { gather := rowSum c [land.1, reel, drainRd, encodeRd, viewOnly, mover, s.mapRow p]
    work := rowSum c ([land.2, mirrorRow c p] ++ live.map (fun x => s.carderRow p x.1 x.2) ++ plies.map (rowMul 2))
    clocks := rowSum c (live.map (fun x => s.clocksRow p x.1 x.2))
    rand := rand
    deltaIn := rowSum c deltas
    deltaInAll := match layout with
      | some l => if l.position < l.n then sumL (live.map (fun (x : Nat × Desc) =>
          sumL (s.deltaRow l x.1) + (if s.encodes p x.1 then m * codedBytes x.2 else 0))) else 0
      | none => 0
    deltaOut := m * sumL (live.map (fun x => s.deltaTimes p x.1 * codedBytes x.2))
    drain := if drainOn then sumL (live.map (fun x => codedBytes x.2)) else 0
    offIn := min f.offloadBytes s.offloadFar
    offOut := min (4 * f.offloadBytes) s.offloadFar }

/-- Check a row against one capacity per channel, both scaled by `k`; the demand of the refusal stays unscaled. -/
def rowCheck (code k : Nat) (row caps : List Nat) : Option Refuse :=
  firstFault ((row.zip caps).zipIdx.map (fun (x, i) =>
    refuseIf (x.2 < k * x.1) { code := code, index := i, demand := some x.1, capacity := some (x.2 / k) }))

/-- A check of one way; the demand is split evenly, so way 0 is the first to fail. Figures are scaled by 64,000. The rule fixes the
floor of the capacity; a demand that is no whole number is reported rounded up (DESIGN CHOICE, log 157). -/
def wayCheck (code demand cap : Nat) : Option Refuse :=
  refuseIf (cap < demand) { code := code, index := 0, demand := some (ceilDiv demand 64000), capacity := some (cap / 64000) }

/-- Half, rounded up. -/
def half (x : Nat) : Nat := (x + 1) / 2

/-- mv of R29: the plan has a paged hank or a mover budget. -/
def moverShare (s : State) (p : Plan) : Nat :=
  if (s.under p).planMoves p then 1 else 0

/-- Checks 0x10 to 0x19 (R29) under a declared clock `f`. -/
def bandFault (s : State) (f : Nat) (p : Plan) : Option Refuse :=
  let c := s.C
  let fr := p.frame
  let w := fr.pMin - fr.tRc
  let x := s.demand p
  let rows (hearth pantry : Nat) : List Nat := List.replicate c hearth ++ (if p.tier.isSome then [pantry] else [])
  let pg := match p.tier with
    | some t => (t.pantryG, t.pantryW)
    | none => (0, 0)
  let cap (t : Nat) : Nat := 256 * 63 * f * t
  let spill := 64000 * half x.drain - cap fr.tRc
  let off := 4 * ceilDiv fr.offloadBytes (128 * c)
  let beats := (x.deltaIn.take c).map (fun b => ceilDiv b 128 + off)
  firstFault [
    rowCheck 0x10 1 x.gather (rows (fr.shareG * fr.tRc) (pg.1 * fr.tRc)),
    rowCheck 0x11 1 x.work (rows (fr.shareW * w) (pg.2 * w)),
    rowCheck 0x12 1000 (x.clocks.take c) (List.replicate c (f * w)),
    rowCheck 0x13 1000 ((x.rand.take c).map (fun r => fr.whorlBytes + r)) (List.replicate c (256 * f * fr.pMin)),
    rowCheck 0x14 1000 beats ((List.range c).map (fun ch => s.spindlesOn ch * f * fr.pMin)),
    wayCheck 0x15 (64000 * half (x.deltaOut + mirrorOut p) + spill) (cap w),
    wayCheck 0x16 (64000 * half (x.deltaOut + mirrorOut p + x.drain + fr.moverBytes + x.offOut)) (cap fr.pMin),
    wayCheck 0x17 (64000 * half (x.deltaInAll + mirrorIn p)) (cap w),
    wayCheck 0x18 (64000 * half (x.deltaInAll + mirrorIn p + fr.moverBytes + x.offIn)) (cap fr.pMin),
    match p.skein with
    | none => none
    | some k =>
      let room := 1048576 - 65536 * s.moverShare p
      let need := fr.ackBound * 2 * 256 * 63 * f
      refuseIf (room * k.m * c * 64000 < need)
        { code := 0x19, index := 0, demand := some (ceilDiv need (k.m * c * 64000)), capacity := some room }]

/-! ## Partitions (R31, Tables 1.8, 4.10, 5.10, 6.8, 10.7) -/

/-- Minimum entries of each engine's request table. -/
def requestMinima (s : State) (p : Plan) : List Nat :=
  let far := p.descs.any (fun d => d.cls == 6 && (s.under p).allows d 2)
  [32, 128 + 128 + (if far then 16 else 0), 64, 32, 0, 0]

/-- Checks 0x20 and 0x21. -/
def shareFault (s : State) (p : Plan) : Option Refuse :=
  let ctx := sumL (fabricContexts p) + s.reg 0x1150 0x01
  firstFault (refuseIf (256 < ctx) { code := 0x20, index := 0xFF, demand := some ctx, capacity := some 256 } ::
    (s.requestMinima p).zipIdx.map (fun (n, e) =>
      refuseIf (512 < n) { code := 0x21, index := e, demand := some n, capacity := some 512 }))

/-! ## Capacity and quotas -/

/-- Bytes of the spans that a plan claims, by channel. -/
def claimRow (s : State) (spans : List (Nat × Bool × Nat × Nat × Nat)) : List Nat :=
  let size (x : Nat × Bool × Nat × Nat × Nat) : Nat := (x.2.2.2.2 - x.2.2.2.1) * Config.stripe
  (List.range s.C).map (fun c => sumL ((spans.filter (fun x => !x.2.1 && x.2.2.1 == c)).map size)) ++
    [sumL ((spans.filter (fun x => x.2.1)).map size)]

/-- Ply stripes that a layout keeps in the pantry under a plan (R287). -/
def pantryPlyStripes (s : State) (p : Plan) (l : Layout) : Nat :=
  sumL ((l.hanks.filter (fun e => match p.desc e.1 with
    | some d => (s.homesOf p e.1 d).any (fun x => x)
    | none => false)).map (fun e => l.m * l.sOf e.1 * l.bands e.1))

/-- The ply store of a layout in the hearth: it keeps its size under R127 whatever lies in the pantry (R287). -/
def hearthStore (s : State) (x : Layout) : List Nat :=
  (List.range s.C).map (fun c => stripesOn c s.C (x.plyStripes * Config.stripe) * Config.stripe) ++ [0]

/-- The old store that a re-coding plan keeps beside the new one, at index C the part in the pantry (R221, R222): the store in effect
when the plan is loaded, the one kept once it is in effect. -/
def oldStoreRow (s : State) (p : Plan) (k : SkeinSec) : List Nat :=
  if !bit k.flags 1 then rowZero s.C
  else if s.planEff.map (fun q => q.digest) == some p.digest then
    match s.code.oldLayout with
    | some o => if o.n ≤ o.position then rowZero s.C else rowAdd (s.hearthStore o) (atPantry s.C s.oldPlies.2)
    | none => rowZero s.C
  else
    match s.code.layout, s.planEff with
    | some o, some q =>
      if o.n ≤ o.position then rowZero s.C
      else rowAdd (s.hearthStore o) (atPantry s.C (s.pantryPlyStripes q o * Config.stripe))
    | _, _ => rowZero s.C

/-- Ply store and adoption reserve, and the store that a re-coding plan keeps. -/
def storeRow (s : State) (p : Plan) : List Nat :=
  match p.skein with
  | none => rowZero s.C
  | some k =>
    let l := Layout.ofSkein k
    if k.n ≤ k.position then rowZero s.C
    else
      let reserve := List.replicate s.C (ceilDiv (l.reserveStripes k.position) s.C * 4096) ++ [s.pantryPlyStripes p l * Config.stripe]
      rowSum s.C [s.hearthStore l, reserve, s.oldStoreRow p k]

/-- Every span that a plan's hanks claim, with the homes they leave. -/
def allClaims (s : State) (p : Plan) : List (Nat × Desc × List (Nat × Bool × Nat × Nat × Nat)) :=
  p.descs.zipIdx.filterMap (fun (d, h) =>
    if d.cls = 0 || d.state = 0 then none
    else some (h, d, (s.under p).realClaims d ++ (match s.leaving p h d with
      | some x => s.leavingClaims x
      | none => [])))

/-- Check 0x22. -/
def capacityFault (s : State) (p : Plan) : Option Refuse :=
  let row := rowAdd (s.claimRow ((s.allClaims p).flatMap (fun x => x.2.2))) (s.storeRow p)
  rowCheck 0x22 1 row (List.replicate s.C s.straps.hearthBytes ++ (if p.tier.isSome then [planPantry p] else []))

/-- Static bytes of a household in the hearth and the pantry (R278). -/
def staticUse (s : State) (p : Plan) (hh : Nat) : Nat × Nat :=
  let spans := ((s.allClaims p).filter (fun x => x.2.1.household == hh)).flatMap (fun x => x.2.2)
  let row := s.claimRow spans
  let row := if framedHousehold p = hh then rowAdd row (s.storeRow p) else row
  (sumL (row.take s.C), natAt row s.C)

/-- Check 0x23: households, then tiers; the refusal with the tier. -/
def quotaFault (s : State) (p : Plan) : Option (Refuse × Nat) :=
  match p.tier with
  | none => none
  | some t =>
    let hs := sortBy (fun (a b : Household) => decide (a.id ≤ b.id)) t.households
    hs.findSome? (fun x =>
      let u := s.staticUse p x.id
      if natAt x.quotas 0 < u.1 then
        some ({ code := 0x23, index := x.id, demand := some u.1, capacity := some (natAt x.quotas 0) }, 0)
      else if natAt x.quotas 1 < u.2 then
        some ({ code := 0x23, index := x.id, demand := some u.2, capacity := some (natAt x.quotas 1) }, 1)
      else none)

/-- Checks 0x10 to 0x23 under a declared clock: the refusal and the tier of a 0x23. -/
def fitFault (s : State) (f : Nat) (p : Plan) : Option (Refuse × Nat) :=
  match firstFault [s.bandFault f p, s.shareFault p, s.capacityFault p] with
  | some r => some (r, 0)
  | none => s.quotaFault p

end State

end Sys2Proof.Machine
end

