-- ==== Sys2Proof/Machine/Admission.lean ====
section
/-! DEFINITION. Loading a plan and its result (R27 to R30, R247, Table 1.11): the load, its admission, and the admission of the plan in
effect run again. -/

namespace Sys2Proof.Machine

namespace State

/-- Replace the admission result. -/
def setAdm (a : AdmSt) (s : State) : State := { s with adm := a }

/-- A load starts: the result entries describe it, and a load before it is abandoned (R27). `ctx` is what a context brings beside its
plan (R247). -/
def startLoad (bytes : Bytes) (ctx : Option (Nat × Nat × Bytes)) (s : State) : State :=
  s.setAdm { s.adm with
    state := 1, code := 0, index := 0xFF, demand := 0, capacity := 0, digest := planDigest bytes, loading := some bytes,
    context := ctx }

/-- A figure of a refusal; where the manual states none, a free value (log 12). -/
def figure (s : State) (i : Nat) : Option Nat → Nat
  | some n => n
  | none => Config.unstatedFigure (s.free + i)

/-- Write a refusal to the result entries (R28). -/
def writeRefusal (r : Refuse) (s : State) : State :=
  State.spendFree 2 (s.setAdm { s.adm with
    code := r.code, index := r.index, demand := s.figure 0 r.demand, capacity := s.figure 1 r.capacity })

/-- A load is refused: nothing else changes (R27, R247). -/
def refuseLoad (r : Refuse) (tier : Nat) (s : State) : State :=
  let wasContext := s.adm.context.isSome
  let s := s.writeRefusal r
  let s := s.setAdm { s.adm with
    state := 3, digest := s.adm.loading.elim s.adm.digest planDigest, loading := none, context := none
    tier := if r.code = 0x23 then tier else s.adm.tier }
  if wasContext then State.raise 4 0x2650 0x02 r.code (s.bump 0x5070 0x0A 1)
  else State.raise 4 0x1220 0x01 r.code (s.bump 0x5000 0x01 1)

/-- Admission of a plan under a declared clock, its checks in the order of Table 1.7 (R28): the plan, or the refusal and the tier of a
0x23. -/
def judge (s : State) (f : Nat) (bytes : Bytes) : Except (Refuse × Nat) Plan :=
  match Plan.read bytes with
  | .error r => .error (r, 0)
  | .ok (p, ss) =>
    match firstFault [s.staleFault p, s.structFault p ss, s.contentFault p ss] with
    | some r => .error (r, 0)
    | none =>
      match s.fitFault f p with
      | some r => .error r
      | none => .ok p

/-- Admission of the load finishes: the plan becomes the pending plan, or is refused; either raises an event (Table 12.20), and the
result entries describe that load (R27). -/
def finishAdmission (s : State) : State :=
  match s.adm.loading with
  | none => s
  | some bytes =>
    match s.judge (s.reg 0x1200 0x08) bytes with
    | .error (r, tier) => s.refuseLoad r tier
    | .ok p =>
      let s := s.setAdm { s.adm with
        state := 2, code := 0, index := 0xFF, demand := 0, capacity := 0, digest := planDigest bytes, loading := none, context := none,
        pendContext := s.adm.context }
      State.changed 0x1210 0x01 2 { s with planPend := some p }

/-- The declared clock under which the plan in effect and the pending plan still fit (R30, Table 14.4). -/
def clockFits (s : State) (f : Nat) : Bool :=
  let ok (o : Option Plan) : Bool := match o with
    | some p => (s.fitFault f p).isNone
    | none => true
  ok s.planEff && ok s.planPend

/-- After a spindle or lane is retired, the admission of the plan in effect runs again; the plan goes on (R30). -/
def readmit (s : State) : State :=
  match s.planEff with
  | none => s
  | some p =>
    match s.fitFault (s.reg 0x1200 0x08) p with
    | none => s
    | some (r, tier) =>
      let s := s.writeRefusal r
      let s := s.setAdm { s.adm with tier := if r.code = 0x23 then tier else s.adm.tier, digest := p.digest }
      s.countNote 0x5000 0x05 s.fr.step

/-! ## Context restore (R247) -/

/-- The layout of a block context (Table 8.10). -/
def contextLayout (b : Bytes) : Bool :=
  64 ≤ b.length && allZero (sub 38 26 b) && b.length == 64 + 16 * fld 37 1 b + pad8 (fld 32 4 b)

/-- The plan of a context. -/
def contextPlan (b : Bytes) : Bytes := sub (64 + 16 * fld 37 1 b) (fld 32 4 b) b

/-- A context is refused: it changes nothing, a load in progress goes on (R247, Table 8.13). -/
def refuseContext (plan : Bytes) (r : Refuse) (tier : Nat) (s : State) : State :=
  let s := s.writeRefusal r
  let a := s.adm
  let s := s.setAdm { a with
    state := if a.loading.isSome then a.state else 3, digest := if a.loading.isSome then a.digest else planDigest plan,
    tier := if r.code = 0x23 then tier else a.tier }
  State.raise 4 0x2650 0x02 r.code (s.bump 0x5070 0x0A 1)

/-- A written context: refused for another table set or where its plan would be refused, else its plan goes to admission. -/
def contextWrite (b : Bytes) (s : State) : State :=
  let plan := contextPlan b
  if fld 24 8 b != tableDigest (tableBytes s.whorl.tables) then
    State.refuseContext plan { code := Config.unstatedFigure s.free % 256, index := 0xFF, demand := none, capacity := none } 0
      (s.spendFree 1)
  else
    match s.judge (s.reg 0x1200 0x08) plan with
    | .error (r, tier) => s.refuseContext plan r tier
    | .ok _ => s.startLoad plan (some (fld 4 4 b, fld 16 8 b, sub 64 (16 * fld 37 1 b) b))

/-- The plan that came with a context applies: seeds and the first record's prev digest (R247). -/
def contextApplies (s : State) : State :=
  match s.adm.pendContext with
  | none => s
  | some (_, digest, seeds) =>
    let entries := (pieces 16 seeds).map (fun e => ({ hank := fld 0 2 e, use := fld 2 2 e, seed := fld 8 8 e } : SeedEnt))
    { s with whorl := { s.whorl with seeds := entries }, led := { s.led with prevOverride := some digest } }

/-- The epoch that came with a context takes effect after its plan's: it is at or above that one (R247, log 164). -/
def contextEpoch (s : State) : State :=
  match s.adm.pendContext with
  | none => s
  | some (epoch, _, _) =>
    let s := s.setAdm { s.adm with pendContext := none }
    if s.mem.skeinId = 0xFFFF then s else { s with mem := { s.mem with epoch := max s.mem.epoch epoch } }

end State

end Sys2Proof.Machine
end

