-- ==== Sys2Proof/Machine/Dict.lean ====
section
/-! DEFINITION. Reading the object dictionary (R9, R404 to R407, R413 to R417 and the entry tables of every chapter): what each entry
reads. -/

namespace Sys2Proof.Machine

/-- A truth value as a BOOL. -/
def flagOf (b : Bool) : Nat := if b then 1 else 0

/-- A list of bit positions as a map. -/
def mapOf (l : List Nat) : Nat := l.foldl setBit 0

/-- A descriptor's bytes (Table 2.2). -/
def descBytes (d : Desc) : Bytes :=
  toLE 1 d.cls ++ toLE 1 d.state ++ toLE 1 d.household ++ toLE 1 d.job ++ toLE 1 d.flags ++ toLE 1 d.planes ++ toLE 1 d.formats ++
    toLE 1 d.viewFormat ++ toLE 1 d.program ++ toLE 1 d.tierPolicy ++ toLE 2 d.source ++ toLE 4 d.rows ++ toLE 4 d.cols ++ zeros 4 ++
    toLE 8 d.count ++ (List.range 5).flatMap (fun i => toLE 4 (d.base i)) ++ toLE 4 d.maskA ++ toLE 4 d.maskB ++ zeros 4

/-- An exclusion notice's bytes (Table 3.7). -/
def noticeBytes (n : Notice) : Bytes :=
  toLE 4 n.epoch ++ toLE 2 n.entries.length ++ zeros 2 ++ n.entries.flatMap (fun e => toLE 2 e.1 ++ toLE 2 e.2)

/-- A frame-trace entry's bytes (R386). -/
def traceBytes (t : TraceEnt) : Bytes :=
  toLE 8 t.step ++ toLE 8 t.tick ++ toLE 8 t.rcOut ++ toLE 8 t.rcIn ++ toLE 8 t.lastCommit ++ toLE 8 t.sealedAt ++
    toLE 8 t.threshold ++ toLE 4 t.epoch ++ toLE 4 (flagOf t.late)

/-- A subscriber's bytes (R386). -/
def subscriberBytes (x : Subscriber) : Bytes := toLE 2 x.node ++ toLE 1 x.mask ++ zeros 1 ++ toLE 4 x.job

/-- A twist context's record (Table 11.9). -/
def twistBytes (x : TwistCtx) : Bytes :=
  toLE 1 x.width ++ toLE 1 x.flags ++ zeros 6 ++ toLE 8 x.poly ++ toLE 8 x.init ++ toLE 8 x.xorout ++ toLE 8 x.reg

/-- The inbound credits that Lomaz grants, by class: header and unit (Table 11.5). -/
def inboundGrant : List (Nat × Nat) := [(64, 512), (64, 512), (16, 64)]

/-- The bytes of a value in the width of a type (Table 14.2). -/
def valueBytes (ty : EntryTy) : Val → Bytes
  | .num n => toLE ty.bytes n
  | .blob b => b

/-- A counter index (R416, R417). -/
def counterIndex (idx : Nat) : Bool := indexExists idx && 0x5000 ≤ idx && idx ≤ 0x50D0

namespace State

/-! ## Identity, step and frame -/

/-- Entries 0x1000 (Table 14.6). -/
def readIdentity (b : Build) (subi : Nat) : Nat :=
  match subi with
  | 1 => Config.blockVersion
  | 2 => b.channels
  | 3 => b.lanes
  | 4 => b.spindles
  | 5 => b.generators
  | 6 => b.sramKiB
  | 7 => flagOf b.wordCode
  | 8 => 4096
  | 0x0A => Config.blockVersion
  | 0x0B => arithDigest
  | _ => 0

/-- The phase (0x1200.03). -/
def phaseNo (s : State) : Nat :=
  if s.fenced then 4
  else match s.fr.phase with
    | .none => 0
    | .gather => 1
    | .update => 2
    | .sealed => 3

/-- A figure of the frame declaration in effect; 0 without a plan (R415). -/
def declared (s : State) (f : FrameDecl → Nat) : Nat :=
  match s.planEff with
  | some p => f p.frame
  | none => 0

/-- Entries 0x1200 but 0x1200.08. -/
def readFrame (s : State) (subi : Nat) : Nat :=
  match subi with
  | 1 => s.fr.step
  | 2 => s.fr.htSample
  | 3 => s.phaseNo
  | 4 => s.fr.lastSealed
  | 5 => s.declared (fun f => f.pMin)
  | 6 => s.declared (fun f => f.tRc)
  | 7 => s.declared (fun f => f.ackBound)
  | _ => s.reg 0x1200 subi

/-- Entries 0x1210. -/
def readAdm (a : AdmSt) (subi : Nat) : Nat :=
  match subi with
  | 1 => a.state
  | 2 => a.code
  | 3 => a.index
  | 4 => a.demand
  | 5 => a.capacity
  | 6 => a.digest
  | _ => 0

/-- Entries 0x1220. -/
def readPlan (s : State) (subi : Nat) : Nat :=
  match subi, s.planEff, s.planPend with
  | 2, some p, _ => p.digest
  | 3, _, some p => p.digest
  | 4, _, some p => p.frame.firstStep
  | _, _, _ => 0

/-! ## Fabric -/

/-- Entries 0x1100. -/
def readNode (s : State) (subi : Nat) : Nat :=
  match subi, s.planEff with
  | 1, _ => s.node
  | 2, _ => s.fx.incarnation
  | 3, some p => p.jobTag
  | 4, some p => p.jobs.length
  | _, _ => 0

/-- 0x1110.03. -/
def keyState (s : State) : Nat := if s.fx.nextKey.isSome then 2 else flagOf s.fx.sessionKey.isSome

/-- 0x1140.01: the credits held, by way, direction (outbound first, log 43) and class. -/
def creditBytes (s : State) : Bytes :=
  (List.range 2).flatMap (fun way =>
    (List.range 3).flatMap (fun c => let x := s.creditAt way c; toLE 2 x.hdr ++ toLE 2 x.unit) ++
      inboundGrant.flatMap (fun g => if s.sys.lzReset then zeros 4 else toLE 2 g.1 ++ toLE 2 g.2))

/-- Entries 0x2700 + c (Table 11.11). -/
def readTwist (s : State) (c subi : Nat) : Nat :=
  let x := s.twistAt c
  match subi with
  | 1 => s.twistOwner c
  | 2 => x.width
  | 3 => x.poly
  | 4 => x.init
  | 5 => x.flags
  | 6 => x.xorout
  | 7 => x.reg
  | 0x0A => twistCheck x
  | _ => 0

/-! ## Membership, losses, coding -/

/-- Entries 0x2000. -/
def readMember (m : MemSt) (subi : Nat) : Nat :=
  match subi with
  | 1 => m.skeinId
  | 2 => m.state
  | 3 => m.epoch
  | 4 => m.named
  | 5 => m.lintel
  | 6 => m.suspected
  | 7 => m.confirmed
  | 8 => m.fenceReason
  | 9 => m.heldState.getD 0xFF
  | 0x0A => m.digest
  | _ => 0

/-- Positions whose votes for the pending proposal are held (0x2010.03). -/
def votesHeld (s : State) : Nat :=
  match s.mem.pending with
  | some p => mapOf (s.votersOf p.raw)
  | none => 0

/-- A discovery-table entry (0x2020.01). -/
def discBytes (d : Disc) : Bytes :=
  toLE 2 d.node ++ toLE 1 d.state ++ toLE 1 d.source ++ toLE 4 d.job ++ toLE 4 d.epoch ++ zeros 4

/-- Adoption state (0x2040.01). -/
def adoptState (s : State) : Nat := if s.loss.frayed then 2 else flagOf (s.loss.lost != 0)

/-- Adopted groups that this member holds. -/
def adoptedHere (s : State) : List AdoptRt := s.loss.adopted.filter (fun a => a.heir == s.myPos)

/-- Entries 0x2040. -/
def readLoss (s : State) (subi : Nat) : Nat :=
  match subi with
  | 1 => s.adoptState
  | 2 => s.loss.lost
  | 3 => match s.code.layout with
    | some l => l.reserveStripes l.position
    | none => 0
  | 4 => s.adoptedHere.length
  | 5 => (s.adoptedHere.filter (fun a => a.atStep.isSome)).length
  | 6 => s.loss.lastAdopted
  | _ => 0

/-- Entries 0x2050. -/
def readEvac (s : State) (subi : Nat) : Nat :=
  match subi with
  | 3 => s.loss.evac
  | 4 => s.loss.evacDoneStep
  | 5 => s.loss.spareState
  | 6 => s.loss.spareStep
  | _ => s.reg 0x2050 subi

/-- Entries 0x2060. -/
def readDrain (s : State) (subi : Nat) : Nat :=
  match subi with
  | 3 => s.loss.drains
  | 4 => s.loss.drainImageStep
  | 5 => s.loss.drainDuration
  | 6 => s.loss.suggested
  | 7 => s.loss.mtbl
  | _ => s.reg 0x2060 subi

/-- Entries 0x2100. -/
def readCoding (s : State) (subi : Nat) : Nat :=
  match subi, s.code.layout with
  | 1, some l => l.n
  | 2, some l => l.m
  | 3, some l => l.position
  | 4, some l => l.laps
  | 5, some l => l.plyStripes
  | 6, some l => l.tagCount
  | 7, _ => 1048576 * s.C
  | _, _ => 0

/-! ## Landing and carder -/

/-- Outbox entries of the plan in effect. -/
def outboxCount (s : State) : Nat :=
  match s.bucketMap with
  | some b => b.outbox.length
  | none => 0

/-- Entries 0x2220. -/
def readSites (l : LandSt) (subi : Nat) : Nat :=
  match subi with
  | 1 => l.early
  | 2 => l.heldSites
  | 3 => l.revised
  | 4 => l.closed
  | _ => 0

/-- The program of a slot under the plan in effect, built-ins included (R105); none for an empty slot. -/
def slotProg (s : State) (p : Nat) : Option Prog := s.planEff.bind (fun x => x.prog? p)

/-- The record of a program without its padding, as loaded. -/
def progBytes (g : Prog) : Bytes := g.raw

/-- Entries 0x2300 + p. -/
def readProg (s : State) (p subi : Nat) : Nat :=
  match subi, s.slotProg p with
  | 2, some g => g.len
  | 3, some g => programDigest (progBytes g)
  | 4, some _ => maxL ((s.hanks.filter (fun r => r.desc.cls == 1 && r.desc.program == p)).map (fun r => s.hankRand r))
  | 5, some g => flagOf g.builtin
  | _, _ => if 0x10 ≤ subi then s.reg (0x2300 + p) subi else 0

/-! ## Ledger -/

/-- A record as it is returned: its bytes and, with bit 3 set, its HMAC (R240). -/
def recordOut (r : RecRt) : Bytes := r.body ++ r.mac

/-- The newest record (R239). -/
def newestRecord (s : State) : Option RecRt := s.led.ring.getLast?

/-- The record selected by 0x2610.02 and 0x2610.07 (R239). -/
def selectedRecord (s : State) : Option RecRt :=
  let who := if s.reg 0x2610 0x07 = 0xFFFF then s.node else s.reg 0x2610 0x07
  s.led.ring.reverse.find? (fun r => r.step == s.reg 0x2610 0x02 && r.subject == who)

/-- 0x2610.06: the newest notice of each position, empty while none is held. -/
def noticesHeld (s : State) : Bytes :=
  if s.led.notices.isEmpty then [] else (List.range 16).flatMap (fun p =>
    match s.led.notices.find? (fun x => x.1 == p) with
    | some x => toLE 8 x.2.1 ++ toLE 8 x.2.2.1
    | none => zeros 16)

/-- Entries 0x2610. -/
def readRecords (s : State) (subi : Nat) : Nat :=
  match subi, s.newestRecord with
  | 4, some r => r.step
  | 5, some r => r.digest
  | 4, none => 0
  | 5, none => 0
  | _, _ => s.reg 0x2610 subi

/-! ## Hanks (R414) -/

/-- Pages of a hank homed in a tier. -/
def pagesHomed (s : State) (h tier : Nat) : Nat := (s.tier.pages.filter (fun x => x.hank == h && x.tier == tier)).length

/-- Staged state of a hank (subindex 0x13). -/
def stagedState (s : State) (h : Nat) : Nat :=
  match (s.hank? h).bind (fun r => r.heldState), s.planPend with
  | some n, _ => n
  | none, none => 0xFF
  | none, some p =>
    match p.desc h with
    | some d => if d.cls = 0 && (s.hank? h).isNone then 0xFF else d.state
    | none => if (s.hank? h).isNone then 0xFF else 0

/-- Role of a hank (subindex 0x17). -/
def roleOf (s : State) (h : Nat) : Nat :=
  if s.led.restoredHanks.contains h then 3
  else match s.planEff with
    | none => 0
    | some p =>
      if !(aliasUnder p h).isEmpty then 1
      else match p.skein with
        | some k => if k.inherits.any (fun e => e.localHank == h) then 2 else 0
        | none => 0

/-- Scalar subindices of a descriptor entry (Table 14.5). -/
def readHank (s : State) (h subi : Nat) : Nat :=
  if subi = 0x13 then s.stagedState h
  else match s.hank? h with
    | none => 0
    | some r =>
      let d := r.desc
      match subi with
      | 1 => d.cls
      | 2 => r.state
      | 3 => d.household
      | 4 => d.job
      | 5 => d.flags
      | 6 => d.planes
      | 7 => d.formats
      | 8 => d.viewFormat
      | 9 => d.program
      | 0x0A => d.tierPolicy
      | 0x0B => d.source
      | 0x0C => d.rows
      | 0x0D => d.cols
      | 0x0E => d.count
      | 0x11 => r.maskDigest
      | 0x12 => r.digestSealed
      | 0x14 => s.pagesHomed h 0
      | 0x15 => s.pagesHomed h 1
      | 0x16 => s.pagesHomed h 2
      | 0x17 => s.roleOf h
      | _ => 0

/-! ## Housekeeper -/

/-- 0x3000.01. -/
def hkNo (s : State) : Nat :=
  match s.sys.hk with
  | .starting => 0
  | .running => 1
  | .restarting => 2
  | .recovery => 3

/-- Entries 0x3050. -/
def readHealth (s : State) (subi : Nat) : Nat :=
  match subi with
  | 1 => s.house.health.score
  | 4 => s.house.health.levels
  | 6 => s.house.health.stage
  | _ => s.reg 0x3050 subi

/-- Entries 0x3070. -/
def readLog (s : State) (subi : Nat) : Nat :=
  match subi with
  | 1 => s.house.nextSeq - 1
  | 5 => match s.house.events.head? with
    | some e => e.seq
    | none => 0
  | _ => if 0x10 ≤ subi && subi ≤ 0x17 then natAt s.house.acked (subi - 0x10) else s.reg 0x3070 subi

/-- Up to 32 events from the selected seq on (0x3070.03). -/
def selectedEvents (s : State) : List Event :=
  (s.house.events.filter (fun e => decide (s.reg 0x3070 0x02 ≤ e.seq))).take 32

/-- Banks with both spare rows in use (R380). -/
def fullBanks (s : State) : Nat :=
  let banks := s.scrub.retired.map (fun r => r.1)
  ((nub banks).filter (fun b => 2 ≤ (banks.filter (fun x => x == b)).length)).length

/-- Entries 0x3090. -/
def readRows (s : State) (subi : Nat) : Nat :=
  match subi with
  | 2 => s.scrub.retired.length
  | 3 => s.fullBanks
  | 5 => s.scrub.passes
  | _ => s.reg 0x3090 subi

/-- The watch list (0x3090.06). -/
def watchBytes (s : State) : Bytes :=
  s.scrub.watch.flatMap (fun w => toLE 2 w.bank ++ toLE 2 w.row ++ toLE 2 w.corrected ++ toLE 1 w.uncorrectable ++
    toLE 1 (flagOf (s.scrub.retired.contains (w.bank, w.row)) + 2 * flagOf w.onSpare))

/-- A firmware slot. -/
def fwSlot (s : State) (i : Nat) : FwSlot := s.house.fw.slots.getD i resetSlot

/-- Entries 0x3100. -/
def readFw (s : State) (subi : Nat) : Nat :=
  let f := s.house.fw
  match subi with
  | 2 => f.load
  | 3 => f.detail
  | 5 => f.inEffect
  | 6 => f.minimum
  | 9 => f.runningVersion
  | _ => s.reg 0x3100 subi

/-- 0x3110.03. -/
def jutusNo (s : State) : Nat := if s.house.jutus.lockedOut then 2 else flagOf s.house.jutus.unlocked

/-- Entries 0x3200. -/
def readJournal (s : State) (subi : Nat) : Nat :=
  match subi with
  | 1 => s.house.journal.state
  | 2 => s.house.journal.used
  | 3 => s.streamBytes
  | 4 => s.house.journal.seq
  | _ => 0

/-! ## Staged-value view (R413) -/

/-- What a path wrote to 0x10FB.01; JTAG reads the copy of the register port. -/
def viewWritten (s : State) (path : Path) : Option Nat :=
  let p := if path = .jtag then .regPort else path
  (s.house.views.find? (fun x => x.1 == p)).map (fun x => x.2)

/-- The address that a path views. -/
def viewTarget (s : State) (path : Path) : Nat := (s.viewWritten path).getD 0

/-- The value that the staging store holds for an entry; the staged table set has banks of its own (R255). -/
def stagedValue (s : State) (idx subi : Nat) : Option Val :=
  if idx = 0x2400 then s.whorl.stagedTables.map (fun t => Val.blob (tableBytes t)) else s.stagedAt idx subi

/-- 0x10FB.02: the four values of R413 once the path has written 0x10FB.01, the default before. -/
def viewFlag (s : State) (path : Path) : Nat :=
  match s.viewWritten path with
  | none => 0
  | some a =>
    match entry? s.straps.build (addrIdx a) (addrSub a) with
    | none => 3
    | some r => if r.acc != .rs then 2 else flagOf (s.stagedValue (addrIdx a) (addrSub a)).isSome

/-- 0x10FB.03. -/
def viewValue (s : State) (path : Path) : Bytes :=
  let a := s.viewTarget path
  match entry? s.straps.build (addrIdx a) (addrSub a), s.stagedValue (addrIdx a) (addrSub a) with
  | some r, some v => if r.acc = .rs then valueBytes r.ty v else []
  | _, _ => []

/-! ## Counters (R416, R417) -/

/-- The counters of an index as consecutive U64 values. -/
def counterBlock (s : State) (idx : Nat) : Bytes :=
  (List.range (highSub s.straps.build idx)).flatMap (fun i => toLE 8 (s.ctr idx (i + 1)))

/-- Clear the counters of an index. -/
def clearBlock (idx : Nat) (s : State) : State :=
  forEach (List.range (highSub s.straps.build idx)) (fun i st => st.clearCtr idx (i + 1)) s

/-! ## One entry -/

/-- The value in effect of a scalar entry that exists; a write-only entry reads zero (Table 0.3). -/
def readScalar (s : State) (path : Path) (idx subi : Nat) : Nat :=
  if idx = 0x1000 then readIdentity s.straps.build subi
  else if idx = 0x10FB then (if subi = 1 then s.viewTarget path else s.viewFlag path)
  else if idx = 0x10FC then
    (if subi = 1 then s.house.refusedAt else if subi = 2 then s.house.refusedWhy else s.house.refusedPath)
  else if idx = 0x10FD then
    (if subi = 3 then fld (s.reg 0x10FD 0x02) 4 (s.house.xfer.take s.house.xferLen) else if subi = 5 then s.house.xferLen
     else if subi = 4 then 0 else s.reg 0x10FD subi)
  else if idx = 0x10FE then (if subi = 1 then s.house.latch else s.reg 0x10FE subi)
  else if idx = 0x1100 then s.readNode subi
  else if idx = 0x1110 then s.keyState
  else if idx = 0x1120 then (if subi = 1 then s.pins.length + s.dynamicCtx.length else s.pins.length)
  else if idx = 0x1200 then s.readFrame subi
  else if idx = 0x1210 then readAdm s.adm subi
  else if idx = 0x1220 then s.readPlan subi
  else if idx = 0x1230 then 0
  else if idx = 0x2000 then readMember s.mem subi
  else if idx = 0x2010 then s.votesHeld
  else if idx = 0x2030 then (if subi = 1 then s.mem.recode else s.mem.recodedFrom)
  else if idx = 0x2040 then s.readLoss subi
  else if idx = 0x2050 then s.readEvac subi
  else if idx = 0x2060 then s.readDrain subi
  else if idx = 0x2070 then (if subi = 2 then s.loss.copyState else if subi = 3 then s.loss.copyStep else s.reg 0x2070 subi)
  else if idx = 0x2100 then s.readCoding subi
  else if idx = 0x2200 then (if subi = 1 then s.sites.length else s.outboxCount)
  else if idx = 0x2210 then s.fr.eN
  else if idx = 0x2220 then readSites s.land subi
  else if 0x2300 ≤ idx && idx ≤ 0x233F then s.readProg (idx - 0x2300) subi
  else if idx = 0x2400 then
    (if subi = 2 then tableDigest (tableBytes s.whorl.tables)
     else if subi = 3 then (match s.whorl.stagedTables with
       | some t => tableDigest (tableBytes t)
       | none => 0)
     else s.whorl.copyState)
  else if idx = 0x2410 then (if subi = 2 then s.whorl.seeds.length else s.fr.step)
  else if idx = 0x2500 then
    (if subi = 1 then (match s.planEff.bind (fun p => p.tier) with
       | some t => t.policies.length
       | none => 0)
     else s.adm.tier)
  else if 0x2510 ≤ idx && idx ≤ 0x251F then
    (if subi ≤ 3 then s.use (idx - 0x2510) (subi - 1) else s.quota (idx - 0x2510) (subi - 4))
  else if idx = 0x2530 then (if subi = 1 then s.tier.homeMove else s.tier.homeMoved)
  else if idx = 0x2610 then s.readRecords subi
  else if idx = 0x2620 then (if subi = 1 then s.led.auditState else s.led.failing)
  else if idx = 0x2640 then (if subi = 3 then s.led.restoreState else s.led.restoredStep)
  else if 0x2700 ≤ idx && idx ≤ 0x27FF then s.readTwist (idx - 0x2700) subi
  else if idx = 0x3000 then s.hkNo
  else if idx = 0x3020 then s.reg 0x3020 0x01 % 2 ^ s.straps.build.spindles
  else if idx = 0x3050 then s.readHealth subi
  else if idx = 0x3051 then natAt s.house.health.terms (subi - 1)
  else if idx = 0x3060 then (s.house.health.readings.getD (subi - 1) 0).toNat
  else if idx = 0x3061 then programDigest s.calibration
  else if idx = 0x3070 then s.readLog subi
  else if idx = 0x3080 then s.windowCount (fun w => w.spindleFaults) (subi - 1)
  else if idx = 0x3090 then s.readRows subi
  else if idx = 0x3100 then s.readFw subi
  else if idx = 0x3110 then (if subi = 3 then s.jutusNo else s.house.jutus.baud)
  else if idx = 0x3200 then s.readJournal subi
  else if 0x4000 ≤ idx && idx ≤ 0x4FFF then s.readHank (idx - 0x4000) subi
  else if 0x5000 ≤ idx && idx ≤ 0x50D0 then s.ctr idx subi
  else s.reg idx subi

/-- Faults in the window per lane (0x3081.01). -/
def laneFaultBytes (s : State) : Bytes :=
  (List.range s.straps.build.lanes).flatMap (fun u => toLE 1 (min 255 (s.windowCount (fun w => w.laneFaults) u)))

/-- The value in effect of a STR or DOM entry that exists; empty for a write-only one. -/
def readBlob (s : State) (path : Path) (idx subi : Nat) : Bytes :=
  if idx = 0x1000 then ascii s.straps.build.name
  else if idx = 0x10FB then s.viewValue path
  else if idx = 0x1120 then s.fx.partners.flatMap (fun n => toLE 2 n)
  else if idx = 0x1140 then s.creditBytes
  else if idx = 0x2010 then
    (if subi = 2 then (match s.mem.pending with
       | some p => p.raw
       | none => [])
     else if subi = 4 then s.mem.records.flatMap epochRecordBytes else [])
  else if idx = 0x2020 then s.mem.discovery.flatMap discBytes
  else if idx = 0x2210 then s.land.notices.flatMap noticeBytes
  else if 0x2300 ≤ idx && idx ≤ 0x233F then (match s.slotProg (idx - 0x2300) with
    | some g => progBytes g
    | none => [])
  else if idx = 0x2400 then tableBytes s.whorl.tables
  else if idx = 0x2410 then s.whorl.seeds.flatMap (fun e => toLE 2 e.hank ++ toLE 2 e.use ++ zeros 4 ++ toLE 8 e.seed)
  else if idx = 0x2610 then
    (if subi = 1 then (match s.newestRecord with
       | some r => recordOut r
       | none => [])
     else if subi = 3 then (match s.selectedRecord with
       | some r => recordOut r
       | none => [])
     else s.noticesHeld)
  else if idx = 0x2620 then s.led.block
  else if idx = 0x2630 then (if subi = 2 then s.led.probeResult else [])
  else if idx = 0x2640 then (if subi = 2 then s.led.restoreReport else [])
  else if idx = 0x2650 then (if subi = 1 then s.contextBytes else [])
  else if 0x2700 ≤ idx && idx ≤ 0x27FF then twistBytes (s.twistAt (idx - 0x2700))
  else if idx = 0x3040 then
    (if subi = 1 then s.scrub.tiles.flatMap (fun t => toLE 2 t.1 ++ zeros 2 ++ toLE 4 t.2) else [])
  else if idx = 0x3061 then s.calibration
  else if idx = 0x3070 then
    (if subi = 3 then s.selectedEvents.flatMap eventBytes else s.house.subscribers.flatMap subscriberBytes)
  else if idx = 0x3071 then s.house.trace.flatMap traceBytes
  else if idx = 0x3081 then s.laneFaultBytes
  else if idx = 0x3090 then (if subi = 1 then s.retiredRows else s.watchBytes)
  else if idx = 0x3100 then (if subi = 7 || subi = 8 then (s.fwSlot (subi - 7)).header else [])
  else if 0x4000 ≤ idx && idx ≤ 0x4FFF then (match s.hank? (idx - 0x4000) with
    | some r =>
      let d := { r.desc with state := r.state }
      if subi = 0x0F then (descBytes d).drop 32 |>.take 28 else descBytes d
    | none => zeros (if subi = 0x0F then 28 else 64))
  else if idx = 0x5FFE then (if s.house.bulkNamed then s.counterBlock (s.reg 0x5FFE 0x01) else [])
  else []

/-- The value that a read of an entry returns; none where no such entry exists (R407). What the "zero" that a WO entry returns (R9)
is for a STR or DOM entry is not said: here the empty value (DESIGN CHOICE, log 171). -/
def readValue (s : State) (path : Path) (addr : Nat) : Option (EntryRow × Val) :=
  let idx := addrIdx addr
  let subi := addrSub addr
  match entry? s.straps.build idx subi with
  | none => none
  | some r =>
    if subi = 0 then some (r, .num r.dflt)
    else if r.acc = .wo then some (r, if r.ty.isBlob then .blob [] else .num 0)
    else if r.ty.isBlob then some (r, .blob (s.readBlob path idx subi))
    else some (r, .num (s.readScalar path idx subi))

/-- A request to an absent entry is counted (R407). -/
def noEntry (s : State) : State := s.bump 0x5000 0x0A 1

/-- The size of the transfer buffer (R364). -/
def xferSize : Nat := 1052736

/-- The transfer-window offset moves on by a word; it stays at the buffer's end (log 44). -/
def xferAdvance (s : State) : State := s.setReg 0x10FD 0x02 (min xferSize (s.reg 0x10FD 0x02 + 4))

/-- What a read does beside returning the value: an RC entry clears (R416, R417), the transfer-window offset advances (R364). -/
def afterRead (r : EntryRow) (idx subi : Nat) (s : State) : State :=
  if idx = 0x10FD && subi = 3 then s.xferAdvance
  else if r.acc = .rc && subi != 0 then
    (if idx != 0x5FFE then s.clearCtr idx subi
      else if s.house.bulkNamed then s.clearBlock (s.reg 0x5FFE 0x01)
      else s)
  else s

/-- Read an entry: the value, and the state with an RC entry cleared or the absent entry counted. -/
def readEntry (path : Path) (addr : Nat) (s : State) : State × Option (EntryRow × Val) :=
  match s.readValue path addr with
  | none => (s.noEntry, none)
  | some (r, v) => (s.afterRead r (addrIdx addr) (addrSub addr), some (r, v))

end State

end Sys2Proof.Machine
end

