-- ==== Sys2Proof/Machine/Health.lean ====
section
/-! DEFINITION. Sensors, the health score, its levels and the shedding of load (R185, R187, R379, R380, Table 13.2). -/

namespace Sys2Proof.Machine

/-- A finite FP32 number times 2^149, exact; an infinity counts as 2^300 (R380 compares readings with levels exactly). -/
def exactOf (w : W32) : Int :=
  if Fp.isInf w then (if Fp.sgn w then -(2 ^ 300) else 2 ^ 300) else Fp.sInt w * 2 ^ (Fp.exp w + 149).toNat

/-- The exact value of an integer on the same scale. -/
def exactInt (n : Int) : Int := n * 2 ^ 149

namespace State

/-- Word `i` of the calibration record in effect. -/
def calWord (s : State) (i : Nat) : W32 := BitVec.ofNat 32 (fld (4 * i) 4 s.calibration)

/-- A monitor's reading: gain × raw + offset, each operation in FP32 (R379). The raw count of a monitor is taken as an unsigned integer
(log 46). -/
def reading (s : State) (i : Nat) (raw : BitVec 32) : W32 :=
  Fp.add (Fp.mul (s.calWord (4 * i)) (Fp.round32 false raw.toNat 0 false)) (s.calWord (4 * i + 1))

/-- The hottest of the 16 thermal readings. -/
def hottest (rs : List W32) : Int := (rs.take 16).foldl (fun m w => max m (exactOf w)) (-(2 ^ 300))

/-- T (Table 13.2). -/
def termT (s : State) (rs : List W32) : Nat :=
  let x := hottest rs - exactOf (BitVec.ofNat 32 (s.reg 0x3062 0x01)) + exactInt 20
  if x ≤ 0 then 0 else min 384 ((8 * x).toNat / 2 ^ 149)

/-- V: voltage monitors outside their bounds. -/
def termV (s : State) (rs : List W32) : Nat :=
  let out (i : Nat) : Bool :=
    let v := exactOf (rs.getD (16 + i) 0)
    v < exactOf (s.calWord (64 + 4 * i + 2)) || exactOf (s.calWord (64 + 4 * i + 3)) < v
  min 256 (64 * ((List.range 8).filter out).length)

/-- M, F, R and L. -/
def termsRest (s : State) : List Nat :=
  let w := s.house.health.window
  let total (f : HealthWin → Nat) : Nat := sumL (w.map f)
  [min 256 (16 * total (fun x => x.uncorrectable) + total (fun x => x.corrected) / 64),
   min 128 (8 * total (fun x => x.trailers)),
   min 256 (24 * s.scrub.retired.length + 128 * s.fullBanks),
   min 256 (8 * total (fun x => x.spindleFaults.length + x.laneFaults.length) + 64 * s.house.health.retiredSpindles.length +
     16 * s.house.health.retiredLanes.length)]

/-- Change the health state. -/
def setHealth (h : HealthSt) (s : State) : State := { s with house := { s.house with health := h } }

/-- Readings, terms and score of a period (R379, R380). -/
def scorePeriod (raw : List (BitVec 32)) (s : State) : State :=
  let rs := (List.range 24).map (fun i => s.reading i (raw.getD i 0))
  let terms := s.termT rs :: s.termV rs :: s.termsRest
  let critical : Bool := decide (exactOf (BitVec.ofNat 32 (s.reg 0x3062 0x02)) ≤ hottest rs)
  s.setHealth { s.house.health with
    readings := rs, terms := terms, score := if critical then 1023 else min 1023 (sumL terms) }

/-! ## Levels (R185) -/

/-- Crossing the warning level: the event, evacuation readied, the count. -/
def warn (s : State) : State :=
  let s := (s.crossLevel 0 true).levelEvent false false
  let s : State := if s.loss.evac != 2 then
      State.changed 0x2050 0x03 1 { s with loss := { s.loss with evac := 1, evacTarget := s.evacNode } }
    else s
  s.bump 0x5050 0x11 1

/-- One level: crossed when the score reaches it, cleared when it falls below the level less 64. -/
def levelTurn (i level : Nat) (up : State → State) (s : State) : State :=
  let on := bit s.house.health.crossed i
  if !on && level ≤ s.house.health.score then up s
  else if on && s.house.health.score + 64 < level then (s.crossLevel i false).levelEvent (i == 1) true
  else s

/-- The comparison of a period. -/
def levelsTurn (s : State) : State :=
  let s := s.levelTurn 0 (s.reg 0x3050 0x02) warn
  s.levelTurn 1 (s.reg 0x3050 0x03) (fun st => ((st.crossLevel 1 true).levelEvent true false).bump 0x5050 0x12 1)

/-! ## Shedding (R187) -/

/-- The lowest `n` set bits of a mask. -/
def lowBits (n m : Nat) : Nat := mapOf ((bitsOf 64 m).take n)

/-- The bits that the next stage clears: of the spindle mask, or of each channel's lane mask. -/
def shedBits (s : State) (stage : Nat) : List Nat :=
  if stage = 1 then
    let m := s.maskNext 0x3020 0x01
    [mapOf ((List.range s.C).filterMap (fun c => if bit m (2 * c) && bit m (2 * c + 1) then some (2 * c + 1) else none))]
  else
    (List.range s.C).map (fun c =>
      let m := s.maskNext 0x3010 (c + 1)
      m - lowBits ((popCount 64 m + 1) / 2) m)

/-- The masks with bits cleared or set again, as (index, subindex, mask). -/
def shedMasks (s : State) (stage : Nat) (bits : List Nat) (on : Bool) : List (Nat × Nat × Nat) :=
  let change (m b keep : Nat) : Nat := if on then m ||| (b - (b &&& keep)) else m - (m &&& b)
  if stage = 1 then
    [(0x3020, 1, change (s.maskNext 0x3020 0x01) (natAt bits 0) (mapOf s.house.health.retiredSpindles))]
  else
    (List.range s.C).map (fun c =>
      let lost := mapOf ((s.house.health.retiredLanes.filter (fun u => u / 64 == c)).map (fun u => u % 64))
      (0x3010, c + 1, change (s.maskNext 0x3010 (c + 1)) (natAt bits c) lost))

/-- Stage the masks of a stage for the next threshold. -/
def stageMasks (next : Nat) (shed : List (List Nat)) (ms : List (Nat × Nat × Nat)) (s : State) : State :=
  let s := forEach ms (fun m st => st.stageSelf m.1 m.2.1 m.2.2) s
  s.setHealth { s.house.health with stageNext := some next, shed := shed }

/-- The plan in effect fits under the masks. -/
def fitsUnder (s : State) (ms : List (Nat × Nat × Nat)) : Bool :=
  match s.planEff with
  | none => true
  | some p => ((forEach ms (fun m st => st.setReg m.1 m.2.1 m.2.2) s).fitFault (s.reg 0x1200 0x08) p).isNone

/-- One turn of shedding: a stage more while the score stands at or above the warning level, a stage less once the warning has
cleared; one stage per threshold. -/
def shedTurn (s : State) : State :=
  let h := s.house.health
  if h.stageNext.isSome then s
  else if s.reg 0x3050 0x05 = 1 && s.reg 0x3050 0x02 ≤ h.score && h.stage < 3 then
    let bits := s.shedBits (h.stage + 1)
    let ms := s.shedMasks (h.stage + 1) bits false
    if s.fitsUnder ms then (s.stageMasks (h.stage + 1) (bits :: h.shed) ms).bump 0x5050 0x13 1
    else if h.stageHeld then s
    else State.setHealth { h with stageHeld := true } (s.bump 0x5050 0x14 1)
  else if !bit h.levels 0 && 0 < h.stage then
    match h.shed with
    | bits :: rest => s.stageMasks (h.stage - 1) rest (s.shedMasks h.stage bits true)
    | [] => s
  else s

/-- At a threshold the staged stage is in effect. -/
def shedThreshold (s : State) : State :=
  let h := s.house.health
  s.setHealth { h with stage := h.stageNext.getD h.stage, stageNext := none, stageHeld := false }

/-- The next period begins: the window keeps 1,024 periods. -/
def nextPeriod (s : State) : State :=
  let h := s.house.health
  s.setHealth { h with window := (resetHealthWin :: h.window).take 1024 }

/-- A health period: while the firmware runs, the sensors are read and the score is formed; during a restart the score is held
(R376). -/
def healthTurn (raw : List (BitVec 32)) (s : State) : State :=
  if s.sys.hk = .running then ((s.scorePeriod raw).levelsTurn.shedTurn).nextPeriod
  else s.nextPeriod

end State

end Sys2Proof.Machine
end

