-- ==== Sys2Proof/Machine/House.lean ====
section
/-! DEFINITION. The housekeeper: reset, journal replay, starts, firmware slots, journal responses, event frames (R335, R366, R375 to
R378, R382, R386 to R395, R420 to R422). -/

namespace Sys2Proof.Machine

/-! ## Reading the journal window (R387 to R389) -/

/-- A superblock copy: generation, head offset, head seq; none when its CRC fails. -/
def superCopy (b : Bytes) : Option (Nat × Nat × Nat) :=
  if crc32c (b.take 60) = fld 60 4 b then some (fld 0 8 b, fld 8 8 b, fld 16 8 b) else none

/-- A superblock copy's bytes. -/
def superBytes (gen head seq : Nat) : Bytes :=
  let b := toLE 8 gen ++ toLE 8 head ++ toLE 8 seq ++ zeros 36
  b ++ toLE 4 (crc32c b)

/-- The copy with the higher generation among those whose CRC holds, with its place. -/
def newestSuper : Option (Nat × Nat × Nat) → Option (Nat × Nat × Nat) → Option (Nat × Nat × Nat × Nat)
  | some a, some b => if a.1 < b.1 then some (1, b) else some (0, a)
  | some a, none => some (0, a)
  | none, o => o.map (fun b => (1, b))

/-- A record type of Table 13.6. -/
def recordType (t : Nat) : Bool := t == 1 || t == 0x10 || t == 0x11 || (0x20 ≤ t && t ≤ 0x27) || t == 0x30

/-- A valid record as it is replayed: type and body. -/
structure JRec where
  typ : Nat
  body : Bytes
  deriving DecidableEq, Repr

/-- What a walk finds: the records in order, the lines it reads, the offset and seq where it ended, the bytes walked, and whether a torn
record ended it. -/
structure Walk where
  recs : List JRec
  lines : List Nat
  tail : Nat
  seq : Nat
  used : Nat
  torn : Bool
  deriving DecidableEq, Repr

namespace State

/-- The window as the reads of a start find it: what is queued before them is written first (R366). -/
def npSeen (s : State) : State :=
  forEach (s.house.journal.queue.filter (fun r => r.write)) (fun r st => st.nvWrite (64 * r.line) r.data) s

/-- Bytes of the stream region. -/
def streamRead (s : State) (off k : Nat) : Bytes := s.nvRead (streamBase + off) k

/-- The lines of `k` bytes of the stream region. -/
def streamLines (off k : Nat) : List Nat := (List.range (ceilDiv k 64)).map (fun i => (streamBase + off) / 64 + i)

/-- A line of some is answered with an error (R366). -/
def npLost (s : State) (lines : List Nat) : Bool := lines.any (fun l => s.ans.npBad.contains l)

/-- The walk of R389 from an offset, the next record having seq `seq + 1`. A header line answered with an error is no record; a body
line so answered leaves a record torn (log 191). -/
def walkGo (s : State) : Nat → Walk → Walk
  | 0, w => w
  | k + 1, w =>
    let head := s.streamRead w.tail 24
    let len := fld 4 4 head
    let size := ceilDiv (28 + len) 64 * 64
    let first := { w with lines := w.lines ++ streamLines w.tail 64 }
    if s.npLost (streamLines w.tail 64) || fld 8 8 head != w.seq + 1 then first
    else if recordType (fld 0 2 head) && w.tail + size ≤ s.streamBytes then
      let all := { w with lines := w.lines ++ streamLines w.tail size }
      if !s.npLost (streamLines w.tail size) && crc32c (s.streamRead w.tail (24 + len)) == fld 0 4 (s.streamRead (w.tail + 24 + len) 4) then
        s.walkGo k { all with
          recs := w.recs ++ [({ typ := fld 0 2 head, body := s.streamRead (w.tail + 24) len } : JRec)]
          tail := (w.tail + size) % s.streamBytes, seq := w.seq + 1, used := w.used + size }
      else { all with torn := true }
    else { first with torn := true }

/-- The lines of the superblock. -/
def superLines : List Nat := [2 ^ 20 / 64, 2 ^ 20 / 64 + 1]

/-- The superblock in force: its place, generation, head offset and head seq. -/
def superblock (s : State) : Option (Nat × Nat × Nat × Nat) :=
  let copy (i : Nat) : Option (Nat × Nat × Nat) :=
    if s.npLost [2 ^ 20 / 64 + i] then none else superCopy (s.nvRead (2 ^ 20 + 64 * i) 64)
  newestSuper (copy 0) (copy 1)

/-- The whole walk; none for an empty journal. -/
def walk (s : State) : Option Walk :=
  s.superblock.map (fun x => s.walkGo (s.streamBytes / 64)
    { recs := [], lines := [], tail := x.2.2.1, seq := x.2.2.2 - 1, used := 0, torn := false })

/-- The reads of the superblock and of a walk. -/
def askJournal (s : State) : State :=
  s.npAsk (superLines ++ match s.npSeen.walk with | some w => w.lines | none => [])

/-! ## Applying the records (Tables 13.6, 14.7) -/

/-- An event entry read back. -/
def readEvent (b : Bytes) : Event :=
  { seq := fld 0 8 b, time := fld 8 8 b, kind := fld 16 2 b, line := fld 18 1 b, acked := bit (fld 19 1 b) 0, journaled := true,
    entry := fld 20 4 b, detail := fld 24 8 b }

/-- Put events of a batch into the array by seq; a snapshot repeats entries already read. -/
def restoreEvents (es : List Event) (s : State) : State :=
  forEach es (fun e st =>
    let h := st.house
    if h.events.any (fun x => x.seq == e.seq) then st
    else { st with house := { h with
      events := (h.events ++ [e]).drop (h.events.length + 1 - eventCap), nextSeq := max h.nextSeq (e.seq + 1) } }) s

/-- The firmware state changed. -/
def setFw (f : FwSt) (s : State) : State := { s with house := { s.house with fw := f } }

/-- Apply one record at power-on. -/
def applyRec (r : JRec) (s : State) : State :=
  let b := r.body
  match r.typ with
  | 0x10 => s.setJournal { s.house.journal with snapshot := fld 0 8 b }
  | 0x20 => { s with fx := { s.fx with incarnation := fld 0 2 b } }
  | 0x21 => s.setFw { s.house.fw with minimum := fld 4 4 b }
  | 0x22 => (s.setFw { s.house.fw with runningVersion := fld 0 4 b, inEffect := fld 4 1 b }).setReg 0x3100 0x04 (fld 4 1 b)
  | 0x23 =>
    let l := (pieces 4 b).map (fun e => (fld 0 2 e, fld 2 2 e))
    { s with scrub := { s.scrub with retired := l, spares := l } }
  | 0x24 => s.setHealth { s.house.health with calibration := some b }
  | 0x25 => { s with led := { s.led with heads :=
      ((List.range 16).map (fun p => (p, fld (16 * p) 8 b, fld (16 * p + 8) 8 b))).filter (fun h => h.2.1 != 0 || h.2.2 != 0) } }
  | 0x26 => { s with loss := { s.loss with drains := fld 0 8 b, drainImageStep := fld 8 8 b } }
  | 0x27 => s.setHealth { s.house.health with
      retiredSpindles := bitsOf 32 (fld 0 4 b), retiredLanes := bitsOf 768 (fld 4 96 b) }
  | 0x30 => s.restoreEvents ((pieces 32 b).map readEvent)
  | _ => s

/-- The enable masks start with every bit of a journaled fault retirement clear (R381). -/
def retiredMasks (s : State) : State :=
  let h := s.house.health
  let s := if h.retiredSpindles.isEmpty then s else s.setReg 0x3020 0x01 (h.retiredSpindles.foldl clearBit (2 ^ 32 - 1))
  forEach (nub (h.retiredLanes.map (fun u => u / 64))) (fun c st =>
    let lost := (h.retiredLanes.filter (fun u => u / 64 == c)).map (fun u => u % 64)
    st.setReg 0x3010 (c + 1) (lost.foldl clearBit (2 ^ 64 - 1))) s

/-- The superblock copy that is written next, with the generation above (R387). -/
def superNext (head seq what : Nat) (s : State) : NpReq :=
  let j := s.house.journal
  npWrite (2 ^ 20 / 64 + (1 - j.copy)) (superBytes (j.generation + 1) head seq) what 0 0

/-- The superblock that was written is in force. -/
def superDone (s : State) : State :=
  let j := s.house.journal
  s.setJournal { j with generation := j.generation + 1, copy := 1 - j.copy }

/-- A format of the stream region (R389, R392): it is empty, the line at its head no longer reads as a record, and the superblock says
so. Requests that are open stay open (R366). -/
def formatStream (s : State) : State :=
  let j := s.house.journal
  let s := s.setJournal { j with
    state := 2, head := 0, tail := 0, used := 0, seq := 0, headSeq := 1, snapAt := none, queue := npKept j }
  s.npPush [npWrite (streamBase / 64) (zeros 64) 0 0 0, superNext 0 1 5 s]

/-- The journal goes on where a walk ended (R389). -/
def foundJournal (x : Nat × Nat × Nat × Nat) (w : Walk) (state : Nat) (s : State) : State :=
  s.setJournal { s.house.journal with
    state := state, copy := x.1, generation := x.2.1, head := x.2.2.1, headSeq := x.2.2.2, tail := w.tail, used := w.used, seq := w.seq }

/-- A torn record that ended the walk of the firmware counts in 0x50D0.06 (R389). -/
def countTorn (w : Walk) (s : State) : State := if w.torn then s.bump 0x50D0 0x06 1 else s

/-- The replay of a power-on (R375, R389, R418). -/
def replay (s : State) : State :=
  match s.npSeen.superblock, s.npSeen.walk with
  | some x, some w =>
    let s := forEach w.recs applyRec (s.foundJournal x w 0)
    (s.countTorn w).retiredMasks
  | _, _ => s.formatStream

/-- The replay of a start other than power-on: every entry stays as it is (R376, R418), and the journal goes on where the walk ended, but
for a degraded one, which is written anew by its next compaction (R392, log 191). -/
def replayAgain (s : State) : State :=
  match s.npSeen.superblock, s.npSeen.walk with
  | some x, some w =>
    let s := if s.house.journal.state = 1 then s else s.foundJournal x w s.house.journal.state
    s.countTorn w
  | _, _ => s.formatStream

/-- What the boot ROM takes from the journal where no firmware can start: where it ended, and its events, so that their numbers go on
(R382, log 191). -/
def replayEvents (s : State) : State :=
  match s.npSeen.superblock, s.npSeen.walk with
  | some x, some w => forEach (w.recs.filter (fun r => r.typ == 0x30)) applyRec (s.foundJournal x w 0)
  | _, _ => s

/-! ## Firmware images (R393, R394, Table 13.8) -/

/-- Byte offset of a firmware slot in the window. -/
def slotBase (slot : Nat) : Nat := slot * 524288

/-- The detail with which an image is refused; 0 when it verifies. `whole` tells whether the number of bytes is the header's. -/
def imageDetail (minimum : Nat) (h body : Bytes) (whole : Bool) : Nat :=
  let len := fld 12 4 h
  if len = 0 || 523776 < len || !whole || !allZero (sub 32 384 h) then 1
  else if fld 0 4 h != 1 || fld 20 4 h != Config.blockVersion then 2
  else if fld 8 4 h < minimum then 4
  else if P384.verify Config.bootKey (h.take 416 ++ body) (beNat (sub 416 48 h)) (beNat (sub 464 48 h)) &&
      tableDigest (tableBytes (.default body)) == fld 24 8 h then 0
  else 3

/-- The image of a slot as it stands in the window. -/
def slotImage (s : State) (slot : Nat) : Bytes × Bytes :=
  let h := s.nvRead (slotBase slot) 512
  (h, s.nvRead (slotBase slot + 512) (min 523776 (fld 12 4 h)))

/-- The lines of a slot's header, and of its body where the header's length is one that is served. -/
def slotLines (s : State) (slot : Nat) : List Nat :=
  let len := fld 12 4 (s.slotImage slot).1
  (List.range (8 + if s.npLost ((List.range 8).map (fun i => slotBase slot / 64 + i)) || 523776 < len then 0 else ceilDiv len 64)).map
    (fun i => slotBase slot / 64 + i)

/-- The image of a slot verifies: one with a line that is answered with an error does not. -/
def slotGood (s : State) (slot : Nat) : Bool :=
  let x := s.slotImage slot
  !s.npLost (s.slotLines slot) && imageDetail s.house.fw.minimum x.1 x.2 true == 0

/-- A slot as it stands once its image has been looked at. -/
def slotState (s : State) (slot : Nat) : FwSlot :=
  let h := (s.slotImage slot).1
  if s.slotGood slot then { state := 2, version := fld 4 4 h, security := fld 8 4 h, header := h } else resetSlot

/-- Put a slot. -/
def putSlot (slot : Nat) (x : FwSlot) (s : State) : State :=
  s.setFw { s.house.fw with slots := setAt s.house.fw.slots slot x }

/-! ## Starts (R375 to R378, R395) -/

/-- Neither slot verifies: recovery (R378). -/
def recover (s : State) : State :=
  let s := if s.house.fw.cause = 1 then s.replayEvents else s
  let s := State.raise 5 0x3000 0x01 5 { s with sys := { s.sys with hk := .recovery, ready := true } }
  s.bump 0x50D0 0x01 1

/-- At power-on the firmware replays the journal into the entries, copies its default table set (R257) and raises the incarnation. -/
def firstStart (body : Bytes) (s : State) : State :=
  let s := s.replay
  let inc := (s.fx.incarnation + 1) % 65536
  let s : State := { s with fx := { s.fx with incarnation := inc }, whorl := { s.whorl with tables := .default body } }
  s.append 0x20 s.incarnationBody 0

/-- The chosen image starts: its firmware replays the journal, raises the incarnation at power-on, and appends its running record (R375). -/
def startImage (slot : Nat) (s : State) : State :=
  let f := s.house.fw
  let v := (s.fwSlot slot).version
  let s := s.askJournal
  let s := if f.cause = 1 then s.firstStart (s.npSeen.slotImage slot).2 else s.replayAgain
  let s := (s.setFw { s.house.fw with inEffect := slot, runningVersion := v }).setReg 0x3100 0x04 slot
  let s := (s.bump 0x50D0 0x01 1).raise 5 0x3000 0x01 f.cause
  s.append 0x22 s.runningBody 1

/-- The boot ROM takes a slot, verifies it, or else the other (R375). -/
def boot (slot : Nat) (s : State) : State :=
  let seen := s.npSeen
  let s := s.npAsk (seen.slotLines 0 ++ seen.slotLines 1)
  let s := (s.putSlot 0 (seen.slotState 0)).putSlot 1 (seen.slotState 1)
  if (s.fwSlot slot).state = 2 then s.startImage slot
  else if (s.fwSlot (1 - slot)).state = 2 then s.startImage (1 - slot)
  else s.recover

/-- The firmware record of the journal: slot to start, previous slot, trial; slot A without one. -/
def firmwareRecord (s : State) : Nat × Nat × Bool × Nat :=
  match s.walk with
  | none => (0, 1, false, 0)
  | some w =>
    w.recs.foldl (fun (x : Nat × Nat × Bool × Nat) r =>
      if r.typ = 0x21 then (fld 0 1 r.body % 2, fld 1 1 r.body % 2, fld 2 1 r.body == 1, fld 4 4 r.body)
      else if r.typ = 0x22 then (x.1, x.2.1, false, x.2.2.2) else x) (0, 1, false, 0)

/-- The power-on start (R375). -/
def powerOn (s : State) : State :=
  let s := s.askJournal
  let x := s.npSeen.firmwareRecord
  let s := s.setFw { s.house.fw with cause := 1, minimum := x.2.2.2, trial := if x.2.2.1 then some x.2.1 else none }
  s.boot x.1

/-- A restart (R376): open Ocper transfers are abandoned and a Jutus unlock lapses. The boot ROM reads the firmware record, which names the
slot of a switchover or a fallback; a watchdog restart is into the same slot (R377). -/
def restart (cause slot : Nat) (s : State) : State :=
  let h := s.house
  let s : State := { s with
    sys := { s.sys with hk := .restarting }
    house := { h with ocper := [none, none], jutus := { h.jutus with unlocked := false }, fw := { h.fw with cause := cause } } }
  s.askJournal.boot slot

/-- Ten seconds, ns. -/
def tenSeconds : Nat := 10000000000

/-- A watchdog expiry (R377): the same slot, or after three within 10 s the other one where it holds a verified image. -/
def watchdog (s : State) : State :=
  let s := s.bump 0x50D0 0x02 1
  let f := s.house.fw
  let times := s.now :: f.watchdogs.filter (fun t => decide (s.now < t + tenSeconds))
  let other := 1 - f.inEffect
  if 3 ≤ times.length && (s.fwSlot other).state = 2 then
    let s := s.setFw { f with watchdogs := [] }
    let s := s.append 0x21 (s.firmwareBody other f.inEffect 0) 0
    (s.bump 0x50D0 0x04 1).restart 4 other
  else (s.setFw { f with watchdogs := times }).restart 3 f.inEffect

/-- The trial timer expires (R395): an image without its running record gives way to the previous slot. -/
def trialEnd (s : State) : State :=
  match s.house.fw.trial with
  | none => s
  | some prev =>
    let s := s.setFw { s.house.fw with trial := none }
    let s := s.append 0x21 (s.firmwareBody prev (1 - prev) 0) 0
    (s.bump 0x50D0 0x04 1).restart 4 prev

/-- A switchover takes effect (R395); one whose threshold falls into a restart is held. -/
def switchover (slot : Nat) (s : State) : State :=
  if s.sys.hk = .running then
    let old := s.house.fw.inEffect
    let s := s.setFw { s.house.fw with trial := some old, switchHeld := none }
    let s := s.append 0x21 (s.firmwareBody slot old 1) 0
    (s.bump 0x50D0 0x03 1).restart 2 slot
  else s.setFw { s.house.fw with switchHeld := some slot }

/-- At a threshold a held switchover takes effect once the restart is complete. -/
def heldSwitch (s : State) : State :=
  match s.house.fw.switchHeld with
  | some slot => if s.sys.hk = .running then s.switchover slot else s
  | none => s

/-- The running record is durable: the start is complete (R375, R335). -/
def started (s : State) : State :=
  let f := s.house.fw
  let s : State := { s with sys := { s.sys with hk := .running, ready := true } }
  let s := s.setFw { f with trial := none }
  -- rows that failed the read-back of power-on raise their events once firmware runs (R422)
  let rows := s.scrub.failedRows
  forEach rows (fun r st => st.raise 1 0x50C0 0x0D (r.1 * 65536 + r.2)) { s with scrub := { s.scrub with failedRows := [] } }

/-! ## Reset (R335, R420, R421) -/

/-- `lz_reset` rises: every output and every bit of state stands at its reset value; the memories outside the block, the test logic
(log 47) and the model's own count of free values stay. -/
def resetHigh (s : State) : State :=
  { afterReset s.straps s.sys.npSize s.hearth s.pantry s.nv with
    sys := { resetSys s.sys.npSize with lzReset := true }
    jtag := s.jtag, free := s.free, pending := s.pending }

/-- `lz_reset` falls: the inbound grant is stated, and the fill begins. -/
def resetLow (npSize : Nat) (s : State) : State :=
  let s : State := { afterReset s.straps npSize s.hearth s.pantry s.nv with jtag := s.jtag, free := s.free, pending := s.pending }
  forEach [0, 1] (fun w st =>
    st.emit (.creditGrant w (inboundGrant.map (fun g => g.1)) (inboundGrant.map (fun g => g.2)))) s

/-- A level on `lz_reset`, with what stands on `np_size`. -/
def lzReset (level : Bool) (npSize : Nat) (s : State) : State :=
  if level then s.resetHigh
  else if s.sys.lzReset then s.resetLow npSize
  else s

/-- Enter rows that failed the read-back in the watch list; the list holds 64 (R422, R432). -/
def watchRow (bank row corrected uncorrectable : Nat) (s : State) : State :=
  let w : Watch := { bank := bank, row := row, corrected := corrected, uncorrectable := uncorrectable,
                     onSpare := s.scrub.retired.contains (bank, row) }
  let l := s.scrub.watch.filter (fun x => !(x.bank == bank && x.row == row))
  let l := if 64 ≤ l.length then
      match l.findIdx? (fun x => x.uncorrectable == 0) with
      | some i => l.eraseIdx i ++ [w]
      | none => l
    else l ++ [w]
  { s with scrub := { s.scrub with watch := l } }

/-- The fill and the read-back are done: the housekeeper core is released (R420). -/
def fillDone (failed : List (Nat × Nat)) (s : State) : State :=
  let s : State := { s with sys := { s.sys with filled := true } }
  let s := forEach failed (fun r st => (st.bump 0x50C0 0x0D 1).watchRow r.1 r.2 0 1) s
  State.powerOn { s with scrub := { s.scrub with failedRows := failed } }

/-! ## Journal responses (R366, R391, R392) -/

/-- A load is refused with a detail of Table 13.8; the slot stands empty, and lines of the image that are not open yet are dropped. -/
def imageRefused (detail : Nat) (s : State) : State :=
  let f := s.house.fw
  let j := s.house.journal
  let s := s.setJournal { j with
    queue := j.queue.take j.opened ++ (j.queue.drop j.opened).filter (fun q => q.what != 3 && q.what != 4) }
  let s := (s.setFw { f with load := 3, detail := detail, image := none }).putSlot (1 - f.inEffect) resetSlot
  s.raise 4 0x3100 0x01 detail

/-- A write that failed a second time: the journal is degraded, and requests that are not open yet are dropped (R392). A firmware line that
fails ends the load as well (Table 13.8, detail 5). -/
def journalFail (r : NpReq) (s : State) : State :=
  let j := s.house.journal
  let s := (s.setJournal { j with state := 1, queue := npKept j, snapAt := none }).changed 0x3200 0x01 1
  if r.what = 3 then s.imageRefused 5 else s

/-- Entries of a batch that is durable are journaled. -/
def markJournaled (mark : Nat) (s : State) : State :=
  { s with house := { s.house with
      events := mapIf (fun e => decide (e.seq ≤ mark)) (fun e => { e with journaled := true }) s.house.events } }

/-- The snapshot end is durable: the superblock moves the head to the snapshot begin (R391). -/
def snapshotDone (s : State) : State :=
  match s.house.journal.snapAt with
  | none => s
  | some (off, seq) => s.npPush [superNext off seq 2 s]

/-- The superblock of a compaction is durable. -/
def compacted (s : State) : State :=
  let j := s.house.journal
  match j.snapAt with
  | none => s
  | some (off, seq) =>
    let used := (j.tail + s.streamBytes - off) % s.streamBytes
    let s := s.setJournal { j with head := off, headSeq := seq, used := used, snapAt := none, state := 0 }
    s.superDone.bump 0x50D0 0x07 1

/-- A header line is durable: the record is written. -/
def recordDone (r : NpReq) (s : State) : State :=
  let s := s.bump 0x50D0 0x05 1
  if r.recType = 0x22 && r.mark = 1 && s.sys.hk != .running then s.started
  else if r.recType = 0x30 then s.markJournaled r.mark
  else if r.recType = 0x11 then s.snapshotDone
  else s

/-- Once the last line of an image is written, every line is read back (R394). -/
def readBackStart (s : State) : State :=
  match s.house.fw.image with
  | none => s
  | some image =>
    if s.house.journal.queue.any (fun q => q.what == 3) then s
    else
      s.npPush (((pieces 64 image).map (fit 64)).zipIdx.map (fun l =>
        { npWrite (slotBase (1 - s.house.fw.inEffect) / 64 + l.2) l.1 4 0 0 with write := false }))

/-- A line of an image is read back: one that is not what was written, or an error, is a read-back that failed (Table 13.8, detail 5). -/
def readBack (r : NpReq) (status : Nat) (rdata : Bytes) (s : State) : State :=
  if s.house.fw.image.isNone || (status = 0 && rdata = r.data) then s else s.imageRefused 5

/-- What a completed write leads to. -/
def lineDone (r : NpReq) (s : State) : State :=
  match r.what with
  | 1 => s.recordDone r
  | 2 => s.compacted
  | 3 => s.readBackStart
  | 5 => s.superDone
  | _ => s

/-- A write answered with an error is issued once more (R392): before the requests that are not open, so that no header line passes a
body line of its record. -/
def issueAgain (r : NpReq) (s : State) : State :=
  let j := s.house.journal
  s.setJournal { j with queue := j.queue.take j.opened ++ { r with again := true } :: j.queue.drop j.opened }

/-- The oldest open request is answered. -/
def lineAnswered (r : NpReq) (status : Nat) (rdata : Bytes) (s : State) : State :=
  if !r.write then s.readBack r status rdata
  else if status = 0 then State.lineDone r (s.nvWrite (64 * r.line) r.data)
  else if r.again then s.journalFail r
  else s.issueAgain r

/-- A response of the journal window answers its oldest open request. One with an error is counted and raised as an event (R366). -/
def journalResponse (status : Nat) (rdata : Bytes) (s : State) : State :=
  let s := if status = 0 then s else s.countNote 0x50C0 0x07 s.fr.step
  let j := s.house.journal
  match j.queue with
  | [] => s
  | r :: rest =>
    if j.opened = 0 then s
    else npPump 8 (State.lineAnswered r status rdata (s.setJournal { j with queue := rest, opened := j.opened - 1 }))

/-- At a threshold a degraded journal tries a full compaction (R392). -/
def retryJournal (s : State) : State :=
  if s.house.journal.state = 1 && s.house.journal.snapAt.isNone then s.snapshot else s

/-- Write the window size to 0x3200.06 (R392): the format, and the values that start again. -/
def journalFormat (s : State) : State :=
  let s := s.formatStream
  let s : State := { s with
    fx := { s.fx with incarnation := 1 }, led := { s.led with heads := [] }
    loss := { s.loss with drains := 0, drainImageStep := 0 } }
  s.append 0x20 s.incarnationBody 0

/-! ## Loading an image (R394) -/

/-- An image is written to the slot that is not in effect. -/
def firmwareLoad (image : Bytes) (s : State) : State :=
  let f := s.house.fw
  if s.house.journal.state = 1 then s.imageRefused 5
  else
    let slot := 1 - f.inEffect
    let s := (s.setFw { f with load := 1, detail := 0, image := some image }).putSlot slot { resetSlot with state := 1 }
    s.npPush (((pieces 64 image).map (fit 64)).zipIdx.map (fun l => npWrite (slotBase slot / 64 + l.2) l.1 3 0 0))

/-- Lines of the image are still being written or read back. -/
def imageOpen (s : State) : Bool := s.house.journal.queue.any (fun q => q.what == 3 || q.what == 4)

/-- The read-back and the verification complete: stored, or refused (R394). In recovery a stored image starts at once (R378). -/
def verifyDone (s : State) : State :=
  let f := s.house.fw
  match f.image with
  | none => s
  | some image =>
    if s.imageOpen then s
    else
      let slot := 1 - f.inEffect
      let h := image.take 512
      let d := if s.house.journal.state = 1 then 5 else imageDetail f.minimum h (image.drop 512) (image.length == 512 + fld 12 4 h)
      if d != 0 then s.imageRefused d
      else
        let s := s.setFw { f with load := 2, detail := 0, image := none }
        let s := s.putSlot slot { state := 2, version := fld 4 4 h, security := fld 8 4 h, header := h }
        if s.sys.hk = .recovery then s.startImage slot else s

/-! ## Event frames (R386) -/

/-- The entries a subscriber has not been sent. -/
def gathered (s : State) (x : Subscriber) : List Event :=
  (s.house.events.filter (fun e => bit x.mask e.line && x.sent < e.seq)).take 32

/-- Least time between two frames to one subscriber, ns. -/
def frameGap : Nat := 100000

/-- Send a subscriber an event frame, when entries have gathered and the gap has passed. Event frames carry no xid. -/
def eventFrame (i : Nat) (s : State) : State :=
  match s.house.subscribers[i]? with
  | none => s
  | some x =>
    let es := s.gathered x
    if es.isEmpty || s.sys.hk != .running || (x.lastAt != 0 && s.now < x.lastAt + frameGap) then s
    else
      let data := es.flatMap eventBytes
      let body := [7, 0] ++ zeros 10 ++ toLE 4 data.length ++ data
      let y := { x with sent := maxL (es.map (fun e => e.seq)), lastAt := s.now }
      let s : State := { s with house := { s.house with subscribers := setAt s.house.subscribers i y } }
      s.post 0x38 x.node (x.node % 2) x.job s.mem.epoch s.fr.step 0 body

end State

end Sys2Proof.Machine
end

