-- ==== Sys2Proof/Machine/DictWrite.lean ====
section
/-! DEFINITION. Writing the object dictionary (R9 to R11, R15, R371, R378, R400, R406 to R409, Tables 14.2 and 14.3, and the checks that
each chapter places at the write). -/

namespace Sys2Proof.Machine

/-- How a write is answered. -/
inductive WriteAns where
  | done
  | refused (reason : Nat)
  | retry
  | absent
  /-- The write completes later, and is answered then (R290). -/
  | wait
  deriving DecidableEq, Repr

/-- The exact value order of F32 patterns. -/
def f32Within (lo hi v : Nat) : Bool :=
  let x := exactOf (BitVec.ofNat 32 v)
  exactOf (BitVec.ofNat 32 lo) ≤ x && x ≤ exactOf (BitVec.ofNat 32 hi)

/-- A scalar lies in an entry's range (Table 14.2); a scalar of a program slot takes any pattern (Table 4.9, "Any"). -/
def inRange (r : EntryRow) (n : Nat) : Bool :=
  match r.ty with
  | .f32 =>
    if 0x2300 ≤ r.idxLo && r.idxHi ≤ 0x233F then true
    else !Fp.isNaN (BitVec.ofNat 32 n) && !Fp.isInf (BitVec.ofNat 32 n) && f32Within r.lo r.hi n
  | _ => r.lo ≤ n && n ≤ r.hi

/-- Lengths of a STR or DOM value that the entry's layout allows (check 3). -/
def blobLayout (idx subi : Nat) (b : Bytes) : Bool :=
  if idx = 0x1120 then b.length % 2 == 0
  else if idx = 0x2210 then (State.readNotice b).isSome
  else if idx = 0x2410 then b.length % 16 == 0
  else if idx = 0x2650 then State.contextLayout b
  else if idx = 0x3070 then b.length % 8 == 0
  else if idx = 0x3090 && subi = 1 then b.length % 4 == 0
  else true

/-- Width, length and layout of a value (check 3). -/
def widthOk (r : EntryRow) (idx subi : Nat) (v : Val) : Bool :=
  match v with
  | .num n => !r.ty.isBlob && n < 256 ^ r.ty.bytes
  | .blob b => r.ty.isBlob && r.lo ≤ b.length && b.length ≤ r.hi && blobLayout idx subi b

/-- No element of a list of words is zero or comes twice; the list is sorted for the test. -/
def wordsDistinct (l : List Nat) : Bool :=
  let go := l.mergeSort (fun a b => decide (a ≤ b))
  !go.contains 0 && (go.zip (go.drop 1)).all (fun x => x.1 != x.2)

/-- A table set that R254 accepts. -/
def tableSetOk (b : Bytes) : Bool :=
  (List.range 4).all (fun j => wordsDistinct ((pieces 8 ((b.drop (32768 * j)).take 32768)).map leNat))

/-- Seed entries in order, with zero reserved fields (R258). -/
def seedsOk (b : Bytes) : Bool :=
  let es := pieces 16 b
  let key (e : Bytes) : Nat := fld 0 2 e * 65536 + fld 2 2 e
  es.all (fun e => fld 2 2 e ≤ 1 && fld 4 4 e == 0) && (es.zip (es.drop 1)).all (fun x => key x.1 < key x.2)

/-- A calibration record that R379 accepts. -/
def calibrationOk (b : Bytes) : Bool :=
  let w (i : Nat) : W32 := BitVec.ofNat 32 (fld (4 * i) 4 b)
  let finite (x : W32) : Bool := !Fp.isNaN x && !Fp.isInf x
  (List.range 16).all (fun i => finite (w (4 * i)) && finite (w (4 * i + 1))) &&
    (List.range 8).all (fun i =>
      let k := 64 + 4 * i
      finite (w k) && finite (w (k + 1)) && finite (w (k + 2)) && finite (w (k + 3)) && exactOf (w (k + 2)) < exactOf (w (k + 3)))

/-- A retired-row list: entries as (bank, row). -/
def rowList (b : Bytes) : List (Nat × Nat) := (pieces 4 b).map (fun e => (fld 0 2 e, fld 2 2 e))

/-- A bank and row exist (R424, R425). -/
def rowExists (b : Build) (e : Nat × Nat) : Bool := (e.1 < b.banks || (256 ≤ e.1 && e.1 ≤ 278)) && e.2 < 4096

/-- Times that an entry stands in a list. -/
def timesIn (l : List (Nat × Nat)) (e : Nat × Nat) : Nat := (l.filter (fun x => x == e)).length

/-- The new list keeps every entry of the old one. -/
def keepsRows (old new : List (Nat × Nat)) : Bool := old.all (fun e => timesIn old e ≤ timesIn new e)

/-- A retired-row list that R397 accepts. -/
def rowListOk (build : Build) (old new : List (Nat × Nat)) : Bool :=
  let key (e : Nat × Nat) : Nat := e.1 * 65536 + e.2
  new.all (rowExists build) && (new.zip (new.drop 1)).all (fun x => key x.1 ≤ key x.2) &&
    new.all (fun e => (new.filter (fun x => x.1 == e.1)).length ≤ 2) && keepsRows old new

/-- Parameters of a twist context that R327 accepts. -/
def twistOk (x : TwistCtx) : Bool :=
  8 ≤ x.width && x.width ≤ 64 && x.flags < 8 && x.poly < 2 ^ x.width && x.init < 2 ^ x.width && x.xorout < 2 ^ x.width

/-- Read a context record (Table 11.9). -/
def readTwistRec (b : Bytes) : TwistCtx :=
  { width := fld 0 1 b, flags := fld 1 1 b, poly := fld 8 8 b, init := fld 16 8 b, xorout := fld 24 8 b, reg := fld 32 8 b }

namespace State

/-! ## Checks 2 and 4 -/

/-- The path may not write the entry (R400, R401; JTAG never). -/
def pathBars (s : State) (path : Path) (addr : Nat) : Bool :=
  match path with
  | .regPort => false
  | .jtag => true
  | .ocper _ => addr == 0x111002 || addr == 0x311001
  | .jutus => addr == 0x111002 || addr == 0x311001 || !s.house.jutus.unlocked

/-- A parameter of a twist context with the value that will stand at the threshold. -/
def twistNext (s : State) (c subi dflt : Nat) : Nat :=
  match s.stagedAt (0x2700 + c) subi with
  | some (.num n) => n
  | _ => dflt

/-- A write to a twist context that R327 refuses. -/
def twistBad (s : State) (c subi : Nat) (v : Val) : Bool :=
  let x := s.twistAt c
  s.twistOwner c != 7 || (match v with
    | .blob b => !twistOk (readTwistRec b) || fld 2 6 b != 0 || 2 ^ fld 0 1 b ≤ fld 32 8 b
    | .num n => (subi == 3 || subi == 4 || subi == 6) && 2 ^ s.twistNext c 2 x.width ≤ n)

/-- Bit 0 of the frame declaration's flags is set in the plan in effect. -/
def drainPlan (s : State) : Bool :=
  match s.planEff with
  | some p => bit p.frame.flags 0
  | none => false

/-- A drain schedule may be written (R180): the plan in effect drains, or the pending one will (log 165). -/
def drainDeclared (s : State) : Bool := s.drainPlan || (match s.planPend with
  | some p => bit p.frame.flags 0
  | none => false)

/-- The checks that a chapter places at the write of a scalar (check 4). -/
def scalarBad (s : State) (idx subi n : Nat) : Bool :=
  if idx = 0x10FD then subi = 2 && n % 4 != 0
  else if idx = 0x1200 then !s.clockFits n
  else if idx = 0x1230 then !s.fr.opened || n != s.fr.step || s.sys.hk == .starting
  else if 0x2700 ≤ idx && idx ≤ 0x27FF then s.twistBad (idx - 0x2700) subi (.num n)
  else if idx = 0x2060 && subi ≤ 2 then !s.drainDeclared
  else if idx = 0x3020 then 2 ^ s.straps.build.spindles ≤ n || (List.range s.C).any (fun c => n / 4 ^ c % 4 == 0)
  else if idx = 0x3100 && subi = 4 then (s.fwSlot n).state != 2
  else if idx = 0x3100 && subi = 6 then n < s.house.fw.minimum
  else if idx = 0x3200 then n * 2 ^ 20 != s.npBytes
  else if idx = 0x5FFE then !counterIndex n
  else false

/-- Subscribers that R386 accepts: a zero byte, and job tag 0 or the framed job's. -/
def subscribersOk (s : State) (b : Bytes) : Bool :=
  (pieces 8 b).all (fun e => fld 3 1 e == 0 && (fld 4 4 e == 0 || fld 4 4 e == s.jobTag))

/-- The checks that a chapter places at the write of a STR or DOM (check 4). -/
def blobBad (s : State) (idx subi : Nat) (b : Bytes) : Bool :=
  if idx = 0x2210 then fld 0 4 b ≤ s.planEpoch && s.planEff.isSome
  else if idx = 0x2400 then !tableSetOk b
  else if idx = 0x2410 then !seedsOk b
  else if 0x2700 ≤ idx && idx ≤ 0x27FF then s.twistBad (idx - 0x2700) subi (.blob b)
  else if idx = 0x3061 then !calibrationOk b
  else if idx = 0x3070 then !s.subscribersOk b
  else if idx = 0x3090 then !rowListOk s.straps.build s.scrub.retired (rowList b)
  else false

/-- The entry is busy (check 5). -/
def busy (s : State) (idx subi : Nat) : Bool :=
  if idx = 0x1100 then s.planEff.isSome || s.planPend.isSome
  else if idx = 0x3100 && subi = 1 then s.house.fw.load == 1 || (s.stagedAt 0x3100 0x04).isSome || s.house.fw.switchHeld.isSome
  else if idx = 0x3200 then s.sys.hk != .running && s.sys.hk != .recovery
  else false

/-- The first check of Table 14.3 that fails; none when the write may be done. -/
def writeFault (s : State) (path : Path) (r : EntryRow) (idx subi : Nat) (v : Val) : Option Nat :=
  if subi = 0 || r.acc == .ro || r.acc == .rc then some 1
  else if s.pathBars path (addrOf idx subi) then some 2
  else if !widthOk r idx subi v then some 3
  else if (match v with
    | .num n => !inRange r n || s.scalarBad idx subi n
    | .blob b => s.blobBad idx subi b) then some 4
  else if s.busy idx subi then some 5
  else none

/-! ## Mask stripes (R61, R54) -/

/-- A stripe of a hank's mask map: the first copy, or the second where the first is unreadable. -/
def maskMapStripe (s : State) (r : HankRt) (t : Nat) : Bytes :=
  s.spanRead (if s.maskCopyBad r 0 t then r.desc.maskB else r.desc.maskA) (t * 4096) 4096

/-- The mask digest with one stripe replaced (R54). -/
def maskDigestOf (s : State) (r : HankRt) (newer : Option (Nat × Bytes)) : Nat :=
  (List.range (ceilDiv (maskBytes r.desc.count) Config.stripe)).foldl (fun acc t =>
    let bs := match newer with
      | some (i, b) => if i = t then b else s.maskMapStripe r t
      | none => s.maskMapStripe r t
    add64 acc (stripeHash r.hank 0x10 t bs)) 0

/-- A mask stripe written to 0x3040.02: taken into both copies when the mask digest recomputed with it is the hank's; the groups held for
it may go on (R61). -/
def maskRepair (b : Bytes) (s : State) : State × Nat :=
  let h := fld 0 2 b
  let t := fld 4 4 b
  let bs := b.drop 8
  match s.hank? h with
  | none => (s, 4)
  | some r =>
    if r.desc.cls != 1 || !r.desc.masked || r.state < 2 || fld 2 2 b != 0 || ceilDiv (maskBytes r.desc.count) Config.stripe ≤ t ||
        s.maskDigestOf r (some (t, bs)) != r.maskDigest then (s, 4)
    else
      let s := (s.spanWrite r.desc.maskA (t * 4096) bs).spanWrite r.desc.maskB (t * 4096) bs
      let s := s.clearBad (s.spanBlocks r.desc.maskA (t * 4096) 4096 ++ s.spanBlocks r.desc.maskB (t * 4096) 4096)
      let s := s.updHank h (fun x => { x with maskBad := x.maskBad.filter (fun m => m.2 != t) })
      let held := s.card.heldGroups.filter (fun k => !(k.1 == s.myPos && k.2.1 == h && maskStripe k.2.2.1 == t && k.2.2.2 == 1))
      ({ s with card := { s.card with heldGroups := held } }, 0)

/-- A lost member's mask stripe written to 0x2040.07 (R160). -/
def lostMaskWrite (b : Bytes) (s : State) : State × Nat :=
  if fld 1 1 b != 0 then (s, 4)
  else
    let (s, ok) := s.lostMaskStripe (fld 0 1 b) (fld 2 2 b) (fld 4 4 b) (b.drop 8)
    (s, if ok then 0 else 4)

/-! ## Keys, node and small settings -/

/-- Change the fabric's keys. -/
def setFx (f : FxSt) (s : State) : State := { s with fx := f }

/-- Change Jutus. -/
def setJutus (j : JutusSt) (s : State) : State := { s with house := { s.house with jutus := j } }

/-- A write of 0x10FB.01 on a path (R413). -/
def setView (path : Path) (n : Nat) (s : State) : State :=
  let h := s.house
  { s with house := { h with views := h.views.filter (fun x => x.1 != path) ++ [(path, n)] } }

/-- Acknowledge the events of a line up to a seq (R385). -/
def ackEvents (line seq : Nat) (s : State) : State :=
  let h := s.house
  if seq ≤ natAt h.acked line then s
  else { s with house := { h with
    acked := setAt h.acked line seq
    events := mapIf (fun e => e.line == line && decide (e.seq ≤ seq)) (fun e => { e with acked := true }) h.events } }

/-- Replace the event subscribers (R386): each hears of entries raised from now on. -/
def subscribe (b : Bytes) (s : State) : State :=
  let subs := (pieces 8 b).map (fun e =>
    ({ node := fld 0 2 e, mask := fld 2 1 e, job := fld 4 4 e, sent := s.house.nextSeq - 1, lastAt := 0 } : Subscriber))
  { s with house := { s.house with subscribers := subs } }

/-- A new minimum security version is journaled (R395). -/
def raiseMinimum (n : Nat) (s : State) : State :=
  let f := s.house.fw
  let s := s.setFw { f with minimum := n }
  s.journalState 0x21 (s.firmwareBody f.inEffect (1 - f.inEffect) (if f.trial.isSome then 1 else 0))

/-- Host firmware writes an enable mask: the fault retirements of its units are lifted (R381, log 48). -/
def liftRetired (idx subi : Nat) (s : State) : State :=
  let h := s.house.health
  let spindles := if idx = 0x3020 then [] else h.retiredSpindles
  let lanes := if idx = 0x3010 then h.retiredLanes.filter (fun u => u / 64 + 1 != subi) else h.retiredLanes
  if spindles = h.retiredSpindles && lanes = h.retiredLanes then s
  else
    let s := s.setHealth { h with retiredSpindles := spindles, retiredLanes := lanes }
    s.journalState 0x27 s.retirementsBody

/-- Raise `tk_rollcall_out` (R360); the time goes to the frame trace (R386). -/
def raiseRollcall (s : State) : State :=
  let t := mapIf (fun (x : TraceEnt) => x.step == s.fr.step && x.rcOut == 0) (fun x => { x with rcOut := s.now }) s.house.trace
  { s with fr := { s.fr with rcOut := true }, house := { s.house with trace := t } }

/-- A table set begins to be copied into the staged banks (R255). -/
def stageTables (b : Bytes) (s : State) : State :=
  let s := if s.whorl.stagedTables.isSome then s.bump 0x5000 0x09 1 else s
  { s with whorl := { s.whorl with stagedTables := some (.loaded b), copyState := 1 } }

/-- Begin a copy to a replica's replacement (R178); the node 0xFFFF names none. -/
def replicaTarget (n : Nat) (s : State) : State :=
  let s := s.setReg 0x2070 0x01 n
  if n = 0xFFFF || s.code.layout.isNone then s else s.copyStart n

/-! ## The transfer window (R364) -/

/-- A target written to 0x10FD.01: its value is copied into the buffer. -/
def xferTarget (path : Path) (addr : Nat) (s : State) : State :=
  let s := (s.setReg 0x10FD 0x01 addr).setReg 0x10FD 0x02 0
  let (s, v) : State × Option (EntryRow × Val) :=
    if addrIdx addr = 0x10FD then (s, none) else s.readEntry path addr
  let bytes : Bytes := match v with
    | some (r, x) => valueBytes r.ty x
    | none => []
  { s with house := { s.house with xfer := bytes, xferLen := bytes.length } }

/-- A word written to 0x10FD.03: 4 bytes at the offset, which advances. -/
def xferWord (n : Nat) (s : State) : State :=
  let o := s.reg 0x10FD 0x02
  let s : State := if xferSize < o + 4 then s
    else
      let b := s.house.xfer
      let b := b ++ zeros (o + 4 - b.length)
      { s with house := { s.house with xfer := patch o (toLE 4 n) b } }
  s.xferAdvance

/-- The first bytes of the buffer as a value of the target's type. -/
def xferValue (s : State) (addr len : Nat) : Val :=
  let b := fit len s.house.xfer
  match entry? s.straps.build (addrIdx addr) (addrSub addr) with
  | some r => if !r.ty.isBlob && len = r.ty.bytes then .num (leNat b) else .blob b
  | none => .blob b

/-! ## Doing a write -/

/-- What a write of a scalar that is not staged does; the reason where the chapter's own check refuses it. -/
def doScalar (path : Path) (idx subi n : Nat) (s : State) : State × Nat :=
  if idx = 0x10FB then (s.setView path n, 0)
  else if idx = 0x10FD && subi = 1 then (s.xferTarget path n, 0)
  else if idx = 0x10FD && subi = 3 then (s.xferWord n, 0)
  else if idx = 0x1230 then (s.raiseRollcall, 0)
  else if idx = 0x2070 then (s.replicaTarget n, 0)
  else if idx = 0x3070 && 0x10 ≤ subi then (s.ackEvents (subi - 0x10) n, 0)
  else if idx = 0x3100 then (s.raiseMinimum n, 0)
  else if idx = 0x3110 then (s.setJutus { s.house.jutus with baud := n }, 0)
  else if idx = 0x3200 then (s.journalFormat, 0)
  else if idx = 0x5FFE then (State.setReg idx subi n { s with house := { s.house with bulkNamed := true } }, 0)
  else (s.setReg idx subi n, 0)

/-- What a write of a STR or DOM that is not staged does: 0 when it is done, 7 or 9 as a discard says, else the reason of refusal. -/
def doBlob (path : Path) (idx subi : Nat) (b : Bytes) (s : State) : State × Nat :=
  if idx = 0x1110 && subi = 1 then (s.setFx { s.fx with nextKey := some b }, 0)
  else if idx = 0x1110 then (s.setFx { s.fx with blockKey := some b }, 0)
  else if idx = 0x1220 then (s.startLoad b none, 0)
  else if idx = 0x2010 then s.onProposal b
  else if idx = 0x2040 then s.lostMaskWrite b
  else if idx = 0x2210 then (match readNotice b with
    | some n => ((s.holdNotice n).serveHeldOut, 0)
    | none => (s, 3))
  else if idx = 0x2520 then s.pageDiscard path b
  else if idx = 0x2600 then ({ s with led := { s.led with jobKey := some b } }, 0)
  else if idx = 0x2630 then s.hashProbe b
  else if idx = 0x2640 then s.restoreRequest b
  else if idx = 0x2650 then (s.contextWrite b, 0)
  else if idx = 0x3040 then s.maskRepair b
  else if idx = 0x3070 then (s.subscribe b, 0)
  else if idx = 0x3100 then (s.firmwareLoad b, 0)
  else if idx = 0x3110 then (s.setJutus { s.house.jutus with deviceKey := some b }, 0)
  else (s, 4)

/-- Stage a write of an RS entry (R10, R15). -/
def doStage (idx subi : Nat) (v : Val) (s : State) : State :=
  match v with
  | .blob b => if idx = 0x2400 then s.stageTables b else s.stage idx subi v
  | .num _ => if idx = 0x3010 || idx = 0x3020 then (s.stage idx subi v).liftRetired idx subi else s.stage idx subi v

/-- Do a write that passed the checks of Table 14.3 but those of its own chapter's state. -/
def applyWrite (path : Path) (r : EntryRow) (idx subi : Nat) (v : Val) (s : State) : State × Nat :=
  if r.acc = .rs then (s.doStage idx subi v, 0)
  else match v with
    | .num n => s.doScalar path idx subi n
    | .blob b => s.doBlob path idx subi b

/-- A refused write counts in 0x50B0.05 as well where it is to a fabric context, whatever the reason, or has parameters out of range (R327,
R330). -/
def countTwist (idx reason : Nat) (s : State) : State :=
  if 0x2700 ≤ idx && idx ≤ 0x27FF && (reason = 4 || s.twistOwner (idx - 0x2700) != 7) then s.bump 0x50B0 0x05 1 else s

/-- A write to an entry other than the transfer window's apply. -/
def writeEntry (path : Path) (addr : Nat) (v : Val) (s : State) : State × WriteAns :=
  let idx := addrIdx addr
  let subi := addrSub addr
  match entry? s.straps.build idx subi with
  | none => (s.noEntry, .absent)
  | some r =>
    match s.writeFault path r idx subi v with
    | some why => ((s.countTwist idx why).refuseWrite (pathNo path) addr why, .refused why)
    | none =>
      let (s1, why) := s.applyWrite path r idx subi v
      if why = 0 then (s1, .done) else if why = 7 then (s1, .retry) else if why = 9 then (s1, .wait)
      else (s1.refuseWrite (pathNo path) addr why, .refused why)

/-- Write an entry (R408). A write of 0x10FD.04 applies the buffer to the target as one write with the target's own checks (R364); the
window itself is no target. -/
def dictWrite (path : Path) (addr : Nat) (v : Val) (s : State) : State × WriteAns :=
  if addr = 0x10FD04 then
    match entry? s.straps.build 0x10FD 0x04, v with
    | some r, .num n =>
      match s.writeFault path r 0x10FD 0x04 v with
      | some why => (s.refuseWrite (pathNo path) addr why, .refused why)
      | none =>
        let target := s.reg 0x10FD 0x01
        if addrIdx target = 0x10FD then (s.refuseWrite (pathNo path) target 4, .refused 4)
        else s.writeEntry path target (s.xferValue target n)
    | _, _ => (s.refuseWrite (pathNo path) addr 3, .refused 3)
  else s.writeEntry path addr v

/-! ## Restarts and recovery (R15, R371, R376, R378) -/

/-- An index that the register port serves in recovery (R378). -/
def recoveryIndex (idx : Nat) : Bool := idx == 0x1000 || idx == 0x3100 || idx == 0x3200

/-- What the register port serves in recovery: those entries, and the transfer window while its target, or the one that is written, is one
of them: an image, a DOM, is written in no other way (R363, R378; DEDUCED, log 196). -/
def recoveryServes (s : State) (addr : Nat) (w : Option Val) : Bool :=
  if addrIdx addr = 0x10FD then
    (match addrSub addr, w with
      | 1, some (.num n) => recoveryIndex (addrIdx n)
      | _, _ => recoveryIndex (addrIdx (s.reg 0x10FD 0x01)))
  else recoveryIndex (addrIdx addr)

/-- Reads that the register port serves during a restart (R371). -/
def restartRead (addr : Nat) : Bool :=
  let idx := addrIdx addr
  (0x5000 ≤ idx && idx ≤ 0x5FFF) || (idx == 0x1200 && 1 ≤ addrSub addr && addrSub addr ≤ 3) || idx == 0x1210 || idx == 0x1220

/-- Writes that the register port takes during a restart: those of RS entries, which are stored (R15), and acknowledgements of events, which
the event hardware holds and which take effect at once (R385). -/
def restartWrite (s : State) (addr : Nat) : Bool :=
  match entry? s.straps.build (addrIdx addr) (addrSub addr) with
  | some r => (r.acc == .rs && !r.ty.isBlob) || (addrIdx addr == 0x3070 && 0x10 ≤ addrSub addr && addrSub addr ≤ 0x17)
  | none => false

/-- The access, a read or a write of a value, is served now. -/
def serves (s : State) (path : Path) (addr : Nat) (w : Option Val) : Bool :=
  match s.sys.hk, path with
  | .running, _ => true
  | .starting, _ => false
  | .restarting, .ocper _ => false
  | .restarting, .jutus => false
  | .restarting, _ => if w.isSome then s.restartWrite addr else restartRead addr
  | .recovery, .ocper _ => false
  | .recovery, .jutus => false
  | .recovery, _ => s.recoveryServes addr w

/-- A write loads a plan: one of 0x1220.01, or an apply of the transfer window with that target (R27, R364). -/
def loadsPlan (s : State) (addr : Nat) : Bool := (if addr = 0x10FD04 then s.reg 0x10FD 0x01 else addr) == 0x122001

/-- Count an access answered retry: a plan load in 0x5000.06, a register access in 0x50C0.06, an Ocper request in 0x50D0.0C. R371 refuses a
write of the transfer window's target during a restart as R15 does a load, so it counts as one (DEDUCED, log 196). -/
def countRetry (path : Path) (addr : Nat) (write : Bool) (s : State) : State :=
  let load := write && (s.loadsPlan addr || (addr == 0x10FD01 && s.sys.hk == .restarting))
  let s := if load then s.bump 0x5000 0x06 1 else s
  match path with
  | .ocper _ => s.bump 0x50D0 0x0C 1
  | .jutus => s
  | _ => if load then s else s.bump 0x50C0 0x06 1

/-- A write as the block takes it in its present state. -/
def gateWrite (path : Path) (addr : Nat) (v : Val) (s : State) : State × WriteAns :=
  if s.serves path addr (some v) then s.dictWrite path addr v else (s.countRetry path addr true, .retry)

/-- Put the answer of a write on its path. -/
def answerWrite (path : Path) (a : WriteAns) (s : State) : State :=
  match path with
  | .regPort => s.emit (.rp (match a with
    | .done => 0
    | .retry => 2
    | _ => 1) 0)
  | _ => s.emit (.wr path (match a with
    | .done => 0
    | .refused r => r
    | .retry => 7
    | .wait => 9
    | .absent => 8))

/-- A write of the register port to an entry: the word, or for a U64 the word with the high word of 0x10FE.02; a STR or DOM is refused
(R363). -/
def portValue (s : State) (addr : Nat) (v : Val) : Val :=
  match v, entry? s.straps.build (addrIdx addr) (addrSub addr) with
  | .num n, some r => if r.ty = .u64 then .num (s.reg 0x10FE 0x02 * 2 ^ 32 + n % 2 ^ 32) else .num (n % 2 ^ 32)
  | .num n, none => .num (n % 2 ^ 32)
  | .blob _, _ => .num 0

/-- The value that a path carries to an entry. -/
def carriedValue (s : State) (path : Path) (addr : Nat) (v : Val) : Val := if path = .regPort then s.portValue addr v else v

/-- A write that comes in on a path (R408). -/
def ownWrite (path : Path) (addr : Nat) (v : Val) (s : State) : State :=
  let (s1, a) := s.gateWrite path addr (s.carriedValue path addr v)
  if a = .wait then s1 else s1.answerWrite path a

/-! ## Register-port reads (R363, R364) -/

/-- A read on the register port or through DICTRD: the word, with the high word of a U64 latched; STR and DOM are refused. -/
def wordRead (path : Path) (addr : Nat) (s : State) : State × Nat × Nat :=
  if !s.serves path addr none then (s.countRetry path addr false, 2, 0)
  else
    match s.readValue path addr with
    | none => (s.noEntry, 1, 0)
    | some (r, v) =>
      match v with
      | .blob _ => (s, 1, 0)
      | .num n =>
        let s1 := s.afterRead r (addrIdx addr) (addrSub addr)
        if r.ty = .u64 then ({ s1 with house := { s1.house with latch := n / 2 ^ 32 } }, 0, n % 2 ^ 32)
        else (s1, 0, n)

end State

end Sys2Proof.Machine
end

