-- ==== Sys2Proof/Machine/Jtag.lean ====
section
/-! DEFINITION. The JTAG port (R368, R423, Table 12.19): one command selects an instruction, updates its data register and captures it. -/

namespace Sys2Proof.Machine

/-- The IDCODE register. -/
def idcode (mfr : Nat) : Nat := 3 * 2 ^ 28 + 0x4C5A * 2 ^ 12 + mfr % 2 ^ 11 * 2 + 1

/-- The next state of the TAP controller (R368; IEEE 1149.1, PRESUMED, log 189). -/
def Tap.next (t : Tap) (tms : Bool) : Tap :=
  match t, tms with
  | .reset, false => .idle
  | .reset, true => .reset
  | .idle, false => .idle
  | .idle, true => .selectDr
  | .selectDr, false => .captureDr
  | .selectDr, true => .selectIr
  | .captureDr, false => .shiftDr
  | .captureDr, true => .exit1Dr
  | .shiftDr, false => .shiftDr
  | .shiftDr, true => .exit1Dr
  | .exit1Dr, false => .pauseDr
  | .exit1Dr, true => .updateDr
  | .pauseDr, false => .pauseDr
  | .pauseDr, true => .exit2Dr
  | .exit2Dr, false => .shiftDr
  | .exit2Dr, true => .updateDr
  | .updateDr, false => .idle
  | .updateDr, true => .selectDr
  | .selectIr, false => .captureIr
  | .selectIr, true => .reset
  | .captureIr, false => .shiftIr
  | .captureIr, true => .exit1Ir
  | .shiftIr, false => .shiftIr
  | .shiftIr, true => .exit1Ir
  | .exit1Ir, false => .pauseIr
  | .exit1Ir, true => .updateIr
  | .pauseIr, false => .pauseIr
  | .pauseIr, true => .exit2Ir
  | .exit2Ir, false => .shiftIr
  | .exit2Ir, true => .updateIr
  | .updateIr, false => .idle
  | .updateIr, true => .selectDr

/-- `jt_tdo_en` (Table 12.18). -/
def Tap.tdoEn (t : Tap) : Bool := t == .shiftIr || t == .shiftDr

namespace State

/-- Change the test logic. -/
def setJtag (j : JtagSt) (s : State) : State := { s with jtag := j }

/-- Clock the TAP controller with the values of `jt_tms`, the first first. -/
def tapRun (tms : List Bool) (s : State) : State := s.setJtag { s.jtag with tap := tms.foldl Tap.next s.jtag.tap }

/-- An IR scan from Run-Test/Idle or Test-Logic-Reset: the instruction register captures 0b00001, its 5 bits are shifted out while the code
is shifted in, and Update-IR puts it in effect. -/
def irScan (code : Nat) (s : State) : State :=
  let s := s.tapRun ([false, true, true, false, false] ++ List.replicate 4 false ++ [true, true])
  (s.setJtag { s.jtag with ir := code }).emit (.jtagIr 1)

/-- The data register of DICTRD: the word and its status; bits 23:0 of a capture have a value that the manual does not state (log 50). -/
def dictCapture (s : State) : State :=
  (s.spendFree 3).emit (.jtag (leNat (s.freeBytes 3) + s.jtag.dictWord * 2 ^ 24 + s.jtag.dictStatus * 2 ^ 56))

/-- Update-DR of DICTRD: the word at the address is read under the rules of R363; status 2 until `lz_ready` rises (R423). -/
def dictUpdate (addr : Nat) (s : State) : State :=
  let j := { s.jtag with dictAddr := addr }
  if s.sys.lzReset || !s.sys.ready then s.setJtag { j with dictWord := 0, dictStatus := 2 }
  else
    let (s, status, word) := s.wordRead .jtag addr
    s.setJtag { j with dictWord := word, dictStatus := status }

/-- The data register of MBIST: done, fail and the first failing bank; the bits that carry none of these have a value that the manual
does not state (log 50). -/
def mbistCapture (s : State) : State :=
  let j := s.jtag
  let f := leNat (s.freeBytes 4)
  let bank := if j.mbistDone && j.mbistFail then j.mbistBank else f / 2 ^ 16
  (s.spendFree 4).emit (.jtag (flagOf j.mbistDone + 2 * flagOf j.mbistFail + 4 * (f % 2 ^ 14) + bank * 2 ^ 16))

/-- Update-DR of MBIST: bit 0 set starts the test while `lz_reset` is high; started while it is low, the register captures done 0 and
fail 1. -/
def mbistUpdate (start : Bool) (s : State) : State :=
  let j := s.jtag
  s.setJtag (if start then { j with mbistRunning := s.sys.lzReset, mbistDone := false, mbistFail := !s.sys.lzReset } else j)

/-- Bits of the data register that an instruction selects (Table 12.19). -/
def drBits (ir : Nat) : Nat := if ir = 0x01 || ir = 0x11 then 32 else if ir = 0x10 then 58 else 1

/-- Capture-DR: IDCODE, DICTRD and MBIST have registers of their own, and every other code acts as BYPASS, whose bit captures 0. -/
def capture (s : State) : State :=
  if s.jtag.ir = 0x01 then s.emit (.jtag (idcode s.straps.jtMfr))
  else if s.jtag.ir = 0x10 then s.dictCapture
  else if s.jtag.ir = 0x11 then s.mbistCapture
  else s.emit (.jtag 0)

/-- A DR scan from Update-IR, Update-DR or Run-Test/Idle: the register is captured and shifted out while the new value is shifted in, and
Update-DR takes it. -/
def drScan (update : State → State) (s : State) : State :=
  let n := drBits s.jtag.ir
  let s := (s.tapRun ([true, false, false] ++ List.replicate (n - 1) false ++ [true, true])).capture
  update s

/-- Back to Run-Test/Idle. -/
def tapIdle (s : State) : State := s.tapRun [false]

/-- IDCODE: one scan of the instruction, one of the data. -/
def jtagId (s : State) : State := ((s.irScan 0x01).drScan (fun st => st)).tapIdle

/-- DICTRD: a scan gives the address, and a second one captures the word read there. -/
def jtagDict (addr : Nat) (s : State) : State := (((s.irScan 0x10).drScan (dictUpdate addr)).drScan (fun st => st)).tapIdle

/-- MBIST: a scan gives bit 0, and a second one, with bit 0 clear, captures what follows from it. -/
def jtagTest (start : Bool) (s : State) : State := (((s.irScan 0x11).drScan (mbistUpdate start)).drScan (fun st => st)).tapIdle

/-- The test completes; the failing bank is one of the build's or of the housekeeper's (R424, R425). -/
def mbistEnd (fail : Bool) (bank : Nat) (s : State) : State :=
  if s.jtag.mbistRunning && rowExists s.straps.build (bank, 0) then
    s.setJtag { s.jtag with mbistRunning := false, mbistDone := true, mbistFail := fail, mbistBank := bank }
  else s

/-- A code that acts as BYPASS: one that Table 12.19 gives another instruction is not of this row. -/
def bypassCode (code : Nat) : Nat := if code = 0x01 || code = 0x10 || code = 0x11 then 0x1F else code

/-- BYPASS, or any other code, which acts as it. -/
def jtagBypassed (code : Nat) (s : State) : State := ((s.irScan (bypassCode code)).drScan (fun st => st)).tapIdle

/-- Test logic reset, by `jt_trst` or by `jt_tms` high, selects IDCODE. -/
def jtagTlr (s : State) : State := s.setJtag { s.jtag with tap := .reset, ir := 0x01 }

end State

end Sys2Proof.Machine
end

