-- ==== Sys2Proof/Machine/Ocper.lean ====
section
/-! DEFINITION. Ocper: dictionary access over the fabric (R398 to R400, Tables 13.10 and 13.11). -/

namespace Sys2Proof.Machine

/-- An Ocper request as its frame spells it (Table 13.10). -/
structure OcperMsg where
  client : Nat
  request : Nat
  job : Nat
  op : Nat
  status : Nat
  xid : Nat
  address : Nat
  offset : Nat
  count : Nat
  data : Bytes
  deriving DecidableEq, Repr

/-- Read a frame. -/
def readOcper (m : HeldMsg) : OcperMsg :=
  let b := m.body
  { client := m.source, request := m.request, job := m.job, op := fld 0 1 b, status := fld 1 1 b, xid := fld 2 2 b, address := fld 4 4 b,
    offset := fld 8 4 b, count := fld 12 4 b, data := b.drop 16 }

/-- The body of a request with the operation of its row. -/
def ocperBody (op : Nat) (q : OcperReq) : Bytes :=
  toLE 1 op ++ toLE 1 q.status.toNat ++ toLE 2 q.xid.toNat ++ toLE 4 q.address.toNat ++ toLE 4 q.offset.toNat ++
    toLE 4 q.count.toNat ++ q.data

/-- A field of a request lies outside what Tables 13.10 and 13.11 allow: answered with status 4. -/
def OcperMsg.badForm (q : OcperMsg) : Bool :=
  q.status != 0 || (q.op != 3 && q.op != 4 && q.offset != 0) || (q.op == 1 && q.count != 0) ||
    ((q.op == 3 || q.op == 4) && (q.count < 1 || 65536 < q.count))

/-- The path of a client. -/
def OcperMsg.path (q : OcperMsg) : Path := .ocper (BitVec.ofNat 16 q.client)

/-- A refused write's status (R408): reason 3 is answered with status 4, every other one with status 1. -/
def ocperStatus : WriteAns → Nat
  | .done => 0
  | .refused r => if r = 3 then 4 else 1
  | .retry => 2
  | .wait => 2
  | .absent => 3

namespace State

/-- Answer a request (R399): a response frame under the request's job and request field, on the way of its destination (R302, R307). -/
def ocperAnswer (q : OcperMsg) (status : Nat) (data : Bytes) (s : State) : State :=
  let count := if q.op = 5 then q.count else data.length
  let body := toLE 1 (q.op + 0x80) ++ toLE 1 status ++ toLE 2 q.xid ++ toLE 4 q.address ++ toLE 4 q.offset ++ toLE 4 count ++ data
  let s := s.bump 0x50D0 0x0B 1
  s.post 0x38 q.client (q.client % 2) q.job s.mem.epoch s.fr.step q.request body

/-- A request answered with status 2, counted (Table 13.13). -/
def ocperRetry (q : OcperMsg) (s : State) : State :=
  (s.countRetry q.path q.address (q.op == 2 || q.op == 5)).ocperAnswer q 2 []

/-- The buffers changed. -/
def setBufs (l : List (Option OcperBuf)) (s : State) : State := { s with house := { s.house with ocper := l } }

/-- The buffer of a client. -/
def bufOf (s : State) (client : Nat) : Option OcperBuf :=
  (s.house.ocper.find? (fun b => match b with
    | some x => x.node == client
    | none => false)).join

/-- Free the buffer of a client. -/
def freeBuf (client : Nat) (s : State) : State :=
  s.setBufs (mapIf (fun (b : Option OcperBuf) => match b with
    | some x => x.node == client
    | none => false) (fun _ => none) s.house.ocper)

/-- The client holds a buffer, or one is free. -/
def bufRoom (s : State) (client : Nat) : Bool := (s.bufOf client).isSome || s.house.ocper.contains none

/-- Put a client's buffer in the place it holds, or in the first free one. -/
def putBuf (b : OcperBuf) (s : State) : State :=
  let l := (s.freeBuf b.node).house.ocper
  match l.findIdx? (fun x => x.isNone) with
  | some i => s.setBufs (setAt l i (some b))
  | none => s

/-- The client's write of this xid has been applied (R399). -/
def applied (s : State) (q : OcperMsg) : Bool := s.house.xids.contains (q.client, q.xid)

/-- Remember an applied write among the client's last 16. -/
def noteXid (q : OcperMsg) (s : State) : State :=
  let mine := s.house.xids.filter (fun x => x.1 == q.client) ++ [(q.client, q.xid)]
  let rest := s.house.xids.filter (fun x => x.1 != q.client)
  { s with house := { s.house with xids := rest ++ mine.drop (mine.length - 16) } }

/-- Answer a write, and remember it when it was applied. -/
def ocperWritten (q : OcperMsg) (a : WriteAns) (s : State) : State :=
  let s := if a = .done then s.noteXid q else s
  s.ocperAnswer q (ocperStatus a) []

/-- Read (op 0x01): a scalar's value in its type's width; a STR or DOM goes by block reads. -/
def ocperRead (q : OcperMsg) (s : State) : State :=
  match s.readValue q.path q.address with
  | none => s.noEntry.ocperAnswer q 3 []
  | some (r, v) =>
    if r.ty.isBlob then s.ocperAnswer q 4 []
    else (s.afterRead r (addrIdx q.address) (addrSub q.address)).ocperAnswer q 0 (valueBytes r.ty v)

/-- Write (op 0x02): the value in the type's width; of a STR or DOM, which block transfers carry, and of any other width it is refused with
reason 3 (R398, R408). -/
def ocperWrite (q : OcperMsg) (s : State) : State :=
  if s.applied q then s.ocperAnswer q 0 []
  else
    let v : Val := match entry? s.straps.build (addrIdx q.address) (addrSub q.address) with
      | some r => if r.ty.isBlob || q.data.length = r.ty.bytes then .num (leNat q.data) else .blob []
      | none => .num 0
    let (s, a) := s.dictWrite q.path q.address v
    s.ocperWritten q a

/-- Put what is kept of a request: the last 16 xids of a client stand (R399). -/
def keepRequest (x : Nat × Nat × Nat × Nat × Bytes) (s : State) : State :=
  let mine := s.house.rereads.filter (fun y => y.1 == x.1 && y.2.1 != x.2.1) ++ [x]
  let rest := s.house.rereads.filter (fun y => y.1 != x.1)
  { s with house := { s.house with rereads := rest ++ mine.drop (mine.length - 16) } }

/-- A request with an xid that its client has not used of late: the pieces kept age with it. An address of 24 bits is never 2^24. -/
def noteRequest (q : OcperMsg) (s : State) : State :=
  if s.house.rereads.any (fun x => x.1 == q.client && x.2.1 == q.xid) then s
  else s.keepRequest (q.client, q.xid, 2 ^ 24, 0, [])

/-- Keep the last piece of a snapshot, to answer its request again (R399). -/
def keepPiece (q : OcperMsg) (piece : Bytes) (s : State) : State := s.keepRequest (q.client, q.xid, q.address, q.offset, piece)

/-- The piece with which a request was answered that is repeated after its buffer was freed. -/
def keptPiece (s : State) (q : OcperMsg) : Option Bytes :=
  (s.house.rereads.find? (fun x => x.1 == q.client && x.2.1 == q.xid && x.2.2.1 == q.address && x.2.2.2.1 == q.offset)).map
    (fun x => x.2.2.2.2)

/-- Return a piece of a snapshot; the buffer is freed when the piece reaches the snapshot's end. -/
def ocperPiece (q : OcperMsg) (data : Bytes) (s : State) : State :=
  let piece := (data.drop q.offset).take q.count
  let s := if data.length ≤ q.offset + q.count then (s.freeBuf q.client).keepPiece q piece else s
  s.ocperAnswer q 0 piece

/-- Block read (op 0x03). -/
def ocperBlockRead (q : OcperMsg) (s : State) : State :=
  match s.readValue q.path q.address with
  | none => s.noEntry.ocperAnswer q 3 []
  | some (r, v) =>
    if !r.ty.isBlob then s.ocperAnswer q 4 []
    else if (s.keptPiece q).isSome then s.ocperAnswer q 0 ((s.keptPiece q).getD [])
    else if q.offset = 0 then
      if s.bufRoom q.client then
        let data := valueBytes r.ty v
        let s := s.afterRead r (addrIdx q.address) (addrSub q.address)
        let s := s.putBuf { node := q.client, address := q.address, snapshot := true, data := data }
        s.ocperPiece q data
      else s.ocperRetry q
    else
      match s.bufOf q.client with
      | some b =>
        if b.snapshot && b.address == q.address && q.offset < b.data.length then s.ocperPiece q b.data else s.ocperAnswer q 4 []
      | none => s.ocperAnswer q 4 []

/-- Block write segment (op 0x04): bytes at an offset of the client's buffer. -/
def ocperSegment (q : OcperMsg) (s : State) : State :=
  if (entry? s.straps.build (addrIdx q.address) (addrSub q.address)).isNone then s.noEntry.ocperAnswer q 3 []
  else if xferSize < q.offset + q.count then s.ocperAnswer q 4 []
  else if s.bufRoom q.client then
    let old : Bytes := match s.bufOf q.client with
      | some b => if !b.snapshot && b.address == q.address then b.data else []
      | none => []
    let data := patch q.offset q.data (old ++ zeros (q.offset + q.count - old.length))
    (s.putBuf { node := q.client, address := q.address, snapshot := false, data := data }).ocperAnswer q 0 []
  else s.ocperRetry q

/-- Block apply (op 0x05): the buffer's first count bytes are written as one write; an entry that does not exist is answered so first
(R407). -/
def ocperApply (q : OcperMsg) (s : State) : State :=
  if s.applied q then s.ocperAnswer q 0 []
  else if (entry? s.straps.build (addrIdx q.address) (addrSub q.address)).isNone then s.noEntry.ocperAnswer q 3 []
  else
    let data : Bytes := match s.bufOf q.client with
      | some b => if !b.snapshot && b.address == q.address then b.data else []
      | none => []
    if data.length < q.count then s.ocperAnswer q 4 []
    else
      let bytes := data.take q.count
      let v : Val := match entry? s.straps.build (addrIdx q.address) (addrSub q.address) with
        | some r => if !r.ty.isBlob && q.count = r.ty.bytes then .num (leNat bytes) else .blob bytes
        | none => .blob bytes
      let kept := s.bufOf q.client
      let (s, a) := (s.freeBuf q.client).dictWrite q.path q.address v
      -- a write answered status 2 is applied again from the same buffer
      let s := match kept with
        | some b => if a = WriteAns.retry then s.putBuf b else s
        | none => s
      s.ocperWritten q a

/-- An Ocper request that the receive checks accepted. During a restart and in recovery the front end answers status 2 (R376, R378). -/
def onOcper (m : HeldMsg) (s : State) : State :=
  let q := readOcper m
  let s := s.noteRequest q
  if s.sys.hk != .running then s.ocperRetry q
  else if q.badForm then s.ocperAnswer q 4 []
  else
    match q.op with
    | 1 => s.ocperRead q
    | 2 => s.ocperWrite q
    | 3 => s.ocperBlockRead q
    | 4 => s.ocperSegment q
    | 5 => s.ocperApply q
    | _ => s.ocperAnswer q 4 []

/-- OCPER_BUFFER_TIMEOUT: 100 ms have passed without a frame from the client of a buffer. -/
def ocperTimeout (i : Nat) (s : State) : State := s.setBufs (setAt s.house.ocper i none)

end State

end Sys2Proof.Machine
end

