-- ==== Sys2Proof/Machine/Scrub.lean ====
section
/-! DEFINITION. The scrubber and the memory and pantry ways (R347 to R352, R426 to R436, Tables 2.10, 4.1, 10.6, 15.3). -/

namespace Sys2Proof.Machine

namespace State

/-! ## What an address holds (R349) -/

/-- The stripe index that a hearth key or a pantry offset is, counted from a base in 4 KiB units. -/
def stripeFromBase (s : State) (pantry : Bool) (key base : Nat) : Option Nat :=
  let u := if pantry then key / 4096 else key % Config.channelSpan / 4096
  if base ≤ u then some (if pantry then u - base else (u - base) * s.C + key / Config.channelSpan) else none

/-- The stripes of LIVE STATE hanks at a key: hank, group, stripe number p. -/
def planesAt (s : State) (pantry : Bool) (key : Nat) : List (Nat × Nat × Nat) :=
  (s.hanks.filter (fun r => r.desc.cls == 1 && r.state == 2)).flatMap (fun r =>
    let descs : List Desc := r.desc :: (match r.moving with
      | some (old, _) => [old]
      | none => [])
    (groupStripes r.desc.planes r.desc.formats).zipIdx.filterMap (fun x =>
      descs.findSome? (fun d =>
        match s.stripeFromBase pantry key (d.base x.1.1) with
        | none => none
        | some t =>
          let g := t / x.1.2.2
          if t % x.1.2.2 = x.1.2.1 && stripeExists r.desc g x.1 && s.planeKey r x.1.1 t g == (key / 4096 * 4096, pantry) then
            some (r.hank, g, x.2)
          else none)))

/-- The adopted group of the reserve at a key: position, hank, group, p. -/
def reserveAt (s : State) (key : Nat) : Option (Nat × Nat × Nat × Nat) :=
  match s.code.layout, s.stripeFromBase false key s.reserveBase with
  | some l, some t =>
    (s.loss.adopted.filter (fun a => a.heir == l.position && a.atStep.isSome)).findSome? (fun a =>
      let y := s.reserveIndex l a.position a.hank a.group
      if y ≤ t && t < y + l.sOf a.hank && coded l a.position a.hank a.group (t - y) then some (a.position, a.hank, a.group, t - y) else none)
  | _, _ => none

/-- The ply stripe at a key: its index y. -/
def plyAt (s : State) (l : Layout) (pantry : Bool) (key : Nat) : Option Nat :=
  if pantry then
    match s.stripeFromBase true key s.pantryPlyBase with
    | none => none
    | some z =>
      (l.hanks.map (fun e => e.1)).findSome? (fun h =>
        let y0 := l.m * l.baseLap h
        let z0 := s.plyPantryZ l h y0
        let lap := (y0 + (z - z0)) / l.m
        if z0 ≤ z && z < z0 + l.m * l.sOf h * l.bands h && s.plyInPantry h (lap - l.baseLap h) then some (y0 + (z - z0)) else none)
  else
    match s.stripeFromBase false key l.plyBase with
    | none => none
    | some y =>
      match l.bandOfLap (y / l.m) with
      | some (h, _, _) => if y < l.plyStripes && !s.plyInPantry h (y / l.m - l.baseLap h) then some y else none
      | none => none

/-- Recompute the band roles of this member whose ply stripe lies at a key (R142). -/
def recompAt (pantry : Bool) (key : Nat) (s : State) : State :=
  match s.code.layout with
  | none => s
  | some l =>
    match s.plyAt l pantry key with
    | none => s
    | some y =>
      match l.bandOfLap (y / l.m) with
      | none => s
      | some (h, b, _) =>
        let xs := (List.range l.n).filter (fun x =>
          s.roleHolder l h b x (y % l.m) == l.position && !s.bandEmpty h b x (y % l.m))
        forEach xs (fun x st => st.startRecomp l h b x (y % l.m)) s

/-- Mark the mask copies at a key unreadable (Table 2.10). -/
def maskAt (key : Nat) (s : State) : State :=
  forEach (s.hanks.filter (fun r => r.desc.cls == 1 && r.desc.masked && 1 ≤ r.state)) (fun r st =>
    let n := ceilDiv (maskBytes r.desc.count) Config.stripe
    let one (copy base : Nat) (st : State) : State := match st.stripeFromBase false key base with
      | some t => if t < n then st.markMask r.hank copy t else st
      | none => st
    one 1 r.desc.maskB (one 0 r.desc.maskA st)) s

/-- What an uncorrectable or poisoned address leads to by what it holds (R349): a stripe of the shard or the reserve is repaired, a ply
stripe recomputed, a mask copy marked; a VIEW stripe is regenerated by the carder's next pass, and other data answer POISON. -/
def actBad (pantry : Bool) (key : Nat) (s : State) : State :=
  let s := forEach (s.planesAt pantry key) (fun x st => st.addRepair st.myPos x.1 x.2.1 x.2.2) s
  let s := if pantry then s else match s.reserveAt key with
    | some (pos, h, g, p) => s.addRepair pos h g p
    | none => s
  let s := s.recompAt pantry key
  if pantry then s else s.maskAt key

/-- Blocks stand as uncorrectable until they are written. -/
def addBad (blocks : List Nat) (s : State) : State :=
  { s with scrub := { s.scrub with badBlocks := nub (s.scrub.badBlocks ++ blocks) } }

/-- Pantry lines stand as poisoned until they are written. -/
def addBadLines (lines : List Nat) (s : State) : State :=
  { s with scrub := { s.scrub with badLines := nub (s.scrub.badLines ++ lines) } }

/-! ## Repairs (R435, R436) -/

/-- The same repair. -/
def sameRepair (a b : RepairRt) : Bool :=
  a.position == b.position && a.hank == b.hank && a.group == b.group && a.p == b.p

/-- Change a repair. -/
def updRepair (r : RepairRt) (f : RepairRt → RepairRt) (s : State) : State :=
  { s with scrub := { s.scrub with repairs := mapIf (sameRepair r) f s.scrub.repairs } }

/-- A repair that is named by its key. -/
def repair? (s : State) (pos h g p : Nat) : Option RepairRt :=
  s.scrub.repairs.find? (fun r => r.position == pos && r.hank == h && r.group == g && r.p == p)

/-- Where the stripe of a repair lies, with the plane's stripe index for its event. -/
def repairPlace (s : State) (r : RepairRt) : Option ((Nat × Bool) × Nat) :=
  match s.code.layout with
  | none => none
  | some l =>
    if r.position = l.position then
      match s.hank? r.hank with
      | none => none
      | some x =>
        ((groupStripes x.desc.planes x.desc.formats)[r.p]?).map (fun pl =>
          let t := planeStripe r.group pl
          (s.planeKey x pl.1 t r.group, t))
    else
      let y := s.reserveIndex l r.position r.hank r.group + r.p
      let t := match (l.stripes r.hank)[r.p]? with
        | some pl => planeStripe r.group pl
        | none => 0
      some ((stripeKey s.C s.reserveBase y, false), t)

/-- The parity of the step that a group last committed. -/
def repairParity (s : State) (r : RepairRt) : Nat :=
  if r.position = s.myPos then
    match s.hank? r.hank with
    | some x => s.committedStep x r.group % 2
    | none => 0
  else
    match s.adoption r.position r.hank r.group with
    | some a => a.atStep.getD 0 % 2
    | none => 0

/-- Hold a repair (R435): its group stays uncommitted, and the step does not seal. -/
def holdRepair (r : RepairRt) (detail : Nat) (s : State) : State :=
  (s.updRepair r (fun x => { x with state := 3 })).countNote 0x50C0 0x12 detail

/-- The row does not give the stripe. -/
def repairFailed (r : RepairRt) (s : State) : State :=
  let t := match s.repairPlace r with
    | some x => x.2
    | none => 0
  s.holdRepair r (hankDetail r.hank t)

/-- The owner key of the memory and pantry requests of a repair. -/
def repairKey (r : RepairRt) : List Nat := [1, r.position, r.hank, r.group, r.p]

/-- Write the recovered stripe with every byte enable, once its ways are free for the write (R348, R352). -/
def repairWrite (r : RepairRt) (k : Nat × Bool) (state : Nat) (s : State) : State :=
  if !s.placesFree [k] false then s
  else
    let s := s.updRepair r (fun x => { x with state := state, wait := if k.2 then 64 else 1, failed := false })
    let s := if k.2 then s.pantryPut k.1 r.bytes else s.hearthPut k.1 r.bytes
    s.placeRequest (repairKey r) k r.bytes

/-- Read the stripe back, once its ways are free for the read (R348, R352). -/
def repairReadBack (r : RepairRt) (k : Nat × Bool) (s : State) : State :=
  if !s.placesFree [k] true then s
  else
    let s := s.updRepair r (fun x => { x with state := x.state + 1, wait := if k.2 then 64 else 1, failed := false })
    s.placeRequest (repairKey r) k []

/-- The pages whose bytes a repair changes: the HI plane of an own hank, where the recovered bytes differ from what stands there. -/
def repairPages (s : State) (r : RepairRt) (k : Nat × Bool) (t : Nat) : List PageKey :=
  let now_ := if k.2 then s.pantryRead k.1 Config.stripe else s.hearthRead k.1 Config.stripe
  if r.position == s.myPos && r.p == 0 && now_ != r.bytes then
    [{ hank := r.hank, region := 0, channel := (stripePage s.C t).1, page := (stripePage s.C t).2 }]
  else []

/-- Write a recovered stripe once no die holds a copy that it changes (R296). -/
def tryRepairWrite (r : RepairRt) (s : State) : State :=
  match s.repairPlace r with
  | none => s
  | some (k, t) =>
    let ks := s.repairPages r k t
    if !s.coherent ks none then s.invalidate ks none else s.repairWrite r k 4

/-- A decode has given the bytes of a repair. -/
def repairBytes (d : DecodeRt) (b : Bytes) (s : State) : State :=
  match s.repair? d.position d.hank d.group d.p with
  | some r =>
    if r.state = 1 then
      let r1 := { r with bytes := b }
      (s.updRepair r (fun _ => r1)).tryRepairWrite r1
    else s
  | none => s

/-- The row of a repair's decode does not give the stripe. -/
def repairLost (d : DecodeRt) (s : State) : State :=
  match s.repair? d.position d.hank d.group d.p with
  | some r => if r.state = 1 then s.repairFailed r else s
  | none => s

/-- The outcome of a repair's decode; while a re-code runs, a slot that the new row has not got is looked for in the old one (R223). -/
def repairGot (res : DecRes) (s : State) : State :=
  match res with
  | .more => s
  | .done d b => s.repairBytes d b
  | .failed d =>
    match s.oldDecode d with
    | none => s.repairLost d
    | some o =>
      let (s, res) := s.startDecode o
      match res with
      | .more => s
      | .done d b => s.repairBytes d b
      | .failed d => s.repairLost d

/-- Take up a queued repair: a group between the carder's read and its write waits for that write, and one on the move to its new home
for the switch; else the row is read. -/
def repairBegin (r : RepairRt) (s : State) : State :=
  if (s.inflight? r.position r.hank r.group).isSome then s.updRepair r (fun x => { x with state := 2 })
  else if r.position == s.myPos && s.groupMoves r.hank r.group then s
  else
    let s := s.updRepair r (fun x => { x with state := 1 })
    let (s, res) := s.startDecode (newDecode 0 0 r.position r.hank r.group r.p (s.repairParity r))
    s.repairGot res

/-- Repairs that run: those that read, write or read back. -/
def repairsRunning (s : State) : Nat := (s.scrub.repairs.filter (fun r => r.state == 1 || 4 ≤ r.state)).length

/-- Repairs that may run at once (R436). -/
def repairLimit : Nat := 16

/-- A mask copy that is unreadable at a stripe where the other copy is good is rewritten from it (Table 2.10). -/
def mendMask (h t : Nat) (s : State) : State :=
  match s.hank? h with
  | none => s
  | some r =>
    let mend (bad good : Nat) (from_ to_ : Nat) (st : State) : State :=
      let st := st.takeMem st.ans (st.spanBlocks from_ (t * 4096) 4096)
      if st.maskCopyBad r good t then st.markMask h good t
      else
        let bs := st.spanRead from_ (t * 4096) 4096
        let st := (st.spanWrite to_ (t * 4096) bs).clearBad (st.spanBlocks to_ (t * 4096) 4096)
        st.updHank h (fun x => { x with maskBad := x.maskBad.filter (fun m => m != (bad, t)) })
    if s.maskCopyBad r 0 t && !s.maskCopyBad r 1 t then mend 0 1 r.desc.maskB r.desc.maskA s
    else if s.maskCopyBad r 1 t && !s.maskCopyBad r 0 t then mend 1 0 r.desc.maskA r.desc.maskB s
    else s

/-- Mask stripes with an unreadable copy. -/
def badMasks (s : State) : List (Nat × Nat) :=
  (s.hanks.filter (fun r => r.desc.cls == 1 && r.desc.masked && 1 ≤ r.state)).flatMap (fun r =>
    let ts := if s.scrub.badBlocks.isEmpty then nub (r.maskBad.map (fun m => m.2))
      else List.range (ceilDiv (maskBytes r.desc.count) Config.stripe)
    (ts.filter (fun t => s.maskCopyBad r 0 t || s.maskCopyBad r 1 t)).map (fun t => (r.hank, t)))

/-- STRIPE_REPAIR_START: queued repairs start in arrival order, at most 16 at once; mask copies are rewritten from their good copies. -/
def repairStart (s : State) : State :=
  let s := forEach s.badMasks (fun x st => st.mendMask x.1 x.2) s
  let queued := s.scrub.repairs.filter (fun r => r.state == 0)
  forEach (queued.take (repairLimit - s.repairsRunning)) (fun r st => st.repairBegin r) s

/-- A repair is over. -/
def repairDone (r : RepairRt) (k : Nat × Bool) (s : State) : State :=
  let s := s.clearKey k
  let s : State := { s with scrub := { s.scrub with repairs := s.scrub.repairs.filter (fun x => !sameRepair r x) } }
  s.bump 0x50C0 0x10 1

/-- Every answer to the requests of a repair's stage is in: what comes next waits for its ways, and is tried again. -/
def repairStage (r : RepairRt) (s : State) : State :=
  match s.repairPlace r with
  | none => s
  | some (k, _) =>
    if r.state = 4 || r.state = 6 then s.repairReadBack r k
    else if !r.failed then s.repairDone r k
    else if r.state = 5 then s.repairWrite r k 6
    else s.holdRepair r k.1

/-- Repairs that wait for a die or for their ways. -/
def repairPass (s : State) : State :=
  let s := forEach (s.scrub.repairs.filter (fun r => r.state == 1 && !r.bytes.isEmpty)) (fun r st => st.tryRepairWrite r) s
  forEach (s.scrub.repairs.filter (fun r => 4 ≤ r.state && r.wait == 0)) (fun r st => st.repairStage r) s

/-- What a read-back gives differs from what was written. -/
def differs (s : State) (owner : List Nat) (off : Nat) (data : Bytes) : Bool :=
  match owner with
  | 1 :: pos :: h :: g :: p :: _ =>
    match s.repair? pos h g p with
    | some r => sub off data.length r.bytes != data
    | none => false
  | _ => false

/-- One answer for a repair; `bad` tells that it failed. -/
def repairAnswer (owner : List Nat) (last bad : Bool) (s : State) : State :=
  match owner with
  | _ :: pos :: h :: g :: p :: _ =>
    match s.repair? pos h g p with
    | none => s
    | some r =>
      if r.state < 4 then s
      else
        let r1 := { r with failed := r.failed || bad, wait := if last then r.wait - 1 else r.wait }
        let s := s.updRepair r (fun _ => r1)
        if r1.wait = 0 then s.repairStage r1 else s
  | _ => s

/-! ## Memory responses (R347 to R349) -/

/-- Put back or close an open memory request; writes that waited for it go on. -/
def setMemOpen (l : List MemReq) (s : State) : State := tellLater { s with scrub := { s.scrub with memOpen := l } }

/-- One answer for a unit of a home move. Plies whose copy is over take the sets that waited for them (Table 10.6); a stripe that could not
be read is repaired. -/
def homeTurn (owner : List Nat) (write last bad pantry : Bool) (key : Nat) (s : State) : State :=
  let n := s.tier.homeMvs.length
  let s := s.homeAnswer owner write last bad
  let s := if s.tier.homeMvs.length < n then s.releaseSets else s
  if bad && !write then s.actBad pantry (key / 4096 * 4096) else s

/-- A write answered with status 3 is issued once more; one that fails again leaves its blocks uncorrectable for their next read, with an
event naming the address. -/
def memWritten (m : MemReq) (failed : Bool) (s : State) : State :=
  let key := hearthKey m.ch m.addr
  let s := { s with scrub := { s.scrub with memOpen := s.scrub.memOpen.erase m } }
  if failed && !m.again then s.memRequest m.ch m.way m.addr 32 (s.hearthRead key Config.stripe) true m.owner
  else
    let s := tellLater s
    let s := if failed then (s.addBad (stripeBlocks key)).note 0x50C0 0x02 key else s
    match m.owner with
    | 0 :: h :: c :: p :: _ => s.moveWritten h c p
    | 1 :: _ => s.repairAnswer m.owner true failed
    | 3 :: _ => s.homeTurn m.owner true true failed false key
    | _ => s

/-- An item of a read. -/
def memItem (m : MemReq) (last : Bool) (status : Nat) (data : Bytes) (s : State) : State :=
  let key := hearthKey m.ch m.addr
  let bad := 2 ≤ status
  let fin := last || m.left ≤ 1
  let s := if status = 1 then (s.bump 0x50C0 0x03 1).countCorrected 1
    else if bad then ((s.bump 0x50C0 0x02 1).countBad 1).addBad [key / 128]
    else s
  let s := s.setMemOpen (if fin then s.scrub.memOpen.erase m
    else mapIf (fun x => x == m) (fun x => { x with left := x.left - 1, addr := x.addr + 128 }) s.scrub.memOpen)
  match m.owner with
  | 0 :: h :: c :: p :: i :: _ => if bad then s.moveBadRead h c p else if fin then s.moveRead h c p i none else s
  | 1 :: _ => s.repairAnswer m.owner fin (bad || s.differs m.owner (m.addr % Config.stripe) data)
  | 3 :: _ => s.homeTurn m.owner false fin bad false key
  | _ => s

/-- MEMORY_RESPONSE: one response item; a tag that is not open is discarded and counted (R348). -/
def memResponse (ch way tag : Nat) (last : Bool) (status : Nat) (data : Bytes) (s : State) : State :=
  match s.scrub.memOpen.find? (fun m => m.ch == ch && m.way == way && m.tag == tag) with
  | none => s.bump 0x50C0 0x08 1
  | some m => if m.write then s.memWritten m (status == 3) else s.memItem m last status data

/-! ## Pantry responses (R352) -/

/-- Close an open pantry request; writes that waited for it go on. -/
def closePantry (m : PantryReq) (s : State) : State := tellLater { s with scrub := { s.scrub with pantryOpen := s.scrub.pantryOpen.erase m } }

/-- A pantry write: a failed one is issued once more, as on the memory ways; a mark behind its owner key tells that it was. -/
def pantryWritten (m : PantryReq) (failed : Bool) (s : State) : State :=
  if failed && !(m.owner.length == 6 || m.owner == [9, 9]) then
    let s := { s with scrub := { s.scrub with pantryOpen := s.scrub.pantryOpen.erase m } }
    s.pantryRequest m.line (s.pantryRead (64 * m.line) 64) (if m.owner.headD 0 = 9 then [9, 9] else m.owner ++ [1])
  else
    let s := s.closePantry m
    let s := if failed then (s.addBadLines [m.line]).note 0x50C0 0x02 (64 * m.line) else s
    match m.owner with
    | 0 :: h :: c :: p :: _ => s.moveWritten h c p
    | 1 :: _ => s.repairAnswer m.owner true failed
    | 3 :: _ => s.homeTurn m.owner true true failed true (64 * m.line)
    | _ => s

/-- A pantry read: poison and failure are an uncorrectable read, counted in 0x5090.0A as well. -/
def pantryLine (m : PantryReq) (bad : Bool) (data : Bytes) (s : State) : State :=
  let s := s.closePantry m
  let s := if bad then (((s.bump 0x5090 0x0A 1).bump 0x50C0 0x02 1).countBad 1).addBadLines [m.line] else s
  match m.owner with
  | 0 :: h :: c :: p :: i :: _ => if bad then s.moveBadRead h c p else s.moveRead h c p i none
  | 1 :: _ => s.repairAnswer m.owner true (bad || s.differs m.owner (64 * m.line % Config.stripe) data)
  | 3 :: _ => s.homeTurn m.owner false true bad true (64 * m.line)
  | _ => s

/-- PANTRY_RESPONSE. -/
def pantryResponse (way tag status : Nat) (data : Bytes) (s : State) : State :=
  match s.scrub.pantryOpen.find? (fun m => m.way == way && m.tag == tag) with
  | none => s.bump 0x50C0 0x08 1
  | some m => if m.write then s.pantryWritten m (status != 0) else s.pantryLine m (status != 0) data

/-- PANTRY_REQUEST_OVERDUE: a request that has stayed open beyond 0x1130.04. -/
def pantryOverdue (way tag : Nat) (s : State) : State :=
  if s.scrub.pantryOpen.any (fun m => m.way == way && m.tag == tag) then s.bump 0x50C0 0x0B 1 else s

/-! ## Patrol of the hearth and the pantry (R431) -/

/-- The ply store that a re-code keeps beside the new one (R222), as first and last + 1 in 4 KiB units. -/
def oldStoreSpans (s : State) (pantry : Bool) (c : Nat) : List (Nat × Nat) :=
  match s.code.oldLayout with
  | none => []
  | some o =>
    if o.n ≤ o.position then []
    else if pantry then
      let st := s.code.oldStore
      [(st.base, st.base + sumL (st.hanks.map (fun x => o.m * o.sOf x.1 * o.bands x.1)))]
    else [(o.plyBase, o.plyBase + stripesOn c s.C (o.plyStripes * Config.stripe))]

/-- Lomaz regions of one channel, or of the pantry, as first and last + 1 in 4 KiB units. -/
def patrolSpans (s : State) (pantry : Bool) (c : Nat) : List (Nat × Nat) :=
  let hanks := (s.hanks.filter (fun r => r.state != 0)).flatMap (fun r => s.realClaims r.desc ++ (match r.moving with
    | some (old, _) => s.leavingClaims (old, !s.inPantry r.desc)
    | none => []))
  let mine := (hanks.filter (fun x => x.2.1 == pantry && (pantry || x.2.2.1 == c))).map (fun x => (x.2.2.2.1, x.2.2.2.2))
  let pools := (s.areas.filter (fun a => if pantry then a.tier == 1 else a.tier == 0 && a.channel == c)).map (fun a =>
    (a.base / 4096, a.base / 4096 + 16 * a.pages))
  let stores := match s.code.layout with
    | none => []
    | some l =>
      if l.n ≤ l.position then []
      else if pantry then [(s.pantryPlyBase, s.pantryPlyBase + sumL ((s.pantryPlies l).map (fun h => l.m * l.sOf h * l.bands h)))]
      else [(l.plyBase, l.plyBase + stripesOn c s.C (l.plyStripes * Config.stripe)),
            (s.reserveBase, s.reserveBase + ceilDiv (l.reserveStripes l.position) s.C)]
  mine ++ pools ++ stores ++ s.oldStoreSpans pantry c

/-- The first unit of the spans at or above a place. -/
def nextUnit (spans : List (Nat × Nat)) (u : Nat) : Option Nat :=
  (spans.filter (fun x => x.1 < x.2 && u < x.2)).foldl (fun best x =>
    let v := max u x.1
    match best with
    | some b => some (min b v)
    | none => some v) none

/-- The next stripe of a patrol: from the start again once the end is reached. -/
def patrolNext (s : State) (pantry : Bool) (c i : Nat) : Option Nat :=
  let spans := s.patrolSpans pantry c
  match nextUnit spans (natAt s.scrub.hearthNext i) with
  | some u => some u
  | none => nextUnit spans 0

/-- Move a patrol on. -/
def patrolMove (i u : Nat) (s : State) : State :=
  let l := s.scrub.hearthNext ++ List.replicate (i + 1 - s.scrub.hearthNext.length) 0
  { s with scrub := { s.scrub with hearthNext := setAt l i (u + 1) } }

/-- A write that is open or waits covers a part of the stripe at a key: no read is sent beside it (R348, R352). -/
def writeOpen (s : State) (pantry : Bool) (key : Nat) : Bool :=
  if pantry then !s.linesFree (key / 64) 64 true else !s.blocksFree (key / Config.channelSpan) (key % Config.channelSpan) 32 true

/-- The stripe at a key is of an adopted group between the heir's read and its write. -/
def reserveBusy (s : State) (key : Nat) : Bool :=
  match s.reserveAt key with
  | some (pos, h, g, _) => (s.inflight? pos h g).isSome
  | none => false

/-- The patrol skips a stripe of a group between read and write (Table 4.1), what is in transit (Table 10.6), and what is being written. -/
def patrolSkips (s : State) (pantry : Bool) (key : Nat) : Bool :=
  s.writeOpen pantry key || (!pantry && s.reserveBusy key) ||
    (s.planesAt pantry key).any (fun x => (s.inflight? s.myPos x.1 x.2.1).isSome || s.groupMoves x.1 x.2.1) ||
    (s.tier.pages.any (fun x => x.inTransit && x.tier == (if pantry then 1 else 0) &&
      s.homeBase x.tier x.channel x.area x.index / 65536 * 65536 ≤ key &&
      key < s.homeBase x.tier x.channel x.area x.index + 65536 && s.homeBase x.tier x.channel x.area x.index ≤ key))

/-- Read the next hearth stripe of a channel: the beats count in 0x50C0.0F, an uncorrectable one is handled under R349. -/
def patrolHearth (c : Nat) (mem : MemAns) (s : State) : State :=
  match s.patrolNext false c c with
  | none => s
  | some u =>
    let key := hearthKey c (u * 4096)
    let s := s.patrolMove c u
    if s.patrolSkips false key then s
    else
      let bs := stripeBlocks key
      let s := (s.bump 0x50C0 0x0F 32).takeMem mem bs
      if bs.any (fun b => mem.bad.contains b) then s.actBad false key else s

/-- Read the next pantry stripe, on the pantry ways; channel 0's patrol paces it (log 52). -/
def patrolPantry (mem : MemAns) (s : State) : State :=
  let i := s.C
  match s.patrolNext true 0 i with
  | none => s
  | some u =>
    if !s.pantryRoomFor 1 then s
    else
      let s := s.patrolMove i u
      if s.patrolSkips true (u * 4096) then s
      else
        let ls := stripeLines (u * 4096)
        let s := (s.bump 0x50C0 0x0F 32).takeLines mem ls
        if ls.any (fun l => mem.poisoned.contains l) then s.actBad true (u * 4096) else s

/-- HEARTH_PATROL_READ; a rate of 0 turns the patrol off. -/
def hearthPatrol (c : Nat) (mem : MemAns) (s : State) : State :=
  if s.reg 0x3090 0x04 = 0 || !s.sys.ready then s
  else
    let s := s.patrolHearth c mem
    if c = 0 then s.patrolPantry mem else s

/-! ## Controller error reports (R350) -/

/-- A key lies in a Lomaz region. -/
def inRegions (s : State) (ch off : Nat) : Bool :=
  (s.patrolSpans false ch).any (fun x => x.1 ≤ off / 4096 && off / 4096 < x.2)

/-- CONTROLLER_ERROR_REPORT: kinds 0 and 3 are ignored; an uncorrectable one in a Lomaz region is handled as a read of its address. -/
def errorReport (ch addr kind : Nat) (s : State) : State :=
  if kind = 0 || kind = 3 then s
  else
    let s := s.bump 0x50C0 0x04 1
    if kind = 1 then s.countCorrected 1
    else
      let key := hearthKey ch (addr / 128 * 128)
      let s := s.countBad 1
      if s.inRegions ch addr then ((s.bump 0x50C0 0x02 1).addBad [key / 128]).actBad false key else s

/-! ## Internal SRAM (R426 to R434, Table 15.3) -/

/-- Clear a key of the key store and raise an event at its entry; host firmware writes it again. -/
def loseKey (key : Nat) (s : State) : State :=
  match key with
  | 0 => (s.setFx { s.fx with sessionKey := none }).changed 0x1110 0x01 0
  | 1 => (s.setFx { s.fx with oldKey := none }).changed 0x1110 0x01 0
  | 2 => (s.setFx { s.fx with nextKey := none }).changed 0x1110 0x01 0
  | 3 => (s.setFx { s.fx with blockKey := none }).changed 0x1110 0x02 0
  | 4 => State.changed 0x2600 0x03 0 { s with led := { s.led with jobKey := none } }
  | 5 => (s.setJutus { s.house.jutus with deviceKey := none }).changed 0x3110 0x01 0
  | _ => s

/-- The two entries of 32 bytes in a row of the event-log array are dropped and counted. -/
def loseEvents (seq : Nat) (s : State) : State :=
  let gone (e : Event) : Bool := e.seq % 65536 / 2 == seq % 65536 / 2
  let n := (s.house.events.filter gone).length
  State.bump 0x50D0 0x0A n { s with house := { s.house with events := s.house.events.filter (fun e => !gone e) } }

/-- The band of a tag row, counted over the hanks of the layout. -/
def bandNo (l : Layout) (n : Nat) : Option (Nat × Nat) :=
  (l.hanks.flatMap (fun e => (List.range (l.bands e.1)).map (fun b => (e.1, b))))[n]?

/-- The entries of a row of the presence directory of a channel: 8 to a row. -/
def presenceRow (s : State) (ch index : Nat) : List (Nat × Nat × Nat × Nat × Nat) :=
  ((s.tier.presence.filter (fun e => e.2.2.1 == ch)).drop (index / 8 * 8)).take 8

/-- The stripes of a group are read once more for a half of its bobbin entries that was lost (Table 15.3): the same bits, so nothing
changes; a stripe that cannot be read waits for the carder's write. -/
def bobbinRead (pos h g : Nat) (grads : Bool) (s : State) : State :=
  if (s.inflight? pos h g).isNone then s
  else
    match s.code.layout with
    | none => s
    | some l =>
      if pos = l.position then
        match s.hank? h with
        | none => s
        | some r =>
          let s := s.askGroup s.ans r g
          let s := if grads then s.takeMem s.ans (s.gradBlocks h r.desc.count g) else s
          forEach (s.badStripes r g) (fun p st => st.addRepair pos h g p) s
      else s.askReserve l pos h g

/-- The words of 8 bytes that hold a byte of a mask, as a mask of whole words. -/
def wholeWords (mask : Nat) : Nat :=
  sumL (((List.range 16).filter (fun i => mask / 256 ^ i % 256 != 0)).map (fun i => 255 * 256 ^ i))

/-- What an uncorrectable row leads to by its holder (R429). -/
def loseRow (bank row : Nat) (holder : SramHolder) (s : State) : State :=
  match holder with
  | .coreSram => s.watchdog
  | .eventLog seq => s.loseEvents seq
  | .keyStore k => s.loseKey k.toNat
  | .bobbinOld pos h g => s.bobbinRead pos h g false
  | .bobbinNew pos h g => s.bobbinRead pos h g true
  | .tagStore role band x =>
    match s.code.layout with
    | none => s
    | some l => match bandNo l band with
      | some (h, b) =>
        if role.toNat < l.m && x.toNat < l.n && s.roleHolder l h b x.toNat role.toNat == l.position then
          s.startRecomp l h b x.toNat role.toNat
        else s
      | none => s
  | .header h i bytes =>
    let lost := if s.straps.build.wordCode then wholeWords bytes.toNat else bytes.toNat
    s.setLostBytes h i.toNat (s.lostBytes h i.toNat ||| lost)
  | .tableBank ch =>
    if s.whorl.badBanks.contains ch.toNat then s
    else { s with whorl := { s.whorl with badBanks := s.whorl.badBanks ++ [ch.toNat] } }
  | .presence ch i =>
    forEach (s.presenceRow ch.toNat i) (fun e st =>
      let k : PageKey := { hank := e.1, region := e.2.1, channel := e.2.2.1, page := e.2.2.2.1 }
      (st.setDies k 15).invalidate [k] none) s
  | .other => State.note 0x50C0 0x0D (bank * 65536 + row) { s with fr := { s.fr with withheld := s.fr.opened || s.fr.withheld } }

/-- A row is in the watch list. -/
def watched (s : State) (bank row : Nat) : Bool := s.scrub.watch.any (fun w => w.bank == bank && w.row == row)

/-- Change a watch-list entry. -/
def updWatch (bank row : Nat) (f : Watch → Watch) (s : State) : State :=
  { s with scrub := { s.scrub with watch := mapIf (fun w => w.bank == bank && w.row == row) f s.scrub.watch } }

/-- A row stands on a spare of its bank (R433, R434). -/
def onSpare (s : State) (bank row : Nat) : Bool := s.scrub.spares.contains (bank, row)

/-- Enter a row in the watch list with its event (R432). -/
def watchNew (bank row corrected uncorrectable counter : Nat) (s : State) : State :=
  (s.watchRow bank row corrected uncorrectable).note 0x50C0 counter (bank * 65536 + row)

/-- A row showed a corrected error in this pass: a second pass within 64 enters it. -/
def corrected (bank row : Nat) (s : State) : State :=
  let pass := s.scrub.passes
  let isIt (c : CorrRow) : Bool := c.bank == bank && c.row == row
  let old := s.scrub.corrRows.find? isIt
  let rest := s.scrub.corrRows.filter (fun c => !isIt c)
  let again : Bool := match old with
    | some c => c.pass != pass && pass - c.pass < 64
    | none => false
  let fresh : Bool := match old with
    | some c => c.pass != pass
    | none => true
  let s : State := { s with scrub := { s.scrub with corrRows := rest ++ [{ bank := bank, row := row, pass := pass }] } }
  if s.watched bank row then
    if fresh then s.updWatch bank row (fun w =>
      { w with corrected := min 65535 (w.corrected + 1), onSpare := w.onSpare || s.onSpare bank row }) else s
  else if again then s.watchNew bank row 2 0 0x0C
  else s

/-- A row showed an uncorrectable error. -/
def uncorrected (bank row : Nat) (s : State) : State :=
  if s.watched bank row then
    s.updWatch bank row (fun w => { w with uncorrectable := min 255 (w.uncorrectable + 1), onSpare := w.onSpare || s.onSpare bank row })
  else s.watchNew bank row 0 1 0x0D

/-- A holder of Table 15.3 can stand in a bank: the memories of the housekeeper in its own banks, the others in the data banks (R425). -/
def holderFits (bank : Nat) (holder : SramHolder) : Bool :=
  match holder with
  | .coreSram => 256 ≤ bank
  | .eventLog _ => 256 ≤ bank
  | .keyStore _ => 256 ≤ bank
  | .other => true
  | _ => bank < 256

/-- What a read of a row finds (R426): the counters, the watch list and the holder's rule. Only the patrol's passes lead a row with corrected
errors to the watch list (R432). -/
def rowFound (patrol : Bool) (bank row : Nat) (found : RowRead) (s : State) : State :=
  match found with
  | .clean => s
  | .corrected =>
    let s := (s.bump 0x50C0 0x0C 1).countCorrected 1
    if patrol then s.corrected bank row else s
  | .uncorrectable holder =>
    if holderFits bank holder then (((s.bump 0x50C0 0x0D 1).countBad 1).uncorrected bank row).loseRow bank row holder else s

/-- What the reads of a command find in the rows of internal SRAM (R426). -/
def sramReads (s : State) : State :=
  if s.sys.lzReset || !s.sys.filled then s
  else
    forEach ((s.ans.sram.map (fun x => ((x.1.toNat, x.2.1.toNat), x.2.2))).filter (fun x => rowExists s.straps.build x.1)) (fun x st =>
      st.rowFound false x.1.1 x.1.2 x.2) s

/-- The row that stands on a spare of a bank: the second move of one row leaves spare 0 unused (R433, R434). -/
def spareRow (s : State) (bank i : Nat) : Option Nat :=
  let rows := (s.scrub.spares.filter (fun e => e.1 == bank)).map (fun e => e.2)
  if i = 0 && rows[1]? == rows[0]? then none else rows[i]?

/-- The banks of the build (R424, R425). -/
def bankList (s : State) : List Nat := List.range s.straps.build.banks ++ (List.range 23).map (fun i => 256 + i)

/-- The rows that the internal patrol reads at a place of its pass: one of each bank, then the spare rows in use. -/
def patrolRow (s : State) (p : Nat) : List (Nat × Nat) :=
  if p < 4096 then s.bankList.map (fun b => (b, p)) else s.bankList.filterMap (fun b => (s.spareRow b (p - 4096)).map (fun r => (b, r)))

/-- INTERNAL_PATROL_READ: the next row of each bank is read and corrected; a pass ends behind the last spare (R430). A row that a merge
buffer holds is written back (R427). -/
def internalPatrol (found : List (Nat × RowRead)) (s : State) : State :=
  let p := s.scrub.patrolRows
  let rows := s.patrolRow p
  let ends := p = 4097
  let s : State := { s with scrub := { s.scrub with
    merge := s.scrub.merge.filter (fun m => !rows.contains m)
    passes := if ends then s.scrub.passes + 1 else s.scrub.passes
    patrolRows := if ends then 0 else p + 1 } }
  forEach rows (fun x st =>
    match found.find? (fun f => f.1 == x.1) with
    | some f => st.rowFound true x.1 x.2 f.2
    | none => st) (s.bump 0x50C0 0x0E rows.length)

/-- MERGE_BUFFER_IDLE: the buffer writes its row back. -/
def mergeIdle (bank : Nat) (s : State) : State :=
  { s with scrub := { s.scrub with merge := s.scrub.merge.filter (fun m => m.1 != bank) } }

/-- TABLE_BANK_COPY_AGAIN_DONE: the channel's bank is whole again, and what waited for it goes on. -/
def bankAgain (ch : Nat) (s : State) : State :=
  { s with whorl := { s.whorl with badBanks := s.whorl.badBanks.filter (fun c => c != ch) } }

/-- The entries by which a list has grown, in list order. -/
def movedRows (old new : List (Nat × Nat)) : List (Nat × Nat) :=
  (new.foldl (fun (acc : List (Nat × Nat) × List (Nat × Nat)) e =>
    if acc.1.contains e then (acc.1.erase e, acc.2) else (acc.1, acc.2 ++ [e])) (old, [])).2

/-- The words that the move of a row copies under the poison pattern: those that its read finds uncorrectable. Only of a header window does
the command name them; of another row one of its 8 words at least is bad, and how many is a free value (log 51). -/
def poisonedWords (s : State) (e : Nat × Nat) : Nat :=
  match s.ans.sram.find? (fun x => x.1.toNat == e.1 && x.2.1.toNat == e.2) with
  | some (_, _, .uncorrectable (.header _ _ bytes)) =>
    ((List.range 16).filter (fun i => bytes.toNat / 256 ^ i % 256 != 0)).length
  | some (_, _, .uncorrectable _) => 1 + leNat (s.freeBytes 1) % 8
  | _ => 0

/-- Move a row to the next spare of its bank (R433): the move reads it with correction, and copies bad words under poison. -/
def moveRow (e : Nat × Nat) (s : State) : State :=
  let n := s.poisonedWords e
  let s : State := { s with scrub := { s.scrub with
    spares := s.scrub.spares ++ [e]
    merge := s.scrub.merge.filter (fun m => m != e) } }
  ((if n = 0 then s else (s.bump 0x50C0 0x14 n).spendFree 1)).bump 0x50D0 0x0F 1

/-- At a threshold a new retired-row list takes effect: each new entry moves its row to the next spare (R433, R434). -/
def retireRows (new : List (Nat × Nat)) (s : State) : State :=
  let added := movedRows s.scrub.retired new
  let s := forEach added moveRow s
  let s : State := { s with scrub := { s.scrub with
    retired := new
    watch := s.scrub.watch.map (fun (w : Watch) =>
      if added.contains (w.bank, w.row) && 2 ≤ timesIn new (w.bank, w.row) then { w with onSpare := true } else w) } }
  s.journalState 0x23 s.retiredRows

end State

end Sys2Proof.Machine
end

