-- ==== Sys2Proof/Machine/Threshold.lean ====
section
/-! DEFINITION. The threshold (R24, R27, R358, R396, R410 to R412): the pending plan, held enables, staged entries, what each unit
releases, and the opening of the next step. -/

namespace Sys2Proof.Machine

namespace State

/-! ## Hanks (R37, R38, R46, R54, R137, R143, R218, R288, R289) -/

/-- A hank with nothing known of it but its descriptor. -/
def freshHank (h : Nat) (d : Desc) : HankRt :=
  { hank := h, desc := d, state := d.state, heldState := none, maskDigest := 0, digest := 0, digestSealed := 0, ungenerated := [],
    maskBad := [], encodeWait := [], encodeSent := false, encodeStep := 0, vacDone := false, restored := false,
    inheritedDone := [], jobSlots := 0, moving := none, plyMoved := 0, toPlace := [] }

/-- A STATE hank whose groups wait for their initial encode. -/
def toEncode (step : Nat) (r : HankRt) : HankRt :=
  { r with encodeWait := List.range (groupsOf r.desc.count), encodeSent := false, encodeStep := step }

/-- The pages of a hank with read-only placement that the mover takes to the policy's home once it is LIVE (R281, R289). -/
def placePages (s : State) (r : HankRt) : List (Nat × Nat) :=
  match s.policyOf r.desc with
  | some q =>
    if r.desc.readOnly && s.paged r.desc && q.home != 0 then
      (s.tier.pages.filter (fun x => x.hank == r.hank && x.tier == 0)).map (fun x => (x.channel, x.page))
    else []
  | none => []

/-- What becomes of a hank when it turns LIVE; `s` has the new plan in effect. -/
def liveHank (s : State) (step : Nat) (r : HankRt) : HankRt :=
  if r.desc.cls = 1 then
    toEncode step { r with
      restored := false, digest := 0, inheritedDone := []
      maskDigest := if r.desc.masked then s.maskDigestOf r none else 0 }
  else if r.desc.cls = 2 then { r with ungenerated := viewStripes r.desc }
  else if r.desc.cls = 6 then { r with jobSlots := 0 }
  else { r with toPlace := s.placePages r }

/-- A hank whose state was `was` under its new descriptor; `alone` tells that its member keeps its position if it vacates. A hank that is
EMPTY already stays so where the plan still names it VACATING (R37). -/
def turnHank (old s : State) (step : Nat) (recode alone : Bool) (was : Nat) (r : HankRt) (d : Desc) : HankRt :=
  if was = 0 && d.state = 3 then freshHank r.hank { d with state := 0 }
  else if was = 0 || d.state = 0 then
    if d.state = 2 then s.liveHank step (freshHank r.hank d) else freshHank r.hank d
  else
    let r1 := { r with desc := d, state := d.state, heldState := none }
    if d.state = 2 && was = 1 then s.liveHank step r1
    else if d.state = 3 && was = 2 then { r1 with encodeStep := step, vacDone := d.cls == 1 && alone }
    else if d.state = 2 && d.cls = 1 then
      let r2 := if old.inPantry r.desc != s.inPantry d then { r1 with moving := some (r.desc, 0), plyMoved := 0 } else r1
      if recode then toEncode step r2 else r2
    else r1

/-- The hank of one descriptor of a plan that applies. A hank that still vacates keeps its descriptor and holds the state named for it
(R38). -/
def planHank (old s : State) (step : Nat) (recode alone : Bool) (d : Desc) (h : Nat) : HankRt :=
  match old.hank? h with
  | none => turnHank old s step recode alone 0 (freshHank h d) d
  | some r =>
    if r.state = 3 && !r.vacDone && d.state != 3 then { r with heldState := some d.state }
    else turnHank old s step recode alone (if r.state = 3 && r.vacDone then 0 else r.state) r d

/-- A plan under which no STATE hank is LOADING or LIVE: a member with LIVE hanks vacates (R216). -/
def emptiesMember (p : Plan) : Bool := !p.descs.any (fun d => d.cls == 1 && (d.state == 1 || d.state == 2))

/-- A plan with the re-coding flag (R221). -/
def recodes (p : Plan) : Bool :=
  match p.skein with
  | some k => bit k.flags 1
  | none => false

/-- The hanks that a plan leaves. -/
def planHanks (old s : State) (step : Nat) (p : Plan) : List HankRt :=
  (p.descs.zipIdx.filter (fun x => x.1.cls != 0)).map (fun x =>
    planHank old s step (recodes p) (!emptiesMember p && !old.fenced) x.1 x.2)

/-- Pages, moves, queues and discards of some hanks go; a discard that waited is complete, since no page of it is left. -/
def dropPagesOf (gone : Nat → Bool) (s : State) : State :=
  let s := forEach (s.tier.moves.filter (fun m => gone m.hank)) (fun m st => st.dropMove m) s
  let waited := s.tier.discards.filter (fun x => gone x.2.1)
  let s : State := { s with tier := { s.tier with
      pages := s.tier.pages.filter (fun x => !gone x.hank)
      demand := s.tier.demand.filter (fun x => !gone x.1)
      discards := s.tier.discards.filter (fun x => !gone x.2.1) } }
  forEach waited (fun x st => st.answerDiscard x.1) s

/-- Hanks that are EMPTY or no longer paged have no pages (R275); a copy to a new home ends with its hank's move (R288). -/
def dropPages (s : State) : State :=
  let s := s.dropPagesOf (fun h => match s.hank? h with
    | some r => r.state == 0 || !s.paged r.desc
    | none => true)
  let moves (h : Nat) : Bool := match s.hank? h with
    | some r => r.moving.isSome
    | none => false
  forEach (s.tier.homeMvs.filter (fun m => !moves m.hank)) (fun m st => st.homeDrop m) s

/-- The planes of a STATE hank. -/
def planesOf (d : Desc) : List Nat := (List.range 5).filter (fun i => planeWidth d.planes d.formats i != 0)

/-- Write zeros from an offset of a plane to the end of its stripe. -/
def zeroTail (r : HankRt) (region : Nat) (s : State) : State :=
  let fin := regionEnd r.desc region
  let lo := fin % Config.stripe
  if lo = 0 then s
  else
    let t := fin / Config.stripe
    let k := s.planeKey r region t (groupOfStripe r.desc region t)
    if k.2 then s.pantryWrite (k.1 + lo) (zeros (Config.stripe - lo)) else s.hearthWrite (k.1 + lo) (zeros (Config.stripe - lo))

/-- Write zeros to the padding of a mask copy: the rest of its last stripe, and the bits of the last byte beyond the last element. -/
def zeroMaskTail (r : HankRt) (base : Nat) (s : State) : State :=
  let fin := maskBytes r.desc.count
  let s := if fin % Config.stripe = 0 then s else s.spanWrite base fin (zeros (Config.stripe - fin % Config.stripe))
  if r.desc.count % 8 = 0 then s
  else s.spanWrite base (fin - 1) (toLE 1 (fld 0 1 (s.spanRead base (fin - 1) 1) % 2 ^ (r.desc.count % 8)))

/-- Padding holds zero from the threshold at which a STATE hank turns LOADING (R39), whatever lay there before. -/
def zeroPadding (r : HankRt) (s : State) : State :=
  let s := forEach (planesOf r.desc) (fun region st => st.zeroTail r region) s
  if r.desc.masked then (s.zeroMaskTail r r.desc.maskA).zeroMaskTail r r.desc.maskB else s

/-- The pages in which padding lies. -/
def padPages (s : State) (r : HankRt) : List PageKey :=
  let one (region t : Nat) : PageKey := { hank := r.hank, region := region, channel := (stripePage s.C t).1, page := (stripePage s.C t).2 }
  ((planesOf r.desc).filter (fun i => regionEnd r.desc i % Config.stripe != 0)).map (fun i => one i (regionEnd r.desc i / Config.stripe)) ++
    (if r.desc.masked then [one 0x10 ((maskBytes r.desc.count - 1) / Config.stripe)] else [])

/-- Write the padding of a hank once no die holds a copy of its pages (R296). -/
def padHank (r : HankRt) (s : State) : State :=
  let ks := s.padPages r
  let rest := s.tier.padDue.filter (fun h => h != r.hank)
  if s.coherent ks none then zeroPadding r { s with tier := { s.tier with padDue := rest } }
  else State.invalidate ks none { s with tier := { s.tier with padDue := rest ++ [r.hank] } }

/-- Padding that waited for a die; a hank that is EMPTY again needs none. -/
def retryPads (s : State) : State :=
  forEach s.tier.padDue (fun h st =>
    match st.hank? h with
    | some r =>
      if r.desc.cls = 1 && r.state != 0 then st.padHank r
      else { st with tier := { st.tier with padDue := st.tier.padDue.filter (fun x => x != h) } }
    | none => { st with tier := { st.tier with padDue := st.tier.padDue.filter (fun x => x != h) } }) s

/-- A hank that was EMPTY begins: it has no pages yet, and its page map or its padding is written. -/
def openHank (r : HankRt) (s : State) : State :=
  let s := s.dropPagesOf (fun h => h == r.hank)
  if s.paged r.desc then s.freshMap r else if r.desc.cls = 1 then s.padHank r else s

/-- Hanks that begin: those LOADING or LIVE that `old` had not, had EMPTY, or had at the end of a vacate. -/
def openHanks (old s : State) : State :=
  let began (r : HankRt) : Bool := (r.state == 1 || r.state == 2) && (match old.hank? r.hank with
    | some o => o.state == 0 || o.state == 3
    | none => true)
  forEach (s.hanks.filter began) (fun r st => st.openHank r) s

/-- Repairs of hanks that are no longer LIVE go, and the poisoned tiles of a hank that no read reaches any more: one that is EMPTY and no
alias (R55, R161). -/
def dropRepairs (s : State) : State :=
  let live (h : Nat) : Bool := match s.hank? h with
    | some r => r.state == 2
    | none => false
  let read (h : Nat) : Bool := match s.hank? h with
    | some r => r.state != 0 || (s.aliasNamed h).isSome
    | none => false
  let mine := s.myPos
  { s with scrub := { s.scrub with
      repairs := s.scrub.repairs.filter (fun r => if r.position = mine then live r.hank else s.isLost r.position)
      tiles := s.scrub.tiles.filter (fun t => read t.1) } }

/-- Open host requests of a hank. -/
def hankOpen (s : State) (h : Nat) : Bool :=
  s.tier.held.any (fun x => x.q.hank.toNat == h) || s.code.hallReads.any (fun x => x.q.hank.toNat == h)

/-- A hank of another class than STATE has finished vacating once the host requests open to it are answered (R37). -/
def vacateOthers (s : State) : State :=
  let ends (r : HankRt) : Bool := r.state == 3 && r.desc.cls != 1 && !s.hankOpen r.hank
  { s with hanks := mapIf ends (fun r => { r with vacDone := true }) s.hanks }

/-- Hanks whose vacate has finished turn EMPTY (R37). -/
def emptyHanks (s : State) : State :=
  let ends (r : HankRt) : Bool := r.state == 3 && r.vacDone && r.heldState.isNone
  { s with hanks := mapIf ends (fun r => freshHank r.hank { r.desc with state := 0 }) s.hanks }

/-- Hanks whose vacate has finished take the state held for them, with the descriptor of the plan in effect (R38, R219). -/
def heldHanks (step : Nat) (s : State) : State :=
  let turn (r : HankRt) : HankRt :=
    match r.heldState, s.planEff.bind (fun p => p.desc r.hank) with
    | some n, some d => turnHank s s step false true 0 r { d with state := n }
    | _, _ => r
  openHanks s { s with hanks := mapIf (fun (r : HankRt) => r.state == 3 && r.vacDone && r.heldState.isSome) turn s.hanks }

/-- The old space of a finished home move is freed (R288). -/
def endHomeMoves (s : State) : State :=
  if s.tier.homeMove = 2 then { s with hanks := s.hanks.map (fun (r : HankRt) => { r with moving := none }) } else s

/-! ## The skein section (R174, R201, R202, R218, R219, R222) -/

/-- The member holds no skein (R202). -/
def leaveSkein (s : State) : State :=
  { s with
    mem := { s.mem with
      skeinId := 0xFFFF, state := 0, epoch := 0, named := 0, lintel := 0xFF, nodes := [], suspected := 0, confirmed := 0,
      confirmedLive := 0, heldState := none, digest := 0, pending := none, votedBases := [], seenEpoch := 0, votes := [], records := [],
      silent := [], catchUp := [], recode := 0, recodedFrom := 0 }
    code := { s.code with
      tags := [], heldSets := [], recomps := [], heldReads := [], layout := none, taken := []
      oldLayout := none, oldStore := { base := 0, hanks := [] }, oldTags := [], oldRoles := [], oldTaken := [], oldEpoch := none, oldAdopted := [] }
    loss := { s.loss with
      unclassed := [], lost := 0, adopted := [], roles := [], comps := [], excludedNodes := [], carry := [], lateLost := []
      recordsDue := [], recordsIssued := [], frayed := false, parts := [], reports := [] }
    card := { s.card with inflight := [], heldGroups := [] } }

/-- The membership state that a plan gives (R201, Table 7.3), with the states that are held for its hanks. -/
def planState (s : State) (k : SkeinSec) : Nat :=
  if bit k.flags 1 then 3
  else if bit k.flags 0 then 1
  else if s.mem.recode != 0 then 3
  else if k.position ≥ k.n then 6
  else if s.hanks.any (fun r => r.desc.cls == 1 && r.heldState.getD r.state == 2) then 2
  else 0

/-- A plan brings a membership of its own: its epoch lies above the one in effect, or no skein is held (R202). -/
def newMembership (s : State) (k : SkeinSec) : Bool := s.mem.skeinId == 0xFFFF || s.mem.epoch < k.epoch

/-- The positions that a plan covers again: with a new membership every lost one, else those that the epoch in effect names (R155,
R164, R174, R221). -/
def covers (s : State) (k : SkeinSec) : List Nat :=
  (bitsOf 16 s.loss.lost).filter (fun p => s.newMembership k || bit s.mem.named p)

/-- The membership of a plan (R202). -/
def takeMembership (k : SkeinSec) (s : State) : State :=
  let fresh := s.newMembership k
  let m := s.mem
  let m : MemSt := if fresh then { m with
      named := mapOf (List.range k.n), lintel := k.lintel
      nodes := (List.range 16).map (fun i => (k.members.getD i (0xFFFF, 0)).1)
      suspected := 0, silent := List.replicate 16 0, pending := none, votes := [], votedBases := [], catchUp := [] }
    else m
  let confirmed := if m.digest = k.digest then m.confirmed else 0
  { s with
    mem := { m with
      skeinId := k.skeinId, epoch := k.epoch, digest := k.digest, confirmed := confirmed,
      confirmedLive := if m.digest = k.digest then m.confirmedLive else 0, heldState := none }
    loss := { s.loss with
      excludedNodes := if fresh then [] else s.loss.excludedNodes
      frayed := s.loss.frayed && !fresh } }

/-- The pantry ply store that a re-code keeps. -/
def oldStoreOf (s : State) : OldStore :=
  match s.code.layout with
  | some l => s.plyStoreNow l
  | none => { base := 0, hanks := [] }

/-- Old layout, pantry store, tags, roles, epoch, taken ply stripes and adoptions stay beside the new layout until the re-code ends; `was` is the state
before the plan (R222, R223). -/
def keepOld (was : State) (s : State) : State :=
  { s with
    code := { s.code with
      oldLayout := was.code.layout, oldTags := was.code.tags, oldRoles := was.loss.roles, oldTaken := was.code.taken,
      oldStore := was.oldStoreOf, oldEpoch := some was.mem.epoch, oldAdopted := was.loss.adopted.map (fun a => (a.position, a.hank, a.group, a.heir)) }
    mem := { s.mem with recode := 1, recodedFrom := 0 } }

/-- Take the layout of a plan: its tags start at 0b00 when the plan forms or re-codes (R222); tags of hanks that vacate alone are
free (R218). A spare that takes a position recomputes the position's band roles (R174). -/
def takeLayout (k : SkeinSec) (p : Plan) (s : State) : State :=
  let was := s.code.layout
  let l := Layout.ofSkein k
  let vacates (h : Nat) : Bool := !emptiesMember p && (match p.desc h with
    | some d => d.cls == 1 && d.state == 3
    | none => true)
  let restart := k.flags % 4 != 0
  let s := { s with code := { s.code with
    layout := some l
    tags := if restart then [] else s.code.tags.filter (fun t => !vacates t.hank)
    taken := if restart then [] else s.code.taken.filter (fun t => !vacates t.hank)
    recomps := if restart then [] else s.code.recomps.filter (fun r => !vacates r.hank) } }
  let fromSpare := match was with
    | some o => o.n ≤ o.position && l.position < l.n && !restart
    | none => false
  if fromSpare then
    forEach ((bandRoles l).filter (fun r => l.holder r.2.2.1 r.2.2.2 == l.position))
      (fun r st => st.startRecomp l r.1 r.2.1 r.2.2.1 r.2.2.2) s
  else s

/-- The skein section of a plan takes effect; `was` is the state before the threshold's changes, of which a re-code keeps the store. -/
def enterSkein (was : State) (k : SkeinSec) (p : Plan) (s : State) : State :=
  let s := forEach (s.covers k) (fun pos st => st.coverPosition pos) s
  let s := if bit k.flags 1 then keepOld was s else s
  let s := (s.takeMembership k).takeLayout k p
  let s : State := if k.position < k.n then { s with loss := { s.loss with spareState := 0, filled := [] } } else s
  { s with mem := { s.mem with state := s.planState k } }

/-- The skein part of a plan waits: a vacate of this member runs, or one has to come first because it is fenced with no hank left to
vacate (R215, R219). -/
def skeinWaits (old : State) : Bool :=
  old.mem.vacating.isSome || (old.fenced && !old.hanks.any (fun r => r.desc.cls == 1 && r.state == 2))

/-- The skein part of a plan that applies: it is held while a vacate runs (R219). -/
def planSkein (old : State) (p : Plan) (s : State) : State :=
  if old.skeinWaits then
    { s with mem := { s.mem with heldState := some (match p.skein with
      | some k => s.planState k
      | none => 0) } }
  else
    match p.skein with
    | none => s.leaveSkein
    | some k => enterSkein old k p s

/-- A skein part held while the vacate ran takes effect. -/
def heldSkein (was : State) (s : State) : State :=
  match s.mem.heldState, s.mem.vacating, s.planEff with
  | some _, none, some p => match p.skein with
    | some k => (enterSkein was k p s).helloAll
    | none => s.leaveSkein
  | _, _, _ => s

/-! ## The pending plan (R27, R202, R411) -/

/-- The digest of a slot's program in a plan. -/
def progDigestIn (o : Option Plan) (slot : Nat) : Option Nat := (o.bind (fun p => p.prog? slot)).map (fun g => programDigest g.raw)

/-- The scalars of every slot whose program digest changes stand at +0.0 (R411). -/
def zeroScalars (old : Option Plan) (s : State) : State :=
  let changed := (List.range 64).filter (fun i => progDigestIn old i != progDigestIn s.planEff i)
  { s with regs := s.regs.filter (fun c =>
      !(changed.any (fun i => addrIdx c.1 == 0x2300 + i) && 0x10 ≤ addrSub c.1 && addrSub c.1 ≤ 0x1D)) }

/-- The code with which R202 discards a plan at its threshold. -/
def staleAt (s : State) (p : Plan) : Option Nat :=
  match p.skein with
  | none => none
  | some k =>
    if s.mem.skeinId = 0xFFFF then none
    else if k.epoch < s.mem.epoch then some 2
    else if (s.sameEpochRules k).isSome then some 3
    else none

/-- The pending plan is discarded (R202). -/
def discardPlan (p : Plan) (code : Nat) (s : State) : State :=
  let s := s.writeRefusal { code := code, index := 0xFF, demand := none, capacity := none }
  let s := s.setAdm { s.adm with state := if s.adm.loading.isSome then s.adm.state else 3, digest := p.digest, pendContext := none }
  State.raise 4 0x1220 0x01 code (State.bump 0x5000 0x01 1 { s with planPend := none })

/-- Notices whose epoch is not above a new plan's are dropped (R70). -/
def dropNotices (p : Plan) (s : State) : State :=
  match p.epoch? with
  | some e => { s with land := { s.land with notices := s.land.notices.filter (fun n => decide (e < n.epoch)) } }
  | none => s

/-- The vacate of this member starts: its LIVE STATE hanks turn VACATING and none is left (R216), or it is fenced (R215). -/
def vacateTurn (old : State) (p : Plan) (s : State) : State :=
  match old.skeinSec with
  | some k =>
    let live := old.hanks.any (fun r => r.desc.cls == 1 && r.state == 2)
    if ((emptiesMember p && live) || old.fenced) && s.mem.vacating.isNone then s.vacateStart k else s
  | none => s

/-- What came with the plan of a context, or with the restored hanks that a plan turns LIVE: the first record follows the one named
there (R238, R245, R247). -/
def recordTakes (s : State) : State :=
  let live (h : Nat) : Bool := match s.hank? h with
    | some r => r.state == 2
    | none => false
  let s : State := if s.led.restoredHanks.any live then
      { s with led := { s.led with prevOverride := some s.led.restoredRecord, restoredHanks := [] } }
    else s
  match s.adm.pendContext with
  | some (_, digest, _) => s.contextApplies.setReg 0x2600 0x05 digest
  | none => s

/-- A plan applies at the threshold that opens `step`, with an event (Table 12.20). -/
def applyPlan (p : Plan) (step : Nat) (s : State) : State :=
  let old := s
  let s : State := { s with planEff := some p, planPend := none }
  let s : State := { s with hanks := planHanks old s step p }
  let moved := s.hanks.any (fun r => r.moving.isSome && (match old.hank? r.hank with
    | some o => o.moving.isNone
    | none => false))
  let s : State := if moved then { s with tier := { s.tier with homeMove := 1, homeMoved := 0 } } else s
  let s := ((s.zeroScalars old.planEff).dropNotices p).recordTakes
  let s := (vacateTurn old p (planSkein old p s)).contextEpoch
  let s := openHanks old s
  let s : State := { s with loss := { s.loss with firstAt := s.now, evacAcked := [] } }
  (s.changed 0x1220 0x02 p.digest).helloAll

/-- Step 1 of R410. -/
def planTurn (step : Nat) (s : State) : State :=
  match s.planPend with
  | none => s
  | some p =>
    if p.frame.firstStep != step then s
    else
      match s.staleAt p with
      | some code => s.discardPlan p code
      | none => s.applyPlan p step

/-! ## Staged entries (R410 to R412, Table 14.4) -/

/-- The shares of R326 fit within 256 contexts. -/
def sharesFit (s : State) (n : Nat) : Bool :=
  match s.planEff with
  | some p => sumL (fabricContexts p) + n ≤ 256
  | none => n ≤ 256

/-- The condition of Table 14.4 for a scalar; `step` is the step that the threshold opens. -/
def scalarHolds (s : State) (step idx subi n : Nat) : Bool :=
  if idx = 0x1150 then s.sharesFit n
  else if idx = 0x2050 && subi = 2 then n = 0 || step < n
  else if idx = 0x2060 && subi = 1 then n = 0 || (step < n && s.drainPlan)
  else if idx = 0x2060 && subi = 2 then n = 0 || s.drainPlan
  else if 0x2300 ≤ idx && idx ≤ 0x233F then (s.slotProg (idx - 0x2300)).isSome
  else if idx = 0x2600 && subi = 4 then n != 1 || s.led.jobKey.isSome
  else if 0x2700 ≤ idx && idx ≤ 0x27FF then
    let c := idx - 0x2700
    s.twistOwner c == 7 && !((subi == 3 || subi == 4 || subi == 6) && 2 ^ (s.twistAt c).width ≤ n)
  else if idx = 0x3050 && subi = 3 then s.reg 0x3050 0x02 ≤ n
  else if idx = 0x3062 && subi = 2 then exactOf (BitVec.ofNat 32 (s.reg 0x3062 0x01)) < exactOf (BitVec.ofNat 32 n)
  else true

/-- The partners that 0x1120.03 names. -/
def partnerList (b : Bytes) : List Nat := (pieces 2 b).map leNat

/-- The condition of Table 14.4 for a STR or DOM. -/
def blobHolds (s : State) (idx : Nat) (b : Bytes) : Bool :=
  if idx = 0x1120 then ({ s with fx := { s.fx with partners := partnerList b } } : State).pins.length ≤ 7680
  else if 0x2700 ≤ idx && idx ≤ 0x27FF then s.twistOwner (idx - 0x2700) == 7 && twistOk (readTwistRec b)
  else if idx = 0x3090 then keepsRows s.scrub.retired (rowList b)
  else true

/-- The condition of Table 14.4 for a staged value. -/
def stagedHolds (s : State) (step idx subi : Nat) (v : Val) : Bool :=
  match v with
  | .num n => s.scalarHolds step idx subi n
  | .blob b => s.blobHolds idx b

/-- A parameter of a twist context with one field replaced. -/
def twistField (x : TwistCtx) (subi n : Nat) : TwistCtx :=
  match subi with
  | 2 => { x with width := n }
  | 3 => { x with poly := n }
  | 4 => { x with init := n }
  | 5 => { x with flags := n }
  | _ => { x with xorout := n }

/-- A new declared clock: the clocks counted so far stay the time they were. -/
def putClock (n : Nat) (s : State) : State :=
  State.setReg 0x1200 0x08 n { s with time := { s.time with base := s.now, clocks := 0 } }

/-- Seed entries of a table (R258). -/
def seedEntries (b : Bytes) : List SeedEnt :=
  (pieces 16 b).map (fun e => { hank := fld 0 2 e, use := fld 2 2 e, seed := fld 8 8 e })

/-- A staged value takes effect. -/
def putStaged (idx subi : Nat) (v : Val) (s : State) : State :=
  match v with
  | .num n =>
    if idx = 0x1200 then s.putClock n
    else if 0x2700 ≤ idx && idx ≤ 0x27FF then s.putTwist (idx - 0x2700) (twistField (s.twistAt (idx - 0x2700)) subi n)
    else if idx = 0x3100 then s.switchover n
    else s.setReg idx subi n
  | .blob b =>
    if idx = 0x1120 then { s with fx := { s.fx with partners := partnerList b } }
    else if idx = 0x2410 then { s with whorl := { s.whorl with seeds := seedEntries b } }
    else if 0x2700 ≤ idx && idx ≤ 0x27FF then s.putTwist (idx - 0x2700) (readTwistRec b)
    else if idx = 0x3061 then
      (s.setHealth { s.house.health with calibration := some b }).journalState 0x24 b
    else if idx = 0x3090 then s.retireRows (rowList b)
    else s

/-- A staged value that fails its condition is discarded (R410). -/
def discardStaged (addr : Nat) (s : State) : State :=
  State.raise 4 (addrIdx addr) (addrSub addr) 6
    (State.bump 0x5000 0x0B 1
      { s with house := { s.house with refusedAt := addr, refusedWhy := 6, refusedPath := 3 } })

/-- One staged value. -/
def stagedTurn (step : Nat) (x : Nat × Val) (s : State) : State :=
  let idx := addrIdx x.1
  let subi := addrSub x.1
  if s.stagedHolds step idx subi x.2 then (s.bump 0x5000 0x08 1).putStaged idx subi x.2 else s.discardStaged x.1

/-- A complete staged table set takes effect (R255). -/
def tableTurn (s : State) : State :=
  match s.whorl.stagedTables with
  | some t =>
    if s.whorl.copyState = 2 then
      State.bump 0x5080 0x07 1 (State.bump 0x5000 0x08 1
        { s with whorl := { s.whorl with tables := t, stagedTables := none, copyState := 0, badBanks := [] } })
    else s
  | none => s

/-- The job's next session key takes effect; the key it replaced is accepted until the next threshold (R322). -/
def keyTurn (s : State) : State :=
  match s.fx.nextKey with
  | some k => { s with fx := { s.fx with oldKey := s.fx.sessionKey, sessionKey := some k, nextKey := none } }
  | none => { s with fx := { s.fx with oldKey := none } }

/-- Contexts that a fabric feature owns have the parameters of CRC-32C (R327). -/
def fixTwist (s : State) : State :=
  { s with fx := { s.fx with twist := s.fx.twist.filter (fun x => s.twistOwner x.1 == 7) } }

/-- Seed entries that no hank needs are counted (R259). -/
def countSeeds (s : State) : State :=
  let need := s.neededSeeds (fun _ => true)
  s.bump 0x5080 0x06 ((s.whorl.seeds.filter (fun e => !need.contains (e.hank, e.use))).length)

/-- The enable masks. -/
def masksNow (s : State) : List Nat := s.reg 0x3020 0x01 :: (List.range s.C).map (fun c => s.reg 0x3010 (c + 1))

/-- Step 3 of R410, with the table set that has its own rule; new enable masks lead to the admission of R30. -/
def stagedAll (step : Nat) (s : State) : State :=
  let masks := s.masksNow
  let xs := s.staged
  let s : State := { s with staged := [] }
  let s := forEach xs (fun x st => st.stagedTurn step x) s.tableTurn
  let s := s.fixTwist.countSeeds
  if s.masksNow = masks then s else s.readmit

/-! ## What ends and begins with a step -/

/-- Poisoned tiles leave the list once every stripe they touch was committed in the step (R55); of a tile of an alias hank those that this
member has adopted count (log 190). -/
def cleanTiles (s : State) : State :=
  let pos := s.myPos
  let clean (t : Nat × Nat) : Bool := match s.hank? t.1 with
    | none => true
    | some r =>
      let gs := nub ((elemsOfTile r.desc t.2).map (fun e => e / Config.groupElems))
      match s.aliasNamed t.1 with
      | some a => gs.all (fun g => s.card.done.contains (a.position, a.hank, g) || (match s.adoption a.position a.hank g with
          | some x => x.heir != pos
          | none => true))
      | none =>
        let src := if r.desc.cls = 2 then r.desc.source else r.hank
        gs.all (fun g => s.card.done.contains (pos, src, g))
  { s with scrub := { s.scrub with tiles := s.scrub.tiles.filter (fun t => !clean t) } }

/-- The trace entry of a step, newest 16 (R386): the one that ends takes its threshold time. -/
def traceOpen (step ht : Nat) (s : State) : State :=
  let ended := mapIf (fun (x : TraceEnt) => x.step == s.fr.step && s.fr.opened) (fun x => { x with threshold := s.now }) s.house.trace
  let e : TraceEnt :=
    { step := step, tick := ht, rcOut := 0, rcIn := 0, lastCommit := 0, sealedAt := 0, threshold := 0, epoch := 0, late := false }
  { s with house := { s.house with trace := newest 16 (ended ++ [e]) } }

/-- What the step that ends ran under stays known for the work that it left (R171, R236). -/
def keepPrev (s : State) : State :=
  { s with prev :=
      { plan := s.planEff, regs := s.regs, tables := s.whorl.tables, seeds := s.whorl.seeds, fadd := s.led.fadd
        drainStep := s.drains s.fr.step } }

/-- The epoch in effect and the step sealed last, as the block context shows them until the next threshold (R246). -/
def keepContext (s : State) : State :=
  { s with led := { s.led with ctxEpoch := s.mem.epoch, ctxSealed := s.fr.lastSealed } }

/-- Every unit lets go of the step that ends. -/
def endStep (s : State) : State :=
  let s := s.cleanTiles
  let s := s.lossThreshold s.fr.step
  let s := s.landingThreshold.ledgerThreshold
  let s : State := { s with
    card := { s.card with done := [], heldGroups := [], trailing := [], nanEvent := false, infEvent := false }
    tier := { s.tier with used := [], usedTot := 0, fullSeen := [] }
    whorl := { s.whorl with windowBytes := [], reelBytes := [] }
    fx := { s.fx with authEvent := false } }
  s.flushSuppressed.shedThreshold

/-- The step opens: the signals of the tick group, the hall time of the tick (R24, R25, R358). -/
def openFrame (step ht : Nat) (s : State) : State :=
  let s := s.traceOpen step ht
  State.emit .threshold { s with
    fr := { s.fr with
      step := step, opened := true, phase := .gather, rcOut := false, rcSeen := false, sealedPin := false, htSample := ht,
      held := none, eN := 0, sealReadyAt := none, noQuorumCounted := false, delayCounted := false, epochWaitCounted := false,
      drainStep := false, withheld := false }
    loss := { s.loss with tickTimes := (s.now :: s.loss.tickTimes).take 257 } }

/-- What begins with the gather phase of the step that has opened. -/
def beginStep (step : Nat) (s : State) : State :=
  let s := (s.oweOpened.evacStart step).drainOpen step
  let s := s.releaseSets.releaseReads.countHeaders
  let s := s.viewOnlyPass.serveProbe
  s.acceptJobs.moverPass

/-- What the housekeeper does at a threshold: chain heads and an event batch to the journal, a compaction tried again, a switchover
that was held (R390, R392, R395). -/
def houseThreshold (s : State) : State :=
  let s := s.retryJournal
  let s := if s.sys.hk = .running then
      (s.journalState 0x25 s.headsBody).journalEvents
    else s
  s.heldSwitch

/-- Session key, plan, held enables and staged entries (R322, R410): a HELLO of the threshold is signed with the new key. -/
def applySettings (step : Nat) (s : State) : State :=
  let s := s.keyTurn
  let was := carryPlies s s.endHomeMoves
  let s := was.vacateOthers.emptyHanks.dropPages.planTurn step
  let s := carryPlies was (heldSkein was (s.heldHanks step))
  (s.dropPages.dropRepairs).stagedAll step

/-- The threshold that opens `step`: `ht` is the hall time sampled for its tick (R24, R358, R410). -/
def threshold (step ht : Nat) (s : State) : State :=
  let s := s.heatThreshold.keepPrev.endStep
  let s := s.applySettings step
  let s := (s.openFrame step ht).beginStep step
  s.houseThreshold.keepContext

/-- A fenced member's threshold: only the vacating plan of R215 applies, and no step opens (log 32). -/
def fencedThreshold (step : Nat) (s : State) : State :=
  let s := s.applySettings step
  let s := s.emit .threshold
  s.vacateFinish.houseThreshold.keepContext

end State

end Sys2Proof.Machine
end

