-- ==== Sys2Proof/Machine/Tick.lean ====
section
/-! DEFINITION. The step frame (chapter 1, R210, R213, R214, R358, R360): the seal, ticks, roll-call, the closing of sites, the clock of
the block, and the work that goes on by itself once what it waits for is there. -/

namespace Sys2Proof.Machine

namespace State

/-! ## The seal (R23, R25, R210, R212) -/

/-- The conditions of R23: shard and adopted groups committed and acknowledged, the audit balanced with its record, the adopted records
issued (R171), and no lost internal row that withholds the seal (Table 15.3). -/
def sealReady (s : State) : Bool := s.auditReady && s.led.auditState == 1 && s.loss.recordsDue.isEmpty && !s.fr.withheld

/-- The frame trace takes the seal's hall time. -/
def traceSeal (late : Bool) (s : State) : State :=
  let tr := mapIf (fun (x : TraceEnt) => x.step == s.fr.step) (fun x => { x with sealedAt := s.now, late := late }) s.house.trace
  { s with house := { s.house with trace := tr } }

/-- The seal comes later than the hall time of the tick plus p_min (R25). -/
def lateSeal (s : State) : Bool := decide (s.fr.htSample + s.declared (fun f => f.pMin) < s.now)

/-- The vacate of a fenced member is over and its plan waits to take effect: it has opened no step since, so the next tick from the
plan's first step on opens one (R219; DESIGN CHOICE, log 166). -/
def rejoins (s : State) (n : Nat) : Bool :=
  s.mem.heldState.isSome && s.mem.vacating.isNone && s.fr.phase == .none && (match s.planEff with
    | some p => decide (p.frame.firstStep ≤ n)
    | none => false)

/-- The number that R19 expects: the first step of the pending plan, or the step after the one last opened while a plan is in
effect. A pending plan that the threshold would discard (R202) makes no exception: no plan would be newly applied (DEDUCED, log
188). -/
def expects (s : State) (n : Nat) : Bool :=
  (match s.planPend with
    | some p => p.frame.firstStep == n && (s.staleAt p).isNone
    | none => false) || (s.planEff.isSome && s.fr.opened && n == s.fr.step + 1) || s.rejoins n

/-- `tk_sealed` rises; a held tick becomes the threshold in the next clock (R214). -/
def sealStep (s : State) : State :=
  let late := s.lateSeal
  let live (r : HankRt) : Bool := r.desc.cls == 1 && r.state == 2
  let s : State := { s with
    fr := { s.fr with phase := .sealed, sealedPin := true, lastSealed := s.fr.step, everSealed := true }
    hanks := mapIf live (fun r => { r with digestSealed := r.digest }) s.hanks }
  let s := s.traceSeal late
  let s := if late then s.countNote 0x5000 0x04 s.fr.step else s
  let s := if s.mem.state = 1 then s.setMemState 2 else s
  let s := s.vacateFinish.copyGo
  match s.fr.held with
  | some (n, ht) => if s.expects n then s.threshold n ht else State.countNote 0x5000 0x02 n { s with fr := { s.fr with held := none } }
  | none => s

/-- A member of the epoch in effect other than this one is suspected. -/
def anySuspected (s : State) : Bool := (bitsOf 16 s.mem.named).any (fun p => p != s.myPos && bit s.mem.suspected p)

/-- The hall time at which the conditions of R23 came to hold. -/
def noteReady (s : State) : State :=
  match s.fr.sealReadyAt with
  | some _ => s
  | none => { s with fr := { s.fr with sealReadyAt := some s.now } }

/-- The seal delay limit has passed since then. -/
def delayOver (s : State) : Bool :=
  match s.fr.sealReadyAt with
  | some t => decide (t + s.reg 0x2001 0x03 * 1000 ≤ s.now)
  | none => false

/-- Without its quorum a member does not seal: counted once a frame (R212). -/
def withholdSeal (s : State) : State :=
  if s.fr.noQuorumCounted then s
  else State.countNote 0x5060 0x0E s.fr.step { s with fr := { s.fr with noQuorumCounted := true } }

/-- A suspected member delays the seal: counted once a frame (R210). -/
def delaySeal (s : State) : State :=
  if s.fr.delayCounted then s
  else State.countNote 0x5060 0x0D s.fr.step { s with fr := { s.fr with delayCounted := true } }

/-- The conditions of R23 do not hold, or no longer: the delay of R210 counts from when they hold again. -/
def unready (s : State) : State := { s with fr := { s.fr with sealReadyAt := none } }

/-- Seal the open step if nothing stands against it. -/
def trySeal (s : State) : State :=
  if !s.sealReady then s.unready
  else
    let s := s.noteReady
    if !s.quorum then s.withholdSeal
    else if s.anySuspected && !s.delayOver then s.delaySeal
    else s.sealStep

/-! ## What goes on by itself -/

/-- Work that a command may have set free: reports, records, sets and vacates that were due, copies, pages, held requests, jobs, repairs,
and the seal. -/
def settlePlan (s : State) : State :=
  let s := s.sendReports.issueDue.recodePass
  let s := s.vacatePass.vacateFinish
  let s := s.copyGo.drainGo.retryPads.serveHeldOut
  let s := s.markLost.retryMoves.moverPass.viewOnlyPass
  let s := s.heldPass.atomicPass.jobPass.retryDiscards
  let s := s.retryCommits.repairPass
  let s := s.retryFills.retryRestore
  s.auditAgain.trySeal

/-- Without a plan in effect nothing waits. -/
def settleAll (s : State) : State :=
  match s.planEff with
  | none => s
  | some _ => s.settlePlan

/-! ## Ticks (R19, R20, R213 to R215, R358) -/

/-- The open step is not sealed. -/
def unsealed (s : State) : Bool := s.fr.phase == .gather || s.fr.phase == .update

/-- A tick for the next step comes before the open one is sealed (R20, R214). -/
def earlyTick (n : Nat) (s : State) : State :=
  let s := s.countNote 0x5000 0x03 n
  if !s.quorum then s.fence 2
  else if s.fr.held.isSome then s
  else State.countNote 0x5060 0x10 n { s with fr := { s.fr with held := some (n, s.now) } }

/-- A tick at a fenced member: ignored and counted, but for the one that brings the vacating plan of R215 (log 32). -/
def fencedTick (n : Nat) (s : State) : State :=
  match s.planPend with
  | some p => if p.frame.firstStep = n && (s.staleAt p).isNone && (s.fencedRules p).isNone then s.fencedThreshold n else s.bump 0x5060 0x13 1
  | none => s.bump 0x5060 0x13 1

/-- A pulse on `tk_step` (R358). Before `lz_ready` it is ignored without count (R335). -/
def tick (n ht : Nat) (s : State) : State :=
  if !s.sys.ready then s
  else
    let s := s.sampleTime ht
    if s.fenced then s.fencedTick n
    else if !s.expects n then s.countNote 0x5000 0x02 n
    else if s.unsealed then s.earlyTick n
    else if !s.quorum then s.fence 2
    else s.threshold n s.now

/-! ## Roll-call (R21, R360) -/

/-- The frame trace takes the roll-call's hall time and epoch. -/
def traceRollcall (epoch : Nat) (s : State) : State :=
  let tr := mapIf (fun (x : TraceEnt) => x.step == s.fr.step) (fun x => { x with rcIn := s.now, epoch := epoch }) s.house.trace
  { s with house := { s.house with trace := tr } }

/-- A pulse on `tk_rollcall_in`. Before `lz_ready` no step is open, so a pulse is counted like any other without one: only ticks go
uncounted there (R335). -/
def rollcall (epoch : Nat) (withTick : Bool) (ht : Nat) (s : State) : State :=
  if s.sys.lzReset then s
  else
    let s := s.sampleTime ht
    if withTick || s.fr.rcSeen || s.fr.phase != .gather then s.bump 0x50C0 0x05 1
    else (((s.traceRollcall epoch).rollcallAt epoch).classLosses.probeRollcall).advanceComps.serveHeldOut

/-! ## Sites (R71, R74, R75) -/

/-- A site takes its turn to close early. -/
def siteEarly (id : Nat) (s : State) : State :=
  match s.site? id with
  | some x => s.earlyTurn x
  | none => s

/-- A site takes its turn to close; what waits for its output goes on. -/
def siteLate (id ht : Nat) (s : State) : State :=
  let s := s.sampleTime ht
  match s.site? id with
  | some x => (s.siteTurn x).landingPass
  | none => s

/-! ## Hall time (R337) -/

/-- `ht_valid` is low for some clocks, or, with none, a sample lies below the largest one seen. -/
def hallInvalid (clocks sample : Nat) (s : State) : State :=
  if clocks = 0 then s.sampleTime sample
  else State.bump 0x50C0 0x06 clocks { s with time := { s.time with clocks := s.time.clocks + clocks, valid := false } }

/-- `ht_valid` rises again. -/
def hallValid (sample : Nat) (s : State) : State :=
  State.sampleTime sample { s with time := { s.time with valid := true } }

/-! ## Credits from the adapter (R310, R312, R355) -/

/-- Credits that come back for a way and class go to the oldest messages that spent them: what is still spent, and the credits by the
step of the message. -/
def giveBack (way cls : Nat) : List (Nat × Nat × Nat × Nat × Nat) → Nat → Nat →
    List (Nat × Nat × Nat × Nat × Nat) × List (Nat × Nat)
  | [], _, _ => ([], [])
  | e :: es, hdr, unit =>
    if e.1 = way && e.2.1 = cls && (hdr != 0 || unit != 0) then
      let a := min hdr e.2.2.2.1
      let b := min unit e.2.2.2.2
      let r := giveBack way cls es (hdr - a) (unit - b)
      let left := (e.1, e.2.1, e.2.2.1, e.2.2.2.1 - a, e.2.2.2.2 - b)
      (if e.2.2.2.1 = a && e.2.2.2.2 = b then r.1 else left :: r.1, (e.2.2.1, a + b) :: r.2)
    else
      let r := giveBack way cls es hdr unit
      (e :: r.1, r.2)

/-- Credits of one class come back. -/
def creditBack (way cls hdr unit : Nat) (s : State) : State :=
  let c := s.creditAt way cls
  let h := if c.hdrGrant < c.hdr + hdr then 0 else hdr
  let u := if c.unitGrant < c.unit + unit then 0 else unit
  let s := if h = hdr then s else s.countNote 0x50A0 0x09 s.fr.step
  let s := if u = unit then s else s.countNote 0x50A0 0x09 s.fr.step
  let s := s.setCredit way cls { c with hdr := c.hdr + h, unit := c.unit + u }
  let r := giveBack way cls s.fx.spent h u
  let s : State := { s with fx := { s.fx with spent := r.1 } }
  forEach r.2 (fun x st => if cls != 2 && st.fr.opened && x.1 == st.fr.step then st.countReturned way x.2 else st) s

/-- CREDIT_RETURN: bit k of `hdr` is one header credit of class k, bits 2k + 1:2k of `unit` its unit credits (Table 12.11). -/
def creditReturn (way hdr unit : Nat) (s : State) : State :=
  if s.sys.lzReset || !s.wayUp way then s
  else
    let s := forEach (List.range 3) (fun k st => st.creditBack way k (hdr / 2 ^ k % 2) (unit / 4 ^ k % 4)) s
    s.pump

/-- Outbound credits that the adapter grants at least (Table 11.5). -/
def leastGrant (cls : Nat) : Nat × Nat := if cls = 2 then (8, 32) else (32, 256)

/-- The grant of one class: at most 255 header and 4,095 unit credits count. -/
def grantClass (way cls hdr unit : Nat) (s : State) : State :=
  let h := min 255 hdr
  let u := min 4095 unit
  let s := if h = hdr then s else s.countNote 0x50A0 0x09 s.fr.step
  let s := if u = unit then s else s.countNote 0x50A0 0x09 s.fr.step
  let s := s.setCredit way cls { hdrGrant := h, unitGrant := u, hdr := h, unit := u }
  let least := leastGrant cls
  if h < least.1 || u < least.2 then s.countNote 0x50C0 0x09 s.fr.step else s

/-- CREDIT_INIT: the adapter's whole grant on a way; once `fx_tx_crd_init` has fallen only a reset brings another. -/
def creditInit (way : Nat) (hdr unit : List Nat) (s : State) : State :=
  if s.sys.lzReset || s.wayUp way then s
  else
    let s := forEach (List.range 3) (fun k st => st.grantClass way k (natAt hdr k) (natAt unit k)) s
    State.pump { s with fx := { s.fx with initDone := setAt s.fx.initDone way true } }

/-! ## Dies (R296, R346) -/

/-- A die acknowledges its oldest open invalidation on a channel; one that matches none is discarded and counted (R346). -/
def invAck (ch die : Nat) (s : State) : State :=
  match s.closeInv ch die with
  | some s => s
  | none => s.bump 0x50C0 0x0A 1

/-- The acknowledgement of a die's oldest open invalidation is overdue: the change is held on (R296). -/
def invOverdue (ch die : Nat) (s : State) : State :=
  match s.tier.invOpen.find? (fun x => x.1 == ch && x.2.1 == die) with
  | some e => s.countNote 0x5090 0x0E (hankDetail e.2.2.1 e.2.2.2.2)
  | none => s

/-! ## Table sets (R255) -/

/-- The staged table set is complete in every channel. -/
def copyDone (s : State) : State :=
  if s.whorl.copyState = 1 then { s with whorl := { s.whorl with copyState := 2 } } else s

end State

end Sys2Proof.Machine
end

