-- ==== Sys2Proof/Machine/Local.lean ====
section
/-! DEFINITION. What becomes of a message once it is accepted, from a way or from inside the block (R300, R305), of the answers to
requests, and of a request without an answer (R319); the frame of every command. -/

namespace Sys2Proof.Machine

namespace State

/-! ## Answers to requests (R140, R142, R167, R182, R305) -/

/-- The outcome of a decode goes to what asked for it: a repair, a host read or an encode. -/
def decodeResult (res : DecRes) (s : State) : State :=
  let of (d : DecodeRt) : State :=
    if d.purpose = 0 || d.purpose = 3 then s.repairGot res
    else if d.purpose = 1 || d.purpose = 4 then s.hallDecoded res
    else match res with
      | .done d b => s.gotOld d b
      | _ => s
  match res with
  | .more => s
  | .failed d => of d
  | .done d _ => of d

/-- A read answer feeds the recompute, the completion or the decode that asked for it. -/
def readAnswer (m : HeldMsg) (s : State) : State :=
  match s.openReq m.request with
  | none => s
  | some r =>
    if !s.isMember m.source then s.bump 0x5040 0x04 1
    else if r.typ != 0x16 && r.typ != 0x17 then s
    else
      let s := s.freeReq r.engine r.entry
      match r.key.headD 0 with
      | 1 => s.feedRecomp r.key m.body
      | 2 => s.feedComp r m.body
      | 3 =>
        let (s, res) := s.feedDecode r.key m.body
        s.decodeResult res
      | _ => s

/-- The end of a WRITE: of the drain, of a page move or of an offload target. -/
def writeEnd (r : ReqRt) (ok : Bool) (s : State) : State :=
  match r.engine, r.key with
  | 4, [0, _] => s.drainAnswer ok
  | 3, [h, c, p, _] => if ok then s.moveWritten h c p else s.moveFailed h c p
  | 1, [_, h, slot, o] => s.jobWritten h slot o ok
  | _, _ => s

/-- The end of a READ: of a restore, of a page move or of an offload source. -/
def readEnd (r : ReqRt) (data : Option Bytes) (s : State) : State :=
  match r.engine, r.key with
  | 4, _ => s.restoreAnswer r.key data
  | 3, [h, c, p, i] => if data.isSome then s.moveRead h c p i data else s.moveFailed h c p
  | 1, [_, h, slot, o] => s.jobData h slot o data
  | _, _ => s

/-- A write completion arrives. -/
def onWcomp (m : HeldMsg) (s : State) : State :=
  match s.openReq m.request with
  | none => s
  | some r => if r.typ = 0x01 then (s.freeReq r.engine r.entry).writeEnd r (fld 0 1 m.body == 0) else s

/-- Poisoned data from a cellar node, for a page move or an offload job (Table 10.9). -/
def cellarPoison (r : ReqRt) (m : HeldMsg) (s : State) : State :=
  if (r.engine = 3 || r.engine = 1) && fld 0 1 m.body = 2 then s.bump 0x5090 0x0A 1 else s

/-- Read data arrive: a length other than the one asked for is a failed response (R305). -/
def onRdata (m : HeldMsg) (s : State) : State :=
  match s.openReq m.request with
  | none => s
  | some r =>
    if r.typ = 0x03 then
      let data := m.body.drop 8
      let ok := fld 0 1 m.body == 0 && data.length == fld 8 4 r.body
      ((s.cellarPoison r m).freeReq r.engine r.entry).readEnd r (if ok then some data else none)
    else s

/-! ## A request without an answer (R319) -/

/-- A request is sent again, behind those that wait: on the next way in turn where the first took its turn (R307). -/
def sendAgain (r : ReqRt) (s : State) : State :=
  s.enqueue { engine := r.engine, dest := r.dest, typ := r.typ, way := r.way, alt := r.alt, again := true, epoch := s.mem.epoch,
              step := r.step, body := r.body, key := r.key }

/-- Mirror pieces are sent again until roll-call of the next step (R319). -/
def mirrorOver (s : State) (r : ReqRt) : Bool := decide (r.step + 1 < s.fr.step) || (decide (r.step < s.fr.step) && s.fr.rcSeen)

/-- The failure of a request under the rule of its feature: none where the feature needs it no more. A request for epoch records is sent
anew in a later heartbeat period (R207). -/
def requestFails (r : ReqRt) (s : State) : State :=
  if r.key.isEmpty then s
  else match r.typ with
  | 0x01 => s.writeEnd r false
  | 0x03 => s.readEnd r none
  | 0x12 => if s.mirrorOver r then s else s.sendAgain r
  | 0x33 => s
  | _ => s.sendAgain r

/-- REQUEST_TIMEOUT. A delta set keeps its entry. -/
def requestTimeout (engine entry : Nat) (s : State) : State :=
  match s.fx.reqs.find? (fun r => r.engine == engine && r.entry == entry) with
  | none => s
  | some r => if r.typ = 0x10 then s else ((s.freeReq engine entry).bump 0x50A0 0x08 1).requestFails r

/-! ## Messages by type (Table 11.3) -/

/-- What an accepted message of a type does. Lomaz serves no READ or WRITE and sends no ATOMIC (R299). -/
def onMessage (m : HeldMsg) (s : State) : State :=
  match m.typ with
  | 0x02 => s.onWcomp m
  | 0x04 => s.onRdata m
  | 0x05 => s.fabricAtomic m
  | 0x10 => s.onDeltaSet m none
  | 0x11 => s.onDeltaAck m
  | 0x12 => s.onMirrorPiece m
  | 0x13 => s.onMirrorAck m
  | 0x14 => s.onReRequest m
  | 0x15 => s.onReAnswer m
  | 0x16 => s.onPlyRead m
  | 0x17 => s.onStripeRead m
  | 0x18 => s.readAnswer m
  | 0x19 => s.onFillSet m
  | 0x1A => s.onFillAck m
  | 0x1B => s.onReport m
  | 0x1C => s.onReportAck m
  | 0x30 => s.onHello m
  | 0x31 => s.onHeartbeat m
  | 0x32 => s.onVote m
  | 0x33 => s.onEpochRequest m
  | 0x34 => s.onEpochRecord m
  | 0x35 => if fld 3 1 m.body = 0 then s.onVacate m else s.onVacateAck m
  | 0x36 => s.onRecoded m
  | 0x37 => s.onNotice m
  | 0x38 => s.onOcper m
  | _ => s

/-! ## The frame of a command -/

/-- The checks of Table 11.6 that hold for a message from inside the block, which has no trailer, context or counter: its job, a key for its
class, and the request that a response names (R300). -/
def receiveLocal (m : HeldMsg) (s : State) : State × Option HeldMsg :=
  let cls := (msgClass m.typ).getD 2
  if !s.knowsJob m.job && !(m.job == 0 && m.typ == 0x38) then discard 0x5060 0x03 s
  else if cls == 2 && (s.acceptKeys m.job).isEmpty then (s.authFailure, none)
  else if cls == 1 && (s.openReq m.request).isNone then discard 0x50A0 0x07 s
  else (s.bump 0x50A0 0x0D 1, some m)

/-- A message that was accepted: the hook of every accepted one, its own effect, and what that set free. -/
def handle (f : HeldMsg → State → State) (x : State × Option HeldMsg) : State :=
  match x with
  | (s, none) => s
  | (s, some m) => (f m (s.onAccepted m)).settleAll

/-- Messages that the block sends to itself are handled in the order formed, at most `k` of them (R300). -/
def localPass : Nat → State → State
  | 0, s => s
  | k + 1, s =>
    match s.fx.localIn with
    | [] => s
    | m :: rest => localPass k (handle onMessage (receiveLocal m { s with fx := { s.fx with localIn := rest } }))

/-- An inbound message is held back by its way (R326): its feature's context is taken by a message on its way out, or one of its class is held
already. Responses never wait (R320, R356). -/
def rxWaits (s : State) (typ : Nat) (h : RxHdr) (body : Bytes) : Bool :=
  unitsOf body.length != 0 && msgClass typ == some 0 && h.cls == 0 &&
    (s.fx.rxHeld.any (fun x => x.hdr.way == h.way && x.hdr.cls == h.cls) ||
      s.contextHeld (s.contextOf false h.way.toNat typ h.request.toNat))

/-- Messages held back are taken in once their context is free, at most `k` of them. -/
def rxPass : Nat → State → State
  | 0, s => s
  | k + 1, s =>
    match s.fx.rxHeld.find? (fun x => !s.contextHeld (s.contextOf false x.hdr.way.toNat x.typ x.hdr.request.toNat)) with
    | none => s
    | some x => rxPass k (handle onMessage (State.receive x.typ x.hdr x.body { s with fx := { s.fx with rxHeld := s.fx.rxHeld.erase x } }))

/-- Messages from inside that one command handles at most; what is over waits for the next command. -/
def localFuel : Nat := 65536

/-- The output ports are quiet again when the next command comes, with what the memory controllers answer to its accesses. -/
def begin (mem : MemAns) (s : State) : State := { s with out := [], ans := mem }

/-- An incarnation that a counter's overflow raised is journaled (R317). -/
def journalRaise (s : State) : State :=
  if s.fx.incRaised then
    State.append 0x20 s.incarnationBody 0 { s with fx := { s.fx with incRaised := false } }
  else s

/-- What a command leaves to do: the messages held back and those inside the block, contexts over the table's size, and what the journal is
due. -/
def finish (s : State) : State :=
  let s := localPass localFuel (rxPass s.fx.rxHeld.length s)
  (s.evictOver.journalRaise.journalIfFull.compactIfDue).loseWrites

/-- A command's effect between the two, under the answers to its memory accesses; what its reads of internal SRAM find counts and acts
first (R426). -/
def runMem (mem : MemAns) (f : State → State) (s : State) : State := finish (f (begin mem s).sramReads)

/-- A command whose memory accesses are all answered OK (log 158). -/
def run (f : State → State) (s : State) : State := runMem .clean f s

/-- A command after which the work it set free goes on. -/
def runSettledMem (mem : MemAns) (f : State → State) (s : State) : State := runMem mem (fun st => (f st).settleAll) s

/-- The same where every memory access is answered OK. -/
def runSettled (f : State → State) (s : State) : State := runSettledMem .clean f s

/-- An effect of the running block: none before `lz_ready` (R335, log 15). -/
def ready (f : State → State) (s : State) : State := if s.sys.ready then f s else s

/-- An effect at a port that lives once `lz_reset` is low (R335). -/
def awake (f : State → State) (s : State) : State := if s.sys.lzReset then s else f s

/-- An effect of a dictionary command on a path: the register port takes no request before `lz_ready` (R335). -/
def atPort (path : Path) (f : State → State) (s : State) : State := if path = .regPort then s.ready f else s.awake f

/-- A fabric message that comes from a way: the receive checks, the hook of every accepted message, then its own effect. -/
def fromWay (typ : Nat) (h : RxHdr) (body : Bytes) (f : HeldMsg → State → State) (s : State) : State :=
  s.awake (fun s =>
    if s.rxWaits typ h body then { s with fx := { s.fx with rxHeld := s.fx.rxHeld ++ [{ typ := typ, hdr := h, body := body }] } }
    else handle f (s.receive typ h body))

/-- The build has a channel of this number (R33). -/
def hasChannel (s : State) (ch : Nat) : Bool := decide (ch < s.C)

/-- The build has the lane or spindle that a fault names (R93, R148). -/
def hasUnit (s : State) (f : UnitFault) : Bool :=
  match f with
  | .lane ch _ => s.hasChannel ch.toNat
  | .spindle u => decide (u.toNat < s.straps.build.spindles)

/-- The build has a bank and row of these numbers (R424, R425). -/
def hasRow (s : State) (bank row : Nat) : Bool := rowExists s.straps.build (bank, row)

/-- The housekeeper core runs or starts: a watchdog guards it from its release on, and none guards the boot ROM of recovery (R377, R420). -/
def guarded (f : State → State) (s : State) : State :=
  if s.sys.lzReset || !s.sys.filled || s.sys.hk == .recovery then s else f s

end State

end Sys2Proof.Machine
end

