-- ==== Sys2Proof/Machine/ExecDict.lean ====
section
/-! DEFINITION. The meanings of the dictionary commands: the writes with a row of their own, the transfer window, reads of the register
port, and the completion of admission (chapters 1, 12, 14). -/

namespace Sys2Proof.Machine

/-- PLAN_LOAD (R27). -/
def execPlanLoad (path : Path) (plan : Bytes) (s : State) : Host.Outcome State Fault Refusal :=
  .next (s.run (fun st => st.atPort path (fun x => x.ownWrite path 0x122001 (.blob plan))))

/-- ADMISSION_COMPLETE (R28). -/
def execAdmissionComplete (mem : MemAns) (s : State) : Host.Outcome State Fault Refusal := .next (s.runMem mem (fun st => st.finishAdmission))

/-- EPOCH_PROPOSAL (R204). -/
def execEpochProposal (path : Path) (body : Bytes) (mem : MemAns) (s : State) : Host.Outcome State Fault Refusal :=
  .next (s.runSettledMem mem (fun st => st.atPort path (fun x => x.ownWrite path 0x201001 (.blob body))))

/-- EXCLUSION_NOTICE (R70). -/
def execExclusionNotice (path : Path) (body : Bytes) (mem : MemAns) (s : State) : Host.Outcome State Fault Refusal :=
  .next (s.runSettledMem mem (fun st => st.atPort path (fun x => x.ownWrite path 0x221001 (.blob body))))

/-- ROLLCALL_REQUEST (R360). -/
def execRollcallRequest (path : Path) (step : BitVec 64) (s : State) : Host.Outcome State Fault Refusal :=
  .next (s.run (fun st => st.atPort path (fun x => x.ownWrite path 0x123001 (.num step.toNat))))

/-- CORE_CLOCK_WRITE (R30). -/
def execCoreClockWrite (path : Path) (mhz : BitVec 32) (s : State) : Host.Outcome State Fault Refusal :=
  .next (s.run (fun st => st.atPort path (fun x => x.ownWrite path 0x120008 (.num mhz.toNat))))

/-- TABLE_SET_WRITE (R254). -/
def execTableSetWrite (path : Path) (body : Bytes) (s : State) : Host.Outcome State Fault Refusal :=
  .next (s.run (fun st => st.atPort path (fun x => x.ownWrite path 0x240001 (.blob body))))

/-- RESTORE_REQUEST (R242). -/
def execRestoreRequest (path : Path) (body : Bytes) (mem : MemAns) (s : State) : Host.Outcome State Fault Refusal :=
  .next (s.runMem mem (fun st => st.atPort path (fun x => x.ownWrite path 0x264001 (.blob body))))

/-- CONTEXT_RESTORE (R247). -/
def execContextRestore (path : Path) (body : Bytes) (mem : MemAns) (s : State) : Host.Outcome State Fault Refusal :=
  .next (s.runMem mem (fun st => st.atPort path (fun x => x.ownWrite path 0x265002 (.blob body))))

/-- HASH_PROBE (R249). -/
def execHashProbe (path : Path) (body : Bytes) (mem : MemAns) (s : State) : Host.Outcome State Fault Refusal :=
  .next (s.runMem mem (fun st => st.atPort path (fun x => x.ownWrite path 0x263001 (.blob body))))

/-- MASK_STRIPE_REPAIR (R61). -/
def execMaskStripeRepair (path : Path) (body : Bytes) (mem : MemAns) (s : State) : Host.Outcome State Fault Refusal :=
  .next (s.runSettledMem mem (fun st => st.atPort path (fun x => x.ownWrite path 0x304002 (.blob body))))

/-- LOST_MASK_COPY (R160). -/
def execLostMaskCopy (path : Path) (body : Bytes) (mem : MemAns) (s : State) : Host.Outcome State Fault Refusal :=
  .next (s.runSettledMem mem (fun st => st.atPort path (fun x => x.ownWrite path 0x204007 (.blob body))))

/-- PAGE_DISCARD (R290). -/
def execPageDiscard (path : Path) (body : Bytes) (mem : MemAns) (s : State) : Host.Outcome State Fault Refusal :=
  .next (s.runSettledMem mem (fun st => st.atPort path (fun x => x.ownWrite path 0x252001 (.blob body))))

/-- REPLICA_COPY_START (R178). -/
def execReplicaCopyStart (path : Path) (node : BitVec 16) (mem : MemAns) (s : State) : Host.Outcome State Fault Refusal :=
  .next (s.runMem mem (fun st => st.atPort path (fun x => x.ownWrite path 0x207001 (.num node.toNat))))

/-- FIRMWARE_LOAD (R394). -/
def execFirmwareLoad (path : Path) (image : Bytes) (s : State) : Host.Outcome State Fault Refusal :=
  .next (s.run (fun st => st.atPort path (fun x => x.ownWrite path 0x310001 (.blob image))))

/-- SECURITY_MINIMUM_WRITE (R395). -/
def execSecurityMinimumWrite (path : Path) (value : BitVec 32) (s : State) : Host.Outcome State Fault Refusal :=
  .next (s.run (fun st => st.atPort path (fun x => x.ownWrite path 0x310006 (.num value.toNat))))

/-- JOURNAL_FORMAT (R392). -/
def execJournalFormat (path : Path) (mib : BitVec 16) (s : State) : Host.Outcome State Fault Refusal :=
  .next (s.run (fun st => st.atPort path (fun x => x.ownWrite path 0x320006 (.num mib.toNat))))

/-- EVENT_ACKNOWLEDGE (R385). -/
def execEventAcknowledge (path : Path) (line : BitVec 3) (seq : BitVec 64) (s : State) : Host.Outcome State Fault Refusal :=
  .next (s.run (fun st => st.atPort path (fun x => x.ownWrite path (0x307010 + line.toNat) (.num seq.toNat))))

/-- DICTIONARY_WRITE (R408). -/
def execDictionaryWrite (path : Path) (address : BitVec 24) (value : Val) (mem : MemAns) (s : State) : Host.Outcome State Fault Refusal :=
  .next (s.runSettledMem mem (fun st => st.atPort path (fun x => x.ownWrite path address.toNat value)))

/-- TRANSFER_TARGET (R364). -/
def execTransferTarget (target : BitVec 32) (s : State) : Host.Outcome State Fault Refusal :=
  .next (s.run (fun st => st.ready (fun x => x.ownWrite .regPort 0x10FD01 (.num target.toNat))))

/-- A read of the register port: status and word on the port (Table 12.13). -/
def State.portReadOut (addr : Nat) (s : State) : State :=
  let (s1, st, w) := s.wordRead .regPort addr
  s1.emit (.rp st w)

/-- TRANSFER_DATA_READ (R364). -/
def execTransferDataRead (s : State) : Host.Outcome State Fault Refusal :=
  .next (s.run (fun st => st.ready (fun x => x.portReadOut 0x10FD03)))

/-- TRANSFER_DATA_WRITE (R364). -/
def execTransferDataWrite (word : BitVec 32) (s : State) : Host.Outcome State Fault Refusal :=
  .next (s.run (fun st => st.ready (fun x => x.ownWrite .regPort 0x10FD03 (.num word.toNat))))

/-- TRANSFER_APPLY (R364). -/
def execTransferApply (length : BitVec 32) (mem : MemAns) (s : State) : Host.Outcome State Fault Refusal :=
  .next (s.runSettledMem mem (fun st => st.ready (fun x => x.ownWrite .regPort 0x10FD04 (.num length.toNat))))

/-- A read on another path than the register port: the value's bytes. A locked Jutus refuses an RC entry (R401). -/
def State.valueReadOut (path : Path) (addr : Nat) (s : State) : State :=
  if !s.serves path addr none then (s.countRetry path addr false).emit (.wr path 7)
  else
    match s.readValue path addr with
    | none => s.noEntry.emit (.wr path 8)
    | some (r, v) =>
      if path = .jutus && !s.house.jutus.unlocked && r.acc = .rc && addrSub addr != 0 then
        (s.refuseWrite (pathNo path) addr 2).emit (.wr path 2)
      else (s.afterRead r (addrIdx addr) (addrSub addr)).emit (.val path (valueBytes r.ty v))

/-- A read on a path. JTAG reads a word by DICTRD. -/
def State.readOut (path : Path) (addr : Nat) (s : State) : State :=
  match path with
  | .regPort => s.portReadOut addr
  | .jtag => s.jtagDict addr
  | _ => s.valueReadOut path addr

/-- RC_READ (R416). -/
def execRcRead (path : Path) (address : BitVec 24) (s : State) : Host.Outcome State Fault Refusal :=
  .next (s.run (fun st => st.atPort path (fun x => x.readOut path address.toNat)))

/-- COUNTER_BULK_READ (R417): on the register port, which refuses a DOM, the read goes through the transfer window (R363, log 61). -/
def execCounterBulkRead (path : Path) (s : State) : Host.Outcome State Fault Refusal :=
  .next (s.run (fun st => st.atPort path (fun x =>
    if path = .regPort then x.ownWrite .regPort 0x10FD01 (.num 0x5FFE02) else x.readOut path 0x5FFE02)))

/-- U64_READ_LATCH (R363). -/
def execU64ReadLatch (address : BitVec 24) (s : State) : Host.Outcome State Fault Refusal :=
  .next (s.run (fun st => st.ready (fun x => x.portReadOut address.toNat)))

end Sys2Proof.Machine
end

