-- ==== Sys2Proof/Machine/ExecFabric.lean ====
section
/-! DEFINITION. The meanings of the fabric messages and of the fabric's timers and credits (chapters 3, 5, 6, 7, 8, 11, 13). -/

namespace Sys2Proof.Machine

/-- A delta set that arrives, with the unit faults that the spindles' samples find while it is applied (R381). -/
def State.sampledSet (faults : List UnitFault) (m : HeldMsg) (s : State) : State :=
  let x := s.trySet m none
  if x.2 then forEach faults (fun f z => z.unitFault f) x.1 else x.1

/-- DELTA_SET (R135), with the unit faults that the spindles' samples find while the set is applied. -/
def execDeltaSet (h : RxHdr) (body : Bytes) (fault : List UnitFault) (mem : MemAns) (s : State) : Host.Outcome State Fault Refusal :=
  if fault.all s.hasUnit then
    .next (s.runMem mem (fun st => st.fromWay 0x10 h body (fun m x => x.sampledSet fault m)))
  else .fault .noSuchPort

/-- DELTA_ACK (R98, R135). -/
def execDeltaAck (h : RxHdr) (body : Bytes) (mem : MemAns) (s : State) : Host.Outcome State Fault Refusal :=
  .next (s.runMem mem (fun st => st.fromWay 0x11 h body (fun m x => x.onDeltaAck m)))

/-- MIRROR_PIECE (R84). -/
def execMirrorPiece (h : RxHdr) (body : Bytes) (mem : MemAns) (s : State) : Host.Outcome State Fault Refusal :=
  .next (s.runMem mem (fun st => st.fromWay 0x12 h body (fun m x => x.onMirrorPiece m)))

/-- MIRROR_ACK (R84). -/
def execMirrorAck (h : RxHdr) (body : Bytes) (mem : MemAns) (s : State) : Host.Outcome State Fault Refusal :=
  .next (s.runMem mem (fun st => st.fromWay 0x13 h body (fun m x => x.onMirrorAck m)))

/-- RE_REQUEST (R86). -/
def execReRequest (h : RxHdr) (body : Bytes) (mem : MemAns) (s : State) : Host.Outcome State Fault Refusal :=
  .next (s.runMem mem (fun st => st.fromWay 0x14 h body (fun m x => x.onReRequest m)))

/-- RE_REQUEST_ANSWER (R86, R162). -/
def execReRequestAnswer (h : RxHdr) (body : Bytes) (mem : MemAns) (s : State) : Host.Outcome State Fault Refusal :=
  .next (s.runMem mem (fun st => st.fromWay 0x15 h body (fun m x => x.onReAnswer m)))

/-- PLY_READ (R139). -/
def execPlyRead (h : RxHdr) (body : Bytes) (mem : MemAns) (s : State) : Host.Outcome State Fault Refusal :=
  .next (s.runMem mem (fun st => st.fromWay 0x16 h body (fun m x => x.onPlyRead m)))

/-- STRIPE_READ (R139). -/
def execStripeRead (h : RxHdr) (body : Bytes) (mem : MemAns) (s : State) : Host.Outcome State Fault Refusal :=
  .next (s.runMem mem (fun st => st.fromWay 0x17 h body (fun m x => x.onStripeRead m)))

/-- READ_ANSWER (R140). -/
def execReadAnswer (h : RxHdr) (body : Bytes) (mem : MemAns) (s : State) : Host.Outcome State Fault Refusal :=
  .next (s.runMem mem (fun st => st.fromWay 0x18 h body (fun m x => x.readAnswer m)))

/-- FILL_SET (R173). -/
def execFillSet (h : RxHdr) (body : Bytes) (mem : MemAns) (s : State) : Host.Outcome State Fault Refusal :=
  .next (s.runMem mem (fun st => st.fromWay 0x19 h body (fun m x => x.onFillSet m)))

/-- FILL_ACK (R173). -/
def execFillAck (h : RxHdr) (body : Bytes) (mem : MemAns) (s : State) : Host.Outcome State Fault Refusal :=
  .next (s.runMem mem (fun st => st.fromWay 0x1A h body (fun m x => x.onFillAck m)))

/-- ADOPTION_REPORT (R170). -/
def execAdoptionReport (h : RxHdr) (body : Bytes) (mem : MemAns) (s : State) : Host.Outcome State Fault Refusal :=
  .next (s.runMem mem (fun st => st.fromWay 0x1B h body (fun m x => x.onReport m)))

/-- REPORT_ACK (R170). -/
def execReportAck (h : RxHdr) (body : Bytes) (mem : MemAns) (s : State) : Host.Outcome State Fault Refusal :=
  .next (s.runMem mem (fun st => st.fromWay 0x1C h body (fun m x => x.onReportAck m)))

/-- WCOMP (R182, R305). -/
def execWcomp (h : RxHdr) (body : Bytes) (ht : BitVec 64) (mem : MemAns) (s : State) : Host.Outcome State Fault Refusal :=
  .next (s.runMem mem (fun st => (st.ready (fun x => x.sampleTime ht.toNat)).fromWay 0x02 h body (fun m x => x.onWcomp m)))

/-- RDATA (R305). -/
def execRdata (h : RxHdr) (body : Bytes) (mem : MemAns) (s : State) : Host.Outcome State Fault Refusal :=
  .next (s.runMem mem (fun st => st.fromWay 0x04 h body (fun m x => x.onRdata m)))

/-- FABRIC_ATOMIC (R291). -/
def execFabricAtomic (h : RxHdr) (body : Bytes) (mem : MemAns) (s : State) : Host.Outcome State Fault Refusal :=
  .next (s.runMem mem (fun st => st.fromWay 0x05 h body (fun m x => x.fabricAtomic m)))

/-- HELLO (R200). -/
def execHello (h : RxHdr) (body : Bytes) (mem : MemAns) (s : State) : Host.Outcome State Fault Refusal :=
  .next (s.runMem mem (fun st => st.fromWay 0x30 h body (fun m x => x.onHello m)))

/-- HEARTBEAT (R209). -/
def execHeartbeat (h : RxHdr) (body : Bytes) (mem : MemAns) (s : State) : Host.Outcome State Fault Refusal :=
  .next (s.runMem mem (fun st => st.fromWay 0x31 h body (fun m x => x.onHeartbeat m)))

/-- VOTE (R205). -/
def execVote (h : RxHdr) (body : Bytes) (mem : MemAns) (s : State) : Host.Outcome State Fault Refusal :=
  .next (s.runMem mem (fun st => st.fromWay 0x32 h body (fun m x => x.onVote m)))

/-- EPOCH_REQUEST (R207). -/
def execEpochRequest (h : RxHdr) (body : Bytes) (mem : MemAns) (s : State) : Host.Outcome State Fault Refusal :=
  .next (s.runMem mem (fun st => st.fromWay 0x33 h body (fun m x => x.onEpochRequest m)))

/-- EPOCH_RECORD (R207). -/
def execEpochRecord (h : RxHdr) (body : Bytes) (mem : MemAns) (s : State) : Host.Outcome State Fault Refusal :=
  .next (s.runMem mem (fun st => st.fromWay 0x34 h body (fun m x => x.onEpochRecord m)))

/-- A vacate body with the kind of its row: 0 a vacate, 1 its acknowledgement (Table 7.3). -/
def vacateKind (kind : Nat) (body : Bytes) : Bytes := if 3 < body.length then patch 3 (toLE 1 kind) body else body

/-- VACATE (R216). -/
def execVacate (h : RxHdr) (body : Bytes) (mem : MemAns) (s : State) : Host.Outcome State Fault Refusal :=
  .next (s.runMem mem (fun st => st.fromWay 0x35 h (vacateKind 0 body) (fun m x => x.onVacate m)))

/-- VACATE_ACK (R217). -/
def execVacateAck (h : RxHdr) (body : Bytes) (mem : MemAns) (s : State) : Host.Outcome State Fault Refusal :=
  .next (s.runMem mem (fun st => st.fromWay 0x35 h (vacateKind 1 body) (fun m x => x.onVacateAck m)))

/-- RECODED (R222). -/
def execRecoded (h : RxHdr) (body : Bytes) (mem : MemAns) (s : State) : Host.Outcome State Fault Refusal :=
  .next (s.runMem mem (fun st => st.fromWay 0x36 h body (fun m x => x.onRecoded m)))

/-- RECORD_NOTICE (R237). -/
def execRecordNotice (h : RxHdr) (body : Bytes) (mem : MemAns) (s : State) : Host.Outcome State Fault Refusal :=
  .next (s.runMem mem (fun st => st.fromWay 0x37 h body (fun m x => x.onNotice m)))

/-- OCPER_READ (R398). -/
def execOcperRead (h : RxHdr) (q : OcperReq) (mem : MemAns) (s : State) : Host.Outcome State Fault Refusal :=
  .next (s.runMem mem (fun st => st.fromWay 0x38 h (ocperBody 1 q) (fun m x => x.onOcper m)))

/-- OCPER_WRITE (R398). -/
def execOcperWrite (h : RxHdr) (q : OcperReq) (mem : MemAns) (s : State) : Host.Outcome State Fault Refusal :=
  .next (s.runMem mem (fun st => st.fromWay 0x38 h (ocperBody 2 q) (fun m x => x.onOcper m)))

/-- OCPER_BLOCK_READ (R399). -/
def execOcperBlockRead (h : RxHdr) (q : OcperReq) (mem : MemAns) (s : State) : Host.Outcome State Fault Refusal :=
  .next (s.runMem mem (fun st => st.fromWay 0x38 h (ocperBody 3 q) (fun m x => x.onOcper m)))

/-- OCPER_BLOCK_WRITE_SEGMENT (R399). -/
def execOcperBlockWriteSegment (h : RxHdr) (q : OcperReq) (mem : MemAns) (s : State) : Host.Outcome State Fault Refusal :=
  .next (s.runMem mem (fun st => st.fromWay 0x38 h (ocperBody 4 q) (fun m x => x.onOcper m)))

/-- OCPER_BLOCK_APPLY (R399). -/
def execOcperBlockApply (h : RxHdr) (q : OcperReq) (mem : MemAns) (s : State) : Host.Outcome State Fault Refusal :=
  .next (s.runMem mem (fun st => st.fromWay 0x38 h (ocperBody 5 q) (fun m x => x.onOcper m)))

/-- CREDIT_INIT (R355). -/
def execCreditInit (way : Bool) (hdr unit : List (BitVec 16)) (s : State) : Host.Outcome State Fault Refusal :=
  .next (s.run (fun st => st.creditInit way.toNat (hdr.map (fun x => x.toNat)) (unit.map (fun x => x.toNat))))

/-- CREDIT_RETURN (R312). -/
def execCreditReturn (way : Bool) (hdr : BitVec 3) (unit : BitVec 6) (mem : MemAns) (s : State) : Host.Outcome State Fault Refusal :=
  .next (s.runSettledMem mem (fun st => st.creditReturn way.toNat hdr.toNat unit.toNat))

/-- HEARTBEAT_PERIOD (R209): what was answered without data is asked again (log 27, log 38). -/
def execHeartbeatPeriod (ht : BitVec 64) (mem : MemAns) (s : State) : Host.Outcome State Fault Refusal :=
  .next (s.runSettledMem mem (fun st => st.ready (fun x => (x.sampleTime ht.toNat).heartPeriod.restartAlias)))

/-- SUSPICION (R209). -/
def execSuspicion (position : BitVec 4) (mem : MemAns) (s : State) : Host.Outcome State Fault Refusal :=
  .next (s.runMem mem (fun st => st.suspect position.toNat))

/-- CATCH_UP_TIMEOUT (R207). -/
def execCatchUpTimeout (mem : MemAns) (s : State) : Host.Outcome State Fault Refusal := .next (s.runMem mem (fun st => st.catchUpEnd))

/-- HELLO_INTERVAL (R197, R216). -/
def execHelloInterval (ht : BitVec 64) (mem : MemAns) (s : State) : Host.Outcome State Fault Refusal :=
  .next (s.runMem mem (fun st => st.ready (fun x => (x.sampleTime ht.toNat).helloTick)))

/-- ACK_TIMEOUT (R132). -/
def execAckTimeout (hank : BitVec 12) (role : BitVec 1) (group : BitVec 32) (position : BitVec 4) (mem : MemAns) (s : State) :
    Host.Outcome State Fault Refusal :=
  .next (s.runMem mem (fun st => st.ackTimeout hank.toNat role.toNat group.toNat position.toNat))

/-- REQUEST_TIMEOUT (R319). -/
def execRequestTimeout (engine : BitVec 3) (entry : BitVec 9) (mem : MemAns) (s : State) : Host.Outcome State Fault Refusal :=
  .next (s.runSettledMem mem (fun st => st.requestTimeout engine.toNat entry.toNat))

end Sys2Proof.Machine
end

