-- ==== Sys2Proof/Machine/ExecFrame.lean ====
section
/-! DEFINITION. The meanings of the commands of the step frame: ticks, roll-call, sites, carder passes, the audit, offload and table
sets (chapters 1, 3, 4, 5, 6, 8, 9). -/

namespace Sys2Proof.Machine

/-- TICK (R358). -/
def execTick (stepNo ht : BitVec 64) (mem : MemAns) (s : State) : Host.Outcome State Fault Refusal :=
  .next (s.runSettledMem mem (fun st => st.tick stepNo.toNat ht.toNat))

/-- ROLLCALL (R21, R360). -/
def execRollcall (epoch : BitVec 32) (withTick : Bool) (ht : BitVec 64) (mem : MemAns) (s : State) : Host.Outcome State Fault Refusal :=
  .next (s.runSettledMem mem (fun st => st.rollcall epoch.toNat withTick ht.toNat))

/-- EARLY_CLOSE (R71). -/
def execEarlyClose (site : BitVec 6) (mem : MemAns) (s : State) : Host.Outcome State Fault Refusal :=
  .next (s.runSettledMem mem (fun st => st.siteEarly site.toNat))

/-- SITE_CLOSE (R74, R75). -/
def execSiteClose (site : BitVec 6) (ht : BitVec 64) (mem : MemAns) (s : State) : Host.Outcome State Fault Refusal :=
  .next (s.runSettledMem mem (fun st => st.siteLate site.toNat ht.toNat))

/-- CARDER_GROUP_START (R95): the group is taken up when its waits are met. -/
def execCarderGroupStart (hank : BitVec 12) (group : BitVec 27) (mem : MemAns) (faults : List UnitFault) (s : State) :
    Host.Outcome State Fault Refusal :=
  if faults.all s.hasUnit then .next (s.runSettledMem mem (fun st => st.carderStart hank.toNat group.toNat mem faults))
  else .fault .noSuchPort

/-- VIEW_TRAILING_PASS (R116). -/
def execViewTrailingPass (view : BitVec 12) (mem : MemAns) (s : State) : Host.Outcome State Fault Refusal :=
  .next (s.runSettledMem mem (fun st => st.trailingPass view.toNat mem))

/-- INITIAL_ENCODE_START (R137). -/
def execInitialEncodeStart (hank : BitVec 12) (mem : MemAns) (s : State) : Host.Outcome State Fault Refusal :=
  .next (s.runSettledMem mem (fun st => st.encodeStart hank.toNat mem))

/-- ADOPTED_GROUP_COMPLETE (R166, R167). -/
def execAdoptedGroupComplete (position : BitVec 4) (hank : BitVec 12) (group : BitVec 27) (mem : MemAns) (faults : List UnitFault)
    (s : State) : Host.Outcome State Fault Refusal :=
  if faults.all s.hasUnit then
    .next (s.runSettledMem mem (fun st => st.completeStart position.toNat hank.toNat group.toNat faults))
  else .fault .noSuchPort

/-- AUDIT (R232). -/
def execAudit (ht : BitVec 64) (mem : MemAns) (s : State) : Host.Outcome State Fault Refusal :=
  .next (s.runSettledMem mem (fun st => st.ready (fun x => (x.sampleTime ht.toNat).audit)))

/-- SEAL_DELAY_EXPIRY (R210): what the passing of the limit frees goes on. -/
def execSealDelayExpiry (ht : BitVec 64) (mem : MemAns) (s : State) : Host.Outcome State Fault Refusal :=
  .next (s.runSettledMem mem (fun st => st.ready (fun x => x.sampleTime ht.toNat)))

/-- AUDIT_GRACE_EXPIRY (R233). -/
def execAuditGraceExpiry (ht : BitVec 64) (mem : MemAns) (s : State) : Host.Outcome State Fault Refusal :=
  .next (s.runSettledMem mem (fun st => st.ready (fun x => (x.sampleTime ht.toNat).auditGrace)))

/-- OFFLOAD_JOB_COMPLETE (R146). -/
def execOffloadJobComplete (hank slot : BitVec 12) (mem : MemAns) (s : State) : Host.Outcome State Fault Refusal :=
  .next (s.runSettledMem mem (fun st => st.jobComplete hank.toNat slot.toNat))

/-- TABLE_COPY_DONE (R255). -/
def execTableCopyDone (s : State) : Host.Outcome State Fault Refusal := .next (s.run (fun st => st.copyDone))

/-- TABLE_BANK_COPY_AGAIN_DONE (R429): carder passes and window beats that waited go on. -/
def execTableBankCopyAgainDone (channel : BitVec 4) (mem : MemAns) (s : State) : Host.Outcome State Fault Refusal :=
  if s.hasChannel channel.toNat then .next (s.runSettledMem mem (fun st => st.bankAgain channel.toNat)) else .fault .noSuchPort

end Sys2Proof.Machine
end

