-- ==== Sys2Proof/Machine/Jutus.lean ====
section
/-! DEFINITION. The serial monitor Jutus (R367, R401, R402, Table 13.12). The manual fixes what each answer holds and how it ends; how the
items stand on a line is the model's choice (log 49). -/

namespace Sys2Proof.Machine

/-! ## Text -/

/-- A hexadecimal digit. -/
def hexDigit (n : Nat) : Char := if n < 10 then Char.ofNat (48 + n) else Char.ofNat (87 + n)

/-- The low `k` hexadecimal digits of a number. -/
def hexDigits : Nat → Nat → List Char
  | 0, _ => []
  | k + 1, n => hexDigits k (n / 16) ++ [hexDigit (n % 16)]

/-- A number with 0x and `k` digits. -/
def hexText (k n : Nat) : String := "0x" ++ String.ofList (hexDigits k n)

/-- Bytes in order, two digits each. -/
def bytesText (b : Bytes) : String := String.ofList (b.flatMap (fun x => hexDigits 2 x.toNat))

/-- An entry as index.subindex. -/
def entryText (addr : Nat) : String := hexText 4 (addr / 256) ++ "." ++ hexText 2 (addr % 256)

/-- Named numbers on one line. -/
def fieldsText (l : List (String × Nat)) : String := String.intercalate " " (l.map (fun x => x.1 ++ "=" ++ toString x.2))

/-- The value of a scalar entry. -/
def scalarText (ty : EntryTy) (n : Nat) : String := hexText (2 * ty.bytes) n

/-- An event on a line. -/
def eventText (e : Event) : String :=
  fieldsText [("seq", e.seq), ("time", e.time), ("kind", e.kind), ("line", e.line), ("acked", flagOf e.acked),
    ("journaled", flagOf e.journaled)] ++ " entry=" ++ entryText e.entry ++ " detail=" ++ hexText 16 e.detail

/-- A frame-trace entry on a line. -/
def traceText (t : TraceEnt) : String :=
  fieldsText [("step", t.step), ("tick", t.tick), ("rollcall_out", t.rcOut), ("rollcall_in", t.rcIn), ("last_commit", t.lastCommit),
    ("sealed", t.sealedAt), ("threshold", t.threshold), ("epoch", t.epoch), ("late", flagOf t.late)]

/-- The command list (Table 13.12). -/
def jutusHelpText : List String :=
  ["h", "v", "r entry", "d entry [offset]", "w entry value", "l [n]", "a line seq", "s", "hs", "c index", "k", "t", "f [n]", "p", "m", "j",
   "fw", "u [response]", "x", "b baud"]

namespace State

/-- An answer: its lines, CR LF and the prompt. -/
def say (lines : List String) (s : State) : State :=
  s.emit (.serial (String.intercalate "\r\n" lines ++ "\r\nlz> "))

/-- Jutus runs commands while the firmware runs. -/
def jutusUp (s : State) : Bool := s.sys.hk == .running

/-- A command of the monitor, when the firmware runs. -/
def jutusRun (f : State → State) (s : State) : State := if s.jutusUp then f s else s

/-- A refused command (R401, R11). -/
def jutusRefuse (addr reason : Nat) (s : State) : State := (s.refuseWrite (pathNo .jutus) addr reason).say ["refused"]

/-- A command that needs Jutus unlocked. -/
def jutusUnlockedOnly (addr : Nat) (f : State → State) (s : State) : State :=
  if s.house.jutus.unlocked then f s else s.jutusRefuse addr 2

/-- The answer to a write. -/
def jutusWritten (x : State × WriteAns) : State :=
  match x.2 with
  | .done => x.1.say ["ok"]
  | .absent => x.1.say ["no such entry"]
  | _ => x.1.say ["refused"]

/-- A write of a scalar entry. -/
def jutusPut (addr v : Nat) (s : State) : State := jutusWritten (s.dictWrite .jutus addr (.num v))

/-- Command v. -/
def jutusVersionText (s : State) : List String :=
  ["block=" ++ hexText 8 Config.blockVersion,
   "firmware=" ++ hexText 8 s.house.fw.runningVersion ++ " slot=" ++ toString s.house.fw.inEffect, s.straps.build.name]

/-- Command r. -/
def jutusReadEntry (addr : Nat) (s : State) : State :=
  match s.readValue .jutus addr with
  | none => s.noEntry.say ["no such entry"]
  | some (r, v) =>
    if r.acc = .rc && addrSub addr != 0 && !s.house.jutus.unlocked then s.jutusRefuse addr 2
    else
      match v with
      | .blob _ => s.jutusRefuse addr 3
      | .num n => (s.afterRead r (addrIdx addr) (addrSub addr)).say [scalarText r.ty n]

/-- Command d: up to 256 bytes from an offset. -/
def jutusDumpEntry (addr offset : Nat) (s : State) : State :=
  match s.readValue .jutus addr with
  | none => s.noEntry.say ["no such entry"]
  | some (r, v) =>
    if r.acc = .rc && addrSub addr != 0 && !s.house.jutus.unlocked then s.jutusRefuse addr 2
    else
      match v with
      | .num _ => s.jutusRefuse addr 3
      | .blob b => (s.afterRead r (addrIdx addr) (addrSub addr)).say [bytesText ((b.drop offset).take 256)]

/-- Command l. -/
def jutusLogText (s : State) (n : Nat) : List String :=
  let es := s.house.events
  (es.drop (es.length - n)).map eventText

/-- Command s: the readings, the thermal levels and the voltage bounds of the calibration. -/
def jutusSensorText (s : State) : List String :=
  (List.range 16).map (fun i => "t" ++ toString i ++ "=" ++ hexText 8 (s.house.health.readings.getD i 0).toNat) ++
    ["warning=" ++ hexText 8 (s.reg 0x3062 0x01) ++ " critical=" ++ hexText 8 (s.reg 0x3062 0x02)] ++
    (List.range 8).map (fun i =>
      "v" ++ toString i ++ "=" ++ hexText 8 (s.house.health.readings.getD (16 + i) 0).toNat ++
        " low=" ++ hexText 8 (s.calWord (64 + 4 * i + 2)).toNat ++ " high=" ++ hexText 8 (s.calWord (64 + 4 * i + 3)).toNat)

/-- Command hs. That it prints the RC counters 0x5050.11 and 0x5050.12 without clearing them is the model's (DESIGN CHOICE, log 172). -/
def jutusHealthText (s : State) : List String :=
  let h := s.house.health
  [fieldsText [("score", h.score), ("T", natAt h.terms 0), ("V", natAt h.terms 1), ("M", natAt h.terms 2), ("F", natAt h.terms 3),
     ("R", natAt h.terms 4), ("L", natAt h.terms 5)],
   fieldsText [("warning", s.reg 0x3050 0x02), ("replace", s.reg 0x3050 0x03), ("levels", h.levels)],
   fieldsText [("warning_crossings", s.ctr 0x5050 0x11), ("replace_crossings", s.ctr 0x5050 0x12)]]

/-- Command c: the non-zero counters of an index, read and cleared in one action (R417). -/
def jutusCountersRun (idx : Nat) (s : State) : State :=
  if counterIndex idx then
    let l := (List.range (highSub s.straps.build idx)).filter (fun i => s.ctr idx (i + 1) != 0)
    let text := l.map (fun i => entryText (addrOf idx (i + 1)) ++ "=" ++ toString (s.ctr idx (i + 1)))
    (s.clearBlock idx).say text
  else s.noEntry.say ["no such entry"]

/-- Command k. -/
def jutusSkeinText (s : State) : List String :=
  [fieldsText [("epoch", s.mem.epoch), ("positions", s.mem.named), ("confirmed", s.mem.confirmed), ("suspected", s.mem.suspected),
    ("lintel", s.mem.lintel), ("fence", s.mem.fenceReason)]]

/-- Command t. The RC counter it prints stays (DESIGN CHOICE, log 172). -/
def jutusStepText (s : State) : List String :=
  [fieldsText [("step", s.fr.step), ("phase", s.phaseNo), ("sealed", s.fr.lastSealed), ("late", s.ctr 0x5000 0x04)]]

/-- Command f. -/
def jutusTraceText (s : State) (n : Nat) : List String :=
  let ts := s.house.trace
  (ts.drop (ts.length - n)).map traceText

/-- Command p. -/
def jutusPlanText (s : State) : List String :=
  [fieldsText [("state", s.adm.state), ("refusal", s.adm.code), ("first_step", s.readPlan 4)],
   "effect=" ++ hexText 16 (s.readPlan 2) ++ " pending=" ++ hexText 16 (s.readPlan 3)]

/-- A mask in effect and staged. -/
def maskText (s : State) (name : String) (idx subi : Nat) : String :=
  let staged : String := match s.stagedAt idx subi with
    | some (.num n) => hexText 16 n
    | _ => "none"
  name ++ "=" ++ hexText 16 (s.reg idx subi) ++ " staged=" ++ staged

/-- Command m. -/
def jutusMaskText (s : State) : List String :=
  (List.range s.C).map (fun c => s.maskText ("lanes" ++ toString c) 0x3010 (c + 1)) ++ [s.maskText "spindles" 0x3020 0x01] ++
    ["spindle_faults=" ++ String.intercalate "," ((List.range s.straps.build.spindles).map (fun u =>
      toString (s.windowCount (fun w => w.spindleFaults) u))),
     "lane_faults=" ++ bytesText s.laneFaultBytes]

/-- Command j. The RC counter it prints stays (DESIGN CHOICE, log 172). -/
def jutusJournalText (s : State) : List String :=
  let j := s.house.journal
  [fieldsText [("state", j.state), ("used", j.used), ("seq", j.seq), ("compactions", s.ctr 0x50D0 0x07)]]

/-- Command fw. -/
def jutusFirmwareText (s : State) : List String :=
  (List.range 2).map (fun i =>
    let x := s.fwSlot i
    fieldsText [("slot", i), ("state", x.state), ("version", x.version), ("security", x.security)]) ++
    [fieldsText [("minimum", s.house.fw.minimum)]]

/-! ## Unlocking (R402) -/

/-- The challenge: the whorl word pair at seed 0, step equal to the hall time, stream 0, indices 0 and 1. -/
def challengeBytes (s : State) : Bytes :=
  let w (x : Nat) : Bytes := toLE 8 (Sys2Proof.Machine.whorl s.whorl.tables 0 s.now 0 x).toNat
  w 0 ++ w 1

/-- Command u without argument. -/
def jutusChallengeRun (s : State) : State :=
  let c := s.challengeBytes
  (s.setJutus { s.house.jutus with challenge := some c }).say [bytesText c]

/-- The response that unlocks; none without a challenge or a device key. -/
def jutusExpected (s : State) : Option Bytes :=
  match s.house.jutus.challenge, s.house.jutus.deviceKey with
  | some c, some k => some ((hmac256 k (ascii "JUTUS" ++ c ++ toLE 2 s.node)).take 16)
  | _, _ => none

/-- Command u with a response. -/
def jutusUnlockRun (response : Bytes) (s : State) : State :=
  let j := s.house.jutus
  if j.lockedOut then s.jutusRefuse 0x311003 2
  else if s.jutusExpected = some response then
    (s.setJutus { j with unlocked := true, wrong := 0, challenge := none }).say ["ok"]
  else
    let s := s.bump 0x50D0 0x0D 1
    let s := if 3 ≤ j.wrong + 1 then s.setJutus { j with wrong := 0, lockedOut := true } else s.setJutus { j with wrong := j.wrong + 1 }
    s.say ["wrong"]

/-- Command x. -/
def jutusLockRun (s : State) : State := (s.setJutus { s.house.jutus with unlocked := false }).say ["ok"]

/-- 600 s without a command, or the lockout's 60 s, have passed. -/
def jutusExpire (s : State) : State := s.setJutus { s.house.jutus with unlocked := false }

/-- The lockout ends. -/
def jutusFree (s : State) : State := s.setJutus { s.house.jutus with lockedOut := false }

end State

end Sys2Proof.Machine
end

