-- ==== Sys2Proof/Machine/ExecHouse.lean ====
section
/-! DEFINITION. The meanings of the commands of reset, hall time, the housekeeper, the serial monitor and JTAG (chapters 12, 13, 15). -/

namespace Sys2Proof.Machine

/-- LZ_RESET (R335). -/
def execLzReset (level : Bool) (npSize : BitVec 3) (s : State) : Host.Outcome State Fault Refusal :=
  .next (s.run (fun st => st.lzReset level npSize.toNat))

/-- SRAM_FILL_DONE (R420). -/
def execSramFillDone (failed : List (BitVec 16 × BitVec 16)) (ht : BitVec 64) (mem : MemAns) (s : State) :
    Host.Outcome State Fault Refusal :=
  .next (s.runMem mem (fun st =>
    if st.sys.lzReset || st.sys.filled then st
    else (st.sampleTime ht.toNat).fillDone
      ((failed.map (fun r => (r.1.toNat, r.2.toNat))).filter (fun r => st.hasRow r.1 r.2))))

/-- JOURNAL_RESPONSE (R366). -/
def execJournalResponse (status : BitVec 2) (rdata : BitVec 512) (s : State) : Host.Outcome State Fault Refusal :=
  .next (s.run (fun st => st.awake (fun x => x.journalResponse status.toNat (toLE 64 rdata.toNat))))

/-- HALL_TIME_INVALID (R337). -/
def execHallTimeInvalid (clocks sample : BitVec 64) (mem : MemAns) (s : State) : Host.Outcome State Fault Refusal :=
  .next (s.runSettledMem mem (fun st => st.awake (fun x => x.hallInvalid clocks.toNat sample.toNat)))

/-- HALL_TIME_VALID (R337). -/
def execHallTimeValid (sample : BitVec 64) (mem : MemAns) (s : State) : Host.Outcome State Fault Refusal :=
  .next (s.runSettledMem mem (fun st => st.awake (fun x => x.hallValid sample.toNat)))

/-- WATCHDOG_EXPIRY (R377). -/
def execWatchdogExpiry (ht : BitVec 64) (mem : MemAns) (s : State) : Host.Outcome State Fault Refusal :=
  .next (s.runMem mem (fun st => st.guarded (fun x => (x.sampleTime ht.toNat).watchdog)))

/-- TRIAL_TIMER_EXPIRY (R395). -/
def execTrialTimerExpiry (mem : MemAns) (s : State) : Host.Outcome State Fault Refusal :=
  .next (s.runMem mem (fun st => st.awake (fun x => x.trialEnd)))

/-- HEALTH_PERIOD (R380). -/
def execHealthPeriod (raw : List (BitVec 32)) (ht : BitVec 64) (s : State) : Host.Outcome State Fault Refusal :=
  .next (s.run (fun st => st.ready (fun x => (x.sampleTime ht.toNat).healthTurn raw)))

/-- OCPER_BUFFER_TIMEOUT (R399). -/
def execOcperBufferTimeout (buffer : Bool) (s : State) : Host.Outcome State Fault Refusal :=
  .next (s.run (fun st => st.ocperTimeout buffer.toNat))

/-- EVENT_FRAME_SEND (R386). -/
def execEventFrameSend (subscriber : BitVec 2) (ht : BitVec 64) (s : State) : Host.Outcome State Fault Refusal :=
  .next (s.run (fun st => st.ready (fun x => (x.sampleTime ht.toNat).eventFrame subscriber.toNat)))

/-- FIRMWARE_VERIFY_DONE (R394). -/
def execFirmwareVerifyDone (s : State) : Host.Outcome State Fault Refusal := .next (s.run (fun st => st.awake (fun x => x.verifyDone)))

/-- JUTUS_UNLOCK_EXPIRY (R402). -/
def execJutusUnlockExpiry (s : State) : Host.Outcome State Fault Refusal := .next (s.run (fun st => st.jutusExpire))

/-- JUTUS_LOCKOUT_EXPIRY (R402). -/
def execJutusLockoutExpiry (s : State) : Host.Outcome State Fault Refusal := .next (s.run (fun st => st.jutusFree))

/-- Command h (R401). -/
def execJutusHelp (s : State) : Host.Outcome State Fault Refusal :=
  .next (s.run (fun st => st.jutusRun (fun x => x.say jutusHelpText)))

/-- Command v (R401). -/
def execJutusVersion (s : State) : Host.Outcome State Fault Refusal :=
  .next (s.run (fun st => st.jutusRun (fun x => x.say x.jutusVersionText)))

/-- Command r (R401). -/
def execJutusRead (address : BitVec 24) (s : State) : Host.Outcome State Fault Refusal :=
  .next (s.run (fun st => st.jutusRun (fun x => x.jutusReadEntry address.toNat)))

/-- Command d (R401). -/
def execJutusDump (address : BitVec 24) (offset : Option (BitVec 32)) (s : State) : Host.Outcome State Fault Refusal :=
  .next (s.run (fun st => st.jutusRun (fun x => x.jutusDumpEntry address.toNat ((offset.map (fun o => o.toNat)).getD 0))))

/-- Command w (R401). -/
def execJutusWrite (address : BitVec 24) (value : BitVec 64) (mem : MemAns) (s : State) : Host.Outcome State Fault Refusal :=
  .next (s.runSettledMem mem (fun st => st.jutusRun (fun x =>
    x.jutusUnlockedOnly address.toNat (fun y => y.jutusPut address.toNat value.toNat))))

/-- Command l (R401): 16 events where no number is given. -/
def execJutusLog (n : Option (BitVec 32)) (s : State) : Host.Outcome State Fault Refusal :=
  .next (s.run (fun st => st.jutusRun (fun x => x.say (x.jutusLogText ((n.map (fun k => k.toNat)).getD 16)))))

/-- Command a (R385, R401): acknowledges on a line, as a write of 0x3070.10 to .17 does. -/
def execJutusAck (line : BitVec 8) (seq : BitVec 64) (s : State) : Host.Outcome State Fault Refusal :=
  .next (s.run (fun st => st.jutusRun (fun x =>
    if line.toNat < 8 then
      x.jutusUnlockedOnly (0x307010 + line.toNat) (fun y => y.jutusPut (0x307010 + line.toNat) seq.toNat)
    else x.say ["no such line"])))

/-- Command s (R401). -/
def execJutusSensors (s : State) : Host.Outcome State Fault Refusal :=
  .next (s.run (fun st => st.jutusRun (fun x => x.say x.jutusSensorText)))

/-- Command hs (R401). -/
def execJutusHealth (s : State) : Host.Outcome State Fault Refusal :=
  .next (s.run (fun st => st.jutusRun (fun x => x.say x.jutusHealthText)))

/-- Command c (R401, R417). -/
def execJutusCounters (index : BitVec 16) (s : State) : Host.Outcome State Fault Refusal :=
  .next (s.run (fun st => st.jutusRun (fun x => x.jutusUnlockedOnly 0x5FFE02 (fun y => y.jutusCountersRun index.toNat))))

/-- Command k (R401). -/
def execJutusSkein (s : State) : Host.Outcome State Fault Refusal :=
  .next (s.run (fun st => st.jutusRun (fun x => x.say x.jutusSkeinText)))

/-- Command t (R401). -/
def execJutusStep (s : State) : Host.Outcome State Fault Refusal :=
  .next (s.run (fun st => st.jutusRun (fun x => x.say x.jutusStepText)))

/-- Command f (R401): 16 entries where no number is given (log 49). -/
def execJutusFrameTrace (n : Option (BitVec 32)) (s : State) : Host.Outcome State Fault Refusal :=
  .next (s.run (fun st => st.jutusRun (fun x => x.say (x.jutusTraceText ((n.map (fun k => k.toNat)).getD 16)))))

/-- Command p (R401). -/
def execJutusPlan (s : State) : Host.Outcome State Fault Refusal :=
  .next (s.run (fun st => st.jutusRun (fun x => x.say x.jutusPlanText)))

/-- Command m (R401). -/
def execJutusMasks (s : State) : Host.Outcome State Fault Refusal :=
  .next (s.run (fun st => st.jutusRun (fun x => x.say x.jutusMaskText)))

/-- Command j (R401). -/
def execJutusJournal (s : State) : Host.Outcome State Fault Refusal :=
  .next (s.run (fun st => st.jutusRun (fun x => x.say x.jutusJournalText)))

/-- Command fw (R401). -/
def execJutusFirmware (s : State) : Host.Outcome State Fault Refusal :=
  .next (s.run (fun st => st.jutusRun (fun x => x.say x.jutusFirmwareText)))

/-- Command u without argument (R402). -/
def execJutusChallenge (ht : BitVec 64) (s : State) : Host.Outcome State Fault Refusal :=
  .next (s.run (fun st => st.jutusRun (fun x => (x.sampleTime ht.toNat).jutusChallengeRun)))

/-- Command u with a response (R402). -/
def execJutusUnlock (response : Bytes) (s : State) : Host.Outcome State Fault Refusal :=
  .next (s.run (fun st => st.jutusRun (fun x => x.jutusUnlockRun response)))

/-- Command x (R402). -/
def execJutusLock (s : State) : Host.Outcome State Fault Refusal :=
  .next (s.run (fun st => st.jutusRun (fun x => x.jutusUnlockedOnly 0x311003 (fun y => y.jutusLockRun))))

/-- Command b (R401): a write of 0x3110.02. -/
def execJutusBaud (baud : BitVec 32) (s : State) : Host.Outcome State Fault Refusal :=
  .next (s.run (fun st => st.jutusRun (fun x => x.jutusUnlockedOnly 0x311002 (fun y => y.jutusPut 0x311002 baud.toNat))))

/-- JTAG IDCODE (R368). -/
def execJtagIdcode (s : State) : Host.Outcome State Fault Refusal := .next (s.run (fun st => st.jtagId))

/-- JTAG DICTRD (R368). -/
def execJtagDictrd (address : BitVec 24) (s : State) : Host.Outcome State Fault Refusal :=
  .next (s.run (fun st => st.jtagDict address.toNat))

/-- JTAG MBIST (R368). -/
def execJtagMbist (start : Bool) (s : State) : Host.Outcome State Fault Refusal := .next (s.run (fun st => st.jtagTest start))

/-- MBIST_DONE (R423). -/
def execMbistDone (fail : Bool) (bank : BitVec 16) (s : State) : Host.Outcome State Fault Refusal :=
  .next (s.run (fun st => st.mbistEnd fail bank.toNat))

/-- JTAG BYPASS, and every code without an instruction of its own (R368). -/
def execJtagBypass (code : BitVec 5) (s : State) : Host.Outcome State Fault Refusal :=
  .next (s.run (fun st => st.jtagBypassed code.toNat))

/-- JTAG test logic reset (R368). -/
def execJtagTestLogicReset (s : State) : Host.Outcome State Fault Refusal := .next (s.run (fun st => st.jtagTlr))

end Sys2Proof.Machine
end

