-- ==== Sys2Proof/Machine/ExecPorch.lean ====
section
/-! DEFINITION. The meanings of the commands of the porch, of the invalidation streams, of the memory and pantry ways and of the
scrubber (chapters 2, 9, 10, 12, 15). -/

namespace Sys2Proof.Machine

/-- A read request of one row: the row's op and view, in place of those of the request (log 59). -/
def readAs (view : BitVec 3) (q : HallReq) : HallReq := { q with op := 0, view := view }

/-- PORCH_PLAIN_READ (R47). The row also carries what no other row does: the op codes 3 to 7 and the views 5 to 7, which are refused
(Table 12.4, R44). -/
def execPorchPlainRead (q : HallReq) (mem : MemAns) (s : State) : Host.Outcome State Fault Refusal :=
  if s.hasChannel q.ch.toNat then
    .next (s.runSettledMem mem (fun st =>
      if 3 ≤ q.op.toNat then st.portOther q
      else if 5 ≤ q.view.toNat then st.portRead (readAs q.view q) mem
      else st.portRead (readAs 0 q) mem))
  else .fault .noSuchPort

/-- PORCH_TRANSPOSED_READ (R48). -/
def execPorchTransposedRead (q : HallReq) (mem : MemAns) (s : State) : Host.Outcome State Fault Refusal :=
  if s.hasChannel q.ch.toNat then .next (s.runSettledMem mem (fun st => st.portRead (readAs 1 q) mem)) else .fault .noSuchPort

/-- PORCH_MASKED_PLAIN_READ (R51). -/
def execPorchMaskedPlainRead (q : HallReq) (mem : MemAns) (s : State) : Host.Outcome State Fault Refusal :=
  if s.hasChannel q.ch.toNat then .next (s.runSettledMem mem (fun st => st.portRead (readAs 2 q) mem)) else .fault .noSuchPort

/-- PORCH_MASKED_TRANSPOSED_READ (R51). -/
def execPorchMaskedTransposedRead (q : HallReq) (mem : MemAns) (s : State) : Host.Outcome State Fault Refusal :=
  if s.hasChannel q.ch.toNat then .next (s.runSettledMem mem (fun st => st.portRead (readAs 3 q) mem)) else .fault .noSuchPort

/-- WHORL_WINDOW_READ (R263). -/
def execWhorlWindowRead (q : HallReq) (waited : BitVec 32) (mem : MemAns) (s : State) : Host.Outcome State Fault Refusal :=
  if s.hasChannel q.ch.toNat then .next (s.runSettledMem mem (fun st => st.portWindow (readAs 4 q) waited.toNat))
  else .fault .noSuchPort

/-- PORCH_WRITE (R44). -/
def execPorchWrite (q : HallReq) (beats : List WBeat) (mem : MemAns) (s : State) : Host.Outcome State Fault Refusal :=
  if s.hasChannel q.ch.toNat then .next (s.runSettledMem mem (fun st => (st.portWrite { q with op := 1 } beats).landingPass))
  else .fault .noSuchPort

/-- PORCH_ATOMIC (R340). -/
def execPorchAtomic (q : HallReq) (beat : WBeat) (mem : MemAns) (s : State) : Host.Outcome State Fault Refusal :=
  if s.hasChannel q.ch.toNat then .next (s.runSettledMem mem (fun st => st.portAtomic { q with op := 2 } beat)) else .fault .noSuchPort

/-- INVALIDATION_ACK (R346). -/
def execInvalidationAck (channel : BitVec 4) (die : BitVec 2) (mem : MemAns) (s : State) : Host.Outcome State Fault Refusal :=
  if s.hasChannel channel.toNat then .next (s.runSettledMem mem (fun st => st.awake (fun x => x.invAck channel.toNat die.toNat)))
  else .fault .noSuchPort

/-- INVALIDATION_OVERDUE (R296). -/
def execInvalidationOverdue (channel : BitVec 4) (die : BitVec 2) (s : State) : Host.Outcome State Fault Refusal :=
  if s.hasChannel channel.toNat then .next (s.run (fun st => st.invOverdue channel.toNat die.toNat)) else .fault .noSuchPort

/-- MEMORY_RESPONSE (R349). -/
def execMemoryResponse (channel way : BitVec 4) (tag : BitVec 10) (last : Bool) (status : BitVec 2) (data : BitVec 1024) (mem : MemAns)
    (s : State) : Host.Outcome State Fault Refusal :=
  if s.hasChannel channel.toNat then
    .next (s.runSettledMem mem (fun st => st.awake (fun x =>
      x.memResponse channel.toNat way.toNat tag.toNat last status.toNat (toLE 128 data.toNat))))
  else .fault .noSuchPort

/-- CONTROLLER_ERROR_REPORT (R350). -/
def execControllerErrorReport (channel : BitVec 4) (addr : BitVec 38) (kind : BitVec 2) (mem : MemAns) (s : State) :
    Host.Outcome State Fault Refusal :=
  if s.hasChannel channel.toNat then
    .next (s.runSettledMem mem (fun st => st.awake (fun x => x.errorReport channel.toNat addr.toNat kind.toNat)))
  else .fault .noSuchPort

/-- PANTRY_RESPONSE (R352). -/
def execPantryResponse (way : BitVec 2) (tag : BitVec 12) (status : BitVec 2) (data : BitVec 512) (mem : MemAns) (s : State) :
    Host.Outcome State Fault Refusal :=
  .next (s.runSettledMem mem (fun st => st.awake (fun x => x.pantryResponse way.toNat tag.toNat status.toNat (toLE 64 data.toNat))))

/-- PANTRY_REQUEST_OVERDUE (R352). -/
def execPantryRequestOverdue (way : BitVec 2) (tag : BitVec 12) (s : State) : Host.Outcome State Fault Refusal :=
  .next (s.run (fun st => st.pantryOverdue way.toNat tag.toNat))

/-- STRIPE_REPAIR_START (R435). -/
def execStripeRepairStart (mem : MemAns) (s : State) : Host.Outcome State Fault Refusal := .next (s.runSettledMem mem (fun st => st.repairStart))

/-- INTERNAL_PATROL_READ (R430). -/
def execInternalPatrolRead (found : List (BitVec 16 × RowRead)) (mem : MemAns) (s : State) : Host.Outcome State Fault Refusal :=
  .next (s.runSettledMem mem (fun st => st.ready (fun x => x.internalPatrol (found.map (fun f => (f.1.toNat, f.2))))))

/-- HEARTH_PATROL_READ (R431). -/
def execHearthPatrolRead (channel : BitVec 4) (mem : MemAns) (s : State) : Host.Outcome State Fault Refusal :=
  if s.hasChannel channel.toNat then .next (s.runSettledMem mem (fun st => st.ready (fun x => x.hearthPatrol channel.toNat mem)))
  else .fault .noSuchPort

/-- MERGE_BUFFER_IDLE (R427). -/
def execMergeBufferIdle (bank : BitVec 16) (s : State) : Host.Outcome State Fault Refusal :=
  if s.hasRow bank.toNat 0 then .next (s.run (fun st => st.mergeIdle bank.toNat)) else .fault .noSuchPort

end Sys2Proof.Machine
end

