-- ==== Sys2Proof/Machine/Dispatch.lean ====
section
/-! DEFINITION. One arm per command, each one direct call of its meaning. -/

namespace Sys2Proof.Machine

/-- The effect of a command on everything but the queue. -/
def exec (i : Instr) (s : State) : Host.Outcome State Fault Refusal :=
  match i with
  | .lzReset level npSize => Sys2Proof.Machine.execLzReset level npSize s
  | .sramFillDone failed ht mem => Sys2Proof.Machine.execSramFillDone failed ht mem s
  | .journalResponse status rdata => Sys2Proof.Machine.execJournalResponse status rdata s
  | .creditInit way hdr unit => Sys2Proof.Machine.execCreditInit way hdr unit s
  | .hallTimeInvalid clocks sample mem => Sys2Proof.Machine.execHallTimeInvalid clocks sample mem s
  | .tick stepNo ht mem => Sys2Proof.Machine.execTick stepNo ht mem s
  | .rollcall epoch withTick ht mem => Sys2Proof.Machine.execRollcall epoch withTick ht mem s
  | .earlyClose site mem => Sys2Proof.Machine.execEarlyClose site mem s
  | .siteClose site ht mem => Sys2Proof.Machine.execSiteClose site ht mem s
  | .carderGroupStart hank group mem faults => Sys2Proof.Machine.execCarderGroupStart hank group mem faults s
  | .viewTrailingPass view mem => Sys2Proof.Machine.execViewTrailingPass view mem s
  | .initialEncodeStart hank mem => Sys2Proof.Machine.execInitialEncodeStart hank mem s
  | .adoptedGroupComplete position hank group mem faults => Sys2Proof.Machine.execAdoptedGroupComplete position hank group mem faults s
  | .audit ht mem => Sys2Proof.Machine.execAudit ht mem s
  | .sealDelayExpiry ht mem => Sys2Proof.Machine.execSealDelayExpiry ht mem s
  | .auditGraceExpiry ht mem => Sys2Proof.Machine.execAuditGraceExpiry ht mem s
  | .porchPlainRead q mem => Sys2Proof.Machine.execPorchPlainRead q mem s
  | .porchTransposedRead q mem => Sys2Proof.Machine.execPorchTransposedRead q mem s
  | .porchMaskedPlainRead q mem => Sys2Proof.Machine.execPorchMaskedPlainRead q mem s
  | .porchMaskedTransposedRead q mem => Sys2Proof.Machine.execPorchMaskedTransposedRead q mem s
  | .whorlWindowRead q waited mem => Sys2Proof.Machine.execWhorlWindowRead q waited mem s
  | .porchWrite q beats mem => Sys2Proof.Machine.execPorchWrite q beats mem s
  | .porchAtomic q beat mem => Sys2Proof.Machine.execPorchAtomic q beat mem s
  | .invalidationAck channel die mem => Sys2Proof.Machine.execInvalidationAck channel die mem s
  | .invalidationOverdue channel die => Sys2Proof.Machine.execInvalidationOverdue channel die s
  | .memoryResponse channel way tag last status data mem => Sys2Proof.Machine.execMemoryResponse channel way tag last status data mem s
  | .controllerErrorReport channel addr kind mem => Sys2Proof.Machine.execControllerErrorReport channel addr kind mem s
  | .pantryResponse way tag status data mem => Sys2Proof.Machine.execPantryResponse way tag status data mem s
  | .pantryRequestOverdue way tag => Sys2Proof.Machine.execPantryRequestOverdue way tag s
  | .stripeRepairStart mem => Sys2Proof.Machine.execStripeRepairStart mem s
  | .internalPatrolRead found mem => Sys2Proof.Machine.execInternalPatrolRead found mem s
  | .hearthPatrolRead channel mem => Sys2Proof.Machine.execHearthPatrolRead channel mem s
  | .mergeBufferIdle bank => Sys2Proof.Machine.execMergeBufferIdle bank s
  | .deltaSet h body fault mem => Sys2Proof.Machine.execDeltaSet h body fault mem s
  | .deltaAck h body mem => Sys2Proof.Machine.execDeltaAck h body mem s
  | .mirrorPiece h body mem => Sys2Proof.Machine.execMirrorPiece h body mem s
  | .mirrorAck h body mem => Sys2Proof.Machine.execMirrorAck h body mem s
  | .reRequest h body mem => Sys2Proof.Machine.execReRequest h body mem s
  | .reRequestAnswer h body mem => Sys2Proof.Machine.execReRequestAnswer h body mem s
  | .plyRead h body mem => Sys2Proof.Machine.execPlyRead h body mem s
  | .stripeRead h body mem => Sys2Proof.Machine.execStripeRead h body mem s
  | .readAnswer h body mem => Sys2Proof.Machine.execReadAnswer h body mem s
  | .fillSet h body mem => Sys2Proof.Machine.execFillSet h body mem s
  | .fillAck h body mem => Sys2Proof.Machine.execFillAck h body mem s
  | .adoptionReport h body mem => Sys2Proof.Machine.execAdoptionReport h body mem s
  | .reportAck h body mem => Sys2Proof.Machine.execReportAck h body mem s
  | .wcomp h body ht mem => Sys2Proof.Machine.execWcomp h body ht mem s
  | .rdata h body mem => Sys2Proof.Machine.execRdata h body mem s
  | .fabricAtomic h body mem => Sys2Proof.Machine.execFabricAtomic h body mem s
  | .hello h body mem => Sys2Proof.Machine.execHello h body mem s
  | .heartbeat h body mem => Sys2Proof.Machine.execHeartbeat h body mem s
  | .vote h body mem => Sys2Proof.Machine.execVote h body mem s
  | .epochRequest h body mem => Sys2Proof.Machine.execEpochRequest h body mem s
  | .epochRecord h body mem => Sys2Proof.Machine.execEpochRecord h body mem s
  | .vacate h body mem => Sys2Proof.Machine.execVacate h body mem s
  | .vacateAck h body mem => Sys2Proof.Machine.execVacateAck h body mem s
  | .recoded h body mem => Sys2Proof.Machine.execRecoded h body mem s
  | .recordNotice h body mem => Sys2Proof.Machine.execRecordNotice h body mem s
  | .ocperRead h q mem => Sys2Proof.Machine.execOcperRead h q mem s
  | .ocperWrite h q mem => Sys2Proof.Machine.execOcperWrite h q mem s
  | .ocperBlockRead h q mem => Sys2Proof.Machine.execOcperBlockRead h q mem s
  | .ocperBlockWriteSegment h q mem => Sys2Proof.Machine.execOcperBlockWriteSegment h q mem s
  | .ocperBlockApply h q mem => Sys2Proof.Machine.execOcperBlockApply h q mem s
  | .creditReturn way hdr unit mem => Sys2Proof.Machine.execCreditReturn way hdr unit mem s
  | .heartbeatPeriod ht mem => Sys2Proof.Machine.execHeartbeatPeriod ht mem s
  | .suspicion position mem => Sys2Proof.Machine.execSuspicion position mem s
  | .catchUpTimeout mem => Sys2Proof.Machine.execCatchUpTimeout mem s
  | .helloInterval ht mem => Sys2Proof.Machine.execHelloInterval ht mem s
  | .ackTimeout hank role group position mem => Sys2Proof.Machine.execAckTimeout hank role group position mem s
  | .requestTimeout engine entry mem => Sys2Proof.Machine.execRequestTimeout engine entry mem s
  | .watchdogExpiry ht mem => Sys2Proof.Machine.execWatchdogExpiry ht mem s
  | .trialTimerExpiry mem => Sys2Proof.Machine.execTrialTimerExpiry mem s
  | .healthPeriod raw ht => Sys2Proof.Machine.execHealthPeriod raw ht s
  | .ocperBufferTimeout buffer => Sys2Proof.Machine.execOcperBufferTimeout buffer s
  | .jutusUnlockExpiry => Sys2Proof.Machine.execJutusUnlockExpiry s
  | .jutusLockoutExpiry => Sys2Proof.Machine.execJutusLockoutExpiry s
  | .eventFrameSend subscriber ht => Sys2Proof.Machine.execEventFrameSend subscriber ht s
  | .tableCopyDone => Sys2Proof.Machine.execTableCopyDone s
  | .offloadJobComplete hank slot mem => Sys2Proof.Machine.execOffloadJobComplete hank slot mem s
  | .planLoad path plan => Sys2Proof.Machine.execPlanLoad path plan s
  | .admissionComplete mem => Sys2Proof.Machine.execAdmissionComplete mem s
  | .epochProposal path body mem => Sys2Proof.Machine.execEpochProposal path body mem s
  | .exclusionNotice path body mem => Sys2Proof.Machine.execExclusionNotice path body mem s
  | .rollcallRequest path step => Sys2Proof.Machine.execRollcallRequest path step s
  | .coreClockWrite path mhz => Sys2Proof.Machine.execCoreClockWrite path mhz s
  | .tableSetWrite path body => Sys2Proof.Machine.execTableSetWrite path body s
  | .restoreRequest path body mem => Sys2Proof.Machine.execRestoreRequest path body mem s
  | .contextRestore path body mem => Sys2Proof.Machine.execContextRestore path body mem s
  | .hashProbe path body mem => Sys2Proof.Machine.execHashProbe path body mem s
  | .maskStripeRepair path body mem => Sys2Proof.Machine.execMaskStripeRepair path body mem s
  | .lostMaskCopy path body mem => Sys2Proof.Machine.execLostMaskCopy path body mem s
  | .pageDiscard path body mem => Sys2Proof.Machine.execPageDiscard path body mem s
  | .replicaCopyStart path node mem => Sys2Proof.Machine.execReplicaCopyStart path node mem s
  | .firmwareLoad path image => Sys2Proof.Machine.execFirmwareLoad path image s
  | .firmwareVerifyDone => Sys2Proof.Machine.execFirmwareVerifyDone s
  | .securityMinimumWrite path value => Sys2Proof.Machine.execSecurityMinimumWrite path value s
  | .journalFormat path mib => Sys2Proof.Machine.execJournalFormat path mib s
  | .eventAcknowledge path line seq => Sys2Proof.Machine.execEventAcknowledge path line seq s
  | .transferTarget target => Sys2Proof.Machine.execTransferTarget target s
  | .transferDataRead => Sys2Proof.Machine.execTransferDataRead s
  | .transferDataWrite word => Sys2Proof.Machine.execTransferDataWrite word s
  | .transferApply length mem => Sys2Proof.Machine.execTransferApply length mem s
  | .rcRead path address => Sys2Proof.Machine.execRcRead path address s
  | .counterBulkRead path => Sys2Proof.Machine.execCounterBulkRead path s
  | .u64ReadLatch address => Sys2Proof.Machine.execU64ReadLatch address s
  | .dictionaryWrite path address value mem => Sys2Proof.Machine.execDictionaryWrite path address value mem s
  | .jutusHelp => Sys2Proof.Machine.execJutusHelp s
  | .jutusVersion => Sys2Proof.Machine.execJutusVersion s
  | .jutusRead address => Sys2Proof.Machine.execJutusRead address s
  | .jutusDump address offset => Sys2Proof.Machine.execJutusDump address offset s
  | .jutusWrite address value mem => Sys2Proof.Machine.execJutusWrite address value mem s
  | .jutusLog n => Sys2Proof.Machine.execJutusLog n s
  | .jutusAck line seq => Sys2Proof.Machine.execJutusAck line seq s
  | .jutusSensors => Sys2Proof.Machine.execJutusSensors s
  | .jutusHealth => Sys2Proof.Machine.execJutusHealth s
  | .jutusCounters index => Sys2Proof.Machine.execJutusCounters index s
  | .jutusSkein => Sys2Proof.Machine.execJutusSkein s
  | .jutusStep => Sys2Proof.Machine.execJutusStep s
  | .jutusFrameTrace n => Sys2Proof.Machine.execJutusFrameTrace n s
  | .jutusPlan => Sys2Proof.Machine.execJutusPlan s
  | .jutusMasks => Sys2Proof.Machine.execJutusMasks s
  | .jutusJournal => Sys2Proof.Machine.execJutusJournal s
  | .jutusFirmware => Sys2Proof.Machine.execJutusFirmware s
  | .jutusChallenge ht => Sys2Proof.Machine.execJutusChallenge ht s
  | .jutusUnlock response => Sys2Proof.Machine.execJutusUnlock response s
  | .jutusLock => Sys2Proof.Machine.execJutusLock s
  | .jutusBaud baud => Sys2Proof.Machine.execJutusBaud baud s
  | .jtagIdcode => Sys2Proof.Machine.execJtagIdcode s
  | .jtagDictrd address => Sys2Proof.Machine.execJtagDictrd address s
  | .jtagMbist start => Sys2Proof.Machine.execJtagMbist start s
  | .mbistDone fail bank => Sys2Proof.Machine.execMbistDone fail bank s
  | .jtagBypass code => Sys2Proof.Machine.execJtagBypass code s
  | .jtagTestLogicReset => Sys2Proof.Machine.execJtagTestLogicReset s
  | .hallTimeValid sample mem => Sys2Proof.Machine.execHallTimeValid sample mem s
  | .tableBankCopyAgainDone channel mem => Sys2Proof.Machine.execTableBankCopyAgainDone channel mem s

end Sys2Proof.Machine
end

