-- ==== Sys2Proof/Safety.lean ====
section
/-! DEFINITION. What counts as a safe run of the block, and what holds of its memories and counters in every run. -/

namespace Sys2Proof

namespace Machine

/-- The three memories are in canonical form: hearth (R34), pantry (R273), journal window (R365). -/
abbrev State.MemWf (s : State) : Prop := Memory.wf s.hearth ∧ Memory.wf s.pantry ∧ Memory.wf s.nv

/-- The counters are a canonical map, and none has passed the limit at which it holds (R416). -/
def State.CountersOk (s : State) : Prop := natMapWf s.counters ∧ ∀ c ∈ s.counters, c.2 ≤ Config.u64Max

/-- A message that a command brings from a way: its type, header and body, a vacate body with the kind of its row (Table 7.3) and an Ocper
body with the operation of its row (Table 13.10). -/
def messageOf (c : Instr) : Option (Nat × RxHdr × Bytes) :=
  match c with
  | .wcomp h body _ _ => some (0x02, h, body)
  | .rdata h body _ => some (0x04, h, body)
  | .fabricAtomic h body _ => some (0x05, h, body)
  | .deltaSet h body _ _ => some (0x10, h, body)
  | .deltaAck h body _ => some (0x11, h, body)
  | .mirrorPiece h body _ => some (0x12, h, body)
  | .mirrorAck h body _ => some (0x13, h, body)
  | .reRequest h body _ => some (0x14, h, body)
  | .reRequestAnswer h body _ => some (0x15, h, body)
  | .plyRead h body _ => some (0x16, h, body)
  | .stripeRead h body _ => some (0x17, h, body)
  | .readAnswer h body _ => some (0x18, h, body)
  | .fillSet h body _ => some (0x19, h, body)
  | .fillAck h body _ => some (0x1A, h, body)
  | .adoptionReport h body _ => some (0x1B, h, body)
  | .reportAck h body _ => some (0x1C, h, body)
  | .hello h body _ => some (0x30, h, body)
  | .heartbeat h body _ => some (0x31, h, body)
  | .vote h body _ => some (0x32, h, body)
  | .epochRequest h body _ => some (0x33, h, body)
  | .epochRecord h body _ => some (0x34, h, body)
  | .vacate h body _ => some (0x35, h, vacateKind 0 body)
  | .vacateAck h body _ => some (0x35, h, vacateKind 1 body)
  | .recoded h body _ => some (0x36, h, body)
  | .recordNotice h body _ => some (0x37, h, body)
  | .ocperRead h q _ => some (0x38, h, ocperBody 1 q)
  | .ocperWrite h q _ => some (0x38, h, ocperBody 2 q)
  | .ocperBlockRead h q _ => some (0x38, h, ocperBody 3 q)
  | .ocperBlockWriteSegment h q _ => some (0x38, h, ocperBody 4 q)
  | .ocperBlockApply h q _ => some (0x38, h, ocperBody 5 q)
  | _ => none

/-- What memory, pantry and internal SRAM answer to the accesses of a command that brings a message or writes the dictionary (log 158); the
other writes of the dictionary access none. -/
def memOf (c : Instr) : MemAns :=
  match c with
  | .wcomp _ _ _ mem => mem
  | .rdata _ _ mem => mem
  | .fabricAtomic _ _ mem => mem
  | .deltaSet _ _ _ mem => mem
  | .deltaAck _ _ mem => mem
  | .mirrorPiece _ _ mem => mem
  | .mirrorAck _ _ mem => mem
  | .reRequest _ _ mem => mem
  | .reRequestAnswer _ _ mem => mem
  | .plyRead _ _ mem => mem
  | .stripeRead _ _ mem => mem
  | .readAnswer _ _ mem => mem
  | .fillSet _ _ mem => mem
  | .fillAck _ _ mem => mem
  | .adoptionReport _ _ mem => mem
  | .reportAck _ _ mem => mem
  | .hello _ _ mem => mem
  | .heartbeat _ _ mem => mem
  | .vote _ _ mem => mem
  | .epochRequest _ _ mem => mem
  | .epochRecord _ _ mem => mem
  | .vacate _ _ mem => mem
  | .vacateAck _ _ mem => mem
  | .recoded _ _ mem => mem
  | .recordNotice _ _ mem => mem
  | .ocperRead _ _ mem => mem
  | .ocperWrite _ _ mem => mem
  | .ocperBlockRead _ _ mem => mem
  | .ocperBlockWriteSegment _ _ mem => mem
  | .ocperBlockApply _ _ mem => mem
  | .epochProposal _ _ mem => mem
  | .exclusionNotice _ _ mem => mem
  | .restoreRequest _ _ mem => mem
  | .contextRestore _ _ mem => mem
  | .hashProbe _ _ mem => mem
  | .maskStripeRepair _ _ mem => mem
  | .lostMaskCopy _ _ mem => mem
  | .pageDiscard _ _ mem => mem
  | .replicaCopyStart _ _ mem => mem
  | .transferApply _ mem => mem
  | .dictionaryWrite _ _ _ mem => mem
  | _ => .clean

/-- The state in which a command's effect begins: the output ports are quiet, the answers to its accesses stand ready, and what its reads of
internal SRAM find has acted (R426). -/
def State.begun (mem : MemAns) (s : State) : State := (State.begin mem s).sramReads

/-- The state in which a command's message arrives: the ports are quiet, and a WCOMP comes with a sample of the hall time. -/
def arrival (c : Instr) (s : State) : State :=
  let s := State.begun (memOf c) s
  match c with
  | .wcomp _ _ ht _ => State.ready (State.sampleTime ht.toNat) s
  | _ => s

/-- A command's message is taken in: `lz_reset` is low, no context that it needs is taken by a message on its way out (R326), and it fails
no order of Table 11.6 (R313). A condition on the state and the command alone. -/
def Admits (c : Instr) (s : State) : Prop :=
  match messageOf c with
  | none => False
  | some (typ, h, body) =>
    let s1 := arrival c s
    s1.sys.lzReset = false ∧ s1.rxWaits typ h body = false ∧ (s1.arrive typ h body).failedCheck typ h body = 0

/-- The message of a command. -/
def messageIn (c : Instr) : HeldMsg :=
  match messageOf c with
  | none => { typ := 0, way := 0, job := 0, epoch := 0, step := 0, source := 0, request := 0, body := [], isLocal := false }
  | some (typ, h, body) => State.heldOf typ h body

/-- The state in which the own effect of a command's message begins, once it is taken in: its context has its counter, it is counted, and
its sender is heard (R209). -/
def takenIn (c : Instr) (s : State) : State :=
  match messageOf c with
  | none => s
  | some (typ, h, body) => State.onAccepted (State.heldOf typ h body) (((arrival c s).arrive typ h body).takeIn typ h)

/-- The dictionary write that a command makes: its path, address and value (R408). -/
def writeNamed (c : Instr) : Option (Path × Nat × Val) :=
  match c with
  | .planLoad p b => some (p, 0x122001, .blob b)
  | .epochProposal p b _ => some (p, 0x201001, .blob b)
  | .exclusionNotice p b _ => some (p, 0x221001, .blob b)
  | .rollcallRequest p n => some (p, 0x123001, .num n.toNat)
  | .coreClockWrite p n => some (p, 0x120008, .num n.toNat)
  | .tableSetWrite p b => some (p, 0x240001, .blob b)
  | .restoreRequest p b _ => some (p, 0x264001, .blob b)
  | .contextRestore p b _ => some (p, 0x265002, .blob b)
  | .hashProbe p b _ => some (p, 0x263001, .blob b)
  | .maskStripeRepair p b _ => some (p, 0x304002, .blob b)
  | .lostMaskCopy p b _ => some (p, 0x204007, .blob b)
  | .pageDiscard p b _ => some (p, 0x252001, .blob b)
  | .replicaCopyStart p n _ => some (p, 0x207001, .num n.toNat)
  | .firmwareLoad p b => some (p, 0x310001, .blob b)
  | .securityMinimumWrite p n => some (p, 0x310006, .num n.toNat)
  | .journalFormat p n => some (p, 0x320006, .num n.toNat)
  | .eventAcknowledge p line seq => some (p, 0x307010 + line.toNat, .num seq.toNat)
  | .transferTarget n => some (.regPort, 0x10FD01, .num n.toNat)
  | .transferDataWrite n => some (.regPort, 0x10FD03, .num n.toNat)
  | .dictionaryWrite p a v _ => some (p, a.toNat, v)
  | _ => none

/-- The same with the value that the path carries: on the register port a word, with 0x10FE.02 above it for a U64 (R363). -/
def writeOf (c : Instr) (s : State) : Option (Path × Nat × Val) :=
  (writeNamed c).map (fun x => (x.1, x.2.1, s.carriedValue x.1 x.2.1 x.2.2))

/-- The write, with the value that its path carries (R363), passes the five checks of Table 14.3, and the block serves it now (R15, R335,
R371, R378). -/
def writable (path : Path) (addr : Nat) (named : Val) (s : State) : Bool :=
  let v := s.carriedValue path addr named
  (path != .regPort || s.sys.ready) && s.serves path addr (some v) && (match entry? s.straps.build (addrIdx addr) (addrSub addr) with
    | some r => (s.writeFault path r (addrIdx addr) (addrSub addr) v).isNone
    | none => false)

/-- The build has the port that a command comes in on: the channel, the unit or the row of SRAM that it names (R33, R93, R148, R424). -/
def portExists (c : Instr) (s : State) : Bool :=
  match c with
  | .carderGroupStart _ _ _ faults => faults.all s.hasUnit
  | .adoptedGroupComplete _ _ _ _ faults => faults.all s.hasUnit
  | .deltaSet _ _ faults _ => faults.all s.hasUnit
  | .porchPlainRead q _ => s.hasChannel q.ch.toNat
  | .porchTransposedRead q _ => s.hasChannel q.ch.toNat
  | .porchMaskedPlainRead q _ => s.hasChannel q.ch.toNat
  | .porchMaskedTransposedRead q _ => s.hasChannel q.ch.toNat
  | .whorlWindowRead q _ _ => s.hasChannel q.ch.toNat
  | .porchWrite q _ _ => s.hasChannel q.ch.toNat
  | .porchAtomic q _ _ => s.hasChannel q.ch.toNat
  | .invalidationAck ch _ _ => s.hasChannel ch.toNat
  | .invalidationOverdue ch _ => s.hasChannel ch.toNat
  | .memoryResponse ch _ _ _ _ _ _ => s.hasChannel ch.toNat
  | .controllerErrorReport ch _ _ _ => s.hasChannel ch.toNat
  | .hearthPatrolRead ch _ => s.hasChannel ch.toNat
  | .mergeBufferIdle bank => s.hasRow bank.toNat 0
  | .tableBankCopyAgainDone ch _ => s.hasChannel ch.toNat
  | _ => true

end Machine

/-- A step is safe when it ends in a next state: no fault, no refusal. -/
def SafeStep (s : Machine.State) : Prop := ∃ t, Machine.step s = .next t

/-- A run is safe when each of its first `k` steps is. -/
def SafeRun : Nat → Machine.State → Prop
  | 0, _ => True
  | k + 1, s => ∃ t, Machine.step s = .next t ∧ SafeRun k t

end Sys2Proof
end

