-- ==== Sys2Proof/Certificates/Slice0/Obligations.lean ====
section
/-! DEFINITION. The statements for the provers. -/

open Sys2Proof Sys2Proof.Machine

/-! ### The whole block -/

/-- A step takes the command at the front of the queue and answers what it does to the state with the queue's rest; on an empty queue the block
idles (the model's choice, log 1). -/
def Obligations.StepTakesTheFront : Prop :=
  ∀ (c : Instr) (rest : List Instr) (s : State),
    (s.pending = c :: rest → step s = exec c { s with pending := rest }) ∧ (s.pending = [] → step s = .next s)

/-- Right after reset the memories are in canonical form and list nothing, no counter counts, no setting is in effect but the defaults, no hank
exists, no plan is loaded, no command waits, and the test port stands in test logic reset. What the memories hold at power-on is the model's choice
(log 3), and so is the TAP controller of IEEE 1149.1 (log 189). -/
def Obligations.ResetMeetsTheInvariant : Prop :=
  State.reset.MemWf ∧ State.reset.CountersOk ∧ State.reset.pending = [] ∧ State.reset.hearth = [] ∧ State.reset.pantry = [] ∧
    State.reset.nv = [] ∧ State.reset.hanks = [] ∧ State.reset.planEff = none ∧ State.reset.planPend = none ∧
    State.reset.jtag.tap = .reset ∧
    (∀ i k : Nat, State.reset.ctr i k = 0 ∧ State.reset.reg i k = State.reset.regDefault i k ∧ State.reset.stagedAt i k = none)

/-- Every step keeps the canonical form of the hearth, the pantry and the journal window, and leaves no counter above the value at which it holds
(R416), from every state in which that is so. -/
def Obligations.EveryStepKeepsTheInvariant : Prop :=
  ∀ s t : State, s.MemWf → s.CountersOk → step s = .next t → t.MemWf ∧ t.CountersOk

/-- A step takes exactly one command from the queue and puts none into it, and changes none of the straps and build parameters; the count of free
values only rises (the model's own). Between commands the TAP controller stands in Run-Test/Idle or in Test-Logic-Reset, from every state in which
that is so (the model's, log 189). -/
def Obligations.EveryStepKeepsStrapsAndQueue : Prop :=
  ∀ s t : State, step s = .next t → t.straps = s.straps ∧ t.pending = s.pending.drop 1 ∧ s.free ≤ t.free ∧
    (s.jtag.tap = .idle ∨ s.jtag.tap = .reset → t.jtag.tap = .idle ∨ t.jtag.tap = .reset)

/-- Every command ends in a next state where the build has the port it comes in on, and in the fault `noSuchPort` where it has not (the model's
reading of a number that the build lacks, log 16): no command is refused, whatever the state and the operands. -/
def Obligations.EveryCommandCompletes : Prop :=
  ∀ (c : Instr) (s : State), (portExists c s = true → ∃ t : State, exec c s = .next t) ∧
    (portExists c s = false → exec c s = .fault .noSuchPort)

/-- R416: a counter that is raised holds at 2^64 - 1, and no other counter changes with it; a counter that is cleared reads 0, and no other changes
with it. -/
def Obligations.CountersHoldAtTheLimit : Prop :=
  ∀ (i k n : Nat) (s : State),
    (State.bump i k n s).ctr i k = min (2 ^ 64 - 1) (s.ctr i k + n) ∧ (State.clearCtr i k s).ctr i k = 0 ∧
    (∀ j l : Nat, addrOf j l ≠ addrOf i k → (State.bump i k n s).ctr j l = s.ctr j l ∧ (State.clearCtr i k s).ctr j l = s.ctr j l)

/-! ### Reset and the test port (chapters 12 and 15) -/

/-- R335: while `lz_reset` is high every bit of the block stands at its reset value; the memories outside the block, the test logic (log 47), the
model's count of free values and the queue stay. Reset values that the manual does not give are the model's (log 2). R335, R355, Table 11.5: when
`lz_reset` falls the block states its inbound grant on both ways; with `lz_reset` already low the command changes nothing but the output ports,
which are quiet again. (Row: `lzReset`.) -/
def Obligations.ResetClearsTheBlock : Prop :=
  (∀ (n : BitVec 3) (s : State),
    exec (.lzReset true n) s = .next
      { State.afterReset s.straps s.sys.npSize s.hearth s.pantry s.nv with
        sys := { lzReset := true, ready := false, hk := .starting, npSize := s.sys.npSize, filled := false }
        jtag := s.jtag, free := s.free, pending := s.pending }) ∧
  (∀ (n : BitVec 3) (s : State),
    (s.sys.lzReset = true →
      exec (.lzReset false n) s = .next
        { State.afterReset s.straps n.toNat s.hearth s.pantry s.nv with
          jtag := s.jtag, free := s.free, pending := s.pending
          ans := .clean, out := [.creditGrant 0 [64, 64, 16] [512, 512, 64], .creditGrant 1 [64, 64, 16] [512, 512, 64]] }) ∧
    (s.sys.lzReset = false → exec (.lzReset false n) s = .next (State.finish (State.begin .clean s))))

/-- R368, Tables 12.18 and 12.19: each JTAG command is a scan of the instruction register, which captures 0b00001, and scans of the data register
that the instruction selects, from Run-Test/Idle or Test-Logic-Reset back to Run-Test/Idle (log 189). IDCODE captures version 3, part 0x4C5A, the
manufacturer code on `jt_mfr` and bit 0 set; BYPASS, and every code without an instruction of its own, captures 0; test logic reset selects IDCODE.
None of them changes anything else. R423: until `lz_ready` rises DICTRD captures status 2 (bits 57:56) with a word of zero (bits 55:24); the three
low bytes are free values (log 50). After it, it is a read under R363 whose word and status its second scan captures; the first one captures what
the last read left. R368, R423: MBIST with bit 0 set starts the test while `lz_reset` is high; started while it is low it runs no test and the
register captures done 0 and fail 1; with bit 0 clear it captures what stands. A test that runs ends with done 1, its verdict and the first failing
bank, which is one of the build's (Table 15.2). (Rows: `jtagIdcode`, `jtagDictrd`, `jtagMbist`, `mbistDone`, `jtagBypass`, `jtagTestLogicReset`.) -/
def Obligations.TestPortCaptures : Prop :=
  ∀ s : State, s.jtag.tap = .idle ∨ s.jtag.tap = .reset →
  (exec .jtagIdcode s = .next (State.finish
      { s with jtag := { s.jtag with ir := 0x01, tap := .idle }, ans := .clean
               out := [.jtagIr 1, .jtag (3 * 2 ^ 28 + 0x4C5A * 2 ^ 12 + s.straps.jtMfr % 2 ^ 11 * 2 + 1)] }) ∧
    (∀ code : BitVec 5, exec (.jtagBypass code) s = .next (State.finish
      { s with jtag := { s.jtag with ir := State.bypassCode code.toNat, tap := .idle }, ans := .clean, out := [.jtagIr 1, .jtag 0] })) ∧
    exec .jtagTestLogicReset s = .next (State.finish { s with jtag := { s.jtag with ir := 0x01, tap := .reset }, ans := .clean, out := [] })) ∧
  (∀ a : BitVec 24,
    let shown (t : State) (word status : Nat) : Out :=
      .jtag (leNat [Config.freeByte t.free, Config.freeByte (t.free + 1), Config.freeByte (t.free + 2)] + word * 2 ^ 24 + status * 2 ^ 56)
    let s1 : State := { s with
      jtag := { s.jtag with ir := 0x10, tap := .updateDr }, free := s.free + 3, ans := .clean
      out := [.jtagIr 1, shown s s.jtag.dictWord s.jtag.dictStatus] }
    let second (t : State) (word status : Nat) : State :=
      { t with
        jtag := { t.jtag with tap := .idle, dictAddr := a.toNat, dictWord := word, dictStatus := status }
        free := t.free + 3, out := t.out ++ [shown t word status] }
    (s.sys.lzReset = true ∨ s.sys.ready = false → exec (.jtagDictrd a) s = .next (State.finish (second s1 0 2))) ∧
    (s.sys.lzReset = false → s.sys.ready = true → exec (.jtagDictrd a) s = .next (State.finish (second
      (State.wordRead .jtag a.toNat s1).1 (State.wordRead .jtag a.toNat s1).2.2 (State.wordRead .jtag a.toNat s1).2.1)))) ∧
  (∀ start : Bool,
    let j := s.jtag
    let verdict (x : JtagSt) : Nat := flagOf x.mbistDone + 2 * flagOf x.mbistFail
    let j1 : JtagSt :=
      if start then { j with mbistRunning := s.sys.lzReset, mbistDone := false, mbistFail := !s.sys.lzReset } else j
    ∃ old new : Nat, old % 4 = verdict j ∧ new % 4 = verdict j1 ∧
      (j1.mbistDone = true → j1.mbistFail = true → new / 2 ^ 16 = j1.mbistBank) ∧
      exec (.jtagMbist start) s = .next (State.finish
        { s with jtag := { j1 with ir := 0x11, tap := .idle }, free := s.free + 8, ans := .clean, out := [.jtagIr 1, .jtag old, .jtag new] })) ∧
  (∀ (fail : Bool) (bank : BitVec 16),
    (s.jtag.mbistRunning = true → s.hasRow bank.toNat 0 = true → exec (.mbistDone fail bank) s = .next (State.finish
      { s with
        jtag := { s.jtag with mbistRunning := false, mbistDone := true, mbistFail := fail, mbistBank := bank.toNat }
        ans := .clean, out := [] })) ∧
    (s.jtag.mbistRunning = false ∨ s.hasRow bank.toNat 0 = false →
      exec (.mbistDone fail bank) s = .next (State.finish { s with ans := .clean, out := [] })))

/-! ### The serial monitor (chapter 13) -/

/-- R401, Table 13.12: the reporting commands of the monitor print their items on lines that end with CR LF, then the prompt, and change nothing
else; outside `running` the monitor runs no command (log 137). How the items stand on a line is the model's choice (log 49), and so is that RC
counters are printed without being cleared (log 172). (Rows: `jutusHelp`, `jutusVersion`, `jutusLog`, `jutusSensors`, `jutusHealth`, `jutusSkein`,
`jutusStep`, `jutusFrameTrace`, `jutusPlan`, `jutusMasks`, `jutusJournal`, `jutusFirmware`.) -/
def Obligations.JutusReportsOnlyPrint : Prop :=
  ∀ (s : State) (n m : Option (BitVec 32)),
    let reports : List (Instr × List String) :=
      [(.jutusHelp, jutusHelpText), (.jutusVersion, s.jutusVersionText), (.jutusLog n, s.jutusLogText ((n.map (fun k => k.toNat)).getD 16)),
       (.jutusSensors, s.jutusSensorText), (.jutusHealth, s.jutusHealthText), (.jutusSkein, s.jutusSkeinText),
       (.jutusStep, s.jutusStepText), (.jutusFrameTrace m, s.jutusTraceText ((m.map (fun k => k.toNat)).getD 16)),
       (.jutusPlan, s.jutusPlanText), (.jutusMasks, s.jutusMaskText), (.jutusJournal, s.jutusJournalText),
       (.jutusFirmware, s.jutusFirmwareText)]
    ∀ r ∈ reports,
      (s.sys.hk = .running →
        exec r.1 s = .next (State.finish { s with ans := .clean, out := [.serial (String.intercalate "\r\n" r.2 ++ "\r\nlz> ")] })) ∧
      (s.sys.hk ≠ .running → exec r.1 s = .next (State.finish (State.begin .clean s)))

/-- R401: r prints a scalar entry in hexadecimal of its width, d up to 256 bytes of a STR or DOM from an offset; an RC entry is cleared by the read
(R416). R401: unlocked, w and b write an entry that passes the checks of Table 14.3, and a acknowledges the events of a line up to a seq (R385);
locked, each is refused (reason 2) and changes nothing but the record of the refusal. R401, R417: unlocked, c prints the non-zero counters of an
index and clears all of it in one action. The texts of the answers are the model's choice (log 49). (Rows: `jutusRead`, `jutusDump`, `jutusWrite`,
`jutusBaud`, `jutusAck`, `jutusCounters`.) -/
def Obligations.JutusReadsAndWrites : Prop :=
  (∀ (a : BitVec 24) (o : Option (BitVec 32)) (s : State) (r : EntryRow),
    s.sys.hk = .running → (r.acc = .rc → addrSub a.toNat ≠ 0 → s.house.jutus.unlocked = true) →
    (∀ v : Nat, State.readValue s .jutus a.toNat = some (r, .num v) →
      exec (.jutusRead a) s = .next (State.finish (State.emit (.serial (scalarText r.ty v ++ "\r\nlz> "))
        (State.afterRead r (addrIdx a.toNat) (addrSub a.toNat) (State.begin .clean s))))) ∧
    (∀ b : Bytes, State.readValue s .jutus a.toNat = some (r, .blob b) →
      exec (.jutusDump a o) s = .next (State.finish (State.emit
        (.serial (bytesText ((b.drop ((o.map (fun x => x.toNat)).getD 0)).take 256) ++ "\r\nlz> "))
        (State.afterRead r (addrIdx a.toNat) (addrSub a.toNat) (State.begin .clean s)))))) ∧
  (∀ (a : BitVec 24) (v : BitVec 64) (baud : BitVec 32) (mem : MemAns) (s : State),
    let s0 := State.begun mem s
    s0.sys.hk = .running →
    (s0.house.jutus.unlocked = true →
      (∀ r : EntryRow, entry? s0.straps.build (addrIdx a.toNat) (addrSub a.toNat) = some r → a.toNat ≠ 0x10FD04 →
        writable .jutus a.toNat (.num v.toNat) s0 = true →
        exec (.jutusWrite a v mem) s = .next (State.finish (State.settleAll (State.emit (.serial "ok\r\nlz> ")
          (State.applyWrite .jutus r (addrIdx a.toNat) (addrSub a.toNat) (.num v.toNat) s0).1)))) ∧
      (∀ t : State, State.dictWrite .jutus a.toNat (.num v.toNat) s0 = (t, .done) →
        exec (.jutusWrite a v mem) s = .next (State.finish (State.settleAll (t.emit (.serial "ok\r\nlz> ")))))) ∧
    (s0.house.jutus.unlocked = false →
      exec (.jutusWrite a v mem) s = .next (State.finish (State.settleAll (State.emit (.serial "refused\r\nlz> ")
        (State.refuseWrite 2 a.toNat 2 s0)))))) ∧
  (∀ (baud : BitVec 32) (line : BitVec 8) (seq : BitVec 64) (s : State), s.sys.hk = .running →
    (s.house.jutus.unlocked = true →
      (writable .jutus 0x311002 (.num baud.toNat) s = true → exec (.jutusBaud baud) s = .next (State.finish
        { s with house := { s.house with jutus := { s.house.jutus with baud := baud.toNat } }, ans := .clean, out := [.serial "ok\r\nlz> "] })) ∧
      (line.toNat < 8 → exec (.jutusAck line seq) s = .next (State.finish (State.emit (.serial "ok\r\nlz> ")
        (State.ackEvents line.toNat seq.toNat (State.begin .clean s)))))) ∧
    (s.house.jutus.unlocked = false →
      exec (.jutusBaud baud) s = .next (State.finish (State.emit (.serial "refused\r\nlz> ")
        (State.refuseWrite 2 0x311002 2 (State.begin .clean s)))) ∧
      (line.toNat < 8 → exec (.jutusAck line seq) s = .next (State.finish (State.emit (.serial "refused\r\nlz> ")
        (State.refuseWrite 2 (0x307010 + line.toNat) 2 (State.begin .clean s))))))) ∧
  (∀ (i : BitVec 16) (s : State), s.sys.hk = .running → s.house.jutus.unlocked = true → counterIndex i.toNat = true →
    ∃ lines : List String,
      (∀ k : Nat, 0 < k → k ≤ highSub s.straps.build i.toNat → s.ctr i.toNat k ≠ 0 →
        (entryText (addrOf i.toNat k) ++ "=" ++ toString (s.ctr i.toNat k)) ∈ lines) ∧
      (∀ x ∈ lines, ∃ k : Nat, 0 < k ∧ k ≤ highSub s.straps.build i.toNat ∧ s.ctr i.toNat k ≠ 0 ∧
        x = entryText (addrOf i.toNat k) ++ "=" ++ toString (s.ctr i.toNat k)) ∧
      exec (.jutusCounters i) s = .next (State.finish
        { State.clearBlock i.toNat s with ans := .clean, out := [.serial (String.intercalate "\r\n" lines ++ "\r\nlz> ")] }))

/-- R402: u prints the challenge, which is bytes 0 to 15 of the whorl word pair at seed 0, step equal to the hall time, stream 0 and indices 0 and
1, as 32 hexadecimal digits. R402: the response that unlocks is the first 16 bytes of HMAC-SHA-256 under the device key over "JUTUS", the challenge
and the block's node; it clears the count of wrong responses. A wrong response counts in 0x50D0.0D, and the third in a row starts the lockout. R402:
x and the unlock's expiry lock the monitor; the end of the lockout lets responses be tried again. Each changes nothing else. That a wrong response
leaves the challenge as it is and a right one clears it is the model's reading (log 109), and the texts of the answers are its choice (log 49).
(Rows: `jutusChallenge`, `jutusUnlock`, `jutusLock`, `jutusUnlockExpiry`, `jutusLockoutExpiry`.) -/
def Obligations.JutusUnlocksAndLocks : Prop :=
  (∀ (ht : BitVec 64) (s : State), s.sys.hk = .running → s.time.valid = true → s.now ≤ ht.toNat →
    let w (x : Nat) : Bytes := toLE 8 (whorl s.whorl.tables 0 (State.sampleTime ht.toNat s).now 0 x).toNat
    exec (.jutusChallenge ht) s = .next (State.finish
      { s with
        time := { base := ht.toNat, clocks := 0, valid := true }
        house := { s.house with jutus := { s.house.jutus with challenge := some (w 0 ++ w 1) } }
        ans := .clean, out := [.serial (bytesText (w 0 ++ w 1) ++ "\r\nlz> ")] })) ∧
  (∀ (resp c k : Bytes) (s : State), s.sys.hk = .running → s.house.jutus.lockedOut = false →
    s.house.jutus.challenge = some c → s.house.jutus.deviceKey = some k →
    let right := (hmac256 k (ascii "JUTUS" ++ c ++ toLE 2 s.node)).take 16
    let j := s.house.jutus
    (resp = right → exec (.jutusUnlock resp) s = .next (State.finish
      { s with
        house := { s.house with jutus := { j with unlocked := true, wrong := 0, challenge := none } }
        ans := .clean, out := [.serial "ok\r\nlz> "] })) ∧
    (resp ≠ right → exec (.jutusUnlock resp) s = .next (State.finish
      { State.bump 0x50D0 0x0D 1 s with
        house := { s.house with jutus :=
          if j.wrong + 1 < 3 then { j with wrong := j.wrong + 1 } else { j with wrong := 0, lockedOut := true } }
        ans := .clean, out := [.serial "wrong\r\nlz> "] }))) ∧
  (∀ s : State,
    (s.sys.hk = .running → s.house.jutus.unlocked = true →
      exec .jutusLock s = .next (State.finish
        { s with house := { s.house with jutus := { s.house.jutus with unlocked := false } }, ans := .clean, out := [.serial "ok\r\nlz> "] })) ∧
    exec .jutusUnlockExpiry s = .next (State.finish
      { s with house := { s.house with jutus := { s.house.jutus with unlocked := false } }, ans := .clean, out := [] }) ∧
    exec .jutusLockoutExpiry s = .next (State.finish
      { s with house := { s.house with jutus := { s.house.jutus with lockedOut := false } }, ans := .clean, out := [] }))

/-! ### The housekeeper (chapters 12, 13 and 15) -/

/-- R337: a sample of hall time not below the largest seen is taken; one below it counts in 0x50C0.06 and moves nothing. While `ht_valid` is low the
block counts the clocks, in the same counter too; with no clock low the command is a sample (log 125). With a plan in effect the work that the time
sets free goes on. (Rows: `hallTimeValid`, `hallTimeInvalid`.) -/
def Obligations.HallTimeIsMonotonic : Prop :=
  ∀ (x sample : BitVec 64) (mem : MemAns) (s : State), s.sys.lzReset = false →
    let s0 := State.begun mem s
    (s0.now ≤ sample.toNat → exec (.hallTimeValid sample mem) s = .next (State.finish (State.settleAll
      { s0 with time := { base := sample.toNat, clocks := 0, valid := true } }))) ∧
    (sample.toNat < s0.now → exec (.hallTimeValid sample mem) s = .next (State.finish (State.settleAll
      { State.bump 0x50C0 0x06 1 s0 with time := { s0.time with valid := true } }))) ∧
    (x.toNat ≠ 0 → exec (.hallTimeInvalid x sample mem) s = .next (State.finish (State.settleAll
      { State.bump 0x50C0 0x06 x.toNat s0 with
        time := { s0.time with clocks := s0.time.clocks + x.toNat, valid := false } }))) ∧
    (x.toNat = 0 → exec (.hallTimeInvalid x sample mem) s = .next (State.finish (State.settleAll (State.sampleTime sample.toNat s0))))

/-- R420, R375, R378: once the fill and the read-back are done the housekeeper starts. Where the slot of the firmware record verifies, or else the
other one, that image starts: it is in effect, the start has cause 1 and counts in 0x50D0.01, the running record waits to be durable, and `lz_ready`
stays as it was, low after reset (R335: only a durable running record raises it). Where neither slot verifies the block enters recovery and raises
`lz_ready`. In both cases the rows that failed the read-back count in 0x50C0.0D. The reads of the window are answered within the command (log 191).
(Row: `sramFillDone`.) -/
def Obligations.FillDoneWithoutAnImageRecovers : Prop :=
  ∀ (failed : List (BitVec 16 × BitVec 16)) (ht : BitVec 64) (mem : MemAns) (s : State), s.sys.lzReset = false → s.sys.filled = false →
    s.house.fw.slots.length = 2 →
    let rows := (failed.map (fun r => (r.1.toNat, r.2.toNat))).filter (fun r => s.hasRow r.1 r.2)
    let seen := (State.begin mem s).npSeen
    let named := seen.firmwareRecord
    let good (slot : Nat) : Bool :=
      State.slotGood { seen with house := { seen.house with fw := { seen.house.fw with minimum := named.2.2.2 } } } slot
    let slot := if good named.1 then named.1 else 1 - named.1
    (good 0 = false → good 1 = false →
      ∃ t : State, exec (.sramFillDone failed ht mem) s = .next (State.finish t) ∧
        t.sys = { s.sys with filled := true, ready := true, hk := .recovery } ∧ t.house.fw.cause = 1 ∧
        t.ctr 0x50D0 0x01 = min Config.u64Max (s.ctr 0x50D0 0x01 + 1) ∧
        t.ctr 0x50C0 0x0D = min Config.u64Max (s.ctr 0x50C0 0x0D + rows.length) ∧
        t.hearth = s.hearth ∧ t.pantry = s.pantry ∧ t.nv = s.nv ∧ t.regs = s.regs) ∧
    (good slot = true →
      ∃ t : State, exec (.sramFillDone failed ht mem) s = .next (State.finish t) ∧
        t.sys = { s.sys with filled := true } ∧ t.house.fw.cause = 1 ∧ t.house.fw.inEffect = slot ∧ t.reg 0x3100 0x04 = slot ∧
        t.ctr 0x50D0 0x01 = min Config.u64Max (s.ctr 0x50D0 0x01 + 1) ∧
        t.ctr 0x50C0 0x0D = min Config.u64Max (s.ctr 0x50C0 0x0D + rows.length) ∧
        (∃ r ∈ t.house.journal.queue, r.write = true ∧ r.what = 1 ∧ r.recType = 0x22 ∧ r.mark = 1) ∧
        t.hearth = s.hearth ∧ t.pantry = s.pantry ∧ t.nv = s.nv ∧ t.hanks = s.hanks ∧
        (s.fx.localIn = [] → s.fx.rxHeld = [] → (State.finish t).sys = t.sys))

/-- R366, R365: requests go out in their order, at most 8 open at a time; a header line or a superblock goes out only once every one before it is
answered, and lets none after it out before its own answer (R388, R391). A response answers the oldest open request: with status 0 its line stands
in the journal window, and what may follow goes out; with nothing open it does nothing. R366, R392: a response with an error counts in 0x50C0.07; a
write that fails once is issued again, before the requests that are not open; a second failure leaves the journal degraded (0x3200.01 = 1). R375,
R335: the running record of a start is durable with its header line: the core runs and `lz_ready` is high. R390: the entries of an event batch are
journaled with its header line. (Row: `journalResponse`.) -/
def Obligations.JournalWindowIsWritten : Prop :=
  (∀ (d : BitVec 512) (r : NpReq) (rest : List NpReq) (k : Nat) (s : State), s.sys.lzReset = false →
    s.house.journal.queue = r :: rest → s.house.journal.opened = k + 1 → r.write = true →
    let s1 : State := { s with
      house := { s.house with journal := { s.house.journal with queue := rest, opened := k } }
      nv := Memory.write s.nv (64 * r.line) r.data, ans := .clean, out := [] }
    (r.what = 0 → exec (.journalResponse 0 d) s = .next (State.finish (State.npPump 8 s1))) ∧
    (r.what = 1 → r.recType = 0x22 → r.mark = 1 → s.sys.hk ≠ .running → ∃ t : State,
      exec (.journalResponse 0 d) s = .next (State.finish t) ∧ t.sys = { s.sys with hk := .running, ready := true } ∧ t.nv = s1.nv ∧
      t.ctr 0x50D0 0x05 = min Config.u64Max (s.ctr 0x50D0 0x05 + 1) ∧ t.hearth = s.hearth ∧ t.hanks = s.hanks) ∧
    (r.what = 1 → r.recType = 0x30 → ∃ t : State,
      exec (.journalResponse 0 d) s = .next (State.finish t) ∧ t.nv = s1.nv ∧
      t.house.events = mapIf (fun e => decide (e.seq ≤ r.mark)) (fun e => { e with journaled := true }) s.house.events)) ∧
  (∀ (u : State) (k : Nat),
    let j := u.house.journal
    (∀ r : NpReq, State.npNext j = some r ↔ j.queue[j.opened]? = some r ∧ j.opened < 8 ∧
      (j.opened = 0 ∨ (State.npAlone r = false ∧ ∀ q ∈ j.queue.take j.opened, State.npAlone q = false))) ∧
    (∀ r : NpReq, State.npNext j = some r → r.write = true → State.npPump (k + 1) u = State.npPump k
      { u with
        house := { u.house with journal := { j with opened := j.opened + 1 } }
        out := u.out ++ [.np true r.line r.data (2 ^ 64 - 1)] }) ∧
    (State.npNext j = none → State.npPump (k + 1) u = u)) ∧
  (∀ (st : BitVec 2) (d : BitVec 512) (r : NpReq) (rest : List NpReq) (k : Nat) (s : State), s.sys.lzReset = false → st ≠ 0 →
    s.house.journal.queue = r :: rest → s.house.journal.opened = k + 1 → r.write = true →
    ∃ t : State, exec (.journalResponse st d) s = .next (State.finish t) ∧
      t.ctr 0x50C0 0x07 = min Config.u64Max (s.ctr 0x50C0 0x07 + 1) ∧ t.nv = s.nv ∧
      (r.again = false → t.house.journal.queue = rest.take k ++ { r with again := true } :: rest.drop k ∧
        t.house.journal.state = s.house.journal.state) ∧
      (r.again = true → t.house.journal.state = 1)) ∧
  (∀ (d : BitVec 512) (s : State), s.sys.lzReset = false → s.house.journal.opened = 0 →
    exec (.journalResponse 0 d) s = .next (State.finish (State.begin .clean s)))

/-- R377: a watchdog expiry counts in 0x50D0.02 and restarts the core into the slot in effect where that slot still holds an image that verifies,
with cause 3; the third within 10 s restarts it into the other slot where that one holds a verified image, with cause 4 and the count in 0x50D0.04.
R395, Table 13.6: an image on trial that has not appended its running record when the trial timer expires gives way to the previous slot: the
firmware record names that slot without a trial, and the start has cause 4. R376: hearth, pantry and hanks stay. (Rows: `watchdogExpiry`,
`trialTimerExpiry`.) -/
def Obligations.CoreRestarts : Prop :=
  (∀ (ht : BitVec 64) (mem : MemAns) (s : State),
    let s0 := State.begun mem s
    s0.sys.lzReset = false → s0.sys.filled = true → s0.sys.hk ≠ .recovery →
    let s1 := State.sampleTime ht.toNat s0
    let f := s1.house.fw
    let recent := f.watchdogs.filter (fun t => decide (s1.now < t + 10000000000))
    (recent.length < 2 ∨ (s1.fwSlot (1 - f.inEffect)).state ≠ 2 →
      exec (.watchdogExpiry ht mem) s = .next (State.finish (State.restart 3 f.inEffect
        { State.bump 0x50D0 0x02 1 s1 with
          house := { s1.house with fw := { f with watchdogs := s1.now :: recent } } })) ∧
      (f.slots.length = 2 → f.inEffect < 2 → State.slotGood s1.npSeen f.inEffect = true → ∃ t : State,
        exec (.watchdogExpiry ht mem) s = .next (State.finish t) ∧ t.sys = { s1.sys with hk := .restarting } ∧ t.house.fw.cause = 3 ∧
        t.house.fw.inEffect = f.inEffect ∧ t.ctr 0x50D0 0x02 = min Config.u64Max (s1.ctr 0x50D0 0x02 + 1) ∧
        t.ctr 0x50D0 0x01 = min Config.u64Max (s1.ctr 0x50D0 0x01 + 1) ∧
        (s1.house.journal.state ≠ 1 → ∃ r ∈ t.house.journal.queue, r.what = 1 ∧ r.recType = 0x22 ∧ r.mark = 1) ∧
        t.house.ocper = [none, none] ∧ t.house.jutus.unlocked = false ∧
        t.hearth = s1.hearth ∧ t.pantry = s1.pantry ∧ t.hanks = s1.hanks)) ∧
    (2 ≤ recent.length → (s1.fwSlot (1 - f.inEffect)).state = 2 →
      let s2 := State.append 0x21 (s1.firmwareBody (1 - f.inEffect) f.inEffect 0) 0
        { State.bump 0x50D0 0x02 1 s1 with house := { s1.house with fw := { f with watchdogs := [] } } }
      exec (.watchdogExpiry ht mem) s = .next (State.finish (State.restart 4 (1 - f.inEffect) (State.bump 0x50D0 0x04 1 s2))))) ∧
  (∀ (prev : Nat) (mem : MemAns) (s : State),
    let s0 := State.begun mem s
    s0.sys.lzReset = false → s0.house.fw.trial = some prev →
    exec (.trialTimerExpiry mem) s = .next (State.finish (State.restart 4 prev (State.bump 0x50D0 0x04 1
      (State.append 0x21 (toLE 1 prev ++ toLE 1 (1 - prev) ++ toLE 1 0 ++ [0] ++ toLE 4 s0.house.fw.minimum) 0
        { s0 with house := { s0.house with fw := { s0.house.fw with trial := none } } })))))

/-- R379, R380: a health period of the running firmware takes the readings gain x raw + offset in FP32 and forms the six terms and the score
min(1,023, T + V + M + F + R + L), or 1,023 at a thermal reading at or above the critical level. Then the levels are compared (R185), load is shed
or taken back (R187), and the next period begins. R386: an event frame goes to a subscriber once entries of its lines have gathered and 100 µs have
passed since the last; it carries at most 32 of them, and the subscriber has been sent them; its xid of 0 is the model's reading (log 54). (Rows:
`healthPeriod`, `eventFrameSend`.) -/
def Obligations.HealthAndEventsAreReported : Prop :=
  (∀ (raw : List (BitVec 32)) (ht : BitVec 64) (s : State), s.sys.ready = true → s.sys.hk = .running →
    let s1 := State.sampleTime ht.toNat (State.begin .clean s)
    let rs := (List.range 24).map (fun i => Fp.add (Fp.mul (s1.calWord (4 * i)) (Fp.round32 false (raw.getD i 0).toNat 0 false)) (s1.calWord (4 * i + 1)))
    let terms := s1.termT rs :: s1.termV rs :: s1.termsRest
    let critical : Bool := decide (exactOf (BitVec.ofNat 32 (s1.reg 0x3062 0x02)) ≤ State.hottest rs)
    exec (.healthPeriod raw ht) s = .next (State.finish (State.nextPeriod (State.shedTurn (State.levelsTurn
      { s1 with house := { s1.house with health := { s1.house.health with
          readings := rs, terms := terms, score := if critical then 1023 else min 1023 (sumL terms) } } }))))) ∧
  (∀ (i : BitVec 2) (ht : BitVec 64) (x : Subscriber) (s : State), s.sys.ready = true → s.sys.hk = .running →
    s.house.subscribers[i.toNat]? = some x → s.time.valid = true → s.now ≤ ht.toNat →
    let es := (s.house.events.filter (fun e => bit x.mask e.line && decide (x.sent < e.seq))).take 32
    let s1 : State := { s with time := { base := ht.toNat, clocks := 0, valid := true }, ans := .clean, out := [] }
    let subs := setAt s.house.subscribers i.toNat { x with sent := maxL (es.map (fun e => e.seq)), lastAt := s1.now }
    es ≠ [] → (x.lastAt = 0 ∨ x.lastAt + 100000 ≤ s1.now) →
    exec (.eventFrameSend i ht) s = .next (State.finish (State.post 0x38 x.node (x.node % 2) x.job s.mem.epoch s.fr.step 0
      ([7, 0] ++ zeros 10 ++ toLE 4 (es.flatMap State.eventBytes).length ++ es.flatMap State.eventBytes)
      { s1 with house := { s1.house with subscribers := subs } })))

/-- R394, Table 13.8: once the last line of a loaded image is written, every line of it is read back; a line that is answered with an error or reads
back as other than it was sent refuses the load with detail 5. When every line has been read back and the image verifies, the slot that is not in
effect holds it as stored, and in recovery its image starts at once (R378); an image that does not verify is refused with the detail of Table 13.8,
and with the journal degraded with detail 5 (R392): the slot then stands empty. (Rows: `firmwareVerifyDone`, `journalResponse`.) -/
def Obligations.FirmwareVerifyStoresOrRefuses : Prop :=
  (∀ (image : Bytes) (s : State), s.sys.lzReset = false → s.house.fw.image = some image → s.imageOpen = false →
    let slot := 1 - s.house.fw.inEffect
    let h := image.take 512
    let d := State.imageDetail s.house.fw.minimum h (image.drop 512) (image.length == 512 + fld 12 4 h)
    let refused (detail : Nat) : State := State.raise 4 0x3100 0x01 detail
      { s with
        house := { s.house with fw := { s.house.fw with
          load := 3, detail := detail, image := none, slots := setAt s.house.fw.slots slot State.resetSlot } }
        ans := .clean, out := [] }
    let stored : State :=
      { s with
        house := { s.house with fw := { s.house.fw with
          load := 2, detail := 0, image := none,
          slots := setAt s.house.fw.slots slot { state := 2, version := fld 4 4 h, security := fld 8 4 h, header := h } } }
        ans := .clean, out := [] }
    (s.house.journal.state ≠ 1 → d = 0 → s.sys.hk ≠ .recovery → exec .firmwareVerifyDone s = .next (State.finish stored)) ∧
    (s.house.journal.state ≠ 1 → d = 0 → s.sys.hk = .recovery →
      exec .firmwareVerifyDone s = .next (State.finish (State.startImage slot stored))) ∧
    (s.house.journal.state ≠ 1 → d ≠ 0 → exec .firmwareVerifyDone s = .next (State.finish (refused d))) ∧
    (s.house.journal.state = 1 → exec .firmwareVerifyDone s = .next (State.finish (refused 5)))) ∧
  (∀ (st : BitVec 2) (d : BitVec 512) (r : NpReq) (rest : List NpReq) (k : Nat) (image : Bytes) (s : State), s.sys.lzReset = false →
    s.house.journal.queue = r :: rest → s.house.journal.opened = k + 1 → s.house.fw.image = some image →
    (r.write = true → r.what = 3 → st = 0 → (∀ q ∈ rest, q.what ≠ 3) → ∃ t : State,
      exec (.journalResponse st d) s = .next (State.finish t) ∧ t.house.fw = s.house.fw ∧
      t.nv = Memory.write s.nv (64 * r.line) r.data ∧
      t.house.journal.queue = rest ++ ((pieces 64 image).map (fit 64)).zipIdx.map (fun l =>
        { write := false, line := (1 - s.house.fw.inEffect) * 8192 + l.2, data := l.1, what := 4, recType := 0, mark := 0, again := false })) ∧
    (r.write = false → st = 0 → toLE 64 d.toNat = r.data → exec (.journalResponse st d) s = .next (State.finish (State.npPump 8
      { s with
        house := { s.house with journal := { s.house.journal with queue := rest, opened := k } }
        ans := .clean, out := [] }))) ∧
    (r.write = false → st ≠ 0 ∨ toLE 64 d.toNat ≠ r.data → ∃ t : State,
      exec (.journalResponse st d) s = .next (State.finish t) ∧ t.house.fw.load = 3 ∧ t.house.fw.detail = 5 ∧ t.house.fw.image = none ∧
      t.nv = s.nv ∧ t.hearth = s.hearth))

/-! ### The step frame (chapters 1, 3, 4, 6, 8 and 9) -/

/-- R358, R19: a pulse on `tk_step` for the step the block expects, with the open step sealed and the quorum held, is a threshold: the settings that
the manual places there take effect and the step opens with the hall time of the tick. R19, R20, R213, R214, R215: a tick of another number counts
in 0x5000.02 and moves no step (a pending plan that the threshold would discard makes no exception, log 188); one that comes before the open step is
sealed counts in 0x5000.03 and, with the quorum, is held until the seal and counted in 0x5060.10; without the quorum the member fences itself with
reason 2. Before `lz_ready` a tick changes nothing. (Row: `tick`.) -/
def Obligations.TicksOpenSteps : Prop :=
  (∀ (n ht : BitVec 64) (mem : MemAns) (s : State),
    let s0 := State.begun mem s
    let s1 := State.sampleTime ht.toNat s0
    s0.sys.ready = true → s1.fenced = false → s1.expects n.toNat = true → s1.fr.phase ≠ .gather → s1.fr.phase ≠ .update →
    s1.quorum = true →
    exec (.tick n ht mem) s = .next (State.finish (State.settleAll (State.threshold n.toNat s1.now s1)))) ∧
  (∀ (n ht : BitVec 64) (mem : MemAns) (s : State),
    let s0 := State.begun mem s
    let s1 := State.sampleTime ht.toNat s0
    (s0.sys.ready = false → exec (.tick n ht mem) s = .next (State.finish (State.settleAll s0))) ∧
    (s0.sys.ready = true → s1.fenced = true → s1.planPend = none →
      exec (.tick n ht mem) s = .next (State.finish (State.settleAll (State.bump 0x5060 0x13 1 s1)))) ∧
    (s0.sys.ready = true → s1.fenced = false →
      (s1.expects n.toNat = false →
        exec (.tick n ht mem) s = .next (State.finish (State.settleAll (State.countNote 0x5000 0x02 n.toNat s1)))) ∧
      (s1.expects n.toNat = true → s1.fr.phase ≠ .gather → s1.fr.phase ≠ .update → s1.quorum = false →
        exec (.tick n ht mem) s = .next (State.finish (State.settleAll (State.fence 2 s1)))) ∧
      (s1.expects n.toNat = true → s1.fr.phase = .gather ∨ s1.fr.phase = .update → s1.fr.held = none →
        let s2 := State.countNote 0x5000 0x03 n.toNat s1
        exec (.tick n ht mem) s = .next (State.finish (State.settleAll
          (if s2.quorum then
            State.countNote 0x5060 0x10 n.toNat { s2 with fr := { s2.fr with held := some (n.toNat, s2.now) } }
          else State.fence 2 s2))))))

/-- R358, R410, R19: a tick that is a threshold leaves its step open in the gather phase, with the hall time of the tick in 0x1200.02, and with
`tk_sealed`, `tk_rollcall_out`, the held tick and the roll-call epoch gone; the step sealed last stays known, and the threshold is shown. Everything
that the settled work does afterwards starts from there. (Row: `tick`.) -/
def Obligations.StepOpensInGather : Prop :=
  ∀ (n ht : BitVec 64) (mem : MemAns) (s : State),
    let s0 := State.begun mem s
    let s1 := State.sampleTime ht.toNat s0
    s0.sys.ready = true → s1.fenced = false → s1.expects n.toNat = true → s1.fr.phase ≠ .gather → s1.fr.phase ≠ .update →
    s1.quorum = true →
    ∃ t : State, exec (.tick n ht mem) s = .next (State.finish (State.settleAll t)) ∧
      t.fr.step = n.toNat ∧ t.fr.opened = true ∧ t.fr.phase = .gather ∧ t.fr.rcOut = false ∧ t.fr.rcSeen = false ∧
      t.fr.sealedPin = false ∧ t.fr.htSample = s1.now ∧ t.fr.held = none ∧ t.fr.eN = 0 ∧ t.fr.lastSealed = s1.fr.lastSealed ∧
      Out.threshold ∈ t.out

/-- R21: "Landing freezes the contributor set of step N in the clock in which `tk_rollcall_in` is seen. In that same clock it takes the epoch of
step N from `tk_epoch[31:0]`." The leaf slots that are present then, and no other, are the frozen ones; the remote-bound sites not closed early are
held, and their bits of 0x2220.02 stand from this clock on (log 173). Then the exclusion is looked up, the mirror goes out, and what waited for the
roll-call goes on. R360: a pulse that comes with the tick, a second one, or one outside gather, before `lz_ready` too, counts in 0x50C0.05 and does
nothing else. A fenced member takes a roll-call like any other (log 126). (Row: `rollcall`.) -/
def Obligations.RollcallFreezesTheStep : Prop :=
  ∀ (e : BitVec 32) (wt : Bool) (ht : BitVec 64) (mem : MemAns) (s : State),
    let s0 := State.begun mem s
    let s1 := State.sampleTime ht.toNat s0
    s0.sys.lzReset = false →
    (wt = false → s1.fr.rcSeen = false → s1.fr.phase = .gather →
      let s2 := State.traceRollcall e.toNat s1
      let present := s2.sites.flatMap (fun x =>
        ((List.range x.slots).filter (fun i => State.isLeaf x i && s2.slotPresent x i)).map (fun i => (x.id, i)))
      let held := s2.sites.foldl (fun a x => if x.remote && !bit s2.land.early x.id then setBit a x.id else a) 0
      let s3 : State := { s2 with
        fr := { s2.fr with rcSeen := true, eN := e.toNat, phase := .update }
        land := { s2.land with frozen := present, heldSites := held, rcLate := s2.pastRc } }
      let s4 := s3.resolveExclusion
      let s5 := if s4.land.exclusion.isNone then State.countNote 0x5020 0x10 e.toNat s4 else s4
      exec (.rollcall e wt ht mem) s = .next (State.finish (State.settleAll (State.serveHeldOut (State.advanceComps (State.probeRollcall
        (State.classLosses (State.landingPass (State.sendMirror s5))))))))) ∧
    (wt = true ∨ s1.fr.rcSeen = true ∨ s1.fr.phase ≠ .gather →
      exec (.rollcall e wt ht mem) s = .next (State.finish (State.settleAll (State.bump 0x50C0 0x05 1 s1))))

/-- R71: a remote-bound site with all its slots present closes early when its turn comes: its output, stamped with the epoch in effect and not yet
final, goes to its outbox entry, and bit `site` of 0x2220.01 is set. R75: after roll-call a local site whose leaves are resolved and whose inputs
are final closes: its combination is written once, its slots are counted in their bins, and inputs that are final later than t_rc count for its
stage; the bit that says so is set. What waits for its output goes on. The moment of a site's turn is the command's (log 78). (Rows: `earlyClose`,
`siteClose`.) -/
def Obligations.SitesClose : Prop :=
  (∀ (i : BitVec 6) (mem : MemAns) (x : Site) (s : State),
    let s0 := State.begun mem s
    s0.site? i.toNat = some x → x.remote = true → s0.fr.opened = true → s0.fr.rcSeen = false →
    s0.fr.phase = .gather → bit s0.land.early x.id = false → s0.fenced = false →
    (∀ k : Nat, k < x.slots → s0.slotPresent x k = true ∧ (State.isLeaf x k = false → (s0.slotHdr x k).stamp = s0.mem.epoch)) →
    let s1 := State.closeRemote x s0.mem.epoch 1 s0
    exec (.earlyClose i mem) s = .next (State.finish (State.settleAll (State.changed 0x2220 0x01 (setBit s1.land.early x.id)
      { s1 with land := { s1.land with early := setBit s1.land.early x.id } })))) ∧
  (∀ (i : BitVec 6) (ht : BitVec 64) (mem : MemAns) (x : Site) (s : State),
    let s1 := State.sampleTime ht.toNat (State.begun mem s)
    s1.site? i.toNat = some x → x.remote = false → bit s1.land.closed x.id = false → s1.fenced = false →
    s1.leavesResolved x = true → s1.outputsFinal x = true →
    let t := State.settle x (State.closeLocal x (State.resolveSite x s1))
    exec (.siteClose i ht mem) s = .next (State.finish (State.settleAll (State.landingPass t))) ∧ bit t.land.closed x.id = true)

/-- R95, R381: a group of a LIVE STATE hank whose waits are met, that no move of its home has in transit, with the roll-call epoch in effect, bobbin
room, a whole table bank, readable stripes, mask and gradient, is computed and its delta sets are sent; it commits when they are acknowledged (R98).
Where the controllers answer every read and the shadow lane finds nothing, that rests on the state alone: the group is in flight with the new
stripes that the update program gives its old ones (R103), and one set for each role. (Row: `carderGroupStart`.) -/
def Obligations.CarderComputesAReadyGroup : Prop :=
  ∀ (h : BitVec 12) (g : BitVec 27) (mem : MemAns) (faults : List UnitFault) (r : HankRt) (l : Layout) (gs : List W32) (s : State),
    let s0 := State.begun mem s
    (∀ f ∈ faults, s.hasUnit f = true) →
    s0.hank? h.toNat = some r → s0.code.layout = some l → s0.groupReady r g.toNat = true → s0.groupMoves h.toNat g.toNat = false →
    s0.whorl.badBanks.contains (g.toNat % s0.C) = false → s0.fr.eN ≤ s0.mem.epoch →
    s0.bobbinUsed (g.toNat % s0.C) + stripesPerGroup r.desc.planes r.desc.formats ≤ s0.bobbinShare →
    s0.gradient h.toNat r.desc.count g.toNat = some gs →
    (∀ (r2 : HankRt) (gs2 : List W32) (mask : Option (List Bool)),
      let s1 : State := State.countReread (fun x => x.1 == l.position && x.2.1 == h.toNat && x.2.2.1 == g.toNat) s0
      let s2 := ((s1.askGroup mem r g.toNat).takeMem mem (s1.gradBlocks h.toNat r.desc.count g.toNat)).readMask r g.toNat mem
      s2.badStripes r g.toNat = [] → s2.hank? h.toNat = some r2 → s2.groupMask r2 g.toNat = some mask →
      s2.gradient h.toNat r2.desc.count g.toNat = some gs2 →
      exec (.carderGroupStart h g mem faults) s = .next (State.finish (State.settleAll
        (State.computeGroup l r2 g.toNat (s2.zeroBadGrads h.toNat r2.desc.count g.toNat gs2) mask faults s2)))) ∧
    (∀ mask : Option (List Bool), mem = .clean → faults = [] → s0.scrub.badBlocks = [] → s0.scrub.badLines = [] →
      s0.groupMask r g.toNat = some mask → r.maskBad = [] →
      let hi := s0.hankIn r.hank r.desc.planes r.desc.formats r.desc.program (s0.viewsOf r.hank)
      let o := updateGroup hi g.toNat (elemsIn r.desc.count g.toNat) (s0.readGroup r g.toNat) gs mask
      ∃ t : State, exec (.carderGroupStart h g mem faults) s = .next (State.finish (State.settleAll t)) ∧
        ∃ gr ∈ t.card.inflight, gr.position = l.position ∧ gr.hank = r.hank ∧ gr.group = g.toNat ∧ gr.step = s0.fr.step ∧
          gr.encode = false ∧ gr.old = s0.readGroup r g.toNat ∧ gr.new = o.stripes ∧ gr.sets.length = (State.rolesOf l).length)

/-- R116: once every group of the source is committed in the step, the column-blocked view is written from the committed masters, unless a die holds
a copy of its pages (R296); its stripes count in 0x5030.0A and none of them is ungenerated. Where the controllers answer every read, that rests on
the state alone. (Row: `viewTrailingPass`.) -/
def Obligations.TrailingViewIsWritten : Prop :=
  ∀ (v : BitVec 12) (mem : MemAns) (r src : HankRt) (ws : List ViewWrite) (sat : Nat) (s : State),
    let s0 := State.begun mem s
    s0.hank? v.toNat = some r → s0.hank? r.desc.source = some src →
    s0.trailingViews.contains v.toNat = true → s0.card.trailing.contains v.toNat = false → s0.fr.opened = true → s0.fr.phase = .update →
    s0.fenced = false → s0.loss.frayed = false →
    (∀ g : Nat, g < groupsOf src.desc.count → s0.card.done.contains (s0.myPos, src.hank, g) = true) →
    (let s1 := State.askMasters mem src s0
     s1.columnView r src false = some (ws, sat) → s1.coherent (State.writePages s0.C ws) none = true →
      let s2 := State.countReread (fun x => x.1 == s0.myPos && x.2.1 == src.hank) s1
      let s3 := State.bump 0x5030 0x0A (State.viewStripes r.desc).length (State.bump 0x5030 0x0B sat (forEach ws (fun w st => st.writeView w) s2))
      exec (.viewTrailingPass v mem) s = .next (State.finish (State.settleAll (State.updHank v.toNat (fun x => { x with ungenerated := [] })
        { s3 with card := { s3.card with trailing := s3.card.trailing ++ [v.toNat] } })))) ∧
    (mem = .clean → s0.columnView r src false = some (ws, sat) → s0.coherent (State.writePages s0.C ws) none = true →
      ∃ t : State, exec (.viewTrailingPass v mem) s = .next (State.finish (State.settleAll t)) ∧
        t.card.trailing = s0.card.trailing ++ [v.toNat] ∧ (∀ x, t.hank? v.toNat = some x → x.ungenerated = []) ∧
        t.ctr 0x5030 0x0A = min Config.u64Max (s0.ctr 0x5030 0x0A + (State.viewStripes r.desc).length) ∧ t.fr = s0.fr ∧ t.code = s0.code)

/-- R137, R201: with every position of the member table confirmed and its padding at zero (R39), the sets of the groups that wait for their initial
encode are sent, in increasing group, from stripes that can be read (a group with one that cannot is left to the scrubber), and the hank's digest is
formed from the reads. (Row: `initialEncodeStart`.) -/
def Obligations.InitialEncodeIsSent : Prop :=
  ∀ (h : BitVec 12) (mem : MemAns) (r : HankRt) (l : Layout) (s : State),
    let s0 := State.begun mem s
    s0.hank? h.toNat = some r → s0.code.layout = some l → r.desc.cls = 1 → r.state = 2 → r.encodeSent = false → r.encodeWait ≠ [] →
    s0.confirmedAll = true → s0.fenced = false → s0.loss.frayed = false → s0.fr.opened = true → s0.tier.padDue.contains h.toNat = false →
    let sent (st : State) (g : Nat) : Bool := st.card.inflight.any (fun x => x.encode && x.hank == h.toNat && x.group == g)
    let todo := r.encodeWait.filter (fun g => !sent s0 g)
    let s1 := forEach todo (fun g st => State.askGroup mem r g st) s0
    let s2 := forEach todo (fun g st =>
      if (st.badStripes r g).isEmpty then st.encodeGroup l r g
      else forEach (st.badStripes r g) (fun p y => y.addRepair l.position h.toNat g p) st) s1
    let digest := (List.range (groupsOf r.desc.count)).foldl (fun a g =>
      add64 a (State.groupHash r.desc h.toNat g (s2.readGroup r g))) 0
    exec (.initialEncodeStart h mem) s = .next (State.finish (State.settleAll
      (State.updHank h.toNat (fun x => { x with digest := digest, encodeSent := todo.all (fun g => sent s2 g) }) s2)))

/-- R166, R167: a member whose adopted group is due takes up its completion: it asks the ply holders and goes on with what it has. Where the group
stands in its reserve at the step before, the state of the inputs is fixed, the lost member's context, mask and gradients are at hand, the
controllers answer every read and the shadow lane finds nothing (R381), the command itself ends the work: the group is in flight with the new
stripes that the lost owner's update program gives its old ones. (Row: `adoptedGroupComplete`.) -/
def Obligations.AdoptedGroupIsTakenUp : Prop :=
  ∀ (p : BitVec 4) (h : BitVec 12) (g : BitVec 27) (mem : MemAns) (faults : List UnitFault) (a : AdoptRt) (s : State),
    let s0 := State.begun mem s
    (∀ f ∈ faults, s.hasUnit f = true) →
    s0.adoption p.toNat h.toNat g.toNat = some a → s0.fr.opened = true → s0.fr.rcSeen = true ∨ s0.compStep a < s0.fr.step →
    a.heir = s0.myPos → s0.fenced = false → s0.loss.frayed = false → a.atStep ≠ some (s0.compStep a) →
    s0.inflight? p.toNat h.toNat g.toNat = none → s0.underRepair p.toNat h.toNat g.toNat = false →
    s0.disagrees p.toNat h.toNat g.toNat = false → s0.loss.comps = [] →
    let fresh : CompRt := { position := p.toNat, hank := h.toNat, group := g.toNat, step := s0.compStep a, plies := [], deadRoles := [],
                            stripes := [], gone := [], decoded := [], faults := faults }
    (let s1 := State.dropComp fresh s0
     exec (.adoptedGroupComplete p h g mem faults) s = .next (State.finish (State.settleAll (State.advanceComp fresh
        { s1 with loss := { s1.loss with comps := s1.loss.comps ++ [fresh] } })))) ∧
    (∀ (l : Layout) (ctx : LostCtx) (mask : Option (List Bool)) (grads : List W32), mem = .clean → faults = [] →
      s0.code.layout = some l → 0 < s0.compStep a → a.atStep = some (s0.compStep a - 1) → s0.scrub.badBlocks = [] →
      s0.mayRecompute (s0.compStep a) = true → s0.bobbinUsed (g.toNat % s0.C) + l.sOf h.toNat ≤ s0.bobbinShare →
      let v := s0.asOf (s0.compStep a)
      let d := v.lostDesc l p.toNat h.toNat
      let n := elemsIn d.count g.toNat
      s0.lostCtx p.toNat (s0.compStep a) = some ctx → s0.lostMask d p.toNat h.toNat g.toNat = some mask →
      s0.lostGrad ctx h.toNat State.gradFuel (Config.groupElems * g.toNat) n = some (grads, [], []) →
      let hi : HankIn :=
        { planes := d.planes, formats := d.formats, prog := v.program d.program, scal := v.scalars d.program,
          draw := { table := v.whorl.tables, seed := v.seedOf h.toNat 0, step := s0.compStep a }, views := v.viewsOf h.toNat }
      let old := s0.readReserve l p.toNat h.toNat g.toNat
      ∃ t : State, exec (.adoptedGroupComplete p h g mem faults) s = .next (State.finish (State.settleAll t)) ∧
        ∃ gr ∈ t.card.inflight, gr.position = p.toNat ∧ gr.hank = h.toNat ∧ gr.group = g.toNat ∧ gr.step = s0.compStep a ∧
          gr.encode = false ∧ gr.old = old ∧ gr.new = (updateGroup hi g.toNat n old grads mask).stripes)

/-- R232, R233: the audit of a step whose work is done runs once: balanced, it ends with the step's record; one that fails waits for the grace (in
whichever equality it fails, log 99), and one that still fails after it leaves the step unsealed, its failing equalities in 0x2620.03 and counted in
0x5070.02. R210: when the seal delay limit has passed since the conditions of R23 came to hold, a suspected member no longer withholds the seal:
with the quorum, and nothing else that waits, the block raises `tk_sealed` for its step. (Rows: `audit`, `auditGraceExpiry`, `sealDelayExpiry`.) -/
def Obligations.AuditAndSeal : Prop :=
  (∀ (ht : BitVec 64) (mem : MemAns) (s : State),
    let s1 := State.sampleTime ht.toNat (State.begun mem s)
    (State.begun mem s).sys.ready = true → s1.auditReady = true → s1.led.auditState = 0 →
    (s1.led.auditAt = none →
      let s2 : State := { s1 with led := { s1.led with auditAt := some s1.now } }
      exec (.audit ht mem) s = .next (State.finish (State.settleAll (if s1.auditBits = 0 then s2.auditEnd 0 else s2))) ∧
      (s1.auditBits = 0 → (s2.auditEnd 0).led.auditState = 1)) ∧
    (s1.led.auditAt.isSome = true → s1.graceDone = true → s1.auditBits ≠ 0 →
      let s2 : State := { s1 with led := { s1.led with
        block := s1.conservation, auditState := 2, failing := s1.auditBits, graceOver := true } }
      exec (.auditGraceExpiry ht mem) s = .next (State.finish (State.settleAll (State.countNote 0x5070 0x02 s1.fr.step s2))))) ∧
  (∀ (ht : BitVec 64) (mem : MemAns) (s : State), (State.begun mem s).sys.ready = true →
    let s1 := State.sampleTime ht.toNat (State.begun mem s)
    exec (.sealDelayExpiry ht mem) s = .next (State.finish (State.settleAll s1)) ∧
    (s1.settleAll = s1.trySeal → s1.sealReady = true → s1.quorum = true → s1.fr.held = none →
      s1.noteReady.anySuspected = false ∨ s1.noteReady.delayOver = true → ∃ t : State,
      exec (.sealDelayExpiry ht mem) s = .next (State.finish t) ∧ t.fr.phase = .sealed ∧ t.fr.sealedPin = true ∧
      t.fr.lastSealed = s1.fr.step ∧ t.fr.step = s1.fr.step) ∧
    ∀ u : State, u.sealReady = true → u.quorum = true → (u.noteReady.anySuspected = false ∨ u.noteReady.delayOver = true) →
      u.trySeal = State.sealStep u.noteReady)

/-- R255: once the staged table set is complete in every channel 0x2400.04 says so, and nothing else changes. R429: the bank of a channel that has
been copied again is whole; no other bank changes, and what waited for it goes on. A channel that the build lacks is no port of the block (log 16).
(Rows: `tableCopyDone`, `tableBankCopyAgainDone`.) -/
def Obligations.TableBanksAreCopied : Prop :=
  (∀ s : State, s.whorl.copyState = 1 →
    exec .tableCopyDone s = .next (State.finish { s with whorl := { s.whorl with copyState := 2 }, ans := .clean, out := [] })) ∧
  (∀ (c : BitVec 4) (mem : MemAns) (s : State),
    let s0 := State.begun mem s
    (c.toNat < s.C → exec (.tableBankCopyAgainDone c mem) s = .next (State.finish (State.settleAll
      { s0 with whorl := { s0.whorl with badBanks := s0.whorl.badBanks.filter (fun k => k != c.toNat) } }))) ∧
    (s.C ≤ c.toNat → exec (.tableBankCopyAgainDone c mem) s = .fault .noSuchPort))

/-- R146: an accepted job whose header and sources are at hand, none of them lost, unreadable or in the cellar, and whose check-value context is
free, runs at its completion. In a hank that is not paged and of which no die holds a copy, with every read answered, that rests on the state alone:
the job ends, counts in 0x5040.0E and leaves the accepted ones. (Row: `offloadJobComplete`.) -/
def Obligations.OffloadJobRuns : Prop :=
  ∀ (h slot : BitVec 12) (mem : MemAns) (r : HankRt) (j : JobRt) (s : State),
    let s0 := State.begun mem s
    s0.hank? h.toNat = some r → s0.job? h.toNat slot.toNat = some j →
    j.stage = 0 → j.want = [] → s0.offReady r (State.jobOff slot.toNat) = true →
    let hdr := readJob (s0.offRead r (State.jobOff slot.toNat) 128)
    let spans := hdr.sources.flatMap (fun b => State.offPieces (hdr.block b) hdr.len)
    let near := spans.filter (fun x => !j.got.any (fun g => g.1 == x.1))
    s0.contextBusy j hdr = false →
    (let s1 := forEach near (fun x st => State.offAsk r x.1 x.2 st) s0
     (∀ x ∈ spans, s0.offLost r x.1 = false) → (∀ x ∈ near, s0.offTier r x.1 ≠ 2) → (∀ x ∈ near, s1.offBad r x.1 x.2 = false) →
      exec (.offloadJobComplete h slot mem) s = .next (State.finish (State.settleAll (State.runJob r j hdr s1)))) ∧
    (mem = .clean → s0.paged r.desc = false → s0.tier.presence = [] → s0.scrub.badBlocks = [] →
      ∃ t : State, exec (.offloadJobComplete h slot mem) s = .next (State.finish (State.settleAll t)) ∧
        t.job? h.toNat slot.toNat = none ∧ t.ctr 0x5040 0x0E = min Config.u64Max (s0.ctr 0x5040 0x0E + 1) ∧
        t.regs = s0.regs ∧ t.hanks = s0.hanks ∧ t.fr = s0.fr ∧ t.pantry = s0.pantry)

/-! ### The porch, the streams and the memory ways (chapters 2, 9, 10, 12 and 15) -/

/-- R44 to R51, R342: a READ of a hank whose class, state, region and selector grant it, and that asks for no cached copy, fetches what it needs and
is answered beat by beat in order; transposed beats gather whole tiles. The four rows PORCH_PLAIN_READ, PORCH_TRANSPOSED_READ,
PORCH_MASKED_PLAIN_READ and PORCH_MASKED_TRANSPOSED_READ (`porchPlainRead`, `porchTransposedRead`, `porchMaskedPlainRead`,
`porchMaskedTransposedRead`) differ in their selector alone (log 59), and each completes under these conditions on the request and the state. R47,
R48, R51: one beat of a LIVE STATE hank whose planes, mask and tiles are good returns its 128 bytes, or its elements column by column, with the
mask's side band for the masked selectors, and changes no memory, hank or register. Table 12.4, R44, R57: an op code of 3 to 7, a selector of 5 to 7
(both come in on the plain row), an absent hank and every access that Table 2.7 does not grant are answered REFUSED, each item with zero data, and
count once in 0x5010.01, and in 0x5080.02 where the window's own fault is at hand; a fenced member answers FENCED. -/
def Obligations.PorchAnswersReads : Prop :=
  (∀ (q : HallReq) (mem : MemAns) (r : HankRt) (s : State),
    let s0 := State.begun mem s
    let rows : List (Instr × HallReq) :=
      [(.porchPlainRead q mem, readAs 0 q), (.porchTransposedRead q mem, readAs 1 q),
       (.porchMaskedPlainRead q mem, readAs 2 q), (.porchMaskedTransposedRead q mem, readAs 3 q)]
    ∀ x ∈ rows, (x.1 = .porchPlainRead q mem → q.op.toNat < 3 ∧ q.view.toNat < 5) → q.ch.toNat < s.C → s0.sys.ready = true →
      s0.openOn q < 256 → s0.tagOpen q = false → s0.wholeStatus x.2 .read = none → s0.hank? q.hank.toNat = some r → q.region ≠ 0x20 →
      hasRegion r.desc q.region = true → granted r.desc r.state q.region x.2.view.toNat .read = true → q.caches = false →
      let s1 := State.askRead r x.2 mem (State.countLate r.desc s0)
      ∃ r2 : HankRt, s1.hank? q.hank.toNat = some r2 ∧ r2.desc = r.desc ∧ r2.state = r.state ∧
        exec x.1 s = .next (State.finish (State.settleAll (State.serveRead r2 x.2 s1)))) ∧
  (∀ (q : HallReq) (r : HankRt) (s : State),
    let w (v : BitVec 3) : HallReq := readAs v q
    let plain := fit 128 ((s.regionBytes r 0 q.off 128).take (regionEnd r.desc 0 - q.off))
    let es := tileElems r.desc (q.off / 128)
    let gathered := fit 128 (es.flatMap (fun e => match e with
      | some x => s.regionBytes r 0 (x * 2) 2
      | none => zeros 2))
    let flat : List (Option Nat) := (List.range 64).map (fun i => if q.off / 2 + i < r.desc.count then some (q.off / 2 + i) else none)
    let rows : List (Instr × HallReq × Bytes × Nat × Bool) :=
      [(.porchPlainRead q .clean, w 0, plain, 0, decide (q.off < regionSpan r.desc 0)),
       (.porchTransposedRead q .clean, w 1, gathered, 0, decide (q.off / 128 < tileBeats r.desc)),
       (.porchMaskedPlainRead q .clean, w 2, plain, s.sideOf r flat, decide (q.off < regionSpan r.desc 0)),
       (.porchMaskedTransposedRead q .clean, w 3, gathered, s.sideOf r es, decide (q.off / 128 < tileBeats r.desc))]
    ∀ x ∈ rows, q.op.toNat < 3 → q.view.toNat < 5 → q.ch.toNat < s.C → s.sys.ready = true → s.openOn q < 256 → s.tagOpen q = false →
      s.hank? q.hank.toNat = some r → r.desc.cls = 1 → r.state = 2 → q.region = 0 → q.len = 1 → q.caches = false →
      s.wholeStatus x.2.1 .read = none → granted r.desc r.state 0 x.2.1.view.toNat .read = true → x.2.2.2.2 = true →
      s.scrub.badBlocks = [] → s.scrub.badLines = [] → s.scrub.repairs = [] → s.scrub.tiles = [] → r.maskBad = [] →
      s.errorsOf r (s.readCodes r x.2.1) = [] →
      ∃ (t : State) (asks : List Out), exec x.1 s = .next (State.finish (State.settleAll t)) ∧
        t.out = asks ++ [.hall q.ch.toNat q.way.toNat q.tag.toNat true .ok x.2.2.1 x.2.2.2.1] ∧
        t.hearth = s.hearth ∧ t.pantry = s.pantry ∧ t.nv = s.nv ∧ t.hanks = s.hanks ∧ t.regs = s.regs ∧ t.fr = s.fr) ∧
  (∀ (q : HallReq) (mem : MemAns) (s : State),
    let s0 := State.begun mem s
    let answer (q2 : HallReq) (st : HallStatus) (u : State) : Host.Outcome State Fault Refusal :=
      .next (State.finish (State.settleAll { u with
        out := u.out ++ (List.range q2.items).map (fun i =>
          Out.hall q2.ch.toNat q2.way.toNat q2.tag.toNat (i + 1 == q2.items) st (zeros 128) 0) }))
    let refused (q2 : HallReq) (op : HallOp) : Host.Outcome State Fault Refusal :=
      answer q2 .refused (State.bump 0x5010 0x01 1 (if s0.windowFault q2 op then State.bump 0x5080 0x02 1 s0 else s0))
    q.ch.toNat < s.C → s0.sys.ready = true → s0.openOn q < 256 → s0.tagOpen q = false →
    (3 ≤ q.op.toNat →
      (s0.hank? q.hank.toNat = none → exec (.porchPlainRead q mem) s = refused q .none) ∧
      (∀ r : HankRt, s0.hank? q.hank.toNat = some r →
        (s0.fencedHank r.desc = true → exec (.porchPlainRead q mem) s = answer q .fenced s0) ∧
        (s0.fencedHank r.desc = false → exec (.porchPlainRead q mem) s = refused q .none))) ∧
    (q.op.toNat < 3 → 5 ≤ q.view.toNat →
      (s0.hank? q.hank.toNat = none → exec (.porchPlainRead q mem) s = refused (readAs q.view q) .read) ∧
      (∀ r : HankRt, s0.hank? q.hank.toNat = some r →
        (s0.fencedHank r.desc = true → exec (.porchPlainRead q mem) s = answer (readAs q.view q) .fenced s0) ∧
        (s0.fencedHank r.desc = false → exec (.porchPlainRead q mem) s = refused (readAs q.view q) .read))) ∧
    (let rows : List (Instr × HallReq) :=
      [(.porchPlainRead q mem, readAs 0 q), (.porchTransposedRead q mem, readAs 1 q),
       (.porchMaskedPlainRead q mem, readAs 2 q), (.porchMaskedTransposedRead q mem, readAs 3 q)]
     ∀ x ∈ rows, (x.1 = .porchPlainRead q mem → q.op.toNat < 3 ∧ q.view.toNat < 5) →
      (s0.hank? q.hank.toNat = none → exec x.1 s = refused x.2 .read) ∧
      (∀ r : HankRt, s0.hank? q.hank.toNat = some r →
        (s0.fencedHank r.desc = true → exec x.1 s = answer x.2 .fenced s0) ∧
        (s0.fencedHank r.desc = false → s0.aliasNamed q.hank.toNat = none →
          hasRegion r.desc q.region = false ∨ granted r.desc r.state q.region x.2.view.toNat .read = false ∨ q.shapeOk = false →
          exec x.1 s = refused x.2 .read))))

/-- R41, R45, R57: a beat of a SCRATCH hank that is not paged returns its 128 bytes, zero beyond the hank's end, and charges them to its channel's
reel; a beat beyond the last stripe is POISON and counts in 0x5010.02. So a plain read of one such beat, with every read answered, ends with one OK
item that carries those bytes, and changes no memory, hank or register. -/
def Obligations.ScratchBeatReturnsItsBytes : Prop :=
  (∀ (r : HankRt) (o : Nat) (s : State), r.desc.cls = 7 → s.paged r.desc = false →
    (o < regionSpan r.desc 0 → s.scrub.badBlocks = [] →
      s.dataBeat r o = (State.chargeReel (o / Config.stripe % s.C) 128 s,
        Beat.ok ((s.spanRead (r.desc.base 0) o 128).take (r.desc.count - o)) 0)) ∧
    (regionSpan r.desc 0 ≤ o → s.dataBeat r o = (State.bump 0x5010 0x02 1 s, Beat.stop .poison))) ∧
  (∀ (q : HallReq) (r : HankRt) (s : State), q.ch.toNat < s.C → s.sys.ready = true → s.openOn q < 256 → s.tagOpen q = false → q.op = 0 →
    q.view = 0 → q.region = 0 → q.len = 1 → q.caches = false → s.hank? q.hank.toNat = some r → r.desc.cls = 7 → s.paged r.desc = false →
    s.wholeStatus (readAs 0 q) .read = none → granted r.desc r.state 0 0 .read = true → q.off < regionSpan r.desc 0 →
    s.scrub.badBlocks = [] →
    ∃ (t : State) (asks : List Out), exec (.porchPlainRead q .clean) s = .next (State.finish (State.settleAll t)) ∧
      t.out = asks ++ [.hall q.ch.toNat q.way.toNat q.tag.toNat true .ok
        (fit 128 ((s.spanRead (r.desc.base 0) q.off 128).take (r.desc.count - q.off))) 0] ∧
      t.hearth = s.hearth ∧ t.pantry = s.pantry ∧ t.nv = s.nv ∧ t.hanks = s.hanks ∧ t.regs = s.regs ∧ t.fr = s.fr)

/-- R263, R264, R268: a window read of one beat (`whorlWindowRead`) returns sixteen whorl words of the hank's seed, the open step and the stream, in
the shape the address names; it counts one beat in 0x5080.01 and sixteen words in 0x5080.08, with the clocks it waited in 0x5080.03. -/
def Obligations.WhorlWindowReturnsWords : Prop :=
  ∀ (q : HallReq) (waited : BitVec 32) (mem : MemAns) (r : HankRt) (s : State),
    let s0 := State.begun mem s
    q.ch.toNat < s.C → s0.sys.ready = true → s0.openOn q < 256 →
    s0.tagOpen q = false → s0.wholeStatus (readAs 4 q) .read = none → s0.hank? q.hank.toNat = some r → q.region = 0x20 → q.len = 1 →
    s0.whorl.badBanks = [] → s0.fr.opened = true →
    let stream := q.off / 2 ^ 21 % 65536
    let o := q.off % 2 ^ 21
    let data := (List.range 16).flatMap (fun i =>
      shapeBytes (q.off / 2 ^ 37) (whorl s0.whorl.tables (s0.seedOf q.hank.toNat 1) s0.fr.step stream (o / 8 + i)))
    let s1 := State.bump 0x5080 0x08 16 (State.bump 0x5080 0x01 1 (State.bump 0x5080 0x03 waited.toNat s0))
    exec (.whorlWindowRead q waited mem) s = .next (State.finish (State.settleAll (State.emit
      (.hall q.ch.toNat q.way.toNat q.tag.toNat true .ok (fit 128 data) 0)
      (State.chargeWindow ((stream * 512 + o / Config.stripe) % s0.C) 128 s1))))

/-- R39, R44, R296: a one-beat WRITE (`porchWrite`) to a SCRATCH hank that is not paged and of which no die holds a copy stores the enabled bytes at
the beat's place in the hearth, zero beyond the hank's end, and is answered OK. Every other byte of the hearth, and the pantry, the journal window,
every register, counter and hank, stay as they were. -/
def Obligations.PorchWriteStoresItsBeat : Prop :=
  ∀ (q : HallReq) (w : WBeat) (mem : MemAns) (r : HankRt) (s : State),
    let s0 := State.begun mem s
    Memory.wf s0.hearth → q.ch.toNat < s.C → s0.sys.ready = true → s0.openOn q < 256 →
    s0.tagOpen q = false → s0.wholeStatus { q with op := 1 } .write = none → s0.hank? q.hank.toNat = some r → r.desc.cls = 7 →
    s0.paged r.desc = false → s0.tier.presence = [] → q.len = 1 → q.region = 0 → q.off % 128 = 0 → q.off < regionSpan r.desc 0 →
    let key := stripeKey s0.C (r.desc.base 0) (q.off / Config.stripe) + q.off % Config.stripe
    let bytes := writtenBytes (regionEnd r.desc 0) q.off 255 w (s0.spanRead (r.desc.base 0) q.off 128)
    ∃ (t : State) (tells : List Out), exec (.porchWrite q [w] mem) s = .next (State.finish (State.settleAll (State.landingPass t))) ∧
      t.out = tells ++ [.hall q.ch.toNat q.way.toNat q.tag.toNat true .ok (zeros 128) 0] ∧
      (∀ i : Nat, i < 128 → Memory.get t.hearth (key + i) = bytes.getD i 0) ∧
      (∀ a : Nat, a < key ∨ key + 128 ≤ a → Memory.get t.hearth a = Memory.get s0.hearth a) ∧
      t.pantry = s0.pantry ∧ t.nv = s0.nv ∧ t.regs = s0.regs ∧ t.counters = s0.counters ∧ t.hanks = s0.hanks ∧ t.fr = s0.fr

/-- R291 to R293, R340: an ATOMIC (`porchAtomic`) on a LIVE SHARED hank that is not paged, in the right form, reads the word (which the controllers
can read), writes the value of Table 10.8 and returns the old value in the word's lanes; it counts in 0x5090.0F, and a FADD of the framed job marks
the step's record. -/
def Obligations.PorchAtomicReadsAndModifies : Prop :=
  ∀ (q : HallReq) (w : WBeat) (mem : MemAns) (r : HankRt) (op : State.AtomicOp) (v : Nat) (s : State),
    let s0 := State.begun mem s
    q.ch.toNat < s.C → s0.sys.ready = true →
    s0.openOn q < 256 → s0.tagOpen q = false → s0.hank? q.hank.toNat = some r → s0.fencedHank r.desc = false →
    State.porchAtomicOp { q with op := 2 } w = some op → State.atomicOk r op = true → r.state = 2 → s0.paged r.desc = false →
    s0.tier.presence = [] → op.off < regionSpan r.desc 0 → s0.scrub.badBlocks = [] →
    let blocks := s0.regionBlocks r 0 (op.off / 128 * 128) 128
    let old := leNat (s0.spanRead (r.desc.base 0) op.off op.width)
    (∀ b ∈ blocks, b ∉ mem.bad) → atomicNew op.code op.width r.desc.unordered old op.a op.b = some v →
    let s1 := State.spanWrite (r.desc.base 0) op.off (toLE op.width v) (State.takeMem mem blocks s0)
    let s2 : State := { s1 with led := { s1.led with fadd := s1.led.fadd || (decide (op.code = 7) && s0.framedHank r) } }
    exec (.porchAtomic q w mem) s = .next (State.finish (State.settleAll (State.respond { q with op := 2 }
      [Beat.ok (zeros (op.off % 128) ++ toLE op.width old) 0] (State.bump 0x5090 0x0F 1 s2))))

/-- R346, R296: an acknowledgement (`invalidationAck`) closes the die's oldest open invalidation of the channel and clears its bit in the page's
presence entry; one that matches none counts in 0x50C0.0A. One that is overdue (`invalidationOverdue`) counts in 0x5090.0E, with an event that names
hank and page, and stays open. -/
def Obligations.InvalidationsAreClosed : Prop :=
  ∀ (c : BitVec 4) (d : BitVec 2) (mem : MemAns) (s : State), c.toNat < s.C →
    let s0 := State.begun mem s
    (∀ e, s0.sys.lzReset = false → s0.tier.invOpen.find? (fun x => x.1 == c.toNat && x.2.1 == d.toNat) = some e →
      let k : PageKey := { hank := e.2.2.1, region := e.2.2.2.1, channel := c.toNat, page := e.2.2.2.2 }
      exec (.invalidationAck c d mem) s = .next (State.finish (State.settleAll (State.setDies k (clearBit (s0.dies k) d.toNat)
        { s0 with tier := { s0.tier with invOpen := s0.tier.invOpen.erase e } })))) ∧
    (s0.sys.lzReset = false → s0.tier.invOpen.find? (fun x => x.1 == c.toNat && x.2.1 == d.toNat) = none →
      exec (.invalidationAck c d mem) s = .next (State.finish (State.settleAll (State.bump 0x50C0 0x0A 1 s0)))) ∧
    (∀ e, s.tier.invOpen.find? (fun x => x.1 == c.toNat && x.2.1 == d.toNat) = some e →
      exec (.invalidationOverdue c d) s = .next (State.finish
        (State.countNote 0x5090 0x0E (State.hankDetail e.2.2.1 e.2.2.2.2) (State.begin .clean s))))

/-- R348, R349: the response (`memoryResponse`) to an open write of a repair or a move closes it, lets the writes that waited for it go, and lets
its owner go on; an item of a read counts a corrected block in 0x50C0.03, an uncorrectable one in 0x50C0.02, which stays known as such, and an item
that is not the last keeps the request open for the next block. A tag that is not open is discarded and counted in 0x50C0.08. A write that is not
performed (status 3) is issued once more, whoever owns it; where that fails too its blocks stand as uncorrectable and an event names the address. A
read-back that differs from what was written fails the repair (R435). R350: a report (`controllerErrorReport`) of kind 0 or 3 is ignored; a
corrected error counts in 0x50C0.04; an uncorrectable one outside Lomaz's regions counts there and changes no memory, and one inside them is handled
as an uncorrectable read of its block. -/
def Obligations.MemoryWaysAreMatched : Prop :=
  (∀ (c w : BitVec 4) (tag : BitVec 10) (last : Bool) (st : BitVec 2) (data : BitVec 1024) (mem : MemAns) (s : State), c.toNat < s.C →
    let s0 := State.begun mem s
    s0.sys.lzReset = false →
    let isIt (m : MemReq) : Bool := m.ch == c.toNat && m.way == w.toNat && m.tag == tag.toNat
    let ends (u : State) : Prop := exec (.memoryResponse c w tag last st data mem) s = .next (State.finish (State.settleAll u))
    (s0.scrub.memOpen.find? isIt = none → ends (State.bump 0x50C0 0x08 1 s0)) ∧
    (∀ m, s0.scrub.memOpen.find? isIt = some m → m.write = true →
      let key := State.hearthKey m.ch m.addr
      let s1 : State := { s0 with scrub := { s0.scrub with memOpen := s0.scrub.memOpen.erase m } }
      (m.again = false → st = 3 → ends (State.memRequest m.ch m.way m.addr 32 (s1.hearthRead key 4096) true m.owner s1)) ∧
      (st ≠ 3 ∨ m.again = true →
        let s2 := s1.tellLater
        let s3 := if st = 3 then State.note 0x50C0 0x02 key (State.addBad (State.stripeBlocks key) s2) else s2
        (m.owner = [] → ends s3) ∧
        (∀ (h ch p : Nat) (more : List Nat), m.owner = 0 :: h :: ch :: p :: more → ends (State.moveWritten h ch p s3)) ∧
        (m.owner.head? = some 1 → ends (State.repairAnswer m.owner true (st == 3) s3)) ∧
        (m.owner.head? = some 3 → ends (State.homeTurn m.owner true true (st == 3) false key s3)))) ∧
    (∀ m, s0.scrub.memOpen.find? isIt = some m → m.write = false →
      let key := State.hearthKey m.ch m.addr
      let bad : Bool := decide (2 ≤ st.toNat)
      let fin : Bool := last || decide (m.left ≤ 1)
      let s1 := if st = 1 then State.countCorrected 1 (State.bump 0x50C0 0x03 1 s0)
        else if bad then State.addBad [key / 128] (State.countBad 1 (State.bump 0x50C0 0x02 1 s0)) else s0
      let s2 := State.setMemOpen (if fin then s0.scrub.memOpen.erase m
        else mapIf (fun x => x == m) (fun x => { x with left := x.left - 1, addr := x.addr + 128 }) s0.scrub.memOpen) s1
      (m.owner = [] → ends s2) ∧
      (∀ (h ch p i : Nat) (more : List Nat), m.owner = 0 :: h :: ch :: p :: i :: more →
        (bad = true → ends (State.moveBadRead h ch p s2)) ∧ (bad = false → fin = true → ends (State.moveRead h ch p i none s2)) ∧
        (bad = false → fin = false → ends s2)) ∧
      (m.owner.head? = some 1 → ends (State.repairAnswer m.owner fin
        (bad || s2.differs m.owner (m.addr % 4096) (toLE 128 data.toNat)) s2)) ∧
      (m.owner.head? = some 3 → ends (State.homeTurn m.owner false fin bad false key s2)) ∧
      (st = 1 → s2.ctr 0x50C0 0x03 = min Config.u64Max (s0.ctr 0x50C0 0x03 + 1)) ∧
      (bad = true → s2.ctr 0x50C0 0x02 = min Config.u64Max (s0.ctr 0x50C0 0x02 + 1) ∧ key / 128 ∈ s2.scrub.badBlocks) ∧
      s2.hearth = s0.hearth)) ∧
  (∀ (c : BitVec 4) (a : BitVec 38) (k : BitVec 2) (mem : MemAns) (s : State), c.toNat < s.C →
    let s0 := State.begun mem s
    s0.sys.lzReset = false →
    let ends (u : State) : Prop := exec (.controllerErrorReport c a k mem) s = .next (State.finish (State.settleAll u))
    let s1 := State.bump 0x50C0 0x04 1 s0
    (k = 0 ∨ k = 3 → ends s0) ∧
    (k = 1 → ends (State.countCorrected 1 s1)) ∧
    (k = 2 → s0.inRegions c.toNat a.toNat = false → ends (State.countBad 1 s1)) ∧
    (k = 2 → s0.inRegions c.toNat a.toNat = true →
      let key := State.hearthKey c.toNat (a.toNat / 128 * 128)
      ends (State.actBad false key (State.addBad [key / 128] (State.bump 0x50C0 0x02 1 (State.countBad 1 s1))))))

/-- R352: a response (`pantryResponse`) to an open pantry request closes it and lets the writes that waited for it go; a failed read counts in
0x5090.0A and 0x50C0.02 and leaves its line bad; a write that fails once is issued again, whoever owns it; one that has been issued again and fails
leaves its line bad, with an event that names the address. A tag that is not open counts in 0x50C0.08. A request open beyond 0x1130.04
(`pantryRequestOverdue`) counts in 0x50C0.0B. R435, R436, Table 2.10: when the scrubber takes up its repairs (`stripeRepairStart`), mask copies that
are unreadable are rewritten from the good copy and up to 16 repairs run at once, the queued ones in the order they came. -/
def Obligations.PantryAndRepairsGoOn : Prop :=
  (∀ (w : BitVec 2) (tag : BitVec 12) (st : BitVec 2) (data : BitVec 512) (mem : MemAns) (s : State),
    let s0 := State.begun mem s
    s0.sys.lzReset = false →
    let isIt (x : PantryReq) : Bool := x.way == w.toNat && x.tag == tag.toNat
    let ends (u : State) : Prop := exec (.pantryResponse w tag st data mem) s = .next (State.finish (State.settleAll u))
    (s0.scrub.pantryOpen.find? isIt = none → ends (State.bump 0x50C0 0x08 1 s0)) ∧
    (∀ m, s0.scrub.pantryOpen.find? isIt = some m → m.write = true →
      let erased : State := { s0 with scrub := { s0.scrub with pantryOpen := s0.scrub.pantryOpen.erase m } }
      let s1 := State.closePantry m s0
      let lost := State.note 0x50C0 0x02 (64 * m.line) (State.addBadLines [m.line] s1)
      (st = 0 → (m.owner = [] → ends s1) ∧ (m.owner.head? = some 1 → ends (State.repairAnswer m.owner true false s1)) ∧
        (∀ (h ch p : Nat) (more : List Nat), m.owner = 0 :: h :: ch :: p :: more → ends (State.moveWritten h ch p s1)) ∧
        (m.owner.head? = some 3 → ends (State.homeTurn m.owner true true false true (64 * m.line) s1))) ∧
      (st ≠ 0 → m.owner.length = 5 → m.owner.head? ≠ some 9 → ends (State.pantryRequest m.line (erased.pantryRead (64 * m.line) 64)
        (m.owner ++ [1]) erased)) ∧
      (st ≠ 0 → m.owner = [9] → ends (State.pantryRequest m.line (erased.pantryRead (64 * m.line) 64) [9, 9] erased)) ∧
      (st ≠ 0 → m.owner = [9, 9] → ends lost) ∧
      (st ≠ 0 → m.owner.length = 6 →
        (m.owner.head? = some 1 → ends (State.repairAnswer m.owner true true lost)) ∧
        (∀ (h ch p : Nat) (more : List Nat), m.owner = 0 :: h :: ch :: p :: more → ends (State.moveWritten h ch p lost)) ∧
        (m.owner.head? = some 3 → ends (State.homeTurn m.owner true true true true (64 * m.line) lost)))) ∧
    (∀ m, s0.scrub.pantryOpen.find? isIt = some m → m.write = false →
      let bad : Bool := decide (st ≠ 0)
      let s1 := State.closePantry m s0
      let s2 := if bad then State.addBadLines [m.line] (State.countBad 1 (State.bump 0x50C0 0x02 1 (State.bump 0x5090 0x0A 1 s1))) else s1
      (m.owner = [] → ends s2) ∧
      (∀ (h ch p i : Nat) (more : List Nat), m.owner = 0 :: h :: ch :: p :: i :: more →
        ends (if bad then State.moveBadRead h ch p s2 else State.moveRead h ch p i none s2)) ∧
      (m.owner.head? = some 1 → ends (State.repairAnswer m.owner true
        (bad || s2.differs m.owner (64 * m.line % 4096) (toLE 64 data.toNat)) s2)) ∧
      (m.owner.head? = some 3 → ends (State.homeTurn m.owner false true bad true (64 * m.line) s2)) ∧
      (bad = true → s2.ctr 0x50C0 0x02 = min Config.u64Max (s0.ctr 0x50C0 0x02 + 1) ∧ m.line ∈ s2.scrub.badLines))) ∧
  (∀ (w : BitVec 2) (tag : BitVec 12) (s : State),
    let isOpen : Bool := s.scrub.pantryOpen.any (fun x => x.way == w.toNat && x.tag == tag.toNat)
    exec (.pantryRequestOverdue w tag) s = .next (State.finish
      (if isOpen then { State.bump 0x50C0 0x0B 1 s with ans := .clean, out := [] } else { s with ans := .clean, out := [] }))) ∧
  (∀ (mem : MemAns) (s : State),
    let s0 := State.begun mem s
    let s1 := forEach s0.badMasks (fun x st => st.mendMask x.1 x.2) s0
    exec (.stripeRepairStart mem) s = .next (State.finish (State.settleAll (forEach
      ((s1.scrub.repairs.filter (fun r => r.state == 0)).take (16 - s1.repairsRunning)) (fun r st => st.repairBegin r) s1))))

/-- R430, R426: the internal patrol (`internalPatrolRead`) reads the next row of every bank, then the spares in use, in one order that only moves
on, and a pass ends behind the last spare (log 53); each row read counts in 0x50C0.0E and leaves its merge buffer. A row found corrected counts in
0x50C0.0C and may enter the watch list. R431: with a patrol rate of 0 the patrol of the hearth (`hearthPatrolRead`) is off; else it reads the next
block of the channel, and with channel 0 the next line of the pantry (log 52). R427: a merge buffer that has been idle (`mergeBufferIdle`) writes
its row back and holds none; the other banks' buffers keep theirs. -/
def Obligations.PatrolsReadRows : Prop :=
  (∀ (found : List (BitVec 16 × RowRead)) (mem : MemAns) (s : State),
    let s0 := State.begun mem s
    s0.sys.ready = true →
    let p := s0.scrub.patrolRows
    let banks := List.range s0.straps.build.banks ++ (List.range 23).map (fun i => 256 + i)
    let rows : List (Nat × Nat) :=
      if p < 4096 then banks.map (fun b => (b, p)) else banks.filterMap (fun b => (s0.spareRow b (p - 4096)).map (fun r => (b, r)))
    let s1 := State.bump 0x50C0 0x0E rows.length { s0 with scrub := { s0.scrub with
      merge := s0.scrub.merge.filter (fun m => !rows.contains m)
      passes := if p = 4097 then s0.scrub.passes + 1 else s0.scrub.passes
      patrolRows := if p = 4097 then 0 else p + 1 } }
    let at_ (x : Nat × Nat) : Option RowRead := (found.find? (fun f => f.1.toNat == x.1)).map (fun f => f.2)
    exec (.internalPatrolRead found mem) s = .next (State.finish (State.settleAll
      (forEach rows (fun x st => match at_ x with
        | some f => State.rowFound true x.1 x.2 f st
        | none => st) s1))) ∧
    (found = [] → exec (.internalPatrolRead found mem) s = .next (State.finish (State.settleAll s1))) ∧
    (∀ (bank row : Nat) (u : State), State.rowFound true bank row .corrected u =
      State.corrected bank row (State.countCorrected 1 (State.bump 0x50C0 0x0C 1 u)))) ∧
  (∀ (c : BitVec 4) (mem : MemAns) (s : State), c.toNat < s.C →
    let s0 := State.begun mem s
    s0.sys.ready = true →
    (s0.reg 0x3090 0x04 = 0 → exec (.hearthPatrolRead c mem) s = .next (State.finish (State.settleAll s0))) ∧
    (s0.reg 0x3090 0x04 ≠ 0 → exec (.hearthPatrolRead c mem) s = .next (State.finish (State.settleAll
      (if c.toNat = 0 then State.patrolPantry mem (State.patrolHearth 0 mem s0) else State.patrolHearth c.toNat mem s0))))) ∧
  (∀ (bank : BitVec 16) (s : State), s.hasRow bank.toNat 0 = true →
    exec (.mergeBufferIdle bank) s = .next (State.finish
      { s with scrub := { s.scrub with merge := s.scrub.merge.filter (fun m => m.1 != bank.toNat) }, ans := .clean, out := [] }))

/-! ### The fabric and the membership (chapters 3, 5, 6, 7, 10, 11 and 13) -/

/-- R313, Table 11.6: a message that fails a check of orders 1 to 8 is discarded with the counter of the first check it fails, and does nothing else
but return its credits, leave its check value in the context that it held and count as taken in. Before `lz_ready` it is discarded under order 2
(R335; the model's reading, log 15). R326: a request whose context is taken by one on its way out waits at its way (log 159). One that fails no
check is taken in, and its row has its own effect: so every row of a message completes, under the conditions on the state and the command that
`Admits` names alone: `wcomp`, `rdata`, `fabricAtomic`, `deltaSet`, `deltaAck`, `mirrorPiece`, `mirrorAck`, `reRequest`, `reRequestAnswer`,
`plyRead`, `stripeRead`, `readAnswer`, `fillSet`, `fillAck`, `adoptionReport`, `reportAck`, `hello`, `heartbeat`, `vote`, `epochRequest`,
`epochRecord`, `vacate`, `vacateAck`, `recoded`, `recordNotice`, `ocperRead`, `ocperWrite`, `ocperBlockRead`, `ocperBlockWriteSegment` and
`ocperBlockApply`. -/
def Obligations.MessagesAreChecked : Prop :=
  (∀ (c : Instr) (typ : Nat) (h : RxHdr) (body : Bytes) (s : State), messageOf c = some (typ, h, body) → portExists c s = true →
    s.sys.lzReset = false →
    let s0 := arrival c s
    let s1 := State.arrive typ h body s0
    let cls := (msgClass typ).getD 2
    let ctx := s1.recvOf h.source.toNat cls
    let behind : Bool := match ctx with
      | some x => ahead 16 x.incarnation h.incarnation.toNat
      | none => false
    let window := State.windowStep ctx h.source.toNat cls h.incarnation.toNat h.alive.toNat (cls == 2 && bit h.flags.toNat 0)
    let whole : Bool := crc32c (State.rxBytes typ h body) == h.trailer.toNat
    let jobOk : Bool := s1.knowsJob h.job.toNat || (h.job == 0 && typ == 0x38)
    let after1 : Bool := s1.sys.ready && whole
    let after2 : Bool := after1 && !s1.malformed typ h body
    let after3 : Bool := after2 && jobOk
    let after4 : Bool := after3 && !s1.authBad typ h body
    let after5 : Bool := after4 && !behind
    let after6 : Bool := after5 && (cls == 2 || s1.pins.contains (h.source.toNat, cls))
    let after7 : Bool := after6 && window.isSome
    (s0.rxWaits typ h body = true → exec c s = .next (State.finish
      { s0 with fx := { s0.fx with rxHeld := s0.fx.rxHeld ++ [{ typ := typ, hdr := h, body := body }] } })) ∧
    (s0.rxWaits typ h body = false →
      (s1.sys.ready = false → exec c s = .next (State.finish (State.bump 0x50A0 0x02 1 s1))) ∧
      (s1.sys.ready = true → whole = false → exec c s = .next (State.finish (State.bump 0x50A0 0x01 1 s1.noteTrailer))) ∧
      (after1 = true → s1.malformed typ h body = true → exec c s = .next (State.finish (State.bump 0x50A0 0x02 1 s1))) ∧
      (after2 = true → jobOk = false → exec c s = .next (State.finish (State.bump 0x5060 0x03 1 s1))) ∧
      (after3 = true → s1.authBad typ h body = true → exec c s = .next (State.finish s1.authFailure)) ∧
      (after4 = true → behind = true → exec c s = .next (State.finish (State.bump 0x50A0 0x04 1 s1))) ∧
      (after5 = true → cls ≠ 2 → s1.pins.contains (h.source.toNat, cls) = false →
        exec c s = .next (State.finish (State.bump 0x50A0 0x05 1 s1))) ∧
      (after6 = true → window = none → exec c s = .next (State.finish (State.bump 0x50A0 0x06 1 s1))) ∧
      (after7 = true → cls = 1 → s1.openReq h.request.toNat = none →
        exec c s = .next (State.finish (State.bump 0x50A0 0x07 1 s1))) ∧
      (after7 = true → cls ≠ 1 ∨ (s1.openReq h.request.toNat).isSome = true → Admits c s))) ∧
  (∀ (h : RxHdr) (b : Bytes) (q : OcperReq) (ht : BitVec 64) (mem : MemAns) (s : State),
    let rows : List (Instr × (HeldMsg → State → State)) :=
      [(.wcomp h b ht mem, State.onWcomp), (.rdata h b mem, State.onRdata), (.fabricAtomic h b mem, State.fabricAtomic),
       (.deltaSet h b [] mem, fun m => State.onDeltaSet m none), (.deltaAck h b mem, State.onDeltaAck),
       (.mirrorPiece h b mem, State.onMirrorPiece), (.mirrorAck h b mem, State.onMirrorAck), (.reRequest h b mem, State.onReRequest),
       (.reRequestAnswer h b mem, State.onReAnswer), (.plyRead h b mem, State.onPlyRead), (.stripeRead h b mem, State.onStripeRead),
       (.readAnswer h b mem, State.readAnswer), (.fillSet h b mem, State.onFillSet), (.fillAck h b mem, State.onFillAck),
       (.adoptionReport h b mem, State.onReport), (.reportAck h b mem, State.onReportAck), (.hello h b mem, State.onHello),
       (.heartbeat h b mem, State.onHeartbeat), (.vote h b mem, State.onVote), (.epochRequest h b mem, State.onEpochRequest),
       (.epochRecord h b mem, State.onEpochRecord), (.vacate h b mem, State.onVacate), (.vacateAck h b mem, State.onVacateAck),
       (.recoded h b mem, State.onRecoded), (.recordNotice h b mem, State.onNotice), (.ocperRead h q mem, State.onOcper),
       (.ocperWrite h q mem, State.onOcper), (.ocperBlockRead h q mem, State.onOcper), (.ocperBlockWriteSegment h q mem, State.onOcper),
       (.ocperBlockApply h q mem, State.onOcper)]
    ∀ x ∈ rows, Admits x.1 s → exec x.1 s = .next (State.finish (State.settleAll (x.2 (messageIn x.1) (takenIn x.1 s)))))

/-- R135, Table 5.5: a set (`deltaSet`) that is taken in and is of an earlier epoch or step, or of no member of the epoch (R159), is counted in
0x5040.04 and dropped; one of a later epoch or step is held and counted in 0x5040.06; the one exception is the set of the step before for a lost
owner's group from the heir that completes it (`State.carried`, log 25), which is handled as one of the open step. A fenced member answers code 3;
one that has not the row, or a set of the wrong heir, code 2; a set whose ply moves or is recomputed is held. A set that passes orders 3 to 8 is
applied to the ply of its role with its tag and acknowledged with code 0, or code 1 where its tag is there already. R381: the unit faults that the
spindles' samples find are treated when a set is applied. -/
def Obligations.SetsAreAppliedOnce : Prop :=
  ∀ (h : RxHdr) (body : Bytes) (faults : List UnitFault) (mem : MemAns) (s : State), (∀ f ∈ faults, s.hasUnit f = true) →
    Admits (.deltaSet h body faults mem) s →
    let m := messageIn (.deltaSet h body faults mem)
    let t := takenIn (.deltaSet h body faults mem) s
    let ends (u : State) : Prop := exec (.deltaSet h body faults mem) s = .next (State.finish (State.settleAll u))
    let hank := fld 0 2 m.body
    let role := fld 2 1 m.body
    let slot := fld 3 1 m.body
    let g := fld 8 4 m.body
    let lap := fld 12 4 m.body
    let turnedAway (code : Nat) (u : State) : Prop := ends (State.ackTo m code (State.bump 0x5040 0x05 1 u))
    (t.isMember m.source = false → ends (State.bump 0x5040 0x04 1 t)) ∧
    (t.isMember m.source = true →
      (m.epoch < t.mem.epoch → ends (State.bump 0x5040 0x04 1 t)) ∧
      (m.epoch = t.mem.epoch → m.step < t.fr.step → t.carried m = false → ends (State.bump 0x5040 0x04 1 t)) ∧
      (t.mem.epoch < m.epoch → t.fr.step ≤ m.step ∨ t.carried m = true → ends (State.holdSet 0 m (State.bump 0x5040 0x06 1 t))) ∧
      (m.epoch = t.mem.epoch → t.fr.step < m.step → ends (State.holdSet 0 m (State.bump 0x5040 0x06 1 t))) ∧
      (∀ l : Layout, m.epoch = t.mem.epoch → m.step = t.fr.step ∨ (m.step < t.fr.step ∧ t.carried m = true) → t.code.layout = some l →
        (t.fenced = true ∨ t.loss.frayed = true → turnedAway 3 t) ∧
        (t.fenced = false → t.loss.frayed = false →
        ((∀ r, t.hank? hank = some r → r.desc.cls = 1 → r.state ≠ 2) ∨ fld 4 1 m.body ≠ l.sOf hank ∨ l.m ≤ role ∨
          t.setOwner l m.source hank role slot g lap = none → turnedAway 2 t) ∧
        ((∃ r, t.hank? hank = some r ∧ r.desc.cls = 1 ∧ r.state = 2) → fld 4 1 m.body = l.sOf hank → role < l.m →
        ∀ j : Nat, t.setOwner l m.source hank role slot g lap = some j →
          (t.rightSource j m.source hank g = false → turnedAway 2 (State.bump 0x5050 0x15 1 t)) ∧
          (t.rightSource j m.source hank g = true →
          ((∃ i : Nat, i < l.sOf hank ∧ t.plyMoves l hank (lap + i) = true) → ends (State.holdSet 2 m (State.bump 0x5090 0x0D 1 t))) ∧
          ((∀ i : Nat, i < l.sOf hank → t.plyMoves l hank (lap + i) = false) →
          let p := State.groupPlace l j hank g
          let tag := t.tag hank p.band p.residue role slot
          (tag = 1 → ends (State.holdSet 1 m (State.bump 0x5040 0x12 1 t))) ∧
          (bit (fld 6 1 m.body) 0 = true → 2 ≤ tag → tag < 4 → ends (State.ackTo m 1 (State.bump 0x5040 0x03 1 t))) ∧
          (bit (fld 6 1 m.body) 0 = true → tag = 0 → t.bandEmpty hank p.band p.residue role = true →
            ends (forEach faults (fun f z => z.unitFault f) (State.ackTo m 0 (State.bump 0x5040 0x0D 1
              (State.applySet l hank p.band p.residue role slot lap (fld 5 1 m.body) (pieces Config.stripe (m.body.drop 16)) (m.step + 1)
                t))))) ∧
          (bit (fld 6 1 m.body) 0 = false →
          (tag = 0 → turnedAway 2 t) ∧
          (2 ≤ tag → tag = State.tagOf m.step → ends (State.ackTo m 1 (State.bump 0x5040 0x03 1 t))) ∧
          (2 ≤ tag → tag < 4 → tag ≠ State.tagOf m.step → t.bandEmpty hank p.band p.residue role = false →
            let t1 := forEach ((List.range (l.sOf hank)).filter (fun i => !bit (fld 5 1 m.body) i))
              (fun i st => st.askPlyStripe l hank (lap + i) p.residue role) t
            (∀ i : Nat, i < l.sOf hank → t1.plyBad l hank (lap + i) p.residue role = false) →
            ends (forEach faults (fun f z => z.unitFault f) (State.ackTo m 0 (State.bump 0x5040 0x02 1
              (State.applySet l hank p.band p.residue role slot lap (fld 5 1 m.body) (pieces Config.stripe (m.body.drop 16)) m.step
                t1))))))))))))

/-- R98, R135: an acknowledgement (`deltaAck`) that is taken in, with code 0 or 1, and repeats its set's hank, role and group frees the request's
entry and marks the set, and the group commits with its last one; code 2 or 3 is noted as an event, which holds the code (log 161), and leaves the
set unacknowledged; one that repeats other values does nothing. -/
def Obligations.AcknowledgementsCommit : Prop :=
  ∀ (h : RxHdr) (body : Bytes) (mem : MemAns) (r : ReqRt) (s : State), Admits (.deltaAck h body mem) s →
    let m := messageIn (.deltaAck h body mem)
    let t := takenIn (.deltaAck h body mem) s
    let ends (u : State) : Prop := exec (.deltaAck h body mem) s = .next (State.finish (State.settleAll u))
    t.openReq m.request = some r →
    let right : Bool := r.typ == 0x10 && fld 0 2 m.body == fld 0 2 r.body && fld 2 1 m.body == fld 2 1 r.body && fld 4 4 m.body == fld 8 4 r.body
    (right = false → ends t) ∧
    (right = true → 2 ≤ fld 3 1 m.body → ends (State.note 0x5040 0x05
      (State.hankDetail (fld 0 2 r.body) (fld 3 1 m.body * 2 ^ 32 + fld 8 4 r.body)) t)) ∧
    (right = true → fld 3 1 m.body < 2 → ∀ gr : GroupRt,
      t.card.inflight.find? (fun x => State.setKey x (natAt r.key 2) == r.key) = some gr →
      ends (State.ackSet gr (natAt r.key 2) (State.freeReq r.engine r.entry t)))

/-- R84: a mirror piece (`mirrorPiece`) that is taken in, of the open step within the area of a contributor, is stored at its place in the mirror,
remembered and acknowledged with status 0; any other is counted in 0x5020.0C and acknowledged with status 1. An acknowledgement (`mirrorAck`) frees
its entry. R86, R162: a re-request (`reRequest`) that names no lost site of this member's is answered from what the block holds (of another step
than the open one, or while fenced, with no more than that); one that names a lost site of this member's is served from its inputs, and one for the
site of a position whose notice has not come waits for it (log 195). An answer (`reRequestAnswer`) with status 0 and the length asked for is kept as
the input of the completions that wait, one of another length is asked for again, and one with another status ends the wait for it. -/
def Obligations.LandingMessagesAreServed : Prop :=
  ∀ (h : RxHdr) (body : Bytes) (mem : MemAns) (s : State),
    let ends (c : Instr) (u : State) : Prop := exec c s = .next (State.finish (State.settleAll u))
    (Admits (.mirrorPiece h body mem) s →
      let m := messageIn (.mirrorPiece h body mem)
      let t := takenIn (.mirrorPiece h body mem) s
      ∀ (j : Nat) (bm : BucketMap), t.senderPos m.source = some j → t.bucketMap = some bm →
      let q := fld 8 4 m.body
      let data := m.body.drop 32
      let fits : Bool := decide (q < bm.mirrorArea) && m.step == t.fr.step && t.fr.opened && !t.fenced
      let t1 := State.spanWrite (t.regionBase bm.mirrorHank) ((j * bm.mirrorArea + q) * 4096) data t
      let piece : MirrorRt := { sender := j, seq := q, site := fld 0 1 m.body, piece := fld 4 4 m.body, length := data.length,
                                count := fld 16 8 m.body, dropped := fld 24 8 m.body }
      (fits = true → ends (.mirrorPiece h body mem) (State.reply m 0x13 (State.mirrorAckBody m.body 0)
        (State.bump 0x5020 0x12 1 { t1 with land := { t1.land with
          mirrors := t1.land.mirrors.filter (fun x => !(x.sender == j && x.seq == q)) ++ [piece] } }))) ∧
      (fits = false → ends (.mirrorPiece h body mem) (State.reply m 0x13 (State.mirrorAckBody m.body 1) (State.bump 0x5020 0x0C 1 t)))) ∧
    (Admits (.mirrorPiece h body mem) s →
      let m := messageIn (.mirrorPiece h body mem)
      let t := takenIn (.mirrorPiece h body mem) s
      t.senderPos m.source = none ∨ t.bucketMap = none →
        ends (.mirrorPiece h body mem) (State.reply m 0x13 (State.mirrorAckBody m.body 1) (State.bump 0x5020 0x0C 1 t))) ∧
    (Admits (.mirrorAck h body mem) s →
      let m := messageIn (.mirrorAck h body mem)
      let t := takenIn (.mirrorAck h body mem) s
      ∀ r : ReqRt, t.openReq m.request = some r → ends (.mirrorAck h body mem) (State.freeReq r.engine r.entry t)) ∧
    (Admits (.reRequest h body mem) s →
      let m := messageIn (.reRequest h body mem)
      let t := takenIn (.reRequest h body mem) s
      (m.step ≠ t.fr.step ∨ t.fr.opened = false ∨ t.fenced = true ∨ (t.lostSiteOf m = none ∧ t.maySiteOf m = false) →
        ends (.reRequest h body mem) (State.sendReAnswer m (t.reAnswer m) t)) ∧
      (m.step = t.fr.step → t.fr.opened = true → t.fenced = false →
        (∀ (c : LostCtx) (x : Site) (o : Outbox), t.lostSiteOf m = some (c, x, o) → ends (.reRequest h body mem) (State.serveLost m c x o t)) ∧
        (t.lostSiteOf m = none → t.maySiteOf m = true →
          ends (.reRequest h body mem) { t with loss := { t.loss with heldOut := t.loss.heldOut ++ [m] } }))) ∧
    (Admits (.reRequestAnswer h body mem) s →
      let m := messageIn (.reRequestAnswer h body mem)
      let t := takenIn (.reRequestAnswer h body mem) s
      ∀ (r : ReqRt) (step node site slot length offset : Nat),
      t.openReq m.request = some r → r.typ = 0x14 → r.key = [step, node, site, slot, length, offset] →
      let t1 := State.freeReq r.engine r.entry t
      let input : InputAns := { step := step, node := node, site := site, slot := slot, offset := offset, header := sub 8 128 m.body,
                                data := m.body.drop 136 }
      (fld 0 1 m.body = 0 → (m.body.drop 136).length = length → ends (.reRequestAnswer h body mem)
        (State.serveHeldOut (State.advanceComps { t1 with loss := { t1.loss with inputs := t1.loss.inputs ++ [input] } }))) ∧
      (fld 0 1 m.body = 0 → (m.body.drop 136).length ≠ length → ends (.reRequestAnswer h body mem) (State.sendPulls
        [{ dest := r.dest, node := node, site := site, slot := slot, length := length, offset := offset }] step t1)) ∧
      (fld 0 1 m.body ≠ 0 → ends (.reRequestAnswer h body mem) (State.serveHeldOut
        (State.advanceComps { t1 with loss := { t1.loss with noInputs := t1.loss.noInputs ++ [(step, node, site, slot, offset)] } }))))

/-- R139, R166: a ply read (`plyRead`) of the epoch in effect at a fenced member is answered with status 3; at the role's holder it is answered with
status 0: with zero from a band whose tags are all 0b00 (R128), else with the ply and the tag word; elsewhere it is answered with status 2. A stripe
read (`stripeRead`) is answered for the position whose group is here. A read of an epoch to come waits (of a stripe read that is the model's
reading, log 26). R159: an answer (`readAnswer`) whose source is no member of the epoch is discarded and counted in 0x5040.04; any other frees its
request and feeds what asked for it. -/
def Obligations.CodedReadsAreAnswered : Prop :=
  ∀ (h : RxHdr) (body : Bytes) (mem : MemAns) (s : State),
    let ends (c : Instr) (u : State) : Prop := exec c s = .next (State.finish (State.settleAll u))
    (∀ (c : Instr) (sub : Nat), (c, sub) ∈ [(Instr.plyRead h body mem, 0x09), (Instr.stripeRead h body mem, 0x0A)] → Admits c s →
      let m := messageIn c
      let t := takenIn c s
      (t.mem.epoch < m.epoch → t.fenced = false → ends c { t with code := { t.code with heldReads := t.code.heldReads ++ [m] } }) ∧
      (t.fenced = true → ends c (State.readReply m 3 0 0 [] (State.bump 0x5040 sub 1 t)))) ∧
    (Admits (.plyRead h body mem) s →
      let m := messageIn (.plyRead h body mem)
      let t := takenIn (.plyRead h body mem) s
      m.epoch ≤ t.mem.epoch → t.fenced = false → t.code.oldLayout = none →
      ∀ (l : Layout) (hank bd o : Nat), t.code.layout = some l → l.bandOfLap (fld 4 4 m.body) = some (hank, bd, o) →
        let lap := fld 4 4 m.body
        let role := fld 2 1 m.body
        let x := fld 3 1 m.body
        let t1 := State.bump 0x5040 0x09 1 t
        let here : Bool := hank == fld 0 2 m.body && decide (role < l.m) && decide (x < l.n) && t1.pliesHeld (fld 0 2 m.body) &&
          t1.roleHolder l (fld 0 2 m.body) bd x role == l.position && !t1.readOld m
        (here = true → t1.bandEmpty hank bd x role = true →
          ends (.plyRead h body mem) (State.readReply m 0 0 0 (zeros Config.stripe) t1)) ∧
        (here = true → t1.bandEmpty hank bd x role = false →
          let t2 := t1.askPlyStripe l hank lap x role
          t2.plyBad l hank lap x role = false →
          ends (.plyRead h body mem) (State.readReply m 0 0 (t2.tagWord l hank bd x role) (t2.readPly l hank lap x role) t2)) ∧
        (here = false → ends (.plyRead h body mem) (State.readReply m 2 0 0 [] t1))) ∧
    (Admits (.stripeRead h body mem) s →
      let m := messageIn (.stripeRead h body mem)
      let t := takenIn (.stripeRead h body mem) s
      m.epoch ≤ t.mem.epoch → t.fenced = false → ∀ (l : Layout) (j : Nat), t.code.layout = some l →
        t.readOwners l (fld 0 2 m.body) (fld 4 4 m.body) = [j] →
        ends (.stripeRead h body mem) (State.answerStripeOf m l j (State.bump 0x5040 0x0A 1 t))) ∧
    (Admits (.readAnswer h body mem) s →
      let m := messageIn (.readAnswer h body mem)
      let t := takenIn (.readAnswer h body mem) s
      ∀ r : ReqRt, t.openReq m.request = some r →
      (t.isMember m.source = false → ends (.readAnswer h body mem) (State.bump 0x5040 0x04 1 t)) ∧
      (t.isMember m.source = true → r.typ = 0x16 ∨ r.typ = 0x17 →
        (r.key.headD 0 = 1 → ends (.readAnswer h body mem) (State.feedRecomp r.key m.body (State.freeReq r.engine r.entry t))) ∧
        (r.key.headD 0 = 2 → ends (.readAnswer h body mem) (State.feedComp r m.body (State.freeReq r.engine r.entry t))) ∧
        (r.key.headD 0 = 3 →
          let x := State.feedDecode r.key m.body (State.freeReq r.engine r.entry t)
          ends (.readAnswer h body mem) (State.decodeResult x.2 x.1))))

/-- R173, R170: a fill set (`fillSet`) for a hank that is no LOADING STATE hank of the group's shape here is acknowledged with code 1 and changes
nothing else, and so does one that comes to a fenced member (R213, log 162); one whose page no die holds is written and acknowledged with code 0;
one whose page a die holds waits for the invalidation (R296). An acknowledgement of a fill set (`fillAck`) lets the copy go on. An adoption report
(`adoptionReport`) is acknowledged and takes the place of an older one of its position, step, heir and hank; one sent before the epoch that last
moved groups counts no more. An acknowledgement of a report (`reportAck`) frees its entry. -/
def Obligations.FillsAndReportsAreTaken : Prop :=
  ∀ (h : RxHdr) (body : Bytes) (mem : MemAns) (s : State),
    let ends (c : Instr) (u : State) : Prop := exec c s = .next (State.finish (State.settleAll u))
    (Admits (.fillSet h body mem) s →
      let m := messageIn (.fillSet h body mem)
      let t := takenIn (.fillSet h body mem) s
      let hank := fld 0 2 m.body
      let g := fld 4 4 m.body
      let ack (code : Nat) (st : State) : State := State.reply m 0x1A (toLE 2 hank ++ toLE 1 code ++ [0] ++ toLE 4 g ++ toLE 8 m.step) st
      let target : Bool := t.spareOf == fld 2 1 m.body || (fld 8 1 m.body == 2 && t.myPos == fld 2 1 m.body)
      (∀ r, t.hank? hank = some r →
        let ks := spanPages t.C hank 0 (g * Config.stripe) Config.stripe
        let right : Bool := r.desc.cls == 1 && r.state == 1 && target && decide (g < groupsOf r.desc.count) &&
          fld 3 1 m.body == stripesPerGroup r.desc.planes r.desc.formats && !t.fenced
        (right = false → ends (.fillSet h body mem) (ack 1 t)) ∧
        (right = true → t.coherent ks none = false → ends (.fillSet h body mem) (State.invalidate ks none
          { t with tier := { t.tier with heldAtoms := t.tier.heldAtoms ++ [m] } })) ∧
        (right = true → t.coherent ks none = true →
          let t1 := forEach (State.groupStripesOf r.desc g) (fun x st => st.clearKey (st.planeKey r x.1.1 (State.planeStripe g x.1) g))
            (State.writeGroup r g (pieces Config.stripe (m.body.drop 16)) t)
          let t2 : State := { t1 with loss := { t1.loss with
            filled := t1.loss.filled.filter (fun f => !(f.1 == hank && f.2.1 == g)) ++ [(hank, g, m.step)],
            spareState := if t1.loss.spareState = 0 then 1 else t1.loss.spareState } }
          ends (.fillSet h body mem) (ack 0 (State.checkSpare m.step (State.bump 0x5050 0x0F 1 t2))))) ∧
      (t.hank? hank = none → ends (.fillSet h body mem) (ack 1 t))) ∧
    (Admits (.fillAck h body mem) s →
      let m := messageIn (.fillAck h body mem)
      let t := takenIn (.fillAck h body mem) s
      ∀ (r : ReqRt) (kind pos hank g : Nat), t.openReq m.request = some r → r.typ = 0x19 → r.key = [kind, pos, hank, g] →
        (fld 2 1 m.body ≠ 0 → ends (.fillAck h body mem) (State.copyGo (State.freeReq r.engine r.entry t))) ∧
        (kind = 1 → fld 2 1 m.body = 0 → ends (.fillAck h body mem)
          (State.copyGo (State.evacAck hank g (fld 8 8 m.body) (State.freeReq r.engine r.entry t))))) ∧
    (Admits (.adoptionReport h body mem) s →
      let m := messageIn (.adoptionReport h body mem)
      let t := takenIn (.adoptionReport h body mem) s
      let acked := State.reply m 0x1C (m.body.take 3 ++ zeros 5) t
      (t.posOf m.source = none ∨ m.epoch < t.loss.spreadEpoch → ends (.adoptionReport h body mem) acked) ∧
      (∀ heir : Nat, t.posOf m.source = some heir → t.loss.spreadEpoch ≤ m.epoch → ∃ x : ReportRt,
        x.position = fld 2 1 m.body ∧ x.step = m.step ∧ x.epoch = m.epoch ∧ x.heir = heir ∧ x.hank = fld 0 2 m.body ∧
        x.flags = fld 3 1 m.body ∧ x.groups = fld 4 4 m.body ∧ x.digest = fld 8 8 m.body ∧ x.touched = fld 16 8 m.body ∧
        x.committed = fld 24 8 m.body ∧
        ends (.adoptionReport h body mem) { acked with loss := { acked.loss with
          reports := acked.loss.reports.filter (fun y => !(y.position == x.position && y.step == x.step && y.heir == x.heir &&
            y.hank == x.hank)) ++ [x] } })) ∧
    (Admits (.reportAck h body mem) s →
      let m := messageIn (.reportAck h body mem)
      let t := takenIn (.reportAck h body mem) s
      ∀ r : ReqRt, t.openReq m.request = some r →
        ends (.reportAck h body mem) (if r.typ = 0x1B then State.freeReq r.engine r.entry t else t))

/-- R180 to R183, R291, R305: a write completion (`wcomp`) ends the write of its request, well where its status is 0; read data (`rdata`) end the
read, well where the status is 0 and the length is the one asked for. An ATOMIC (`fabricAtomic`) for a hank that the block lacks counts in 0x5090.0C
and is answered with status 1; its old value is a free value (log 58). One on a LIVE SHARED hank is done once no die holds its page, and answered
with status 0 and the old value. -/
def Obligations.OutsideAccessesEnd : Prop :=
  ∀ (h : RxHdr) (body : Bytes) (ht : BitVec 64) (mem : MemAns) (s : State),
    let ends (c : Instr) (u : State) : Prop := exec c s = .next (State.finish (State.settleAll u))
    (Admits (.wcomp h body ht mem) s →
      let m := messageIn (.wcomp h body ht mem)
      let t := takenIn (.wcomp h body ht mem) s
      ∀ r : ReqRt, t.openReq m.request = some r → r.typ = 0x01 →
        ends (.wcomp h body ht mem) (State.writeEnd r (fld 0 1 m.body == 0) (State.freeReq r.engine r.entry t))) ∧
    (Admits (.rdata h body mem) s →
      let m := messageIn (.rdata h body mem)
      let t := takenIn (.rdata h body mem) s
      ∀ r : ReqRt, t.openReq m.request = some r → r.typ = 0x03 →
        let well : Bool := fld 0 1 m.body == 0 && (m.body.drop 8).length == fld 8 4 r.body
        ends (.rdata h body mem) (State.readEnd r (if well then some (m.body.drop 8) else none)
          (State.freeReq r.engine r.entry (State.cellarPoison r m t)))) ∧
    (Admits (.fabricAtomic h body mem) s →
      let m := messageIn (.fabricAtomic h body mem)
      let t := takenIn (.fabricAtomic h body mem) s
      (t.hank? (fld 0 2 m.body) = none → ends (.fabricAtomic h body mem) (State.reply m 0x06 ([1] ++ zeros 7 ++ t.freeBytes 8)
        (State.spendFree 8 (State.bump 0x5090 0x0C 1 t)))) ∧
      (∀ (r : HankRt) (v : Nat), t.hank? (fld 0 2 m.body) = some r → r.state = 2 → t.paged r.desc = false → t.tier.presence = [] →
        t.scrub.badBlocks = [] →
        let op := State.fabricOp m.body
        op.width = 4 ∨ op.width = 8 → State.atomicOk r op = true → op.off < regionSpan r.desc 0 →
        let blocks := t.regionBlocks r 0 (op.off / 128 * 128) 128
        (∀ b ∈ blocks, b ∉ t.ans.bad) →
        let t1 := State.takeMem t.ans blocks t
        let old := leNat (t1.spanRead (r.desc.base 0) op.off op.width)
        atomicNew op.code op.width r.desc.unordered old op.a op.b = some v →
        let t2 := State.spanWrite (r.desc.base 0) op.off (toLE op.width v) t1
        let t3 : State := { t2 with led := { t2.led with fadd := t2.led.fadd || (decide (op.code = 7) && t1.framedHank r) } }
        ends (.fabricAtomic h body mem) (State.reply m 0x06 (zeros 8 ++ toLE 8 old) (State.bump 0x5090 0x0F 1 t3))))

/-- R200, R205, R207, R209 (`hello`, `heartbeat`, `vote`, `epochRequest`, `epochRecord`): of a node, at most eight HELLO of an interval count, a
ninth counts in 0x5060.06 and does nothing more; one of another member table counts in 0x5060.05; one of the epoch in effect confirms its position
and is answered. A heartbeat does no more than every accepted message does. A vote counts in 0x5060.09 and, where it is a named voter's first for a
proposal on the epoch in effect, joins the votes. A request for records sends those that follow its epoch, with its request field; a record that
continues the epoch in effect with a valid count applies, at a fenced member too, and frees the request that it answers. -/
def Obligations.MembershipMessagesAreServed : Prop :=
  ∀ (h : RxHdr) (body : Bytes) (mem : MemAns) (s : State),
    let ends (c : Instr) (u : State) : Prop := exec c s = .next (State.finish (State.settleAll u))
    (Admits (.hello h body mem) s →
      let m := messageIn (.hello h body mem)
      let t := takenIn (.hello h body mem) s
      (8 ≤ natGet t.mem.helloSeen m.source → ends (.hello h body mem) (State.bump 0x5060 0x06 1 t)) ∧
      (natGet t.mem.helloSeen m.source < 8 → ∀ (k : SkeinSec) (pos : Nat), t.skeinSec = some k →
        k.members.findIdx? (fun (x : Nat × Nat) => x.1 == m.source) = some pos →
        let t1 : State := { t with mem := { t.mem with helloSeen := natSet t.mem.helloSeen m.source (natGet t.mem.helloSeen m.source + 1) } }
        let state := fld 2 1 m.body
        (fld 8 8 m.body ≠ t.mem.digest → ends (.hello h body mem) (State.countNote 0x5060 0x05 m.source t1)) ∧
        (fld 8 8 m.body = t.mem.digest → state ≠ 0 → state ≠ 5 → m.epoch = t.mem.epoch →
          ends (.hello h body mem) (State.answerHello m.source { State.bump 0x5060 0x02 1 t1 with mem := { t1.mem with
            confirmed := setBit t1.mem.confirmed pos
            confirmedLive := if state ≤ 3 then setBit t1.mem.confirmedLive pos else clearBit t1.mem.confirmedLive pos } })))) ∧
    (Admits (.heartbeat h body mem) s → ends (.heartbeat h body mem) (takenIn (.heartbeat h body mem) s)) ∧
    (Admits (.vote h body mem) s →
      let m := messageIn (.vote h body mem)
      let t := takenIn (.vote h body mem) s
      let raw := m.body.take 48
      let voter := fld 48 1 m.body
      let t1 := State.bump 0x5060 0x09 1 t
      let counts : Bool := fld 4 4 raw == t.mem.epoch && t.posOf m.source == some voter && bit t.mem.named voter &&
        !t.mem.votes.contains (voter, raw)
      (counts = true → ends (.vote h body mem) (State.countVotes { t1 with mem := { t1.mem with votes := t1.mem.votes ++ [(voter, raw)] } })) ∧
      (counts = false → ends (.vote h body mem) t1)) ∧
    (Admits (.epochRequest h body mem) s →
      let m := messageIn (.epochRequest h body mem)
      let t := takenIn (.epochRequest h body mem) s
      ends (.epochRequest h body mem) (forEach (t.recordsFrom (fld 0 4 m.body)) (fun r st =>
        State.post 0x34 m.source (m.source % 2) st.jobTag st.mem.epoch st.fr.step m.request (epochRecordBytes r) st) t)) ∧
    (Admits (.epochRecord h body mem) s →
      let m := messageIn (.epochRecord h body mem)
      let t := takenIn (.epochRecord h body mem) s
      let p := readProposal m.body
      let vs := bitsOf 16 (fld 48 2 m.body)
      p.base = t.mem.epoch → p.base < p.epoch → p.skeinId = t.mem.skeinId → t.code.layout.isSome = true →
      (∀ v ∈ vs, bit t.mem.named v = true) → (bitsOf 16 t.mem.named).length < 2 * vs.length →
      (t.openReq m.request = none → ends (.epochRecord h body mem) (State.applyEpoch p (fld 48 2 m.body) true t)) ∧
      (∀ r : ReqRt, t.openReq m.request = some r → r.typ = 0x33 →
        ends (.epochRecord h body mem) (State.applyEpoch p (fld 48 2 m.body) true (State.freeReq r.engine r.entry t))))

/-- R216, R217, R222, R237 (`vacate`, `vacateAck`, `recoded`, `recordNotice`): a vacate waits until its sender is named no more or no STATE hank is
LIVE or LOADING here, and is then acknowledged; an acknowledgement takes its sender from those that the vacating member waits for. A RECODED of the
skein and epoch of the plan sets its position's bit; the last one of a member that has ended its own re-coding ends the re-coding. A record notice
counts in 0x5070.05 and takes the place of one of its position with an earlier step or the same; one older than the notice held changes nothing
else. -/
def Obligations.SkeinChangesAreFollowed : Prop :=
  ∀ (h : RxHdr) (body : Bytes) (mem : MemAns) (s : State),
    let ends (c : Instr) (u : State) : Prop := exec c s = .next (State.finish (State.settleAll u))
    (Admits (.vacate h body mem) s →
      let m := messageIn (.vacate h body mem)
      let t := takenIn (.vacate h body mem) s
      ends (.vacate h body mem) (State.vacatePass { t with mem := { t.mem with
        vacateWait := t.mem.vacateWait.filter (fun x => x.1 != m.source) ++ [(m.source, fld 0 2 m.body, fld 2 1 m.body)] } })) ∧
    (Admits (.vacateAck h body mem) s →
      let m := messageIn (.vacateAck h body mem)
      let t := takenIn (.vacateAck h body mem) s
      (t.mem.vacating = none → ends (.vacateAck h body mem) t) ∧
      (∀ (id pos : Nat) (nodes : List Nat), t.mem.vacating = some (id, pos, nodes) → nodes.filter (fun n => n != m.source) ≠ [] →
        ends (.vacateAck h body mem) { t with mem := { t.mem with
          vacating := some (id, pos, nodes.filter (fun n => n != m.source))
          vacateMore := t.mem.vacateMore.filter (fun n => n != m.source) } })) ∧
    (Admits (.recoded h body mem) s →
      let m := messageIn (.recoded h body mem)
      let t := takenIn (.recoded h body mem) s
      ∀ k : SkeinSec, t.skeinSec = some k →
      let right : Bool := fld 0 2 m.body == k.skeinId && fld 4 4 m.body == k.epoch && t.mem.recode != 0 &&
        t.posOf m.source == some (fld 2 1 m.body)
      let t1 : State := { t with mem := { t.mem with recodedFrom := setBit t.mem.recodedFrom (fld 2 1 m.body) } }
      (right = false → ends (.recoded h body mem) t) ∧
      (right = true → t.mem.recode ≠ 2 → ends (.recoded h body mem) t1) ∧
      (right = true → t.mem.recode = 2 → (∀ i ∈ bitsOf 16 t.mem.named, bit t1.mem.recodedFrom i = true) →
        ends (.recoded h body mem) (State.setMemState 2 (State.bump 0x5060 0x12 1 { t1 with
          mem := { t1.mem with recode := 0 }
          code := { t1.code with oldLayout := none, oldStore := { base := 0, hanks := [] }, oldTags := [], oldRoles := [],
                                    oldTaken := [], oldAdopted := [] } })))) ∧
    (Admits (.recordNotice h body mem) s →
      let m := messageIn (.recordNotice h body mem)
      let t := takenIn (.recordNotice h body mem) s
      fld 16 1 m.body < 16 →
      let t1 := State.bump 0x5070 0x05 1 t
      let n := (fld 16 1 m.body, fld 0 8 m.body, fld 8 8 m.body, fld 17 1 m.body == 1)
      let taken : State := { t1 with led := { t1.led with notices := t1.led.notices.filter (fun x => x.1 != fld 16 1 m.body) ++ [n] } }
      (∀ x, t.led.notices.find? (fun y => y.1 == fld 16 1 m.body) = some x →
        (fld 0 8 m.body < x.2.1 → ends (.recordNotice h body mem) t1) ∧ (x.2.1 ≤ fld 0 8 m.body → ends (.recordNotice h body mem) taken)) ∧
      (t.led.notices.find? (fun y => y.1 == fld 16 1 m.body) = none → ends (.recordNotice h body mem) taken))

/-- R398 to R400, R376: outside `running` an Ocper request is counted in 0x50D0.0C and answered with status 2. A read of a scalar returns its value;
a write whose xid of this client has been applied is answered with status 0 and writes nothing, any other is the dictionary write of R408; a block
read of a STR or DOM from offset 0 takes the client's buffer as a snapshot; a segment stores its bytes in the buffer; an apply of more than the
buffer holds is answered with status 4, any other is the dictionary write of the buffer's bytes. A block read that reached its snapshot's end and is
repeated is answered with the same piece. A buffer that has been without a frame for 100 ms is free again. (`ocperRead`, `ocperWrite`,
`ocperBlockRead`, `ocperBlockWriteSegment`, `ocperBlockApply`, `ocperBufferTimeout`. That a request outside `running` counts in 0x5000.06 too where
it loads a plan is R15's; what the buffers and requests of a client keep is the model's reading of R399, logs 108 and 137.) -/
def Obligations.OcperServesTheDictionary : Prop :=
  ∀ (h : RxHdr) (q : OcperReq) (mem : MemAns) (s : State),
    let ends (c : Instr) (u : State) : Prop := exec c s = .next (State.finish (State.settleAll u))
    (∀ c ∈ [Instr.ocperRead h q mem, .ocperWrite h q mem, .ocperBlockRead h q mem, .ocperBlockWriteSegment h q mem,
      .ocperBlockApply h q mem], Admits c s →
      let o := readOcper (messageIn c)
      let t := State.noteRequest o (takenIn c s)
      (t.sys.hk ≠ .running → ends c (State.ocperAnswer o 2 [] (State.countRetry o.path o.address (o.op == 2 || o.op == 5) t))) ∧
      (t.sys.hk = .running → o.badForm = true → ends c (State.ocperAnswer o 4 [] t))) ∧
    (Admits (.ocperRead h q mem) s →
      let o := readOcper (messageIn (.ocperRead h q mem))
      let t := State.noteRequest o (takenIn (.ocperRead h q mem) s)
      t.sys.hk = .running → o.badForm = false → ∀ (r : EntryRow) (v : Nat), t.readValue o.path o.address = some (r, .num v) →
        r.ty.isBlob = false → ends (.ocperRead h q mem) (State.ocperAnswer o 0 (toLE r.ty.bytes v)
          (State.afterRead r (addrIdx o.address) (addrSub o.address) t))) ∧
    (Admits (.ocperWrite h q mem) s →
      let o := readOcper (messageIn (.ocperWrite h q mem))
      let t := State.noteRequest o (takenIn (.ocperWrite h q mem) s)
      t.sys.hk = .running → o.badForm = false →
        (t.house.xids.contains (o.client, o.xid) = true → ends (.ocperWrite h q mem) (State.ocperAnswer o 0 [] t)) ∧
        (t.house.xids.contains (o.client, o.xid) = false → ∀ (r : EntryRow) (u : State),
          entry? t.straps.build (addrIdx o.address) (addrSub o.address) = some r → o.data.length = r.ty.bytes →
          (State.dictWrite o.path o.address (.num (leNat o.data)) t = (u, .done) →
            ends (.ocperWrite h q mem) (State.ocperAnswer o 0 [] (State.noteXid o u))) ∧
          (∀ why : Nat, State.dictWrite o.path o.address (.num (leNat o.data)) t = (u, .refused why) →
            ends (.ocperWrite h q mem) (State.ocperAnswer o (if why = 3 then 4 else 1) [] u)))) ∧
    (Admits (.ocperBlockRead h q mem) s →
      let o := readOcper (messageIn (.ocperBlockRead h q mem))
      let t := State.noteRequest o (takenIn (.ocperBlockRead h q mem) s)
      t.sys.hk = .running → o.badForm = false → ∀ (r : EntryRow) (b : Bytes), t.readValue o.path o.address = some (r, .blob b) →
        r.ty.isBlob = true →
        (t.keptPiece o = none → o.offset = 0 → t.bufRoom o.client = true → ends (.ocperBlockRead h q mem) (State.ocperPiece o b
          (State.putBuf { node := o.client, address := o.address, snapshot := true, data := b }
            (State.afterRead r (addrIdx o.address) (addrSub o.address) t)))) ∧
        (∀ piece : Bytes, t.keptPiece o = some piece → ends (.ocperBlockRead h q mem) (State.ocperAnswer o 0 piece t))) ∧
    (Admits (.ocperBlockWriteSegment h q mem) s →
      let o := readOcper (messageIn (.ocperBlockWriteSegment h q mem))
      let t := State.noteRequest o (takenIn (.ocperBlockWriteSegment h q mem) s)
      t.sys.hk = .running → o.badForm = false →
        (entry? t.straps.build (addrIdx o.address) (addrSub o.address)).isSome = true → o.offset + o.count ≤ State.xferSize →
        t.bufOf o.client = none → t.bufRoom o.client = true → ends (.ocperBlockWriteSegment h q mem) (State.ocperAnswer o 0 []
          (State.putBuf { node := o.client, address := o.address, snapshot := false,
                          data := patch o.offset o.data (zeros (o.offset + o.count)) } t))) ∧
    (Admits (.ocperBlockApply h q mem) s →
      let o := readOcper (messageIn (.ocperBlockApply h q mem))
      let t := State.noteRequest o (takenIn (.ocperBlockApply h q mem) s)
      t.sys.hk = .running → o.badForm = false → t.house.xids.contains (o.client, o.xid) = false → ∀ b : OcperBuf,
        t.bufOf o.client = some b → b.snapshot = false → b.address = o.address →
        ((entry? t.straps.build (addrIdx o.address) (addrSub o.address)).isSome = true → b.data.length < o.count →
          ends (.ocperBlockApply h q mem) (State.ocperAnswer o 4 [] t)) ∧
        (o.count ≤ b.data.length → ∀ (r : EntryRow) (u : State),
          entry? t.straps.build (addrIdx o.address) (addrSub o.address) = some r → r.ty.isBlob = true →
          State.dictWrite o.path o.address (.blob (b.data.take o.count)) (State.freeBuf o.client t) = (u, .done) →
          ends (.ocperBlockApply h q mem) (State.ocperAnswer o 0 [] (State.noteXid o u)))) ∧
    (∀ b : Bool, exec (.ocperBufferTimeout b) s = .next (State.finish
      { s with house := { s.house with ocper := setAt s.house.ocper b.toNat none }, ans := .clean, out := [] }))

/-- R311, R312, R355: the grant of a way (`creditInit`) is taken once, up to 255 header and 4,095 unit credits of a class (the limits are R355's;
what the block does with a larger number is the model's choice, log 124); a return (`creditReturn`) never raises a class above its grant: what would
is ignored. With nothing that waits to be sent no credit is spent. -/
def Obligations.CreditsKeepToTheGrant : Prop :=
  ∀ (way : Bool) (hdr unit : List (BitVec 16)) (hr : BitVec 3) (ur : BitVec 6) (mem : MemAns) (s : State),
    (s.sys.lzReset = false → s.fx.sendQ = [] → s.fx.credits.length = 6 →
     s.wayUp way.toNat = false → ∃ t : State, exec (.creditInit way hdr unit) s = .next (State.finish t) ∧
      (∀ k : Nat, k < 3 →
        let g := min 255 (natAt (hdr.map (fun x => x.toNat)) k)
        let u := min 4095 (natAt (unit.map (fun x => x.toNat)) k)
        t.creditAt way.toNat k = { hdrGrant := g, unitGrant := u, hdr := g, unit := u }) ∧
      t.fx.initDone = setAt s.fx.initDone way.toNat true ∧ t.hearth = s.hearth ∧ t.regs = s.regs ∧ t.hanks = s.hanks) ∧
    (let s0 := State.begun mem s
     s0.sys.lzReset = false → s0.fx.sendQ = [] → s0.fx.credits.length = 6 →
     s0.wayUp way.toNat = true → ∃ t : State, exec (.creditReturn way hr ur mem) s = .next (State.finish (State.settleAll t)) ∧
      (∀ k : Nat, k < 3 →
        let c := s0.creditAt way.toNat k
        let a := hr.toNat / 2 ^ k % 2
        let b := ur.toNat / 4 ^ k % 4
        t.creditAt way.toNat k = { c with
          hdr := if c.hdrGrant < c.hdr + a then c.hdr else c.hdr + a
          unit := if c.unitGrant < c.unit + b then c.unit else c.unit + b }) ∧
      t.hearth = s0.hearth ∧ t.regs = s0.regs ∧ t.hanks = s0.hanks)

/-- R197, R207, R209, R319: the fabric's timers (`heartbeatPeriod`, `suspicion`, `catchUpTimeout`, `helloInterval`, `requestTimeout`). A member that
has been silent for the bound of 0x2001.02 periods is suspected, with its event; a catch-up in which no member offers the record that follows, while
one offers a later record, fences the block with reason 4; an interval forgets the HELLO counted and sends one to each partner not confirmed, and a
vacate to each node that has not acknowledged it; a request other than a delta set without an answer counts in 0x50A0.08, frees its entry and fails
under its feature's rule. That a heartbeat period also asks again for what was answered without data is the model's choice (logs 27 and 38), and so
is when a message that a timer sends is formed (log 150). -/
def Obligations.FabricTimersAct : Prop :=
  ∀ (ht : BitVec 64) (mem : MemAns) (s : State),
    let s0 := State.begun mem s
    (s0.sys.ready = true → exec (.heartbeatPeriod ht mem) s = .next (State.finish (State.settleAll
      (State.restartAlias (State.heartPeriod (State.sampleTime ht.toNat s0)))))) ∧
    (s0.sys.ready = true → s0.code.layout = none → s0.code.hallReads = [] →
      exec (.heartbeatPeriod ht mem) s = .next (State.finish (State.settleAll
      { State.sampleTime ht.toNat s0 with mem := { (State.sampleTime ht.toNat s0).mem with heard := [], sentTo := [], askedNow := [] } }))) ∧
    (∀ pos : BitVec 4,
      let due : Bool := s0.code.layout.isSome && bit s0.mem.named pos.toNat && pos.toNat != s0.myPos && !bit s0.mem.suspected pos.toNat &&
        !s0.fenced && decide (s0.reg 0x2001 0x02 ≤ natAt s0.mem.silent pos.toNat)
      (due = true → exec (.suspicion pos mem) s = .next (State.finish (State.countNote 0x5060 0x0C pos.toNat
        { s0 with mem := { s0.mem with suspected := setBit s0.mem.suspected pos.toNat } }))) ∧
      (due = false → exec (.suspicion pos mem) s = .next (State.finish s0))) ∧
    (let gap : Bool := !s0.mem.catchUp.isEmpty && s0.mem.catchUp.all (fun x => !x.2.1) && s0.mem.catchUp.any (fun x => x.2.2)
     exec (.catchUpTimeout mem) s = .next (State.finish (if gap then State.fence 4 s0 else s0))) ∧
    (s0.sys.ready = true →
      let s1 := State.sampleTime ht.toNat s0
      let s2 : State := { s1 with mem := { s1.mem with helloSeen := [], helloAnswered := [] } }
      let confirmed (n : Nat) : Bool := match s2.skeinSec.bind (fun k => k.members.findIdx? (fun (x : Nat × Nat) => x.1 == n)) with
        | some i => bit s0.mem.confirmed i
        | none => false
      let u := forEach (s2.partners.filter (fun x => !confirmed x.1)) (fun x st => State.sendHello x.1 st) s2
      (s0.mem.vacating = none → exec (.helloInterval ht mem) s = .next (State.finish u)) ∧
      (∀ (id pos : Nat) (nodes : List Nat), s0.mem.vacating = some (id, pos, nodes) →
        exec (.helloInterval ht mem) s = .next (State.finish (forEach (nodes ++ s0.mem.vacateMore)
          (fun n st => State.sendMgmt 0x35 n (toLE 2 id ++ toLE 1 pos ++ [0] ++ toLE 4 st.mem.epoch) st) u)))) ∧
    (∀ (e : BitVec 3) (n : BitVec 9) (r : ReqRt), s0.fx.reqs.find? (fun x => x.engine == e.toNat && x.entry == n.toNat) = some r →
      (r.typ = 0x10 → exec (.requestTimeout e n mem) s = .next (State.finish (State.settleAll s0))) ∧
      (r.typ ≠ 0x10 →
        let s1 := State.bump 0x50A0 0x08 1 (State.freeReq e.toNat n.toNat s0)
        exec (.requestTimeout e n mem) s = .next (State.finish (State.settleAll (State.requestFails r s1))) ∧
        (r.key ≠ [] → (r.typ = 0x01 → State.requestFails r s1 = State.writeEnd r false s1) ∧
          (r.typ = 0x03 → State.requestFails r s1 = State.readEnd r none s1) ∧
          (r.typ = 0x33 → State.requestFails r s1 = s1) ∧
          (r.typ ∉ [0x01, 0x03, 0x12, 0x33] → State.requestFails r s1 = State.sendAgain r s1))))

/-- R132: "When a delta set has gone unacknowledged for the multiple of ack_bound in 0x2110.01, the carder raises an event and counts the set in
0x5040.08. It does not resend." (`ackTimeout`.) The event names hank and group; the set is marked so that it counts once; nothing is sent and
nothing else changes. An expiry that names no set in flight, or one that is acknowledged or has been counted, changes nothing. -/
def Obligations.OverdueSetsAreCountedNotResent : Prop :=
  ∀ (hank : BitVec 12) (r : BitVec 1) (g : BitVec 32) (pos : BitVec 4) (mem : MemAns) (s : State),
    let overdue (x : GroupRt) : Bool := x.position == pos.toNat && x.hank == hank.toNat && x.group == g.toNat &&
      x.sets.any (fun y => y.role == r.toNat && !y.acked && !y.timedOut)
    let s0 := State.begun mem s
    (∀ gr : GroupRt, s0.card.inflight.find? overdue = some gr →
      let s1 := State.updGroup gr (fun x => { x with
        sets := mapIf (fun y => y.role == r.toNat) (fun y => { y with timedOut := true }) x.sets }) s0
      exec (.ackTimeout hank r g pos mem) s = .next (State.finish (State.countNote 0x5040 0x08 (State.hankDetail hank.toNat g.toNat) s1)) ∧
        (State.countNote 0x5040 0x08 (State.hankDetail hank.toNat g.toNat) s1).fx = s0.fx ∧
        (State.countNote 0x5040 0x08 (State.hankDetail hank.toNat g.toNat) s1).hearth = s0.hearth) ∧
    (s0.card.inflight.find? overdue = none → exec (.ackTimeout hank r g pos mem) s = .next (State.finish s0))

/-! ### The object dictionary (chapters 12 and 14) -/

/-- R408, Table 14.3: a dictionary write goes through the checks in order, and the first that fails refuses it: an entry that does not exist (R407),
one that no path may write (reason 1), one that this path may not write (2), a width, length or layout that is wrong (3), a value that is out of
range or fails its chapter's check (4), a busy entry (5). A refusal counts in 0x5000.07 (of a twist context's value, or of any write to a fabric
context, in 0x50B0.05 too), stands in 0x10FC.01 to .03 and the event log and changes nothing else; a write that is not served now is answered retry
and counted. One that passes all of them does what its entry's rule says, which may refuse it still. It holds of every command that writes an entry:
`planLoad`, `epochProposal`, `exclusionNotice`, `rollcallRequest`, `coreClockWrite`, `tableSetWrite`, `restoreRequest`, `contextRestore`,
`hashProbe`, `maskStripeRepair`, `lostMaskCopy`, `pageDiscard`, `replicaCopyStart`, `firmwareLoad`, `securityMinimumWrite`, `journalFormat`,
`eventAcknowledge`, `transferTarget`, `transferDataWrite` and `dictionaryWrite`. R363: the register port carries a word, so that a STR or DOM is
refused there with reason 3. -/
def Obligations.WritesAreCheckedInOrder : Prop :=
  ∀ (c : Instr) (path : Path) (addr : Nat) (v : Val) (s : State),
    let s0 := State.begun (memOf c) s
    s0.sys.lzReset = false → writeOf c s0 = some (path, addr, v) →
    addr ≠ 0x10FD04 → (path = .regPort → s0.sys.ready = true) →
    let settled (u : State) : Host.Outcome State Fault Refusal :=
      match c with
      | .epochProposal _ _ _ | .exclusionNotice _ _ _ | .maskStripeRepair _ _ _ | .lostMaskCopy _ _ _ | .pageDiscard _ _ _
      | .dictionaryWrite _ _ _ _ => .next (State.finish (State.settleAll u))
      | _ => .next (State.finish u)
    let refused (why : Nat) (u : State) : Host.Outcome State Fault Refusal := settled (State.answerWrite path (.refused why)
      (State.refuseWrite (State.pathNo path) addr why u))
    let refusal (why : Nat) : Host.Outcome State Fault Refusal := refused why (State.countTwist (addrIdx addr) why s0)
    (s0.serves path addr (some v) = false → exec c s = settled (State.answerWrite path .retry (State.countRetry path addr true s0))) ∧
    (s0.serves path addr (some v) = true →
      (entry? s0.straps.build (addrIdx addr) (addrSub addr) = none →
        exec c s = settled (State.answerWrite path .absent (State.bump 0x5000 0x0A 1 s0))) ∧
      (∀ r : EntryRow, entry? s0.straps.build (addrIdx addr) (addrSub addr) = some r →
        let c1 : Bool := addrSub addr == 0 || r.acc == .ro || r.acc == .rc
        let c2 : Bool := s0.pathBars path (addrOf (addrIdx addr) (addrSub addr))
        let c3 : Bool := !widthOk r (addrIdx addr) (addrSub addr) v
        let c4 : Bool := match v with
          | .num n => !inRange r n || s0.scalarBad (addrIdx addr) (addrSub addr) n
          | .blob b => s0.blobBad (addrIdx addr) (addrSub addr) b
        let c5 : Bool := s0.busy (addrIdx addr) (addrSub addr)
        (c1 = true → exec c s = refusal 1) ∧ (c1 = false → c2 = true → exec c s = refusal 2) ∧
        (c1 = false → c2 = false → c3 = true → exec c s = refusal 3) ∧
        (c1 = false → c2 = false → c3 = false → c4 = true → exec c s = refusal 4) ∧
        (c1 = false → c2 = false → c3 = false → c4 = false → c5 = true → exec c s = refusal 5) ∧
        (c1 = false → c2 = false → c3 = false → c4 = false → c5 = false →
          let x := State.applyWrite path r (addrIdx addr) (addrSub addr) v s0
          (x.2 = 0 → exec c s = settled (State.answerWrite path .done x.1)) ∧
          (x.2 = 7 → exec c s = settled (State.answerWrite path .retry x.1)) ∧ (x.2 = 9 → exec c s = settled x.1) ∧
          (x.2 ∉ [0, 7, 9] → exec c s = refused x.2 x.1))) ∧
      (∀ r : EntryRow, entry? s0.straps.build (addrIdx addr) (addrSub addr) = some r → path = .regPort → r.ty.isBlob = true →
        widthOk r (addrIdx addr) (addrSub addr) v = false))

/-- R27, R28: a plan written to 0x1220.01 (`planLoad`) waits for admission with its digest in 0x1210.06 and state 1 in 0x1210.01; another load takes
its place. Admission (`admissionComplete`) ends with the plan staged for its first step (state 2, with an event of kind 2, and result entries that
describe this load), or refused (state 3) with an event and the count in 0x5000.01; with nothing loaded it does nothing. A context
(`contextRestore`) whose table set is the one in effect and whose plan admission would take (R247) loads that plan the same way, with its epoch,
digest and seeds; any other, of another table set or with a plan that admission refuses, is refused with the count in 0x5070.0A and leaves the load
in progress and the plans as they are. -/
def Obligations.PlansAreLoadedAndAdmitted : Prop :=
  ∀ (path : Path) (b : Bytes) (mem : MemAns) (s : State),
    (let s0 : State := State.begin .clean s
     s.sys.lzReset = false → writable path 0x122001 (.blob b) s0 = true →
      exec (.planLoad path b) s = .next (State.finish (State.answerWrite path .done
        { s0 with adm := { s0.adm with
            state := 1, code := 0, index := 0xFF, demand := 0, capacity := 0, digest := planDigest b, loading := some b, context := none } }))) ∧
    (let s0 := State.begun mem s
    (s0.adm.loading = none → exec (.admissionComplete mem) s = .next (State.finish s0)) ∧
    (∀ p : Plan, s0.adm.loading = some b → s0.judge (s0.reg 0x1200 0x08) b = .ok p →
      exec (.admissionComplete mem) s = .next (State.finish (State.changed 0x1210 0x01 2
        { s0 with
          adm := { s0.adm with
            state := 2, code := 0, index := 0xFF, demand := 0, capacity := 0, digest := planDigest b, loading := none, context := none
            pendContext := s0.adm.context }
          planPend := some p }))) ∧
    (∀ (r : Refuse) (tier : Nat), s0.adm.loading = some b → s0.judge (s0.reg 0x1200 0x08) b = .error (r, tier) →
      ∃ t : State, exec (.admissionComplete mem) s = .next (State.finish t) ∧ t.adm.state = 3 ∧ t.adm.loading = none ∧
        t.adm.code = r.code ∧ t.adm.digest = planDigest b ∧
        t.planPend = s0.planPend ∧ t.planEff = s0.planEff ∧ t.regs = s0.regs ∧ t.hearth = s0.hearth ∧
        (s0.adm.context = none → t.ctr 0x5000 0x01 = min Config.u64Max (s0.ctr 0x5000 0x01 + 1)) ∧
        (s0.adm.context.isSome = true → t.ctr 0x5070 0x0A = min Config.u64Max (s0.ctr 0x5070 0x0A + 1))) ∧
    (s0.sys.lzReset = false → writable path 0x265002 (.blob b) s0 = true →
      let left (t : State) : Prop := exec (.contextRestore path b mem) s = .next (State.finish (State.answerWrite path .done t)) ∧
        t.adm.loading = s0.adm.loading ∧ t.planPend = s0.planPend ∧ t.planEff = s0.planEff ∧
        t.ctr 0x5070 0x0A = min Config.u64Max (s0.ctr 0x5070 0x0A + 1)
      (∀ p : Plan, fld 24 8 b = tableDigest (tableBytes s0.whorl.tables) →
        s0.judge (s0.reg 0x1200 0x08) (State.contextPlan b) = .ok p →
        exec (.contextRestore path b mem) s = .next (State.finish (State.answerWrite path .done
          { s0 with adm := { s0.adm with
              state := 1, code := 0, index := 0xFF, demand := 0, capacity := 0, digest := planDigest (State.contextPlan b),
              loading := some (State.contextPlan b),
              context := some (fld 4 4 b, fld 16 8 b, sub 64 (16 * fld 37 1 b) b) } }))) ∧
      (fld 24 8 b ≠ tableDigest (tableBytes s0.whorl.tables) → ∃ t : State, left t) ∧
      (∀ (r : Refuse) (tier : Nat), fld 24 8 b = tableDigest (tableBytes s0.whorl.tables) →
        s0.judge (s0.reg 0x1200 0x08) (State.contextPlan b) = .error (r, tier) → ∃ t : State, left t ∧ t.adm.code = r.code)))

/-- R10, R30, R254, R255: a write of an entry of access RS, such as the core clock or a table set, is staged for the next threshold and changes no
value in effect; it takes the place of one staged before, which counts in 0x5000.09. A table set begins to be copied. (Rows: `coreClockWrite`,
`tableSetWrite`.) -/
def Obligations.SettingsAreStaged : Prop :=
  ∀ (path : Path) (mhz : BitVec 32) (b : Bytes) (s : State), s.sys.lzReset = false →
    let s0 : State := State.begin .clean s
    (writable path 0x120008 (.num mhz.toNat) s0 = true → ∃ t : State,
      exec (.coreClockWrite path mhz) s = .next (State.finish (State.answerWrite path .done t)) ∧
      t.stagedAt 0x1200 0x08 = some (.num mhz.toNat) ∧ t.regs = s.regs ∧ t.hanks = s.hanks ∧ t.hearth = s.hearth ∧
      t.ctr 0x5000 0x09 = (if (s.stagedAt 0x1200 0x08).isSome then min Config.u64Max (s.ctr 0x5000 0x09 + 1) else s.ctr 0x5000 0x09)) ∧
    (writable path 0x240001 (.blob b) s0 = true →
      let s1 := if s.whorl.stagedTables.isSome then State.bump 0x5000 0x09 1 s0 else s0
      exec (.tableSetWrite path b) s = .next (State.finish (State.answerWrite path .done
        { s1 with whorl := { s1.whorl with stagedTables := some (.loaded b), copyState := 1 } })))

/-- R394, R395, R392, R385, R178: an image (`firmwareLoad`) is written to the slot that is not in effect and its lines go to the journal window;
with the journal degraded the load is refused with detail 5. A security minimum (`securityMinimumWrite`) is journaled; a format (`journalFormat`)
starts a new stream with an incarnation record, and the incarnation, the chain heads and the drain state start again (the model's reading, log 136);
an acknowledgement (`eventAcknowledge`) marks the events of its line up to a seq; a replica node (`replicaCopyStart`) starts the copy of the LIVE
groups. -/
def Obligations.HousekeepingWritesAct : Prop :=
  ∀ (path : Path) (b : Bytes) (n : BitVec 32) (mib node : BitVec 16) (line : BitVec 3) (seq : BitVec 64) (mem : MemAns) (s : State),
    (let s0 : State := State.begin .clean s
    let done (u : State) : Host.Outcome State Fault Refusal := .next (State.finish (State.answerWrite path .done u))
    s.sys.lzReset = false →
    (writable path 0x310001 (.blob b) s0 = true →
      (s.house.journal.state = 1 → exec (.firmwareLoad path b) s = done (State.imageRefused 5 s0)) ∧
      (s.house.journal.state ≠ 1 → exec (.firmwareLoad path b) s = done (State.firmwareLoad b s0))) ∧
    (writable path 0x310006 (.num n.toNat) s0 = true → exec (.securityMinimumWrite path n) s = done (State.raiseMinimum n.toNat s0)) ∧
    (writable path 0x320006 (.num mib.toNat) s0 = true →
      let s1 := State.formatStream s0
      let s2 : State := { s1 with
        fx := { s1.fx with incarnation := 1 }, led := { s1.led with heads := [] }
        loss := { s1.loss with drains := 0, drainImageStep := 0 } }
      exec (.journalFormat path mib) s = done (State.append 0x20 s2.incarnationBody 0 s2)) ∧
    (∀ k : Nat, s0.carriedValue path (0x307010 + line.toNat) (.num seq.toNat) = .num k →
      writable path (0x307010 + line.toNat) (.num seq.toNat) s0 = true →
      (k ≤ natAt s.house.acked line.toNat → exec (.eventAcknowledge path line seq) s = done s0) ∧
      (natAt s.house.acked line.toNat < k → exec (.eventAcknowledge path line seq) s = done
        { s0 with house := { s0.house with
            acked := setAt s0.house.acked line.toNat k
            events := mapIf (fun e => e.line == line.toNat && decide (e.seq ≤ k)) (fun e => { e with acked := true }) s0.house.events } }))) ∧
    (let s0 := State.begun mem s
     let done (u : State) : Host.Outcome State Fault Refusal := .next (State.finish (State.answerWrite path .done u))
     s0.sys.lzReset = false → writable path 0x207001 (.num node.toNat) s0 = true →
      (node = 0xFFFF → exec (.replicaCopyStart path node mem) s = done (State.setReg 0x2070 0x01 0xFFFF s0)) ∧
      (node ≠ 0xFFFF → s0.code.layout.isSome = true →
        exec (.replicaCopyStart path node mem) s = done (State.copyStart node.toNat (State.setReg 0x2070 0x01 node.toNat s0))))

/-- R70, R204, R205, R360: a proposal (`epochProposal`) with other bytes than Table 7.4 fixes is refused and not counted (the model's reading, log
152); one known already is taken and nothing is done; one that clashes with another for its epoch counts in 0x5060.14 and is refused; one that the
rules of R204 exclude counts in 0x5060.07 and is refused; any other becomes the pending one, and a member that is named in the base votes for it: it
notes its vote, never to vote on that base again, and sends it to the nodes that count it. An exclusion notice (`exclusionNotice`) takes the place
of the one of its epoch, or, with four held, of the one with the lowest epoch, and what waited for it is served. A roll-call request
(`rollcallRequest`) for the open step raises `tk_rollcall_out`. -/
def Obligations.SkeinWritesAct : Prop :=
  ∀ (path : Path) (b : Bytes) (step : BitVec 64) (mem : MemAns) (s : State),
    (let s0 := State.begun mem s
    s0.sys.lzReset = false →
    let p := readProposal b
    (writable path 0x201001 (.blob b) s0 = true →
      let ends (u : State) : Prop := exec (.epochProposal path b mem) s = .next (State.finish (State.settleAll u))
      let refused (u : State) : State := State.answerWrite path (.refused 4) (State.refuseWrite (State.pathNo path) 0x201001 4 u)
      let same : Bool := (match s0.mem.pending with
        | some q => q.raw == p.raw
        | none => false) || s0.mem.records.any (fun r => r.1.raw == p.raw)
      let clash : Bool := (match s0.mem.pending with
        | some q => q.epoch == p.epoch && q.raw != p.raw
        | none => false) || s0.mem.records.any (fun r => r.1.epoch == p.epoch && r.1.raw != p.raw)
      (p.wellFormed = false → ends (refused s0)) ∧
      (p.wellFormed = true → same = true → ends (State.answerWrite path .done s0)) ∧
      (p.wellFormed = true → same = false → clash = true → ends (refused (State.countNote 0x5060 0x14 p.epoch s0))) ∧
      (p.wellFormed = true → same = false → clash = false → s0.proposalOk p = false ∨ s0.mem.votedBases.contains p.base = true →
        ends (refused (State.bump 0x5060 0x07 1 s0))) ∧
      (p.wellFormed = true → same = false → clash = false → s0.proposalOk p = true → s0.mem.votedBases.contains p.base = false →
        let s1 : State := { s0 with mem := { s0.mem with pending := some p } }
        (s0.isBase = false → ends (State.answerWrite path .done (State.countVotes s1))) ∧
        (s0.isBase = true →
          let s2 : State := { s1 with mem := { s1.mem with
            votedBases := s0.mem.votedBases ++ [p.base], votes := s0.mem.votes ++ [(s0.myPos, p.raw)] } }
          ends (State.answerWrite path .done (State.countVotes (forEach (s2.voteNodes p) (fun n st => State.sendVote p n st) s2)))))) ∧
    (writable path 0x221001 (.blob b) s0 = true → ∀ n : Notice, State.readNotice b = some n →
      let rest := s0.land.notices.filter (fun x => x.epoch != n.epoch)
      exec (.exclusionNotice path b mem) s = .next (State.finish (State.settleAll (State.answerWrite path .done
        (State.serveHeldOut (State.landingPass
          { s0 with land := { s0.land with
              notices := sortBy (fun a b => decide (a.epoch ≤ b.epoch)) (rest.drop (rest.length - 3) ++ [n]) } })))))))  ∧
    (s.sys.lzReset = false → writable path 0x123001 (.num step.toNat) (State.begin .clean s) = true → ∃ t : State,
      exec (.rollcallRequest path step) s = .next (State.finish (State.answerWrite path .done t)) ∧ t.fr = { s.fr with rcOut := true } ∧
      t.regs = s.regs ∧ t.hearth = s.hearth ∧ t.counters = s.counters ∧ t.land = s.land)

/-- R61, R160, R242, R249, R290: a request (`restoreRequest`, `hashProbe`, `maskStripeRepair`, `lostMaskCopy`, `pageDiscard`) whose own checks fail
is refused, with reason 3 for its layout, 4 for its checks, or 5 where a restore runs; else it is taken. Only a page discard of a hank in tiers,
aligned to stripes, is taken: it is done at once where no die holds a copy of its pages; else the dies are told to let go of them (R296), and its
write is answered when they have, or, on Ocper, answered retry (the model's choice, log 104). -/
def Obligations.RequestsAreTakenOrRefused : Prop :=
  ∀ (path : Path) (b : Bytes) (mem : MemAns) (s : State),
    let s0 := State.begun mem s
    s0.sys.lzReset = false →
    let ends (addr : Nat) (settled : Bool) (x : State × Nat) : Host.Outcome State Fault Refusal :=
      let u : State := if x.2 = 0 then State.answerWrite path .done x.1
        else if x.2 = 7 then State.answerWrite path .retry x.1
        else if x.2 = 9 then x.1
        else State.answerWrite path (.refused x.2) (State.refuseWrite (State.pathNo path) addr x.2 x.1)
      .next (State.finish (if settled then State.settleAll u else u))
    (writable path 0x264001 (.blob b) s0 = true →
      exec (.restoreRequest path b mem) s = ends 0x264001 false (State.restoreRequest b s0) ∧
      (State.readCandidates b = none → State.restoreRequest b s0 = (s0, 3)) ∧
      (∀ cs, State.readCandidates b = some cs →
        let right : Bool := s0.planEff.isSome && fld 0 4 b == s0.jobTag && cs.all (fun c => fld 22 1 c.record == fld 5 1 b &&
          (State.recordHanks c.record).all (fun e => s0.loadingAs e))
        (right = false → State.restoreRequest b s0 = (s0, 4)) ∧
        (right = true → s0.led.restore.isSome = true → State.restoreRequest b s0 = (s0, 5)) ∧
        (right = true → s0.led.restore = none → (State.restoreRequest b s0).2 = 0))) ∧
    (writable path 0x263001 (.blob b) s0 = true →
      exec (.hashProbe path b mem) s = ends 0x263001 false (State.hashProbe b s0) ∧
      State.hashProbe b s0 = (State.serveProbe { s0 with led := { s0.led with probe := some b } }, 0)) ∧
    (writable path 0x304002 (.blob b) s0 = true →
      exec (.maskStripeRepair path b mem) s = ends 0x304002 true (State.maskRepair b s0) ∧
      (∀ r : HankRt, s0.hank? (fld 0 2 b) = some r → r.desc.masked = true → s0.maskDigestOf r (some (fld 4 4 b, b.drop 8)) ≠ r.maskDigest →
        State.maskRepair b s0 = (s0, 4))) ∧
    (writable path 0x204007 (.blob b) s0 = true →
      exec (.lostMaskCopy path b mem) s = ends 0x204007 true (State.lostMaskWrite b s0) ∧
      (fld 1 1 b ≠ 0 → State.lostMaskWrite b s0 = (s0, 4))) ∧
    (writable path 0x252001 (.blob b) s0 = true →
      exec (.pageDiscard path b mem) s = ends 0x252001 true (State.pageDiscard path b s0) ∧
      (∀ r : HankRt, s0.hank? (fld 0 2 b) = some r → s0.paged r.desc = true → fld 2 6 b = 0 → fld 8 8 b % 4096 = 0 →
        fld 16 8 b % 4096 = 0 →
        let now := State.discardNow (fld 0 2 b) (fld 8 8 b) (fld 16 8 b) s0
        (s0.tier.presence = [] → State.pageDiscard path b s0 = (now.1, 0)) ∧
        (now.2 = false → (∀ n : BitVec 16, path = .ocper n → State.pageDiscard path b s0 = (now.1, 7) ∧
          exec (.pageDiscard path b mem) s = .next (State.finish (State.settleAll (State.answerWrite path .retry now.1))))) ∧
        (now.2 = false → (∀ n : BitVec 16, path ≠ .ocper n) → State.pageDiscard path b s0 =
          ({ now.1 with tier := { now.1.tier with
              discards := now.1.tier.discards ++ [(path, fld 0 2 b, fld 8 8 b, fld 16 8 b)] } }, 9))))

/-- R363, R364: a target written to 0x10FD.01 (`transferTarget`) puts its value into the transfer buffer and the offset to 0; data reads
(`transferDataRead`) return the word at the offset, with zeros beyond the value's length, data writes (`transferDataWrite`) put 4 bytes there, and
each moves the offset on by 4; at the buffer's end it stays (the model's choice, log 44). An apply (`transferApply`) writes the first bytes of the
buffer to the target as one write with the target's own checks, answered at once but for a page discard that waits for dies (R290). -/
def Obligations.TransferWindowMovesValues : Prop :=
  ∀ (n : BitVec 32) (mem : MemAns) (s : State),
    (let s0 : State := State.begin .clean s
    s.sys.ready = true → s.sys.hk = .running →
    (n.toNat ≤ 0xFFFFFF → addrIdx n.toNat ≠ 0x10FD → ∀ (r : EntryRow) (v : Val),
      (State.setReg 0x10FD 0x02 0 (State.setReg 0x10FD 0x01 n.toNat s0)).readValue .regPort n.toNat = some (r, v) → ∃ t : State,
      exec (.transferTarget n) s = .next (State.finish (t.emit (.rp 0 0))) ∧ t.house.xfer = valueBytes r.ty v ∧
      t.house.xferLen = (valueBytes r.ty v).length ∧ t.reg 0x10FD 0x01 = n.toNat ∧ t.reg 0x10FD 0x02 = 0 ∧ t.hearth = s.hearth ∧
      t.hanks = s.hanks ∧ t.fr = s.fr) ∧
    (let o := s.reg 0x10FD 0x02
     ∃ t : State, exec .transferDataRead s =
        .next (State.finish (t.emit (.rp 0 (leNat (fit 4 ((s.house.xfer.take s.house.xferLen).drop o)))))) ∧
      t.reg 0x10FD 0x02 = min 1052736 (o + 4) ∧ t.house.xfer = s.house.xfer) ∧
    (let o := s.reg 0x10FD 0x02
     o + 4 ≤ 1052736 → ∃ t : State, exec (.transferDataWrite n) s = .next (State.finish (t.emit (.rp 0 0))) ∧
      t.house.xfer = patch o (toLE 4 n.toNat) (s.house.xfer ++ zeros (o + 4 - s.house.xfer.length)) ∧
      t.reg 0x10FD 0x02 = o + 4 ∧ t.hearth = s.hearth ∧ t.hanks = s.hanks ∧ t.fr = s.fr)) ∧
    (let s0 := State.begun mem s
     s0.sys.ready = true → s0.sys.hk = .running →
     1 ≤ n.toNat → n.toNat ≤ 0x101040 → addrIdx (s0.reg 0x10FD 0x01) ≠ 0x10FD →
      let x := State.writeEntry .regPort (s0.reg 0x10FD 0x01) (s0.xferValue (s0.reg 0x10FD 0x01) n.toNat) s0
      (x.2 ≠ .wait → exec (.transferApply n mem) s = .next (State.finish (State.settleAll (State.answerWrite .regPort x.2 x.1)))) ∧
      (x.2 = .wait → exec (.transferApply n mem) s = .next (State.finish (State.settleAll x.1))))

/-- R363, R416, R417: a read of a scalar on the register port (`u64ReadLatch`, `rcRead`) returns its word and, of a U64, latches the high word for
0x10FE.01; a counter reads its count and is cleared in the same action; a STR or DOM is refused there. On another path a counter read (`rcRead`)
returns the value's bytes, and the bulk read (`counterBulkRead`) returns the counters of the index in 0x5FFE.01, each in eight bytes, and clears
them; before an index has been written it returns nothing (R406). On the register port the bulk read goes through the transfer window (the model's
reading, log 61). -/
def Obligations.ReadsReturnAndClear : Prop :=
  ∀ (path : Path) (a : BitVec 24) (s : State), s.sys.lzReset = false → s.sys.ready = true → s.sys.hk = .running →
    let s0 : State := State.begin .clean s
    let after (r : EntryRow) : State := State.afterRead r (addrIdx a.toNat) (addrSub a.toNat) s0
    (∀ c ∈ [Instr.u64ReadLatch a, .rcRead .regPort a],
      (∀ (r : EntryRow) (n : Nat), s.readValue .regPort a.toNat = some (r, .num n) →
        (r.ty = .u64 → exec c s = .next (State.finish (State.emit (.rp 0 (n % 2 ^ 32))
          { after r with house := { (after r).house with latch := n / 2 ^ 32 } }))) ∧
        (r.ty ≠ .u64 → exec c s = .next (State.finish (State.emit (.rp 0 n) (after r))))) ∧
      (∀ (r : EntryRow) (b : Bytes), s.readValue .regPort a.toNat = some (r, .blob b) →
        exec c s = .next (State.finish (State.emit (.rp 1 0) s0)))) ∧
    (path ≠ .regPort → path ≠ .jtag → path ≠ .jutus ∨ s.house.jutus.unlocked = true →
      ∀ (r : EntryRow) (v : Val), s.readValue path a.toNat = some (r, v) →
        exec (.rcRead path a) s = .next (State.finish (State.emit (.val path (valueBytes r.ty v)) (after r)))) ∧
    (let idx := s.reg 0x5FFE 0x01
     let high := highSub s.straps.build idx
     let bytes := (List.range high).flatMap (fun i => toLE 8 (s.ctr idx (i + 1)))
     (path ≠ .regPort → path ≠ .jtag → path ≠ .jutus ∨ s.house.jutus.unlocked = true →
      (s.house.bulkNamed = true →
        exec (.counterBulkRead path) s = .next (State.finish (State.emit (.val path bytes) (State.clearBlock idx s0)))) ∧
      (s.house.bulkNamed = false → exec (.counterBulkRead path) s = .next (State.finish (State.emit (.val path []) s0)))) ∧
     (s.house.bulkNamed = true → ∃ t : State, exec (.counterBulkRead .regPort) s = .next (State.finish (t.emit (.rp 0 0))) ∧
       t.house.xfer = bytes ∧ t.reg 0x10FD 0x02 = 0 ∧ (∀ i : Nat, i < high → t.ctr idx (i + 1) = 0) ∧ t.hearth = s.hearth) ∧
     (∀ i : Nat, i < high → (State.clearBlock idx s0).ctr idx (i + 1) = 0)) ∧
    (∀ (idx sub : Nat), (State.clearCtr idx sub s).ctr idx sub = 0)

/-- R408, R409: a write that passes the checks (`dictionaryWrite`), to an entry of plain storage, is what the entry holds afterwards: every other
entry of plain storage, the counters, the memories, the hanks and the frame stay as they were. The entries are those of access RW or WO that no
chapter gives an action of its own; the register port brings a word, with the high word of 0x10FE.02 for a U64 (R363). A write of 0x5FFE.01 notes as
well that an index has been named (R406). -/
def Obligations.PlainEntriesHoldWhatIsWritten : Prop :=
  ∀ (path : Path) (a : BitVec 24) (named n : Nat) (r : EntryRow) (mem : MemAns) (s : State),
    let s0 := State.begun mem s
    s0.sys.lzReset = false →
    entry? s0.straps.build (addrIdx a.toNat) (addrSub a.toNat) = some r → r.acc ≠ .rs → a.toNat ≠ 0x10FD04 →
    addrIdx a.toNat ∉ [0x10FB, 0x1230, 0x2070, 0x3100, 0x3110, 0x3200] →
    (addrIdx a.toNat = 0x10FD → addrSub a.toNat = 2) → (addrIdx a.toNat = 0x3070 → addrSub a.toNat < 0x10) →
    s0.carriedValue path a.toNat (.num named) = .num n → writable path a.toNat (.num named) s0 = true →
    (addrIdx a.toNat ≠ 0x5FFE → exec (.dictionaryWrite path a (.num named) mem) s = .next (State.finish (State.settleAll
      (State.answerWrite path .done (State.setReg (addrIdx a.toNat) (addrSub a.toNat) n s0))))) ∧
    (addrIdx a.toNat = 0x5FFE → exec (.dictionaryWrite path a (.num named) mem) s = .next (State.finish (State.settleAll
      (State.answerWrite path .done (State.setReg (addrIdx a.toNat) (addrSub a.toNat) n
        { s0 with house := { s0.house with bulkNamed := true } }))))) ∧
    (State.setReg (addrIdx a.toNat) (addrSub a.toNat) n s0).reg (addrIdx a.toNat) (addrSub a.toNat) = n ∧
    (∀ i k : Nat, addrOf i k ≠ addrOf (addrIdx a.toNat) (addrSub a.toNat) →
      (State.setReg (addrIdx a.toNat) (addrSub a.toNat) n s0).reg i k = s0.reg i k)

/-- R407: "A request to an absent index or subindex changes nothing." The register port answers with status 1 and a zero word, Ocper with status 3,
Jutus with "no such entry"; the request counts in 0x5000.0A and not as a refusal. -/
def Obligations.AbsentEntriesAreAnswered : Prop :=
  ∀ (a : BitVec 24) (w : BitVec 64) (h : RxHdr) (q : OcperReq) (mem : MemAns) (s : State),
    (s.sys.hk = .running → s.sys.lzReset = false → s.sys.ready = true →
      entry? s.straps.build (addrIdx a.toNat) (addrSub a.toNat) = none → a.toNat ≠ 0x10FD04 →
      exec (.u64ReadLatch a) s = .next (State.finish { State.bump 0x5000 0x0A 1 s with ans := .clean, out := [.rp 1 0] }) ∧
      exec (.jutusRead a) s = .next (State.finish { State.bump 0x5000 0x0A 1 s with ans := .clean, out := [.serial "no such entry\r\nlz> "] })) ∧
    (let s0 := State.begun mem s
     s0.sys.hk = .running → s0.sys.lzReset = false → s0.sys.ready = true →
      entry? s0.straps.build (addrIdx a.toNat) (addrSub a.toNat) = none → a.toNat ≠ 0x10FD04 →
      exec (.dictionaryWrite .regPort a (.num w.toNat) mem) s = .next (State.finish (State.settleAll
        (State.emit (.rp 1 0) (State.bump 0x5000 0x0A 1 s0)))) ∧
      (s0.house.jutus.unlocked = true → exec (.jutusWrite a w mem) s = .next (State.finish (State.settleAll
        (State.emit (.serial "no such entry\r\nlz> ") (State.bump 0x5000 0x0A 1 s0)))))) ∧
    (∀ c ∈ [Instr.ocperRead h q mem, .ocperWrite h q mem, .ocperBlockRead h q mem, .ocperBlockWriteSegment h q mem,
        .ocperBlockApply h q mem], Admits c s →
      let o := readOcper (messageIn c)
      let t := State.noteRequest o (takenIn c s)
      t.sys.hk = .running → o.badForm = false → entry? t.straps.build (addrIdx o.address) (addrSub o.address) = none → o.address ≠ 0x10FD04 →
      t.house.xids.contains (o.client, o.xid) = false →
      exec c s = .next (State.finish (State.settleAll (State.ocperAnswer o 3 [] (State.bump 0x5000 0x0A 1 t)))))
end

