-- ==== Sys2Proof/Laws/State.lean ====
section
/-! SUPPORT. What each plain update of the state leaves alone, field by field. -/

namespace Sys2Proof.Machine

/-! ### emit -/

@[simp] theorem State.emit_straps (o : Out) (s : State) : (State.emit o s).straps = s.straps := rfl
@[simp] theorem State.emit_sys (o : Out) (s : State) : (State.emit o s).sys = s.sys := rfl
@[simp] theorem State.emit_time (o : Out) (s : State) : (State.emit o s).time = s.time := rfl
@[simp] theorem State.emit_fr (o : Out) (s : State) : (State.emit o s).fr = s.fr := rfl
@[simp] theorem State.emit_planEff (o : Out) (s : State) : (State.emit o s).planEff = s.planEff := rfl
@[simp] theorem State.emit_planPend (o : Out) (s : State) : (State.emit o s).planPend = s.planPend := rfl
@[simp] theorem State.emit_adm (o : Out) (s : State) : (State.emit o s).adm = s.adm := rfl
@[simp] theorem State.emit_counters (o : Out) (s : State) : (State.emit o s).counters = s.counters := rfl
@[simp] theorem State.emit_regs (o : Out) (s : State) : (State.emit o s).regs = s.regs := rfl
@[simp] theorem State.emit_staged (o : Out) (s : State) : (State.emit o s).staged = s.staged := rfl
@[simp] theorem State.emit_hanks (o : Out) (s : State) : (State.emit o s).hanks = s.hanks := rfl
@[simp] theorem State.emit_hearth (o : Out) (s : State) : (State.emit o s).hearth = s.hearth := rfl
@[simp] theorem State.emit_pantry (o : Out) (s : State) : (State.emit o s).pantry = s.pantry := rfl
@[simp] theorem State.emit_nv (o : Out) (s : State) : (State.emit o s).nv = s.nv := rfl
@[simp] theorem State.emit_tier (o : Out) (s : State) : (State.emit o s).tier = s.tier := rfl
@[simp] theorem State.emit_land (o : Out) (s : State) : (State.emit o s).land = s.land := rfl
@[simp] theorem State.emit_card (o : Out) (s : State) : (State.emit o s).card = s.card := rfl
@[simp] theorem State.emit_code (o : Out) (s : State) : (State.emit o s).code = s.code := rfl
@[simp] theorem State.emit_loss (o : Out) (s : State) : (State.emit o s).loss = s.loss := rfl
@[simp] theorem State.emit_mem (o : Out) (s : State) : (State.emit o s).mem = s.mem := rfl
@[simp] theorem State.emit_led (o : Out) (s : State) : (State.emit o s).led = s.led := rfl
@[simp] theorem State.emit_whorl (o : Out) (s : State) : (State.emit o s).whorl = s.whorl := rfl
@[simp] theorem State.emit_fx (o : Out) (s : State) : (State.emit o s).fx = s.fx := rfl
@[simp] theorem State.emit_house (o : Out) (s : State) : (State.emit o s).house = s.house := rfl
@[simp] theorem State.emit_jtag (o : Out) (s : State) : (State.emit o s).jtag = s.jtag := rfl
@[simp] theorem State.emit_scrub (o : Out) (s : State) : (State.emit o s).scrub = s.scrub := rfl
@[simp] theorem State.emit_off (o : Out) (s : State) : (State.emit o s).off = s.off := rfl
@[simp] theorem State.emit_prev (o : Out) (s : State) : (State.emit o s).prev = s.prev := rfl
@[simp] theorem State.emit_ans (o : Out) (s : State) : (State.emit o s).ans = s.ans := rfl
@[simp] theorem State.emit_free (o : Out) (s : State) : (State.emit o s).free = s.free := rfl
@[simp] theorem State.emit_pending (o : Out) (s : State) : (State.emit o s).pending = s.pending := rfl

/-! ### bump -/

@[simp] theorem State.bump_straps (i k n : Nat) (s : State) : (State.bump i k n s).straps = s.straps := rfl
@[simp] theorem State.bump_sys (i k n : Nat) (s : State) : (State.bump i k n s).sys = s.sys := rfl
@[simp] theorem State.bump_time (i k n : Nat) (s : State) : (State.bump i k n s).time = s.time := rfl
@[simp] theorem State.bump_fr (i k n : Nat) (s : State) : (State.bump i k n s).fr = s.fr := rfl
@[simp] theorem State.bump_planEff (i k n : Nat) (s : State) : (State.bump i k n s).planEff = s.planEff := rfl
@[simp] theorem State.bump_planPend (i k n : Nat) (s : State) : (State.bump i k n s).planPend = s.planPend := rfl
@[simp] theorem State.bump_adm (i k n : Nat) (s : State) : (State.bump i k n s).adm = s.adm := rfl
@[simp] theorem State.bump_regs (i k n : Nat) (s : State) : (State.bump i k n s).regs = s.regs := rfl
@[simp] theorem State.bump_staged (i k n : Nat) (s : State) : (State.bump i k n s).staged = s.staged := rfl
@[simp] theorem State.bump_hanks (i k n : Nat) (s : State) : (State.bump i k n s).hanks = s.hanks := rfl
@[simp] theorem State.bump_hearth (i k n : Nat) (s : State) : (State.bump i k n s).hearth = s.hearth := rfl
@[simp] theorem State.bump_pantry (i k n : Nat) (s : State) : (State.bump i k n s).pantry = s.pantry := rfl
@[simp] theorem State.bump_nv (i k n : Nat) (s : State) : (State.bump i k n s).nv = s.nv := rfl
@[simp] theorem State.bump_tier (i k n : Nat) (s : State) : (State.bump i k n s).tier = s.tier := rfl
@[simp] theorem State.bump_land (i k n : Nat) (s : State) : (State.bump i k n s).land = s.land := rfl
@[simp] theorem State.bump_card (i k n : Nat) (s : State) : (State.bump i k n s).card = s.card := rfl
@[simp] theorem State.bump_code (i k n : Nat) (s : State) : (State.bump i k n s).code = s.code := rfl
@[simp] theorem State.bump_loss (i k n : Nat) (s : State) : (State.bump i k n s).loss = s.loss := rfl
@[simp] theorem State.bump_mem (i k n : Nat) (s : State) : (State.bump i k n s).mem = s.mem := rfl
@[simp] theorem State.bump_led (i k n : Nat) (s : State) : (State.bump i k n s).led = s.led := rfl
@[simp] theorem State.bump_whorl (i k n : Nat) (s : State) : (State.bump i k n s).whorl = s.whorl := rfl
@[simp] theorem State.bump_fx (i k n : Nat) (s : State) : (State.bump i k n s).fx = s.fx := rfl
@[simp] theorem State.bump_house (i k n : Nat) (s : State) : (State.bump i k n s).house = s.house := rfl
@[simp] theorem State.bump_jtag (i k n : Nat) (s : State) : (State.bump i k n s).jtag = s.jtag := rfl
@[simp] theorem State.bump_scrub (i k n : Nat) (s : State) : (State.bump i k n s).scrub = s.scrub := rfl
@[simp] theorem State.bump_off (i k n : Nat) (s : State) : (State.bump i k n s).off = s.off := rfl
@[simp] theorem State.bump_prev (i k n : Nat) (s : State) : (State.bump i k n s).prev = s.prev := rfl
@[simp] theorem State.bump_ans (i k n : Nat) (s : State) : (State.bump i k n s).ans = s.ans := rfl
@[simp] theorem State.bump_out (i k n : Nat) (s : State) : (State.bump i k n s).out = s.out := rfl
@[simp] theorem State.bump_free (i k n : Nat) (s : State) : (State.bump i k n s).free = s.free := rfl
@[simp] theorem State.bump_pending (i k n : Nat) (s : State) : (State.bump i k n s).pending = s.pending := rfl

/-! ### clearCtr -/

@[simp] theorem State.clearCtr_straps (i k : Nat) (s : State) : (State.clearCtr i k s).straps = s.straps := rfl
@[simp] theorem State.clearCtr_sys (i k : Nat) (s : State) : (State.clearCtr i k s).sys = s.sys := rfl
@[simp] theorem State.clearCtr_time (i k : Nat) (s : State) : (State.clearCtr i k s).time = s.time := rfl
@[simp] theorem State.clearCtr_fr (i k : Nat) (s : State) : (State.clearCtr i k s).fr = s.fr := rfl
@[simp] theorem State.clearCtr_planEff (i k : Nat) (s : State) : (State.clearCtr i k s).planEff = s.planEff := rfl
@[simp] theorem State.clearCtr_planPend (i k : Nat) (s : State) : (State.clearCtr i k s).planPend = s.planPend := rfl
@[simp] theorem State.clearCtr_adm (i k : Nat) (s : State) : (State.clearCtr i k s).adm = s.adm := rfl
@[simp] theorem State.clearCtr_regs (i k : Nat) (s : State) : (State.clearCtr i k s).regs = s.regs := rfl
@[simp] theorem State.clearCtr_staged (i k : Nat) (s : State) : (State.clearCtr i k s).staged = s.staged := rfl
@[simp] theorem State.clearCtr_hanks (i k : Nat) (s : State) : (State.clearCtr i k s).hanks = s.hanks := rfl
@[simp] theorem State.clearCtr_hearth (i k : Nat) (s : State) : (State.clearCtr i k s).hearth = s.hearth := rfl
@[simp] theorem State.clearCtr_pantry (i k : Nat) (s : State) : (State.clearCtr i k s).pantry = s.pantry := rfl
@[simp] theorem State.clearCtr_nv (i k : Nat) (s : State) : (State.clearCtr i k s).nv = s.nv := rfl
@[simp] theorem State.clearCtr_tier (i k : Nat) (s : State) : (State.clearCtr i k s).tier = s.tier := rfl
@[simp] theorem State.clearCtr_land (i k : Nat) (s : State) : (State.clearCtr i k s).land = s.land := rfl
@[simp] theorem State.clearCtr_card (i k : Nat) (s : State) : (State.clearCtr i k s).card = s.card := rfl
@[simp] theorem State.clearCtr_code (i k : Nat) (s : State) : (State.clearCtr i k s).code = s.code := rfl
@[simp] theorem State.clearCtr_loss (i k : Nat) (s : State) : (State.clearCtr i k s).loss = s.loss := rfl
@[simp] theorem State.clearCtr_mem (i k : Nat) (s : State) : (State.clearCtr i k s).mem = s.mem := rfl
@[simp] theorem State.clearCtr_led (i k : Nat) (s : State) : (State.clearCtr i k s).led = s.led := rfl
@[simp] theorem State.clearCtr_whorl (i k : Nat) (s : State) : (State.clearCtr i k s).whorl = s.whorl := rfl
@[simp] theorem State.clearCtr_fx (i k : Nat) (s : State) : (State.clearCtr i k s).fx = s.fx := rfl
@[simp] theorem State.clearCtr_house (i k : Nat) (s : State) : (State.clearCtr i k s).house = s.house := rfl
@[simp] theorem State.clearCtr_jtag (i k : Nat) (s : State) : (State.clearCtr i k s).jtag = s.jtag := rfl
@[simp] theorem State.clearCtr_scrub (i k : Nat) (s : State) : (State.clearCtr i k s).scrub = s.scrub := rfl
@[simp] theorem State.clearCtr_off (i k : Nat) (s : State) : (State.clearCtr i k s).off = s.off := rfl
@[simp] theorem State.clearCtr_prev (i k : Nat) (s : State) : (State.clearCtr i k s).prev = s.prev := rfl
@[simp] theorem State.clearCtr_ans (i k : Nat) (s : State) : (State.clearCtr i k s).ans = s.ans := rfl
@[simp] theorem State.clearCtr_out (i k : Nat) (s : State) : (State.clearCtr i k s).out = s.out := rfl
@[simp] theorem State.clearCtr_free (i k : Nat) (s : State) : (State.clearCtr i k s).free = s.free := rfl
@[simp] theorem State.clearCtr_pending (i k : Nat) (s : State) : (State.clearCtr i k s).pending = s.pending := rfl

/-! ### setReg -/

@[simp] theorem State.setReg_straps (i k v : Nat) (s : State) : (State.setReg i k v s).straps = s.straps := rfl
@[simp] theorem State.setReg_sys (i k v : Nat) (s : State) : (State.setReg i k v s).sys = s.sys := rfl
@[simp] theorem State.setReg_time (i k v : Nat) (s : State) : (State.setReg i k v s).time = s.time := rfl
@[simp] theorem State.setReg_fr (i k v : Nat) (s : State) : (State.setReg i k v s).fr = s.fr := rfl
@[simp] theorem State.setReg_planEff (i k v : Nat) (s : State) : (State.setReg i k v s).planEff = s.planEff := rfl
@[simp] theorem State.setReg_planPend (i k v : Nat) (s : State) : (State.setReg i k v s).planPend = s.planPend := rfl
@[simp] theorem State.setReg_adm (i k v : Nat) (s : State) : (State.setReg i k v s).adm = s.adm := rfl
@[simp] theorem State.setReg_counters (i k v : Nat) (s : State) : (State.setReg i k v s).counters = s.counters := rfl
@[simp] theorem State.setReg_staged (i k v : Nat) (s : State) : (State.setReg i k v s).staged = s.staged := rfl
@[simp] theorem State.setReg_hanks (i k v : Nat) (s : State) : (State.setReg i k v s).hanks = s.hanks := rfl
@[simp] theorem State.setReg_hearth (i k v : Nat) (s : State) : (State.setReg i k v s).hearth = s.hearth := rfl
@[simp] theorem State.setReg_pantry (i k v : Nat) (s : State) : (State.setReg i k v s).pantry = s.pantry := rfl
@[simp] theorem State.setReg_nv (i k v : Nat) (s : State) : (State.setReg i k v s).nv = s.nv := rfl
@[simp] theorem State.setReg_tier (i k v : Nat) (s : State) : (State.setReg i k v s).tier = s.tier := rfl
@[simp] theorem State.setReg_land (i k v : Nat) (s : State) : (State.setReg i k v s).land = s.land := rfl
@[simp] theorem State.setReg_card (i k v : Nat) (s : State) : (State.setReg i k v s).card = s.card := rfl
@[simp] theorem State.setReg_code (i k v : Nat) (s : State) : (State.setReg i k v s).code = s.code := rfl
@[simp] theorem State.setReg_loss (i k v : Nat) (s : State) : (State.setReg i k v s).loss = s.loss := rfl
@[simp] theorem State.setReg_mem (i k v : Nat) (s : State) : (State.setReg i k v s).mem = s.mem := rfl
@[simp] theorem State.setReg_led (i k v : Nat) (s : State) : (State.setReg i k v s).led = s.led := rfl
@[simp] theorem State.setReg_whorl (i k v : Nat) (s : State) : (State.setReg i k v s).whorl = s.whorl := rfl
@[simp] theorem State.setReg_fx (i k v : Nat) (s : State) : (State.setReg i k v s).fx = s.fx := rfl
@[simp] theorem State.setReg_house (i k v : Nat) (s : State) : (State.setReg i k v s).house = s.house := rfl
@[simp] theorem State.setReg_jtag (i k v : Nat) (s : State) : (State.setReg i k v s).jtag = s.jtag := rfl
@[simp] theorem State.setReg_scrub (i k v : Nat) (s : State) : (State.setReg i k v s).scrub = s.scrub := rfl
@[simp] theorem State.setReg_off (i k v : Nat) (s : State) : (State.setReg i k v s).off = s.off := rfl
@[simp] theorem State.setReg_prev (i k v : Nat) (s : State) : (State.setReg i k v s).prev = s.prev := rfl
@[simp] theorem State.setReg_ans (i k v : Nat) (s : State) : (State.setReg i k v s).ans = s.ans := rfl
@[simp] theorem State.setReg_out (i k v : Nat) (s : State) : (State.setReg i k v s).out = s.out := rfl
@[simp] theorem State.setReg_free (i k v : Nat) (s : State) : (State.setReg i k v s).free = s.free := rfl
@[simp] theorem State.setReg_pending (i k v : Nat) (s : State) : (State.setReg i k v s).pending = s.pending := rfl

/-! ### unstage -/

@[simp] theorem State.unstage_straps (i k : Nat) (s : State) : (State.unstage i k s).straps = s.straps := rfl
@[simp] theorem State.unstage_sys (i k : Nat) (s : State) : (State.unstage i k s).sys = s.sys := rfl
@[simp] theorem State.unstage_time (i k : Nat) (s : State) : (State.unstage i k s).time = s.time := rfl
@[simp] theorem State.unstage_fr (i k : Nat) (s : State) : (State.unstage i k s).fr = s.fr := rfl
@[simp] theorem State.unstage_planEff (i k : Nat) (s : State) : (State.unstage i k s).planEff = s.planEff := rfl
@[simp] theorem State.unstage_planPend (i k : Nat) (s : State) : (State.unstage i k s).planPend = s.planPend := rfl
@[simp] theorem State.unstage_adm (i k : Nat) (s : State) : (State.unstage i k s).adm = s.adm := rfl
@[simp] theorem State.unstage_counters (i k : Nat) (s : State) : (State.unstage i k s).counters = s.counters := rfl
@[simp] theorem State.unstage_regs (i k : Nat) (s : State) : (State.unstage i k s).regs = s.regs := rfl
@[simp] theorem State.unstage_hanks (i k : Nat) (s : State) : (State.unstage i k s).hanks = s.hanks := rfl
@[simp] theorem State.unstage_hearth (i k : Nat) (s : State) : (State.unstage i k s).hearth = s.hearth := rfl
@[simp] theorem State.unstage_pantry (i k : Nat) (s : State) : (State.unstage i k s).pantry = s.pantry := rfl
@[simp] theorem State.unstage_nv (i k : Nat) (s : State) : (State.unstage i k s).nv = s.nv := rfl
@[simp] theorem State.unstage_tier (i k : Nat) (s : State) : (State.unstage i k s).tier = s.tier := rfl
@[simp] theorem State.unstage_land (i k : Nat) (s : State) : (State.unstage i k s).land = s.land := rfl
@[simp] theorem State.unstage_card (i k : Nat) (s : State) : (State.unstage i k s).card = s.card := rfl
@[simp] theorem State.unstage_code (i k : Nat) (s : State) : (State.unstage i k s).code = s.code := rfl
@[simp] theorem State.unstage_loss (i k : Nat) (s : State) : (State.unstage i k s).loss = s.loss := rfl
@[simp] theorem State.unstage_mem (i k : Nat) (s : State) : (State.unstage i k s).mem = s.mem := rfl
@[simp] theorem State.unstage_led (i k : Nat) (s : State) : (State.unstage i k s).led = s.led := rfl
@[simp] theorem State.unstage_whorl (i k : Nat) (s : State) : (State.unstage i k s).whorl = s.whorl := rfl
@[simp] theorem State.unstage_fx (i k : Nat) (s : State) : (State.unstage i k s).fx = s.fx := rfl
@[simp] theorem State.unstage_house (i k : Nat) (s : State) : (State.unstage i k s).house = s.house := rfl
@[simp] theorem State.unstage_jtag (i k : Nat) (s : State) : (State.unstage i k s).jtag = s.jtag := rfl
@[simp] theorem State.unstage_scrub (i k : Nat) (s : State) : (State.unstage i k s).scrub = s.scrub := rfl
@[simp] theorem State.unstage_off (i k : Nat) (s : State) : (State.unstage i k s).off = s.off := rfl
@[simp] theorem State.unstage_prev (i k : Nat) (s : State) : (State.unstage i k s).prev = s.prev := rfl
@[simp] theorem State.unstage_ans (i k : Nat) (s : State) : (State.unstage i k s).ans = s.ans := rfl
@[simp] theorem State.unstage_out (i k : Nat) (s : State) : (State.unstage i k s).out = s.out := rfl
@[simp] theorem State.unstage_free (i k : Nat) (s : State) : (State.unstage i k s).free = s.free := rfl
@[simp] theorem State.unstage_pending (i k : Nat) (s : State) : (State.unstage i k s).pending = s.pending := rfl

/-! ### tell -/

/-- A write put on its way, or behind the request that it must not overtake, shows there alone. -/
theorem State.tell_eq (o : Out) (s : State) : State.tell o s = { s with out := (State.tell o s).out, scrub := (State.tell o s).scrub } := by
  unfold State.tell
  split <;> rfl

/-- What does not depend on the ports and the scrubber does not see it. -/
theorem State.tell_of {α : Type} (f : State → α) {o : Out} {s : State}
    (hf : f { s with out := (State.tell o s).out, scrub := (State.tell o s).scrub } = f s) : f (State.tell o s) = f s :=
  (congrArg f (State.tell_eq o s)).trans hf

@[simp] theorem State.tell_straps (o : Out) (s : State) : (State.tell o s).straps = s.straps := State.tell_of State.straps rfl
@[simp] theorem State.tell_sys (o : Out) (s : State) : (State.tell o s).sys = s.sys := State.tell_of State.sys rfl
@[simp] theorem State.tell_time (o : Out) (s : State) : (State.tell o s).time = s.time := State.tell_of State.time rfl
@[simp] theorem State.tell_fr (o : Out) (s : State) : (State.tell o s).fr = s.fr := State.tell_of State.fr rfl
@[simp] theorem State.tell_planEff (o : Out) (s : State) : (State.tell o s).planEff = s.planEff := State.tell_of State.planEff rfl
@[simp] theorem State.tell_planPend (o : Out) (s : State) : (State.tell o s).planPend = s.planPend := State.tell_of State.planPend rfl
@[simp] theorem State.tell_adm (o : Out) (s : State) : (State.tell o s).adm = s.adm := State.tell_of State.adm rfl
@[simp] theorem State.tell_counters (o : Out) (s : State) : (State.tell o s).counters = s.counters := State.tell_of State.counters rfl
@[simp] theorem State.tell_regs (o : Out) (s : State) : (State.tell o s).regs = s.regs := State.tell_of State.regs rfl
@[simp] theorem State.tell_staged (o : Out) (s : State) : (State.tell o s).staged = s.staged := State.tell_of State.staged rfl
@[simp] theorem State.tell_hanks (o : Out) (s : State) : (State.tell o s).hanks = s.hanks := State.tell_of State.hanks rfl
@[simp] theorem State.tell_hearth (o : Out) (s : State) : (State.tell o s).hearth = s.hearth := State.tell_of State.hearth rfl
@[simp] theorem State.tell_pantry (o : Out) (s : State) : (State.tell o s).pantry = s.pantry := State.tell_of State.pantry rfl
@[simp] theorem State.tell_nv (o : Out) (s : State) : (State.tell o s).nv = s.nv := State.tell_of State.nv rfl
@[simp] theorem State.tell_tier (o : Out) (s : State) : (State.tell o s).tier = s.tier := State.tell_of State.tier rfl
@[simp] theorem State.tell_land (o : Out) (s : State) : (State.tell o s).land = s.land := State.tell_of State.land rfl
@[simp] theorem State.tell_card (o : Out) (s : State) : (State.tell o s).card = s.card := State.tell_of State.card rfl
@[simp] theorem State.tell_code (o : Out) (s : State) : (State.tell o s).code = s.code := State.tell_of State.code rfl
@[simp] theorem State.tell_loss (o : Out) (s : State) : (State.tell o s).loss = s.loss := State.tell_of State.loss rfl
@[simp] theorem State.tell_mem (o : Out) (s : State) : (State.tell o s).mem = s.mem := State.tell_of State.mem rfl
@[simp] theorem State.tell_led (o : Out) (s : State) : (State.tell o s).led = s.led := State.tell_of State.led rfl
@[simp] theorem State.tell_whorl (o : Out) (s : State) : (State.tell o s).whorl = s.whorl := State.tell_of State.whorl rfl
@[simp] theorem State.tell_fx (o : Out) (s : State) : (State.tell o s).fx = s.fx := State.tell_of State.fx rfl
@[simp] theorem State.tell_house (o : Out) (s : State) : (State.tell o s).house = s.house := State.tell_of State.house rfl
@[simp] theorem State.tell_jtag (o : Out) (s : State) : (State.tell o s).jtag = s.jtag := State.tell_of State.jtag rfl
@[simp] theorem State.tell_off (o : Out) (s : State) : (State.tell o s).off = s.off := State.tell_of State.off rfl
@[simp] theorem State.tell_prev (o : Out) (s : State) : (State.tell o s).prev = s.prev := State.tell_of State.prev rfl
@[simp] theorem State.tell_ans (o : Out) (s : State) : (State.tell o s).ans = s.ans := State.tell_of State.ans rfl
@[simp] theorem State.tell_free (o : Out) (s : State) : (State.tell o s).free = s.free := State.tell_of State.free rfl
@[simp] theorem State.tell_pending (o : Out) (s : State) : (State.tell o s).pending = s.pending := State.tell_of State.pending rfl

/-! ### hearthWrite -/

@[simp] theorem State.hearthWrite_straps (a : Nat) (bs : Bytes) (s : State) : (State.hearthWrite a bs s).straps = s.straps :=
  State.tell_of State.straps rfl
@[simp] theorem State.hearthWrite_sys (a : Nat) (bs : Bytes) (s : State) : (State.hearthWrite a bs s).sys = s.sys :=
  State.tell_of State.sys rfl
@[simp] theorem State.hearthWrite_time (a : Nat) (bs : Bytes) (s : State) : (State.hearthWrite a bs s).time = s.time :=
  State.tell_of State.time rfl
@[simp] theorem State.hearthWrite_fr (a : Nat) (bs : Bytes) (s : State) : (State.hearthWrite a bs s).fr = s.fr :=
  State.tell_of State.fr rfl
@[simp] theorem State.hearthWrite_planEff (a : Nat) (bs : Bytes) (s : State) : (State.hearthWrite a bs s).planEff = s.planEff :=
  State.tell_of State.planEff rfl
@[simp] theorem State.hearthWrite_planPend (a : Nat) (bs : Bytes) (s : State) : (State.hearthWrite a bs s).planPend = s.planPend :=
  State.tell_of State.planPend rfl
@[simp] theorem State.hearthWrite_adm (a : Nat) (bs : Bytes) (s : State) : (State.hearthWrite a bs s).adm = s.adm :=
  State.tell_of State.adm rfl
@[simp] theorem State.hearthWrite_counters (a : Nat) (bs : Bytes) (s : State) : (State.hearthWrite a bs s).counters = s.counters :=
  State.tell_of State.counters rfl
@[simp] theorem State.hearthWrite_regs (a : Nat) (bs : Bytes) (s : State) : (State.hearthWrite a bs s).regs = s.regs :=
  State.tell_of State.regs rfl
@[simp] theorem State.hearthWrite_staged (a : Nat) (bs : Bytes) (s : State) : (State.hearthWrite a bs s).staged = s.staged :=
  State.tell_of State.staged rfl
@[simp] theorem State.hearthWrite_hanks (a : Nat) (bs : Bytes) (s : State) : (State.hearthWrite a bs s).hanks = s.hanks :=
  State.tell_of State.hanks rfl
@[simp] theorem State.hearthWrite_pantry (a : Nat) (bs : Bytes) (s : State) : (State.hearthWrite a bs s).pantry = s.pantry :=
  State.tell_of State.pantry rfl
@[simp] theorem State.hearthWrite_nv (a : Nat) (bs : Bytes) (s : State) : (State.hearthWrite a bs s).nv = s.nv :=
  State.tell_of State.nv rfl
@[simp] theorem State.hearthWrite_tier (a : Nat) (bs : Bytes) (s : State) : (State.hearthWrite a bs s).tier = s.tier :=
  State.tell_of State.tier rfl
@[simp] theorem State.hearthWrite_land (a : Nat) (bs : Bytes) (s : State) : (State.hearthWrite a bs s).land = s.land :=
  State.tell_of State.land rfl
@[simp] theorem State.hearthWrite_card (a : Nat) (bs : Bytes) (s : State) : (State.hearthWrite a bs s).card = s.card :=
  State.tell_of State.card rfl
@[simp] theorem State.hearthWrite_code (a : Nat) (bs : Bytes) (s : State) : (State.hearthWrite a bs s).code = s.code :=
  State.tell_of State.code rfl
@[simp] theorem State.hearthWrite_loss (a : Nat) (bs : Bytes) (s : State) : (State.hearthWrite a bs s).loss = s.loss :=
  State.tell_of State.loss rfl
@[simp] theorem State.hearthWrite_mem (a : Nat) (bs : Bytes) (s : State) : (State.hearthWrite a bs s).mem = s.mem :=
  State.tell_of State.mem rfl
@[simp] theorem State.hearthWrite_led (a : Nat) (bs : Bytes) (s : State) : (State.hearthWrite a bs s).led = s.led :=
  State.tell_of State.led rfl
@[simp] theorem State.hearthWrite_whorl (a : Nat) (bs : Bytes) (s : State) : (State.hearthWrite a bs s).whorl = s.whorl :=
  State.tell_of State.whorl rfl
@[simp] theorem State.hearthWrite_fx (a : Nat) (bs : Bytes) (s : State) : (State.hearthWrite a bs s).fx = s.fx :=
  State.tell_of State.fx rfl
@[simp] theorem State.hearthWrite_house (a : Nat) (bs : Bytes) (s : State) : (State.hearthWrite a bs s).house = s.house :=
  State.tell_of State.house rfl
@[simp] theorem State.hearthWrite_jtag (a : Nat) (bs : Bytes) (s : State) : (State.hearthWrite a bs s).jtag = s.jtag :=
  State.tell_of State.jtag rfl
@[simp] theorem State.hearthWrite_off (a : Nat) (bs : Bytes) (s : State) : (State.hearthWrite a bs s).off = s.off :=
  State.tell_of State.off rfl
@[simp] theorem State.hearthWrite_prev (a : Nat) (bs : Bytes) (s : State) : (State.hearthWrite a bs s).prev = s.prev :=
  State.tell_of State.prev rfl
@[simp] theorem State.hearthWrite_ans (a : Nat) (bs : Bytes) (s : State) : (State.hearthWrite a bs s).ans = s.ans :=
  State.tell_of State.ans rfl
@[simp] theorem State.hearthWrite_free (a : Nat) (bs : Bytes) (s : State) : (State.hearthWrite a bs s).free = s.free :=
  State.tell_of State.free rfl
@[simp] theorem State.hearthWrite_pending (a : Nat) (bs : Bytes) (s : State) : (State.hearthWrite a bs s).pending = s.pending :=
  State.tell_of State.pending rfl

/-! ### pantryWrite -/

/-- The writes of lines only show on the pantry ways and in what waits for them. -/
theorem State.tellLines_eq (off : Nat) (bs : Bytes) (s : State) :
    State.tellLines off bs s = { s with out := (State.tellLines off bs s).out, scrub := (State.tellLines off bs s).scrub } := by
  unfold State.tellLines forEach
  generalize List.range _ = l
  induction l generalizing s with
  | nil => rfl
  | cons i is ih =>
    simp only [List.foldl_cons]
    rw [ih, State.tell_eq]

/-- What does not depend on them does not see them. -/
theorem State.tellLines_of {α : Type} (f : State → α) {off : Nat} {bs : Bytes} {s : State}
    (hf : f { s with out := (State.tellLines off bs s).out, scrub := (State.tellLines off bs s).scrub } = f s) :
    f (State.tellLines off bs s) = f s :=
  (congrArg f (State.tellLines_eq off bs s)).trans hf

@[simp] theorem State.pantryWrite_straps (off : Nat) (bs : Bytes) (s : State) : (State.pantryWrite off bs s).straps = s.straps :=
  State.tellLines_of State.straps rfl
@[simp] theorem State.pantryWrite_sys (off : Nat) (bs : Bytes) (s : State) : (State.pantryWrite off bs s).sys = s.sys :=
  State.tellLines_of State.sys rfl
@[simp] theorem State.pantryWrite_time (off : Nat) (bs : Bytes) (s : State) : (State.pantryWrite off bs s).time = s.time :=
  State.tellLines_of State.time rfl
@[simp] theorem State.pantryWrite_fr (off : Nat) (bs : Bytes) (s : State) : (State.pantryWrite off bs s).fr = s.fr :=
  State.tellLines_of State.fr rfl
@[simp] theorem State.pantryWrite_planEff (off : Nat) (bs : Bytes) (s : State) : (State.pantryWrite off bs s).planEff = s.planEff :=
  State.tellLines_of State.planEff rfl
@[simp] theorem State.pantryWrite_planPend (off : Nat) (bs : Bytes) (s : State) : (State.pantryWrite off bs s).planPend = s.planPend :=
  State.tellLines_of State.planPend rfl
@[simp] theorem State.pantryWrite_adm (off : Nat) (bs : Bytes) (s : State) : (State.pantryWrite off bs s).adm = s.adm :=
  State.tellLines_of State.adm rfl
@[simp] theorem State.pantryWrite_counters (off : Nat) (bs : Bytes) (s : State) : (State.pantryWrite off bs s).counters = s.counters :=
  State.tellLines_of State.counters rfl
@[simp] theorem State.pantryWrite_regs (off : Nat) (bs : Bytes) (s : State) : (State.pantryWrite off bs s).regs = s.regs :=
  State.tellLines_of State.regs rfl
@[simp] theorem State.pantryWrite_staged (off : Nat) (bs : Bytes) (s : State) : (State.pantryWrite off bs s).staged = s.staged :=
  State.tellLines_of State.staged rfl
@[simp] theorem State.pantryWrite_hanks (off : Nat) (bs : Bytes) (s : State) : (State.pantryWrite off bs s).hanks = s.hanks :=
  State.tellLines_of State.hanks rfl
@[simp] theorem State.pantryWrite_hearth (off : Nat) (bs : Bytes) (s : State) : (State.pantryWrite off bs s).hearth = s.hearth :=
  State.tellLines_of State.hearth rfl
@[simp] theorem State.pantryWrite_nv (off : Nat) (bs : Bytes) (s : State) : (State.pantryWrite off bs s).nv = s.nv :=
  State.tellLines_of State.nv rfl
@[simp] theorem State.pantryWrite_tier (off : Nat) (bs : Bytes) (s : State) : (State.pantryWrite off bs s).tier = s.tier :=
  State.tellLines_of State.tier rfl
@[simp] theorem State.pantryWrite_land (off : Nat) (bs : Bytes) (s : State) : (State.pantryWrite off bs s).land = s.land :=
  State.tellLines_of State.land rfl
@[simp] theorem State.pantryWrite_card (off : Nat) (bs : Bytes) (s : State) : (State.pantryWrite off bs s).card = s.card :=
  State.tellLines_of State.card rfl
@[simp] theorem State.pantryWrite_code (off : Nat) (bs : Bytes) (s : State) : (State.pantryWrite off bs s).code = s.code :=
  State.tellLines_of State.code rfl
@[simp] theorem State.pantryWrite_loss (off : Nat) (bs : Bytes) (s : State) : (State.pantryWrite off bs s).loss = s.loss :=
  State.tellLines_of State.loss rfl
@[simp] theorem State.pantryWrite_mem (off : Nat) (bs : Bytes) (s : State) : (State.pantryWrite off bs s).mem = s.mem :=
  State.tellLines_of State.mem rfl
@[simp] theorem State.pantryWrite_led (off : Nat) (bs : Bytes) (s : State) : (State.pantryWrite off bs s).led = s.led :=
  State.tellLines_of State.led rfl
@[simp] theorem State.pantryWrite_whorl (off : Nat) (bs : Bytes) (s : State) : (State.pantryWrite off bs s).whorl = s.whorl :=
  State.tellLines_of State.whorl rfl
@[simp] theorem State.pantryWrite_fx (off : Nat) (bs : Bytes) (s : State) : (State.pantryWrite off bs s).fx = s.fx :=
  State.tellLines_of State.fx rfl
@[simp] theorem State.pantryWrite_house (off : Nat) (bs : Bytes) (s : State) : (State.pantryWrite off bs s).house = s.house :=
  State.tellLines_of State.house rfl
@[simp] theorem State.pantryWrite_jtag (off : Nat) (bs : Bytes) (s : State) : (State.pantryWrite off bs s).jtag = s.jtag :=
  State.tellLines_of State.jtag rfl
@[simp] theorem State.pantryWrite_off (off : Nat) (bs : Bytes) (s : State) : (State.pantryWrite off bs s).off = s.off :=
  State.tellLines_of State.off rfl
@[simp] theorem State.pantryWrite_prev (off : Nat) (bs : Bytes) (s : State) : (State.pantryWrite off bs s).prev = s.prev :=
  State.tellLines_of State.prev rfl
@[simp] theorem State.pantryWrite_ans (off : Nat) (bs : Bytes) (s : State) : (State.pantryWrite off bs s).ans = s.ans :=
  State.tellLines_of State.ans rfl
@[simp] theorem State.pantryWrite_free (off : Nat) (bs : Bytes) (s : State) : (State.pantryWrite off bs s).free = s.free :=
  State.tellLines_of State.free rfl
@[simp] theorem State.pantryWrite_pending (off : Nat) (bs : Bytes) (s : State) : (State.pantryWrite off bs s).pending = s.pending :=
  State.tellLines_of State.pending rfl

/-! ### begin -/

@[simp] theorem State.begin_straps (mem : MemAns) (s : State) : (State.begin mem s).straps = s.straps := rfl
@[simp] theorem State.begin_sys (mem : MemAns) (s : State) : (State.begin mem s).sys = s.sys := rfl
@[simp] theorem State.begin_time (mem : MemAns) (s : State) : (State.begin mem s).time = s.time := rfl
@[simp] theorem State.begin_fr (mem : MemAns) (s : State) : (State.begin mem s).fr = s.fr := rfl
@[simp] theorem State.begin_planEff (mem : MemAns) (s : State) : (State.begin mem s).planEff = s.planEff := rfl
@[simp] theorem State.begin_planPend (mem : MemAns) (s : State) : (State.begin mem s).planPend = s.planPend := rfl
@[simp] theorem State.begin_adm (mem : MemAns) (s : State) : (State.begin mem s).adm = s.adm := rfl
@[simp] theorem State.begin_counters (mem : MemAns) (s : State) : (State.begin mem s).counters = s.counters := rfl
@[simp] theorem State.begin_regs (mem : MemAns) (s : State) : (State.begin mem s).regs = s.regs := rfl
@[simp] theorem State.begin_staged (mem : MemAns) (s : State) : (State.begin mem s).staged = s.staged := rfl
@[simp] theorem State.begin_hanks (mem : MemAns) (s : State) : (State.begin mem s).hanks = s.hanks := rfl
@[simp] theorem State.begin_hearth (mem : MemAns) (s : State) : (State.begin mem s).hearth = s.hearth := rfl
@[simp] theorem State.begin_pantry (mem : MemAns) (s : State) : (State.begin mem s).pantry = s.pantry := rfl
@[simp] theorem State.begin_nv (mem : MemAns) (s : State) : (State.begin mem s).nv = s.nv := rfl
@[simp] theorem State.begin_tier (mem : MemAns) (s : State) : (State.begin mem s).tier = s.tier := rfl
@[simp] theorem State.begin_land (mem : MemAns) (s : State) : (State.begin mem s).land = s.land := rfl
@[simp] theorem State.begin_card (mem : MemAns) (s : State) : (State.begin mem s).card = s.card := rfl
@[simp] theorem State.begin_code (mem : MemAns) (s : State) : (State.begin mem s).code = s.code := rfl
@[simp] theorem State.begin_loss (mem : MemAns) (s : State) : (State.begin mem s).loss = s.loss := rfl
@[simp] theorem State.begin_mem (mem : MemAns) (s : State) : (State.begin mem s).mem = s.mem := rfl
@[simp] theorem State.begin_led (mem : MemAns) (s : State) : (State.begin mem s).led = s.led := rfl
@[simp] theorem State.begin_whorl (mem : MemAns) (s : State) : (State.begin mem s).whorl = s.whorl := rfl
@[simp] theorem State.begin_fx (mem : MemAns) (s : State) : (State.begin mem s).fx = s.fx := rfl
@[simp] theorem State.begin_house (mem : MemAns) (s : State) : (State.begin mem s).house = s.house := rfl
@[simp] theorem State.begin_jtag (mem : MemAns) (s : State) : (State.begin mem s).jtag = s.jtag := rfl
@[simp] theorem State.begin_scrub (mem : MemAns) (s : State) : (State.begin mem s).scrub = s.scrub := rfl
@[simp] theorem State.begin_off (mem : MemAns) (s : State) : (State.begin mem s).off = s.off := rfl
@[simp] theorem State.begin_prev (mem : MemAns) (s : State) : (State.begin mem s).prev = s.prev := rfl
@[simp] theorem State.begin_free (mem : MemAns) (s : State) : (State.begin mem s).free = s.free := rfl
@[simp] theorem State.begin_pending (mem : MemAns) (s : State) : (State.begin mem s).pending = s.pending := rfl

/-! ### setAdm -/

@[simp] theorem State.setAdm_straps (a : AdmSt) (s : State) : (State.setAdm a s).straps = s.straps := rfl
@[simp] theorem State.setAdm_sys (a : AdmSt) (s : State) : (State.setAdm a s).sys = s.sys := rfl
@[simp] theorem State.setAdm_time (a : AdmSt) (s : State) : (State.setAdm a s).time = s.time := rfl
@[simp] theorem State.setAdm_fr (a : AdmSt) (s : State) : (State.setAdm a s).fr = s.fr := rfl
@[simp] theorem State.setAdm_planEff (a : AdmSt) (s : State) : (State.setAdm a s).planEff = s.planEff := rfl
@[simp] theorem State.setAdm_planPend (a : AdmSt) (s : State) : (State.setAdm a s).planPend = s.planPend := rfl
@[simp] theorem State.setAdm_counters (a : AdmSt) (s : State) : (State.setAdm a s).counters = s.counters := rfl
@[simp] theorem State.setAdm_regs (a : AdmSt) (s : State) : (State.setAdm a s).regs = s.regs := rfl
@[simp] theorem State.setAdm_staged (a : AdmSt) (s : State) : (State.setAdm a s).staged = s.staged := rfl
@[simp] theorem State.setAdm_hanks (a : AdmSt) (s : State) : (State.setAdm a s).hanks = s.hanks := rfl
@[simp] theorem State.setAdm_hearth (a : AdmSt) (s : State) : (State.setAdm a s).hearth = s.hearth := rfl
@[simp] theorem State.setAdm_pantry (a : AdmSt) (s : State) : (State.setAdm a s).pantry = s.pantry := rfl
@[simp] theorem State.setAdm_nv (a : AdmSt) (s : State) : (State.setAdm a s).nv = s.nv := rfl
@[simp] theorem State.setAdm_tier (a : AdmSt) (s : State) : (State.setAdm a s).tier = s.tier := rfl
@[simp] theorem State.setAdm_land (a : AdmSt) (s : State) : (State.setAdm a s).land = s.land := rfl
@[simp] theorem State.setAdm_card (a : AdmSt) (s : State) : (State.setAdm a s).card = s.card := rfl
@[simp] theorem State.setAdm_code (a : AdmSt) (s : State) : (State.setAdm a s).code = s.code := rfl
@[simp] theorem State.setAdm_loss (a : AdmSt) (s : State) : (State.setAdm a s).loss = s.loss := rfl
@[simp] theorem State.setAdm_mem (a : AdmSt) (s : State) : (State.setAdm a s).mem = s.mem := rfl
@[simp] theorem State.setAdm_led (a : AdmSt) (s : State) : (State.setAdm a s).led = s.led := rfl
@[simp] theorem State.setAdm_whorl (a : AdmSt) (s : State) : (State.setAdm a s).whorl = s.whorl := rfl
@[simp] theorem State.setAdm_fx (a : AdmSt) (s : State) : (State.setAdm a s).fx = s.fx := rfl
@[simp] theorem State.setAdm_house (a : AdmSt) (s : State) : (State.setAdm a s).house = s.house := rfl
@[simp] theorem State.setAdm_jtag (a : AdmSt) (s : State) : (State.setAdm a s).jtag = s.jtag := rfl
@[simp] theorem State.setAdm_scrub (a : AdmSt) (s : State) : (State.setAdm a s).scrub = s.scrub := rfl
@[simp] theorem State.setAdm_off (a : AdmSt) (s : State) : (State.setAdm a s).off = s.off := rfl
@[simp] theorem State.setAdm_prev (a : AdmSt) (s : State) : (State.setAdm a s).prev = s.prev := rfl
@[simp] theorem State.setAdm_ans (a : AdmSt) (s : State) : (State.setAdm a s).ans = s.ans := rfl
@[simp] theorem State.setAdm_out (a : AdmSt) (s : State) : (State.setAdm a s).out = s.out := rfl
@[simp] theorem State.setAdm_free (a : AdmSt) (s : State) : (State.setAdm a s).free = s.free := rfl
@[simp] theorem State.setAdm_pending (a : AdmSt) (s : State) : (State.setAdm a s).pending = s.pending := rfl

/-! ### setFx -/

@[simp] theorem State.setFx_straps (f : FxSt) (s : State) : (State.setFx f s).straps = s.straps := rfl
@[simp] theorem State.setFx_sys (f : FxSt) (s : State) : (State.setFx f s).sys = s.sys := rfl
@[simp] theorem State.setFx_time (f : FxSt) (s : State) : (State.setFx f s).time = s.time := rfl
@[simp] theorem State.setFx_fr (f : FxSt) (s : State) : (State.setFx f s).fr = s.fr := rfl
@[simp] theorem State.setFx_planEff (f : FxSt) (s : State) : (State.setFx f s).planEff = s.planEff := rfl
@[simp] theorem State.setFx_planPend (f : FxSt) (s : State) : (State.setFx f s).planPend = s.planPend := rfl
@[simp] theorem State.setFx_adm (f : FxSt) (s : State) : (State.setFx f s).adm = s.adm := rfl
@[simp] theorem State.setFx_counters (f : FxSt) (s : State) : (State.setFx f s).counters = s.counters := rfl
@[simp] theorem State.setFx_regs (f : FxSt) (s : State) : (State.setFx f s).regs = s.regs := rfl
@[simp] theorem State.setFx_staged (f : FxSt) (s : State) : (State.setFx f s).staged = s.staged := rfl
@[simp] theorem State.setFx_hanks (f : FxSt) (s : State) : (State.setFx f s).hanks = s.hanks := rfl
@[simp] theorem State.setFx_hearth (f : FxSt) (s : State) : (State.setFx f s).hearth = s.hearth := rfl
@[simp] theorem State.setFx_pantry (f : FxSt) (s : State) : (State.setFx f s).pantry = s.pantry := rfl
@[simp] theorem State.setFx_nv (f : FxSt) (s : State) : (State.setFx f s).nv = s.nv := rfl
@[simp] theorem State.setFx_tier (f : FxSt) (s : State) : (State.setFx f s).tier = s.tier := rfl
@[simp] theorem State.setFx_land (f : FxSt) (s : State) : (State.setFx f s).land = s.land := rfl
@[simp] theorem State.setFx_card (f : FxSt) (s : State) : (State.setFx f s).card = s.card := rfl
@[simp] theorem State.setFx_code (f : FxSt) (s : State) : (State.setFx f s).code = s.code := rfl
@[simp] theorem State.setFx_loss (f : FxSt) (s : State) : (State.setFx f s).loss = s.loss := rfl
@[simp] theorem State.setFx_mem (f : FxSt) (s : State) : (State.setFx f s).mem = s.mem := rfl
@[simp] theorem State.setFx_led (f : FxSt) (s : State) : (State.setFx f s).led = s.led := rfl
@[simp] theorem State.setFx_whorl (f : FxSt) (s : State) : (State.setFx f s).whorl = s.whorl := rfl
@[simp] theorem State.setFx_house (f : FxSt) (s : State) : (State.setFx f s).house = s.house := rfl
@[simp] theorem State.setFx_jtag (f : FxSt) (s : State) : (State.setFx f s).jtag = s.jtag := rfl
@[simp] theorem State.setFx_scrub (f : FxSt) (s : State) : (State.setFx f s).scrub = s.scrub := rfl
@[simp] theorem State.setFx_off (f : FxSt) (s : State) : (State.setFx f s).off = s.off := rfl
@[simp] theorem State.setFx_prev (f : FxSt) (s : State) : (State.setFx f s).prev = s.prev := rfl
@[simp] theorem State.setFx_ans (f : FxSt) (s : State) : (State.setFx f s).ans = s.ans := rfl
@[simp] theorem State.setFx_out (f : FxSt) (s : State) : (State.setFx f s).out = s.out := rfl
@[simp] theorem State.setFx_free (f : FxSt) (s : State) : (State.setFx f s).free = s.free := rfl
@[simp] theorem State.setFx_pending (f : FxSt) (s : State) : (State.setFx f s).pending = s.pending := rfl

/-! ### setJutus -/

@[simp] theorem State.setJutus_straps (j : JutusSt) (s : State) : (State.setJutus j s).straps = s.straps := rfl
@[simp] theorem State.setJutus_sys (j : JutusSt) (s : State) : (State.setJutus j s).sys = s.sys := rfl
@[simp] theorem State.setJutus_time (j : JutusSt) (s : State) : (State.setJutus j s).time = s.time := rfl
@[simp] theorem State.setJutus_fr (j : JutusSt) (s : State) : (State.setJutus j s).fr = s.fr := rfl
@[simp] theorem State.setJutus_planEff (j : JutusSt) (s : State) : (State.setJutus j s).planEff = s.planEff := rfl
@[simp] theorem State.setJutus_planPend (j : JutusSt) (s : State) : (State.setJutus j s).planPend = s.planPend := rfl
@[simp] theorem State.setJutus_adm (j : JutusSt) (s : State) : (State.setJutus j s).adm = s.adm := rfl
@[simp] theorem State.setJutus_counters (j : JutusSt) (s : State) : (State.setJutus j s).counters = s.counters := rfl
@[simp] theorem State.setJutus_regs (j : JutusSt) (s : State) : (State.setJutus j s).regs = s.regs := rfl
@[simp] theorem State.setJutus_staged (j : JutusSt) (s : State) : (State.setJutus j s).staged = s.staged := rfl
@[simp] theorem State.setJutus_hanks (j : JutusSt) (s : State) : (State.setJutus j s).hanks = s.hanks := rfl
@[simp] theorem State.setJutus_hearth (j : JutusSt) (s : State) : (State.setJutus j s).hearth = s.hearth := rfl
@[simp] theorem State.setJutus_pantry (j : JutusSt) (s : State) : (State.setJutus j s).pantry = s.pantry := rfl
@[simp] theorem State.setJutus_nv (j : JutusSt) (s : State) : (State.setJutus j s).nv = s.nv := rfl
@[simp] theorem State.setJutus_tier (j : JutusSt) (s : State) : (State.setJutus j s).tier = s.tier := rfl
@[simp] theorem State.setJutus_land (j : JutusSt) (s : State) : (State.setJutus j s).land = s.land := rfl
@[simp] theorem State.setJutus_card (j : JutusSt) (s : State) : (State.setJutus j s).card = s.card := rfl
@[simp] theorem State.setJutus_code (j : JutusSt) (s : State) : (State.setJutus j s).code = s.code := rfl
@[simp] theorem State.setJutus_loss (j : JutusSt) (s : State) : (State.setJutus j s).loss = s.loss := rfl
@[simp] theorem State.setJutus_mem (j : JutusSt) (s : State) : (State.setJutus j s).mem = s.mem := rfl
@[simp] theorem State.setJutus_led (j : JutusSt) (s : State) : (State.setJutus j s).led = s.led := rfl
@[simp] theorem State.setJutus_whorl (j : JutusSt) (s : State) : (State.setJutus j s).whorl = s.whorl := rfl
@[simp] theorem State.setJutus_fx (j : JutusSt) (s : State) : (State.setJutus j s).fx = s.fx := rfl
@[simp] theorem State.setJutus_jtag (j : JutusSt) (s : State) : (State.setJutus j s).jtag = s.jtag := rfl
@[simp] theorem State.setJutus_scrub (j : JutusSt) (s : State) : (State.setJutus j s).scrub = s.scrub := rfl
@[simp] theorem State.setJutus_off (j : JutusSt) (s : State) : (State.setJutus j s).off = s.off := rfl
@[simp] theorem State.setJutus_prev (j : JutusSt) (s : State) : (State.setJutus j s).prev = s.prev := rfl
@[simp] theorem State.setJutus_ans (j : JutusSt) (s : State) : (State.setJutus j s).ans = s.ans := rfl
@[simp] theorem State.setJutus_out (j : JutusSt) (s : State) : (State.setJutus j s).out = s.out := rfl
@[simp] theorem State.setJutus_free (j : JutusSt) (s : State) : (State.setJutus j s).free = s.free := rfl
@[simp] theorem State.setJutus_pending (j : JutusSt) (s : State) : (State.setJutus j s).pending = s.pending := rfl

/-! ### setHealth -/

@[simp] theorem State.setHealth_straps (h : HealthSt) (s : State) : (State.setHealth h s).straps = s.straps := rfl
@[simp] theorem State.setHealth_sys (h : HealthSt) (s : State) : (State.setHealth h s).sys = s.sys := rfl
@[simp] theorem State.setHealth_time (h : HealthSt) (s : State) : (State.setHealth h s).time = s.time := rfl
@[simp] theorem State.setHealth_fr (h : HealthSt) (s : State) : (State.setHealth h s).fr = s.fr := rfl
@[simp] theorem State.setHealth_planEff (h : HealthSt) (s : State) : (State.setHealth h s).planEff = s.planEff := rfl
@[simp] theorem State.setHealth_planPend (h : HealthSt) (s : State) : (State.setHealth h s).planPend = s.planPend := rfl
@[simp] theorem State.setHealth_adm (h : HealthSt) (s : State) : (State.setHealth h s).adm = s.adm := rfl
@[simp] theorem State.setHealth_counters (h : HealthSt) (s : State) : (State.setHealth h s).counters = s.counters := rfl
@[simp] theorem State.setHealth_regs (h : HealthSt) (s : State) : (State.setHealth h s).regs = s.regs := rfl
@[simp] theorem State.setHealth_staged (h : HealthSt) (s : State) : (State.setHealth h s).staged = s.staged := rfl
@[simp] theorem State.setHealth_hanks (h : HealthSt) (s : State) : (State.setHealth h s).hanks = s.hanks := rfl
@[simp] theorem State.setHealth_hearth (h : HealthSt) (s : State) : (State.setHealth h s).hearth = s.hearth := rfl
@[simp] theorem State.setHealth_pantry (h : HealthSt) (s : State) : (State.setHealth h s).pantry = s.pantry := rfl
@[simp] theorem State.setHealth_nv (h : HealthSt) (s : State) : (State.setHealth h s).nv = s.nv := rfl
@[simp] theorem State.setHealth_tier (h : HealthSt) (s : State) : (State.setHealth h s).tier = s.tier := rfl
@[simp] theorem State.setHealth_land (h : HealthSt) (s : State) : (State.setHealth h s).land = s.land := rfl
@[simp] theorem State.setHealth_card (h : HealthSt) (s : State) : (State.setHealth h s).card = s.card := rfl
@[simp] theorem State.setHealth_code (h : HealthSt) (s : State) : (State.setHealth h s).code = s.code := rfl
@[simp] theorem State.setHealth_loss (h : HealthSt) (s : State) : (State.setHealth h s).loss = s.loss := rfl
@[simp] theorem State.setHealth_mem (h : HealthSt) (s : State) : (State.setHealth h s).mem = s.mem := rfl
@[simp] theorem State.setHealth_led (h : HealthSt) (s : State) : (State.setHealth h s).led = s.led := rfl
@[simp] theorem State.setHealth_whorl (h : HealthSt) (s : State) : (State.setHealth h s).whorl = s.whorl := rfl
@[simp] theorem State.setHealth_fx (h : HealthSt) (s : State) : (State.setHealth h s).fx = s.fx := rfl
@[simp] theorem State.setHealth_jtag (h : HealthSt) (s : State) : (State.setHealth h s).jtag = s.jtag := rfl
@[simp] theorem State.setHealth_scrub (h : HealthSt) (s : State) : (State.setHealth h s).scrub = s.scrub := rfl
@[simp] theorem State.setHealth_off (h : HealthSt) (s : State) : (State.setHealth h s).off = s.off := rfl
@[simp] theorem State.setHealth_prev (h : HealthSt) (s : State) : (State.setHealth h s).prev = s.prev := rfl
@[simp] theorem State.setHealth_ans (h : HealthSt) (s : State) : (State.setHealth h s).ans = s.ans := rfl
@[simp] theorem State.setHealth_out (h : HealthSt) (s : State) : (State.setHealth h s).out = s.out := rfl
@[simp] theorem State.setHealth_free (h : HealthSt) (s : State) : (State.setHealth h s).free = s.free := rfl
@[simp] theorem State.setHealth_pending (h : HealthSt) (s : State) : (State.setHealth h s).pending = s.pending := rfl

/-! ### setFw -/

@[simp] theorem State.setFw_straps (f : FwSt) (s : State) : (State.setFw f s).straps = s.straps := rfl
@[simp] theorem State.setFw_sys (f : FwSt) (s : State) : (State.setFw f s).sys = s.sys := rfl
@[simp] theorem State.setFw_time (f : FwSt) (s : State) : (State.setFw f s).time = s.time := rfl
@[simp] theorem State.setFw_fr (f : FwSt) (s : State) : (State.setFw f s).fr = s.fr := rfl
@[simp] theorem State.setFw_planEff (f : FwSt) (s : State) : (State.setFw f s).planEff = s.planEff := rfl
@[simp] theorem State.setFw_planPend (f : FwSt) (s : State) : (State.setFw f s).planPend = s.planPend := rfl
@[simp] theorem State.setFw_adm (f : FwSt) (s : State) : (State.setFw f s).adm = s.adm := rfl
@[simp] theorem State.setFw_counters (f : FwSt) (s : State) : (State.setFw f s).counters = s.counters := rfl
@[simp] theorem State.setFw_regs (f : FwSt) (s : State) : (State.setFw f s).regs = s.regs := rfl
@[simp] theorem State.setFw_staged (f : FwSt) (s : State) : (State.setFw f s).staged = s.staged := rfl
@[simp] theorem State.setFw_hanks (f : FwSt) (s : State) : (State.setFw f s).hanks = s.hanks := rfl
@[simp] theorem State.setFw_hearth (f : FwSt) (s : State) : (State.setFw f s).hearth = s.hearth := rfl
@[simp] theorem State.setFw_pantry (f : FwSt) (s : State) : (State.setFw f s).pantry = s.pantry := rfl
@[simp] theorem State.setFw_nv (f : FwSt) (s : State) : (State.setFw f s).nv = s.nv := rfl
@[simp] theorem State.setFw_tier (f : FwSt) (s : State) : (State.setFw f s).tier = s.tier := rfl
@[simp] theorem State.setFw_land (f : FwSt) (s : State) : (State.setFw f s).land = s.land := rfl
@[simp] theorem State.setFw_card (f : FwSt) (s : State) : (State.setFw f s).card = s.card := rfl
@[simp] theorem State.setFw_code (f : FwSt) (s : State) : (State.setFw f s).code = s.code := rfl
@[simp] theorem State.setFw_loss (f : FwSt) (s : State) : (State.setFw f s).loss = s.loss := rfl
@[simp] theorem State.setFw_mem (f : FwSt) (s : State) : (State.setFw f s).mem = s.mem := rfl
@[simp] theorem State.setFw_led (f : FwSt) (s : State) : (State.setFw f s).led = s.led := rfl
@[simp] theorem State.setFw_whorl (f : FwSt) (s : State) : (State.setFw f s).whorl = s.whorl := rfl
@[simp] theorem State.setFw_fx (f : FwSt) (s : State) : (State.setFw f s).fx = s.fx := rfl
@[simp] theorem State.setFw_jtag (f : FwSt) (s : State) : (State.setFw f s).jtag = s.jtag := rfl
@[simp] theorem State.setFw_scrub (f : FwSt) (s : State) : (State.setFw f s).scrub = s.scrub := rfl
@[simp] theorem State.setFw_off (f : FwSt) (s : State) : (State.setFw f s).off = s.off := rfl
@[simp] theorem State.setFw_prev (f : FwSt) (s : State) : (State.setFw f s).prev = s.prev := rfl
@[simp] theorem State.setFw_ans (f : FwSt) (s : State) : (State.setFw f s).ans = s.ans := rfl
@[simp] theorem State.setFw_out (f : FwSt) (s : State) : (State.setFw f s).out = s.out := rfl
@[simp] theorem State.setFw_free (f : FwSt) (s : State) : (State.setFw f s).free = s.free := rfl
@[simp] theorem State.setFw_pending (f : FwSt) (s : State) : (State.setFw f s).pending = s.pending := rfl

/-! ### updHank -/

@[simp] theorem State.updHank_straps (h : Nat) (f : HankRt → HankRt) (s : State) : (State.updHank h f s).straps = s.straps := rfl
@[simp] theorem State.updHank_sys (h : Nat) (f : HankRt → HankRt) (s : State) : (State.updHank h f s).sys = s.sys := rfl
@[simp] theorem State.updHank_time (h : Nat) (f : HankRt → HankRt) (s : State) : (State.updHank h f s).time = s.time := rfl
@[simp] theorem State.updHank_fr (h : Nat) (f : HankRt → HankRt) (s : State) : (State.updHank h f s).fr = s.fr := rfl
@[simp] theorem State.updHank_planEff (h : Nat) (f : HankRt → HankRt) (s : State) : (State.updHank h f s).planEff = s.planEff := rfl
@[simp] theorem State.updHank_planPend (h : Nat) (f : HankRt → HankRt) (s : State) : (State.updHank h f s).planPend = s.planPend := rfl
@[simp] theorem State.updHank_adm (h : Nat) (f : HankRt → HankRt) (s : State) : (State.updHank h f s).adm = s.adm := rfl
@[simp] theorem State.updHank_counters (h : Nat) (f : HankRt → HankRt) (s : State) : (State.updHank h f s).counters = s.counters := rfl
@[simp] theorem State.updHank_regs (h : Nat) (f : HankRt → HankRt) (s : State) : (State.updHank h f s).regs = s.regs := rfl
@[simp] theorem State.updHank_staged (h : Nat) (f : HankRt → HankRt) (s : State) : (State.updHank h f s).staged = s.staged := rfl
@[simp] theorem State.updHank_hearth (h : Nat) (f : HankRt → HankRt) (s : State) : (State.updHank h f s).hearth = s.hearth := rfl
@[simp] theorem State.updHank_pantry (h : Nat) (f : HankRt → HankRt) (s : State) : (State.updHank h f s).pantry = s.pantry := rfl
@[simp] theorem State.updHank_nv (h : Nat) (f : HankRt → HankRt) (s : State) : (State.updHank h f s).nv = s.nv := rfl
@[simp] theorem State.updHank_tier (h : Nat) (f : HankRt → HankRt) (s : State) : (State.updHank h f s).tier = s.tier := rfl
@[simp] theorem State.updHank_land (h : Nat) (f : HankRt → HankRt) (s : State) : (State.updHank h f s).land = s.land := rfl
@[simp] theorem State.updHank_card (h : Nat) (f : HankRt → HankRt) (s : State) : (State.updHank h f s).card = s.card := rfl
@[simp] theorem State.updHank_code (h : Nat) (f : HankRt → HankRt) (s : State) : (State.updHank h f s).code = s.code := rfl
@[simp] theorem State.updHank_loss (h : Nat) (f : HankRt → HankRt) (s : State) : (State.updHank h f s).loss = s.loss := rfl
@[simp] theorem State.updHank_mem (h : Nat) (f : HankRt → HankRt) (s : State) : (State.updHank h f s).mem = s.mem := rfl
@[simp] theorem State.updHank_led (h : Nat) (f : HankRt → HankRt) (s : State) : (State.updHank h f s).led = s.led := rfl
@[simp] theorem State.updHank_whorl (h : Nat) (f : HankRt → HankRt) (s : State) : (State.updHank h f s).whorl = s.whorl := rfl
@[simp] theorem State.updHank_fx (h : Nat) (f : HankRt → HankRt) (s : State) : (State.updHank h f s).fx = s.fx := rfl
@[simp] theorem State.updHank_house (h : Nat) (f : HankRt → HankRt) (s : State) : (State.updHank h f s).house = s.house := rfl
@[simp] theorem State.updHank_jtag (h : Nat) (f : HankRt → HankRt) (s : State) : (State.updHank h f s).jtag = s.jtag := rfl
@[simp] theorem State.updHank_scrub (h : Nat) (f : HankRt → HankRt) (s : State) : (State.updHank h f s).scrub = s.scrub := rfl
@[simp] theorem State.updHank_off (h : Nat) (f : HankRt → HankRt) (s : State) : (State.updHank h f s).off = s.off := rfl
@[simp] theorem State.updHank_prev (h : Nat) (f : HankRt → HankRt) (s : State) : (State.updHank h f s).prev = s.prev := rfl
@[simp] theorem State.updHank_ans (h : Nat) (f : HankRt → HankRt) (s : State) : (State.updHank h f s).ans = s.ans := rfl
@[simp] theorem State.updHank_out (h : Nat) (f : HankRt → HankRt) (s : State) : (State.updHank h f s).out = s.out := rfl
@[simp] theorem State.updHank_free (h : Nat) (f : HankRt → HankRt) (s : State) : (State.updHank h f s).free = s.free := rfl
@[simp] theorem State.updHank_pending (h : Nat) (f : HankRt → HankRt) (s : State) : (State.updHank h f s).pending = s.pending := rfl

/-! ### setCredit -/

@[simp] theorem State.setCredit_straps (w c : Nat) (x : Credit) (s : State) : (State.setCredit w c x s).straps = s.straps := rfl
@[simp] theorem State.setCredit_sys (w c : Nat) (x : Credit) (s : State) : (State.setCredit w c x s).sys = s.sys := rfl
@[simp] theorem State.setCredit_time (w c : Nat) (x : Credit) (s : State) : (State.setCredit w c x s).time = s.time := rfl
@[simp] theorem State.setCredit_fr (w c : Nat) (x : Credit) (s : State) : (State.setCredit w c x s).fr = s.fr := rfl
@[simp] theorem State.setCredit_planEff (w c : Nat) (x : Credit) (s : State) : (State.setCredit w c x s).planEff = s.planEff := rfl
@[simp] theorem State.setCredit_planPend (w c : Nat) (x : Credit) (s : State) : (State.setCredit w c x s).planPend = s.planPend := rfl
@[simp] theorem State.setCredit_adm (w c : Nat) (x : Credit) (s : State) : (State.setCredit w c x s).adm = s.adm := rfl
@[simp] theorem State.setCredit_counters (w c : Nat) (x : Credit) (s : State) : (State.setCredit w c x s).counters = s.counters := rfl
@[simp] theorem State.setCredit_regs (w c : Nat) (x : Credit) (s : State) : (State.setCredit w c x s).regs = s.regs := rfl
@[simp] theorem State.setCredit_staged (w c : Nat) (x : Credit) (s : State) : (State.setCredit w c x s).staged = s.staged := rfl
@[simp] theorem State.setCredit_hanks (w c : Nat) (x : Credit) (s : State) : (State.setCredit w c x s).hanks = s.hanks := rfl
@[simp] theorem State.setCredit_hearth (w c : Nat) (x : Credit) (s : State) : (State.setCredit w c x s).hearth = s.hearth := rfl
@[simp] theorem State.setCredit_pantry (w c : Nat) (x : Credit) (s : State) : (State.setCredit w c x s).pantry = s.pantry := rfl
@[simp] theorem State.setCredit_nv (w c : Nat) (x : Credit) (s : State) : (State.setCredit w c x s).nv = s.nv := rfl
@[simp] theorem State.setCredit_tier (w c : Nat) (x : Credit) (s : State) : (State.setCredit w c x s).tier = s.tier := rfl
@[simp] theorem State.setCredit_land (w c : Nat) (x : Credit) (s : State) : (State.setCredit w c x s).land = s.land := rfl
@[simp] theorem State.setCredit_card (w c : Nat) (x : Credit) (s : State) : (State.setCredit w c x s).card = s.card := rfl
@[simp] theorem State.setCredit_code (w c : Nat) (x : Credit) (s : State) : (State.setCredit w c x s).code = s.code := rfl
@[simp] theorem State.setCredit_loss (w c : Nat) (x : Credit) (s : State) : (State.setCredit w c x s).loss = s.loss := rfl
@[simp] theorem State.setCredit_mem (w c : Nat) (x : Credit) (s : State) : (State.setCredit w c x s).mem = s.mem := rfl
@[simp] theorem State.setCredit_led (w c : Nat) (x : Credit) (s : State) : (State.setCredit w c x s).led = s.led := rfl
@[simp] theorem State.setCredit_whorl (w c : Nat) (x : Credit) (s : State) : (State.setCredit w c x s).whorl = s.whorl := rfl
@[simp] theorem State.setCredit_house (w c : Nat) (x : Credit) (s : State) : (State.setCredit w c x s).house = s.house := rfl
@[simp] theorem State.setCredit_jtag (w c : Nat) (x : Credit) (s : State) : (State.setCredit w c x s).jtag = s.jtag := rfl
@[simp] theorem State.setCredit_scrub (w c : Nat) (x : Credit) (s : State) : (State.setCredit w c x s).scrub = s.scrub := rfl
@[simp] theorem State.setCredit_off (w c : Nat) (x : Credit) (s : State) : (State.setCredit w c x s).off = s.off := rfl
@[simp] theorem State.setCredit_prev (w c : Nat) (x : Credit) (s : State) : (State.setCredit w c x s).prev = s.prev := rfl
@[simp] theorem State.setCredit_ans (w c : Nat) (x : Credit) (s : State) : (State.setCredit w c x s).ans = s.ans := rfl
@[simp] theorem State.setCredit_out (w c : Nat) (x : Credit) (s : State) : (State.setCredit w c x s).out = s.out := rfl
@[simp] theorem State.setCredit_free (w c : Nat) (x : Credit) (s : State) : (State.setCredit w c x s).free = s.free := rfl
@[simp] theorem State.setCredit_pending (w c : Nat) (x : Credit) (s : State) : (State.setCredit w c x s).pending = s.pending := rfl

/-! ### spendFree -/

@[simp] theorem State.spendFree_straps (n : Nat) (s : State) : (State.spendFree n s).straps = s.straps := rfl
@[simp] theorem State.spendFree_sys (n : Nat) (s : State) : (State.spendFree n s).sys = s.sys := rfl
@[simp] theorem State.spendFree_time (n : Nat) (s : State) : (State.spendFree n s).time = s.time := rfl
@[simp] theorem State.spendFree_fr (n : Nat) (s : State) : (State.spendFree n s).fr = s.fr := rfl
@[simp] theorem State.spendFree_planEff (n : Nat) (s : State) : (State.spendFree n s).planEff = s.planEff := rfl
@[simp] theorem State.spendFree_planPend (n : Nat) (s : State) : (State.spendFree n s).planPend = s.planPend := rfl
@[simp] theorem State.spendFree_adm (n : Nat) (s : State) : (State.spendFree n s).adm = s.adm := rfl
@[simp] theorem State.spendFree_counters (n : Nat) (s : State) : (State.spendFree n s).counters = s.counters := rfl
@[simp] theorem State.spendFree_regs (n : Nat) (s : State) : (State.spendFree n s).regs = s.regs := rfl
@[simp] theorem State.spendFree_staged (n : Nat) (s : State) : (State.spendFree n s).staged = s.staged := rfl
@[simp] theorem State.spendFree_hanks (n : Nat) (s : State) : (State.spendFree n s).hanks = s.hanks := rfl
@[simp] theorem State.spendFree_hearth (n : Nat) (s : State) : (State.spendFree n s).hearth = s.hearth := rfl
@[simp] theorem State.spendFree_pantry (n : Nat) (s : State) : (State.spendFree n s).pantry = s.pantry := rfl
@[simp] theorem State.spendFree_nv (n : Nat) (s : State) : (State.spendFree n s).nv = s.nv := rfl
@[simp] theorem State.spendFree_tier (n : Nat) (s : State) : (State.spendFree n s).tier = s.tier := rfl
@[simp] theorem State.spendFree_land (n : Nat) (s : State) : (State.spendFree n s).land = s.land := rfl
@[simp] theorem State.spendFree_card (n : Nat) (s : State) : (State.spendFree n s).card = s.card := rfl
@[simp] theorem State.spendFree_code (n : Nat) (s : State) : (State.spendFree n s).code = s.code := rfl
@[simp] theorem State.spendFree_loss (n : Nat) (s : State) : (State.spendFree n s).loss = s.loss := rfl
@[simp] theorem State.spendFree_mem (n : Nat) (s : State) : (State.spendFree n s).mem = s.mem := rfl
@[simp] theorem State.spendFree_led (n : Nat) (s : State) : (State.spendFree n s).led = s.led := rfl
@[simp] theorem State.spendFree_whorl (n : Nat) (s : State) : (State.spendFree n s).whorl = s.whorl := rfl
@[simp] theorem State.spendFree_fx (n : Nat) (s : State) : (State.spendFree n s).fx = s.fx := rfl
@[simp] theorem State.spendFree_house (n : Nat) (s : State) : (State.spendFree n s).house = s.house := rfl
@[simp] theorem State.spendFree_jtag (n : Nat) (s : State) : (State.spendFree n s).jtag = s.jtag := rfl
@[simp] theorem State.spendFree_scrub (n : Nat) (s : State) : (State.spendFree n s).scrub = s.scrub := rfl
@[simp] theorem State.spendFree_off (n : Nat) (s : State) : (State.spendFree n s).off = s.off := rfl
@[simp] theorem State.spendFree_prev (n : Nat) (s : State) : (State.spendFree n s).prev = s.prev := rfl
@[simp] theorem State.spendFree_ans (n : Nat) (s : State) : (State.spendFree n s).ans = s.ans := rfl
@[simp] theorem State.spendFree_out (n : Nat) (s : State) : (State.spendFree n s).out = s.out := rfl
@[simp] theorem State.spendFree_pending (n : Nat) (s : State) : (State.spendFree n s).pending = s.pending := rfl

/-! ### The field that each of them writes -/

@[simp] theorem State.emit_out (o : Out) (s : State) : (State.emit o s).out = s.out ++ [o] := rfl
@[simp] theorem State.begin_out (mem : MemAns) (s : State) : (State.begin mem s).out = [] := rfl
@[simp] theorem State.begin_ans (mem : MemAns) (s : State) : (State.begin mem s).ans = mem := rfl
@[simp] theorem State.hearthWrite_scrub (a : Nat) (bs : Bytes) (s : State) : (State.hearthWrite a bs s).scrub = (State.tellBlocks a bs s).scrub := rfl
@[simp] theorem State.pantryWrite_scrub (a : Nat) (bs : Bytes) (s : State) : (State.pantryWrite a bs s).scrub = (State.tellLines a bs s).scrub := rfl
@[simp] theorem State.hearthWrite_out (a : Nat) (bs : Bytes) (s : State) : (State.hearthWrite a bs s).out = (State.tellBlocks a bs s).out := rfl
@[simp] theorem State.pantryWrite_out (a : Nat) (bs : Bytes) (s : State) : (State.pantryWrite a bs s).out = (State.tellLines a bs s).out := rfl
@[simp] theorem State.hearthWrite_hearth (a : Nat) (bs : Bytes) (s : State) : (State.hearthWrite a bs s).hearth = Memory.write s.hearth a bs :=
  congrArg (fun p => Memory.write p a bs) (State.tell_of State.hearth rfl)
@[simp] theorem State.pantryWrite_pantry (a : Nat) (bs : Bytes) (s : State) : (State.pantryWrite a bs s).pantry = Memory.write s.pantry a bs :=
  congrArg (fun p => Memory.write p a bs) (State.tellLines_of (off := a) (bs := bs) State.pantry rfl)
@[simp] theorem State.setAdm_adm (a : AdmSt) (s : State) : (State.setAdm a s).adm = a := rfl
@[simp] theorem State.setFx_fx (f : FxSt) (s : State) : (State.setFx f s).fx = f := rfl

end Sys2Proof.Machine
end

