-- ==== Sys2Proof/Laws/Fabric.lean ====
section
/-! SUPPORT. What sending does: a message that is formed changes the fabric's state, the counters, the ledger's credits, the nodes that were
sent something, the copies of 0x10FB.01 of clients whose context goes (R413), the free values and the output ports, and nothing else. -/

namespace Sys2Proof.Machine

/-- A state that has sent something. -/
def Sent (s t : State) : Prop :=
  ∃ (counters : List (Nat × Nat)) (led : LedSt) (mem : MemSt) (fx : FxSt) (views : List (Path × Nat)) (free : Nat)
    (out : List Out), t = { s with counters := counters, led := led, mem := mem, fx := fx, house := { s.house with views := views },
                                   free := free, out := out }

theorem Sent.refl (s : State) : Sent s s := ⟨_, _, _, _, _, _, _, rfl⟩

theorem Sent.trans {s t u : State} (h : Sent s t) (g : Sent t u) : Sent s u := by
  obtain ⟨_, _, _, _, _, _, _, rfl⟩ := h
  obtain ⟨a, b, c, d, e, f, g, rfl⟩ := g
  exact ⟨a, b, c, d, e, f, g, rfl⟩

theorem Sent.forEach {α : Type} {f : α → State → State} (hf : ∀ x t, Sent t (f x t)) (l : List α) (s : State) :
    Sent s (Sys2Proof.Machine.forEach l f s) := by
  induction l generalizing s with
  | nil => exact .refl s
  | cons x xs ih => exact (hf x s).trans (ih _)

theorem Sent.bump (i k n : Nat) (s : State) : Sent s (State.bump i k n s) := ⟨_, _, _, _, _, _, _, rfl⟩
theorem Sent.emit (o : Out) (s : State) : Sent s (State.emit o s) := ⟨_, _, _, _, _, _, _, rfl⟩
theorem Sent.fx (f : FxSt) (s : State) : Sent s { s with fx := f } := ⟨_, _, _, _, _, _, _, rfl⟩

theorem State.evictOne_sent (s : State) : Sent s (State.evictOne s) := by
  unfold State.evictOne
  dsimp only
  split
  · exact .refl s
  · exact ⟨_, _, _, _, _, _, _, rfl⟩

theorem State.evictFor_sent (node : Nat) (s : State) : Sent s (State.evictFor node s) := by
  unfold State.evictFor
  dsimp only
  split
  · exact .refl s
  · exact State.evictOne_sent s

theorem State.nextAlive_sent (dest cls : Nat) (s : State) : Sent s (State.nextAlive dest cls s).1 := by
  have ht : Sent s (if cls = 2 then s.touchCtx dest else s) := by
    split
    · exact .fx _ s
    · exact .refl s
  unfold State.nextAlive
  generalize (if cls = 2 then s.touchCtx dest else s) = z at ht ⊢
  refine ht.trans ?_
  have hz : ∀ b : Bool, Sent z (if b then z.evictFor dest else z) := by
    intro b
    split
    · exact State.evictFor_sent dest z
    · exact .refl z
  dsimp only
  generalize List.find? _ z.fx.sendCtx = ctx
  have hb := hz (decide (cls = 2) && ctx.isNone)
  generalize (if (decide (cls = 2) && ctx.isNone) = true then z.evictFor dest else z) = y at hb ⊢
  repeat (first | exact hb.trans (.fx _ y) | exact .fx _ z | split)

theorem State.stamp_sent (m : TxMsg) (s : State) : Sent s (State.stamp m s).1 := by
  have h := State.nextAlive_sent m.destination m.cls s
  unfold State.stamp
  simp only
  generalize State.nextAlive m.destination m.cls s = z at h ⊢
  refine h.trans ?_
  split
  · exact ⟨_, _, _, _, _, _, _, rfl⟩
  · exact .refl _

theorem State.startMsg_sent (t : TxRt) (s : State) : Sent s (State.startMsg t s).1 :=
  (State.stamp_sent t.msg s).trans (.emit _ _)

theorem State.spend_sent (way cls step hdr unit : Nat) (s : State) : Sent s (State.spend way cls step hdr unit s) := by
  unfold State.spend
  simp only
  split
  · exact ⟨_, _, _, _, _, _, _, rfl⟩
  · exact ⟨_, _, _, _, _, _, _, rfl⟩

theorem State.leaveReg_sent (out : Bool) (way cls trailer : Nat) (ctx : Option Nat) (s : State) :
    Sent s (State.leaveReg out way cls trailer ctx s) := by
  unfold State.leaveReg
  split
  · exact .fx _ s
  · split
    · exact .fx _ s
    · exact .refl s

theorem State.endEntry_sent (t : TxRt) (s : State) : Sent s (State.endEntry t s) := by
  unfold State.endEntry
  refine Sent.trans ?_ ((Sent.bump _ _ _ _).trans ((Sent.bump _ _ _ _).trans (.emit _ _)))
  split
  · exact .refl s
  · exact (Sent.emit (Out.fxEnd t.msg.way t.msg.cls t.slot t.msg.trailer) s).trans (State.leaveReg_sent _ _ _ _ _ _)

theorem State.pumpClass_sent (k way cls : Nat) (s : State) : Sent s (State.pumpClass k way cls s) := by
  induction k generalizing s with
  | zero => exact .refl s
  | succ k ih =>
    unfold State.pumpClass
    split
    · exact .refl s
    · rename_i t _
      dsimp only
      generalize hz : State.spend way cls t.msg.step _ _ _ = z
      have h1 : Sent s z := by rw [← hz]; exact (Sent.fx _ s).trans (State.spend_sent ..)
      have h2 : Sent z (if t.started then (z, t) else z.startMsg t).1 := by
        split
        · exact .refl z
        · exact State.startMsg_sent t z
      generalize (if t.started then (z, t) else z.startMsg t) = y at h2 ⊢
      have h3 (n : Nat) : Sent y.1 (State.sendUnits y.2 n y.1) := .forEach (fun _ _ => .emit _ _) _ _
      refine h1.trans (h2.trans ((h3 (min t.left (s.creditAt way cls).unit)).trans (Sent.trans ?_ (ih _))))
      split
      · exact State.endEntry_sent _ _
      · exact .fx _ _

theorem State.pump_sent (s : State) : Sent s (State.pump s) :=
  .forEach (fun x t => by split; exact State.pumpClass_sent _ _ _ t; exact .refl t) _ s

/-- Forming a message sends, and does nothing else. -/
theorem State.post_sent (typ dest way job epoch step request : Nat) (body : Bytes) (s : State) :
    Sent s (State.post typ dest way job epoch step request body s) := by
  unfold State.post
  split
  · exact .refl s
  · split
    · exact ⟨_, _, _, _, _, _, _, rfl⟩
    · refine Sent.trans ?_ (State.pump_sent _)
      unfold State.markSent
      split <;> exact ⟨_, _, _, _, _, _, _, rfl⟩

theorem State.sendMgmt_sent (typ dest : Nat) (body : Bytes) (s : State) : Sent s (State.sendMgmt typ dest body s) :=
  State.post_sent ..

theorem State.reply_sent (m : HeldMsg) (typ : Nat) (body : Bytes) (s : State) : Sent s (State.reply m typ body s) := State.post_sent ..

theorem State.sendIn_sent (e : Nat) (w : ReqWait) (s : State) : Sent s (State.sendIn e w s) :=
  (Sent.fx _ s).trans (State.post_sent ..)

/-- Sending a request, or leaving it to wait for an entry, changes nothing but what sending changes. -/
theorem State.enqueue_sent (w : ReqWait) (s : State) : Sent s (State.enqueue w s) := by
  unfold State.enqueue
  split
  · exact State.sendIn_sent _ w s
  · exact .fx _ s

theorem State.freeReq_sent (engine entry : Nat) (s : State) : Sent s (State.freeReq engine entry s) := by
  unfold State.freeReq
  generalize hz : ({ s with fx := { s.fx with reqs := s.fx.reqs.filter (fun r => !(r.engine == engine && r.entry == entry)) } } : State) = z
  have h : Sent s z := by rw [← hz]; exact .fx _ s
  dsimp only
  split
  · exact h
  · exact h.trans ((Sent.fx _ z).trans (State.enqueue_sent _ _))

theorem State.sendSet_sent (l : Layout) (gr : GroupRt) (role node : Nat) (again : Bool) (s : State) :
    Sent s (State.sendSet l gr role node again s) :=
  Sent.trans ⟨_, _, _, _, _, _, _, rfl⟩ (State.enqueue_sent _ _)

/-- A group that is launched stands in flight behind the others, with one set for each role. -/
theorem State.launch_inflight (l : Layout) (gr : GroupRt) (s : State) :
    ∃ sets : List SetRt, sets.length = (State.rolesOf l).length ∧
      (State.launch l gr s).card.inflight = s.card.inflight ++ [{ gr with sets := sets }] := by
  refine ⟨(State.rolesOf l).map (fun role =>
    { role := role, dest := s.holderNode l gr.position gr.hank gr.group role, acked := false, timedOut := false }), by simp, ?_⟩
  have h (xs : List SetRt) (gr : GroupRt) (z : State) :
      (forEach xs (fun (x : SetRt) st => st.sendSet l gr x.role x.dest false) z).card = z.card := by
    obtain ⟨_, _, _, _, _, _, _, h⟩ := Sent.forEach (fun (x : SetRt) t => State.sendSet_sent l gr x.role x.dest false t) xs z
    rw [h]
  unfold State.launch
  dsimp only
  rw [h]
  rfl

end Sys2Proof.Machine
end

