-- ==== Sys2Proof/Laws/Memory.lean ====
section
/-! SUPPORT. The laws of the memories: a write keeps the canonical form, reads back what it wrote, and leaves every other byte. -/

namespace Sys2Proof.Machine

/-- The cells of a run of bytes lie in the run and hold no blank. -/
theorem Memory.mem_cells {bs : Bytes} {a : Nat} {c : Host.Cell} (h : c ∈ Memory.cells a bs) :
    a ≤ c.1 ∧ c.1 < a + bs.length ∧ c.2 ≠ Memory.blank := by
  induction bs generalizing a with
  | nil => simp [Memory.cells] at h
  | cons b bs ih =>
    unfold Memory.cells at h
    rw [List.length_cons]
    split at h
    · obtain ⟨h1, h2, h3⟩ := ih h
      exact ⟨by omega, by omega, h3⟩
    · rename_i hb
      rcases List.mem_cons.mp h with rfl | h
      · exact ⟨Nat.le_refl _, by simp, hb⟩
      · obtain ⟨h1, h2, h3⟩ := ih h
        exact ⟨by omega, by omega, h3⟩

/-- The cells of a run of bytes rise. -/
theorem Memory.cells_rise (bs : Bytes) (a : Nat) : (Memory.cells a bs).Pairwise (fun x y => x.1 < y.1) := by
  induction bs generalizing a with
  | nil => simp [Memory.cells]
  | cons b bs ih =>
    unfold Memory.cells
    split
    · exact ih _
    · refine List.pairwise_cons.mpr ⟨fun c hc => ?_, ih _⟩
      have := (Memory.mem_cells hc).1
      simp only
      omega

/-- A write keeps the canonical form. -/
theorem Memory.wf_write {m : List Host.Cell} (h : Memory.wf m) (a : Nat) (bs : Bytes) : Memory.wf (Memory.write m a bs) := by
  obtain ⟨hp, hb⟩ := h
  refine ⟨?_, fun c hc => ?_⟩
  · refine List.pairwise_append.mpr ⟨List.pairwise_append.mpr ⟨hp.filter _, Memory.cells_rise bs a, ?_⟩, hp.filter _, ?_⟩
    · intro x hx y hy
      have h1 := (List.mem_filter.mp hx).2
      have h2 := (Memory.mem_cells hy).1
      simp only [decide_eq_true_eq] at h1
      omega
    · intro x hx y hy
      have h2 := (List.mem_filter.mp hy).2
      simp only [decide_eq_true_eq] at h2
      rcases List.mem_append.mp hx with hx | hx
      · have h1 := (List.mem_filter.mp hx).2
        simp only [decide_eq_true_eq] at h1
        omega
      · have h1 := (Memory.mem_cells hx).2.1
        omega
  · rcases List.mem_append.mp hc with hc | hc
    · rcases List.mem_append.mp hc with hc | hc
      · exact hb c (List.mem_filter.mp hc).1
      · exact (Memory.mem_cells hc).2.2
    · exact hb c (List.mem_filter.mp hc).1

/-- An address that no cell names reads as blank. -/
theorem Memory.get_none {m : List Host.Cell} {a : Nat} (h : ∀ c ∈ m, c.1 ≠ a) : Memory.get m a = Memory.blank := by
  unfold Memory.get
  have : m.find? (fun c => c.1 == a) = none := List.find?_eq_none.mpr (fun c hc => by simpa using h c hc)
  rw [this]

/-- In a memory read from left to right the first part answers where it names the address. -/
theorem Memory.get_append (m n : List Host.Cell) (a : Nat) :
    Memory.get (m ++ n) a = if m.any (fun c => c.1 == a) then Memory.get m a else Memory.get n a := by
  unfold Memory.get
  rw [List.find?_append]
  cases h : m.find? (fun c => c.1 == a) with
  | none =>
    have : m.any (fun c => c.1 == a) = false := by
      simpa [List.any_eq_false] using List.find?_eq_none.mp h
    simp [this]
  | some c =>
    have : m.any (fun c => c.1 == a) = true :=
      List.any_eq_true.mpr ⟨c, List.mem_of_find?_eq_some h, by simpa using List.find?_some h⟩
    simp [this]

/-- A filter that keeps every cell of an address changes nothing there. -/
theorem Memory.get_filter (m : List Host.Cell) (a : Nat) (p : Host.Cell → Bool) (h : ∀ b : Byte, p (a, b) = true) :
    Memory.get (m.filter p) a = Memory.get m a := by
  induction m with
  | nil => rfl
  | cons c cs ih =>
    by_cases hc : c.1 = a
    · have : p c = true := by rw [← Prod.eta c, hc]; exact h c.2
      simp [this, Memory.get, hc]
    · have e : Memory.get (c :: cs) a = Memory.get cs a := by simp [Memory.get, hc]
      rw [e, ← ih, List.filter_cons]
      split
      · simp [Memory.get, hc]
      · rfl

/-- A filter that drops every cell of an address leaves it blank. -/
theorem Memory.get_filter_out (m : List Host.Cell) (a : Nat) (p : Host.Cell → Bool) (h : ∀ b : Byte, p (a, b) = false) :
    Memory.get (m.filter p) a = Memory.blank :=
  Memory.get_none (fun c hc e => by
    have := (List.mem_filter.mp hc).2
    rw [← Prod.eta c, e, h] at this
    exact absurd this (by simp))

/-- The cells of a run give its bytes back. -/
theorem Memory.get_cells (bs : Bytes) (a i : Nat) (h : i < bs.length) : Memory.get (Memory.cells a bs) (a + i) = bs[i] := by
  induction bs generalizing a i with
  | nil => simp at h
  | cons b bs ih =>
    unfold Memory.cells
    cases i with
    | zero =>
      split
      · rename_i hb
        rw [Memory.get_none]
        · simp [hb]
        · intro c hc e
          have := (Memory.mem_cells hc).1
          omega
      · simp [Memory.get]
    | succ i =>
      have hi : i < bs.length := by simpa using h
      have e : a + (i + 1) = a + 1 + i := by omega
      rw [e]
      split
      · simpa using ih (a + 1) i hi
      · have hne : ¬ a = a + 1 + i := by omega
        have e2 : Memory.get ((a, b) :: Memory.cells (a + 1) bs) (a + 1 + i) = Memory.get (Memory.cells (a + 1) bs) (a + 1 + i) := by
          simp [Memory.get, hne]
        rw [e2, ih (a + 1) i hi]
        rfl

/-- A byte outside a write reads as before. -/
theorem Memory.get_write_outside (m : List Host.Cell) (a x : Nat) (bs : Bytes) (h : x < a ∨ a + bs.length ≤ x) :
    Memory.get (Memory.write m a bs) x = Memory.get m x := by
  unfold Memory.write
  rw [List.append_assoc, Memory.get_append, Memory.get_append]
  rcases h with h | h
  · have h1 : Memory.get (m.filter (fun c => decide (c.1 < a))) x = Memory.get m x :=
      Memory.get_filter m x _ (fun _ => by simpa using h)
    have h2 : Memory.get (Memory.cells a bs) x = Memory.blank :=
      Memory.get_none (fun c hc e => by have := (Memory.mem_cells hc).1; omega)
    have h3 : Memory.get (m.filter (fun c => decide (a + bs.length ≤ c.1))) x = Memory.blank :=
      Memory.get_filter_out m x _ (fun _ => by simp; omega)
    split
    · exact h1
    · rename_i hn
      have h4 : Memory.get (m.filter (fun c => decide (c.1 < a))) x = Memory.blank :=
        Memory.get_none (fun c hc e => hn (List.any_eq_true.mpr ⟨c, hc, by simpa using e⟩))
      rw [← h1, h4]
      split
      · exact h2
      · exact h3
  · have h1 : (m.filter (fun c => decide (c.1 < a))).any (fun c => c.1 == x) = false := by
      rw [List.any_eq_false]
      intro c hc
      have := (List.mem_filter.mp hc).2
      simp only [decide_eq_true_eq, beq_iff_eq] at this ⊢
      omega
    have h2 : (Memory.cells a bs).any (fun c => c.1 == x) = false := by
      rw [List.any_eq_false]
      intro c hc
      have := (Memory.mem_cells hc).2.1
      simp only [beq_iff_eq]
      omega
    rw [h1, h2]
    exact Memory.get_filter m x _ (fun _ => by simpa using h)

/-- A byte inside a write reads as written. -/
theorem Memory.get_write_inside (m : List Host.Cell) (a i : Nat) (bs : Bytes) (h : i < bs.length) :
    Memory.get (Memory.write m a bs) (a + i) = bs[i] := by
  unfold Memory.write
  rw [List.append_assoc, Memory.get_append, Memory.get_append]
  have h1 : (m.filter (fun c => decide (c.1 < a))).any (fun c => c.1 == a + i) = false := by
    rw [List.any_eq_false]
    intro c hc
    have := (List.mem_filter.mp hc).2
    simp only [decide_eq_true_eq, beq_iff_eq] at this ⊢
    omega
  have h3 : Memory.get (m.filter (fun c => decide (a + bs.length ≤ c.1))) (a + i) = Memory.blank :=
    Memory.get_filter_out m _ _ (fun _ => by simp; omega)
  rw [h1]
  have h2 := Memory.get_cells bs a i h
  simp only [Bool.false_eq_true, if_false]
  split
  · exact h2
  · rename_i hn
    rw [h3, ← h2]
    exact (Memory.get_none (fun c hc e => hn (List.any_eq_true.mpr ⟨c, hc, by simpa using e⟩))).symm

theorem Memory.get_cons_ne (c : Host.Cell) (m : List Host.Cell) (a : Nat) (h : c.1 ≠ a) : Memory.get (c :: m) a = Memory.get m a := by
  simp [Memory.get, h]

theorem Memory.take_eq (k a : Nat) (m : List Host.Cell) (hp : m.Pairwise (fun x y => x.1 < y.1)) (ha : ∀ c ∈ m, a ≤ c.1) :
    Memory.take k a m = (List.range k).map (fun i => Memory.get m (a + i)) := by
  induction k generalizing a m with
  | zero => rfl
  | succ k ih =>
    have hs (n : List Host.Cell) (hn : n.Pairwise (fun x y => x.1 < y.1)) (hg : ∀ c ∈ n, a + 1 ≤ c.1)
        (he : ∀ i, Memory.get m (a + 1 + i) = Memory.get n (a + 1 + i)) (b : Byte) (hb : Memory.get m a = b) :
        b :: Memory.take k (a + 1) n = (List.range (k + 1)).map (fun i => Memory.get m (a + i)) := by
      rw [List.range_succ_eq_map, ih _ _ hn hg]
      simp only [List.map_cons, Nat.add_zero, hb, List.map_map, List.cons.injEq, true_and]
      refine List.map_congr_left (fun i _ => ?_)
      rw [← he, Function.comp, Nat.add_assoc, Nat.add_comm 1]
    cases m with
    | nil => exact hs [] .nil (by simp) (fun i => rfl) _ rfl
    | cons c cs =>
      obtain ⟨h1, h2⟩ := List.pairwise_cons.mp hp
      unfold Memory.take
      split
      · rename_i hc
        exact hs cs h2 (fun x hx => by have := h1 x hx; omega) (fun i => Memory.get_cons_ne _ _ _ (by omega)) _ (by simp [Memory.get, hc])
      · rename_i hc
        have hlt : a < c.1 := by have := ha c (by simp); omega
        refine hs (c :: cs) hp ?_ (fun i => rfl) _ ?_
        · intro x hx
          rcases List.mem_cons.mp hx with rfl | hx
          · omega
          · have := h1 x hx; omega
        · refine Memory.get_none (fun x hx => ?_)
          rcases List.mem_cons.mp hx with rfl | hx
          · omega
          · have := h1 x hx; omega

theorem Memory.from_spec (a : Nat) (m : List Host.Cell) (hp : m.Pairwise (fun x y => x.1 < y.1)) :
    (Memory.from a m).Pairwise (fun x y => x.1 < y.1) ∧ (∀ c ∈ Memory.from a m, a ≤ c.1) ∧
      ∀ i, Memory.get (Memory.from a m) (a + i) = Memory.get m (a + i) := by
  induction m with
  | nil => exact ⟨.nil, by simp [Memory.from], fun i => rfl⟩
  | cons c cs ih =>
    obtain ⟨h1, h2⟩ := List.pairwise_cons.mp hp
    unfold Memory.from
    split
    · obtain ⟨i1, i2, i3⟩ := ih h2
      exact ⟨i1, i2, fun i => by rw [i3, Memory.get_cons_ne _ _ _ (by omega)]⟩
    · refine ⟨hp, ?_, fun i => rfl⟩
      intro x hx
      rcases List.mem_cons.mp hx with rfl | hx
      · omega
      · have := h1 x hx; omega

/-- Reading `k` bytes of a memory in canonical form is reading each of them. -/
theorem Memory.read_eq {m : List Host.Cell} (hm : Memory.wf m) (a k : Nat) :
    Memory.read m a k = (List.range k).map (fun i => Memory.get m (a + i)) := by
  obtain ⟨h1, h2, h3⟩ := Memory.from_spec a m hm.1
  rw [Memory.read, Memory.take_eq k a _ h1 h2]
  simp [h3]

/-- A write is read back, whatever stands beside it. -/
theorem Memory.read_write {m : List Host.Cell} (hm : Memory.wf m) (a : Nat) (b c d : Bytes) :
    Memory.read (Memory.write m a (b ++ c ++ d)) (a + b.length) c.length = c := by
  rw [Memory.read_eq (Memory.wf_write hm _ _)]
  apply List.ext_getElem
  · simp
  · intro i h1 h2
    have hi : i < c.length := by simpa using h1
    have := Memory.get_write_inside m a (b.length + i) (b ++ c ++ d) (by simp; omega)
    rw [List.getElem_map, List.getElem_range, Nat.add_assoc, this]
    simp [hi]

/-- A read outside the bytes written is as before. -/
theorem Memory.read_write_outside {m : List Host.Cell} (hm : Memory.wf m) (a x k : Nat) (b : Bytes) (h : x + k ≤ a ∨ a + b.length ≤ x) :
    Memory.read (Memory.write m a b) x k = Memory.read m x k := by
  rw [Memory.read_eq (Memory.wf_write hm _ _), Memory.read_eq hm]
  apply List.map_congr_left
  intro i hi
  have hi : i < k := by simpa using hi
  exact Memory.get_write_outside m a (x + i) b (by omega)

end Sys2Proof.Machine
end

