-- ==== Sys2Proof/Laws/Keeps.lean ====
section
/-! SUPPORT. What every operation of the block keeps: the straps, the commands that wait, the count of free values from below, the
canonical form of the three memories, and the counters' bound. One lemma per operation says so (the other files Keeps… here); callers cite it. -/

namespace Sys2Proof.Machine

/-- `t` comes from `s` by operations that keep the straps, the queue, the form of the memories and of the counters. -/
structure Keeps (s t : State) : Prop where
  straps : t.straps = s.straps
  pending : t.pending = s.pending
  free : s.free ≤ t.free
  memWf : s.MemWf → t.MemWf
  counters : s.CountersOk → t.CountersOk

namespace Keeps

theorem refl (s : State) : Keeps s s := ⟨rfl, rfl, Nat.le_refl _, id, id⟩

theorem trans {s t u : State} (h1 : Keeps s t) (h2 : Keeps t u) : Keeps s u :=
  ⟨h2.straps.trans h1.straps, h2.pending.trans h1.pending, Nat.le_trans h1.free h2.free, fun h => h2.memWf (h1.memWf h),
    fun h => h2.counters (h1.counters h)⟩

/-- A record update of the other fields. -/
theorem put {s s0 : State} {sys time fr planEff planPend adm regs staged hanks tier land card code loss mem led whorl fx house
    jtag scrub off prev ans out} :
    Keeps s { straps := s0.straps, sys := sys, time := time, fr := fr, planEff := planEff, planPend := planPend, adm := adm,
              counters := s0.counters, regs := regs, staged := staged, hanks := hanks, hearth := s0.hearth, pantry := s0.pantry,
              nv := s0.nv, tier := tier, land := land, card := card, code := code, loss := loss, mem := mem, led := led,
              whorl := whorl, fx := fx, house := house, jtag := jtag, scrub := scrub, off := off, prev := prev, ans := ans,
              out := out, free := s0.free,
              pending := s0.pending } ↔ Keeps s s0 :=
  ⟨fun h => ⟨h.straps, h.pending, h.free, h.memWf, h.counters⟩, fun h => ⟨h.straps, h.pending, h.free, h.memWf, h.counters⟩⟩

/-- A counter written with a value within the limit. -/
theorem counter {s : State} {k v : Nat} (hv : v ≤ Config.u64Max) : Keeps s { s with counters := natSet s.counters k v } := by
  refine ⟨rfl, rfl, Nat.le_refl _, id, fun ⟨⟨h1, h2⟩, h3⟩ => ⟨⟨?_, fun c hc => ?_⟩, fun c hc => ?_⟩⟩
  · refine List.pairwise_append.mpr ⟨List.pairwise_append.mpr ⟨h1.filter _, ?_, ?_⟩, h1.filter _, ?_⟩
    · split <;> simp
    · intro x hx y hy
      have hk := (List.mem_filter.mp hx).2
      split at hy
      · simp at hy
      · simp only [List.mem_singleton] at hy
        simp only [decide_eq_true_eq] at hk
        rw [hy]
        exact hk
    · intro x hx y hy
      have hk := (List.mem_filter.mp hy).2
      simp only [decide_eq_true_eq] at hk
      rcases List.mem_append.mp hx with hx | hx
      · have hx := (List.mem_filter.mp hx).2
        simp only [decide_eq_true_eq] at hx
        omega
      · split at hx
        · simp at hx
        · simp only [List.mem_singleton] at hx
          rw [hx]
          exact hk
  · rcases List.mem_append.mp hc with hc | hc
    · rcases List.mem_append.mp hc with hc | hc
      · exact h2 c (List.mem_filter.mp hc).1
      · split at hc
        · simp at hc
        · rename_i hv0
          simp only [List.mem_singleton] at hc
          rw [hc]
          exact hv0
    · exact h2 c (List.mem_filter.mp hc).1
  · rcases List.mem_append.mp hc with hc | hc
    · rcases List.mem_append.mp hc with hc | hc
      · exact h3 c (List.mem_filter.mp hc).1
      · split at hc
        · simp at hc
        · simp only [List.mem_singleton] at hc
          rw [hc]
          exact hv
    · exact h3 c (List.mem_filter.mp hc).1

/-- The first component of a pair that is known by an equation. -/
theorem of_fst {α : Type} {s t : State} {p : State × α} {x : α} (h : Keeps s p.1) (e : p = (t, x)) : Keeps s t := by
  rw [e] at h
  exact h

theorem fst_mk {α : Type} {s t : State} {x : α} (h : Keeps s t) : Keeps s (t, x).1 := h

/-- Both branches of a pair keep. -/
theorem ite_fst {α : Type} {c : Prop} [Decidable c] {s : State} {p q : State × α} (h1 : Keeps s p.1) (h2 : Keeps s q.1) :
    Keeps s (if c then p else q).1 := by
  split
  · exact h1
  · exact h2

/-- A loop keeps what each turn keeps. -/
theorem foldl {α : Type} {f : State → α → State} {l : List α} {s0 s : State} (hf : ∀ st x, Keeps st (f st x)) (h : Keeps s0 s) :
    Keeps s0 (l.foldl f s) := by
  induction l generalizing s with
  | nil => exact h
  | cons x xs ih => exact ih (h.trans (hf s x))

theorem forEach {α : Type} {f : α → State → State} {l : List α} {s0 s : State} (hf : ∀ x st, Keeps st (f x st)) (h : Keeps s0 s) :
    Keeps s0 (forEach l f s) :=
  foldl (fun st x => hf x st) h

/-- A loop over a state and something else. -/
theorem foldl_fst {α β : Type} {f : State × β → α → State × β} {l : List α} {p : State × β} {s0 : State}
    (hf : ∀ acc x, Keeps acc.1 (f acc x).1) (h : Keeps s0 p.1) : Keeps s0 (l.foldl f p).1 := by
  induction l generalizing p with
  | nil => exact h
  | cons x xs ih => exact ih (h.trans (hf p x))

end Keeps

end Sys2Proof.Machine
end

