-- ==== Sys2Proof/Laws/KeepsOps.lean ====
section
/-! SUPPORT. What the operations of Machine/Ops.lean keep (Keeps.lean). -/

set_option linter.unusedSimpArgs false

namespace Sys2Proof.Machine

theorem State.emit_keeps {t s : State} {x0} (h : Keeps t s) : Keeps t (State.emit x0 s) := by
  refine h.trans ?_
  clear h
  unfold State.emit
  repeat' first
    | with_reducible exact Keeps.refl _
    | with_reducible assumption
    | with_reducible refine Keeps.of_fst ?_ (by assumption)
    | with_reducible refine Keeps.ite_fst ?_ ?_
    | simp only [Keeps.put]
    | with_reducible refine Keeps.forEach (fun x st => ?_) ?_
    | with_reducible refine Keeps.foldl_fst (fun acc x => ?_) ?_
    | with_reducible refine Keeps.foldl (fun st x => ?_) ?_
    | split

theorem State.askBlocks_keeps {t s : State} {x0 x1} (h : Keeps t s) : Keeps t (State.askBlocks x0 x1 s) := by
  refine h.trans ?_
  clear h
  unfold State.askBlocks
  repeat' first
    | with_reducible exact Keeps.refl _
    | with_reducible assumption
    | with_reducible refine Keeps.of_fst ?_ (by assumption)
    | with_reducible refine Keeps.ite_fst ?_ ?_
    | simp only [Keeps.put]
    | with_reducible refine State.emit_keeps ?_
    | with_reducible refine Keeps.forEach (fun x st => ?_) ?_
    | with_reducible refine Keeps.foldl_fst (fun acc x => ?_) ?_
    | with_reducible refine Keeps.foldl (fun st x => ?_) ?_
    | split

theorem State.askLine_keeps {t s : State} {x0} (h : Keeps t s) : Keeps t (State.askLine x0 s) := by
  refine h.trans ?_
  clear h
  unfold State.askLine
  repeat' first
    | with_reducible exact Keeps.refl _
    | with_reducible assumption
    | with_reducible refine Keeps.of_fst ?_ (by assumption)
    | with_reducible refine Keeps.ite_fst ?_ ?_
    | simp only [Keeps.put]
    | with_reducible refine State.emit_keeps ?_
    | with_reducible refine Keeps.forEach (fun x st => ?_) ?_
    | with_reducible refine Keeps.foldl_fst (fun acc x => ?_) ?_
    | with_reducible refine Keeps.foldl (fun st x => ?_) ?_
    | split

theorem State.bump_keeps {t s : State} {x0 x1 x2} (h : Keeps t s) : Keeps t (State.bump x0 x1 x2 s) :=
  h.trans (Keeps.counter (Nat.min_le_left _ _))

theorem State.enter_keeps {t s : State} {x0 x1 x2 x3} (h : Keeps t s) : Keeps t (State.enter x0 x1 x2 x3 s) := by
  refine h.trans ?_
  clear h
  unfold State.enter
  repeat' first
    | with_reducible exact Keeps.refl _
    | with_reducible assumption
    | with_reducible refine Keeps.of_fst ?_ (by assumption)
    | with_reducible refine Keeps.ite_fst ?_ ?_
    | simp only [Keeps.put]
    | with_reducible refine State.bump_keeps ?_
    | with_reducible refine Keeps.forEach (fun x st => ?_) ?_
    | with_reducible refine Keeps.foldl_fst (fun acc x => ?_) ?_
    | with_reducible refine Keeps.foldl (fun st x => ?_) ?_
    | split

theorem State.setFrameEvents_keeps {t s : State} {x0} (h : Keeps t s) : Keeps t (State.setFrameEvents x0 s) := by
  refine h.trans ?_
  clear h
  unfold State.setFrameEvents
  repeat' first
    | with_reducible exact Keeps.refl _
    | with_reducible assumption
    | with_reducible refine Keeps.of_fst ?_ (by assumption)
    | with_reducible refine Keeps.ite_fst ?_ ?_
    | simp only [Keeps.put]
    | with_reducible refine Keeps.forEach (fun x st => ?_) ?_
    | with_reducible refine Keeps.foldl_fst (fun acc x => ?_) ?_
    | with_reducible refine Keeps.foldl (fun st x => ?_) ?_
    | split

theorem State.raise_keeps {t s : State} {x0 x1 x2 x3} (h : Keeps t s) : Keeps t (State.raise x0 x1 x2 x3 s) := by
  refine h.trans ?_
  clear h
  unfold State.raise
  repeat' first
    | with_reducible exact Keeps.refl _
    | with_reducible assumption
    | with_reducible refine Keeps.of_fst ?_ (by assumption)
    | with_reducible refine Keeps.ite_fst ?_ ?_
    | simp only [Keeps.put]
    | with_reducible refine State.enter_keeps ?_
    | with_reducible refine State.setFrameEvents_keeps ?_
    | with_reducible refine State.bump_keeps ?_
    | with_reducible refine Keeps.forEach (fun x st => ?_) ?_
    | with_reducible refine Keeps.foldl_fst (fun acc x => ?_) ?_
    | with_reducible refine Keeps.foldl (fun st x => ?_) ?_
    | split

theorem State.changed_keeps {t s : State} {x0 x1 x2} (h : Keeps t s) : Keeps t (State.changed x0 x1 x2 s) := by
  refine h.trans ?_
  clear h
  unfold State.changed
  repeat' first
    | with_reducible exact Keeps.refl _
    | with_reducible assumption
    | with_reducible refine Keeps.of_fst ?_ (by assumption)
    | with_reducible refine Keeps.ite_fst ?_ ?_
    | simp only [Keeps.put]
    | with_reducible refine State.raise_keeps ?_
    | with_reducible refine Keeps.forEach (fun x st => ?_) ?_
    | with_reducible refine Keeps.foldl_fst (fun acc x => ?_) ?_
    | with_reducible refine Keeps.foldl (fun st x => ?_) ?_
    | split

theorem State.clearCtr_keeps {t s : State} {x0 x1} (h : Keeps t s) : Keeps t (State.clearCtr x0 x1 s) :=
  h.trans (Keeps.counter (Nat.zero_le _))

theorem State.note_keeps {t s : State} {x0 x1 x2} (h : Keeps t s) : Keeps t (State.note x0 x1 x2 s) := by
  refine h.trans ?_
  clear h
  unfold State.note
  repeat' first
    | with_reducible exact Keeps.refl _
    | with_reducible assumption
    | with_reducible refine Keeps.of_fst ?_ (by assumption)
    | with_reducible refine Keeps.ite_fst ?_ ?_
    | simp only [Keeps.put]
    | with_reducible refine State.raise_keeps ?_
    | with_reducible refine Keeps.forEach (fun x st => ?_) ?_
    | with_reducible refine Keeps.foldl_fst (fun acc x => ?_) ?_
    | with_reducible refine Keeps.foldl (fun st x => ?_) ?_
    | split

theorem State.countNote_keeps {t s : State} {x0 x1 x2} (h : Keeps t s) : Keeps t (State.countNote x0 x1 x2 s) := by
  refine h.trans ?_
  clear h
  unfold State.countNote
  repeat' first
    | with_reducible exact Keeps.refl _
    | with_reducible assumption
    | with_reducible refine Keeps.of_fst ?_ (by assumption)
    | with_reducible refine Keeps.ite_fst ?_ ?_
    | simp only [Keeps.put]
    | with_reducible refine State.note_keeps ?_
    | with_reducible refine State.bump_keeps ?_
    | with_reducible refine Keeps.forEach (fun x st => ?_) ?_
    | with_reducible refine Keeps.foldl_fst (fun acc x => ?_) ?_
    | with_reducible refine Keeps.foldl (fun st x => ?_) ?_
    | split

theorem State.flushSuppressed_keeps {t s : State} (h : Keeps t s) : Keeps t (State.flushSuppressed s) := by
  refine h.trans ?_
  clear h
  unfold State.flushSuppressed
  repeat' first
    | with_reducible exact Keeps.refl _
    | with_reducible assumption
    | with_reducible refine Keeps.of_fst ?_ (by assumption)
    | with_reducible refine Keeps.ite_fst ?_ ?_
    | simp only [Keeps.put]
    | with_reducible refine State.enter_keeps ?_
    | with_reducible refine Keeps.forEach (fun x st => ?_) ?_
    | with_reducible refine Keeps.foldl_fst (fun acc x => ?_) ?_
    | with_reducible refine Keeps.foldl (fun st x => ?_) ?_
    | split

theorem State.hearthPut_keeps {t s : State} {x0 x1} (h : Keeps t s) : Keeps t (State.hearthPut x0 x1 s) :=
  h.trans ⟨rfl, rfl, Nat.le_refl _, fun h => ⟨Memory.wf_write h.1 _ _, h.2.1, h.2.2⟩, id⟩

theorem State.tell_keeps {t s : State} {x0} (h : Keeps t s) : Keeps t (State.tell x0 s) := by
  refine h.trans ?_
  clear h
  unfold State.tell
  repeat' first
    | with_reducible exact Keeps.refl _
    | with_reducible assumption
    | with_reducible refine Keeps.of_fst ?_ (by assumption)
    | with_reducible refine Keeps.ite_fst ?_ ?_
    | simp only [Keeps.put]
    | with_reducible refine State.emit_keeps ?_
    | with_reducible refine Keeps.forEach (fun x st => ?_) ?_
    | with_reducible refine Keeps.foldl_fst (fun acc x => ?_) ?_
    | with_reducible refine Keeps.foldl (fun st x => ?_) ?_
    | split

theorem State.hearthBeat_keeps {t s : State} {x0 x1 x2} (h : Keeps t s) : Keeps t (State.hearthBeat x0 x1 x2 s) := by
  refine h.trans ?_
  clear h
  unfold State.hearthBeat
  repeat' first
    | with_reducible exact Keeps.refl _
    | with_reducible assumption
    | with_reducible refine Keeps.of_fst ?_ (by assumption)
    | with_reducible refine Keeps.ite_fst ?_ ?_
    | simp only [Keeps.put]
    | with_reducible refine State.hearthPut_keeps ?_
    | with_reducible refine State.tell_keeps ?_
    | with_reducible refine Keeps.forEach (fun x st => ?_) ?_
    | with_reducible refine Keeps.foldl_fst (fun acc x => ?_) ?_
    | with_reducible refine Keeps.foldl (fun st x => ?_) ?_
    | split

theorem State.tellBlocks_keeps {t s : State} {x0 x1} (h : Keeps t s) : Keeps t (State.tellBlocks x0 x1 s) := by
  refine h.trans ?_
  clear h
  unfold State.tellBlocks
  repeat' first
    | with_reducible exact Keeps.refl _
    | with_reducible assumption
    | with_reducible refine Keeps.of_fst ?_ (by assumption)
    | with_reducible refine Keeps.ite_fst ?_ ?_
    | simp only [Keeps.put]
    | with_reducible refine State.tell_keeps ?_
    | with_reducible refine Keeps.forEach (fun x st => ?_) ?_
    | with_reducible refine Keeps.foldl_fst (fun acc x => ?_) ?_
    | with_reducible refine Keeps.foldl (fun st x => ?_) ?_
    | split

theorem State.hearthWrite_keeps {t s : State} {x0 x1} (h : Keeps t s) : Keeps t (State.hearthWrite x0 x1 s) := by
  refine h.trans ?_
  clear h
  unfold State.hearthWrite
  repeat' first
    | with_reducible exact Keeps.refl _
    | with_reducible assumption
    | with_reducible refine Keeps.of_fst ?_ (by assumption)
    | with_reducible refine Keeps.ite_fst ?_ ?_
    | simp only [Keeps.put]
    | with_reducible refine State.hearthPut_keeps ?_
    | with_reducible refine State.tellBlocks_keeps ?_
    | with_reducible refine Keeps.forEach (fun x st => ?_) ?_
    | with_reducible refine Keeps.foldl_fst (fun acc x => ?_) ?_
    | with_reducible refine Keeps.foldl (fun st x => ?_) ?_
    | split

theorem State.mergeAt_keeps {t s : State} {x0} (h : Keeps t s) : Keeps t (State.mergeAt x0 s) := by
  refine h.trans ?_
  clear h
  unfold State.mergeAt
  repeat' first
    | with_reducible exact Keeps.refl _
    | with_reducible assumption
    | with_reducible refine Keeps.of_fst ?_ (by assumption)
    | with_reducible refine Keeps.ite_fst ?_ ?_
    | simp only [Keeps.put]
    | with_reducible refine State.bump_keeps ?_
    | with_reducible refine Keeps.forEach (fun x st => ?_) ?_
    | with_reducible refine Keeps.foldl_fst (fun acc x => ?_) ?_
    | with_reducible refine Keeps.foldl (fun st x => ?_) ?_
    | split

theorem State.nvWrite_keeps {t s : State} {x0 x1} (h : Keeps t s) : Keeps t (State.nvWrite x0 x1 s) :=
  h.trans ⟨rfl, rfl, Nat.le_refl _, fun h => ⟨h.1, h.2.1, Memory.wf_write h.2.2 _ _⟩, id⟩

theorem State.pantryPut_keeps {t s : State} {x0 x1} (h : Keeps t s) : Keeps t (State.pantryPut x0 x1 s) :=
  h.trans ⟨rfl, rfl, Nat.le_refl _, fun h => ⟨h.1, Memory.wf_write h.2.1 _ _, h.2.2⟩, id⟩

theorem State.pantryBeat_keeps {t s : State} {x0 x1 x2} (h : Keeps t s) : Keeps t (State.pantryBeat x0 x1 x2 s) := by
  refine h.trans ?_
  clear h
  unfold State.pantryBeat
  repeat' first
    | with_reducible exact Keeps.refl _
    | with_reducible assumption
    | with_reducible refine Keeps.of_fst ?_ (by assumption)
    | with_reducible refine Keeps.ite_fst ?_ ?_
    | simp only [Keeps.put]
    | with_reducible refine State.tell_keeps ?_
    | with_reducible refine State.pantryPut_keeps ?_
    | with_reducible refine Keeps.forEach (fun x st => ?_) ?_
    | with_reducible refine Keeps.foldl_fst (fun acc x => ?_) ?_
    | with_reducible refine Keeps.foldl (fun st x => ?_) ?_
    | split

theorem State.tellLines_keeps {t s : State} {x0 x1} (h : Keeps t s) : Keeps t (State.tellLines x0 x1 s) := by
  refine h.trans ?_
  clear h
  unfold State.tellLines
  repeat' first
    | with_reducible exact Keeps.refl _
    | with_reducible assumption
    | with_reducible refine Keeps.of_fst ?_ (by assumption)
    | with_reducible refine Keeps.ite_fst ?_ ?_
    | simp only [Keeps.put]
    | with_reducible refine State.tell_keeps ?_
    | with_reducible refine Keeps.forEach (fun x st => ?_) ?_
    | with_reducible refine Keeps.foldl_fst (fun acc x => ?_) ?_
    | with_reducible refine Keeps.foldl (fun st x => ?_) ?_
    | split

theorem State.pantryWrite_keeps {t s : State} {x0 x1} (h : Keeps t s) : Keeps t (State.pantryWrite x0 x1 s) := by
  refine h.trans ?_
  clear h
  unfold State.pantryWrite
  repeat' first
    | with_reducible exact Keeps.refl _
    | with_reducible assumption
    | with_reducible refine Keeps.of_fst ?_ (by assumption)
    | with_reducible refine Keeps.ite_fst ?_ ?_
    | simp only [Keeps.put]
    | with_reducible refine State.pantryPut_keeps ?_
    | with_reducible refine State.tellLines_keeps ?_
    | with_reducible refine Keeps.forEach (fun x st => ?_) ?_
    | with_reducible refine Keeps.foldl_fst (fun acc x => ?_) ?_
    | with_reducible refine Keeps.foldl (fun st x => ?_) ?_
    | split

theorem State.refuseWrite_keeps {t s : State} {x0 x1 x2} (h : Keeps t s) : Keeps t (State.refuseWrite x0 x1 x2 s) := by
  refine h.trans ?_
  clear h
  unfold State.refuseWrite
  repeat' first
    | with_reducible exact Keeps.refl _
    | with_reducible assumption
    | with_reducible refine Keeps.of_fst ?_ (by assumption)
    | with_reducible refine Keeps.ite_fst ?_ ?_
    | simp only [Keeps.put]
    | with_reducible refine State.raise_keeps ?_
    | with_reducible refine State.bump_keeps ?_
    | with_reducible refine Keeps.forEach (fun x st => ?_) ?_
    | with_reducible refine Keeps.foldl_fst (fun acc x => ?_) ?_
    | with_reducible refine Keeps.foldl (fun st x => ?_) ?_
    | split

theorem State.sampleTime_keeps {t s : State} {x0} (h : Keeps t s) : Keeps t (State.sampleTime x0 s) := by
  refine h.trans ?_
  clear h
  unfold State.sampleTime
  repeat' first
    | with_reducible exact Keeps.refl _
    | with_reducible assumption
    | with_reducible refine Keeps.of_fst ?_ (by assumption)
    | with_reducible refine Keeps.ite_fst ?_ ?_
    | simp only [Keeps.put]
    | with_reducible refine State.bump_keeps ?_
    | with_reducible refine Keeps.forEach (fun x st => ?_) ?_
    | with_reducible refine Keeps.foldl_fst (fun acc x => ?_) ?_
    | with_reducible refine Keeps.foldl (fun st x => ?_) ?_
    | split

theorem State.setReg_keeps {t s : State} {x0 x1 x2} (h : Keeps t s) : Keeps t (State.setReg x0 x1 x2 s) := by
  refine h.trans ?_
  clear h
  unfold State.setReg
  repeat' first
    | with_reducible exact Keeps.refl _
    | with_reducible assumption
    | with_reducible refine Keeps.of_fst ?_ (by assumption)
    | with_reducible refine Keeps.ite_fst ?_ ?_
    | simp only [Keeps.put]
    | with_reducible refine Keeps.forEach (fun x st => ?_) ?_
    | with_reducible refine Keeps.foldl_fst (fun acc x => ?_) ?_
    | with_reducible refine Keeps.foldl (fun st x => ?_) ?_
    | split

theorem State.spendFree_keeps {t s : State} {x0} (h : Keeps t s) : Keeps t (State.spendFree x0 s) :=
  h.trans ⟨rfl, rfl, Nat.le_add_right _ _, id, id⟩

theorem State.stage_keeps {t s : State} {x0 x1 x2} (h : Keeps t s) : Keeps t (State.stage x0 x1 x2 s) := by
  refine h.trans ?_
  clear h
  unfold State.stage
  repeat' first
    | with_reducible exact Keeps.refl _
    | with_reducible assumption
    | with_reducible refine Keeps.of_fst ?_ (by assumption)
    | with_reducible refine Keeps.ite_fst ?_ ?_
    | simp only [Keeps.put]
    | with_reducible refine State.bump_keeps ?_
    | with_reducible refine Keeps.forEach (fun x st => ?_) ?_
    | with_reducible refine Keeps.foldl_fst (fun acc x => ?_) ?_
    | with_reducible refine Keeps.foldl (fun st x => ?_) ?_
    | split

theorem State.tellLater_keeps {t s : State} (h : Keeps t s) : Keeps t (State.tellLater s) := by
  refine h.trans ?_
  clear h
  unfold State.tellLater
  repeat' first
    | with_reducible exact Keeps.refl _
    | with_reducible assumption
    | with_reducible refine Keeps.of_fst ?_ (by assumption)
    | with_reducible refine Keeps.ite_fst ?_ ?_
    | simp only [Keeps.put]
    | with_reducible refine State.tell_keeps ?_
    | with_reducible refine Keeps.forEach (fun x st => ?_) ?_
    | with_reducible refine Keeps.foldl_fst (fun acc x => ?_) ?_
    | with_reducible refine Keeps.foldl (fun st x => ?_) ?_
    | split

theorem State.unstage_keeps {t s : State} {x0 x1} (h : Keeps t s) : Keeps t (State.unstage x0 x1 s) := by
  refine h.trans ?_
  clear h
  unfold State.unstage
  repeat' first
    | with_reducible exact Keeps.refl _
    | with_reducible assumption
    | with_reducible refine Keeps.of_fst ?_ (by assumption)
    | with_reducible refine Keeps.ite_fst ?_ ?_
    | simp only [Keeps.put]
    | with_reducible refine Keeps.forEach (fun x st => ?_) ?_
    | with_reducible refine Keeps.foldl_fst (fun acc x => ?_) ?_
    | with_reducible refine Keeps.foldl (fun st x => ?_) ?_
    | split

theorem State.updHank_keeps {t s : State} {x0 x1} (h : Keeps t s) : Keeps t (State.updHank x0 x1 s) := by
  refine h.trans ?_
  clear h
  unfold State.updHank
  repeat' first
    | with_reducible exact Keeps.refl _
    | with_reducible assumption
    | with_reducible refine Keeps.of_fst ?_ (by assumption)
    | with_reducible refine Keeps.ite_fst ?_ ?_
    | simp only [Keeps.put]
    | with_reducible refine Keeps.forEach (fun x st => ?_) ?_
    | with_reducible refine Keeps.foldl_fst (fun acc x => ?_) ?_
    | with_reducible refine Keeps.foldl (fun st x => ?_) ?_
    | split

end Sys2Proof.Machine
end

