-- ==== Sys2Proof/Laws/KeepsLayout.lean ====
section
/-! SUPPORT. What the operations of Machine/Layout.lean keep (Keeps.lean). -/

set_option linter.unusedSimpArgs false

namespace Sys2Proof.Machine

theorem State.writeOwnPly_keeps {t s : State} {x0 x1 x2 x3 x4} (h : Keeps t s) : Keeps t (State.writeOwnPly x0 x1 x2 x3 x4 s) := by
  refine h.trans ?_
  clear h
  unfold State.writeOwnPly
  repeat' first
    | with_reducible exact Keeps.refl _
    | with_reducible assumption
    | with_reducible refine Keeps.of_fst ?_ (by assumption)
    | with_reducible refine Keeps.ite_fst ?_ ?_
    | simp only [Keeps.put]
    | with_reducible refine State.pantryWrite_keeps ?_
    | with_reducible refine State.hearthWrite_keeps ?_
    | with_reducible refine Keeps.forEach (fun x st => ?_) ?_
    | with_reducible refine Keeps.foldl_fst (fun acc x => ?_) ?_
    | with_reducible refine Keeps.foldl (fun st x => ?_) ?_
    | split

theorem State.carryPlies_keeps {t s : State} {x0} (h : Keeps t s) : Keeps t (State.carryPlies x0 s) := by
  refine h.trans ?_
  clear h
  unfold State.carryPlies
  repeat' first
    | with_reducible exact Keeps.refl _
    | with_reducible assumption
    | with_reducible refine Keeps.of_fst ?_ (by assumption)
    | with_reducible refine Keeps.ite_fst ?_ ?_
    | simp only [Keeps.put]
    | with_reducible refine State.writeOwnPly_keeps ?_
    | with_reducible refine Keeps.forEach (fun x st => ?_) ?_
    | with_reducible refine Keeps.foldl_fst (fun acc x => ?_) ?_
    | with_reducible refine Keeps.foldl (fun st x => ?_) ?_
    | split

theorem State.writePlane_keeps {t s : State} {x0 x1 x2 x3 x4} (h : Keeps t s) : Keeps t (State.writePlane x0 x1 x2 x3 x4 s) := by
  refine h.trans ?_
  clear h
  unfold State.writePlane
  repeat' first
    | with_reducible exact Keeps.refl _
    | with_reducible assumption
    | with_reducible refine Keeps.of_fst ?_ (by assumption)
    | with_reducible refine Keeps.ite_fst ?_ ?_
    | simp only [Keeps.put]
    | with_reducible refine State.pantryWrite_keeps ?_
    | with_reducible refine State.hearthWrite_keeps ?_
    | with_reducible refine Keeps.forEach (fun x st => ?_) ?_
    | with_reducible refine Keeps.foldl_fst (fun acc x => ?_) ?_
    | with_reducible refine Keeps.foldl (fun st x => ?_) ?_
    | split

theorem State.writeGroup_keeps {t s : State} {x0 x1 x2} (h : Keeps t s) : Keeps t (State.writeGroup x0 x1 x2 s) := by
  refine h.trans ?_
  clear h
  unfold State.writeGroup
  repeat' first
    | with_reducible exact Keeps.refl _
    | with_reducible assumption
    | with_reducible refine Keeps.of_fst ?_ (by assumption)
    | with_reducible refine Keeps.ite_fst ?_ ?_
    | simp only [Keeps.put]
    | with_reducible refine State.writePlane_keeps ?_
    | with_reducible refine Keeps.forEach (fun x st => ?_) ?_
    | with_reducible refine Keeps.foldl_fst (fun acc x => ?_) ?_
    | with_reducible refine Keeps.foldl (fun st x => ?_) ?_
    | split

theorem State.writePly_keeps {t s : State} {x0 x1 x2 x3 x4 x5} (h : Keeps t s) : Keeps t (State.writePly x0 x1 x2 x3 x4 x5 s) := by
  refine h.trans ?_
  clear h
  unfold State.writePly
  repeat' first
    | with_reducible exact Keeps.refl _
    | with_reducible assumption
    | with_reducible refine Keeps.of_fst ?_ (by assumption)
    | with_reducible refine Keeps.ite_fst ?_ ?_
    | simp only [Keeps.put]
    | with_reducible refine State.writeOwnPly_keeps ?_
    | with_reducible refine Keeps.forEach (fun x st => ?_) ?_
    | with_reducible refine Keeps.foldl_fst (fun acc x => ?_) ?_
    | with_reducible refine Keeps.foldl (fun st x => ?_) ?_
    | split

theorem State.writeReserve_keeps {t s : State} {x0 x1 x2 x3 x4} (h : Keeps t s) : Keeps t (State.writeReserve x0 x1 x2 x3 x4 s) := by
  refine h.trans ?_
  clear h
  unfold State.writeReserve
  repeat' first
    | with_reducible exact Keeps.refl _
    | with_reducible assumption
    | with_reducible refine Keeps.of_fst ?_ (by assumption)
    | with_reducible refine Keeps.ite_fst ?_ ?_
    | simp only [Keeps.put]
    | with_reducible refine State.hearthWrite_keeps ?_
    | with_reducible refine Keeps.forEach (fun x st => ?_) ?_
    | with_reducible refine Keeps.foldl_fst (fun acc x => ?_) ?_
    | with_reducible refine Keeps.foldl (fun st x => ?_) ?_
    | split

end Sys2Proof.Machine
end

