-- ==== Sys2Proof/Laws/KeepsFabric.lean ====
section
/-! SUPPORT. What the operations of Machine/Fabric.lean keep (Keeps.lean). -/

set_option linter.unusedSimpArgs false

namespace Sys2Proof.Machine

theorem State.countReturned_keeps {t s : State} {x0 x1} (h : Keeps t s) : Keeps t (State.countReturned x0 x1 s) := by
  refine h.trans ?_
  clear h
  unfold State.countReturned
  repeat' first
    | with_reducible exact Keeps.refl _
    | with_reducible assumption
    | with_reducible refine Keeps.of_fst ?_ (by assumption)
    | with_reducible refine Keeps.ite_fst ?_ ?_
    | simp only [Keeps.put]
    | with_reducible refine Keeps.forEach (fun x st => ?_) ?_
    | with_reducible refine Keeps.foldl_fst (fun acc x => ?_) ?_
    | with_reducible refine Keeps.foldl (fun st x => ?_) ?_
    | split

theorem State.countIssued_keeps {t s : State} {x0 x1} (h : Keeps t s) : Keeps t (State.countIssued x0 x1 s) := by
  refine h.trans ?_
  clear h
  unfold State.countIssued
  repeat' first
    | with_reducible exact Keeps.refl _
    | with_reducible assumption
    | with_reducible refine Keeps.of_fst ?_ (by assumption)
    | with_reducible refine Keeps.ite_fst ?_ ?_
    | simp only [Keeps.put]
    | with_reducible refine Keeps.forEach (fun x st => ?_) ?_
    | with_reducible refine Keeps.foldl_fst (fun acc x => ?_) ?_
    | with_reducible refine Keeps.foldl (fun st x => ?_) ?_
    | split

theorem State.takeCredits_keeps {t s : State} {x0 x1} (h : Keeps t s) : Keeps t (State.takeCredits x0 x1 s) := by
  refine h.trans ?_
  clear h
  unfold State.takeCredits
  repeat' first
    | with_reducible exact Keeps.refl _
    | with_reducible assumption
    | with_reducible refine Keeps.of_fst ?_ (by assumption)
    | with_reducible refine Keeps.ite_fst ?_ ?_
    | simp only [Keeps.put]
    | with_reducible refine State.emit_keeps ?_
    | with_reducible refine State.countReturned_keeps ?_
    | with_reducible refine State.countIssued_keeps ?_
    | with_reducible refine Keeps.forEach (fun x st => ?_) ?_
    | with_reducible refine Keeps.foldl_fst (fun acc x => ?_) ?_
    | with_reducible refine Keeps.foldl (fun st x => ?_) ?_
    | split

theorem State.putTwist_keeps {t s : State} {x0 x1} (h : Keeps t s) : Keeps t (State.putTwist x0 x1 s) := by
  refine h.trans ?_
  clear h
  unfold State.putTwist
  repeat' first
    | with_reducible exact Keeps.refl _
    | with_reducible assumption
    | with_reducible refine Keeps.of_fst ?_ (by assumption)
    | with_reducible refine Keeps.ite_fst ?_ ?_
    | simp only [Keeps.put]
    | with_reducible refine Keeps.forEach (fun x st => ?_) ?_
    | with_reducible refine Keeps.foldl_fst (fun acc x => ?_) ?_
    | with_reducible refine Keeps.foldl (fun st x => ?_) ?_
    | split

theorem State.leaveReg_keeps {t s : State} {x0 x1 x2 x3 x4} (h : Keeps t s) : Keeps t (State.leaveReg x0 x1 x2 x3 x4 s) := by
  refine h.trans ?_
  clear h
  unfold State.leaveReg
  repeat' first
    | with_reducible exact Keeps.refl _
    | with_reducible assumption
    | with_reducible refine Keeps.of_fst ?_ (by assumption)
    | with_reducible refine Keeps.ite_fst ?_ ?_
    | simp only [Keeps.put]
    | with_reducible refine State.putTwist_keeps ?_
    | with_reducible refine Keeps.forEach (fun x st => ?_) ?_
    | with_reducible refine Keeps.foldl_fst (fun acc x => ?_) ?_
    | with_reducible refine Keeps.foldl (fun st x => ?_) ?_
    | split

theorem State.arrive_keeps {t s : State} {x0 x1 x2} (h : Keeps t s) : Keeps t (State.arrive x0 x1 x2 s) := by
  refine h.trans ?_
  clear h
  unfold State.arrive
  repeat' first
    | with_reducible exact Keeps.refl _
    | with_reducible assumption
    | with_reducible refine Keeps.of_fst ?_ (by assumption)
    | with_reducible refine Keeps.ite_fst ?_ ?_
    | simp only [Keeps.put]
    | with_reducible refine State.bump_keeps ?_
    | with_reducible refine State.takeCredits_keeps ?_
    | with_reducible refine State.leaveReg_keeps ?_
    | with_reducible refine Keeps.forEach (fun x st => ?_) ?_
    | with_reducible refine Keeps.foldl_fst (fun acc x => ?_) ?_
    | with_reducible refine Keeps.foldl (fun st x => ?_) ?_
    | split

theorem State.authFailure_keeps {t s : State} (h : Keeps t s) : Keeps t (State.authFailure s) := by
  refine h.trans ?_
  clear h
  unfold State.authFailure
  repeat' first
    | with_reducible exact Keeps.refl _
    | with_reducible assumption
    | with_reducible refine Keeps.of_fst ?_ (by assumption)
    | with_reducible refine Keeps.ite_fst ?_ ?_
    | simp only [Keeps.put]
    | with_reducible refine State.bump_keeps ?_
    | with_reducible refine State.note_keeps ?_
    | with_reducible refine Keeps.forEach (fun x st => ?_) ?_
    | with_reducible refine Keeps.foldl_fst (fun acc x => ?_) ?_
    | with_reducible refine Keeps.foldl (fun st x => ?_) ?_
    | split

theorem State.discard_keeps {t s : State} {x0 x1} (h : Keeps t s) : Keeps t (State.discard x0 x1 s).1 := by
  refine h.trans ?_
  clear h
  unfold State.discard
  repeat' first
    | with_reducible exact Keeps.refl _
    | with_reducible assumption
    | with_reducible refine Keeps.of_fst ?_ (by assumption)
    | with_reducible refine Keeps.ite_fst ?_ ?_
    | simp only [Keeps.put]
    | with_reducible refine State.bump_keeps ?_
    | with_reducible refine Keeps.forEach (fun x st => ?_) ?_
    | with_reducible refine Keeps.foldl_fst (fun acc x => ?_) ?_
    | with_reducible refine Keeps.foldl (fun st x => ?_) ?_
    | split

theorem State.dropReqs_keeps {t s : State} {x0} (h : Keeps t s) : Keeps t (State.dropReqs x0 s) := by
  refine h.trans ?_
  clear h
  unfold State.dropReqs
  repeat' first
    | with_reducible exact Keeps.refl _
    | with_reducible assumption
    | with_reducible refine Keeps.of_fst ?_ (by assumption)
    | with_reducible refine Keeps.ite_fst ?_ ?_
    | simp only [Keeps.put]
    | with_reducible refine Keeps.forEach (fun x st => ?_) ?_
    | with_reducible refine Keeps.foldl_fst (fun acc x => ?_) ?_
    | with_reducible refine Keeps.foldl (fun st x => ?_) ?_
    | split

theorem State.endEntry_keeps {t s : State} {x0} (h : Keeps t s) : Keeps t (State.endEntry x0 s) := by
  refine h.trans ?_
  clear h
  unfold State.endEntry
  repeat' first
    | with_reducible exact Keeps.refl _
    | with_reducible assumption
    | with_reducible refine Keeps.of_fst ?_ (by assumption)
    | with_reducible refine Keeps.ite_fst ?_ ?_
    | simp only [Keeps.put]
    | with_reducible refine State.leaveReg_keeps ?_
    | with_reducible refine State.emit_keeps ?_
    | with_reducible refine State.bump_keeps ?_
    | with_reducible refine Keeps.forEach (fun x st => ?_) ?_
    | with_reducible refine Keeps.foldl_fst (fun acc x => ?_) ?_
    | with_reducible refine Keeps.foldl (fun st x => ?_) ?_
    | split

theorem State.setCredit_keeps {t s : State} {x0 x1 x2} (h : Keeps t s) : Keeps t (State.setCredit x0 x1 x2 s) := by
  refine h.trans ?_
  clear h
  unfold State.setCredit
  repeat' first
    | with_reducible exact Keeps.refl _
    | with_reducible assumption
    | with_reducible refine Keeps.of_fst ?_ (by assumption)
    | with_reducible refine Keeps.ite_fst ?_ ?_
    | simp only [Keeps.put]
    | with_reducible refine Keeps.forEach (fun x st => ?_) ?_
    | with_reducible refine Keeps.foldl_fst (fun acc x => ?_) ?_
    | with_reducible refine Keeps.foldl (fun st x => ?_) ?_
    | split

theorem State.spend_keeps {t s : State} {x0 x1 x2 x3 x4} (h : Keeps t s) : Keeps t (State.spend x0 x1 x2 x3 x4 s) := by
  refine h.trans ?_
  clear h
  unfold State.spend
  repeat' first
    | with_reducible exact Keeps.refl _
    | with_reducible assumption
    | with_reducible refine Keeps.of_fst ?_ (by assumption)
    | with_reducible refine Keeps.ite_fst ?_ ?_
    | simp only [Keeps.put]
    | with_reducible refine State.setCredit_keeps ?_
    | with_reducible refine State.countIssued_keeps ?_
    | with_reducible refine Keeps.forEach (fun x st => ?_) ?_
    | with_reducible refine Keeps.foldl_fst (fun acc x => ?_) ?_
    | with_reducible refine Keeps.foldl (fun st x => ?_) ?_
    | split

theorem State.touchCtx_keeps {t s : State} {x0} (h : Keeps t s) : Keeps t (State.touchCtx x0 s) := by
  refine h.trans ?_
  clear h
  unfold State.touchCtx
  repeat' first
    | with_reducible exact Keeps.refl _
    | with_reducible assumption
    | with_reducible refine Keeps.of_fst ?_ (by assumption)
    | with_reducible refine Keeps.ite_fst ?_ ?_
    | simp only [Keeps.put]
    | with_reducible refine Keeps.forEach (fun x st => ?_) ?_
    | with_reducible refine Keeps.foldl_fst (fun acc x => ?_) ?_
    | with_reducible refine Keeps.foldl (fun st x => ?_) ?_
    | split

theorem State.evictOne_keeps {t s : State} (h : Keeps t s) : Keeps t (State.evictOne s) := by
  refine h.trans ?_
  clear h
  unfold State.evictOne
  repeat' first
    | with_reducible exact Keeps.refl _
    | with_reducible assumption
    | with_reducible refine Keeps.of_fst ?_ (by assumption)
    | with_reducible refine Keeps.ite_fst ?_ ?_
    | simp only [Keeps.put]
    | with_reducible refine State.bump_keeps ?_
    | with_reducible refine Keeps.forEach (fun x st => ?_) ?_
    | with_reducible refine Keeps.foldl_fst (fun acc x => ?_) ?_
    | with_reducible refine Keeps.foldl (fun st x => ?_) ?_
    | split

theorem State.evictFor_keeps {t s : State} {x0} (h : Keeps t s) : Keeps t (State.evictFor x0 s) := by
  refine h.trans ?_
  clear h
  unfold State.evictFor
  repeat' first
    | with_reducible exact Keeps.refl _
    | with_reducible assumption
    | with_reducible refine Keeps.of_fst ?_ (by assumption)
    | with_reducible refine Keeps.ite_fst ?_ ?_
    | simp only [Keeps.put]
    | with_reducible refine State.evictOne_keeps ?_
    | with_reducible refine Keeps.forEach (fun x st => ?_) ?_
    | with_reducible refine Keeps.foldl_fst (fun acc x => ?_) ?_
    | with_reducible refine Keeps.foldl (fun st x => ?_) ?_
    | split

theorem State.nextAlive_keeps {t s : State} {x0 x1} (h : Keeps t s) : Keeps t (State.nextAlive x0 x1 s).1 := by
  refine h.trans ?_
  clear h
  unfold State.nextAlive
  repeat' first
    | with_reducible exact Keeps.refl _
    | with_reducible assumption
    | with_reducible refine Keeps.of_fst ?_ (by assumption)
    | with_reducible refine Keeps.ite_fst ?_ ?_
    | simp only [Keeps.put]
    | with_reducible refine State.touchCtx_keeps ?_
    | with_reducible refine State.evictFor_keeps ?_
    | with_reducible refine Keeps.forEach (fun x st => ?_) ?_
    | with_reducible refine Keeps.foldl_fst (fun acc x => ?_) ?_
    | with_reducible refine Keeps.foldl (fun st x => ?_) ?_
    | split

theorem State.stamp_keeps {t s : State} {x0} (h : Keeps t s) : Keeps t (State.stamp x0 s).1 := by
  refine h.trans ?_
  clear h
  unfold State.stamp
  repeat' first
    | with_reducible exact Keeps.refl _
    | with_reducible assumption
    | with_reducible refine Keeps.of_fst ?_ (by assumption)
    | with_reducible refine Keeps.ite_fst ?_ ?_
    | simp only [Keeps.put]
    | with_reducible refine State.nextAlive_keeps ?_
    | with_reducible refine State.spendFree_keeps ?_
    | with_reducible refine Keeps.forEach (fun x st => ?_) ?_
    | with_reducible refine Keeps.foldl_fst (fun acc x => ?_) ?_
    | with_reducible refine Keeps.foldl (fun st x => ?_) ?_
    | split

theorem State.startEntry_keeps {t s : State} {x0} (h : Keeps t s) : Keeps t (State.startEntry x0 s) := by
  refine h.trans ?_
  clear h
  unfold State.startEntry
  repeat' first
    | with_reducible exact Keeps.refl _
    | with_reducible assumption
    | with_reducible refine Keeps.of_fst ?_ (by assumption)
    | with_reducible refine Keeps.ite_fst ?_ ?_
    | simp only [Keeps.put]
    | with_reducible refine State.emit_keeps ?_
    | with_reducible refine Keeps.forEach (fun x st => ?_) ?_
    | with_reducible refine Keeps.foldl_fst (fun acc x => ?_) ?_
    | with_reducible refine Keeps.foldl (fun st x => ?_) ?_
    | split

theorem State.startMsg_keeps {t s : State} {x0} (h : Keeps t s) : Keeps t (State.startMsg x0 s).1 := by
  refine h.trans ?_
  clear h
  unfold State.startMsg
  repeat' first
    | with_reducible exact Keeps.refl _
    | with_reducible assumption
    | with_reducible refine Keeps.of_fst ?_ (by assumption)
    | with_reducible refine Keeps.ite_fst ?_ ?_
    | simp only [Keeps.put]
    | with_reducible refine State.stamp_keeps ?_
    | with_reducible refine State.startEntry_keeps ?_
    | with_reducible refine Keeps.forEach (fun x st => ?_) ?_
    | with_reducible refine Keeps.foldl_fst (fun acc x => ?_) ?_
    | with_reducible refine Keeps.foldl (fun st x => ?_) ?_
    | split

theorem State.sendUnits_keeps {t s : State} {x0 x1} (h : Keeps t s) : Keeps t (State.sendUnits x0 x1 s) := by
  refine h.trans ?_
  clear h
  unfold State.sendUnits
  repeat' first
    | with_reducible exact Keeps.refl _
    | with_reducible assumption
    | with_reducible refine Keeps.of_fst ?_ (by assumption)
    | with_reducible refine Keeps.ite_fst ?_ ?_
    | simp only [Keeps.put]
    | with_reducible refine State.emit_keeps ?_
    | with_reducible refine Keeps.forEach (fun x st => ?_) ?_
    | with_reducible refine Keeps.foldl_fst (fun acc x => ?_) ?_
    | with_reducible refine Keeps.foldl (fun st x => ?_) ?_
    | split

theorem State.pumpClass_keeps {t s : State} {x0 x1 x2} (h : Keeps t s) : Keeps t (State.pumpClass x0 x1 x2 s) := by
  refine h.trans ?_
  clear h
  induction x0 generalizing s
  · unfold State.pumpClass
    exact Keeps.refl _
  · rename_i k ih
    have ih' : ∀ {t s : State}, Keeps t s → Keeps t (State.pumpClass k x1 x2 s) := fun h => h.trans (by apply ih)
    clear ih
    unfold State.pumpClass
    repeat' first
      | with_reducible exact Keeps.refl _
      | with_reducible assumption
      | with_reducible refine Keeps.of_fst ?_ (by assumption)
      | with_reducible refine Keeps.ite_fst ?_ ?_
      | simp only [Keeps.put]
      | with_reducible refine State.spend_keeps ?_
      | with_reducible refine State.startMsg_keeps ?_
      | with_reducible refine State.sendUnits_keeps ?_
      | with_reducible refine State.endEntry_keeps ?_
      | with_reducible refine ih' ?_
      | with_reducible refine Keeps.forEach (fun x st => ?_) ?_
      | with_reducible refine Keeps.foldl_fst (fun acc x => ?_) ?_
      | with_reducible refine Keeps.foldl (fun st x => ?_) ?_
      | split

theorem State.pump_keeps {t s : State} (h : Keeps t s) : Keeps t (State.pump s) := by
  refine h.trans ?_
  clear h
  unfold State.pump
  repeat' first
    | with_reducible exact Keeps.refl _
    | with_reducible assumption
    | with_reducible refine Keeps.of_fst ?_ (by assumption)
    | with_reducible refine Keeps.ite_fst ?_ ?_
    | simp only [Keeps.put]
    | with_reducible refine State.pumpClass_keeps ?_
    | with_reducible refine Keeps.forEach (fun x st => ?_) ?_
    | with_reducible refine Keeps.foldl_fst (fun acc x => ?_) ?_
    | with_reducible refine Keeps.foldl (fun st x => ?_) ?_
    | split

theorem State.markSent_keeps {t s : State} {x0} (h : Keeps t s) : Keeps t (State.markSent x0 s) := by
  refine h.trans ?_
  clear h
  unfold State.markSent
  repeat' first
    | with_reducible exact Keeps.refl _
    | with_reducible assumption
    | with_reducible refine Keeps.of_fst ?_ (by assumption)
    | with_reducible refine Keeps.ite_fst ?_ ?_
    | simp only [Keeps.put]
    | with_reducible refine Keeps.forEach (fun x st => ?_) ?_
    | with_reducible refine Keeps.foldl_fst (fun acc x => ?_) ?_
    | with_reducible refine Keeps.foldl (fun st x => ?_) ?_
    | split

theorem State.post_keeps {t s : State} {x0 x1 x2 x3 x4 x5 x6 x7} (h : Keeps t s) : Keeps t (State.post x0 x1 x2 x3 x4 x5 x6 x7 s) := by
  refine h.trans ?_
  clear h
  unfold State.post
  repeat' first
    | with_reducible exact Keeps.refl _
    | with_reducible assumption
    | with_reducible refine Keeps.of_fst ?_ (by assumption)
    | with_reducible refine Keeps.ite_fst ?_ ?_
    | simp only [Keeps.put]
    | with_reducible refine State.bump_keeps ?_
    | with_reducible refine State.pump_keeps ?_
    | with_reducible refine State.markSent_keeps ?_
    | with_reducible refine Keeps.forEach (fun x st => ?_) ?_
    | with_reducible refine Keeps.foldl_fst (fun acc x => ?_) ?_
    | with_reducible refine Keeps.foldl (fun st x => ?_) ?_
    | split

theorem State.sendIn_keeps {t s : State} {x0 x1} (h : Keeps t s) : Keeps t (State.sendIn x0 x1 s) := by
  refine h.trans ?_
  clear h
  unfold State.sendIn
  repeat' first
    | with_reducible exact Keeps.refl _
    | with_reducible assumption
    | with_reducible refine Keeps.of_fst ?_ (by assumption)
    | with_reducible refine Keeps.ite_fst ?_ ?_
    | simp only [Keeps.put]
    | with_reducible refine State.post_keeps ?_
    | with_reducible refine Keeps.forEach (fun x st => ?_) ?_
    | with_reducible refine Keeps.foldl_fst (fun acc x => ?_) ?_
    | with_reducible refine Keeps.foldl (fun st x => ?_) ?_
    | split

theorem State.enqueue_keeps {t s : State} {x0} (h : Keeps t s) : Keeps t (State.enqueue x0 s) := by
  refine h.trans ?_
  clear h
  unfold State.enqueue
  repeat' first
    | with_reducible exact Keeps.refl _
    | with_reducible assumption
    | with_reducible refine Keeps.of_fst ?_ (by assumption)
    | with_reducible refine Keeps.ite_fst ?_ ?_
    | simp only [Keeps.put]
    | with_reducible refine State.sendIn_keeps ?_
    | with_reducible refine Keeps.forEach (fun x st => ?_) ?_
    | with_reducible refine Keeps.foldl_fst (fun acc x => ?_) ?_
    | with_reducible refine Keeps.foldl (fun st x => ?_) ?_
    | split

theorem State.evictOver_keeps {t s : State} (h : Keeps t s) : Keeps t (State.evictOver s) := by
  refine h.trans ?_
  clear h
  unfold State.evictOver
  repeat' first
    | with_reducible exact Keeps.refl _
    | with_reducible assumption
    | with_reducible refine Keeps.of_fst ?_ (by assumption)
    | with_reducible refine Keeps.ite_fst ?_ ?_
    | simp only [Keeps.put]
    | with_reducible refine State.evictOne_keeps ?_
    | with_reducible refine Keeps.forEach (fun x st => ?_) ?_
    | with_reducible refine Keeps.foldl_fst (fun acc x => ?_) ?_
    | with_reducible refine Keeps.foldl (fun st x => ?_) ?_
    | split

theorem State.freeReq_keeps {t s : State} {x0 x1} (h : Keeps t s) : Keeps t (State.freeReq x0 x1 s) := by
  refine h.trans ?_
  clear h
  unfold State.freeReq
  repeat' first
    | with_reducible exact Keeps.refl _
    | with_reducible assumption
    | with_reducible refine Keeps.of_fst ?_ (by assumption)
    | with_reducible refine Keeps.ite_fst ?_ ?_
    | simp only [Keeps.put]
    | with_reducible refine State.enqueue_keeps ?_
    | with_reducible refine Keeps.forEach (fun x st => ?_) ?_
    | with_reducible refine Keeps.foldl_fst (fun acc x => ?_) ?_
    | with_reducible refine Keeps.foldl (fun st x => ?_) ?_
    | split

theorem State.freeSets_keeps {t s : State} {x0} (h : Keeps t s) : Keeps t (State.freeSets x0 s) := by
  refine h.trans ?_
  clear h
  unfold State.freeSets
  repeat' first
    | with_reducible exact Keeps.refl _
    | with_reducible assumption
    | with_reducible refine Keeps.of_fst ?_ (by assumption)
    | with_reducible refine Keeps.ite_fst ?_ ?_
    | simp only [Keeps.put]
    | with_reducible refine Keeps.forEach (fun x st => ?_) ?_
    | with_reducible refine Keeps.foldl_fst (fun acc x => ?_) ?_
    | with_reducible refine Keeps.foldl (fun st x => ?_) ?_
    | split

theorem State.noteTrailer_keeps {t s : State} (h : Keeps t s) : Keeps t (State.noteTrailer s) := by
  refine h.trans ?_
  clear h
  unfold State.noteTrailer
  repeat' first
    | with_reducible exact Keeps.refl _
    | with_reducible assumption
    | with_reducible refine Keeps.of_fst ?_ (by assumption)
    | with_reducible refine Keeps.ite_fst ?_ ?_
    | simp only [Keeps.put]
    | with_reducible refine Keeps.forEach (fun x st => ?_) ?_
    | with_reducible refine Keeps.foldl_fst (fun acc x => ?_) ?_
    | with_reducible refine Keeps.foldl (fun st x => ?_) ?_
    | split

theorem State.putRecv_keeps {t s : State} {x0} (h : Keeps t s) : Keeps t (State.putRecv x0 s) := by
  refine h.trans ?_
  clear h
  unfold State.putRecv
  repeat' first
    | with_reducible exact Keeps.refl _
    | with_reducible assumption
    | with_reducible refine Keeps.of_fst ?_ (by assumption)
    | with_reducible refine Keeps.ite_fst ?_ ?_
    | simp only [Keeps.put]
    | with_reducible refine Keeps.forEach (fun x st => ?_) ?_
    | with_reducible refine Keeps.foldl_fst (fun acc x => ?_) ?_
    | with_reducible refine Keeps.foldl (fun st x => ?_) ?_
    | split

theorem State.takeIn_keeps {t s : State} {x0 x1} (h : Keeps t s) : Keeps t (State.takeIn x0 x1 s) := by
  refine h.trans ?_
  clear h
  unfold State.takeIn
  repeat' first
    | with_reducible exact Keeps.refl _
    | with_reducible assumption
    | with_reducible refine Keeps.of_fst ?_ (by assumption)
    | with_reducible refine Keeps.ite_fst ?_ ?_
    | simp only [Keeps.put]
    | with_reducible refine State.evictFor_keeps ?_
    | with_reducible refine State.touchCtx_keeps ?_
    | with_reducible refine State.putRecv_keeps ?_
    | with_reducible refine State.bump_keeps ?_
    | with_reducible refine Keeps.forEach (fun x st => ?_) ?_
    | with_reducible refine Keeps.foldl_fst (fun acc x => ?_) ?_
    | with_reducible refine Keeps.foldl (fun st x => ?_) ?_
    | split

theorem State.receive_keeps {t s : State} {x0 x1 x2} (h : Keeps t s) : Keeps t (State.receive x0 x1 x2 s).1 := by
  refine h.trans ?_
  clear h
  unfold State.receive
  repeat' first
    | with_reducible exact Keeps.refl _
    | with_reducible assumption
    | with_reducible refine Keeps.of_fst ?_ (by assumption)
    | with_reducible refine Keeps.ite_fst ?_ ?_
    | simp only [Keeps.put]
    | with_reducible refine State.arrive_keeps ?_
    | with_reducible refine State.takeIn_keeps ?_
    | with_reducible refine State.discard_keeps ?_
    | with_reducible refine State.noteTrailer_keeps ?_
    | with_reducible refine State.authFailure_keeps ?_
    | with_reducible refine Keeps.forEach (fun x st => ?_) ?_
    | with_reducible refine Keeps.foldl_fst (fun acc x => ?_) ?_
    | with_reducible refine Keeps.foldl (fun st x => ?_) ?_
    | split

theorem State.reply_keeps {t s : State} {x0 x1 x2} (h : Keeps t s) : Keeps t (State.reply x0 x1 x2 s) := by
  refine h.trans ?_
  clear h
  unfold State.reply
  repeat' first
    | with_reducible exact Keeps.refl _
    | with_reducible assumption
    | with_reducible refine Keeps.of_fst ?_ (by assumption)
    | with_reducible refine Keeps.ite_fst ?_ ?_
    | simp only [Keeps.put]
    | with_reducible refine State.post_keeps ?_
    | with_reducible refine Keeps.forEach (fun x st => ?_) ?_
    | with_reducible refine Keeps.foldl_fst (fun acc x => ?_) ?_
    | with_reducible refine Keeps.foldl (fun st x => ?_) ?_
    | split

theorem State.request_keeps {t s : State} {x0 x1 x2 x3 x4 x5} (h : Keeps t s) : Keeps t (State.request x0 x1 x2 x3 x4 x5 s) := by
  refine h.trans ?_
  clear h
  unfold State.request
  repeat' first
    | with_reducible exact Keeps.refl _
    | with_reducible assumption
    | with_reducible refine Keeps.of_fst ?_ (by assumption)
    | with_reducible refine Keeps.ite_fst ?_ ?_
    | simp only [Keeps.put]
    | with_reducible refine State.enqueue_keeps ?_
    | with_reducible refine Keeps.forEach (fun x st => ?_) ?_
    | with_reducible refine Keeps.foldl_fst (fun acc x => ?_) ?_
    | with_reducible refine Keeps.foldl (fun st x => ?_) ?_
    | split

theorem State.requestAlt_keeps {t s : State} {x0 x1 x2 x3 x4} (h : Keeps t s) : Keeps t (State.requestAlt x0 x1 x2 x3 x4 s) := by
  refine h.trans ?_
  clear h
  unfold State.requestAlt
  repeat' first
    | with_reducible exact Keeps.refl _
    | with_reducible assumption
    | with_reducible refine Keeps.of_fst ?_ (by assumption)
    | with_reducible refine Keeps.ite_fst ?_ ?_
    | simp only [Keeps.put]
    | with_reducible refine State.enqueue_keeps ?_
    | with_reducible refine Keeps.forEach (fun x st => ?_) ?_
    | with_reducible refine Keeps.foldl_fst (fun acc x => ?_) ?_
    | with_reducible refine Keeps.foldl (fun st x => ?_) ?_
    | split

theorem State.sendMgmt_keeps {t s : State} {x0 x1 x2} (h : Keeps t s) : Keeps t (State.sendMgmt x0 x1 x2 s) := by
  refine h.trans ?_
  clear h
  unfold State.sendMgmt
  repeat' first
    | with_reducible exact Keeps.refl _
    | with_reducible assumption
    | with_reducible refine Keeps.of_fst ?_ (by assumption)
    | with_reducible refine Keeps.ite_fst ?_ ?_
    | simp only [Keeps.put]
    | with_reducible refine State.post_keeps ?_
    | with_reducible refine Keeps.forEach (fun x st => ?_) ?_
    | with_reducible refine Keeps.foldl_fst (fun acc x => ?_) ?_
    | with_reducible refine Keeps.foldl (fun st x => ?_) ?_
    | split

end Sys2Proof.Machine
end

