-- ==== Sys2Proof/Laws/KeepsJournal.lean ====
section
/-! SUPPORT. What the operations of Machine/Journal.lean keep (Keeps.lean). -/

set_option linter.unusedSimpArgs false

namespace Sys2Proof.Machine

theorem State.setJournal_keeps {t s : State} {x0} (h : Keeps t s) : Keeps t (State.setJournal x0 s) := by
  refine h.trans ?_
  clear h
  unfold State.setJournal
  repeat' first
    | with_reducible exact Keeps.refl _
    | with_reducible assumption
    | with_reducible refine Keeps.of_fst ?_ (by assumption)
    | with_reducible refine Keeps.ite_fst ?_ ?_
    | simp only [Keeps.put]
    | with_reducible refine Keeps.forEach (fun x st => ?_) ?_
    | with_reducible refine Keeps.foldl_fst (fun acc x => ?_) ?_
    | with_reducible refine Keeps.foldl (fun st x => ?_) ?_
    | split

theorem State.npIssue_keeps {t s : State} {x0} (h : Keeps t s) : Keeps t (State.npIssue x0 s) := by
  refine h.trans ?_
  clear h
  unfold State.npIssue
  repeat' first
    | with_reducible exact Keeps.refl _
    | with_reducible assumption
    | with_reducible refine Keeps.of_fst ?_ (by assumption)
    | with_reducible refine Keeps.ite_fst ?_ ?_
    | simp only [Keeps.put]
    | with_reducible refine State.emit_keeps ?_
    | with_reducible refine Keeps.forEach (fun x st => ?_) ?_
    | with_reducible refine Keeps.foldl_fst (fun acc x => ?_) ?_
    | with_reducible refine Keeps.foldl (fun st x => ?_) ?_
    | split

theorem State.npPump_keeps {t s : State} {x0} (h : Keeps t s) : Keeps t (State.npPump x0 s) := by
  refine h.trans ?_
  clear h
  induction x0 generalizing s
  · unfold State.npPump
    exact Keeps.refl _
  · rename_i k ih
    have ih' : ∀ {t s : State}, Keeps t s → Keeps t (State.npPump k s) := fun h => h.trans (by apply ih)
    clear ih
    unfold State.npPump
    repeat' first
      | with_reducible exact Keeps.refl _
      | with_reducible assumption
      | with_reducible refine Keeps.of_fst ?_ (by assumption)
      | with_reducible refine Keeps.ite_fst ?_ ?_
      | simp only [Keeps.put]
      | with_reducible refine State.npIssue_keeps ?_
      | with_reducible refine State.setJournal_keeps ?_
      | with_reducible refine ih' ?_
      | with_reducible refine Keeps.forEach (fun x st => ?_) ?_
      | with_reducible refine Keeps.foldl_fst (fun acc x => ?_) ?_
      | with_reducible refine Keeps.foldl (fun st x => ?_) ?_
      | split

theorem State.npPush_keeps {t s : State} {x0} (h : Keeps t s) : Keeps t (State.npPush x0 s) := by
  refine h.trans ?_
  clear h
  unfold State.npPush
  repeat' first
    | with_reducible exact Keeps.refl _
    | with_reducible assumption
    | with_reducible refine Keeps.of_fst ?_ (by assumption)
    | with_reducible refine Keeps.ite_fst ?_ ?_
    | simp only [Keeps.put]
    | with_reducible refine State.npPump_keeps ?_
    | with_reducible refine State.setJournal_keeps ?_
    | with_reducible refine Keeps.forEach (fun x st => ?_) ?_
    | with_reducible refine Keeps.foldl_fst (fun acc x => ?_) ?_
    | with_reducible refine Keeps.foldl (fun st x => ?_) ?_
    | split

theorem State.appendHere_keeps {t s : State} {x0 x1 x2} (h : Keeps t s) : Keeps t (State.appendHere x0 x1 x2 s) := by
  refine h.trans ?_
  clear h
  unfold State.appendHere
  repeat' first
    | with_reducible exact Keeps.refl _
    | with_reducible assumption
    | with_reducible refine Keeps.of_fst ?_ (by assumption)
    | with_reducible refine Keeps.ite_fst ?_ ?_
    | simp only [Keeps.put]
    | with_reducible refine State.setJournal_keeps ?_
    | with_reducible refine State.npPush_keeps ?_
    | with_reducible refine Keeps.forEach (fun x st => ?_) ?_
    | with_reducible refine Keeps.foldl_fst (fun acc x => ?_) ?_
    | with_reducible refine Keeps.foldl (fun st x => ?_) ?_
    | split

theorem State.append_keeps {t s : State} {x0 x1 x2} (h : Keeps t s) : Keeps t (State.append x0 x1 x2 s) := by
  refine h.trans ?_
  clear h
  unfold State.append
  repeat' first
    | with_reducible exact Keeps.refl _
    | with_reducible assumption
    | with_reducible refine Keeps.of_fst ?_ (by assumption)
    | with_reducible refine Keeps.ite_fst ?_ ?_
    | simp only [Keeps.put]
    | with_reducible refine State.appendHere_keeps ?_
    | with_reducible refine Keeps.forEach (fun x st => ?_) ?_
    | with_reducible refine Keeps.foldl_fst (fun acc x => ?_) ?_
    | with_reducible refine Keeps.foldl (fun st x => ?_) ?_
    | split

theorem State.appendEvents_keeps {t s : State} {x0} (h : Keeps t s) : Keeps t (State.appendEvents x0 s) := by
  refine h.trans ?_
  clear h
  unfold State.appendEvents
  repeat' first
    | with_reducible exact Keeps.refl _
    | with_reducible assumption
    | with_reducible refine Keeps.of_fst ?_ (by assumption)
    | with_reducible refine Keeps.ite_fst ?_ ?_
    | simp only [Keeps.put]
    | with_reducible refine State.append_keeps ?_
    | with_reducible refine Keeps.forEach (fun x st => ?_) ?_
    | with_reducible refine Keeps.foldl_fst (fun acc x => ?_) ?_
    | with_reducible refine Keeps.foldl (fun st x => ?_) ?_
    | split

theorem State.snapshot_keeps {t s : State} (h : Keeps t s) : Keeps t (State.snapshot s) := by
  refine h.trans ?_
  clear h
  unfold State.snapshot
  repeat' first
    | with_reducible exact Keeps.refl _
    | with_reducible assumption
    | with_reducible refine Keeps.of_fst ?_ (by assumption)
    | with_reducible refine Keeps.ite_fst ?_ ?_
    | simp only [Keeps.put]
    | with_reducible refine State.setJournal_keeps ?_
    | with_reducible refine State.append_keeps ?_
    | with_reducible refine State.appendEvents_keeps ?_
    | with_reducible refine Keeps.forEach (fun x st => ?_) ?_
    | with_reducible refine Keeps.foldl_fst (fun acc x => ?_) ?_
    | with_reducible refine Keeps.foldl (fun st x => ?_) ?_
    | split

theorem State.compactIfDue_keeps {t s : State} (h : Keeps t s) : Keeps t (State.compactIfDue s) := by
  refine h.trans ?_
  clear h
  unfold State.compactIfDue
  repeat' first
    | with_reducible exact Keeps.refl _
    | with_reducible assumption
    | with_reducible refine Keeps.of_fst ?_ (by assumption)
    | with_reducible refine Keeps.ite_fst ?_ ?_
    | simp only [Keeps.put]
    | with_reducible refine State.snapshot_keeps ?_
    | with_reducible refine Keeps.forEach (fun x st => ?_) ?_
    | with_reducible refine Keeps.foldl_fst (fun acc x => ?_) ?_
    | with_reducible refine Keeps.foldl (fun st x => ?_) ?_
    | split

theorem State.countPeriod_keeps {t s : State} {x0} (h : Keeps t s) : Keeps t (State.countPeriod x0 s) := by
  refine h.trans ?_
  clear h
  unfold State.countPeriod
  repeat' first
    | with_reducible exact Keeps.refl _
    | with_reducible assumption
    | with_reducible refine Keeps.of_fst ?_ (by assumption)
    | with_reducible refine Keeps.ite_fst ?_ ?_
    | simp only [Keeps.put]
    | with_reducible refine Keeps.forEach (fun x st => ?_) ?_
    | with_reducible refine Keeps.foldl_fst (fun acc x => ?_) ?_
    | with_reducible refine Keeps.foldl (fun st x => ?_) ?_
    | split

theorem State.countBad_keeps {t s : State} {x0} (h : Keeps t s) : Keeps t (State.countBad x0 s) := by
  refine h.trans ?_
  clear h
  unfold State.countBad
  repeat' first
    | with_reducible exact Keeps.refl _
    | with_reducible assumption
    | with_reducible refine Keeps.of_fst ?_ (by assumption)
    | with_reducible refine Keeps.ite_fst ?_ ?_
    | simp only [Keeps.put]
    | with_reducible refine State.countPeriod_keeps ?_
    | with_reducible refine Keeps.forEach (fun x st => ?_) ?_
    | with_reducible refine Keeps.foldl_fst (fun acc x => ?_) ?_
    | with_reducible refine Keeps.foldl (fun st x => ?_) ?_
    | split

theorem State.countCorrected_keeps {t s : State} {x0} (h : Keeps t s) : Keeps t (State.countCorrected x0 s) := by
  refine h.trans ?_
  clear h
  unfold State.countCorrected
  repeat' first
    | with_reducible exact Keeps.refl _
    | with_reducible assumption
    | with_reducible refine Keeps.of_fst ?_ (by assumption)
    | with_reducible refine Keeps.ite_fst ?_ ?_
    | simp only [Keeps.put]
    | with_reducible refine State.countPeriod_keeps ?_
    | with_reducible refine Keeps.forEach (fun x st => ?_) ?_
    | with_reducible refine Keeps.foldl_fst (fun acc x => ?_) ?_
    | with_reducible refine Keeps.foldl (fun st x => ?_) ?_
    | split

theorem State.journalEvents_keeps {t s : State} (h : Keeps t s) : Keeps t (State.journalEvents s) := by
  refine h.trans ?_
  clear h
  unfold State.journalEvents
  repeat' first
    | with_reducible exact Keeps.refl _
    | with_reducible assumption
    | with_reducible refine Keeps.of_fst ?_ (by assumption)
    | with_reducible refine Keeps.ite_fst ?_ ?_
    | simp only [Keeps.put]
    | with_reducible refine State.appendEvents_keeps ?_
    | with_reducible refine Keeps.forEach (fun x st => ?_) ?_
    | with_reducible refine Keeps.foldl_fst (fun acc x => ?_) ?_
    | with_reducible refine Keeps.foldl (fun st x => ?_) ?_
    | split

theorem State.journalIfFull_keeps {t s : State} (h : Keeps t s) : Keeps t (State.journalIfFull s) := by
  refine h.trans ?_
  clear h
  unfold State.journalIfFull
  repeat' first
    | with_reducible exact Keeps.refl _
    | with_reducible assumption
    | with_reducible refine Keeps.of_fst ?_ (by assumption)
    | with_reducible refine Keeps.ite_fst ?_ ?_
    | simp only [Keeps.put]
    | with_reducible refine State.journalEvents_keeps ?_
    | with_reducible refine Keeps.forEach (fun x st => ?_) ?_
    | with_reducible refine Keeps.foldl_fst (fun acc x => ?_) ?_
    | with_reducible refine Keeps.foldl (fun st x => ?_) ?_
    | split

theorem State.journalState_keeps {t s : State} {x0 x1} (h : Keeps t s) : Keeps t (State.journalState x0 x1 s) := by
  refine h.trans ?_
  clear h
  unfold State.journalState
  repeat' first
    | with_reducible exact Keeps.refl _
    | with_reducible assumption
    | with_reducible refine Keeps.of_fst ?_ (by assumption)
    | with_reducible refine Keeps.ite_fst ?_ ?_
    | simp only [Keeps.put]
    | with_reducible refine State.append_keeps ?_
    | with_reducible refine Keeps.forEach (fun x st => ?_) ?_
    | with_reducible refine Keeps.foldl_fst (fun acc x => ?_) ?_
    | with_reducible refine Keeps.foldl (fun st x => ?_) ?_
    | split

theorem State.loseWrites_keeps {t s : State} (h : Keeps t s) : Keeps t (State.loseWrites s) := by
  refine h.trans ?_
  clear h
  unfold State.loseWrites
  repeat' first
    | with_reducible exact Keeps.refl _
    | with_reducible assumption
    | with_reducible refine Keeps.of_fst ?_ (by assumption)
    | with_reducible refine Keeps.ite_fst ?_ ?_
    | simp only [Keeps.put]
    | with_reducible refine State.emit_keeps ?_
    | with_reducible refine State.note_keeps ?_
    | with_reducible refine Keeps.forEach (fun x st => ?_) ?_
    | with_reducible refine Keeps.foldl_fst (fun acc x => ?_) ?_
    | with_reducible refine Keeps.foldl (fun st x => ?_) ?_
    | split

theorem State.npAsk_keeps {t s : State} {x0} (h : Keeps t s) : Keeps t (State.npAsk x0 s) := by
  refine h.trans ?_
  clear h
  unfold State.npAsk
  repeat' first
    | with_reducible exact Keeps.refl _
    | with_reducible assumption
    | with_reducible refine Keeps.of_fst ?_ (by assumption)
    | with_reducible refine Keeps.ite_fst ?_ ?_
    | simp only [Keeps.put]
    | with_reducible refine State.emit_keeps ?_
    | with_reducible refine State.countNote_keeps ?_
    | with_reducible refine Keeps.forEach (fun x st => ?_) ?_
    | with_reducible refine Keeps.foldl_fst (fun acc x => ?_) ?_
    | with_reducible refine Keeps.foldl (fun st x => ?_) ?_
    | split

theorem State.stageSelf_keeps {t s : State} {x0 x1 x2} (h : Keeps t s) : Keeps t (State.stageSelf x0 x1 x2 s) := by
  refine h.trans ?_
  clear h
  unfold State.stageSelf
  repeat' first
    | with_reducible exact Keeps.refl _
    | with_reducible assumption
    | with_reducible refine Keeps.of_fst ?_ (by assumption)
    | with_reducible refine Keeps.ite_fst ?_ ?_
    | simp only [Keeps.put]
    | with_reducible refine State.bump_keeps ?_
    | with_reducible refine Keeps.forEach (fun x st => ?_) ?_
    | with_reducible refine Keeps.foldl_fst (fun acc x => ?_) ?_
    | with_reducible refine Keeps.foldl (fun st x => ?_) ?_
    | split

theorem State.retireLane_keeps {t s : State} {x0 x1} (h : Keeps t s) : Keeps t (State.retireLane x0 x1 s) := by
  refine h.trans ?_
  clear h
  unfold State.retireLane
  repeat' first
    | with_reducible exact Keeps.refl _
    | with_reducible assumption
    | with_reducible refine Keeps.of_fst ?_ (by assumption)
    | with_reducible refine Keeps.ite_fst ?_ ?_
    | simp only [Keeps.put]
    | with_reducible refine State.journalState_keeps ?_
    | with_reducible refine State.stageSelf_keeps ?_
    | with_reducible refine Keeps.forEach (fun x st => ?_) ?_
    | with_reducible refine Keeps.foldl_fst (fun acc x => ?_) ?_
    | with_reducible refine Keeps.foldl (fun st x => ?_) ?_
    | split

theorem State.retireSpindle_keeps {t s : State} {x0} (h : Keeps t s) : Keeps t (State.retireSpindle x0 s) := by
  refine h.trans ?_
  clear h
  unfold State.retireSpindle
  repeat' first
    | with_reducible exact Keeps.refl _
    | with_reducible assumption
    | with_reducible refine Keeps.of_fst ?_ (by assumption)
    | with_reducible refine Keeps.ite_fst ?_ ?_
    | simp only [Keeps.put]
    | with_reducible refine State.journalState_keeps ?_
    | with_reducible refine State.stageSelf_keeps ?_
    | with_reducible refine Keeps.forEach (fun x st => ?_) ?_
    | with_reducible refine Keeps.foldl_fst (fun acc x => ?_) ?_
    | with_reducible refine Keeps.foldl (fun st x => ?_) ?_
    | split

theorem State.takeLines_keeps {t s : State} {x0 x1} (h : Keeps t s) : Keeps t (State.takeLines x0 x1 s) := by
  refine h.trans ?_
  clear h
  unfold State.takeLines
  repeat' first
    | with_reducible exact Keeps.refl _
    | with_reducible assumption
    | with_reducible refine Keeps.of_fst ?_ (by assumption)
    | with_reducible refine Keeps.ite_fst ?_ ?_
    | simp only [Keeps.put]
    | with_reducible refine State.askLine_keeps ?_
    | with_reducible refine State.countBad_keeps ?_
    | with_reducible refine State.bump_keeps ?_
    | with_reducible refine Keeps.forEach (fun x st => ?_) ?_
    | with_reducible refine Keeps.foldl_fst (fun acc x => ?_) ?_
    | with_reducible refine Keeps.foldl (fun st x => ?_) ?_
    | split

theorem State.takeMem_keeps {t s : State} {x0 x1} (h : Keeps t s) : Keeps t (State.takeMem x0 x1 s) := by
  refine h.trans ?_
  clear h
  unfold State.takeMem
  repeat' first
    | with_reducible exact Keeps.refl _
    | with_reducible assumption
    | with_reducible refine Keeps.of_fst ?_ (by assumption)
    | with_reducible refine Keeps.ite_fst ?_ ?_
    | simp only [Keeps.put]
    | with_reducible refine State.askBlocks_keeps ?_
    | with_reducible refine State.countCorrected_keeps ?_
    | with_reducible refine State.bump_keeps ?_
    | with_reducible refine State.countBad_keeps ?_
    | with_reducible refine Keeps.forEach (fun x st => ?_) ?_
    | with_reducible refine Keeps.foldl_fst (fun acc x => ?_) ?_
    | with_reducible refine Keeps.foldl (fun st x => ?_) ?_
    | split

theorem State.unitFault_keeps {t s : State} {x0} (h : Keeps t s) : Keeps t (State.unitFault x0 s) := by
  refine h.trans ?_
  clear h
  unfold State.unitFault
  repeat' first
    | with_reducible exact Keeps.refl _
    | with_reducible assumption
    | with_reducible refine Keeps.of_fst ?_ (by assumption)
    | with_reducible refine Keeps.ite_fst ?_ ?_
    | simp only [Keeps.put]
    | with_reducible refine State.bump_keeps ?_
    | with_reducible refine State.countPeriod_keeps ?_
    | with_reducible refine State.retireLane_keeps ?_
    | with_reducible refine State.retireSpindle_keeps ?_
    | with_reducible refine Keeps.forEach (fun x st => ?_) ?_
    | with_reducible refine Keeps.foldl_fst (fun acc x => ?_) ?_
    | with_reducible refine Keeps.foldl (fun st x => ?_) ?_
    | split

end Sys2Proof.Machine
end

