-- ==== Sys2Proof/Laws/KeepsOperands.lean ====
section
/-! SUPPORT. What the operations of Machine/Operands.lean keep (Keeps.lean). -/

set_option linter.unusedSimpArgs false

namespace Sys2Proof.Machine

theorem State.clearBad_keeps {t s : State} {x0} (h : Keeps t s) : Keeps t (State.clearBad x0 s) := by
  refine h.trans ?_
  clear h
  unfold State.clearBad
  repeat' first
    | with_reducible exact Keeps.refl _
    | with_reducible assumption
    | with_reducible refine Keeps.of_fst ?_ (by assumption)
    | with_reducible refine Keeps.ite_fst ?_ ?_
    | simp only [Keeps.put]
    | with_reducible refine Keeps.forEach (fun x st => ?_) ?_
    | with_reducible refine Keeps.foldl_fst (fun acc x => ?_) ?_
    | with_reducible refine Keeps.foldl (fun st x => ?_) ?_
    | split

theorem State.setLostBytes_keeps {t s : State} {x0 x1 x2} (h : Keeps t s) : Keeps t (State.setLostBytes x0 x1 x2 s) := by
  refine h.trans ?_
  clear h
  unfold State.setLostBytes
  repeat' first
    | with_reducible exact Keeps.refl _
    | with_reducible assumption
    | with_reducible refine Keeps.of_fst ?_ (by assumption)
    | with_reducible refine Keeps.ite_fst ?_ ?_
    | simp only [Keeps.put]
    | with_reducible refine Keeps.forEach (fun x st => ?_) ?_
    | with_reducible refine Keeps.foldl_fst (fun acc x => ?_) ?_
    | with_reducible refine Keeps.foldl (fun st x => ?_) ?_
    | split

theorem State.putHeader_keeps {t s : State} {x0 x1 x2} (h : Keeps t s) : Keeps t (State.putHeader x0 x1 x2 s) := by
  refine h.trans ?_
  clear h
  unfold State.putHeader
  repeat' first
    | with_reducible exact Keeps.refl _
    | with_reducible assumption
    | with_reducible refine Keeps.of_fst ?_ (by assumption)
    | with_reducible refine Keeps.ite_fst ?_ ?_
    | simp only [Keeps.put]
    | with_reducible refine State.setLostBytes_keeps ?_
    | with_reducible refine Keeps.forEach (fun x st => ?_) ?_
    | with_reducible refine Keeps.foldl_fst (fun acc x => ?_) ?_
    | with_reducible refine Keeps.foldl (fun st x => ?_) ?_
    | split

theorem State.spanPut_keeps {t s : State} {x0 x1 x2} (h : Keeps t s) : Keeps t (State.spanPut x0 x1 x2 s) := by
  refine h.trans ?_
  clear h
  induction x1 generalizing s x2
  · unfold State.spanPut
    exact Keeps.refl _
  · rename_i a k ih
    have ih' : ∀ {t s : State} {x2}, Keeps t s → Keeps t (State.spanPut x0 k x2 s) := fun h => h.trans (by apply ih)
    clear ih
    unfold State.spanPut
    repeat' first
      | with_reducible exact Keeps.refl _
      | with_reducible assumption
      | with_reducible refine Keeps.of_fst ?_ (by assumption)
      | with_reducible refine Keeps.ite_fst ?_ ?_
      | simp only [Keeps.put]
      | with_reducible refine State.hearthWrite_keeps ?_
      | with_reducible refine ih' ?_
      | with_reducible refine Keeps.forEach (fun x st => ?_) ?_
      | with_reducible refine Keeps.foldl_fst (fun acc x => ?_) ?_
      | with_reducible refine Keeps.foldl (fun st x => ?_) ?_
      | split

theorem State.spanWrite_keeps {t s : State} {x0 x1 x2} (h : Keeps t s) : Keeps t (State.spanWrite x0 x1 x2 s) := by
  refine h.trans ?_
  clear h
  unfold State.spanWrite
  repeat' first
    | with_reducible exact Keeps.refl _
    | with_reducible assumption
    | with_reducible refine Keeps.of_fst ?_ (by assumption)
    | with_reducible refine Keeps.ite_fst ?_ ?_
    | simp only [Keeps.put]
    | with_reducible refine State.spanPut_keeps ?_
    | with_reducible refine Keeps.forEach (fun x st => ?_) ?_
    | with_reducible refine Keeps.foldl_fst (fun acc x => ?_) ?_
    | with_reducible refine Keeps.foldl (fun st x => ?_) ?_
    | split

end Sys2Proof.Machine
end

