-- ==== Sys2Proof/Laws/KeepsLanding.lean ====
section
/-! SUPPORT. What the operations of Machine/Landing.lean keep (Keeps.lean). -/

set_option linter.unusedSimpArgs false

namespace Sys2Proof.Machine

theorem State.announce_keeps {t s : State} {x0} (h : Keeps t s) : Keeps t (State.announce x0 s) := by
  refine h.trans ?_
  clear h
  unfold State.announce
  repeat' first
    | with_reducible exact Keeps.refl _
    | with_reducible assumption
    | with_reducible refine Keeps.of_fst ?_ (by assumption)
    | with_reducible refine Keeps.ite_fst ?_ ?_
    | simp only [Keeps.put]
    | with_reducible refine State.changed_keeps ?_
    | with_reducible refine State.bump_keeps ?_
    | with_reducible refine Keeps.forEach (fun x st => ?_) ?_
    | with_reducible refine Keeps.foldl_fst (fun acc x => ?_) ?_
    | with_reducible refine Keeps.foldl (fun st x => ?_) ?_
    | split

theorem State.askSpan_keeps {t s : State} {x0 x1 x2} (h : Keeps t s) : Keeps t (State.askSpan x0 x1 x2 s) := by
  refine h.trans ?_
  clear h
  unfold State.askSpan
  repeat' first
    | with_reducible exact Keeps.refl _
    | with_reducible assumption
    | with_reducible refine Keeps.of_fst ?_ (by assumption)
    | with_reducible refine Keeps.ite_fst ?_ ?_
    | simp only [Keeps.put]
    | with_reducible refine State.takeMem_keeps ?_
    | with_reducible refine Keeps.forEach (fun x st => ?_) ?_
    | with_reducible refine Keeps.foldl_fst (fun acc x => ?_) ?_
    | with_reducible refine Keeps.foldl (fun st x => ?_) ?_
    | split

theorem State.askSlots_keeps {t s : State} {x0} (h : Keeps t s) : Keeps t (State.askSlots x0 s) := by
  refine h.trans ?_
  clear h
  unfold State.askSlots
  repeat' first
    | with_reducible exact Keeps.refl _
    | with_reducible assumption
    | with_reducible refine Keeps.of_fst ?_ (by assumption)
    | with_reducible refine Keeps.ite_fst ?_ ?_
    | simp only [Keeps.put]
    | with_reducible refine State.askSpan_keeps ?_
    | with_reducible refine Keeps.forEach (fun x st => ?_) ?_
    | with_reducible refine Keeps.foldl_fst (fun acc x => ?_) ?_
    | with_reducible refine Keeps.foldl (fun st x => ?_) ?_
    | split

theorem State.putResult_keeps {t s : State} {x0} (h : Keeps t s) : Keeps t (State.putResult x0 s) := by
  refine h.trans ?_
  clear h
  unfold State.putResult
  repeat' first
    | with_reducible exact Keeps.refl _
    | with_reducible assumption
    | with_reducible refine Keeps.of_fst ?_ (by assumption)
    | with_reducible refine Keeps.ite_fst ?_ ?_
    | simp only [Keeps.put]
    | with_reducible refine Keeps.forEach (fun x st => ?_) ?_
    | with_reducible refine Keeps.foldl_fst (fun acc x => ?_) ?_
    | with_reducible refine Keeps.foldl (fun st x => ?_) ?_
    | split

theorem State.closeLocal_keeps {t s : State} {x0} (h : Keeps t s) : Keeps t (State.closeLocal x0 s) := by
  refine h.trans ?_
  clear h
  unfold State.closeLocal
  repeat' first
    | with_reducible exact Keeps.refl _
    | with_reducible assumption
    | with_reducible refine Keeps.of_fst ?_ (by assumption)
    | with_reducible refine Keeps.ite_fst ?_ ?_
    | simp only [Keeps.put]
    | with_reducible refine State.askSlots_keeps ?_
    | with_reducible refine State.putResult_keeps ?_
    | with_reducible refine State.spanWrite_keeps ?_
    | with_reducible refine State.putHeader_keeps ?_
    | with_reducible refine Keeps.forEach (fun x st => ?_) ?_
    | with_reducible refine Keeps.foldl_fst (fun acc x => ?_) ?_
    | with_reducible refine Keeps.foldl (fun st x => ?_) ?_
    | split

theorem State.closeRemote_keeps {t s : State} {x0 x1 x2} (h : Keeps t s) : Keeps t (State.closeRemote x0 x1 x2 s) := by
  refine h.trans ?_
  clear h
  unfold State.closeRemote
  repeat' first
    | with_reducible exact Keeps.refl _
    | with_reducible assumption
    | with_reducible refine Keeps.of_fst ?_ (by assumption)
    | with_reducible refine Keeps.ite_fst ?_ ?_
    | simp only [Keeps.put]
    | with_reducible refine State.askSlots_keeps ?_
    | with_reducible refine State.spanWrite_keeps ?_
    | with_reducible refine State.putHeader_keeps ?_
    | with_reducible refine State.putResult_keeps ?_
    | with_reducible refine Keeps.forEach (fun x st => ?_) ?_
    | with_reducible refine Keeps.foldl_fst (fun acc x => ?_) ?_
    | with_reducible refine Keeps.foldl (fun st x => ?_) ?_
    | split

theorem State.confirmRemote_keeps {t s : State} {x0} (h : Keeps t s) : Keeps t (State.confirmRemote x0 s) := by
  refine h.trans ?_
  clear h
  unfold State.confirmRemote
  repeat' first
    | with_reducible exact Keeps.refl _
    | with_reducible assumption
    | with_reducible refine Keeps.of_fst ?_ (by assumption)
    | with_reducible refine Keeps.ite_fst ?_ ?_
    | simp only [Keeps.put]
    | with_reducible refine State.putHeader_keeps ?_
    | with_reducible refine Keeps.forEach (fun x st => ?_) ?_
    | with_reducible refine Keeps.foldl_fst (fun acc x => ?_) ?_
    | with_reducible refine Keeps.foldl (fun st x => ?_) ?_
    | split

theorem State.countHeaders_keeps {t s : State} (h : Keeps t s) : Keeps t (State.countHeaders s) := by
  refine h.trans ?_
  clear h
  unfold State.countHeaders
  repeat' first
    | with_reducible exact Keeps.refl _
    | with_reducible assumption
    | with_reducible refine Keeps.of_fst ?_ (by assumption)
    | with_reducible refine Keeps.ite_fst ?_ ?_
    | simp only [Keeps.put]
    | with_reducible refine State.bump_keeps ?_
    | with_reducible refine Keeps.forEach (fun x st => ?_) ?_
    | with_reducible refine Keeps.foldl_fst (fun acc x => ?_) ?_
    | with_reducible refine Keeps.foldl (fun st x => ?_) ?_
    | split

theorem State.earlyTurn_keeps {t s : State} {x0} (h : Keeps t s) : Keeps t (State.earlyTurn x0 s) := by
  refine h.trans ?_
  clear h
  unfold State.earlyTurn
  repeat' first
    | with_reducible exact Keeps.refl _
    | with_reducible assumption
    | with_reducible refine Keeps.of_fst ?_ (by assumption)
    | with_reducible refine Keeps.ite_fst ?_ ?_
    | simp only [Keeps.put]
    | with_reducible refine State.closeRemote_keeps ?_
    | with_reducible refine State.changed_keeps ?_
    | with_reducible refine Keeps.forEach (fun x st => ?_) ?_
    | with_reducible refine Keeps.foldl_fst (fun acc x => ?_) ?_
    | with_reducible refine Keeps.foldl (fun st x => ?_) ?_
    | split

theorem State.resolveExclusion_keeps {t s : State} (h : Keeps t s) : Keeps t (State.resolveExclusion s) := by
  refine h.trans ?_
  clear h
  unfold State.resolveExclusion
  repeat' first
    | with_reducible exact Keeps.refl _
    | with_reducible assumption
    | with_reducible refine Keeps.of_fst ?_ (by assumption)
    | with_reducible refine Keeps.ite_fst ?_ ?_
    | simp only [Keeps.put]
    | with_reducible refine Keeps.forEach (fun x st => ?_) ?_
    | with_reducible refine Keeps.foldl_fst (fun acc x => ?_) ?_
    | with_reducible refine Keeps.foldl (fun st x => ?_) ?_
    | split

theorem State.saturate_keeps {t s : State} {x0} (h : Keeps t s) : Keeps t (State.saturate x0 s) := by
  refine h.trans ?_
  clear h
  unfold State.saturate
  repeat' first
    | with_reducible exact Keeps.refl _
    | with_reducible assumption
    | with_reducible refine Keeps.of_fst ?_ (by assumption)
    | with_reducible refine Keeps.ite_fst ?_ ?_
    | simp only [Keeps.put]
    | with_reducible refine State.bump_keeps ?_
    | with_reducible refine Keeps.forEach (fun x st => ?_) ?_
    | with_reducible refine Keeps.foldl_fst (fun acc x => ?_) ?_
    | with_reducible refine Keeps.foldl (fun st x => ?_) ?_
    | split

theorem State.resolveSite_keeps {t s : State} {x0} (h : Keeps t s) : Keeps t (State.resolveSite x0 s) := by
  refine h.trans ?_
  clear h
  unfold State.resolveSite
  repeat' first
    | with_reducible exact Keeps.refl _
    | with_reducible assumption
    | with_reducible refine Keeps.of_fst ?_ (by assumption)
    | with_reducible refine Keeps.ite_fst ?_ ?_
    | simp only [Keeps.put]
    | with_reducible refine State.saturate_keeps ?_
    | with_reducible refine Keeps.forEach (fun x st => ?_) ?_
    | with_reducible refine Keeps.foldl_fst (fun acc x => ?_) ?_
    | with_reducible refine Keeps.foldl (fun st x => ?_) ?_
    | split

theorem State.sendReAnswer_keeps {t s : State} {x0 x1} (h : Keeps t s) : Keeps t (State.sendReAnswer x0 x1 s) := by
  refine h.trans ?_
  clear h
  unfold State.sendReAnswer
  repeat' first
    | with_reducible exact Keeps.refl _
    | with_reducible assumption
    | with_reducible refine Keeps.of_fst ?_ (by assumption)
    | with_reducible refine Keeps.ite_fst ?_ ?_
    | simp only [Keeps.put]
    | with_reducible refine State.askSpan_keeps ?_
    | with_reducible refine State.reply_keeps ?_
    | with_reducible refine State.bump_keeps ?_
    | with_reducible refine Keeps.forEach (fun x st => ?_) ?_
    | with_reducible refine Keeps.foldl_fst (fun acc x => ?_) ?_
    | with_reducible refine Keeps.foldl (fun st x => ?_) ?_
    | split

theorem State.serveReqs_keeps {t s : State} (h : Keeps t s) : Keeps t (State.serveReqs s) := by
  refine h.trans ?_
  clear h
  unfold State.serveReqs
  repeat' first
    | with_reducible exact Keeps.refl _
    | with_reducible assumption
    | with_reducible refine Keeps.of_fst ?_ (by assumption)
    | with_reducible refine Keeps.ite_fst ?_ ?_
    | simp only [Keeps.put]
    | with_reducible refine State.sendReAnswer_keeps ?_
    | with_reducible refine Keeps.forEach (fun x st => ?_) ?_
    | with_reducible refine Keeps.foldl_fst (fun acc x => ?_) ?_
    | with_reducible refine Keeps.foldl (fun st x => ?_) ?_
    | split

theorem State.settle_keeps {t s : State} {x0} (h : Keeps t s) : Keeps t (State.settle x0 s) := by
  refine h.trans ?_
  clear h
  unfold State.settle
  repeat' first
    | with_reducible exact Keeps.refl _
    | with_reducible assumption
    | with_reducible refine Keeps.of_fst ?_ (by assumption)
    | with_reducible refine Keeps.ite_fst ?_ ?_
    | simp only [Keeps.put]
    | with_reducible refine State.bump_keeps ?_
    | with_reducible refine State.note_keeps ?_
    | with_reducible refine State.countNote_keeps ?_
    | with_reducible refine Keeps.forEach (fun x st => ?_) ?_
    | with_reducible refine Keeps.foldl_fst (fun acc x => ?_) ?_
    | with_reducible refine Keeps.foldl (fun st x => ?_) ?_
    | split

theorem State.reviseSite_keeps {t s : State} {x0} (h : Keeps t s) : Keeps t (State.reviseSite x0 s) := by
  refine h.trans ?_
  clear h
  unfold State.reviseSite
  repeat' first
    | with_reducible exact Keeps.refl _
    | with_reducible assumption
    | with_reducible refine Keeps.of_fst ?_ (by assumption)
    | with_reducible refine Keeps.ite_fst ?_ ?_
    | simp only [Keeps.put]
    | with_reducible refine State.settle_keeps ?_
    | with_reducible refine State.announce_keeps ?_
    | with_reducible refine State.confirmRemote_keeps ?_
    | with_reducible refine State.closeRemote_keeps ?_
    | with_reducible refine Keeps.forEach (fun x st => ?_) ?_
    | with_reducible refine Keeps.foldl_fst (fun acc x => ?_) ?_
    | with_reducible refine Keeps.foldl (fun st x => ?_) ?_
    | split

theorem State.landingPass_keeps {t s : State} (h : Keeps t s) : Keeps t (State.landingPass s) := by
  refine h.trans ?_
  clear h
  unfold State.landingPass
  repeat' first
    | with_reducible exact Keeps.refl _
    | with_reducible assumption
    | with_reducible refine Keeps.of_fst ?_ (by assumption)
    | with_reducible refine Keeps.ite_fst ?_ ?_
    | simp only [Keeps.put]
    | with_reducible refine State.resolveExclusion_keeps ?_
    | with_reducible refine State.resolveSite_keeps ?_
    | with_reducible refine State.serveReqs_keeps ?_
    | with_reducible refine State.reviseSite_keeps ?_
    | with_reducible refine Keeps.forEach (fun x st => ?_) ?_
    | with_reducible refine Keeps.foldl_fst (fun acc x => ?_) ?_
    | with_reducible refine Keeps.foldl (fun st x => ?_) ?_
    | split

theorem State.holdNotice_keeps {t s : State} {x0} (h : Keeps t s) : Keeps t (State.holdNotice x0 s) := by
  refine h.trans ?_
  clear h
  unfold State.holdNotice
  repeat' first
    | with_reducible exact Keeps.refl _
    | with_reducible assumption
    | with_reducible refine Keeps.of_fst ?_ (by assumption)
    | with_reducible refine Keeps.ite_fst ?_ ?_
    | simp only [Keeps.put]
    | with_reducible refine State.landingPass_keeps ?_
    | with_reducible refine Keeps.forEach (fun x st => ?_) ?_
    | with_reducible refine Keeps.foldl_fst (fun acc x => ?_) ?_
    | with_reducible refine Keeps.foldl (fun st x => ?_) ?_
    | split

theorem State.landingThreshold_keeps {t s : State} (h : Keeps t s) : Keeps t (State.landingThreshold s) := by
  refine h.trans ?_
  clear h
  unfold State.landingThreshold
  repeat' first
    | with_reducible exact Keeps.refl _
    | with_reducible assumption
    | with_reducible refine Keeps.of_fst ?_ (by assumption)
    | with_reducible refine Keeps.ite_fst ?_ ?_
    | simp only [Keeps.put]
    | with_reducible refine State.sendReAnswer_keeps ?_
    | with_reducible refine State.dropReqs_keeps ?_
    | with_reducible refine Keeps.forEach (fun x st => ?_) ?_
    | with_reducible refine Keeps.foldl_fst (fun acc x => ?_) ?_
    | with_reducible refine Keeps.foldl (fun st x => ?_) ?_
    | split

theorem State.onMirrorAck_keeps {t s : State} {x0} (h : Keeps t s) : Keeps t (State.onMirrorAck x0 s) := by
  refine h.trans ?_
  clear h
  unfold State.onMirrorAck
  repeat' first
    | with_reducible exact Keeps.refl _
    | with_reducible assumption
    | with_reducible refine Keeps.of_fst ?_ (by assumption)
    | with_reducible refine Keeps.ite_fst ?_ ?_
    | simp only [Keeps.put]
    | with_reducible refine State.freeReq_keeps ?_
    | with_reducible refine Keeps.forEach (fun x st => ?_) ?_
    | with_reducible refine Keeps.foldl_fst (fun acc x => ?_) ?_
    | with_reducible refine Keeps.foldl (fun st x => ?_) ?_
    | split

theorem State.onMirrorPiece_keeps {t s : State} {x0} (h : Keeps t s) : Keeps t (State.onMirrorPiece x0 s) := by
  refine h.trans ?_
  clear h
  unfold State.onMirrorPiece
  repeat' first
    | with_reducible exact Keeps.refl _
    | with_reducible assumption
    | with_reducible refine Keeps.of_fst ?_ (by assumption)
    | with_reducible refine Keeps.ite_fst ?_ ?_
    | simp only [Keeps.put]
    | with_reducible refine State.spanWrite_keeps ?_
    | with_reducible refine State.reply_keeps ?_
    | with_reducible refine State.bump_keeps ?_
    | with_reducible refine Keeps.forEach (fun x st => ?_) ?_
    | with_reducible refine Keeps.foldl_fst (fun acc x => ?_) ?_
    | with_reducible refine Keeps.foldl (fun st x => ?_) ?_
    | split

theorem State.sendPiece_keeps {t s : State} {x0 x1 x2} (h : Keeps t s) : Keeps t (State.sendPiece x0 x1 x2 s) := by
  refine h.trans ?_
  clear h
  unfold State.sendPiece
  repeat' first
    | with_reducible exact Keeps.refl _
    | with_reducible assumption
    | with_reducible refine Keeps.of_fst ?_ (by assumption)
    | with_reducible refine Keeps.ite_fst ?_ ?_
    | simp only [Keeps.put]
    | with_reducible refine State.askSpan_keeps ?_
    | with_reducible refine State.requestAlt_keeps ?_
    | with_reducible refine State.bump_keeps ?_
    | with_reducible refine Keeps.forEach (fun x st => ?_) ?_
    | with_reducible refine Keeps.foldl_fst (fun acc x => ?_) ?_
    | with_reducible refine Keeps.foldl (fun st x => ?_) ?_
    | split

theorem State.sendMirror_keeps {t s : State} (h : Keeps t s) : Keeps t (State.sendMirror s) := by
  refine h.trans ?_
  clear h
  unfold State.sendMirror
  repeat' first
    | with_reducible exact Keeps.refl _
    | with_reducible assumption
    | with_reducible refine Keeps.of_fst ?_ (by assumption)
    | with_reducible refine Keeps.ite_fst ?_ ?_
    | simp only [Keeps.put]
    | with_reducible refine State.sendPiece_keeps ?_
    | with_reducible refine Keeps.forEach (fun x st => ?_) ?_
    | with_reducible refine Keeps.foldl_fst (fun acc x => ?_) ?_
    | with_reducible refine Keeps.foldl (fun st x => ?_) ?_
    | split

theorem State.rollcallAt_keeps {t s : State} {x0} (h : Keeps t s) : Keeps t (State.rollcallAt x0 s) := by
  refine h.trans ?_
  clear h
  unfold State.rollcallAt
  repeat' first
    | with_reducible exact Keeps.refl _
    | with_reducible assumption
    | with_reducible refine Keeps.of_fst ?_ (by assumption)
    | with_reducible refine Keeps.ite_fst ?_ ?_
    | simp only [Keeps.put]
    | with_reducible refine State.resolveExclusion_keeps ?_
    | with_reducible refine State.countNote_keeps ?_
    | with_reducible refine State.landingPass_keeps ?_
    | with_reducible refine State.sendMirror_keeps ?_
    | with_reducible refine Keeps.forEach (fun x st => ?_) ?_
    | with_reducible refine Keeps.foldl_fst (fun acc x => ?_) ?_
    | with_reducible refine Keeps.foldl (fun st x => ?_) ?_
    | split

theorem State.siteTurn_keeps {t s : State} {x0} (h : Keeps t s) : Keeps t (State.siteTurn x0 s) := by
  refine h.trans ?_
  clear h
  unfold State.siteTurn
  repeat' first
    | with_reducible exact Keeps.refl _
    | with_reducible assumption
    | with_reducible refine Keeps.of_fst ?_ (by assumption)
    | with_reducible refine Keeps.ite_fst ?_ ?_
    | simp only [Keeps.put]
    | with_reducible refine State.reviseSite_keeps ?_
    | with_reducible refine State.settle_keeps ?_
    | with_reducible refine State.closeLocal_keeps ?_
    | with_reducible refine State.resolveSite_keeps ?_
    | with_reducible refine Keeps.forEach (fun x st => ?_) ?_
    | with_reducible refine Keeps.foldl_fst (fun acc x => ?_) ?_
    | with_reducible refine Keeps.foldl (fun st x => ?_) ?_
    | split

end Sys2Proof.Machine
end

