-- ==== Sys2Proof/Laws/KeepsCarder.lean ====
section
/-! SUPPORT. What the operations of Machine/Carder.lean keep (Keeps.lean). -/

set_option linter.unusedSimpArgs false

namespace Sys2Proof.Machine

theorem State.countOut_keeps {t s : State} {x0} (h : Keeps t s) : Keeps t (State.countOut x0 s) := by
  refine h.trans ?_
  clear h
  unfold State.countOut
  repeat' first
    | with_reducible exact Keeps.refl _
    | with_reducible assumption
    | with_reducible refine Keeps.of_fst ?_ (by assumption)
    | with_reducible refine Keeps.ite_fst ?_ ?_
    | simp only [Keeps.put]
    | with_reducible refine State.bump_keeps ?_
    | with_reducible refine State.note_keeps ?_
    | with_reducible refine Keeps.forEach (fun x st => ?_) ?_
    | with_reducible refine Keeps.foldl_fst (fun acc x => ?_) ?_
    | with_reducible refine Keeps.foldl (fun st x => ?_) ?_
    | split

theorem State.countWords_keeps {t s : State} {x0 x1} (h : Keeps t s) : Keeps t (State.countWords x0 x1 s) := by
  refine h.trans ?_
  clear h
  unfold State.countWords
  repeat' first
    | with_reducible exact Keeps.refl _
    | with_reducible assumption
    | with_reducible refine Keeps.of_fst ?_ (by assumption)
    | with_reducible refine Keeps.ite_fst ?_ ?_
    | simp only [Keeps.put]
    | with_reducible refine State.bump_keeps ?_
    | with_reducible refine Keeps.forEach (fun x st => ?_) ?_
    | with_reducible refine Keeps.foldl_fst (fun acc x => ?_) ?_
    | with_reducible refine Keeps.foldl (fun st x => ?_) ?_
    | split

theorem State.writeView_keeps {t s : State} {x0} (h : Keeps t s) : Keeps t (State.writeView x0 s) := by
  refine h.trans ?_
  clear h
  unfold State.writeView
  repeat' first
    | with_reducible exact Keeps.refl _
    | with_reducible assumption
    | with_reducible refine Keeps.of_fst ?_ (by assumption)
    | with_reducible refine Keeps.ite_fst ?_ ?_
    | simp only [Keeps.put]
    | with_reducible refine State.spanWrite_keeps ?_
    | with_reducible refine State.clearBad_keeps ?_
    | with_reducible refine Keeps.forEach (fun x st => ?_) ?_
    | with_reducible refine Keeps.foldl_fst (fun acc x => ?_) ?_
    | with_reducible refine Keeps.foldl (fun st x => ?_) ?_
    | split

end Sys2Proof.Machine
end

