-- ==== Sys2Proof/Laws/KeepsCoherence.lean ====
section
/-! SUPPORT. What the operations of Machine/Coherence.lean keep (Keeps.lean). -/

set_option linter.unusedSimpArgs false

namespace Sys2Proof.Machine

theorem State.setDies_keeps {t s : State} {x0 x1} (h : Keeps t s) : Keeps t (State.setDies x0 x1 s) := by
  refine h.trans ?_
  clear h
  unfold State.setDies
  repeat' first
    | with_reducible exact Keeps.refl _
    | with_reducible assumption
    | with_reducible refine Keeps.of_fst ?_ (by assumption)
    | with_reducible refine Keeps.ite_fst ?_ ?_
    | simp only [Keeps.put]
    | with_reducible refine Keeps.forEach (fun x st => ?_) ?_
    | with_reducible refine Keeps.foldl_fst (fun acc x => ?_) ?_
    | with_reducible refine Keeps.foldl (fun st x => ?_) ?_
    | split

theorem State.closeInv_keeps {t s u : State} {x0 x1} (e : State.closeInv x0 x1 s = some u) (h : Keeps t s) : Keeps t u := by
  refine h.trans ?_
  clear h
  unfold State.closeInv at e
  split at e
  · exact absurd e (by simp)
  · cases e
    refine State.setDies_keeps ?_
    simp only [Keeps.put]
    exact Keeps.refl _

theorem State.sendInv_keeps {t s : State} {x0 x1} (h : Keeps t s) : Keeps t (State.sendInv x0 x1 s) := by
  refine h.trans ?_
  clear h
  unfold State.sendInv
  repeat' first
    | with_reducible exact Keeps.refl _
    | with_reducible assumption
    | with_reducible refine Keeps.of_fst ?_ (by assumption)
    | with_reducible refine Keeps.ite_fst ?_ ?_
    | simp only [Keeps.put]
    | with_reducible refine State.emit_keeps ?_
    | with_reducible refine Keeps.forEach (fun x st => ?_) ?_
    | with_reducible refine Keeps.foldl_fst (fun acc x => ?_) ?_
    | with_reducible refine Keeps.foldl (fun st x => ?_) ?_
    | split

theorem State.invalidate_keeps {t s : State} {x0 x1} (h : Keeps t s) : Keeps t (State.invalidate x0 x1 s) := by
  refine h.trans ?_
  clear h
  unfold State.invalidate
  repeat' first
    | with_reducible exact Keeps.refl _
    | with_reducible assumption
    | with_reducible refine Keeps.of_fst ?_ (by assumption)
    | with_reducible refine Keeps.ite_fst ?_ ?_
    | simp only [Keeps.put]
    | with_reducible refine State.sendInv_keeps ?_
    | with_reducible refine Keeps.forEach (fun x st => ?_) ?_
    | with_reducible refine Keeps.foldl_fst (fun acc x => ?_) ?_
    | with_reducible refine Keeps.foldl (fun st x => ?_) ?_
    | split

theorem State.grantCopy_keeps {t s : State} {x0 x1} (h : Keeps t s) : Keeps t (State.grantCopy x0 x1 s).1 := by
  refine h.trans ?_
  clear h
  unfold State.grantCopy
  repeat' first
    | with_reducible exact Keeps.refl _
    | with_reducible assumption
    | with_reducible refine Keeps.of_fst ?_ (by assumption)
    | with_reducible refine Keeps.ite_fst ?_ ?_
    | simp only [Keeps.put]
    | with_reducible refine State.setDies_keeps ?_
    | with_reducible refine State.invalidate_keeps ?_
    | with_reducible refine Keeps.forEach (fun x st => ?_) ?_
    | with_reducible refine Keeps.foldl_fst (fun acc x => ?_) ?_
    | with_reducible refine Keeps.foldl (fun st x => ?_) ?_
    | split

end Sys2Proof.Machine
end

