-- ==== Sys2Proof/Laws/KeepsCoding.lean ====
section
/-! SUPPORT. What the operations of Machine/Coding.lean keep (Keeps.lean). -/

set_option linter.unusedSimpArgs false

namespace Sys2Proof.Machine

theorem State.countAck_keeps {t s : State} {x0 x1} (h : Keeps t s) : Keeps t (State.countAck x0 x1 s) := by
  refine h.trans ?_
  clear h
  unfold State.countAck
  repeat' first
    | with_reducible exact Keeps.refl _
    | with_reducible assumption
    | with_reducible refine Keeps.of_fst ?_ (by assumption)
    | with_reducible refine Keeps.ite_fst ?_ ?_
    | simp only [Keeps.put]
    | with_reducible refine Keeps.forEach (fun x st => ?_) ?_
    | with_reducible refine Keeps.foldl_fst (fun acc x => ?_) ?_
    | with_reducible refine Keeps.foldl (fun st x => ?_) ?_
    | split

theorem State.updGroup_keeps {t s : State} {x0 x1} (h : Keeps t s) : Keeps t (State.updGroup x0 x1 s) := by
  refine h.trans ?_
  clear h
  unfold State.updGroup
  repeat' first
    | with_reducible exact Keeps.refl _
    | with_reducible assumption
    | with_reducible refine Keeps.of_fst ?_ (by assumption)
    | with_reducible refine Keeps.ite_fst ?_ ?_
    | simp only [Keeps.put]
    | with_reducible refine Keeps.forEach (fun x st => ?_) ?_
    | with_reducible refine Keeps.foldl_fst (fun acc x => ?_) ?_
    | with_reducible refine Keeps.foldl (fun st x => ?_) ?_
    | split

theorem State.dropGroup_keeps {t s : State} {x0} (h : Keeps t s) : Keeps t (State.dropGroup x0 s) := by
  refine h.trans ?_
  clear h
  unfold State.dropGroup
  repeat' first
    | with_reducible exact Keeps.refl _
    | with_reducible assumption
    | with_reducible refine Keeps.of_fst ?_ (by assumption)
    | with_reducible refine Keeps.ite_fst ?_ ?_
    | simp only [Keeps.put]
    | with_reducible refine Keeps.forEach (fun x st => ?_) ?_
    | with_reducible refine Keeps.foldl_fst (fun acc x => ?_) ?_
    | with_reducible refine Keeps.foldl (fun st x => ?_) ?_
    | split

theorem State.encodeDone_keeps {t s : State} {x0} (h : Keeps t s) : Keeps t (State.encodeDone x0 s) := by
  refine h.trans ?_
  clear h
  unfold State.encodeDone
  repeat' first
    | with_reducible exact Keeps.refl _
    | with_reducible assumption
    | with_reducible refine Keeps.of_fst ?_ (by assumption)
    | with_reducible refine Keeps.ite_fst ?_ ?_
    | simp only [Keeps.put]
    | with_reducible refine State.dropGroup_keeps ?_
    | with_reducible refine State.updHank_keeps ?_
    | with_reducible refine Keeps.forEach (fun x st => ?_) ?_
    | with_reducible refine Keeps.foldl_fst (fun acc x => ?_) ?_
    | with_reducible refine Keeps.foldl (fun st x => ?_) ?_
    | split

theorem State.clearKey_keeps {t s : State} {x0} (h : Keeps t s) : Keeps t (State.clearKey x0 s) := by
  refine h.trans ?_
  clear h
  unfold State.clearKey
  repeat' first
    | with_reducible exact Keeps.refl _
    | with_reducible assumption
    | with_reducible refine Keeps.of_fst ?_ (by assumption)
    | with_reducible refine Keeps.ite_fst ?_ ?_
    | simp only [Keeps.put]
    | with_reducible refine State.clearBad_keeps ?_
    | with_reducible refine Keeps.forEach (fun x st => ?_) ?_
    | with_reducible refine Keeps.foldl_fst (fun acc x => ?_) ?_
    | with_reducible refine Keeps.foldl (fun st x => ?_) ?_
    | split

theorem State.viewDone_keeps {t s : State} {x0 x1} (h : Keeps t s) : Keeps t (State.viewDone x0 x1 s) := by
  refine h.trans ?_
  clear h
  unfold State.viewDone
  repeat' first
    | with_reducible exact Keeps.refl _
    | with_reducible assumption
    | with_reducible refine Keeps.of_fst ?_ (by assumption)
    | with_reducible refine Keeps.ite_fst ?_ ?_
    | simp only [Keeps.put]
    | with_reducible refine State.bump_keeps ?_
    | with_reducible refine State.updHank_keeps ?_
    | with_reducible refine Keeps.forEach (fun x st => ?_) ?_
    | with_reducible refine Keeps.foldl_fst (fun acc x => ?_) ?_
    | with_reducible refine Keeps.foldl (fun st x => ?_) ?_
    | split

theorem State.traceCommit_keeps {t s : State} (h : Keeps t s) : Keeps t (State.traceCommit s) := by
  refine h.trans ?_
  clear h
  unfold State.traceCommit
  repeat' first
    | with_reducible exact Keeps.refl _
    | with_reducible assumption
    | with_reducible refine Keeps.of_fst ?_ (by assumption)
    | with_reducible refine Keeps.ite_fst ?_ ?_
    | simp only [Keeps.put]
    | with_reducible refine Keeps.forEach (fun x st => ?_) ?_
    | with_reducible refine Keeps.foldl_fst (fun acc x => ?_) ?_
    | with_reducible refine Keeps.foldl (fun st x => ?_) ?_
    | split

theorem State.healByCommit_keeps {t s : State} {x0 x1 x2} (h : Keeps t s) : Keeps t (State.healByCommit x0 x1 x2 s) := by
  refine h.trans ?_
  clear h
  unfold State.healByCommit
  repeat' first
    | with_reducible exact Keeps.refl _
    | with_reducible assumption
    | with_reducible refine Keeps.of_fst ?_ (by assumption)
    | with_reducible refine Keeps.ite_fst ?_ ?_
    | simp only [Keeps.put]
    | with_reducible refine State.bump_keeps ?_
    | with_reducible refine Keeps.forEach (fun x st => ?_) ?_
    | with_reducible refine Keeps.foldl_fst (fun acc x => ?_) ?_
    | with_reducible refine Keeps.foldl (fun st x => ?_) ?_
    | split

theorem State.sendFill_keeps {t s : State} {x0 x1 x2 x3 x4 x5 x6} (h : Keeps t s) : Keeps t (State.sendFill x0 x1 x2 x3 x4 x5 x6 s) := by
  refine h.trans ?_
  clear h
  unfold State.sendFill
  repeat' first
    | with_reducible exact Keeps.refl _
    | with_reducible assumption
    | with_reducible refine Keeps.of_fst ?_ (by assumption)
    | with_reducible refine Keeps.ite_fst ?_ ?_
    | simp only [Keeps.put]
    | with_reducible refine State.enqueue_keeps ?_
    | with_reducible refine State.bump_keeps ?_
    | with_reducible refine Keeps.forEach (fun x st => ?_) ?_
    | with_reducible refine Keeps.foldl_fst (fun acc x => ?_) ?_
    | with_reducible refine Keeps.foldl (fun st x => ?_) ?_
    | split

theorem State.commitOwn_keeps {t s : State} {x0 x1} (h : Keeps t s) : Keeps t (State.commitOwn x0 x1 s) := by
  refine h.trans ?_
  clear h
  unfold State.commitOwn
  repeat' first
    | with_reducible exact Keeps.refl _
    | with_reducible assumption
    | with_reducible refine Keeps.of_fst ?_ (by assumption)
    | with_reducible refine Keeps.ite_fst ?_ ?_
    | simp only [Keeps.put]
    | with_reducible refine State.writeGroup_keeps ?_
    | with_reducible refine State.clearKey_keeps ?_
    | with_reducible refine State.writeView_keeps ?_
    | with_reducible refine State.updHank_keeps ?_
    | with_reducible refine State.dropGroup_keeps ?_
    | with_reducible refine State.bump_keeps ?_
    | with_reducible refine State.viewDone_keeps ?_
    | with_reducible refine State.traceCommit_keeps ?_
    | with_reducible refine State.healByCommit_keeps ?_
    | with_reducible refine State.sendFill_keeps ?_
    | with_reducible refine Keeps.forEach (fun x st => ?_) ?_
    | with_reducible refine Keeps.foldl_fst (fun acc x => ?_) ?_
    | with_reducible refine Keeps.foldl (fun st x => ?_) ?_
    | split

theorem State.addPart_keeps {t s : State} {x0 x1 x2 x3 x4 x5} (h : Keeps t s) : Keeps t (State.addPart x0 x1 x2 x3 x4 x5 s) := by
  refine h.trans ?_
  clear h
  unfold State.addPart
  repeat' first
    | with_reducible exact Keeps.refl _
    | with_reducible assumption
    | with_reducible refine Keeps.of_fst ?_ (by assumption)
    | with_reducible refine Keeps.ite_fst ?_ ?_
    | simp only [Keeps.put]
    | with_reducible refine Keeps.forEach (fun x st => ?_) ?_
    | with_reducible refine Keeps.foldl_fst (fun acc x => ?_) ?_
    | with_reducible refine Keeps.foldl (fun st x => ?_) ?_
    | split

theorem State.fillInherited_keeps {t s : State} {x0 x1 x2 x3 x4} (h : Keeps t s) : Keeps t (State.fillInherited x0 x1 x2 x3 x4 s) := by
  refine h.trans ?_
  clear h
  unfold State.fillInherited
  repeat' first
    | with_reducible exact Keeps.refl _
    | with_reducible assumption
    | with_reducible refine Keeps.of_fst ?_ (by assumption)
    | with_reducible refine Keeps.ite_fst ?_ ?_
    | simp only [Keeps.put]
    | with_reducible refine State.writeGroup_keeps ?_
    | with_reducible refine State.updHank_keeps ?_
    | with_reducible refine Keeps.forEach (fun x st => ?_) ?_
    | with_reducible refine Keeps.foldl_fst (fun acc x => ?_) ?_
    | with_reducible refine Keeps.foldl (fun st x => ?_) ?_
    | split

theorem State.storeAdopted_keeps {t s : State} {x0 x1 x2 x3 x4 x5} (h : Keeps t s) : Keeps t (State.storeAdopted x0 x1 x2 x3 x4 x5 s) := by
  refine h.trans ?_
  clear h
  unfold State.storeAdopted
  repeat' first
    | with_reducible exact Keeps.refl _
    | with_reducible assumption
    | with_reducible refine Keeps.of_fst ?_ (by assumption)
    | with_reducible refine Keeps.ite_fst ?_ ?_
    | simp only [Keeps.put]
    | with_reducible refine State.writeReserve_keeps ?_
    | with_reducible refine State.clearKey_keeps ?_
    | with_reducible refine State.addPart_keeps ?_
    | with_reducible refine State.bump_keeps ?_
    | with_reducible refine State.traceCommit_keeps ?_
    | with_reducible refine State.fillInherited_keeps ?_
    | with_reducible refine State.sendFill_keeps ?_
    | with_reducible refine Keeps.forEach (fun x st => ?_) ?_
    | with_reducible refine Keeps.foldl_fst (fun acc x => ?_) ?_
    | with_reducible refine Keeps.foldl (fun st x => ?_) ?_
    | split

theorem State.tryCommit_keeps {t s : State} {x0} (h : Keeps t s) : Keeps t (State.tryCommit x0 s) := by
  refine h.trans ?_
  clear h
  unfold State.tryCommit
  repeat' first
    | with_reducible exact Keeps.refl _
    | with_reducible assumption
    | with_reducible refine Keeps.of_fst ?_ (by assumption)
    | with_reducible refine Keeps.ite_fst ?_ ?_
    | simp only [Keeps.put]
    | with_reducible refine State.commitOwn_keeps ?_
    | with_reducible refine State.invalidate_keeps ?_
    | with_reducible refine State.healByCommit_keeps ?_
    | with_reducible refine State.storeAdopted_keeps ?_
    | with_reducible refine State.dropGroup_keeps ?_
    | with_reducible refine Keeps.forEach (fun x st => ?_) ?_
    | with_reducible refine Keeps.foldl_fst (fun acc x => ?_) ?_
    | with_reducible refine Keeps.foldl (fun st x => ?_) ?_
    | split

theorem State.ackSet_keeps {t s : State} {x0 x1} (h : Keeps t s) : Keeps t (State.ackSet x0 x1 s) := by
  refine h.trans ?_
  clear h
  unfold State.ackSet
  repeat' first
    | with_reducible exact Keeps.refl _
    | with_reducible assumption
    | with_reducible refine Keeps.of_fst ?_ (by assumption)
    | with_reducible refine Keeps.ite_fst ?_ ?_
    | simp only [Keeps.put]
    | with_reducible refine State.countAck_keeps ?_
    | with_reducible refine State.updGroup_keeps ?_
    | with_reducible refine State.encodeDone_keeps ?_
    | with_reducible refine State.tryCommit_keeps ?_
    | with_reducible refine Keeps.forEach (fun x st => ?_) ?_
    | with_reducible refine Keeps.foldl_fst (fun acc x => ?_) ?_
    | with_reducible refine Keeps.foldl (fun st x => ?_) ?_
    | split

theorem State.ackTimeout_keeps {t s : State} {x0 x1 x2 x3} (h : Keeps t s) : Keeps t (State.ackTimeout x0 x1 x2 x3 s) := by
  refine h.trans ?_
  clear h
  unfold State.ackTimeout
  repeat' first
    | with_reducible exact Keeps.refl _
    | with_reducible assumption
    | with_reducible refine Keeps.of_fst ?_ (by assumption)
    | with_reducible refine Keeps.ite_fst ?_ ?_
    | simp only [Keeps.put]
    | with_reducible refine State.countNote_keeps ?_
    | with_reducible refine State.updGroup_keeps ?_
    | with_reducible refine Keeps.forEach (fun x st => ?_) ?_
    | with_reducible refine Keeps.foldl_fst (fun acc x => ?_) ?_
    | with_reducible refine Keeps.foldl (fun st x => ?_) ?_
    | split

theorem State.addRepair_keeps {t s : State} {x0 x1 x2 x3} (h : Keeps t s) : Keeps t (State.addRepair x0 x1 x2 x3 s) := by
  refine h.trans ?_
  clear h
  unfold State.addRepair
  repeat' first
    | with_reducible exact Keeps.refl _
    | with_reducible assumption
    | with_reducible refine Keeps.of_fst ?_ (by assumption)
    | with_reducible refine Keeps.ite_fst ?_ ?_
    | simp only [Keeps.put]
    | with_reducible refine Keeps.forEach (fun x st => ?_) ?_
    | with_reducible refine Keeps.foldl_fst (fun acc x => ?_) ?_
    | with_reducible refine Keeps.foldl (fun st x => ?_) ?_
    | split

theorem State.askStripes_keeps {t s : State} {x0 x1 x2 x3} (h : Keeps t s) : Keeps t (State.askStripes x0 x1 x2 x3 s) := by
  refine h.trans ?_
  clear h
  unfold State.askStripes
  repeat' first
    | with_reducible exact Keeps.refl _
    | with_reducible assumption
    | with_reducible refine Keeps.of_fst ?_ (by assumption)
    | with_reducible refine Keeps.ite_fst ?_ ?_
    | simp only [Keeps.put]
    | with_reducible refine State.takeLines_keeps ?_
    | with_reducible refine State.takeMem_keeps ?_
    | with_reducible refine Keeps.forEach (fun x st => ?_) ?_
    | with_reducible refine Keeps.foldl_fst (fun acc x => ?_) ?_
    | with_reducible refine Keeps.foldl (fun st x => ?_) ?_
    | split

theorem State.askGroup_keeps {t s : State} {x0 x1 x2} (h : Keeps t s) : Keeps t (State.askGroup x0 x1 x2 s) := by
  refine h.trans ?_
  clear h
  unfold State.askGroup
  repeat' first
    | with_reducible exact Keeps.refl _
    | with_reducible assumption
    | with_reducible refine Keeps.of_fst ?_ (by assumption)
    | with_reducible refine Keeps.ite_fst ?_ ?_
    | simp only [Keeps.put]
    | with_reducible refine State.askStripes_keeps ?_
    | with_reducible refine Keeps.forEach (fun x st => ?_) ?_
    | with_reducible refine Keeps.foldl_fst (fun acc x => ?_) ?_
    | with_reducible refine Keeps.foldl (fun st x => ?_) ?_
    | split

theorem State.askKey_keeps {t s : State} {x0} (h : Keeps t s) : Keeps t (State.askKey x0 s) := by
  refine h.trans ?_
  clear h
  unfold State.askKey
  repeat' first
    | with_reducible exact Keeps.refl _
    | with_reducible assumption
    | with_reducible refine Keeps.of_fst ?_ (by assumption)
    | with_reducible refine Keeps.ite_fst ?_ ?_
    | simp only [Keeps.put]
    | with_reducible refine State.takeLines_keeps ?_
    | with_reducible refine State.takeMem_keeps ?_
    | with_reducible refine Keeps.forEach (fun x st => ?_) ?_
    | with_reducible refine Keeps.foldl_fst (fun acc x => ?_) ?_
    | with_reducible refine Keeps.foldl (fun st x => ?_) ?_
    | split

theorem State.askMaster_keeps {t s : State} {x0 x1 x2} (h : Keeps t s) : Keeps t (State.askMaster x0 x1 x2 s) := by
  refine h.trans ?_
  clear h
  unfold State.askMaster
  repeat' first
    | with_reducible exact Keeps.refl _
    | with_reducible assumption
    | with_reducible refine Keeps.of_fst ?_ (by assumption)
    | with_reducible refine Keeps.ite_fst ?_ ?_
    | simp only [Keeps.put]
    | with_reducible refine State.askStripes_keeps ?_
    | with_reducible refine Keeps.forEach (fun x st => ?_) ?_
    | with_reducible refine Keeps.foldl_fst (fun acc x => ?_) ?_
    | with_reducible refine Keeps.foldl (fun st x => ?_) ?_
    | split

theorem State.holdMoving_keeps {t s : State} {x0 x1 x2} (h : Keeps t s) : Keeps t (State.holdMoving x0 x1 x2 s) := by
  refine h.trans ?_
  clear h
  unfold State.holdMoving
  repeat' first
    | with_reducible exact Keeps.refl _
    | with_reducible assumption
    | with_reducible refine Keeps.of_fst ?_ (by assumption)
    | with_reducible refine Keeps.ite_fst ?_ ?_
    | simp only [Keeps.put]
    | with_reducible refine State.bump_keeps ?_
    | with_reducible refine Keeps.forEach (fun x st => ?_) ?_
    | with_reducible refine Keeps.foldl_fst (fun acc x => ?_) ?_
    | with_reducible refine Keeps.foldl (fun st x => ?_) ?_
    | split

theorem State.waitEpoch_keeps {t s : State} (h : Keeps t s) : Keeps t (State.waitEpoch s) := by
  refine h.trans ?_
  clear h
  unfold State.waitEpoch
  repeat' first
    | with_reducible exact Keeps.refl _
    | with_reducible assumption
    | with_reducible refine Keeps.of_fst ?_ (by assumption)
    | with_reducible refine Keeps.ite_fst ?_ ?_
    | simp only [Keeps.put]
    | with_reducible refine State.bump_keeps ?_
    | with_reducible refine Keeps.forEach (fun x st => ?_) ?_
    | with_reducible refine Keeps.foldl_fst (fun acc x => ?_) ?_
    | with_reducible refine Keeps.foldl (fun st x => ?_) ?_
    | split

theorem State.countReread_keeps {t s : State} {x0} (h : Keeps t s) : Keeps t (State.countReread x0 s) := by
  refine h.trans ?_
  clear h
  unfold State.countReread
  repeat' first
    | with_reducible exact Keeps.refl _
    | with_reducible assumption
    | with_reducible refine Keeps.of_fst ?_ (by assumption)
    | with_reducible refine Keeps.ite_fst ?_ ?_
    | simp only [Keeps.put]
    | with_reducible refine State.bump_keeps ?_
    | with_reducible refine Keeps.forEach (fun x st => ?_) ?_
    | with_reducible refine Keeps.foldl_fst (fun acc x => ?_) ?_
    | with_reducible refine Keeps.foldl (fun st x => ?_) ?_
    | split

theorem State.markMask_keeps {t s : State} {x0 x1 x2} (h : Keeps t s) : Keeps t (State.markMask x0 x1 x2 s) := by
  refine h.trans ?_
  clear h
  unfold State.markMask
  repeat' first
    | with_reducible exact Keeps.refl _
    | with_reducible assumption
    | with_reducible refine Keeps.of_fst ?_ (by assumption)
    | with_reducible refine Keeps.ite_fst ?_ ?_
    | simp only [Keeps.put]
    | with_reducible refine State.updHank_keeps ?_
    | with_reducible refine State.countNote_keeps ?_
    | with_reducible refine Keeps.forEach (fun x st => ?_) ?_
    | with_reducible refine Keeps.foldl_fst (fun acc x => ?_) ?_
    | with_reducible refine Keeps.foldl (fun st x => ?_) ?_
    | split

theorem State.readMask_keeps {t s : State} {x0 x1 x2} (h : Keeps t s) : Keeps t (State.readMask x0 x1 x2 s) := by
  refine h.trans ?_
  clear h
  unfold State.readMask
  repeat' first
    | with_reducible exact Keeps.refl _
    | with_reducible assumption
    | with_reducible refine Keeps.of_fst ?_ (by assumption)
    | with_reducible refine Keeps.ite_fst ?_ ?_
    | simp only [Keeps.put]
    | with_reducible refine State.takeMem_keeps ?_
    | with_reducible refine State.markMask_keeps ?_
    | with_reducible refine State.bump_keeps ?_
    | with_reducible refine Keeps.forEach (fun x st => ?_) ?_
    | with_reducible refine Keeps.foldl_fst (fun acc x => ?_) ?_
    | with_reducible refine Keeps.foldl (fun st x => ?_) ?_
    | split

theorem State.noteReread_keeps {t s : State} {x0 x1 x2} (h : Keeps t s) : Keeps t (State.noteReread x0 x1 x2 s) := by
  refine h.trans ?_
  clear h
  unfold State.noteReread
  repeat' first
    | with_reducible exact Keeps.refl _
    | with_reducible assumption
    | with_reducible refine Keeps.of_fst ?_ (by assumption)
    | with_reducible refine Keeps.ite_fst ?_ ?_
    | simp only [Keeps.put]
    | with_reducible refine Keeps.forEach (fun x st => ?_) ?_
    | with_reducible refine Keeps.foldl_fst (fun acc x => ?_) ?_
    | with_reducible refine Keeps.foldl (fun st x => ?_) ?_
    | split

theorem State.shadow_keeps {t s : State} {x0 x1 x2 x3} (h : Keeps t s) : Keeps t (State.shadow x0 x1 x2 x3 s).1 := by
  refine h.trans ?_
  clear h
  unfold State.shadow
  repeat' first
    | with_reducible exact Keeps.refl _
    | with_reducible assumption
    | with_reducible refine Keeps.of_fst ?_ (by assumption)
    | with_reducible refine Keeps.ite_fst ?_ ?_
    | simp only [Keeps.put]
    | with_reducible refine State.unitFault_keeps ?_
    | with_reducible refine State.note_keeps ?_
    | with_reducible refine Keeps.forEach (fun x st => ?_) ?_
    | with_reducible refine Keeps.foldl_fst (fun acc x => ?_) ?_
    | with_reducible refine Keeps.foldl (fun st x => ?_) ?_
    | split

theorem State.sendSet_keeps {t s : State} {x0 x1 x2 x3 x4} (h : Keeps t s) : Keeps t (State.sendSet x0 x1 x2 x3 x4 s) := by
  refine h.trans ?_
  clear h
  unfold State.sendSet
  repeat' first
    | with_reducible exact Keeps.refl _
    | with_reducible assumption
    | with_reducible refine Keeps.of_fst ?_ (by assumption)
    | with_reducible refine Keeps.ite_fst ?_ ?_
    | simp only [Keeps.put]
    | with_reducible refine State.enqueue_keeps ?_
    | with_reducible refine State.bump_keeps ?_
    | with_reducible refine Keeps.forEach (fun x st => ?_) ?_
    | with_reducible refine Keeps.foldl_fst (fun acc x => ?_) ?_
    | with_reducible refine Keeps.foldl (fun st x => ?_) ?_
    | split

theorem State.launch_keeps {t s : State} {x0 x1} (h : Keeps t s) : Keeps t (State.launch x0 x1 s) := by
  refine h.trans ?_
  clear h
  unfold State.launch
  repeat' first
    | with_reducible exact Keeps.refl _
    | with_reducible assumption
    | with_reducible refine Keeps.of_fst ?_ (by assumption)
    | with_reducible refine Keeps.ite_fst ?_ ?_
    | simp only [Keeps.put]
    | with_reducible refine State.bump_keeps ?_
    | with_reducible refine State.sendSet_keeps ?_
    | with_reducible refine Keeps.forEach (fun x st => ?_) ?_
    | with_reducible refine Keeps.foldl_fst (fun acc x => ?_) ?_
    | with_reducible refine Keeps.foldl (fun st x => ?_) ?_
    | split

theorem State.computeGroup_keeps {t s : State} {x0 x1 x2 x3 x4 x5} (h : Keeps t s) : Keeps t (State.computeGroup x0 x1 x2 x3 x4 x5 s) := by
  refine h.trans ?_
  clear h
  unfold State.computeGroup
  repeat' first
    | with_reducible exact Keeps.refl _
    | with_reducible assumption
    | with_reducible refine Keeps.of_fst ?_ (by assumption)
    | with_reducible refine Keeps.ite_fst ?_ ?_
    | simp only [Keeps.put]
    | with_reducible refine State.shadow_keeps ?_
    | with_reducible refine State.countWords_keeps ?_
    | with_reducible refine State.countOut_keeps ?_
    | with_reducible refine State.launch_keeps ?_
    | with_reducible refine Keeps.forEach (fun x st => ?_) ?_
    | with_reducible refine Keeps.foldl_fst (fun acc x => ?_) ?_
    | with_reducible refine Keeps.foldl (fun st x => ?_) ?_
    | split

theorem State.holdMask_keeps {t s : State} {x0 x1 x2} (h : Keeps t s) : Keeps t (State.holdMask x0 x1 x2 s) := by
  refine h.trans ?_
  clear h
  unfold State.holdMask
  repeat' first
    | with_reducible exact Keeps.refl _
    | with_reducible assumption
    | with_reducible refine Keeps.of_fst ?_ (by assumption)
    | with_reducible refine Keeps.ite_fst ?_ ?_
    | simp only [Keeps.put]
    | with_reducible refine State.bump_keeps ?_
    | with_reducible refine Keeps.forEach (fun x st => ?_) ?_
    | with_reducible refine Keeps.foldl_fst (fun acc x => ?_) ?_
    | with_reducible refine Keeps.foldl (fun st x => ?_) ?_
    | split

theorem State.carderStart_keeps {t s : State} {x0 x1 x2 x3} (h : Keeps t s) : Keeps t (State.carderStart x0 x1 x2 x3 s) := by
  refine h.trans ?_
  clear h
  unfold State.carderStart
  repeat' first
    | with_reducible exact Keeps.refl _
    | with_reducible assumption
    | with_reducible refine Keeps.of_fst ?_ (by assumption)
    | with_reducible refine Keeps.ite_fst ?_ ?_
    | simp only [Keeps.put]
    | with_reducible refine State.holdMoving_keeps ?_
    | with_reducible refine State.waitEpoch_keeps ?_
    | with_reducible refine State.countReread_keeps ?_
    | with_reducible refine State.readMask_keeps ?_
    | with_reducible refine State.takeMem_keeps ?_
    | with_reducible refine State.askGroup_keeps ?_
    | with_reducible refine State.addRepair_keeps ?_
    | with_reducible refine State.noteReread_keeps ?_
    | with_reducible refine State.computeGroup_keeps ?_
    | with_reducible refine State.holdMask_keeps ?_
    | with_reducible refine Keeps.forEach (fun x st => ?_) ?_
    | with_reducible refine Keeps.foldl_fst (fun acc x => ?_) ?_
    | with_reducible refine Keeps.foldl (fun st x => ?_) ?_
    | split

theorem State.encodeGroup_keeps {t s : State} {x0 x1 x2} (h : Keeps t s) : Keeps t (State.encodeGroup x0 x1 x2 s) := by
  refine h.trans ?_
  clear h
  unfold State.encodeGroup
  repeat' first
    | with_reducible exact Keeps.refl _
    | with_reducible assumption
    | with_reducible refine Keeps.of_fst ?_ (by assumption)
    | with_reducible refine Keeps.ite_fst ?_ ?_
    | simp only [Keeps.put]
    | with_reducible refine State.launch_keeps ?_
    | with_reducible refine Keeps.forEach (fun x st => ?_) ?_
    | with_reducible refine Keeps.foldl_fst (fun acc x => ?_) ?_
    | with_reducible refine Keeps.foldl (fun st x => ?_) ?_
    | split

theorem State.encodeStart_keeps {t s : State} {x0 x1} (h : Keeps t s) : Keeps t (State.encodeStart x0 x1 s) := by
  refine h.trans ?_
  clear h
  unfold State.encodeStart
  repeat' first
    | with_reducible exact Keeps.refl _
    | with_reducible assumption
    | with_reducible refine Keeps.of_fst ?_ (by assumption)
    | with_reducible refine Keeps.ite_fst ?_ ?_
    | simp only [Keeps.put]
    | with_reducible refine State.askGroup_keeps ?_
    | with_reducible refine State.encodeGroup_keeps ?_
    | with_reducible refine State.addRepair_keeps ?_
    | with_reducible refine State.updHank_keeps ?_
    | with_reducible refine Keeps.forEach (fun x st => ?_) ?_
    | with_reducible refine Keeps.foldl_fst (fun acc x => ?_) ?_
    | with_reducible refine Keeps.foldl (fun st x => ?_) ?_
    | split

theorem State.onDeltaAck_keeps {t s : State} {x0} (h : Keeps t s) : Keeps t (State.onDeltaAck x0 s) := by
  refine h.trans ?_
  clear h
  unfold State.onDeltaAck
  repeat' first
    | with_reducible exact Keeps.refl _
    | with_reducible assumption
    | with_reducible refine Keeps.of_fst ?_ (by assumption)
    | with_reducible refine Keeps.ite_fst ?_ ?_
    | simp only [Keeps.put]
    | with_reducible refine State.note_keeps ?_
    | with_reducible refine State.freeReq_keeps ?_
    | with_reducible refine State.ackSet_keeps ?_
    | with_reducible refine Keeps.forEach (fun x st => ?_) ?_
    | with_reducible refine Keeps.foldl_fst (fun acc x => ?_) ?_
    | with_reducible refine Keeps.foldl (fun st x => ?_) ?_
    | split

theorem State.resendSet_keeps {t s : State} {x0 x1 x2} (h : Keeps t s) : Keeps t (State.resendSet x0 x1 x2 s) := by
  refine h.trans ?_
  clear h
  unfold State.resendSet
  repeat' first
    | with_reducible exact Keeps.refl _
    | with_reducible assumption
    | with_reducible refine Keeps.of_fst ?_ (by assumption)
    | with_reducible refine Keeps.ite_fst ?_ ?_
    | simp only [Keeps.put]
    | with_reducible refine State.freeSets_keeps ?_
    | with_reducible refine State.updGroup_keeps ?_
    | with_reducible refine State.sendSet_keeps ?_
    | with_reducible refine State.bump_keeps ?_
    | with_reducible refine Keeps.forEach (fun x st => ?_) ?_
    | with_reducible refine Keeps.foldl_fst (fun acc x => ?_) ?_
    | with_reducible refine Keeps.foldl (fun st x => ?_) ?_
    | split

theorem State.resendAll_keeps {t s : State} (h : Keeps t s) : Keeps t (State.resendAll s) := by
  refine h.trans ?_
  clear h
  unfold State.resendAll
  repeat' first
    | with_reducible exact Keeps.refl _
    | with_reducible assumption
    | with_reducible refine Keeps.of_fst ?_ (by assumption)
    | with_reducible refine Keeps.ite_fst ?_ ?_
    | simp only [Keeps.put]
    | with_reducible refine State.resendSet_keeps ?_
    | with_reducible refine Keeps.forEach (fun x st => ?_) ?_
    | with_reducible refine Keeps.foldl_fst (fun acc x => ?_) ?_
    | with_reducible refine Keeps.foldl (fun st x => ?_) ?_
    | split

theorem State.retryCommits_keeps {t s : State} (h : Keeps t s) : Keeps t (State.retryCommits s) := by
  refine h.trans ?_
  clear h
  unfold State.retryCommits
  repeat' first
    | with_reducible exact Keeps.refl _
    | with_reducible assumption
    | with_reducible refine Keeps.of_fst ?_ (by assumption)
    | with_reducible refine Keeps.ite_fst ?_ ?_
    | simp only [Keeps.put]
    | with_reducible refine State.tryCommit_keeps ?_
    | with_reducible refine Keeps.forEach (fun x st => ?_) ?_
    | with_reducible refine Keeps.foldl_fst (fun acc x => ?_) ?_
    | with_reducible refine Keeps.foldl (fun st x => ?_) ?_
    | split

end Sys2Proof.Machine
end

