-- ==== Sys2Proof/Laws/KeepsHolder.lean ====
section
/-! SUPPORT. What the operations of Machine/Holder.lean keep (Keeps.lean). -/

set_option linter.unusedSimpArgs false

namespace Sys2Proof.Machine

theorem State.ackTo_keeps {t s : State} {x0 x1} (h : Keeps t s) : Keeps t (State.ackTo x0 x1 s) := by
  refine h.trans ?_
  clear h
  unfold State.ackTo
  repeat' first
    | with_reducible exact Keeps.refl _
    | with_reducible assumption
    | with_reducible refine Keeps.of_fst ?_ (by assumption)
    | with_reducible refine Keeps.ite_fst ?_ ?_
    | simp only [Keeps.put]
    | with_reducible refine State.reply_keeps ?_
    | with_reducible refine Keeps.forEach (fun x st => ?_) ?_
    | with_reducible refine Keeps.foldl_fst (fun acc x => ?_) ?_
    | with_reducible refine Keeps.foldl (fun st x => ?_) ?_
    | split

theorem State.readReply_keeps {t s : State} {x0 x1 x2 x3 x4} (h : Keeps t s) : Keeps t (State.readReply x0 x1 x2 x3 x4 s) := by
  refine h.trans ?_
  clear h
  unfold State.readReply
  repeat' first
    | with_reducible exact Keeps.refl _
    | with_reducible assumption
    | with_reducible refine Keeps.of_fst ?_ (by assumption)
    | with_reducible refine Keeps.ite_fst ?_ ?_
    | simp only [Keeps.put]
    | with_reducible refine State.reply_keeps ?_
    | with_reducible refine Keeps.forEach (fun x st => ?_) ?_
    | with_reducible refine Keeps.foldl_fst (fun acc x => ?_) ?_
    | with_reducible refine Keeps.foldl (fun st x => ?_) ?_
    | split

theorem State.answerAdopted_keeps {t s : State} {x0 x1 x2} (h : Keeps t s) : Keeps t (State.answerAdopted x0 x1 x2 s) := by
  refine h.trans ?_
  clear h
  unfold State.answerAdopted
  repeat' first
    | with_reducible exact Keeps.refl _
    | with_reducible assumption
    | with_reducible refine Keeps.of_fst ?_ (by assumption)
    | with_reducible refine Keeps.ite_fst ?_ ?_
    | simp only [Keeps.put]
    | with_reducible refine State.readReply_keeps ?_
    | with_reducible refine State.askKey_keeps ?_
    | with_reducible refine State.addRepair_keeps ?_
    | with_reducible refine Keeps.forEach (fun x st => ?_) ?_
    | with_reducible refine Keeps.foldl_fst (fun acc x => ?_) ?_
    | with_reducible refine Keeps.foldl (fun st x => ?_) ?_
    | split

theorem State.askPlyStripe_keeps {t s : State} {x0 x1 x2 x3 x4} (h : Keeps t s) : Keeps t (State.askPlyStripe x0 x1 x2 x3 x4 s) := by
  refine h.trans ?_
  clear h
  unfold State.askPlyStripe
  repeat' first
    | with_reducible exact Keeps.refl _
    | with_reducible assumption
    | with_reducible refine Keeps.of_fst ?_ (by assumption)
    | with_reducible refine Keeps.ite_fst ?_ ?_
    | simp only [Keeps.put]
    | with_reducible refine State.askKey_keeps ?_
    | with_reducible refine Keeps.forEach (fun x st => ?_) ?_
    | with_reducible refine Keeps.foldl_fst (fun acc x => ?_) ?_
    | with_reducible refine Keeps.foldl (fun st x => ?_) ?_
    | split

theorem State.setTag_keeps {t s : State} {x0 x1 x2 x3 x4 x5} (h : Keeps t s) : Keeps t (State.setTag x0 x1 x2 x3 x4 x5 s) := by
  refine h.trans ?_
  clear h
  unfold State.setTag
  repeat' first
    | with_reducible exact Keeps.refl _
    | with_reducible assumption
    | with_reducible refine Keeps.of_fst ?_ (by assumption)
    | with_reducible refine Keeps.ite_fst ?_ ?_
    | simp only [Keeps.put]
    | with_reducible refine State.mergeAt_keeps ?_
    | with_reducible refine Keeps.forEach (fun x st => ?_) ?_
    | with_reducible refine Keeps.foldl_fst (fun acc x => ?_) ?_
    | with_reducible refine Keeps.foldl (fun st x => ?_) ?_
    | split

theorem State.plyGood_keeps {t s : State} {x0 x1 x2 x3 x4} (h : Keeps t s) : Keeps t (State.plyGood x0 x1 x2 x3 x4 s) := by
  refine h.trans ?_
  clear h
  unfold State.plyGood
  repeat' first
    | with_reducible exact Keeps.refl _
    | with_reducible assumption
    | with_reducible refine Keeps.of_fst ?_ (by assumption)
    | with_reducible refine Keeps.ite_fst ?_ ?_
    | simp only [Keeps.put]
    | with_reducible refine State.clearKey_keeps ?_
    | with_reducible refine Keeps.forEach (fun x st => ?_) ?_
    | with_reducible refine Keeps.foldl_fst (fun acc x => ?_) ?_
    | with_reducible refine Keeps.foldl (fun st x => ?_) ?_
    | split

theorem State.finishRecomp_keeps {t s : State} {x0 x1} (h : Keeps t s) : Keeps t (State.finishRecomp x0 x1 s) := by
  refine h.trans ?_
  clear h
  unfold State.finishRecomp
  repeat' first
    | with_reducible exact Keeps.refl _
    | with_reducible assumption
    | with_reducible refine Keeps.of_fst ?_ (by assumption)
    | with_reducible refine Keeps.ite_fst ?_ ?_
    | simp only [Keeps.put]
    | with_reducible refine State.plyGood_keeps ?_
    | with_reducible refine State.writePly_keeps ?_
    | with_reducible refine State.setTag_keeps ?_
    | with_reducible refine State.bump_keeps ?_
    | with_reducible refine Keeps.forEach (fun x st => ?_) ?_
    | with_reducible refine Keeps.foldl_fst (fun acc x => ?_) ?_
    | with_reducible refine Keeps.foldl (fun st x => ?_) ?_
    | split

theorem State.askStripe_keeps {t s : State} {x0 x1 x2 x3 x4 x5 x6} (h : Keeps t s) : Keeps t (State.askStripe x0 x1 x2 x3 x4 x5 x6 s) := by
  refine h.trans ?_
  clear h
  unfold State.askStripe
  repeat' first
    | with_reducible exact Keeps.refl _
    | with_reducible assumption
    | with_reducible refine Keeps.of_fst ?_ (by assumption)
    | with_reducible refine Keeps.ite_fst ?_ ?_
    | simp only [Keeps.put]
    | with_reducible refine State.request_keeps ?_
    | with_reducible refine Keeps.forEach (fun x st => ?_) ?_
    | with_reducible refine Keeps.foldl_fst (fun acc x => ?_) ?_
    | with_reducible refine Keeps.foldl (fun st x => ?_) ?_
    | split

theorem State.askRecomp_keeps {t s : State} {x0 x1} (h : Keeps t s) : Keeps t (State.askRecomp x0 x1 s) := by
  refine h.trans ?_
  clear h
  unfold State.askRecomp
  repeat' first
    | with_reducible exact Keeps.refl _
    | with_reducible assumption
    | with_reducible refine Keeps.of_fst ?_ (by assumption)
    | with_reducible refine Keeps.ite_fst ?_ ?_
    | simp only [Keeps.put]
    | with_reducible refine State.askStripe_keeps ?_
    | with_reducible refine Keeps.forEach (fun x st => ?_) ?_
    | with_reducible refine Keeps.foldl_fst (fun acc x => ?_) ?_
    | with_reducible refine Keeps.foldl (fun st x => ?_) ?_
    | split

theorem State.startRecomp_keeps {t s : State} {x0 x1 x2 x3 x4} (h : Keeps t s) : Keeps t (State.startRecomp x0 x1 x2 x3 x4 s) := by
  refine h.trans ?_
  clear h
  unfold State.startRecomp
  repeat' first
    | with_reducible exact Keeps.refl _
    | with_reducible assumption
    | with_reducible refine Keeps.of_fst ?_ (by assumption)
    | with_reducible refine Keeps.ite_fst ?_ ?_
    | simp only [Keeps.put]
    | with_reducible refine State.setTag_keeps ?_
    | with_reducible refine State.finishRecomp_keeps ?_
    | with_reducible refine State.askRecomp_keeps ?_
    | with_reducible refine Keeps.forEach (fun x st => ?_) ?_
    | with_reducible refine Keeps.foldl_fst (fun acc x => ?_) ?_
    | with_reducible refine Keeps.foldl (fun st x => ?_) ?_
    | split

theorem State.answerNew_keeps {t s : State} {x0 x1 x2 x3 x4} (h : Keeps t s) : Keeps t (State.answerNew x0 x1 x2 x3 x4 s) := by
  refine h.trans ?_
  clear h
  unfold State.answerNew
  repeat' first
    | with_reducible exact Keeps.refl _
    | with_reducible assumption
    | with_reducible refine Keeps.of_fst ?_ (by assumption)
    | with_reducible refine Keeps.ite_fst ?_ ?_
    | simp only [Keeps.put]
    | with_reducible refine State.readReply_keeps ?_
    | with_reducible refine State.askPlyStripe_keeps ?_
    | with_reducible refine State.startRecomp_keeps ?_
    | with_reducible refine Keeps.forEach (fun x st => ?_) ?_
    | with_reducible refine Keeps.foldl_fst (fun acc x => ?_) ?_
    | with_reducible refine Keeps.foldl (fun st x => ?_) ?_
    | split

theorem State.answerOwn_keeps {t s : State} {x0 x1} (h : Keeps t s) : Keeps t (State.answerOwn x0 x1 s) := by
  refine h.trans ?_
  clear h
  unfold State.answerOwn
  repeat' first
    | with_reducible exact Keeps.refl _
    | with_reducible assumption
    | with_reducible refine Keeps.of_fst ?_ (by assumption)
    | with_reducible refine Keeps.ite_fst ?_ ?_
    | simp only [Keeps.put]
    | with_reducible refine State.readReply_keeps ?_
    | with_reducible refine State.askKey_keeps ?_
    | with_reducible refine State.addRepair_keeps ?_
    | with_reducible refine Keeps.forEach (fun x st => ?_) ?_
    | with_reducible refine Keeps.foldl_fst (fun acc x => ?_) ?_
    | with_reducible refine Keeps.foldl (fun st x => ?_) ?_
    | split

theorem State.askOldPly_keeps {t s : State} {x0 x1 x2 x3 x4 x5} (h : Keeps t s) : Keeps t (State.askOldPly x0 x1 x2 x3 x4 x5 s) := by
  refine h.trans ?_
  clear h
  unfold State.askOldPly
  repeat' first
    | with_reducible exact Keeps.refl _
    | with_reducible assumption
    | with_reducible refine Keeps.of_fst ?_ (by assumption)
    | with_reducible refine Keeps.ite_fst ?_ ?_
    | simp only [Keeps.put]
    | with_reducible refine State.askKey_keeps ?_
    | with_reducible refine Keeps.forEach (fun x st => ?_) ?_
    | with_reducible refine Keeps.foldl_fst (fun acc x => ?_) ?_
    | with_reducible refine Keeps.foldl (fun st x => ?_) ?_
    | split

theorem State.answerPly_keeps {t s : State} {x0} (h : Keeps t s) : Keeps t (State.answerPly x0 s) := by
  refine h.trans ?_
  clear h
  unfold State.answerPly
  repeat' first
    | with_reducible exact Keeps.refl _
    | with_reducible assumption
    | with_reducible refine Keeps.of_fst ?_ (by assumption)
    | with_reducible refine Keeps.ite_fst ?_ ?_
    | simp only [Keeps.put]
    | with_reducible refine State.bump_keeps ?_
    | with_reducible refine State.readReply_keeps ?_
    | with_reducible refine State.askOldPly_keeps ?_
    | with_reducible refine State.answerNew_keeps ?_
    | with_reducible refine Keeps.forEach (fun x st => ?_) ?_
    | with_reducible refine Keeps.foldl_fst (fun acc x => ?_) ?_
    | with_reducible refine Keeps.foldl (fun st x => ?_) ?_
    | split

theorem State.answerStripeOf_keeps {t s : State} {x0 x1 x2} (h : Keeps t s) : Keeps t (State.answerStripeOf x0 x1 x2 s) := by
  refine h.trans ?_
  clear h
  unfold State.answerStripeOf
  repeat' first
    | with_reducible exact Keeps.refl _
    | with_reducible assumption
    | with_reducible refine Keeps.of_fst ?_ (by assumption)
    | with_reducible refine Keeps.ite_fst ?_ ?_
    | simp only [Keeps.put]
    | with_reducible refine State.readReply_keeps ?_
    | with_reducible refine State.answerOwn_keeps ?_
    | with_reducible refine State.answerAdopted_keeps ?_
    | with_reducible refine Keeps.forEach (fun x st => ?_) ?_
    | with_reducible refine Keeps.foldl_fst (fun acc x => ?_) ?_
    | with_reducible refine Keeps.foldl (fun st x => ?_) ?_
    | split

theorem State.answerStripe_keeps {t s : State} {x0} (h : Keeps t s) : Keeps t (State.answerStripe x0 s) := by
  refine h.trans ?_
  clear h
  unfold State.answerStripe
  repeat' first
    | with_reducible exact Keeps.refl _
    | with_reducible assumption
    | with_reducible refine Keeps.of_fst ?_ (by assumption)
    | with_reducible refine Keeps.ite_fst ?_ ?_
    | simp only [Keeps.put]
    | with_reducible refine State.bump_keeps ?_
    | with_reducible refine State.readReply_keeps ?_
    | with_reducible refine State.answerStripeOf_keeps ?_
    | with_reducible refine State.spendFree_keeps ?_
    | with_reducible refine Keeps.forEach (fun x st => ?_) ?_
    | with_reducible refine Keeps.foldl_fst (fun acc x => ?_) ?_
    | with_reducible refine Keeps.foldl (fun st x => ?_) ?_
    | split

theorem State.applySet_keeps {t s : State} {x0 x1 x2 x3 x4 x5 x6 x7 x8 x9} (h : Keeps t s) : Keeps t (State.applySet x0 x1 x2 x3 x4 x5 x6 x7 x8 x9 s) := by
  refine h.trans ?_
  clear h
  unfold State.applySet
  repeat' first
    | with_reducible exact Keeps.refl _
    | with_reducible assumption
    | with_reducible refine Keeps.of_fst ?_ (by assumption)
    | with_reducible refine Keeps.ite_fst ?_ ?_
    | simp only [Keeps.put]
    | with_reducible refine State.plyGood_keeps ?_
    | with_reducible refine State.writePly_keeps ?_
    | with_reducible refine State.bump_keeps ?_
    | with_reducible refine State.setTag_keeps ?_
    | with_reducible refine Keeps.forEach (fun x st => ?_) ?_
    | with_reducible refine Keeps.foldl_fst (fun acc x => ?_) ?_
    | with_reducible refine Keeps.foldl (fun st x => ?_) ?_
    | split

theorem State.askPly_keeps {t s : State} {x0 x1 x2 x3 x4 x5} (h : Keeps t s) : Keeps t (State.askPly x0 x1 x2 x3 x4 x5 s) := by
  refine h.trans ?_
  clear h
  unfold State.askPly
  repeat' first
    | with_reducible exact Keeps.refl _
    | with_reducible assumption
    | with_reducible refine Keeps.of_fst ?_ (by assumption)
    | with_reducible refine Keeps.ite_fst ?_ ?_
    | simp only [Keeps.put]
    | with_reducible refine State.request_keeps ?_
    | with_reducible refine Keeps.forEach (fun x st => ?_) ?_
    | with_reducible refine Keeps.foldl_fst (fun acc x => ?_) ?_
    | with_reducible refine Keeps.foldl (fun st x => ?_) ?_
    | split

theorem State.updRecomp_keeps {t s : State} {x0 x1} (h : Keeps t s) : Keeps t (State.updRecomp x0 x1 s) := by
  refine h.trans ?_
  clear h
  unfold State.updRecomp
  repeat' first
    | with_reducible exact Keeps.refl _
    | with_reducible assumption
    | with_reducible refine Keeps.of_fst ?_ (by assumption)
    | with_reducible refine Keeps.ite_fst ?_ ?_
    | simp only [Keeps.put]
    | with_reducible refine Keeps.forEach (fun x st => ?_) ?_
    | with_reducible refine Keeps.foldl_fst (fun acc x => ?_) ?_
    | with_reducible refine Keeps.foldl (fun st x => ?_) ?_
    | split

theorem State.holdSet_keeps {t s : State} {x0 x1} (h : Keeps t s) : Keeps t (State.holdSet x0 x1 s) := by
  refine h.trans ?_
  clear h
  unfold State.holdSet
  repeat' first
    | with_reducible exact Keeps.refl _
    | with_reducible assumption
    | with_reducible refine Keeps.of_fst ?_ (by assumption)
    | with_reducible refine Keeps.ite_fst ?_ ?_
    | simp only [Keeps.put]
    | with_reducible refine Keeps.forEach (fun x st => ?_) ?_
    | with_reducible refine Keeps.foldl_fst (fun acc x => ?_) ?_
    | with_reducible refine Keeps.foldl (fun st x => ?_) ?_
    | split

theorem State.holdCounted_keeps {t s : State} {x0 x1 x2 x3 x4} (h : Keeps t s) : Keeps t (State.holdCounted x0 x1 x2 x3 x4 s) := by
  refine h.trans ?_
  clear h
  unfold State.holdCounted
  repeat' first
    | with_reducible exact Keeps.refl _
    | with_reducible assumption
    | with_reducible refine Keeps.of_fst ?_ (by assumption)
    | with_reducible refine Keeps.ite_fst ?_ ?_
    | simp only [Keeps.put]
    | with_reducible refine State.holdSet_keeps ?_
    | with_reducible refine State.bump_keeps ?_
    | with_reducible refine Keeps.forEach (fun x st => ?_) ?_
    | with_reducible refine Keeps.foldl_fst (fun acc x => ?_) ?_
    | with_reducible refine Keeps.foldl (fun st x => ?_) ?_
    | split

theorem State.takeSet_keeps {t s : State} {x0 x1 x2 x3} (h : Keeps t s) : Keeps t (State.takeSet x0 x1 x2 x3 s).1 := by
  refine h.trans ?_
  clear h
  unfold State.takeSet
  repeat' first
    | with_reducible exact Keeps.refl _
    | with_reducible assumption
    | with_reducible refine Keeps.of_fst ?_ (by assumption)
    | with_reducible refine Keeps.ite_fst ?_ ?_
    | simp only [Keeps.put]
    | with_reducible refine State.askPlyStripe_keeps ?_
    | with_reducible refine State.holdCounted_keeps ?_
    | with_reducible refine State.startRecomp_keeps ?_
    | with_reducible refine State.applySet_keeps ?_
    | with_reducible refine State.ackTo_keeps ?_
    | with_reducible refine State.bump_keeps ?_
    | with_reducible refine Keeps.forEach (fun x st => ?_) ?_
    | with_reducible refine Keeps.foldl_fst (fun acc x => ?_) ?_
    | with_reducible refine Keeps.foldl (fun st x => ?_) ?_
    | split

theorem State.handleSet_keeps {t s : State} {x0 x1 x2} (h : Keeps t s) : Keeps t (State.handleSet x0 x1 x2 s).1 := by
  refine h.trans ?_
  clear h
  unfold State.handleSet
  repeat' first
    | with_reducible exact Keeps.refl _
    | with_reducible assumption
    | with_reducible refine Keeps.of_fst ?_ (by assumption)
    | with_reducible refine Keeps.ite_fst ?_ ?_
    | simp only [Keeps.put]
    | with_reducible refine State.ackTo_keeps ?_
    | with_reducible refine State.bump_keeps ?_
    | with_reducible refine State.holdCounted_keeps ?_
    | with_reducible refine State.takeSet_keeps ?_
    | with_reducible refine Keeps.forEach (fun x st => ?_) ?_
    | with_reducible refine Keeps.foldl_fst (fun acc x => ?_) ?_
    | with_reducible refine Keeps.foldl (fun st x => ?_) ?_
    | split

theorem State.trySet_keeps {t s : State} {x0 x1} (h : Keeps t s) : Keeps t (State.trySet x0 x1 s).1 := by
  refine h.trans ?_
  clear h
  unfold State.trySet
  repeat' first
    | with_reducible exact Keeps.refl _
    | with_reducible assumption
    | with_reducible refine Keeps.of_fst ?_ (by assumption)
    | with_reducible refine Keeps.ite_fst ?_ ?_
    | simp only [Keeps.put]
    | with_reducible refine State.bump_keeps ?_
    | with_reducible refine State.holdCounted_keeps ?_
    | with_reducible refine State.handleSet_keeps ?_
    | with_reducible refine State.ackTo_keeps ?_
    | with_reducible refine Keeps.forEach (fun x st => ?_) ?_
    | with_reducible refine Keeps.foldl_fst (fun acc x => ?_) ?_
    | with_reducible refine Keeps.foldl (fun st x => ?_) ?_
    | split

theorem State.onDeltaSet_keeps {t s : State} {x0 x1} (h : Keeps t s) : Keeps t (State.onDeltaSet x0 x1 s) := by
  refine h.trans ?_
  clear h
  unfold State.onDeltaSet
  repeat' first
    | with_reducible exact Keeps.refl _
    | with_reducible assumption
    | with_reducible refine Keeps.of_fst ?_ (by assumption)
    | with_reducible refine Keeps.ite_fst ?_ ?_
    | simp only [Keeps.put]
    | with_reducible refine State.trySet_keeps ?_
    | with_reducible refine Keeps.forEach (fun x st => ?_) ?_
    | with_reducible refine Keeps.foldl_fst (fun acc x => ?_) ?_
    | with_reducible refine Keeps.foldl (fun st x => ?_) ?_
    | split

theorem State.releaseSets_keeps {t s : State} (h : Keeps t s) : Keeps t (State.releaseSets s) := by
  refine h.trans ?_
  clear h
  unfold State.releaseSets
  repeat' first
    | with_reducible exact Keeps.refl _
    | with_reducible assumption
    | with_reducible refine Keeps.of_fst ?_ (by assumption)
    | with_reducible refine Keeps.ite_fst ?_ ?_
    | simp only [Keeps.put]
    | with_reducible refine State.onDeltaSet_keeps ?_
    | with_reducible refine Keeps.forEach (fun x st => ?_) ?_
    | with_reducible refine Keeps.foldl_fst (fun acc x => ?_) ?_
    | with_reducible refine Keeps.foldl (fun st x => ?_) ?_
    | split

theorem State.feedRecomp_keeps {t s : State} {x0 x1} (h : Keeps t s) : Keeps t (State.feedRecomp x0 x1 s) := by
  refine h.trans ?_
  clear h
  unfold State.feedRecomp
  repeat' first
    | with_reducible exact Keeps.refl _
    | with_reducible assumption
    | with_reducible refine Keeps.of_fst ?_ (by assumption)
    | with_reducible refine Keeps.ite_fst ?_ ?_
    | simp only [Keeps.put]
    | with_reducible refine State.updRecomp_keeps ?_
    | with_reducible refine State.releaseSets_keeps ?_
    | with_reducible refine State.finishRecomp_keeps ?_
    | with_reducible refine State.askRecomp_keeps ?_
    | with_reducible refine Keeps.forEach (fun x st => ?_) ?_
    | with_reducible refine Keeps.foldl_fst (fun acc x => ?_) ?_
    | with_reducible refine Keeps.foldl (fun st x => ?_) ?_
    | split

theorem State.onPlyRead_keeps {t s : State} {x0} (h : Keeps t s) : Keeps t (State.onPlyRead x0 s) := by
  refine h.trans ?_
  clear h
  unfold State.onPlyRead
  repeat' first
    | with_reducible exact Keeps.refl _
    | with_reducible assumption
    | with_reducible refine Keeps.of_fst ?_ (by assumption)
    | with_reducible refine Keeps.ite_fst ?_ ?_
    | simp only [Keeps.put]
    | with_reducible refine State.answerPly_keeps ?_
    | with_reducible refine Keeps.forEach (fun x st => ?_) ?_
    | with_reducible refine Keeps.foldl_fst (fun acc x => ?_) ?_
    | with_reducible refine Keeps.foldl (fun st x => ?_) ?_
    | split

theorem State.onStripeRead_keeps {t s : State} {x0} (h : Keeps t s) : Keeps t (State.onStripeRead x0 s) := by
  refine h.trans ?_
  clear h
  unfold State.onStripeRead
  repeat' first
    | with_reducible exact Keeps.refl _
    | with_reducible assumption
    | with_reducible refine Keeps.of_fst ?_ (by assumption)
    | with_reducible refine Keeps.ite_fst ?_ ?_
    | simp only [Keeps.put]
    | with_reducible refine State.answerStripe_keeps ?_
    | with_reducible refine Keeps.forEach (fun x st => ?_) ?_
    | with_reducible refine Keeps.foldl_fst (fun acc x => ?_) ?_
    | with_reducible refine Keeps.foldl (fun st x => ?_) ?_
    | split

theorem State.releaseReads_keeps {t s : State} (h : Keeps t s) : Keeps t (State.releaseReads s) := by
  refine h.trans ?_
  clear h
  unfold State.releaseReads
  repeat' first
    | with_reducible exact Keeps.refl _
    | with_reducible assumption
    | with_reducible refine Keeps.of_fst ?_ (by assumption)
    | with_reducible refine Keeps.ite_fst ?_ ?_
    | simp only [Keeps.put]
    | with_reducible refine State.onPlyRead_keeps ?_
    | with_reducible refine State.onStripeRead_keeps ?_
    | with_reducible refine Keeps.forEach (fun x st => ?_) ?_
    | with_reducible refine Keeps.foldl_fst (fun acc x => ?_) ?_
    | with_reducible refine Keeps.foldl (fun st x => ?_) ?_
    | split

end Sys2Proof.Machine
end

