-- ==== Sys2Proof/Laws/KeepsDecoder.lean ====
section
/-! SUPPORT. What the operations of Machine/Decoder.lean keep (Keeps.lean). -/

set_option linter.unusedSimpArgs false

namespace Sys2Proof.Machine

theorem State.dropDecode_keeps {t s : State} {x0} (h : Keeps t s) : Keeps t (State.dropDecode x0 s) := by
  refine h.trans ?_
  clear h
  unfold State.dropDecode
  repeat' first
    | with_reducible exact Keeps.refl _
    | with_reducible assumption
    | with_reducible refine Keeps.of_fst ?_ (by assumption)
    | with_reducible refine Keeps.ite_fst ?_ ?_
    | simp only [Keeps.put]
    | with_reducible refine Keeps.forEach (fun x st => ?_) ?_
    | with_reducible refine Keeps.foldl_fst (fun acc x => ?_) ?_
    | with_reducible refine Keeps.foldl (fun st x => ?_) ?_
    | split

theorem State.updDecode_keeps {t s : State} {x0 x1} (h : Keeps t s) : Keeps t (State.updDecode x0 x1 s) := by
  refine h.trans ?_
  clear h
  unfold State.updDecode
  repeat' first
    | with_reducible exact Keeps.refl _
    | with_reducible assumption
    | with_reducible refine Keeps.of_fst ?_ (by assumption)
    | with_reducible refine Keeps.ite_fst ?_ ?_
    | simp only [Keeps.put]
    | with_reducible refine Keeps.forEach (fun x st => ?_) ?_
    | with_reducible refine Keeps.foldl_fst (fun acc x => ?_) ?_
    | with_reducible refine Keeps.foldl (fun st x => ?_) ?_
    | split

theorem State.sendDecode_keeps {t s : State} {x0 x1 x2 x3 x4 x5} (h : Keeps t s) : Keeps t (State.sendDecode x0 x1 x2 x3 x4 x5 s) := by
  refine h.trans ?_
  clear h
  unfold State.sendDecode
  repeat' first
    | with_reducible exact Keeps.refl _
    | with_reducible assumption
    | with_reducible refine Keeps.of_fst ?_ (by assumption)
    | with_reducible refine Keeps.ite_fst ?_ ?_
    | simp only [Keeps.put]
    | with_reducible refine State.updDecode_keeps ?_
    | with_reducible refine State.enqueue_keeps ?_
    | with_reducible refine State.askStripe_keeps ?_
    | with_reducible refine Keeps.forEach (fun x st => ?_) ?_
    | with_reducible refine Keeps.foldl_fst (fun acc x => ?_) ?_
    | with_reducible refine Keeps.foldl (fun st x => ?_) ?_
    | split

theorem State.advanceDecode_keeps {t s : State} {x0 x1} (h : Keeps t s) : Keeps t (State.advanceDecode x0 x1 s).1 := by
  refine h.trans ?_
  clear h
  induction x0 generalizing s x1
  · unfold State.advanceDecode
    exact Keeps.refl _
  · rename_i k ih
    have ih' : ∀ {t s : State} {x1}, Keeps t s → Keeps t (State.advanceDecode k x1 s).1 := fun h => h.trans (by apply ih)
    clear ih
    unfold State.advanceDecode
    repeat' first
      | with_reducible exact Keeps.refl _
      | with_reducible assumption
      | with_reducible refine Keeps.of_fst ?_ (by assumption)
      | with_reducible refine Keeps.ite_fst ?_ ?_
      | simp only [Keeps.put]
      | with_reducible refine State.bump_keeps ?_
      | with_reducible refine State.dropDecode_keeps ?_
      | with_reducible refine State.sendDecode_keeps ?_
      | with_reducible refine ih' ?_
      | with_reducible refine Keeps.forEach (fun x st => ?_) ?_
      | with_reducible refine Keeps.foldl_fst (fun acc x => ?_) ?_
      | with_reducible refine Keeps.foldl (fun st x => ?_) ?_
      | split

theorem State.feedDecode_keeps {t s : State} {x0 x1} (h : Keeps t s) : Keeps t (State.feedDecode x0 x1 s).1 := by
  refine h.trans ?_
  clear h
  unfold State.feedDecode
  repeat' first
    | with_reducible exact Keeps.refl _
    | with_reducible assumption
    | with_reducible refine Keeps.of_fst ?_ (by assumption)
    | with_reducible refine Keeps.ite_fst ?_ ?_
    | simp only [Keeps.put]
    | with_reducible refine State.advanceDecode_keeps ?_
    | with_reducible refine State.updDecode_keeps ?_
    | with_reducible refine Keeps.forEach (fun x st => ?_) ?_
    | with_reducible refine Keeps.foldl_fst (fun acc x => ?_) ?_
    | with_reducible refine Keeps.foldl (fun st x => ?_) ?_
    | split

theorem State.startDecode_keeps {t s : State} {x0} (h : Keeps t s) : Keeps t (State.startDecode x0 s).1 := by
  refine h.trans ?_
  clear h
  unfold State.startDecode
  repeat' first
    | with_reducible exact Keeps.refl _
    | with_reducible assumption
    | with_reducible refine Keeps.of_fst ?_ (by assumption)
    | with_reducible refine Keeps.ite_fst ?_ ?_
    | simp only [Keeps.put]
    | with_reducible refine State.advanceDecode_keeps ?_
    | with_reducible refine Keeps.forEach (fun x st => ?_) ?_
    | with_reducible refine Keeps.foldl_fst (fun acc x => ?_) ?_
    | with_reducible refine Keeps.foldl (fun st x => ?_) ?_
    | split

end Sys2Proof.Machine
end

