-- ==== Sys2Proof/Laws/KeepsLoss.lean ====
section
/-! SUPPORT. What the operations of Machine/Loss.lean keep (Keeps.lean). -/

set_option linter.unusedSimpArgs false

namespace Sys2Proof.Machine

theorem State.addLost_keeps {t s : State} {x0 x1 x2 x3 x4} (h : Keeps t s) : Keeps t (State.addLost x0 x1 x2 x3 x4 s) := by
  refine h.trans ?_
  clear h
  unfold State.addLost
  repeat' first
    | with_reducible exact Keeps.refl _
    | with_reducible assumption
    | with_reducible refine Keeps.of_fst ?_ (by assumption)
    | with_reducible refine Keeps.ite_fst ?_ ?_
    | simp only [Keeps.put]
    | with_reducible refine State.countLost_keeps ?_
    | with_reducible refine Keeps.forEach (fun x st => ?_) ?_
    | with_reducible refine Keeps.foldl_fst (fun acc x => ?_) ?_
    | with_reducible refine Keeps.foldl (fun st x => ?_) ?_
    | split

theorem State.relayReserve_keeps {t s : State} {x0 x1} (h : Keeps t s) : Keeps t (State.relayReserve x0 x1 s) := by
  refine h.trans ?_
  clear h
  unfold State.relayReserve
  repeat' first
    | with_reducible exact Keeps.refl _
    | with_reducible assumption
    | with_reducible refine Keeps.of_fst ?_ (by assumption)
    | with_reducible refine Keeps.ite_fst ?_ ?_
    | simp only [Keeps.put]
    | with_reducible refine State.writeReserve_keeps ?_
    | with_reducible refine Keeps.forEach (fun x st => ?_) ?_
    | with_reducible refine Keeps.foldl_fst (fun acc x => ?_) ?_
    | with_reducible refine Keeps.foldl (fun st x => ?_) ?_
    | split

theorem State.adopt_keeps {t s : State} {x0} (h : Keeps t s) : Keeps t (State.adopt x0 s) := by
  refine h.trans ?_
  clear h
  unfold State.adopt
  repeat' first
    | with_reducible exact Keeps.refl _
    | with_reducible assumption
    | with_reducible refine Keeps.of_fst ?_ (by assumption)
    | with_reducible refine Keeps.ite_fst ?_ ?_
    | simp only [Keeps.put]
    | with_reducible refine State.relayReserve_keeps ?_
    | with_reducible refine State.bump_keeps ?_
    | with_reducible refine Keeps.forEach (fun x st => ?_) ?_
    | with_reducible refine Keeps.foldl_fst (fun acc x => ?_) ?_
    | with_reducible refine Keeps.foldl (fun st x => ?_) ?_
    | split

theorem State.dropComp_keeps {t s : State} {x0} (h : Keeps t s) : Keeps t (State.dropComp x0 s) := by
  refine h.trans ?_
  clear h
  unfold State.dropComp
  repeat' first
    | with_reducible exact Keeps.refl _
    | with_reducible assumption
    | with_reducible refine Keeps.of_fst ?_ (by assumption)
    | with_reducible refine Keeps.ite_fst ?_ ?_
    | simp only [Keeps.put]
    | with_reducible refine Keeps.forEach (fun x st => ?_) ?_
    | with_reducible refine Keeps.foldl_fst (fun acc x => ?_) ?_
    | with_reducible refine Keeps.foldl (fun st x => ?_) ?_
    | split

theorem State.askReserve_keeps {t s : State} {x0 x1 x2 x3} (h : Keeps t s) : Keeps t (State.askReserve x0 x1 x2 x3 s) := by
  refine h.trans ?_
  clear h
  unfold State.askReserve
  repeat' first
    | with_reducible exact Keeps.refl _
    | with_reducible assumption
    | with_reducible refine Keeps.of_fst ?_ (by assumption)
    | with_reducible refine Keeps.ite_fst ?_ ?_
    | simp only [Keeps.put]
    | with_reducible refine State.askKey_keeps ?_
    | with_reducible refine Keeps.forEach (fun x st => ?_) ?_
    | with_reducible refine Keeps.foldl_fst (fun acc x => ?_) ?_
    | with_reducible refine Keeps.foldl (fun st x => ?_) ?_
    | split

theorem State.holdLost_keeps {t s : State} {x0 x1 x2} (h : Keeps t s) : Keeps t (State.holdLost x0 x1 x2 s) := by
  refine h.trans ?_
  clear h
  unfold State.holdLost
  repeat' first
    | with_reducible exact Keeps.refl _
    | with_reducible assumption
    | with_reducible refine Keeps.of_fst ?_ (by assumption)
    | with_reducible refine Keeps.ite_fst ?_ ?_
    | simp only [Keeps.put]
    | with_reducible refine State.countNote_keeps ?_
    | with_reducible refine Keeps.forEach (fun x st => ?_) ?_
    | with_reducible refine Keeps.foldl_fst (fun acc x => ?_) ?_
    | with_reducible refine Keeps.foldl (fun st x => ?_) ?_
    | split

theorem State.touchAdopted_keeps {t s : State} {x0 x1 x2 x3} (h : Keeps t s) : Keeps t (State.touchAdopted x0 x1 x2 x3 s) := by
  refine h.trans ?_
  clear h
  unfold State.touchAdopted
  repeat' first
    | with_reducible exact Keeps.refl _
    | with_reducible assumption
    | with_reducible refine Keeps.of_fst ?_ (by assumption)
    | with_reducible refine Keeps.ite_fst ?_ ?_
    | simp only [Keeps.put]
    | with_reducible refine Keeps.forEach (fun x st => ?_) ?_
    | with_reducible refine Keeps.foldl_fst (fun acc x => ?_) ?_
    | with_reducible refine Keeps.foldl (fun st x => ?_) ?_
    | split

theorem State.computeAdopted_keeps {t s : State} {x0 x1 x2 x3} (h : Keeps t s) : Keeps t (State.computeAdopted x0 x1 x2 x3 s) := by
  refine h.trans ?_
  clear h
  unfold State.computeAdopted
  repeat' first
    | with_reducible exact Keeps.refl _
    | with_reducible assumption
    | with_reducible refine Keeps.of_fst ?_ (by assumption)
    | with_reducible refine Keeps.ite_fst ?_ ?_
    | simp only [Keeps.put]
    | with_reducible refine State.asOf_keeps ?_
    | with_reducible refine State.holdLost_keeps ?_
    | with_reducible refine State.sendPulls_keeps ?_
    | with_reducible refine State.shadow_keeps ?_
    | with_reducible refine State.dropComp_keeps ?_
    | with_reducible refine State.addLost_keeps ?_
    | with_reducible refine State.countWords_keeps ?_
    | with_reducible refine State.countOut_keeps ?_
    | with_reducible refine State.bump_keeps ?_
    | with_reducible refine State.touchAdopted_keeps ?_
    | with_reducible refine State.launch_keeps ?_
    | with_reducible refine Keeps.forEach (fun x st => ?_) ?_
    | with_reducible refine Keeps.foldl_fst (fun acc x => ?_) ?_
    | with_reducible refine Keeps.foldl (fun st x => ?_) ?_
    | split

theorem State.sendReads_keeps {t s : State} {x0 x1 x2 x3 x4 x5} (h : Keeps t s) : Keeps t (State.sendReads x0 x1 x2 x3 x4 x5 s) := by
  refine h.trans ?_
  clear h
  unfold State.sendReads
  repeat' first
    | with_reducible exact Keeps.refl _
    | with_reducible assumption
    | with_reducible refine Keeps.of_fst ?_ (by assumption)
    | with_reducible refine Keeps.ite_fst ?_ ?_
    | simp only [Keeps.put]
    | with_reducible refine State.askPly_keeps ?_
    | with_reducible refine State.askStripe_keeps ?_
    | with_reducible refine Keeps.forEach (fun x st => ?_) ?_
    | with_reducible refine Keeps.foldl_fst (fun acc x => ?_) ?_
    | with_reducible refine Keeps.foldl (fun st x => ?_) ?_
    | split

theorem State.launchOld_keeps {t s : State} {x0 x1 x2} (h : Keeps t s) : Keeps t (State.launchOld x0 x1 x2 s) := by
  refine h.trans ?_
  clear h
  unfold State.launchOld
  repeat' first
    | with_reducible exact Keeps.refl _
    | with_reducible assumption
    | with_reducible refine Keeps.of_fst ?_ (by assumption)
    | with_reducible refine Keeps.ite_fst ?_ ?_
    | simp only [Keeps.put]
    | with_reducible refine State.launch_keeps ?_
    | with_reducible refine Keeps.forEach (fun x st => ?_) ?_
    | with_reducible refine Keeps.foldl_fst (fun acc x => ?_) ?_
    | with_reducible refine Keeps.foldl (fun st x => ?_) ?_
    | split

theorem State.encodeOld_keeps {t s : State} {x0 x1} (h : Keeps t s) : Keeps t (State.encodeOld x0 x1 s) := by
  refine h.trans ?_
  clear h
  unfold State.encodeOld
  repeat' first
    | with_reducible exact Keeps.refl _
    | with_reducible assumption
    | with_reducible refine Keeps.of_fst ?_ (by assumption)
    | with_reducible refine Keeps.ite_fst ?_ ?_
    | simp only [Keeps.put]
    | with_reducible refine State.launchOld_keeps ?_
    | with_reducible refine State.startDecode_keeps ?_
    | with_reducible refine Keeps.forEach (fun x st => ?_) ?_
    | with_reducible refine Keeps.foldl_fst (fun acc x => ?_) ?_
    | with_reducible refine Keeps.foldl (fun st x => ?_) ?_
    | split

theorem State.updComp_keeps {t s : State} {x0 x1} (h : Keeps t s) : Keeps t (State.updComp x0 x1 s) := by
  refine h.trans ?_
  clear h
  unfold State.updComp
  repeat' first
    | with_reducible exact Keeps.refl _
    | with_reducible assumption
    | with_reducible refine Keeps.of_fst ?_ (by assumption)
    | with_reducible refine Keeps.ite_fst ?_ ?_
    | simp only [Keeps.put]
    | with_reducible refine Keeps.forEach (fun x st => ?_) ?_
    | with_reducible refine Keeps.foldl_fst (fun acc x => ?_) ?_
    | with_reducible refine Keeps.foldl (fun st x => ?_) ?_
    | split

theorem State.keepDecoded_keeps {t s : State} {x0 x1 x2 x3 x4} (h : Keeps t s) : Keeps t (State.keepDecoded x0 x1 x2 x3 x4 s) := by
  refine h.trans ?_
  clear h
  unfold State.keepDecoded
  repeat' first
    | with_reducible exact Keeps.refl _
    | with_reducible assumption
    | with_reducible refine Keeps.of_fst ?_ (by assumption)
    | with_reducible refine Keeps.ite_fst ?_ ?_
    | simp only [Keeps.put]
    | with_reducible refine State.bump_keeps ?_
    | with_reducible refine State.updComp_keeps ?_
    | with_reducible refine Keeps.forEach (fun x st => ?_) ?_
    | with_reducible refine Keeps.foldl_fst (fun acc x => ?_) ?_
    | with_reducible refine Keeps.foldl (fun st x => ?_) ?_
    | split

theorem State.collect_keeps {t s : State} {x0 x1 x2 x3} (h : Keeps t s) : Keeps t (State.collect x0 x1 x2 x3 s).1 := by
  refine h.trans ?_
  clear h
  unfold State.collect
  repeat' first
    | with_reducible exact Keeps.refl _
    | with_reducible assumption
    | with_reducible refine Keeps.of_fst ?_ (by assumption)
    | with_reducible refine Keeps.ite_fst ?_ ?_
    | simp only [Keeps.put]
    | with_reducible refine State.keepDecoded_keeps ?_
    | with_reducible refine State.sendReads_keeps ?_
    | with_reducible refine Keeps.forEach (fun x st => ?_) ?_
    | with_reducible refine Keeps.foldl_fst (fun acc x => ?_) ?_
    | with_reducible refine Keeps.foldl (fun st x => ?_) ?_
    | split

theorem State.completeAtN_keeps {t s : State} {x0 x1 x2} (h : Keeps t s) : Keeps t (State.completeAtN x0 x1 x2 s) := by
  refine h.trans ?_
  clear h
  unfold State.completeAtN
  repeat' first
    | with_reducible exact Keeps.refl _
    | with_reducible assumption
    | with_reducible refine Keeps.of_fst ?_ (by assumption)
    | with_reducible refine Keeps.ite_fst ?_ ?_
    | simp only [Keeps.put]
    | with_reducible refine State.touchAdopted_keeps ?_
    | with_reducible refine State.dropComp_keeps ?_
    | with_reducible refine State.storeAdopted_keeps ?_
    | with_reducible refine State.bump_keeps ?_
    | with_reducible refine State.invalidate_keeps ?_
    | with_reducible refine Keeps.forEach (fun x st => ?_) ?_
    | with_reducible refine Keeps.foldl_fst (fun acc x => ?_) ?_
    | with_reducible refine Keeps.foldl (fun st x => ?_) ?_
    | split

theorem State.advanceTags_keeps {t s : State} {x0 x1} (h : Keeps t s) : Keeps t (State.advanceTags x0 x1 s) := by
  refine h.trans ?_
  clear h
  unfold State.advanceTags
  repeat' first
    | with_reducible exact Keeps.refl _
    | with_reducible assumption
    | with_reducible refine Keeps.of_fst ?_ (by assumption)
    | with_reducible refine Keeps.ite_fst ?_ ?_
    | simp only [Keeps.put]
    | with_reducible refine State.sendReads_keeps ?_
    | with_reducible refine State.encodeOld_keeps ?_
    | with_reducible refine State.fray_keeps ?_
    | with_reducible refine State.collect_keeps ?_
    | with_reducible refine State.holdLost_keeps ?_
    | with_reducible refine State.completeAtN_keeps ?_
    | with_reducible refine State.computeAdopted_keeps ?_
    | with_reducible refine Keeps.forEach (fun x st => ?_) ?_
    | with_reducible refine Keeps.foldl_fst (fun acc x => ?_) ?_
    | with_reducible refine Keeps.foldl (fun st x => ?_) ?_
    | split

theorem State.advanceComp_keeps {t s : State} {x0} (h : Keeps t s) : Keeps t (State.advanceComp x0 s) := by
  refine h.trans ?_
  clear h
  unfold State.advanceComp
  repeat' first
    | with_reducible exact Keeps.refl _
    | with_reducible assumption
    | with_reducible refine Keeps.of_fst ?_ (by assumption)
    | with_reducible refine Keeps.ite_fst ?_ ?_
    | simp only [Keeps.put]
    | with_reducible refine State.dropComp_keeps ?_
    | with_reducible refine State.countReread_keeps ?_
    | with_reducible refine State.askReserve_keeps ?_
    | with_reducible refine State.computeAdopted_keeps ?_
    | with_reducible refine State.addRepair_keeps ?_
    | with_reducible refine State.noteReread_keeps ?_
    | with_reducible refine State.advanceTags_keeps ?_
    | with_reducible refine Keeps.forEach (fun x st => ?_) ?_
    | with_reducible refine Keeps.foldl_fst (fun acc x => ?_) ?_
    | with_reducible refine Keeps.foldl (fun st x => ?_) ?_
    | split

theorem State.advanceComps_keeps {t s : State} (h : Keeps t s) : Keeps t (State.advanceComps s) := by
  refine h.trans ?_
  clear h
  unfold State.advanceComps
  repeat' first
    | with_reducible exact Keeps.refl _
    | with_reducible assumption
    | with_reducible refine Keeps.of_fst ?_ (by assumption)
    | with_reducible refine Keeps.ite_fst ?_ ?_
    | simp only [Keeps.put]
    | with_reducible refine State.advanceComp_keeps ?_
    | with_reducible refine Keeps.forEach (fun x st => ?_) ?_
    | with_reducible refine Keeps.foldl_fst (fun acc x => ?_) ?_
    | with_reducible refine Keeps.foldl (fun st x => ?_) ?_
    | split

theorem State.classLoss_keeps {t s : State} {x0 x1} (h : Keeps t s) : Keeps t (State.classLoss x0 x1 s) := by
  refine h.trans ?_
  clear h
  unfold State.classLoss
  repeat' first
    | with_reducible exact Keeps.refl _
    | with_reducible assumption
    | with_reducible refine Keeps.of_fst ?_ (by assumption)
    | with_reducible refine Keeps.ite_fst ?_ ?_
    | simp only [Keeps.put]
    | with_reducible refine State.bump_keeps ?_
    | with_reducible refine Keeps.forEach (fun x st => ?_) ?_
    | with_reducible refine Keeps.foldl_fst (fun acc x => ?_) ?_
    | with_reducible refine Keeps.foldl (fun st x => ?_) ?_
    | split

theorem State.classLosses_keeps {t s : State} (h : Keeps t s) : Keeps t (State.classLosses s) := by
  refine h.trans ?_
  clear h
  unfold State.classLosses
  repeat' first
    | with_reducible exact Keeps.refl _
    | with_reducible assumption
    | with_reducible refine Keeps.of_fst ?_ (by assumption)
    | with_reducible refine Keeps.ite_fst ?_ ?_
    | simp only [Keeps.put]
    | with_reducible refine State.classLoss_keeps ?_
    | with_reducible refine Keeps.forEach (fun x st => ?_) ?_
    | with_reducible refine Keeps.foldl_fst (fun acc x => ?_) ?_
    | with_reducible refine Keeps.foldl (fun st x => ?_) ?_
    | split

theorem State.completeStart_keeps {t s : State} {x0 x1 x2 x3} (h : Keeps t s) : Keeps t (State.completeStart x0 x1 x2 x3 s) := by
  refine h.trans ?_
  clear h
  unfold State.completeStart
  repeat' first
    | with_reducible exact Keeps.refl _
    | with_reducible assumption
    | with_reducible refine Keeps.of_fst ?_ (by assumption)
    | with_reducible refine Keeps.ite_fst ?_ ?_
    | simp only [Keeps.put]
    | with_reducible refine State.advanceComp_keeps ?_
    | with_reducible refine State.updComp_keeps ?_
    | with_reducible refine State.dropComp_keeps ?_
    | with_reducible refine Keeps.forEach (fun x st => ?_) ?_
    | with_reducible refine Keeps.foldl_fst (fun acc x => ?_) ?_
    | with_reducible refine Keeps.foldl (fun st x => ?_) ?_
    | split

theorem State.countLoss_keeps {t s : State} {x0 x1} (h : Keeps t s) : Keeps t (State.countLoss x0 x1 s) := by
  refine h.trans ?_
  clear h
  unfold State.countLoss
  repeat' first
    | with_reducible exact Keeps.refl _
    | with_reducible assumption
    | with_reducible refine Keeps.of_fst ?_ (by assumption)
    | with_reducible refine Keeps.ite_fst ?_ ?_
    | simp only [Keeps.put]
    | with_reducible refine State.bump_keeps ?_
    | with_reducible refine State.classLoss_keeps ?_
    | with_reducible refine Keeps.forEach (fun x st => ?_) ?_
    | with_reducible refine Keeps.foldl_fst (fun acc x => ?_) ?_
    | with_reducible refine Keeps.foldl (fun st x => ?_) ?_
    | split

theorem State.coverPosition_keeps {t s : State} {x0} (h : Keeps t s) : Keeps t (State.coverPosition x0 s) := by
  refine h.trans ?_
  clear h
  unfold State.coverPosition
  repeat' first
    | with_reducible exact Keeps.refl _
    | with_reducible assumption
    | with_reducible refine Keeps.of_fst ?_ (by assumption)
    | with_reducible refine Keeps.ite_fst ?_ ?_
    | simp only [Keeps.put]
    | with_reducible refine State.setTag_keeps ?_
    | with_reducible refine State.relayReserve_keeps ?_
    | with_reducible refine Keeps.forEach (fun x st => ?_) ?_
    | with_reducible refine Keeps.foldl_fst (fun acc x => ?_) ?_
    | with_reducible refine Keeps.foldl (fun st x => ?_) ?_
    | split

theorem State.feedComp_keeps {t s : State} {x0 x1} (h : Keeps t s) : Keeps t (State.feedComp x0 x1 s) := by
  refine h.trans ?_
  clear h
  unfold State.feedComp
  repeat' first
    | with_reducible exact Keeps.refl _
    | with_reducible assumption
    | with_reducible refine Keeps.of_fst ?_ (by assumption)
    | with_reducible refine Keeps.ite_fst ?_ ?_
    | simp only [Keeps.put]
    | with_reducible refine State.advanceComp_keeps ?_
    | with_reducible refine State.updComp_keeps ?_
    | with_reducible refine Keeps.forEach (fun x st => ?_) ?_
    | with_reducible refine Keeps.foldl_fst (fun acc x => ?_) ?_
    | with_reducible refine Keeps.foldl (fun st x => ?_) ?_
    | split

theorem State.gotOld_keeps {t s : State} {x0 x1} (h : Keeps t s) : Keeps t (State.gotOld x0 x1 s) := by
  refine h.trans ?_
  clear h
  unfold State.gotOld
  repeat' first
    | with_reducible exact Keeps.refl _
    | with_reducible assumption
    | with_reducible refine Keeps.of_fst ?_ (by assumption)
    | with_reducible refine Keeps.ite_fst ?_ ?_
    | simp only [Keeps.put]
    | with_reducible refine State.updComp_keeps ?_
    | with_reducible refine State.launchOld_keeps ?_
    | with_reducible refine Keeps.forEach (fun x st => ?_) ?_
    | with_reducible refine Keeps.foldl_fst (fun acc x => ?_) ?_
    | with_reducible refine Keeps.foldl (fun st x => ?_) ?_
    | split

theorem State.lossThreshold_keeps {t s : State} {x0} (h : Keeps t s) : Keeps t (State.lossThreshold x0 s) := by
  refine h.trans ?_
  clear h
  unfold State.lossThreshold
  repeat' first
    | with_reducible exact Keeps.refl _
    | with_reducible assumption
    | with_reducible refine Keeps.of_fst ?_ (by assumption)
    | with_reducible refine Keeps.ite_fst ?_ ?_
    | simp only [Keeps.put]
    | with_reducible refine State.sendReAnswer_keeps ?_
    | with_reducible refine Keeps.forEach (fun x st => ?_) ?_
    | with_reducible refine Keeps.foldl_fst (fun acc x => ?_) ?_
    | with_reducible refine Keeps.foldl (fun st x => ?_) ?_
    | split

theorem State.lostMaskStripe_keeps {t s : State} {x0 x1 x2 x3} (h : Keeps t s) : Keeps t (State.lostMaskStripe x0 x1 x2 x3 s).1 := by
  refine h.trans ?_
  clear h
  unfold State.lostMaskStripe
  repeat' first
    | with_reducible exact Keeps.refl _
    | with_reducible assumption
    | with_reducible refine Keeps.of_fst ?_ (by assumption)
    | with_reducible refine Keeps.ite_fst ?_ ?_
    | simp only [Keeps.put]
    | with_reducible refine State.advanceComps_keeps ?_
    | with_reducible refine Keeps.forEach (fun x st => ?_) ?_
    | with_reducible refine Keeps.foldl_fst (fun acc x => ?_) ?_
    | with_reducible refine Keeps.foldl (fun st x => ?_) ?_
    | split

theorem State.moveRoles_keeps {t s : State} {x0} (h : Keeps t s) : Keeps t (State.moveRoles x0 s) := by
  refine h.trans ?_
  clear h
  unfold State.moveRoles
  repeat' first
    | with_reducible exact Keeps.refl _
    | with_reducible assumption
    | with_reducible refine Keeps.of_fst ?_ (by assumption)
    | with_reducible refine Keeps.ite_fst ?_ ?_
    | simp only [Keeps.put]
    | with_reducible refine State.startRecomp_keeps ?_
    | with_reducible refine Keeps.forEach (fun x st => ?_) ?_
    | with_reducible refine Keeps.foldl_fst (fun acc x => ?_) ?_
    | with_reducible refine Keeps.foldl (fun st x => ?_) ?_
    | split

theorem State.suggest_keeps {t s : State} (h : Keeps t s) : Keeps t (State.suggest s) := by
  refine h.trans ?_
  clear h
  unfold State.suggest
  repeat' first
    | with_reducible exact Keeps.refl _
    | with_reducible assumption
    | with_reducible refine Keeps.of_fst ?_ (by assumption)
    | with_reducible refine Keeps.ite_fst ?_ ?_
    | simp only [Keeps.put]
    | with_reducible refine Keeps.forEach (fun x st => ?_) ?_
    | with_reducible refine Keeps.foldl_fst (fun acc x => ?_) ?_
    | with_reducible refine Keeps.foldl (fun st x => ?_) ?_
    | split

theorem State.oweRecords_keeps {t s : State} {x0} (h : Keeps t s) : Keeps t (State.oweRecords x0 s) := by
  refine h.trans ?_
  clear h
  unfold State.oweRecords
  repeat' first
    | with_reducible exact Keeps.refl _
    | with_reducible assumption
    | with_reducible refine Keeps.of_fst ?_ (by assumption)
    | with_reducible refine Keeps.ite_fst ?_ ?_
    | simp only [Keeps.put]
    | with_reducible refine Keeps.forEach (fun x st => ?_) ?_
    | with_reducible refine Keeps.foldl_fst (fun acc x => ?_) ?_
    | with_reducible refine Keeps.foldl (fun st x => ?_) ?_
    | split

theorem State.renewReports_keeps {t s : State} (h : Keeps t s) : Keeps t (State.renewReports s) := by
  refine h.trans ?_
  clear h
  unfold State.renewReports
  repeat' first
    | with_reducible exact Keeps.refl _
    | with_reducible assumption
    | with_reducible refine Keeps.of_fst ?_ (by assumption)
    | with_reducible refine Keeps.ite_fst ?_ ?_
    | simp only [Keeps.put]
    | with_reducible refine State.dropReqs_keeps ?_
    | with_reducible refine Keeps.forEach (fun x st => ?_) ?_
    | with_reducible refine Keeps.foldl_fst (fun acc x => ?_) ?_
    | with_reducible refine Keeps.foldl (fun st x => ?_) ?_
    | split

theorem State.onLosses_keeps {t s : State} {x0} (h : Keeps t s) : Keeps t (State.onLosses x0 s) := by
  refine h.trans ?_
  clear h
  unfold State.onLosses
  repeat' first
    | with_reducible exact Keeps.refl _
    | with_reducible assumption
    | with_reducible refine Keeps.of_fst ?_ (by assumption)
    | with_reducible refine Keeps.ite_fst ?_ ?_
    | simp only [Keeps.put]
    | with_reducible refine State.countLoss_keeps ?_
    | with_reducible refine State.suggest_keeps ?_
    | with_reducible refine State.fray_keeps ?_
    | with_reducible refine State.oweRecords_keeps ?_
    | with_reducible refine State.adopt_keeps ?_
    | with_reducible refine State.renewReports_keeps ?_
    | with_reducible refine State.moveRoles_keeps ?_
    | with_reducible refine Keeps.forEach (fun x st => ?_) ?_
    | with_reducible refine Keeps.foldl_fst (fun acc x => ?_) ?_
    | with_reducible refine Keeps.foldl (fun st x => ?_) ?_
    | split

theorem State.reportLost_keeps {t s : State} {x0 x1} (h : Keeps t s) : Keeps t (State.reportLost x0 x1 s) := by
  refine h.trans ?_
  clear h
  unfold State.reportLost
  repeat' first
    | with_reducible exact Keeps.refl _
    | with_reducible assumption
    | with_reducible refine Keeps.of_fst ?_ (by assumption)
    | with_reducible refine Keeps.ite_fst ?_ ?_
    | simp only [Keeps.put]
    | with_reducible refine State.countLost_keeps ?_
    | with_reducible refine State.addLost_keeps ?_
    | with_reducible refine Keeps.forEach (fun x st => ?_) ?_
    | with_reducible refine Keeps.foldl_fst (fun acc x => ?_) ?_
    | with_reducible refine Keeps.foldl (fun st x => ?_) ?_
    | split

theorem State.serveLost_keeps {t s : State} {x0 x1 x2 x3} (h : Keeps t s) : Keeps t (State.serveLost x0 x1 x2 x3 s) := by
  refine h.trans ?_
  clear h
  unfold State.serveLost
  repeat' first
    | with_reducible exact Keeps.refl _
    | with_reducible assumption
    | with_reducible refine Keeps.of_fst ?_ (by assumption)
    | with_reducible refine Keeps.ite_fst ?_ ?_
    | simp only [Keeps.put]
    | with_reducible refine State.sendReAnswer_keeps ?_
    | with_reducible refine State.sendPulls_keeps ?_
    | with_reducible refine State.spendFree_keeps ?_
    | with_reducible refine State.reportLost_keeps ?_
    | with_reducible refine Keeps.forEach (fun x st => ?_) ?_
    | with_reducible refine Keeps.foldl_fst (fun acc x => ?_) ?_
    | with_reducible refine Keeps.foldl (fun st x => ?_) ?_
    | split

theorem State.serveHeldOut_keeps {t s : State} (h : Keeps t s) : Keeps t (State.serveHeldOut s) := by
  refine h.trans ?_
  clear h
  unfold State.serveHeldOut
  repeat' first
    | with_reducible exact Keeps.refl _
    | with_reducible assumption
    | with_reducible refine Keeps.of_fst ?_ (by assumption)
    | with_reducible refine Keeps.ite_fst ?_ ?_
    | simp only [Keeps.put]
    | with_reducible refine State.serveLost_keeps ?_
    | with_reducible refine State.sendReAnswer_keeps ?_
    | with_reducible refine Keeps.forEach (fun x st => ?_) ?_
    | with_reducible refine Keeps.foldl_fst (fun acc x => ?_) ?_
    | with_reducible refine Keeps.foldl (fun st x => ?_) ?_
    | split

theorem State.onReAnswer_keeps {t s : State} {x0} (h : Keeps t s) : Keeps t (State.onReAnswer x0 s) := by
  refine h.trans ?_
  clear h
  unfold State.onReAnswer
  repeat' first
    | with_reducible exact Keeps.refl _
    | with_reducible assumption
    | with_reducible refine Keeps.of_fst ?_ (by assumption)
    | with_reducible refine Keeps.ite_fst ?_ ?_
    | simp only [Keeps.put]
    | with_reducible refine State.freeReq_keeps ?_
    | with_reducible refine State.sendPulls_keeps ?_
    | with_reducible refine State.serveHeldOut_keeps ?_
    | with_reducible refine State.advanceComps_keeps ?_
    | with_reducible refine Keeps.forEach (fun x st => ?_) ?_
    | with_reducible refine Keeps.foldl_fst (fun acc x => ?_) ?_
    | with_reducible refine Keeps.foldl (fun st x => ?_) ?_
    | split

theorem State.onReRequest_keeps {t s : State} {x0} (h : Keeps t s) : Keeps t (State.onReRequest x0 s) := by
  refine h.trans ?_
  clear h
  unfold State.onReRequest
  repeat' first
    | with_reducible exact Keeps.refl _
    | with_reducible assumption
    | with_reducible refine Keeps.of_fst ?_ (by assumption)
    | with_reducible refine Keeps.ite_fst ?_ ?_
    | simp only [Keeps.put]
    | with_reducible refine State.serveLost_keeps ?_
    | with_reducible refine State.sendReAnswer_keeps ?_
    | with_reducible refine Keeps.forEach (fun x st => ?_) ?_
    | with_reducible refine Keeps.foldl_fst (fun acc x => ?_) ?_
    | with_reducible refine Keeps.foldl (fun st x => ?_) ?_
    | split

theorem State.onReport_keeps {t s : State} {x0} (h : Keeps t s) : Keeps t (State.onReport x0 s) := by
  refine h.trans ?_
  clear h
  unfold State.onReport
  repeat' first
    | with_reducible exact Keeps.refl _
    | with_reducible assumption
    | with_reducible refine Keeps.of_fst ?_ (by assumption)
    | with_reducible refine Keeps.ite_fst ?_ ?_
    | simp only [Keeps.put]
    | with_reducible refine State.reply_keeps ?_
    | with_reducible refine Keeps.forEach (fun x st => ?_) ?_
    | with_reducible refine Keeps.foldl_fst (fun acc x => ?_) ?_
    | with_reducible refine Keeps.foldl (fun st x => ?_) ?_
    | split

theorem State.onReportAck_keeps {t s : State} {x0} (h : Keeps t s) : Keeps t (State.onReportAck x0 s) := by
  refine h.trans ?_
  clear h
  unfold State.onReportAck
  repeat' first
    | with_reducible exact Keeps.refl _
    | with_reducible assumption
    | with_reducible refine Keeps.of_fst ?_ (by assumption)
    | with_reducible refine Keeps.ite_fst ?_ ?_
    | simp only [Keeps.put]
    | with_reducible refine State.freeReq_keeps ?_
    | with_reducible refine Keeps.forEach (fun x st => ?_) ?_
    | with_reducible refine Keeps.foldl_fst (fun acc x => ?_) ?_
    | with_reducible refine Keeps.foldl (fun st x => ?_) ?_
    | split

theorem State.oweOpened_keeps {t s : State} (h : Keeps t s) : Keeps t (State.oweOpened s) := by
  refine h.trans ?_
  clear h
  unfold State.oweOpened
  repeat' first
    | with_reducible exact Keeps.refl _
    | with_reducible assumption
    | with_reducible refine Keeps.of_fst ?_ (by assumption)
    | with_reducible refine Keeps.ite_fst ?_ ?_
    | simp only [Keeps.put]
    | with_reducible refine State.oweRecords_keeps ?_
    | with_reducible refine Keeps.forEach (fun x st => ?_) ?_
    | with_reducible refine Keeps.foldl_fst (fun acc x => ?_) ?_
    | with_reducible refine Keeps.foldl (fun st x => ?_) ?_
    | split

theorem State.retryComps_keeps {t s : State} (h : Keeps t s) : Keeps t (State.retryComps s) := by
  refine h.trans ?_
  clear h
  unfold State.retryComps
  repeat' first
    | with_reducible exact Keeps.refl _
    | with_reducible assumption
    | with_reducible refine Keeps.of_fst ?_ (by assumption)
    | with_reducible refine Keeps.ite_fst ?_ ?_
    | simp only [Keeps.put]
    | with_reducible refine State.advanceComps_keeps ?_
    | with_reducible refine Keeps.forEach (fun x st => ?_) ?_
    | with_reducible refine Keeps.foldl_fst (fun acc x => ?_) ?_
    | with_reducible refine Keeps.foldl (fun st x => ?_) ?_
    | split

theorem State.sendReports_keeps {t s : State} (h : Keeps t s) : Keeps t (State.sendReports s) := by
  refine h.trans ?_
  clear h
  unfold State.sendReports
  repeat' first
    | with_reducible exact Keeps.refl _
    | with_reducible assumption
    | with_reducible refine Keeps.of_fst ?_ (by assumption)
    | with_reducible refine Keeps.ite_fst ?_ ?_
    | simp only [Keeps.put]
    | with_reducible refine State.bump_keeps ?_
    | with_reducible refine State.enqueue_keeps ?_
    | with_reducible refine Keeps.forEach (fun x st => ?_) ?_
    | with_reducible refine Keeps.foldl_fst (fun acc x => ?_) ?_
    | with_reducible refine Keeps.foldl (fun st x => ?_) ?_
    | split

end Sys2Proof.Machine
end

