-- ==== Sys2Proof/Laws/KeepsRebuild.lean ====
section
/-! SUPPORT. What the operations of Machine/Rebuild.lean keep (Keeps.lean). -/

set_option linter.unusedSimpArgs false

namespace Sys2Proof.Machine

theorem State.checkSpare_keeps {t s : State} {x0} (h : Keeps t s) : Keeps t (State.checkSpare x0 s) := by
  refine h.trans ?_
  clear h
  unfold State.checkSpare
  repeat' first
    | with_reducible exact Keeps.refl _
    | with_reducible assumption
    | with_reducible refine Keeps.of_fst ?_ (by assumption)
    | with_reducible refine Keeps.ite_fst ?_ ?_
    | simp only [Keeps.put]
    | with_reducible refine State.changed_keeps ?_
    | with_reducible refine Keeps.forEach (fun x st => ?_) ?_
    | with_reducible refine Keeps.foldl_fst (fun acc x => ?_) ?_
    | with_reducible refine Keeps.foldl (fun st x => ?_) ?_
    | split

theorem State.copyPump_keeps {t s : State} {x0} (h : Keeps t s) : Keeps t (State.copyPump x0 s) := by
  refine h.trans ?_
  clear h
  induction x0 generalizing s
  · unfold State.copyPump
    exact Keeps.refl _
  · rename_i k ih
    have ih' : ∀ {t s : State}, Keeps t s → Keeps t (State.copyPump k s) := fun h => h.trans (by apply ih)
    clear ih
    unfold State.copyPump
    repeat' first
      | with_reducible exact Keeps.refl _
      | with_reducible assumption
      | with_reducible refine Keeps.of_fst ?_ (by assumption)
      | with_reducible refine Keeps.ite_fst ?_ ?_
      | simp only [Keeps.put]
      | with_reducible refine State.askGroup_keeps ?_
      | with_reducible refine State.addRepair_keeps ?_
      | with_reducible refine State.sendFill_keeps ?_
      | with_reducible refine ih' ?_
      | with_reducible refine Keeps.forEach (fun x st => ?_) ?_
      | with_reducible refine Keeps.foldl_fst (fun acc x => ?_) ?_
      | with_reducible refine Keeps.foldl (fun st x => ?_) ?_
      | split

theorem State.copyGo_keeps {t s : State} (h : Keeps t s) : Keeps t (State.copyGo s) := by
  refine h.trans ?_
  clear h
  unfold State.copyGo
  repeat' first
    | with_reducible exact Keeps.refl _
    | with_reducible assumption
    | with_reducible refine Keeps.of_fst ?_ (by assumption)
    | with_reducible refine Keeps.ite_fst ?_ ?_
    | simp only [Keeps.put]
    | with_reducible refine State.copyPump_keeps ?_
    | with_reducible refine Keeps.forEach (fun x st => ?_) ?_
    | with_reducible refine Keeps.foldl_fst (fun acc x => ?_) ?_
    | with_reducible refine Keeps.foldl (fun st x => ?_) ?_
    | split

theorem State.copyAck_keeps {t s : State} {x0 x1 x2} (h : Keeps t s) : Keeps t (State.copyAck x0 x1 x2 s) := by
  refine h.trans ?_
  clear h
  unfold State.copyAck
  repeat' first
    | with_reducible exact Keeps.refl _
    | with_reducible assumption
    | with_reducible refine Keeps.of_fst ?_ (by assumption)
    | with_reducible refine Keeps.ite_fst ?_ ?_
    | simp only [Keeps.put]
    | with_reducible refine State.changed_keeps ?_
    | with_reducible refine State.bump_keeps ?_
    | with_reducible refine State.copyGo_keeps ?_
    | with_reducible refine Keeps.forEach (fun x st => ?_) ?_
    | with_reducible refine Keeps.foldl_fst (fun acc x => ?_) ?_
    | with_reducible refine Keeps.foldl (fun st x => ?_) ?_
    | split

theorem State.copyStart_keeps {t s : State} {x0} (h : Keeps t s) : Keeps t (State.copyStart x0 s) := by
  refine h.trans ?_
  clear h
  unfold State.copyStart
  repeat' first
    | with_reducible exact Keeps.refl _
    | with_reducible assumption
    | with_reducible refine Keeps.of_fst ?_ (by assumption)
    | with_reducible refine Keeps.ite_fst ?_ ?_
    | simp only [Keeps.put]
    | with_reducible refine State.dropReqs_keeps ?_
    | with_reducible refine State.copyGo_keeps ?_
    | with_reducible refine Keeps.forEach (fun x st => ?_) ?_
    | with_reducible refine Keeps.foldl_fst (fun acc x => ?_) ?_
    | with_reducible refine Keeps.foldl (fun st x => ?_) ?_
    | split

theorem State.setDrain_keeps {t s : State} {x0} (h : Keeps t s) : Keeps t (State.setDrain x0 s) := by
  refine h.trans ?_
  clear h
  unfold State.setDrain
  repeat' first
    | with_reducible exact Keeps.refl _
    | with_reducible assumption
    | with_reducible refine Keeps.of_fst ?_ (by assumption)
    | with_reducible refine Keeps.ite_fst ?_ ?_
    | simp only [Keeps.put]
    | with_reducible refine Keeps.forEach (fun x st => ?_) ?_
    | with_reducible refine Keeps.foldl_fst (fun acc x => ?_) ?_
    | with_reducible refine Keeps.foldl (fun st x => ?_) ?_
    | split

theorem State.drainWrite_keeps {t s : State} {x0 x1 x2 x3 x4} (h : Keeps t s) : Keeps t (State.drainWrite x0 x1 x2 x3 x4 s) := by
  refine h.trans ?_
  clear h
  unfold State.drainWrite
  repeat' first
    | with_reducible exact Keeps.refl _
    | with_reducible assumption
    | with_reducible refine Keeps.of_fst ?_ (by assumption)
    | with_reducible refine Keeps.ite_fst ?_ ?_
    | simp only [Keeps.put]
    | with_reducible refine State.request_keeps ?_
    | with_reducible refine Keeps.forEach (fun x st => ?_) ?_
    | with_reducible refine Keeps.foldl_fst (fun acc x => ?_) ?_
    | with_reducible refine Keeps.foldl (fun st x => ?_) ?_
    | split

theorem State.drainEnd_keeps {t s : State} {x0} (h : Keeps t s) : Keeps t (State.drainEnd x0 s) := by
  refine h.trans ?_
  clear h
  unfold State.drainEnd
  repeat' first
    | with_reducible exact Keeps.refl _
    | with_reducible assumption
    | with_reducible refine Keeps.of_fst ?_ (by assumption)
    | with_reducible refine Keeps.ite_fst ?_ ?_
    | simp only [Keeps.put]
    | with_reducible refine State.bump_keeps ?_
    | with_reducible refine State.setDrain_keeps ?_
    | with_reducible refine State.drainWrite_keeps ?_
    | with_reducible refine State.suggest_keeps ?_
    | with_reducible refine State.journalState_keeps ?_
    | with_reducible refine Keeps.forEach (fun x st => ?_) ?_
    | with_reducible refine Keeps.foldl_fst (fun acc x => ?_) ?_
    | with_reducible refine Keeps.foldl (fun st x => ?_) ?_
    | split

theorem State.drainMove_keeps {t s : State} {x0 x1 x2 x3 x4} (h : Keeps t s) : Keeps t (State.drainMove x0 x1 x2 x3 x4 s) := by
  refine h.trans ?_
  clear h
  unfold State.drainMove
  repeat' first
    | with_reducible exact Keeps.refl _
    | with_reducible assumption
    | with_reducible refine Keeps.of_fst ?_ (by assumption)
    | with_reducible refine Keeps.ite_fst ?_ ?_
    | simp only [Keeps.put]
    | with_reducible refine State.setDrain_keeps ?_
    | with_reducible refine State.askKey_keeps ?_
    | with_reducible refine State.addRepair_keeps ?_
    | with_reducible refine State.drainWrite_keeps ?_
    | with_reducible refine Keeps.forEach (fun x st => ?_) ?_
    | with_reducible refine Keeps.foldl_fst (fun acc x => ?_) ?_
    | with_reducible refine Keeps.foldl (fun st x => ?_) ?_
    | split

theorem State.drainPump_keeps {t s : State} {x0} (h : Keeps t s) : Keeps t (State.drainPump x0 s) := by
  refine h.trans ?_
  clear h
  induction x0 generalizing s
  · unfold State.drainPump
    exact Keeps.refl _
  · rename_i k ih
    have ih' : ∀ {t s : State}, Keeps t s → Keeps t (State.drainPump k s) := fun h => h.trans (by apply ih)
    clear ih
    unfold State.drainPump
    repeat' first
      | with_reducible exact Keeps.refl _
      | with_reducible assumption
      | with_reducible refine Keeps.of_fst ?_ (by assumption)
      | with_reducible refine Keeps.ite_fst ?_ ?_
      | simp only [Keeps.put]
      | with_reducible refine State.drainMove_keeps ?_
      | with_reducible refine ih' ?_
      | with_reducible refine Keeps.forEach (fun x st => ?_) ?_
      | with_reducible refine Keeps.foldl_fst (fun acc x => ?_) ?_
      | with_reducible refine Keeps.foldl (fun st x => ?_) ?_
      | split

theorem State.drainGo_keeps {t s : State} (h : Keeps t s) : Keeps t (State.drainGo s) := by
  refine h.trans ?_
  clear h
  unfold State.drainGo
  repeat' first
    | with_reducible exact Keeps.refl _
    | with_reducible assumption
    | with_reducible refine Keeps.of_fst ?_ (by assumption)
    | with_reducible refine Keeps.ite_fst ?_ ?_
    | simp only [Keeps.put]
    | with_reducible refine State.addRepair_keeps ?_
    | with_reducible refine State.drainPump_keeps ?_
    | with_reducible refine State.drainEnd_keeps ?_
    | with_reducible refine Keeps.forEach (fun x st => ?_) ?_
    | with_reducible refine Keeps.foldl_fst (fun acc x => ?_) ?_
    | with_reducible refine Keeps.foldl (fun st x => ?_) ?_
    | split

theorem State.drainAnswer_keeps {t s : State} {x0} (h : Keeps t s) : Keeps t (State.drainAnswer x0 s) := by
  refine h.trans ?_
  clear h
  unfold State.drainAnswer
  repeat' first
    | with_reducible exact Keeps.refl _
    | with_reducible assumption
    | with_reducible refine Keeps.of_fst ?_ (by assumption)
    | with_reducible refine Keeps.ite_fst ?_ ?_
    | simp only [Keeps.put]
    | with_reducible refine State.setDrain_keeps ?_
    | with_reducible refine State.drainEnd_keeps ?_
    | with_reducible refine State.drainGo_keeps ?_
    | with_reducible refine Keeps.forEach (fun x st => ?_) ?_
    | with_reducible refine Keeps.foldl_fst (fun acc x => ?_) ?_
    | with_reducible refine Keeps.foldl (fun st x => ?_) ?_
    | split

theorem State.drainOpen_keeps {t s : State} {x0} (h : Keeps t s) : Keeps t (State.drainOpen x0 s) := by
  refine h.trans ?_
  clear h
  unfold State.drainOpen
  repeat' first
    | with_reducible exact Keeps.refl _
    | with_reducible assumption
    | with_reducible refine Keeps.of_fst ?_ (by assumption)
    | with_reducible refine Keeps.ite_fst ?_ ?_
    | simp only [Keeps.put]
    | with_reducible refine State.countNote_keeps ?_
    | with_reducible refine State.setDrain_keeps ?_
    | with_reducible refine State.drainWrite_keeps ?_
    | with_reducible refine State.drainGo_keeps ?_
    | with_reducible refine Keeps.forEach (fun x st => ?_) ?_
    | with_reducible refine Keeps.foldl_fst (fun acc x => ?_) ?_
    | with_reducible refine Keeps.foldl (fun st x => ?_) ?_
    | split

theorem State.evacAck_keeps {t s : State} {x0 x1 x2} (h : Keeps t s) : Keeps t (State.evacAck x0 x1 x2 s) := by
  refine h.trans ?_
  clear h
  unfold State.evacAck
  repeat' first
    | with_reducible exact Keeps.refl _
    | with_reducible assumption
    | with_reducible refine Keeps.of_fst ?_ (by assumption)
    | with_reducible refine Keeps.ite_fst ?_ ?_
    | simp only [Keeps.put]
    | with_reducible refine State.changed_keeps ?_
    | with_reducible refine Keeps.forEach (fun x st => ?_) ?_
    | with_reducible refine Keeps.foldl_fst (fun acc x => ?_) ?_
    | with_reducible refine Keeps.foldl (fun st x => ?_) ?_
    | split

theorem State.evacStart_keeps {t s : State} {x0} (h : Keeps t s) : Keeps t (State.evacStart x0 s) := by
  refine h.trans ?_
  clear h
  unfold State.evacStart
  repeat' first
    | with_reducible exact Keeps.refl _
    | with_reducible assumption
    | with_reducible refine Keeps.of_fst ?_ (by assumption)
    | with_reducible refine Keeps.ite_fst ?_ ?_
    | simp only [Keeps.put]
    | with_reducible refine State.changed_keeps ?_
    | with_reducible refine Keeps.forEach (fun x st => ?_) ?_
    | with_reducible refine Keeps.foldl_fst (fun acc x => ?_) ?_
    | with_reducible refine Keeps.foldl (fun st x => ?_) ?_
    | split

theorem State.onFillAck_keeps {t s : State} {x0} (h : Keeps t s) : Keeps t (State.onFillAck x0 s) := by
  refine h.trans ?_
  clear h
  unfold State.onFillAck
  repeat' first
    | with_reducible exact Keeps.refl _
    | with_reducible assumption
    | with_reducible refine Keeps.of_fst ?_ (by assumption)
    | with_reducible refine Keeps.ite_fst ?_ ?_
    | simp only [Keeps.put]
    | with_reducible refine State.freeReq_keeps ?_
    | with_reducible refine State.evacAck_keeps ?_
    | with_reducible refine State.copyAck_keeps ?_
    | with_reducible refine State.copyGo_keeps ?_
    | with_reducible refine Keeps.forEach (fun x st => ?_) ?_
    | with_reducible refine Keeps.foldl_fst (fun acc x => ?_) ?_
    | with_reducible refine Keeps.foldl (fun st x => ?_) ?_
    | split

theorem State.onFillSet_keeps {t s : State} {x0} (h : Keeps t s) : Keeps t (State.onFillSet x0 s) := by
  refine h.trans ?_
  clear h
  unfold State.onFillSet
  repeat' first
    | with_reducible exact Keeps.refl _
    | with_reducible assumption
    | with_reducible refine Keeps.of_fst ?_ (by assumption)
    | with_reducible refine Keeps.ite_fst ?_ ?_
    | simp only [Keeps.put]
    | with_reducible refine State.reply_keeps ?_
    | with_reducible refine State.invalidate_keeps ?_
    | with_reducible refine State.writeGroup_keeps ?_
    | with_reducible refine State.clearKey_keeps ?_
    | with_reducible refine State.checkSpare_keeps ?_
    | with_reducible refine State.bump_keeps ?_
    | with_reducible refine Keeps.forEach (fun x st => ?_) ?_
    | with_reducible refine Keeps.foldl_fst (fun acc x => ?_) ?_
    | with_reducible refine Keeps.foldl (fun st x => ?_) ?_
    | split

theorem State.retryFills_keeps {t s : State} (h : Keeps t s) : Keeps t (State.retryFills s) := by
  refine h.trans ?_
  clear h
  unfold State.retryFills
  repeat' first
    | with_reducible exact Keeps.refl _
    | with_reducible assumption
    | with_reducible refine Keeps.of_fst ?_ (by assumption)
    | with_reducible refine Keeps.ite_fst ?_ ?_
    | simp only [Keeps.put]
    | with_reducible refine State.onFillSet_keeps ?_
    | with_reducible refine Keeps.forEach (fun x st => ?_) ?_
    | with_reducible refine Keeps.foldl_fst (fun acc x => ?_) ?_
    | with_reducible refine Keeps.foldl (fun st x => ?_) ?_
    | split

end Sys2Proof.Machine
end

