-- ==== Sys2Proof/Laws/KeepsMembership.lean ====
section
/-! SUPPORT. What the operations of Machine/Membership.lean keep (Keeps.lean). -/

set_option linter.unusedSimpArgs false

namespace Sys2Proof.Machine

theorem State.afterEpoch_keeps {t s : State} {x0} (h : Keeps t s) : Keeps t (State.afterEpoch x0 s) := by
  refine h.trans ?_
  clear h
  unfold State.afterEpoch
  repeat' first
    | with_reducible exact Keeps.refl _
    | with_reducible assumption
    | with_reducible refine Keeps.of_fst ?_ (by assumption)
    | with_reducible refine Keeps.ite_fst ?_ ?_
    | simp only [Keeps.put]
    | with_reducible refine State.onLosses_keeps ?_
    | with_reducible refine State.resendAll_keeps ?_
    | with_reducible refine State.serveHeldOut_keeps ?_
    | with_reducible refine State.advanceComps_keeps ?_
    | with_reducible refine State.releaseReads_keeps ?_
    | with_reducible refine State.releaseSets_keeps ?_
    | with_reducible refine Keeps.forEach (fun x st => ?_) ?_
    | with_reducible refine Keeps.foldl_fst (fun acc x => ?_) ?_
    | with_reducible refine Keeps.foldl (fun st x => ?_) ?_
    | split

theorem State.answerHello_keeps {t s : State} {x0} (h : Keeps t s) : Keeps t (State.answerHello x0 s) := by
  refine h.trans ?_
  clear h
  unfold State.answerHello
  repeat' first
    | with_reducible exact Keeps.refl _
    | with_reducible assumption
    | with_reducible refine Keeps.of_fst ?_ (by assumption)
    | with_reducible refine Keeps.ite_fst ?_ ?_
    | simp only [Keeps.put]
    | with_reducible refine State.sendHello_keeps ?_
    | with_reducible refine Keeps.forEach (fun x st => ?_) ?_
    | with_reducible refine Keeps.foldl_fst (fun acc x => ?_) ?_
    | with_reducible refine Keeps.foldl (fun st x => ?_) ?_
    | split

theorem State.dropAwaited_keeps {t s : State} (h : Keeps t s) : Keeps t (State.dropAwaited s) := by
  refine h.trans ?_
  clear h
  unfold State.dropAwaited
  repeat' first
    | with_reducible exact Keeps.refl _
    | with_reducible assumption
    | with_reducible refine Keeps.of_fst ?_ (by assumption)
    | with_reducible refine Keeps.ite_fst ?_ ?_
    | simp only [Keeps.put]
    | with_reducible refine Keeps.forEach (fun x st => ?_) ?_
    | with_reducible refine Keeps.foldl_fst (fun acc x => ?_) ?_
    | with_reducible refine Keeps.foldl (fun st x => ?_) ?_
    | split

theorem State.vacatePass_keeps {t s : State} (h : Keeps t s) : Keeps t (State.vacatePass s) := by
  refine h.trans ?_
  clear h
  unfold State.vacatePass
  repeat' first
    | with_reducible exact Keeps.refl _
    | with_reducible assumption
    | with_reducible refine Keeps.of_fst ?_ (by assumption)
    | with_reducible refine Keeps.ite_fst ?_ ?_
    | simp only [Keeps.put]
    | with_reducible refine State.sendMgmt_keeps ?_
    | with_reducible refine Keeps.forEach (fun x st => ?_) ?_
    | with_reducible refine Keeps.foldl_fst (fun acc x => ?_) ?_
    | with_reducible refine Keeps.foldl (fun st x => ?_) ?_
    | split

theorem State.fencedEpoch_keeps {t s : State} {x0} (h : Keeps t s) : Keeps t (State.fencedEpoch x0 s) := by
  refine h.trans ?_
  clear h
  unfold State.fencedEpoch
  repeat' first
    | with_reducible exact Keeps.refl _
    | with_reducible assumption
    | with_reducible refine Keeps.of_fst ?_ (by assumption)
    | with_reducible refine Keeps.ite_fst ?_ ?_
    | simp only [Keeps.put]
    | with_reducible refine State.suggest_keeps ?_
    | with_reducible refine State.countLoss_keeps ?_
    | with_reducible refine State.releaseReads_keeps ?_
    | with_reducible refine State.releaseSets_keeps ?_
    | with_reducible refine Keeps.forEach (fun x st => ?_) ?_
    | with_reducible refine Keeps.foldl_fst (fun acc x => ?_) ?_
    | with_reducible refine Keeps.foldl (fun st x => ?_) ?_
    | split

theorem State.recodeEnd_keeps {t s : State} (h : Keeps t s) : Keeps t (State.recodeEnd s) := by
  refine h.trans ?_
  clear h
  unfold State.recodeEnd
  repeat' first
    | with_reducible exact Keeps.refl _
    | with_reducible assumption
    | with_reducible refine Keeps.of_fst ?_ (by assumption)
    | with_reducible refine Keeps.ite_fst ?_ ?_
    | simp only [Keeps.put]
    | with_reducible refine State.setMemState_keeps ?_
    | with_reducible refine State.bump_keeps ?_
    | with_reducible refine Keeps.forEach (fun x st => ?_) ?_
    | with_reducible refine Keeps.foldl_fst (fun acc x => ?_) ?_
    | with_reducible refine Keeps.foldl (fun st x => ?_) ?_
    | split

theorem State.applyEpoch_keeps {t s : State} {x0 x1 x2} (h : Keeps t s) : Keeps t (State.applyEpoch x0 x1 x2 s) := by
  refine h.trans ?_
  clear h
  unfold State.applyEpoch
  repeat' first
    | with_reducible exact Keeps.refl _
    | with_reducible assumption
    | with_reducible refine Keeps.of_fst ?_ (by assumption)
    | with_reducible refine Keeps.ite_fst ?_ ?_
    | simp only [Keeps.put]
    | with_reducible refine State.changed_keeps ?_
    | with_reducible refine State.bump_keeps ?_
    | with_reducible refine State.dropAwaited_keeps ?_
    | with_reducible refine State.vacatePass_keeps ?_
    | with_reducible refine State.fence_keeps ?_
    | with_reducible refine State.fencedEpoch_keeps ?_
    | with_reducible refine State.recodeEnd_keeps ?_
    | with_reducible refine State.afterEpoch_keeps ?_
    | with_reducible refine Keeps.forEach (fun x st => ?_) ?_
    | with_reducible refine Keeps.foldl_fst (fun acc x => ?_) ?_
    | with_reducible refine Keeps.foldl (fun st x => ?_) ?_
    | split

theorem State.askRecords_keeps {t s : State} {x0} (h : Keeps t s) : Keeps t (State.askRecords x0 s) := by
  refine h.trans ?_
  clear h
  unfold State.askRecords
  repeat' first
    | with_reducible exact Keeps.refl _
    | with_reducible assumption
    | with_reducible refine Keeps.of_fst ?_ (by assumption)
    | with_reducible refine Keeps.ite_fst ?_ ?_
    | simp only [Keeps.put]
    | with_reducible refine State.request_keeps ?_
    | with_reducible refine Keeps.forEach (fun x st => ?_) ?_
    | with_reducible refine Keeps.foldl_fst (fun acc x => ?_) ?_
    | with_reducible refine Keeps.foldl (fun st x => ?_) ?_
    | split

theorem State.catchUpEnd_keeps {t s : State} (h : Keeps t s) : Keeps t (State.catchUpEnd s) := by
  refine h.trans ?_
  clear h
  unfold State.catchUpEnd
  repeat' first
    | with_reducible exact Keeps.refl _
    | with_reducible assumption
    | with_reducible refine Keeps.of_fst ?_ (by assumption)
    | with_reducible refine Keeps.ite_fst ?_ ?_
    | simp only [Keeps.put]
    | with_reducible refine State.fence_keeps ?_
    | with_reducible refine Keeps.forEach (fun x st => ?_) ?_
    | with_reducible refine Keeps.foldl_fst (fun acc x => ?_) ?_
    | with_reducible refine Keeps.foldl (fun st x => ?_) ?_
    | split

theorem State.countVotes_keeps {t s : State} (h : Keeps t s) : Keeps t (State.countVotes s) := by
  refine h.trans ?_
  clear h
  unfold State.countVotes
  repeat' first
    | with_reducible exact Keeps.refl _
    | with_reducible assumption
    | with_reducible refine Keeps.of_fst ?_ (by assumption)
    | with_reducible refine Keeps.ite_fst ?_ ?_
    | simp only [Keeps.put]
    | with_reducible refine State.applyEpoch_keeps ?_
    | with_reducible refine Keeps.forEach (fun x st => ?_) ?_
    | with_reducible refine Keeps.foldl_fst (fun acc x => ?_) ?_
    | with_reducible refine Keeps.foldl (fun st x => ?_) ?_
    | split

theorem State.discover_keeps {t s : State} {x0} (h : Keeps t s) : Keeps t (State.discover x0 s) := by
  refine h.trans ?_
  clear h
  unfold State.discover
  repeat' first
    | with_reducible exact Keeps.refl _
    | with_reducible assumption
    | with_reducible refine Keeps.of_fst ?_ (by assumption)
    | with_reducible refine Keeps.ite_fst ?_ ?_
    | simp only [Keeps.put]
    | with_reducible refine Keeps.forEach (fun x st => ?_) ?_
    | with_reducible refine Keeps.foldl_fst (fun acc x => ?_) ?_
    | with_reducible refine Keeps.foldl (fun st x => ?_) ?_
    | split

theorem State.freeAsked_keeps {t s : State} {x0} (h : Keeps t s) : Keeps t (State.freeAsked x0 s) := by
  refine h.trans ?_
  clear h
  unfold State.freeAsked
  repeat' first
    | with_reducible exact Keeps.refl _
    | with_reducible assumption
    | with_reducible refine Keeps.of_fst ?_ (by assumption)
    | with_reducible refine Keeps.ite_fst ?_ ?_
    | simp only [Keeps.put]
    | with_reducible refine State.freeReq_keeps ?_
    | with_reducible refine Keeps.forEach (fun x st => ?_) ?_
    | with_reducible refine Keeps.foldl_fst (fun acc x => ?_) ?_
    | with_reducible refine Keeps.foldl (fun st x => ?_) ?_
    | split

theorem State.sendVote_keeps {t s : State} {x0 x1} (h : Keeps t s) : Keeps t (State.sendVote x0 x1 s) := by
  refine h.trans ?_
  clear h
  unfold State.sendVote
  repeat' first
    | with_reducible exact Keeps.refl _
    | with_reducible assumption
    | with_reducible refine Keeps.of_fst ?_ (by assumption)
    | with_reducible refine Keeps.ite_fst ?_ ?_
    | simp only [Keeps.put]
    | with_reducible refine State.sendMgmt_keeps ?_
    | with_reducible refine State.bump_keeps ?_
    | with_reducible refine Keeps.forEach (fun x st => ?_) ?_
    | with_reducible refine Keeps.foldl_fst (fun acc x => ?_) ?_
    | with_reducible refine Keeps.foldl (fun st x => ?_) ?_
    | split

theorem State.resendVotes_keeps {t s : State} (h : Keeps t s) : Keeps t (State.resendVotes s) := by
  refine h.trans ?_
  clear h
  unfold State.resendVotes
  repeat' first
    | with_reducible exact Keeps.refl _
    | with_reducible assumption
    | with_reducible refine Keeps.of_fst ?_ (by assumption)
    | with_reducible refine Keeps.ite_fst ?_ ?_
    | simp only [Keeps.put]
    | with_reducible refine State.sendVote_keeps ?_
    | with_reducible refine Keeps.forEach (fun x st => ?_) ?_
    | with_reducible refine Keeps.foldl_fst (fun acc x => ?_) ?_
    | with_reducible refine Keeps.foldl (fun st x => ?_) ?_
    | split

theorem State.heartPeriod_keeps {t s : State} (h : Keeps t s) : Keeps t (State.heartPeriod s) := by
  refine h.trans ?_
  clear h
  unfold State.heartPeriod
  repeat' first
    | with_reducible exact Keeps.refl _
    | with_reducible assumption
    | with_reducible refine Keeps.of_fst ?_ (by assumption)
    | with_reducible refine Keeps.ite_fst ?_ ?_
    | simp only [Keeps.put]
    | with_reducible refine State.sendMgmt_keeps ?_
    | with_reducible refine State.resendVotes_keeps ?_
    | with_reducible refine State.askRecords_keeps ?_
    | with_reducible refine State.askRecomp_keeps ?_
    | with_reducible refine State.retryComps_keeps ?_
    | with_reducible refine Keeps.forEach (fun x st => ?_) ?_
    | with_reducible refine Keeps.foldl_fst (fun acc x => ?_) ?_
    | with_reducible refine Keeps.foldl (fun st x => ?_) ?_
    | split

theorem State.helloTick_keeps {t s : State} (h : Keeps t s) : Keeps t (State.helloTick s) := by
  refine h.trans ?_
  clear h
  unfold State.helloTick
  repeat' first
    | with_reducible exact Keeps.refl _
    | with_reducible assumption
    | with_reducible refine Keeps.of_fst ?_ (by assumption)
    | with_reducible refine Keeps.ite_fst ?_ ?_
    | simp only [Keeps.put]
    | with_reducible refine State.sendHello_keeps ?_
    | with_reducible refine State.sendMgmt_keeps ?_
    | with_reducible refine Keeps.forEach (fun x st => ?_) ?_
    | with_reducible refine Keeps.foldl_fst (fun acc x => ?_) ?_
    | with_reducible refine Keeps.foldl (fun st x => ?_) ?_
    | split

theorem State.onAccepted_keeps {t s : State} {x0} (h : Keeps t s) : Keeps t (State.onAccepted x0 s) := by
  refine h.trans ?_
  clear h
  unfold State.onAccepted
  repeat' first
    | with_reducible exact Keeps.refl _
    | with_reducible assumption
    | with_reducible refine Keeps.of_fst ?_ (by assumption)
    | with_reducible refine Keeps.ite_fst ?_ ?_
    | simp only [Keeps.put]
    | with_reducible refine State.askRecords_keeps ?_
    | with_reducible refine Keeps.forEach (fun x st => ?_) ?_
    | with_reducible refine Keeps.foldl_fst (fun acc x => ?_) ?_
    | with_reducible refine Keeps.foldl (fun st x => ?_) ?_
    | split

theorem State.onEpochRecord_keeps {t s : State} {x0} (h : Keeps t s) : Keeps t (State.onEpochRecord x0 s) := by
  refine h.trans ?_
  clear h
  unfold State.onEpochRecord
  repeat' first
    | with_reducible exact Keeps.refl _
    | with_reducible assumption
    | with_reducible refine Keeps.of_fst ?_ (by assumption)
    | with_reducible refine Keeps.ite_fst ?_ ?_
    | simp only [Keeps.put]
    | with_reducible refine State.freeAsked_keeps ?_
    | with_reducible refine State.applyEpoch_keeps ?_
    | with_reducible refine Keeps.forEach (fun x st => ?_) ?_
    | with_reducible refine Keeps.foldl_fst (fun acc x => ?_) ?_
    | with_reducible refine Keeps.foldl (fun st x => ?_) ?_
    | split

theorem State.sendRecords_keeps {t s : State} {x0 x1 x2} (h : Keeps t s) : Keeps t (State.sendRecords x0 x1 x2 s) := by
  refine h.trans ?_
  clear h
  unfold State.sendRecords
  repeat' first
    | with_reducible exact Keeps.refl _
    | with_reducible assumption
    | with_reducible refine Keeps.of_fst ?_ (by assumption)
    | with_reducible refine Keeps.ite_fst ?_ ?_
    | simp only [Keeps.put]
    | with_reducible refine State.post_keeps ?_
    | with_reducible refine Keeps.forEach (fun x st => ?_) ?_
    | with_reducible refine Keeps.foldl_fst (fun acc x => ?_) ?_
    | with_reducible refine Keeps.foldl (fun st x => ?_) ?_
    | split

theorem State.onEpochRequest_keeps {t s : State} {x0} (h : Keeps t s) : Keeps t (State.onEpochRequest x0 s) := by
  refine h.trans ?_
  clear h
  unfold State.onEpochRequest
  repeat' first
    | with_reducible exact Keeps.refl _
    | with_reducible assumption
    | with_reducible refine Keeps.of_fst ?_ (by assumption)
    | with_reducible refine Keeps.ite_fst ?_ ?_
    | simp only [Keeps.put]
    | with_reducible refine State.sendRecords_keeps ?_
    | with_reducible refine Keeps.forEach (fun x st => ?_) ?_
    | with_reducible refine Keeps.foldl_fst (fun acc x => ?_) ?_
    | with_reducible refine Keeps.foldl (fun st x => ?_) ?_
    | split

theorem State.onHeartbeat_keeps {t s : State} {x0} (h : Keeps t s) : Keeps t (State.onHeartbeat x0 s) := by
  refine h.trans ?_
  clear h
  unfold State.onHeartbeat
  repeat' first
    | with_reducible exact Keeps.refl _
    | with_reducible assumption
    | with_reducible refine Keeps.of_fst ?_ (by assumption)
    | with_reducible refine Keeps.ite_fst ?_ ?_
    | simp only [Keeps.put]
    | with_reducible refine Keeps.forEach (fun x st => ?_) ?_
    | with_reducible refine Keeps.foldl_fst (fun acc x => ?_) ?_
    | with_reducible refine Keeps.foldl (fun st x => ?_) ?_
    | split

theorem State.onHello_keeps {t s : State} {x0} (h : Keeps t s) : Keeps t (State.onHello x0 s) := by
  refine h.trans ?_
  clear h
  unfold State.onHello
  repeat' first
    | with_reducible exact Keeps.refl _
    | with_reducible assumption
    | with_reducible refine Keeps.of_fst ?_ (by assumption)
    | with_reducible refine Keeps.ite_fst ?_ ?_
    | simp only [Keeps.put]
    | with_reducible refine State.bump_keeps ?_
    | with_reducible refine State.countNote_keeps ?_
    | with_reducible refine State.answerHello_keeps ?_
    | with_reducible refine State.sendRecords_keeps ?_
    | with_reducible refine State.askRecords_keeps ?_
    | with_reducible refine State.discover_keeps ?_
    | with_reducible refine Keeps.forEach (fun x st => ?_) ?_
    | with_reducible refine Keeps.foldl_fst (fun acc x => ?_) ?_
    | with_reducible refine Keeps.foldl (fun st x => ?_) ?_
    | split

theorem State.onProposal_keeps {t s : State} {x0} (h : Keeps t s) : Keeps t (State.onProposal x0 s).1 := by
  refine h.trans ?_
  clear h
  unfold State.onProposal
  repeat' first
    | with_reducible exact Keeps.refl _
    | with_reducible assumption
    | with_reducible refine Keeps.of_fst ?_ (by assumption)
    | with_reducible refine Keeps.ite_fst ?_ ?_
    | simp only [Keeps.put]
    | with_reducible refine State.countNote_keeps ?_
    | with_reducible refine State.bump_keeps ?_
    | with_reducible refine State.sendVote_keeps ?_
    | with_reducible refine State.countVotes_keeps ?_
    | with_reducible refine Keeps.forEach (fun x st => ?_) ?_
    | with_reducible refine Keeps.foldl_fst (fun acc x => ?_) ?_
    | with_reducible refine Keeps.foldl (fun st x => ?_) ?_
    | split

theorem State.onRecoded_keeps {t s : State} {x0} (h : Keeps t s) : Keeps t (State.onRecoded x0 s) := by
  refine h.trans ?_
  clear h
  unfold State.onRecoded
  repeat' first
    | with_reducible exact Keeps.refl _
    | with_reducible assumption
    | with_reducible refine Keeps.of_fst ?_ (by assumption)
    | with_reducible refine Keeps.ite_fst ?_ ?_
    | simp only [Keeps.put]
    | with_reducible refine State.recodeEnd_keeps ?_
    | with_reducible refine Keeps.forEach (fun x st => ?_) ?_
    | with_reducible refine Keeps.foldl_fst (fun acc x => ?_) ?_
    | with_reducible refine Keeps.foldl (fun st x => ?_) ?_
    | split

theorem State.onVacate_keeps {t s : State} {x0} (h : Keeps t s) : Keeps t (State.onVacate x0 s) := by
  refine h.trans ?_
  clear h
  unfold State.onVacate
  repeat' first
    | with_reducible exact Keeps.refl _
    | with_reducible assumption
    | with_reducible refine Keeps.of_fst ?_ (by assumption)
    | with_reducible refine Keeps.ite_fst ?_ ?_
    | simp only [Keeps.put]
    | with_reducible refine State.vacatePass_keeps ?_
    | with_reducible refine Keeps.forEach (fun x st => ?_) ?_
    | with_reducible refine Keeps.foldl_fst (fun acc x => ?_) ?_
    | with_reducible refine Keeps.foldl (fun st x => ?_) ?_
    | split

theorem State.vacateFinish_keeps {t s : State} (h : Keeps t s) : Keeps t (State.vacateFinish s) := by
  refine h.trans ?_
  clear h
  unfold State.vacateFinish
  repeat' first
    | with_reducible exact Keeps.refl _
    | with_reducible assumption
    | with_reducible refine Keeps.of_fst ?_ (by assumption)
    | with_reducible refine Keeps.ite_fst ?_ ?_
    | simp only [Keeps.put]
    | with_reducible refine State.setMemState_keeps ?_
    | with_reducible refine State.bump_keeps ?_
    | with_reducible refine State.endFenceLevel_keeps ?_
    | with_reducible refine Keeps.forEach (fun x st => ?_) ?_
    | with_reducible refine Keeps.foldl_fst (fun acc x => ?_) ?_
    | with_reducible refine Keeps.foldl (fun st x => ?_) ?_
    | split

theorem State.onVacateAck_keeps {t s : State} {x0} (h : Keeps t s) : Keeps t (State.onVacateAck x0 s) := by
  refine h.trans ?_
  clear h
  unfold State.onVacateAck
  repeat' first
    | with_reducible exact Keeps.refl _
    | with_reducible assumption
    | with_reducible refine Keeps.of_fst ?_ (by assumption)
    | with_reducible refine Keeps.ite_fst ?_ ?_
    | simp only [Keeps.put]
    | with_reducible refine State.vacateFinish_keeps ?_
    | with_reducible refine Keeps.forEach (fun x st => ?_) ?_
    | with_reducible refine Keeps.foldl_fst (fun acc x => ?_) ?_
    | with_reducible refine Keeps.foldl (fun st x => ?_) ?_
    | split

theorem State.onVote_keeps {t s : State} {x0} (h : Keeps t s) : Keeps t (State.onVote x0 s) := by
  refine h.trans ?_
  clear h
  unfold State.onVote
  repeat' first
    | with_reducible exact Keeps.refl _
    | with_reducible assumption
    | with_reducible refine Keeps.of_fst ?_ (by assumption)
    | with_reducible refine Keeps.ite_fst ?_ ?_
    | simp only [Keeps.put]
    | with_reducible refine State.bump_keeps ?_
    | with_reducible refine State.countVotes_keeps ?_
    | with_reducible refine Keeps.forEach (fun x st => ?_) ?_
    | with_reducible refine Keeps.foldl_fst (fun acc x => ?_) ?_
    | with_reducible refine Keeps.foldl (fun st x => ?_) ?_
    | split

theorem State.recodePass_keeps {t s : State} (h : Keeps t s) : Keeps t (State.recodePass s) := by
  refine h.trans ?_
  clear h
  unfold State.recodePass
  repeat' first
    | with_reducible exact Keeps.refl _
    | with_reducible assumption
    | with_reducible refine Keeps.of_fst ?_ (by assumption)
    | with_reducible refine Keeps.ite_fst ?_ ?_
    | simp only [Keeps.put]
    | with_reducible refine State.sendMgmt_keeps ?_
    | with_reducible refine State.recodeEnd_keeps ?_
    | with_reducible refine Keeps.forEach (fun x st => ?_) ?_
    | with_reducible refine Keeps.foldl_fst (fun acc x => ?_) ?_
    | with_reducible refine Keeps.foldl (fun st x => ?_) ?_
    | split

theorem State.suspect_keeps {t s : State} {x0} (h : Keeps t s) : Keeps t (State.suspect x0 s) := by
  refine h.trans ?_
  clear h
  unfold State.suspect
  repeat' first
    | with_reducible exact Keeps.refl _
    | with_reducible assumption
    | with_reducible refine Keeps.of_fst ?_ (by assumption)
    | with_reducible refine Keeps.ite_fst ?_ ?_
    | simp only [Keeps.put]
    | with_reducible refine State.countNote_keeps ?_
    | with_reducible refine Keeps.forEach (fun x st => ?_) ?_
    | with_reducible refine Keeps.foldl_fst (fun acc x => ?_) ?_
    | with_reducible refine Keeps.foldl (fun st x => ?_) ?_
    | split

theorem State.vacateStart_keeps {t s : State} {x0} (h : Keeps t s) : Keeps t (State.vacateStart x0 s) := by
  refine h.trans ?_
  clear h
  unfold State.vacateStart
  repeat' first
    | with_reducible exact Keeps.refl _
    | with_reducible assumption
    | with_reducible refine Keeps.of_fst ?_ (by assumption)
    | with_reducible refine Keeps.ite_fst ?_ ?_
    | simp only [Keeps.put]
    | with_reducible refine State.sendMgmt_keeps ?_
    | with_reducible refine State.setMemState_keeps ?_
    | with_reducible refine Keeps.forEach (fun x st => ?_) ?_
    | with_reducible refine Keeps.foldl_fst (fun acc x => ?_) ?_
    | with_reducible refine Keeps.foldl (fun st x => ?_) ?_
    | split

end Sys2Proof.Machine
end

