-- ==== Sys2Proof/Laws/KeepsLedger.lean ====
section
/-! SUPPORT. What the operations of Machine/Ledger.lean keep (Keeps.lean). -/

set_option linter.unusedSimpArgs false

namespace Sys2Proof.Machine

theorem State.askImage_keeps {t s : State} {x0 x1 x2 x3} (h : Keeps t s) : Keeps t (State.askImage x0 x1 x2 x3 s) := by
  refine h.trans ?_
  clear h
  unfold State.askImage
  repeat' first
    | with_reducible exact Keeps.refl _
    | with_reducible assumption
    | with_reducible refine Keeps.of_fst ?_ (by assumption)
    | with_reducible refine Keeps.ite_fst ?_ ?_
    | simp only [Keeps.put]
    | with_reducible refine State.request_keeps ?_
    | with_reducible refine Keeps.forEach (fun x st => ?_) ?_
    | with_reducible refine Keeps.foldl_fst (fun acc x => ?_) ?_
    | with_reducible refine Keeps.foldl (fun st x => ?_) ?_
    | split

theorem State.recordMac_keeps {t s : State} {x1} (h : Keeps t s) : Keeps t (State.recordMac s x1).1 := by
  refine h.trans ?_
  clear h
  unfold State.recordMac
  repeat' first
    | with_reducible exact Keeps.refl _
    | with_reducible assumption
    | with_reducible refine Keeps.of_fst ?_ (by assumption)
    | with_reducible refine Keeps.ite_fst ?_ ?_
    | simp only [Keeps.put]
    | with_reducible refine State.spendFree_keeps ?_
    | with_reducible refine Keeps.forEach (fun x st => ?_) ?_
    | with_reducible refine Keeps.foldl_fst (fun acc x => ?_) ?_
    | with_reducible refine Keeps.foldl (fun st x => ?_) ?_
    | split

theorem State.issue_keeps {t s : State} {x0} (h : Keeps t s) : Keeps t (State.issue x0 s) := by
  refine h.trans ?_
  clear h
  unfold State.issue
  repeat' first
    | with_reducible exact Keeps.refl _
    | with_reducible assumption
    | with_reducible refine Keeps.of_fst ?_ (by assumption)
    | with_reducible refine Keeps.ite_fst ?_ ?_
    | simp only [Keeps.put]
    | with_reducible refine State.asOf_keeps ?_
    | with_reducible refine State.recordMac_keeps ?_
    | with_reducible refine State.bump_keeps ?_
    | with_reducible refine State.countNote_keeps ?_
    | with_reducible refine State.sendMgmt_keeps ?_
    | with_reducible refine Keeps.forEach (fun x st => ?_) ?_
    | with_reducible refine Keeps.foldl_fst (fun acc x => ?_) ?_
    | with_reducible refine Keeps.foldl (fun st x => ?_) ?_
    | split

theorem State.writeRecord_keeps {t s : State} (h : Keeps t s) : Keeps t (State.writeRecord s) := by
  refine h.trans ?_
  clear h
  unfold State.writeRecord
  repeat' first
    | with_reducible exact Keeps.refl _
    | with_reducible assumption
    | with_reducible refine Keeps.of_fst ?_ (by assumption)
    | with_reducible refine Keeps.ite_fst ?_ ?_
    | simp only [Keeps.put]
    | with_reducible refine State.issue_keeps ?_
    | with_reducible refine Keeps.forEach (fun x st => ?_) ?_
    | with_reducible refine Keeps.foldl_fst (fun acc x => ?_) ?_
    | with_reducible refine Keeps.foldl (fun st x => ?_) ?_
    | split

theorem State.auditEnd_keeps {t s : State} {x0} (h : Keeps t s) : Keeps t (State.auditEnd x0 s) := by
  refine h.trans ?_
  clear h
  unfold State.auditEnd
  repeat' first
    | with_reducible exact Keeps.refl _
    | with_reducible assumption
    | with_reducible refine Keeps.of_fst ?_ (by assumption)
    | with_reducible refine Keeps.ite_fst ?_ ?_
    | simp only [Keeps.put]
    | with_reducible refine State.writeRecord_keeps ?_
    | with_reducible refine State.countNote_keeps ?_
    | with_reducible refine Keeps.forEach (fun x st => ?_) ?_
    | with_reducible refine Keeps.foldl_fst (fun acc x => ?_) ?_
    | with_reducible refine Keeps.foldl (fun st x => ?_) ?_
    | split

theorem State.audit_keeps {t s : State} (h : Keeps t s) : Keeps t (State.audit s) := by
  refine h.trans ?_
  clear h
  unfold State.audit
  repeat' first
    | with_reducible exact Keeps.refl _
    | with_reducible assumption
    | with_reducible refine Keeps.of_fst ?_ (by assumption)
    | with_reducible refine Keeps.ite_fst ?_ ?_
    | simp only [Keeps.put]
    | with_reducible refine State.auditEnd_keeps ?_
    | with_reducible refine Keeps.forEach (fun x st => ?_) ?_
    | with_reducible refine Keeps.foldl_fst (fun acc x => ?_) ?_
    | with_reducible refine Keeps.foldl (fun st x => ?_) ?_
    | split

theorem State.auditAgain_keeps {t s : State} (h : Keeps t s) : Keeps t (State.auditAgain s) := by
  refine h.trans ?_
  clear h
  unfold State.auditAgain
  repeat' first
    | with_reducible exact Keeps.refl _
    | with_reducible assumption
    | with_reducible refine Keeps.of_fst ?_ (by assumption)
    | with_reducible refine Keeps.ite_fst ?_ ?_
    | simp only [Keeps.put]
    | with_reducible refine State.auditEnd_keeps ?_
    | with_reducible refine Keeps.forEach (fun x st => ?_) ?_
    | with_reducible refine Keeps.foldl_fst (fun acc x => ?_) ?_
    | with_reducible refine Keeps.foldl (fun st x => ?_) ?_
    | split

theorem State.auditGrace_keeps {t s : State} (h : Keeps t s) : Keeps t (State.auditGrace s) := by
  refine h.trans ?_
  clear h
  unfold State.auditGrace
  repeat' first
    | with_reducible exact Keeps.refl _
    | with_reducible assumption
    | with_reducible refine Keeps.of_fst ?_ (by assumption)
    | with_reducible refine Keeps.ite_fst ?_ ?_
    | simp only [Keeps.put]
    | with_reducible refine State.auditEnd_keeps ?_
    | with_reducible refine Keeps.forEach (fun x st => ?_) ?_
    | with_reducible refine Keeps.foldl_fst (fun acc x => ?_) ?_
    | with_reducible refine Keeps.foldl (fun st x => ?_) ?_
    | split

theorem State.serveProbe_keeps {t s : State} (h : Keeps t s) : Keeps t (State.serveProbe s) := by
  refine h.trans ?_
  clear h
  unfold State.serveProbe
  repeat' first
    | with_reducible exact Keeps.refl _
    | with_reducible assumption
    | with_reducible refine Keeps.of_fst ?_ (by assumption)
    | with_reducible refine Keeps.ite_fst ?_ ?_
    | simp only [Keeps.put]
    | with_reducible refine State.bump_keeps ?_
    | with_reducible refine Keeps.forEach (fun x st => ?_) ?_
    | with_reducible refine Keeps.foldl_fst (fun acc x => ?_) ?_
    | with_reducible refine Keeps.foldl (fun st x => ?_) ?_
    | split

theorem State.hashProbe_keeps {t s : State} {x0} (h : Keeps t s) : Keeps t (State.hashProbe x0 s).1 := by
  refine h.trans ?_
  clear h
  unfold State.hashProbe
  repeat' first
    | with_reducible exact Keeps.refl _
    | with_reducible assumption
    | with_reducible refine Keeps.of_fst ?_ (by assumption)
    | with_reducible refine Keeps.ite_fst ?_ ?_
    | simp only [Keeps.put]
    | with_reducible refine State.serveProbe_keeps ?_
    | with_reducible refine Keeps.forEach (fun x st => ?_) ?_
    | with_reducible refine Keeps.foldl_fst (fun acc x => ?_) ?_
    | with_reducible refine Keeps.foldl (fun st x => ?_) ?_
    | split

theorem State.issueAdopted_keeps {t s : State} {x0 x1 x2} (h : Keeps t s) : Keeps t (State.issueAdopted x0 x1 x2 s) := by
  refine h.trans ?_
  clear h
  unfold State.issueAdopted
  repeat' first
    | with_reducible exact Keeps.refl _
    | with_reducible assumption
    | with_reducible refine Keeps.of_fst ?_ (by assumption)
    | with_reducible refine Keeps.ite_fst ?_ ?_
    | simp only [Keeps.put]
    | with_reducible refine State.countNote_keeps ?_
    | with_reducible refine State.bump_keeps ?_
    | with_reducible refine State.asOf_keeps ?_
    | with_reducible refine State.issue_keeps ?_
    | with_reducible refine Keeps.forEach (fun x st => ?_) ?_
    | with_reducible refine Keeps.foldl_fst (fun acc x => ?_) ?_
    | with_reducible refine Keeps.foldl (fun st x => ?_) ?_
    | split

theorem State.issueDue_keeps {t s : State} (h : Keeps t s) : Keeps t (State.issueDue s) := by
  refine h.trans ?_
  clear h
  unfold State.issueDue
  repeat' first
    | with_reducible exact Keeps.refl _
    | with_reducible assumption
    | with_reducible refine Keeps.of_fst ?_ (by assumption)
    | with_reducible refine Keeps.ite_fst ?_ ?_
    | simp only [Keeps.put]
    | with_reducible refine State.issueAdopted_keeps ?_
    | with_reducible refine Keeps.forEach (fun x st => ?_) ?_
    | with_reducible refine Keeps.foldl_fst (fun acc x => ?_) ?_
    | with_reducible refine Keeps.foldl (fun st x => ?_) ?_
    | split

theorem State.ledgerThreshold_keeps {t s : State} (h : Keeps t s) : Keeps t (State.ledgerThreshold s) := by
  refine h.trans ?_
  clear h
  unfold State.ledgerThreshold
  repeat' first
    | with_reducible exact Keeps.refl _
    | with_reducible assumption
    | with_reducible refine Keeps.of_fst ?_ (by assumption)
    | with_reducible refine Keeps.ite_fst ?_ ?_
    | simp only [Keeps.put]
    | with_reducible refine Keeps.forEach (fun x st => ?_) ?_
    | with_reducible refine Keeps.foldl_fst (fun acc x => ?_) ?_
    | with_reducible refine Keeps.foldl (fun st x => ?_) ?_
    | split

theorem State.onNotice_keeps {t s : State} {x0} (h : Keeps t s) : Keeps t (State.onNotice x0 s) := by
  refine h.trans ?_
  clear h
  unfold State.onNotice
  repeat' first
    | with_reducible exact Keeps.refl _
    | with_reducible assumption
    | with_reducible refine Keeps.of_fst ?_ (by assumption)
    | with_reducible refine Keeps.ite_fst ?_ ?_
    | simp only [Keeps.put]
    | with_reducible refine State.bump_keeps ?_
    | with_reducible refine Keeps.forEach (fun x st => ?_) ?_
    | with_reducible refine Keeps.foldl_fst (fun acc x => ?_) ?_
    | with_reducible refine Keeps.foldl (fun st x => ?_) ?_
    | split

theorem State.probeRollcall_keeps {t s : State} (h : Keeps t s) : Keeps t (State.probeRollcall s) := by
  refine h.trans ?_
  clear h
  unfold State.probeRollcall
  repeat' first
    | with_reducible exact Keeps.refl _
    | with_reducible assumption
    | with_reducible refine Keeps.of_fst ?_ (by assumption)
    | with_reducible refine Keeps.ite_fst ?_ ?_
    | simp only [Keeps.put]
    | with_reducible refine Keeps.forEach (fun x st => ?_) ?_
    | with_reducible refine Keeps.foldl_fst (fun acc x => ?_) ?_
    | with_reducible refine Keeps.foldl (fun st x => ?_) ?_
    | split

theorem State.setRestore_keeps {t s : State} {x0} (h : Keeps t s) : Keeps t (State.setRestore x0 s) := by
  refine h.trans ?_
  clear h
  unfold State.setRestore
  repeat' first
    | with_reducible exact Keeps.refl _
    | with_reducible assumption
    | with_reducible refine Keeps.of_fst ?_ (by assumption)
    | with_reducible refine Keeps.ite_fst ?_ ?_
    | simp only [Keeps.put]
    | with_reducible refine Keeps.forEach (fun x st => ?_) ?_
    | with_reducible refine Keeps.foldl_fst (fun acc x => ?_) ?_
    | with_reducible refine Keeps.foldl (fun st x => ?_) ?_
    | split

theorem State.restoreNone_keeps {t s : State} {x0} (h : Keeps t s) : Keeps t (State.restoreNone x0 s) := by
  refine h.trans ?_
  clear h
  unfold State.restoreNone
  repeat' first
    | with_reducible exact Keeps.refl _
    | with_reducible assumption
    | with_reducible refine Keeps.of_fst ?_ (by assumption)
    | with_reducible refine Keeps.ite_fst ?_ ?_
    | simp only [Keeps.put]
    | with_reducible refine State.setRestore_keeps ?_
    | with_reducible refine State.note_keeps ?_
    | with_reducible refine State.changed_keeps ?_
    | with_reducible refine Keeps.forEach (fun x st => ?_) ?_
    | with_reducible refine Keeps.foldl_fst (fun acc x => ?_) ?_
    | with_reducible refine Keeps.foldl (fun st x => ?_) ?_
    | split

theorem State.restoreNext_keeps {t s : State} {x0} (h : Keeps t s) : Keeps t (State.restoreNext x0 s) := by
  refine h.trans ?_
  clear h
  unfold State.restoreNext
  repeat' first
    | with_reducible exact Keeps.refl _
    | with_reducible assumption
    | with_reducible refine Keeps.of_fst ?_ (by assumption)
    | with_reducible refine Keeps.ite_fst ?_ ?_
    | simp only [Keeps.put]
    | with_reducible refine State.dropReqs_keeps ?_
    | with_reducible refine State.restoreNone_keeps ?_
    | with_reducible refine State.setRestore_keeps ?_
    | with_reducible refine State.askImage_keeps ?_
    | with_reducible refine Keeps.forEach (fun x st => ?_) ?_
    | with_reducible refine Keeps.foldl_fst (fun acc x => ?_) ?_
    | with_reducible refine Keeps.foldl (fun st x => ?_) ?_
    | split

theorem State.restoreFail_keeps {t s : State} {x0 x1 x2} (h : Keeps t s) : Keeps t (State.restoreFail x0 x1 x2 s) := by
  refine h.trans ?_
  clear h
  unfold State.restoreFail
  repeat' first
    | with_reducible exact Keeps.refl _
    | with_reducible assumption
    | with_reducible refine Keeps.of_fst ?_ (by assumption)
    | with_reducible refine Keeps.ite_fst ?_ ?_
    | simp only [Keeps.put]
    | with_reducible refine State.bump_keeps ?_
    | with_reducible refine State.restoreNext_keeps ?_
    | with_reducible refine Keeps.forEach (fun x st => ?_) ?_
    | with_reducible refine Keeps.foldl_fst (fun acc x => ?_) ?_
    | with_reducible refine Keeps.foldl (fun st x => ?_) ?_
    | split

theorem State.restoreOk_keeps {t s : State} {x0 x1} (h : Keeps t s) : Keeps t (State.restoreOk x0 x1 s) := by
  refine h.trans ?_
  clear h
  unfold State.restoreOk
  repeat' first
    | with_reducible exact Keeps.refl _
    | with_reducible assumption
    | with_reducible refine Keeps.of_fst ?_ (by assumption)
    | with_reducible refine Keeps.ite_fst ?_ ?_
    | simp only [Keeps.put]
    | with_reducible refine State.bump_keeps ?_
    | with_reducible refine State.setRestore_keeps ?_
    | with_reducible refine State.changed_keeps ?_
    | with_reducible refine Keeps.forEach (fun x st => ?_) ?_
    | with_reducible refine Keeps.foldl_fst (fun acc x => ?_) ?_
    | with_reducible refine Keeps.foldl (fun st x => ?_) ?_
    | split

theorem State.restoreVerify_keeps {t s : State} {x0 x1} (h : Keeps t s) : Keeps t (State.restoreVerify x0 x1 s) := by
  refine h.trans ?_
  clear h
  unfold State.restoreVerify
  repeat' first
    | with_reducible exact Keeps.refl _
    | with_reducible assumption
    | with_reducible refine Keeps.of_fst ?_ (by assumption)
    | with_reducible refine Keeps.ite_fst ?_ ?_
    | simp only [Keeps.put]
    | with_reducible refine State.restoreFail_keeps ?_
    | with_reducible refine State.restoreOk_keeps ?_
    | with_reducible refine Keeps.forEach (fun x st => ?_) ?_
    | with_reducible refine Keeps.foldl_fst (fun acc x => ?_) ?_
    | with_reducible refine Keeps.foldl (fun st x => ?_) ?_
    | split

theorem State.restorePump_keeps {t s : State} {x0} (h : Keeps t s) : Keeps t (State.restorePump x0 s) := by
  refine h.trans ?_
  clear h
  induction x0 generalizing s
  · unfold State.restorePump
    exact Keeps.refl _
  · rename_i k ih
    have ih' : ∀ {t s : State}, Keeps t s → Keeps t (State.restorePump k s) := fun h => h.trans (by apply ih)
    clear ih
    unfold State.restorePump
    repeat' first
      | with_reducible exact Keeps.refl _
      | with_reducible assumption
      | with_reducible refine Keeps.of_fst ?_ (by assumption)
      | with_reducible refine Keeps.ite_fst ?_ ?_
      | simp only [Keeps.put]
      | with_reducible refine State.askImage_keeps ?_
      | with_reducible refine State.setRestore_keeps ?_
      | with_reducible refine ih' ?_
      | with_reducible refine Keeps.forEach (fun x st => ?_) ?_
      | with_reducible refine Keeps.foldl_fst (fun acc x => ?_) ?_
      | with_reducible refine Keeps.foldl (fun st x => ?_) ?_
      | split

theorem State.restoreHeader_keeps {t s : State} {x0 x1 x2} (h : Keeps t s) : Keeps t (State.restoreHeader x0 x1 x2 s) := by
  refine h.trans ?_
  clear h
  unfold State.restoreHeader
  repeat' first
    | with_reducible exact Keeps.refl _
    | with_reducible assumption
    | with_reducible refine Keeps.of_fst ?_ (by assumption)
    | with_reducible refine Keeps.ite_fst ?_ ?_
    | simp only [Keeps.put]
    | with_reducible refine State.restoreFail_keeps ?_
    | with_reducible refine State.setRestore_keeps ?_
    | with_reducible refine State.restoreVerify_keeps ?_
    | with_reducible refine State.restorePump_keeps ?_
    | with_reducible refine Keeps.forEach (fun x st => ?_) ?_
    | with_reducible refine Keeps.foldl_fst (fun acc x => ?_) ?_
    | with_reducible refine Keeps.foldl (fun st x => ?_) ?_
    | split

theorem State.restoreStripe_keeps {t s : State} {x0 x1 x2 x3} (h : Keeps t s) : Keeps t (State.restoreStripe x0 x1 x2 x3 s) := by
  refine h.trans ?_
  clear h
  unfold State.restoreStripe
  repeat' first
    | with_reducible exact Keeps.refl _
    | with_reducible assumption
    | with_reducible refine Keeps.of_fst ?_ (by assumption)
    | with_reducible refine Keeps.ite_fst ?_ ?_
    | simp only [Keeps.put]
    | with_reducible refine State.setRestore_keeps ?_
    | with_reducible refine State.restoreVerify_keeps ?_
    | with_reducible refine State.restorePump_keeps ?_
    | with_reducible refine State.invalidate_keeps ?_
    | with_reducible refine State.clearKey_keeps ?_
    | with_reducible refine State.writePlane_keeps ?_
    | with_reducible refine Keeps.forEach (fun x st => ?_) ?_
    | with_reducible refine Keeps.foldl_fst (fun acc x => ?_) ?_
    | with_reducible refine Keeps.foldl (fun st x => ?_) ?_
    | split

theorem State.restoreAnswer_keeps {t s : State} {x0 x1} (h : Keeps t s) : Keeps t (State.restoreAnswer x0 x1 s) := by
  refine h.trans ?_
  clear h
  unfold State.restoreAnswer
  repeat' first
    | with_reducible exact Keeps.refl _
    | with_reducible assumption
    | with_reducible refine Keeps.of_fst ?_ (by assumption)
    | with_reducible refine Keeps.ite_fst ?_ ?_
    | simp only [Keeps.put]
    | with_reducible refine State.restoreHeader_keeps ?_
    | with_reducible refine State.restoreStripe_keeps ?_
    | with_reducible refine State.restoreFail_keeps ?_
    | with_reducible refine Keeps.forEach (fun x st => ?_) ?_
    | with_reducible refine Keeps.foldl_fst (fun acc x => ?_) ?_
    | with_reducible refine Keeps.foldl (fun st x => ?_) ?_
    | split

theorem State.restoreRequest_keeps {t s : State} {x0} (h : Keeps t s) : Keeps t (State.restoreRequest x0 s).1 := by
  refine h.trans ?_
  clear h
  unfold State.restoreRequest
  repeat' first
    | with_reducible exact Keeps.refl _
    | with_reducible assumption
    | with_reducible refine Keeps.of_fst ?_ (by assumption)
    | with_reducible refine Keeps.ite_fst ?_ ?_
    | simp only [Keeps.put]
    | with_reducible refine State.restoreNext_keeps ?_
    | with_reducible refine Keeps.forEach (fun x st => ?_) ?_
    | with_reducible refine Keeps.foldl_fst (fun acc x => ?_) ?_
    | with_reducible refine Keeps.foldl (fun st x => ?_) ?_
    | split

theorem State.restoredWrite_keeps {t s : State} {x0} (h : Keeps t s) : Keeps t (State.restoredWrite x0 s) := by
  refine h.trans ?_
  clear h
  unfold State.restoredWrite
  repeat' first
    | with_reducible exact Keeps.refl _
    | with_reducible assumption
    | with_reducible refine Keeps.of_fst ?_ (by assumption)
    | with_reducible refine Keeps.ite_fst ?_ ?_
    | simp only [Keeps.put]
    | with_reducible refine Keeps.forEach (fun x st => ?_) ?_
    | with_reducible refine Keeps.foldl_fst (fun acc x => ?_) ?_
    | with_reducible refine Keeps.foldl (fun st x => ?_) ?_
    | split

theorem State.retryRestore_keeps {t s : State} (h : Keeps t s) : Keeps t (State.retryRestore s) := by
  refine h.trans ?_
  clear h
  unfold State.retryRestore
  repeat' first
    | with_reducible exact Keeps.refl _
    | with_reducible assumption
    | with_reducible refine Keeps.of_fst ?_ (by assumption)
    | with_reducible refine Keeps.ite_fst ?_ ?_
    | simp only [Keeps.put]
    | with_reducible refine State.restoreAnswer_keeps ?_
    | with_reducible refine Keeps.forEach (fun x st => ?_) ?_
    | with_reducible refine Keeps.foldl_fst (fun acc x => ?_) ?_
    | with_reducible refine Keeps.foldl (fun st x => ?_) ?_
    | split

end Sys2Proof.Machine
end

