-- ==== Sys2Proof/Laws/KeepsViews.lean ====
section
/-! SUPPORT. What the operations of Machine/Views.lean keep (Keeps.lean). -/

set_option linter.unusedSimpArgs false

namespace Sys2Proof.Machine

theorem State.askMasters_keeps {t s : State} {x0 x1} (h : Keeps t s) : Keeps t (State.askMasters x0 x1 s) := by
  refine h.trans ?_
  clear h
  unfold State.askMasters
  repeat' first
    | with_reducible exact Keeps.refl _
    | with_reducible assumption
    | with_reducible refine Keeps.of_fst ?_ (by assumption)
    | with_reducible refine Keeps.ite_fst ?_ ?_
    | simp only [Keeps.put]
    | with_reducible refine State.askMaster_keeps ?_
    | with_reducible refine Keeps.forEach (fun x st => ?_) ?_
    | with_reducible refine Keeps.foldl_fst (fun acc x => ?_) ?_
    | with_reducible refine Keeps.foldl (fun st x => ?_) ?_
    | split

theorem State.repairHank_keeps {t s : State} {x0} (h : Keeps t s) : Keeps t (State.repairHank x0 s) := by
  refine h.trans ?_
  clear h
  unfold State.repairHank
  repeat' first
    | with_reducible exact Keeps.refl _
    | with_reducible assumption
    | with_reducible refine Keeps.of_fst ?_ (by assumption)
    | with_reducible refine Keeps.ite_fst ?_ ?_
    | simp only [Keeps.put]
    | with_reducible refine State.addRepair_keeps ?_
    | with_reducible refine State.noteReread_keeps ?_
    | with_reducible refine Keeps.forEach (fun x st => ?_) ?_
    | with_reducible refine Keeps.foldl_fst (fun acc x => ?_) ?_
    | with_reducible refine Keeps.foldl (fun st x => ?_) ?_
    | split

theorem State.generateView_keeps {t s : State} {x0} (h : Keeps t s) : Keeps t (State.generateView x0 s) := by
  refine h.trans ?_
  clear h
  unfold State.generateView
  repeat' first
    | with_reducible exact Keeps.refl _
    | with_reducible assumption
    | with_reducible refine Keeps.of_fst ?_ (by assumption)
    | with_reducible refine Keeps.ite_fst ?_ ?_
    | simp only [Keeps.put]
    | with_reducible refine State.askMasters_keeps ?_
    | with_reducible refine State.repairHank_keeps ?_
    | with_reducible refine State.invalidate_keeps ?_
    | with_reducible refine State.countReread_keeps ?_
    | with_reducible refine State.writeView_keeps ?_
    | with_reducible refine State.updHank_keeps ?_
    | with_reducible refine State.bump_keeps ?_
    | with_reducible refine State.askMaster_keeps ?_
    | with_reducible refine Keeps.forEach (fun x st => ?_) ?_
    | with_reducible refine Keeps.foldl_fst (fun acc x => ?_) ?_
    | with_reducible refine Keeps.foldl (fun st x => ?_) ?_
    | split

theorem State.trailingPass_keeps {t s : State} {x0 x1} (h : Keeps t s) : Keeps t (State.trailingPass x0 x1 s) := by
  refine h.trans ?_
  clear h
  unfold State.trailingPass
  repeat' first
    | with_reducible exact Keeps.refl _
    | with_reducible assumption
    | with_reducible refine Keeps.of_fst ?_ (by assumption)
    | with_reducible refine Keeps.ite_fst ?_ ?_
    | simp only [Keeps.put]
    | with_reducible refine State.askMasters_keeps ?_
    | with_reducible refine State.repairHank_keeps ?_
    | with_reducible refine State.countReread_keeps ?_
    | with_reducible refine State.invalidate_keeps ?_
    | with_reducible refine State.writeView_keeps ?_
    | with_reducible refine State.bump_keeps ?_
    | with_reducible refine State.updHank_keeps ?_
    | with_reducible refine Keeps.forEach (fun x st => ?_) ?_
    | with_reducible refine Keeps.foldl_fst (fun acc x => ?_) ?_
    | with_reducible refine Keeps.foldl (fun st x => ?_) ?_
    | split

theorem State.viewOnlyPass_keeps {t s : State} (h : Keeps t s) : Keeps t (State.viewOnlyPass s) := by
  refine h.trans ?_
  clear h
  unfold State.viewOnlyPass
  repeat' first
    | with_reducible exact Keeps.refl _
    | with_reducible assumption
    | with_reducible refine Keeps.of_fst ?_ (by assumption)
    | with_reducible refine Keeps.ite_fst ?_ ?_
    | simp only [Keeps.put]
    | with_reducible refine State.generateView_keeps ?_
    | with_reducible refine Keeps.forEach (fun x st => ?_) ?_
    | with_reducible refine Keeps.foldl_fst (fun acc x => ?_) ?_
    | with_reducible refine Keeps.foldl (fun st x => ?_) ?_
    | split

end Sys2Proof.Machine
end

