-- ==== Sys2Proof/Laws/KeepsTiers.lean ====
section
/-! SUPPORT. What the operations of Machine/Tiers.lean keep (Keeps.lean). -/

set_option linter.unusedSimpArgs false

namespace Sys2Proof.Machine

theorem State.writeMap_keeps {t s : State} {x0} (h : Keeps t s) : Keeps t (State.writeMap x0 s) := by
  refine h.trans ?_
  clear h
  unfold State.writeMap
  repeat' first
    | with_reducible exact Keeps.refl _
    | with_reducible assumption
    | with_reducible refine Keeps.of_fst ?_ (by assumption)
    | with_reducible refine Keeps.ite_fst ?_ ?_
    | simp only [Keeps.put]
    | with_reducible refine State.hearthWrite_keeps ?_
    | with_reducible refine Keeps.forEach (fun x st => ?_) ?_
    | with_reducible refine Keeps.foldl_fst (fun acc x => ?_) ?_
    | with_reducible refine Keeps.foldl (fun st x => ?_) ?_
    | split

theorem State.putPage_keeps {t s : State} {x0} (h : Keeps t s) : Keeps t (State.putPage x0 s) := by
  refine h.trans ?_
  clear h
  unfold State.putPage
  repeat' first
    | with_reducible exact Keeps.refl _
    | with_reducible assumption
    | with_reducible refine Keeps.of_fst ?_ (by assumption)
    | with_reducible refine Keeps.ite_fst ?_ ?_
    | simp only [Keeps.put]
    | with_reducible refine State.writeMap_keeps ?_
    | with_reducible refine Keeps.forEach (fun x st => ?_) ?_
    | with_reducible refine Keeps.foldl_fst (fun acc x => ?_) ?_
    | with_reducible refine Keeps.foldl (fun st x => ?_) ?_
    | split

theorem State.orphan_keeps {t s : State} {x0} (h : Keeps t s) : Keeps t (State.orphan x0 s) := by
  refine h.trans ?_
  clear h
  unfold State.orphan
  repeat' first
    | with_reducible exact Keeps.refl _
    | with_reducible assumption
    | with_reducible refine Keeps.of_fst ?_ (by assumption)
    | with_reducible refine Keeps.ite_fst ?_ ?_
    | simp only [Keeps.put]
    | with_reducible refine Keeps.forEach (fun x st => ?_) ?_
    | with_reducible refine Keeps.foldl_fst (fun acc x => ?_) ?_
    | with_reducible refine Keeps.foldl (fun st x => ?_) ?_
    | split

theorem State.dropMove_keeps {t s : State} {x0} (h : Keeps t s) : Keeps t (State.dropMove x0 s) := by
  refine h.trans ?_
  clear h
  unfold State.dropMove
  repeat' first
    | with_reducible exact Keeps.refl _
    | with_reducible assumption
    | with_reducible refine Keeps.of_fst ?_ (by assumption)
    | with_reducible refine Keeps.ite_fst ?_ ?_
    | simp only [Keeps.put]
    | with_reducible refine State.dropReqs_keeps ?_
    | with_reducible refine State.orphan_keeps ?_
    | with_reducible refine Keeps.forEach (fun x st => ?_) ?_
    | with_reducible refine Keeps.foldl_fst (fun acc x => ?_) ?_
    | with_reducible refine Keeps.foldl (fun st x => ?_) ?_
    | split

theorem State.abandonMove_keeps {t s : State} {x0} (h : Keeps t s) : Keeps t (State.abandonMove x0 s) := by
  refine h.trans ?_
  clear h
  unfold State.abandonMove
  repeat' first
    | with_reducible exact Keeps.refl _
    | with_reducible assumption
    | with_reducible refine Keeps.of_fst ?_ (by assumption)
    | with_reducible refine Keeps.ite_fst ?_ ?_
    | simp only [Keeps.put]
    | with_reducible refine State.putPage_keeps ?_
    | with_reducible refine State.dropMove_keeps ?_
    | with_reducible refine Keeps.forEach (fun x st => ?_) ?_
    | with_reducible refine Keeps.foldl_fst (fun acc x => ?_) ?_
    | with_reducible refine Keeps.foldl (fun st x => ?_) ?_
    | split

theorem State.countFull_keeps {t s : State} {x0 x1 x2 x3 x4} (h : Keeps t s) : Keeps t (State.countFull x0 x1 x2 x3 x4 s) := by
  refine h.trans ?_
  clear h
  unfold State.countFull
  repeat' first
    | with_reducible exact Keeps.refl _
    | with_reducible assumption
    | with_reducible refine Keeps.of_fst ?_ (by assumption)
    | with_reducible refine Keeps.ite_fst ?_ ?_
    | simp only [Keeps.put]
    | with_reducible refine State.bump_keeps ?_
    | with_reducible refine Keeps.forEach (fun x st => ?_) ?_
    | with_reducible refine Keeps.foldl_fst (fun acc x => ?_) ?_
    | with_reducible refine Keeps.foldl (fun st x => ?_) ?_
    | split

theorem State.allocate_keeps {t s : State} {x0 x1 x2} (h : Keeps t s) : Keeps t (State.allocate x0 x1 x2 s).1 := by
  refine h.trans ?_
  clear h
  unfold State.allocate
  repeat' first
    | with_reducible exact Keeps.refl _
    | with_reducible assumption
    | with_reducible refine Keeps.of_fst ?_ (by assumption)
    | with_reducible refine Keeps.ite_fst ?_ ?_
    | simp only [Keeps.put]
    | with_reducible refine State.bump_keeps ?_
    | with_reducible refine State.putPage_keeps ?_
    | with_reducible refine State.countFull_keeps ?_
    | with_reducible refine Keeps.forEach (fun x st => ?_) ?_
    | with_reducible refine Keeps.foldl_fst (fun acc x => ?_) ?_
    | with_reducible refine Keeps.foldl (fun st x => ?_) ?_
    | split

theorem State.answerDiscard_keeps {t s : State} {x0} (h : Keeps t s) : Keeps t (State.answerDiscard x0 s) := by
  refine h.trans ?_
  clear h
  unfold State.answerDiscard
  repeat' first
    | with_reducible exact Keeps.refl _
    | with_reducible assumption
    | with_reducible refine Keeps.of_fst ?_ (by assumption)
    | with_reducible refine Keeps.ite_fst ?_ ?_
    | simp only [Keeps.put]
    | with_reducible refine State.emit_keeps ?_
    | with_reducible refine Keeps.forEach (fun x st => ?_) ?_
    | with_reducible refine Keeps.foldl_fst (fun acc x => ?_) ?_
    | with_reducible refine Keeps.foldl (fun st x => ?_) ?_
    | split

theorem State.askMap_keeps {t s : State} {x0 x1 x2} (h : Keeps t s) : Keeps t (State.askMap x0 x1 x2 s) := by
  refine h.trans ?_
  clear h
  unfold State.askMap
  repeat' first
    | with_reducible exact Keeps.refl _
    | with_reducible assumption
    | with_reducible refine Keeps.of_fst ?_ (by assumption)
    | with_reducible refine Keeps.ite_fst ?_ ?_
    | simp only [Keeps.put]
    | with_reducible refine State.takeMem_keeps ?_
    | with_reducible refine Keeps.forEach (fun x st => ?_) ?_
    | with_reducible refine Keeps.foldl_fst (fun acc x => ?_) ?_
    | with_reducible refine Keeps.foldl (fun st x => ?_) ?_
    | split

theorem State.askPage_keeps {t s : State} {x0 x1 x2} (h : Keeps t s) : Keeps t (State.askPage x0 x1 x2 s) := by
  refine h.trans ?_
  clear h
  unfold State.askPage
  repeat' first
    | with_reducible exact Keeps.refl _
    | with_reducible assumption
    | with_reducible refine Keeps.of_fst ?_ (by assumption)
    | with_reducible refine Keeps.ite_fst ?_ ?_
    | simp only [Keeps.put]
    | with_reducible refine State.takeMem_keeps ?_
    | with_reducible refine State.takeLines_keeps ?_
    | with_reducible refine Keeps.forEach (fun x st => ?_) ?_
    | with_reducible refine Keeps.foldl_fst (fun acc x => ?_) ?_
    | with_reducible refine Keeps.foldl (fun st x => ?_) ?_
    | split

theorem State.attemptOver_keeps {t s : State} {x0 x1 x2} (h : Keeps t s) : Keeps t (State.attemptOver x0 x1 x2 s) := by
  refine h.trans ?_
  clear h
  unfold State.attemptOver
  repeat' first
    | with_reducible exact Keeps.refl _
    | with_reducible assumption
    | with_reducible refine Keeps.of_fst ?_ (by assumption)
    | with_reducible refine Keeps.ite_fst ?_ ?_
    | simp only [Keeps.put]
    | with_reducible refine Keeps.forEach (fun x st => ?_) ?_
    | with_reducible refine Keeps.foldl_fst (fun acc x => ?_) ?_
    | with_reducible refine Keeps.foldl (fun st x => ?_) ?_
    | split

theorem State.charge_keeps {t s : State} {x0 x1} (h : Keeps t s) : Keeps t (State.charge x0 x1 s) := by
  refine h.trans ?_
  clear h
  unfold State.charge
  repeat' first
    | with_reducible exact Keeps.refl _
    | with_reducible assumption
    | with_reducible refine Keeps.of_fst ?_ (by assumption)
    | with_reducible refine Keeps.ite_fst ?_ ?_
    | simp only [Keeps.put]
    | with_reducible refine State.bump_keeps ?_
    | with_reducible refine Keeps.forEach (fun x st => ?_) ?_
    | with_reducible refine Keeps.foldl_fst (fun acc x => ?_) ?_
    | with_reducible refine Keeps.foldl (fun st x => ?_) ?_
    | split

theorem State.countLower_keeps {t s : State} {x0} (h : Keeps t s) : Keeps t (State.countLower x0 s) := by
  refine h.trans ?_
  clear h
  unfold State.countLower
  repeat' first
    | with_reducible exact Keeps.refl _
    | with_reducible assumption
    | with_reducible refine Keeps.of_fst ?_ (by assumption)
    | with_reducible refine Keeps.ite_fst ?_ ?_
    | simp only [Keeps.put]
    | with_reducible refine State.countFull_keeps ?_
    | with_reducible refine Keeps.forEach (fun x st => ?_) ?_
    | with_reducible refine Keeps.foldl_fst (fun acc x => ?_) ?_
    | with_reducible refine Keeps.foldl (fun st x => ?_) ?_
    | split

theorem State.unqueue_keeps {t s : State} {x0} (h : Keeps t s) : Keeps t (State.unqueue x0 s) := by
  refine h.trans ?_
  clear h
  unfold State.unqueue
  repeat' first
    | with_reducible exact Keeps.refl _
    | with_reducible assumption
    | with_reducible refine Keeps.of_fst ?_ (by assumption)
    | with_reducible refine Keeps.ite_fst ?_ ?_
    | simp only [Keeps.put]
    | with_reducible refine Keeps.forEach (fun x st => ?_) ?_
    | with_reducible refine Keeps.foldl_fst (fun acc x => ?_) ?_
    | with_reducible refine Keeps.foldl (fun st x => ?_) ?_
    | split

theorem State.memRequest_keeps {t s : State} {x0 x1 x2 x3 x4 x5 x6} (h : Keeps t s) : Keeps t (State.memRequest x0 x1 x2 x3 x4 x5 x6 s) := by
  refine h.trans ?_
  clear h
  unfold State.memRequest
  repeat' first
    | with_reducible exact Keeps.refl _
    | with_reducible assumption
    | with_reducible refine Keeps.of_fst ?_ (by assumption)
    | with_reducible refine Keeps.ite_fst ?_ ?_
    | simp only [Keeps.put]
    | with_reducible refine State.emit_keeps ?_
    | with_reducible refine Keeps.forEach (fun x st => ?_) ?_
    | with_reducible refine Keeps.foldl_fst (fun acc x => ?_) ?_
    | with_reducible refine Keeps.foldl (fun st x => ?_) ?_
    | split

theorem State.pantryRequest_keeps {t s : State} {x0 x1 x2} (h : Keeps t s) : Keeps t (State.pantryRequest x0 x1 x2 s) := by
  refine h.trans ?_
  clear h
  unfold State.pantryRequest
  repeat' first
    | with_reducible exact Keeps.refl _
    | with_reducible assumption
    | with_reducible refine Keeps.of_fst ?_ (by assumption)
    | with_reducible refine Keeps.ite_fst ?_ ?_
    | simp only [Keeps.put]
    | with_reducible refine State.emit_keeps ?_
    | with_reducible refine Keeps.forEach (fun x st => ?_) ?_
    | with_reducible refine Keeps.foldl_fst (fun acc x => ?_) ?_
    | with_reducible refine Keeps.foldl (fun st x => ?_) ?_
    | split

theorem State.moveReads_keeps {t s : State} {x0 x1} (h : Keeps t s) : Keeps t (State.moveReads x0 x1 s) := by
  refine h.trans ?_
  clear h
  unfold State.moveReads
  repeat' first
    | with_reducible exact Keeps.refl _
    | with_reducible assumption
    | with_reducible refine Keeps.of_fst ?_ (by assumption)
    | with_reducible refine Keeps.ite_fst ?_ ?_
    | simp only [Keeps.put]
    | with_reducible refine State.memRequest_keeps ?_
    | with_reducible refine State.pantryRequest_keeps ?_
    | with_reducible refine State.request_keeps ?_
    | with_reducible refine Keeps.forEach (fun x st => ?_) ?_
    | with_reducible refine Keeps.foldl_fst (fun acc x => ?_) ?_
    | with_reducible refine Keeps.foldl (fun st x => ?_) ?_
    | split

theorem State.startMove_keeps {t s : State} {x0 x1 x2 x3} (h : Keeps t s) : Keeps t (State.startMove x0 x1 x2 x3 s) := by
  refine h.trans ?_
  clear h
  unfold State.startMove
  repeat' first
    | with_reducible exact Keeps.refl _
    | with_reducible assumption
    | with_reducible refine Keeps.of_fst ?_ (by assumption)
    | with_reducible refine Keeps.ite_fst ?_ ?_
    | simp only [Keeps.put]
    | with_reducible refine State.moveReads_keeps ?_
    | with_reducible refine State.putPage_keeps ?_
    | with_reducible refine Keeps.forEach (fun x st => ?_) ?_
    | with_reducible refine Keeps.foldl_fst (fun acc x => ?_) ?_
    | with_reducible refine Keeps.foldl (fun st x => ?_) ?_
    | split

theorem State.demote_keeps {t s : State} {x0} (h : Keeps t s) : Keeps t (State.demote x0 s) := by
  refine h.trans ?_
  clear h
  unfold State.demote
  repeat' first
    | with_reducible exact Keeps.refl _
    | with_reducible assumption
    | with_reducible refine Keeps.of_fst ?_ (by assumption)
    | with_reducible refine Keeps.ite_fst ?_ ?_
    | simp only [Keeps.put]
    | with_reducible refine State.countLower_keeps ?_
    | with_reducible refine State.startMove_keeps ?_
    | with_reducible refine State.charge_keeps ?_
    | with_reducible refine Keeps.forEach (fun x st => ?_) ?_
    | with_reducible refine Keeps.foldl_fst (fun acc x => ?_) ?_
    | with_reducible refine Keeps.foldl (fun st x => ?_) ?_
    | split

theorem State.noVictim_keeps {t s : State} {x0 x1} (h : Keeps t s) : Keeps t (State.noVictim x0 x1 s) := by
  refine h.trans ?_
  clear h
  unfold State.noVictim
  repeat' first
    | with_reducible exact Keeps.refl _
    | with_reducible assumption
    | with_reducible refine Keeps.of_fst ?_ (by assumption)
    | with_reducible refine Keeps.ite_fst ?_ ?_
    | simp only [Keeps.put]
    | with_reducible refine State.countLower_keeps ?_
    | with_reducible refine Keeps.forEach (fun x st => ?_) ?_
    | with_reducible refine Keeps.foldl_fst (fun acc x => ?_) ?_
    | with_reducible refine Keeps.foldl (fun st x => ?_) ?_
    | split

theorem State.promote_keeps {t s : State} {x0 x1} (h : Keeps t s) : Keeps t (State.promote x0 x1 s) := by
  refine h.trans ?_
  clear h
  unfold State.promote
  repeat' first
    | with_reducible exact Keeps.refl _
    | with_reducible assumption
    | with_reducible refine Keeps.of_fst ?_ (by assumption)
    | with_reducible refine Keeps.ite_fst ?_ ?_
    | simp only [Keeps.put]
    | with_reducible refine State.countFull_keeps ?_
    | with_reducible refine State.startMove_keeps ?_
    | with_reducible refine State.charge_keeps ?_
    | with_reducible refine State.demote_keeps ?_
    | with_reducible refine State.noVictim_keeps ?_
    | with_reducible refine Keeps.forEach (fun x st => ?_) ?_
    | with_reducible refine Keeps.foldl_fst (fun acc x => ?_) ?_
    | with_reducible refine Keeps.foldl (fun st x => ?_) ?_
    | split

theorem State.demandOne_keeps {t s : State} {x0} (h : Keeps t s) : Keeps t (State.demandOne x0 s) := by
  refine h.trans ?_
  clear h
  unfold State.demandOne
  repeat' first
    | with_reducible exact Keeps.refl _
    | with_reducible assumption
    | with_reducible refine Keeps.of_fst ?_ (by assumption)
    | with_reducible refine Keeps.ite_fst ?_ ?_
    | simp only [Keeps.put]
    | with_reducible refine State.unqueue_keeps ?_
    | with_reducible refine State.allocate_keeps ?_
    | with_reducible refine State.demote_keeps ?_
    | with_reducible refine State.noVictim_keeps ?_
    | with_reducible refine State.promote_keeps ?_
    | with_reducible refine State.putPage_keeps ?_
    | with_reducible refine Keeps.forEach (fun x st => ?_) ?_
    | with_reducible refine Keeps.foldl_fst (fun acc x => ?_) ?_
    | with_reducible refine Keeps.foldl (fun st x => ?_) ?_
    | split

theorem State.discardNow_keeps {t s : State} {x0 x1 x2} (h : Keeps t s) : Keeps t (State.discardNow x0 x1 x2 s).1 := by
  refine h.trans ?_
  clear h
  unfold State.discardNow
  repeat' first
    | with_reducible exact Keeps.refl _
    | with_reducible assumption
    | with_reducible refine Keeps.of_fst ?_ (by assumption)
    | with_reducible refine Keeps.ite_fst ?_ ?_
    | simp only [Keeps.put]
    | with_reducible refine State.invalidate_keeps ?_
    | with_reducible refine State.abandonMove_keeps ?_
    | with_reducible refine State.putPage_keeps ?_
    | with_reducible refine State.bump_keeps ?_
    | with_reducible refine Keeps.forEach (fun x st => ?_) ?_
    | with_reducible refine Keeps.foldl_fst (fun acc x => ?_) ?_
    | with_reducible refine Keeps.foldl (fun st x => ?_) ?_
    | split

theorem State.freshMap_keeps {t s : State} {x0} (h : Keeps t s) : Keeps t (State.freshMap x0 s) := by
  refine h.trans ?_
  clear h
  unfold State.freshMap
  repeat' first
    | with_reducible exact Keeps.refl _
    | with_reducible assumption
    | with_reducible refine Keeps.of_fst ?_ (by assumption)
    | with_reducible refine Keeps.ite_fst ?_ ?_
    | simp only [Keeps.put]
    | with_reducible refine State.clearBad_keeps ?_
    | with_reducible refine State.hearthWrite_keeps ?_
    | with_reducible refine Keeps.forEach (fun x st => ?_) ?_
    | with_reducible refine Keeps.foldl_fst (fun acc x => ?_) ?_
    | with_reducible refine Keeps.foldl (fun st x => ?_) ?_
    | split

theorem State.heatPage_keeps {t s : State} {x0 x1 x2} (h : Keeps t s) : Keeps t (State.heatPage x0 x1 x2 s) := by
  refine h.trans ?_
  clear h
  unfold State.heatPage
  repeat' first
    | with_reducible exact Keeps.refl _
    | with_reducible assumption
    | with_reducible refine Keeps.of_fst ?_ (by assumption)
    | with_reducible refine Keeps.ite_fst ?_ ?_
    | simp only [Keeps.put]
    | with_reducible refine State.putPage_keeps ?_
    | with_reducible refine Keeps.forEach (fun x st => ?_) ?_
    | with_reducible refine Keeps.foldl_fst (fun acc x => ?_) ?_
    | with_reducible refine Keeps.foldl (fun st x => ?_) ?_
    | split

theorem State.heatThreshold_keeps {t s : State} (h : Keeps t s) : Keeps t (State.heatThreshold s) := by
  refine h.trans ?_
  clear h
  unfold State.heatThreshold
  repeat' first
    | with_reducible exact Keeps.refl _
    | with_reducible assumption
    | with_reducible refine Keeps.of_fst ?_ (by assumption)
    | with_reducible refine Keeps.ite_fst ?_ ?_
    | simp only [Keeps.put]
    | with_reducible refine State.putPage_keeps ?_
    | with_reducible refine Keeps.forEach (fun x st => ?_) ?_
    | with_reducible refine Keeps.foldl_fst (fun acc x => ?_) ?_
    | with_reducible refine Keeps.foldl (fun st x => ?_) ?_
    | split

theorem State.homeDrop_keeps {t s : State} {x0} (h : Keeps t s) : Keeps t (State.homeDrop x0 s) := by
  refine h.trans ?_
  clear h
  unfold State.homeDrop
  repeat' first
    | with_reducible exact Keeps.refl _
    | with_reducible assumption
    | with_reducible refine Keeps.of_fst ?_ (by assumption)
    | with_reducible refine Keeps.ite_fst ?_ ?_
    | simp only [Keeps.put]
    | with_reducible refine State.orphan_keeps ?_
    | with_reducible refine Keeps.forEach (fun x st => ?_) ?_
    | with_reducible refine Keeps.foldl_fst (fun acc x => ?_) ?_
    | with_reducible refine Keeps.foldl (fun st x => ?_) ?_
    | split

theorem State.updHome_keeps {t s : State} {x0 x1} (h : Keeps t s) : Keeps t (State.updHome x0 x1 s) := by
  refine h.trans ?_
  clear h
  unfold State.updHome
  repeat' first
    | with_reducible exact Keeps.refl _
    | with_reducible assumption
    | with_reducible refine Keeps.of_fst ?_ (by assumption)
    | with_reducible refine Keeps.ite_fst ?_ ?_
    | simp only [Keeps.put]
    | with_reducible refine Keeps.forEach (fun x st => ?_) ?_
    | with_reducible refine Keeps.foldl_fst (fun acc x => ?_) ?_
    | with_reducible refine Keeps.foldl (fun st x => ?_) ?_
    | split

theorem State.homesOver_keeps {t s : State} (h : Keeps t s) : Keeps t (State.homesOver s) := by
  refine h.trans ?_
  clear h
  unfold State.homesOver
  repeat' first
    | with_reducible exact Keeps.refl _
    | with_reducible assumption
    | with_reducible refine Keeps.of_fst ?_ (by assumption)
    | with_reducible refine Keeps.ite_fst ?_ ?_
    | simp only [Keeps.put]
    | with_reducible refine Keeps.forEach (fun x st => ?_) ?_
    | with_reducible refine Keeps.foldl_fst (fun acc x => ?_) ?_
    | with_reducible refine Keeps.foldl (fun st x => ?_) ?_
    | split

theorem State.homeSwitch_keeps {t s : State} {x0} (h : Keeps t s) : Keeps t (State.homeSwitch x0 s) := by
  refine h.trans ?_
  clear h
  unfold State.homeSwitch
  repeat' first
    | with_reducible exact Keeps.refl _
    | with_reducible assumption
    | with_reducible refine Keeps.of_fst ?_ (by assumption)
    | with_reducible refine Keeps.ite_fst ?_ ?_
    | simp only [Keeps.put]
    | with_reducible refine State.updHank_keeps ?_
    | with_reducible refine State.homesOver_keeps ?_
    | with_reducible refine Keeps.forEach (fun x st => ?_) ?_
    | with_reducible refine Keeps.foldl_fst (fun acc x => ?_) ?_
    | with_reducible refine Keeps.foldl (fun st x => ?_) ?_
    | split

theorem State.placeRequest_keeps {t s : State} {x0 x1 x2} (h : Keeps t s) : Keeps t (State.placeRequest x0 x1 x2 s) := by
  refine h.trans ?_
  clear h
  unfold State.placeRequest
  repeat' first
    | with_reducible exact Keeps.refl _
    | with_reducible assumption
    | with_reducible refine Keeps.of_fst ?_ (by assumption)
    | with_reducible refine Keeps.ite_fst ?_ ?_
    | simp only [Keeps.put]
    | with_reducible refine State.pantryRequest_keeps ?_
    | with_reducible refine State.memRequest_keeps ?_
    | with_reducible refine Keeps.forEach (fun x st => ?_) ?_
    | with_reducible refine Keeps.foldl_fst (fun acc x => ?_) ?_
    | with_reducible refine Keeps.foldl (fun st x => ?_) ?_
    | split

theorem State.homeWrites_keeps {t s : State} {x0} (h : Keeps t s) : Keeps t (State.homeWrites x0 s) := by
  refine h.trans ?_
  clear h
  unfold State.homeWrites
  repeat' first
    | with_reducible exact Keeps.refl _
    | with_reducible assumption
    | with_reducible refine Keeps.of_fst ?_ (by assumption)
    | with_reducible refine Keeps.ite_fst ?_ ?_
    | simp only [Keeps.put]
    | with_reducible refine State.updHank_keeps ?_
    | with_reducible refine State.updHome_keeps ?_
    | with_reducible refine State.pantryPut_keeps ?_
    | with_reducible refine State.hearthPut_keeps ?_
    | with_reducible refine State.placeRequest_keeps ?_
    | with_reducible refine State.clearKey_keeps ?_
    | with_reducible refine Keeps.forEach (fun x st => ?_) ?_
    | with_reducible refine Keeps.foldl_fst (fun acc x => ?_) ?_
    | with_reducible refine Keeps.foldl (fun st x => ?_) ?_
    | split

theorem State.homeAnswer_keeps {t s : State} {x0 x1 x2 x3} (h : Keeps t s) : Keeps t (State.homeAnswer x0 x1 x2 x3 s) := by
  refine h.trans ?_
  clear h
  unfold State.homeAnswer
  repeat' first
    | with_reducible exact Keeps.refl _
    | with_reducible assumption
    | with_reducible refine Keeps.of_fst ?_ (by assumption)
    | with_reducible refine Keeps.ite_fst ?_ ?_
    | simp only [Keeps.put]
    | with_reducible refine State.homeDrop_keeps ?_
    | with_reducible refine State.updHome_keeps ?_
    | with_reducible refine State.homeSwitch_keeps ?_
    | with_reducible refine State.homeWrites_keeps ?_
    | with_reducible refine Keeps.forEach (fun x st => ?_) ?_
    | with_reducible refine Keeps.foldl_fst (fun acc x => ?_) ?_
    | with_reducible refine Keeps.foldl (fun st x => ?_) ?_
    | split

theorem State.startHome_keeps {t s : State} {x0 x1 x2} (h : Keeps t s) : Keeps t (State.startHome x0 x1 x2 s) := by
  refine h.trans ?_
  clear h
  unfold State.startHome
  repeat' first
    | with_reducible exact Keeps.refl _
    | with_reducible assumption
    | with_reducible refine Keeps.of_fst ?_ (by assumption)
    | with_reducible refine Keeps.ite_fst ?_ ?_
    | simp only [Keeps.put]
    | with_reducible refine State.charge_keeps ?_
    | with_reducible refine State.placeRequest_keeps ?_
    | with_reducible refine Keeps.forEach (fun x st => ?_) ?_
    | with_reducible refine Keeps.foldl_fst (fun acc x => ?_) ?_
    | with_reducible refine Keeps.foldl (fun st x => ?_) ?_
    | split

theorem State.moveLap_keeps {t s : State} {x0} (h : Keeps t s) : Keeps t (State.moveLap x0 s) := by
  refine h.trans ?_
  clear h
  unfold State.moveLap
  repeat' first
    | with_reducible exact Keeps.refl _
    | with_reducible assumption
    | with_reducible refine Keeps.of_fst ?_ (by assumption)
    | with_reducible refine Keeps.ite_fst ?_ ?_
    | simp only [Keeps.put]
    | with_reducible refine State.startHome_keeps ?_
    | with_reducible refine Keeps.forEach (fun x st => ?_) ?_
    | with_reducible refine Keeps.foldl_fst (fun acc x => ?_) ?_
    | with_reducible refine Keeps.foldl (fun st x => ?_) ?_
    | split

theorem State.moveGroup_keeps {t s : State} {x0} (h : Keeps t s) : Keeps t (State.moveGroup x0 s) := by
  refine h.trans ?_
  clear h
  unfold State.moveGroup
  repeat' first
    | with_reducible exact Keeps.refl _
    | with_reducible assumption
    | with_reducible refine Keeps.of_fst ?_ (by assumption)
    | with_reducible refine Keeps.ite_fst ?_ ?_
    | simp only [Keeps.put]
    | with_reducible refine State.startHome_keeps ?_
    | with_reducible refine Keeps.forEach (fun x st => ?_) ?_
    | with_reducible refine Keeps.foldl_fst (fun acc x => ?_) ?_
    | with_reducible refine Keeps.foldl (fun st x => ?_) ?_
    | split

theorem State.homeMoves_keeps {t s : State} (h : Keeps t s) : Keeps t (State.homeMoves s) := by
  refine h.trans ?_
  clear h
  unfold State.homeMoves
  repeat' first
    | with_reducible exact Keeps.refl _
    | with_reducible assumption
    | with_reducible refine Keeps.of_fst ?_ (by assumption)
    | with_reducible refine Keeps.ite_fst ?_ ?_
    | simp only [Keeps.put]
    | with_reducible refine State.homesOver_keeps ?_
    | with_reducible refine State.moveLap_keeps ?_
    | with_reducible refine State.moveGroup_keeps ?_
    | with_reducible refine Keeps.forEach (fun x st => ?_) ?_
    | with_reducible refine Keeps.foldl_fst (fun acc x => ?_) ?_
    | with_reducible refine Keeps.foldl (fun st x => ?_) ?_
    | split

theorem State.markLost_keeps {t s : State} (h : Keeps t s) : Keeps t (State.markLost s) := by
  refine h.trans ?_
  clear h
  unfold State.markLost
  repeat' first
    | with_reducible exact Keeps.refl _
    | with_reducible assumption
    | with_reducible refine Keeps.of_fst ?_ (by assumption)
    | with_reducible refine Keeps.ite_fst ?_ ?_
    | simp only [Keeps.put]
    | with_reducible refine State.abandonMove_keeps ?_
    | with_reducible refine State.countNote_keeps ?_
    | with_reducible refine State.putPage_keeps ?_
    | with_reducible refine Keeps.forEach (fun x st => ?_) ?_
    | with_reducible refine Keeps.foldl_fst (fun acc x => ?_) ?_
    | with_reducible refine Keeps.foldl (fun st x => ?_) ?_
    | split

theorem State.moveBadRead_keeps {t s : State} {x0 x1 x2} (h : Keeps t s) : Keeps t (State.moveBadRead x0 x1 x2 s) := by
  refine h.trans ?_
  clear h
  unfold State.moveBadRead
  repeat' first
    | with_reducible exact Keeps.refl _
    | with_reducible assumption
    | with_reducible refine Keeps.of_fst ?_ (by assumption)
    | with_reducible refine Keeps.ite_fst ?_ ?_
    | simp only [Keeps.put]
    | with_reducible refine State.abandonMove_keeps ?_
    | with_reducible refine Keeps.forEach (fun x st => ?_) ?_
    | with_reducible refine Keeps.foldl_fst (fun acc x => ?_) ?_
    | with_reducible refine Keeps.foldl (fun st x => ?_) ?_
    | split

theorem State.moveFailed_keeps {t s : State} {x0 x1 x2} (h : Keeps t s) : Keeps t (State.moveFailed x0 x1 x2 s) := by
  refine h.trans ?_
  clear h
  unfold State.moveFailed
  repeat' first
    | with_reducible exact Keeps.refl _
    | with_reducible assumption
    | with_reducible refine Keeps.of_fst ?_ (by assumption)
    | with_reducible refine Keeps.ite_fst ?_ ?_
    | simp only [Keeps.put]
    | with_reducible refine State.bump_keeps ?_
    | with_reducible refine State.abandonMove_keeps ?_
    | with_reducible refine Keeps.forEach (fun x st => ?_) ?_
    | with_reducible refine Keeps.foldl_fst (fun acc x => ?_) ?_
    | with_reducible refine Keeps.foldl (fun st x => ?_) ?_
    | split

theorem State.updMove_keeps {t s : State} {x0 x1} (h : Keeps t s) : Keeps t (State.updMove x0 x1 s) := by
  refine h.trans ?_
  clear h
  unfold State.updMove
  repeat' first
    | with_reducible exact Keeps.refl _
    | with_reducible assumption
    | with_reducible refine Keeps.of_fst ?_ (by assumption)
    | with_reducible refine Keeps.ite_fst ?_ ?_
    | simp only [Keeps.put]
    | with_reducible refine Keeps.forEach (fun x st => ?_) ?_
    | with_reducible refine Keeps.foldl_fst (fun acc x => ?_) ?_
    | with_reducible refine Keeps.foldl (fun st x => ?_) ?_
    | split

theorem State.moveWrites_keeps {t s : State} {x0 x1} (h : Keeps t s) : Keeps t (State.moveWrites x0 x1 s) := by
  refine h.trans ?_
  clear h
  unfold State.moveWrites
  repeat' first
    | with_reducible exact Keeps.refl _
    | with_reducible assumption
    | with_reducible refine Keeps.of_fst ?_ (by assumption)
    | with_reducible refine Keeps.ite_fst ?_ ?_
    | simp only [Keeps.put]
    | with_reducible refine State.updMove_keeps ?_
    | with_reducible refine State.hearthPut_keeps ?_
    | with_reducible refine State.clearBad_keeps ?_
    | with_reducible refine State.memRequest_keeps ?_
    | with_reducible refine State.pantryPut_keeps ?_
    | with_reducible refine State.pantryRequest_keeps ?_
    | with_reducible refine State.request_keeps ?_
    | with_reducible refine Keeps.forEach (fun x st => ?_) ?_
    | with_reducible refine Keeps.foldl_fst (fun acc x => ?_) ?_
    | with_reducible refine Keeps.foldl (fun st x => ?_) ?_
    | split

theorem State.moveOn_keeps {t s : State} {x0} (h : Keeps t s) : Keeps t (State.moveOn x0 s) := by
  refine h.trans ?_
  clear h
  unfold State.moveOn
  repeat' first
    | with_reducible exact Keeps.refl _
    | with_reducible assumption
    | with_reducible refine Keeps.of_fst ?_ (by assumption)
    | with_reducible refine Keeps.ite_fst ?_ ?_
    | simp only [Keeps.put]
    | with_reducible refine State.moveWrites_keeps ?_
    | with_reducible refine Keeps.forEach (fun x st => ?_) ?_
    | with_reducible refine Keeps.foldl_fst (fun acc x => ?_) ?_
    | with_reducible refine Keeps.foldl (fun st x => ?_) ?_
    | split

theorem State.moveRead_keeps {t s : State} {x0 x1 x2 x3 x4} (h : Keeps t s) : Keeps t (State.moveRead x0 x1 x2 x3 x4 s) := by
  refine h.trans ?_
  clear h
  unfold State.moveRead
  repeat' first
    | with_reducible exact Keeps.refl _
    | with_reducible assumption
    | with_reducible refine Keeps.of_fst ?_ (by assumption)
    | with_reducible refine Keeps.ite_fst ?_ ?_
    | simp only [Keeps.put]
    | with_reducible refine State.updMove_keeps ?_
    | with_reducible refine State.moveOn_keeps ?_
    | with_reducible refine Keeps.forEach (fun x st => ?_) ?_
    | with_reducible refine Keeps.foldl_fst (fun acc x => ?_) ?_
    | with_reducible refine Keeps.foldl (fun st x => ?_) ?_
    | split

theorem State.switchHome_keeps {t s : State} {x0} (h : Keeps t s) : Keeps t (State.switchHome x0 s) := by
  refine h.trans ?_
  clear h
  unfold State.switchHome
  repeat' first
    | with_reducible exact Keeps.refl _
    | with_reducible assumption
    | with_reducible refine Keeps.of_fst ?_ (by assumption)
    | with_reducible refine Keeps.ite_fst ?_ ?_
    | simp only [Keeps.put]
    | with_reducible refine State.updHank_keeps ?_
    | with_reducible refine State.putPage_keeps ?_
    | with_reducible refine State.dropMove_keeps ?_
    | with_reducible refine State.bump_keeps ?_
    | with_reducible refine Keeps.forEach (fun x st => ?_) ?_
    | with_reducible refine Keeps.foldl_fst (fun acc x => ?_) ?_
    | with_reducible refine Keeps.foldl (fun st x => ?_) ?_
    | split

theorem State.moveWritten_keeps {t s : State} {x0 x1 x2} (h : Keeps t s) : Keeps t (State.moveWritten x0 x1 x2 s) := by
  refine h.trans ?_
  clear h
  unfold State.moveWritten
  repeat' first
    | with_reducible exact Keeps.refl _
    | with_reducible assumption
    | with_reducible refine Keeps.of_fst ?_ (by assumption)
    | with_reducible refine Keeps.ite_fst ?_ ?_
    | simp only [Keeps.put]
    | with_reducible refine State.updMove_keeps ?_
    | with_reducible refine State.switchHome_keeps ?_
    | with_reducible refine Keeps.forEach (fun x st => ?_) ?_
    | with_reducible refine Keeps.foldl_fst (fun acc x => ?_) ?_
    | with_reducible refine Keeps.foldl (fun st x => ?_) ?_
    | split

theorem State.placeOne_keeps {t s : State} {x0} (h : Keeps t s) : Keeps t (State.placeOne x0 s) := by
  refine h.trans ?_
  clear h
  unfold State.placeOne
  repeat' first
    | with_reducible exact Keeps.refl _
    | with_reducible assumption
    | with_reducible refine Keeps.of_fst ?_ (by assumption)
    | with_reducible refine Keeps.ite_fst ?_ ?_
    | simp only [Keeps.put]
    | with_reducible refine State.countFull_keeps ?_
    | with_reducible refine State.startMove_keeps ?_
    | with_reducible refine State.charge_keeps ?_
    | with_reducible refine Keeps.forEach (fun x st => ?_) ?_
    | with_reducible refine Keeps.foldl_fst (fun acc x => ?_) ?_
    | with_reducible refine Keeps.foldl (fun st x => ?_) ?_
    | split

theorem State.moverPass_keeps {t s : State} (h : Keeps t s) : Keeps t (State.moverPass s) := by
  refine h.trans ?_
  clear h
  unfold State.moverPass
  repeat' first
    | with_reducible exact Keeps.refl _
    | with_reducible assumption
    | with_reducible refine Keeps.of_fst ?_ (by assumption)
    | with_reducible refine Keeps.ite_fst ?_ ?_
    | simp only [Keeps.put]
    | with_reducible refine State.demandOne_keeps ?_
    | with_reducible refine State.homeMoves_keeps ?_
    | with_reducible refine State.placeOne_keeps ?_
    | with_reducible refine State.promote_keeps ?_
    | with_reducible refine Keeps.forEach (fun x st => ?_) ?_
    | with_reducible refine Keeps.foldl_fst (fun acc x => ?_) ?_
    | with_reducible refine Keeps.foldl (fun st x => ?_) ?_
    | split

theorem State.pageDiscard_keeps {t s : State} {x0 x1} (h : Keeps t s) : Keeps t (State.pageDiscard x0 x1 s).1 := by
  refine h.trans ?_
  clear h
  unfold State.pageDiscard
  repeat' first
    | with_reducible exact Keeps.refl _
    | with_reducible assumption
    | with_reducible refine Keeps.of_fst ?_ (by assumption)
    | with_reducible refine Keeps.ite_fst ?_ ?_
    | simp only [Keeps.put]
    | with_reducible refine State.discardNow_keeps ?_
    | with_reducible refine Keeps.forEach (fun x st => ?_) ?_
    | with_reducible refine Keeps.foldl_fst (fun acc x => ?_) ?_
    | with_reducible refine Keeps.foldl (fun st x => ?_) ?_
    | split

theorem State.pageGood_keeps {t s : State} {x0 x1} (h : Keeps t s) : Keeps t (State.pageGood x0 x1 s) := by
  refine h.trans ?_
  clear h
  unfold State.pageGood
  repeat' first
    | with_reducible exact Keeps.refl _
    | with_reducible assumption
    | with_reducible refine Keeps.of_fst ?_ (by assumption)
    | with_reducible refine Keeps.ite_fst ?_ ?_
    | simp only [Keeps.put]
    | with_reducible refine State.clearBad_keeps ?_
    | with_reducible refine Keeps.forEach (fun x st => ?_) ?_
    | with_reducible refine Keeps.foldl_fst (fun acc x => ?_) ?_
    | with_reducible refine Keeps.foldl (fun st x => ?_) ?_
    | split

theorem State.pageMerge_keeps {t s : State} {x0 x1 x2 x3} (h : Keeps t s) : Keeps t (State.pageMerge x0 x1 x2 x3 s) := by
  refine h.trans ?_
  clear h
  unfold State.pageMerge
  repeat' first
    | with_reducible exact Keeps.refl _
    | with_reducible assumption
    | with_reducible refine Keeps.of_fst ?_ (by assumption)
    | with_reducible refine Keeps.ite_fst ?_ ?_
    | simp only [Keeps.put]
    | with_reducible refine State.hearthBeat_keeps ?_
    | with_reducible refine State.pantryBeat_keeps ?_
    | with_reducible refine Keeps.forEach (fun x st => ?_) ?_
    | with_reducible refine Keeps.foldl_fst (fun acc x => ?_) ?_
    | with_reducible refine Keeps.foldl (fun st x => ?_) ?_
    | split

theorem State.pageWrite_keeps {t s : State} {x0 x1 x2} (h : Keeps t s) : Keeps t (State.pageWrite x0 x1 x2 s) := by
  refine h.trans ?_
  clear h
  unfold State.pageWrite
  repeat' first
    | with_reducible exact Keeps.refl _
    | with_reducible assumption
    | with_reducible refine Keeps.of_fst ?_ (by assumption)
    | with_reducible refine Keeps.ite_fst ?_ ?_
    | simp only [Keeps.put]
    | with_reducible refine State.hearthWrite_keeps ?_
    | with_reducible refine State.pantryWrite_keeps ?_
    | with_reducible refine Keeps.forEach (fun x st => ?_) ?_
    | with_reducible refine Keeps.foldl_fst (fun acc x => ?_) ?_
    | with_reducible refine Keeps.foldl (fun st x => ?_) ?_
    | split

theorem State.queueDemand_keeps {t s : State} {x0 x1 x2} (h : Keeps t s) : Keeps t (State.queueDemand x0 x1 x2 s) := by
  refine h.trans ?_
  clear h
  unfold State.queueDemand
  repeat' first
    | with_reducible exact Keeps.refl _
    | with_reducible assumption
    | with_reducible refine Keeps.of_fst ?_ (by assumption)
    | with_reducible refine Keeps.ite_fst ?_ ?_
    | simp only [Keeps.put]
    | with_reducible refine State.putPage_keeps ?_
    | with_reducible refine Keeps.forEach (fun x st => ?_) ?_
    | with_reducible refine Keeps.foldl_fst (fun acc x => ?_) ?_
    | with_reducible refine Keeps.foldl (fun st x => ?_) ?_
    | split

theorem State.retryDiscards_keeps {t s : State} (h : Keeps t s) : Keeps t (State.retryDiscards s) := by
  refine h.trans ?_
  clear h
  unfold State.retryDiscards
  repeat' first
    | with_reducible exact Keeps.refl _
    | with_reducible assumption
    | with_reducible refine Keeps.of_fst ?_ (by assumption)
    | with_reducible refine Keeps.ite_fst ?_ ?_
    | simp only [Keeps.put]
    | with_reducible refine State.discardNow_keeps ?_
    | with_reducible refine State.answerDiscard_keeps ?_
    | with_reducible refine Keeps.forEach (fun x st => ?_) ?_
    | with_reducible refine Keeps.foldl_fst (fun acc x => ?_) ?_
    | with_reducible refine Keeps.foldl (fun st x => ?_) ?_
    | split

theorem State.retryMoves_keeps {t s : State} (h : Keeps t s) : Keeps t (State.retryMoves s) := by
  refine h.trans ?_
  clear h
  unfold State.retryMoves
  repeat' first
    | with_reducible exact Keeps.refl _
    | with_reducible assumption
    | with_reducible refine Keeps.of_fst ?_ (by assumption)
    | with_reducible refine Keeps.ite_fst ?_ ?_
    | simp only [Keeps.put]
    | with_reducible refine State.moveOn_keeps ?_
    | with_reducible refine State.homeWrites_keeps ?_
    | with_reducible refine Keeps.forEach (fun x st => ?_) ?_
    | with_reducible refine Keeps.foldl_fst (fun acc x => ?_) ?_
    | with_reducible refine Keeps.foldl (fun st x => ?_) ?_
    | split

end Sys2Proof.Machine
end

