-- ==== Sys2Proof/Laws/KeepsHall.lean ====
section
/-! SUPPORT. What the operations of Machine/Hall.lean keep (Keeps.lean). -/

set_option linter.unusedSimpArgs false

namespace Sys2Proof.Machine

theorem State.outside_keeps {t s : State} (h : Keeps t s) : Keeps t (State.outside s).1 := by
  refine h.trans ?_
  clear h
  unfold State.outside
  repeat' first
    | with_reducible exact Keeps.refl _
    | with_reducible assumption
    | with_reducible refine Keeps.of_fst ?_ (by assumption)
    | with_reducible refine Keeps.ite_fst ?_ ?_
    | simp only [Keeps.put]
    | with_reducible refine State.bump_keeps ?_
    | with_reducible refine Keeps.forEach (fun x st => ?_) ?_
    | with_reducible refine Keeps.foldl_fst (fun acc x => ?_) ?_
    | with_reducible refine Keeps.foldl (fun st x => ?_) ?_
    | split

theorem State.aliasAnswer_keeps {t s : State} {x0 x1} (h : Keeps t s) : Keeps t (State.aliasAnswer x0 x1 s).1 := by
  refine h.trans ?_
  clear h
  unfold State.aliasAnswer
  repeat' first
    | with_reducible exact Keeps.refl _
    | with_reducible assumption
    | with_reducible refine Keeps.of_fst ?_ (by assumption)
    | with_reducible refine Keeps.ite_fst ?_ ?_
    | simp only [Keeps.put]
    | with_reducible refine State.outside_keeps ?_
    | with_reducible refine State.addRepair_keeps ?_
    | with_reducible refine State.bump_keeps ?_
    | with_reducible refine State.findErrors_keeps ?_
    | with_reducible refine Keeps.forEach (fun x st => ?_) ?_
    | with_reducible refine Keeps.foldl_fst (fun acc x => ?_) ?_
    | with_reducible refine Keeps.foldl (fun st x => ?_) ?_
    | split

theorem State.askMaps_keeps {t s : State} {x0 x1} (h : Keeps t s) : Keeps t (State.askMaps x0 x1 s) := by
  refine h.trans ?_
  clear h
  unfold State.askMaps
  repeat' first
    | with_reducible exact Keeps.refl _
    | with_reducible assumption
    | with_reducible refine Keeps.of_fst ?_ (by assumption)
    | with_reducible refine Keeps.ite_fst ?_ ?_
    | simp only [Keeps.put]
    | with_reducible refine State.askMap_keeps ?_
    | with_reducible refine Keeps.forEach (fun x st => ?_) ?_
    | with_reducible refine Keeps.foldl_fst (fun acc x => ?_) ?_
    | with_reducible refine Keeps.foldl (fun st x => ?_) ?_
    | split

theorem State.askRead_keeps {t s : State} {x0 x1 x2} (h : Keeps t s) : Keeps t (State.askRead x0 x1 x2 s) := by
  refine h.trans ?_
  clear h
  unfold State.askRead
  repeat' first
    | with_reducible exact Keeps.refl _
    | with_reducible assumption
    | with_reducible refine Keeps.of_fst ?_ (by assumption)
    | with_reducible refine Keeps.ite_fst ?_ ?_
    | simp only [Keeps.put]
    | with_reducible refine State.askMaps_keeps ?_
    | with_reducible refine State.takeMem_keeps ?_
    | with_reducible refine State.takeLines_keeps ?_
    | with_reducible refine State.readMaskAt_keeps ?_
    | with_reducible refine Keeps.forEach (fun x st => ?_) ?_
    | with_reducible refine Keeps.foldl_fst (fun acc x => ?_) ?_
    | with_reducible refine Keeps.foldl (fun st x => ?_) ?_
    | split

theorem State.cellarBeat_keeps {t s : State} {x0 x1 x2} (h : Keeps t s) : Keeps t (State.cellarBeat x0 x1 x2 s).1 := by
  refine h.trans ?_
  clear h
  unfold State.cellarBeat
  repeat' first
    | with_reducible exact Keeps.refl _
    | with_reducible assumption
    | with_reducible refine Keeps.of_fst ?_ (by assumption)
    | with_reducible refine Keeps.ite_fst ?_ ?_
    | simp only [Keeps.put]
    | with_reducible refine State.queueDemand_keeps ?_
    | with_reducible refine State.bump_keeps ?_
    | with_reducible refine Keeps.forEach (fun x st => ?_) ?_
    | with_reducible refine Keeps.foldl_fst (fun acc x => ?_) ?_
    | with_reducible refine Keeps.foldl (fun st x => ?_) ?_
    | split

theorem State.chargeBeat_keeps {t s : State} {x0 x1 x2} (h : Keeps t s) : Keeps t (State.chargeBeat x0 x1 x2 s) := by
  refine h.trans ?_
  clear h
  unfold State.chargeBeat
  repeat' first
    | with_reducible exact Keeps.refl _
    | with_reducible assumption
    | with_reducible refine Keeps.of_fst ?_ (by assumption)
    | with_reducible refine Keeps.ite_fst ?_ ?_
    | simp only [Keeps.put]
    | with_reducible refine State.chargeReel_keeps ?_
    | with_reducible refine Keeps.forEach (fun x st => ?_) ?_
    | with_reducible refine Keeps.foldl_fst (fun acc x => ?_) ?_
    | with_reducible refine Keeps.foldl (fun st x => ?_) ?_
    | split

theorem State.chargeWindow_keeps {t s : State} {x0 x1} (h : Keeps t s) : Keeps t (State.chargeWindow x0 x1 s) := by
  refine h.trans ?_
  clear h
  unfold State.chargeWindow
  repeat' first
    | with_reducible exact Keeps.refl _
    | with_reducible assumption
    | with_reducible refine Keeps.of_fst ?_ (by assumption)
    | with_reducible refine Keeps.ite_fst ?_ ?_
    | simp only [Keeps.put]
    | with_reducible refine State.bump_keeps ?_
    | with_reducible refine Keeps.forEach (fun x st => ?_) ?_
    | with_reducible refine Keeps.foldl_fst (fun acc x => ?_) ?_
    | with_reducible refine Keeps.foldl (fun st x => ?_) ?_
    | split

theorem State.countLate_keeps {t s : State} {x0} (h : Keeps t s) : Keeps t (State.countLate x0 s) := by
  refine h.trans ?_
  clear h
  unfold State.countLate
  repeat' first
    | with_reducible exact Keeps.refl _
    | with_reducible assumption
    | with_reducible refine Keeps.of_fst ?_ (by assumption)
    | with_reducible refine Keeps.ite_fst ?_ ?_
    | simp only [Keeps.put]
    | with_reducible refine State.bump_keeps ?_
    | with_reducible refine Keeps.forEach (fun x st => ?_) ?_
    | with_reducible refine Keeps.foldl_fst (fun acc x => ?_) ?_
    | with_reducible refine Keeps.foldl (fun st x => ?_) ?_
    | split

theorem State.pageBeat_keeps {t s : State} {x0 x1} (h : Keeps t s) : Keeps t (State.pageBeat x0 x1 s).1 := by
  refine h.trans ?_
  clear h
  unfold State.pageBeat
  repeat' first
    | with_reducible exact Keeps.refl _
    | with_reducible assumption
    | with_reducible refine Keeps.of_fst ?_ (by assumption)
    | with_reducible refine Keeps.ite_fst ?_ ?_
    | simp only [Keeps.put]
    | with_reducible refine State.cellarBeat_keeps ?_
    | with_reducible refine State.bump_keeps ?_
    | with_reducible refine State.chargeReel_keeps ?_
    | with_reducible refine State.heatPage_keeps ?_
    | with_reducible refine Keeps.forEach (fun x st => ?_) ?_
    | with_reducible refine Keeps.foldl_fst (fun acc x => ?_) ?_
    | with_reducible refine Keeps.foldl (fun st x => ?_) ?_
    | split

theorem State.dataBeat_keeps {t s : State} {x0 x1} (h : Keeps t s) : Keeps t (State.dataBeat x0 x1 s).1 := by
  refine h.trans ?_
  clear h
  unfold State.dataBeat
  repeat' first
    | with_reducible exact Keeps.refl _
    | with_reducible assumption
    | with_reducible refine Keeps.of_fst ?_ (by assumption)
    | with_reducible refine Keeps.ite_fst ?_ ?_
    | simp only [Keeps.put]
    | with_reducible refine State.outside_keeps ?_
    | with_reducible refine State.pageBeat_keeps ?_
    | with_reducible refine State.bump_keeps ?_
    | with_reducible refine State.chargeReel_keeps ?_
    | with_reducible refine Keeps.forEach (fun x st => ?_) ?_
    | with_reducible refine Keeps.foldl_fst (fun acc x => ?_) ?_
    | with_reducible refine Keeps.foldl (fun st x => ?_) ?_
    | split

theorem State.respond_keeps {t s : State} {x0 x1} (h : Keeps t s) : Keeps t (State.respond x0 x1 s) := by
  refine h.trans ?_
  clear h
  unfold State.respond
  repeat' first
    | with_reducible exact Keeps.refl _
    | with_reducible assumption
    | with_reducible refine Keeps.of_fst ?_ (by assumption)
    | with_reducible refine Keeps.ite_fst ?_ ?_
    | simp only [Keeps.put]
    | with_reducible refine State.emit_keeps ?_
    | with_reducible refine Keeps.forEach (fun x st => ?_) ?_
    | with_reducible refine Keeps.foldl_fst (fun acc x => ?_) ?_
    | with_reducible refine Keeps.foldl (fun st x => ?_) ?_
    | split

theorem State.respondAll_keeps {t s : State} {x0 x1} (h : Keeps t s) : Keeps t (State.respondAll x0 x1 s) := by
  refine h.trans ?_
  clear h
  unfold State.respondAll
  repeat' first
    | with_reducible exact Keeps.refl _
    | with_reducible assumption
    | with_reducible refine Keeps.of_fst ?_ (by assumption)
    | with_reducible refine Keeps.ite_fst ?_ ?_
    | simp only [Keeps.put]
    | with_reducible refine State.respond_keeps ?_
    | with_reducible refine Keeps.forEach (fun x st => ?_) ?_
    | with_reducible refine Keeps.foldl_fst (fun acc x => ?_) ?_
    | with_reducible refine Keeps.foldl (fun st x => ?_) ?_
    | split

theorem State.dropHallRead_keeps {t s : State} {x0} (h : Keeps t s) : Keeps t (State.dropHallRead x0 s) := by
  refine h.trans ?_
  clear h
  unfold State.dropHallRead
  repeat' first
    | with_reducible exact Keeps.refl _
    | with_reducible assumption
    | with_reducible refine Keeps.of_fst ?_ (by assumption)
    | with_reducible refine Keeps.ite_fst ?_ ?_
    | simp only [Keeps.put]
    | with_reducible refine Keeps.forEach (fun x st => ?_) ?_
    | with_reducible refine Keeps.foldl_fst (fun acc x => ?_) ?_
    | with_reducible refine Keeps.foldl (fun st x => ?_) ?_
    | split

theorem State.runBeats_keeps {t s : State} {x0 x1} (hf : ∀ {i t s}, Keeps t s → Keeps t (x0 i s).1) (h : Keeps t s) :
    Keeps t (State.runBeats x0 x1 s).1 := by
  unfold State.runBeats
  exact Keeps.foldl_fst (fun acc x => hf (Keeps.refl _)) h

theorem State.finishAlias_keeps {t s : State} {x0 x1 x2} (h : Keeps t s) : Keeps t (State.finishAlias x0 x1 x2 s) := by
  refine h.trans ?_
  clear h
  unfold State.finishAlias
  repeat' first
    | with_reducible exact Keeps.refl _
    | with_reducible assumption
    | with_reducible refine Keeps.of_fst ?_ (by assumption)
    | with_reducible refine Keeps.ite_fst ?_ ?_
    | simp only [Keeps.put]
    | with_reducible refine State.runBeats_keeps (fun hk => ?_) ?_
    | with_reducible refine State.aliasAnswer_keeps ?_
    | with_reducible refine State.dropHallRead_keeps ?_
    | with_reducible refine State.countUnlisted_keeps ?_
    | with_reducible refine State.respond_keeps ?_
    | with_reducible refine Keeps.forEach (fun x st => ?_) ?_
    | with_reducible refine Keeps.foldl_fst (fun acc x => ?_) ?_
    | with_reducible refine Keeps.foldl (fun st x => ?_) ?_
    | split

theorem State.goAlias_keeps {t s : State} {x0} (h : Keeps t s) : Keeps t (State.goAlias x0 s) := by
  refine h.trans ?_
  clear h
  unfold State.goAlias
  repeat' first
    | with_reducible exact Keeps.refl _
    | with_reducible assumption
    | with_reducible refine Keeps.of_fst ?_ (by assumption)
    | with_reducible refine Keeps.ite_fst ?_ ?_
    | simp only [Keeps.put]
    | with_reducible refine State.respondAll_keeps ?_
    | with_reducible refine State.dropHallRead_keeps ?_
    | with_reducible refine State.finishAlias_keeps ?_
    | with_reducible refine State.bump_keeps ?_
    | with_reducible refine Keeps.forEach (fun x st => ?_) ?_
    | with_reducible refine Keeps.foldl_fst (fun acc x => ?_) ?_
    | with_reducible refine Keeps.foldl (fun st x => ?_) ?_
    | split

theorem State.gotHall_keeps {t s : State} {x0 x1} (h : Keeps t s) : Keeps t (State.gotHall x0 x1 s) := by
  refine h.trans ?_
  clear h
  unfold State.gotHall
  repeat' first
    | with_reducible exact Keeps.refl _
    | with_reducible assumption
    | with_reducible refine Keeps.of_fst ?_ (by assumption)
    | with_reducible refine Keeps.ite_fst ?_ ?_
    | simp only [Keeps.put]
    | with_reducible refine State.goAlias_keeps ?_
    | with_reducible refine Keeps.forEach (fun x st => ?_) ?_
    | with_reducible refine Keeps.foldl_fst (fun acc x => ?_) ?_
    | with_reducible refine Keeps.foldl (fun st x => ?_) ?_
    | split

theorem State.hallDecoded_keeps {t s : State} {x0} (h : Keeps t s) : Keeps t (State.hallDecoded x0 s) := by
  refine h.trans ?_
  clear h
  unfold State.hallDecoded
  repeat' first
    | with_reducible exact Keeps.refl _
    | with_reducible assumption
    | with_reducible refine Keeps.of_fst ?_ (by assumption)
    | with_reducible refine Keeps.ite_fst ?_ ?_
    | simp only [Keeps.put]
    | with_reducible refine State.gotHall_keeps ?_
    | with_reducible refine State.startDecode_keeps ?_
    | with_reducible refine Keeps.forEach (fun x st => ?_) ?_
    | with_reducible refine Keeps.foldl_fst (fun acc x => ?_) ?_
    | with_reducible refine Keeps.foldl (fun st x => ?_) ?_
    | split

theorem State.decodeForHall_keeps {t s : State} {x0 x1 x2 x3} (h : Keeps t s) : Keeps t (State.decodeForHall x0 x1 x2 x3 s) := by
  refine h.trans ?_
  clear h
  unfold State.decodeForHall
  repeat' first
    | with_reducible exact Keeps.refl _
    | with_reducible assumption
    | with_reducible refine Keeps.of_fst ?_ (by assumption)
    | with_reducible refine Keeps.ite_fst ?_ ?_
    | simp only [Keeps.put]
    | with_reducible refine State.startDecode_keeps ?_
    | with_reducible refine State.hallDecoded_keeps ?_
    | with_reducible refine Keeps.forEach (fun x st => ?_) ?_
    | with_reducible refine Keeps.foldl_fst (fun acc x => ?_) ?_
    | with_reducible refine Keeps.foldl (fun st x => ?_) ?_
    | split

theorem State.gatherTile_keeps {t s : State} {x0 x1} (h : Keeps t s) : Keeps t (State.gatherTile x0 x1 s) := by
  refine h.trans ?_
  clear h
  unfold State.gatherTile
  repeat' first
    | with_reducible exact Keeps.refl _
    | with_reducible assumption
    | with_reducible refine Keeps.of_fst ?_ (by assumption)
    | with_reducible refine Keeps.ite_fst ?_ ?_
    | simp only [Keeps.put]
    | with_reducible refine State.chargeBeat_keeps ?_
    | with_reducible refine State.findErrors_keeps ?_
    | with_reducible refine Keeps.forEach (fun x st => ?_) ?_
    | with_reducible refine Keeps.foldl_fst (fun acc x => ?_) ?_
    | with_reducible refine Keeps.foldl (fun st x => ?_) ?_
    | split

theorem State.grantAll_keeps {t s : State} {x0 x1} (h : Keeps t s) : Keeps t (State.grantAll x0 x1 s).1 := by
  refine h.trans ?_
  clear h
  unfold State.grantAll
  repeat' first
    | with_reducible exact Keeps.refl _
    | with_reducible assumption
    | with_reducible refine Keeps.of_fst ?_ (by assumption)
    | with_reducible refine Keeps.ite_fst ?_ ?_
    | simp only [Keeps.put]
    | with_reducible refine State.grantCopy_keeps ?_
    | with_reducible refine Keeps.forEach (fun x st => ?_) ?_
    | with_reducible refine Keeps.foldl_fst (fun acc x => ?_) ?_
    | with_reducible refine Keeps.foldl (fun st x => ?_) ?_
    | split

theorem State.refuseHall_keeps {t s : State} {x0 x1} (h : Keeps t s) : Keeps t (State.refuseHall x0 x1 s) := by
  refine h.trans ?_
  clear h
  unfold State.refuseHall
  repeat' first
    | with_reducible exact Keeps.refl _
    | with_reducible assumption
    | with_reducible refine Keeps.of_fst ?_ (by assumption)
    | with_reducible refine Keeps.ite_fst ?_ ?_
    | simp only [Keeps.put]
    | with_reducible refine State.bump_keeps ?_
    | with_reducible refine State.respondAll_keeps ?_
    | with_reducible refine Keeps.forEach (fun x st => ?_) ?_
    | with_reducible refine Keeps.foldl_fst (fun acc x => ?_) ?_
    | with_reducible refine Keeps.foldl (fun st x => ?_) ?_
    | split

theorem State.windowBeat_keeps {t s : State} {x0 x1 x2 x3 x4 x5} (h : Keeps t s) : Keeps t (State.windowBeat x0 x1 x2 x3 x4 x5 s).1 := by
  refine h.trans ?_
  clear h
  unfold State.windowBeat
  repeat' first
    | with_reducible exact Keeps.refl _
    | with_reducible assumption
    | with_reducible refine Keeps.of_fst ?_ (by assumption)
    | with_reducible refine Keeps.ite_fst ?_ ?_
    | simp only [Keeps.put]
    | with_reducible refine State.outside_keeps ?_
    | with_reducible refine State.bump_keeps ?_
    | with_reducible refine State.chargeWindow_keeps ?_
    | with_reducible refine Keeps.forEach (fun x st => ?_) ?_
    | with_reducible refine Keeps.foldl_fst (fun acc x => ?_) ?_
    | with_reducible refine Keeps.foldl (fun st x => ?_) ?_
    | split

theorem State.serveWindow_keeps {t s : State} {x0 x1 x2 x3} (h : Keeps t s) : Keeps t (State.serveWindow x0 x1 x2 x3 s) := by
  refine h.trans ?_
  clear h
  unfold State.serveWindow
  repeat' first
    | with_reducible exact Keeps.refl _
    | with_reducible assumption
    | with_reducible refine Keeps.of_fst ?_ (by assumption)
    | with_reducible refine Keeps.ite_fst ?_ ?_
    | simp only [Keeps.put]
    | with_reducible refine State.runBeats_keeps (fun hk => ?_) ?_
    | with_reducible refine State.windowBeat_keeps ?_
    | with_reducible refine State.respond_keeps ?_
    | with_reducible refine Keeps.forEach (fun x st => ?_) ?_
    | with_reducible refine Keeps.foldl_fst (fun acc x => ?_) ?_
    | with_reducible refine Keeps.foldl (fun st x => ?_) ?_
    | split

theorem State.holdHall_keeps {t s : State} {x0 x1 x2 x3} (h : Keeps t s) : Keeps t (State.holdHall x0 x1 x2 x3 s) := by
  refine h.trans ?_
  clear h
  unfold State.holdHall
  repeat' first
    | with_reducible exact Keeps.refl _
    | with_reducible assumption
    | with_reducible refine Keeps.of_fst ?_ (by assumption)
    | with_reducible refine Keeps.ite_fst ?_ ?_
    | simp only [Keeps.put]
    | with_reducible refine Keeps.forEach (fun x st => ?_) ?_
    | with_reducible refine Keeps.foldl_fst (fun acc x => ?_) ?_
    | with_reducible refine Keeps.foldl (fun st x => ?_) ?_
    | split

theorem State.readWindow_keeps {t s : State} {x0} (h : Keeps t s) : Keeps t (State.readWindow x0 s) := by
  refine h.trans ?_
  clear h
  unfold State.readWindow
  repeat' first
    | with_reducible exact Keeps.refl _
    | with_reducible assumption
    | with_reducible refine Keeps.of_fst ?_ (by assumption)
    | with_reducible refine Keeps.ite_fst ?_ ?_
    | simp only [Keeps.put]
    | with_reducible refine State.serveWindow_keeps ?_
    | with_reducible refine State.holdHall_keeps ?_
    | with_reducible refine Keeps.forEach (fun x st => ?_) ?_
    | with_reducible refine Keeps.foldl_fst (fun acc x => ?_) ?_
    | with_reducible refine Keeps.foldl (fun st x => ?_) ?_
    | split

theorem State.landBeat_keeps {t s : State} {x0 x1} (h : Keeps t s) : Keeps t (State.landBeat x0 x1 s).1 := by
  refine h.trans ?_
  clear h
  unfold State.landBeat
  repeat' first
    | with_reducible exact Keeps.refl _
    | with_reducible assumption
    | with_reducible refine Keeps.of_fst ?_ (by assumption)
    | with_reducible refine Keeps.ite_fst ?_ ?_
    | simp only [Keeps.put]
    | with_reducible refine State.outside_keeps ?_
    | with_reducible refine State.chargeReel_keeps ?_
    | with_reducible refine Keeps.forEach (fun x st => ?_) ?_
    | with_reducible refine Keeps.foldl_fst (fun acc x => ?_) ?_
    | with_reducible refine Keeps.foldl (fun st x => ?_) ?_
    | split

theorem State.maskBeat_keeps {t s : State} {x0 x1} (h : Keeps t s) : Keeps t (State.maskBeat x0 x1 s).1 := by
  refine h.trans ?_
  clear h
  unfold State.maskBeat
  repeat' first
    | with_reducible exact Keeps.refl _
    | with_reducible assumption
    | with_reducible refine Keeps.of_fst ?_ (by assumption)
    | with_reducible refine Keeps.ite_fst ?_ ?_
    | simp only [Keeps.put]
    | with_reducible refine State.outside_keeps ?_
    | with_reducible refine State.chargeReel_keeps ?_
    | with_reducible refine Keeps.forEach (fun x st => ?_) ?_
    | with_reducible refine Keeps.foldl_fst (fun acc x => ?_) ?_
    | with_reducible refine Keeps.foldl (fun st x => ?_) ?_
    | split

theorem State.retryStripe_keeps {t s : State} {x0 x1} (h : Keeps t s) : Keeps t (State.retryStripe x0 x1 s).1 := by
  refine h.trans ?_
  clear h
  unfold State.retryStripe
  repeat' first
    | with_reducible exact Keeps.refl _
    | with_reducible assumption
    | with_reducible refine Keeps.of_fst ?_ (by assumption)
    | with_reducible refine Keeps.ite_fst ?_ ?_
    | simp only [Keeps.put]
    | with_reducible refine State.addRepair_keeps ?_
    | with_reducible refine State.bump_keeps ?_
    | with_reducible refine Keeps.forEach (fun x st => ?_) ?_
    | with_reducible refine Keeps.foldl_fst (fun acc x => ?_) ?_
    | with_reducible refine Keeps.foldl (fun st x => ?_) ?_
    | split

theorem State.hurtBeat_keeps {t s : State} {x0 x1 x2} {x : State × Beat} (e : State.hurtBeat x0 x1 x2 s = some x)
    (h : Keeps t s) : Keeps t x.1 := by
  refine h.trans ?_
  clear h
  unfold State.hurtBeat at e
  split at e
  · split at e
    · split at e
      · cases e
        exact State.retryStripe_keeps (Keeps.refl _)
      · exact absurd e (by simp)
    · split at e
      · cases e
        exact State.bump_keeps (Keeps.refl _)
      · exact absurd e (by simp)
  · split at e
    · cases e
      exact Keeps.refl _
    · split at e
      · cases e
        exact State.bump_keeps (Keeps.refl _)
      · exact absurd e (by simp)

theorem State.transBeat_keeps {t s : State} {x0 x1 x2} (h : Keeps t s) : Keeps t (State.transBeat x0 x1 x2 s).1 := by
  refine h.trans ?_
  clear h
  unfold State.transBeat
  repeat' first
    | with_reducible exact Keeps.refl _
    | with_reducible assumption
    | with_reducible refine Keeps.of_fst ?_ (by assumption)
    | with_reducible refine Keeps.ite_fst ?_ ?_
    | simp only [Keeps.put]
    | with_reducible refine State.outside_keeps ?_
    | with_reducible refine State.hurtBeat_keeps (by assumption) ?_
    | with_reducible refine Keeps.forEach (fun x st => ?_) ?_
    | with_reducible refine Keeps.foldl_fst (fun acc x => ?_) ?_
    | with_reducible refine Keeps.foldl (fun st x => ?_) ?_
    | split

theorem State.plainBeat_keeps {t s : State} {x0 x1 x2} (h : Keeps t s) : Keeps t (State.plainBeat x0 x1 x2 s).1 := by
  refine h.trans ?_
  clear h
  unfold State.plainBeat
  repeat' first
    | with_reducible exact Keeps.refl _
    | with_reducible assumption
    | with_reducible refine Keeps.of_fst ?_ (by assumption)
    | with_reducible refine Keeps.ite_fst ?_ ?_
    | simp only [Keeps.put]
    | with_reducible refine State.outside_keeps ?_
    | with_reducible refine State.chargeBeat_keeps ?_
    | with_reducible refine State.checkMask_keeps ?_
    | with_reducible refine State.hurtBeat_keeps (by assumption) ?_
    | with_reducible refine Keeps.forEach (fun x st => ?_) ?_
    | with_reducible refine Keeps.foldl_fst (fun acc x => ?_) ?_
    | with_reducible refine Keeps.foldl (fun st x => ?_) ?_
    | split

theorem State.scaleBeat_keeps {t s : State} {x0 x1} (h : Keeps t s) : Keeps t (State.scaleBeat x0 x1 s).1 := by
  refine h.trans ?_
  clear h
  unfold State.scaleBeat
  repeat' first
    | with_reducible exact Keeps.refl _
    | with_reducible assumption
    | with_reducible refine Keeps.of_fst ?_ (by assumption)
    | with_reducible refine Keeps.ite_fst ?_ ?_
    | simp only [Keeps.put]
    | with_reducible refine State.outside_keeps ?_
    | with_reducible refine State.bump_keeps ?_
    | with_reducible refine State.chargeReel_keeps ?_
    | with_reducible refine Keeps.forEach (fun x st => ?_) ?_
    | with_reducible refine Keeps.foldl_fst (fun acc x => ?_) ?_
    | with_reducible refine Keeps.foldl (fun st x => ?_) ?_
    | split

theorem State.readBeat_keeps {t s : State} {x0 x1 x2} (h : Keeps t s) : Keeps t (State.readBeat x0 x1 x2 s).1 := by
  refine h.trans ?_
  clear h
  unfold State.readBeat
  repeat' first
    | with_reducible exact Keeps.refl _
    | with_reducible assumption
    | with_reducible refine Keeps.of_fst ?_ (by assumption)
    | with_reducible refine Keeps.ite_fst ?_ ?_
    | simp only [Keeps.put]
    | with_reducible refine State.landBeat_keeps ?_
    | with_reducible refine State.maskBeat_keeps ?_
    | with_reducible refine State.transBeat_keeps ?_
    | with_reducible refine State.plainBeat_keeps ?_
    | with_reducible refine State.scaleBeat_keeps ?_
    | with_reducible refine State.dataBeat_keeps ?_
    | with_reducible refine Keeps.forEach (fun x st => ?_) ?_
    | with_reducible refine Keeps.foldl_fst (fun acc x => ?_) ?_
    | with_reducible refine Keeps.foldl (fun st x => ?_) ?_
    | split

theorem State.serveRead_keeps {t s : State} {x0 x1} (h : Keeps t s) : Keeps t (State.serveRead x0 x1 s) := by
  refine h.trans ?_
  clear h
  unfold State.serveRead
  repeat' first
    | with_reducible exact Keeps.refl _
    | with_reducible assumption
    | with_reducible refine Keeps.of_fst ?_ (by assumption)
    | with_reducible refine Keeps.ite_fst ?_ ?_
    | simp only [Keeps.put]
    | with_reducible refine State.gatherTile_keeps ?_
    | with_reducible refine State.runBeats_keeps (fun hk => ?_) ?_
    | with_reducible refine State.readBeat_keeps ?_
    | with_reducible refine State.respond_keeps ?_
    | with_reducible refine State.countUnlisted_keeps ?_
    | with_reducible refine Keeps.forEach (fun x st => ?_) ?_
    | with_reducible refine Keeps.foldl_fst (fun acc x => ?_) ?_
    | with_reducible refine Keeps.foldl (fun st x => ?_) ?_
    | split

theorem State.readOrHold_keeps {t s : State} {x0 x1} (h : Keeps t s) : Keeps t (State.readOrHold x0 x1 s) := by
  refine h.trans ?_
  clear h
  unfold State.readOrHold
  repeat' first
    | with_reducible exact Keeps.refl _
    | with_reducible assumption
    | with_reducible refine Keeps.of_fst ?_ (by assumption)
    | with_reducible refine Keeps.ite_fst ?_ ?_
    | simp only [Keeps.put]
    | with_reducible refine State.grantAll_keeps ?_
    | with_reducible refine State.serveRead_keeps ?_
    | with_reducible refine State.holdHall_keeps ?_
    | with_reducible refine Keeps.forEach (fun x st => ?_) ?_
    | with_reducible refine Keeps.foldl_fst (fun acc x => ?_) ?_
    | with_reducible refine Keeps.foldl (fun st x => ?_) ?_
    | split

theorem State.readAlias_keeps {t s : State} {x0 x1 x2} (h : Keeps t s) : Keeps t (State.readAlias x0 x1 x2 s) := by
  refine h.trans ?_
  clear h
  unfold State.readAlias
  repeat' first
    | with_reducible exact Keeps.refl _
    | with_reducible assumption
    | with_reducible refine Keeps.of_fst ?_ (by assumption)
    | with_reducible refine Keeps.ite_fst ?_ ?_
    | simp only [Keeps.put]
    | with_reducible refine State.respondAll_keeps ?_
    | with_reducible refine State.takeMem_keeps ?_
    | with_reducible refine State.decodeForHall_keeps ?_
    | with_reducible refine State.goAlias_keeps ?_
    | with_reducible refine Keeps.forEach (fun x st => ?_) ?_
    | with_reducible refine Keeps.foldl_fst (fun acc x => ?_) ?_
    | with_reducible refine Keeps.foldl (fun st x => ?_) ?_
    | split

theorem State.hallRead_keeps {t s : State} {x0 x1} (h : Keeps t s) : Keeps t (State.hallRead x0 x1 s) := by
  refine h.trans ?_
  clear h
  unfold State.hallRead
  repeat' first
    | with_reducible exact Keeps.refl _
    | with_reducible assumption
    | with_reducible refine Keeps.of_fst ?_ (by assumption)
    | with_reducible refine Keeps.ite_fst ?_ ?_
    | simp only [Keeps.put]
    | with_reducible refine State.refuseHall_keeps ?_
    | with_reducible refine State.respondAll_keeps ?_
    | with_reducible refine State.readWindow_keeps ?_
    | with_reducible refine State.countLate_keeps ?_
    | with_reducible refine State.askRead_keeps ?_
    | with_reducible refine State.readOrHold_keeps ?_
    | with_reducible refine State.readAlias_keeps ?_
    | with_reducible refine Keeps.forEach (fun x st => ?_) ?_
    | with_reducible refine Keeps.foldl_fst (fun acc x => ?_) ?_
    | with_reducible refine Keeps.foldl (fun st x => ?_) ?_
    | split

theorem State.restartAlias_keeps {t s : State} (h : Keeps t s) : Keeps t (State.restartAlias s) := by
  refine h.trans ?_
  clear h
  unfold State.restartAlias
  repeat' first
    | with_reducible exact Keeps.refl _
    | with_reducible assumption
    | with_reducible refine Keeps.of_fst ?_ (by assumption)
    | with_reducible refine Keeps.ite_fst ?_ ?_
    | simp only [Keeps.put]
    | with_reducible refine State.decodeForHall_keeps ?_
    | with_reducible refine Keeps.forEach (fun x st => ?_) ?_
    | with_reducible refine Keeps.foldl_fst (fun acc x => ?_) ?_
    | with_reducible refine Keeps.foldl (fun st x => ?_) ?_
    | split

end Sys2Proof.Machine
end

