-- ==== Sys2Proof/Laws/KeepsPorch.lean ====
section
/-! SUPPORT. What the operations of Machine/Porch.lean keep (Keeps.lean). -/

set_option linter.unusedSimpArgs false

namespace Sys2Proof.Machine

theorem State.answerAtomic_keeps {t s : State} {x0 x1 x2} (h : Keeps t s) : Keeps t (State.answerAtomic x0 x1 x2 s) := by
  refine h.trans ?_
  clear h
  unfold State.answerAtomic
  repeat' first
    | with_reducible exact Keeps.refl _
    | with_reducible assumption
    | with_reducible refine Keeps.of_fst ?_ (by assumption)
    | with_reducible refine Keeps.ite_fst ?_ ?_
    | simp only [Keeps.put]
    | with_reducible refine State.respond_keeps ?_
    | with_reducible refine State.respondAll_keeps ?_
    | with_reducible refine State.bump_keeps ?_
    | with_reducible refine Keeps.forEach (fun x st => ?_) ?_
    | with_reducible refine Keeps.foldl_fst (fun acc x => ?_) ?_
    | with_reducible refine Keeps.foldl (fun st x => ?_) ?_
    | split

theorem State.askShared_keeps {t s : State} {x0 x1} (h : Keeps t s) : Keeps t (State.askShared x0 x1 s) := by
  refine h.trans ?_
  clear h
  unfold State.askShared
  repeat' first
    | with_reducible exact Keeps.refl _
    | with_reducible assumption
    | with_reducible refine Keeps.of_fst ?_ (by assumption)
    | with_reducible refine Keeps.ite_fst ?_ ?_
    | simp only [Keeps.put]
    | with_reducible refine State.askPage_keeps ?_
    | with_reducible refine State.takeMem_keeps ?_
    | with_reducible refine Keeps.forEach (fun x st => ?_) ?_
    | with_reducible refine Keeps.foldl_fst (fun acc x => ?_) ?_
    | with_reducible refine Keeps.foldl (fun st x => ?_) ?_
    | split

theorem State.atomicReply_keeps {t s : State} {x0 x1} (h : Keeps t s) : Keeps t (State.atomicReply x0 x1 s) := by
  refine h.trans ?_
  clear h
  unfold State.atomicReply
  repeat' first
    | with_reducible exact Keeps.refl _
    | with_reducible assumption
    | with_reducible refine Keeps.of_fst ?_ (by assumption)
    | with_reducible refine Keeps.ite_fst ?_ ?_
    | simp only [Keeps.put]
    | with_reducible refine State.reply_keeps ?_
    | with_reducible refine State.spendFree_keeps ?_
    | with_reducible refine Keeps.forEach (fun x st => ?_) ?_
    | with_reducible refine Keeps.foldl_fst (fun acc x => ?_) ?_
    | with_reducible refine Keeps.foldl (fun st x => ?_) ?_
    | split

theorem State.unmark_keeps {t s : State} {x0 x1 x2} (h : Keeps t s) : Keeps t (State.unmark x0 x1 x2 s) := by
  refine h.trans ?_
  clear h
  unfold State.unmark
  repeat' first
    | with_reducible exact Keeps.refl _
    | with_reducible assumption
    | with_reducible refine Keeps.of_fst ?_ (by assumption)
    | with_reducible refine Keeps.ite_fst ?_ ?_
    | simp only [Keeps.put]
    | with_reducible refine State.unqueue_keeps ?_
    | with_reducible refine State.putPage_keeps ?_
    | with_reducible refine Keeps.forEach (fun x st => ?_) ?_
    | with_reducible refine Keeps.foldl_fst (fun acc x => ?_) ?_
    | with_reducible refine Keeps.foldl (fun st x => ?_) ?_
    | split

theorem State.pageWay_keeps {t s : State} {x0 x1 x2} (h : Keeps t s) : Keeps t (State.pageWay x0 x1 x2 s).1 := by
  refine h.trans ?_
  clear h
  unfold State.pageWay
  repeat' first
    | with_reducible exact Keeps.refl _
    | with_reducible assumption
    | with_reducible refine Keeps.of_fst ?_ (by assumption)
    | with_reducible refine Keeps.ite_fst ?_ ?_
    | simp only [Keeps.put]
    | with_reducible refine State.allocate_keeps ?_
    | with_reducible refine State.unmark_keeps ?_
    | with_reducible refine State.queueDemand_keeps ?_
    | with_reducible refine Keeps.forEach (fun x st => ?_) ?_
    | with_reducible refine Keeps.foldl_fst (fun acc x => ?_) ?_
    | with_reducible refine Keeps.foldl (fun st x => ?_) ?_
    | split

theorem State.pagesWay_keeps {t s : State} {x0 x1} (h : Keeps t s) : Keeps t (State.pagesWay x0 x1 s).1 := by
  refine h.trans ?_
  clear h
  unfold State.pagesWay
  repeat' first
    | with_reducible exact Keeps.refl _
    | with_reducible assumption
    | with_reducible refine Keeps.of_fst ?_ (by assumption)
    | with_reducible refine Keeps.ite_fst ?_ ?_
    | simp only [Keeps.put]
    | with_reducible refine State.pageWay_keeps ?_
    | with_reducible refine Keeps.forEach (fun x st => ?_) ?_
    | with_reducible refine Keeps.foldl_fst (fun acc x => ?_) ?_
    | with_reducible refine Keeps.foldl (fun st x => ?_) ?_
    | split

theorem State.sharedWrite_keeps {t s : State} {x0 x1 x2} (h : Keeps t s) : Keeps t (State.sharedWrite x0 x1 x2 s) := by
  refine h.trans ?_
  clear h
  unfold State.sharedWrite
  repeat' first
    | with_reducible exact Keeps.refl _
    | with_reducible assumption
    | with_reducible refine Keeps.of_fst ?_ (by assumption)
    | with_reducible refine Keeps.ite_fst ?_ ?_
    | simp only [Keeps.put]
    | with_reducible refine State.pageWrite_keeps ?_
    | with_reducible refine State.spanWrite_keeps ?_
    | with_reducible refine Keeps.forEach (fun x st => ?_) ?_
    | with_reducible refine Keeps.foldl_fst (fun acc x => ?_) ?_
    | with_reducible refine Keeps.foldl (fun st x => ?_) ?_
    | split

theorem State.execAtomic_keeps {t s : State} {x0 x1} (h : Keeps t s) : Keeps t (State.execAtomic x0 x1 s).1 := by
  refine h.trans ?_
  clear h
  unfold State.execAtomic
  repeat' first
    | with_reducible exact Keeps.refl _
    | with_reducible assumption
    | with_reducible refine Keeps.of_fst ?_ (by assumption)
    | with_reducible refine Keeps.ite_fst ?_ ?_
    | simp only [Keeps.put]
    | with_reducible refine State.sharedWrite_keeps ?_
    | with_reducible refine State.heatPage_keeps ?_
    | with_reducible refine State.bump_keeps ?_
    | with_reducible refine Keeps.forEach (fun x st => ?_) ?_
    | with_reducible refine Keeps.foldl_fst (fun acc x => ?_) ?_
    | with_reducible refine Keeps.foldl (fun st x => ?_) ?_
    | split

theorem State.runAtomic_keeps {t s : State} {x0 x1 x2} (h : Keeps t s) : Keeps t (State.runAtomic x0 x1 x2 s).1 := by
  refine h.trans ?_
  clear h
  unfold State.runAtomic
  repeat' first
    | with_reducible exact Keeps.refl _
    | with_reducible assumption
    | with_reducible refine Keeps.of_fst ?_ (by assumption)
    | with_reducible refine Keeps.ite_fst ?_ ?_
    | simp only [Keeps.put]
    | with_reducible refine State.pagesWay_keeps ?_
    | with_reducible refine State.bump_keeps ?_
    | with_reducible refine State.attemptOver_keeps ?_
    | with_reducible refine State.invalidate_keeps ?_
    | with_reducible refine State.askShared_keeps ?_
    | with_reducible refine State.execAtomic_keeps ?_
    | with_reducible refine Keeps.forEach (fun x st => ?_) ?_
    | with_reducible refine Keeps.foldl_fst (fun acc x => ?_) ?_
    | with_reducible refine Keeps.foldl (fun st x => ?_) ?_
    | split

theorem State.fabricAtomic_keeps {t s : State} {x0} (h : Keeps t s) : Keeps t (State.fabricAtomic x0 s) := by
  refine h.trans ?_
  clear h
  unfold State.fabricAtomic
  repeat' first
    | with_reducible exact Keeps.refl _
    | with_reducible assumption
    | with_reducible refine Keeps.of_fst ?_ (by assumption)
    | with_reducible refine Keeps.ite_fst ?_ ?_
    | simp only [Keeps.put]
    | with_reducible refine State.atomicReply_keeps ?_
    | with_reducible refine State.bump_keeps ?_
    | with_reducible refine State.runAtomic_keeps ?_
    | with_reducible refine Keeps.forEach (fun x st => ?_) ?_
    | with_reducible refine Keeps.foldl_fst (fun acc x => ?_) ?_
    | with_reducible refine Keeps.foldl (fun st x => ?_) ?_
    | split

theorem State.atomicPass_keeps {t s : State} (h : Keeps t s) : Keeps t (State.atomicPass s) := by
  refine h.trans ?_
  clear h
  unfold State.atomicPass
  repeat' first
    | with_reducible exact Keeps.refl _
    | with_reducible assumption
    | with_reducible refine Keeps.of_fst ?_ (by assumption)
    | with_reducible refine Keeps.ite_fst ?_ ?_
    | simp only [Keeps.put]
    | with_reducible refine State.fabricAtomic_keeps ?_
    | with_reducible refine Keeps.forEach (fun x st => ?_) ?_
    | with_reducible refine Keeps.foldl_fst (fun acc x => ?_) ?_
    | with_reducible refine Keeps.foldl (fun st x => ?_) ?_
    | split

theorem State.attemptsOver_keeps {t s : State} {x0 x1} (h : Keeps t s) : Keeps t (State.attemptsOver x0 x1 s) := by
  refine h.trans ?_
  clear h
  unfold State.attemptsOver
  repeat' first
    | with_reducible exact Keeps.refl _
    | with_reducible assumption
    | with_reducible refine Keeps.of_fst ?_ (by assumption)
    | with_reducible refine Keeps.ite_fst ?_ ?_
    | simp only [Keeps.put]
    | with_reducible refine State.attemptOver_keeps ?_
    | with_reducible refine Keeps.forEach (fun x st => ?_) ?_
    | with_reducible refine Keeps.foldl_fst (fun acc x => ?_) ?_
    | with_reducible refine Keeps.foldl (fun st x => ?_) ?_
    | split

theorem State.countBank_keeps {t s : State} {x0} (h : Keeps t s) : Keeps t (State.countBank x0 s) := by
  refine h.trans ?_
  clear h
  unfold State.countBank
  repeat' first
    | with_reducible exact Keeps.refl _
    | with_reducible assumption
    | with_reducible refine Keeps.of_fst ?_ (by assumption)
    | with_reducible refine Keeps.ite_fst ?_ ?_
    | simp only [Keeps.put]
    | with_reducible refine State.bump_keeps ?_
    | with_reducible refine Keeps.forEach (fun x st => ?_) ?_
    | with_reducible refine Keeps.foldl_fst (fun acc x => ?_) ?_
    | with_reducible refine Keeps.foldl (fun st x => ?_) ?_
    | split

theorem State.refuseWriteBeats_keeps {t s : State} {x0 x1} (h : Keeps t s) : Keeps t (State.refuseWriteBeats x0 x1 s) := by
  refine h.trans ?_
  clear h
  unfold State.refuseWriteBeats
  repeat' first
    | with_reducible exact Keeps.refl _
    | with_reducible assumption
    | with_reducible refine Keeps.of_fst ?_ (by assumption)
    | with_reducible refine Keeps.ite_fst ?_ ?_
    | simp only [Keeps.put]
    | with_reducible refine State.bump_keeps ?_
    | with_reducible refine State.respondAll_keeps ?_
    | with_reducible refine Keeps.forEach (fun x st => ?_) ?_
    | with_reducible refine Keeps.foldl_fst (fun acc x => ?_) ?_
    | with_reducible refine Keeps.foldl (fun st x => ?_) ?_
    | split

theorem State.writeSlotHeader_keeps {t s : State} {x0 x1 x2 x3} (h : Keeps t s) : Keeps t (State.writeSlotHeader x0 x1 x2 x3 s).1 := by
  refine h.trans ?_
  clear h
  unfold State.writeSlotHeader
  repeat' first
    | with_reducible exact Keeps.refl _
    | with_reducible assumption
    | with_reducible refine Keeps.of_fst ?_ (by assumption)
    | with_reducible refine Keeps.ite_fst ?_ ?_
    | simp only [Keeps.put]
    | with_reducible refine State.putHeader_keeps ?_
    | with_reducible refine State.countBank_keeps ?_
    | with_reducible refine State.bump_keeps ?_
    | with_reducible refine Keeps.forEach (fun x st => ?_) ?_
    | with_reducible refine Keeps.foldl_fst (fun acc x => ?_) ?_
    | with_reducible refine Keeps.foldl (fun st x => ?_) ?_
    | split

theorem State.writeRegion_keeps {t s : State} {x0 x1 x2 x3 x4} (h : Keeps t s) : Keeps t (State.writeRegion x0 x1 x2 x3 x4 s) := by
  refine h.trans ?_
  clear h
  unfold State.writeRegion
  repeat' first
    | with_reducible exact Keeps.refl _
    | with_reducible assumption
    | with_reducible refine Keeps.of_fst ?_ (by assumption)
    | with_reducible refine Keeps.ite_fst ?_ ?_
    | simp only [Keeps.put]
    | with_reducible refine State.pantryBeat_keeps ?_
    | with_reducible refine State.hearthBeat_keeps ?_
    | with_reducible refine State.clearBad_keeps ?_
    | with_reducible refine Keeps.forEach (fun x st => ?_) ?_
    | with_reducible refine Keeps.foldl_fst (fun acc x => ?_) ?_
    | with_reducible refine Keeps.foldl (fun st x => ?_) ?_
    | split

theorem State.writeSlot_keeps {t s : State} {x0 x1 x2 x3} (h : Keeps t s) : Keeps t (State.writeSlot x0 x1 x2 x3 s).1 := by
  refine h.trans ?_
  clear h
  unfold State.writeSlot
  repeat' first
    | with_reducible exact Keeps.refl _
    | with_reducible assumption
    | with_reducible refine Keeps.of_fst ?_ (by assumption)
    | with_reducible refine Keeps.ite_fst ?_ ?_
    | simp only [Keeps.put]
    | with_reducible refine State.writeSlotHeader_keeps ?_
    | with_reducible refine State.writeRegion_keeps ?_
    | with_reducible refine State.countBank_keeps ?_
    | with_reducible refine Keeps.forEach (fun x st => ?_) ?_
    | with_reducible refine Keeps.foldl_fst (fun acc x => ?_) ?_
    | with_reducible refine Keeps.foldl (fun st x => ?_) ?_
    | split

theorem State.headerWords_keeps {t s : State} {x0 x1 x2 x3} (h : Keeps t s) : Keeps t (State.headerWords x0 x1 x2 x3 s) := by
  refine h.trans ?_
  clear h
  unfold State.headerWords
  repeat' first
    | with_reducible exact Keeps.refl _
    | with_reducible assumption
    | with_reducible refine Keeps.of_fst ?_ (by assumption)
    | with_reducible refine Keeps.ite_fst ?_ ?_
    | simp only [Keeps.put]
    | with_reducible refine State.mergeAt_keeps ?_
    | with_reducible refine State.setLostBytes_keeps ?_
    | with_reducible refine State.bump_keeps ?_
    | with_reducible refine Keeps.forEach (fun x st => ?_) ?_
    | with_reducible refine Keeps.foldl_fst (fun acc x => ?_) ?_
    | with_reducible refine Keeps.foldl (fun st x => ?_) ?_
    | split

theorem State.writeOutbox_keeps {t s : State} {x0 x1 x2} (h : Keeps t s) : Keeps t (State.writeOutbox x0 x1 x2 s).1 := by
  refine h.trans ?_
  clear h
  unfold State.writeOutbox
  repeat' first
    | with_reducible exact Keeps.refl _
    | with_reducible assumption
    | with_reducible refine Keeps.of_fst ?_ (by assumption)
    | with_reducible refine Keeps.ite_fst ?_ ?_
    | simp only [Keeps.put]
    | with_reducible refine State.putHeader_keeps ?_
    | with_reducible refine State.headerWords_keeps ?_
    | with_reducible refine State.writeRegion_keeps ?_
    | with_reducible refine Keeps.forEach (fun x st => ?_) ?_
    | with_reducible refine Keeps.foldl_fst (fun acc x => ?_) ?_
    | with_reducible refine Keeps.foldl (fun st x => ?_) ?_
    | split

theorem State.writeMaskBeat_keeps {t s : State} {x0 x1 x2} (h : Keeps t s) : Keeps t (State.writeMaskBeat x0 x1 x2 s) := by
  refine h.trans ?_
  clear h
  unfold State.writeMaskBeat
  repeat' first
    | with_reducible exact Keeps.refl _
    | with_reducible assumption
    | with_reducible refine Keeps.of_fst ?_ (by assumption)
    | with_reducible refine Keeps.ite_fst ?_ ?_
    | simp only [Keeps.put]
    | with_reducible refine State.writeRegion_keeps ?_
    | with_reducible refine State.updHank_keeps ?_
    | with_reducible refine Keeps.forEach (fun x st => ?_) ?_
    | with_reducible refine Keeps.foldl_fst (fun acc x => ?_) ?_
    | with_reducible refine Keeps.foldl (fun st x => ?_) ?_
    | split

theorem State.writePage_keeps {t s : State} {x0 x1 x2} (h : Keeps t s) : Keeps t (State.writePage x0 x1 x2 s).1 := by
  refine h.trans ?_
  clear h
  unfold State.writePage
  repeat' first
    | with_reducible exact Keeps.refl _
    | with_reducible assumption
    | with_reducible refine Keeps.of_fst ?_ (by assumption)
    | with_reducible refine Keeps.ite_fst ?_ ?_
    | simp only [Keeps.put]
    | with_reducible refine State.cellarBeat_keeps ?_
    | with_reducible refine State.pageMerge_keeps ?_
    | with_reducible refine State.pageGood_keeps ?_
    | with_reducible refine State.heatPage_keeps ?_
    | with_reducible refine Keeps.forEach (fun x st => ?_) ?_
    | with_reducible refine Keeps.foldl_fst (fun acc x => ?_) ?_
    | with_reducible refine Keeps.foldl (fun st x => ?_) ?_
    | split

theorem State.writeBeat_keeps {t s : State} {x0 x1 x2 x3} (h : Keeps t s) : Keeps t (State.writeBeat x0 x1 x2 x3 s).1 := by
  refine h.trans ?_
  clear h
  unfold State.writeBeat
  repeat' first
    | with_reducible exact Keeps.refl _
    | with_reducible assumption
    | with_reducible refine Keeps.of_fst ?_ (by assumption)
    | with_reducible refine Keeps.ite_fst ?_ ?_
    | simp only [Keeps.put]
    | with_reducible refine State.outside_keeps ?_
    | with_reducible refine State.writeSlot_keeps ?_
    | with_reducible refine State.writeOutbox_keeps ?_
    | with_reducible refine State.writeMaskBeat_keeps ?_
    | with_reducible refine State.writeRegion_keeps ?_
    | with_reducible refine State.writePage_keeps ?_
    | with_reducible refine Keeps.forEach (fun x st => ?_) ?_
    | with_reducible refine Keeps.foldl_fst (fun acc x => ?_) ?_
    | with_reducible refine Keeps.foldl (fun st x => ?_) ?_
    | split

theorem State.doWrite_keeps {t s : State} {x0 x1 x2} (h : Keeps t s) : Keeps t (State.doWrite x0 x1 x2 s) := by
  refine h.trans ?_
  clear h
  unfold State.doWrite
  repeat' first
    | with_reducible exact Keeps.refl _
    | with_reducible assumption
    | with_reducible refine Keeps.of_fst ?_ (by assumption)
    | with_reducible refine Keeps.ite_fst ?_ ?_
    | simp only [Keeps.put]
    | with_reducible refine State.attemptsOver_keeps ?_
    | with_reducible refine State.refuseWriteBeats_keeps ?_
    | with_reducible refine State.restoredWrite_keeps ?_
    | with_reducible refine State.runBeats_keeps (fun hk => ?_) ?_
    | with_reducible refine State.writeBeat_keeps ?_
    | with_reducible refine State.respond_keeps ?_
    | with_reducible refine State.landingPass_keeps ?_
    | with_reducible refine Keeps.forEach (fun x st => ?_) ?_
    | with_reducible refine Keeps.foldl_fst (fun acc x => ?_) ?_
    | with_reducible refine Keeps.foldl (fun st x => ?_) ?_
    | split

theorem State.refuseAtomic_keeps {t s : State} {x0} (h : Keeps t s) : Keeps t (State.refuseAtomic x0 s) := by
  refine h.trans ?_
  clear h
  unfold State.refuseAtomic
  repeat' first
    | with_reducible exact Keeps.refl _
    | with_reducible assumption
    | with_reducible refine Keeps.of_fst ?_ (by assumption)
    | with_reducible refine Keeps.ite_fst ?_ ?_
    | simp only [Keeps.put]
    | with_reducible refine State.respondAll_keeps ?_
    | with_reducible refine State.bump_keeps ?_
    | with_reducible refine Keeps.forEach (fun x st => ?_) ?_
    | with_reducible refine Keeps.foldl_fst (fun acc x => ?_) ?_
    | with_reducible refine Keeps.foldl (fun st x => ?_) ?_
    | split

theorem State.tryAtomic_keeps {t s : State} {x0 x1 x2} (h : Keeps t s) : Keeps t (State.tryAtomic x0 x1 x2 s).1 := by
  refine h.trans ?_
  clear h
  unfold State.tryAtomic
  repeat' first
    | with_reducible exact Keeps.refl _
    | with_reducible assumption
    | with_reducible refine Keeps.of_fst ?_ (by assumption)
    | with_reducible refine Keeps.ite_fst ?_ ?_
    | simp only [Keeps.put]
    | with_reducible refine State.refuseAtomic_keeps ?_
    | with_reducible refine State.respondAll_keeps ?_
    | with_reducible refine State.bump_keeps ?_
    | with_reducible refine State.runAtomic_keeps ?_
    | with_reducible refine State.answerAtomic_keeps ?_
    | with_reducible refine Keeps.forEach (fun x st => ?_) ?_
    | with_reducible refine Keeps.foldl_fst (fun acc x => ?_) ?_
    | with_reducible refine Keeps.foldl (fun st x => ?_) ?_
    | split

theorem State.hallAtomic_keeps {t s : State} {x0 x1} (h : Keeps t s) : Keeps t (State.hallAtomic x0 x1 s) := by
  refine h.trans ?_
  clear h
  unfold State.hallAtomic
  repeat' first
    | with_reducible exact Keeps.refl _
    | with_reducible assumption
    | with_reducible refine Keeps.of_fst ?_ (by assumption)
    | with_reducible refine Keeps.ite_fst ?_ ?_
    | simp only [Keeps.put]
    | with_reducible refine State.refuseAtomic_keeps ?_
    | with_reducible refine State.respondAll_keeps ?_
    | with_reducible refine State.askMap_keeps ?_
    | with_reducible refine State.tryAtomic_keeps ?_
    | with_reducible refine State.holdHall_keeps ?_
    | with_reducible refine Keeps.forEach (fun x st => ?_) ?_
    | with_reducible refine Keeps.foldl_fst (fun acc x => ?_) ?_
    | with_reducible refine Keeps.foldl (fun st x => ?_) ?_
    | split

theorem State.tryWrite_keeps {t s : State} {x0 x1 x2} (h : Keeps t s) : Keeps t (State.tryWrite x0 x1 x2 s).1 := by
  refine h.trans ?_
  clear h
  unfold State.tryWrite
  repeat' first
    | with_reducible exact Keeps.refl _
    | with_reducible assumption
    | with_reducible refine Keeps.of_fst ?_ (by assumption)
    | with_reducible refine Keeps.ite_fst ?_ ?_
    | simp only [Keeps.put]
    | with_reducible refine State.pagesWay_keeps ?_
    | with_reducible refine State.doWrite_keeps ?_
    | with_reducible refine State.invalidate_keeps ?_
    | with_reducible refine Keeps.forEach (fun x st => ?_) ?_
    | with_reducible refine Keeps.foldl_fst (fun acc x => ?_) ?_
    | with_reducible refine Keeps.foldl (fun st x => ?_) ?_
    | split

theorem State.hallWrite_keeps {t s : State} {x0 x1} (h : Keeps t s) : Keeps t (State.hallWrite x0 x1 s) := by
  refine h.trans ?_
  clear h
  unfold State.hallWrite
  repeat' first
    | with_reducible exact Keeps.refl _
    | with_reducible assumption
    | with_reducible refine Keeps.of_fst ?_ (by assumption)
    | with_reducible refine Keeps.ite_fst ?_ ?_
    | simp only [Keeps.put]
    | with_reducible refine State.refuseHall_keeps ?_
    | with_reducible refine State.respondAll_keeps ?_
    | with_reducible refine State.tryWrite_keeps ?_
    | with_reducible refine State.askMaps_keeps ?_
    | with_reducible refine State.holdHall_keeps ?_
    | with_reducible refine Keeps.forEach (fun x st => ?_) ?_
    | with_reducible refine Keeps.foldl_fst (fun acc x => ?_) ?_
    | with_reducible refine Keeps.foldl (fun st x => ?_) ?_
    | split

theorem State.stopHeld_keeps {t s : State} {x0 x1 x2} (h : Keeps t s) : Keeps t (State.stopHeld x0 x1 x2 s) := by
  refine h.trans ?_
  clear h
  unfold State.stopHeld
  repeat' first
    | with_reducible exact Keeps.refl _
    | with_reducible assumption
    | with_reducible refine Keeps.of_fst ?_ (by assumption)
    | with_reducible refine Keeps.ite_fst ?_ ?_
    | simp only [Keeps.put]
    | with_reducible refine State.refuseHall_keeps ?_
    | with_reducible refine State.respondAll_keeps ?_
    | with_reducible refine Keeps.forEach (fun x st => ?_) ?_
    | with_reducible refine Keeps.foldl_fst (fun acc x => ?_) ?_
    | with_reducible refine Keeps.foldl (fun st x => ?_) ?_
    | split

theorem State.retryHeld_keeps {t s : State} {x0} (h : Keeps t s) : Keeps t (State.retryHeld x0 s).1 := by
  refine h.trans ?_
  clear h
  unfold State.retryHeld
  repeat' first
    | with_reducible exact Keeps.refl _
    | with_reducible assumption
    | with_reducible refine Keeps.of_fst ?_ (by assumption)
    | with_reducible refine Keeps.ite_fst ?_ ?_
    | simp only [Keeps.put]
    | with_reducible refine State.respondAll_keeps ?_
    | with_reducible refine State.refuseHall_keeps ?_
    | with_reducible refine State.refuseAtomic_keeps ?_
    | with_reducible refine State.stopHeld_keeps ?_
    | with_reducible refine State.serveWindow_keeps ?_
    | with_reducible refine State.grantAll_keeps ?_
    | with_reducible refine State.serveRead_keeps ?_
    | with_reducible refine State.tryWrite_keeps ?_
    | with_reducible refine State.tryAtomic_keeps ?_
    | with_reducible refine Keeps.forEach (fun x st => ?_) ?_
    | with_reducible refine Keeps.foldl_fst (fun acc x => ?_) ?_
    | with_reducible refine Keeps.foldl (fun st x => ?_) ?_
    | split

theorem State.heldPass_keeps {t s : State} (h : Keeps t s) : Keeps t (State.heldPass s) := by
  refine h.trans ?_
  clear h
  unfold State.heldPass
  repeat' first
    | with_reducible exact Keeps.refl _
    | with_reducible assumption
    | with_reducible refine Keeps.of_fst ?_ (by assumption)
    | with_reducible refine Keeps.ite_fst ?_ ?_
    | simp only [Keeps.put]
    | with_reducible refine State.retryHeld_keeps ?_
    | with_reducible refine Keeps.forEach (fun x st => ?_) ?_
    | with_reducible refine Keeps.foldl_fst (fun acc x => ?_) ?_
    | with_reducible refine Keeps.foldl (fun st x => ?_) ?_
    | split

theorem State.takeHall_keeps {t s : State} {x0 x1 x2} (hx2 : ∀ {t s}, Keeps t s → Keeps t (x2 s)) (h : Keeps t s) : Keeps t (State.takeHall x0 x1 x2 s) := by
  refine h.trans ?_
  clear h
  unfold State.takeHall
  repeat' first
    | with_reducible exact Keeps.refl _
    | with_reducible assumption
    | with_reducible refine Keeps.of_fst ?_ (by assumption)
    | with_reducible refine Keeps.ite_fst ?_ ?_
    | simp only [Keeps.put]
    | with_reducible refine State.holdHall_keeps ?_
    | with_reducible refine State.bump_keeps ?_
    | with_reducible refine hx2 ?_
    | with_reducible refine Keeps.forEach (fun x st => ?_) ?_
    | with_reducible refine Keeps.foldl_fst (fun acc x => ?_) ?_
    | with_reducible refine Keeps.foldl (fun st x => ?_) ?_
    | split

theorem State.portAtomic_keeps {t s : State} {x0 x1} (h : Keeps t s) : Keeps t (State.portAtomic x0 x1 s) := by
  refine h.trans ?_
  clear h
  unfold State.portAtomic
  repeat' first
    | with_reducible exact Keeps.refl _
    | with_reducible assumption
    | with_reducible refine Keeps.of_fst ?_ (by assumption)
    | with_reducible refine Keeps.ite_fst ?_ ?_
    | simp only [Keeps.put]
    | with_reducible refine State.takeHall_keeps (fun hk => ?_) ?_
    | with_reducible refine State.hallAtomic_keeps ?_
    | with_reducible refine Keeps.forEach (fun x st => ?_) ?_
    | with_reducible refine Keeps.foldl_fst (fun acc x => ?_) ?_
    | with_reducible refine Keeps.foldl (fun st x => ?_) ?_
    | split

theorem State.portOther_keeps {t s : State} {x0} (h : Keeps t s) : Keeps t (State.portOther x0 s) := by
  refine h.trans ?_
  clear h
  unfold State.portOther
  repeat' first
    | with_reducible exact Keeps.refl _
    | with_reducible assumption
    | with_reducible refine Keeps.of_fst ?_ (by assumption)
    | with_reducible refine Keeps.ite_fst ?_ ?_
    | simp only [Keeps.put]
    | with_reducible refine State.takeHall_keeps (fun hk => ?_) ?_
    | with_reducible refine State.respondAll_keeps ?_
    | with_reducible refine State.refuseHall_keeps ?_
    | with_reducible refine Keeps.forEach (fun x st => ?_) ?_
    | with_reducible refine Keeps.foldl_fst (fun acc x => ?_) ?_
    | with_reducible refine Keeps.foldl (fun st x => ?_) ?_
    | split

theorem State.portRead_keeps {t s : State} {x0 x1} (h : Keeps t s) : Keeps t (State.portRead x0 x1 s) := by
  refine h.trans ?_
  clear h
  unfold State.portRead
  repeat' first
    | with_reducible exact Keeps.refl _
    | with_reducible assumption
    | with_reducible refine Keeps.of_fst ?_ (by assumption)
    | with_reducible refine Keeps.ite_fst ?_ ?_
    | simp only [Keeps.put]
    | with_reducible refine State.takeHall_keeps (fun hk => ?_) ?_
    | with_reducible refine State.hallRead_keeps ?_
    | with_reducible refine Keeps.forEach (fun x st => ?_) ?_
    | with_reducible refine Keeps.foldl_fst (fun acc x => ?_) ?_
    | with_reducible refine Keeps.foldl (fun st x => ?_) ?_
    | split

theorem State.portWindow_keeps {t s : State} {x0 x1} (h : Keeps t s) : Keeps t (State.portWindow x0 x1 s) := by
  refine h.trans ?_
  clear h
  unfold State.portWindow
  repeat' first
    | with_reducible exact Keeps.refl _
    | with_reducible assumption
    | with_reducible refine Keeps.of_fst ?_ (by assumption)
    | with_reducible refine Keeps.ite_fst ?_ ?_
    | simp only [Keeps.put]
    | with_reducible refine State.takeHall_keeps (fun hk => ?_) ?_
    | with_reducible refine State.bump_keeps ?_
    | with_reducible refine State.hallRead_keeps ?_
    | with_reducible refine Keeps.forEach (fun x st => ?_) ?_
    | with_reducible refine Keeps.foldl_fst (fun acc x => ?_) ?_
    | with_reducible refine Keeps.foldl (fun st x => ?_) ?_
    | split

theorem State.portWrite_keeps {t s : State} {x0 x1} (h : Keeps t s) : Keeps t (State.portWrite x0 x1 s) := by
  refine h.trans ?_
  clear h
  unfold State.portWrite
  repeat' first
    | with_reducible exact Keeps.refl _
    | with_reducible assumption
    | with_reducible refine Keeps.of_fst ?_ (by assumption)
    | with_reducible refine Keeps.ite_fst ?_ ?_
    | simp only [Keeps.put]
    | with_reducible refine State.takeHall_keeps (fun hk => ?_) ?_
    | with_reducible refine State.hallWrite_keeps ?_
    | with_reducible refine Keeps.forEach (fun x st => ?_) ?_
    | with_reducible refine Keeps.foldl_fst (fun acc x => ?_) ?_
    | with_reducible refine Keeps.foldl (fun st x => ?_) ?_
    | split

end Sys2Proof.Machine
end

