-- ==== Sys2Proof/Laws/KeepsOffload.lean ====
section
/-! SUPPORT. What the operations of Machine/Offload.lean keep (Keeps.lean). -/

set_option linter.unusedSimpArgs false

namespace Sys2Proof.Machine

theorem State.offAsk_keeps {t s : State} {x0 x1 x2} (h : Keeps t s) : Keeps t (State.offAsk x0 x1 x2 s) := by
  refine h.trans ?_
  clear h
  unfold State.offAsk
  repeat' first
    | with_reducible exact Keeps.refl _
    | with_reducible assumption
    | with_reducible refine Keeps.of_fst ?_ (by assumption)
    | with_reducible refine Keeps.ite_fst ?_ ?_
    | simp only [Keeps.put]
    | with_reducible refine State.askMap_keeps ?_
    | with_reducible refine State.askPage_keeps ?_
    | with_reducible refine State.takeMem_keeps ?_
    | with_reducible refine Keeps.forEach (fun x st => ?_) ?_
    | with_reducible refine Keeps.foldl_fst (fun acc x => ?_) ?_
    | with_reducible refine Keeps.foldl (fun st x => ?_) ?_
    | split

theorem State.offFetch_keeps {t s : State} {x0 x1} (h : Keeps t s) : Keeps t (State.offFetch x0 x1 s) := by
  refine h.trans ?_
  clear h
  unfold State.offFetch
  repeat' first
    | with_reducible exact Keeps.refl _
    | with_reducible assumption
    | with_reducible refine Keeps.of_fst ?_ (by assumption)
    | with_reducible refine Keeps.ite_fst ?_ ?_
    | simp only [Keeps.put]
    | with_reducible refine State.queueDemand_keeps ?_
    | with_reducible refine Keeps.forEach (fun x st => ?_) ?_
    | with_reducible refine Keeps.foldl_fst (fun acc x => ?_) ?_
    | with_reducible refine Keeps.foldl (fun st x => ?_) ?_
    | split

theorem State.headerFree_keeps {t s : State} {x0 x1} (h : Keeps t s) : Keeps t (State.headerFree x0 x1 s).1 := by
  refine h.trans ?_
  clear h
  unfold State.headerFree
  repeat' first
    | with_reducible exact Keeps.refl _
    | with_reducible assumption
    | with_reducible refine Keeps.of_fst ?_ (by assumption)
    | with_reducible refine Keeps.ite_fst ?_ ?_
    | simp only [Keeps.put]
    | with_reducible refine State.invalidate_keeps ?_
    | with_reducible refine Keeps.forEach (fun x st => ?_) ?_
    | with_reducible refine Keeps.foldl_fst (fun acc x => ?_) ?_
    | with_reducible refine Keeps.foldl (fun st x => ?_) ?_
    | split

theorem State.offWrite_keeps {t s : State} {x0 x1 x2} (h : Keeps t s) : Keeps t (State.offWrite x0 x1 x2 s) := by
  refine h.trans ?_
  clear h
  unfold State.offWrite
  repeat' first
    | with_reducible exact Keeps.refl _
    | with_reducible assumption
    | with_reducible refine Keeps.of_fst ?_ (by assumption)
    | with_reducible refine Keeps.ite_fst ?_ ?_
    | simp only [Keeps.put]
    | with_reducible refine State.pageWrite_keeps ?_
    | with_reducible refine State.pageGood_keeps ?_
    | with_reducible refine State.spanWrite_keeps ?_
    | with_reducible refine State.clearBad_keeps ?_
    | with_reducible refine Keeps.forEach (fun x st => ?_) ?_
    | with_reducible refine Keeps.foldl_fst (fun acc x => ?_) ?_
    | with_reducible refine Keeps.foldl (fun st x => ?_) ?_
    | split

theorem State.putJobState_keeps {t s : State} {x0 x1 x2 x3} (h : Keeps t s) : Keeps t (State.putJobState x0 x1 x2 x3 s) := by
  refine h.trans ?_
  clear h
  unfold State.putJobState
  repeat' first
    | with_reducible exact Keeps.refl _
    | with_reducible assumption
    | with_reducible refine Keeps.of_fst ?_ (by assumption)
    | with_reducible refine Keeps.ite_fst ?_ ?_
    | simp only [Keeps.put]
    | with_reducible refine State.offWrite_keeps ?_
    | with_reducible refine Keeps.forEach (fun x st => ?_) ?_
    | with_reducible refine Keeps.foldl_fst (fun acc x => ?_) ?_
    | with_reducible refine Keeps.foldl (fun st x => ?_) ?_
    | split

theorem State.enterJob_keeps {t s : State} {x0 x1 x2 x3} (h : Keeps t s) : Keeps t (State.enterJob x0 x1 x2 x3 s) := by
  refine h.trans ?_
  clear h
  unfold State.enterJob
  repeat' first
    | with_reducible exact Keeps.refl _
    | with_reducible assumption
    | with_reducible refine Keeps.of_fst ?_ (by assumption)
    | with_reducible refine Keeps.ite_fst ?_ ?_
    | simp only [Keeps.put]
    | with_reducible refine Keeps.forEach (fun x st => ?_) ?_
    | with_reducible refine Keeps.foldl_fst (fun acc x => ?_) ?_
    | with_reducible refine Keeps.foldl (fun st x => ?_) ?_
    | split

theorem State.refuseJob_keeps {t s : State} {x0 x1 x2} (h : Keeps t s) : Keeps t (State.refuseJob x0 x1 x2 s) := by
  refine h.trans ?_
  clear h
  unfold State.refuseJob
  repeat' first
    | with_reducible exact Keeps.refl _
    | with_reducible assumption
    | with_reducible refine Keeps.of_fst ?_ (by assumption)
    | with_reducible refine Keeps.ite_fst ?_ ?_
    | simp only [Keeps.put]
    | with_reducible refine State.headerFree_keeps ?_
    | with_reducible refine State.bump_keeps ?_
    | with_reducible refine State.putJobState_keeps ?_
    | with_reducible refine State.enterJob_keeps ?_
    | with_reducible refine Keeps.forEach (fun x st => ?_) ?_
    | with_reducible refine Keeps.foldl_fst (fun acc x => ?_) ?_
    | with_reducible refine Keeps.foldl (fun st x => ?_) ?_
    | split

theorem State.takeJob_keeps {t s : State} {x0 x1 x2} (h : Keeps t s) : Keeps t (State.takeJob x0 x1 x2 s) := by
  refine h.trans ?_
  clear h
  unfold State.takeJob
  repeat' first
    | with_reducible exact Keeps.refl _
    | with_reducible assumption
    | with_reducible refine Keeps.of_fst ?_ (by assumption)
    | with_reducible refine Keeps.ite_fst ?_ ?_
    | simp only [Keeps.put]
    | with_reducible refine State.headerFree_keeps ?_
    | with_reducible refine State.enterJob_keeps ?_
    | with_reducible refine State.putJobState_keeps ?_
    | with_reducible refine Keeps.forEach (fun x st => ?_) ?_
    | with_reducible refine Keeps.foldl_fst (fun acc x => ?_) ?_
    | with_reducible refine Keeps.foldl (fun st x => ?_) ?_
    | split

theorem State.acceptJob_keeps {t : State} {x0 x1} {x : State × Bool} (h : Keeps t x.1) : Keeps t (State.acceptJob x0 x1 x).1 := by
  refine h.trans ?_
  clear h
  unfold State.acceptJob
  repeat' first
    | with_reducible exact Keeps.refl _
    | with_reducible assumption
    | with_reducible refine Keeps.of_fst ?_ (by assumption)
    | with_reducible refine Keeps.ite_fst ?_ ?_
    | simp only [Keeps.put]
    | with_reducible refine State.offAsk_keeps ?_
    | with_reducible refine State.offFetch_keeps ?_
    | with_reducible refine State.refuseJob_keeps ?_
    | with_reducible refine State.takeJob_keeps ?_
    | with_reducible refine Keeps.forEach (fun x st => ?_) ?_
    | with_reducible refine Keeps.foldl_fst (fun acc x => ?_) ?_
    | with_reducible refine Keeps.foldl (fun st x => ?_) ?_
    | split

theorem State.takeSlots_keeps {t s : State} {x0} (h : Keeps t s) : Keeps t (State.takeSlots x0 s) := by
  refine h.trans ?_
  clear h
  unfold State.takeSlots
  repeat' first
    | with_reducible exact Keeps.refl _
    | with_reducible assumption
    | with_reducible refine Keeps.of_fst ?_ (by assumption)
    | with_reducible refine Keeps.ite_fst ?_ ?_
    | simp only [Keeps.put]
    | with_reducible refine State.offFetch_keeps ?_
    | with_reducible refine State.offAsk_keeps ?_
    | with_reducible refine State.updHank_keeps ?_
    | with_reducible refine Keeps.forEach (fun x st => ?_) ?_
    | with_reducible refine Keeps.foldl_fst (fun acc x => ?_) ?_
    | with_reducible refine Keeps.foldl (fun st x => ?_) ?_
    | split

theorem State.acceptJobs_keeps {t s : State} (h : Keeps t s) : Keeps t (State.acceptJobs s) := by
  refine h.trans ?_
  clear h
  unfold State.acceptJobs
  repeat' first
    | with_reducible exact Keeps.refl _
    | with_reducible assumption
    | with_reducible refine Keeps.of_fst ?_ (by assumption)
    | with_reducible refine Keeps.ite_fst ?_ ?_
    | simp only [Keeps.put]
    | with_reducible refine State.takeSlots_keeps ?_
    | with_reducible refine State.acceptJob_keeps ?_
    | with_reducible refine Keeps.forEach (fun x st => ?_) ?_
    | with_reducible refine Keeps.foldl_fst (fun acc x => ?_) ?_
    | with_reducible refine Keeps.foldl (fun st x => ?_) ?_
    | split

theorem State.askCellar_keeps {t s : State} {x0 x1 x2 x3} (h : Keeps t s) : Keeps t (State.askCellar x0 x1 x2 x3 s) := by
  refine h.trans ?_
  clear h
  unfold State.askCellar
  repeat' first
    | with_reducible exact Keeps.refl _
    | with_reducible assumption
    | with_reducible refine Keeps.of_fst ?_ (by assumption)
    | with_reducible refine Keeps.ite_fst ?_ ?_
    | simp only [Keeps.put]
    | with_reducible refine State.request_keeps ?_
    | with_reducible refine Keeps.forEach (fun x st => ?_) ?_
    | with_reducible refine Keeps.foldl_fst (fun acc x => ?_) ?_
    | with_reducible refine Keeps.foldl (fun st x => ?_) ?_
    | split

theorem State.dropJob_keeps {t s : State} {x0 x1} (h : Keeps t s) : Keeps t (State.dropJob x0 x1 s) := by
  refine h.trans ?_
  clear h
  unfold State.dropJob
  repeat' first
    | with_reducible exact Keeps.refl _
    | with_reducible assumption
    | with_reducible refine Keeps.of_fst ?_ (by assumption)
    | with_reducible refine Keeps.ite_fst ?_ ?_
    | simp only [Keeps.put]
    | with_reducible refine State.dropReqs_keeps ?_
    | with_reducible refine Keeps.forEach (fun x st => ?_) ?_
    | with_reducible refine Keeps.foldl_fst (fun acc x => ?_) ?_
    | with_reducible refine Keeps.foldl (fun st x => ?_) ?_
    | split

theorem State.updJob_keeps {t s : State} {x0 x1 x2} (h : Keeps t s) : Keeps t (State.updJob x0 x1 x2 s) := by
  refine h.trans ?_
  clear h
  unfold State.updJob
  repeat' first
    | with_reducible exact Keeps.refl _
    | with_reducible assumption
    | with_reducible refine Keeps.of_fst ?_ (by assumption)
    | with_reducible refine Keeps.ite_fst ?_ ?_
    | simp only [Keeps.put]
    | with_reducible refine Keeps.forEach (fun x st => ?_) ?_
    | with_reducible refine Keeps.foldl_fst (fun acc x => ?_) ?_
    | with_reducible refine Keeps.foldl (fun st x => ?_) ?_
    | split

theorem State.spoilTargets_keeps {t s : State} {x0 x1} (h : Keeps t s) : Keeps t (State.spoilTargets x0 x1 s) := by
  refine h.trans ?_
  clear h
  unfold State.spoilTargets
  repeat' first
    | with_reducible exact Keeps.refl _
    | with_reducible assumption
    | with_reducible refine Keeps.of_fst ?_ (by assumption)
    | with_reducible refine Keeps.ite_fst ?_ ?_
    | simp only [Keeps.put]
    | with_reducible refine State.spendFree_keeps ?_
    | with_reducible refine State.offWrite_keeps ?_
    | with_reducible refine Keeps.forEach (fun x st => ?_) ?_
    | with_reducible refine Keeps.foldl_fst (fun acc x => ?_) ?_
    | with_reducible refine Keeps.foldl (fun st x => ?_) ?_
    | split

theorem State.closeJob_keeps {t s : State} {x0 x1} (h : Keeps t s) : Keeps t (State.closeJob x0 x1 s) := by
  refine h.trans ?_
  clear h
  unfold State.closeJob
  repeat' first
    | with_reducible exact Keeps.refl _
    | with_reducible assumption
    | with_reducible refine Keeps.of_fst ?_ (by assumption)
    | with_reducible refine Keeps.ite_fst ?_ ?_
    | simp only [Keeps.put]
    | with_reducible refine State.offFetch_keeps ?_
    | with_reducible refine State.invalidate_keeps ?_
    | with_reducible refine State.dropJob_keeps ?_
    | with_reducible refine State.bump_keeps ?_
    | with_reducible refine State.putJobState_keeps ?_
    | with_reducible refine State.updJob_keeps ?_
    | with_reducible refine State.spoilTargets_keeps ?_
    | with_reducible refine State.offWrite_keeps ?_
    | with_reducible refine Keeps.forEach (fun x st => ?_) ?_
    | with_reducible refine Keeps.foldl_fst (fun acc x => ?_) ?_
    | with_reducible refine Keeps.foldl (fun st x => ?_) ?_
    | split

theorem State.stopJob_keeps {t s : State} {x0 x1} (h : Keeps t s) : Keeps t (State.stopJob x0 x1 s) := by
  refine h.trans ?_
  clear h
  unfold State.stopJob
  repeat' first
    | with_reducible exact Keeps.refl _
    | with_reducible assumption
    | with_reducible refine Keeps.of_fst ?_ (by assumption)
    | with_reducible refine Keeps.ite_fst ?_ ?_
    | simp only [Keeps.put]
    | with_reducible refine State.dropReqs_keeps ?_
    | with_reducible refine State.closeJob_keeps ?_
    | with_reducible refine State.updJob_keeps ?_
    | with_reducible refine Keeps.forEach (fun x st => ?_) ?_
    | with_reducible refine Keeps.foldl_fst (fun acc x => ?_) ?_
    | with_reducible refine Keeps.foldl (fun st x => ?_) ?_
    | split

theorem State.putCellar_keeps {t s : State} {x0 x1 x2 x3} (h : Keeps t s) : Keeps t (State.putCellar x0 x1 x2 x3 s) := by
  refine h.trans ?_
  clear h
  unfold State.putCellar
  repeat' first
    | with_reducible exact Keeps.refl _
    | with_reducible assumption
    | with_reducible refine Keeps.of_fst ?_ (by assumption)
    | with_reducible refine Keeps.ite_fst ?_ ?_
    | simp only [Keeps.put]
    | with_reducible refine State.request_keeps ?_
    | with_reducible refine Keeps.forEach (fun x st => ?_) ?_
    | with_reducible refine Keeps.foldl_fst (fun acc x => ?_) ?_
    | with_reducible refine Keeps.foldl (fun st x => ?_) ?_
    | split

theorem State.putTargets_keeps {t s : State} {x0 x1 x2} (h : Keeps t s) : Keeps t (State.putTargets x0 x1 x2 s) := by
  refine h.trans ?_
  clear h
  unfold State.putTargets
  repeat' first
    | with_reducible exact Keeps.refl _
    | with_reducible assumption
    | with_reducible refine Keeps.of_fst ?_ (by assumption)
    | with_reducible refine Keeps.ite_fst ?_ ?_
    | simp only [Keeps.put]
    | with_reducible refine State.offWrite_keeps ?_
    | with_reducible refine State.updJob_keeps ?_
    | with_reducible refine State.putCellar_keeps ?_
    | with_reducible refine State.closeJob_keeps ?_
    | with_reducible refine Keeps.forEach (fun x st => ?_) ?_
    | with_reducible refine Keeps.foldl_fst (fun acc x => ?_) ?_
    | with_reducible refine Keeps.foldl (fun st x => ?_) ?_
    | split

theorem State.runJob_keeps {t s : State} {x0 x1 x2} (h : Keeps t s) : Keeps t (State.runJob x0 x1 x2 s) := by
  refine h.trans ?_
  clear h
  unfold State.runJob
  repeat' first
    | with_reducible exact Keeps.refl _
    | with_reducible assumption
    | with_reducible refine Keeps.of_fst ?_ (by assumption)
    | with_reducible refine Keeps.ite_fst ?_ ?_
    | simp only [Keeps.put]
    | with_reducible refine State.pagesWay_keeps ?_
    | with_reducible refine State.invalidate_keeps ?_
    | with_reducible refine State.closeJob_keeps ?_
    | with_reducible refine State.updJob_keeps ?_
    | with_reducible refine State.bump_keeps ?_
    | with_reducible refine State.putTwist_keeps ?_
    | with_reducible refine State.putTargets_keeps ?_
    | with_reducible refine Keeps.forEach (fun x st => ?_) ?_
    | with_reducible refine Keeps.foldl_fst (fun acc x => ?_) ?_
    | with_reducible refine Keeps.foldl (fun st x => ?_) ?_
    | split

theorem State.jobComplete_keeps {t s : State} {x0 x1} (h : Keeps t s) : Keeps t (State.jobComplete x0 x1 s) := by
  refine h.trans ?_
  clear h
  unfold State.jobComplete
  repeat' first
    | with_reducible exact Keeps.refl _
    | with_reducible assumption
    | with_reducible refine Keeps.of_fst ?_ (by assumption)
    | with_reducible refine Keeps.ite_fst ?_ ?_
    | simp only [Keeps.put]
    | with_reducible refine State.closeJob_keeps ?_
    | with_reducible refine State.offFetch_keeps ?_
    | with_reducible refine State.stopJob_keeps ?_
    | with_reducible refine State.updJob_keeps ?_
    | with_reducible refine State.askCellar_keeps ?_
    | with_reducible refine State.offAsk_keeps ?_
    | with_reducible refine State.runJob_keeps ?_
    | with_reducible refine Keeps.forEach (fun x st => ?_) ?_
    | with_reducible refine Keeps.foldl_fst (fun acc x => ?_) ?_
    | with_reducible refine Keeps.foldl (fun st x => ?_) ?_
    | split

theorem State.jobData_keeps {t s : State} {x0 x1 x2 x3} (h : Keeps t s) : Keeps t (State.jobData x0 x1 x2 x3 s) := by
  refine h.trans ?_
  clear h
  unfold State.jobData
  repeat' first
    | with_reducible exact Keeps.refl _
    | with_reducible assumption
    | with_reducible refine Keeps.of_fst ?_ (by assumption)
    | with_reducible refine Keeps.ite_fst ?_ ?_
    | simp only [Keeps.put]
    | with_reducible refine State.stopJob_keeps ?_
    | with_reducible refine State.updJob_keeps ?_
    | with_reducible refine Keeps.forEach (fun x st => ?_) ?_
    | with_reducible refine Keeps.foldl_fst (fun acc x => ?_) ?_
    | with_reducible refine Keeps.foldl (fun st x => ?_) ?_
    | split

theorem State.jobPass_keeps {t s : State} (h : Keeps t s) : Keeps t (State.jobPass s) := by
  refine h.trans ?_
  clear h
  unfold State.jobPass
  repeat' first
    | with_reducible exact Keeps.refl _
    | with_reducible assumption
    | with_reducible refine Keeps.of_fst ?_ (by assumption)
    | with_reducible refine Keeps.ite_fst ?_ ?_
    | simp only [Keeps.put]
    | with_reducible refine State.closeJob_keeps ?_
    | with_reducible refine Keeps.forEach (fun x st => ?_) ?_
    | with_reducible refine Keeps.foldl_fst (fun acc x => ?_) ?_
    | with_reducible refine Keeps.foldl (fun st x => ?_) ?_
    | split

theorem State.jobWritten_keeps {t s : State} {x0 x1 x2 x3} (h : Keeps t s) : Keeps t (State.jobWritten x0 x1 x2 x3 s) := by
  refine h.trans ?_
  clear h
  unfold State.jobWritten
  repeat' first
    | with_reducible exact Keeps.refl _
    | with_reducible assumption
    | with_reducible refine Keeps.of_fst ?_ (by assumption)
    | with_reducible refine Keeps.ite_fst ?_ ?_
    | simp only [Keeps.put]
    | with_reducible refine State.closeJob_keeps ?_
    | with_reducible refine State.updJob_keeps ?_
    | with_reducible refine Keeps.forEach (fun x st => ?_) ?_
    | with_reducible refine Keeps.foldl_fst (fun acc x => ?_) ?_
    | with_reducible refine Keeps.foldl (fun st x => ?_) ?_
    | split

end Sys2Proof.Machine
end

