-- ==== Sys2Proof/Laws/KeepsHealth.lean ====
section
/-! SUPPORT. What the operations of Machine/Health.lean keep (Keeps.lean). -/

set_option linter.unusedSimpArgs false

namespace Sys2Proof.Machine

theorem State.setHealth_keeps {t s : State} {x0} (h : Keeps t s) : Keeps t (State.setHealth x0 s) := by
  refine h.trans ?_
  clear h
  unfold State.setHealth
  repeat' first
    | with_reducible exact Keeps.refl _
    | with_reducible assumption
    | with_reducible refine Keeps.of_fst ?_ (by assumption)
    | with_reducible refine Keeps.ite_fst ?_ ?_
    | simp only [Keeps.put]
    | with_reducible refine Keeps.forEach (fun x st => ?_) ?_
    | with_reducible refine Keeps.foldl_fst (fun acc x => ?_) ?_
    | with_reducible refine Keeps.foldl (fun st x => ?_) ?_
    | split

theorem State.nextPeriod_keeps {t s : State} (h : Keeps t s) : Keeps t (State.nextPeriod s) := by
  refine h.trans ?_
  clear h
  unfold State.nextPeriod
  repeat' first
    | with_reducible exact Keeps.refl _
    | with_reducible assumption
    | with_reducible refine Keeps.of_fst ?_ (by assumption)
    | with_reducible refine Keeps.ite_fst ?_ ?_
    | simp only [Keeps.put]
    | with_reducible refine State.setHealth_keeps ?_
    | with_reducible refine Keeps.forEach (fun x st => ?_) ?_
    | with_reducible refine Keeps.foldl_fst (fun acc x => ?_) ?_
    | with_reducible refine Keeps.foldl (fun st x => ?_) ?_
    | split

theorem State.stageMasks_keeps {t s : State} {x0 x1 x2} (h : Keeps t s) : Keeps t (State.stageMasks x0 x1 x2 s) := by
  refine h.trans ?_
  clear h
  unfold State.stageMasks
  repeat' first
    | with_reducible exact Keeps.refl _
    | with_reducible assumption
    | with_reducible refine Keeps.of_fst ?_ (by assumption)
    | with_reducible refine Keeps.ite_fst ?_ ?_
    | simp only [Keeps.put]
    | with_reducible refine State.stageSelf_keeps ?_
    | with_reducible refine State.setHealth_keeps ?_
    | with_reducible refine Keeps.forEach (fun x st => ?_) ?_
    | with_reducible refine Keeps.foldl_fst (fun acc x => ?_) ?_
    | with_reducible refine Keeps.foldl (fun st x => ?_) ?_
    | split

theorem State.shedTurn_keeps {t s : State} (h : Keeps t s) : Keeps t (State.shedTurn s) := by
  refine h.trans ?_
  clear h
  unfold State.shedTurn
  repeat' first
    | with_reducible exact Keeps.refl _
    | with_reducible assumption
    | with_reducible refine Keeps.of_fst ?_ (by assumption)
    | with_reducible refine Keeps.ite_fst ?_ ?_
    | simp only [Keeps.put]
    | with_reducible refine State.bump_keeps ?_
    | with_reducible refine State.stageMasks_keeps ?_
    | with_reducible refine State.setHealth_keeps ?_
    | with_reducible refine Keeps.forEach (fun x st => ?_) ?_
    | with_reducible refine Keeps.foldl_fst (fun acc x => ?_) ?_
    | with_reducible refine Keeps.foldl (fun st x => ?_) ?_
    | split

theorem State.levelTurn_keeps {t s : State} {x0 x1 x2} (hx2 : ∀ {t s}, Keeps t s → Keeps t (x2 s)) (h : Keeps t s) : Keeps t (State.levelTurn x0 x1 x2 s) := by
  refine h.trans ?_
  clear h
  unfold State.levelTurn
  repeat' first
    | with_reducible exact Keeps.refl _
    | with_reducible assumption
    | with_reducible refine Keeps.of_fst ?_ (by assumption)
    | with_reducible refine Keeps.ite_fst ?_ ?_
    | simp only [Keeps.put]
    | with_reducible refine State.levelEvent_keeps ?_
    | with_reducible refine State.crossLevel_keeps ?_
    | with_reducible refine hx2 ?_
    | with_reducible refine Keeps.forEach (fun x st => ?_) ?_
    | with_reducible refine Keeps.foldl_fst (fun acc x => ?_) ?_
    | with_reducible refine Keeps.foldl (fun st x => ?_) ?_
    | split

theorem State.warn_keeps {t s : State} (h : Keeps t s) : Keeps t (State.warn s) := by
  refine h.trans ?_
  clear h
  unfold State.warn
  repeat' first
    | with_reducible exact Keeps.refl _
    | with_reducible assumption
    | with_reducible refine Keeps.of_fst ?_ (by assumption)
    | with_reducible refine Keeps.ite_fst ?_ ?_
    | simp only [Keeps.put]
    | with_reducible refine State.levelEvent_keeps ?_
    | with_reducible refine State.crossLevel_keeps ?_
    | with_reducible refine State.changed_keeps ?_
    | with_reducible refine State.bump_keeps ?_
    | with_reducible refine Keeps.forEach (fun x st => ?_) ?_
    | with_reducible refine Keeps.foldl_fst (fun acc x => ?_) ?_
    | with_reducible refine Keeps.foldl (fun st x => ?_) ?_
    | split

theorem State.levelsTurn_keeps {t s : State} (h : Keeps t s) : Keeps t (State.levelsTurn s) := by
  refine h.trans ?_
  clear h
  unfold State.levelsTurn
  repeat' first
    | with_reducible exact Keeps.refl _
    | with_reducible assumption
    | with_reducible refine Keeps.of_fst ?_ (by assumption)
    | with_reducible refine Keeps.ite_fst ?_ ?_
    | simp only [Keeps.put]
    | with_reducible refine State.levelTurn_keeps (fun hk => ?_) ?_
    | with_reducible refine State.warn_keeps ?_
    | with_reducible refine State.bump_keeps ?_
    | with_reducible refine State.levelEvent_keeps ?_
    | with_reducible refine State.crossLevel_keeps ?_
    | with_reducible refine Keeps.forEach (fun x st => ?_) ?_
    | with_reducible refine Keeps.foldl_fst (fun acc x => ?_) ?_
    | with_reducible refine Keeps.foldl (fun st x => ?_) ?_
    | split

theorem State.scorePeriod_keeps {t s : State} {x0} (h : Keeps t s) : Keeps t (State.scorePeriod x0 s) := by
  refine h.trans ?_
  clear h
  unfold State.scorePeriod
  repeat' first
    | with_reducible exact Keeps.refl _
    | with_reducible assumption
    | with_reducible refine Keeps.of_fst ?_ (by assumption)
    | with_reducible refine Keeps.ite_fst ?_ ?_
    | simp only [Keeps.put]
    | with_reducible refine State.setHealth_keeps ?_
    | with_reducible refine Keeps.forEach (fun x st => ?_) ?_
    | with_reducible refine Keeps.foldl_fst (fun acc x => ?_) ?_
    | with_reducible refine Keeps.foldl (fun st x => ?_) ?_
    | split

theorem State.healthTurn_keeps {t s : State} {x0} (h : Keeps t s) : Keeps t (State.healthTurn x0 s) := by
  refine h.trans ?_
  clear h
  unfold State.healthTurn
  repeat' first
    | with_reducible exact Keeps.refl _
    | with_reducible assumption
    | with_reducible refine Keeps.of_fst ?_ (by assumption)
    | with_reducible refine Keeps.ite_fst ?_ ?_
    | simp only [Keeps.put]
    | with_reducible refine State.nextPeriod_keeps ?_
    | with_reducible refine State.shedTurn_keeps ?_
    | with_reducible refine State.levelsTurn_keeps ?_
    | with_reducible refine State.scorePeriod_keeps ?_
    | with_reducible refine Keeps.forEach (fun x st => ?_) ?_
    | with_reducible refine Keeps.foldl_fst (fun acc x => ?_) ?_
    | with_reducible refine Keeps.foldl (fun st x => ?_) ?_
    | split

theorem State.shedThreshold_keeps {t s : State} (h : Keeps t s) : Keeps t (State.shedThreshold s) := by
  refine h.trans ?_
  clear h
  unfold State.shedThreshold
  repeat' first
    | with_reducible exact Keeps.refl _
    | with_reducible assumption
    | with_reducible refine Keeps.of_fst ?_ (by assumption)
    | with_reducible refine Keeps.ite_fst ?_ ?_
    | simp only [Keeps.put]
    | with_reducible refine State.setHealth_keeps ?_
    | with_reducible refine Keeps.forEach (fun x st => ?_) ?_
    | with_reducible refine Keeps.foldl_fst (fun acc x => ?_) ?_
    | with_reducible refine Keeps.foldl (fun st x => ?_) ?_
    | split

end Sys2Proof.Machine
end

