-- ==== Sys2Proof/Laws/KeepsHouse.lean ====
section
/-! SUPPORT. What the operations of Machine/House.lean keep (Keeps.lean). -/

set_option linter.unusedSimpArgs false

namespace Sys2Proof.Machine

theorem State.setFw_keeps {t s : State} {x0} (h : Keeps t s) : Keeps t (State.setFw x0 s) := by
  refine h.trans ?_
  clear h
  unfold State.setFw
  repeat' first
    | with_reducible exact Keeps.refl _
    | with_reducible assumption
    | with_reducible refine Keeps.of_fst ?_ (by assumption)
    | with_reducible refine Keeps.ite_fst ?_ ?_
    | simp only [Keeps.put]
    | with_reducible refine Keeps.forEach (fun x st => ?_) ?_
    | with_reducible refine Keeps.foldl_fst (fun acc x => ?_) ?_
    | with_reducible refine Keeps.foldl (fun st x => ?_) ?_
    | split

theorem State.restoreEvents_keeps {t s : State} {x0} (h : Keeps t s) : Keeps t (State.restoreEvents x0 s) := by
  refine h.trans ?_
  clear h
  unfold State.restoreEvents
  repeat' first
    | with_reducible exact Keeps.refl _
    | with_reducible assumption
    | with_reducible refine Keeps.of_fst ?_ (by assumption)
    | with_reducible refine Keeps.ite_fst ?_ ?_
    | simp only [Keeps.put]
    | with_reducible refine Keeps.forEach (fun x st => ?_) ?_
    | with_reducible refine Keeps.foldl_fst (fun acc x => ?_) ?_
    | with_reducible refine Keeps.foldl (fun st x => ?_) ?_
    | split

theorem State.applyRec_keeps {t s : State} {x0} (h : Keeps t s) : Keeps t (State.applyRec x0 s) := by
  refine h.trans ?_
  clear h
  unfold State.applyRec
  repeat' first
    | with_reducible exact Keeps.refl _
    | with_reducible assumption
    | with_reducible refine Keeps.of_fst ?_ (by assumption)
    | with_reducible refine Keeps.ite_fst ?_ ?_
    | simp only [Keeps.put]
    | with_reducible refine State.setJournal_keeps ?_
    | with_reducible refine State.setFw_keeps ?_
    | with_reducible refine State.setReg_keeps ?_
    | with_reducible refine State.setHealth_keeps ?_
    | with_reducible refine State.restoreEvents_keeps ?_
    | with_reducible refine Keeps.forEach (fun x st => ?_) ?_
    | with_reducible refine Keeps.foldl_fst (fun acc x => ?_) ?_
    | with_reducible refine Keeps.foldl (fun st x => ?_) ?_
    | split

theorem State.npSeen_keeps {t s : State} (h : Keeps t s) : Keeps t (State.npSeen s) := by
  refine h.trans ?_
  clear h
  unfold State.npSeen
  repeat' first
    | with_reducible exact Keeps.refl _
    | with_reducible assumption
    | with_reducible refine Keeps.of_fst ?_ (by assumption)
    | with_reducible refine Keeps.ite_fst ?_ ?_
    | simp only [Keeps.put]
    | with_reducible refine State.nvWrite_keeps ?_
    | with_reducible refine Keeps.forEach (fun x st => ?_) ?_
    | with_reducible refine Keeps.foldl_fst (fun acc x => ?_) ?_
    | with_reducible refine Keeps.foldl (fun st x => ?_) ?_
    | split

theorem State.askJournal_keeps {t s : State} (h : Keeps t s) : Keeps t (State.askJournal s) := by
  refine h.trans ?_
  clear h
  unfold State.askJournal
  repeat' first
    | with_reducible exact Keeps.refl _
    | with_reducible assumption
    | with_reducible refine Keeps.of_fst ?_ (by assumption)
    | with_reducible refine Keeps.ite_fst ?_ ?_
    | simp only [Keeps.put]
    | with_reducible refine State.npAsk_keeps ?_
    | with_reducible refine State.npSeen_keeps ?_
    | with_reducible refine Keeps.forEach (fun x st => ?_) ?_
    | with_reducible refine Keeps.foldl_fst (fun acc x => ?_) ?_
    | with_reducible refine Keeps.foldl (fun st x => ?_) ?_
    | split

theorem State.putSlot_keeps {t s : State} {x0 x1} (h : Keeps t s) : Keeps t (State.putSlot x0 x1 s) := by
  refine h.trans ?_
  clear h
  unfold State.putSlot
  repeat' first
    | with_reducible exact Keeps.refl _
    | with_reducible assumption
    | with_reducible refine Keeps.of_fst ?_ (by assumption)
    | with_reducible refine Keeps.ite_fst ?_ ?_
    | simp only [Keeps.put]
    | with_reducible refine State.setFw_keeps ?_
    | with_reducible refine Keeps.forEach (fun x st => ?_) ?_
    | with_reducible refine Keeps.foldl_fst (fun acc x => ?_) ?_
    | with_reducible refine Keeps.foldl (fun st x => ?_) ?_
    | split

theorem State.foundJournal_keeps {t s : State} {x0 x1 x2} (h : Keeps t s) : Keeps t (State.foundJournal x0 x1 x2 s) := by
  refine h.trans ?_
  clear h
  unfold State.foundJournal
  repeat' first
    | with_reducible exact Keeps.refl _
    | with_reducible assumption
    | with_reducible refine Keeps.of_fst ?_ (by assumption)
    | with_reducible refine Keeps.ite_fst ?_ ?_
    | simp only [Keeps.put]
    | with_reducible refine State.setJournal_keeps ?_
    | with_reducible refine Keeps.forEach (fun x st => ?_) ?_
    | with_reducible refine Keeps.foldl_fst (fun acc x => ?_) ?_
    | with_reducible refine Keeps.foldl (fun st x => ?_) ?_
    | split

theorem State.retiredMasks_keeps {t s : State} (h : Keeps t s) : Keeps t (State.retiredMasks s) := by
  refine h.trans ?_
  clear h
  unfold State.retiredMasks
  repeat' first
    | with_reducible exact Keeps.refl _
    | with_reducible assumption
    | with_reducible refine Keeps.of_fst ?_ (by assumption)
    | with_reducible refine Keeps.ite_fst ?_ ?_
    | simp only [Keeps.put]
    | with_reducible refine State.setReg_keeps ?_
    | with_reducible refine Keeps.forEach (fun x st => ?_) ?_
    | with_reducible refine Keeps.foldl_fst (fun acc x => ?_) ?_
    | with_reducible refine Keeps.foldl (fun st x => ?_) ?_
    | split

theorem State.countTorn_keeps {t s : State} {x0} (h : Keeps t s) : Keeps t (State.countTorn x0 s) := by
  refine h.trans ?_
  clear h
  unfold State.countTorn
  repeat' first
    | with_reducible exact Keeps.refl _
    | with_reducible assumption
    | with_reducible refine Keeps.of_fst ?_ (by assumption)
    | with_reducible refine Keeps.ite_fst ?_ ?_
    | simp only [Keeps.put]
    | with_reducible refine State.bump_keeps ?_
    | with_reducible refine Keeps.forEach (fun x st => ?_) ?_
    | with_reducible refine Keeps.foldl_fst (fun acc x => ?_) ?_
    | with_reducible refine Keeps.foldl (fun st x => ?_) ?_
    | split

theorem State.formatStream_keeps {t s : State} (h : Keeps t s) : Keeps t (State.formatStream s) := by
  refine h.trans ?_
  clear h
  unfold State.formatStream
  repeat' first
    | with_reducible exact Keeps.refl _
    | with_reducible assumption
    | with_reducible refine Keeps.of_fst ?_ (by assumption)
    | with_reducible refine Keeps.ite_fst ?_ ?_
    | simp only [Keeps.put]
    | with_reducible refine State.setJournal_keeps ?_
    | with_reducible refine State.npPush_keeps ?_
    | with_reducible refine Keeps.forEach (fun x st => ?_) ?_
    | with_reducible refine Keeps.foldl_fst (fun acc x => ?_) ?_
    | with_reducible refine Keeps.foldl (fun st x => ?_) ?_
    | split

theorem State.replay_keeps {t s : State} (h : Keeps t s) : Keeps t (State.replay s) := by
  refine h.trans ?_
  clear h
  unfold State.replay
  repeat' first
    | with_reducible exact Keeps.refl _
    | with_reducible assumption
    | with_reducible refine Keeps.of_fst ?_ (by assumption)
    | with_reducible refine Keeps.ite_fst ?_ ?_
    | simp only [Keeps.put]
    | with_reducible refine State.npSeen_keeps ?_
    | with_reducible refine State.applyRec_keeps ?_
    | with_reducible refine State.foundJournal_keeps ?_
    | with_reducible refine State.retiredMasks_keeps ?_
    | with_reducible refine State.countTorn_keeps ?_
    | with_reducible refine State.formatStream_keeps ?_
    | with_reducible refine Keeps.forEach (fun x st => ?_) ?_
    | with_reducible refine Keeps.foldl_fst (fun acc x => ?_) ?_
    | with_reducible refine Keeps.foldl (fun st x => ?_) ?_
    | split

theorem State.firstStart_keeps {t s : State} {x0} (h : Keeps t s) : Keeps t (State.firstStart x0 s) := by
  refine h.trans ?_
  clear h
  unfold State.firstStart
  repeat' first
    | with_reducible exact Keeps.refl _
    | with_reducible assumption
    | with_reducible refine Keeps.of_fst ?_ (by assumption)
    | with_reducible refine Keeps.ite_fst ?_ ?_
    | simp only [Keeps.put]
    | with_reducible refine State.replay_keeps ?_
    | with_reducible refine State.append_keeps ?_
    | with_reducible refine Keeps.forEach (fun x st => ?_) ?_
    | with_reducible refine Keeps.foldl_fst (fun acc x => ?_) ?_
    | with_reducible refine Keeps.foldl (fun st x => ?_) ?_
    | split

theorem State.replayAgain_keeps {t s : State} (h : Keeps t s) : Keeps t (State.replayAgain s) := by
  refine h.trans ?_
  clear h
  unfold State.replayAgain
  repeat' first
    | with_reducible exact Keeps.refl _
    | with_reducible assumption
    | with_reducible refine Keeps.of_fst ?_ (by assumption)
    | with_reducible refine Keeps.ite_fst ?_ ?_
    | simp only [Keeps.put]
    | with_reducible refine State.npSeen_keeps ?_
    | with_reducible refine State.foundJournal_keeps ?_
    | with_reducible refine State.countTorn_keeps ?_
    | with_reducible refine State.formatStream_keeps ?_
    | with_reducible refine Keeps.forEach (fun x st => ?_) ?_
    | with_reducible refine Keeps.foldl_fst (fun acc x => ?_) ?_
    | with_reducible refine Keeps.foldl (fun st x => ?_) ?_
    | split

theorem State.startImage_keeps {t s : State} {x0} (h : Keeps t s) : Keeps t (State.startImage x0 s) := by
  refine h.trans ?_
  clear h
  unfold State.startImage
  repeat' first
    | with_reducible exact Keeps.refl _
    | with_reducible assumption
    | with_reducible refine Keeps.of_fst ?_ (by assumption)
    | with_reducible refine Keeps.ite_fst ?_ ?_
    | simp only [Keeps.put]
    | with_reducible refine State.askJournal_keeps ?_
    | with_reducible refine State.firstStart_keeps ?_
    | with_reducible refine State.npSeen_keeps ?_
    | with_reducible refine State.replayAgain_keeps ?_
    | with_reducible refine State.setReg_keeps ?_
    | with_reducible refine State.setFw_keeps ?_
    | with_reducible refine State.raise_keeps ?_
    | with_reducible refine State.bump_keeps ?_
    | with_reducible refine State.append_keeps ?_
    | with_reducible refine Keeps.forEach (fun x st => ?_) ?_
    | with_reducible refine Keeps.foldl_fst (fun acc x => ?_) ?_
    | with_reducible refine Keeps.foldl (fun st x => ?_) ?_
    | split

theorem State.replayEvents_keeps {t s : State} (h : Keeps t s) : Keeps t (State.replayEvents s) := by
  refine h.trans ?_
  clear h
  unfold State.replayEvents
  repeat' first
    | with_reducible exact Keeps.refl _
    | with_reducible assumption
    | with_reducible refine Keeps.of_fst ?_ (by assumption)
    | with_reducible refine Keeps.ite_fst ?_ ?_
    | simp only [Keeps.put]
    | with_reducible refine State.npSeen_keeps ?_
    | with_reducible refine State.applyRec_keeps ?_
    | with_reducible refine State.foundJournal_keeps ?_
    | with_reducible refine Keeps.forEach (fun x st => ?_) ?_
    | with_reducible refine Keeps.foldl_fst (fun acc x => ?_) ?_
    | with_reducible refine Keeps.foldl (fun st x => ?_) ?_
    | split

theorem State.recover_keeps {t s : State} (h : Keeps t s) : Keeps t (State.recover s) := by
  refine h.trans ?_
  clear h
  unfold State.recover
  repeat' first
    | with_reducible exact Keeps.refl _
    | with_reducible assumption
    | with_reducible refine Keeps.of_fst ?_ (by assumption)
    | with_reducible refine Keeps.ite_fst ?_ ?_
    | simp only [Keeps.put]
    | with_reducible refine State.replayEvents_keeps ?_
    | with_reducible refine State.raise_keeps ?_
    | with_reducible refine State.bump_keeps ?_
    | with_reducible refine Keeps.forEach (fun x st => ?_) ?_
    | with_reducible refine Keeps.foldl_fst (fun acc x => ?_) ?_
    | with_reducible refine Keeps.foldl (fun st x => ?_) ?_
    | split

theorem State.boot_keeps {t s : State} {x0} (h : Keeps t s) : Keeps t (State.boot x0 s) := by
  refine h.trans ?_
  clear h
  unfold State.boot
  repeat' first
    | with_reducible exact Keeps.refl _
    | with_reducible assumption
    | with_reducible refine Keeps.of_fst ?_ (by assumption)
    | with_reducible refine Keeps.ite_fst ?_ ?_
    | simp only [Keeps.put]
    | with_reducible refine State.npSeen_keeps ?_
    | with_reducible refine State.npAsk_keeps ?_
    | with_reducible refine State.putSlot_keeps ?_
    | with_reducible refine State.startImage_keeps ?_
    | with_reducible refine State.recover_keeps ?_
    | with_reducible refine Keeps.forEach (fun x st => ?_) ?_
    | with_reducible refine Keeps.foldl_fst (fun acc x => ?_) ?_
    | with_reducible refine Keeps.foldl (fun st x => ?_) ?_
    | split

theorem State.superDone_keeps {t s : State} (h : Keeps t s) : Keeps t (State.superDone s) := by
  refine h.trans ?_
  clear h
  unfold State.superDone
  repeat' first
    | with_reducible exact Keeps.refl _
    | with_reducible assumption
    | with_reducible refine Keeps.of_fst ?_ (by assumption)
    | with_reducible refine Keeps.ite_fst ?_ ?_
    | simp only [Keeps.put]
    | with_reducible refine State.setJournal_keeps ?_
    | with_reducible refine Keeps.forEach (fun x st => ?_) ?_
    | with_reducible refine Keeps.foldl_fst (fun acc x => ?_) ?_
    | with_reducible refine Keeps.foldl (fun st x => ?_) ?_
    | split

theorem State.compacted_keeps {t s : State} (h : Keeps t s) : Keeps t (State.compacted s) := by
  refine h.trans ?_
  clear h
  unfold State.compacted
  repeat' first
    | with_reducible exact Keeps.refl _
    | with_reducible assumption
    | with_reducible refine Keeps.of_fst ?_ (by assumption)
    | with_reducible refine Keeps.ite_fst ?_ ?_
    | simp only [Keeps.put]
    | with_reducible refine State.setJournal_keeps ?_
    | with_reducible refine State.bump_keeps ?_
    | with_reducible refine State.superDone_keeps ?_
    | with_reducible refine Keeps.forEach (fun x st => ?_) ?_
    | with_reducible refine Keeps.foldl_fst (fun acc x => ?_) ?_
    | with_reducible refine Keeps.foldl (fun st x => ?_) ?_
    | split

theorem State.eventFrame_keeps {t s : State} {x0} (h : Keeps t s) : Keeps t (State.eventFrame x0 s) := by
  refine h.trans ?_
  clear h
  unfold State.eventFrame
  repeat' first
    | with_reducible exact Keeps.refl _
    | with_reducible assumption
    | with_reducible refine Keeps.of_fst ?_ (by assumption)
    | with_reducible refine Keeps.ite_fst ?_ ?_
    | simp only [Keeps.put]
    | with_reducible refine State.post_keeps ?_
    | with_reducible refine Keeps.forEach (fun x st => ?_) ?_
    | with_reducible refine Keeps.foldl_fst (fun acc x => ?_) ?_
    | with_reducible refine Keeps.foldl (fun st x => ?_) ?_
    | split

theorem State.watchRow_keeps {t s : State} {x0 x1 x2 x3} (h : Keeps t s) : Keeps t (State.watchRow x0 x1 x2 x3 s) := by
  refine h.trans ?_
  clear h
  unfold State.watchRow
  repeat' first
    | with_reducible exact Keeps.refl _
    | with_reducible assumption
    | with_reducible refine Keeps.of_fst ?_ (by assumption)
    | with_reducible refine Keeps.ite_fst ?_ ?_
    | simp only [Keeps.put]
    | with_reducible refine Keeps.forEach (fun x st => ?_) ?_
    | with_reducible refine Keeps.foldl_fst (fun acc x => ?_) ?_
    | with_reducible refine Keeps.foldl (fun st x => ?_) ?_
    | split

theorem State.powerOn_keeps {t s : State} (h : Keeps t s) : Keeps t (State.powerOn s) := by
  refine h.trans ?_
  clear h
  unfold State.powerOn
  repeat' first
    | with_reducible exact Keeps.refl _
    | with_reducible assumption
    | with_reducible refine Keeps.of_fst ?_ (by assumption)
    | with_reducible refine Keeps.ite_fst ?_ ?_
    | simp only [Keeps.put]
    | with_reducible refine State.askJournal_keeps ?_
    | with_reducible refine State.npSeen_keeps ?_
    | with_reducible refine State.setFw_keeps ?_
    | with_reducible refine State.boot_keeps ?_
    | with_reducible refine Keeps.forEach (fun x st => ?_) ?_
    | with_reducible refine Keeps.foldl_fst (fun acc x => ?_) ?_
    | with_reducible refine Keeps.foldl (fun st x => ?_) ?_
    | split

theorem State.fillDone_keeps {t s : State} {x0} (h : Keeps t s) : Keeps t (State.fillDone x0 s) := by
  refine h.trans ?_
  clear h
  unfold State.fillDone
  repeat' first
    | with_reducible exact Keeps.refl _
    | with_reducible assumption
    | with_reducible refine Keeps.of_fst ?_ (by assumption)
    | with_reducible refine Keeps.ite_fst ?_ ?_
    | simp only [Keeps.put]
    | with_reducible refine State.watchRow_keeps ?_
    | with_reducible refine State.bump_keeps ?_
    | with_reducible refine State.powerOn_keeps ?_
    | with_reducible refine Keeps.forEach (fun x st => ?_) ?_
    | with_reducible refine Keeps.foldl_fst (fun acc x => ?_) ?_
    | with_reducible refine Keeps.foldl (fun st x => ?_) ?_
    | split

theorem State.imageRefused_keeps {t s : State} {x0} (h : Keeps t s) : Keeps t (State.imageRefused x0 s) := by
  refine h.trans ?_
  clear h
  unfold State.imageRefused
  repeat' first
    | with_reducible exact Keeps.refl _
    | with_reducible assumption
    | with_reducible refine Keeps.of_fst ?_ (by assumption)
    | with_reducible refine Keeps.ite_fst ?_ ?_
    | simp only [Keeps.put]
    | with_reducible refine State.setJournal_keeps ?_
    | with_reducible refine State.putSlot_keeps ?_
    | with_reducible refine State.setFw_keeps ?_
    | with_reducible refine State.raise_keeps ?_
    | with_reducible refine Keeps.forEach (fun x st => ?_) ?_
    | with_reducible refine Keeps.foldl_fst (fun acc x => ?_) ?_
    | with_reducible refine Keeps.foldl (fun st x => ?_) ?_
    | split

theorem State.firmwareLoad_keeps {t s : State} {x0} (h : Keeps t s) : Keeps t (State.firmwareLoad x0 s) := by
  refine h.trans ?_
  clear h
  unfold State.firmwareLoad
  repeat' first
    | with_reducible exact Keeps.refl _
    | with_reducible assumption
    | with_reducible refine Keeps.of_fst ?_ (by assumption)
    | with_reducible refine Keeps.ite_fst ?_ ?_
    | simp only [Keeps.put]
    | with_reducible refine State.imageRefused_keeps ?_
    | with_reducible refine State.putSlot_keeps ?_
    | with_reducible refine State.setFw_keeps ?_
    | with_reducible refine State.npPush_keeps ?_
    | with_reducible refine Keeps.forEach (fun x st => ?_) ?_
    | with_reducible refine Keeps.foldl_fst (fun acc x => ?_) ?_
    | with_reducible refine Keeps.foldl (fun st x => ?_) ?_
    | split

theorem State.restart_keeps {t s : State} {x0 x1} (h : Keeps t s) : Keeps t (State.restart x0 x1 s) := by
  refine h.trans ?_
  clear h
  unfold State.restart
  repeat' first
    | with_reducible exact Keeps.refl _
    | with_reducible assumption
    | with_reducible refine Keeps.of_fst ?_ (by assumption)
    | with_reducible refine Keeps.ite_fst ?_ ?_
    | simp only [Keeps.put]
    | with_reducible refine State.boot_keeps ?_
    | with_reducible refine State.askJournal_keeps ?_
    | with_reducible refine Keeps.forEach (fun x st => ?_) ?_
    | with_reducible refine Keeps.foldl_fst (fun acc x => ?_) ?_
    | with_reducible refine Keeps.foldl (fun st x => ?_) ?_
    | split

theorem State.switchover_keeps {t s : State} {x0} (h : Keeps t s) : Keeps t (State.switchover x0 s) := by
  refine h.trans ?_
  clear h
  unfold State.switchover
  repeat' first
    | with_reducible exact Keeps.refl _
    | with_reducible assumption
    | with_reducible refine Keeps.of_fst ?_ (by assumption)
    | with_reducible refine Keeps.ite_fst ?_ ?_
    | simp only [Keeps.put]
    | with_reducible refine State.setFw_keeps ?_
    | with_reducible refine State.append_keeps ?_
    | with_reducible refine State.restart_keeps ?_
    | with_reducible refine State.bump_keeps ?_
    | with_reducible refine Keeps.forEach (fun x st => ?_) ?_
    | with_reducible refine Keeps.foldl_fst (fun acc x => ?_) ?_
    | with_reducible refine Keeps.foldl (fun st x => ?_) ?_
    | split

theorem State.heldSwitch_keeps {t s : State} (h : Keeps t s) : Keeps t (State.heldSwitch s) := by
  refine h.trans ?_
  clear h
  unfold State.heldSwitch
  repeat' first
    | with_reducible exact Keeps.refl _
    | with_reducible assumption
    | with_reducible refine Keeps.of_fst ?_ (by assumption)
    | with_reducible refine Keeps.ite_fst ?_ ?_
    | simp only [Keeps.put]
    | with_reducible refine State.switchover_keeps ?_
    | with_reducible refine Keeps.forEach (fun x st => ?_) ?_
    | with_reducible refine Keeps.foldl_fst (fun acc x => ?_) ?_
    | with_reducible refine Keeps.foldl (fun st x => ?_) ?_
    | split

theorem State.issueAgain_keeps {t s : State} {x0} (h : Keeps t s) : Keeps t (State.issueAgain x0 s) := by
  refine h.trans ?_
  clear h
  unfold State.issueAgain
  repeat' first
    | with_reducible exact Keeps.refl _
    | with_reducible assumption
    | with_reducible refine Keeps.of_fst ?_ (by assumption)
    | with_reducible refine Keeps.ite_fst ?_ ?_
    | simp only [Keeps.put]
    | with_reducible refine State.setJournal_keeps ?_
    | with_reducible refine Keeps.forEach (fun x st => ?_) ?_
    | with_reducible refine Keeps.foldl_fst (fun acc x => ?_) ?_
    | with_reducible refine Keeps.foldl (fun st x => ?_) ?_
    | split

theorem State.journalFail_keeps {t s : State} {x0} (h : Keeps t s) : Keeps t (State.journalFail x0 s) := by
  refine h.trans ?_
  clear h
  unfold State.journalFail
  repeat' first
    | with_reducible exact Keeps.refl _
    | with_reducible assumption
    | with_reducible refine Keeps.of_fst ?_ (by assumption)
    | with_reducible refine Keeps.ite_fst ?_ ?_
    | simp only [Keeps.put]
    | with_reducible refine State.changed_keeps ?_
    | with_reducible refine State.setJournal_keeps ?_
    | with_reducible refine State.imageRefused_keeps ?_
    | with_reducible refine Keeps.forEach (fun x st => ?_) ?_
    | with_reducible refine Keeps.foldl_fst (fun acc x => ?_) ?_
    | with_reducible refine Keeps.foldl (fun st x => ?_) ?_
    | split

theorem State.journalFormat_keeps {t s : State} (h : Keeps t s) : Keeps t (State.journalFormat s) := by
  refine h.trans ?_
  clear h
  unfold State.journalFormat
  repeat' first
    | with_reducible exact Keeps.refl _
    | with_reducible assumption
    | with_reducible refine Keeps.of_fst ?_ (by assumption)
    | with_reducible refine Keeps.ite_fst ?_ ?_
    | simp only [Keeps.put]
    | with_reducible refine State.formatStream_keeps ?_
    | with_reducible refine State.append_keeps ?_
    | with_reducible refine Keeps.forEach (fun x st => ?_) ?_
    | with_reducible refine Keeps.foldl_fst (fun acc x => ?_) ?_
    | with_reducible refine Keeps.foldl (fun st x => ?_) ?_
    | split

theorem State.readBack_keeps {t s : State} {x0 x1 x2} (h : Keeps t s) : Keeps t (State.readBack x0 x1 x2 s) := by
  refine h.trans ?_
  clear h
  unfold State.readBack
  repeat' first
    | with_reducible exact Keeps.refl _
    | with_reducible assumption
    | with_reducible refine Keeps.of_fst ?_ (by assumption)
    | with_reducible refine Keeps.ite_fst ?_ ?_
    | simp only [Keeps.put]
    | with_reducible refine State.imageRefused_keeps ?_
    | with_reducible refine Keeps.forEach (fun x st => ?_) ?_
    | with_reducible refine Keeps.foldl_fst (fun acc x => ?_) ?_
    | with_reducible refine Keeps.foldl (fun st x => ?_) ?_
    | split

theorem State.started_keeps {t s : State} (h : Keeps t s) : Keeps t (State.started s) := by
  refine h.trans ?_
  clear h
  unfold State.started
  repeat' first
    | with_reducible exact Keeps.refl _
    | with_reducible assumption
    | with_reducible refine Keeps.of_fst ?_ (by assumption)
    | with_reducible refine Keeps.ite_fst ?_ ?_
    | simp only [Keeps.put]
    | with_reducible refine State.setFw_keeps ?_
    | with_reducible refine State.raise_keeps ?_
    | with_reducible refine Keeps.forEach (fun x st => ?_) ?_
    | with_reducible refine Keeps.foldl_fst (fun acc x => ?_) ?_
    | with_reducible refine Keeps.foldl (fun st x => ?_) ?_
    | split

theorem State.markJournaled_keeps {t s : State} {x0} (h : Keeps t s) : Keeps t (State.markJournaled x0 s) := by
  refine h.trans ?_
  clear h
  unfold State.markJournaled
  repeat' first
    | with_reducible exact Keeps.refl _
    | with_reducible assumption
    | with_reducible refine Keeps.of_fst ?_ (by assumption)
    | with_reducible refine Keeps.ite_fst ?_ ?_
    | simp only [Keeps.put]
    | with_reducible refine Keeps.forEach (fun x st => ?_) ?_
    | with_reducible refine Keeps.foldl_fst (fun acc x => ?_) ?_
    | with_reducible refine Keeps.foldl (fun st x => ?_) ?_
    | split

theorem State.snapshotDone_keeps {t s : State} (h : Keeps t s) : Keeps t (State.snapshotDone s) := by
  refine h.trans ?_
  clear h
  unfold State.snapshotDone
  repeat' first
    | with_reducible exact Keeps.refl _
    | with_reducible assumption
    | with_reducible refine Keeps.of_fst ?_ (by assumption)
    | with_reducible refine Keeps.ite_fst ?_ ?_
    | simp only [Keeps.put]
    | with_reducible refine State.npPush_keeps ?_
    | with_reducible refine Keeps.forEach (fun x st => ?_) ?_
    | with_reducible refine Keeps.foldl_fst (fun acc x => ?_) ?_
    | with_reducible refine Keeps.foldl (fun st x => ?_) ?_
    | split

theorem State.recordDone_keeps {t s : State} {x0} (h : Keeps t s) : Keeps t (State.recordDone x0 s) := by
  refine h.trans ?_
  clear h
  unfold State.recordDone
  repeat' first
    | with_reducible exact Keeps.refl _
    | with_reducible assumption
    | with_reducible refine Keeps.of_fst ?_ (by assumption)
    | with_reducible refine Keeps.ite_fst ?_ ?_
    | simp only [Keeps.put]
    | with_reducible refine State.bump_keeps ?_
    | with_reducible refine State.started_keeps ?_
    | with_reducible refine State.markJournaled_keeps ?_
    | with_reducible refine State.snapshotDone_keeps ?_
    | with_reducible refine Keeps.forEach (fun x st => ?_) ?_
    | with_reducible refine Keeps.foldl_fst (fun acc x => ?_) ?_
    | with_reducible refine Keeps.foldl (fun st x => ?_) ?_
    | split

theorem State.readBackStart_keeps {t s : State} (h : Keeps t s) : Keeps t (State.readBackStart s) := by
  refine h.trans ?_
  clear h
  unfold State.readBackStart
  repeat' first
    | with_reducible exact Keeps.refl _
    | with_reducible assumption
    | with_reducible refine Keeps.of_fst ?_ (by assumption)
    | with_reducible refine Keeps.ite_fst ?_ ?_
    | simp only [Keeps.put]
    | with_reducible refine State.npPush_keeps ?_
    | with_reducible refine Keeps.forEach (fun x st => ?_) ?_
    | with_reducible refine Keeps.foldl_fst (fun acc x => ?_) ?_
    | with_reducible refine Keeps.foldl (fun st x => ?_) ?_
    | split

theorem State.lineDone_keeps {t s : State} {x0} (h : Keeps t s) : Keeps t (State.lineDone x0 s) := by
  refine h.trans ?_
  clear h
  unfold State.lineDone
  repeat' first
    | with_reducible exact Keeps.refl _
    | with_reducible assumption
    | with_reducible refine Keeps.of_fst ?_ (by assumption)
    | with_reducible refine Keeps.ite_fst ?_ ?_
    | simp only [Keeps.put]
    | with_reducible refine State.recordDone_keeps ?_
    | with_reducible refine State.compacted_keeps ?_
    | with_reducible refine State.readBackStart_keeps ?_
    | with_reducible refine State.superDone_keeps ?_
    | with_reducible refine Keeps.forEach (fun x st => ?_) ?_
    | with_reducible refine Keeps.foldl_fst (fun acc x => ?_) ?_
    | with_reducible refine Keeps.foldl (fun st x => ?_) ?_
    | split

theorem State.lineAnswered_keeps {t s : State} {x0 x1 x2} (h : Keeps t s) : Keeps t (State.lineAnswered x0 x1 x2 s) := by
  refine h.trans ?_
  clear h
  unfold State.lineAnswered
  repeat' first
    | with_reducible exact Keeps.refl _
    | with_reducible assumption
    | with_reducible refine Keeps.of_fst ?_ (by assumption)
    | with_reducible refine Keeps.ite_fst ?_ ?_
    | simp only [Keeps.put]
    | with_reducible refine State.readBack_keeps ?_
    | with_reducible refine State.lineDone_keeps ?_
    | with_reducible refine State.nvWrite_keeps ?_
    | with_reducible refine State.journalFail_keeps ?_
    | with_reducible refine State.issueAgain_keeps ?_
    | with_reducible refine Keeps.forEach (fun x st => ?_) ?_
    | with_reducible refine Keeps.foldl_fst (fun acc x => ?_) ?_
    | with_reducible refine Keeps.foldl (fun st x => ?_) ?_
    | split

theorem State.journalResponse_keeps {t s : State} {x0 x1} (h : Keeps t s) : Keeps t (State.journalResponse x0 x1 s) := by
  refine h.trans ?_
  clear h
  unfold State.journalResponse
  repeat' first
    | with_reducible exact Keeps.refl _
    | with_reducible assumption
    | with_reducible refine Keeps.of_fst ?_ (by assumption)
    | with_reducible refine Keeps.ite_fst ?_ ?_
    | simp only [Keeps.put]
    | with_reducible refine State.countNote_keeps ?_
    | with_reducible refine State.npPump_keeps ?_
    | with_reducible refine State.lineAnswered_keeps ?_
    | with_reducible refine State.setJournal_keeps ?_
    | with_reducible refine Keeps.forEach (fun x st => ?_) ?_
    | with_reducible refine Keeps.foldl_fst (fun acc x => ?_) ?_
    | with_reducible refine Keeps.foldl (fun st x => ?_) ?_
    | split

theorem State.resetHigh_keeps {t s : State} (h : Keeps t s) : Keeps t (State.resetHigh s) := by
  refine h.trans ?_
  clear h
  unfold State.resetHigh
  repeat' first
    | with_reducible exact Keeps.refl _
    | with_reducible assumption
    | with_reducible refine Keeps.of_fst ?_ (by assumption)
    | with_reducible refine Keeps.ite_fst ?_ ?_
    | simp only [Keeps.put]
    | (simp only [State.afterReset]; exact ⟨rfl, rfl, Nat.le_refl _, id, fun _ => ⟨⟨List.Pairwise.nil, fun c hc => nomatch hc⟩, fun c hc => nomatch hc⟩⟩)
    | with_reducible refine Keeps.forEach (fun x st => ?_) ?_
    | with_reducible refine Keeps.foldl_fst (fun acc x => ?_) ?_
    | with_reducible refine Keeps.foldl (fun st x => ?_) ?_
    | split

theorem State.resetLow_keeps {t s : State} {x0} (h : Keeps t s) : Keeps t (State.resetLow x0 s) := by
  refine h.trans ?_
  clear h
  unfold State.resetLow
  repeat' first
    | with_reducible exact Keeps.refl _
    | with_reducible assumption
    | with_reducible refine Keeps.of_fst ?_ (by assumption)
    | with_reducible refine Keeps.ite_fst ?_ ?_
    | simp only [Keeps.put]
    | with_reducible refine State.emit_keeps ?_
    | (simp only [State.afterReset]; exact ⟨rfl, rfl, Nat.le_refl _, id, fun _ => ⟨⟨List.Pairwise.nil, fun c hc => nomatch hc⟩, fun c hc => nomatch hc⟩⟩)
    | with_reducible refine Keeps.forEach (fun x st => ?_) ?_
    | with_reducible refine Keeps.foldl_fst (fun acc x => ?_) ?_
    | with_reducible refine Keeps.foldl (fun st x => ?_) ?_
    | split

theorem State.lzReset_keeps {t s : State} {x0 x1} (h : Keeps t s) : Keeps t (State.lzReset x0 x1 s) := by
  refine h.trans ?_
  clear h
  unfold State.lzReset
  repeat' first
    | with_reducible exact Keeps.refl _
    | with_reducible assumption
    | with_reducible refine Keeps.of_fst ?_ (by assumption)
    | with_reducible refine Keeps.ite_fst ?_ ?_
    | simp only [Keeps.put]
    | with_reducible refine State.resetHigh_keeps ?_
    | with_reducible refine State.resetLow_keeps ?_
    | with_reducible refine Keeps.forEach (fun x st => ?_) ?_
    | with_reducible refine Keeps.foldl_fst (fun acc x => ?_) ?_
    | with_reducible refine Keeps.foldl (fun st x => ?_) ?_
    | split

theorem State.retryJournal_keeps {t s : State} (h : Keeps t s) : Keeps t (State.retryJournal s) := by
  refine h.trans ?_
  clear h
  unfold State.retryJournal
  repeat' first
    | with_reducible exact Keeps.refl _
    | with_reducible assumption
    | with_reducible refine Keeps.of_fst ?_ (by assumption)
    | with_reducible refine Keeps.ite_fst ?_ ?_
    | simp only [Keeps.put]
    | with_reducible refine State.snapshot_keeps ?_
    | with_reducible refine Keeps.forEach (fun x st => ?_) ?_
    | with_reducible refine Keeps.foldl_fst (fun acc x => ?_) ?_
    | with_reducible refine Keeps.foldl (fun st x => ?_) ?_
    | split

theorem State.trialEnd_keeps {t s : State} (h : Keeps t s) : Keeps t (State.trialEnd s) := by
  refine h.trans ?_
  clear h
  unfold State.trialEnd
  repeat' first
    | with_reducible exact Keeps.refl _
    | with_reducible assumption
    | with_reducible refine Keeps.of_fst ?_ (by assumption)
    | with_reducible refine Keeps.ite_fst ?_ ?_
    | simp only [Keeps.put]
    | with_reducible refine State.setFw_keeps ?_
    | with_reducible refine State.append_keeps ?_
    | with_reducible refine State.restart_keeps ?_
    | with_reducible refine State.bump_keeps ?_
    | with_reducible refine Keeps.forEach (fun x st => ?_) ?_
    | with_reducible refine Keeps.foldl_fst (fun acc x => ?_) ?_
    | with_reducible refine Keeps.foldl (fun st x => ?_) ?_
    | split

theorem State.verifyDone_keeps {t s : State} (h : Keeps t s) : Keeps t (State.verifyDone s) := by
  refine h.trans ?_
  clear h
  unfold State.verifyDone
  repeat' first
    | with_reducible exact Keeps.refl _
    | with_reducible assumption
    | with_reducible refine Keeps.of_fst ?_ (by assumption)
    | with_reducible refine Keeps.ite_fst ?_ ?_
    | simp only [Keeps.put]
    | with_reducible refine State.imageRefused_keeps ?_
    | with_reducible refine State.setFw_keeps ?_
    | with_reducible refine State.putSlot_keeps ?_
    | with_reducible refine State.startImage_keeps ?_
    | with_reducible refine Keeps.forEach (fun x st => ?_) ?_
    | with_reducible refine Keeps.foldl_fst (fun acc x => ?_) ?_
    | with_reducible refine Keeps.foldl (fun st x => ?_) ?_
    | split

theorem State.watchdog_keeps {t s : State} (h : Keeps t s) : Keeps t (State.watchdog s) := by
  refine h.trans ?_
  clear h
  unfold State.watchdog
  repeat' first
    | with_reducible exact Keeps.refl _
    | with_reducible assumption
    | with_reducible refine Keeps.of_fst ?_ (by assumption)
    | with_reducible refine Keeps.ite_fst ?_ ?_
    | simp only [Keeps.put]
    | with_reducible refine State.bump_keeps ?_
    | with_reducible refine State.setFw_keeps ?_
    | with_reducible refine State.append_keeps ?_
    | with_reducible refine State.restart_keeps ?_
    | with_reducible refine Keeps.forEach (fun x st => ?_) ?_
    | with_reducible refine Keeps.foldl_fst (fun acc x => ?_) ?_
    | with_reducible refine Keeps.foldl (fun st x => ?_) ?_
    | split

end Sys2Proof.Machine
end

