-- ==== Sys2Proof/Laws/KeepsDictWrite.lean ====
section
/-! SUPPORT. What the operations of Machine/DictWrite.lean keep (Keeps.lean). -/

set_option linter.unusedSimpArgs false

namespace Sys2Proof.Machine

theorem State.ackEvents_keeps {t s : State} {x0 x1} (h : Keeps t s) : Keeps t (State.ackEvents x0 x1 s) := by
  refine h.trans ?_
  clear h
  unfold State.ackEvents
  repeat' first
    | with_reducible exact Keeps.refl _
    | with_reducible assumption
    | with_reducible refine Keeps.of_fst ?_ (by assumption)
    | with_reducible refine Keeps.ite_fst ?_ ?_
    | simp only [Keeps.put]
    | with_reducible refine Keeps.forEach (fun x st => ?_) ?_
    | with_reducible refine Keeps.foldl_fst (fun acc x => ?_) ?_
    | with_reducible refine Keeps.foldl (fun st x => ?_) ?_
    | split

theorem State.answerWrite_keeps {t s : State} {x0 x1} (h : Keeps t s) : Keeps t (State.answerWrite x0 x1 s) := by
  refine h.trans ?_
  clear h
  unfold State.answerWrite
  repeat' first
    | with_reducible exact Keeps.refl _
    | with_reducible assumption
    | with_reducible refine Keeps.of_fst ?_ (by assumption)
    | with_reducible refine Keeps.ite_fst ?_ ?_
    | simp only [Keeps.put]
    | with_reducible refine State.emit_keeps ?_
    | with_reducible refine Keeps.forEach (fun x st => ?_) ?_
    | with_reducible refine Keeps.foldl_fst (fun acc x => ?_) ?_
    | with_reducible refine Keeps.foldl (fun st x => ?_) ?_
    | split

theorem State.stageTables_keeps {t s : State} {x0} (h : Keeps t s) : Keeps t (State.stageTables x0 s) := by
  refine h.trans ?_
  clear h
  unfold State.stageTables
  repeat' first
    | with_reducible exact Keeps.refl _
    | with_reducible assumption
    | with_reducible refine Keeps.of_fst ?_ (by assumption)
    | with_reducible refine Keeps.ite_fst ?_ ?_
    | simp only [Keeps.put]
    | with_reducible refine State.bump_keeps ?_
    | with_reducible refine Keeps.forEach (fun x st => ?_) ?_
    | with_reducible refine Keeps.foldl_fst (fun acc x => ?_) ?_
    | with_reducible refine Keeps.foldl (fun st x => ?_) ?_
    | split

theorem State.liftRetired_keeps {t s : State} {x0 x1} (h : Keeps t s) : Keeps t (State.liftRetired x0 x1 s) := by
  refine h.trans ?_
  clear h
  unfold State.liftRetired
  repeat' first
    | with_reducible exact Keeps.refl _
    | with_reducible assumption
    | with_reducible refine Keeps.of_fst ?_ (by assumption)
    | with_reducible refine Keeps.ite_fst ?_ ?_
    | simp only [Keeps.put]
    | with_reducible refine State.setHealth_keeps ?_
    | with_reducible refine State.journalState_keeps ?_
    | with_reducible refine Keeps.forEach (fun x st => ?_) ?_
    | with_reducible refine Keeps.foldl_fst (fun acc x => ?_) ?_
    | with_reducible refine Keeps.foldl (fun st x => ?_) ?_
    | split

theorem State.doStage_keeps {t s : State} {x0 x1 x2} (h : Keeps t s) : Keeps t (State.doStage x0 x1 x2 s) := by
  refine h.trans ?_
  clear h
  unfold State.doStage
  repeat' first
    | with_reducible exact Keeps.refl _
    | with_reducible assumption
    | with_reducible refine Keeps.of_fst ?_ (by assumption)
    | with_reducible refine Keeps.ite_fst ?_ ?_
    | simp only [Keeps.put]
    | with_reducible refine State.stageTables_keeps ?_
    | with_reducible refine State.stage_keeps ?_
    | with_reducible refine State.liftRetired_keeps ?_
    | with_reducible refine Keeps.forEach (fun x st => ?_) ?_
    | with_reducible refine Keeps.foldl_fst (fun acc x => ?_) ?_
    | with_reducible refine Keeps.foldl (fun st x => ?_) ?_
    | split

theorem State.setView_keeps {t s : State} {x0 x1} (h : Keeps t s) : Keeps t (State.setView x0 x1 s) := by
  refine h.trans ?_
  clear h
  unfold State.setView
  repeat' first
    | with_reducible exact Keeps.refl _
    | with_reducible assumption
    | with_reducible refine Keeps.of_fst ?_ (by assumption)
    | with_reducible refine Keeps.ite_fst ?_ ?_
    | simp only [Keeps.put]
    | with_reducible refine Keeps.forEach (fun x st => ?_) ?_
    | with_reducible refine Keeps.foldl_fst (fun acc x => ?_) ?_
    | with_reducible refine Keeps.foldl (fun st x => ?_) ?_
    | split

theorem State.xferTarget_keeps {t s : State} {x0 x1} (h : Keeps t s) : Keeps t (State.xferTarget x0 x1 s) := by
  refine h.trans ?_
  clear h
  unfold State.xferTarget
  repeat' first
    | with_reducible exact Keeps.refl _
    | with_reducible assumption
    | with_reducible refine Keeps.of_fst ?_ (by assumption)
    | with_reducible refine Keeps.ite_fst ?_ ?_
    | simp only [Keeps.put]
    | with_reducible refine State.setReg_keeps ?_
    | with_reducible refine State.readEntry_keeps ?_
    | with_reducible refine Keeps.forEach (fun x st => ?_) ?_
    | with_reducible refine Keeps.foldl_fst (fun acc x => ?_) ?_
    | with_reducible refine Keeps.foldl (fun st x => ?_) ?_
    | split

theorem State.xferWord_keeps {t s : State} {x0} (h : Keeps t s) : Keeps t (State.xferWord x0 s) := by
  refine h.trans ?_
  clear h
  unfold State.xferWord
  repeat' first
    | with_reducible exact Keeps.refl _
    | with_reducible assumption
    | with_reducible refine Keeps.of_fst ?_ (by assumption)
    | with_reducible refine Keeps.ite_fst ?_ ?_
    | simp only [Keeps.put]
    | with_reducible refine State.xferAdvance_keeps ?_
    | with_reducible refine Keeps.forEach (fun x st => ?_) ?_
    | with_reducible refine Keeps.foldl_fst (fun acc x => ?_) ?_
    | with_reducible refine Keeps.foldl (fun st x => ?_) ?_
    | split

theorem State.raiseRollcall_keeps {t s : State} (h : Keeps t s) : Keeps t (State.raiseRollcall s) := by
  refine h.trans ?_
  clear h
  unfold State.raiseRollcall
  repeat' first
    | with_reducible exact Keeps.refl _
    | with_reducible assumption
    | with_reducible refine Keeps.of_fst ?_ (by assumption)
    | with_reducible refine Keeps.ite_fst ?_ ?_
    | simp only [Keeps.put]
    | with_reducible refine Keeps.forEach (fun x st => ?_) ?_
    | with_reducible refine Keeps.foldl_fst (fun acc x => ?_) ?_
    | with_reducible refine Keeps.foldl (fun st x => ?_) ?_
    | split

theorem State.replicaTarget_keeps {t s : State} {x0} (h : Keeps t s) : Keeps t (State.replicaTarget x0 s) := by
  refine h.trans ?_
  clear h
  unfold State.replicaTarget
  repeat' first
    | with_reducible exact Keeps.refl _
    | with_reducible assumption
    | with_reducible refine Keeps.of_fst ?_ (by assumption)
    | with_reducible refine Keeps.ite_fst ?_ ?_
    | simp only [Keeps.put]
    | with_reducible refine State.setReg_keeps ?_
    | with_reducible refine State.copyStart_keeps ?_
    | with_reducible refine Keeps.forEach (fun x st => ?_) ?_
    | with_reducible refine Keeps.foldl_fst (fun acc x => ?_) ?_
    | with_reducible refine Keeps.foldl (fun st x => ?_) ?_
    | split

theorem State.raiseMinimum_keeps {t s : State} {x0} (h : Keeps t s) : Keeps t (State.raiseMinimum x0 s) := by
  refine h.trans ?_
  clear h
  unfold State.raiseMinimum
  repeat' first
    | with_reducible exact Keeps.refl _
    | with_reducible assumption
    | with_reducible refine Keeps.of_fst ?_ (by assumption)
    | with_reducible refine Keeps.ite_fst ?_ ?_
    | simp only [Keeps.put]
    | with_reducible refine State.setFw_keeps ?_
    | with_reducible refine State.journalState_keeps ?_
    | with_reducible refine Keeps.forEach (fun x st => ?_) ?_
    | with_reducible refine Keeps.foldl_fst (fun acc x => ?_) ?_
    | with_reducible refine Keeps.foldl (fun st x => ?_) ?_
    | split

theorem State.setJutus_keeps {t s : State} {x0} (h : Keeps t s) : Keeps t (State.setJutus x0 s) := by
  refine h.trans ?_
  clear h
  unfold State.setJutus
  repeat' first
    | with_reducible exact Keeps.refl _
    | with_reducible assumption
    | with_reducible refine Keeps.of_fst ?_ (by assumption)
    | with_reducible refine Keeps.ite_fst ?_ ?_
    | simp only [Keeps.put]
    | with_reducible refine Keeps.forEach (fun x st => ?_) ?_
    | with_reducible refine Keeps.foldl_fst (fun acc x => ?_) ?_
    | with_reducible refine Keeps.foldl (fun st x => ?_) ?_
    | split

theorem State.doScalar_keeps {t s : State} {x0 x1 x2 x3} (h : Keeps t s) : Keeps t (State.doScalar x0 x1 x2 x3 s).1 := by
  refine h.trans ?_
  clear h
  unfold State.doScalar
  repeat' first
    | with_reducible exact Keeps.refl _
    | with_reducible assumption
    | with_reducible refine Keeps.of_fst ?_ (by assumption)
    | with_reducible refine Keeps.ite_fst ?_ ?_
    | simp only [Keeps.put]
    | with_reducible refine State.setView_keeps ?_
    | with_reducible refine State.xferTarget_keeps ?_
    | with_reducible refine State.xferWord_keeps ?_
    | with_reducible refine State.raiseRollcall_keeps ?_
    | with_reducible refine State.replicaTarget_keeps ?_
    | with_reducible refine State.ackEvents_keeps ?_
    | with_reducible refine State.raiseMinimum_keeps ?_
    | with_reducible refine State.setJutus_keeps ?_
    | with_reducible refine State.journalFormat_keeps ?_
    | with_reducible refine State.setReg_keeps ?_
    | with_reducible refine Keeps.forEach (fun x st => ?_) ?_
    | with_reducible refine Keeps.foldl_fst (fun acc x => ?_) ?_
    | with_reducible refine Keeps.foldl (fun st x => ?_) ?_
    | split

theorem State.setFx_keeps {t s : State} {x0} (h : Keeps t s) : Keeps t (State.setFx x0 s) := by
  refine h.trans ?_
  clear h
  unfold State.setFx
  repeat' first
    | with_reducible exact Keeps.refl _
    | with_reducible assumption
    | with_reducible refine Keeps.of_fst ?_ (by assumption)
    | with_reducible refine Keeps.ite_fst ?_ ?_
    | simp only [Keeps.put]
    | with_reducible refine Keeps.forEach (fun x st => ?_) ?_
    | with_reducible refine Keeps.foldl_fst (fun acc x => ?_) ?_
    | with_reducible refine Keeps.foldl (fun st x => ?_) ?_
    | split

theorem State.lostMaskWrite_keeps {t s : State} {x0} (h : Keeps t s) : Keeps t (State.lostMaskWrite x0 s).1 := by
  refine h.trans ?_
  clear h
  unfold State.lostMaskWrite
  repeat' first
    | with_reducible exact Keeps.refl _
    | with_reducible assumption
    | with_reducible refine Keeps.of_fst ?_ (by assumption)
    | with_reducible refine Keeps.ite_fst ?_ ?_
    | simp only [Keeps.put]
    | with_reducible refine State.lostMaskStripe_keeps ?_
    | with_reducible refine Keeps.forEach (fun x st => ?_) ?_
    | with_reducible refine Keeps.foldl_fst (fun acc x => ?_) ?_
    | with_reducible refine Keeps.foldl (fun st x => ?_) ?_
    | split

theorem State.maskRepair_keeps {t s : State} {x0} (h : Keeps t s) : Keeps t (State.maskRepair x0 s).1 := by
  refine h.trans ?_
  clear h
  unfold State.maskRepair
  repeat' first
    | with_reducible exact Keeps.refl _
    | with_reducible assumption
    | with_reducible refine Keeps.of_fst ?_ (by assumption)
    | with_reducible refine Keeps.ite_fst ?_ ?_
    | simp only [Keeps.put]
    | with_reducible refine State.spanWrite_keeps ?_
    | with_reducible refine State.clearBad_keeps ?_
    | with_reducible refine State.updHank_keeps ?_
    | with_reducible refine Keeps.forEach (fun x st => ?_) ?_
    | with_reducible refine Keeps.foldl_fst (fun acc x => ?_) ?_
    | with_reducible refine Keeps.foldl (fun st x => ?_) ?_
    | split

theorem State.subscribe_keeps {t s : State} {x0} (h : Keeps t s) : Keeps t (State.subscribe x0 s) := by
  refine h.trans ?_
  clear h
  unfold State.subscribe
  repeat' first
    | with_reducible exact Keeps.refl _
    | with_reducible assumption
    | with_reducible refine Keeps.of_fst ?_ (by assumption)
    | with_reducible refine Keeps.ite_fst ?_ ?_
    | simp only [Keeps.put]
    | with_reducible refine Keeps.forEach (fun x st => ?_) ?_
    | with_reducible refine Keeps.foldl_fst (fun acc x => ?_) ?_
    | with_reducible refine Keeps.foldl (fun st x => ?_) ?_
    | split

theorem State.doBlob_keeps {t s : State} {x0 x1 x2 x3} (h : Keeps t s) : Keeps t (State.doBlob x0 x1 x2 x3 s).1 := by
  refine h.trans ?_
  clear h
  unfold State.doBlob
  repeat' first
    | with_reducible exact Keeps.refl _
    | with_reducible assumption
    | with_reducible refine Keeps.of_fst ?_ (by assumption)
    | with_reducible refine Keeps.ite_fst ?_ ?_
    | simp only [Keeps.put]
    | with_reducible refine State.setFx_keeps ?_
    | with_reducible refine State.startLoad_keeps ?_
    | with_reducible refine State.onProposal_keeps ?_
    | with_reducible refine State.lostMaskWrite_keeps ?_
    | with_reducible refine State.serveHeldOut_keeps ?_
    | with_reducible refine State.holdNotice_keeps ?_
    | with_reducible refine State.pageDiscard_keeps ?_
    | with_reducible refine State.hashProbe_keeps ?_
    | with_reducible refine State.restoreRequest_keeps ?_
    | with_reducible refine State.contextWrite_keeps ?_
    | with_reducible refine State.maskRepair_keeps ?_
    | with_reducible refine State.subscribe_keeps ?_
    | with_reducible refine State.firmwareLoad_keeps ?_
    | with_reducible refine State.setJutus_keeps ?_
    | with_reducible refine Keeps.forEach (fun x st => ?_) ?_
    | with_reducible refine Keeps.foldl_fst (fun acc x => ?_) ?_
    | with_reducible refine Keeps.foldl (fun st x => ?_) ?_
    | split

theorem State.applyWrite_keeps {t s : State} {x0 x1 x2 x3 x4} (h : Keeps t s) : Keeps t (State.applyWrite x0 x1 x2 x3 x4 s).1 := by
  refine h.trans ?_
  clear h
  unfold State.applyWrite
  repeat' first
    | with_reducible exact Keeps.refl _
    | with_reducible assumption
    | with_reducible refine Keeps.of_fst ?_ (by assumption)
    | with_reducible refine Keeps.ite_fst ?_ ?_
    | simp only [Keeps.put]
    | with_reducible refine State.doStage_keeps ?_
    | with_reducible refine State.doScalar_keeps ?_
    | with_reducible refine State.doBlob_keeps ?_
    | with_reducible refine Keeps.forEach (fun x st => ?_) ?_
    | with_reducible refine Keeps.foldl_fst (fun acc x => ?_) ?_
    | with_reducible refine Keeps.foldl (fun st x => ?_) ?_
    | split

theorem State.countRetry_keeps {t s : State} {x0 x1 x2} (h : Keeps t s) : Keeps t (State.countRetry x0 x1 x2 s) := by
  refine h.trans ?_
  clear h
  unfold State.countRetry
  dsimp only
  generalize (x2 && (s.loadsPlan x1 || (x1 == 0x10FD01 && s.sys.hk == .restarting))) = b
  cases b <;> cases x0 <;> first
    | exact Keeps.refl _
    | exact State.bump_keeps (Keeps.refl _)
    | exact State.bump_keeps (State.bump_keeps (Keeps.refl _))

theorem State.countTwist_keeps {t s : State} {x0 x1} (h : Keeps t s) : Keeps t (State.countTwist x0 x1 s) := by
  refine h.trans ?_
  clear h
  unfold State.countTwist
  repeat' first
    | with_reducible exact Keeps.refl _
    | with_reducible assumption
    | with_reducible refine Keeps.of_fst ?_ (by assumption)
    | with_reducible refine Keeps.ite_fst ?_ ?_
    | simp only [Keeps.put]
    | with_reducible refine State.bump_keeps ?_
    | with_reducible refine Keeps.forEach (fun x st => ?_) ?_
    | with_reducible refine Keeps.foldl_fst (fun acc x => ?_) ?_
    | with_reducible refine Keeps.foldl (fun st x => ?_) ?_
    | split

theorem State.writeEntry_keeps {t s : State} {x0 x1 x2} (h : Keeps t s) : Keeps t (State.writeEntry x0 x1 x2 s).1 := by
  refine h.trans ?_
  clear h
  unfold State.writeEntry
  repeat' first
    | with_reducible exact Keeps.refl _
    | with_reducible assumption
    | with_reducible refine Keeps.of_fst ?_ (by assumption)
    | with_reducible refine Keeps.ite_fst ?_ ?_
    | simp only [Keeps.put]
    | with_reducible refine State.noEntry_keeps ?_
    | with_reducible refine State.refuseWrite_keeps ?_
    | with_reducible refine State.countTwist_keeps ?_
    | with_reducible refine State.applyWrite_keeps ?_
    | with_reducible refine Keeps.forEach (fun x st => ?_) ?_
    | with_reducible refine Keeps.foldl_fst (fun acc x => ?_) ?_
    | with_reducible refine Keeps.foldl (fun st x => ?_) ?_
    | split

theorem State.dictWrite_keeps {t s : State} {x0 x1 x2} (h : Keeps t s) : Keeps t (State.dictWrite x0 x1 x2 s).1 := by
  refine h.trans ?_
  clear h
  unfold State.dictWrite
  repeat' first
    | with_reducible exact Keeps.refl _
    | with_reducible assumption
    | with_reducible refine Keeps.of_fst ?_ (by assumption)
    | with_reducible refine Keeps.ite_fst ?_ ?_
    | simp only [Keeps.put]
    | with_reducible refine State.refuseWrite_keeps ?_
    | with_reducible refine State.writeEntry_keeps ?_
    | with_reducible refine Keeps.forEach (fun x st => ?_) ?_
    | with_reducible refine Keeps.foldl_fst (fun acc x => ?_) ?_
    | with_reducible refine Keeps.foldl (fun st x => ?_) ?_
    | split

theorem State.gateWrite_keeps {t s : State} {x0 x1 x2} (h : Keeps t s) : Keeps t (State.gateWrite x0 x1 x2 s).1 := by
  refine h.trans ?_
  clear h
  unfold State.gateWrite
  repeat' first
    | with_reducible exact Keeps.refl _
    | with_reducible assumption
    | with_reducible refine Keeps.of_fst ?_ (by assumption)
    | with_reducible refine Keeps.ite_fst ?_ ?_
    | simp only [Keeps.put]
    | with_reducible refine State.dictWrite_keeps ?_
    | with_reducible refine State.countRetry_keeps ?_
    | with_reducible refine Keeps.forEach (fun x st => ?_) ?_
    | with_reducible refine Keeps.foldl_fst (fun acc x => ?_) ?_
    | with_reducible refine Keeps.foldl (fun st x => ?_) ?_
    | split

theorem State.ownWrite_keeps {t s : State} {x0 x1 x2} (h : Keeps t s) : Keeps t (State.ownWrite x0 x1 x2 s) := by
  refine h.trans ?_
  clear h
  unfold State.ownWrite
  repeat' first
    | with_reducible exact Keeps.refl _
    | with_reducible assumption
    | with_reducible refine Keeps.of_fst ?_ (by assumption)
    | with_reducible refine Keeps.ite_fst ?_ ?_
    | simp only [Keeps.put]
    | with_reducible refine State.gateWrite_keeps ?_
    | with_reducible refine State.answerWrite_keeps ?_
    | with_reducible refine Keeps.forEach (fun x st => ?_) ?_
    | with_reducible refine Keeps.foldl_fst (fun acc x => ?_) ?_
    | with_reducible refine Keeps.foldl (fun st x => ?_) ?_
    | split

theorem State.wordRead_keeps {t s : State} {x0 x1} (h : Keeps t s) : Keeps t (State.wordRead x0 x1 s).1 := by
  refine h.trans ?_
  clear h
  unfold State.wordRead
  repeat' first
    | with_reducible exact Keeps.refl _
    | with_reducible assumption
    | with_reducible refine Keeps.of_fst ?_ (by assumption)
    | with_reducible refine Keeps.ite_fst ?_ ?_
    | simp only [Keeps.put]
    | with_reducible refine State.countRetry_keeps ?_
    | with_reducible refine State.noEntry_keeps ?_
    | with_reducible refine State.afterRead_keeps ?_
    | with_reducible refine Keeps.forEach (fun x st => ?_) ?_
    | with_reducible refine Keeps.foldl_fst (fun acc x => ?_) ?_
    | with_reducible refine Keeps.foldl (fun st x => ?_) ?_
    | split

end Sys2Proof.Machine
end

