-- ==== Sys2Proof/Laws/KeepsOcper.lean ====
section
/-! SUPPORT. What the operations of Machine/Ocper.lean keep (Keeps.lean). -/

set_option linter.unusedSimpArgs false

namespace Sys2Proof.Machine

theorem State.setBufs_keeps {t s : State} {x0} (h : Keeps t s) : Keeps t (State.setBufs x0 s) := by
  refine h.trans ?_
  clear h
  unfold State.setBufs
  repeat' first
    | with_reducible exact Keeps.refl _
    | with_reducible assumption
    | with_reducible refine Keeps.of_fst ?_ (by assumption)
    | with_reducible refine Keeps.ite_fst ?_ ?_
    | simp only [Keeps.put]
    | with_reducible refine Keeps.forEach (fun x st => ?_) ?_
    | with_reducible refine Keeps.foldl_fst (fun acc x => ?_) ?_
    | with_reducible refine Keeps.foldl (fun st x => ?_) ?_
    | split

theorem State.freeBuf_keeps {t s : State} {x0} (h : Keeps t s) : Keeps t (State.freeBuf x0 s) := by
  refine h.trans ?_
  clear h
  unfold State.freeBuf
  repeat' first
    | with_reducible exact Keeps.refl _
    | with_reducible assumption
    | with_reducible refine Keeps.of_fst ?_ (by assumption)
    | with_reducible refine Keeps.ite_fst ?_ ?_
    | simp only [Keeps.put]
    | with_reducible refine State.setBufs_keeps ?_
    | with_reducible refine Keeps.forEach (fun x st => ?_) ?_
    | with_reducible refine Keeps.foldl_fst (fun acc x => ?_) ?_
    | with_reducible refine Keeps.foldl (fun st x => ?_) ?_
    | split

theorem State.keepRequest_keeps {t s : State} {x0} (h : Keeps t s) : Keeps t (State.keepRequest x0 s) := by
  refine h.trans ?_
  clear h
  unfold State.keepRequest
  repeat' first
    | with_reducible exact Keeps.refl _
    | with_reducible assumption
    | with_reducible refine Keeps.of_fst ?_ (by assumption)
    | with_reducible refine Keeps.ite_fst ?_ ?_
    | simp only [Keeps.put]
    | with_reducible refine Keeps.forEach (fun x st => ?_) ?_
    | with_reducible refine Keeps.foldl_fst (fun acc x => ?_) ?_
    | with_reducible refine Keeps.foldl (fun st x => ?_) ?_
    | split

theorem State.keepPiece_keeps {t s : State} {x0 x1} (h : Keeps t s) : Keeps t (State.keepPiece x0 x1 s) := by
  refine h.trans ?_
  clear h
  unfold State.keepPiece
  repeat' first
    | with_reducible exact Keeps.refl _
    | with_reducible assumption
    | with_reducible refine Keeps.of_fst ?_ (by assumption)
    | with_reducible refine Keeps.ite_fst ?_ ?_
    | simp only [Keeps.put]
    | with_reducible refine State.keepRequest_keeps ?_
    | with_reducible refine Keeps.forEach (fun x st => ?_) ?_
    | with_reducible refine Keeps.foldl_fst (fun acc x => ?_) ?_
    | with_reducible refine Keeps.foldl (fun st x => ?_) ?_
    | split

theorem State.noteRequest_keeps {t s : State} {x0} (h : Keeps t s) : Keeps t (State.noteRequest x0 s) := by
  refine h.trans ?_
  clear h
  unfold State.noteRequest
  repeat' first
    | with_reducible exact Keeps.refl _
    | with_reducible assumption
    | with_reducible refine Keeps.of_fst ?_ (by assumption)
    | with_reducible refine Keeps.ite_fst ?_ ?_
    | simp only [Keeps.put]
    | with_reducible refine State.keepRequest_keeps ?_
    | with_reducible refine Keeps.forEach (fun x st => ?_) ?_
    | with_reducible refine Keeps.foldl_fst (fun acc x => ?_) ?_
    | with_reducible refine Keeps.foldl (fun st x => ?_) ?_
    | split

theorem State.noteXid_keeps {t s : State} {x0} (h : Keeps t s) : Keeps t (State.noteXid x0 s) := by
  refine h.trans ?_
  clear h
  unfold State.noteXid
  repeat' first
    | with_reducible exact Keeps.refl _
    | with_reducible assumption
    | with_reducible refine Keeps.of_fst ?_ (by assumption)
    | with_reducible refine Keeps.ite_fst ?_ ?_
    | simp only [Keeps.put]
    | with_reducible refine Keeps.forEach (fun x st => ?_) ?_
    | with_reducible refine Keeps.foldl_fst (fun acc x => ?_) ?_
    | with_reducible refine Keeps.foldl (fun st x => ?_) ?_
    | split

theorem State.ocperAnswer_keeps {t s : State} {x0 x1 x2} (h : Keeps t s) : Keeps t (State.ocperAnswer x0 x1 x2 s) := by
  refine h.trans ?_
  clear h
  unfold State.ocperAnswer
  repeat' first
    | with_reducible exact Keeps.refl _
    | with_reducible assumption
    | with_reducible refine Keeps.of_fst ?_ (by assumption)
    | with_reducible refine Keeps.ite_fst ?_ ?_
    | simp only [Keeps.put]
    | with_reducible refine State.bump_keeps ?_
    | with_reducible refine State.post_keeps ?_
    | with_reducible refine Keeps.forEach (fun x st => ?_) ?_
    | with_reducible refine Keeps.foldl_fst (fun acc x => ?_) ?_
    | with_reducible refine Keeps.foldl (fun st x => ?_) ?_
    | split

theorem State.putBuf_keeps {t s : State} {x0} (h : Keeps t s) : Keeps t (State.putBuf x0 s) := by
  refine h.trans ?_
  clear h
  unfold State.putBuf
  repeat' first
    | with_reducible exact Keeps.refl _
    | with_reducible assumption
    | with_reducible refine Keeps.of_fst ?_ (by assumption)
    | with_reducible refine Keeps.ite_fst ?_ ?_
    | simp only [Keeps.put]
    | with_reducible refine State.freeBuf_keeps ?_
    | with_reducible refine State.setBufs_keeps ?_
    | with_reducible refine Keeps.forEach (fun x st => ?_) ?_
    | with_reducible refine Keeps.foldl_fst (fun acc x => ?_) ?_
    | with_reducible refine Keeps.foldl (fun st x => ?_) ?_
    | split

theorem State.ocperWritten_keeps {t s : State} {x0 x1} (h : Keeps t s) : Keeps t (State.ocperWritten x0 x1 s) := by
  refine h.trans ?_
  clear h
  unfold State.ocperWritten
  repeat' first
    | with_reducible exact Keeps.refl _
    | with_reducible assumption
    | with_reducible refine Keeps.of_fst ?_ (by assumption)
    | with_reducible refine Keeps.ite_fst ?_ ?_
    | simp only [Keeps.put]
    | with_reducible refine State.noteXid_keeps ?_
    | with_reducible refine State.ocperAnswer_keeps ?_
    | with_reducible refine Keeps.forEach (fun x st => ?_) ?_
    | with_reducible refine Keeps.foldl_fst (fun acc x => ?_) ?_
    | with_reducible refine Keeps.foldl (fun st x => ?_) ?_
    | split

theorem State.ocperApply_keeps {t s : State} {x0} (h : Keeps t s) : Keeps t (State.ocperApply x0 s) := by
  refine h.trans ?_
  clear h
  unfold State.ocperApply
  repeat' first
    | with_reducible exact Keeps.refl _
    | with_reducible assumption
    | with_reducible refine Keeps.of_fst ?_ (by assumption)
    | with_reducible refine Keeps.ite_fst ?_ ?_
    | simp only [Keeps.put]
    | with_reducible refine State.ocperAnswer_keeps ?_
    | with_reducible refine State.noEntry_keeps ?_
    | with_reducible refine State.dictWrite_keeps ?_
    | with_reducible refine State.freeBuf_keeps ?_
    | with_reducible refine State.putBuf_keeps ?_
    | with_reducible refine State.ocperWritten_keeps ?_
    | with_reducible refine Keeps.forEach (fun x st => ?_) ?_
    | with_reducible refine Keeps.foldl_fst (fun acc x => ?_) ?_
    | with_reducible refine Keeps.foldl (fun st x => ?_) ?_
    | split

theorem State.ocperPiece_keeps {t s : State} {x0 x1} (h : Keeps t s) : Keeps t (State.ocperPiece x0 x1 s) := by
  refine h.trans ?_
  clear h
  unfold State.ocperPiece
  repeat' first
    | with_reducible exact Keeps.refl _
    | with_reducible assumption
    | with_reducible refine Keeps.of_fst ?_ (by assumption)
    | with_reducible refine Keeps.ite_fst ?_ ?_
    | simp only [Keeps.put]
    | with_reducible refine State.keepPiece_keeps ?_
    | with_reducible refine State.freeBuf_keeps ?_
    | with_reducible refine State.ocperAnswer_keeps ?_
    | with_reducible refine Keeps.forEach (fun x st => ?_) ?_
    | with_reducible refine Keeps.foldl_fst (fun acc x => ?_) ?_
    | with_reducible refine Keeps.foldl (fun st x => ?_) ?_
    | split

theorem State.ocperRetry_keeps {t s : State} {x0} (h : Keeps t s) : Keeps t (State.ocperRetry x0 s) := by
  refine h.trans ?_
  clear h
  unfold State.ocperRetry
  repeat' first
    | with_reducible exact Keeps.refl _
    | with_reducible assumption
    | with_reducible refine Keeps.of_fst ?_ (by assumption)
    | with_reducible refine Keeps.ite_fst ?_ ?_
    | simp only [Keeps.put]
    | with_reducible refine State.ocperAnswer_keeps ?_
    | with_reducible refine State.countRetry_keeps ?_
    | with_reducible refine Keeps.forEach (fun x st => ?_) ?_
    | with_reducible refine Keeps.foldl_fst (fun acc x => ?_) ?_
    | with_reducible refine Keeps.foldl (fun st x => ?_) ?_
    | split

theorem State.ocperBlockRead_keeps {t s : State} {x0} (h : Keeps t s) : Keeps t (State.ocperBlockRead x0 s) := by
  refine h.trans ?_
  clear h
  unfold State.ocperBlockRead
  repeat' first
    | with_reducible exact Keeps.refl _
    | with_reducible assumption
    | with_reducible refine Keeps.of_fst ?_ (by assumption)
    | with_reducible refine Keeps.ite_fst ?_ ?_
    | simp only [Keeps.put]
    | with_reducible refine State.ocperAnswer_keeps ?_
    | with_reducible refine State.noEntry_keeps ?_
    | with_reducible refine State.afterRead_keeps ?_
    | with_reducible refine State.putBuf_keeps ?_
    | with_reducible refine State.ocperPiece_keeps ?_
    | with_reducible refine State.ocperRetry_keeps ?_
    | with_reducible refine Keeps.forEach (fun x st => ?_) ?_
    | with_reducible refine Keeps.foldl_fst (fun acc x => ?_) ?_
    | with_reducible refine Keeps.foldl (fun st x => ?_) ?_
    | split

theorem State.ocperRead_keeps {t s : State} {x0} (h : Keeps t s) : Keeps t (State.ocperRead x0 s) := by
  refine h.trans ?_
  clear h
  unfold State.ocperRead
  repeat' first
    | with_reducible exact Keeps.refl _
    | with_reducible assumption
    | with_reducible refine Keeps.of_fst ?_ (by assumption)
    | with_reducible refine Keeps.ite_fst ?_ ?_
    | simp only [Keeps.put]
    | with_reducible refine State.ocperAnswer_keeps ?_
    | with_reducible refine State.noEntry_keeps ?_
    | with_reducible refine State.afterRead_keeps ?_
    | with_reducible refine Keeps.forEach (fun x st => ?_) ?_
    | with_reducible refine Keeps.foldl_fst (fun acc x => ?_) ?_
    | with_reducible refine Keeps.foldl (fun st x => ?_) ?_
    | split

theorem State.ocperSegment_keeps {t s : State} {x0} (h : Keeps t s) : Keeps t (State.ocperSegment x0 s) := by
  refine h.trans ?_
  clear h
  unfold State.ocperSegment
  repeat' first
    | with_reducible exact Keeps.refl _
    | with_reducible assumption
    | with_reducible refine Keeps.of_fst ?_ (by assumption)
    | with_reducible refine Keeps.ite_fst ?_ ?_
    | simp only [Keeps.put]
    | with_reducible refine State.ocperAnswer_keeps ?_
    | with_reducible refine State.noEntry_keeps ?_
    | with_reducible refine State.putBuf_keeps ?_
    | with_reducible refine State.ocperRetry_keeps ?_
    | with_reducible refine Keeps.forEach (fun x st => ?_) ?_
    | with_reducible refine Keeps.foldl_fst (fun acc x => ?_) ?_
    | with_reducible refine Keeps.foldl (fun st x => ?_) ?_
    | split

theorem State.ocperTimeout_keeps {t s : State} {x0} (h : Keeps t s) : Keeps t (State.ocperTimeout x0 s) := by
  refine h.trans ?_
  clear h
  unfold State.ocperTimeout
  repeat' first
    | with_reducible exact Keeps.refl _
    | with_reducible assumption
    | with_reducible refine Keeps.of_fst ?_ (by assumption)
    | with_reducible refine Keeps.ite_fst ?_ ?_
    | simp only [Keeps.put]
    | with_reducible refine State.setBufs_keeps ?_
    | with_reducible refine Keeps.forEach (fun x st => ?_) ?_
    | with_reducible refine Keeps.foldl_fst (fun acc x => ?_) ?_
    | with_reducible refine Keeps.foldl (fun st x => ?_) ?_
    | split

theorem State.ocperWrite_keeps {t s : State} {x0} (h : Keeps t s) : Keeps t (State.ocperWrite x0 s) := by
  refine h.trans ?_
  clear h
  unfold State.ocperWrite
  repeat' first
    | with_reducible exact Keeps.refl _
    | with_reducible assumption
    | with_reducible refine Keeps.of_fst ?_ (by assumption)
    | with_reducible refine Keeps.ite_fst ?_ ?_
    | simp only [Keeps.put]
    | with_reducible refine State.ocperAnswer_keeps ?_
    | with_reducible refine State.dictWrite_keeps ?_
    | with_reducible refine State.ocperWritten_keeps ?_
    | with_reducible refine Keeps.forEach (fun x st => ?_) ?_
    | with_reducible refine Keeps.foldl_fst (fun acc x => ?_) ?_
    | with_reducible refine Keeps.foldl (fun st x => ?_) ?_
    | split

theorem State.onOcper_keeps {t s : State} {x0} (h : Keeps t s) : Keeps t (State.onOcper x0 s) := by
  refine h.trans ?_
  clear h
  unfold State.onOcper
  repeat' first
    | with_reducible exact Keeps.refl _
    | with_reducible assumption
    | with_reducible refine Keeps.of_fst ?_ (by assumption)
    | with_reducible refine Keeps.ite_fst ?_ ?_
    | simp only [Keeps.put]
    | with_reducible refine State.noteRequest_keeps ?_
    | with_reducible refine State.ocperRetry_keeps ?_
    | with_reducible refine State.ocperAnswer_keeps ?_
    | with_reducible refine State.ocperRead_keeps ?_
    | with_reducible refine State.ocperWrite_keeps ?_
    | with_reducible refine State.ocperBlockRead_keeps ?_
    | with_reducible refine State.ocperSegment_keeps ?_
    | with_reducible refine State.ocperApply_keeps ?_
    | with_reducible refine Keeps.forEach (fun x st => ?_) ?_
    | with_reducible refine Keeps.foldl_fst (fun acc x => ?_) ?_
    | with_reducible refine Keeps.foldl (fun st x => ?_) ?_
    | split

end Sys2Proof.Machine
end

