-- ==== Sys2Proof/Laws/KeepsJutus.lean ====
section
/-! SUPPORT. What the operations of Machine/Jutus.lean keep (Keeps.lean). -/

set_option linter.unusedSimpArgs false

namespace Sys2Proof.Machine

theorem State.say_keeps {t s : State} {x0} (h : Keeps t s) : Keeps t (State.say x0 s) := by
  refine h.trans ?_
  clear h
  unfold State.say
  repeat' first
    | with_reducible exact Keeps.refl _
    | with_reducible assumption
    | with_reducible refine Keeps.of_fst ?_ (by assumption)
    | with_reducible refine Keeps.ite_fst ?_ ?_
    | simp only [Keeps.put]
    | with_reducible refine State.emit_keeps ?_
    | with_reducible refine Keeps.forEach (fun x st => ?_) ?_
    | with_reducible refine Keeps.foldl_fst (fun acc x => ?_) ?_
    | with_reducible refine Keeps.foldl (fun st x => ?_) ?_
    | split

theorem State.jutusChallengeRun_keeps {t s : State} (h : Keeps t s) : Keeps t (State.jutusChallengeRun s) := by
  refine h.trans ?_
  clear h
  unfold State.jutusChallengeRun
  repeat' first
    | with_reducible exact Keeps.refl _
    | with_reducible assumption
    | with_reducible refine Keeps.of_fst ?_ (by assumption)
    | with_reducible refine Keeps.ite_fst ?_ ?_
    | simp only [Keeps.put]
    | with_reducible refine State.say_keeps ?_
    | with_reducible refine State.setJutus_keeps ?_
    | with_reducible refine Keeps.forEach (fun x st => ?_) ?_
    | with_reducible refine Keeps.foldl_fst (fun acc x => ?_) ?_
    | with_reducible refine Keeps.foldl (fun st x => ?_) ?_
    | split

theorem State.jutusCountersRun_keeps {t s : State} {x0} (h : Keeps t s) : Keeps t (State.jutusCountersRun x0 s) := by
  refine h.trans ?_
  clear h
  unfold State.jutusCountersRun
  repeat' first
    | with_reducible exact Keeps.refl _
    | with_reducible assumption
    | with_reducible refine Keeps.of_fst ?_ (by assumption)
    | with_reducible refine Keeps.ite_fst ?_ ?_
    | simp only [Keeps.put]
    | with_reducible refine State.say_keeps ?_
    | with_reducible refine State.clearBlock_keeps ?_
    | with_reducible refine State.noEntry_keeps ?_
    | with_reducible refine Keeps.forEach (fun x st => ?_) ?_
    | with_reducible refine Keeps.foldl_fst (fun acc x => ?_) ?_
    | with_reducible refine Keeps.foldl (fun st x => ?_) ?_
    | split

theorem State.jutusRefuse_keeps {t s : State} {x0 x1} (h : Keeps t s) : Keeps t (State.jutusRefuse x0 x1 s) := by
  refine h.trans ?_
  clear h
  unfold State.jutusRefuse
  repeat' first
    | with_reducible exact Keeps.refl _
    | with_reducible assumption
    | with_reducible refine Keeps.of_fst ?_ (by assumption)
    | with_reducible refine Keeps.ite_fst ?_ ?_
    | simp only [Keeps.put]
    | with_reducible refine State.say_keeps ?_
    | with_reducible refine State.refuseWrite_keeps ?_
    | with_reducible refine Keeps.forEach (fun x st => ?_) ?_
    | with_reducible refine Keeps.foldl_fst (fun acc x => ?_) ?_
    | with_reducible refine Keeps.foldl (fun st x => ?_) ?_
    | split

theorem State.jutusDumpEntry_keeps {t s : State} {x0 x1} (h : Keeps t s) : Keeps t (State.jutusDumpEntry x0 x1 s) := by
  refine h.trans ?_
  clear h
  unfold State.jutusDumpEntry
  repeat' first
    | with_reducible exact Keeps.refl _
    | with_reducible assumption
    | with_reducible refine Keeps.of_fst ?_ (by assumption)
    | with_reducible refine Keeps.ite_fst ?_ ?_
    | simp only [Keeps.put]
    | with_reducible refine State.say_keeps ?_
    | with_reducible refine State.noEntry_keeps ?_
    | with_reducible refine State.jutusRefuse_keeps ?_
    | with_reducible refine State.afterRead_keeps ?_
    | with_reducible refine Keeps.forEach (fun x st => ?_) ?_
    | with_reducible refine Keeps.foldl_fst (fun acc x => ?_) ?_
    | with_reducible refine Keeps.foldl (fun st x => ?_) ?_
    | split

theorem State.jutusExpire_keeps {t s : State} (h : Keeps t s) : Keeps t (State.jutusExpire s) := by
  refine h.trans ?_
  clear h
  unfold State.jutusExpire
  repeat' first
    | with_reducible exact Keeps.refl _
    | with_reducible assumption
    | with_reducible refine Keeps.of_fst ?_ (by assumption)
    | with_reducible refine Keeps.ite_fst ?_ ?_
    | simp only [Keeps.put]
    | with_reducible refine State.setJutus_keeps ?_
    | with_reducible refine Keeps.forEach (fun x st => ?_) ?_
    | with_reducible refine Keeps.foldl_fst (fun acc x => ?_) ?_
    | with_reducible refine Keeps.foldl (fun st x => ?_) ?_
    | split

theorem State.jutusFree_keeps {t s : State} (h : Keeps t s) : Keeps t (State.jutusFree s) := by
  refine h.trans ?_
  clear h
  unfold State.jutusFree
  repeat' first
    | with_reducible exact Keeps.refl _
    | with_reducible assumption
    | with_reducible refine Keeps.of_fst ?_ (by assumption)
    | with_reducible refine Keeps.ite_fst ?_ ?_
    | simp only [Keeps.put]
    | with_reducible refine State.setJutus_keeps ?_
    | with_reducible refine Keeps.forEach (fun x st => ?_) ?_
    | with_reducible refine Keeps.foldl_fst (fun acc x => ?_) ?_
    | with_reducible refine Keeps.foldl (fun st x => ?_) ?_
    | split

theorem State.jutusLockRun_keeps {t s : State} (h : Keeps t s) : Keeps t (State.jutusLockRun s) := by
  refine h.trans ?_
  clear h
  unfold State.jutusLockRun
  repeat' first
    | with_reducible exact Keeps.refl _
    | with_reducible assumption
    | with_reducible refine Keeps.of_fst ?_ (by assumption)
    | with_reducible refine Keeps.ite_fst ?_ ?_
    | simp only [Keeps.put]
    | with_reducible refine State.say_keeps ?_
    | with_reducible refine State.setJutus_keeps ?_
    | with_reducible refine Keeps.forEach (fun x st => ?_) ?_
    | with_reducible refine Keeps.foldl_fst (fun acc x => ?_) ?_
    | with_reducible refine Keeps.foldl (fun st x => ?_) ?_
    | split

theorem State.jutusWritten_keeps {t : State} {x} (h : Keeps t x.1) : Keeps t (State.jutusWritten x) := by
  unfold State.jutusWritten
  split
  · exact State.say_keeps h
  · exact State.say_keeps h
  · exact State.say_keeps h

theorem State.jutusPut_keeps {t s : State} {x0 x1} (h : Keeps t s) : Keeps t (State.jutusPut x0 x1 s) := by
  refine h.trans ?_
  clear h
  unfold State.jutusPut
  repeat' first
    | with_reducible exact Keeps.refl _
    | with_reducible assumption
    | with_reducible refine Keeps.of_fst ?_ (by assumption)
    | with_reducible refine Keeps.ite_fst ?_ ?_
    | simp only [Keeps.put]
    | with_reducible refine State.jutusWritten_keeps ?_
    | with_reducible refine State.dictWrite_keeps ?_
    | with_reducible refine Keeps.forEach (fun x st => ?_) ?_
    | with_reducible refine Keeps.foldl_fst (fun acc x => ?_) ?_
    | with_reducible refine Keeps.foldl (fun st x => ?_) ?_
    | split

theorem State.jutusReadEntry_keeps {t s : State} {x0} (h : Keeps t s) : Keeps t (State.jutusReadEntry x0 s) := by
  refine h.trans ?_
  clear h
  unfold State.jutusReadEntry
  repeat' first
    | with_reducible exact Keeps.refl _
    | with_reducible assumption
    | with_reducible refine Keeps.of_fst ?_ (by assumption)
    | with_reducible refine Keeps.ite_fst ?_ ?_
    | simp only [Keeps.put]
    | with_reducible refine State.say_keeps ?_
    | with_reducible refine State.noEntry_keeps ?_
    | with_reducible refine State.jutusRefuse_keeps ?_
    | with_reducible refine State.afterRead_keeps ?_
    | with_reducible refine Keeps.forEach (fun x st => ?_) ?_
    | with_reducible refine Keeps.foldl_fst (fun acc x => ?_) ?_
    | with_reducible refine Keeps.foldl (fun st x => ?_) ?_
    | split

theorem State.jutusRun_keeps {t s : State} {x0} (hx0 : ∀ {t s}, Keeps t s → Keeps t (x0 s)) (h : Keeps t s) : Keeps t (State.jutusRun x0 s) := by
  refine h.trans ?_
  clear h
  unfold State.jutusRun
  repeat' first
    | with_reducible exact Keeps.refl _
    | with_reducible assumption
    | with_reducible refine Keeps.of_fst ?_ (by assumption)
    | with_reducible refine Keeps.ite_fst ?_ ?_
    | simp only [Keeps.put]
    | with_reducible refine hx0 ?_
    | with_reducible refine Keeps.forEach (fun x st => ?_) ?_
    | with_reducible refine Keeps.foldl_fst (fun acc x => ?_) ?_
    | with_reducible refine Keeps.foldl (fun st x => ?_) ?_
    | split

theorem State.jutusUnlockRun_keeps {t s : State} {x0} (h : Keeps t s) : Keeps t (State.jutusUnlockRun x0 s) := by
  refine h.trans ?_
  clear h
  unfold State.jutusUnlockRun
  repeat' first
    | with_reducible exact Keeps.refl _
    | with_reducible assumption
    | with_reducible refine Keeps.of_fst ?_ (by assumption)
    | with_reducible refine Keeps.ite_fst ?_ ?_
    | simp only [Keeps.put]
    | with_reducible refine State.jutusRefuse_keeps ?_
    | with_reducible refine State.say_keeps ?_
    | with_reducible refine State.setJutus_keeps ?_
    | with_reducible refine State.bump_keeps ?_
    | with_reducible refine Keeps.forEach (fun x st => ?_) ?_
    | with_reducible refine Keeps.foldl_fst (fun acc x => ?_) ?_
    | with_reducible refine Keeps.foldl (fun st x => ?_) ?_
    | split

theorem State.jutusUnlockedOnly_keeps {t s : State} {x0 x1} (hx1 : ∀ {t s}, Keeps t s → Keeps t (x1 s)) (h : Keeps t s) : Keeps t (State.jutusUnlockedOnly x0 x1 s) := by
  refine h.trans ?_
  clear h
  unfold State.jutusUnlockedOnly
  repeat' first
    | with_reducible exact Keeps.refl _
    | with_reducible assumption
    | with_reducible refine Keeps.of_fst ?_ (by assumption)
    | with_reducible refine Keeps.ite_fst ?_ ?_
    | simp only [Keeps.put]
    | with_reducible refine State.jutusRefuse_keeps ?_
    | with_reducible refine hx1 ?_
    | with_reducible refine Keeps.forEach (fun x st => ?_) ?_
    | with_reducible refine Keeps.foldl_fst (fun acc x => ?_) ?_
    | with_reducible refine Keeps.foldl (fun st x => ?_) ?_
    | split

end Sys2Proof.Machine
end

