-- ==== Sys2Proof/Laws/KeepsJtag.lean ====
section
/-! SUPPORT. What the operations of Machine/Jtag.lean keep (Keeps.lean). -/

set_option linter.unusedSimpArgs false

namespace Sys2Proof.Machine

theorem State.dictCapture_keeps {t s : State} (h : Keeps t s) : Keeps t (State.dictCapture s) := by
  refine h.trans ?_
  clear h
  unfold State.dictCapture
  repeat' first
    | with_reducible exact Keeps.refl _
    | with_reducible assumption
    | with_reducible refine Keeps.of_fst ?_ (by assumption)
    | with_reducible refine Keeps.ite_fst ?_ ?_
    | simp only [Keeps.put]
    | with_reducible refine State.emit_keeps ?_
    | with_reducible refine State.spendFree_keeps ?_
    | with_reducible refine Keeps.forEach (fun x st => ?_) ?_
    | with_reducible refine Keeps.foldl_fst (fun acc x => ?_) ?_
    | with_reducible refine Keeps.foldl (fun st x => ?_) ?_
    | split

theorem State.mbistCapture_keeps {t s : State} (h : Keeps t s) : Keeps t (State.mbistCapture s) := by
  refine h.trans ?_
  clear h
  unfold State.mbistCapture
  repeat' first
    | with_reducible exact Keeps.refl _
    | with_reducible assumption
    | with_reducible refine Keeps.of_fst ?_ (by assumption)
    | with_reducible refine Keeps.ite_fst ?_ ?_
    | simp only [Keeps.put]
    | with_reducible refine State.emit_keeps ?_
    | with_reducible refine State.spendFree_keeps ?_
    | with_reducible refine Keeps.forEach (fun x st => ?_) ?_
    | with_reducible refine Keeps.foldl_fst (fun acc x => ?_) ?_
    | with_reducible refine Keeps.foldl (fun st x => ?_) ?_
    | split

theorem State.capture_keeps {t s : State} (h : Keeps t s) : Keeps t (State.capture s) := by
  refine h.trans ?_
  clear h
  unfold State.capture
  repeat' first
    | with_reducible exact Keeps.refl _
    | with_reducible assumption
    | with_reducible refine Keeps.of_fst ?_ (by assumption)
    | with_reducible refine Keeps.ite_fst ?_ ?_
    | simp only [Keeps.put]
    | with_reducible refine State.emit_keeps ?_
    | with_reducible refine State.dictCapture_keeps ?_
    | with_reducible refine State.mbistCapture_keeps ?_
    | with_reducible refine Keeps.forEach (fun x st => ?_) ?_
    | with_reducible refine Keeps.foldl_fst (fun acc x => ?_) ?_
    | with_reducible refine Keeps.foldl (fun st x => ?_) ?_
    | split

theorem State.setJtag_keeps {t s : State} {x0} (h : Keeps t s) : Keeps t (State.setJtag x0 s) := by
  refine h.trans ?_
  clear h
  unfold State.setJtag
  repeat' first
    | with_reducible exact Keeps.refl _
    | with_reducible assumption
    | with_reducible refine Keeps.of_fst ?_ (by assumption)
    | with_reducible refine Keeps.ite_fst ?_ ?_
    | simp only [Keeps.put]
    | with_reducible refine Keeps.forEach (fun x st => ?_) ?_
    | with_reducible refine Keeps.foldl_fst (fun acc x => ?_) ?_
    | with_reducible refine Keeps.foldl (fun st x => ?_) ?_
    | split

theorem State.dictUpdate_keeps {t s : State} {x0} (h : Keeps t s) : Keeps t (State.dictUpdate x0 s) := by
  refine h.trans ?_
  clear h
  unfold State.dictUpdate
  repeat' first
    | with_reducible exact Keeps.refl _
    | with_reducible assumption
    | with_reducible refine Keeps.of_fst ?_ (by assumption)
    | with_reducible refine Keeps.ite_fst ?_ ?_
    | simp only [Keeps.put]
    | with_reducible refine State.setJtag_keeps ?_
    | with_reducible refine State.wordRead_keeps ?_
    | with_reducible refine Keeps.forEach (fun x st => ?_) ?_
    | with_reducible refine Keeps.foldl_fst (fun acc x => ?_) ?_
    | with_reducible refine Keeps.foldl (fun st x => ?_) ?_
    | split

theorem State.tapRun_keeps {t s : State} {x0} (h : Keeps t s) : Keeps t (State.tapRun x0 s) := by
  refine h.trans ?_
  clear h
  unfold State.tapRun
  repeat' first
    | with_reducible exact Keeps.refl _
    | with_reducible assumption
    | with_reducible refine Keeps.of_fst ?_ (by assumption)
    | with_reducible refine Keeps.ite_fst ?_ ?_
    | simp only [Keeps.put]
    | with_reducible refine State.setJtag_keeps ?_
    | with_reducible refine Keeps.forEach (fun x st => ?_) ?_
    | with_reducible refine Keeps.foldl_fst (fun acc x => ?_) ?_
    | with_reducible refine Keeps.foldl (fun st x => ?_) ?_
    | split

theorem State.drScan_keeps {t s : State} {x0} (hx0 : ∀ {t s}, Keeps t s → Keeps t (x0 s)) (h : Keeps t s) : Keeps t (State.drScan x0 s) := by
  refine h.trans ?_
  clear h
  unfold State.drScan
  repeat' first
    | with_reducible exact Keeps.refl _
    | with_reducible assumption
    | with_reducible refine Keeps.of_fst ?_ (by assumption)
    | with_reducible refine Keeps.ite_fst ?_ ?_
    | simp only [Keeps.put]
    | with_reducible refine State.capture_keeps ?_
    | with_reducible refine State.tapRun_keeps ?_
    | with_reducible refine hx0 ?_
    | with_reducible refine Keeps.forEach (fun x st => ?_) ?_
    | with_reducible refine Keeps.foldl_fst (fun acc x => ?_) ?_
    | with_reducible refine Keeps.foldl (fun st x => ?_) ?_
    | split

theorem State.irScan_keeps {t s : State} {x0} (h : Keeps t s) : Keeps t (State.irScan x0 s) := by
  refine h.trans ?_
  clear h
  unfold State.irScan
  repeat' first
    | with_reducible exact Keeps.refl _
    | with_reducible assumption
    | with_reducible refine Keeps.of_fst ?_ (by assumption)
    | with_reducible refine Keeps.ite_fst ?_ ?_
    | simp only [Keeps.put]
    | with_reducible refine State.tapRun_keeps ?_
    | with_reducible refine State.emit_keeps ?_
    | with_reducible refine State.setJtag_keeps ?_
    | with_reducible refine Keeps.forEach (fun x st => ?_) ?_
    | with_reducible refine Keeps.foldl_fst (fun acc x => ?_) ?_
    | with_reducible refine Keeps.foldl (fun st x => ?_) ?_
    | split

theorem State.tapIdle_keeps {t s : State} (h : Keeps t s) : Keeps t (State.tapIdle s) := by
  refine h.trans ?_
  clear h
  unfold State.tapIdle
  repeat' first
    | with_reducible exact Keeps.refl _
    | with_reducible assumption
    | with_reducible refine Keeps.of_fst ?_ (by assumption)
    | with_reducible refine Keeps.ite_fst ?_ ?_
    | simp only [Keeps.put]
    | with_reducible refine State.tapRun_keeps ?_
    | with_reducible refine Keeps.forEach (fun x st => ?_) ?_
    | with_reducible refine Keeps.foldl_fst (fun acc x => ?_) ?_
    | with_reducible refine Keeps.foldl (fun st x => ?_) ?_
    | split

theorem State.jtagBypassed_keeps {t s : State} {x0} (h : Keeps t s) : Keeps t (State.jtagBypassed x0 s) := by
  refine h.trans ?_
  clear h
  unfold State.jtagBypassed
  repeat' first
    | with_reducible exact Keeps.refl _
    | with_reducible assumption
    | with_reducible refine Keeps.of_fst ?_ (by assumption)
    | with_reducible refine Keeps.ite_fst ?_ ?_
    | simp only [Keeps.put]
    | with_reducible refine State.tapIdle_keeps ?_
    | with_reducible refine State.drScan_keeps (fun hk => ?_) ?_
    | with_reducible refine State.irScan_keeps ?_
    | with_reducible refine Keeps.forEach (fun x st => ?_) ?_
    | with_reducible refine Keeps.foldl_fst (fun acc x => ?_) ?_
    | with_reducible refine Keeps.foldl (fun st x => ?_) ?_
    | split

theorem State.jtagDict_keeps {t s : State} {x0} (h : Keeps t s) : Keeps t (State.jtagDict x0 s) := by
  refine h.trans ?_
  clear h
  unfold State.jtagDict
  repeat' first
    | with_reducible exact Keeps.refl _
    | with_reducible assumption
    | with_reducible refine Keeps.of_fst ?_ (by assumption)
    | with_reducible refine Keeps.ite_fst ?_ ?_
    | simp only [Keeps.put]
    | with_reducible refine State.tapIdle_keeps ?_
    | with_reducible refine State.drScan_keeps (fun hk => ?_) ?_
    | with_reducible refine State.dictUpdate_keeps ?_
    | with_reducible refine State.irScan_keeps ?_
    | with_reducible refine Keeps.forEach (fun x st => ?_) ?_
    | with_reducible refine Keeps.foldl_fst (fun acc x => ?_) ?_
    | with_reducible refine Keeps.foldl (fun st x => ?_) ?_
    | split

theorem State.jtagId_keeps {t s : State} (h : Keeps t s) : Keeps t (State.jtagId s) := by
  refine h.trans ?_
  clear h
  unfold State.jtagId
  repeat' first
    | with_reducible exact Keeps.refl _
    | with_reducible assumption
    | with_reducible refine Keeps.of_fst ?_ (by assumption)
    | with_reducible refine Keeps.ite_fst ?_ ?_
    | simp only [Keeps.put]
    | with_reducible refine State.tapIdle_keeps ?_
    | with_reducible refine State.drScan_keeps (fun hk => ?_) ?_
    | with_reducible refine State.irScan_keeps ?_
    | with_reducible refine Keeps.forEach (fun x st => ?_) ?_
    | with_reducible refine Keeps.foldl_fst (fun acc x => ?_) ?_
    | with_reducible refine Keeps.foldl (fun st x => ?_) ?_
    | split

theorem State.mbistUpdate_keeps {t s : State} {x0} (h : Keeps t s) : Keeps t (State.mbistUpdate x0 s) := by
  refine h.trans ?_
  clear h
  unfold State.mbistUpdate
  repeat' first
    | with_reducible exact Keeps.refl _
    | with_reducible assumption
    | with_reducible refine Keeps.of_fst ?_ (by assumption)
    | with_reducible refine Keeps.ite_fst ?_ ?_
    | simp only [Keeps.put]
    | with_reducible refine State.setJtag_keeps ?_
    | with_reducible refine Keeps.forEach (fun x st => ?_) ?_
    | with_reducible refine Keeps.foldl_fst (fun acc x => ?_) ?_
    | with_reducible refine Keeps.foldl (fun st x => ?_) ?_
    | split

theorem State.jtagTest_keeps {t s : State} {x0} (h : Keeps t s) : Keeps t (State.jtagTest x0 s) := by
  refine h.trans ?_
  clear h
  unfold State.jtagTest
  repeat' first
    | with_reducible exact Keeps.refl _
    | with_reducible assumption
    | with_reducible refine Keeps.of_fst ?_ (by assumption)
    | with_reducible refine Keeps.ite_fst ?_ ?_
    | simp only [Keeps.put]
    | with_reducible refine State.tapIdle_keeps ?_
    | with_reducible refine State.drScan_keeps (fun hk => ?_) ?_
    | with_reducible refine State.mbistUpdate_keeps ?_
    | with_reducible refine State.irScan_keeps ?_
    | with_reducible refine Keeps.forEach (fun x st => ?_) ?_
    | with_reducible refine Keeps.foldl_fst (fun acc x => ?_) ?_
    | with_reducible refine Keeps.foldl (fun st x => ?_) ?_
    | split

theorem State.jtagTlr_keeps {t s : State} (h : Keeps t s) : Keeps t (State.jtagTlr s) := by
  refine h.trans ?_
  clear h
  unfold State.jtagTlr
  repeat' first
    | with_reducible exact Keeps.refl _
    | with_reducible assumption
    | with_reducible refine Keeps.of_fst ?_ (by assumption)
    | with_reducible refine Keeps.ite_fst ?_ ?_
    | simp only [Keeps.put]
    | with_reducible refine State.setJtag_keeps ?_
    | with_reducible refine Keeps.forEach (fun x st => ?_) ?_
    | with_reducible refine Keeps.foldl_fst (fun acc x => ?_) ?_
    | with_reducible refine Keeps.foldl (fun st x => ?_) ?_
    | split

theorem State.mbistEnd_keeps {t s : State} {x0 x1} (h : Keeps t s) : Keeps t (State.mbistEnd x0 x1 s) := by
  refine h.trans ?_
  clear h
  unfold State.mbistEnd
  repeat' first
    | with_reducible exact Keeps.refl _
    | with_reducible assumption
    | with_reducible refine Keeps.of_fst ?_ (by assumption)
    | with_reducible refine Keeps.ite_fst ?_ ?_
    | simp only [Keeps.put]
    | with_reducible refine State.setJtag_keeps ?_
    | with_reducible refine Keeps.forEach (fun x st => ?_) ?_
    | with_reducible refine Keeps.foldl_fst (fun acc x => ?_) ?_
    | with_reducible refine Keeps.foldl (fun st x => ?_) ?_
    | split

end Sys2Proof.Machine
end

