-- ==== Sys2Proof/Laws/KeepsScrub.lean ====
section
/-! SUPPORT. What the operations of Machine/Scrub.lean keep (Keeps.lean). -/

set_option linter.unusedSimpArgs false

namespace Sys2Proof.Machine

theorem State.recompAt_keeps {t s : State} {x0 x1} (h : Keeps t s) : Keeps t (State.recompAt x0 x1 s) := by
  refine h.trans ?_
  clear h
  unfold State.recompAt
  repeat' first
    | with_reducible exact Keeps.refl _
    | with_reducible assumption
    | with_reducible refine Keeps.of_fst ?_ (by assumption)
    | with_reducible refine Keeps.ite_fst ?_ ?_
    | simp only [Keeps.put]
    | with_reducible refine State.startRecomp_keeps ?_
    | with_reducible refine Keeps.forEach (fun x st => ?_) ?_
    | with_reducible refine Keeps.foldl_fst (fun acc x => ?_) ?_
    | with_reducible refine Keeps.foldl (fun st x => ?_) ?_
    | split

theorem State.maskAt_keeps {t s : State} {x0} (h : Keeps t s) : Keeps t (State.maskAt x0 s) := by
  refine h.trans ?_
  clear h
  unfold State.maskAt
  repeat' first
    | with_reducible exact Keeps.refl _
    | with_reducible assumption
    | with_reducible refine Keeps.of_fst ?_ (by assumption)
    | with_reducible refine Keeps.ite_fst ?_ ?_
    | simp only [Keeps.put]
    | with_reducible refine State.markMask_keeps ?_
    | with_reducible refine Keeps.forEach (fun x st => ?_) ?_
    | with_reducible refine Keeps.foldl_fst (fun acc x => ?_) ?_
    | with_reducible refine Keeps.foldl (fun st x => ?_) ?_
    | split

theorem State.actBad_keeps {t s : State} {x0 x1} (h : Keeps t s) : Keeps t (State.actBad x0 x1 s) := by
  refine h.trans ?_
  clear h
  unfold State.actBad
  repeat' first
    | with_reducible exact Keeps.refl _
    | with_reducible assumption
    | with_reducible refine Keeps.of_fst ?_ (by assumption)
    | with_reducible refine Keeps.ite_fst ?_ ?_
    | simp only [Keeps.put]
    | with_reducible refine State.addRepair_keeps ?_
    | with_reducible refine State.recompAt_keeps ?_
    | with_reducible refine State.maskAt_keeps ?_
    | with_reducible refine Keeps.forEach (fun x st => ?_) ?_
    | with_reducible refine Keeps.foldl_fst (fun acc x => ?_) ?_
    | with_reducible refine Keeps.foldl (fun st x => ?_) ?_
    | split

theorem State.addBad_keeps {t s : State} {x0} (h : Keeps t s) : Keeps t (State.addBad x0 s) := by
  refine h.trans ?_
  clear h
  unfold State.addBad
  repeat' first
    | with_reducible exact Keeps.refl _
    | with_reducible assumption
    | with_reducible refine Keeps.of_fst ?_ (by assumption)
    | with_reducible refine Keeps.ite_fst ?_ ?_
    | simp only [Keeps.put]
    | with_reducible refine Keeps.forEach (fun x st => ?_) ?_
    | with_reducible refine Keeps.foldl_fst (fun acc x => ?_) ?_
    | with_reducible refine Keeps.foldl (fun st x => ?_) ?_
    | split

theorem State.addBadLines_keeps {t s : State} {x0} (h : Keeps t s) : Keeps t (State.addBadLines x0 s) := by
  refine h.trans ?_
  clear h
  unfold State.addBadLines
  repeat' first
    | with_reducible exact Keeps.refl _
    | with_reducible assumption
    | with_reducible refine Keeps.of_fst ?_ (by assumption)
    | with_reducible refine Keeps.ite_fst ?_ ?_
    | simp only [Keeps.put]
    | with_reducible refine Keeps.forEach (fun x st => ?_) ?_
    | with_reducible refine Keeps.foldl_fst (fun acc x => ?_) ?_
    | with_reducible refine Keeps.foldl (fun st x => ?_) ?_
    | split

theorem State.bankAgain_keeps {t s : State} {x0} (h : Keeps t s) : Keeps t (State.bankAgain x0 s) := by
  refine h.trans ?_
  clear h
  unfold State.bankAgain
  repeat' first
    | with_reducible exact Keeps.refl _
    | with_reducible assumption
    | with_reducible refine Keeps.of_fst ?_ (by assumption)
    | with_reducible refine Keeps.ite_fst ?_ ?_
    | simp only [Keeps.put]
    | with_reducible refine Keeps.forEach (fun x st => ?_) ?_
    | with_reducible refine Keeps.foldl_fst (fun acc x => ?_) ?_
    | with_reducible refine Keeps.foldl (fun st x => ?_) ?_
    | split

theorem State.bobbinRead_keeps {t s : State} {x0 x1 x2 x3} (h : Keeps t s) : Keeps t (State.bobbinRead x0 x1 x2 x3 s) := by
  refine h.trans ?_
  clear h
  unfold State.bobbinRead
  repeat' first
    | with_reducible exact Keeps.refl _
    | with_reducible assumption
    | with_reducible refine Keeps.of_fst ?_ (by assumption)
    | with_reducible refine Keeps.ite_fst ?_ ?_
    | simp only [Keeps.put]
    | with_reducible refine State.askGroup_keeps ?_
    | with_reducible refine State.takeMem_keeps ?_
    | with_reducible refine State.addRepair_keeps ?_
    | with_reducible refine State.askReserve_keeps ?_
    | with_reducible refine Keeps.forEach (fun x st => ?_) ?_
    | with_reducible refine Keeps.foldl_fst (fun acc x => ?_) ?_
    | with_reducible refine Keeps.foldl (fun st x => ?_) ?_
    | split

theorem State.closePantry_keeps {t s : State} {x0} (h : Keeps t s) : Keeps t (State.closePantry x0 s) := by
  refine h.trans ?_
  clear h
  unfold State.closePantry
  repeat' first
    | with_reducible exact Keeps.refl _
    | with_reducible assumption
    | with_reducible refine Keeps.of_fst ?_ (by assumption)
    | with_reducible refine Keeps.ite_fst ?_ ?_
    | simp only [Keeps.put]
    | with_reducible refine State.tellLater_keeps ?_
    | with_reducible refine Keeps.forEach (fun x st => ?_) ?_
    | with_reducible refine Keeps.foldl_fst (fun acc x => ?_) ?_
    | with_reducible refine Keeps.foldl (fun st x => ?_) ?_
    | split

theorem State.updWatch_keeps {t s : State} {x0 x1 x2} (h : Keeps t s) : Keeps t (State.updWatch x0 x1 x2 s) := by
  refine h.trans ?_
  clear h
  unfold State.updWatch
  repeat' first
    | with_reducible exact Keeps.refl _
    | with_reducible assumption
    | with_reducible refine Keeps.of_fst ?_ (by assumption)
    | with_reducible refine Keeps.ite_fst ?_ ?_
    | simp only [Keeps.put]
    | with_reducible refine Keeps.forEach (fun x st => ?_) ?_
    | with_reducible refine Keeps.foldl_fst (fun acc x => ?_) ?_
    | with_reducible refine Keeps.foldl (fun st x => ?_) ?_
    | split

theorem State.watchNew_keeps {t s : State} {x0 x1 x2 x3 x4} (h : Keeps t s) : Keeps t (State.watchNew x0 x1 x2 x3 x4 s) := by
  refine h.trans ?_
  clear h
  unfold State.watchNew
  repeat' first
    | with_reducible exact Keeps.refl _
    | with_reducible assumption
    | with_reducible refine Keeps.of_fst ?_ (by assumption)
    | with_reducible refine Keeps.ite_fst ?_ ?_
    | simp only [Keeps.put]
    | with_reducible refine State.note_keeps ?_
    | with_reducible refine State.watchRow_keeps ?_
    | with_reducible refine Keeps.forEach (fun x st => ?_) ?_
    | with_reducible refine Keeps.foldl_fst (fun acc x => ?_) ?_
    | with_reducible refine Keeps.foldl (fun st x => ?_) ?_
    | split

theorem State.corrected_keeps {t s : State} {x0 x1} (h : Keeps t s) : Keeps t (State.corrected x0 x1 s) := by
  refine h.trans ?_
  clear h
  unfold State.corrected
  repeat' first
    | with_reducible exact Keeps.refl _
    | with_reducible assumption
    | with_reducible refine Keeps.of_fst ?_ (by assumption)
    | with_reducible refine Keeps.ite_fst ?_ ?_
    | simp only [Keeps.put]
    | with_reducible refine State.updWatch_keeps ?_
    | with_reducible refine State.watchNew_keeps ?_
    | with_reducible refine Keeps.forEach (fun x st => ?_) ?_
    | with_reducible refine Keeps.foldl_fst (fun acc x => ?_) ?_
    | with_reducible refine Keeps.foldl (fun st x => ?_) ?_
    | split

theorem State.errorReport_keeps {t s : State} {x0 x1 x2} (h : Keeps t s) : Keeps t (State.errorReport x0 x1 x2 s) := by
  refine h.trans ?_
  clear h
  unfold State.errorReport
  repeat' first
    | with_reducible exact Keeps.refl _
    | with_reducible assumption
    | with_reducible refine Keeps.of_fst ?_ (by assumption)
    | with_reducible refine Keeps.ite_fst ?_ ?_
    | simp only [Keeps.put]
    | with_reducible refine State.bump_keeps ?_
    | with_reducible refine State.countCorrected_keeps ?_
    | with_reducible refine State.countBad_keeps ?_
    | with_reducible refine State.actBad_keeps ?_
    | with_reducible refine State.addBad_keeps ?_
    | with_reducible refine Keeps.forEach (fun x st => ?_) ?_
    | with_reducible refine Keeps.foldl_fst (fun acc x => ?_) ?_
    | with_reducible refine Keeps.foldl (fun st x => ?_) ?_
    | split

theorem State.patrolMove_keeps {t s : State} {x0 x1} (h : Keeps t s) : Keeps t (State.patrolMove x0 x1 s) := by
  refine h.trans ?_
  clear h
  unfold State.patrolMove
  repeat' first
    | with_reducible exact Keeps.refl _
    | with_reducible assumption
    | with_reducible refine Keeps.of_fst ?_ (by assumption)
    | with_reducible refine Keeps.ite_fst ?_ ?_
    | simp only [Keeps.put]
    | with_reducible refine Keeps.forEach (fun x st => ?_) ?_
    | with_reducible refine Keeps.foldl_fst (fun acc x => ?_) ?_
    | with_reducible refine Keeps.foldl (fun st x => ?_) ?_
    | split

theorem State.patrolHearth_keeps {t s : State} {x0 x1} (h : Keeps t s) : Keeps t (State.patrolHearth x0 x1 s) := by
  refine h.trans ?_
  clear h
  unfold State.patrolHearth
  repeat' first
    | with_reducible exact Keeps.refl _
    | with_reducible assumption
    | with_reducible refine Keeps.of_fst ?_ (by assumption)
    | with_reducible refine Keeps.ite_fst ?_ ?_
    | simp only [Keeps.put]
    | with_reducible refine State.patrolMove_keeps ?_
    | with_reducible refine State.takeMem_keeps ?_
    | with_reducible refine State.bump_keeps ?_
    | with_reducible refine State.actBad_keeps ?_
    | with_reducible refine Keeps.forEach (fun x st => ?_) ?_
    | with_reducible refine Keeps.foldl_fst (fun acc x => ?_) ?_
    | with_reducible refine Keeps.foldl (fun st x => ?_) ?_
    | split

theorem State.patrolPantry_keeps {t s : State} {x0} (h : Keeps t s) : Keeps t (State.patrolPantry x0 s) := by
  refine h.trans ?_
  clear h
  unfold State.patrolPantry
  repeat' first
    | with_reducible exact Keeps.refl _
    | with_reducible assumption
    | with_reducible refine Keeps.of_fst ?_ (by assumption)
    | with_reducible refine Keeps.ite_fst ?_ ?_
    | simp only [Keeps.put]
    | with_reducible refine State.patrolMove_keeps ?_
    | with_reducible refine State.takeLines_keeps ?_
    | with_reducible refine State.bump_keeps ?_
    | with_reducible refine State.actBad_keeps ?_
    | with_reducible refine Keeps.forEach (fun x st => ?_) ?_
    | with_reducible refine Keeps.foldl_fst (fun acc x => ?_) ?_
    | with_reducible refine Keeps.foldl (fun st x => ?_) ?_
    | split

theorem State.hearthPatrol_keeps {t s : State} {x0 x1} (h : Keeps t s) : Keeps t (State.hearthPatrol x0 x1 s) := by
  refine h.trans ?_
  clear h
  unfold State.hearthPatrol
  repeat' first
    | with_reducible exact Keeps.refl _
    | with_reducible assumption
    | with_reducible refine Keeps.of_fst ?_ (by assumption)
    | with_reducible refine Keeps.ite_fst ?_ ?_
    | simp only [Keeps.put]
    | with_reducible refine State.patrolHearth_keeps ?_
    | with_reducible refine State.patrolPantry_keeps ?_
    | with_reducible refine Keeps.forEach (fun x st => ?_) ?_
    | with_reducible refine Keeps.foldl_fst (fun acc x => ?_) ?_
    | with_reducible refine Keeps.foldl (fun st x => ?_) ?_
    | split

theorem State.updRepair_keeps {t s : State} {x0 x1} (h : Keeps t s) : Keeps t (State.updRepair x0 x1 s) := by
  refine h.trans ?_
  clear h
  unfold State.updRepair
  repeat' first
    | with_reducible exact Keeps.refl _
    | with_reducible assumption
    | with_reducible refine Keeps.of_fst ?_ (by assumption)
    | with_reducible refine Keeps.ite_fst ?_ ?_
    | simp only [Keeps.put]
    | with_reducible refine Keeps.forEach (fun x st => ?_) ?_
    | with_reducible refine Keeps.foldl_fst (fun acc x => ?_) ?_
    | with_reducible refine Keeps.foldl (fun st x => ?_) ?_
    | split

theorem State.holdRepair_keeps {t s : State} {x0 x1} (h : Keeps t s) : Keeps t (State.holdRepair x0 x1 s) := by
  refine h.trans ?_
  clear h
  unfold State.holdRepair
  repeat' first
    | with_reducible exact Keeps.refl _
    | with_reducible assumption
    | with_reducible refine Keeps.of_fst ?_ (by assumption)
    | with_reducible refine Keeps.ite_fst ?_ ?_
    | simp only [Keeps.put]
    | with_reducible refine State.countNote_keeps ?_
    | with_reducible refine State.updRepair_keeps ?_
    | with_reducible refine Keeps.forEach (fun x st => ?_) ?_
    | with_reducible refine Keeps.foldl_fst (fun acc x => ?_) ?_
    | with_reducible refine Keeps.foldl (fun st x => ?_) ?_
    | split

theorem State.homeTurn_keeps {t s : State} {x0 x1 x2 x3 x4 x5} (h : Keeps t s) : Keeps t (State.homeTurn x0 x1 x2 x3 x4 x5 s) := by
  refine h.trans ?_
  clear h
  unfold State.homeTurn
  repeat' first
    | with_reducible exact Keeps.refl _
    | with_reducible assumption
    | with_reducible refine Keeps.of_fst ?_ (by assumption)
    | with_reducible refine Keeps.ite_fst ?_ ?_
    | simp only [Keeps.put]
    | with_reducible refine State.homeAnswer_keeps ?_
    | with_reducible refine State.releaseSets_keeps ?_
    | with_reducible refine State.actBad_keeps ?_
    | with_reducible refine Keeps.forEach (fun x st => ?_) ?_
    | with_reducible refine Keeps.foldl_fst (fun acc x => ?_) ?_
    | with_reducible refine Keeps.foldl (fun st x => ?_) ?_
    | split

theorem State.loseEvents_keeps {t s : State} {x0} (h : Keeps t s) : Keeps t (State.loseEvents x0 s) := by
  refine h.trans ?_
  clear h
  unfold State.loseEvents
  repeat' first
    | with_reducible exact Keeps.refl _
    | with_reducible assumption
    | with_reducible refine Keeps.of_fst ?_ (by assumption)
    | with_reducible refine Keeps.ite_fst ?_ ?_
    | simp only [Keeps.put]
    | with_reducible refine State.bump_keeps ?_
    | with_reducible refine Keeps.forEach (fun x st => ?_) ?_
    | with_reducible refine Keeps.foldl_fst (fun acc x => ?_) ?_
    | with_reducible refine Keeps.foldl (fun st x => ?_) ?_
    | split

theorem State.loseKey_keeps {t s : State} {x0} (h : Keeps t s) : Keeps t (State.loseKey x0 s) := by
  refine h.trans ?_
  clear h
  unfold State.loseKey
  repeat' first
    | with_reducible exact Keeps.refl _
    | with_reducible assumption
    | with_reducible refine Keeps.of_fst ?_ (by assumption)
    | with_reducible refine Keeps.ite_fst ?_ ?_
    | simp only [Keeps.put]
    | with_reducible refine State.changed_keeps ?_
    | with_reducible refine State.setFx_keeps ?_
    | with_reducible refine State.setJutus_keeps ?_
    | with_reducible refine Keeps.forEach (fun x st => ?_) ?_
    | with_reducible refine Keeps.foldl_fst (fun acc x => ?_) ?_
    | with_reducible refine Keeps.foldl (fun st x => ?_) ?_
    | split

theorem State.loseRow_keeps {t s : State} {x0 x1 x2} (h : Keeps t s) : Keeps t (State.loseRow x0 x1 x2 s) := by
  refine h.trans ?_
  clear h
  unfold State.loseRow
  repeat' first
    | with_reducible exact Keeps.refl _
    | with_reducible assumption
    | with_reducible refine Keeps.of_fst ?_ (by assumption)
    | with_reducible refine Keeps.ite_fst ?_ ?_
    | simp only [Keeps.put]
    | with_reducible refine State.watchdog_keeps ?_
    | with_reducible refine State.loseEvents_keeps ?_
    | with_reducible refine State.loseKey_keeps ?_
    | with_reducible refine State.bobbinRead_keeps ?_
    | with_reducible refine State.startRecomp_keeps ?_
    | with_reducible refine State.setLostBytes_keeps ?_
    | with_reducible refine State.invalidate_keeps ?_
    | with_reducible refine State.setDies_keeps ?_
    | with_reducible refine State.note_keeps ?_
    | with_reducible refine Keeps.forEach (fun x st => ?_) ?_
    | with_reducible refine Keeps.foldl_fst (fun acc x => ?_) ?_
    | with_reducible refine Keeps.foldl (fun st x => ?_) ?_
    | split

theorem State.uncorrected_keeps {t s : State} {x0 x1} (h : Keeps t s) : Keeps t (State.uncorrected x0 x1 s) := by
  refine h.trans ?_
  clear h
  unfold State.uncorrected
  repeat' first
    | with_reducible exact Keeps.refl _
    | with_reducible assumption
    | with_reducible refine Keeps.of_fst ?_ (by assumption)
    | with_reducible refine Keeps.ite_fst ?_ ?_
    | simp only [Keeps.put]
    | with_reducible refine State.updWatch_keeps ?_
    | with_reducible refine State.watchNew_keeps ?_
    | with_reducible refine Keeps.forEach (fun x st => ?_) ?_
    | with_reducible refine Keeps.foldl_fst (fun acc x => ?_) ?_
    | with_reducible refine Keeps.foldl (fun st x => ?_) ?_
    | split

theorem State.rowFound_keeps {t s : State} {x0 x1 x2 x3} (h : Keeps t s) : Keeps t (State.rowFound x0 x1 x2 x3 s) := by
  refine h.trans ?_
  clear h
  unfold State.rowFound
  repeat' first
    | with_reducible exact Keeps.refl _
    | with_reducible assumption
    | with_reducible refine Keeps.of_fst ?_ (by assumption)
    | with_reducible refine Keeps.ite_fst ?_ ?_
    | simp only [Keeps.put]
    | with_reducible refine State.countCorrected_keeps ?_
    | with_reducible refine State.bump_keeps ?_
    | with_reducible refine State.corrected_keeps ?_
    | with_reducible refine State.loseRow_keeps ?_
    | with_reducible refine State.uncorrected_keeps ?_
    | with_reducible refine State.countBad_keeps ?_
    | with_reducible refine Keeps.forEach (fun x st => ?_) ?_
    | with_reducible refine Keeps.foldl_fst (fun acc x => ?_) ?_
    | with_reducible refine Keeps.foldl (fun st x => ?_) ?_
    | split

theorem State.internalPatrol_keeps {t s : State} {x0} (h : Keeps t s) : Keeps t (State.internalPatrol x0 s) := by
  refine h.trans ?_
  clear h
  unfold State.internalPatrol
  repeat' first
    | with_reducible exact Keeps.refl _
    | with_reducible assumption
    | with_reducible refine Keeps.of_fst ?_ (by assumption)
    | with_reducible refine Keeps.ite_fst ?_ ?_
    | simp only [Keeps.put]
    | with_reducible refine State.rowFound_keeps ?_
    | with_reducible refine State.bump_keeps ?_
    | with_reducible refine Keeps.forEach (fun x st => ?_) ?_
    | with_reducible refine Keeps.foldl_fst (fun acc x => ?_) ?_
    | with_reducible refine Keeps.foldl (fun st x => ?_) ?_
    | split

theorem State.setMemOpen_keeps {t s : State} {x0} (h : Keeps t s) : Keeps t (State.setMemOpen x0 s) := by
  refine h.trans ?_
  clear h
  unfold State.setMemOpen
  repeat' first
    | with_reducible exact Keeps.refl _
    | with_reducible assumption
    | with_reducible refine Keeps.of_fst ?_ (by assumption)
    | with_reducible refine Keeps.ite_fst ?_ ?_
    | simp only [Keeps.put]
    | with_reducible refine State.tellLater_keeps ?_
    | with_reducible refine Keeps.forEach (fun x st => ?_) ?_
    | with_reducible refine Keeps.foldl_fst (fun acc x => ?_) ?_
    | with_reducible refine Keeps.foldl (fun st x => ?_) ?_
    | split

theorem State.repairReadBack_keeps {t s : State} {x0 x1} (h : Keeps t s) : Keeps t (State.repairReadBack x0 x1 s) := by
  refine h.trans ?_
  clear h
  unfold State.repairReadBack
  repeat' first
    | with_reducible exact Keeps.refl _
    | with_reducible assumption
    | with_reducible refine Keeps.of_fst ?_ (by assumption)
    | with_reducible refine Keeps.ite_fst ?_ ?_
    | simp only [Keeps.put]
    | with_reducible refine State.updRepair_keeps ?_
    | with_reducible refine State.placeRequest_keeps ?_
    | with_reducible refine Keeps.forEach (fun x st => ?_) ?_
    | with_reducible refine Keeps.foldl_fst (fun acc x => ?_) ?_
    | with_reducible refine Keeps.foldl (fun st x => ?_) ?_
    | split

theorem State.repairDone_keeps {t s : State} {x0 x1} (h : Keeps t s) : Keeps t (State.repairDone x0 x1 s) := by
  refine h.trans ?_
  clear h
  unfold State.repairDone
  repeat' first
    | with_reducible exact Keeps.refl _
    | with_reducible assumption
    | with_reducible refine Keeps.of_fst ?_ (by assumption)
    | with_reducible refine Keeps.ite_fst ?_ ?_
    | simp only [Keeps.put]
    | with_reducible refine State.clearKey_keeps ?_
    | with_reducible refine State.bump_keeps ?_
    | with_reducible refine Keeps.forEach (fun x st => ?_) ?_
    | with_reducible refine Keeps.foldl_fst (fun acc x => ?_) ?_
    | with_reducible refine Keeps.foldl (fun st x => ?_) ?_
    | split

theorem State.repairWrite_keeps {t s : State} {x0 x1 x2} (h : Keeps t s) : Keeps t (State.repairWrite x0 x1 x2 s) := by
  refine h.trans ?_
  clear h
  unfold State.repairWrite
  repeat' first
    | with_reducible exact Keeps.refl _
    | with_reducible assumption
    | with_reducible refine Keeps.of_fst ?_ (by assumption)
    | with_reducible refine Keeps.ite_fst ?_ ?_
    | simp only [Keeps.put]
    | with_reducible refine State.updRepair_keeps ?_
    | with_reducible refine State.pantryPut_keeps ?_
    | with_reducible refine State.hearthPut_keeps ?_
    | with_reducible refine State.placeRequest_keeps ?_
    | with_reducible refine Keeps.forEach (fun x st => ?_) ?_
    | with_reducible refine Keeps.foldl_fst (fun acc x => ?_) ?_
    | with_reducible refine Keeps.foldl (fun st x => ?_) ?_
    | split

theorem State.repairStage_keeps {t s : State} {x0} (h : Keeps t s) : Keeps t (State.repairStage x0 s) := by
  refine h.trans ?_
  clear h
  unfold State.repairStage
  repeat' first
    | with_reducible exact Keeps.refl _
    | with_reducible assumption
    | with_reducible refine Keeps.of_fst ?_ (by assumption)
    | with_reducible refine Keeps.ite_fst ?_ ?_
    | simp only [Keeps.put]
    | with_reducible refine State.repairReadBack_keeps ?_
    | with_reducible refine State.repairDone_keeps ?_
    | with_reducible refine State.repairWrite_keeps ?_
    | with_reducible refine State.holdRepair_keeps ?_
    | with_reducible refine Keeps.forEach (fun x st => ?_) ?_
    | with_reducible refine Keeps.foldl_fst (fun acc x => ?_) ?_
    | with_reducible refine Keeps.foldl (fun st x => ?_) ?_
    | split

theorem State.repairAnswer_keeps {t s : State} {x0 x1 x2} (h : Keeps t s) : Keeps t (State.repairAnswer x0 x1 x2 s) := by
  refine h.trans ?_
  clear h
  unfold State.repairAnswer
  repeat' first
    | with_reducible exact Keeps.refl _
    | with_reducible assumption
    | with_reducible refine Keeps.of_fst ?_ (by assumption)
    | with_reducible refine Keeps.ite_fst ?_ ?_
    | simp only [Keeps.put]
    | with_reducible refine State.updRepair_keeps ?_
    | with_reducible refine State.repairStage_keeps ?_
    | with_reducible refine Keeps.forEach (fun x st => ?_) ?_
    | with_reducible refine Keeps.foldl_fst (fun acc x => ?_) ?_
    | with_reducible refine Keeps.foldl (fun st x => ?_) ?_
    | split

theorem State.memItem_keeps {t s : State} {x0 x1 x2 x3} (h : Keeps t s) : Keeps t (State.memItem x0 x1 x2 x3 s) := by
  refine h.trans ?_
  clear h
  unfold State.memItem
  repeat' first
    | with_reducible exact Keeps.refl _
    | with_reducible assumption
    | with_reducible refine Keeps.of_fst ?_ (by assumption)
    | with_reducible refine Keeps.ite_fst ?_ ?_
    | simp only [Keeps.put]
    | with_reducible refine State.countCorrected_keeps ?_
    | with_reducible refine State.bump_keeps ?_
    | with_reducible refine State.addBad_keeps ?_
    | with_reducible refine State.countBad_keeps ?_
    | with_reducible refine State.setMemOpen_keeps ?_
    | with_reducible refine State.moveBadRead_keeps ?_
    | with_reducible refine State.moveRead_keeps ?_
    | with_reducible refine State.repairAnswer_keeps ?_
    | with_reducible refine State.homeTurn_keeps ?_
    | with_reducible refine Keeps.forEach (fun x st => ?_) ?_
    | with_reducible refine Keeps.foldl_fst (fun acc x => ?_) ?_
    | with_reducible refine Keeps.foldl (fun st x => ?_) ?_
    | split

theorem State.memWritten_keeps {t s : State} {x0 x1} (h : Keeps t s) : Keeps t (State.memWritten x0 x1 s) := by
  refine h.trans ?_
  clear h
  unfold State.memWritten
  repeat' first
    | with_reducible exact Keeps.refl _
    | with_reducible assumption
    | with_reducible refine Keeps.of_fst ?_ (by assumption)
    | with_reducible refine Keeps.ite_fst ?_ ?_
    | simp only [Keeps.put]
    | with_reducible refine State.memRequest_keeps ?_
    | with_reducible refine State.tellLater_keeps ?_
    | with_reducible refine State.note_keeps ?_
    | with_reducible refine State.addBad_keeps ?_
    | with_reducible refine State.moveWritten_keeps ?_
    | with_reducible refine State.repairAnswer_keeps ?_
    | with_reducible refine State.homeTurn_keeps ?_
    | with_reducible refine Keeps.forEach (fun x st => ?_) ?_
    | with_reducible refine Keeps.foldl_fst (fun acc x => ?_) ?_
    | with_reducible refine Keeps.foldl (fun st x => ?_) ?_
    | split

theorem State.memResponse_keeps {t s : State} {x0 x1 x2 x3 x4 x5} (h : Keeps t s) : Keeps t (State.memResponse x0 x1 x2 x3 x4 x5 s) := by
  refine h.trans ?_
  clear h
  unfold State.memResponse
  repeat' first
    | with_reducible exact Keeps.refl _
    | with_reducible assumption
    | with_reducible refine Keeps.of_fst ?_ (by assumption)
    | with_reducible refine Keeps.ite_fst ?_ ?_
    | simp only [Keeps.put]
    | with_reducible refine State.bump_keeps ?_
    | with_reducible refine State.memWritten_keeps ?_
    | with_reducible refine State.memItem_keeps ?_
    | with_reducible refine Keeps.forEach (fun x st => ?_) ?_
    | with_reducible refine Keeps.foldl_fst (fun acc x => ?_) ?_
    | with_reducible refine Keeps.foldl (fun st x => ?_) ?_
    | split

theorem State.mendMask_keeps {t s : State} {x0 x1} (h : Keeps t s) : Keeps t (State.mendMask x0 x1 s) := by
  refine h.trans ?_
  clear h
  unfold State.mendMask
  repeat' first
    | with_reducible exact Keeps.refl _
    | with_reducible assumption
    | with_reducible refine Keeps.of_fst ?_ (by assumption)
    | with_reducible refine Keeps.ite_fst ?_ ?_
    | simp only [Keeps.put]
    | with_reducible refine State.takeMem_keeps ?_
    | with_reducible refine State.markMask_keeps ?_
    | with_reducible refine State.clearBad_keeps ?_
    | with_reducible refine State.spanWrite_keeps ?_
    | with_reducible refine State.updHank_keeps ?_
    | with_reducible refine Keeps.forEach (fun x st => ?_) ?_
    | with_reducible refine Keeps.foldl_fst (fun acc x => ?_) ?_
    | with_reducible refine Keeps.foldl (fun st x => ?_) ?_
    | split

theorem State.mergeIdle_keeps {t s : State} {x0} (h : Keeps t s) : Keeps t (State.mergeIdle x0 s) := by
  refine h.trans ?_
  clear h
  unfold State.mergeIdle
  repeat' first
    | with_reducible exact Keeps.refl _
    | with_reducible assumption
    | with_reducible refine Keeps.of_fst ?_ (by assumption)
    | with_reducible refine Keeps.ite_fst ?_ ?_
    | simp only [Keeps.put]
    | with_reducible refine Keeps.forEach (fun x st => ?_) ?_
    | with_reducible refine Keeps.foldl_fst (fun acc x => ?_) ?_
    | with_reducible refine Keeps.foldl (fun st x => ?_) ?_
    | split

theorem State.moveRow_keeps {t s : State} {x0} (h : Keeps t s) : Keeps t (State.moveRow x0 s) := by
  refine h.trans ?_
  clear h
  unfold State.moveRow
  repeat' first
    | with_reducible exact Keeps.refl _
    | with_reducible assumption
    | with_reducible refine Keeps.of_fst ?_ (by assumption)
    | with_reducible refine Keeps.ite_fst ?_ ?_
    | simp only [Keeps.put]
    | with_reducible refine State.bump_keeps ?_
    | with_reducible refine State.spendFree_keeps ?_
    | with_reducible refine Keeps.forEach (fun x st => ?_) ?_
    | with_reducible refine Keeps.foldl_fst (fun acc x => ?_) ?_
    | with_reducible refine Keeps.foldl (fun st x => ?_) ?_
    | split

theorem State.pantryLine_keeps {t s : State} {x0 x1 x2} (h : Keeps t s) : Keeps t (State.pantryLine x0 x1 x2 s) := by
  refine h.trans ?_
  clear h
  unfold State.pantryLine
  repeat' first
    | with_reducible exact Keeps.refl _
    | with_reducible assumption
    | with_reducible refine Keeps.of_fst ?_ (by assumption)
    | with_reducible refine Keeps.ite_fst ?_ ?_
    | simp only [Keeps.put]
    | with_reducible refine State.closePantry_keeps ?_
    | with_reducible refine State.addBadLines_keeps ?_
    | with_reducible refine State.countBad_keeps ?_
    | with_reducible refine State.bump_keeps ?_
    | with_reducible refine State.moveBadRead_keeps ?_
    | with_reducible refine State.moveRead_keeps ?_
    | with_reducible refine State.repairAnswer_keeps ?_
    | with_reducible refine State.homeTurn_keeps ?_
    | with_reducible refine Keeps.forEach (fun x st => ?_) ?_
    | with_reducible refine Keeps.foldl_fst (fun acc x => ?_) ?_
    | with_reducible refine Keeps.foldl (fun st x => ?_) ?_
    | split

theorem State.pantryOverdue_keeps {t s : State} {x0 x1} (h : Keeps t s) : Keeps t (State.pantryOverdue x0 x1 s) := by
  refine h.trans ?_
  clear h
  unfold State.pantryOverdue
  repeat' first
    | with_reducible exact Keeps.refl _
    | with_reducible assumption
    | with_reducible refine Keeps.of_fst ?_ (by assumption)
    | with_reducible refine Keeps.ite_fst ?_ ?_
    | simp only [Keeps.put]
    | with_reducible refine State.bump_keeps ?_
    | with_reducible refine Keeps.forEach (fun x st => ?_) ?_
    | with_reducible refine Keeps.foldl_fst (fun acc x => ?_) ?_
    | with_reducible refine Keeps.foldl (fun st x => ?_) ?_
    | split

theorem State.pantryWritten_keeps {t s : State} {x0 x1} (h : Keeps t s) : Keeps t (State.pantryWritten x0 x1 s) := by
  refine h.trans ?_
  clear h
  unfold State.pantryWritten
  repeat' first
    | with_reducible exact Keeps.refl _
    | with_reducible assumption
    | with_reducible refine Keeps.of_fst ?_ (by assumption)
    | with_reducible refine Keeps.ite_fst ?_ ?_
    | simp only [Keeps.put]
    | with_reducible refine State.pantryRequest_keeps ?_
    | with_reducible refine State.closePantry_keeps ?_
    | with_reducible refine State.note_keeps ?_
    | with_reducible refine State.addBadLines_keeps ?_
    | with_reducible refine State.moveWritten_keeps ?_
    | with_reducible refine State.repairAnswer_keeps ?_
    | with_reducible refine State.homeTurn_keeps ?_
    | with_reducible refine Keeps.forEach (fun x st => ?_) ?_
    | with_reducible refine Keeps.foldl_fst (fun acc x => ?_) ?_
    | with_reducible refine Keeps.foldl (fun st x => ?_) ?_
    | split

theorem State.pantryResponse_keeps {t s : State} {x0 x1 x2 x3} (h : Keeps t s) : Keeps t (State.pantryResponse x0 x1 x2 x3 s) := by
  refine h.trans ?_
  clear h
  unfold State.pantryResponse
  repeat' first
    | with_reducible exact Keeps.refl _
    | with_reducible assumption
    | with_reducible refine Keeps.of_fst ?_ (by assumption)
    | with_reducible refine Keeps.ite_fst ?_ ?_
    | simp only [Keeps.put]
    | with_reducible refine State.bump_keeps ?_
    | with_reducible refine State.pantryWritten_keeps ?_
    | with_reducible refine State.pantryLine_keeps ?_
    | with_reducible refine Keeps.forEach (fun x st => ?_) ?_
    | with_reducible refine Keeps.foldl_fst (fun acc x => ?_) ?_
    | with_reducible refine Keeps.foldl (fun st x => ?_) ?_
    | split

theorem State.tryRepairWrite_keeps {t s : State} {x0} (h : Keeps t s) : Keeps t (State.tryRepairWrite x0 s) := by
  refine h.trans ?_
  clear h
  unfold State.tryRepairWrite
  repeat' first
    | with_reducible exact Keeps.refl _
    | with_reducible assumption
    | with_reducible refine Keeps.of_fst ?_ (by assumption)
    | with_reducible refine Keeps.ite_fst ?_ ?_
    | simp only [Keeps.put]
    | with_reducible refine State.invalidate_keeps ?_
    | with_reducible refine State.repairWrite_keeps ?_
    | with_reducible refine Keeps.forEach (fun x st => ?_) ?_
    | with_reducible refine Keeps.foldl_fst (fun acc x => ?_) ?_
    | with_reducible refine Keeps.foldl (fun st x => ?_) ?_
    | split

theorem State.repairBytes_keeps {t s : State} {x0 x1} (h : Keeps t s) : Keeps t (State.repairBytes x0 x1 s) := by
  refine h.trans ?_
  clear h
  unfold State.repairBytes
  repeat' first
    | with_reducible exact Keeps.refl _
    | with_reducible assumption
    | with_reducible refine Keeps.of_fst ?_ (by assumption)
    | with_reducible refine Keeps.ite_fst ?_ ?_
    | simp only [Keeps.put]
    | with_reducible refine State.tryRepairWrite_keeps ?_
    | with_reducible refine State.updRepair_keeps ?_
    | with_reducible refine Keeps.forEach (fun x st => ?_) ?_
    | with_reducible refine Keeps.foldl_fst (fun acc x => ?_) ?_
    | with_reducible refine Keeps.foldl (fun st x => ?_) ?_
    | split

theorem State.repairFailed_keeps {t s : State} {x0} (h : Keeps t s) : Keeps t (State.repairFailed x0 s) := by
  refine h.trans ?_
  clear h
  unfold State.repairFailed
  repeat' first
    | with_reducible exact Keeps.refl _
    | with_reducible assumption
    | with_reducible refine Keeps.of_fst ?_ (by assumption)
    | with_reducible refine Keeps.ite_fst ?_ ?_
    | simp only [Keeps.put]
    | with_reducible refine State.holdRepair_keeps ?_
    | with_reducible refine Keeps.forEach (fun x st => ?_) ?_
    | with_reducible refine Keeps.foldl_fst (fun acc x => ?_) ?_
    | with_reducible refine Keeps.foldl (fun st x => ?_) ?_
    | split

theorem State.repairLost_keeps {t s : State} {x0} (h : Keeps t s) : Keeps t (State.repairLost x0 s) := by
  refine h.trans ?_
  clear h
  unfold State.repairLost
  repeat' first
    | with_reducible exact Keeps.refl _
    | with_reducible assumption
    | with_reducible refine Keeps.of_fst ?_ (by assumption)
    | with_reducible refine Keeps.ite_fst ?_ ?_
    | simp only [Keeps.put]
    | with_reducible refine State.repairFailed_keeps ?_
    | with_reducible refine Keeps.forEach (fun x st => ?_) ?_
    | with_reducible refine Keeps.foldl_fst (fun acc x => ?_) ?_
    | with_reducible refine Keeps.foldl (fun st x => ?_) ?_
    | split

theorem State.repairGot_keeps {t s : State} {x0} (h : Keeps t s) : Keeps t (State.repairGot x0 s) := by
  refine h.trans ?_
  clear h
  unfold State.repairGot
  repeat' first
    | with_reducible exact Keeps.refl _
    | with_reducible assumption
    | with_reducible refine Keeps.of_fst ?_ (by assumption)
    | with_reducible refine Keeps.ite_fst ?_ ?_
    | simp only [Keeps.put]
    | with_reducible refine State.repairBytes_keeps ?_
    | with_reducible refine State.repairLost_keeps ?_
    | with_reducible refine State.startDecode_keeps ?_
    | with_reducible refine Keeps.forEach (fun x st => ?_) ?_
    | with_reducible refine Keeps.foldl_fst (fun acc x => ?_) ?_
    | with_reducible refine Keeps.foldl (fun st x => ?_) ?_
    | split

theorem State.repairBegin_keeps {t s : State} {x0} (h : Keeps t s) : Keeps t (State.repairBegin x0 s) := by
  refine h.trans ?_
  clear h
  unfold State.repairBegin
  repeat' first
    | with_reducible exact Keeps.refl _
    | with_reducible assumption
    | with_reducible refine Keeps.of_fst ?_ (by assumption)
    | with_reducible refine Keeps.ite_fst ?_ ?_
    | simp only [Keeps.put]
    | with_reducible refine State.updRepair_keeps ?_
    | with_reducible refine State.startDecode_keeps ?_
    | with_reducible refine State.repairGot_keeps ?_
    | with_reducible refine Keeps.forEach (fun x st => ?_) ?_
    | with_reducible refine Keeps.foldl_fst (fun acc x => ?_) ?_
    | with_reducible refine Keeps.foldl (fun st x => ?_) ?_
    | split

theorem State.repairPass_keeps {t s : State} (h : Keeps t s) : Keeps t (State.repairPass s) := by
  refine h.trans ?_
  clear h
  unfold State.repairPass
  repeat' first
    | with_reducible exact Keeps.refl _
    | with_reducible assumption
    | with_reducible refine Keeps.of_fst ?_ (by assumption)
    | with_reducible refine Keeps.ite_fst ?_ ?_
    | simp only [Keeps.put]
    | with_reducible refine State.tryRepairWrite_keeps ?_
    | with_reducible refine State.repairStage_keeps ?_
    | with_reducible refine Keeps.forEach (fun x st => ?_) ?_
    | with_reducible refine Keeps.foldl_fst (fun acc x => ?_) ?_
    | with_reducible refine Keeps.foldl (fun st x => ?_) ?_
    | split

theorem State.repairStart_keeps {t s : State} (h : Keeps t s) : Keeps t (State.repairStart s) := by
  refine h.trans ?_
  clear h
  unfold State.repairStart
  repeat' first
    | with_reducible exact Keeps.refl _
    | with_reducible assumption
    | with_reducible refine Keeps.of_fst ?_ (by assumption)
    | with_reducible refine Keeps.ite_fst ?_ ?_
    | simp only [Keeps.put]
    | with_reducible refine State.mendMask_keeps ?_
    | with_reducible refine State.repairBegin_keeps ?_
    | with_reducible refine Keeps.forEach (fun x st => ?_) ?_
    | with_reducible refine Keeps.foldl_fst (fun acc x => ?_) ?_
    | with_reducible refine Keeps.foldl (fun st x => ?_) ?_
    | split

theorem State.retireRows_keeps {t s : State} {x0} (h : Keeps t s) : Keeps t (State.retireRows x0 s) := by
  refine h.trans ?_
  clear h
  unfold State.retireRows
  repeat' first
    | with_reducible exact Keeps.refl _
    | with_reducible assumption
    | with_reducible refine Keeps.of_fst ?_ (by assumption)
    | with_reducible refine Keeps.ite_fst ?_ ?_
    | simp only [Keeps.put]
    | with_reducible refine State.moveRow_keeps ?_
    | with_reducible refine State.journalState_keeps ?_
    | with_reducible refine Keeps.forEach (fun x st => ?_) ?_
    | with_reducible refine Keeps.foldl_fst (fun acc x => ?_) ?_
    | with_reducible refine Keeps.foldl (fun st x => ?_) ?_
    | split

theorem State.sramReads_keeps {t s : State} (h : Keeps t s) : Keeps t (State.sramReads s) := by
  refine h.trans ?_
  clear h
  unfold State.sramReads
  repeat' first
    | with_reducible exact Keeps.refl _
    | with_reducible assumption
    | with_reducible refine Keeps.of_fst ?_ (by assumption)
    | with_reducible refine Keeps.ite_fst ?_ ?_
    | simp only [Keeps.put]
    | with_reducible refine State.rowFound_keeps ?_
    | with_reducible refine Keeps.forEach (fun x st => ?_) ?_
    | with_reducible refine Keeps.foldl_fst (fun acc x => ?_) ?_
    | with_reducible refine Keeps.foldl (fun st x => ?_) ?_
    | split

end Sys2Proof.Machine
end

