-- ==== Sys2Proof/Laws/KeepsThreshold.lean ====
section
/-! SUPPORT. What the operations of Machine/Threshold.lean keep (Keeps.lean). -/

set_option linter.unusedSimpArgs false

namespace Sys2Proof.Machine

theorem State.recordTakes_keeps {t s : State} (h : Keeps t s) : Keeps t (State.recordTakes s) := by
  refine h.trans ?_
  clear h
  unfold State.recordTakes
  repeat' first
    | with_reducible exact Keeps.refl _
    | with_reducible assumption
    | with_reducible refine Keeps.of_fst ?_ (by assumption)
    | with_reducible refine Keeps.ite_fst ?_ ?_
    | simp only [Keeps.put]
    | with_reducible refine State.setReg_keeps ?_
    | with_reducible refine State.contextApplies_keeps ?_
    | with_reducible refine Keeps.forEach (fun x st => ?_) ?_
    | with_reducible refine Keeps.foldl_fst (fun acc x => ?_) ?_
    | with_reducible refine Keeps.foldl (fun st x => ?_) ?_
    | split

theorem State.dropNotices_keeps {t s : State} {x0} (h : Keeps t s) : Keeps t (State.dropNotices x0 s) := by
  refine h.trans ?_
  clear h
  unfold State.dropNotices
  repeat' first
    | with_reducible exact Keeps.refl _
    | with_reducible assumption
    | with_reducible refine Keeps.of_fst ?_ (by assumption)
    | with_reducible refine Keeps.ite_fst ?_ ?_
    | simp only [Keeps.put]
    | with_reducible refine Keeps.forEach (fun x st => ?_) ?_
    | with_reducible refine Keeps.foldl_fst (fun acc x => ?_) ?_
    | with_reducible refine Keeps.foldl (fun st x => ?_) ?_
    | split

theorem State.zeroScalars_keeps {t s : State} {x0} (h : Keeps t s) : Keeps t (State.zeroScalars x0 s) := by
  refine h.trans ?_
  clear h
  unfold State.zeroScalars
  repeat' first
    | with_reducible exact Keeps.refl _
    | with_reducible assumption
    | with_reducible refine Keeps.of_fst ?_ (by assumption)
    | with_reducible refine Keeps.ite_fst ?_ ?_
    | simp only [Keeps.put]
    | with_reducible refine Keeps.forEach (fun x st => ?_) ?_
    | with_reducible refine Keeps.foldl_fst (fun acc x => ?_) ?_
    | with_reducible refine Keeps.foldl (fun st x => ?_) ?_
    | split

theorem State.vacateTurn_keeps {t s : State} {x0 x1} (h : Keeps t s) : Keeps t (State.vacateTurn x0 x1 s) := by
  refine h.trans ?_
  clear h
  unfold State.vacateTurn
  repeat' first
    | with_reducible exact Keeps.refl _
    | with_reducible assumption
    | with_reducible refine Keeps.of_fst ?_ (by assumption)
    | with_reducible refine Keeps.ite_fst ?_ ?_
    | simp only [Keeps.put]
    | with_reducible refine State.vacateStart_keeps ?_
    | with_reducible refine Keeps.forEach (fun x st => ?_) ?_
    | with_reducible refine Keeps.foldl_fst (fun acc x => ?_) ?_
    | with_reducible refine Keeps.foldl (fun st x => ?_) ?_
    | split

theorem State.leaveSkein_keeps {t s : State} (h : Keeps t s) : Keeps t (State.leaveSkein s) := by
  refine h.trans ?_
  clear h
  unfold State.leaveSkein
  repeat' first
    | with_reducible exact Keeps.refl _
    | with_reducible assumption
    | with_reducible refine Keeps.of_fst ?_ (by assumption)
    | with_reducible refine Keeps.ite_fst ?_ ?_
    | simp only [Keeps.put]
    | with_reducible refine Keeps.forEach (fun x st => ?_) ?_
    | with_reducible refine Keeps.foldl_fst (fun acc x => ?_) ?_
    | with_reducible refine Keeps.foldl (fun st x => ?_) ?_
    | split

theorem State.keepOld_keeps {t s : State} {x0} (h : Keeps t s) : Keeps t (State.keepOld x0 s) := by
  refine h.trans ?_
  clear h
  unfold State.keepOld
  repeat' first
    | with_reducible exact Keeps.refl _
    | with_reducible assumption
    | with_reducible refine Keeps.of_fst ?_ (by assumption)
    | with_reducible refine Keeps.ite_fst ?_ ?_
    | simp only [Keeps.put]
    | with_reducible refine Keeps.forEach (fun x st => ?_) ?_
    | with_reducible refine Keeps.foldl_fst (fun acc x => ?_) ?_
    | with_reducible refine Keeps.foldl (fun st x => ?_) ?_
    | split

theorem State.takeLayout_keeps {t s : State} {x0 x1} (h : Keeps t s) : Keeps t (State.takeLayout x0 x1 s) := by
  refine h.trans ?_
  clear h
  unfold State.takeLayout
  repeat' first
    | with_reducible exact Keeps.refl _
    | with_reducible assumption
    | with_reducible refine Keeps.of_fst ?_ (by assumption)
    | with_reducible refine Keeps.ite_fst ?_ ?_
    | simp only [Keeps.put]
    | with_reducible refine State.startRecomp_keeps ?_
    | with_reducible refine Keeps.forEach (fun x st => ?_) ?_
    | with_reducible refine Keeps.foldl_fst (fun acc x => ?_) ?_
    | with_reducible refine Keeps.foldl (fun st x => ?_) ?_
    | split

theorem State.takeMembership_keeps {t s : State} {x0} (h : Keeps t s) : Keeps t (State.takeMembership x0 s) := by
  refine h.trans ?_
  clear h
  unfold State.takeMembership
  repeat' first
    | with_reducible exact Keeps.refl _
    | with_reducible assumption
    | with_reducible refine Keeps.of_fst ?_ (by assumption)
    | with_reducible refine Keeps.ite_fst ?_ ?_
    | simp only [Keeps.put]
    | with_reducible refine Keeps.forEach (fun x st => ?_) ?_
    | with_reducible refine Keeps.foldl_fst (fun acc x => ?_) ?_
    | with_reducible refine Keeps.foldl (fun st x => ?_) ?_
    | split

theorem State.enterSkein_keeps {t s : State} {x0 x1 x2} (h : Keeps t s) : Keeps t (State.enterSkein x0 x1 x2 s) := by
  refine h.trans ?_
  clear h
  unfold State.enterSkein
  repeat' first
    | with_reducible exact Keeps.refl _
    | with_reducible assumption
    | with_reducible refine Keeps.of_fst ?_ (by assumption)
    | with_reducible refine Keeps.ite_fst ?_ ?_
    | simp only [Keeps.put]
    | with_reducible refine State.coverPosition_keeps ?_
    | with_reducible refine State.keepOld_keeps ?_
    | with_reducible refine State.takeLayout_keeps ?_
    | with_reducible refine State.takeMembership_keeps ?_
    | with_reducible refine Keeps.forEach (fun x st => ?_) ?_
    | with_reducible refine Keeps.foldl_fst (fun acc x => ?_) ?_
    | with_reducible refine Keeps.foldl (fun st x => ?_) ?_
    | split

theorem State.planSkein_keeps {t s : State} {x0 x1} (h : Keeps t s) : Keeps t (State.planSkein x0 x1 s) := by
  refine h.trans ?_
  clear h
  unfold State.planSkein
  repeat' first
    | with_reducible exact Keeps.refl _
    | with_reducible assumption
    | with_reducible refine Keeps.of_fst ?_ (by assumption)
    | with_reducible refine Keeps.ite_fst ?_ ?_
    | simp only [Keeps.put]
    | with_reducible refine State.leaveSkein_keeps ?_
    | with_reducible refine State.enterSkein_keeps ?_
    | with_reducible refine Keeps.forEach (fun x st => ?_) ?_
    | with_reducible refine Keeps.foldl_fst (fun acc x => ?_) ?_
    | with_reducible refine Keeps.foldl (fun st x => ?_) ?_
    | split

theorem State.dropPagesOf_keeps {t s : State} {x0} (h : Keeps t s) : Keeps t (State.dropPagesOf x0 s) := by
  refine h.trans ?_
  clear h
  unfold State.dropPagesOf
  repeat' first
    | with_reducible exact Keeps.refl _
    | with_reducible assumption
    | with_reducible refine Keeps.of_fst ?_ (by assumption)
    | with_reducible refine Keeps.ite_fst ?_ ?_
    | simp only [Keeps.put]
    | with_reducible refine State.dropMove_keeps ?_
    | with_reducible refine State.answerDiscard_keeps ?_
    | with_reducible refine Keeps.forEach (fun x st => ?_) ?_
    | with_reducible refine Keeps.foldl_fst (fun acc x => ?_) ?_
    | with_reducible refine Keeps.foldl (fun st x => ?_) ?_
    | split

theorem State.zeroTail_keeps {t s : State} {x0 x1} (h : Keeps t s) : Keeps t (State.zeroTail x0 x1 s) := by
  refine h.trans ?_
  clear h
  unfold State.zeroTail
  repeat' first
    | with_reducible exact Keeps.refl _
    | with_reducible assumption
    | with_reducible refine Keeps.of_fst ?_ (by assumption)
    | with_reducible refine Keeps.ite_fst ?_ ?_
    | simp only [Keeps.put]
    | with_reducible refine State.pantryWrite_keeps ?_
    | with_reducible refine State.hearthWrite_keeps ?_
    | with_reducible refine Keeps.forEach (fun x st => ?_) ?_
    | with_reducible refine Keeps.foldl_fst (fun acc x => ?_) ?_
    | with_reducible refine Keeps.foldl (fun st x => ?_) ?_
    | split

theorem State.zeroMaskTail_keeps {t s : State} {x0 x1} (h : Keeps t s) : Keeps t (State.zeroMaskTail x0 x1 s) := by
  refine h.trans ?_
  clear h
  unfold State.zeroMaskTail
  repeat' first
    | with_reducible exact Keeps.refl _
    | with_reducible assumption
    | with_reducible refine Keeps.of_fst ?_ (by assumption)
    | with_reducible refine Keeps.ite_fst ?_ ?_
    | simp only [Keeps.put]
    | with_reducible refine State.spanWrite_keeps ?_
    | with_reducible refine Keeps.forEach (fun x st => ?_) ?_
    | with_reducible refine Keeps.foldl_fst (fun acc x => ?_) ?_
    | with_reducible refine Keeps.foldl (fun st x => ?_) ?_
    | split

theorem State.zeroPadding_keeps {t s : State} {x0} (h : Keeps t s) : Keeps t (State.zeroPadding x0 s) := by
  refine h.trans ?_
  clear h
  unfold State.zeroPadding
  repeat' first
    | with_reducible exact Keeps.refl _
    | with_reducible assumption
    | with_reducible refine Keeps.of_fst ?_ (by assumption)
    | with_reducible refine Keeps.ite_fst ?_ ?_
    | simp only [Keeps.put]
    | with_reducible refine State.zeroTail_keeps ?_
    | with_reducible refine State.zeroMaskTail_keeps ?_
    | with_reducible refine Keeps.forEach (fun x st => ?_) ?_
    | with_reducible refine Keeps.foldl_fst (fun acc x => ?_) ?_
    | with_reducible refine Keeps.foldl (fun st x => ?_) ?_
    | split

theorem State.padHank_keeps {t s : State} {x0} (h : Keeps t s) : Keeps t (State.padHank x0 s) := by
  refine h.trans ?_
  clear h
  unfold State.padHank
  repeat' first
    | with_reducible exact Keeps.refl _
    | with_reducible assumption
    | with_reducible refine Keeps.of_fst ?_ (by assumption)
    | with_reducible refine Keeps.ite_fst ?_ ?_
    | simp only [Keeps.put]
    | with_reducible refine State.zeroPadding_keeps ?_
    | with_reducible refine State.invalidate_keeps ?_
    | with_reducible refine Keeps.forEach (fun x st => ?_) ?_
    | with_reducible refine Keeps.foldl_fst (fun acc x => ?_) ?_
    | with_reducible refine Keeps.foldl (fun st x => ?_) ?_
    | split

theorem State.openHank_keeps {t s : State} {x0} (h : Keeps t s) : Keeps t (State.openHank x0 s) := by
  refine h.trans ?_
  clear h
  unfold State.openHank
  repeat' first
    | with_reducible exact Keeps.refl _
    | with_reducible assumption
    | with_reducible refine Keeps.of_fst ?_ (by assumption)
    | with_reducible refine Keeps.ite_fst ?_ ?_
    | simp only [Keeps.put]
    | with_reducible refine State.dropPagesOf_keeps ?_
    | with_reducible refine State.freshMap_keeps ?_
    | with_reducible refine State.padHank_keeps ?_
    | with_reducible refine Keeps.forEach (fun x st => ?_) ?_
    | with_reducible refine Keeps.foldl_fst (fun acc x => ?_) ?_
    | with_reducible refine Keeps.foldl (fun st x => ?_) ?_
    | split

theorem State.openHanks_keeps {t s : State} {x0} (h : Keeps t s) : Keeps t (State.openHanks x0 s) := by
  refine h.trans ?_
  clear h
  unfold State.openHanks
  repeat' first
    | with_reducible exact Keeps.refl _
    | with_reducible assumption
    | with_reducible refine Keeps.of_fst ?_ (by assumption)
    | with_reducible refine Keeps.ite_fst ?_ ?_
    | simp only [Keeps.put]
    | with_reducible refine State.openHank_keeps ?_
    | with_reducible refine Keeps.forEach (fun x st => ?_) ?_
    | with_reducible refine Keeps.foldl_fst (fun acc x => ?_) ?_
    | with_reducible refine Keeps.foldl (fun st x => ?_) ?_
    | split

theorem State.applyPlan_keeps {t s : State} {x0 x1} (h : Keeps t s) : Keeps t (State.applyPlan x0 x1 s) := by
  refine h.trans ?_
  clear h
  unfold State.applyPlan
  repeat' first
    | with_reducible exact Keeps.refl _
    | with_reducible assumption
    | with_reducible refine Keeps.of_fst ?_ (by assumption)
    | with_reducible refine Keeps.ite_fst ?_ ?_
    | simp only [Keeps.put]
    | with_reducible refine State.recordTakes_keeps ?_
    | with_reducible refine State.dropNotices_keeps ?_
    | with_reducible refine State.zeroScalars_keeps ?_
    | with_reducible refine State.contextEpoch_keeps ?_
    | with_reducible refine State.vacateTurn_keeps ?_
    | with_reducible refine State.planSkein_keeps ?_
    | with_reducible refine State.openHanks_keeps ?_
    | with_reducible refine State.helloAll_keeps ?_
    | with_reducible refine State.changed_keeps ?_
    | with_reducible refine Keeps.forEach (fun x st => ?_) ?_
    | with_reducible refine Keeps.foldl_fst (fun acc x => ?_) ?_
    | with_reducible refine Keeps.foldl (fun st x => ?_) ?_
    | split

theorem State.keyTurn_keeps {t s : State} (h : Keeps t s) : Keeps t (State.keyTurn s) := by
  refine h.trans ?_
  clear h
  unfold State.keyTurn
  repeat' first
    | with_reducible exact Keeps.refl _
    | with_reducible assumption
    | with_reducible refine Keeps.of_fst ?_ (by assumption)
    | with_reducible refine Keeps.ite_fst ?_ ?_
    | simp only [Keeps.put]
    | with_reducible refine Keeps.forEach (fun x st => ?_) ?_
    | with_reducible refine Keeps.foldl_fst (fun acc x => ?_) ?_
    | with_reducible refine Keeps.foldl (fun st x => ?_) ?_
    | split

theorem State.endHomeMoves_keeps {t s : State} (h : Keeps t s) : Keeps t (State.endHomeMoves s) := by
  refine h.trans ?_
  clear h
  unfold State.endHomeMoves
  repeat' first
    | with_reducible exact Keeps.refl _
    | with_reducible assumption
    | with_reducible refine Keeps.of_fst ?_ (by assumption)
    | with_reducible refine Keeps.ite_fst ?_ ?_
    | simp only [Keeps.put]
    | with_reducible refine Keeps.forEach (fun x st => ?_) ?_
    | with_reducible refine Keeps.foldl_fst (fun acc x => ?_) ?_
    | with_reducible refine Keeps.foldl (fun st x => ?_) ?_
    | split

theorem State.discardPlan_keeps {t s : State} {x0 x1} (h : Keeps t s) : Keeps t (State.discardPlan x0 x1 s) := by
  refine h.trans ?_
  clear h
  unfold State.discardPlan
  repeat' first
    | with_reducible exact Keeps.refl _
    | with_reducible assumption
    | with_reducible refine Keeps.of_fst ?_ (by assumption)
    | with_reducible refine Keeps.ite_fst ?_ ?_
    | simp only [Keeps.put]
    | with_reducible refine State.writeRefusal_keeps ?_
    | with_reducible refine State.setAdm_keeps ?_
    | with_reducible refine State.raise_keeps ?_
    | with_reducible refine State.bump_keeps ?_
    | with_reducible refine Keeps.forEach (fun x st => ?_) ?_
    | with_reducible refine Keeps.foldl_fst (fun acc x => ?_) ?_
    | with_reducible refine Keeps.foldl (fun st x => ?_) ?_
    | split

theorem State.planTurn_keeps {t s : State} {x0} (h : Keeps t s) : Keeps t (State.planTurn x0 s) := by
  refine h.trans ?_
  clear h
  unfold State.planTurn
  repeat' first
    | with_reducible exact Keeps.refl _
    | with_reducible assumption
    | with_reducible refine Keeps.of_fst ?_ (by assumption)
    | with_reducible refine Keeps.ite_fst ?_ ?_
    | simp only [Keeps.put]
    | with_reducible refine State.discardPlan_keeps ?_
    | with_reducible refine State.applyPlan_keeps ?_
    | with_reducible refine Keeps.forEach (fun x st => ?_) ?_
    | with_reducible refine Keeps.foldl_fst (fun acc x => ?_) ?_
    | with_reducible refine Keeps.foldl (fun st x => ?_) ?_
    | split

theorem State.dropPages_keeps {t s : State} (h : Keeps t s) : Keeps t (State.dropPages s) := by
  refine h.trans ?_
  clear h
  unfold State.dropPages
  repeat' first
    | with_reducible exact Keeps.refl _
    | with_reducible assumption
    | with_reducible refine Keeps.of_fst ?_ (by assumption)
    | with_reducible refine Keeps.ite_fst ?_ ?_
    | simp only [Keeps.put]
    | with_reducible refine State.dropPagesOf_keeps ?_
    | with_reducible refine State.homeDrop_keeps ?_
    | with_reducible refine Keeps.forEach (fun x st => ?_) ?_
    | with_reducible refine Keeps.foldl_fst (fun acc x => ?_) ?_
    | with_reducible refine Keeps.foldl (fun st x => ?_) ?_
    | split

theorem State.emptyHanks_keeps {t s : State} (h : Keeps t s) : Keeps t (State.emptyHanks s) := by
  refine h.trans ?_
  clear h
  unfold State.emptyHanks
  repeat' first
    | with_reducible exact Keeps.refl _
    | with_reducible assumption
    | with_reducible refine Keeps.of_fst ?_ (by assumption)
    | with_reducible refine Keeps.ite_fst ?_ ?_
    | simp only [Keeps.put]
    | with_reducible refine Keeps.forEach (fun x st => ?_) ?_
    | with_reducible refine Keeps.foldl_fst (fun acc x => ?_) ?_
    | with_reducible refine Keeps.foldl (fun st x => ?_) ?_
    | split

theorem State.vacateOthers_keeps {t s : State} (h : Keeps t s) : Keeps t (State.vacateOthers s) := by
  refine h.trans ?_
  clear h
  unfold State.vacateOthers
  repeat' first
    | with_reducible exact Keeps.refl _
    | with_reducible assumption
    | with_reducible refine Keeps.of_fst ?_ (by assumption)
    | with_reducible refine Keeps.ite_fst ?_ ?_
    | simp only [Keeps.put]
    | with_reducible refine Keeps.forEach (fun x st => ?_) ?_
    | with_reducible refine Keeps.foldl_fst (fun acc x => ?_) ?_
    | with_reducible refine Keeps.foldl (fun st x => ?_) ?_
    | split

theorem State.heldSkein_keeps {t s : State} {x0} (h : Keeps t s) : Keeps t (State.heldSkein x0 s) := by
  refine h.trans ?_
  clear h
  unfold State.heldSkein
  repeat' first
    | with_reducible exact Keeps.refl _
    | with_reducible assumption
    | with_reducible refine Keeps.of_fst ?_ (by assumption)
    | with_reducible refine Keeps.ite_fst ?_ ?_
    | simp only [Keeps.put]
    | with_reducible refine State.helloAll_keeps ?_
    | with_reducible refine State.enterSkein_keeps ?_
    | with_reducible refine State.leaveSkein_keeps ?_
    | with_reducible refine Keeps.forEach (fun x st => ?_) ?_
    | with_reducible refine Keeps.foldl_fst (fun acc x => ?_) ?_
    | with_reducible refine Keeps.foldl (fun st x => ?_) ?_
    | split

theorem State.heldHanks_keeps {t s : State} {x0} (h : Keeps t s) : Keeps t (State.heldHanks x0 s) := by
  refine h.trans ?_
  clear h
  unfold State.heldHanks
  repeat' first
    | with_reducible exact Keeps.refl _
    | with_reducible assumption
    | with_reducible refine Keeps.of_fst ?_ (by assumption)
    | with_reducible refine Keeps.ite_fst ?_ ?_
    | simp only [Keeps.put]
    | with_reducible refine State.openHanks_keeps ?_
    | with_reducible refine Keeps.forEach (fun x st => ?_) ?_
    | with_reducible refine Keeps.foldl_fst (fun acc x => ?_) ?_
    | with_reducible refine Keeps.foldl (fun st x => ?_) ?_
    | split

theorem State.putClock_keeps {t s : State} {x0} (h : Keeps t s) : Keeps t (State.putClock x0 s) := by
  refine h.trans ?_
  clear h
  unfold State.putClock
  repeat' first
    | with_reducible exact Keeps.refl _
    | with_reducible assumption
    | with_reducible refine Keeps.of_fst ?_ (by assumption)
    | with_reducible refine Keeps.ite_fst ?_ ?_
    | simp only [Keeps.put]
    | with_reducible refine State.setReg_keeps ?_
    | with_reducible refine Keeps.forEach (fun x st => ?_) ?_
    | with_reducible refine Keeps.foldl_fst (fun acc x => ?_) ?_
    | with_reducible refine Keeps.foldl (fun st x => ?_) ?_
    | split

theorem State.putStaged_keeps {t s : State} {x0 x1 x2} (h : Keeps t s) : Keeps t (State.putStaged x0 x1 x2 s) := by
  refine h.trans ?_
  clear h
  unfold State.putStaged
  repeat' first
    | with_reducible exact Keeps.refl _
    | with_reducible assumption
    | with_reducible refine Keeps.of_fst ?_ (by assumption)
    | with_reducible refine Keeps.ite_fst ?_ ?_
    | simp only [Keeps.put]
    | with_reducible refine State.putClock_keeps ?_
    | with_reducible refine State.putTwist_keeps ?_
    | with_reducible refine State.switchover_keeps ?_
    | with_reducible refine State.setReg_keeps ?_
    | with_reducible refine State.journalState_keeps ?_
    | with_reducible refine State.setHealth_keeps ?_
    | with_reducible refine State.retireRows_keeps ?_
    | with_reducible refine Keeps.forEach (fun x st => ?_) ?_
    | with_reducible refine Keeps.foldl_fst (fun acc x => ?_) ?_
    | with_reducible refine Keeps.foldl (fun st x => ?_) ?_
    | split

theorem State.discardStaged_keeps {t s : State} {x0} (h : Keeps t s) : Keeps t (State.discardStaged x0 s) := by
  refine h.trans ?_
  clear h
  unfold State.discardStaged
  repeat' first
    | with_reducible exact Keeps.refl _
    | with_reducible assumption
    | with_reducible refine Keeps.of_fst ?_ (by assumption)
    | with_reducible refine Keeps.ite_fst ?_ ?_
    | simp only [Keeps.put]
    | with_reducible refine State.raise_keeps ?_
    | with_reducible refine State.bump_keeps ?_
    | with_reducible refine Keeps.forEach (fun x st => ?_) ?_
    | with_reducible refine Keeps.foldl_fst (fun acc x => ?_) ?_
    | with_reducible refine Keeps.foldl (fun st x => ?_) ?_
    | split

theorem State.stagedTurn_keeps {t s : State} {x0 x1} (h : Keeps t s) : Keeps t (State.stagedTurn x0 x1 s) := by
  refine h.trans ?_
  clear h
  unfold State.stagedTurn
  repeat' first
    | with_reducible exact Keeps.refl _
    | with_reducible assumption
    | with_reducible refine Keeps.of_fst ?_ (by assumption)
    | with_reducible refine Keeps.ite_fst ?_ ?_
    | simp only [Keeps.put]
    | with_reducible refine State.putStaged_keeps ?_
    | with_reducible refine State.bump_keeps ?_
    | with_reducible refine State.discardStaged_keeps ?_
    | with_reducible refine Keeps.forEach (fun x st => ?_) ?_
    | with_reducible refine Keeps.foldl_fst (fun acc x => ?_) ?_
    | with_reducible refine Keeps.foldl (fun st x => ?_) ?_
    | split

theorem State.tableTurn_keeps {t s : State} (h : Keeps t s) : Keeps t (State.tableTurn s) := by
  refine h.trans ?_
  clear h
  unfold State.tableTurn
  repeat' first
    | with_reducible exact Keeps.refl _
    | with_reducible assumption
    | with_reducible refine Keeps.of_fst ?_ (by assumption)
    | with_reducible refine Keeps.ite_fst ?_ ?_
    | simp only [Keeps.put]
    | with_reducible refine State.bump_keeps ?_
    | with_reducible refine Keeps.forEach (fun x st => ?_) ?_
    | with_reducible refine Keeps.foldl_fst (fun acc x => ?_) ?_
    | with_reducible refine Keeps.foldl (fun st x => ?_) ?_
    | split

theorem State.countSeeds_keeps {t s : State} (h : Keeps t s) : Keeps t (State.countSeeds s) := by
  refine h.trans ?_
  clear h
  unfold State.countSeeds
  repeat' first
    | with_reducible exact Keeps.refl _
    | with_reducible assumption
    | with_reducible refine Keeps.of_fst ?_ (by assumption)
    | with_reducible refine Keeps.ite_fst ?_ ?_
    | simp only [Keeps.put]
    | with_reducible refine State.bump_keeps ?_
    | with_reducible refine Keeps.forEach (fun x st => ?_) ?_
    | with_reducible refine Keeps.foldl_fst (fun acc x => ?_) ?_
    | with_reducible refine Keeps.foldl (fun st x => ?_) ?_
    | split

theorem State.fixTwist_keeps {t s : State} (h : Keeps t s) : Keeps t (State.fixTwist s) := by
  refine h.trans ?_
  clear h
  unfold State.fixTwist
  repeat' first
    | with_reducible exact Keeps.refl _
    | with_reducible assumption
    | with_reducible refine Keeps.of_fst ?_ (by assumption)
    | with_reducible refine Keeps.ite_fst ?_ ?_
    | simp only [Keeps.put]
    | with_reducible refine Keeps.forEach (fun x st => ?_) ?_
    | with_reducible refine Keeps.foldl_fst (fun acc x => ?_) ?_
    | with_reducible refine Keeps.foldl (fun st x => ?_) ?_
    | split

theorem State.stagedAll_keeps {t s : State} {x0} (h : Keeps t s) : Keeps t (State.stagedAll x0 s) := by
  refine h.trans ?_
  clear h
  unfold State.stagedAll
  repeat' first
    | with_reducible exact Keeps.refl _
    | with_reducible assumption
    | with_reducible refine Keeps.of_fst ?_ (by assumption)
    | with_reducible refine Keeps.ite_fst ?_ ?_
    | simp only [Keeps.put]
    | with_reducible refine State.stagedTurn_keeps ?_
    | with_reducible refine State.tableTurn_keeps ?_
    | with_reducible refine State.countSeeds_keeps ?_
    | with_reducible refine State.fixTwist_keeps ?_
    | with_reducible refine State.readmit_keeps ?_
    | with_reducible refine Keeps.forEach (fun x st => ?_) ?_
    | with_reducible refine Keeps.foldl_fst (fun acc x => ?_) ?_
    | with_reducible refine Keeps.foldl (fun st x => ?_) ?_
    | split

theorem State.dropRepairs_keeps {t s : State} (h : Keeps t s) : Keeps t (State.dropRepairs s) := by
  refine h.trans ?_
  clear h
  unfold State.dropRepairs
  repeat' first
    | with_reducible exact Keeps.refl _
    | with_reducible assumption
    | with_reducible refine Keeps.of_fst ?_ (by assumption)
    | with_reducible refine Keeps.ite_fst ?_ ?_
    | simp only [Keeps.put]
    | with_reducible refine Keeps.forEach (fun x st => ?_) ?_
    | with_reducible refine Keeps.foldl_fst (fun acc x => ?_) ?_
    | with_reducible refine Keeps.foldl (fun st x => ?_) ?_
    | split

theorem State.applySettings_keeps {t s : State} {x0} (h : Keeps t s) : Keeps t (State.applySettings x0 s) := by
  refine h.trans ?_
  clear h
  unfold State.applySettings
  repeat' first
    | with_reducible exact Keeps.refl _
    | with_reducible assumption
    | with_reducible refine Keeps.of_fst ?_ (by assumption)
    | with_reducible refine Keeps.ite_fst ?_ ?_
    | simp only [Keeps.put]
    | with_reducible refine State.keyTurn_keeps ?_
    | with_reducible refine State.carryPlies_keeps ?_
    | with_reducible refine State.endHomeMoves_keeps ?_
    | with_reducible refine State.planTurn_keeps ?_
    | with_reducible refine State.dropPages_keeps ?_
    | with_reducible refine State.emptyHanks_keeps ?_
    | with_reducible refine State.vacateOthers_keeps ?_
    | with_reducible refine State.heldSkein_keeps ?_
    | with_reducible refine State.heldHanks_keeps ?_
    | with_reducible refine State.stagedAll_keeps ?_
    | with_reducible refine State.dropRepairs_keeps ?_
    | with_reducible refine Keeps.forEach (fun x st => ?_) ?_
    | with_reducible refine Keeps.foldl_fst (fun acc x => ?_) ?_
    | with_reducible refine Keeps.foldl (fun st x => ?_) ?_
    | split

theorem State.beginStep_keeps {t s : State} {x0} (h : Keeps t s) : Keeps t (State.beginStep x0 s) := by
  refine h.trans ?_
  clear h
  unfold State.beginStep
  repeat' first
    | with_reducible exact Keeps.refl _
    | with_reducible assumption
    | with_reducible refine Keeps.of_fst ?_ (by assumption)
    | with_reducible refine Keeps.ite_fst ?_ ?_
    | simp only [Keeps.put]
    | with_reducible refine State.drainOpen_keeps ?_
    | with_reducible refine State.evacStart_keeps ?_
    | with_reducible refine State.oweOpened_keeps ?_
    | with_reducible refine State.countHeaders_keeps ?_
    | with_reducible refine State.releaseReads_keeps ?_
    | with_reducible refine State.releaseSets_keeps ?_
    | with_reducible refine State.serveProbe_keeps ?_
    | with_reducible refine State.viewOnlyPass_keeps ?_
    | with_reducible refine State.moverPass_keeps ?_
    | with_reducible refine State.acceptJobs_keeps ?_
    | with_reducible refine Keeps.forEach (fun x st => ?_) ?_
    | with_reducible refine Keeps.foldl_fst (fun acc x => ?_) ?_
    | with_reducible refine Keeps.foldl (fun st x => ?_) ?_
    | split

theorem State.cleanTiles_keeps {t s : State} (h : Keeps t s) : Keeps t (State.cleanTiles s) := by
  refine h.trans ?_
  clear h
  unfold State.cleanTiles
  repeat' first
    | with_reducible exact Keeps.refl _
    | with_reducible assumption
    | with_reducible refine Keeps.of_fst ?_ (by assumption)
    | with_reducible refine Keeps.ite_fst ?_ ?_
    | simp only [Keeps.put]
    | with_reducible refine Keeps.forEach (fun x st => ?_) ?_
    | with_reducible refine Keeps.foldl_fst (fun acc x => ?_) ?_
    | with_reducible refine Keeps.foldl (fun st x => ?_) ?_
    | split

theorem State.endStep_keeps {t s : State} (h : Keeps t s) : Keeps t (State.endStep s) := by
  refine h.trans ?_
  clear h
  unfold State.endStep
  repeat' first
    | with_reducible exact Keeps.refl _
    | with_reducible assumption
    | with_reducible refine Keeps.of_fst ?_ (by assumption)
    | with_reducible refine Keeps.ite_fst ?_ ?_
    | simp only [Keeps.put]
    | with_reducible refine State.cleanTiles_keeps ?_
    | with_reducible refine State.lossThreshold_keeps ?_
    | with_reducible refine State.ledgerThreshold_keeps ?_
    | with_reducible refine State.landingThreshold_keeps ?_
    | with_reducible refine State.shedThreshold_keeps ?_
    | with_reducible refine State.flushSuppressed_keeps ?_
    | with_reducible refine Keeps.forEach (fun x st => ?_) ?_
    | with_reducible refine Keeps.foldl_fst (fun acc x => ?_) ?_
    | with_reducible refine Keeps.foldl (fun st x => ?_) ?_
    | split

theorem State.keepContext_keeps {t s : State} (h : Keeps t s) : Keeps t (State.keepContext s) := by
  refine h.trans ?_
  clear h
  unfold State.keepContext
  repeat' first
    | with_reducible exact Keeps.refl _
    | with_reducible assumption
    | with_reducible refine Keeps.of_fst ?_ (by assumption)
    | with_reducible refine Keeps.ite_fst ?_ ?_
    | simp only [Keeps.put]
    | with_reducible refine Keeps.forEach (fun x st => ?_) ?_
    | with_reducible refine Keeps.foldl_fst (fun acc x => ?_) ?_
    | with_reducible refine Keeps.foldl (fun st x => ?_) ?_
    | split

theorem State.houseThreshold_keeps {t s : State} (h : Keeps t s) : Keeps t (State.houseThreshold s) := by
  refine h.trans ?_
  clear h
  unfold State.houseThreshold
  repeat' first
    | with_reducible exact Keeps.refl _
    | with_reducible assumption
    | with_reducible refine Keeps.of_fst ?_ (by assumption)
    | with_reducible refine Keeps.ite_fst ?_ ?_
    | simp only [Keeps.put]
    | with_reducible refine State.retryJournal_keeps ?_
    | with_reducible refine State.journalEvents_keeps ?_
    | with_reducible refine State.journalState_keeps ?_
    | with_reducible refine State.heldSwitch_keeps ?_
    | with_reducible refine Keeps.forEach (fun x st => ?_) ?_
    | with_reducible refine Keeps.foldl_fst (fun acc x => ?_) ?_
    | with_reducible refine Keeps.foldl (fun st x => ?_) ?_
    | split

theorem State.fencedThreshold_keeps {t s : State} {x0} (h : Keeps t s) : Keeps t (State.fencedThreshold x0 s) := by
  refine h.trans ?_
  clear h
  unfold State.fencedThreshold
  repeat' first
    | with_reducible exact Keeps.refl _
    | with_reducible assumption
    | with_reducible refine Keeps.of_fst ?_ (by assumption)
    | with_reducible refine Keeps.ite_fst ?_ ?_
    | simp only [Keeps.put]
    | with_reducible refine State.applySettings_keeps ?_
    | with_reducible refine State.emit_keeps ?_
    | with_reducible refine State.keepContext_keeps ?_
    | with_reducible refine State.houseThreshold_keeps ?_
    | with_reducible refine State.vacateFinish_keeps ?_
    | with_reducible refine Keeps.forEach (fun x st => ?_) ?_
    | with_reducible refine Keeps.foldl_fst (fun acc x => ?_) ?_
    | with_reducible refine Keeps.foldl (fun st x => ?_) ?_
    | split

theorem State.keepPrev_keeps {t s : State} (h : Keeps t s) : Keeps t (State.keepPrev s) := by
  refine h.trans ?_
  clear h
  unfold State.keepPrev
  repeat' first
    | with_reducible exact Keeps.refl _
    | with_reducible assumption
    | with_reducible refine Keeps.of_fst ?_ (by assumption)
    | with_reducible refine Keeps.ite_fst ?_ ?_
    | simp only [Keeps.put]
    | with_reducible refine Keeps.forEach (fun x st => ?_) ?_
    | with_reducible refine Keeps.foldl_fst (fun acc x => ?_) ?_
    | with_reducible refine Keeps.foldl (fun st x => ?_) ?_
    | split

theorem State.traceOpen_keeps {t s : State} {x0 x1} (h : Keeps t s) : Keeps t (State.traceOpen x0 x1 s) := by
  refine h.trans ?_
  clear h
  unfold State.traceOpen
  repeat' first
    | with_reducible exact Keeps.refl _
    | with_reducible assumption
    | with_reducible refine Keeps.of_fst ?_ (by assumption)
    | with_reducible refine Keeps.ite_fst ?_ ?_
    | simp only [Keeps.put]
    | with_reducible refine Keeps.forEach (fun x st => ?_) ?_
    | with_reducible refine Keeps.foldl_fst (fun acc x => ?_) ?_
    | with_reducible refine Keeps.foldl (fun st x => ?_) ?_
    | split

theorem State.openFrame_keeps {t s : State} {x0 x1} (h : Keeps t s) : Keeps t (State.openFrame x0 x1 s) := by
  refine h.trans ?_
  clear h
  unfold State.openFrame
  repeat' first
    | with_reducible exact Keeps.refl _
    | with_reducible assumption
    | with_reducible refine Keeps.of_fst ?_ (by assumption)
    | with_reducible refine Keeps.ite_fst ?_ ?_
    | simp only [Keeps.put]
    | with_reducible refine State.traceOpen_keeps ?_
    | with_reducible refine State.emit_keeps ?_
    | with_reducible refine Keeps.forEach (fun x st => ?_) ?_
    | with_reducible refine Keeps.foldl_fst (fun acc x => ?_) ?_
    | with_reducible refine Keeps.foldl (fun st x => ?_) ?_
    | split

theorem State.retryPads_keeps {t s : State} (h : Keeps t s) : Keeps t (State.retryPads s) := by
  refine h.trans ?_
  clear h
  unfold State.retryPads
  repeat' first
    | with_reducible exact Keeps.refl _
    | with_reducible assumption
    | with_reducible refine Keeps.of_fst ?_ (by assumption)
    | with_reducible refine Keeps.ite_fst ?_ ?_
    | simp only [Keeps.put]
    | with_reducible refine State.padHank_keeps ?_
    | with_reducible refine Keeps.forEach (fun x st => ?_) ?_
    | with_reducible refine Keeps.foldl_fst (fun acc x => ?_) ?_
    | with_reducible refine Keeps.foldl (fun st x => ?_) ?_
    | split

theorem State.threshold_keeps {t s : State} {x0 x1} (h : Keeps t s) : Keeps t (State.threshold x0 x1 s) := by
  refine h.trans ?_
  clear h
  unfold State.threshold
  repeat' first
    | with_reducible exact Keeps.refl _
    | with_reducible assumption
    | with_reducible refine Keeps.of_fst ?_ (by assumption)
    | with_reducible refine Keeps.ite_fst ?_ ?_
    | simp only [Keeps.put]
    | with_reducible refine State.endStep_keeps ?_
    | with_reducible refine State.keepPrev_keeps ?_
    | with_reducible refine State.heatThreshold_keeps ?_
    | with_reducible refine State.applySettings_keeps ?_
    | with_reducible refine State.beginStep_keeps ?_
    | with_reducible refine State.openFrame_keeps ?_
    | with_reducible refine State.keepContext_keeps ?_
    | with_reducible refine State.houseThreshold_keeps ?_
    | with_reducible refine Keeps.forEach (fun x st => ?_) ?_
    | with_reducible refine Keeps.foldl_fst (fun acc x => ?_) ?_
    | with_reducible refine Keeps.foldl (fun st x => ?_) ?_
    | split

end Sys2Proof.Machine
end

