-- ==== Sys2Proof/Laws/KeepsTick.lean ====
section
/-! SUPPORT. What the operations of Machine/Tick.lean keep (Keeps.lean). -/

set_option linter.unusedSimpArgs false

namespace Sys2Proof.Machine

theorem State.copyDone_keeps {t s : State} (h : Keeps t s) : Keeps t (State.copyDone s) := by
  refine h.trans ?_
  clear h
  unfold State.copyDone
  repeat' first
    | with_reducible exact Keeps.refl _
    | with_reducible assumption
    | with_reducible refine Keeps.of_fst ?_ (by assumption)
    | with_reducible refine Keeps.ite_fst ?_ ?_
    | simp only [Keeps.put]
    | with_reducible refine Keeps.forEach (fun x st => ?_) ?_
    | with_reducible refine Keeps.foldl_fst (fun acc x => ?_) ?_
    | with_reducible refine Keeps.foldl (fun st x => ?_) ?_
    | split

theorem State.creditBack_keeps {t s : State} {x0 x1 x2 x3} (h : Keeps t s) : Keeps t (State.creditBack x0 x1 x2 x3 s) := by
  refine h.trans ?_
  clear h
  unfold State.creditBack
  repeat' first
    | with_reducible exact Keeps.refl _
    | with_reducible assumption
    | with_reducible refine Keeps.of_fst ?_ (by assumption)
    | with_reducible refine Keeps.ite_fst ?_ ?_
    | simp only [Keeps.put]
    | with_reducible refine State.countNote_keeps ?_
    | with_reducible refine State.setCredit_keeps ?_
    | with_reducible refine State.countReturned_keeps ?_
    | with_reducible refine Keeps.forEach (fun x st => ?_) ?_
    | with_reducible refine Keeps.foldl_fst (fun acc x => ?_) ?_
    | with_reducible refine Keeps.foldl (fun st x => ?_) ?_
    | split

theorem State.grantClass_keeps {t s : State} {x0 x1 x2 x3} (h : Keeps t s) : Keeps t (State.grantClass x0 x1 x2 x3 s) := by
  refine h.trans ?_
  clear h
  unfold State.grantClass
  repeat' first
    | with_reducible exact Keeps.refl _
    | with_reducible assumption
    | with_reducible refine Keeps.of_fst ?_ (by assumption)
    | with_reducible refine Keeps.ite_fst ?_ ?_
    | simp only [Keeps.put]
    | with_reducible refine State.countNote_keeps ?_
    | with_reducible refine State.setCredit_keeps ?_
    | with_reducible refine Keeps.forEach (fun x st => ?_) ?_
    | with_reducible refine Keeps.foldl_fst (fun acc x => ?_) ?_
    | with_reducible refine Keeps.foldl (fun st x => ?_) ?_
    | split

theorem State.creditInit_keeps {t s : State} {x0 x1 x2} (h : Keeps t s) : Keeps t (State.creditInit x0 x1 x2 s) := by
  refine h.trans ?_
  clear h
  unfold State.creditInit
  repeat' first
    | with_reducible exact Keeps.refl _
    | with_reducible assumption
    | with_reducible refine Keeps.of_fst ?_ (by assumption)
    | with_reducible refine Keeps.ite_fst ?_ ?_
    | simp only [Keeps.put]
    | with_reducible refine State.grantClass_keeps ?_
    | with_reducible refine State.pump_keeps ?_
    | with_reducible refine Keeps.forEach (fun x st => ?_) ?_
    | with_reducible refine Keeps.foldl_fst (fun acc x => ?_) ?_
    | with_reducible refine Keeps.foldl (fun st x => ?_) ?_
    | split

theorem State.creditReturn_keeps {t s : State} {x0 x1 x2} (h : Keeps t s) : Keeps t (State.creditReturn x0 x1 x2 s) := by
  refine h.trans ?_
  clear h
  unfold State.creditReturn
  repeat' first
    | with_reducible exact Keeps.refl _
    | with_reducible assumption
    | with_reducible refine Keeps.of_fst ?_ (by assumption)
    | with_reducible refine Keeps.ite_fst ?_ ?_
    | simp only [Keeps.put]
    | with_reducible refine State.creditBack_keeps ?_
    | with_reducible refine State.pump_keeps ?_
    | with_reducible refine Keeps.forEach (fun x st => ?_) ?_
    | with_reducible refine Keeps.foldl_fst (fun acc x => ?_) ?_
    | with_reducible refine Keeps.foldl (fun st x => ?_) ?_
    | split

theorem State.delaySeal_keeps {t s : State} (h : Keeps t s) : Keeps t (State.delaySeal s) := by
  refine h.trans ?_
  clear h
  unfold State.delaySeal
  repeat' first
    | with_reducible exact Keeps.refl _
    | with_reducible assumption
    | with_reducible refine Keeps.of_fst ?_ (by assumption)
    | with_reducible refine Keeps.ite_fst ?_ ?_
    | simp only [Keeps.put]
    | with_reducible refine State.countNote_keeps ?_
    | with_reducible refine Keeps.forEach (fun x st => ?_) ?_
    | with_reducible refine Keeps.foldl_fst (fun acc x => ?_) ?_
    | with_reducible refine Keeps.foldl (fun st x => ?_) ?_
    | split

theorem State.earlyTick_keeps {t s : State} {x0} (h : Keeps t s) : Keeps t (State.earlyTick x0 s) := by
  refine h.trans ?_
  clear h
  unfold State.earlyTick
  repeat' first
    | with_reducible exact Keeps.refl _
    | with_reducible assumption
    | with_reducible refine Keeps.of_fst ?_ (by assumption)
    | with_reducible refine Keeps.ite_fst ?_ ?_
    | simp only [Keeps.put]
    | with_reducible refine State.countNote_keeps ?_
    | with_reducible refine State.fence_keeps ?_
    | with_reducible refine Keeps.forEach (fun x st => ?_) ?_
    | with_reducible refine Keeps.foldl_fst (fun acc x => ?_) ?_
    | with_reducible refine Keeps.foldl (fun st x => ?_) ?_
    | split

theorem State.fencedTick_keeps {t s : State} {x0} (h : Keeps t s) : Keeps t (State.fencedTick x0 s) := by
  refine h.trans ?_
  clear h
  unfold State.fencedTick
  repeat' first
    | with_reducible exact Keeps.refl _
    | with_reducible assumption
    | with_reducible refine Keeps.of_fst ?_ (by assumption)
    | with_reducible refine Keeps.ite_fst ?_ ?_
    | simp only [Keeps.put]
    | with_reducible refine State.fencedThreshold_keeps ?_
    | with_reducible refine State.bump_keeps ?_
    | with_reducible refine Keeps.forEach (fun x st => ?_) ?_
    | with_reducible refine Keeps.foldl_fst (fun acc x => ?_) ?_
    | with_reducible refine Keeps.foldl (fun st x => ?_) ?_
    | split

theorem State.hallInvalid_keeps {t s : State} {x0 x1} (h : Keeps t s) : Keeps t (State.hallInvalid x0 x1 s) := by
  refine h.trans ?_
  clear h
  unfold State.hallInvalid
  repeat' first
    | with_reducible exact Keeps.refl _
    | with_reducible assumption
    | with_reducible refine Keeps.of_fst ?_ (by assumption)
    | with_reducible refine Keeps.ite_fst ?_ ?_
    | simp only [Keeps.put]
    | with_reducible refine State.sampleTime_keeps ?_
    | with_reducible refine State.bump_keeps ?_
    | with_reducible refine Keeps.forEach (fun x st => ?_) ?_
    | with_reducible refine Keeps.foldl_fst (fun acc x => ?_) ?_
    | with_reducible refine Keeps.foldl (fun st x => ?_) ?_
    | split

theorem State.hallValid_keeps {t s : State} {x0} (h : Keeps t s) : Keeps t (State.hallValid x0 s) := by
  refine h.trans ?_
  clear h
  unfold State.hallValid
  repeat' first
    | with_reducible exact Keeps.refl _
    | with_reducible assumption
    | with_reducible refine Keeps.of_fst ?_ (by assumption)
    | with_reducible refine Keeps.ite_fst ?_ ?_
    | simp only [Keeps.put]
    | with_reducible refine State.sampleTime_keeps ?_
    | with_reducible refine Keeps.forEach (fun x st => ?_) ?_
    | with_reducible refine Keeps.foldl_fst (fun acc x => ?_) ?_
    | with_reducible refine Keeps.foldl (fun st x => ?_) ?_
    | split

theorem State.invAck_keeps {t s : State} {x0 x1} (h : Keeps t s) : Keeps t (State.invAck x0 x1 s) := by
  refine h.trans ?_
  clear h
  unfold State.invAck
  repeat' first
    | with_reducible exact Keeps.refl _
    | with_reducible assumption
    | with_reducible refine Keeps.of_fst ?_ (by assumption)
    | with_reducible refine Keeps.ite_fst ?_ ?_
    | simp only [Keeps.put]
    | with_reducible refine State.bump_keeps ?_
    | with_reducible refine State.closeInv_keeps (by assumption) ?_
    | with_reducible refine Keeps.forEach (fun x st => ?_) ?_
    | with_reducible refine Keeps.foldl_fst (fun acc x => ?_) ?_
    | with_reducible refine Keeps.foldl (fun st x => ?_) ?_
    | split

theorem State.invOverdue_keeps {t s : State} {x0 x1} (h : Keeps t s) : Keeps t (State.invOverdue x0 x1 s) := by
  refine h.trans ?_
  clear h
  unfold State.invOverdue
  repeat' first
    | with_reducible exact Keeps.refl _
    | with_reducible assumption
    | with_reducible refine Keeps.of_fst ?_ (by assumption)
    | with_reducible refine Keeps.ite_fst ?_ ?_
    | simp only [Keeps.put]
    | with_reducible refine State.countNote_keeps ?_
    | with_reducible refine Keeps.forEach (fun x st => ?_) ?_
    | with_reducible refine Keeps.foldl_fst (fun acc x => ?_) ?_
    | with_reducible refine Keeps.foldl (fun st x => ?_) ?_
    | split

theorem State.noteReady_keeps {t s : State} (h : Keeps t s) : Keeps t (State.noteReady s) := by
  refine h.trans ?_
  clear h
  unfold State.noteReady
  repeat' first
    | with_reducible exact Keeps.refl _
    | with_reducible assumption
    | with_reducible refine Keeps.of_fst ?_ (by assumption)
    | with_reducible refine Keeps.ite_fst ?_ ?_
    | simp only [Keeps.put]
    | with_reducible refine Keeps.forEach (fun x st => ?_) ?_
    | with_reducible refine Keeps.foldl_fst (fun acc x => ?_) ?_
    | with_reducible refine Keeps.foldl (fun st x => ?_) ?_
    | split

theorem State.traceRollcall_keeps {t s : State} {x0} (h : Keeps t s) : Keeps t (State.traceRollcall x0 s) := by
  refine h.trans ?_
  clear h
  unfold State.traceRollcall
  repeat' first
    | with_reducible exact Keeps.refl _
    | with_reducible assumption
    | with_reducible refine Keeps.of_fst ?_ (by assumption)
    | with_reducible refine Keeps.ite_fst ?_ ?_
    | simp only [Keeps.put]
    | with_reducible refine Keeps.forEach (fun x st => ?_) ?_
    | with_reducible refine Keeps.foldl_fst (fun acc x => ?_) ?_
    | with_reducible refine Keeps.foldl (fun st x => ?_) ?_
    | split

theorem State.rollcall_keeps {t s : State} {x0 x1 x2} (h : Keeps t s) : Keeps t (State.rollcall x0 x1 x2 s) := by
  refine h.trans ?_
  clear h
  unfold State.rollcall
  repeat' first
    | with_reducible exact Keeps.refl _
    | with_reducible assumption
    | with_reducible refine Keeps.of_fst ?_ (by assumption)
    | with_reducible refine Keeps.ite_fst ?_ ?_
    | simp only [Keeps.put]
    | with_reducible refine State.sampleTime_keeps ?_
    | with_reducible refine State.bump_keeps ?_
    | with_reducible refine State.serveHeldOut_keeps ?_
    | with_reducible refine State.advanceComps_keeps ?_
    | with_reducible refine State.probeRollcall_keeps ?_
    | with_reducible refine State.classLosses_keeps ?_
    | with_reducible refine State.rollcallAt_keeps ?_
    | with_reducible refine State.traceRollcall_keeps ?_
    | with_reducible refine Keeps.forEach (fun x st => ?_) ?_
    | with_reducible refine Keeps.foldl_fst (fun acc x => ?_) ?_
    | with_reducible refine Keeps.foldl (fun st x => ?_) ?_
    | split

theorem State.traceSeal_keeps {t s : State} {x0} (h : Keeps t s) : Keeps t (State.traceSeal x0 s) := by
  refine h.trans ?_
  clear h
  unfold State.traceSeal
  repeat' first
    | with_reducible exact Keeps.refl _
    | with_reducible assumption
    | with_reducible refine Keeps.of_fst ?_ (by assumption)
    | with_reducible refine Keeps.ite_fst ?_ ?_
    | simp only [Keeps.put]
    | with_reducible refine Keeps.forEach (fun x st => ?_) ?_
    | with_reducible refine Keeps.foldl_fst (fun acc x => ?_) ?_
    | with_reducible refine Keeps.foldl (fun st x => ?_) ?_
    | split

theorem State.sealStep_keeps {t s : State} (h : Keeps t s) : Keeps t (State.sealStep s) := by
  refine h.trans ?_
  clear h
  unfold State.sealStep
  repeat' first
    | with_reducible exact Keeps.refl _
    | with_reducible assumption
    | with_reducible refine Keeps.of_fst ?_ (by assumption)
    | with_reducible refine Keeps.ite_fst ?_ ?_
    | simp only [Keeps.put]
    | with_reducible refine State.traceSeal_keeps ?_
    | with_reducible refine State.countNote_keeps ?_
    | with_reducible refine State.setMemState_keeps ?_
    | with_reducible refine State.copyGo_keeps ?_
    | with_reducible refine State.vacateFinish_keeps ?_
    | with_reducible refine State.threshold_keeps ?_
    | with_reducible refine Keeps.forEach (fun x st => ?_) ?_
    | with_reducible refine Keeps.foldl_fst (fun acc x => ?_) ?_
    | with_reducible refine Keeps.foldl (fun st x => ?_) ?_
    | split

theorem State.unready_keeps {t s : State} (h : Keeps t s) : Keeps t (State.unready s) := by
  refine h.trans ?_
  clear h
  unfold State.unready
  repeat' first
    | with_reducible exact Keeps.refl _
    | with_reducible assumption
    | with_reducible refine Keeps.of_fst ?_ (by assumption)
    | with_reducible refine Keeps.ite_fst ?_ ?_
    | simp only [Keeps.put]
    | with_reducible refine Keeps.forEach (fun x st => ?_) ?_
    | with_reducible refine Keeps.foldl_fst (fun acc x => ?_) ?_
    | with_reducible refine Keeps.foldl (fun st x => ?_) ?_
    | split

theorem State.withholdSeal_keeps {t s : State} (h : Keeps t s) : Keeps t (State.withholdSeal s) := by
  refine h.trans ?_
  clear h
  unfold State.withholdSeal
  repeat' first
    | with_reducible exact Keeps.refl _
    | with_reducible assumption
    | with_reducible refine Keeps.of_fst ?_ (by assumption)
    | with_reducible refine Keeps.ite_fst ?_ ?_
    | simp only [Keeps.put]
    | with_reducible refine State.countNote_keeps ?_
    | with_reducible refine Keeps.forEach (fun x st => ?_) ?_
    | with_reducible refine Keeps.foldl_fst (fun acc x => ?_) ?_
    | with_reducible refine Keeps.foldl (fun st x => ?_) ?_
    | split

theorem State.trySeal_keeps {t s : State} (h : Keeps t s) : Keeps t (State.trySeal s) := by
  refine h.trans ?_
  clear h
  unfold State.trySeal
  repeat' first
    | with_reducible exact Keeps.refl _
    | with_reducible assumption
    | with_reducible refine Keeps.of_fst ?_ (by assumption)
    | with_reducible refine Keeps.ite_fst ?_ ?_
    | simp only [Keeps.put]
    | with_reducible refine State.unready_keeps ?_
    | with_reducible refine State.noteReady_keeps ?_
    | with_reducible refine State.withholdSeal_keeps ?_
    | with_reducible refine State.delaySeal_keeps ?_
    | with_reducible refine State.sealStep_keeps ?_
    | with_reducible refine Keeps.forEach (fun x st => ?_) ?_
    | with_reducible refine Keeps.foldl_fst (fun acc x => ?_) ?_
    | with_reducible refine Keeps.foldl (fun st x => ?_) ?_
    | split

theorem State.settlePlan_keeps {t s : State} (h : Keeps t s) : Keeps t (State.settlePlan s) := by
  refine h.trans ?_
  clear h
  unfold State.settlePlan
  repeat' first
    | with_reducible exact Keeps.refl _
    | with_reducible assumption
    | with_reducible refine Keeps.of_fst ?_ (by assumption)
    | with_reducible refine Keeps.ite_fst ?_ ?_
    | simp only [Keeps.put]
    | with_reducible refine State.recodePass_keeps ?_
    | with_reducible refine State.issueDue_keeps ?_
    | with_reducible refine State.sendReports_keeps ?_
    | with_reducible refine State.vacateFinish_keeps ?_
    | with_reducible refine State.vacatePass_keeps ?_
    | with_reducible refine State.serveHeldOut_keeps ?_
    | with_reducible refine State.retryPads_keeps ?_
    | with_reducible refine State.drainGo_keeps ?_
    | with_reducible refine State.copyGo_keeps ?_
    | with_reducible refine State.viewOnlyPass_keeps ?_
    | with_reducible refine State.moverPass_keeps ?_
    | with_reducible refine State.retryMoves_keeps ?_
    | with_reducible refine State.markLost_keeps ?_
    | with_reducible refine State.retryDiscards_keeps ?_
    | with_reducible refine State.jobPass_keeps ?_
    | with_reducible refine State.atomicPass_keeps ?_
    | with_reducible refine State.heldPass_keeps ?_
    | with_reducible refine State.repairPass_keeps ?_
    | with_reducible refine State.retryCommits_keeps ?_
    | with_reducible refine State.retryRestore_keeps ?_
    | with_reducible refine State.retryFills_keeps ?_
    | with_reducible refine State.trySeal_keeps ?_
    | with_reducible refine State.auditAgain_keeps ?_
    | with_reducible refine Keeps.forEach (fun x st => ?_) ?_
    | with_reducible refine Keeps.foldl_fst (fun acc x => ?_) ?_
    | with_reducible refine Keeps.foldl (fun st x => ?_) ?_
    | split

theorem State.settleAll_keeps {t s : State} (h : Keeps t s) : Keeps t (State.settleAll s) := by
  refine h.trans ?_
  clear h
  unfold State.settleAll
  repeat' first
    | with_reducible exact Keeps.refl _
    | with_reducible assumption
    | with_reducible refine Keeps.of_fst ?_ (by assumption)
    | with_reducible refine Keeps.ite_fst ?_ ?_
    | simp only [Keeps.put]
    | with_reducible refine State.settlePlan_keeps ?_
    | with_reducible refine Keeps.forEach (fun x st => ?_) ?_
    | with_reducible refine Keeps.foldl_fst (fun acc x => ?_) ?_
    | with_reducible refine Keeps.foldl (fun st x => ?_) ?_
    | split

theorem State.siteEarly_keeps {t s : State} {x0} (h : Keeps t s) : Keeps t (State.siteEarly x0 s) := by
  refine h.trans ?_
  clear h
  unfold State.siteEarly
  repeat' first
    | with_reducible exact Keeps.refl _
    | with_reducible assumption
    | with_reducible refine Keeps.of_fst ?_ (by assumption)
    | with_reducible refine Keeps.ite_fst ?_ ?_
    | simp only [Keeps.put]
    | with_reducible refine State.earlyTurn_keeps ?_
    | with_reducible refine Keeps.forEach (fun x st => ?_) ?_
    | with_reducible refine Keeps.foldl_fst (fun acc x => ?_) ?_
    | with_reducible refine Keeps.foldl (fun st x => ?_) ?_
    | split

theorem State.siteLate_keeps {t s : State} {x0 x1} (h : Keeps t s) : Keeps t (State.siteLate x0 x1 s) := by
  refine h.trans ?_
  clear h
  unfold State.siteLate
  repeat' first
    | with_reducible exact Keeps.refl _
    | with_reducible assumption
    | with_reducible refine Keeps.of_fst ?_ (by assumption)
    | with_reducible refine Keeps.ite_fst ?_ ?_
    | simp only [Keeps.put]
    | with_reducible refine State.sampleTime_keeps ?_
    | with_reducible refine State.landingPass_keeps ?_
    | with_reducible refine State.siteTurn_keeps ?_
    | with_reducible refine Keeps.forEach (fun x st => ?_) ?_
    | with_reducible refine Keeps.foldl_fst (fun acc x => ?_) ?_
    | with_reducible refine Keeps.foldl (fun st x => ?_) ?_
    | split

theorem State.tick_keeps {t s : State} {x0 x1} (h : Keeps t s) : Keeps t (State.tick x0 x1 s) := by
  refine h.trans ?_
  clear h
  unfold State.tick
  repeat' first
    | with_reducible exact Keeps.refl _
    | with_reducible assumption
    | with_reducible refine Keeps.of_fst ?_ (by assumption)
    | with_reducible refine Keeps.ite_fst ?_ ?_
    | simp only [Keeps.put]
    | with_reducible refine State.sampleTime_keeps ?_
    | with_reducible refine State.fencedTick_keeps ?_
    | with_reducible refine State.countNote_keeps ?_
    | with_reducible refine State.earlyTick_keeps ?_
    | with_reducible refine State.fence_keeps ?_
    | with_reducible refine State.threshold_keeps ?_
    | with_reducible refine Keeps.forEach (fun x st => ?_) ?_
    | with_reducible refine Keeps.foldl_fst (fun acc x => ?_) ?_
    | with_reducible refine Keeps.foldl (fun st x => ?_) ?_
    | split

end Sys2Proof.Machine
end

