-- ==== Sys2Proof/Laws/KeepsLocal.lean ====
section
/-! SUPPORT. What the operations of Machine/Local.lean keep (Keeps.lean). -/

set_option linter.unusedSimpArgs false

namespace Sys2Proof.Machine

theorem State.ready_keeps {t s : State} {x0} (hx0 : ∀ {t s}, Keeps t s → Keeps t (x0 s)) (h : Keeps t s) : Keeps t (State.ready x0 s) := by
  refine h.trans ?_
  clear h
  unfold State.ready
  repeat' first
    | with_reducible exact Keeps.refl _
    | with_reducible assumption
    | with_reducible refine Keeps.of_fst ?_ (by assumption)
    | with_reducible refine Keeps.ite_fst ?_ ?_
    | simp only [Keeps.put]
    | with_reducible refine hx0 ?_
    | with_reducible refine Keeps.forEach (fun x st => ?_) ?_
    | with_reducible refine Keeps.foldl_fst (fun acc x => ?_) ?_
    | with_reducible refine Keeps.foldl (fun st x => ?_) ?_
    | split

theorem State.awake_keeps {t s : State} {x0} (hx0 : ∀ {t s}, Keeps t s → Keeps t (x0 s)) (h : Keeps t s) : Keeps t (State.awake x0 s) := by
  refine h.trans ?_
  clear h
  unfold State.awake
  repeat' first
    | with_reducible exact Keeps.refl _
    | with_reducible assumption
    | with_reducible refine Keeps.of_fst ?_ (by assumption)
    | with_reducible refine Keeps.ite_fst ?_ ?_
    | simp only [Keeps.put]
    | with_reducible refine hx0 ?_
    | with_reducible refine Keeps.forEach (fun x st => ?_) ?_
    | with_reducible refine Keeps.foldl_fst (fun acc x => ?_) ?_
    | with_reducible refine Keeps.foldl (fun st x => ?_) ?_
    | split

theorem State.atPort_keeps {t s : State} {x0 x1} (hx1 : ∀ {t s}, Keeps t s → Keeps t (x1 s)) (h : Keeps t s) : Keeps t (State.atPort x0 x1 s) := by
  refine h.trans ?_
  clear h
  unfold State.atPort
  repeat' first
    | with_reducible exact Keeps.refl _
    | with_reducible assumption
    | with_reducible refine Keeps.of_fst ?_ (by assumption)
    | with_reducible refine Keeps.ite_fst ?_ ?_
    | simp only [Keeps.put]
    | with_reducible refine State.ready_keeps (fun hk => ?_) ?_
    | with_reducible refine State.awake_keeps (fun hk => ?_) ?_
    | with_reducible refine hx1 ?_
    | with_reducible refine Keeps.forEach (fun x st => ?_) ?_
    | with_reducible refine Keeps.foldl_fst (fun acc x => ?_) ?_
    | with_reducible refine Keeps.foldl (fun st x => ?_) ?_
    | split

theorem State.begin_keeps {t s : State} {x0} (h : Keeps t s) : Keeps t (State.begin x0 s) := by
  refine h.trans ?_
  clear h
  unfold State.begin
  repeat' first
    | with_reducible exact Keeps.refl _
    | with_reducible assumption
    | with_reducible refine Keeps.of_fst ?_ (by assumption)
    | with_reducible refine Keeps.ite_fst ?_ ?_
    | simp only [Keeps.put]
    | with_reducible refine Keeps.forEach (fun x st => ?_) ?_
    | with_reducible refine Keeps.foldl_fst (fun acc x => ?_) ?_
    | with_reducible refine Keeps.foldl (fun st x => ?_) ?_
    | split

theorem State.cellarPoison_keeps {t s : State} {x0 x1} (h : Keeps t s) : Keeps t (State.cellarPoison x0 x1 s) := by
  refine h.trans ?_
  clear h
  unfold State.cellarPoison
  repeat' first
    | with_reducible exact Keeps.refl _
    | with_reducible assumption
    | with_reducible refine Keeps.of_fst ?_ (by assumption)
    | with_reducible refine Keeps.ite_fst ?_ ?_
    | simp only [Keeps.put]
    | with_reducible refine State.bump_keeps ?_
    | with_reducible refine Keeps.forEach (fun x st => ?_) ?_
    | with_reducible refine Keeps.foldl_fst (fun acc x => ?_) ?_
    | with_reducible refine Keeps.foldl (fun st x => ?_) ?_
    | split

theorem State.decodeResult_keeps {t s : State} {x0} (h : Keeps t s) : Keeps t (State.decodeResult x0 s) := by
  refine h.trans ?_
  clear h
  unfold State.decodeResult
  repeat' first
    | with_reducible exact Keeps.refl _
    | with_reducible assumption
    | with_reducible refine Keeps.of_fst ?_ (by assumption)
    | with_reducible refine Keeps.ite_fst ?_ ?_
    | simp only [Keeps.put]
    | with_reducible refine State.repairGot_keeps ?_
    | with_reducible refine State.hallDecoded_keeps ?_
    | with_reducible refine State.gotOld_keeps ?_
    | with_reducible refine Keeps.forEach (fun x st => ?_) ?_
    | with_reducible refine Keeps.foldl_fst (fun acc x => ?_) ?_
    | with_reducible refine Keeps.foldl (fun st x => ?_) ?_
    | split

theorem State.handle_keeps {t : State} {x0 : HeldMsg → State → State} {x : State × Option HeldMsg}
    (hx0 : ∀ {m t s}, Keeps t s → Keeps t (x0 m s)) (h : Keeps t x.1) : Keeps t (State.handle x0 x) := by
  unfold State.handle
  split
  · exact h
  · exact State.settleAll_keeps (hx0 (State.onAccepted_keeps h))

theorem State.writeEnd_keeps {t s : State} {x0 x1} (h : Keeps t s) : Keeps t (State.writeEnd x0 x1 s) := by
  refine h.trans ?_
  clear h
  unfold State.writeEnd
  repeat' first
    | with_reducible exact Keeps.refl _
    | with_reducible assumption
    | with_reducible refine Keeps.of_fst ?_ (by assumption)
    | with_reducible refine Keeps.ite_fst ?_ ?_
    | simp only [Keeps.put]
    | with_reducible refine State.drainAnswer_keeps ?_
    | with_reducible refine State.moveWritten_keeps ?_
    | with_reducible refine State.moveFailed_keeps ?_
    | with_reducible refine State.jobWritten_keeps ?_
    | with_reducible refine Keeps.forEach (fun x st => ?_) ?_
    | with_reducible refine Keeps.foldl_fst (fun acc x => ?_) ?_
    | with_reducible refine Keeps.foldl (fun st x => ?_) ?_
    | split

theorem State.onWcomp_keeps {t s : State} {x0} (h : Keeps t s) : Keeps t (State.onWcomp x0 s) := by
  refine h.trans ?_
  clear h
  unfold State.onWcomp
  repeat' first
    | with_reducible exact Keeps.refl _
    | with_reducible assumption
    | with_reducible refine Keeps.of_fst ?_ (by assumption)
    | with_reducible refine Keeps.ite_fst ?_ ?_
    | simp only [Keeps.put]
    | with_reducible refine State.writeEnd_keeps ?_
    | with_reducible refine State.freeReq_keeps ?_
    | with_reducible refine Keeps.forEach (fun x st => ?_) ?_
    | with_reducible refine Keeps.foldl_fst (fun acc x => ?_) ?_
    | with_reducible refine Keeps.foldl (fun st x => ?_) ?_
    | split

theorem State.readEnd_keeps {t s : State} {x0 x1} (h : Keeps t s) : Keeps t (State.readEnd x0 x1 s) := by
  refine h.trans ?_
  clear h
  unfold State.readEnd
  repeat' first
    | with_reducible exact Keeps.refl _
    | with_reducible assumption
    | with_reducible refine Keeps.of_fst ?_ (by assumption)
    | with_reducible refine Keeps.ite_fst ?_ ?_
    | simp only [Keeps.put]
    | with_reducible refine State.restoreAnswer_keeps ?_
    | with_reducible refine State.moveRead_keeps ?_
    | with_reducible refine State.moveFailed_keeps ?_
    | with_reducible refine State.jobData_keeps ?_
    | with_reducible refine Keeps.forEach (fun x st => ?_) ?_
    | with_reducible refine Keeps.foldl_fst (fun acc x => ?_) ?_
    | with_reducible refine Keeps.foldl (fun st x => ?_) ?_
    | split

theorem State.onRdata_keeps {t s : State} {x0} (h : Keeps t s) : Keeps t (State.onRdata x0 s) := by
  refine h.trans ?_
  clear h
  unfold State.onRdata
  repeat' first
    | with_reducible exact Keeps.refl _
    | with_reducible assumption
    | with_reducible refine Keeps.of_fst ?_ (by assumption)
    | with_reducible refine Keeps.ite_fst ?_ ?_
    | simp only [Keeps.put]
    | with_reducible refine State.readEnd_keeps ?_
    | with_reducible refine State.freeReq_keeps ?_
    | with_reducible refine State.cellarPoison_keeps ?_
    | with_reducible refine Keeps.forEach (fun x st => ?_) ?_
    | with_reducible refine Keeps.foldl_fst (fun acc x => ?_) ?_
    | with_reducible refine Keeps.foldl (fun st x => ?_) ?_
    | split

theorem State.readAnswer_keeps {t s : State} {x0} (h : Keeps t s) : Keeps t (State.readAnswer x0 s) := by
  refine h.trans ?_
  clear h
  unfold State.readAnswer
  repeat' first
    | with_reducible exact Keeps.refl _
    | with_reducible assumption
    | with_reducible refine Keeps.of_fst ?_ (by assumption)
    | with_reducible refine Keeps.ite_fst ?_ ?_
    | simp only [Keeps.put]
    | with_reducible refine State.bump_keeps ?_
    | with_reducible refine State.freeReq_keeps ?_
    | with_reducible refine State.feedRecomp_keeps ?_
    | with_reducible refine State.feedComp_keeps ?_
    | with_reducible refine State.feedDecode_keeps ?_
    | with_reducible refine State.decodeResult_keeps ?_
    | with_reducible refine Keeps.forEach (fun x st => ?_) ?_
    | with_reducible refine Keeps.foldl_fst (fun acc x => ?_) ?_
    | with_reducible refine Keeps.foldl (fun st x => ?_) ?_
    | split

theorem State.onMessage_keeps {t s : State} {x0} (h : Keeps t s) : Keeps t (State.onMessage x0 s) := by
  refine h.trans ?_
  clear h
  unfold State.onMessage
  repeat' first
    | with_reducible exact Keeps.refl _
    | with_reducible assumption
    | with_reducible refine Keeps.of_fst ?_ (by assumption)
    | with_reducible refine Keeps.ite_fst ?_ ?_
    | simp only [Keeps.put]
    | with_reducible refine State.onWcomp_keeps ?_
    | with_reducible refine State.onRdata_keeps ?_
    | with_reducible refine State.fabricAtomic_keeps ?_
    | with_reducible refine State.onDeltaSet_keeps ?_
    | with_reducible refine State.onDeltaAck_keeps ?_
    | with_reducible refine State.onMirrorPiece_keeps ?_
    | with_reducible refine State.onMirrorAck_keeps ?_
    | with_reducible refine State.onReRequest_keeps ?_
    | with_reducible refine State.onReAnswer_keeps ?_
    | with_reducible refine State.onPlyRead_keeps ?_
    | with_reducible refine State.onStripeRead_keeps ?_
    | with_reducible refine State.readAnswer_keeps ?_
    | with_reducible refine State.onFillSet_keeps ?_
    | with_reducible refine State.onFillAck_keeps ?_
    | with_reducible refine State.onReport_keeps ?_
    | with_reducible refine State.onReportAck_keeps ?_
    | with_reducible refine State.onHello_keeps ?_
    | with_reducible refine State.onHeartbeat_keeps ?_
    | with_reducible refine State.onVote_keeps ?_
    | with_reducible refine State.onEpochRequest_keeps ?_
    | with_reducible refine State.onEpochRecord_keeps ?_
    | with_reducible refine State.onVacate_keeps ?_
    | with_reducible refine State.onVacateAck_keeps ?_
    | with_reducible refine State.onRecoded_keeps ?_
    | with_reducible refine State.onNotice_keeps ?_
    | with_reducible refine State.onOcper_keeps ?_
    | with_reducible refine Keeps.forEach (fun x st => ?_) ?_
    | with_reducible refine Keeps.foldl_fst (fun acc x => ?_) ?_
    | with_reducible refine Keeps.foldl (fun st x => ?_) ?_
    | split

theorem State.receiveLocal_keeps {t s : State} {x0} (h : Keeps t s) : Keeps t (State.receiveLocal x0 s).1 := by
  refine h.trans ?_
  clear h
  unfold State.receiveLocal
  repeat' first
    | with_reducible exact Keeps.refl _
    | with_reducible assumption
    | with_reducible refine Keeps.of_fst ?_ (by assumption)
    | with_reducible refine Keeps.ite_fst ?_ ?_
    | simp only [Keeps.put]
    | with_reducible refine State.discard_keeps ?_
    | with_reducible refine State.authFailure_keeps ?_
    | with_reducible refine State.bump_keeps ?_
    | with_reducible refine Keeps.forEach (fun x st => ?_) ?_
    | with_reducible refine Keeps.foldl_fst (fun acc x => ?_) ?_
    | with_reducible refine Keeps.foldl (fun st x => ?_) ?_
    | split

theorem State.localPass_keeps {t s : State} {x0} (h : Keeps t s) : Keeps t (State.localPass x0 s) := by
  refine h.trans ?_
  clear h
  induction x0 generalizing s
  · unfold State.localPass
    exact Keeps.refl _
  · rename_i k ih
    have ih' : ∀ {t s : State}, Keeps t s → Keeps t (State.localPass k s) := fun h => h.trans (by apply ih)
    clear ih
    unfold State.localPass
    repeat' first
      | with_reducible exact Keeps.refl _
      | with_reducible assumption
      | with_reducible refine Keeps.of_fst ?_ (by assumption)
      | with_reducible refine Keeps.ite_fst ?_ ?_
      | simp only [Keeps.put]
      | with_reducible refine State.handle_keeps (fun hk => ?_) ?_
      | with_reducible refine State.onMessage_keeps ?_
      | with_reducible refine State.receiveLocal_keeps ?_
      | with_reducible refine ih' ?_
      | with_reducible refine Keeps.forEach (fun x st => ?_) ?_
      | with_reducible refine Keeps.foldl_fst (fun acc x => ?_) ?_
      | with_reducible refine Keeps.foldl (fun st x => ?_) ?_
      | split

theorem State.rxPass_keeps {t s : State} {x0} (h : Keeps t s) : Keeps t (State.rxPass x0 s) := by
  refine h.trans ?_
  clear h
  induction x0 generalizing s
  · unfold State.rxPass
    exact Keeps.refl _
  · rename_i k ih
    have ih' : ∀ {t s : State}, Keeps t s → Keeps t (State.rxPass k s) := fun h => h.trans (by apply ih)
    clear ih
    unfold State.rxPass
    repeat' first
      | with_reducible exact Keeps.refl _
      | with_reducible assumption
      | with_reducible refine Keeps.of_fst ?_ (by assumption)
      | with_reducible refine Keeps.ite_fst ?_ ?_
      | simp only [Keeps.put]
      | with_reducible refine State.handle_keeps (fun hk => ?_) ?_
      | with_reducible refine State.onMessage_keeps ?_
      | with_reducible refine State.receive_keeps ?_
      | with_reducible refine ih' ?_
      | with_reducible refine Keeps.forEach (fun x st => ?_) ?_
      | with_reducible refine Keeps.foldl_fst (fun acc x => ?_) ?_
      | with_reducible refine Keeps.foldl (fun st x => ?_) ?_
      | split

theorem State.journalRaise_keeps {t s : State} (h : Keeps t s) : Keeps t (State.journalRaise s) := by
  refine h.trans ?_
  clear h
  unfold State.journalRaise
  repeat' first
    | with_reducible exact Keeps.refl _
    | with_reducible assumption
    | with_reducible refine Keeps.of_fst ?_ (by assumption)
    | with_reducible refine Keeps.ite_fst ?_ ?_
    | simp only [Keeps.put]
    | with_reducible refine State.append_keeps ?_
    | with_reducible refine Keeps.forEach (fun x st => ?_) ?_
    | with_reducible refine Keeps.foldl_fst (fun acc x => ?_) ?_
    | with_reducible refine Keeps.foldl (fun st x => ?_) ?_
    | split

theorem State.finish_keeps {t s : State} (h : Keeps t s) : Keeps t (State.finish s) := by
  refine h.trans ?_
  clear h
  unfold State.finish
  repeat' first
    | with_reducible exact Keeps.refl _
    | with_reducible assumption
    | with_reducible refine Keeps.of_fst ?_ (by assumption)
    | with_reducible refine Keeps.ite_fst ?_ ?_
    | simp only [Keeps.put]
    | with_reducible refine State.localPass_keeps ?_
    | with_reducible refine State.rxPass_keeps ?_
    | with_reducible refine State.loseWrites_keeps ?_
    | with_reducible refine State.compactIfDue_keeps ?_
    | with_reducible refine State.journalIfFull_keeps ?_
    | with_reducible refine State.journalRaise_keeps ?_
    | with_reducible refine State.evictOver_keeps ?_
    | with_reducible refine Keeps.forEach (fun x st => ?_) ?_
    | with_reducible refine Keeps.foldl_fst (fun acc x => ?_) ?_
    | with_reducible refine Keeps.foldl (fun st x => ?_) ?_
    | split

theorem State.fromWay_keeps {t s : State} {x0 x1 x2 x3} (hx3 : ∀ {m t s}, Keeps t s → Keeps t (x3 m s)) (h : Keeps t s) : Keeps t (State.fromWay x0 x1 x2 x3 s) := by
  refine h.trans ?_
  clear h
  unfold State.fromWay
  repeat' first
    | with_reducible exact Keeps.refl _
    | with_reducible assumption
    | with_reducible refine Keeps.of_fst ?_ (by assumption)
    | with_reducible refine Keeps.ite_fst ?_ ?_
    | simp only [Keeps.put]
    | with_reducible refine State.awake_keeps (fun hk => ?_) ?_
    | with_reducible refine State.handle_keeps (fun hk => ?_) ?_
    | with_reducible refine State.receive_keeps ?_
    | with_reducible refine hx3 ?_
    | with_reducible refine Keeps.forEach (fun x st => ?_) ?_
    | with_reducible refine Keeps.foldl_fst (fun acc x => ?_) ?_
    | with_reducible refine Keeps.foldl (fun st x => ?_) ?_
    | split

theorem State.guarded_keeps {t s : State} {x0} (hx0 : ∀ {t s}, Keeps t s → Keeps t (x0 s)) (h : Keeps t s) : Keeps t (State.guarded x0 s) := by
  refine h.trans ?_
  clear h
  unfold State.guarded
  repeat' first
    | with_reducible exact Keeps.refl _
    | with_reducible assumption
    | with_reducible refine Keeps.of_fst ?_ (by assumption)
    | with_reducible refine Keeps.ite_fst ?_ ?_
    | simp only [Keeps.put]
    | with_reducible refine hx0 ?_
    | with_reducible refine Keeps.forEach (fun x st => ?_) ?_
    | with_reducible refine Keeps.foldl_fst (fun acc x => ?_) ?_
    | with_reducible refine Keeps.foldl (fun st x => ?_) ?_
    | split

theorem State.sendAgain_keeps {t s : State} {x0} (h : Keeps t s) : Keeps t (State.sendAgain x0 s) := by
  refine h.trans ?_
  clear h
  unfold State.sendAgain
  repeat' first
    | with_reducible exact Keeps.refl _
    | with_reducible assumption
    | with_reducible refine Keeps.of_fst ?_ (by assumption)
    | with_reducible refine Keeps.ite_fst ?_ ?_
    | simp only [Keeps.put]
    | with_reducible refine State.enqueue_keeps ?_
    | with_reducible refine Keeps.forEach (fun x st => ?_) ?_
    | with_reducible refine Keeps.foldl_fst (fun acc x => ?_) ?_
    | with_reducible refine Keeps.foldl (fun st x => ?_) ?_
    | split

theorem State.requestFails_keeps {t s : State} {x0} (h : Keeps t s) : Keeps t (State.requestFails x0 s) := by
  refine h.trans ?_
  clear h
  unfold State.requestFails
  repeat' first
    | with_reducible exact Keeps.refl _
    | with_reducible assumption
    | with_reducible refine Keeps.of_fst ?_ (by assumption)
    | with_reducible refine Keeps.ite_fst ?_ ?_
    | simp only [Keeps.put]
    | with_reducible refine State.writeEnd_keeps ?_
    | with_reducible refine State.readEnd_keeps ?_
    | with_reducible refine State.sendAgain_keeps ?_
    | with_reducible refine Keeps.forEach (fun x st => ?_) ?_
    | with_reducible refine Keeps.foldl_fst (fun acc x => ?_) ?_
    | with_reducible refine Keeps.foldl (fun st x => ?_) ?_
    | split

theorem State.requestTimeout_keeps {t s : State} {x0 x1} (h : Keeps t s) : Keeps t (State.requestTimeout x0 x1 s) := by
  refine h.trans ?_
  clear h
  unfold State.requestTimeout
  repeat' first
    | with_reducible exact Keeps.refl _
    | with_reducible assumption
    | with_reducible refine Keeps.of_fst ?_ (by assumption)
    | with_reducible refine Keeps.ite_fst ?_ ?_
    | simp only [Keeps.put]
    | with_reducible refine State.requestFails_keeps ?_
    | with_reducible refine State.bump_keeps ?_
    | with_reducible refine State.freeReq_keeps ?_
    | with_reducible refine Keeps.forEach (fun x st => ?_) ?_
    | with_reducible refine Keeps.foldl_fst (fun acc x => ?_) ?_
    | with_reducible refine Keeps.foldl (fun st x => ?_) ?_
    | split

theorem State.runMem_keeps {t s : State} {x0 x1} (hx1 : ∀ {t s}, Keeps t s → Keeps t (x1 s)) (h : Keeps t s) : Keeps t (State.runMem x0 x1 s) := by
  refine h.trans ?_
  clear h
  unfold State.runMem
  repeat' first
    | with_reducible exact Keeps.refl _
    | with_reducible assumption
    | with_reducible refine Keeps.of_fst ?_ (by assumption)
    | with_reducible refine Keeps.ite_fst ?_ ?_
    | simp only [Keeps.put]
    | with_reducible refine State.finish_keeps ?_
    | with_reducible refine State.sramReads_keeps ?_
    | with_reducible refine State.begin_keeps ?_
    | with_reducible refine hx1 ?_
    | with_reducible refine Keeps.forEach (fun x st => ?_) ?_
    | with_reducible refine Keeps.foldl_fst (fun acc x => ?_) ?_
    | with_reducible refine Keeps.foldl (fun st x => ?_) ?_
    | split

theorem State.run_keeps {t s : State} {x0} (hx0 : ∀ {t s}, Keeps t s → Keeps t (x0 s)) (h : Keeps t s) : Keeps t (State.run x0 s) := by
  refine h.trans ?_
  clear h
  unfold State.run
  repeat' first
    | with_reducible exact Keeps.refl _
    | with_reducible assumption
    | with_reducible refine Keeps.of_fst ?_ (by assumption)
    | with_reducible refine Keeps.ite_fst ?_ ?_
    | simp only [Keeps.put]
    | with_reducible refine State.runMem_keeps (fun hk => ?_) ?_
    | with_reducible refine hx0 ?_
    | with_reducible refine Keeps.forEach (fun x st => ?_) ?_
    | with_reducible refine Keeps.foldl_fst (fun acc x => ?_) ?_
    | with_reducible refine Keeps.foldl (fun st x => ?_) ?_
    | split

theorem State.runSettledMem_keeps {t s : State} {x0 x1} (hx1 : ∀ {t s}, Keeps t s → Keeps t (x1 s)) (h : Keeps t s) : Keeps t (State.runSettledMem x0 x1 s) := by
  refine h.trans ?_
  clear h
  unfold State.runSettledMem
  repeat' first
    | with_reducible exact Keeps.refl _
    | with_reducible assumption
    | with_reducible refine Keeps.of_fst ?_ (by assumption)
    | with_reducible refine Keeps.ite_fst ?_ ?_
    | simp only [Keeps.put]
    | with_reducible refine State.runMem_keeps (fun hk => ?_) ?_
    | with_reducible refine State.settleAll_keeps ?_
    | with_reducible refine hx1 ?_
    | with_reducible refine Keeps.forEach (fun x st => ?_) ?_
    | with_reducible refine Keeps.foldl_fst (fun acc x => ?_) ?_
    | with_reducible refine Keeps.foldl (fun st x => ?_) ?_
    | split

theorem State.runSettled_keeps {t s : State} {x0} (hx0 : ∀ {t s}, Keeps t s → Keeps t (x0 s)) (h : Keeps t s) : Keeps t (State.runSettled x0 s) := by
  refine h.trans ?_
  clear h
  unfold State.runSettled
  repeat' first
    | with_reducible exact Keeps.refl _
    | with_reducible assumption
    | with_reducible refine Keeps.of_fst ?_ (by assumption)
    | with_reducible refine Keeps.ite_fst ?_ ?_
    | simp only [Keeps.put]
    | with_reducible refine State.runSettledMem_keeps (fun hk => ?_) ?_
    | with_reducible refine hx0 ?_
    | with_reducible refine Keeps.forEach (fun x st => ?_) ?_
    | with_reducible refine Keeps.foldl_fst (fun acc x => ?_) ?_
    | with_reducible refine Keeps.foldl (fun st x => ?_) ?_
    | split

end Sys2Proof.Machine
end

