-- ==== Sys2Proof/Laws/KeepsExecFabric.lean ====
section
/-! SUPPORT. What the operations of Machine/ExecFabric.lean keep (Keeps.lean). -/

set_option linter.unusedSimpArgs false

namespace Sys2Proof.Machine

theorem State.sampledSet_keeps {t s : State} {x0 x1} (h : Keeps t s) : Keeps t (State.sampledSet x0 x1 s) := by
  refine h.trans ?_
  clear h
  unfold State.sampledSet
  repeat' first
    | with_reducible exact Keeps.refl _
    | with_reducible assumption
    | with_reducible refine Keeps.of_fst ?_ (by assumption)
    | with_reducible refine Keeps.ite_fst ?_ ?_
    | simp only [Keeps.put]
    | with_reducible refine State.trySet_keeps ?_
    | with_reducible refine State.unitFault_keeps ?_
    | with_reducible refine Keeps.forEach (fun x st => ?_) ?_
    | with_reducible refine Keeps.foldl_fst (fun acc x => ?_) ?_
    | with_reducible refine Keeps.foldl (fun st x => ?_) ?_
    | split

end Sys2Proof.Machine
end

