-- ==== Sys2Proof/Laws/KeepsExecDict.lean ====
section
/-! SUPPORT. What the operations of Machine/ExecDict.lean keep (Keeps.lean). -/

set_option linter.unusedSimpArgs false

namespace Sys2Proof.Machine

theorem State.portReadOut_keeps {t s : State} {x0} (h : Keeps t s) : Keeps t (State.portReadOut x0 s) := by
  refine h.trans ?_
  clear h
  unfold State.portReadOut
  repeat' first
    | with_reducible exact Keeps.refl _
    | with_reducible assumption
    | with_reducible refine Keeps.of_fst ?_ (by assumption)
    | with_reducible refine Keeps.ite_fst ?_ ?_
    | simp only [Keeps.put]
    | with_reducible refine State.wordRead_keeps ?_
    | with_reducible refine State.emit_keeps ?_
    | with_reducible refine Keeps.forEach (fun x st => ?_) ?_
    | with_reducible refine Keeps.foldl_fst (fun acc x => ?_) ?_
    | with_reducible refine Keeps.foldl (fun st x => ?_) ?_
    | split

theorem State.valueReadOut_keeps {t s : State} {x0 x1} (h : Keeps t s) : Keeps t (State.valueReadOut x0 x1 s) := by
  refine h.trans ?_
  clear h
  unfold State.valueReadOut
  repeat' first
    | with_reducible exact Keeps.refl _
    | with_reducible assumption
    | with_reducible refine Keeps.of_fst ?_ (by assumption)
    | with_reducible refine Keeps.ite_fst ?_ ?_
    | simp only [Keeps.put]
    | with_reducible refine State.emit_keeps ?_
    | with_reducible refine State.countRetry_keeps ?_
    | with_reducible refine State.noEntry_keeps ?_
    | with_reducible refine State.refuseWrite_keeps ?_
    | with_reducible refine State.afterRead_keeps ?_
    | with_reducible refine Keeps.forEach (fun x st => ?_) ?_
    | with_reducible refine Keeps.foldl_fst (fun acc x => ?_) ?_
    | with_reducible refine Keeps.foldl (fun st x => ?_) ?_
    | split

theorem State.readOut_keeps {t s : State} {x0 x1} (h : Keeps t s) : Keeps t (State.readOut x0 x1 s) := by
  refine h.trans ?_
  clear h
  unfold State.readOut
  repeat' first
    | with_reducible exact Keeps.refl _
    | with_reducible assumption
    | with_reducible refine Keeps.of_fst ?_ (by assumption)
    | with_reducible refine Keeps.ite_fst ?_ ?_
    | simp only [Keeps.put]
    | with_reducible refine State.portReadOut_keeps ?_
    | with_reducible refine State.jtagDict_keeps ?_
    | with_reducible refine State.valueReadOut_keeps ?_
    | with_reducible refine Keeps.forEach (fun x st => ?_) ?_
    | with_reducible refine Keeps.foldl_fst (fun acc x => ?_) ?_
    | with_reducible refine Keeps.foldl (fun st x => ?_) ?_
    | split

end Sys2Proof.Machine
end

