-- ==== Sys2Proof/Laws/Ports.lean ====
section
/-! SUPPORT. What a read on the memory and pantry ways does where every access is answered OK: requests on the output ports, and nothing
else. -/

namespace Sys2Proof.Machine

/-- A state has asked for something: beside more requests on the output ports it is what it was. -/
def Asked (s t : State) : Prop := ∃ o : List Out, t = { s with out := s.out ++ o }

theorem Asked.refl (s : State) : Asked s s := ⟨[], by simp⟩

theorem Asked.trans {s t u : State} (h : Asked s t) (g : Asked t u) : Asked s u := by
  obtain ⟨a, rfl⟩ := h
  obtain ⟨b, rfl⟩ := g
  exact ⟨a ++ b, by simp⟩

theorem Asked.emit (o : Out) (s : State) : Asked s (s.emit o) := ⟨[o], rfl⟩

theorem Asked.forEach {α : Type} {f : α → State → State} (l : List α) (s : State) (hf : ∀ x t, Asked s t → Asked t (f x t)) :
    Asked s (Sys2Proof.Machine.forEach l f s) := by
  suffices h : ∀ t, Asked s t → Asked s (Sys2Proof.Machine.forEach l f t) from h s (.refl s)
  induction l with
  | nil => exact fun t h => h
  | cons x xs ih => exact fun t h => ih _ (h.trans (hf x t h))

theorem Asked.ans {s t : State} (h : Asked s t) : t.ans = s.ans := by obtain ⟨o, rfl⟩ := h; rfl

theorem Asked.hank {s t : State} (h : Asked s t) (k : Nat) : t.hank? k = s.hank? k := by obtain ⟨o, rfl⟩ := h; rfl

/-- Reads that are all answered OK only ask. -/
theorem State.takeMem_clean (blocks : List Nat) (s : State) : Asked s (State.takeMem .clean blocks s) := by
  have hc (l : List Nat) : l.filter (fun b => MemAns.clean.corrected.contains b) = [] := by simp [MemAns.clean]
  have hb (l : List Nat) : l.filter (fun b => MemAns.clean.bad.contains b) = [] := by simp [MemAns.clean]
  simp only [State.takeMem, hc, hb, List.length_nil, if_true, List.isEmpty_nil]
  exact .forEach _ _ (fun _ t _ => .emit _ t)

theorem State.takeLines_clean (lines : List Nat) (s : State) : Asked s (State.takeLines .clean lines s) := by
  have hb (l : List Nat) : l.filter (fun l => MemAns.clean.poisoned.contains l) = [] := by simp [MemAns.clean]
  simp only [State.takeLines, hb, List.isEmpty_nil, if_true]
  exact .forEach _ _ (fun _ t _ => .emit _ t)

theorem State.askKey_clean {s : State} (k : Nat × Bool) (h : s.ans = .clean) : Asked s (State.askKey k s) := by
  unfold State.askKey
  rw [h]
  split
  · exact State.takeLines_clean _ s
  · exact State.takeMem_clean _ s

theorem State.askStripes_clean (r : HankRt) (g : Nat) (xs : List ((Nat × Nat × Nat) × Nat)) (s : State) :
    Asked s (State.askStripes .clean r g xs s) :=
  (State.takeMem_clean _ s).trans (State.takeLines_clean _ _)

theorem State.askGroup_clean (r : HankRt) (g : Nat) (s : State) : Asked s (State.askGroup .clean r g s) :=
  State.askStripes_clean r g _ s

theorem State.askMasters_clean (r : HankRt) (s : State) : Asked s (State.askMasters .clean r s) :=
  .forEach _ _ (fun g t _ => State.askStripes_clean r g _ t)

theorem State.askReserve_clean {s : State} (l : Layout) (pos h g : Nat) (ha : s.ans = .clean) : Asked s (State.askReserve l pos h g s) :=
  .forEach _ _ (fun _ _ ht => State.askKey_clean _ (ht.ans.trans ha))

theorem State.askMap_clean {s : State} (h c p : Nat) (ha : s.ans = .clean) : Asked s (State.askMap h c p s) := by
  unfold State.askMap
  rw [ha]
  split
  · exact State.takeMem_clean _ s
  · exact .refl s

theorem State.askMaps_clean {s : State} (r : HankRt) (q : HallReq) (ha : s.ans = .clean) : Asked s (State.askMaps r q s) := by
  unfold State.askMaps
  split
  · exact .forEach _ _ (fun _ _ ht => State.askMap_clean _ _ _ (ht.ans.trans ha))
  · exact .refl s

theorem State.askPage_clean {s : State} (x : PageRt) (off len : Nat) (ha : s.ans = .clean) : Asked s (State.askPage x off len s) := by
  unfold State.askPage
  simp only [ha]
  split
  · exact State.takeMem_clean _ s
  · split
    · exact State.takeLines_clean _ s
    · exact .refl s

theorem State.offAsk_clean {s : State} (r : HankRt) (o len : Nat) (ha : s.ans = .clean) : Asked s (State.offAsk r o len s) := by
  unfold State.offAsk
  split
  · have h := State.askMap_clean r.hank (s.pageOf o).1 (s.pageOf o).2.1 ha
    exact h.trans (State.askPage_clean _ _ _ (h.ans.trans ha))
  · rw [ha]; exact State.takeMem_clean _ s

/-- The mask of a group whose first copy is good is read there. -/
theorem State.readMask_clean {s : State} (r : HankRt) (g : Nat) (h : s.maskCopyBad r 0 (State.maskStripe g) = false) :
    Asked s (State.readMask r g .clean s) := by
  unfold State.readMask
  split
  · exact .refl s
  · have a := State.takeMem_clean (s.maskBlocks r 0 g) s
    have : (State.takeMem .clean (s.maskBlocks r 0 g) s).maskCopyBad r 0 (State.maskStripe g) = false := by
      obtain ⟨o, e⟩ := a; rw [e]; exact h
    simp only [this, Bool.not_false, if_true]
    exact a

end Sys2Proof.Machine
end

