-- ==== Sys2Proof/Laws/Run.lean ====
section
/-! SUPPORT. What the frame of a command does, and what the shared ways into the block answer: the messages inside the block, the
settle pass, the receive checks, the writes of the dictionary and the hall requests. -/

namespace Sys2Proof.Machine

/-- With no message inside the block the local pass does nothing. -/
theorem State.localPass_idle {k : Nat} {s : State} (h : s.fx.localIn = []) : State.localPass k s = s := by
  cases k with
  | zero => rfl
  | succ k => simp only [State.localPass, h]

/-- Without a plan in effect nothing is left to settle. -/
theorem State.settleAll_idle {s : State} (h : s.planEff = none) : State.settleAll s = s := by simp only [State.settleAll, h]

/-- With no message held back on a way the pass over them does nothing. -/
theorem State.rxPass_idle {k : Nat} {s : State} (h : s.fx.rxHeld = []) : State.rxPass k s = s := by
  cases k with
  | zero => rfl
  | succ k => simp only [State.rxPass, h, List.find?_nil]

/-- With no message inside the block, none held back and none of the table's contexts over, a command ends with what the journal is due. -/
theorem State.finish_idle {s : State} (hl : s.fx.localIn = []) (hh : s.fx.rxHeld = []) (he : State.evictOver s = s)
    (hi : s.fx.incRaised = false) : State.finish s = s.journalIfFull.compactIfDue.loseWrites := by
  simp only [State.finish, State.rxPass_idle hh, State.localPass_idle hl, he, State.journalRaise, hi, Bool.false_eq_true, if_false]

/-- Where no read of internal SRAM finds an error, nothing acts before a command. -/
theorem State.sramReads_clean {s : State} (h : s.ans.sram = []) : State.sramReads s = s := by
  simp only [State.sramReads, h, List.map_nil, List.filter_nil, forEach, List.foldl_nil, ite_self]

/-- The state in which a command begins whose memory accesses are all answered OK. -/
theorem State.begun_clean (s : State) : State.begun .clean s = { s with out := [], ans := .clean } := State.sramReads_clean rfl

theorem State.begin_clean (s : State) : (State.begin .clean s).sramReads = { s with out := [], ans := .clean } :=
  State.sramReads_clean rfl

theorem State.guarded_up {f : State → State} {s : State} (hr : s.sys.lzReset = false) (hf : s.sys.filled = true)
    (hk : s.sys.hk ≠ .recovery) : State.guarded f s = f s := by
  unfold State.guarded
  rw [if_neg]
  simp [hr, hf, hk]

theorem State.awake_low {f : State → State} {s : State} (h : s.sys.lzReset = false) : State.awake f s = f s := by
  simp only [State.awake, h]; rfl

theorem State.awake_high {f : State → State} {s : State} (h : s.sys.lzReset = true) : State.awake f s = s := by
  simp only [State.awake, h]; rfl

theorem State.ready_up {f : State → State} {s : State} (h : s.sys.ready = true) : State.ready f s = f s := by
  simp only [State.ready, h]; rfl

theorem State.ready_down {f : State → State} {s : State} (h : s.sys.ready = false) : State.ready f s = s := by
  simp only [State.ready, h]; rfl

/-- A sample of hall time changes only the time and a counter. -/
theorem State.sampleTime_cases (ht : Nat) (s : State) :
    State.sampleTime ht s = s ∨ State.sampleTime ht s = State.bump 0x50C0 0x06 1 s ∨
      State.sampleTime ht s = { s with time := { base := ht, clocks := 0, valid := true } } := by
  unfold State.sampleTime
  split
  · split
    · exact .inr (.inl rfl)
    · exact .inr (.inr rfl)
  · exact .inl rfl

/-! ## Messages from a way -/

/-- What the receive checks make of a message that fails none of them. -/
theorem State.receive_admitted {typ : Nat} {h : RxHdr} {body : Bytes} {s : State}
    (hc : (s.arrive typ h body).failedCheck typ h body = 0) :
    State.receive typ h body s = ((s.arrive typ h body).takeIn typ h, some (State.heldOf typ h body)) := by
  simp only [State.receive, hc]

/-- A message that is taken in has its own effect, and then what it set free goes on. -/
theorem State.fromWay_admitted {typ : Nat} {h : RxHdr} {body : Bytes} {s : State} {f : HeldMsg → State → State}
    (hr : s.sys.lzReset = false) (hw : s.rxWaits typ h body = false) (hc : (s.arrive typ h body).failedCheck typ h body = 0) :
    State.fromWay typ h body f s = State.settleAll (f (State.heldOf typ h body)
      (State.onAccepted (State.heldOf typ h body) ((s.arrive typ h body).takeIn typ h))) := by
  simp only [State.fromWay, State.awake, hr, hw, State.receive_admitted hc, State.handle, Bool.false_eq_true, if_false]

/-- A message that a check discards does no more than the check does. -/
theorem State.fromWay_discarded {typ : Nat} {h : RxHdr} {body : Bytes} {s t : State} {f : HeldMsg → State → State}
    (hr : s.sys.lzReset = false) (hw : s.rxWaits typ h body = false) (he : State.receive typ h body s = (t, none)) :
    State.fromWay typ h body f s = t := by
  simp only [State.fromWay, State.awake, hr, hw, he, State.handle, Bool.false_eq_true, if_false]

/-- A message whose context is taken waits at its way. -/
theorem State.fromWay_waits {typ : Nat} {h : RxHdr} {body : Bytes} {s : State} {f : HeldMsg → State → State}
    (hr : s.sys.lzReset = false) (hw : s.rxWaits typ h body = true) :
    State.fromWay typ h body f s =
      { s with fx := { s.fx with rxHeld := s.fx.rxHeld ++ [{ typ := typ, hdr := h, body := body }] } } := by
  simp only [State.fromWay, State.awake, hr, hw, Bool.false_eq_true, if_false, if_true]

/-- A command whose message is taken in, where no sample of hall time comes with it. -/
theorem State.run_admitted {c : Instr} {typ : Nat} {h : RxHdr} {body : Bytes} {s : State} {f : HeldMsg → State → State}
    (hm : messageOf c = some (typ, h, body)) (hw : arrival c s = (State.begin (memOf c) s).sramReads) (ha : Admits c s) :
    State.runMem (memOf c) (State.fromWay typ h body f) s = State.finish (State.settleAll (f (messageIn c) (takenIn c s))) := by
  simp only [Admits, hm, hw] at ha
  simp only [messageIn, takenIn, hm, hw]
  exact congrArg State.finish (State.fromWay_admitted (s := (State.begin (memOf c) s).sramReads) ha.1 ha.2.1 ha.2.2)

/-! ## Writes of the dictionary -/

/-- A write that is not served now is answered retry. -/
theorem State.ownWrite_retry {path : Path} {addr : Nat} {v : Val} {s : State}
    (h : s.serves path addr (some (s.carriedValue path addr v)) = false) :
    State.ownWrite path addr v s = State.answerWrite path .retry (State.countRetry path addr true s) := by
  simp only [State.ownWrite, State.gateWrite, h]; rfl

/-- A write whose carried value passes the checks does what its entry says, and is answered by what that comes to. -/
theorem State.ownWrite_applied {path : Path} {addr : Nat} {v w : Val} {s : State} {r : EntryRow}
    (hv : s.carriedValue path addr v = w) (hw : writable path addr v s = true)
    (ha : addr ≠ 0x10FD04) (hr : entry? s.straps.build (addrIdx addr) (addrSub addr) = some r) :
    State.ownWrite path addr v s =
      (let x := State.applyWrite path r (addrIdx addr) (addrSub addr) w s
       if x.2 = 0 then State.answerWrite path .done x.1
       else if x.2 = 7 then State.answerWrite path .retry x.1
       else if x.2 = 9 then x.1
       else State.answerWrite path (.refused x.2) (State.refuseWrite (State.pathNo path) addr x.2 x.1)) := by
  unfold writable at hw
  rw [hr, hv, Bool.and_eq_true, Bool.and_eq_true] at hw
  obtain ⟨⟨-, h1⟩, h2⟩ := hw
  unfold State.ownWrite State.gateWrite State.dictWrite
  rw [hv, if_pos h1, if_neg ha]
  unfold State.writeEntry
  simp only [hr]
  cases hf : s.writeFault path r (addrIdx addr) (addrSub addr) w with
  | some y => simp only [hf] at h2; cases h2
  | none =>
    simp only
    split
    · rfl
    · split
      · rfl
      · split
        · simp only [if_true]
        · rfl

/-- A write that fails a check is refused with its reason. -/
theorem State.writeEntry_refused {path : Path} {addr why : Nat} {v : Val} {s : State} {r : EntryRow}
    (hr : entry? s.straps.build (addrIdx addr) (addrSub addr) = some r)
    (hf : s.writeFault path r (addrIdx addr) (addrSub addr) v = some why) :
    State.writeEntry path addr v s =
      (State.refuseWrite (State.pathNo path) addr why (State.countTwist (addrIdx addr) why s), .refused why) := by
  simp only [State.writeEntry, hr, hf]

/-- A write of an absent entry is counted and answered so. -/
theorem State.writeEntry_absent {path : Path} {addr : Nat} {v : Val} {s : State}
    (hr : entry? s.straps.build (addrIdx addr) (addrSub addr) = none) : State.writeEntry path addr v s = (s.noEntry, .absent) := by
  simp only [State.writeEntry, hr]

/-! ## Requests of the porch -/

/-- A request that the way can take, with a tag that is not open, is served. -/
theorem State.takeHall_served {q : HallReq} {ws : List WBeat} {f : State → State} {s : State} (hr : s.sys.ready = true)
    (ho : s.openOn q < 256) (ht : s.tagOpen q = false) : State.takeHall q ws f s = f s := by
  unfold State.takeHall
  rw [if_neg (by simpa [hr] using ho), if_neg (by simp [ht])]

/-- A request that the way cannot take waits outside: nothing changes. -/
theorem State.takeHall_full {q : HallReq} {ws : List WBeat} {f : State → State} {s : State}
    (h : s.sys.ready = false ∨ 256 ≤ s.openOn q) : State.takeHall q ws f s = s := by
  unfold State.takeHall
  rw [if_pos]
  rcases h with h | h
  · simp [h]
  · simp [h]

end Sys2Proof.Machine
end

