-- ==== Sys2Proof/WellFormed.lean ====
section
/-! DEFINITION. Which terms of `Instr` are commands that can reach the block: an operand list has the length the ports give it,
a path is one that can carry the command, a channel or spindle number exists in the largest build. -/

namespace Sys2Proof

namespace HallReq

/-- A request names one of the 12 channels of the largest build (R33, R331). -/
def wf (q : HallReq) : Bool := q.ch.toNat < 12

end HallReq

namespace Path

/-- A path that can carry a write: JTAG only reads (R368). -/
def writes : Path → Bool
  | .jtag => false
  | _ => true

end Path

namespace UnitFault

/-- A lane or spindle of the largest build (R93, R148). -/
def wf : UnitFault → Bool
  | .lane ch _ => ch.toNat < 12
  | .spindle sp => sp.toNat < 24

end UnitFault

namespace OcperReq

/-- An Ocper frame's body, 16 bytes and its data, fits the length field (Tables 11.1 and 13.10). -/
def wf (q : OcperReq) : Bool := q.data.length + 16 < 2 ^ 32

end OcperReq

/-- A message body fits its length field (Table 11.1). -/
def bodyWf (body : Bytes) : Bool := body.length < 2 ^ 32

namespace Instr

/-- The checks of a command. -/
def wf : Instr → Bool
  | .creditInit _ hdr unit => hdr.length == 3 && unit.length == 3
  | .carderGroupStart _ _ _ faults => faults.all UnitFault.wf
  | .porchPlainRead q _ => q.wf
  | .porchTransposedRead q _ => q.wf
  | .porchMaskedPlainRead q _ => q.wf
  | .porchMaskedTransposedRead q _ => q.wf
  | .whorlWindowRead q _ _ => q.wf
  | .porchWrite q beats _ => q.wf && beats.length == q.len.toNat
  | .porchAtomic q _ _ => q.wf
  | .invalidationAck ch _ _ => ch.toNat < 12
  | .invalidationOverdue ch _ => ch.toNat < 12
  | .memoryResponse ch _ _ _ _ _ _ => ch.toNat < 12
  | .controllerErrorReport ch _ _ _ => ch.toNat < 12
  | .hearthPatrolRead ch _ => ch.toNat < 12
  | .tableBankCopyAgainDone ch _ => ch.toNat < 12
  | .deltaSet _ body fault _ => bodyWf body && fault.all UnitFault.wf
  | .deltaAck _ body _ => bodyWf body
  | .mirrorPiece _ body _ => bodyWf body
  | .mirrorAck _ body _ => bodyWf body
  | .reRequest _ body _ => bodyWf body
  | .reRequestAnswer _ body _ => bodyWf body
  | .plyRead _ body _ => bodyWf body
  | .stripeRead _ body _ => bodyWf body
  | .readAnswer _ body _ => bodyWf body
  | .fillSet _ body _ => bodyWf body
  | .fillAck _ body _ => bodyWf body
  | .adoptionReport _ body _ => bodyWf body
  | .reportAck _ body _ => bodyWf body
  | .wcomp _ body _ _ => bodyWf body
  | .rdata _ body _ => bodyWf body
  | .fabricAtomic _ body _ => bodyWf body
  | .hello _ body _ => bodyWf body
  | .heartbeat _ body _ => bodyWf body
  | .vote _ body _ => bodyWf body
  | .epochRequest _ body _ => bodyWf body
  | .epochRecord _ body _ => bodyWf body
  | .vacate _ body _ => bodyWf body
  | .vacateAck _ body _ => bodyWf body
  | .recoded _ body _ => bodyWf body
  | .recordNotice _ body _ => bodyWf body
  | .ocperRead _ q _ => q.wf
  | .ocperWrite _ q _ => q.wf
  | .ocperBlockRead _ q _ => q.wf
  | .ocperBlockWriteSegment _ q _ => q.wf
  | .ocperBlockApply _ q _ => q.wf
  | .healthPeriod raw _ => raw.length == 24
  | .planLoad path _ => path.writes
  | .epochProposal path _ _ => path.writes
  | .exclusionNotice path _ _ => path.writes
  | .rollcallRequest path _ => path.writes
  | .coreClockWrite path _ => path.writes
  | .tableSetWrite path _ => path.writes
  | .restoreRequest path _ _ => path.writes
  | .contextRestore path _ _ => path.writes
  | .hashProbe path _ _ => path.writes
  | .maskStripeRepair path _ _ => path.writes
  | .lostMaskCopy path _ _ => path.writes
  | .pageDiscard path _ _ => path.writes
  | .replicaCopyStart path _ _ => path.writes
  | .firmwareLoad path _ => path.writes
  | .securityMinimumWrite path _ => path.writes
  | .journalFormat path _ => path.writes
  | .eventAcknowledge path _ _ => path.writes
  | .dictionaryWrite path _ _ _ => path.writes
  | .rcRead _ _ => true
  | .counterBulkRead _ => true
  | .lzReset _ _ => true
  | .sramFillDone _ _ _ => true
  | .journalResponse _ _ => true
  | .hallTimeInvalid _ _ _ => true
  | .tick _ _ _ => true
  | .rollcall _ _ _ _ => true
  | .earlyClose _ _ => true
  | .siteClose _ _ _ => true
  | .viewTrailingPass _ _ => true
  | .initialEncodeStart _ _ => true
  | .adoptedGroupComplete _ _ _ _ faults => faults.all UnitFault.wf
  | .audit _ _ => true
  | .sealDelayExpiry _ _ => true
  | .auditGraceExpiry _ _ => true
  | .pantryResponse _ _ _ _ _ => true
  | .pantryRequestOverdue _ _ => true
  | .stripeRepairStart _ => true
  | .internalPatrolRead _ _ => true
  | .mergeBufferIdle _ => true
  | .creditReturn _ _ _ _ => true
  | .heartbeatPeriod _ _ => true
  | .suspicion _ _ => true
  | .catchUpTimeout _ => true
  | .helloInterval _ _ => true
  | .ackTimeout _ _ _ _ _ => true
  | .requestTimeout _ _ _ => true
  | .watchdogExpiry _ _ => true
  | .trialTimerExpiry _ => true
  | .ocperBufferTimeout _ => true
  | .jutusUnlockExpiry => true
  | .jutusLockoutExpiry => true
  | .eventFrameSend _ _ => true
  | .tableCopyDone => true
  | .offloadJobComplete _ _ _ => true
  | .admissionComplete _ => true
  | .firmwareVerifyDone => true
  | .transferTarget _ => true
  | .transferDataRead => true
  | .transferDataWrite _ => true
  | .transferApply _ _ => true
  | .u64ReadLatch _ => true
  | .jutusHelp => true
  | .jutusVersion => true
  | .jutusRead _ => true
  | .jutusDump _ _ => true
  | .jutusWrite _ _ _ => true
  | .jutusLog _ => true
  | .jutusAck _ _ => true
  | .jutusSensors => true
  | .jutusHealth => true
  | .jutusCounters _ => true
  | .jutusSkein => true
  | .jutusStep => true
  | .jutusFrameTrace _ => true
  | .jutusPlan => true
  | .jutusMasks => true
  | .jutusJournal => true
  | .jutusFirmware => true
  | .jutusChallenge _ => true
  | .jutusUnlock response => response.length == 16
  | .jutusLock => true
  | .jutusBaud _ => true
  | .jtagIdcode => true
  | .jtagDictrd _ => true
  | .jtagMbist _ => true
  | .mbistDone _ _ => true
  | .jtagBypass _ => true
  | .jtagTestLogicReset => true
  | .hallTimeValid _ _ => true

end Instr

end Sys2Proof
end

