-- ==== Sys2Proof/Tests/Slice0.lean ====
section
/-! SUPPORT. Tests: a term that each check of WellFormed refuses, small steps against the manual, and for each statement a state and
operands that meet its hypotheses. -/

namespace Sys2Proof.Tests

open Sys2Proof Sys2Proof.Machine

set_option Elab.async false

/-! ## States for the tests -/

/-- A plan that names job 7 and nothing else. -/
def plan : Plan :=
  { raw := [], digest := 0
    frame := { firstStep := 1, pMin := 0, tRc := 0, ackBound := 0, shareG := 0, shareW := 0, reelBytes := 0, whorlBytes := 0,
               moverBytes := 0, offloadBytes := 0, flags := 0 }
    jobs := [{ tag := 7, household := 0, flags := 0 }], skein := none, descs := [], progs := [], bucket := none, tier := none,
    replica := none }

/-- A block that runs, as node 9, with job 7 pending and node 5 an atomic partner, under a session key. -/
def run : State :=
  { State.reset with
    sys := { lzReset := false, ready := true, hk := .running, npSize := 0, filled := true }
    regs := [(0x110001, 9)], planPend := some plan
    fx := { State.reset.fx with partners := [5], sessionKey := some (zeros 32) } }

/-- The header of a message of a type from node 5 to node 9, without auth field and trailer. -/
def bare (typ request epoch step : Nat) : RxHdr :=
  { way := false, job := 7, epoch := BitVec.ofNat 32 epoch, step := BitVec.ofNat 64 step, source := 5, destination := 9,
    cls := BitVec.ofNat 8 ((msgClass typ).getD 2), flags := 0,
    rsvA := 0, alive := 1, incarnation := 1, request := BitVec.ofNat 16 request, rsvB := 0, auth := 0, trailer := 0 }

/-- The auth field of class 2. -/
def withAuth (typ : Nat) (body : Bytes) (h : RxHdr) : RxHdr :=
  if msgClass typ = some 2 then { h with auth := BitVec.ofNat 128 (authOf (zeros 32) (State.ofHdr typ h body)) } else h

/-- The trailer. -/
def withTrailer (typ : Nat) (body : Bytes) (h : RxHdr) : RxHdr :=
  { h with trailer := BitVec.ofNat 32 (crc32c (State.rxBytes typ h body)) }

/-- A header as `run` accepts it. -/
def hdr (typ request epoch step : Nat) (body : Bytes) : RxHdr :=
  withTrailer typ body (withAuth typ body (bare typ request epoch step))

/-! ## Messages that the receive checks accept -/

/-- The checks but those of the trailer and of the auth field. -/
def takes (typ : Nat) (h : RxHdr) (body : Bytes) (s : State) : Bool :=
  let cls := (msgClass typ).getD 2
  s.sys.ready && !s.malformed typ h body && s.knowsJob h.job.toNat && (s.recvOf h.source.toNat cls).isNone &&
    (cls == 2 || s.pins.contains (h.source.toNat, cls)) && (cls != 1 || (s.openReq h.request.toNat).isSome)

theorem failedCheck_taken {typ : Nat} {h : RxHdr} {body : Bytes} {s : State} (hc : crc32c (State.rxBytes typ h body) = h.trailer.toNat)
    (ha : s.authBad typ h body = false) (ht : takes typ h body s = true) : s.failedCheck typ h body = 0 := by
  unfold takes at ht
  simp only [Bool.and_eq_true, Bool.not_eq_true', Option.isNone_iff_eq_none, beq_iff_eq, Bool.or_eq_true] at ht
  obtain ⟨⟨⟨⟨⟨h1, h2⟩, h3⟩, h4⟩, h6⟩, h7⟩ := ht
  have c6 : ((msgClass typ).getD 2 != 2 && !s.pins.contains (h.source.toNat, (msgClass typ).getD 2)) = false := by
    rcases h6 with h6 | h6
    · simp [h6]
    · rw [h6]; simp
  have c7 : ((msgClass typ).getD 2 == 1 && (s.openReq h.request.toNat).isNone) = false := by
    rcases h7 with h7 | h7
    · simp only [bne_iff_ne, ne_eq] at h7; simp [h7]
    · simp only [Option.isSome_iff_exists] at h7; obtain ⟨x, hx⟩ := h7; simp [hx]
  simp only [State.failedCheck, h1, h2, h3, h4, ha, hc, State.windowStep, c6, c7]
  simp

theorem leNat_lt (b : Bytes) : leNat b < 256 ^ b.length := by
  induction b with
  | nil => decide
  | cons x xs ih =>
    simp only [leNat, List.length_cons, Nat.pow_succ]
    have := x.isLt
    omega

theorem auth_lt (k : Bytes) (m : TxMsg) : authOf k m < 2 ^ 128 := by
  refine Nat.lt_of_lt_of_le (leNat_lt _) ?_
  calc 256 ^ ((hmac256 k (headerBytes m 0 ++ m.body)).take 16).length
      ≤ 256 ^ 16 := Nat.pow_le_pow_right (by decide) (by rw [List.length_take]; exact Nat.min_le_left _ _)
    _ = 2 ^ 128 := by decide

theorem crc_lt (bs : Bytes) : crc32c bs < 2 ^ 32 := by
  have bit_lt (r : Nat) (h : r < 2 ^ 32) : crc32cBit r < 2 ^ 32 := by
    unfold crc32cBit
    split
    · exact Nat.xor_lt_two_pow (by omega) (by decide)
    · omega
  have byte_lt (r : Nat) (x : Byte) (h : r < 2 ^ 32) : crc32cByte r x < 2 ^ 32 := by
    unfold crc32cByte
    have : r ^^^ x.toNat < 2 ^ 32 := Nat.xor_lt_two_pow h (Nat.lt_of_lt_of_le x.isLt (by decide))
    repeat apply bit_lt
    exact this
  have run_lt (l : Bytes) : ∀ r : Nat, r < 2 ^ 32 → l.foldl crc32cByte r < 2 ^ 32 := by
    induction l with
    | nil => intro r h; exact h
    | cons x xs ih => intro r h; exact ih _ (byte_lt r x h)
  exact Nat.xor_lt_two_pow (run_lt bs _ (by decide)) (by decide)

theorem hdr_trailer (typ request epoch step : Nat) (body : Bytes) :
    crc32c (State.rxBytes typ (hdr typ request epoch step body) body) = (hdr typ request epoch step body).trailer.toNat := by
  unfold hdr withTrailer
  rw [BitVec.toNat_ofNat, Nat.mod_eq_of_lt (crc_lt _)]
  rfl

theorem authOf_trailer (k : Bytes) (typ : Nat) (h : RxHdr) (body : Bytes) (a : BitVec 128) (x : BitVec 32) :
    authOf k (State.ofHdr typ { h with auth := a, trailer := x } body) = authOf k (State.ofHdr typ h body) := rfl

theorem hdr_auth {typ request epoch step : Nat} {body : Bytes} {s : State} (hk : s.acceptKeys 7 = [zeros 32]) :
    s.authBad typ (hdr typ request epoch step body) body = false := by
  unfold State.authBad
  by_cases hc : msgClass typ = some 2
  · have hj : (hdr typ request epoch step body).job.toNat = 7 := by unfold hdr withAuth; rw [if_pos hc]; rfl
    have ha : (hdr typ request epoch step body).auth.toNat = authOf (zeros 32) (State.ofHdr typ (hdr typ request epoch step body) body) := by
      unfold hdr withAuth withTrailer
      rw [if_pos hc, authOf_trailer, BitVec.toNat_ofNat, Nat.mod_eq_of_lt (auth_lt _ _)]
      exact (authOf_trailer (zeros 32) typ (bare typ request epoch step) body _ _).symm
    rw [hj, hk, ha]
    simp
  · have : (msgClass typ == some 2) = false := by simp [hc]
    rw [this]; rfl

/-- A message of `hdr` that passes the other checks is taken in. -/
theorem take {c : Instr} (typ request epoch step : Nat) {body : Bytes} {s : State} (hm : messageOf c = some (typ, hdr typ request epoch step body, body))
    (h : (arrival c s).sys.lzReset = false ∧ (arrival c s).rxWaits typ (hdr typ request epoch step body) body = false ∧
      ((arrival c s).arrive typ (hdr typ request epoch step body) body).acceptKeys 7 = [zeros 32] ∧
      takes typ (hdr typ request epoch step body) body ((arrival c s).arrive typ (hdr typ request epoch step body) body) = true) :
    Admits c s := by
  unfold Admits
  rw [hm]
  exact ⟨h.1, h.2.1, failedCheck_taken (hdr_trailer typ request epoch step body) (hdr_auth h.2.2.1) h.2.2.2⟩

/-- A command's message is taken in, and something holds of it and of the state in which its own effect begins. -/
def Taken (c : Instr) (s : State) (P : HeldMsg → State → Prop) : Prop := Admits c s ∧ P (messageIn c) (takenIn c s)

/-! ## A block that codes -/

/-- A descriptor of a class and a count, laid at base 0, of job 7. -/
def desc (cls count : Nat) : Desc :=
  { cls := cls, state := 2, household := 0, job := 0, flags := 0, planes := 0, formats := 0, viewFormat := 0, program := 0, tierPolicy := 0,
    source := 0, rows := 0, cols := 0, count := count, bases := [0, 16, 32, 48, 64], maskA := 0, maskB := 0 }

/-- The two-member layout of hank 1: positions 0 (node 9) and 1 (node 5), one owner slot a band. -/
def layout : Layout :=
  { n := 2, m := 1, position := 0, epoch := 1, plyBase := 1024, members := [(9, 1024), (5, 1024)], hanks := [(1, 3, 0)],
    counts := [[2048], [2048]] }

/-- A site without slots: 0 the final one of hank 1, 1 a remote-bound one, 2 a local one. -/
def site (id flags extent : Nat) : Site :=
  { id := id, stage := 0, kind := 0, width := 0, slots := 0, flags := flags, selfSlot := 0xFF, slotHank := 6, targetHank := 1, nextNode := 5,
    nextSite := 0, nextSlot := 0, first := 0, extent := extent, capacity := 0, cols := 0, pitch := 0, contribs := [] }

/-- The skein section of that layout. -/
def skein : SkeinSec :=
  { skeinId := 4, n := 2, m := 1, position := 0, lintel := 0, epoch := 1, flags := 0, dims := 0, oldPlyBase := 0,
    members := [(9, 1024), (5, 1024)], hanks := [(1, 3, 0)], counts := [[2048], [2048]], neighbours := [], inherits := [], digest := 0 }

/-- Job 7 is the framed job of this plan, which sums at three sites. -/
def framed : Plan :=
  { plan with
    jobs := [{ tag := 7, household := 0, flags := 1 }], skein := some skein
    bucket := some { outboxHank := 0xFFF, mirrorHank := 2, mirrorArea := 1, mirrorIn := 1, sites := [site 0 1 2048, site 1 4 0, site 2 0 0],
                     outbox := [] } }

/-- Hanks: 1 STATE with HI and LO, 2 SCRATCH, 3 SHARED, 4 VIEW of hank 1, 5 OFFLOAD, 6 the slots of the sites. -/
def hanks : List HankRt :=
  [State.freshHank 1 { desc 1 2048 with planes := 3, rows := 32, cols := 64 }, State.freshHank 2 { desc 7 4096 with bases := [128] },
   State.freshHank 3 { desc 5 4096 with bases := [144] },
   State.freshHank 4 { desc 2 2048 with viewFormat := 4, source := 1, rows := 32, cols := 64, bases := [160, 176] },
   State.freshHank 5 { desc 6 8192 with bases := [192] }, State.freshHank 6 { desc 3 32768 with bases := [208] }]

/-- Step 3 of epoch 1 is open at node 9 and its roll-call is seen. -/
def coded : State :=
  { run with
    planPend := none, planEff := some framed, hanks := hanks
    fr := { run.fr with step := 3, opened := true, phase := .update, rcSeen := true, eN := 1 }
    mem := { run.mem with skeinId := 4, epoch := 1, named := 3, lintel := 0, nodes := [9, 5] ++ List.replicate 14 0xFFFF, state := 2 }
    land := { run.land with closed := 1, exclusion := some [] }
    code := { run.code with layout := some layout } }

/-- The state in which a command's effect begins, with every access answered. -/
def b0 (s : State) : State := State.begun .clean s

/-- A hall-way request of channel 0 to a hank. -/
def hall (hank : Nat) : HallReq :=
  { ch := 0, way := 0, op := 0, addr := 0, hank := BitVec.ofNat 12 hank, len := 1, tag := 1, view := 0, acode := 0, die := 0, ext := false,
    cache := false }

/-! ## The hypotheses of the statements can be met: the whole block, reset, the test port and the monitor -/

theorem wit_StepTakesTheFront :
    ({ State.reset with pending := [.jutusHelp] } : State).pending = .jutusHelp :: [] ∧ State.reset.pending = [] := by decide

theorem wit_EveryStepKeepsTheInvariant :
    ∃ t, coded.MemWf ∧ coded.CountersOk ∧ step { coded with pending := [.jutusHelp] } = .next t :=
  ⟨_, by decide +kernel, ⟨by unfold natMapWf; decide +kernel, by decide +kernel⟩, rfl⟩

theorem wit_EveryStepKeepsStrapsAndQueue :
    (∃ t, step { run with pending := [.jutusLock, .jutusHelp] } = .next t) ∧ run.jtag.tap = .reset ∧
    ({ run with jtag := { run.jtag with tap := .idle } } : State).jtag.tap = .idle := ⟨⟨_, rfl⟩, rfl, rfl⟩

theorem wit_EveryCommandCompletes :
    portExists (.porchPlainRead (hall 2) .clean) coded = true ∧ portExists (.hearthPatrolRead 0 .clean) coded = true ∧
    portExists (.hearthPatrolRead 12 .clean) coded = false := by decide +kernel

theorem wit_CountersHoldAtTheLimit : addrOf 0x5000 2 ≠ addrOf 0x5000 1 ∧ addrOf 0x5000 0xFF ≠ addrOf 0x5001 0 := by decide

theorem wit_ResetClearsTheBlock : ({ run.sys with lzReset := true } : SysSt).lzReset = true ∧ run.sys.lzReset = false := by decide

theorem wit_TestPortCaptures :
    let testing : State := { State.reset with jtag := { State.reset.jtag with mbistRunning := true } }
    State.reset.jtag.tap = .reset ∧ State.reset.sys.ready = false ∧ run.sys.lzReset = false ∧ run.sys.ready = true ∧
    testing.jtag.mbistRunning = true ∧ testing.hasRow (0 : BitVec 16).toNat 0 = true ∧ testing.hasRow (0xFFFF : BitVec 16).toNat 0 = false ∧
    ({ run.jtag with mbistDone := true, mbistFail := true } : JtagSt).mbistDone = true := by decide +kernel

theorem wit_JutusReportsOnlyPrint :
    (.jutusHelp, jutusHelpText) ∈ [(Instr.jutusHelp, jutusHelpText)] ∧ run.sys.hk = .running ∧ State.reset.sys.hk ≠ .running := by decide

/-- The monitor is unlocked. -/
def unlocked : State := { run with house := { run.house with jutus := { run.house.jutus with unlocked := true } } }

/-- A reading of a number, and one of bytes. -/
def isNum (x : Option (EntryRow × Val)) : Bool :=
  match x with
  | some (_, .num _) => true
  | _ => false

def isBlob (x : Option (EntryRow × Val)) : Bool :=
  match x with
  | some (_, .blob _) => true
  | _ => false

theorem wit_JutusReadsAndWrites :
    isNum (run.readValue .jutus 0x110001) = true ∧ ((run.readValue .jutus 0x110001).map (fun x => x.1.acc)) ≠ some .rc ∧
    isNum (unlocked.readValue .jutus 0x500001) = true ∧ isBlob (run.readValue .jutus 0x100009) = true ∧
    unlocked.sys.hk = .running ∧ (b0 unlocked).sys.hk = .running ∧ (b0 unlocked).house.jutus.unlocked = true ∧
    writable .jutus 0x309004 (.num 3) (b0 unlocked) = true ∧ (State.dictWrite .jutus 0x309004 (.num 3) (b0 unlocked)).2 = .done ∧
    writable .jutus 0x311002 (.num (9600 : BitVec 32).toNat) unlocked = true ∧ (7 : BitVec 8).toNat < 8 ∧
    (b0 run).house.jutus.unlocked = false ∧ counterIndex 0x5000 = true := by decide +kernel

/-- The monitor has printed a challenge and holds the device key. -/
def challenged : State :=
  { run with house := { run.house with jutus := { run.house.jutus with challenge := some (zeros 16), deviceKey := some (zeros 32) } } }

theorem wit_JutusUnlocksAndLocks :
    run.sys.hk = .running ∧ run.time.valid = true ∧ run.now ≤ (100 : BitVec 64).toNat ∧ challenged.house.jutus.lockedOut = false ∧
    challenged.house.jutus.challenge = some (zeros 16) ∧ challenged.house.jutus.deviceKey = some (zeros 32) ∧
    unlocked.house.jutus.unlocked = true := by decide +kernel

/-! ## The housekeeper -/

theorem wit_HallTimeIsMonotonic :
    run.sys.lzReset = false ∧ (b0 run).now ≤ (0 : BitVec 64).toNat ∧
    (5 : BitVec 64).toNat < (b0 { run with time := { base := 6, clocks := 0, valid := true } }).now ∧ (1 : BitVec 64).toNat ≠ 0 := by
  decide +kernel

/-- A block whose fill is not done yet, with nothing stored. -/
def filling : State := { State.reset with sys := { State.reset.sys with lzReset := false, filled := false } }

/-- The slots as a start finds them, with the lowest security version that the journal names. -/
def slotHolds (s : State) (slot : Nat) : Bool :=
  let seen := (State.begin .clean s).npSeen
  State.slotGood { seen with house := { seen.house with fw := { seen.house.fw with minimum := seen.firmwareRecord.2.2.2 } } } slot

theorem wit_FillDoneWithoutAnImageRecovers :
    filling.sys.lzReset = false ∧ filling.sys.filled = false ∧ filling.house.fw.slots.length = 2 ∧ slotHolds filling 0 = false ∧
    slotHolds filling 1 = false ∧ filling.fx.localIn = [] ∧ filling.fx.rxHeld = [] := by
  decide +kernel

/-- An image stands in slot 0, and the journal is empty. -/
def imaged (image : Bytes) : State := { filling with nv := Memory.write [] 0 image }

theorem imaged_read (b c d : Bytes) : Memory.read (imaged (b ++ c ++ d)).nv b.length c.length = c := by
  have := Memory.read_write (m := []) ⟨.nil, by simp⟩ 0 b c d
  simpa [imaged] using this

/-- An image that verifies, written to a window that is empty, stands in slot 0. -/
theorem slot0_good (s : State) (h body : Bytes) (hl : h.length = 512) (hb : body.length = fld 12 4 h)
    (hd : State.imageDetail 0 h body true = 0) (hn : s.nv = Memory.write [] 0 (h ++ body)) (ha : s.ans.npBad = [])
    (hm : s.house.fw.minimum = 0) : State.slotGood s 0 = true := by
  have hlen : fld 12 4 h ≤ 523776 := Nat.le_of_not_lt fun hc => by
    have : State.imageDetail 0 h body true = 1 := by
      unfold State.imageDetail
      rw [if_pos]
      simp; omega
    omega
  have e1 : Memory.read s.nv 0 512 = h := by
    have := imaged_read [] h body
    rw [hn]; simpa [imaged, hl] using this
  have e2 : Memory.read s.nv 512 (fld 12 4 h) = body := by
    have := imaged_read h body []
    rw [hn]; simpa [imaged, hl, hb] using this
  unfold State.slotGood
  have l0 (ls : List Nat) : s.npLost ls = false := by unfold State.npLost; rw [ha]; simp
  rw [l0, hm]
  show (true && State.imageDetail 0 (Memory.read s.nv 0 512) (Memory.read s.nv 512 (min 523776 (fld 12 4 (Memory.read s.nv 0 512)))) true == 0) = true
  rw [e1, Nat.min_eq_right hlen, e2, hd]
  rfl

/-- The image whose header and body are `h` and `body` verifies under the boot key (log 8): then it stands in slot 0 of a block that
starts, and in slot 1 of one that has loaded it. -/
theorem wit_FillDoneWithoutAnImageRecovers_starts (h body : Bytes) (hl : h.length = 512) (hb : body.length = fld 12 4 h)
    (hd : State.imageDetail 0 h body true = 0) :
    let s := imaged (h ++ body)
    s.sys.lzReset = false ∧ s.sys.filled = false ∧ s.house.fw.slots.length = 2 ∧
    slotHolds s (State.begin .clean s).npSeen.firmwareRecord.1 = true := by
  intro s
  have hlen : fld 12 4 h ≤ 523776 := Nat.le_of_not_lt fun hc => by
    have : State.imageDetail 0 h body true = 1 := by
      unfold State.imageDetail
      rw [if_pos]
      simp; omega
    omega
  have out (x : Nat) (hx : 524288 ≤ x) : Memory.read s.nv x 64 = zeros 64 :=
    Memory.read_write_outside (m := []) ⟨.nil, by simp⟩ 0 x 64 (h ++ body) (by simp; omega)
  have lost (ls : List Nat) : (State.begin .clean s).npSeen.npLost ls = false := by
    show ls.any (fun l => List.contains ([] : List Nat) l) = false
    simp
  have e3 : (State.begin .clean s).npSeen.superblock = none := by
    unfold State.superblock
    simp only [lost, Bool.false_eq_true, if_false]
    show newestSuper (superCopy (Memory.read s.nv _ 64)) (superCopy (Memory.read s.nv _ 64)) = none
    rw [out _ (by decide), out _ (by decide)]
    decide +kernel
  have e4 : (State.begin .clean s).npSeen.firmwareRecord = (0, 1, false, 0) := by
    unfold State.firmwareRecord State.walk
    rw [e3]
    rfl
  refine ⟨rfl, rfl, rfl, ?_⟩
  unfold slotHolds
  simp only [e4]
  exact slot0_good _ h body hl hb hd rfl rfl rfl

/-- A line of the journal, of a kind and record type, which has gone out. -/
def lineOpen (what recType mark : Nat) (again : Bool) : NpReq :=
  { write := true, line := 3, data := zeros 64, what := what, recType := recType, mark := mark, again := again }

def writing (r : NpReq) (opened : Nat) : State :=
  { run with house := { run.house with journal := { run.house.journal with queue := [r], opened := opened } } }

theorem wit_JournalWindowIsWritten :
    (∀ r ∈ [lineOpen 0 0 0 false, lineOpen 1 0x22 1 false, lineOpen 1 0x30 2 false, lineOpen 0 0 0 true],
      (writing r 1).sys.lzReset = false ∧ (writing r 1).house.journal.queue = r :: [] ∧ (writing r 1).house.journal.opened = 0 + 1 ∧
      r.write = true ∧ State.npNext (writing r 1).house.journal = none ∧ State.npNext (writing r 0).house.journal = some r) ∧
    ({ writing (lineOpen 1 0x22 1 false) 1 with sys := { run.sys with hk := .starting, ready := false } } : State).sys.hk ≠ .running ∧
    (1 : BitVec 2) ≠ 0 ∧ run.house.journal.opened = 0 := by decide +kernel

/-- The new image in slot 1 is on trial. -/
def trial : State := { run with house := { run.house with fw := { run.house.fw with trial := some 0 } } }

theorem wit_CoreRestarts :
    (b0 run).sys.lzReset = false ∧ (b0 run).sys.filled = true ∧ (b0 run).sys.hk ≠ .recovery ∧
    ((State.sampleTime 5 (b0 run)).house.fw.watchdogs.filter (fun t =>
      decide ((State.sampleTime 5 (b0 run)).now < t + 10000000000))).length < 2 ∧
    (let s1 := State.sampleTime 5 (b0 { run with house := { run.house with fw := { run.house.fw with
       watchdogs := [0, 1], slots := List.replicate 2 { State.resetSlot with state := 2 } } } })
     2 ≤ (s1.house.fw.watchdogs.filter (fun t => decide (s1.now < t + 10000000000))).length ∧
     (s1.fwSlot (1 - s1.house.fw.inEffect)).state = 2) ∧
    (b0 trial).sys.lzReset = false ∧ (b0 trial).house.fw.trial = some 0 := by decide +kernel

/-- Slot A of a running block holds that image, and slot A is in effect. -/
theorem wit_CoreRestarts_starts (h body : Bytes) (hl : h.length = 512) (hb : body.length = fld 12 4 h)
    (hd : State.imageDetail 0 h body true = 0) :
    let s1 := State.sampleTime 5 (b0 { run with nv := Memory.write [] 0 (h ++ body) })
    s1.house.fw.slots.length = 2 ∧ s1.house.fw.inEffect < 2 ∧ State.slotGood s1.npSeen s1.house.fw.inEffect = true := by
  intro s1
  have k (s : State) : (State.sampleTime 5 s).house = s.house ∧ (State.sampleTime 5 s).nv = s.nv ∧ (State.sampleTime 5 s).ans = s.ans := by
    unfold State.sampleTime
    split
    · split <;> exact ⟨rfl, rfl, rfl⟩
    · exact ⟨rfl, rfl, rfl⟩
  have hh : s1.house = run.house := by rw [(k _).1, b0, State.begun_clean]
  have hn : s1.npSeen.nv = Memory.write [] 0 (h ++ body) := by
    rw [State.npSeen, hh]
    show s1.nv = _
    rw [(k _).2.1, b0, State.begun_clean]
  have ha : s1.npSeen.ans.npBad = [] := by
    rw [State.npSeen, hh]
    show s1.ans.npBad = _
    rw [(k _).2.2, b0, State.begun_clean]
    rfl
  have hm : s1.npSeen.house.fw.minimum = 0 := by
    rw [State.npSeen, hh]
    show s1.house.fw.minimum = _
    rw [hh]
    rfl
  rw [hh]
  exact ⟨rfl, by decide +kernel, slot0_good _ h body hl hb hd hn ha hm⟩

/-- Node 5 has subscribed to line 1, and an event of that line waits for it. -/
def subscriber : Subscriber := { node := 5, mask := 2, job := 7, sent := 0, lastAt := 0 }

def subscribed : State :=
  { run with house := { run.house with
      subscribers := [subscriber]
      events := [{ seq := 1, time := 0, kind := 1, line := 1, acked := false, journaled := false, entry := 0x500001, detail := 0 }] } }

theorem wit_HealthAndEventsAreReported :
    run.sys.ready = true ∧ run.sys.hk = .running ∧ subscribed.house.subscribers[0]? = some subscriber ∧ subscribed.time.valid = true ∧
    subscribed.now ≤ (7 : BitVec 64).toNat ∧
    (subscribed.house.events.filter (fun e => bit subscriber.mask e.line && decide (subscriber.sent < e.seq))).take 32 ≠ [] ∧
    subscriber.lastAt = 0 := by decide +kernel

/-- An image that is not whole has been written to slot 1. -/
def loaded : State := { run with house := { run.house with fw := { run.house.fw with image := some (zeros 600), load := 1 } } }

/-- A whole image, which verifies, has been written to slot 1. -/
theorem wit_FirmwareVerifyStoresOrRefuses_stores (h body : Bytes) (hl : h.length = 512) (hb : body.length = fld 12 4 h)
    (hd : State.imageDetail 0 h body true = 0) :
    let s : State := { run with house := { run.house with fw := { run.house.fw with image := some (h ++ body), load := 1 } } }
    s.sys.lzReset = false ∧ s.sys.hk = .running ∧ ({ s with sys := { s.sys with hk := .recovery } } : State).sys.hk = .recovery ∧
    s.house.fw.image = some (h ++ body) ∧ s.imageOpen = false ∧
    s.house.journal.state ≠ 1 ∧ State.imageDetail s.house.fw.minimum ((h ++ body).take 512) ((h ++ body).drop 512)
      ((h ++ body).length == 512 + fld 12 4 ((h ++ body).take 512)) = 0 := by
  have e : ((h ++ body).length == 512 + fld 12 4 h) = true := by simp [hl, hb]
  have t1 : (h ++ body).take 512 = h := by rw [← hl]; simp
  have t2 : (h ++ body).drop 512 = body := by rw [← hl]; simp
  refine ⟨rfl, rfl, rfl, rfl, rfl, by show run.house.journal.state ≠ 1; decide +kernel, ?_⟩
  rw [t1, t2, e]
  exact hd

/-- The last line of that image goes out, or is read back. -/
def lastLine (write : Bool) (what : Nat) : State :=
  { loaded with house := { loaded.house with journal := { loaded.house.journal with
      queue := [{ lineOpen what 0 0 false with write := write }], opened := 1 } } }

theorem wit_FirmwareVerifyStoresOrRefuses :
    loaded.sys.lzReset = false ∧ loaded.house.fw.image = some (zeros 600) ∧ loaded.imageOpen = false ∧ loaded.house.journal.state ≠ 1 ∧
    State.imageDetail loaded.house.fw.minimum ((zeros 600).take 512) ((zeros 600).drop 512)
      ((zeros 600).length == 512 + fld 12 4 ((zeros 600).take 512)) ≠ 0 ∧
    ({ loaded.house.journal with state := 1 } : JournalSt).state = 1 ∧
    (lastLine true 3).house.journal.queue = [lineOpen 3 0 0 false] ∧ (lastLine true 3).house.journal.opened = 0 + 1 ∧
    (lastLine false 4).house.journal.queue.all (fun r => !r.write && r.data == toLE 64 (0 : BitVec 512).toNat &&
      r.data != toLE 64 (1 : BitVec 512).toNat) = true := by decide +kernel

/-! ## The step frame -/

/-- Step 3 is sealed and step 4 is due. -/
def sealedRun : State := { coded with fr := { coded.fr with phase := .sealed, sealedPin := true } }

def at0 (s : State) : State := State.sampleTime 0 (b0 s)

theorem wit_TicksOpenSteps :
    let lonely : State := { sealedRun with mem := { sealedRun.mem with suspected := 2, lintel := 1 } }
    (b0 sealedRun).sys.ready = true ∧ (at0 sealedRun).fenced = false ∧ (at0 sealedRun).expects 4 = true ∧ (at0 sealedRun).fr.phase ≠ .gather ∧
    (at0 sealedRun).fr.phase ≠ .update ∧ (at0 sealedRun).quorum = true ∧ (at0 sealedRun).expects 3 = false ∧
    (at0 sealedRun).expects 5 = false ∧ (at0 lonely).expects 4 = true ∧ (at0 lonely).quorum = false ∧
    (at0 coded).expects 4 = true ∧ (at0 coded).fr.phase = .update ∧ (at0 coded).fr.held = none ∧
    (b0 State.reset).sys.ready = false ∧ (at0 { coded with mem := { coded.mem with fenceReason := 2 } }).fenced = true ∧
    (at0 coded).planPend = none := by decide +kernel

theorem wit_StepOpensInGather :
    (b0 sealedRun).sys.ready = true ∧ (at0 sealedRun).fenced = false ∧ (at0 sealedRun).expects 4 = true ∧ (at0 sealedRun).fr.phase = .sealed ∧
    (at0 sealedRun).quorum = true := by decide +kernel

theorem wit_RollcallFreezesTheStep :
    let gather : State := { coded with fr := { coded.fr with phase := .gather, rcSeen := false } }
    (b0 gather).sys.lzReset = false ∧ (at0 gather).fr.rcSeen = false ∧ (at0 gather).fr.phase = .gather ∧ (at0 coded).fr.rcSeen = true ∧
    (at0 State.reset).fr.phase ≠ .gather ∧ (b0 run).sys.lzReset = false ∧ (at0 sealedRun).fr.phase ≠ .gather := by
  decide +kernel

theorem wit_SitesClose :
    let gather : State := { coded with fr := { coded.fr with phase := .gather, rcSeen := false } }
    (b0 gather).site? 1 = some (site 1 4 0) ∧ (site 1 4 0).remote = true ∧ (b0 gather).fr.opened = true ∧ (b0 gather).fr.rcSeen = false ∧
    (b0 gather).fr.phase = .gather ∧ bit (b0 gather).land.early 1 = false ∧ (b0 gather).fenced = false ∧ (site 1 4 0).slots = 0 ∧
    (at0 coded).site? 2 = some (site 2 0 0) ∧ (site 2 0 0).remote = false ∧ bit (at0 coded).land.closed 2 = false ∧
    (at0 coded).fenced = false ∧ (at0 coded).leavesResolved (site 2 0 0) = true ∧ (at0 coded).outputsFinal (site 2 0 0) = true := by
  decide +kernel

theorem wit_CarderComputesAReadyGroup :
    let r := hanks.headD (State.freshHank 1 (desc 1 0))
    let s0 := b0 coded
    let s1 := State.countReread (fun x => x.1 == layout.position && x.2.1 == 1 && x.2.2.1 == 0) s0
    let s2 := ((s1.askGroup .clean r 0).takeMem .clean (s1.gradBlocks 1 r.desc.count 0)).readMask r 0 .clean
    s0.hank? 1 = some r ∧ s0.code.layout = some layout ∧ s0.groupReady r 0 = true ∧ s0.groupMoves 1 0 = false ∧
    s0.whorl.badBanks.contains (0 % s0.C) = false ∧ s0.fr.eN ≤ s0.mem.epoch ∧
    s0.bobbinUsed (0 % s0.C) + stripesPerGroup r.desc.planes r.desc.formats ≤ s0.bobbinShare ∧
    (s0.gradient 1 r.desc.count 0).isSome = true ∧ s2.badStripes r 0 = [] ∧ s2.hank? 1 = some r ∧ s2.groupMask r 0 = some none ∧
    (s2.gradient 1 r.desc.count 0).isSome = true ∧ s0.scrub.badBlocks = [] ∧ s0.scrub.badLines = [] ∧
    s0.groupMask r 0 = some none ∧ r.maskBad = [] ∧ coded.hasUnit (.lane 0 3) = true := by
  decide +kernel

/-- The group of hank 1 has been committed in the step and every site is closed. -/
def carded : State := { coded with card := { coded.card with done := [(0, 1, 0)] }, land := { coded.land with closed := 7 } }

theorem wit_TrailingViewIsWritten :
    let s0 := b0 carded
    s0.trailingViews.contains 4 = true ∧ s0.card.trailing.contains 4 = false ∧ s0.fr.opened = true ∧ s0.fr.phase = .update ∧
    s0.fenced = false ∧ s0.loss.frayed = false ∧ groupsOf 2048 = 1 ∧ s0.card.done.contains (s0.myPos, 1, 0) = true ∧
    ∃ r src, s0.hank? 4 = some r ∧ s0.hank? r.desc.source = some src ∧ src.hank = 1 ∧ src.desc.count = 2048 ∧
      (s0.columnView r src false).any (fun x => s0.coherent (State.writePages s0.C x.1) none) = true ∧
      ((State.askMasters .clean src s0).columnView r src false).any
        (fun x => (State.askMasters .clean src s0).coherent (State.writePages s0.C x.1) none) = true :=
  ⟨by decide +kernel, by decide +kernel, rfl, rfl, by decide +kernel, rfl, by decide +kernel, by decide +kernel, _, _, rfl, rfl, rfl,
    by decide +kernel⟩

/-- Hank 1 waits for its initial encode. -/
def encoding : State := coded.updHank 1 (fun r => { r with encodeWait := [0] })

theorem wit_InitialEncodeIsSent :
    ∃ r, (b0 encoding).hank? 1 = some r ∧ (b0 encoding).code.layout = some layout ∧ r.desc.cls = 1 ∧ r.state = 2 ∧ r.encodeSent = false ∧
      r.encodeWait ≠ [] ∧ (b0 encoding).confirmedAll = true ∧ (b0 encoding).fenced = false ∧ (b0 encoding).loss.frayed = false ∧
      (b0 encoding).fr.opened = true ∧ (b0 encoding).tier.padDue.contains 1 = false :=
  ⟨_, rfl, rfl, rfl, rfl, rfl, by decide, by decide +kernel⟩

theorem wit_AdoptedGroupIsTakenUp :
    let a : AdoptRt := { position := 1, hank := 1, group := 0, heir := 0, atStep := none }
    let s : State := b0 { coded with loss := { coded.loss with adopted := [a], lost := 2 } }
    s.adoption 1 1 0 = some a ∧ s.fr.opened = true ∧ s.fr.rcSeen = true ∧ a.heir = s.myPos ∧ s.fenced = false ∧ s.loss.frayed = false ∧
    a.atStep ≠ some (s.compStep a) ∧ s.inflight? 1 1 0 = none ∧ s.underRepair 1 1 0 = false ∧ s.disagrees 1 1 0 = false ∧
    s.loss.comps = [] := by decide +kernel

/-- Position 1 is lost, and its group has been adopted here and completed in step 2; its own site sums nothing for hank 1. -/
def adoption : AdoptRt := { position := 1, hank := 1, group := 0, heir := 0, atStep := some 2 }

def lostMap : BucketMap := { outboxHank := 0xFFF, mirrorHank := 2, mirrorArea := 1, mirrorIn := 1, sites := [site 0 1 2048], outbox := [] }

def lostSec : ReplicaSec :=
  { reserveBase := 2048, drainNode := 0xFFFF, spareOf := 0xFF, drainBase := 0, replicas := [], spares := [], aliases := [],
    peers := [(1, lostMap)] }

def adopting : State :=
  { coded with
    planEff := some { framed with replica := some lostSec }
    loss := { coded.loss with adopted := [adoption], lost := 2, excludedNodes := [(1, 5)] } }

theorem wit_AdoptedGroupIsTakenUp_completes :
    let s := b0 adopting
    s.adoption 1 1 0 = some adoption ∧ s.fr.opened = true ∧ s.fr.rcSeen = true ∧ adoption.heir = s.myPos ∧ s.fenced = false ∧
    s.loss.frayed = false ∧ s.compStep adoption = 3 ∧ adoption.atStep = some (3 - 1) ∧ s.inflight? 1 1 0 = none ∧
    s.underRepair 1 1 0 = false ∧ s.disagrees 1 1 0 = false ∧ s.loss.comps = [] ∧
    s.code.layout = some layout ∧ s.scrub.badBlocks = [] ∧ s.mayRecompute 3 = true ∧
    s.bobbinUsed (0 % s.C) + layout.sOf 1 ≤ s.bobbinShare ∧ s.lostMask ((s.asOf 3).lostDesc layout 1 1) 1 1 0 = some none ∧
    (s.lostCtx 1 3).any (fun c => match s.lostGrad c 1 State.gradFuel 0 2048 with
      | some (gs, [], []) => gs.length == 2048
      | _ => false) = true := by decide +kernel

/-- The audit's work is done: with and without a failing equality, before it and after its grace. -/
def audited : State := { carded with card := { carded.card with trailing := [4] } }
def unbalanced : State := { audited with led := { audited.led with setsSent := 1, auditAt := some 0 }, regs := [(0x110001, 9), (0x260006, 0)] }

theorem wit_AuditAndSeal :
    (b0 audited).sys.ready = true ∧ (at0 audited).auditReady = true ∧ (at0 audited).led.auditState = 0 ∧ (at0 audited).led.auditAt = none ∧
    (at0 audited).auditBits = 0 ∧
    (at0 unbalanced).auditReady = true ∧ (at0 unbalanced).led.auditState = 0 ∧ (at0 unbalanced).led.auditAt.isSome = true ∧
    (at0 unbalanced).graceDone = true ∧ (at0 unbalanced).auditBits ≠ 0 ∧
    (at0 { unbalanced with led := { unbalanced.led with auditAt := none } }).auditBits ≠ 0 := by decide +kernel

theorem wit_AuditAndSeal_seals :
    let u : State := { audited with led := { audited.led with auditState := 1 } }
    let v : State := { u with mem := { u.mem with suspected := 2 }, fr := { u.fr with sealReadyAt := some 0 },
                              time := { base := 2 ^ 40, clocks := 0, valid := true } }
    u.sealReady = true ∧ u.quorum = true ∧ u.noteReady.anySuspected = false ∧ v.sealReady = true ∧ v.quorum = true ∧
    v.noteReady.anySuspected = true ∧ v.noteReady.delayOver = true ∧ (at0 u).settleAll = (at0 u).trySeal ∧ (at0 u).fr.held = none := by
  decide +kernel

theorem wit_TableBanksAreCopied :
    ({ run with whorl := { run.whorl with copyState := 1 } } : State).whorl.copyState = 1 ∧ (0 : BitVec 4).toNat < run.C ∧
    (BitVec.ofNat 4 (run.C - 1)).toNat < run.C ∧ run.C ≤ (BitVec.ofNat 4 run.C).toNat := by decide +kernel

/-- A check job whose block is the first beat after the header. -/
def job : JobRt := { hank := 5, slot := 0, stage := 0, want := [], got := [], result := 0 }

def offloading : State :=
  State.spanWrite 192 128 (toLE 1 2 ++ toLE 1 3 ++ toLE 1 1 ++ [0] ++ toLE 4 128 ++ zeros 8 ++ toLE 4 4)
    { coded with off := { coded.off with jobs := [job] } }

theorem wit_OffloadJobRuns :
    let s0 := b0 offloading
    ∃ r, s0.hank? 5 = some r ∧ s0.job? 5 0 = some job ∧ job.stage = 0 ∧ job.want = [] ∧ s0.offReady r (State.jobOff 0) = true ∧
      let hdr := readJob (s0.offRead r (State.jobOff 0) 128)
      let spans := hdr.sources.flatMap (fun b => State.offPieces (hdr.block b) hdr.len)
      hdr.op = 3 ∧ hdr.len = 128 ∧ spans = [(512, 128)] ∧ s0.contextBusy job hdr = false ∧ s0.offLost r 512 = false ∧
      s0.offTier r 512 ≠ 2 ∧ (State.offAsk r 512 128 s0).offBad r 512 128 = false ∧
      s0.paged r.desc = false ∧ s0.tier.presence = [] ∧ s0.scrub.badBlocks = [] :=
  ⟨_, rfl, by decide +kernel, by decide +kernel, by decide +kernel, by decide +kernel, by decide +kernel⟩

/-! ## The porch, the streams and the memory ways -/

theorem wit_PorchAnswersReads :
    let s0 := b0 coded
    let q := hall 2
    ∃ r, s0.hank? 2 = some r ∧ q.ch.toNat < coded.C ∧ s0.sys.ready = true ∧ s0.openOn q < 256 ∧ s0.tagOpen q = false ∧
      q.op.toNat < 3 ∧ q.view.toNat < 5 ∧ ({ q with op := 2, view := 4 } : HallReq).view.toNat < 5 ∧
      s0.wholeStatus (readAs 0 q) .read = none ∧ q.region ≠ 0x20 ∧ hasRegion r.desc q.region = true ∧
      granted r.desc r.state q.region 0 .read = true ∧ q.caches = false :=
  ⟨_, rfl, by decide +kernel⟩

/-- The four selectors on a masked LIVE STATE hank, whose mask stripe 0 marks nothing and whose elements are zeros. -/
def masked : State := coded.updHank 1 (fun r => { r with desc := { r.desc with flags := 1 } })

theorem wit_PorchAnswersReads_views :
    let q := hall 1
    ∃ r, masked.hank? 1 = some r ∧ r.desc.masked = true ∧ r.desc.cls = 1 ∧ r.state = 2 ∧ q.region = 0 ∧ q.len = 1 ∧ q.caches = false ∧
      masked.scrub.badBlocks = [] ∧ masked.scrub.badLines = [] ∧ masked.scrub.repairs = [] ∧ masked.scrub.tiles = [] ∧ r.maskBad = [] ∧
      q.off < regionSpan r.desc 0 ∧ q.off / 128 < tileBeats r.desc ∧
      ∀ v : BitVec 3, v.toNat ≤ 3 → masked.wholeStatus (readAs v q) .read = none ∧ granted r.desc r.state 0 v.toNat .read = true ∧
        masked.errorsOf r (masked.readCodes r (readAs v q)) = [] :=
  ⟨_, rfl, by decide +kernel, by decide +kernel⟩

/-- The op codes and selectors of the refusals, at the ends of their ranges: at a hank that is there and at one that is not, in a member that
is fenced and in one that is not; and accesses that Table 2.7 does not grant: a hank that is not there, a region it has not, a selector it
does not grant (transposed, to a SCRATCH hank), and a beat that is out of place. -/
theorem wit_PorchAnswersReads_refused :
    let fencedOne : State := { coded with mem := { coded.mem with fenceReason := 2 } }
    let far (region off : Nat) : HallReq := { hall 2 with addr := BitVec.ofNat 48 (region * 2 ^ 40 + off) }
    3 ≤ ({ hall 2 with op := 3 } : HallReq).op.toNat ∧ 3 ≤ ({ hall 2 with op := 7 } : HallReq).op.toNat ∧
    5 ≤ ({ hall 2 with view := 5 } : HallReq).view.toNat ∧ 5 ≤ ({ hall 2 with view := 7 } : HallReq).view.toNat ∧
    ({ hall 2 with op := 2, view := 7 } : HallReq).op.toNat < 3 ∧ (b0 coded).hank? (hall 9).hank.toNat = none ∧
    ∃ r r1, (b0 coded).hank? 2 = some r ∧ (b0 coded).fencedHank r.desc = false ∧ (b0 coded).aliasNamed 2 = none ∧
      hasRegion r.desc (far 5 0).region = false ∧ granted r.desc r.state 0 1 .read = false ∧ (far 0 1).shapeOk = false ∧
      (b0 fencedOne).hank? 1 = some r1 ∧ (b0 fencedOne).fencedHank r1.desc = true :=
  ⟨by decide, by decide, by decide, by decide, by decide, by decide +kernel, _, _, rfl, by decide +kernel, by decide +kernel, by decide +kernel,
    by decide +kernel, by decide +kernel, rfl, by decide +kernel⟩

theorem wit_ScratchBeatReturnsItsBytes :
    let r := State.freshHank 2 { desc 7 4096 with bases := [128] }
    let q := hall 2
    coded.hank? 2 = some r ∧ r.desc.cls = 7 ∧ coded.paged r.desc = false ∧ coded.scrub.badBlocks = [] ∧ 4095 < regionSpan r.desc 0 ∧
    regionSpan r.desc 0 ≤ 4096 ∧ q.ch.toNat < coded.C ∧ coded.sys.ready = true ∧ coded.openOn q < 256 ∧ coded.tagOpen q = false ∧
    q.op = 0 ∧ q.view = 0 ∧ q.region = 0 ∧ q.len = 1 ∧ q.caches = false ∧ coded.wholeStatus (readAs 0 q) .read = none ∧
    granted r.desc r.state 0 0 .read = true ∧ q.off < regionSpan r.desc 0 := by decide +kernel

/-- A hank with the whorl window, and a read of its first beat. -/
def windowed : State := coded.updHank 2 (fun r => { r with desc := { r.desc with flags := 8 } })
def windowRead : HallReq := { hall 2 with addr := BitVec.ofNat 48 (0x20 * 2 ^ 40), view := 4 }

theorem wit_WhorlWindowReturnsWords :
    let s0 := b0 windowed
    windowRead.ch.toNat < windowed.C ∧ s0.sys.ready = true ∧ s0.openOn windowRead < 256 ∧ s0.tagOpen windowRead = false ∧
    s0.wholeStatus (readAs 4 windowRead) .read = none ∧ (s0.hank? windowRead.hank.toNat).isSome = true ∧ windowRead.region = 0x20 ∧
    windowRead.len = 1 ∧ s0.whorl.badBanks = [] ∧ s0.fr.opened = true := by decide +kernel

theorem wit_PorchWriteStoresItsBeat :
    let q := hall 2
    let s0 := b0 coded
    ∃ r, s0.hank? 2 = some r ∧ Memory.wf s0.hearth ∧ q.ch.toNat < coded.C ∧ s0.sys.ready = true ∧ s0.openOn q < 256 ∧ s0.tagOpen q = false ∧
      s0.wholeStatus { q with op := 1 } .write = none ∧ r.desc.cls = 7 ∧ s0.paged r.desc = false ∧ s0.tier.presence = [] ∧
      q.len = 1 ∧ q.region = 0 ∧ q.off % 128 = 0 ∧ q.off < regionSpan r.desc 0 :=
  ⟨_, rfl, by decide +kernel⟩

/-- Four bytes of zeros, enabled. -/
def word : WBeat := { data := 0, be := 0xF }

theorem wit_PorchAtomicReadsAndModifies :
    let s0 := b0 (coded.updHank 3 (fun r => { r with desc := { r.desc with flags := 2 } }))
    let q : HallReq := { hall 3 with op := 2, acode := 7 }
    ∃ r, s0.hank? 3 = some r ∧ ∃ op, State.porchAtomicOp q word = some op ∧ State.atomicOk r op = true ∧
      q.ch.toNat < s0.C ∧ s0.sys.ready = true ∧ s0.openOn q < 256 ∧ s0.tagOpen q = false ∧ r.state = 2 ∧ s0.fencedHank r.desc = false ∧
      s0.paged r.desc = false ∧ s0.tier.presence = [] ∧ s0.scrub.badBlocks = [] ∧ op.off < regionSpan r.desc 0 ∧ MemAns.clean.bad = [] ∧
      (atomicNew op.code op.width r.desc.unordered (leNat (s0.spanRead (r.desc.base 0) op.off op.width)) op.a op.b).isSome = true :=
  ⟨_, rfl, _, rfl, by decide +kernel⟩

/-- An invalidation of channel 1 to die 0 is open: hank 2, region 0, page 3. -/
def sharing : State := { coded with tier := { coded.tier with invOpen := [(1, 0, 2, 0, 3)] } }

theorem wit_InvalidationsAreClosed :
    let find (s : State) (d : BitVec 2) := s.tier.invOpen.find? (fun x => x.1 == (1 : BitVec 4).toNat && x.2.1 == d.toNat)
    find (b0 sharing) 0 = some (1, 0, 2, 0, 3) ∧ find sharing 0 = some (1, 0, 2, 0, 3) ∧ find (b0 sharing) 3 = none ∧
    (1 : BitVec 4).toNat < sharing.C ∧ (b0 sharing).sys.lzReset = false := by
  decide +kernel

/-- A request is open on way 2 of channel 0, of an owner: none, a move, a repair, a home. -/
def memReq (write again : Bool) (owner : List Nat) : MemReq :=
  { ch := 0, way := 2, tag := 1, addr := 0, left := 2, write := write, again := again, owner := owner }

def wayOpen (m : MemReq) : State := b0 { coded with scrub := { coded.scrub with memOpen := [m] } }

theorem wit_MemoryWaysAreMatched :
    let isIt (tag : Nat) (m : MemReq) : Bool := m.ch == (0 : BitVec 4).toNat && m.way == (2 : BitVec 4).toNat && m.tag == tag
    (∀ w ∈ [true, false], ∀ a ∈ [true, false], ∀ o ∈ [[], [0, 1, 0, 0, 0], [1, 0], [3, 0]],
      (wayOpen (memReq w a o)).scrub.memOpen.find? (isIt 1) = some (memReq w a o)) ∧
    (wayOpen (memReq true false [])).scrub.memOpen.find? (isIt 3) = none ∧ (0 : BitVec 4).toNat < coded.C ∧
    (wayOpen (memReq true false [])).sys.lzReset = false ∧ decide (2 ≤ (2 : BitVec 2).toNat) = true ∧ decide (2 ≤ (1 : BitVec 2).toNat) = false ∧
    (b0 coded).inRegions 0 (2 ^ 37) = false ∧ (b0 coded).inRegions 0 (0 : BitVec 38).toNat = true := by decide +kernel

/-- A pantry request is open on way 1. -/
def pantryReq (write : Bool) (owner : List Nat) : PantryReq := { way := 1, tag := 4, line := 9, write := write, owner := owner }
def pantryBusy (m : PantryReq) : State := b0 { coded with scrub := { coded.scrub with pantryOpen := [m] } }

theorem wit_PantryAndRepairsGoOn :
    let isIt (tag : BitVec 12) (x : PantryReq) : Bool := x.way == (1 : BitVec 2).toNat && x.tag == tag.toNat
    (∀ w ∈ [true, false], ∀ o ∈ [[], [9], [9, 9], [0, 1, 0, 0, 0], [1, 0, 0, 0, 0], [3, 0, 0, 0, 0], [0, 1, 0, 0, 0, 1], [1, 0, 0, 0, 0, 1],
        [3, 0, 0, 0, 0, 1]], (pantryBusy (pantryReq w o)).scrub.pantryOpen.find? (isIt 4) = some (pantryReq w o)) ∧
    (pantryBusy (pantryReq true [])).scrub.pantryOpen.find? (isIt 5) = none ∧ (pantryBusy (pantryReq true [])).sys.lzReset = false := by
  decide +kernel

theorem wit_PatrolsReadRows :
    (b0 coded).sys.ready = true ∧ coded.hasRow (0 : BitVec 16).toNat 0 = true ∧ (0 : BitVec 4).toNat < coded.C ∧
    (BitVec.ofNat 4 (coded.C - 1)).toNat < coded.C ∧
    (b0 coded).reg 0x3090 0x04 ≠ 0 ∧ (b0 { coded with regs := [(0x309004, 0)] }).reg 0x3090 0x04 = 0 := by decide +kernel

/-! ## The fabric and the membership -/

theorem wit_MessagesAreChecked :
    let b := zeros 16
    let h := hdr 0x12 0 1 3 b
    let c (x : RxHdr) : Instr := .mirrorPiece x b .clean
    messageOf (c h) = some (0x12, h, b) ∧ portExists (c h) coded = true ∧ coded.sys.lzReset = false ∧ coded.sys.ready = true ∧
    crc32c (State.rxBytes 0x12 h b) = h.trailer.toNat ∧ crc32c (State.rxBytes 0x12 { h with trailer := 0 } b) ≠ (0 : BitVec 32).toNat ∧
    coded.malformed 0x12 h b = true ∧ coded.malformed 0x11 (hdr 0x11 0 1 3 b) b = false ∧ coded.knowsJob 7 = true ∧
    coded.knowsJob 8 = false ∧ coded.pins.contains (5, 1) = true ∧ coded.pins.contains (6, 1) = false ∧ coded.openReq 0 = none := by
  decide +kernel

/-- Orders 6 and 8 of Table 11.6: a message of the incarnation before, and one with a counter seen before. -/
theorem wit_MessagesAreChecked_contexts :
    let x : RxCtx := { node := 5, cls := 0, incarnation := 2, last := 1, map := 0 }
    ahead 16 x.incarnation 1 = true ∧ State.windowStep (some { x with incarnation := 1 }) 5 0 1 1 false = none ∧
    (State.windowStep (some { x with incarnation := 1 }) 5 0 1 2 false).isSome = true := by decide +kernel

/-- Before `lz_ready`, and a message whose context one on its way out holds. -/
theorem wit_MessagesAreChecked_waits :
    let b := zeros 33
    let h := hdr 0x12 0 1 3 b
    let m : TxMsg := { way := 0, typ := 0x12, cls := 0, job := 7, epoch := 1, step := 3, source := 9, destination := 5, flags := 0, alive := 1,
                       incarnation := 1, request := 0, body := b, auth := 0, trailer := 0 }
    let s : State := { coded with fx := { coded.fx with
      sendQ := [{ msg := m, started := true, left := 1, slot := 0, ctx := coded.contextOf false 0 0x12 0 }] } }
    (State.begin .clean s).rxWaits 0x12 h b = true ∧ portExists (.mirrorPiece h b .clean) s = true ∧
    ({ coded with sys := { coded.sys with ready := false } } : State).sys.lzReset = false := by decide +kernel

theorem wit_MessagesAreChecked_auth : coded.authBad 0x31 (hdr 0x31 0 1 3 (zeros 16)) (zeros 16) = false := hdr_auth rfl

/-- The body of a delta set of role 0 for group 0 of member 1, both stripes zero entries. -/
def setBody : Bytes := toLE 2 1 ++ [0, 0, 2, 3, 0, 0] ++ toLE 4 0 ++ toLE 4 0

/-- The slot's tag at the band's holder. -/
def tagged (bits : Nat) : State :=
  { coded with code := { coded.code with tags := [{ hank := 1, band := 0, residue := 0, role := 0, slot := 0, bits := bits }] } }

/-- An earlier epoch, a later one, and the last boundary between them: the epoch in effect with each of the two parities. -/
theorem wit_SetsAreAppliedOnce_epochs :
    (Taken (.deltaSet (hdr 0x10 0 0 3 setBody) setBody [] .clean) coded (fun m t => t.isMember m.source = true ∧
      m.epoch < t.mem.epoch)) ∧
    (Taken (.deltaSet (hdr 0x10 0 2 3 setBody) setBody [] .clean) coded (fun m t => t.isMember m.source = true ∧
      t.mem.epoch < m.epoch ∧ t.fr.step ≤ m.step)) :=
  ⟨⟨take 0x10 0 0 3 rfl (by decide +kernel), by decide +kernel⟩,
   ⟨take 0x10 0 2 3 rfl (by decide +kernel), by decide +kernel⟩⟩

theorem wit_SetsAreAppliedOnce : ∀ bits ∈ [2, 3],
    Taken (.deltaSet (hdr 0x10 0 1 3 setBody) setBody [] .clean) (tagged bits) (fun m t => t.isMember m.source = true ∧
      m.epoch = t.mem.epoch ∧ m.step = t.fr.step ∧ t.code.layout = some layout ∧ t.fenced = false ∧ t.loss.frayed = false ∧
      (t.hank? 1).any (fun r => r.desc.cls == 1 && r.state == 2) = true ∧ fld 4 1 m.body = layout.sOf 1 ∧ fld 2 1 m.body < layout.m ∧
      t.setOwner layout m.source 1 0 0 0 0 = some 1 ∧ t.rightSource 1 m.source 1 0 = true ∧ bit (fld 6 1 m.body) 0 = false ∧
      State.groupPlace layout 1 1 0 = { band := 0, residue := 0, slot := 0, lap := 0 } ∧ t.tag 1 0 0 0 0 = bits ∧ State.tagOf m.step = 3 ∧
      t.plyBad layout 1 0 0 0 = false ∧ t.plyBad layout 1 1 0 0 = false ∧
      t.bandEmpty 1 0 0 0 = false ∧ (List.range 2).all (fun i => !t.plyMoves layout 1 i) = true ∧ coded.hasUnit (.spindle 3) = true) := by
  intro bits hb
  simp only [List.mem_cons, List.not_mem_nil, or_false] at hb
  rcases hb with rfl | rfl
  · exact ⟨take 0x10 0 1 3 rfl (by decide +kernel), by decide +kernel⟩
  · exact ⟨take 0x10 0 1 3 rfl (by decide +kernel), by decide +kernel⟩

/-- A set with other bytes: role, sP and flags (bit 0: an initial encode). -/
def setBodyOf (role sP flags : Nat) : Bytes := toLE 2 1 ++ toLE 1 role ++ [0] ++ toLE 1 sP ++ toLE 1 (2 ^ sP - 1) ++ toLE 1 flags ++ [0] ++ toLE 4 0 ++ toLE 4 0

/-- The other clauses: a step before and a step to come, a fenced member, each of the reasons for code 2, a heir that is not the one, a ply
that moves or is recomputed, an initial encode at a tag that is there and at an empty one, an update at an empty tag. -/
theorem wit_SetsAreAppliedOnce_refusals :
    Taken (.deltaSet (hdr 0x10 0 1 2 setBody) setBody [] .clean) coded (fun m t => m.epoch = t.mem.epoch ∧ m.step < t.fr.step ∧
      t.carried m = false) ∧
    Taken (.deltaSet (hdr 0x10 0 1 4 setBody) setBody [] .clean) coded (fun m t => m.epoch = t.mem.epoch ∧ t.fr.step < m.step) ∧
    Taken (.deltaSet (hdr 0x10 0 1 3 setBody) setBody [] .clean) { coded with mem := { coded.mem with fenceReason := 2 } } (fun _ t =>
      t.fenced = true) ∧
    Taken (.deltaSet (hdr 0x10 0 1 3 setBody) setBody [] .clean) (coded.updHank 1 (fun r => { r with state := 1 })) (fun m t =>
      m.step = t.fr.step ∧ (t.hank? 1).all (fun r => r.state != 2) = true) ∧
    Taken (.deltaSet (hdr 0x10 0 1 3 (setBodyOf 0 3 0)) (setBodyOf 0 3 0) [] .clean) coded (fun m _ => fld 4 1 m.body ≠ layout.sOf 1) ∧
    Taken (.deltaSet (hdr 0x10 0 1 3 (setBodyOf 1 2 0)) (setBodyOf 1 2 0) [] .clean) coded (fun m _ => layout.m ≤ fld 2 1 m.body) :=
  ⟨⟨take 0x10 0 1 2 rfl (by decide +kernel), by decide +kernel⟩, ⟨take 0x10 0 1 4 rfl (by decide +kernel), by decide +kernel⟩,
   ⟨take 0x10 0 1 3 rfl (by decide +kernel), by decide +kernel⟩, ⟨take 0x10 0 1 3 rfl (by decide +kernel), by decide +kernel⟩,
   ⟨take 0x10 0 1 3 rfl (by decide +kernel), by decide +kernel⟩, ⟨take 0x10 0 1 3 rfl (by decide +kernel), by decide +kernel⟩⟩

theorem wit_SetsAreAppliedOnce_tags :
    Taken (.deltaSet (hdr 0x10 0 1 3 setBody) setBody [] .clean) { tagged 2 with loss := { coded.loss with lost := 2 } } (fun m t =>
      t.isMember m.source = true ∧ t.setOwner layout m.source 1 0 0 0 0 = some 1 ∧ t.rightSource 1 m.source 1 0 = false) ∧
    Taken (.deltaSet (hdr 0x10 0 1 3 setBody) setBody [] .clean) { tagged 2 with tier := { coded.tier with
      homeMvs := [{ hank := 1, ply := true, index := 0, reads := 0, writes := 0, bytes := [] }] } } (fun _ t =>
      t.plyMoves layout 1 0 = true) ∧
    Taken (.deltaSet (hdr 0x10 0 1 3 setBody) setBody [] .clean) (tagged 1) (fun _ t => t.tag 1 0 0 0 0 = 1) ∧
    Taken (.deltaSet (hdr 0x10 0 1 3 setBody) setBody [] .clean) coded (fun m t => bit (fld 6 1 m.body) 0 = false ∧ t.tag 1 0 0 0 0 = 0) ∧
    Taken (.deltaSet (hdr 0x10 0 1 3 (setBodyOf 0 2 1)) (setBodyOf 0 2 1) [] .clean) (tagged 3) (fun m t =>
      bit (fld 6 1 m.body) 0 = true ∧ t.tag 1 0 0 0 0 = 3) ∧
    Taken (.deltaSet (hdr 0x10 0 1 3 (setBodyOf 0 2 1)) (setBodyOf 0 2 1) [] .clean) coded (fun m t => bit (fld 6 1 m.body) 0 = true ∧
      t.tag 1 0 0 0 0 = 0 ∧ t.bandEmpty 1 0 0 0 = true) :=
  ⟨⟨take 0x10 0 1 3 rfl (by decide +kernel), by decide +kernel⟩, ⟨take 0x10 0 1 3 rfl (by decide +kernel), by decide +kernel⟩,
   ⟨take 0x10 0 1 3 rfl (by decide +kernel), by decide +kernel⟩, ⟨take 0x10 0 1 3 rfl (by decide +kernel), by decide +kernel⟩,
   ⟨take 0x10 0 1 3 rfl (by decide +kernel), by decide +kernel⟩, ⟨take 0x10 0 1 3 rfl (by decide +kernel), by decide +kernel⟩⟩

/-- A request to node 5, and a block in which it alone is open. -/
def req (typ : Nat) (key : List Nat) (body : Bytes) : ReqRt :=
  { engine := 0, entry := 0, gen := 0, feature := 0, dest := 5, typ := typ, way := 0, alt := false, step := 3, body := body, key := key }

def asked (typ : Nat) (key : List Nat) (body : Bytes) : State :=
  { coded with fx := { coded.fx with reqs := [req typ key body] } }

/-- Group 0 of hank 1 is in flight, its set open. -/
def inflight : GroupRt :=
  { position := 0, hank := 1, group := 0, step := 3, encode := false, old := [], new := [], views := [],
    sets := [{ role := 0, dest := 5, acked := false, timedOut := false }] }

def sent : State :=
  { asked 0x10 (State.setKey inflight 0) setBody with card := { coded.card with inflight := [inflight] } }

/-- The acknowledgement of that set with a code, and one that repeats another hank. -/
def ackBody (hank code : Nat) : Bytes := toLE 2 hank ++ [0] ++ toLE 1 code ++ toLE 4 0 ++ zeros 8

theorem wit_AcknowledgementsCommit :
    (Taken (.deltaAck (hdr 0x11 0 1 3 (ackBody 1 0)) (ackBody 1 0) .clean) sent (fun m t => ∃ r, t.openReq m.request = some r ∧
      r.typ = 0x10 ∧ fld 0 2 m.body = fld 0 2 r.body ∧ fld 2 1 m.body = fld 2 1 r.body ∧ fld 4 4 m.body = fld 8 4 r.body ∧
      fld 3 1 m.body < 2 ∧ t.card.inflight.find? (fun x => State.setKey x (natAt r.key 2) == r.key) = some inflight)) ∧
    (Taken (.deltaAck (hdr 0x11 0 1 3 (ackBody 1 2)) (ackBody 1 2) .clean) sent (fun m t => ∃ r, t.openReq m.request = some r ∧
      2 ≤ fld 3 1 m.body)) ∧
    (Taken (.deltaAck (hdr 0x11 0 1 3 (ackBody 2 0)) (ackBody 2 0) .clean) sent (fun m t => ∃ r, t.openReq m.request = some r ∧
      fld 0 2 m.body ≠ fld 0 2 r.body)) :=
  ⟨⟨take 0x11 0 1 3 rfl (by decide +kernel), req 0x10 (State.setKey inflight 0) setBody, by decide +kernel⟩,
   ⟨take 0x11 0 1 3 rfl (by decide +kernel), req 0x10 (State.setKey inflight 0) setBody, by decide +kernel⟩,
   ⟨take 0x11 0 1 3 rfl (by decide +kernel), req 0x10 (State.setKey inflight 0) setBody, by decide +kernel⟩⟩

/-- A mirror piece of one byte at a sequence number; the area has one place. -/
def pieceBody (seq : Nat) : Bytes := [0, 0] ++ toLE 2 1 ++ toLE 4 0 ++ toLE 4 seq ++ zeros 20 ++ [9]

theorem wit_LandingMessagesAreServed : ∀ q ∈ [0, 1],
    Taken (.mirrorPiece (hdr 0x12 0 1 3 (pieceBody q)) (pieceBody q) .clean) coded (fun m t => ∃ bm, t.senderPos m.source = some 1 ∧
      t.bucketMap = some bm ∧ m.step = t.fr.step ∧ t.fr.opened = true ∧ t.fenced = false ∧ bm.mirrorArea = 1 ∧ fld 8 4 m.body = q) := by
  intro q hq
  simp only [List.mem_cons, List.not_mem_nil, or_false] at hq
  rcases hq with rfl | rfl
  · exact ⟨take 0x12 0 1 3 rfl (by decide +kernel), _, by decide +kernel, rfl, by decide +kernel⟩
  · exact ⟨take 0x12 0 1 3 rfl (by decide +kernel), _, by decide +kernel, rfl, by decide +kernel⟩

theorem wit_LandingMessagesAreServed_answers :
    (Taken (.mirrorAck (hdr 0x13 0 1 3 (zeros 16)) (zeros 16) .clean) (asked 0x12 [] []) (fun m t => ∃ r, t.openReq m.request = some r)) ∧
    (Taken (.reRequest (hdr 0x14 0 1 2 (zeros 16)) (zeros 16) .clean) coded (fun m t => m.step ≠ t.fr.step ∧
      t.lostSiteOf m = none)) ∧
    (Taken (.reRequestAnswer (hdr 0x15 0 1 3 (zeros 137)) (zeros 137) .clean) (asked 0x14 [3, 9, 0, 0, 1, 0] []) (fun m t =>
      ∃ r, t.openReq m.request = some r ∧ r.typ = 0x14 ∧ r.key = [3, 9, 0, 0, 1, 0] ∧ fld 0 1 m.body = 0 ∧ (m.body.drop 136).length = 1)) ∧
    (Taken (.reRequestAnswer (hdr 0x15 0 1 3 (1 :: zeros 7)) (1 :: zeros 7) .clean) (asked 0x14 [3, 9, 0, 0, 1, 0] []) (fun m t =>
      ∃ r, t.openReq m.request = some r ∧ fld 0 1 m.body ≠ 0)) :=
  ⟨⟨take 0x13 0 1 3 rfl (by decide +kernel), req 0x12 [] [], by decide +kernel⟩,
   ⟨take 0x14 0 1 2 rfl (by decide +kernel), by decide +kernel⟩,
   ⟨take 0x15 0 1 3 rfl (by decide +kernel), req 0x14 [3, 9, 0, 0, 1, 0] [], by decide +kernel⟩,
   ⟨take 0x15 0 1 3 rfl (by decide +kernel), req 0x14 [3, 9, 0, 0, 1, 0] [], by decide +kernel⟩⟩

/-- The final output of site 0 of lost position 1 goes to slot 0 of site 4 of node 9; the notice that names this member's node as its heir
has come, or has not. -/
def lostOut (known : Bool) : State :=
  let o : Outbox := { destNode := 9, destSite := 4, destSlot := 0, kind := 1, localSite := 0, offset := 0, bytes := 0 }
  let n : Notice := { epoch := 1, entries := [(5, 9)] }
  { adopting with
    planEff := some { framed with replica := some { lostSec with peers := [(1, { lostMap with outbox := [o] })] } }
    loss := if known then adopting.loss else coded.loss
    land := { coded.land with notices := if known then [n] else [] } }

/-- A re-request for that output, one that names no site, an answer of another length, a piece of no contributor. -/
def askOut : Bytes := toLE 2 9 ++ [4, 0] ++ zeros 12

theorem wit_LandingMessagesAreServed_lost :
    Taken (.reRequest (hdr 0x14 0 1 3 askOut) askOut .clean) (lostOut true) (fun m t => m.step = t.fr.step ∧ t.fr.opened = true ∧
      t.fenced = false ∧ (t.lostSiteOf m).isSome = true) ∧
    Taken (.reRequest (hdr 0x14 0 1 3 askOut) askOut .clean) (lostOut false) (fun m t => m.step = t.fr.step ∧ t.fr.opened = true ∧
      t.fenced = false ∧ t.lostSiteOf m = none ∧ t.maySiteOf m = true) ∧
    Taken (.reRequest (hdr 0x14 0 1 3 (zeros 16)) (zeros 16) .clean) coded (fun m t => m.step = t.fr.step ∧ t.fr.opened = true ∧
      t.fenced = false ∧ t.lostSiteOf m = none ∧ t.maySiteOf m = false) ∧
    Taken (.reRequestAnswer (hdr 0x15 0 1 3 (zeros 138)) (zeros 138) .clean) (asked 0x14 [3, 9, 0, 0, 1, 0] []) (fun m t =>
      (t.openReq m.request).isSome = true ∧ fld 0 1 m.body = 0 ∧ (m.body.drop 136).length ≠ 1) ∧
    Taken (.mirrorPiece (hdr 0x12 0 1 3 (pieceBody 0)) (pieceBody 0) .clean) { coded with planEff := some { framed with bucket := none } }
      (fun _ t => t.bucketMap = none) :=
  ⟨⟨take 0x14 0 1 3 rfl (by decide +kernel), by decide +kernel⟩, ⟨take 0x14 0 1 3 rfl (by decide +kernel), by decide +kernel⟩,
   ⟨take 0x14 0 1 3 rfl (by decide +kernel), by decide +kernel⟩, ⟨take 0x15 0 1 3 rfl (by decide +kernel), by decide +kernel⟩,
   ⟨take 0x12 0 1 3 rfl (by decide +kernel), by decide +kernel⟩⟩

/-- A ply read of role 0 of residue 0 (held here) or 1 (held at node 5), lap 0 of hank 1; a stripe read of p 0 of group 0. -/
def plyBody (x : Nat) : Bytes := toLE 2 1 ++ [0] ++ toLE 1 x ++ toLE 4 0

theorem wit_CodedReadsAreAnswered :
    (Taken (.plyRead (hdr 0x16 0 1 3 (plyBody 0)) (plyBody 0) .clean) coded (fun m t => m.epoch ≤ t.mem.epoch ∧ t.fenced = false ∧
      t.code.oldLayout = none ∧ t.code.layout = some layout ∧ layout.bandOfLap 0 = some (1, 0, 0) ∧ t.pliesHeld 1 = true ∧
      t.roleHolder layout 1 0 0 0 = layout.position ∧ t.readOld m = false ∧ t.bandEmpty 1 0 0 0 = true)) ∧
    (Taken (.plyRead (hdr 0x16 0 1 3 (plyBody 0)) (plyBody 0) .clean) (tagged 2) (fun _ t => t.bandEmpty 1 0 0 0 = false ∧
      (t.askPlyStripe layout 1 0 0 0).plyBad layout 1 0 0 0 = false)) ∧
    (Taken (.plyRead (hdr 0x16 0 1 3 (plyBody 1)) (plyBody 1) .clean) coded (fun m t => m.epoch ≤ t.mem.epoch ∧ t.fenced = false ∧
      t.roleHolder layout 1 0 1 0 ≠ layout.position)) ∧
    (Taken (.plyRead (hdr 0x16 0 2 3 (plyBody 0)) (plyBody 0) .clean) coded (fun m t => t.mem.epoch < m.epoch ∧ t.fenced = false)) ∧
    (Taken (.stripeRead (hdr 0x17 0 1 3 (plyBody 0)) (plyBody 0) .clean) { coded with mem := { coded.mem with fenceReason := 2 } } (fun _ t =>
      t.fenced = true)) ∧
    (Taken (.stripeRead (hdr 0x17 0 1 3 (plyBody 0)) (plyBody 0) .clean) coded (fun m t => m.epoch ≤ t.mem.epoch ∧
      t.fenced = false ∧ t.readOwners layout 1 0 = [0])) ∧
    (∀ k ∈ [1, 2, 3], Taken (.readAnswer (hdr 0x18 0 1 3 (2 :: zeros 7)) (2 :: zeros 7) .clean) (asked 0x16 [k, 1, 0, 0, 0, 0, 0] []) (fun m t =>
      ∃ r, t.openReq m.request = some r ∧ r.typ = 0x16 ∧ r.key.headD 0 = k ∧
      t.isMember m.source = true)) := by
  refine ⟨⟨take 0x16 0 1 3 rfl (by decide +kernel), by decide +kernel⟩,
   ⟨take 0x16 0 1 3 rfl (by decide +kernel), by decide +kernel⟩,
   ⟨take 0x16 0 1 3 rfl (by decide +kernel), by decide +kernel⟩,
   ⟨take 0x16 0 2 3 rfl (by decide +kernel), by decide +kernel⟩,
   ⟨take 0x17 0 1 3 rfl (by decide +kernel), by decide +kernel⟩,
   ⟨take 0x17 0 1 3 rfl (by decide +kernel), by decide +kernel⟩, ?_⟩
  intro k hk
  simp only [List.mem_cons, List.not_mem_nil, or_false] at hk
  rcases hk with rfl | rfl | rfl
  · exact ⟨take 0x18 0 1 3 rfl (by decide +kernel), req 0x16 [1, 1, 0, 0, 0, 0, 0] [], by decide +kernel⟩
  · exact ⟨take 0x18 0 1 3 rfl (by decide +kernel), req 0x16 [2, 1, 0, 0, 0, 0, 0] [], by decide +kernel⟩
  · exact ⟨take 0x18 0 1 3 rfl (by decide +kernel), req 0x16 [3, 1, 0, 0, 0, 0, 0] [], by decide +kernel⟩

/-- The epoch names node 5 no more, though the plan does. -/
def without5 (s : State) : State := { s with mem := { s.mem with named := 1, nodes := [9] ++ List.replicate 15 0xFFFF } }

theorem wit_CodedReadsAreAnswered_outside :
    Taken (.readAnswer (hdr 0x18 0 1 3 (2 :: zeros 7)) (2 :: zeros 7) .clean) (without5 (asked 0x16 [1, 1, 0, 0, 0, 0, 0] []))
      (fun m t => t.isMember m.source = false) ∧
    Taken (.deltaSet (hdr 0x10 0 1 3 setBody) setBody [] .clean) (without5 coded) (fun m t => t.isMember m.source = false) :=
  ⟨⟨take 0x18 0 1 3 rfl (by decide +kernel), by decide +kernel⟩, ⟨take 0x10 0 1 3 rfl (by decide +kernel), by decide +kernel⟩⟩

/-- Hank 1 is loading at position 0. -/
def loading : State := coded.updHank 1 (fun r => { r with state := 1 })

/-- A fill set of two stripes for a position, of kind 2 (an evacuation). -/
@[irreducible] def fillBody (pos : Nat) : Bytes := toLE 2 1 ++ toLE 1 pos ++ [2] ++ toLE 4 0 ++ [2] ++ zeros 7 ++ zeros 8192

/-- A fill acknowledgement with a code. -/
def fillAckBody (code : Nat) : Bytes := toLE 2 1 ++ toLE 1 code ++ [0] ++ toLE 4 0 ++ toLE 8 3

theorem wit_FillsAndReportsAreTaken :
    (∀ p ∈ [0, 1], Taken (.fillSet (hdr 0x19 0 1 3 (fillBody p)) (fillBody p) .clean) loading (fun m t => (t.hank? 1).any (fun r =>
      r.desc.cls == 1 && r.state == 1 && fld 3 1 m.body == stripesPerGroup r.desc.planes r.desc.formats) = true ∧
      t.spareOf ≠ 1 ∧ fld 8 1 m.body = 2 ∧ t.myPos = 0 ∧ fld 2 1 m.body = p ∧ t.fenced = false ∧
      t.coherent (spanPages t.C 1 0 0 Config.stripe) none = true)) ∧
    (Taken (.fillSet (hdr 0x19 0 1 3 (fillBody 0)) (fillBody 0) .clean)
      { loading with tier := { loading.tier with presence := [(1, 0, 0, 0, 1)] } }
      (fun _ t => t.coherent (spanPages t.C 1 0 0 Config.stripe) none = false)) ∧
    (∀ code ∈ [0, 1], Taken (.fillAck (hdr 0x1A 0 1 3 (fillAckBody code)) (fillAckBody code) .clean) (asked 0x19 [1, 1, 1, 0] []) (fun m t =>
      ∃ r, t.openReq m.request = some r ∧ r.typ = 0x19 ∧ r.key = [1, 1, 1, 0] ∧ fld 2 1 m.body = code)) ∧
    (Taken (.adoptionReport (hdr 0x1B 0 1 3 (zeros 32)) (zeros 32) .clean) coded (fun m t => t.posOf m.source = some 1 ∧
      t.loss.spreadEpoch ≤ m.epoch)) ∧
    (Taken (.adoptionReport (hdr 0x1B 0 1 3 (zeros 32)) (zeros 32) .clean) { coded with loss := { coded.loss with spreadEpoch := 2 } }
      (fun m t => m.epoch < t.loss.spreadEpoch)) ∧
    (Taken (.reportAck (hdr 0x1C 0 1 3 (zeros 8)) (zeros 8) .clean) (asked 0x1B [] []) (fun m t => ∃ r, t.openReq m.request = some r ∧
      r.typ = 0x1B)) := by
  refine ⟨?_, ⟨take 0x19 0 1 3 rfl (by decide +kernel), by decide +kernel⟩, ?_, ⟨take 0x1B 0 1 3 rfl (by decide +kernel), by decide +kernel⟩,
    ⟨take 0x1B 0 1 3 rfl (by decide +kernel), by decide +kernel⟩,
    ⟨take 0x1C 0 1 3 rfl (by decide +kernel), req 0x1B [] [], by decide +kernel⟩⟩
  · intro p hp
    simp only [List.mem_cons, List.not_mem_nil, or_false] at hp
    rcases hp with rfl | rfl
    · exact ⟨take 0x19 0 1 3 rfl (by decide +kernel), by decide +kernel⟩
    · exact ⟨take 0x19 0 1 3 rfl (by decide +kernel), by decide +kernel⟩
  · intro code hc
    simp only [List.mem_cons, List.not_mem_nil, or_false] at hc
    rcases hc with rfl | rfl
    · exact ⟨take 0x1A 0 1 3 rfl (by decide +kernel), req 0x19 [1, 1, 1, 0] [], by decide +kernel⟩
    · exact ⟨take 0x1A 0 1 3 rfl (by decide +kernel), req 0x19 [1, 1, 1, 0] [], by decide +kernel⟩

/-- An ATOMIC message: code 1, four bytes at offset 0 of a hank. -/
def atomBody (hank : Nat) : Bytes := toLE 2 hank ++ [1, 4] ++ zeros 28

theorem wit_OutsideAccessesEnd :
    (Taken (.wcomp (hdr 0x02 0 1 3 (zeros 8)) (zeros 8) 0 .clean) (asked 0x01 [] []) (fun m t => ∃ r, t.openReq m.request = some r ∧
      r.typ = 0x01)) ∧
    (Taken (.rdata (hdr 0x04 0 1 3 (zeros 136)) (zeros 136) .clean) (asked 0x03 [] []) (fun m t => ∃ r, t.openReq m.request = some r ∧
      r.typ = 0x03)) ∧
    (Taken (.fabricAtomic (hdr 0x05 0 1 3 (atomBody 9)) (atomBody 9) .clean) coded (fun m t => t.hank? (fld 0 2 m.body) = none)) ∧
    (Taken (.fabricAtomic (hdr 0x05 0 1 3 (atomBody 3)) (atomBody 3) .clean) coded (fun m t => ∃ r, t.hank? (fld 0 2 m.body) = some r ∧
      r.state = 2 ∧ t.paged r.desc = false ∧ t.tier.presence = [] ∧ t.scrub.badBlocks = [] ∧ (State.fabricOp m.body).width = 4 ∧
      State.atomicOk r (State.fabricOp m.body) = true ∧ (State.fabricOp m.body).off < regionSpan r.desc 0 ∧ t.ans.bad = [] ∧
      (atomicNew 1 4 r.desc.unordered 0 0 0).isSome = true)) :=
  ⟨⟨take 0x02 0 1 3 rfl (by decide +kernel), req 0x01 [] [], by decide +kernel⟩,
   ⟨take 0x04 0 1 3 rfl (by decide +kernel), req 0x03 [] [], by decide +kernel⟩,
   ⟨take 0x05 0 1 3 rfl (by decide +kernel), by decide +kernel⟩,
   ⟨take 0x05 0 1 3 rfl (by decide +kernel), _, rfl, by decide +kernel⟩⟩

/-- HELLO of a member in a state, with the digest of this one or another. -/
def helloBody (state digest : Nat) : Bytes := toLE 2 4 ++ toLE 1 state ++ zeros 5 ++ toLE 8 digest ++ zeros 16

/-- Proposals on epoch 1: to drop member 1, by member 0. -/
def proposal : Bytes := toLE 4 2 ++ toLE 4 1 ++ toLE 2 4 ++ toLE 2 1 ++ [0, 0, 0, 0] ++ toLE 2 9 ++ (List.replicate 30 0xFF)

theorem wit_MembershipMessagesAreServed_hello :
    (Taken (.hello (hdr 0x30 0 1 3 (helloBody 2 0)) (helloBody 2 0) .clean)
        { coded with mem := { coded.mem with helloSeen := [(5, 8)] } } (fun m t => 8 ≤ natGet t.mem.helloSeen m.source)) ∧
    (∀ d ∈ [0, 1], Taken (.hello (hdr 0x30 0 1 3 (helloBody 2 d)) (helloBody 2 d) .clean)
        { coded with mem := { coded.mem with helloSeen := [(5, 7)] } } (fun m t => natGet t.mem.helloSeen m.source < 8 ∧
      t.skeinSec = some skein ∧ skein.members.findIdx? (fun (x : Nat × Nat) => x.1 == m.source) = some 1 ∧ t.mem.digest = 0 ∧
      fld 8 8 m.body = d ∧ fld 2 1 m.body ≠ 0 ∧ fld 2 1 m.body ≠ 5 ∧ m.epoch = t.mem.epoch)) := by
  refine ⟨⟨take 0x30 0 1 3 rfl (by decide +kernel), by decide +kernel⟩, ?_⟩
  intro d hd
  simp only [List.mem_cons, List.not_mem_nil, or_false] at hd
  rcases hd with rfl | rfl
  · exact ⟨take 0x30 0 1 3 rfl (by decide +kernel), by decide +kernel⟩
  · exact ⟨take 0x30 0 1 3 rfl (by decide +kernel), by decide +kernel⟩

theorem wit_MembershipMessagesAreServed :
    let voteBody := proposal ++ [1] ++ zeros 7
    let recordBody := proposal ++ toLE 2 3 ++ zeros 6
    (Admits (.heartbeat (hdr 0x31 0 1 3 (zeros 16)) (zeros 16) .clean) coded) ∧
    (Taken (.vote (hdr 0x32 0 1 3 voteBody) voteBody .clean) coded (fun m t => fld 4 4 (m.body.take 48) = t.mem.epoch ∧
      t.posOf m.source = some (fld 48 1 m.body) ∧ bit t.mem.named (fld 48 1 m.body) = true ∧
      t.mem.votes.contains (fld 48 1 m.body, m.body.take 48) = false)) ∧
    (Taken (.vote (hdr 0x32 0 1 3 (zeros 56)) (zeros 56) .clean) coded (fun m t => fld 4 4 (m.body.take 48) ≠ t.mem.epoch)) ∧
    (Admits (.epochRequest (hdr 0x33 0 1 3 (zeros 8)) (zeros 8) .clean) coded) ∧
    (Taken (.epochRecord (hdr 0x34 0 1 3 recordBody) recordBody .clean) coded (fun m t => (readProposal m.body).base = t.mem.epoch ∧
      (readProposal m.body).base < (readProposal m.body).epoch ∧
      (readProposal m.body).skeinId = t.mem.skeinId ∧ t.code.layout.isSome = true ∧ t.fenced = false ∧
      (∀ v ∈ bitsOf 16 (fld 48 2 m.body), bit t.mem.named v = true) ∧
      (bitsOf 16 t.mem.named).length < 2 * (bitsOf 16 (fld 48 2 m.body)).length ∧ t.openReq m.request = none)) ∧
    (Taken (.epochRecord (hdr 0x34 0 1 3 recordBody) recordBody .clean) (asked 0x33 [5] []) (fun m t =>
      t.openReq m.request = some (req 0x33 [5] []))) :=
  ⟨take 0x31 0 1 3 rfl (by decide +kernel),
   ⟨take 0x32 0 1 3 rfl (by decide +kernel), by decide +kernel⟩,
   ⟨take 0x32 0 1 3 rfl (by decide +kernel), by decide +kernel⟩,
   take 0x33 0 1 3 rfl (by decide +kernel),
   ⟨take 0x34 0 1 3 rfl (by decide +kernel), by decide +kernel⟩,
   ⟨take 0x34 0 1 3 rfl (by decide +kernel), by decide +kernel⟩⟩

/-- Nodes 5 and 6 have not acknowledged this member's vacate. -/
def leaving : State := { coded with mem := { coded.mem with vacating := some (4, 0, [5, 6]) } }

/-- RECODED of skein 4 and epoch 1 from a position, and a record notice of a position and step. -/
def recodedBody (pos : Nat) : Bytes := toLE 2 4 ++ toLE 1 pos ++ [0] ++ toLE 4 1
def noticeBody (pos step : Nat) : Bytes := toLE 8 step ++ zeros 8 ++ toLE 1 pos ++ zeros 7

theorem wit_SkeinChangesAreFollowed :
    (Admits (.vacate (hdr 0x35 0 1 3 (zeros 8)) (zeros 8) .clean) coded) ∧
    (Taken (.vacateAck (hdr 0x35 0 1 3 (vacateKind 1 (zeros 8))) (zeros 8) .clean) coded (fun _ t => t.mem.vacating = none)) ∧
    (Taken (.vacateAck (hdr 0x35 0 1 3 (vacateKind 1 (zeros 8))) (zeros 8) .clean) leaving (fun m t => t.mem.vacating = some (4, 0, [5, 6]) ∧
      [5, 6].filter (fun n => n != m.source) ≠ [])) ∧
    (∀ p ∈ [0, 1], Taken (.recoded (hdr 0x36 0 1 3 (recodedBody p)) (recodedBody p) .clean)
        { coded with mem := { coded.mem with recode := 1 } } (fun m t => t.skeinSec = some skein ∧ fld 0 2 m.body = skein.skeinId ∧
          fld 4 4 m.body = skein.epoch ∧ t.mem.recode ≠ 0 ∧ t.mem.recode ≠ 2 ∧
      t.posOf m.source = some 1 ∧ fld 2 1 m.body = p)) ∧
    (Taken (.recordNotice (hdr 0x37 0 1 3 (noticeBody 15 3)) (noticeBody 15 3) .clean) coded (fun m t => fld 16 1 m.body < 16 ∧
      t.led.notices.find? (fun y => y.1 == fld 16 1 m.body) = none)) ∧
    (∀ n ∈ [2, 3, 4], Taken (.recordNotice (hdr 0x37 0 1 3 (noticeBody 0 3)) (noticeBody 0 3) .clean)
        { coded with led := { coded.led with notices := [(0, n, 0, false)] } } (fun m t => t.led.notices.find? (fun y =>
          y.1 == fld 16 1 m.body) = some (0, n, 0, false) ∧ fld 0 8 m.body = 3)) := by
  refine ⟨take 0x35 0 1 3 rfl (by decide +kernel),
   ⟨take 0x35 0 1 3 rfl (by decide +kernel), by decide +kernel⟩,
   ⟨take 0x35 0 1 3 rfl (by decide +kernel), by decide +kernel⟩, ?_,
   ⟨take 0x37 0 1 3 rfl (by decide +kernel), by decide +kernel⟩, ?_⟩
  · intro p hp
    simp only [List.mem_cons, List.not_mem_nil, or_false] at hp
    rcases hp with rfl | rfl
    · exact ⟨take 0x36 0 1 3 rfl (by decide +kernel), by decide +kernel⟩
    · exact ⟨take 0x36 0 1 3 rfl (by decide +kernel), by decide +kernel⟩
  · intro n hn
    simp only [List.mem_cons, List.not_mem_nil, or_false] at hn
    rcases hn with rfl | rfl | rfl
    · exact ⟨take 0x37 0 1 3 rfl (by decide +kernel), by decide +kernel⟩
    · exact ⟨take 0x37 0 1 3 rfl (by decide +kernel), by decide +kernel⟩
    · exact ⟨take 0x37 0 1 3 rfl (by decide +kernel), by decide +kernel⟩

/-- Position 0 has ended its own re-coding and said so; position 1 is the last one. -/
theorem wit_SkeinChangesAreFollowed_last :
    Taken (.recoded (hdr 0x36 0 1 3 (recodedBody 1)) (recodedBody 1) .clean)
      { coded with mem := { coded.mem with recode := 2, recodedFrom := 1, nodes := [9, 5] ++ List.replicate 14 0xFFFF } } (fun m t =>
      t.skeinSec = some skein ∧ t.mem.recode = 2 ∧ fld 2 1 m.body = 1 ∧
      (bitsOf 16 t.mem.named).all (fun i => bit (setBit t.mem.recodedFrom 1) i) = true) :=
  ⟨take 0x36 0 1 3 rfl (by decide +kernel), by decide +kernel⟩

/-! ### A table set that R254 accepts: the words 1 to 16,384 -/

def tableSet : Bytes := (List.range' 1 16384).flatMap (toLE 8)

theorem words_length (l : List Nat) : (l.flatMap (toLE 8)).length = 8 * l.length := by
  induction l with
  | nil => rfl
  | cons x xs ih => rw [List.flatMap_cons, List.length_append, ih, List.length_cons]; simp [toLE]; omega

theorem words_drop (l : List Nat) (m : Nat) : (l.flatMap (toLE 8)).drop (8 * m) = (l.drop m).flatMap (toLE 8) := by
  induction l generalizing m with
  | nil => simp
  | cons x xs ih =>
    cases m with
    | zero => simp
    | succ m => rw [List.flatMap_cons, List.drop_append, List.drop_succ_cons, ← ih m]; simp [toLE, Nat.mul_succ]

theorem words_take (l : List Nat) (m : Nat) : (l.flatMap (toLE 8)).take (8 * m) = (l.take m).flatMap (toLE 8) := by
  induction l generalizing m with
  | nil => simp
  | cons x xs ih =>
    cases m with
    | zero => simp
    | succ m => rw [List.flatMap_cons, List.take_append, List.take_succ_cons, List.flatMap_cons, ← ih m]; simp [toLE, Nat.mul_succ]

theorem words_read (l : List Nat) (hl : ∀ x ∈ l, x < 2 ^ 64) (k : Nat) (hk : l.length < k) :
    (chunks 8 k (l.flatMap (toLE 8))).map leNat = l := by
  induction l generalizing k with
  | nil => cases k <;> simp [chunks]
  | cons x xs ih =>
    cases k with
    | zero => simp at hk
    | succ k =>
      have hx := hl x (by simp)
      have h8 : ∀ b : Bytes, (toLE 8 x ++ b).take 8 = toLE 8 x ∧ (toLE 8 x ++ b).drop 8 = b := by intro b; constructor <;> simp [toLE]
      rw [List.flatMap_cons]
      have hne : (toLE 8 x ++ xs.flatMap (toLE 8)).isEmpty = false := by simp [toLE]
      have hv : leNat (toLE 8 x) = x := by simp only [toLE, leNat, BitVec.toNat_ofNat]; omega
      have hr := ih (fun y hy => hl y (by simp [hy])) k (by simpa using hk)
      unfold chunks
      rw [hne, (h8 _).1, (h8 _).2]
      simpa [hv] using hr

theorem words_distinct (a n : Nat) : wordsDistinct (List.range' (a + 1) n) = true := by
  have hs : (List.range' (a + 1) n).mergeSort (fun a b => decide (a ≤ b)) = List.range' (a + 1) n :=
    List.mergeSort_of_pairwise ((List.pairwise_lt_range' (s := a + 1) (n := n)).imp (by intro x y h; simp; omega))
  unfold wordsDistinct
  simp only [hs, Bool.and_eq_true, Bool.not_eq_true', List.all_eq_true]
  refine ⟨by simp [List.mem_range']; omega, ?_⟩
  intro x hx
  obtain ⟨i, hi, rfl⟩ := List.mem_iff_getElem.mp hx
  simp

theorem tableSet_ok : tableSetOk tableSet = true := by
  unfold tableSetOk
  rw [List.all_eq_true]
  intro j hj
  have hj : j < 4 := by simpa using hj
  have e1 : 32768 * j = 8 * (4096 * j) := by omega
  have e2 : 32768 = 8 * 4096 := rfl
  unfold tableSet pieces
  rw [e1, words_drop, e2, words_take, words_read]
  · have : ((List.range' 1 16384).drop (4096 * j)).take 4096 = List.range' (4096 * j + 1) 4096 := by
      rw [List.drop_range']
      apply List.ext_getElem
      · simp; omega
      · intro i h1 h2; simp; omega
    rw [this]
    exact words_distinct _ _
  · intro x hx
    have := List.mem_of_mem_drop (List.mem_of_mem_take hx)
    simp [List.mem_range'] at this
    omega
  · rw [words_length]
    simp
    omega

/-- The path of the Ocper client at node 5. -/
def node5 : Path := .ocper 5

theorem tableSet_writable : writable node5 0x240001 (.blob tableSet) (State.begin .clean coded) = true := by
  have hl : tableSet.length = 131072 := by unfold tableSet; rw [words_length]; simp
  have he : entry? coded.straps.build 0x2400 1 =
      some { idxLo := 0x2400, idxHi := 0x2400, subLo := 1, subHi := 1, ty := .dom, acc := .rs, dflt := 0, lo := 131072, hi := 131072 } := by
    decide +kernel
  unfold writable
  simp only [Bool.and_eq_true]
  refine ⟨by decide +kernel, ?_⟩
  show (match entry? coded.straps.build 0x2400 1 with
    | some r => (State.writeFault (State.begin .clean coded) node5 r 0x2400 1 (.blob tableSet)).isNone
    | none => false) = true
  rw [he]
  simp [State.writeFault, State.pathBars, node5, widthOk, blobLayout, State.blobBad, State.busy, hl, tableSet_ok, addrOf, EntryTy.isBlob]

/-! ## The dictionary -/

theorem wit_SettingsAreStaged :
    run.sys.lzReset = false ∧ writable .regPort 0x120008 (.num (1000 : BitVec 32).toNat) (State.begin .clean run) = true ∧
    coded.sys.lzReset = false ∧ writable node5 0x240001 (.blob tableSet) (State.begin .clean coded) = true :=
  ⟨by decide +kernel, by decide +kernel, by decide +kernel, tableSet_writable⟩

theorem wit_SettingsAreStaged_bounds :
    writable .regPort 0x120008 (.num 100) (State.begin .clean run) = false := by decide +kernel

/-- One check of Table 14.3 after the other fails: access, path, width, value, busy; an entry that is absent; a command not served now. -/
theorem wit_WritesAreCheckedInOrder :
    let s : State := b0 coded
    let fault (path : Path) (idx subi : Nat) (v : Val) : Option Nat := (entry? s.straps.build idx subi).bind (fun r => s.writeFault path r idx subi v)
    writeOf (.dictionaryWrite node5 0x309004 (.num 3) .clean) s = some (node5, 0x309004, .num 3) ∧ s.sys.lzReset = false ∧
    s.sys.ready = true ∧ s.serves node5 0x309004 (some (.num 3)) = true ∧
    fault node5 0x5000 1 (.num 3) = some 1 ∧ fault .jutus 0x3090 4 (.num 3) = some 2 ∧ fault node5 0x3090 4 (.blob []) = some 3 ∧
    fault .regPort 0x1200 8 (.num 0) = some 4 ∧ fault .regPort 0x1100 1 (.num 9) = some 5 ∧ fault node5 0x3090 4 (.num 3) = none ∧
    entry? s.straps.build 0x6000 1 = none ∧ (0x309004 : Nat) ≠ 0x10FD04 ∧
    (entry? s.straps.build 0x1220 1).any (fun r => r.ty.isBlob) = true ∧
    writeOf (.planLoad .regPort (zeros 40)) s = some (.regPort, 0x122001, .num 0) ∧
    ({ s with sys := { s.sys with hk := .starting } } : State).serves node5 0x309004 (some (.num 3)) = false := by decide +kernel

/-- A write that passes all of them: done; and done by the entry's rule with a refusal, a retry or a wait. -/
theorem wit_WritesAreCheckedInOrder_passes :
    let act (s : State) (idx k : Nat) (v : Val) : Option Nat :=
      (entry? s.straps.build idx k).map (fun r => (State.applyWrite node5 r idx k v s).2)
    act (b0 coded) 0x3090 4 (.num 3) = some 0 ∧ act (b0 coded) 0x2010 1 (.blob (zeros 48)) = some 4 := by decide +kernel

/-- A plan of no sections is under admission; and one that is accepted is stated through its judgement. -/
def admitting : State := { coded with adm := { coded.adm with state := 1, loading := some [] } }

/-- A context whose table digest is the one in effect. -/
def digested : State := { coded with whorl := { coded.whorl with tables := .loaded (zeros 8) } }
def contextBody : Bytes := zeros 24 ++ toLE 8 (tableDigest (zeros 8)) ++ zeros 32

def judged (s : State) (b : Bytes) : Bool :=
  match s.judge (s.reg 0x1200 0x08) b with
  | .ok _ => true
  | .error _ => false

theorem wit_PlansAreLoadedAndAdmitted :
    coded.sys.lzReset = false ∧ writable node5 0x122001 (.blob (zeros 40)) (State.begin .clean coded) = true ∧
    (b0 coded).adm.loading = none ∧ (b0 admitting).adm.loading = some [] ∧ judged (b0 admitting) [] = false ∧ (b0 admitting).adm.context = none ∧
    ({ (b0 admitting).adm with context := some (1, 3, []) } : AdmSt).context.isSome = true ∧
    writable node5 0x265002 (.blob contextBody) (b0 digested) = true ∧ judged (b0 digested) (State.contextPlan contextBody) = false ∧
    fld 24 8 contextBody = tableDigest (tableBytes digested.whorl.tables) := by decide +kernel

theorem wit_HousekeepingWritesAct :
    let s : State := (State.begin .clean coded)
    coded.sys.lzReset = false ∧ writable node5 0x310001 (.blob (zeros 600)) s = true ∧ coded.house.journal.state ≠ 1 ∧
    writable node5 0x310001 (.blob (zeros 600)) { s with house := { s.house with journal := { s.house.journal with state := 1 } } } = true ∧
    writable node5 0x310006 (.num (3 : BitVec 32).toNat) s = true ∧ writable node5 0x320006 (.num (8 : BitVec 16).toNat) s = true ∧
    writable node5 (0x307010 + (1 : BitVec 3).toNat) (.num (3 : BitVec 64).toNat) s = true ∧ natAt s.house.acked 1 < 3 ∧
    s.carriedValue node5 (0x307010 + (1 : BitVec 3).toNat) (.num (3 : BitVec 64).toNat) = .num 3 ∧
    (0 : BitVec 64).toNat ≤ natAt s.house.acked 1 ∧ writable node5 (0x307010 + (7 : BitVec 3).toNat) (.num 0) s = true ∧
    writable node5 0x207001 (.num (6 : BitVec 16).toNat) (b0 coded) = true ∧
    writable node5 0x207001 (.num (0xFFFF : BitVec 16).toNat) (b0 coded) = true ∧ (b0 coded).code.layout.isSome = true := by decide +kernel

def noticeOf6 : Bytes := toLE 4 2 ++ toLE 2 1 ++ [0, 0] ++ toLE 2 5 ++ toLE 2 6

/-- Another proposal for epoch 2 is pending; base 1 has been voted on; this member is fenced out of the base. -/
def clashing : State :=
  { coded with mem := { coded.mem with pending := some { readProposal proposal with raw := [] } } }
def outside : State := { coded with mem := { coded.mem with named := 2, nodes := [0xFFFF, 5] ++ List.replicate 14 0xFFFF } }
def proposalOf5 : Bytes := toLE 4 2 ++ toLE 4 1 ++ toLE 2 4 ++ toLE 2 2 ++ [1, 0, 0, 0] ++ toLE 2 0xFFFF ++ toLE 2 5 ++ (List.replicate 28 0xFF)

/-- A proposal that names no position. -/
def unnamed : Bytes := zeros 16 ++ List.replicate 32 0xFF

theorem wit_SkeinWritesAct :
    let s : State := b0 coded
    let p := readProposal proposal
    coded.sys.lzReset = false ∧ writable node5 0x201001 (.blob proposal) s = true ∧
    (s.isBase = true ∧ s.mem.pending = none ∧ s.mem.records = [] ∧ s.proposalOk p = true ∧ s.mem.votedBases.contains p.base = false) ∧
    ({ s with mem := { s.mem with pending := some p } } : State).mem.pending.any (fun q => q.raw == p.raw) = true ∧
    (writable node5 0x201001 (.blob proposal) (b0 clashing) = true ∧
      clashing.mem.pending.any (fun q => q.epoch == p.epoch && q.raw != p.raw) = true) ∧
    ((readProposal (zeros 48)).wellFormed = false ∧ writable node5 0x201001 (.blob (zeros 48)) s = true) ∧
    (p.wellFormed = true ∧ (readProposal proposalOf5).wellFormed = true ∧ (readProposal unnamed).wellFormed = true ∧
      coded.proposalOk (readProposal unnamed) = false ∧ writable node5 0x201001 (.blob unnamed) s = true) ∧
    (outside.isBase = false ∧ outside.proposalOk (readProposal proposalOf5) = true ∧
      writable node5 0x201001 (.blob proposalOf5) (b0 outside) = true) ∧
    writable node5 0x221001 (.blob noticeOf6) s = true ∧ (State.readNotice noticeOf6).isSome = true ∧
    writable node5 0x123001 (.num (3 : BitVec 64).toNat) (State.begin .clean coded) = true := by decide +kernel

/-- A discard of one page of a paged SCRATCH hank. -/
def discardBody : Bytes := toLE 2 2 ++ zeros 6 ++ toLE 8 0 ++ toLE 8 4096
def tierSec : TierSec :=
  { pantryG := 0, pantryW := 0, pantryBytes := 0, pantryPlyBase := 0, households := [],
    policies := [{ index := 1, tiers := 3, home := 0, decay := 0, promoteAt := 1, demoteAt := 0, flags := 0 }], areas := [] }
def tiered : State := { coded with planEff := some { framed with tier := some tierSec }, hanks := [State.freshHank 2 { desc 7 4096 with tierPolicy := 1 }] }

theorem wit_RequestsAreTakenOrRefused :
    let s : State := b0 coded
    writable node5 0x264001 (.blob (zeros 40)) s = true ∧ (State.readCandidates (zeros 40)).isNone = true ∧
    writable node5 0x263001 (.blob (zeros 16)) s = true ∧
    writable node5 0x304002 (.blob (toLE 2 1 ++ zeros 4102)) s = true ∧ writable node5 0x204007 (.blob (0 :: 1 :: zeros 4102)) s = true ∧
    fld 1 1 (0 :: 1 :: zeros 4102) ≠ 0 ∧ writable node5 0x252001 (.blob discardBody) (b0 tiered) = true ∧
    discardBody.length = 24 ∧ tiered.hank? (fld 0 2 discardBody) = some (State.freshHank 2 { desc 7 4096 with tierPolicy := 1 }) ∧
    tiered.paged { desc 7 4096 with tierPolicy := 1 } = true ∧ fld 2 6 discardBody = 0 ∧ fld 8 8 discardBody % 4096 = 0 ∧
    fld 16 8 discardBody % 4096 = 0 := by decide +kernel

/-- Page 0 of channel 0 has a home, and die 0 holds a copy of it. -/
def shared : State :=
  { tiered with
    hanks := [State.freshHank 2 { desc 7 786432 with tierPolicy := 1 }]
    tier := { tiered.tier with
      pages := [{ hank := 2, channel := 0, page := 0, tier := 0, inTransit := false, lost := false, queued := false, heat := 0, count := 0,
                  area := 0, index := 0 }]
      presence := [(2, 0, 0, 0, 1)] } }

theorem wit_RequestsAreTakenOrRefused_discard :
    let body := toLE 2 2 ++ zeros 14 ++ toLE 8 786432
    (b0 tiered).tier.presence = [] ∧ (State.discardNow 2 0 786432 (b0 shared)).2 = false ∧ writable node5 0x252001 (.blob body) (b0 shared) = true ∧
    (b0 shared).sys.lzReset = false ∧ ((b0 shared).hank? (fld 0 2 body)).any (fun r => (b0 shared).paged r.desc) = true ∧
    writable .jutus 0x252001 (.blob body) (b0 { shared with house := unlocked.house }) = true := by
  decide +kernel

/-- The transfer window stands at its end, or before it. -/
def window (o : Nat) : State := { coded with regs := [(0x10FD02, o), (0x110001, 9)] }

/-- The buffer holds the discard of that page, and 0x2520.01 is the target. -/
def waiting : State :=
  { shared with
    regs := [(0x10FD01, 0x252001), (0x110001, 9)]
    house := { shared.house with xfer := toLE 2 2 ++ zeros 14 ++ toLE 8 786432, xferLen := 24 } }

theorem wit_TransferWindowMovesValues_waits :
    (b0 waiting).sys.ready = true ∧ (b0 waiting).sys.hk = .running ∧ addrIdx ((b0 waiting).reg 0x10FD 0x01) ≠ 0x10FD ∧
    (State.writeEntry .regPort (waiting.reg 0x10FD 0x01) ((b0 waiting).xferValue (waiting.reg 0x10FD 0x01) 24)
      (b0 waiting)).2 = .wait := by decide +kernel

theorem wit_TransferWindowMovesValues :
    coded.sys.ready = true ∧ coded.sys.hk = .running ∧ (0x110001 : BitVec 32).toNat ≤ 0xFFFFFF ∧ addrIdx 0x110001 ≠ 0x10FD ∧
    ((State.setReg 0x10FD 0x02 0 (State.setReg 0x10FD 0x01 0x110001 (State.begin .clean coded))).readValue .regPort 0x110001).isSome = true ∧
    (window 1052732).reg 0x10FD 0x02 + 4 ≤ 1052736 ∧ (window 1052736).reg 0x10FD 0x02 = 1052736 ∧
    1 ≤ (0x101040 : BitVec 32).toNat ∧ (0x101040 : BitVec 32).toNat ≤ 0x101040 ∧ addrIdx ((b0 coded).reg 0x10FD 0x01) ≠ 0x10FD := by
  decide +kernel

theorem wit_ReadsReturnAndClear :
    coded.sys.lzReset = false ∧ coded.sys.ready = true ∧ coded.sys.hk = .running ∧ isNum (coded.readValue .regPort 0x500001) = true ∧
    ((coded.readValue .regPort 0x500001).map (fun x => x.1.ty)) = some .u64 ∧
    ((coded.readValue .regPort 0x120008).map (fun x => x.1.ty)).all (fun y => y != .u64) = true ∧ isNum (coded.readValue .regPort 0x120008) = true ∧
    isBlob (coded.readValue .regPort 0x100009) = true ∧ isNum (coded.readValue node5 0x500001) = true ∧ node5 ≠ .regPort ∧ node5 ≠ .jtag ∧
    node5 ≠ .jutus ∧ unlocked.house.jutus.unlocked = true ∧ coded.house.bulkNamed = false ∧
    ({ coded with regs := [(0x5FFE01, 0x5000)], house := { coded.house with bulkNamed := true } } : State).house.bulkNamed = true := by
  decide +kernel

theorem wit_PlainEntriesHoldWhatIsWritten :
    let s0 := b0 coded
    s0.sys.lzReset = false ∧ (entry? s0.straps.build 0x5FFE 1).any (fun r => r.acc != .rs) = true ∧
    (0x5FFE01 : BitVec 24).toNat ≠ 0x10FD04 ∧ addrIdx 0x5FFE01 ∉ [0x10FB, 0x1230, 0x2070, 0x3100, 0x3110, 0x3200] ∧
    s0.carriedValue node5 0x5FFE01 (.num 0x5000) = .num 0x5000 ∧ writable node5 (0x5FFE01 : BitVec 24).toNat (.num 0x5000) s0 = true ∧
    s0.carriedValue .regPort 0x10FD02 (.num (2 ^ 32 + 8)) = .num 8 ∧ writable .regPort 0x10FD02 (.num (2 ^ 32 + 8)) s0 = true ∧
    (entry? s0.straps.build 0x10FD 2).any (fun r => r.acc != .rs) = true ∧
    writable node5 0x10FD02 (.num 8) s0 = true ∧ writable node5 0x307001 (.num 1) s0 = false := by
  decide +kernel

/-! ## Plans that admission takes -/

/-- A plan of a frame declaration and a job list: it opens with step 9, p_min 1 ms, t_rc 0.5 ms. -/
def smallPlan : Bytes :=
  toLE 2 1 ++ toLE 2 0 ++ toLE 4 72 ++ toLE 8 9 ++ toLE 8 1000000 ++ toLE 8 500000 ++ toLE 4 100000 ++ toLE 2 1 ++ toLE 2 1 ++ zeros 40 ++
  toLE 2 2 ++ toLE 2 0 ++ toLE 4 8 ++ toLE 4 7 ++ [0, 1, 0, 0] ++ toLE 2 0xFFFF ++ toLE 2 0 ++ toLE 4 0

def hosting : State := { run with adm := { run.adm with state := 1, loading := some smallPlan } }

/-- A context of that plan under a table set that is kept short here, so that its digest is. -/
def contextOfPlan : Bytes := zeros 24 ++ toLE 8 (tableDigest (zeros 8)) ++ toLE 4 (smallPlan.length) ++ zeros 28 ++ smallPlan
def hostingTables : State := { run with whorl := { run.whorl with tables := .loaded (zeros 8) } }

theorem wit_PlansAreLoadedAndAdmitted_taken :
    (b0 hosting).adm.loading = some smallPlan ∧ judged (b0 hosting) smallPlan = true ∧
    State.contextPlan contextOfPlan = smallPlan ∧ fld 24 8 contextOfPlan = tableDigest (tableBytes hostingTables.whorl.tables) ∧
    writable node5 0x265002 (.blob contextOfPlan) (b0 hostingTables) = true ∧ judged (b0 hostingTables) smallPlan = true ∧
    fld 24 8 (zeros 64) ≠ tableDigest (tableBytes hostingTables.whorl.tables) ∧
    writable node5 0x265002 (.blob (zeros 64)) (b0 hostingTables) = true := by decide +kernel

/-! ## Requests with checks of their own -/

/-- A candidate with a record of 128 bytes. -/
def restoreBody : Bytes :=
  toLE 4 7 ++ [1, 0, 0, 0] ++ zeros 24 ++ toLE 2 5 ++ [0, 0] ++ toLE 4 128 ++ zeros 24 ++
    (zeros 72 ++ toLE 4 128 ++ zeros 52)

def restore : RestoreRt :=
  { position := 0, target := 3, job := 7, cands := [], status := [], current := none, headerOk := false, sent := 0, next := 0, sums := [] }
def restoring : State := { coded with led := { coded.led with restore := some restore } }

theorem wit_RequestsAreTakenOrRefused_restore :
    let right (s : State) (b : Bytes) : Bool := s.planEff.isSome && fld 0 4 b == s.jobTag &&
      (State.readCandidates b).any (fun cs => cs.all (fun c => fld 22 1 c.record == fld 5 1 b &&
        (State.recordHanks c.record).all (fun e => s.loadingAs e)))
    right (b0 coded) restoreBody = true ∧ (b0 coded).led.restore = none ∧ writable node5 0x264001 (.blob restoreBody) (b0 coded) = true ∧
    right (b0 restoring) restoreBody = true ∧ (b0 restoring).led.restore.isSome = true ∧
    writable node5 0x264001 (.blob restoreBody) (b0 restoring) = true ∧
    right (b0 coded) (8 :: restoreBody.drop 1) = false ∧ (State.readCandidates (8 :: restoreBody.drop 1)).isSome = true ∧
    writable node5 0x264001 (.blob (8 :: restoreBody.drop 1)) (b0 coded) = true := by decide +kernel

/-- Hank 1 is masked and keeps a mask digest. -/
def maskedHank (d : Nat) : HankRt := { State.freshHank 1 { desc 1 2048 with planes := 3, flags := 1 } with maskDigest := d }
def maskedRun (d : Nat) : State := { coded with hanks := [maskedHank d] }

theorem wit_RequestsAreTakenOrRefused_mask (b : Bytes) :
    ∃ d, (maskedRun d).hank? 1 = some (maskedHank d) ∧ (maskedHank d).desc.masked = true ∧
      (maskedRun d).maskDigestOf (maskedHank d) (some (0, b)) ≠ (maskedHank d).maskDigest := by
  have h (d : Nat) : (maskedRun d).maskDigestOf (maskedHank d) (some (0, b)) = add64 0 (stripeHash 1 0x10 0 b) := by
    have e : List.range (ceilDiv (State.maskBytes (maskedHank d).desc.count) Config.stripe) = [0] := by
      show List.range (ceilDiv (State.maskBytes 2048) Config.stripe) = [0]
      decide +kernel
    unfold State.maskDigestOf
    rw [e]
    rfl
  refine ⟨add64 0 (stripeHash 1 0x10 0 b) + 1, rfl, by show bit 1 0 = true; decide +kernel, ?_⟩
  rw [h]
  exact Nat.ne_of_lt (Nat.lt_succ_self _)

/-! ## Ocper, the credits and the timers -/

/-- An Ocper request of node 5. -/
def ocper (xid address offset count : Nat) (data : Bytes) : OcperReq :=
  { status := 0, xid := BitVec.ofNat 16 xid, address := BitVec.ofNat 32 address, offset := BitVec.ofNat 32 offset,
    count := BitVec.ofNat 32 count, data := data }

def oh (op : Nat) (q : OcperReq) : RxHdr := hdr 0x38 0 1 3 (ocperBody op q)

/-- Node 5 has written xid 3 and holds a buffer of 8 bytes for 0x2220.01 as a block write. -/
def bufOf5 : OcperBuf := { node := 5, address := 0x122001, snapshot := false, data := zeros 8 }
def ocpering : State := { coded with house := { coded.house with xids := [(5, 3)], ocper := [some bufOf5, none] } }

theorem wit_OcperServesTheDictionary :
    let rd := ocper 1 0x500001 0 0 []
    let wr (xid : Nat) := ocper xid 0x5FFE01 0 2 (toLE 2 0x5000)
    let br := ocper 1 0x100009 0 16 []
    let bw := ocper 1 0x122001 8 4 [1, 2, 3, 4]
    let ba (count : Nat) := ocper 4 0x122001 0 count []
    (Taken (.ocperRead (oh 1 rd) rd .clean) coded (fun m t => t.sys.hk = .running ∧ (readOcper m).badForm = false ∧
      isNum (t.readValue (readOcper m).path (readOcper m).address) = true)) ∧
    (Taken (.ocperRead (oh 1 rd) rd .clean) { coded with sys := { coded.sys with hk := .restarting } } (fun _ t => t.sys.hk ≠ .running)) ∧
    (Taken (.ocperRead (oh 1 (ocper 1 0x500001 0 9 [])) (ocper 1 0x500001 0 9 []) .clean) coded (fun m _ => (readOcper m).badForm = true)) ∧
    (Taken (.ocperWrite (oh 2 (wr 3)) (wr 3) .clean) ocpering (fun m t => t.sys.hk = .running ∧ (readOcper m).badForm = false ∧
      t.house.xids.contains ((readOcper m).client, (readOcper m).xid) = true)) ∧
    (Taken (.ocperWrite (oh 2 (wr 4)) (wr 4) .clean) ocpering (fun m t => t.sys.hk = .running ∧ (readOcper m).badForm = false ∧
      t.house.xids.contains ((readOcper m).client, (readOcper m).xid) = false ∧ (readOcper m).data.length = 2 ∧
      (State.dictWrite (readOcper m).path (readOcper m).address (.num (leNat (readOcper m).data)) t).2 = .done)) ∧
    (Taken (.ocperBlockRead (oh 3 br) br .clean) coded (fun m t => (readOcper m).badForm = false ∧
      isBlob (t.readValue (readOcper m).path (readOcper m).address) = true ∧ (readOcper m).offset = 0 ∧ t.bufRoom (readOcper m).client = true)) ∧
    (Taken (.ocperBlockWriteSegment (oh 4 bw) bw .clean) coded (fun m t => (readOcper m).badForm = false ∧
      (readOcper m).offset + (readOcper m).count ≤ State.xferSize ∧ t.bufOf (readOcper m).client = none ∧ t.bufRoom (readOcper m).client = true)) ∧
    (∀ n ∈ [8, 9], Taken (.ocperBlockApply (oh 5 (ba n)) (ba n) .clean) ocpering (fun m t => t.sys.hk = .running ∧
      (readOcper m).badForm = false ∧ t.house.xids.contains ((readOcper m).client, (readOcper m).xid) = false ∧
      t.bufOf (readOcper m).client = some bufOf5 ∧ bufOf5.address = (readOcper m).address ∧ (readOcper m).count = n ∧
      (State.dictWrite (readOcper m).path (readOcper m).address (.blob (bufOf5.data.take n)) (State.freeBuf 5 t)).2 = .done)) := by
  refine ⟨⟨take 0x38 0 1 3 rfl (by decide +kernel), by decide +kernel⟩,
   ⟨take 0x38 0 1 3 rfl (by decide +kernel), by decide +kernel⟩,
   ⟨take 0x38 0 1 3 rfl (by decide +kernel), by decide +kernel⟩,
   ⟨take 0x38 0 1 3 rfl (by decide +kernel), by decide +kernel⟩,
   ⟨take 0x38 0 1 3 rfl (by decide +kernel), by decide +kernel⟩,
   ⟨take 0x38 0 1 3 rfl (by decide +kernel), by decide +kernel⟩,
   ⟨take 0x38 0 1 3 rfl (by decide +kernel), by decide +kernel⟩, ?_⟩
  intro n hn
  simp only [List.mem_cons, List.not_mem_nil, or_false] at hn
  rcases hn with rfl | rfl
  · exact ⟨take 0x38 0 1 3 rfl (by decide +kernel), by decide +kernel⟩
  · exact ⟨take 0x38 0 1 3 rfl (by decide +kernel), by decide +kernel⟩

/-- A write that is refused, and a block read that reached its end and comes again. -/
theorem wit_OcperServesTheDictionary_more :
    let wr := ocper 1 0x500001 0 8 (zeros 8)
    let br := ocper 1 0x100009 0 16 []
    Taken (.ocperWrite (oh 2 wr) wr .clean) coded (fun m t => t.sys.hk = .running ∧ (readOcper m).badForm = false ∧
      (entry? t.straps.build 0x5000 1).any (fun r => r.ty.bytes == (readOcper m).data.length) = true ∧
      (State.dictWrite (readOcper m).path (readOcper m).address (.num (leNat (readOcper m).data)) t).2 = .refused 1) ∧
    Taken (.ocperBlockRead (oh 3 br) br .clean) { coded with house := { coded.house with rereads := [(5, 1, 0x100009, 0, [7])] } } (fun m t =>
      t.sys.hk = .running ∧ (readOcper m).badForm = false ∧ t.keptPiece (readOcper m) = some [7]) :=
  ⟨⟨take 0x38 0 1 3 rfl (by decide +kernel), by decide +kernel⟩, ⟨take 0x38 0 1 3 rfl (by decide +kernel), by decide +kernel⟩⟩

theorem wit_AbsentEntriesAreAnswered :
    let q := ocper 1 0x600001 0 0 []
    coded.sys.hk = .running ∧ coded.sys.lzReset = false ∧ entry? coded.straps.build 0x6000 1 = none ∧ (0x600001 : BitVec 24).toNat ≠ 0x10FD04 ∧
    unlocked.house.jutus.unlocked = true ∧ entry? unlocked.straps.build 0x6000 1 = none ∧
    Taken (.ocperRead (oh 1 q) q .clean) coded (fun m t => t.sys.hk = .running ∧ (readOcper m).badForm = false ∧
      entry? t.straps.build (addrIdx (readOcper m).address) (addrSub (readOcper m).address) = none ∧
      t.house.xids.contains ((readOcper m).client, (readOcper m).xid) = false) :=
  ⟨by decide +kernel, by decide +kernel, by decide +kernel, by decide, by decide +kernel, by decide +kernel,
   take 0x38 0 1 3 rfl (by decide +kernel), by decide +kernel⟩

theorem wit_CreditsKeepToTheGrant :
    let up := b0 { run with fx := { run.fx with initDone := [true, false] } }
    run.sys.lzReset = false ∧ run.fx.sendQ = [] ∧ run.fx.credits.length = 6 ∧ run.wayUp (false : Bool).toNat = false ∧
    up.sys.lzReset = false ∧ up.fx.sendQ = [] ∧ up.fx.credits.length = 6 ∧ up.wayUp (false : Bool).toNat = true := by decide +kernel

theorem wit_FabricTimersAct :
    let due (s0 : State) (pos : BitVec 4) : Bool := s0.code.layout.isSome && bit s0.mem.named pos.toNat && pos.toNat != s0.myPos &&
      !bit s0.mem.suspected pos.toNat && !s0.fenced && decide (s0.reg 0x2001 0x02 ≤ natAt s0.mem.silent pos.toNat)
    (b0 run).sys.ready = true ∧ (b0 run).code.layout = none ∧ (b0 run).code.hallReads = [] ∧
    due (b0 { coded with mem := { coded.mem with silent := [0, 255] } }) 1 = true ∧ due (b0 coded) 1 = false ∧ due (b0 coded) 0 = false ∧
    (∀ typ ∈ [0x01, 0x03, 0x10, 0x12, 0x14, 0x33], (b0 (asked typ [5] [])).fx.reqs.find? (fun x => x.engine == (0 : BitVec 3).toNat &&
      x.entry == (0 : BitVec 9).toNat) = some (req typ [5] [])) ∧
    (at0 coded).mem.vacating = none ∧ (at0 leaving).mem.vacating = some (4, 0, [5, 6]) := by decide +kernel

/-- Both clauses of the catch-up: one member without the record and one with a later one, against a member that has it. -/
theorem wit_FabricTimersAct_gap :
    let gap (c : List (Nat × Bool × Bool)) : Bool := !c.isEmpty && c.all (fun x => !x.2.1) && c.any (fun x => x.2.2)
    gap [(5, false, true)] = true ∧ gap [(5, false, true), (6, true, false)] = false ∧ gap [] = false := by decide

theorem wit_OverdueSetsAreCountedNotResent :
    let overdue (x : GroupRt) : Bool := x.position == (0 : BitVec 4).toNat && x.hank == (1 : BitVec 12).toNat && x.group == (0 : BitVec 32).toNat &&
      x.sets.any (fun y => y.role == (0 : BitVec 1).toNat && !y.acked && !y.timedOut)
    (b0 sent).card.inflight.find? overdue = some inflight ∧ (b0 coded).card.inflight.find? overdue = none := by decide +kernel

/-! ## What a step does, against the manual -/

/-- The next state of a command. -/
def nextOf (c : Instr) (s : State) : State :=
  match exec c s with
  | .next t => t
  | .fault _ => s
  | .refused _ => s

/-- Table 12.19: version 3, part 0x4C5A, the manufacturer code, bit 0 set. -/
theorem test_idcode : (nextOf .jtagIdcode { run with straps := { run.straps with jtMfr := 0x123 } }).out =
    [.jtagIr 1, .jtag 0x34C5A247] := by decide +kernel

/-- R360: a roll-call with the tick is counted in 0x50C0.05 and does nothing else. -/
theorem test_rollcall_with_tick : (nextOf (.rollcall 1 true 0 .clean) coded).ctr 0x50C0 0x05 = 1 := by decide +kernel

/-- R19: a tick of a number that is not due is counted in 0x5000.02. -/
theorem test_tick_not_due : (nextOf (.tick 9 0 .clean) sealedRun).ctr 0x5000 0x02 = 1 := by decide +kernel

/-- R358: the tick that is due opens step 4 in its gather phase. -/
theorem test_tick_opens : (nextOf (.tick 4 50 .clean) sealedRun).fr.step = 4 ∧ (nextOf (.tick 4 50 .clean) sealedRun).fr.phase = .gather ∧
    (nextOf (.tick 4 50 .clean) sealedRun).fr.htSample = 50 := by decide +kernel

/-- R337: a smaller sample is counted and does not move the time. -/
theorem test_hall_time_back :
    let t := nextOf (.hallTimeValid 5 .clean) { run with time := { base := 6, clocks := 0, valid := true } }
    t.now = 6 ∧ t.ctr 0x50C0 0x06 = 1 := by decide +kernel

/-- R342, Table 2.7: a READ of a hank that is not there is REFUSED with one item of zeros. -/
theorem test_read_refused :
    (nextOf (.porchPlainRead (hall 9) .clean) coded).out = [.hall 0 0 1 true .refused (zeros 128) 0] := by decide +kernel

/-- R39, R339: a WRITE stores the enabled bytes, the low byte of the beat first, and a READ returns them. -/
theorem test_write_read :
    let q := hall 2
    let t := nextOf (.porchWrite q [{ data := 0x0302AA01, be := 0b1101 }] .clean) coded
    t.out.getLast? = some (.hall 0 0 1 true .ok (zeros 128) 0) ∧
    (nextOf (.porchPlainRead q .clean) t).out.getLast? = some (.hall 0 0 1 true .ok (fit 128 [1, 0, 2, 3]) 0) := by decide +kernel

/-- R291: an ADD of 5 to a word of a SHARED hank returns the old value in the word's lanes; the next one returns 5. -/
theorem test_atomic_add :
    let q : HallReq := { hall 3 with op := 2, acode := 1 }
    let w : WBeat := { data := 5, be := 0xF }
    let t := nextOf (.porchAtomic q w .clean) coded
    t.out.getLast? = some (.hall 0 0 1 true .ok (zeros 128) 0) ∧
      (nextOf (.porchAtomic q w .clean) t).out.getLast? = some (.hall 0 0 1 true .ok (fit 128 [5]) 0) := by decide +kernel

/-- R407: a read of an entry that is not there has status 1 and is counted. -/
theorem test_absent : (nextOf (.u64ReadLatch 0x600001) coded).out = [.rp 1 0] ∧ (nextOf (.u64ReadLatch 0x600001) coded).ctr 0x5000 0x0A = 1 := by
  decide +kernel

/-- R416: a counter reads its count and is cleared. -/
theorem test_counter_clears :
    let t := nextOf (.u64ReadLatch 0x50C005) { coded with counters := [(0x50C005, 2 ^ 32 + 3)] }
    t.out = [.rp 0 3] ∧ t.house.latch = 1 ∧ t.ctr 0x50C0 0x05 = 0 := by decide +kernel

/-- R426: an unreadable row that holds nothing the block needs is counted; a corrected one too. -/
theorem test_patrol_corrected : (nextOf (.internalPatrolRead [(1, .corrected)] .clean) coded).ctr 0x50C0 0x0C = 1 := by decide +kernel

/-- R33: a channel that the build lacks is no port of the block. -/
theorem test_no_channel : exec (.hearthPatrolRead 12 .clean) coded = .fault .noSuchPort := rfl

/-- No row of the table has bits. -/
theorem test_decode_none : decodeTableWord 8 0 = none := rfl

/-! ## Terms that WellFormed refuses -/

theorem ill_channel (m : MemAns) (w : WBeat) :
    Instr.wf (.porchPlainRead { hall 2 with ch := 12 } m) = false ∧ Instr.wf (.porchTransposedRead { hall 2 with ch := 13 } m) = false ∧
    Instr.wf (.porchMaskedPlainRead { hall 2 with ch := 14 } m) = false ∧ Instr.wf (.porchMaskedTransposedRead { hall 2 with ch := 15 } m) = false ∧
    Instr.wf (.whorlWindowRead { hall 2 with ch := 12 } 0 .clean) = false ∧ Instr.wf (.porchWrite { hall 2 with ch := 12 } [w] m) = false ∧
    Instr.wf (.porchAtomic { hall 2 with ch := 12 } w m) = false := ⟨rfl, rfl, rfl, rfl, rfl, rfl, rfl⟩

theorem ill_write_beats (w : WBeat) (m : MemAns) :
    Instr.wf (.porchWrite (hall 2) [] m) = false ∧ Instr.wf (.porchWrite (hall 2) [w, w] m) = false := ⟨rfl, rfl⟩

theorem ill_stream_channel (m : MemAns) :
    Instr.wf (.invalidationAck 12 0 .clean) = false ∧ Instr.wf (.invalidationOverdue 12 0) = false ∧
    Instr.wf (.memoryResponse 12 0 0 true 0 0 m) = false ∧ Instr.wf (.controllerErrorReport 12 0 1 .clean) = false ∧
    Instr.wf (.hearthPatrolRead 12 m) = false ∧ Instr.wf (.tableBankCopyAgainDone 12 .clean) = false := by
  refine ⟨rfl, rfl, rfl, rfl, rfl, rfl⟩

theorem ill_units (h : RxHdr) (m : MemAns) :
    Instr.wf (.carderGroupStart 1 0 m [.lane 12 0]) = false ∧ Instr.wf (.carderGroupStart 1 0 m [.spindle 24]) = false ∧
    Instr.wf (.deltaSet h [] [.spindle 31] m) = false := ⟨rfl, rfl, rfl⟩

theorem ill_credits : Instr.wf (.creditInit false [1, 2] [1, 2, 3]) = false ∧ Instr.wf (.creditInit false [1, 2, 3] [1]) = false := ⟨rfl, rfl⟩

theorem ill_readings : Instr.wf (.healthPeriod [] 0) = false := rfl

theorem ill_response : Instr.wf (.jutusUnlock []) = false := rfl

theorem ill_path : Instr.wf (.planLoad .jtag []) = false ∧ Instr.wf (.dictionaryWrite .jtag 0 (.num 0) .clean) = false ∧
    Instr.wf (.eventAcknowledge .jtag 0 0) = false := ⟨rfl, rfl, rfl⟩

/-- A body that does not fit its length field. -/
theorem ill_body (h : RxHdr) (b : Bytes) (m : MemAns) (hb : 2 ^ 32 ≤ b.length) : Instr.wf (.mirrorPiece h b m) = false := by
  simp [Instr.wf, bodyWf]; omega

theorem ill_ocper (h : RxHdr) (q : OcperReq) (hb : 2 ^ 32 ≤ q.data.length + 16) : Instr.wf (.ocperRead h q .clean) = false := by
  simp [Instr.wf, OcperReq.wf]; omega

end Sys2Proof.Tests
end

section
/-! PROOFS. The event log, and sets whose acknowledgement is overdue (R132, R382 to R384). -/

namespace Sys2Proof.Machine

/-! ## What counting and raising an event leave alone -/

/-- A state that has counted conditions and entered or suppressed events. -/
def Logged (s t : State) : Prop :=
  ∃ (counters : List (Nat × Nat)) (events : List Event) (nextSeq : Nat) (frameEvents : List (Nat × Nat × Nat × Nat)),
    t = { s with counters := counters,
                 house := { s.house with events := events, nextSeq := nextSeq, frameEvents := frameEvents } }

theorem Logged.trans {s t u : State} (h : Logged s t) (g : Logged t u) : Logged s u := by
  obtain ⟨_, _, _, _, rfl⟩ := h
  obtain ⟨a, b, c, d, rfl⟩ := g
  exact ⟨a, b, c, d, rfl⟩

theorem Logged.fx {s t : State} (h : Logged s t) : t.fx = s.fx := by obtain ⟨_, _, _, _, rfl⟩ := h; rfl

theorem Logged.hearth {s t : State} (h : Logged s t) : t.hearth = s.hearth := by obtain ⟨_, _, _, _, rfl⟩ := h; rfl

theorem State.bump_logged (idx subi n : Nat) (s : State) : Logged s (State.bump idx subi n s) := ⟨_, _, _, _, rfl⟩

theorem State.setFrameEvents_logged (fe : List (Nat × Nat × Nat × Nat)) (s : State) : Logged s (State.setFrameEvents fe s) :=
  ⟨_, _, _, _, rfl⟩

theorem State.enter_logged (kind idx subi detail : Nat) (s : State) : Logged s (State.enter kind idx subi detail s) := by
  unfold State.enter
  dsimp only
  split
  · exact ⟨_, _, _, _, rfl⟩
  · exact ⟨_, _, _, _, rfl⟩

/-- An event enters the log or counts as suppressed (R383); either way the block's units are what they were. -/
theorem State.raise_logged (kind idx subi detail : Nat) (s : State) : Logged s (State.raise kind idx subi detail s) := by
  unfold State.raise
  dsimp only
  split
  · exact (State.setFrameEvents_logged _ s).trans (State.enter_logged ..)
  · split
    · exact (State.setFrameEvents_logged _ s).trans (State.enter_logged ..)
    · exact (State.setFrameEvents_logged _ s).trans (State.bump_logged ..)

theorem State.countNote_logged (idx subi detail : Nat) (s : State) : Logged s (State.countNote idx subi detail s) :=
  (State.bump_logged idx subi 1 s).trans (State.raise_logged ..)

@[simp] theorem State.countNote_fx (idx subi detail : Nat) (s : State) : (State.countNote idx subi detail s).fx = s.fx :=
  (State.countNote_logged idx subi detail s).fx

@[simp] theorem State.countNote_hearth (idx subi detail : Nat) (s : State) :
    (State.countNote idx subi detail s).hearth = s.hearth := (State.countNote_logged idx subi detail s).hearth

/-! ## Groups in flight -/

@[simp] theorem State.updGroup_fx (gr : GroupRt) (f : GroupRt → GroupRt) (s : State) : (State.updGroup gr f s).fx = s.fx := rfl
@[simp] theorem State.updGroup_hearth (gr : GroupRt) (f : GroupRt → GroupRt) (s : State) :
    (State.updGroup gr f s).hearth = s.hearth := rfl

/-! ## Sets past their timeout (R132) -/

/-- A group in flight is the one named and its set of the role is neither acknowledged nor counted as overdue. -/
def GroupRt.overdue (h role g pos : Nat) (x : GroupRt) : Bool :=
  x.position == pos && x.hank == h && x.group == g && x.sets.any (fun y => y.role == role && !y.acked && !y.timedOut)

/-- The group with its sets of a role marked as counted. -/
def GroupRt.markTimedOut (role : Nat) (x : GroupRt) : GroupRt :=
  { x with sets := mapIf (fun y => y.role == role) (fun y => { y with timedOut := true }) x.sets }

theorem State.ackTimeout_of_overdue {h role g pos : Nat} {s : State} {gr : GroupRt}
    (hf : s.card.inflight.find? (GroupRt.overdue h role g pos) = some gr) :
    State.ackTimeout h role g pos s =
      State.countNote 0x5040 0x08 (State.hankDetail h g) (State.updGroup gr (GroupRt.markTimedOut role) s) := by
  unfold GroupRt.overdue at hf
  simp only [State.ackTimeout, hf]
  rfl

theorem State.ackTimeout_of_none_overdue {h role g pos : Nat} {s : State}
    (hf : s.card.inflight.find? (GroupRt.overdue h role g pos) = none) : State.ackTimeout h role g pos s = s := by
  unfold GroupRt.overdue at hf
  simp only [State.ackTimeout, hf]

/-- ACK_TIMEOUT acts on the state in which a command's effect begins, and the command then ends. -/
theorem exec_ackTimeout (hank : BitVec 12) (role : BitVec 1) (group : BitVec 32) (pos : BitVec 4) (mem : MemAns) (s : State) :
    exec (.ackTimeout hank role group pos mem) s =
      .next (State.finish (State.ackTimeout hank.toNat role.toNat group.toNat pos.toNat (State.begun mem s))) := rfl

/-- Settles O50: an expiry does what `ackTimeout` does to the first group that is overdue, and the count and its event touch neither the
fabric nor the hearth. -/
theorem overdueSetsAreCountedNotResent : Obligations.OverdueSetsAreCountedNotResent := by
  intro hank r g pos mem s overdue s0
  refine ⟨fun gr hf => ⟨?_, ?_, ?_⟩, fun hf => ?_⟩
  · rw [exec_ackTimeout, State.ackTimeout_of_overdue hf]
    rfl
  · rw [State.countNote_fx, State.updGroup_fx]
  · rw [State.countNote_hearth, State.updGroup_hearth]
  · rw [exec_ackTimeout, State.ackTimeout_of_none_overdue hf]

end Sys2Proof.Machine
end

section
/-! PROOFS. What the reads of internal SRAM before a command, and the restart that they may lead to, leave of the power and reset
state (R355, R426, R429). -/

namespace Sys2Proof.Machine

/-! ## Loops, branches and what counts, logs or sends -/

@[simp] theorem State.ite_sys {p : Prop} [Decidable p] (s t : State) : (if p then s else t).sys = if p then s.sys else t.sys :=
  apply_ite State.sys p s t

/-- A loop leaves alone what each of its turns leaves alone. -/
theorem forEach_proj {α β : Type} (p : State → β) {f : α → State → State} (hf : ∀ x t, p (f x t) = p t) (l : List α) (s : State) :
    p (forEach l f s) = p s := by
  induction l generalizing s with
  | nil => rfl
  | cons x xs ih => exact (ih (f x s)).trans (hf x s)

theorem forEach_sys {α : Type} {f : α → State → State} (hf : ∀ x t, (f x t).sys = t.sys) (l : List α) (s : State) :
    (forEach l f s).sys = s.sys := forEach_proj State.sys hf l s

theorem Logged.sys {s t : State} (h : Logged s t) : t.sys = s.sys := by obtain ⟨_, _, _, _, rfl⟩ := h; rfl

theorem Sent.sys {s t : State} (h : Sent s t) : t.sys = s.sys := by obtain ⟨_, _, _, _, _, _, _, rfl⟩ := h; rfl

@[simp] theorem State.raise_sys (kind idx subi detail : Nat) (s : State) : (State.raise kind idx subi detail s).sys = s.sys :=
  (State.raise_logged ..).sys

@[simp] theorem State.note_sys (idx subi detail : Nat) (s : State) : (State.note idx subi detail s).sys = s.sys := State.raise_sys ..

@[simp] theorem State.changed_sys (idx subi value : Nat) (s : State) : (State.changed idx subi value s).sys = s.sys := State.raise_sys ..

@[simp] theorem State.countNote_sys (idx subi detail : Nat) (s : State) : (State.countNote idx subi detail s).sys = s.sys :=
  (State.countNote_logged ..).sys

@[simp] theorem State.request_sys (engine typ dest way : Nat) (body : Bytes) (key : List Nat) (s : State) :
    (State.request engine typ dest way body key s).sys = s.sys := (State.enqueue_sent ..).sys

@[simp] theorem State.countPeriod_sys (f : HealthWin → HealthWin) (s : State) : (State.countPeriod f s).sys = s.sys := rfl

@[simp] theorem State.countBad_sys (n : Nat) (s : State) : (State.countBad n s).sys = s.sys := by simp [State.countBad]

@[simp] theorem State.countCorrected_sys (n : Nat) (s : State) : (State.countCorrected n s).sys = s.sys := by
  simp [State.countCorrected]

/-! ## The memories: reads, writes, tags and repairs -/

@[simp] theorem State.takeMem_sys (mem : MemAns) (blocks : List Nat) (s : State) : (State.takeMem mem blocks s).sys = s.sys := by
  simp [State.takeMem, forEach_sys (f := fun (r : Nat × Nat) st => State.askBlocks r.1 r.2 st) (fun _ _ => rfl)]

@[simp] theorem State.takeLines_sys (mem : MemAns) (lines : List Nat) (s : State) : (State.takeLines mem lines s).sys = s.sys := by
  simp [State.takeLines, forEach_sys (f := fun l st => State.askLine l st) (fun _ _ => rfl)]

@[simp] theorem State.askGroup_sys (mem : MemAns) (r : HankRt) (g : Nat) (s : State) : (State.askGroup mem r g s).sys = s.sys := by
  simp [State.askGroup, State.askStripes]

@[simp] theorem State.askReserve_sys (l : Layout) (pos h g : Nat) (s : State) : (State.askReserve l pos h g s).sys = s.sys := by
  simp [State.askReserve, State.askKey, forEach_sys]

@[simp] theorem State.addRepair_sys (pos h g p : Nat) (s : State) : (State.addRepair pos h g p s).sys = s.sys := by
  simp [State.addRepair]

@[simp] theorem State.mergeAt_sys (place : List Nat) (s : State) : (State.mergeAt place s).sys = s.sys := by simp [State.mergeAt]

@[simp] theorem State.setTag_sys (h b x role slot bits : Nat) (s : State) : (State.setTag h b x role slot bits s).sys = s.sys := by
  simp [State.setTag]

@[simp] theorem State.writePly_sys (l : Layout) (h lap x role : Nat) (bs : Bytes) (s : State) :
    (State.writePly l h lap x role bs s).sys = s.sys := by
  simp [State.writePly, State.writeOwnPly]

@[simp] theorem State.clearKey_sys (k : Nat × Bool) (s : State) : (State.clearKey k s).sys = s.sys := by
  simp [State.clearKey, State.clearBad]

@[simp] theorem State.plyGood_sys (l : Layout) (h lap x role : Nat) (s : State) : (State.plyGood l h lap x role s).sys = s.sys := by
  unfold State.plyGood
  split
  · exact State.clearKey_sys ..
  · rfl

@[simp] theorem State.setDies_sys (k : PageKey) (v : Nat) (s : State) : (State.setDies k v s).sys = s.sys := rfl

@[simp] theorem State.sendInv_sys (k : PageKey) (die : Nat) (s : State) : (State.sendInv k die s).sys = s.sys := by
  simp [State.sendInv]

@[simp] theorem State.invalidate_sys (ks : List PageKey) (writer : Option Nat) (s : State) :
    (State.invalidate ks writer s).sys = s.sys := by
  simp [State.invalidate, forEach_sys]

/-! ## The recomputation of a ply -/

@[simp] theorem State.finishRecomp_sys (l : Layout) (r : RecompRt) (s : State) : (State.finishRecomp l r s).sys = s.sys := by
  simp [State.finishRecomp, forEach_sys]

@[simp] theorem State.askStripe_sys (l : Layout) (node h p parity g : Nat) (key : List Nat) (s : State) :
    (State.askStripe l node h p parity g key s).sys = s.sys := State.request_sys ..

@[simp] theorem State.askRecomp_sys (l : Layout) (r : RecompRt) (s : State) : (State.askRecomp l r s).sys = s.sys := by
  refine forEach_sys (fun w t => ?_) _ _
  dsimp only
  split
  · simp
  · rfl

@[simp] theorem State.startRecomp_sys (l : Layout) (h b x role : Nat) (s : State) :
    (State.startRecomp l h b x role s).sys = s.sys := by
  simp [State.startRecomp, forEach_sys]

/-! ## The journal -/

@[simp] theorem State.setJournal_sys (j : JournalSt) (s : State) : (State.setJournal j s).sys = s.sys := rfl

@[simp] theorem State.npPump_sys (k : Nat) (s : State) : (State.npPump k s).sys = s.sys := by
  induction k generalizing s with
  | zero => rfl
  | succ k ih =>
    unfold State.npPump
    dsimp only
    split
    · rfl
    · exact ih _

@[simp] theorem State.npPush_sys (rs : List NpReq) (s : State) : (State.npPush rs s).sys = s.sys := State.npPump_sys ..

@[simp] theorem State.appendHere_sys (typ : Nat) (body : Bytes) (mark : Nat) (s : State) :
    (State.appendHere typ body mark s).sys = s.sys := by
  unfold State.appendHere
  rw [State.npPush_sys, State.setJournal_sys]

@[simp] theorem State.append_sys (typ : Nat) (body : Bytes) (mark : Nat) (s : State) : (State.append typ body mark s).sys = s.sys := by
  unfold State.append
  dsimp only
  split
  · rfl
  · rw [State.appendHere_sys, State.ite_sys, State.appendHere_sys, ite_self]

@[simp] theorem State.npAsk_sys (lines : List Nat) (s : State) : (State.npAsk lines s).sys = s.sys := by
  simp [State.npAsk, forEach_sys]

@[simp] theorem State.foundJournal_sys (x : Nat × Nat × Nat × Nat) (w : Walk) (state : Nat) (s : State) :
    (State.foundJournal x w state s).sys = s.sys := rfl

@[simp] theorem State.countTorn_sys (w : Walk) (s : State) : (State.countTorn w s).sys = s.sys := by simp [State.countTorn]

@[simp] theorem State.formatStream_sys (s : State) : (State.formatStream s).sys = s.sys := by simp [State.formatStream]

@[simp] theorem State.restoreEvents_sys (es : List Event) (s : State) : (State.restoreEvents es s).sys = s.sys := by
  simp [State.restoreEvents, forEach_sys]

@[simp] theorem State.applyRec_sys (r : JRec) (s : State) : (State.applyRec r s).sys = s.sys := by
  unfold State.applyRec
  dsimp only
  split <;> simp

@[simp] theorem State.retiredMasks_sys (s : State) : (State.retiredMasks s).sys = s.sys := by
  unfold State.retiredMasks
  refine (forEach_sys (fun c t => ?_) _ _).trans ?_
  · rfl
  · simp

@[simp] theorem State.replay_sys (s : State) : (State.replay s).sys = s.sys := by
  unfold State.replay
  split
  · simp [forEach_sys]
  · exact State.formatStream_sys s

@[simp] theorem State.replayAgain_sys (s : State) : (State.replayAgain s).sys = s.sys := by
  unfold State.replayAgain
  split
  · simp
  · exact State.formatStream_sys s

@[simp] theorem State.replayEvents_sys (s : State) : (State.replayEvents s).sys = s.sys := by
  unfold State.replayEvents
  split
  · simp [forEach_sys]
  · rfl

/-! ## A restart leaves `lz_reset` low -/

@[simp] theorem State.startImage_sys (slot : Nat) (s : State) : (State.startImage slot s).sys = s.sys := by
  simp [State.startImage, State.askJournal, State.firstStart]

@[simp] theorem State.putSlot_sys (slot : Nat) (x : FwSlot) (s : State) : (State.putSlot slot x s).sys = s.sys := rfl

theorem State.recover_lzReset (s : State) : (State.recover s).sys.lzReset = s.sys.lzReset := by
  simp only [State.recover, State.bump_sys, State.raise_sys, State.ite_sys, State.replayEvents_sys, ite_self]

theorem State.boot_lzReset (slot : Nat) (s : State) : (State.boot slot s).sys.lzReset = s.sys.lzReset := by
  unfold State.boot
  dsimp only
  split
  · simp
  · split
    · simp
    · simp [State.recover_lzReset]

theorem State.restart_lzReset (cause slot : Nat) (s : State) : (State.restart cause slot s).sys.lzReset = s.sys.lzReset := by
  simp [State.restart, State.boot_lzReset, State.askJournal]

theorem State.watchdog_lzReset (s : State) : (State.watchdog s).sys.lzReset = s.sys.lzReset := by
  unfold State.watchdog
  dsimp only
  split <;> simp [State.restart_lzReset]

/-! ## The reads of internal SRAM -/

theorem State.bobbinRead_sys (pos h g : Nat) (grads : Bool) (s : State) : (State.bobbinRead pos h g grads s).sys = s.sys := by
  unfold State.bobbinRead
  split
  · rfl
  split
  · rfl
  split
  · split
    · rfl
    · simp [forEach_sys]
  · exact State.askReserve_sys ..

theorem State.loseKey_sys (key : Nat) (s : State) : (State.loseKey key s).sys = s.sys := by
  unfold State.loseKey
  split <;> simp

theorem State.uncorrected_sys (bank row : Nat) (s : State) : (State.uncorrected bank row s).sys = s.sys := by
  simp [State.uncorrected, State.watchNew, State.updWatch, State.watchRow]

theorem State.corrected_sys (bank row : Nat) (s : State) : (State.corrected bank row s).sys = s.sys := by
  simp [State.corrected, State.watchNew, State.updWatch, State.watchRow]

/-- Of the holders of Table 15.3 only the core's SRAM restarts anything, and that is the housekeeper. -/
theorem State.loseRow_lzReset (bank row : Nat) (holder : SramHolder) (s : State) :
    (State.loseRow bank row holder s).sys.lzReset = s.sys.lzReset := by
  cases holder with
  | coreSram => exact State.watchdog_lzReset s
  | eventLog seq => rfl
  | keyStore k => exact congrArg _ (State.loseKey_sys ..)
  | bobbinOld pos h g => exact congrArg _ (State.bobbinRead_sys ..)
  | bobbinNew pos h g => exact congrArg _ (State.bobbinRead_sys ..)
  | tagStore role band x =>
    simp only [State.loseRow]
    split
    · rfl
    split
    · simp
    · rfl
  | header h i bytes => rfl
  | tableBank ch => simp [State.loseRow]
  | presence ch i => simp [State.loseRow, forEach_sys]
  | other => simp [State.loseRow]

theorem State.rowFound_lzReset (patrol : Bool) (bank row : Nat) (found : RowRead) (s : State) :
    (State.rowFound patrol bank row found s).sys.lzReset = s.sys.lzReset := by
  cases found with
  | clean => rfl
  | corrected => simp [State.rowFound, State.corrected_sys]
  | uncorrectable holder =>
    simp only [State.rowFound]
    split
    · simp [State.loseRow_lzReset, State.uncorrected_sys]
    · rfl

theorem State.sramReads_lzReset (s : State) : (State.sramReads s).sys.lzReset = s.sys.lzReset := by
  unfold State.sramReads
  split
  · rfl
  · exact forEach_proj (fun t => t.sys.lzReset) (fun _ _ => State.rowFound_lzReset ..) _ s

theorem State.begun_lzReset (mem : MemAns) (s : State) : (State.begun mem s).sys.lzReset = s.sys.lzReset :=
  State.sramReads_lzReset _

theorem State.sampleTime_sys (ht : Nat) (s : State) : (State.sampleTime ht s).sys = s.sys := by
  obtain h | h | h := State.sampleTime_cases ht s
  · rw [h]
  · rw [h, State.bump_sys]
  · rw [h]

theorem arrival_lzReset (c : Instr) (s : State) : (arrival c s).sys.lzReset = s.sys.lzReset := by
  have hb := State.begun_lzReset (memOf c) s
  unfold arrival
  dsimp only
  split
  · simp [State.ready, State.sampleTime_sys, hb]
  · exact hb

end Sys2Proof.Machine
end

section
/-! PROOFS. The receive checks of Table 11.6, and what a message that passes or fails them does (R313, R326, R335). -/

namespace Sys2Proof.Machine

/-! ## The table of the checks -/

/-- The incarnation of a message is behind that of its context (order 5). -/
def State.behind (typ : Nat) (h : RxHdr) (s : State) : Bool :=
  match s.recvOf h.source.toNat ((msgClass typ).getD 2) with
  | some x => ahead 16 x.incarnation h.incarnation.toNat
  | none => false

/-- The context of a message with its counter in it (order 7). -/
def State.window (typ : Nat) (h : RxHdr) (s : State) : Option RxCtx :=
  let cls := (msgClass typ).getD 2
  State.windowStep (s.recvOf h.source.toNat cls) h.source.toNat cls h.incarnation.toNat h.alive.toNat
    (cls == 2 && bit h.flags.toNat 0)

/-- A message passes the check of one order of Table 11.6; order 0 is `lz_ready` (R335). -/
def State.passesOrder (typ : Nat) (h : RxHdr) (body : Bytes) (s : State) : Nat → Bool
  | 0 => s.sys.ready
  | 1 => crc32c (State.rxBytes typ h body) == h.trailer.toNat
  | 2 => !s.malformed typ h body
  | 3 => s.knowsJob h.job.toNat || (h.job == 0 && typ == 0x38)
  | 4 => !s.authBad typ h body
  | 5 => !s.behind typ h
  | 6 => (msgClass typ).getD 2 == 2 || s.pins.contains (h.source.toNat, (msgClass typ).getD 2)
  | 7 => (s.window typ h).isSome
  | _ => (msgClass typ).getD 2 != 1 || (s.openReq h.request.toNat).isSome

/-- A message passes the checks up to an order. -/
def State.passesTo (typ : Nat) (h : RxHdr) (body : Bytes) (s : State) : Nat → Bool
  | 0 => s.passesOrder typ h body 0
  | n + 1 => s.passesTo typ h body n && s.passesOrder typ h body (n + 1)

section
variable {typ : Nat} {h : RxHdr} {body : Bytes} {s : State}

/-- The checks of the model are those of the table, one after the other. -/
theorem State.failedCheck_eq : s.failedCheck typ h body =
    if !s.passesOrder typ h body 0 then 2
    else if !s.passesOrder typ h body 1 then 1
    else if !s.passesOrder typ h body 2 then 2
    else if !s.passesOrder typ h body 3 then 3
    else if !s.passesOrder typ h body 4 then 4
    else if !s.passesOrder typ h body 5 then 5
    else if !s.passesOrder typ h body 6 then 6
    else if !s.passesOrder typ h body 7 then 7
    else if !s.passesOrder typ h body 8 then 8
    else 0 := by
  simp only [State.passesOrder, Bool.not_or, Bool.not_not, Option.not_isSome, bne]
  rfl

theorem State.failedCheck_unready (hr : s.passesOrder typ h body 0 = false) : s.failedCheck typ h body = 2 := by
  simp [State.failedCheck_eq, hr]

/-- The order that a message fails is the first whose check it does not pass. -/
theorem State.failedCheck_first {n : Nat} (hn : n < 8) (hp : s.passesTo typ h body n = true)
    (hf : s.passesOrder typ h body (n + 1) = false) : s.failedCheck typ h body = n + 1 := by
  obtain rfl | rfl | rfl | rfl | rfl | rfl | rfl | rfl :
    n = 0 ∨ n = 1 ∨ n = 2 ∨ n = 3 ∨ n = 4 ∨ n = 5 ∨ n = 6 ∨ n = 7 := by omega
  all_goals
    simp only [State.passesTo, Bool.and_eq_true] at hp
    simp [State.failedCheck_eq, hp, hf]

theorem State.failedCheck_none (hp : s.passesTo typ h body 8 = true) : s.failedCheck typ h body = 0 := by
  simp only [State.passesTo, Bool.and_eq_true] at hp
  simp [State.failedCheck_eq, hp]

/-- What the receive checks leave of a message that fails the check of an order. -/
def State.discardedAs (n : Nat) (s : State) : State :=
  match n with
  | 1 => State.bump 0x50A0 0x01 1 s.noteTrailer
  | 2 => State.bump 0x50A0 0x02 1 s
  | 3 => State.bump 0x5060 0x03 1 s
  | 4 => s.authFailure
  | 5 => State.bump 0x50A0 0x04 1 s
  | 6 => State.bump 0x50A0 0x05 1 s
  | 7 => State.bump 0x50A0 0x06 1 s
  | _ => State.bump 0x50A0 0x07 1 s

theorem State.receive_discards {n : Nat} (hc : (s.arrive typ h body).failedCheck typ h body = n) (hn : n ≠ 0) :
    State.receive typ h body s = ((s.arrive typ h body).discardedAs n, none) := by
  match n, hc, hn with
  | 0, _, hn => exact absurd rfl hn
  | 1, hc, _ | 2, hc, _ | 3, hc, _ | 4, hc, _ | 5, hc, _ | 6, hc, _ | 7, hc, _ | _ + 8, hc, _ =>
    simp only [State.receive, hc]
    rfl

end

/-! ## The commands that bring a message -/

/-- The own effect of the row of a message, once the message is taken in. -/
def ownEffect (c : Instr) : HeldMsg → State → State :=
  match c with
  | .wcomp .. => State.onWcomp
  | .rdata .. => State.onRdata
  | .fabricAtomic .. => State.fabricAtomic
  | .deltaSet _ _ faults _ => State.sampledSet faults
  | .deltaAck .. => State.onDeltaAck
  | .mirrorPiece .. => State.onMirrorPiece
  | .mirrorAck .. => State.onMirrorAck
  | .reRequest .. => State.onReRequest
  | .reRequestAnswer .. => State.onReAnswer
  | .plyRead .. => State.onPlyRead
  | .stripeRead .. => State.onStripeRead
  | .readAnswer .. => State.readAnswer
  | .fillSet .. => State.onFillSet
  | .fillAck .. => State.onFillAck
  | .adoptionReport .. => State.onReport
  | .reportAck .. => State.onReportAck
  | .hello .. => State.onHello
  | .heartbeat .. => State.onHeartbeat
  | .vote .. => State.onVote
  | .epochRequest .. => State.onEpochRequest
  | .epochRecord .. => State.onEpochRecord
  | .vacate .. => State.onVacate
  | .vacateAck .. => State.onVacateAck
  | .recoded .. => State.onRecoded
  | .recordNotice .. => State.onNotice
  | .ocperRead .. => State.onOcper
  | .ocperWrite .. => State.onOcper
  | .ocperBlockRead .. => State.onOcper
  | .ocperBlockWriteSegment .. => State.onOcper
  | .ocperBlockApply .. => State.onOcper
  | _ => fun _ s => s

/-- A set in whose application no unit fault is found. -/
theorem State.sampledSet_nil : State.sampledSet [] = fun m => State.onDeltaSet m none := by
  funext m s
  exact ite_self _

section
variable {c : Instr} {typ : Nat} {h : RxHdr} {body : Bytes} {s t : State}

/-- A command that brings a message takes it from its way, in the state in which it arrives. -/
theorem exec_message (hm : messageOf c = some (typ, h, body)) (hp : portExists c s = true) :
    exec c s = .next (State.finish (State.fromWay typ h body (ownEffect c) (arrival c s))) := by
  cases c
  case deltaSet => cases hm; exact if_pos hp
  all_goals cases hm
  all_goals rfl

/-- A message whose context is taken waits at its way. -/
theorem exec_waits (hm : messageOf c = some (typ, h, body)) (hp : portExists c s = true) (hr : s.sys.lzReset = false)
    (hw : (arrival c s).rxWaits typ h body = true) :
    exec c s = .next (State.finish { arrival c s with fx := { (arrival c s).fx with
      rxHeld := (arrival c s).fx.rxHeld ++ [{ typ := typ, hdr := h, body := body }] } }) := by
  rw [exec_message hm hp, State.fromWay_waits ((arrival_lzReset c s).trans hr) hw]

/-- A message that fails a check is discarded, and the command ends. -/
theorem exec_discards {n : Nat} (hm : messageOf c = some (typ, h, body)) (hp : portExists c s = true) (hr : s.sys.lzReset = false)
    (hw : (arrival c s).rxWaits typ h body = false) (ht : (arrival c s).arrive typ h body = t) (hc : t.failedCheck typ h body = n)
    (hn : n ≠ 0) : exec c s = .next (State.finish (t.discardedAs n)) := by
  subst ht
  rw [exec_message hm hp, State.fromWay_discarded ((arrival_lzReset c s).trans hr) hw (State.receive_discards hc hn)]

/-- A message that fails the check after those it passes is discarded as the order of that check says. -/
theorem exec_discards_first (n : Nat) (hm : messageOf c = some (typ, h, body)) (hp : portExists c s = true)
    (hr : s.sys.lzReset = false) (hw : (arrival c s).rxWaits typ h body = false) (ht : (arrival c s).arrive typ h body = t)
    (hn : n < 8) (hq : t.passesTo typ h body n = true) (hf : t.passesOrder typ h body (n + 1) = false) :
    exec c s = .next (State.finish (t.discardedAs (n + 1))) :=
  exec_discards hm hp hr hw ht (State.failedCheck_first hn hq hf) n.succ_ne_zero

/-- A message that passes all checks is taken in. -/
theorem admits_of_passes (hm : messageOf c = some (typ, h, body)) (hr : s.sys.lzReset = false)
    (hw : (arrival c s).rxWaits typ h body = false) (ht : (arrival c s).arrive typ h body = t) (hq : t.passesTo typ h body 8 = true) :
    Admits c s := by
  subst ht
  simp only [Admits, hm]
  exact ⟨(arrival_lzReset c s).trans hr, hw, State.failedCheck_none hq⟩

/-- A command whose message is taken in does what its row does, and then what that set free goes on. -/
theorem exec_admitted (ha : Admits c s) (hp : portExists c s = true) :
    exec c s = .next (State.finish (State.settleAll (ownEffect c (messageIn c) (takenIn c s)))) := by
  unfold Admits at ha
  split at ha
  · exact ha.elim
  · rename_i typ h body hm
    obtain ⟨hr, hw, hc⟩ := ha
    simp only [exec_message hm hp, State.fromWay_admitted hr hw hc, messageIn, takenIn, hm]

end

/-- Settles O38: the checks come in the table's order, the first that a message fails discards it, and one that passes all of them has the
effect of its row. -/
theorem messagesAreChecked : Obligations.MessagesAreChecked := by
  refine ⟨fun c typ h body s hm hp hr => ?_, fun h b q ht mem s => ?_⟩
  · intro s0 s1 cls ctx behind window whole jobOk after1 after2 after3 after4 after5 after6 after7
    refine ⟨exec_waits hm hp hr, fun hw => ?_⟩
    -- the clauses only speak of the state after the arrival, never of how it came to be
    have ht : s0.arrive typ h body = s1 := rfl
    clear_value s1
    have first (n : Nat) := exec_discards_first n hm hp hr hw ht
    and_intros
    · exact fun h0 => exec_discards (n := 2) hm hp hr hw ht (State.failedCheck_unready h0) (by decide)
    · exact fun h0 h1 => first 0 (by decide) h0 h1
    · exact fun h1 h2 => first 1 (by decide) h1 (congrArg not h2)
    · exact fun h2 h3 => first 2 (by decide) h2 h3
    · exact fun h3 h4 => first 3 (by decide) h3 (congrArg not h4)
    · exact fun h4 h5 => first 4 (by decide) h4 (congrArg not h5)
    · exact fun h5 hc hpin => first 5 (by decide) h5 (Bool.or_eq_false_iff.mpr ⟨beq_eq_false_iff_ne.mpr hc, hpin⟩)
    · exact fun h6 h7 => first 6 (by decide) h6 (congrArg Option.isSome h7)
    · exact fun h7 hc h8 => first 7 (by decide) h7 (Bool.or_eq_false_iff.mpr ⟨bne_eq_false_iff_eq.mpr hc, congrArg Option.isSome h8⟩)
    · exact fun h7 h8 => admits_of_passes hm hr hw ht
        (Bool.and_eq_true_iff.mpr ⟨h7, Bool.or_eq_true_iff.mpr (h8.imp_left bne_iff_ne.mpr)⟩)
  · intro rows
    have effects : ∀ x ∈ rows, portExists x.1 s = true ∧ ownEffect x.1 = x.2 := by
      simp only [rows, List.forall_mem_cons, List.not_mem_nil, false_imp_iff, implies_true, and_true, ownEffect, State.sampledSet_nil]
      and_intros <;> rfl
    intro x hx ha
    obtain ⟨hp, he⟩ := effects x hx
    rw [exec_admitted ha hp, he]

end Sys2Proof.Machine
end

section
/-! PROOFS. Requests to entries of the object dictionary that are not there (R407). -/

namespace Sys2Proof.Machine

/-! ## The dictionary in the running block -/

section
variable {path : Path} {addr : Nat} {v : Val} {s : State}

/-- While the firmware runs, no access of any path is put off. -/
theorem State.serves_running {w : Option Val} (hk : s.sys.hk = .running) : s.serves path addr w = true := by
  unfold State.serves
  rw [hk]

theorem State.readValue_absent (he : entry? s.straps.build (addrIdx addr) (addrSub addr) = none) : s.readValue path addr = none := by
  simp only [State.readValue, he]

/-- The apply of the transfer window aside, a write of an absent entry is counted and no more. -/
theorem State.dictWrite_absent (he : entry? s.straps.build (addrIdx addr) (addrSub addr) = none) (ha : addr ≠ 0x10FD04) :
    s.dictWrite path addr v = (s.noEntry, .absent) := by
  unfold State.dictWrite
  rw [if_neg ha, State.writeEntry_absent he]

/-! ## The register port -/

theorem State.portReadOut_absent (hk : s.sys.hk = .running) (he : entry? s.straps.build (addrIdx addr) (addrSub addr) = none) :
    s.portReadOut addr = s.noEntry.emit (.rp 1 0) := by
  simp only [State.portReadOut, State.wordRead, State.serves_running hk, State.readValue_absent he, Bool.not_true, Bool.false_eq_true,
    if_false]

/-- A write of an absent entry is answered so on its path, whatever value the path carries. -/
theorem State.ownWrite_absent (hk : s.sys.hk = .running) (he : entry? s.straps.build (addrIdx addr) (addrSub addr) = none)
    (ha : addr ≠ 0x10FD04) : s.ownWrite path addr v = s.noEntry.answerWrite path .absent := by
  simp only [State.ownWrite, State.gateWrite, State.serves_running hk, State.dictWrite_absent he ha, if_true, reduceCtorEq, if_false]

/-! ## The monitor -/

theorem State.jutusRun_running {f : State → State} (hk : s.sys.hk = .running) : s.jutusRun f = f s := by
  simp only [State.jutusRun, State.jutusUp, hk, BEq.rfl, if_true]

theorem State.jutusUnlockedOnly_unlocked {f : State → State} (hu : s.house.jutus.unlocked = true) :
    s.jutusUnlockedOnly addr f = f s := if_pos hu

theorem State.jutusReadEntry_absent (he : entry? s.straps.build (addrIdx addr) (addrSub addr) = none) :
    s.jutusReadEntry addr = s.noEntry.say ["no such entry"] := by
  simp only [State.jutusReadEntry, State.readValue_absent he]

theorem State.jutusPut_absent {n : Nat} (he : entry? s.straps.build (addrIdx addr) (addrSub addr) = none) (ha : addr ≠ 0x10FD04) :
    s.jutusPut addr n = s.noEntry.say ["no such entry"] := by
  simp only [State.jutusPut, State.dictWrite_absent he ha, State.jutusWritten]

end

/-- The answer of one line as the text that it sends: the line, CR LF and the prompt (R401). -/
theorem State.say_noSuchEntry (s : State) : s.say ["no such entry"] = s.emit (.serial "no such entry\r\nlz> ") := by
  have ht : String.intercalate "\r\n" ["no such entry"] ++ "\r\nlz> " = "no such entry\r\nlz> " := by decide
  rw [State.say, ht]

/-! ## Ocper -/

section
variable {o : OcperMsg} {s : State} (he : entry? s.straps.build (addrIdx o.address) (addrSub o.address) = none)
include he

theorem State.ocperRead_absent : s.ocperRead o = s.noEntry.ocperAnswer o 3 [] := by
  simp only [State.ocperRead, State.readValue_absent he]

theorem State.ocperWrite_absent (ha : o.address ≠ 0x10FD04) (hx : s.applied o = false) :
    s.ocperWrite o = s.noEntry.ocperAnswer o 3 [] := by
  simp only [State.ocperWrite, hx, he, State.dictWrite_absent he ha, State.ocperWritten, ocperStatus, Bool.false_eq_true, reduceCtorEq,
    if_false]

theorem State.ocperBlockRead_absent : s.ocperBlockRead o = s.noEntry.ocperAnswer o 3 [] := by
  simp only [State.ocperBlockRead, State.readValue_absent he]

theorem State.ocperSegment_absent : s.ocperSegment o = s.noEntry.ocperAnswer o 3 [] := by
  simp only [State.ocperSegment, he, Option.isNone_none, if_true]

theorem State.ocperApply_absent (hx : s.applied o = false) : s.ocperApply o = s.noEntry.ocperAnswer o 3 [] := by
  simp only [State.ocperApply, hx, he, Option.isNone_none, Bool.false_eq_true, if_false, if_true]

end

/-- Each of the five operations of Table 13.11 answers a well-formed request to an absent entry with status 3. -/
theorem State.onOcper_absent {m : HeldMsg} {s t : State} (ht : s.noteRequest (readOcper m) = t) (hop : (readOcper m).op ∈ [1, 2, 3, 4, 5])
    (hk : t.sys.hk = .running) (hb : (readOcper m).badForm = false)
    (he : entry? t.straps.build (addrIdx (readOcper m).address) (addrSub (readOcper m).address) = none)
    (ha : (readOcper m).address ≠ 0x10FD04) (hx : t.applied (readOcper m) = false) :
    s.onOcper m = t.noEntry.ocperAnswer (readOcper m) 3 [] := by
  simp only [State.onOcper, ht, hk, hb, bne_self_eq_false, Bool.false_eq_true, if_false]
  simp only [List.mem_cons, List.not_mem_nil, or_false] at hop
  rcases hop with h | h | h | h | h <;> rw [h]
  · exact State.ocperRead_absent he
  · exact State.ocperWrite_absent he ha hx
  · exact State.ocperBlockRead_absent he
  · exact State.ocperSegment_absent he
  · exact State.ocperApply_absent he hx

/-- The five commands that bring an Ocper request. -/
def ocperCommands (h : RxHdr) (q : OcperReq) (mem : MemAns) : List Instr :=
  [.ocperRead h q mem, .ocperWrite h q mem, .ocperBlockRead h q mem, .ocperBlockWriteSegment h q mem, .ocperBlockApply h q mem]

section
variable {c : Instr} {h : RxHdr} {q : OcperReq} {mem : MemAns} {s : State}

/-- The message of each names its operation. -/
theorem readOcper_op_mem (hc : c ∈ ocperCommands h q mem) : (readOcper (messageIn c)).op ∈ [1, 2, 3, 4, 5] := by
  have hops : (ocperCommands h q mem).map (fun c => (readOcper (messageIn c)).op) = [1, 2, 3, 4, 5] := rfl
  exact hops ▸ List.mem_map_of_mem hc

/-- Once its request is taken in, each does what the front end makes of a request. -/
theorem exec_ocper_admitted (hc : c ∈ ocperCommands h q mem) (ha : Admits c s) :
    exec c s = .next (State.finish (State.settleAll (State.onOcper (messageIn c) (takenIn c s)))) := by
  have effects : ∀ c ∈ ocperCommands h q mem, portExists c s = true ∧ ownEffect c = State.onOcper := by
    simp only [ocperCommands, List.forall_mem_cons, List.not_mem_nil, false_imp_iff, implies_true, and_true]
    and_intros <;> rfl
  obtain ⟨hp, hf⟩ := effects c hc
  rw [exec_admitted ha hp, hf]

end

/-! ## The commands of the register port and of the monitor -/

theorem State.begun_clean_sys (s : State) : (State.begun .clean s).sys = s.sys := by rw [State.begun_clean]

theorem State.begun_clean_straps (s : State) : (State.begun .clean s).straps = s.straps := by rw [State.begun_clean]

theorem exec_u64ReadLatch (a : BitVec 24) (s : State) :
    exec (.u64ReadLatch a) s = .next (State.finish ((State.begun .clean s).ready (State.portReadOut a.toNat))) := rfl

theorem exec_jutusRead (a : BitVec 24) (s : State) :
    exec (.jutusRead a) s = .next (State.finish ((State.begun .clean s).jutusRun (State.jutusReadEntry a.toNat))) := rfl

theorem exec_dictionaryWrite_regPort (a : BitVec 24) (v : Val) (mem : MemAns) (s : State) :
    exec (.dictionaryWrite .regPort a v mem) s =
      .next (State.finish (State.settleAll ((State.begun mem s).ready (State.ownWrite .regPort a.toNat v)))) := rfl

theorem exec_jutusWrite (a : BitVec 24) (w : BitVec 64) (mem : MemAns) (s : State) :
    exec (.jutusWrite a w mem) s = .next (State.finish (State.settleAll
      ((State.begun mem s).jutusRun (State.jutusUnlockedOnly a.toNat (State.jutusPut a.toNat w.toNat))))) := rfl

/-- Settles O60: on each path the request comes down to the count of an absent entry and the answer of that path. -/
theorem absentEntriesAreAnswered : Obligations.AbsentEntriesAreAnswered := by
  intro a w h q mem s
  refine ⟨fun hk _ hr he _ => ?_, ?_, ?_⟩
  · rw [← State.begun_clean_sys s] at hk hr
    rw [← State.begun_clean_straps s] at he
    refine ⟨?_, ?_⟩
    · rw [exec_u64ReadLatch, State.ready_up hr, State.portReadOut_absent hk he, State.begun_clean]
      rfl
    · rw [exec_jutusRead, State.jutusRun_running hk, State.jutusReadEntry_absent he, State.say_noSuchEntry, State.begun_clean]
      rfl
  · intro s0 hk _ hr he ha
    refine ⟨?_, fun hu => ?_⟩
    · rw [exec_dictionaryWrite_regPort, State.ready_up hr, State.ownWrite_absent hk he ha]
      rfl
    · rw [exec_jutusWrite, State.jutusRun_running hk, State.jutusUnlockedOnly_unlocked hu, State.jutusPut_absent he ha,
        State.say_noSuchEntry]
      rfl
  · intro c hc hadm o t hk hb he ha hx
    rw [exec_ocper_admitted hc hadm, State.onOcper_absent rfl (readOcper_op_mem hc) hk hb he ha hx]
    rfl

end Sys2Proof.Machine
end

section
/-! PROOFS. The frame of every command: which command the step takes, that it completes where the build has its port, and what it keeps
(Keeps.lean). -/

namespace Sys2Proof.Machine

section
variable {c : Instr} {s t : State}

/-! ## A command completes where the build has its port -/

theorem exec_completes (hp : portExists c s = true) : ∃ t : State, exec c s = .next t := by
  cases c
  case carderGroupStart | adoptedGroupComplete | deltaSet | porchPlainRead | porchTransposedRead | porchMaskedPlainRead |
      porchMaskedTransposedRead | whorlWindowRead | porchWrite | porchAtomic | invalidationAck | invalidationOverdue | memoryResponse |
      controllerErrorReport | hearthPatrolRead | mergeBufferIdle | tableBankCopyAgainDone => exact ⟨_, if_pos hp⟩
  all_goals exact ⟨_, rfl⟩

theorem exec_noSuchPort (hp : portExists c s = false) : exec c s = .fault .noSuchPort := by
  cases c
  case carderGroupStart | adoptedGroupComplete | deltaSet | porchPlainRead | porchTransposedRead | porchMaskedPlainRead |
      porchMaskedTransposedRead | whorlWindowRead | porchWrite | porchAtomic | invalidationAck | invalidationOverdue | memoryResponse |
      controllerErrorReport | hearthPatrolRead | mergeBufferIdle | tableBankCopyAgainDone => exact if_neg (Bool.eq_false_iff.mp hp)
  all_goals cases hp

theorem portExists_of_next (hx : exec c s = .next t) : portExists c s = true := by
  cases hp : portExists c s with
  | true => rfl
  | false =>
    rw [exec_noSuchPort hp] at hx
    cases hx

/-! ## A command keeps what its effect keeps -/

namespace Keeps

variable {mem : MemAns} {f : State → State} {p : Prop} [Decidable p] {r : Fault}

theorem ite {u : State} (h1 : Keeps s t) (h2 : Keeps s u) : Keeps s (if p then t else u) := by
  split
  · exact h1
  · exact h2

theorem of_run (hx : Host.Outcome.next (State.run f s) = (.next t : Host.Outcome State Fault Refusal))
    (hf : ∀ {t s : State}, Keeps t s → Keeps t (f s)) : Keeps s t := by
  cases hx
  exact State.run_keeps hf (.refl s)

theorem of_runMem (hx : Host.Outcome.next (State.runMem mem f s) = (.next t : Host.Outcome State Fault Refusal))
    (hf : ∀ {t s : State}, Keeps t s → Keeps t (f s)) : Keeps s t := by
  cases hx
  exact State.runMem_keeps hf (.refl s)

theorem of_runSettledMem (hx : Host.Outcome.next (State.runSettledMem mem f s) = (.next t : Host.Outcome State Fault Refusal))
    (hf : ∀ {t s : State}, Keeps t s → Keeps t (f s)) : Keeps s t := by
  cases hx
  exact State.runSettledMem_keeps hf (.refl s)

theorem of_port_run (hx : (if p then .next (State.run f s) else .fault r : Host.Outcome State Fault Refusal) = .next t)
    (hf : ∀ {t s : State}, Keeps t s → Keeps t (f s)) : Keeps s t := by
  split at hx
  · exact of_run hx hf
  · cases hx

theorem of_port_runSettledMem (hx : (if p then .next (State.runSettledMem mem f s) else .fault r : Host.Outcome State Fault Refusal) = .next t)
    (hf : ∀ {t s : State}, Keeps t s → Keeps t (f s)) : Keeps s t := by
  split at hx
  · exact of_runSettledMem hx hf
  · cases hx

end Keeps

/-- The own effect of a message keeps. -/
theorem ownEffect_keeps {m : HeldMsg} {t s : State} (k : Keeps t s) : Keeps t (ownEffect c m s) := by
  cases c
  case wcomp => exact State.onWcomp_keeps k
  case rdata => exact State.onRdata_keeps k
  case fabricAtomic => exact State.fabricAtomic_keeps k
  case deltaSet => exact State.sampledSet_keeps k
  case deltaAck => exact State.onDeltaAck_keeps k
  case mirrorPiece => exact State.onMirrorPiece_keeps k
  case mirrorAck => exact State.onMirrorAck_keeps k
  case reRequest => exact State.onReRequest_keeps k
  case reRequestAnswer => exact State.onReAnswer_keeps k
  case plyRead => exact State.onPlyRead_keeps k
  case stripeRead => exact State.onStripeRead_keeps k
  case readAnswer => exact State.readAnswer_keeps k
  case fillSet => exact State.onFillSet_keeps k
  case fillAck => exact State.onFillAck_keeps k
  case adoptionReport => exact State.onReport_keeps k
  case reportAck => exact State.onReportAck_keeps k
  case hello => exact State.onHello_keeps k
  case heartbeat => exact State.onHeartbeat_keeps (x0 := m) k
  case vote => exact State.onVote_keeps k
  case epochRequest => exact State.onEpochRequest_keeps k
  case epochRecord => exact State.onEpochRecord_keeps k
  case vacate => exact State.onVacate_keeps k
  case vacateAck => exact State.onVacateAck_keeps k
  case recoded => exact State.onRecoded_keeps k
  case recordNotice => exact State.onNotice_keeps k
  case ocperRead | ocperWrite | ocperBlockRead | ocperBlockWriteSegment | ocperBlockApply => exact State.onOcper_keeps k
  all_goals exact k

theorem arrival_keeps : Keeps s (arrival c s) := by
  have hb : Keeps s (State.begun (memOf c) s) := State.sramReads_keeps (State.begin_keeps (.refl s))
  unfold arrival
  dsimp only
  split
  · exact State.ready_keeps State.sampleTime_keeps hb
  · exact hb

/-- A message's command: its arrival, the receive checks and the own effect keep. -/
theorem Keeps.of_message {typ : Nat} {h : RxHdr} {body : Bytes} (hm : messageOf c = some (typ, h, body)) (hx : exec c s = .next t) :
    Keeps s t := by
  rw [exec_message hm (portExists_of_next hx)] at hx
  cases hx
  exact State.finish_keeps (State.fromWay_keeps ownEffect_keeps arrival_keeps)

/-- Every command keeps the straps, the queue it is given, the free values from below, and the form of memories and counters. -/
theorem exec_keeps (hx : exec c s = .next t) : Keeps s t := by
  cases c
  case wcomp | rdata | fabricAtomic | deltaSet | deltaAck | mirrorPiece | mirrorAck | reRequest | reRequestAnswer | plyRead | stripeRead |
      readAnswer | fillSet | fillAck | adoptionReport | reportAck | hello | heartbeat | vote | epochRequest | epochRecord | vacate |
      vacateAck | recoded | recordNotice | ocperRead | ocperWrite | ocperBlockRead | ocperBlockWriteSegment | ocperBlockApply =>
    exact .of_message rfl hx
  case planLoad | rollcallRequest | coreClockWrite | tableSetWrite | firmwareLoad | securityMinimumWrite | journalFormat |
      eventAcknowledge => exact .of_run hx (State.atPort_keeps State.ownWrite_keeps)
  case restoreRequest | contextRestore | hashProbe | replicaCopyStart => exact .of_runMem hx (State.atPort_keeps State.ownWrite_keeps)
  case epochProposal | exclusionNotice | maskStripeRepair | lostMaskCopy | pageDiscard | dictionaryWrite =>
    exact .of_runSettledMem hx (State.atPort_keeps State.ownWrite_keeps)
  case transferTarget | transferDataWrite => exact .of_run hx (State.ready_keeps State.ownWrite_keeps)
  case lzReset => exact .of_run hx State.lzReset_keeps
  case sramFillDone => exact .of_runMem hx (fun k => .ite k (State.fillDone_keeps (State.sampleTime_keeps k)))
  case journalResponse => exact .of_run hx (State.awake_keeps State.journalResponse_keeps)
  case creditInit => exact .of_run hx State.creditInit_keeps
  case hallTimeInvalid => exact .of_runSettledMem hx (State.awake_keeps State.hallInvalid_keeps)
  case tick => exact .of_runSettledMem hx State.tick_keeps
  case rollcall => exact .of_runSettledMem hx State.rollcall_keeps
  case earlyClose => exact .of_runSettledMem hx State.siteEarly_keeps
  case siteClose => exact .of_runSettledMem hx State.siteLate_keeps
  case carderGroupStart => exact .of_port_runSettledMem hx State.carderStart_keeps
  case viewTrailingPass => exact .of_runSettledMem hx State.trailingPass_keeps
  case initialEncodeStart => exact .of_runSettledMem hx State.encodeStart_keeps
  case adoptedGroupComplete => exact .of_port_runSettledMem hx State.completeStart_keeps
  case audit => exact .of_runSettledMem hx (State.ready_keeps (fun k => State.audit_keeps (State.sampleTime_keeps k)))
  case sealDelayExpiry => exact .of_runSettledMem hx (State.ready_keeps State.sampleTime_keeps)
  case auditGraceExpiry => exact .of_runSettledMem hx (State.ready_keeps (fun k => State.auditGrace_keeps (State.sampleTime_keeps k)))
  case porchPlainRead =>
    exact .of_port_runSettledMem hx (fun k => .ite (State.portOther_keeps k) (.ite (State.portRead_keeps k) (State.portRead_keeps k)))
  case porchTransposedRead | porchMaskedPlainRead | porchMaskedTransposedRead => exact .of_port_runSettledMem hx State.portRead_keeps
  case whorlWindowRead => exact .of_port_runSettledMem hx State.portWindow_keeps
  case porchWrite => exact .of_port_runSettledMem hx (fun k => State.landingPass_keeps (State.portWrite_keeps k))
  case porchAtomic => exact .of_port_runSettledMem hx State.portAtomic_keeps
  case invalidationAck => exact .of_port_runSettledMem hx (State.awake_keeps State.invAck_keeps)
  case invalidationOverdue => exact .of_port_run hx State.invOverdue_keeps
  case memoryResponse => exact .of_port_runSettledMem hx (State.awake_keeps State.memResponse_keeps)
  case controllerErrorReport => exact .of_port_runSettledMem hx (State.awake_keeps State.errorReport_keeps)
  case pantryResponse => exact .of_runSettledMem hx (State.awake_keeps State.pantryResponse_keeps)
  case pantryRequestOverdue => exact .of_run hx State.pantryOverdue_keeps
  case stripeRepairStart => exact .of_runSettledMem hx State.repairStart_keeps
  case internalPatrolRead => exact .of_runSettledMem hx (State.ready_keeps State.internalPatrol_keeps)
  case hearthPatrolRead => exact .of_port_runSettledMem hx (State.ready_keeps State.hearthPatrol_keeps)
  case mergeBufferIdle => exact .of_port_run hx State.mergeIdle_keeps
  case creditReturn => exact .of_runSettledMem hx State.creditReturn_keeps
  case heartbeatPeriod =>
    exact .of_runSettledMem hx (State.ready_keeps (fun k => State.restartAlias_keeps (State.heartPeriod_keeps (State.sampleTime_keeps k))))
  case suspicion => exact .of_runMem hx State.suspect_keeps
  case catchUpTimeout => exact .of_runMem hx State.catchUpEnd_keeps
  case helloInterval => exact .of_runMem hx (State.ready_keeps (fun k => State.helloTick_keeps (State.sampleTime_keeps k)))
  case ackTimeout => exact .of_runMem hx State.ackTimeout_keeps
  case requestTimeout => exact .of_runSettledMem hx State.requestTimeout_keeps
  case watchdogExpiry => exact .of_runMem hx (State.guarded_keeps (fun k => State.watchdog_keeps (State.sampleTime_keeps k)))
  case trialTimerExpiry => exact .of_runMem hx (State.awake_keeps State.trialEnd_keeps)
  case healthPeriod => exact .of_run hx (State.ready_keeps (fun k => State.healthTurn_keeps (State.sampleTime_keeps k)))
  case ocperBufferTimeout => exact .of_run hx State.ocperTimeout_keeps
  case jutusUnlockExpiry => exact .of_run hx State.jutusExpire_keeps
  case jutusLockoutExpiry => exact .of_run hx State.jutusFree_keeps
  case eventFrameSend => exact .of_run hx (State.ready_keeps (fun k => State.eventFrame_keeps (State.sampleTime_keeps k)))
  case tableCopyDone => exact .of_run hx State.copyDone_keeps
  case offloadJobComplete => exact .of_runSettledMem hx State.jobComplete_keeps
  case admissionComplete => exact .of_runMem hx State.finishAdmission_keeps
  case firmwareVerifyDone => exact .of_run hx (State.awake_keeps State.verifyDone_keeps)
  case transferDataRead | u64ReadLatch => exact .of_run hx (State.ready_keeps State.portReadOut_keeps)
  case transferApply => exact .of_runSettledMem hx (State.ready_keeps State.ownWrite_keeps)
  case rcRead => exact .of_run hx (State.atPort_keeps State.readOut_keeps)
  case counterBulkRead => exact .of_run hx (State.atPort_keeps (fun k => .ite (State.ownWrite_keeps k) (State.readOut_keeps k)))
  case jutusHelp | jutusVersion | jutusLog | jutusSensors | jutusHealth | jutusSkein | jutusStep | jutusFrameTrace | jutusPlan | jutusMasks | jutusJournal | jutusFirmware =>
    exact .of_run hx (State.jutusRun_keeps State.say_keeps)
  case jutusRead => exact .of_run hx (State.jutusRun_keeps State.jutusReadEntry_keeps)
  case jutusDump => exact .of_run hx (State.jutusRun_keeps State.jutusDumpEntry_keeps)
  case jutusWrite => exact .of_runSettledMem hx (State.jutusRun_keeps (State.jutusUnlockedOnly_keeps State.jutusPut_keeps))
  case jutusAck =>
    exact .of_run hx (State.jutusRun_keeps (fun k => .ite (State.jutusUnlockedOnly_keeps State.jutusPut_keeps k) (State.say_keeps k)))
  case jutusCounters => exact .of_run hx (State.jutusRun_keeps (State.jutusUnlockedOnly_keeps State.jutusCountersRun_keeps))
  case jutusChallenge => exact .of_run hx (State.jutusRun_keeps (fun k => State.jutusChallengeRun_keeps (State.sampleTime_keeps k)))
  case jutusUnlock => exact .of_run hx (State.jutusRun_keeps State.jutusUnlockRun_keeps)
  case jutusLock => exact .of_run hx (State.jutusRun_keeps (State.jutusUnlockedOnly_keeps State.jutusLockRun_keeps))
  case jutusBaud => exact .of_run hx (State.jutusRun_keeps (State.jutusUnlockedOnly_keeps State.jutusPut_keeps))
  case jtagIdcode => exact .of_run hx State.jtagId_keeps
  case jtagDictrd => exact .of_run hx State.jtagDict_keeps
  case jtagMbist => exact .of_run hx State.jtagTest_keeps
  case mbistDone => exact .of_run hx State.mbistEnd_keeps
  case jtagBypass => exact .of_run hx State.jtagBypassed_keeps
  case jtagTestLogicReset => exact .of_run hx State.jtagTlr_keeps
  case hallTimeValid => exact .of_runSettledMem hx (State.awake_keeps State.hallValid_keeps)
  case tableBankCopyAgainDone => exact .of_port_runSettledMem hx State.bankAgain_keeps

end

/-! ## The step -/

theorem step_front {s : State} {c : Instr} {rest : List Instr} (h : s.pending = c :: rest) : step s = exec c { s with pending := rest } := by
  simp only [step, h]

theorem step_idle {s : State} (h : s.pending = []) : step s = .next s := by
  simp only [step, h]

/-- What a step keeps: it is the keeping of the command at the front, from the state with the queue's rest. -/
theorem step_keeps {s t : State} (hx : step s = .next t) : Keeps { s with pending := s.pending.drop 1 } t := by
  match hp : s.pending with
  | [] =>
    rw [step_idle hp] at hx
    cases hx
    exact ⟨rfl, hp, Nat.le_refl _, id, id⟩
  | c :: rest =>
    rw [step_front hp] at hx
    exact exec_keeps hx

/-- Settles O1: both clauses are the step's two equations. -/
theorem stepTakesTheFront : Obligations.StepTakesTheFront :=
  fun _ _ _ => ⟨step_front, step_idle⟩

/-- Settles O5: the commands that name a port test for it, and the others have it. -/
theorem everyCommandCompletes : Obligations.EveryCommandCompletes :=
  fun _ _ => ⟨exec_completes, exec_noSuchPort⟩

/-- Settles O3: no operation of the block leaves the canonical form or lets a counter pass its limit, and taking a command from the queue
touches neither. -/
theorem everyStepKeepsTheInvariant : Obligations.EveryStepKeepsTheInvariant :=
  fun _ _ hm hc hx => ⟨(step_keeps hx).memWf hm, (step_keeps hx).counters hc⟩

end Sys2Proof.Machine
end

section
/-! PROOFS. Lists of values by key: what a lookup finds after one key's value has been replaced, for the counters, the settings and the
staged values (R15, R408, R416). -/

namespace Sys2Proof.Machine

/-! ## Lookup by key -/

section
variable {β : Type} (l mid : List (Nat × β)) {j k : Nat}

/-- The entries of a key list below a key, new ones at it, and those above it. -/
theorem find?_replaced_same (hm : ∀ c ∈ mid, c.1 = k) :
    (l.filter (fun c => decide (c.1 < k)) ++ mid ++ l.filter (fun c => decide (k < c.1))).find? (fun c => c.1 == k) = mid.head? := by
  have low : (l.filter (fun c => decide (c.1 < k))).find? (fun c => c.1 == k) = none := by
    simp only [List.find?_eq_none, List.mem_filter, decide_eq_true_eq, beq_iff_eq]
    omega
  have high : (l.filter (fun c => decide (k < c.1))).find? (fun c => c.1 == k) = none := by
    simp only [List.find?_eq_none, List.mem_filter, decide_eq_true_eq, beq_iff_eq]
    omega
  rw [List.find?_append, List.find?_append, low, high, Option.none_or, Option.or_none]
  cases mid with
  | nil => rfl
  | cons c cs => rw [List.find?_cons_of_pos (by simp [hm c]), List.head?_cons]

theorem find?_filter_key (p : Nat → Bool) (hp : p j = true) :
    (l.filter (fun c => p c.1)).find? (fun c => c.1 == j) = l.find? (fun c => c.1 == j) := by
  rw [List.find?_filter]
  congr 1
  funext c
  by_cases hc : c.1 = j
  · simp [hc, hp]
  · simp [hc]

theorem find?_filter_key_none (p : Nat → Bool) (hp : p j = false) :
    (l.filter (fun c => p c.1)).find? (fun c => c.1 == j) = none := by
  simp only [List.find?_eq_none, List.mem_filter, beq_iff_eq]
  rintro c ⟨-, hc⟩ rfl
  rw [hp] at hc
  cases hc

theorem find?_replaced_ne (hm : ∀ c ∈ mid, c.1 = k) (hj : j ≠ k) :
    (l.filter (fun c => decide (c.1 < k)) ++ mid ++ l.filter (fun c => decide (k < c.1))).find? (fun c => c.1 == j) =
      l.find? (fun c => c.1 == j) := by
  have hmid : mid.find? (fun c => c.1 == j) = none := by
    simp only [List.find?_eq_none, beq_iff_eq]
    exact fun c hc h => hj (h.symm.trans (hm c hc))
  rw [List.find?_append, List.find?_append, hmid, Option.or_none]
  rcases Nat.lt_or_gt_of_ne hj with h | h
  · rw [find?_filter_key l (fun x => decide (x < k)) (by simpa using h),
      find?_filter_key_none l (fun x => decide (k < x)) (by simpa using Nat.le_of_lt h), Option.or_none]
  · rw [find?_filter_key_none l (fun x => decide (x < k)) (by simpa using Nat.le_of_lt h),
      find?_filter_key l (fun x => decide (k < x)) (by simpa using h), Option.none_or]

end

/-! ## Numbers by key -/

theorem natGet_natSet_same (m : List (Nat × Nat)) (k v : Nat) : natGet (natSet m k v) k = v := by
  unfold natGet natSet
  rw [find?_replaced_same m _ (by split <;> simp)]
  by_cases hv : v = 0
  · rw [if_pos hv, hv]
    rfl
  · rw [if_neg hv]
    rfl

theorem natGet_natSet_ne (m : List (Nat × Nat)) {j k : Nat} (v : Nat) (h : j ≠ k) : natGet (natSet m k v) j = natGet m j := by
  unfold natGet natSet
  rw [find?_replaced_ne m _ (by split <;> simp) h]

/-! ## Counters (R416) -/

section
variable {i k j l n : Nat} {s : State}

@[simp] theorem State.ctr_bump_same : (State.bump i k n s).ctr i k = min Config.u64Max (s.ctr i k + n) := natGet_natSet_same ..

theorem State.ctr_bump_ne (h : addrOf j l ≠ addrOf i k) : (State.bump i k n s).ctr j l = s.ctr j l := natGet_natSet_ne _ _ h

@[simp] theorem State.ctr_clearCtr_same : (State.clearCtr i k s).ctr i k = 0 := natGet_natSet_same ..

theorem State.ctr_clearCtr_ne (h : addrOf j l ≠ addrOf i k) : (State.clearCtr i k s).ctr j l = s.ctr j l := natGet_natSet_ne _ _ h

/-! ## Settings (R408) -/

@[simp] theorem State.reg_setReg_same : (State.setReg i k n s).reg i k = n := by
  unfold State.reg State.setReg
  rw [find?_replaced_same s.regs _ (by split <;> simp)]
  by_cases hn : n = s.regDefault i k
  · rw [if_pos hn, hn]
    rfl
  · rw [if_neg hn]
    rfl

theorem State.reg_setReg_ne (h : addrOf j l ≠ addrOf i k) : (State.setReg i k n s).reg j l = s.reg j l := by
  unfold State.reg State.setReg
  rw [find?_replaced_ne s.regs _ (by split <;> simp) h]
  rfl

end

/-- Settles O6: a counter is a number by key, and raising or clearing it replaces the value of its key alone. -/
theorem countersHoldAtTheLimit : Obligations.CountersHoldAtTheLimit :=
  fun _ _ _ _ => ⟨State.ctr_bump_same, State.ctr_clearCtr_same, fun _ _ h => ⟨State.ctr_bump_ne h, State.ctr_clearCtr_ne h⟩⟩

/-- Settles O2: at reset every list of the block is empty, so that every lookup falls back to its default. -/
theorem resetMeetsTheInvariant : Obligations.ResetMeetsTheInvariant := by
  refine ⟨⟨?_, ?_, ?_⟩, ⟨⟨?_, ?_⟩, ?_⟩, rfl, rfl, rfl, rfl, rfl, rfl, rfl, rfl, fun i k => ⟨rfl, rfl, rfl⟩⟩
  all_goals simp [State.reset, State.afterReset, Memory.wf]

end Sys2Proof.Machine
end

section
/-! PROOFS. The writes of the dictionary: how a command brings one, and the checks of Table 14.3 in their order (R408). -/

namespace Sys2Proof.Machine

/-! ## The commands that write -/

/-- How a command that writes the dictionary ends: after the six whose entry can set work free, the work goes on. -/
def endWrite (c : Instr) (u : State) : State :=
  match c with
  | .epochProposal .. | .exclusionNotice .. | .maskStripeRepair .. | .lostMaskCopy .. | .pageDiscard .. | .dictionaryWrite .. =>
    State.settleAll u
  | _ => u

section
variable {c : Instr} {path : Path} {addr : Nat} {v w : Val} {s : State} {f : State → State}

theorem State.atPort_up (hl : s.sys.lzReset = false) (hr : path = .regPort → s.sys.ready = true) : s.atPort path f = f s := by
  unfold State.atPort
  split
  · exact State.ready_up (hr ‹_›)
  · exact State.awake_low hl

/-- A command that writes the dictionary makes its write on its path, in the state in which a command's effect begins. -/
theorem exec_write (hw : writeNamed c = some (path, addr, v)) :
    exec c s = .next (State.finish (endWrite c ((State.begun (memOf c) s).atPort path (State.ownWrite path addr v)))) := by
  cases c
  all_goals cases hw
  all_goals rfl

/-! ## The checks of Table 14.3 -/

section
variable {r : EntryRow} {idx subi : Nat}

theorem State.writeFault_unwritable (h1 : (subi == 0 || r.acc == .ro || r.acc == .rc) = true) :
    s.writeFault path r idx subi w = some 1 := by
  unfold State.writeFault
  rw [if_pos (by simpa using h1)]

theorem State.writeFault_barred (h1 : (subi == 0 || r.acc == .ro || r.acc == .rc) = false)
    (h2 : s.pathBars path (addrOf idx subi) = true) : s.writeFault path r idx subi w = some 2 := by
  unfold State.writeFault
  rw [if_neg (by simpa using h1), if_pos h2]

theorem State.writeFault_width (h1 : (subi == 0 || r.acc == .ro || r.acc == .rc) = false)
    (h2 : s.pathBars path (addrOf idx subi) = false) (h3 : (!widthOk r idx subi w) = true) :
    s.writeFault path r idx subi w = some 3 := by
  unfold State.writeFault
  rw [if_neg (by simpa using h1), if_neg (by simp [h2]), if_pos h3]

/-- The value is out of range, or fails a check of its chapter (check 4). -/
def State.valueBad (r : EntryRow) (idx subi : Nat) (v : Val) (s : State) : Bool :=
  match v with
  | .num n => !inRange r n || s.scalarBad idx subi n
  | .blob b => s.blobBad idx subi b

theorem State.writeFault_value (h1 : (subi == 0 || r.acc == .ro || r.acc == .rc) = false)
    (h2 : s.pathBars path (addrOf idx subi) = false) (h3 : (!widthOk r idx subi w) = false) (h4 : s.valueBad r idx subi w = true) :
    s.writeFault path r idx subi w = some 4 := by
  unfold State.writeFault
  rw [if_neg (by simpa using h1), if_neg (by simp [h2]), if_neg (by simp [h3])]
  exact if_pos h4

theorem State.writeFault_last (h1 : (subi == 0 || r.acc == .ro || r.acc == .rc) = false)
    (h2 : s.pathBars path (addrOf idx subi) = false) (h3 : (!widthOk r idx subi w) = false) (h4 : s.valueBad r idx subi w = false) :
    s.writeFault path r idx subi w = if s.busy idx subi then some 5 else none := by
  unfold State.writeFault
  rw [if_neg (by simpa using h1), if_neg (by simp [h2]), if_neg (by simp [h3])]
  exact if_neg (Bool.eq_false_iff.mp h4)

end

/-- The register port carries a word, which no STR or DOM is. -/
theorem widthOk_portValue {r : EntryRow} {idx subi : Nat} (hb : r.ty.isBlob = true) :
    widthOk r idx subi (s.portValue addr v) = false := by
  unfold State.portValue
  split
  · split <;> simp [widthOk, hb]
  · simp [widthOk, hb]
  · simp [widthOk, hb]

/-! ## What a write on a path comes to -/

/-- A served write that a check fails is refused with the reason of the check. -/
theorem State.ownWrite_refused {r : EntryRow} {why : Nat} (hs : s.serves path addr (some w) = true) (hv : s.carriedValue path addr v = w)
    (ha : addr ≠ 0x10FD04) (he : entry? s.straps.build (addrIdx addr) (addrSub addr) = some r)
    (hf : s.writeFault path r (addrIdx addr) (addrSub addr) w = some why) :
    s.ownWrite path addr v = State.answerWrite path (.refused why)
      (State.refuseWrite (State.pathNo path) addr why (State.countTwist (addrIdx addr) why s)) := by
  simp only [State.ownWrite, State.gateWrite, hv, hs, State.dictWrite, if_neg ha, State.writeEntry_refused he hf, if_true, reduceCtorEq,
    if_false]

theorem writable_of_checks {r : EntryRow} (hr : path = .regPort → s.sys.ready = true) (hs : s.serves path addr (some w) = true)
    (hv : s.carriedValue path addr v = w) (he : entry? s.straps.build (addrIdx addr) (addrSub addr) = some r)
    (hf : s.writeFault path r (addrIdx addr) (addrSub addr) w = none) : writable path addr v s = true := by
  simp only [writable, hv, hs, he, hf, Option.isNone_none, Bool.and_true, Bool.or_eq_true, bne_iff_ne]
  by_cases hp : path = .regPort
  · exact .inr (hr hp)
  · exact .inl hp

/-- An absent entry of a path that is served. -/
theorem State.ownWrite_absent_served (hs : s.serves path addr (some (s.carriedValue path addr v)) = true) (ha : addr ≠ 0x10FD04)
    (he : entry? s.straps.build (addrIdx addr) (addrSub addr) = none) : s.ownWrite path addr v = s.noEntry.answerWrite path .absent := by
  simp only [State.ownWrite, State.gateWrite, hs, State.dictWrite_absent he ha, if_true, reduceCtorEq, if_false]

end

/-- Settles O51: a command's write on its path is decided by the first check that fails; where none does, by what its entry answers. -/
theorem writesAreCheckedInOrder : Obligations.WritesAreCheckedInOrder := by
  intro c path addr v s s0 hl hw ha hr settled
  have hsettled : ∀ u, settled u = .next (State.finish (endWrite c u)) := by
    intro u
    cases c
    all_goals rfl
  simp only [hsettled]
  obtain ⟨⟨_, _, named⟩, hn, hc⟩ := Option.map_eq_some_iff.mp hw
  obtain ⟨rfl, rfl, hv⟩ : _ ∧ _ ∧ _ := by simpa using hc
  rw [exec_write hn, State.atPort_up hl hr]
  refine ⟨fun hs => ?_, fun hs => ⟨fun he => ?_, fun r he => ?_, fun r he hp hb => ?_⟩⟩
  · rw [State.ownWrite_retry (by rwa [hv])]
  · rw [State.ownWrite_absent_served (by rwa [hv]) ha he]
    rfl
  · have refusal {why : Nat} := State.ownWrite_refused (why := why) hs hv ha he
    refine ⟨fun h1 => ?_, fun h1 h2 => ?_, fun h1 h2 h3 => ?_, fun h1 h2 h3 h4 => ?_, fun h1 h2 h3 h4 h5 => ?_, fun h1 h2 h3 h4 h5 => ?_⟩
    · rw [refusal (State.writeFault_unwritable h1)]
    · rw [refusal (State.writeFault_barred h1 h2)]
    · rw [refusal (State.writeFault_width h1 h2 h3)]
    · rw [refusal (State.writeFault_value h1 h2 h3 h4)]
    · rw [refusal ((State.writeFault_last h1 h2 h3 h4).trans (if_pos h5))]
    · have hf := (State.writeFault_last h1 h2 h3 h4).trans (if_neg (Bool.eq_false_iff.mp h5))
      rw [State.ownWrite_applied hv (writable_of_checks hr hs hv he hf) ha he]
      refine ⟨fun h => ?_, fun h => ?_, fun h => ?_, fun h => ?_⟩
      · simp only [h, if_true]
      · simp [h]
      · simp [h]
      · simp only [List.mem_cons, List.not_mem_nil, or_false, not_or] at h
        simp only [h, if_false]
  · rw [← hv, State.carriedValue, if_pos hp]
    exact widthOk_portValue hb

end Sys2Proof.Machine
end

section
/-! PROOFS. The transfer window of the register port (R363, R364) and the entries of plain storage (R408, R409). -/

namespace Sys2Proof.Machine

/-! ## Numbers in byte strings -/

theorem leNat_append_zeros (bs : Bytes) (k : Nat) : leNat (bs ++ zeros k) = leNat bs := by
  induction bs with
  | nil =>
    induction k with
    | zero => rfl
    | succ k ih =>
      simp only [zeros, List.nil_append] at ih
      simp only [zeros, List.nil_append, List.replicate_succ, leNat] at ih ⊢
      rw [ih]
      rfl
  | cons b bs ih => simp only [List.cons_append, leNat, ih]

theorem leNat_fit (k : Nat) (bs : Bytes) : leNat (fit k bs) = leNat (bs.take k) := leNat_append_zeros _ _

/-! ## Reads that clear counters -/

/-- Only counters have changed. -/
def Counted (s t : State) : Prop := ∃ c : List (Nat × Nat), t = { s with counters := c }

theorem Counted.refl (s : State) : Counted s s := ⟨_, rfl⟩

theorem Counted.trans {s t u : State} (h : Counted s t) (g : Counted t u) : Counted s u := by
  obtain ⟨_, rfl⟩ := h
  obtain ⟨c, rfl⟩ := g
  exact ⟨c, rfl⟩

theorem Counted.forEach {α : Type} {f : α → State → State} (hf : ∀ x t, Counted t (f x t)) (l : List α) (s : State) :
    Counted s (Sys2Proof.Machine.forEach l f s) := by
  induction l generalizing s with
  | nil => exact .refl s
  | cons x xs ih => exact (hf x s).trans (ih _)

theorem State.clearBlock_counted (idx : Nat) (s : State) : Counted s (State.clearBlock idx s) :=
  .forEach (fun _ _ => ⟨_, rfl⟩) _ s

/-- A read of an entry outside the transfer window changes counters alone. -/
theorem State.afterRead_counted {r : EntryRow} {idx subi : Nat} {s : State} (h : idx ≠ 0x10FD) : Counted s (State.afterRead r idx subi s) := by
  unfold State.afterRead
  rw [if_neg (by simp [h])]
  split
  · split
    · exact ⟨_, rfl⟩
    · split
      · exact State.clearBlock_counted _ s
      · exact .refl s
  · exact .refl s

/-! ## Writes that pass the checks -/

section
variable {path : Path} {r : EntryRow} {idx subi n : Nat} {s : State}

theorem widthOk_num (hb : r.ty.isBlob = false) : widthOk r idx subi (.num n) = decide (n < 256 ^ r.ty.bytes) := by
  simp [widthOk, hb]

theorem inRange_num (hf : r.ty ≠ .f32) : inRange r n = (decide (r.lo ≤ n) && decide (n ≤ r.hi)) := by
  unfold inRange
  split
  · exact absurd ‹_› hf
  · rfl

/-- A number within its entry's width and range passes checks 3 and 4, but for what its chapter checks. -/
theorem State.writeFault_num (h1 : (subi == 0 || r.acc == .ro || r.acc == .rc) = false)
    (h2 : s.pathBars path (addrOf idx subi) = false) (hb : r.ty.isBlob = false) (hf : r.ty ≠ .f32) (hw : n < 256 ^ r.ty.bytes)
    (hn : r.lo ≤ n ∧ n ≤ r.hi) (hs : s.scalarBad idx subi n = false) (hy : s.busy idx subi = false) :
    s.writeFault path r idx subi (.num n) = none := by
  rw [State.writeFault_last h1 h2, if_neg (by simp [hy])]
  · simp [widthOk_num hb, hw]
  · simp [State.valueBad, inRange_num hf, hn, hs]

end

section
variable {path : Path} {addr n : Nat} {v w : Val} {s t : State} {r : EntryRow}

/-- A write that is done is answered so. -/
theorem State.ownWrite_done (hv : s.carriedValue path addr v = w) (hw : writable path addr v s = true) (ha : addr ≠ 0x10FD04)
    (he : entry? s.straps.build (addrIdx addr) (addrSub addr) = some r)
    (hx : State.applyWrite path r (addrIdx addr) (addrSub addr) w s = (t, 0)) :
    s.ownWrite path addr v = State.answerWrite path .done t := by
  simp only [State.ownWrite_applied hv hw ha he, hx, if_true]

/-- A word reaches an entry of at most its width as it is (R363). -/
theorem State.carriedValue_word (he : entry? s.straps.build (addrIdx addr) (addrSub addr) = some r) (hr : r.ty ≠ .u64)
    (hn : n < 2 ^ 32) : s.carriedValue .regPort addr (.num n) = .num n := by
  simp only [State.carriedValue, State.portValue, he, if_neg hr, if_true, Nat.mod_eq_of_lt hn]

end

/-! ## The entries of the window -/

section
variable (b : Build)

theorem entry?_xferTarget : entry? b 0x10FD 0x01 = some (row 0x10FD 0x10FD 0x01 0x01 .u32 .rw 0 0 0xFFFFFF) := by cases b <;> rfl
theorem entry?_xferData : entry? b 0x10FD 0x03 = some (row 0x10FD 0x10FD 0x03 0x03 .u32 .rw 0 0 0xFFFFFFFF) := by cases b <;> rfl
theorem entry?_xferApply : entry? b 0x10FD 0x04 = some (row 0x10FD 0x10FD 0x04 0x04 .u32 .wo 0 1 0x101040) := by cases b <;> rfl

end

section
variable {n : Nat} {s : State}

/-- The target of the window passes the checks where it is an address. -/
theorem State.ownWrite_xferTarget (hr : s.sys.ready = true) (hk : s.sys.hk = .running) (hn : n ≤ 0xFFFFFF) :
    s.ownWrite .regPort 0x10FD01 (.num n) = State.answerWrite .regPort .done (s.xferTarget .regPort n) := by
  have he := entry?_xferTarget s.straps.build
  have hv : s.carriedValue .regPort 0x10FD01 (.num n) = .num n := State.carriedValue_word he (by decide) (by omega)
  refine State.ownWrite_done hv ?_ (by decide) he rfl
  refine writable_of_checks (fun _ => hr) (State.serves_running hk) hv he ?_
  exact State.writeFault_num rfl rfl rfl (by decide) (Nat.lt_of_le_of_lt hn (by decide)) ⟨Nat.zero_le _, hn⟩ rfl rfl

/-- A word of the window passes the checks, whatever it is. -/
theorem State.ownWrite_xferWord (hr : s.sys.ready = true) (hk : s.sys.hk = .running) (hn : n < 2 ^ 32) :
    s.ownWrite .regPort 0x10FD03 (.num n) = State.answerWrite .regPort .done (s.xferWord n) := by
  have he := entry?_xferData s.straps.build
  have hv : s.carriedValue .regPort 0x10FD03 (.num n) = .num n := State.carriedValue_word he (by decide) hn
  refine State.ownWrite_done hv ?_ (by decide) he rfl
  refine writable_of_checks (fun _ => hr) (State.serves_running hk) hv he ?_
  exact State.writeFault_num rfl rfl rfl (by decide) hn ⟨Nat.zero_le _, Nat.le_of_lt_succ hn⟩ rfl rfl

/-- An apply of a length that the buffer holds is one write to the target. -/
theorem State.ownWrite_xferApply (hk : s.sys.hk = .running) (h1 : 1 ≤ n) (h2 : n ≤ 0x101040)
    (ht : addrIdx (s.reg 0x10FD 0x01) ≠ 0x10FD) :
    s.ownWrite .regPort 0x10FD04 (.num n) =
      (let x := State.writeEntry .regPort (s.reg 0x10FD 0x01) (s.xferValue (s.reg 0x10FD 0x01) n) s
       if x.2 = .wait then x.1 else State.answerWrite .regPort x.2 x.1) := by
  have he := entry?_xferApply s.straps.build
  have hv : s.carriedValue .regPort 0x10FD04 (.num n) = .num n := State.carriedValue_word he (by decide) (by omega)
  have hf : s.writeFault .regPort (row 0x10FD 0x10FD 0x04 0x04 .u32 .wo 0 1 0x101040) 0x10FD 0x04 (.num n) = none :=
    State.writeFault_num rfl rfl rfl (by decide) (Nat.lt_of_le_of_lt h2 (by decide)) ⟨h1, h2⟩ rfl rfl
  simp only [State.ownWrite, State.gateWrite, hv, State.serves_running hk, if_true, State.dictWrite, he, hf, if_neg ht]

/-- A read of the window's data returns the word at the offset and moves it on. -/
theorem State.portReadOut_xferData (hk : s.sys.hk = .running) :
    s.portReadOut 0x10FD03 =
      s.xferAdvance.emit (.rp 0 (leNat (fit 4 ((s.house.xfer.take s.house.xferLen).drop (s.reg 0x10FD 0x02))))) := by
  have hv : s.readValue .regPort 0x10FD03 =
      some (row 0x10FD 0x10FD 0x03 0x03 .u32 .rw 0 0 0xFFFFFFFF, .num (s.readScalar .regPort 0x10FD 0x03)) := by
    rw [State.readValue, show addrIdx 0x10FD03 = 0x10FD from rfl, show addrSub 0x10FD03 = 0x03 from rfl, entry?_xferData]
    rfl
  rw [leNat_fit]
  simp only [State.portReadOut, State.wordRead, State.serves_running hk, hv]
  rfl

/-- A word that fits into the buffer is put at the offset, which moves on. -/
theorem State.xferWord_fits (h : s.reg 0x10FD 0x02 + 4 ≤ 1052736) :
    s.xferWord n = State.xferAdvance { s with house := { s.house with
      xfer := patch (s.reg 0x10FD 0x02) (toLE 4 n) (s.house.xfer ++ zeros (s.reg 0x10FD 0x02 + 4 - s.house.xfer.length)) } } := by
  have hx : ¬ State.xferSize < s.reg 0x10FD 0x02 + 4 := Nat.not_lt.mpr h
  simp only [State.xferWord, if_neg hx]

/-- A target's value is put into the buffer, from its begin; the read of the target may clear counters. -/
theorem State.xferTarget_value {path : Path} {r : EntryRow} {v : Val} (hi : addrIdx n ≠ 0x10FD)
    (hv : (State.setReg 0x10FD 0x02 0 (State.setReg 0x10FD 0x01 n s)).readValue path n = some (r, v)) :
    ∃ c : List (Nat × Nat), State.xferTarget path n s =
      { State.setReg 0x10FD 0x02 0 (State.setReg 0x10FD 0x01 n s) with
        counters := c, house := { s.house with xfer := valueBytes r.ty v, xferLen := (valueBytes r.ty v).length } } := by
  obtain ⟨c, hc⟩ := State.afterRead_counted (r := r) (subi := addrSub n) (s := State.setReg 0x10FD 0x02 0 (State.setReg 0x10FD 0x01 n s)) hi
  refine ⟨c, ?_⟩
  simp only [State.xferTarget, if_neg hi, State.readEntry, hv, hc]
  rfl

end

/-! ## The commands of the window -/

theorem State.begun_clean_begin (s : State) : State.begun .clean s = State.begin .clean s := State.begun_clean s

theorem exec_transferTarget (n : BitVec 32) (s : State) : exec (.transferTarget n) s =
    .next (State.finish ((State.begun .clean s).ready (State.ownWrite .regPort 0x10FD01 (.num n.toNat)))) := rfl

theorem exec_transferDataRead (s : State) : exec .transferDataRead s =
    .next (State.finish ((State.begun .clean s).ready (State.portReadOut 0x10FD03))) := rfl

theorem exec_transferDataWrite (n : BitVec 32) (s : State) : exec (.transferDataWrite n) s =
    .next (State.finish ((State.begun .clean s).ready (State.ownWrite .regPort 0x10FD03 (.num n.toNat)))) := rfl

theorem exec_transferApply (n : BitVec 32) (mem : MemAns) (s : State) : exec (.transferApply n mem) s =
    .next (State.finish (State.settleAll ((State.begun mem s).ready (State.ownWrite .regPort 0x10FD04 (.num n.toNat))))) := rfl

/-- Settles O57: each command is a write or a read of one entry of the window, and does what that entry's rule says. -/
theorem transferWindowMovesValues : Obligations.TransferWindowMovesValues := by
  intro n mem s
  simp only [exec_transferTarget, exec_transferDataRead, exec_transferDataWrite, exec_transferApply, State.begun_clean_begin]
  refine ⟨fun hr hk => ⟨fun hn hi r v hv => ?_, ?_, fun ho => ?_⟩, fun hr hk h1 h2 hi => ?_⟩
  · obtain ⟨c, hc⟩ := State.xferTarget_value (s := State.begin .clean s) hi hv
    refine ⟨State.xferTarget .regPort n.toNat (State.begin .clean s), ?_, ?_⟩
    · rw [State.ready_up (s := State.begin .clean s) hr, State.ownWrite_xferTarget (s := State.begin .clean s) hr hk hn]
      rfl
    · rw [hc]
      exact ⟨rfl, rfl, (State.reg_setReg_ne (by decide)).trans State.reg_setReg_same, State.reg_setReg_same, rfl, rfl, rfl⟩
  · refine ⟨(State.begin .clean s).xferAdvance, ?_, State.reg_setReg_same, rfl⟩
    rw [State.ready_up (s := State.begin .clean s) hr, State.portReadOut_xferData (s := State.begin .clean s) hk]
    rfl
  · refine ⟨(State.begin .clean s).xferWord n.toNat, ?_, ?_⟩
    · rw [State.ready_up (s := State.begin .clean s) hr, State.ownWrite_xferWord (s := State.begin .clean s) hr hk n.isLt]
      rfl
    · rw [State.xferWord_fits (s := State.begin .clean s) ho]
      exact ⟨rfl, State.reg_setReg_same.trans (Nat.min_eq_right ho), rfl, rfl, rfl⟩
  · rw [State.ready_up hr, State.ownWrite_xferApply hk h1 h2 hi]
    exact ⟨fun hx => by simp only [if_neg hx], fun hx => by simp only [if_pos hx]⟩

/-! ## Entries of plain storage -/

/-- A scalar entry of no index with an action of its own, and outside the transfer window's and the event lines' own entries. -/
def PlainEntry (idx subi : Nat) : Prop :=
  idx ∉ [0x10FB, 0x1230, 0x2070, 0x3100, 0x3110, 0x3200] ∧ (idx = 0x10FD → subi = 2) ∧ (idx = 0x3070 → subi < 0x10)

section
variable {path : Path} {idx subi n : Nat} {s : State}

theorem State.doScalar_plain (h : PlainEntry idx subi) (hi : idx ≠ 0x5FFE) : State.doScalar path idx subi n s = (State.setReg idx subi n s, 0) := by
  obtain ⟨hm, hx, he⟩ := h
  simp only [List.mem_cons, List.not_mem_nil, or_false, not_or] at hm
  obtain ⟨h1, h2, h3, h4, h5, h6⟩ := hm
  have w1 : ¬ (idx = 0x10FD && subi = 1) := by simp; omega
  have w3 : ¬ (idx = 0x10FD && subi = 3) := by simp; omega
  have ev : ¬ (idx = 0x3070 && 0x10 ≤ subi) := by simp; omega
  simp only [State.doScalar, h1, h2, h3, h4, h5, h6, w1, w3, ev, hi, Bool.false_eq_true, if_false]

theorem State.doScalar_bulkIndex : State.doScalar path 0x5FFE subi n s =
    (State.setReg 0x5FFE subi n { s with house := { s.house with bulkNamed := true } }, 0) := rfl

theorem exec_dictionaryWrite (a : BitVec 24) (v : Val) (mem : MemAns) :
    exec (.dictionaryWrite path a v mem) s =
      .next (State.finish (State.settleAll ((State.begun mem s).atPort path (State.ownWrite path a.toNat v)))) := rfl

end

theorem State.ready_of_writable {path : Path} {addr : Nat} {v : Val} {s : State} (hw : writable path addr v s = true)
    (hp : path = .regPort) : s.sys.ready = true := by
  simp only [writable, Bool.and_eq_true] at hw
  obtain ⟨⟨h, -⟩, -⟩ := hw
  simpa [hp] using h

/-- Settles O59: such a write comes to the last branch of what a scalar's write does, and a setting is a value by key. -/
theorem plainEntriesHoldWhatIsWritten : Obligations.PlainEntriesHoldWhatIsWritten := by
  intro path a named n r mem s s0 hl he hrs ha hm hx hev hv hw
  have done {t : State} (ht : State.doScalar path (addrIdx a.toNat) (addrSub a.toNat) n s0 = (t, 0)) :
      exec (.dictionaryWrite path a (.num named) mem) s = .next (State.finish (State.settleAll (State.answerWrite path .done t))) := by
    rw [exec_dictionaryWrite, State.atPort_up hl (State.ready_of_writable hw),
      State.ownWrite_done hv hw ha he ((if_neg hrs).trans ht)]
  refine ⟨fun hi => done (State.doScalar_plain ⟨hm, hx, hev⟩ hi), fun hi => done ?_, State.reg_setReg_same,
    fun i k h => State.reg_setReg_ne h⟩
  rw [hi, State.doScalar_bulkIndex]

end Sys2Proof.Machine
end

section
/-! PROOFS. The credits of the ways (R311, R312, R355). -/

namespace Sys2Proof.Machine

/-! ## A list with one element replaced -/

theorem getD_setAt_same {α : Type} {l : List α} {i : Nat} (a d : α) (h : i < l.length) : (setAt l i a).getD i d = a := by
  simp [setAt, h]

theorem getD_setAt_ne {α : Type} {l : List α} {i j : Nat} (a d : α) (h : i ≠ j) : (setAt l i a).getD j d = l.getD j d := by
  simp [setAt, List.getD_eq_getElem?_getD, List.getElem?_set_ne h]

/-! ## What an operation on credits changes -/

/-- Beside the fabric's state, only counters, the event log and the ledger's credits have changed. -/
def Recredited (s t : State) : Prop :=
  ∃ (counters : List (Nat × Nat)) (led : LedSt) (house : HouseSt) (fx : FxSt),
    t = { s with counters := counters, led := led, house := house, fx := fx }

theorem Recredited.refl (s : State) : Recredited s s := ⟨_, _, _, _, rfl⟩

theorem Recredited.trans {s t u : State} (h : Recredited s t) (g : Recredited t u) : Recredited s u := by
  obtain ⟨_, _, _, _, rfl⟩ := h
  obtain ⟨a, b, c, d, rfl⟩ := g
  exact ⟨a, b, c, d, rfl⟩

theorem Recredited.ite {p : Prop} [Decidable p] {s t u : State} (h : Recredited s t) (g : Recredited s u) :
    Recredited s (if p then t else u) := by
  split
  · exact h
  · exact g

theorem Recredited.forEach {α : Type} {f : α → State → State} (hf : ∀ x t, Recredited t (f x t)) (l : List α) (s : State) :
    Recredited s (Sys2Proof.Machine.forEach l f s) := by
  induction l generalizing s with
  | nil => exact .refl s
  | cons x xs ih => exact (hf x s).trans (ih _)

theorem Logged.recredited {s t : State} (h : Logged s t) : Recredited s t := by
  obtain ⟨_, _, _, _, rfl⟩ := h
  exact ⟨_, _, _, _, rfl⟩

theorem Recredited.kept {s t : State} (h : Recredited s t) : t.hearth = s.hearth ∧ t.regs = s.regs ∧ t.hanks = s.hanks := by
  obtain ⟨_, _, _, _, rfl⟩ := h
  exact ⟨rfl, rfl, rfl⟩

section
variable {way cls hdr unit k : Nat} {s : State}

theorem State.note_recredited (idx subi detail : Nat) (s : State) : Recredited s (State.countNote idx subi detail s) :=
  (State.countNote_logged idx subi detail s).recredited

theorem State.setCredit_recredited (c : Credit) : Recredited s (State.setCredit way cls c s) := ⟨_, _, _, _, rfl⟩

/-! ## The grant of a class -/

theorem State.grantClass_recredited : Recredited s (State.grantClass way cls hdr unit s) := by
  unfold State.grantClass
  refine .trans (t := State.setCredit way cls _ _) (.trans ?_ (State.setCredit_recredited _)) (.ite (State.note_recredited ..) (.refl _))
  exact .trans (.ite (.refl _) (State.note_recredited ..)) (.ite (.refl _) (State.note_recredited ..))

theorem State.grantClass_fx : (State.grantClass way cls hdr unit s).fx = { s.fx with
    credits := setAt s.fx.credits (way * 3 + cls)
      { hdrGrant := min 255 hdr, unitGrant := min 4095 unit, hdr := min 255 hdr, unit := min 4095 unit } } := by
  simp only [State.grantClass, State.setCredit, apply_ite State.fx, State.countNote_fx, ite_self]

theorem State.grantClass_same (h : way * 3 + cls < s.fx.credits.length) : (State.grantClass way cls hdr unit s).creditAt way cls =
    { hdrGrant := min 255 hdr, unitGrant := min 4095 unit, hdr := min 255 hdr, unit := min 4095 unit } := by
  rw [State.creditAt, State.grantClass_fx]
  exact getD_setAt_same _ _ h

theorem State.grantClass_ne (h : cls ≠ k) : (State.grantClass way cls hdr unit s).creditAt way k = s.creditAt way k := by
  rw [State.creditAt, State.grantClass_fx]
  exact getD_setAt_ne _ _ (by omega)

theorem State.grantClass_length : (State.grantClass way cls hdr unit s).fx.credits.length = s.fx.credits.length := by
  rw [State.grantClass_fx]
  exact List.length_set

/-! ## Credits that come back -/

/-- A class after a return: what would take it above its grant is ignored. -/
def Credit.back (c : Credit) (hdr unit : Nat) : Credit :=
  { c with
    hdr := if c.hdrGrant < c.hdr + hdr then c.hdr else c.hdr + hdr
    unit := if c.unitGrant < c.unit + unit then c.unit else c.unit + unit }

theorem State.countReturned_recredited (n : Nat) (s : State) : Recredited s (State.countReturned way n s) := ⟨_, _, _, _, rfl⟩

theorem State.creditBack_recredited : Recredited s (State.creditBack way cls hdr unit s) := by
  unfold State.creditBack
  refine .trans (t := State.setCredit way cls _ _) (.trans ?_ (State.setCredit_recredited _)) (.trans ⟨_, _, _, _, rfl⟩ (.forEach ?_ _ _))
  · exact .trans (.ite (.refl _) (State.note_recredited ..)) (.ite (.refl _) (State.note_recredited ..))
  · exact fun x t => .ite (State.countReturned_recredited ..) (.refl t)

theorem add_zero_ite (c : Prop) [Decidable c] (a b : Nat) : a + (if c then 0 else b) = if c then a else a + b := by
  split
  · rfl
  · rfl

theorem State.creditBack_fx : ∃ spent : List (Nat × Nat × Nat × Nat × Nat), (State.creditBack way cls hdr unit s).fx =
    { s.fx with credits := setAt s.fx.credits (way * 3 + cls) ((s.creditAt way cls).back hdr unit), spent := spent } := by
  have loop {l : List (Nat × Nat)} (u : State) : (forEach l (fun x st => if cls != 2 && st.fr.opened && x.1 == st.fr.step then
      st.countReturned way x.2 else st) u).fx = u.fx :=
    forEach_proj State.fx (fun x t => by split <;> rfl) l u
  unfold State.creditBack
  dsimp only
  rw [loop]
  simp only [State.setCredit, apply_ite State.fx, State.countNote_fx, ite_self, add_zero_ite]
  exact ⟨_, rfl⟩

theorem State.creditBack_same (h : way * 3 + cls < s.fx.credits.length) :
    (State.creditBack way cls hdr unit s).creditAt way cls = (s.creditAt way cls).back hdr unit := by
  obtain ⟨_, hx⟩ := State.creditBack_fx (way := way) (cls := cls) (hdr := hdr) (unit := unit) (s := s)
  rw [State.creditAt, hx]
  exact getD_setAt_same _ _ h

theorem State.creditBack_ne (h : cls ≠ k) : (State.creditBack way cls hdr unit s).creditAt way k = s.creditAt way k := by
  obtain ⟨_, hx⟩ := State.creditBack_fx (way := way) (cls := cls) (hdr := hdr) (unit := unit) (s := s)
  rw [State.creditAt, hx]
  exact getD_setAt_ne _ _ (by omega)

theorem State.creditBack_length : (State.creditBack way cls hdr unit s).fx.credits.length = s.fx.credits.length := by
  obtain ⟨_, hx⟩ := State.creditBack_fx (way := way) (cls := cls) (hdr := hdr) (unit := unit) (s := s)
  rw [hx]
  exact List.length_set

/-! ## Nothing waits to be sent -/

/-- A loop whose every turn does nothing does nothing. -/
theorem forEach_fixed {α : Type} {f : α → State → State} {l : List α} {s : State} (h : ∀ x, f x s = s) : forEach l f s = s := by
  induction l with
  | nil => rfl
  | cons x xs ih => exact (congrArg (forEach xs f) (h x)).trans ih

/-- With an empty queue the pump spends no credit. -/
theorem State.pump_idle (h : s.fx.sendQ = []) : State.pump s = s :=
  forEach_fixed (fun x => by rw [h]; exact ite_self _)

theorem State.grantClass_sendQ : (State.grantClass way cls hdr unit s).fx.sendQ = s.fx.sendQ := by rw [State.grantClass_fx]

theorem State.creditBack_sendQ : (State.creditBack way cls hdr unit s).fx.sendQ = s.fx.sendQ := by
  obtain ⟨_, hx⟩ := State.creditBack_fx (way := way) (cls := cls) (hdr := hdr) (unit := unit) (s := s)
  rw [hx]

theorem State.grantClass_initDone : (State.grantClass way cls hdr unit s).fx.initDone = s.fx.initDone := by rw [State.grantClass_fx]

/-! ## The two commands -/

/-- The three classes of a way in turn, each with what it brings. -/
def eachClass (f : Nat → State → State) (s : State) : State := f 2 (f 1 (f 0 s))

/-- A turn of each class sets that class's row and leaves the others. -/
theorem creditAt_eachClass {f : Nat → State → State} {g : Nat → Credit → Credit}
    (hlen : ∀ c u, (f c u).fx.credits.length = u.fx.credits.length)
    (hsame : ∀ c u, way * 3 + c < u.fx.credits.length → (f c u).creditAt way c = g c (u.creditAt way c))
    (hne : ∀ c d u, c ≠ d → (f c u).creditAt way d = u.creditAt way d) (hw : way * 3 + 3 ≤ s.fx.credits.length) (hk : k < 3) :
    (eachClass f s).creditAt way k = g k (s.creditAt way k) := by
  unfold eachClass
  match k, hk with
  | 0, _ => rw [hne 2 0 _ (by decide), hne 1 0 _ (by decide), hsame 0 _ (by omega)]
  | 1, _ => rw [hne 2 1 _ (by decide), hsame 1 _ (by rw [hlen]; omega), hne 0 1 _ (by decide)]
  | 2, _ => rw [hsame 2 _ (by rw [hlen, hlen]; omega), hne 1 2 _ (by decide), hne 0 2 _ (by decide)]

theorem State.creditInit_idle {hdrs units : List Nat} (hl : s.sys.lzReset = false) (hq : s.fx.sendQ = []) (hw : s.wayUp way = false) :
    State.creditInit way hdrs units s =
      (let u := eachClass (fun c => State.grantClass way c (natAt hdrs c) (natAt units c)) s
       { u with fx := { u.fx with initDone := setAt u.fx.initDone way true } }) := by
  rw [State.creditInit, hl, hw]
  exact State.pump_idle (by simp only [List.range, List.range.loop, forEach, List.foldl, State.grantClass_sendQ, hq])

theorem State.creditReturn_idle (hl : s.sys.lzReset = false) (hq : s.fx.sendQ = []) (hw : s.wayUp way = true) :
    State.creditReturn way hdr unit s = eachClass (fun c => State.creditBack way c (hdr / 2 ^ c % 2) (unit / 4 ^ c % 4)) s := by
  rw [State.creditReturn, hl, hw]
  exact State.pump_idle (by simp only [List.range, List.range.loop, forEach, List.foldl, State.creditBack_sendQ, hq])

end

theorem exec_creditInit (way : Bool) (hdr unit : List (BitVec 16)) (s : State) : exec (.creditInit way hdr unit) s =
    .next (State.finish (State.creditInit way.toNat (hdr.map (fun x => x.toNat)) (unit.map (fun x => x.toNat)) (State.begun .clean s))) :=
  rfl

theorem exec_creditReturn (way : Bool) (hdr : BitVec 3) (unit : BitVec 6) (mem : MemAns) (s : State) :
    exec (.creditReturn way hdr unit mem) s =
      .next (State.finish (State.settleAll (State.creditReturn way.toNat hdr.toNat unit.toNat (State.begun mem s)))) := rfl

section
variable {way k : Nat} {s : State} (hw : way * 3 + 3 ≤ s.fx.credits.length) (hk : k < 3)
include hw hk

theorem State.creditAt_granted (hdrs units : List Nat) :
    (eachClass (fun c => State.grantClass way c (natAt hdrs c) (natAt units c)) s).creditAt way k =
      { hdrGrant := min 255 (natAt hdrs k), unitGrant := min 4095 (natAt units k)
        hdr := min 255 (natAt hdrs k), unit := min 4095 (natAt units k) } :=
  creditAt_eachClass
    (g := fun c _ => { hdrGrant := min 255 (natAt hdrs c), unitGrant := min 4095 (natAt units c)
                       hdr := min 255 (natAt hdrs c), unit := min 4095 (natAt units c) })
    (fun _ _ => State.grantClass_length) (fun _ _ h => State.grantClass_same h) (fun _ _ _ h => State.grantClass_ne h) hw hk

theorem State.creditAt_returned (hdr unit : Nat) :
    (eachClass (fun c => State.creditBack way c (hdr / 2 ^ c % 2) (unit / 4 ^ c % 4)) s).creditAt way k =
      (s.creditAt way k).back (hdr / 2 ^ k % 2) (unit / 4 ^ k % 4) :=
  creditAt_eachClass (g := fun c x => x.back (hdr / 2 ^ c % 2) (unit / 4 ^ c % 4))
    (fun _ _ => State.creditBack_length) (fun _ _ h => State.creditBack_same h) (fun _ _ _ h => State.creditBack_ne h) hw hk

end

theorem Recredited.eachClass {f : Nat → State → State} {s : State} (hf : ∀ c u, Recredited u (f c u)) : Recredited s (eachClass f s) :=
  (hf 0 s).trans ((hf 1 _).trans (hf 2 _))

/-- Settles O48: with nothing to send, both commands are three turns, each of which sets the row of its own class. -/
theorem creditsKeepToTheGrant : Obligations.CreditsKeepToTheGrant := by
  intro way hdr unit hr ur mem s
  have hway : way.toNat * 3 + 3 ≤ 6 := by cases way <;> decide
  refine ⟨fun hl hq hc hw => ?_, fun hl hq hc hw => ?_⟩
  · rw [exec_creditInit, State.begun_clean_begin, State.creditInit_idle (s := State.begin .clean s) hl hq hw]
    refine ⟨_, rfl, fun k hk => ?_, ?_, ?_⟩
    · exact State.creditAt_granted (s := State.begin .clean s) (Nat.le_trans hway (Nat.le_of_eq hc.symm)) hk _ _
    · simp only [eachClass, State.grantClass_initDone]
      rfl
    · obtain ⟨hm, hg, hh⟩ := (Recredited.eachClass (s := State.begin .clean s)
        (f := fun c => State.grantClass way.toNat c (natAt (hdr.map (fun x => x.toNat)) c) (natAt (unit.map (fun x => x.toNat)) c))
        (fun _ _ => State.grantClass_recredited)).kept
      exact ⟨hm, hg, hh⟩
  · rw [exec_creditReturn, State.creditReturn_idle hl hq hw]
    exact ⟨_, rfl, fun k hk => State.creditAt_returned (Nat.le_trans hway (Nat.le_of_eq hc.symm)) hk _ _,
      (Recredited.eachClass (fun _ _ => State.creditBack_recredited)).kept⟩

end Sys2Proof.Machine
end

section
/-! PROOFS. A write of one beat to a hank that is neither paged nor coded (R39, R44, R296). -/

namespace Sys2Proof.Machine

/-! ## What telling the memory ways leaves alone -/

/-- Beside the requests at the memory ways and what the scrubber knows, nothing has changed. -/
def Told (s t : State) : Prop := ∃ (scrub : ScrubSt) (out : List Out), t = { s with scrub := scrub, out := out }

theorem Told.refl (s : State) : Told s s := ⟨_, _, rfl⟩

theorem Told.trans {s t u : State} (h : Told s t) (g : Told t u) : Told s u := by
  obtain ⟨_, _, rfl⟩ := h
  obtain ⟨a, b, rfl⟩ := g
  exact ⟨a, b, rfl⟩

theorem State.tell_told (o : Out) (s : State) : Told s (State.tell o s) := by
  unfold State.tell
  split
  · exact ⟨_, _, rfl⟩
  · exact ⟨_, _, rfl⟩

theorem State.clearBad_told (blocks : List Nat) (s : State) : Told s (State.clearBad blocks s) := by
  unfold State.clearBad
  split
  · exact .refl s
  · exact ⟨_, _, rfl⟩

/-- A state with other bytes in its hearth, told of to the memory ways. -/
theorem Told.put {s t : State} (h : Told s t) (m : List Host.Cell) : Told { s with hearth := m } { t with hearth := m } := by
  obtain ⟨_, _, rfl⟩ := h
  exact ⟨_, _, rfl⟩

/-! ## The bytes of a beat -/

section
variable {fin o last be : Nat} {w : WBeat} {old new : Bytes}

theorem length_fit (k : Nat) (bs : Bytes) : (fit k bs).length = k := by
  simp only [fit, zeros, List.length_append, List.length_take, List.length_replicate]
  omega

theorem length_mergeBytes (h : old.length = new.length) : (State.mergeBytes be old new).length = old.length := by
  simp only [State.mergeBytes, List.length_map, List.length_zipIdx, List.length_zip, h, Nat.min_self]

theorem length_writtenBytes (h : old.length = 128) : (writtenBytes fin o last w old).length = 128 :=
  (length_mergeBytes (h.trans (length_fit _ _).symm)).trans h

end

theorem Memory.length_read {m : List Host.Cell} (hm : Memory.wf m) (a k : Nat) : (Memory.read m a k).length = k := by
  rw [Memory.read_eq hm, List.length_map, List.length_range]

/-- A whole block of a region lies in one stripe. -/
theorem spanPieces_block {o : Nat} (h : o % 128 = 0) : State.spanPieces o 128 = [(o / Config.stripe, o % Config.stripe, 128)] := by
  have hs : Config.stripe = 4096 := rfl
  have one : (o + 128 - 1) / 4096 + 1 - o / 4096 = 1 := by omega
  have lo : max o (o / 4096 * 4096) - o / 4096 * 4096 = o % 4096 := by omega
  have len : min (o + 128) ((o / 4096 + 1) * 4096) - max o (o / 4096 * 4096) = 128 := by omega
  rw [State.spanPieces, if_neg (by decide)]
  simp only [hs, one, List.range_one, List.map_cons, List.map_nil, Nat.add_zero, lo, len]

theorem State.spanRead_block {s : State} {base o : Nat} (h : o % 128 = 0) :
    s.spanRead base o 128 = Memory.read s.hearth (stripeKey s.C base (o / Config.stripe) + o % Config.stripe) 128 := by
  rw [State.spanRead, spanPieces_block h]
  exact List.append_nil _

/-! ## A beat of a region -/

section
variable {q : HallReq} {w : WBeat} {r : HankRt} {s : State}

/-- The hearth with a beat's enabled bytes merged into those of its place in a region. -/
def State.beatStored (s : State) (r : HankRt) (base o : Nat) (w : WBeat) : State :=
  { s with
    hearth := Memory.write s.hearth (stripeKey s.C base (o / Config.stripe) + o % Config.stripe)
      (writtenBytes (regionEnd r.desc 0) o 255 w (s.spanRead base o 128)) }

/-- A beat of a SCRATCH hank merges its enabled bytes into those of its place. -/
theorem State.writeRegion_stored (hc : r.desc.cls = 7) (base o : Nat) (ho : o % 128 = 0) :
    Told (s.beatStored r base o w) (State.writeRegion r 0 base o w s) := by
  have beat : Told (s.beatStored r base o w)
      (State.hearthBeat (stripeKey s.C base (o / Config.stripe) + o % Config.stripe) w.be.toNat (beatData (regionEnd r.desc 0) o 255 w) s) := by
    simp only [State.hearthBeat, State.hearthPut, State.tell_hearth, State.beatStored, State.spanRead_block ho]
    exact (State.tell_told _ s).put _
  unfold State.writeRegion
  rw [if_neg (by simp [hc])]
  dsimp only
  split
  · exact beat.trans (State.clearBad_told _ _)
  · exact beat

/-- Nothing refuses a beat of a SCRATCH hank that is not paged. -/
theorem State.writeStops_scratch (hc : r.desc.cls = 7) (hp : s.paged r.desc = false) (ws : List WBeat) : s.writeStops r q ws = [] := by
  have stop (o : Nat) (w : WBeat) : s.beatStop r q.region o w = none := by
    unfold State.beatStop
    split
    · rfl
    · simp [hc, State.jobLocked, hp]
  simp only [State.writeStops, stop]
  exact List.filterMap_eq_nil_iff.mpr fun _ _ => rfl

/-- A write of one beat to a SCRATCH hank that is not paged, and of which no die holds a copy, writes its beat and answers it. -/
theorem State.hallWrite_scratch (hw : s.wholeStatus q .write = none) (hh : s.hank? q.hank.toNat = some r) (hc : r.desc.cls = 7)
    (hp : s.paged r.desc = false) (hd : s.tier.presence = []) (hl : q.len = 1) (hr : q.region = 0) (ho : q.off < regionSpan r.desc 0) :
    State.hallWrite q [w] s = (State.writeRegion r 0 (r.desc.base 0) q.off w s).emit
      (.hall q.ch.toNat q.way.toNat q.tag.toNat true .ok (zeros 128) 0) := by
  have hmaps : State.askMaps r q s = s := if_neg (by simp [hp])
  have hway (offs : List Nat) : State.pagesWay r offs s = (s, .go) := if_pos (by simp [hp])
  have hco (ks : List PageKey) : s.coherent ks q.writer = true := by simp [State.coherent, hd]
  have hover : State.attemptsOver r q s = s := if_neg (by simp [hp])
  have hbeat : State.writeBeat r 0 q.off w s = (State.writeRegion r 0 (r.desc.base 0) q.off w s, Beat.ok [] 0) := by
    unfold State.writeBeat
    rw [if_neg (Nat.not_le.mpr ho)]
    simp only [hc, hp]
    rfl
  have hdo : State.doWrite r q [w] s = (State.writeRegion r 0 (r.desc.base 0) q.off w s).respond q [Beat.ok [] 0] := by
    have hn : q.len.toNat = 1 := by rw [hl]; rfl
    have hw0 : State.wbeat [w] 0 = w := rfl
    simp only [State.doWrite, hover, State.writeStops_scratch hc hp, hc, hr, hn, State.runBeats, List.range_one, List.foldl_cons,
      List.foldl_nil, Nat.mul_zero, Nat.add_zero, hw0, Nat.reduceEqDiff, if_false, hbeat]
    rfl
  simp only [State.hallWrite, hw, hh, hmaps, State.tryWrite, hway, hco, hdo]
  rfl

end

theorem exec_porchWrite {q : HallReq} {ws : List WBeat} {mem : MemAns} {s : State} (hq : q.ch.toNat < s.C) :
    exec (.porchWrite q ws mem) s = .next (State.finish (State.settleAll (State.landingPass
      (State.takeHall { q with op := 1 } ws (State.hallWrite { q with op := 1 } ws) (State.begun mem s))))) :=
  if_pos (decide_eq_true hq)

/-- Settles O32: nothing stands in the way of such a write, so that it puts its 128 bytes at the beat's place and answers. -/
theorem porchWriteStoresItsBeat : Obligations.PorchWriteStoresItsBeat := by
  intro q w mem r s s0 hwf hq hr hop ht hw hh hc hp hd hl hreg h128 ho key bytes
  have hbytes : bytes.length = 128 := by
    refine length_writtenBytes ?_
    rw [State.spanRead_block h128, Memory.length_read hwf]
  have hrun : State.takeHall { q with op := 1 } [w] (State.hallWrite { q with op := 1 } [w]) s0 =
      (State.writeRegion r 0 (r.desc.base 0) q.off w s0).emit (.hall q.ch.toNat q.way.toNat q.tag.toNat true .ok (zeros 128) 0) := by
    refine (State.takeHall_served (q := { q with op := 1 }) hr hop ht).trans ?_
    exact State.hallWrite_scratch (q := { q with op := 1 }) hw hh hc hp hd hl hreg ho
  obtain ⟨scrub, tells, ht⟩ := State.writeRegion_stored (w := w) (s := s0) hc (r.desc.base 0) q.off h128
  refine ⟨_, tells, (exec_porchWrite hq).trans (by rw [hrun]), ?_⟩
  rw [ht]
  refine ⟨rfl, fun i hi => ?_, fun a ha => ?_, rfl, rfl, rfl, rfl, rfl, rfl⟩
  · refine (Memory.get_write_inside s0.hearth key i bytes (hbytes ▸ hi)).trans ?_
    rw [List.getD_eq_getElem?_getD, List.getElem?_eq_getElem (hbytes ▸ hi), Option.getD_some]
  · exact Memory.get_write_outside s0.hearth key a bytes (hbytes ▸ ha)

end Sys2Proof.Machine
end

section
/-! PROOFS. Reset (R335) and the test port (R368, R423). -/

namespace Sys2Proof.Machine

/-! ## Reset -/

theorem exec_lzReset (level : Bool) (n : BitVec 3) (s : State) :
    exec (.lzReset level n) s = .next (State.finish (State.lzReset level n.toNat (State.begun .clean s))) := rfl

/-- Settles O7: the two edges are the two branches of the level that act, and a low level on a low line is the third. -/
theorem resetClearsTheBlock : Obligations.ResetClearsTheBlock := by
  refine ⟨fun n s => ?_, fun n s => ⟨fun h => ?_, fun h => ?_⟩⟩
  · rw [exec_lzReset, State.begun_clean_begin]
    rfl
  · have hb : (State.begin .clean s).sys.lzReset = true := h
    rw [exec_lzReset, State.begun_clean_begin, State.lzReset, if_neg (by decide), if_pos hb]
    rfl
  · have hb : (State.begin .clean s).sys.lzReset = false := h
    rw [exec_lzReset, State.begun_clean_begin, State.lzReset, if_neg (by decide), if_neg (by rw [hb]; decide)]

/-! ## Scans of the test port -/

section
variable {s : State}

/-- In Shift-DR the controller stays while `jt_tms` is low. -/
theorem tap_shiftDr_stays (n : Nat) : (List.replicate n false).foldl Tap.next .shiftDr = .shiftDr := by
  induction n with
  | zero => rfl
  | succ n ih => rwa [List.replicate_succ, List.foldl_cons]

/-- A scan of the instruction register ends in Update-IR with its code in effect. -/
theorem State.irScan_eq (code : Nat) (h : s.jtag.tap = .idle ∨ s.jtag.tap = .reset) :
    State.irScan code s = { s with jtag := { s.jtag with ir := code, tap := .updateIr }, out := s.out ++ [.jtagIr 1] } := by
  rcases h with h | h <;> simp only [State.irScan, State.tapRun, State.setJtag, State.emit, h] <;> rfl

/-- A scan of a data register ends in Update-DR, which takes the value. -/
theorem State.drScan_eq (update : State → State) (h : s.jtag.tap = .updateIr ∨ s.jtag.tap = .updateDr) :
    State.drScan update s = update (State.capture { s with jtag := { s.jtag with tap := .updateDr } }) := by
  have walk : ∀ n, ([true, false, false] ++ List.replicate n false ++ [true, true]).foldl Tap.next s.jtag.tap = .updateDr := by
    intro n
    rw [List.foldl_append, List.foldl_append]
    rcases h with h | h <;> (rw [h]; exact congrArg (fun t => [true, true].foldl Tap.next t) (tap_shiftDr_stays n))
  simp only [State.drScan, State.tapRun, State.setJtag, walk]

theorem State.tapIdle_eq (h : s.jtag.tap = .updateDr) : s.tapIdle = { s with jtag := { s.jtag with tap := .idle } } := by
  simp only [State.tapIdle, State.tapRun, State.setJtag, h]
  rfl

theorem State.capture_idcode (h : s.jtag.ir = 0x01) : s.capture = s.emit (.jtag (idcode s.straps.jtMfr)) := if_pos h

theorem State.capture_dict (h : s.jtag.ir = 0x10) : s.capture = s.dictCapture := by simp only [State.capture, h]; rfl

theorem State.capture_mbist (h : s.jtag.ir = 0x11) : s.capture = s.mbistCapture := by simp only [State.capture, h]; rfl

theorem State.capture_bypass (h1 : s.jtag.ir ≠ 0x01) (h2 : s.jtag.ir ≠ 0x10) (h3 : s.jtag.ir ≠ 0x11) : s.capture = s.emit (.jtag 0) := by
  simp only [State.capture, h1, h2, h3, if_false]

/-! ## The instructions -/

section
variable (h : s.jtag.tap = .idle ∨ s.jtag.tap = .reset)
include h

theorem State.jtagId_eq : s.jtagId = { s with
    jtag := { s.jtag with ir := 0x01, tap := .idle }, out := s.out ++ [.jtagIr 1, .jtag (idcode s.straps.jtMfr)] } := by
  rw [State.jtagId, State.irScan_eq _ h, State.drScan_eq _ (.inl rfl), State.capture_idcode rfl, State.tapIdle_eq rfl]
  simp [State.emit]

omit h in
theorem bypassCode_other (code : Nat) : State.bypassCode code ≠ 0x01 ∧ State.bypassCode code ≠ 0x10 ∧ State.bypassCode code ≠ 0x11 := by
  unfold State.bypassCode
  split
  · decide
  · simp_all

theorem State.jtagBypassed_eq (code : Nat) : State.jtagBypassed code s = { s with
    jtag := { s.jtag with ir := State.bypassCode code, tap := .idle }, out := s.out ++ [.jtagIr 1, .jtag 0] } := by
  obtain ⟨h1, h2, h3⟩ := bypassCode_other code
  rw [State.jtagBypassed, State.irScan_eq _ h, State.drScan_eq _ (.inl rfl), State.capture_bypass h1 h2 h3, State.tapIdle_eq rfl]
  simp [State.emit]

end

/-! ## DICTRD -/

/-- What a capture of DICTRD shows: three free bytes, the word and its status. -/
def State.dictShown (t : State) (word status : Nat) : Out :=
  .jtag (leNat [Config.freeByte t.free, Config.freeByte (t.free + 1), Config.freeByte (t.free + 2)] + word * 2 ^ 24 + status * 2 ^ 56)

theorem State.dictCapture_eq : s.dictCapture =
    { s with free := s.free + 3, out := s.out ++ [s.dictShown s.jtag.dictWord s.jtag.dictStatus] } := rfl

/-- After the first scan of DICTRD the last word has been captured, and the address is taken. -/
theorem State.jtagDict_eq (addr : Nat) (h : s.jtag.tap = .idle ∨ s.jtag.tap = .reset) {u : State}
    (hu : State.dictUpdate addr { s with
      jtag := { s.jtag with ir := 0x10, tap := .updateDr }, free := s.free + 3
      out := s.out ++ [.jtagIr 1, s.dictShown s.jtag.dictWord s.jtag.dictStatus] } = u)
    (hir : u.jtag.ir = 0x10) (htap : u.jtag.tap = .updateDr) :
    State.jtagDict addr s = { u with
      jtag := { u.jtag with tap := .idle }, free := u.free + 3, out := u.out ++ [u.dictShown u.jtag.dictWord u.jtag.dictStatus] } := by
  have first : State.drScan (State.dictUpdate addr) (State.irScan 0x10 s) = u := by
    rw [State.irScan_eq _ h, State.drScan_eq _ (.inl rfl), State.capture_dict rfl, State.dictCapture_eq, ← hu]
    simp [State.dictShown]
  rw [State.jtagDict, first, State.drScan_eq _ (.inr htap), State.capture_dict, State.dictCapture_eq, State.tapIdle_eq rfl]
  · rfl
  · exact hir

theorem State.dictUpdate_low (addr : Nat) (h : s.sys.lzReset = true ∨ s.sys.ready = false) :
    State.dictUpdate addr s = { s with jtag := { s.jtag with dictAddr := addr, dictWord := 0, dictStatus := 2 } } := by
  have : (s.sys.lzReset || !s.sys.ready) = true := by rcases h with h | h <;> simp [h]
  rw [State.dictUpdate, if_pos this]
  rfl

theorem State.afterRead_jtag (r : EntryRow) (idx subi : Nat) : (State.afterRead r idx subi s).jtag = s.jtag := by
  by_cases hi : idx = 0x10FD
  · unfold State.afterRead
    split
    · rfl
    · split
      · simp [hi]
      · rfl
  · obtain ⟨_, h⟩ := State.afterRead_counted (r := r) (subi := subi) (s := s) hi
    rw [h]

theorem Counted.ite {p : Prop} [Decidable p] {s t u : State} (h : Counted s t) (g : Counted s u) : Counted s (if p then t else u) := by
  split
  · exact h
  · exact g

theorem State.bump_counted (idx subi n : Nat) (s : State) : Counted s (State.bump idx subi n s) := ⟨_, rfl⟩

theorem State.countRetry_counted (path : Path) (addr : Nat) (write : Bool) : Counted s (State.countRetry path addr write s) := by
  have load {p : Prop} [Decidable p] : Counted s (if p then State.bump 0x5000 0x06 1 s else s) :=
    .ite (State.bump_counted ..) (.refl s)
  cases path
  case ocper => exact load.trans (State.bump_counted ..)
  case jutus => exact load
  all_goals exact load.trans (.ite (.refl _) (State.bump_counted ..))

/-- A read of a word leaves the test logic alone. -/
theorem State.wordRead_jtag (path : Path) (addr : Nat) : (State.wordRead path addr s).1.jtag = s.jtag := by
  unfold State.wordRead
  split
  · obtain ⟨_, h⟩ := State.countRetry_counted (s := s) path addr false
    rw [h]
  · split
    · rfl
    · split
      · rfl
      · dsimp only
        split <;> exact State.afterRead_jtag ..

theorem State.dictUpdate_up (addr : Nat) (hl : s.sys.lzReset = false) (hr : s.sys.ready = true) :
    State.dictUpdate addr s =
      (let x := State.wordRead .jtag addr s
       { x.1 with jtag := { x.1.jtag with dictAddr := addr, dictWord := x.2.2, dictStatus := x.2.1 } }) := by
  simp only [State.dictUpdate, hl, hr, State.wordRead_jtag]
  rfl

/-! ## MBIST -/

/-- What a capture of MBIST shows: bit 0 says done and bit 1 failed, and where both are set the bank stands above bit 15. -/
theorem State.mbistCapture_eq : ∃ v : Nat, s.mbistCapture = { s with free := s.free + 4, out := s.out ++ [.jtag v] } ∧
    v % 4 = flagOf s.jtag.mbistDone + 2 * flagOf s.jtag.mbistFail ∧
    (s.jtag.mbistDone = true → s.jtag.mbistFail = true → v / 2 ^ 16 = s.jtag.mbistBank) := by
  have hflag (b : Bool) : flagOf b ≤ 1 := by cases b <;> decide
  have h1 := hflag s.jtag.mbistDone
  have h2 := hflag s.jtag.mbistFail
  refine ⟨_, rfl, ?_, fun hd hf => ?_⟩
  · omega
  · rw [hd, hf] at *
    simp only [Bool.and_self, if_true, flagOf]
    omega

/-- The test logic after Update-DR of MBIST. -/
def JtagSt.started (j : JtagSt) (start inReset : Bool) : JtagSt :=
  if start then { j with mbistRunning := inReset, mbistDone := false, mbistFail := !inReset } else j

theorem State.jtagTest_eq (start : Bool) (h : s.jtag.tap = .idle ∨ s.jtag.tap = .reset) :
    ∃ old new : Nat, old % 4 = flagOf s.jtag.mbistDone + 2 * flagOf s.jtag.mbistFail ∧
      (let j := s.jtag.started start s.sys.lzReset
       new % 4 = flagOf j.mbistDone + 2 * flagOf j.mbistFail ∧ (j.mbistDone = true → j.mbistFail = true → new / 2 ^ 16 = j.mbistBank) ∧
       State.jtagTest start s =
        { s with jtag := { j with ir := 0x11, tap := .idle }, free := s.free + 8, out := s.out ++ [.jtagIr 1, .jtag old, .jtag new] }) := by
  let u : State := { s with jtag := { s.jtag with ir := 0x11, tap := .updateDr }, out := s.out ++ [.jtagIr 1] }
  obtain ⟨old, he, ho, -⟩ := State.mbistCapture_eq (s := u)
  let w : State := { u with free := u.free + 4, out := u.out ++ [.jtag old], jtag := u.jtag.started start s.sys.lzReset }
  obtain ⟨new, hw, hn, hb⟩ := State.mbistCapture_eq (s := w)
  have first : State.drScan (State.mbistUpdate start) (State.irScan 0x11 s) = w := by
    rw [State.irScan_eq _ h, State.drScan_eq _ (.inl rfl), State.capture_mbist rfl]
    exact congrArg (State.mbistUpdate start) he
  refine ⟨old, new, ho, ?_⟩
  cases start
  all_goals
    refine ⟨hn, hb, ?_⟩
    rw [State.jtagTest, first, State.drScan_eq _ (.inr rfl), State.capture_mbist rfl]
    refine (congrArg State.tapIdle hw).trans ((State.tapIdle_eq rfl).trans ?_)
    simp [w, u, JtagSt.started]

theorem State.mbistEnd_runs {fail : Bool} {bank : Nat} (hj : s.jtag.mbistRunning = true) (hb : s.hasRow bank 0 = true) :
    State.mbistEnd fail bank s =
      { s with jtag := { s.jtag with mbistRunning := false, mbistDone := true, mbistFail := fail, mbistBank := bank } } :=
  if_pos (Bool.and_eq_true_iff.mpr ⟨hj, hb⟩)

theorem State.mbistEnd_idle {fail : Bool} {bank : Nat} (h : s.jtag.mbistRunning = false ∨ s.hasRow bank 0 = false) :
    State.mbistEnd fail bank s = s := by
  have off : (s.jtag.mbistRunning && s.hasRow bank 0) = false := by rcases h with h | h <;> simp [h]
  exact if_neg (Bool.eq_false_iff.mp off)

end

/-! ## The commands of the test port -/

theorem exec_jtagIdcode (s : State) : exec .jtagIdcode s = .next (State.finish (State.jtagId (State.begun .clean s))) := rfl

theorem exec_jtagBypass (code : BitVec 5) (s : State) :
    exec (.jtagBypass code) s = .next (State.finish (State.jtagBypassed code.toNat (State.begun .clean s))) := rfl

theorem exec_jtagTestLogicReset (s : State) :
    exec .jtagTestLogicReset s = .next (State.finish (State.jtagTlr (State.begun .clean s))) := rfl

theorem exec_jtagDictrd (a : BitVec 24) (s : State) :
    exec (.jtagDictrd a) s = .next (State.finish (State.jtagDict a.toNat (State.begun .clean s))) := rfl

theorem exec_jtagMbist (start : Bool) (s : State) :
    exec (.jtagMbist start) s = .next (State.finish (State.jtagTest start (State.begun .clean s))) := rfl

theorem exec_mbistDone (fail : Bool) (bank : BitVec 16) (s : State) :
    exec (.mbistDone fail bank) s = .next (State.finish (State.mbistEnd fail bank.toNat (State.begun .clean s))) := rfl

/-- Settles O8: each command is its scans, of which a lemma says where the controller ends and what is captured. -/
theorem testPortCaptures : Obligations.TestPortCaptures := by
  intro s h
  have hb : (State.begin .clean s).jtag.tap = .idle ∨ (State.begin .clean s).jtag.tap = .reset := h
  refine ⟨⟨?_, fun code => ?_, ?_⟩, fun a => ⟨fun hd => ?_, fun hl hr => ?_⟩, fun start => ?_, fun fail bank => ⟨fun hj hk => ?_, fun hn => ?_⟩⟩
  · rw [exec_jtagIdcode, State.begun_clean_begin, State.jtagId_eq hb]
    rfl
  · rw [exec_jtagBypass, State.begun_clean_begin, State.jtagBypassed_eq hb]
    rfl
  · rw [exec_jtagTestLogicReset, State.begun_clean_begin]
    rfl
  · rw [exec_jtagDictrd, State.begun_clean_begin, State.jtagDict_eq _ hb (State.dictUpdate_low _ hd) rfl rfl]
    rfl
  · have second := State.jtagDict_eq _ hb (State.dictUpdate_up a.toNat hl hr) (congrArg JtagSt.ir (State.wordRead_jtag _ _))
      (congrArg JtagSt.tap (State.wordRead_jtag _ _))
    rw [exec_jtagDictrd, State.begun_clean_begin, second]
    rfl
  · obtain ⟨old, new, ho, hn, hk, hx⟩ := State.jtagTest_eq start hb
    refine ⟨old, new, ho, hn, hk, ?_⟩
    rw [exec_jtagMbist, State.begun_clean_begin, hx]
    rfl
  · rw [exec_mbistDone, State.begun_clean_begin, State.mbistEnd_runs (s := State.begin .clean s) hj hk]
    rfl
  · rw [exec_mbistDone, State.begun_clean_begin, State.mbistEnd_idle (s := State.begin .clean s) hn]
    rfl

end Sys2Proof.Machine
end

section
/-! PROOFS. The serial monitor (R401, R402) and hall time (R337). -/

namespace Sys2Proof.Machine

/-! ## Reports -/

/-- A report of the monitor: its lines go out while the firmware runs, and nothing else changes. -/
theorem finish_report {f : State → List String} {s : State} {l : List String} (hf : f (State.begin .clean s) = l) :
    (s.sys.hk = .running →
      State.finish ((State.begun .clean s).jutusRun (fun x => x.say (f x))) =
        State.finish { s with ans := .clean, out := [.serial (String.intercalate "\r\n" l ++ "\r\nlz> ")] }) ∧
    (s.sys.hk ≠ .running →
      State.finish ((State.begun .clean s).jutusRun (fun x => x.say (f x))) = State.finish (State.begin .clean s)) := by
  rw [State.begun_clean_begin]
  refine ⟨fun hk => ?_, fun hk => ?_⟩
  · rw [State.jutusRun_running (s := State.begin .clean s) hk, hf]
    rfl
  · have hu : (State.begin .clean s).jutusUp = false := beq_eq_false_iff_ne.mpr hk
    rw [State.jutusRun, hu, if_neg Bool.false_ne_true]

theorem exec_report {c : Instr} {f : State → List String} {s : State} {l : List String}
    (hc : exec c s = .next (State.finish ((State.begun .clean s).jutusRun (fun x => x.say (f x)))))
    (hf : f (State.begin .clean s) = l) :
    (s.sys.hk = .running →
      exec c s = .next (State.finish { s with ans := .clean, out := [.serial (String.intercalate "\r\n" l ++ "\r\nlz> ")] })) ∧
    (s.sys.hk ≠ .running → exec c s = .next (State.finish (State.begin .clean s))) := by
  rw [hc]
  exact ⟨fun hk => congrArg _ ((finish_report hf).1 hk), fun hk => congrArg _ ((finish_report hf).2 hk)⟩

theorem exec_jutusLog (n : Option (BitVec 32)) (s : State) : exec (.jutusLog n) s = .next (State.finish
    ((State.begun .clean s).jutusRun (fun x => x.say (x.jutusLogText ((n.map (fun k => k.toNat)).getD 16))))) := rfl

theorem exec_jutusFrameTrace (n : Option (BitVec 32)) (s : State) : exec (.jutusFrameTrace n) s = .next (State.finish
    ((State.begun .clean s).jutusRun (fun x => x.say (x.jutusTraceText ((n.map (fun k => k.toNat)).getD 16))))) := rfl

theorem State.jutusLogText_begin (s : State) (n : Nat) : (State.begin .clean s).jutusLogText n = s.jutusLogText n := by
  simp only [State.jutusLogText, State.begin_house]

theorem State.jutusTraceText_begin (s : State) (n : Nat) : (State.begin .clean s).jutusTraceText n = s.jutusTraceText n := by
  simp only [State.jutusTraceText, State.begin_house]

/-- Settles O9: each of the twelve is a report, whose lines the begin of a command does not change. -/
theorem jutusReportsOnlyPrint : Obligations.JutusReportsOnlyPrint := by
  intro s n m reports r hr
  simp only [reports, List.mem_cons, List.not_mem_nil, or_false] at hr
  rcases hr with rfl | rfl | rfl | rfl | rfl | rfl | rfl | rfl | rfl | rfl | rfl | rfl
  · exact exec_report (f := fun _ => jutusHelpText) rfl rfl
  · exact exec_report (f := State.jutusVersionText) rfl rfl
  · exact exec_report (exec_jutusLog n s) (State.jutusLogText_begin ..)
  · exact exec_report (f := State.jutusSensorText) rfl rfl
  · exact exec_report (f := State.jutusHealthText) rfl rfl
  · exact exec_report (f := State.jutusSkeinText) rfl rfl
  · exact exec_report (f := State.jutusStepText) rfl rfl
  · exact exec_report (exec_jutusFrameTrace m s) (State.jutusTraceText_begin ..)
  · exact exec_report (f := State.jutusPlanText) rfl rfl
  · exact exec_report (f := State.jutusMaskText) rfl rfl
  · exact exec_report (f := State.jutusJournalText) rfl rfl
  · exact exec_report (f := State.jutusFirmwareText) rfl rfl

/-! ## Reads and writes of the monitor -/

section
variable {s : State} {path : Path} {idx subi addr : Nat}

theorem State.readTwist_begin : (State.begin .clean s).readTwist idx subi = s.readTwist idx subi := by
  have ht : (State.begin .clean s).twistAt idx = s.twistAt idx := rfl
  have ho : (State.begin .clean s).twistOwner idx = s.twistOwner idx := rfl
  simp only [State.readTwist, ht, ho]

theorem State.readScalar_begin : (State.begin .clean s).readScalar path idx subi = s.readScalar path idx subi := by
  simp only [State.readScalar, State.readTwist_begin]
  rfl

theorem State.readBlob_begin : (State.begin .clean s).readBlob path idx subi = s.readBlob path idx subi := rfl

/-- The values in effect do not depend on what begins a command. -/
theorem State.readValue_begin : (State.begin .clean s).readValue path addr = s.readValue path addr := by
  simp only [State.readValue, State.readBlob_begin, State.readScalar_begin, State.begin_straps]

end

section
variable {s t : State} {addr n : Nat} {r : EntryRow} {f : State → State}

/-- An answer of one line. -/
theorem State.say_line (x : String) (s : State) : s.say [x] = s.emit (.serial (x ++ "\r\nlz> ")) := rfl

theorem State.jutusUnlockedOnly_locked (hu : s.house.jutus.unlocked = false) :
    s.jutusUnlockedOnly addr f = (s.refuseWrite 2 addr 2).emit (.serial "refused\r\nlz> ") := by
  rw [State.jutusUnlockedOnly, hu, if_neg Bool.false_ne_true]
  have ht : "refused" ++ "\r\nlz> " = "refused\r\nlz> " := by decide
  rw [State.jutusRefuse, State.say_line, ht]
  rfl

/-- An unlocked monitor reads what a locked one may not: the RC counters. -/
theorem State.jutusBarred_false {p : Bool} (h : r.acc = .rc → addrSub addr ≠ 0 → p = true) :
    (decide (r.acc = .rc) && addrSub addr != 0 && !p) = false := by
  by_cases ha : r.acc = .rc
  · by_cases hs : addrSub addr = 0
    · simp [hs]
    · simp [h ha hs]
  · simp [ha]

theorem State.jutusReadEntry_num (hv : s.readValue .jutus addr = some (r, .num n))
    (h : r.acc = .rc → addrSub addr ≠ 0 → s.house.jutus.unlocked = true) :
    s.jutusReadEntry addr = (s.afterRead r (addrIdx addr) (addrSub addr)).emit (.serial (scalarText r.ty n ++ "\r\nlz> ")) := by
  simp only [State.jutusReadEntry, hv, State.jutusBarred_false h, Bool.false_eq_true, if_false, State.say_line]

theorem State.jutusDumpEntry_blob {b : Bytes} {offset : Nat} (hv : s.readValue .jutus addr = some (r, .blob b))
    (h : r.acc = .rc → addrSub addr ≠ 0 → s.house.jutus.unlocked = true) :
    s.jutusDumpEntry addr offset =
      (s.afterRead r (addrIdx addr) (addrSub addr)).emit (.serial (bytesText ((b.drop offset).take 256) ++ "\r\nlz> ")) := by
  simp only [State.jutusDumpEntry, hv, State.jutusBarred_false h, Bool.false_eq_true, if_false, State.say_line]

theorem State.jutusWritten_done (t : State) : State.jutusWritten (t, .done) = t.emit (.serial "ok\r\nlz> ") := by
  have ht : "ok" ++ "\r\nlz> " = "ok\r\nlz> " := by decide
  rw [← ht]
  rfl

theorem State.jutusPut_done (h : s.dictWrite .jutus addr (.num n) = (t, .done)) : s.jutusPut addr n = t.emit (.serial "ok\r\nlz> ") := by
  rw [State.jutusPut, h, State.jutusWritten_done]

/-- A number that is written is taken as its entry says: no rule refuses it after the checks. -/
theorem State.applyWrite_num (path : Path) (idx subi : Nat) : (State.applyWrite path r idx subi (.num n) s).2 = 0 := by
  simp only [State.applyWrite]
  split
  · rfl
  · simp only [State.doScalar, apply_ite Prod.snd, ite_self]

/-- A number that passes the checks is done. -/
theorem State.dictWrite_num (he : entry? s.straps.build (addrIdx addr) (addrSub addr) = some r) (ha : addr ≠ 0x10FD04)
    (hw : writable .jutus addr (.num n) s = true) :
    s.dictWrite .jutus addr (.num n) = ((State.applyWrite .jutus r (addrIdx addr) (addrSub addr) (.num n) s).1, .done) := by
  simp only [writable, he, Bool.and_eq_true] at hw
  have hf : s.writeFault .jutus r (addrIdx addr) (addrSub addr) (.num n) = none := Option.isNone_iff_eq_none.mp hw.2
  simp only [State.dictWrite, if_neg ha, State.writeEntry, he, hf, State.applyWrite_num, if_true]

end

/-! ## Events and counters -/

section
variable {b : Build} {line n : Nat} {s : State}

theorem entry?_baud (b : Build) : entry? b 0x3110 0x02 = some (row 0x3110 0x3110 0x02 0x02 .u32 .rw 0x1C200 0x2580 0x2DC6C0) := by
  cases b <;> rfl

theorem entry?_ackLine (b : Build) (h : line < 8) :
    entry? b 0x3070 (0x10 + line) = some (row 0x3070 0x3070 0x10 0x17 .u64 .rw 0 0 0xFFFFFFFFFFFFFFFF) := by
  rcases (by omega : line = 0 ∨ line = 1 ∨ line = 2 ∨ line = 3 ∨ line = 4 ∨ line = 5 ∨ line = 6 ∨ line = 7) with
    rfl | rfl | rfl | rfl | rfl | rfl | rfl | rfl <;> cases b <;> rfl

theorem ackLine_address (h : line < 8) : addrIdx (0x307010 + line) = 0x3070 ∧ addrSub (0x307010 + line) = 0x10 + line := by
  unfold addrIdx addrSub
  omega

/-- An unlocked monitor's acknowledgement of a line passes the checks of Table 14.3. -/
theorem State.writeFault_ackLine (h : line < 8) (hn : n < 2 ^ 64) (hu : s.house.jutus.unlocked = true) :
    s.writeFault .jutus (row 0x3070 0x3070 0x10 0x17 .u64 .rw 0 0 0xFFFFFFFFFFFFFFFF) 0x3070 (0x10 + line) (.num n) = none := by
  refine State.writeFault_num ?_ ?_ rfl (by decide) hn ⟨Nat.zero_le _, Nat.le_of_lt_succ hn⟩ rfl rfl
  · have h0 : (0x10 + line == 0) = false := beq_eq_false_iff_ne.mpr (by omega)
    rw [h0]
    rfl
  · have h1 : (addrOf 0x3070 (0x10 + line) == 0x111002) = false := beq_eq_false_iff_ne.mpr (by unfold addrOf; omega)
    have h2 : (addrOf 0x3070 (0x10 + line) == 0x311001) = false := beq_eq_false_iff_ne.mpr (by unfold addrOf; omega)
    simp only [State.pathBars, h1, h2, hu, Bool.not_true, Bool.or_self]

theorem State.applyWrite_ackLine : State.applyWrite .jutus (row 0x3070 0x3070 0x10 0x17 .u64 .rw 0 0 0xFFFFFFFFFFFFFFFF) 0x3070 (0x10 + line)
    (.num n) s = (State.ackEvents line n s, 0) := by
  have hd : State.doScalar .jutus 0x3070 (0x10 + line) n s = (State.ackEvents line n s, 0) := by simp [State.doScalar]
  exact (if_neg (by decide)).trans hd

theorem State.jutusPut_ackLine (h : line < 8) (hn : n < 2 ^ 64) (hu : s.house.jutus.unlocked = true) :
    s.jutusPut (0x307010 + line) n = (State.ackEvents line n s).emit (.serial "ok\r\nlz> ") := by
  obtain ⟨hi, hk⟩ := ackLine_address h
  have ha : 0x307010 + line ≠ 0x10FD04 := by omega
  generalize 0x307010 + line = addr at hi hk ha ⊢
  refine State.jutusPut_done ?_
  simp only [State.dictWrite, if_neg ha, State.writeEntry, hi, hk, entry?_ackLine _ h, State.writeFault_ackLine h hn hu,
    State.applyWrite_ackLine, if_true]

theorem State.clearBlock_begin (idx : Nat) (s : State) : State.clearBlock idx (State.begin .clean s) = State.begin .clean (State.clearBlock idx s) := by
  unfold State.clearBlock forEach
  exact List.foldl_hom (State.begin .clean) (fun _ _ => rfl)

/-- The lines of command c: the counters of an index that are not zero. -/
def counterLines (idx : Nat) (s : State) : List String :=
  ((List.range (highSub s.straps.build idx)).filter (fun i => s.ctr idx (i + 1) != 0)).map
    (fun i => entryText (addrOf idx (i + 1)) ++ "=" ++ toString (s.ctr idx (i + 1)))

theorem State.jutusCountersRun_eq {idx : Nat} (h : counterIndex idx = true) :
    s.jutusCountersRun idx = (s.clearBlock idx).say (counterLines idx s) := if_pos h

theorem mem_counterLines {idx : Nat} {x : String} : x ∈ counterLines idx s ↔
    ∃ k : Nat, 0 < k ∧ k ≤ highSub s.straps.build idx ∧ s.ctr idx k ≠ 0 ∧ x = entryText (addrOf idx k) ++ "=" ++ toString (s.ctr idx k) := by
  simp only [counterLines, List.mem_map, List.mem_filter, List.mem_range, bne_iff_ne]
  constructor
  · rintro ⟨i, ⟨hi, hc⟩, rfl⟩
    exact ⟨i + 1, Nat.succ_pos i, hi, hc, rfl⟩
  · rintro ⟨k, hk, hi, hc, rfl⟩
    obtain ⟨i, rfl⟩ := Nat.exists_eq_succ_of_ne_zero (Nat.pos_iff_ne_zero.mp hk)
    exact ⟨i, ⟨hi, hc⟩, rfl⟩

end

theorem exec_jutusDump (a : BitVec 24) (o : Option (BitVec 32)) (s : State) : exec (.jutusDump a o) s = .next (State.finish
    ((State.begun .clean s).jutusRun (State.jutusDumpEntry a.toNat ((o.map (fun x => x.toNat)).getD 0)))) := rfl

theorem exec_jutusBaud (baud : BitVec 32) (s : State) : exec (.jutusBaud baud) s = .next (State.finish
    ((State.begun .clean s).jutusRun (State.jutusUnlockedOnly 0x311002 (State.jutusPut 0x311002 baud.toNat)))) := rfl

theorem exec_jutusAck (line : BitVec 8) (seq : BitVec 64) (s : State) (h : line.toNat < 8) (hk : s.sys.hk = .running) :
    exec (.jutusAck line seq) s = .next (State.finish
      ((State.begin .clean s).jutusUnlockedOnly (0x307010 + line.toNat) (State.jutusPut (0x307010 + line.toNat) seq.toNat))) := by
  have hx : exec (.jutusAck line seq) s = .next (State.finish ((State.begun .clean s).jutusRun (fun x =>
      if line.toNat < 8 then x.jutusUnlockedOnly (0x307010 + line.toNat) (State.jutusPut (0x307010 + line.toNat) seq.toNat)
      else x.say ["no such line"]))) := rfl
  rw [hx, State.begun_clean_begin, State.jutusRun_running (s := State.begin .clean s) hk, if_pos h]

theorem exec_jutusCounters (i : BitVec 16) (s : State) : exec (.jutusCounters i) s = .next (State.finish
    ((State.begun .clean s).jutusRun (State.jutusUnlockedOnly 0x5FFE02 (State.jutusCountersRun i.toNat)))) := rfl

/-- Settles O10: each command is a read or a write of the dictionary, from an unlocked monitor, and its answer's text. -/
theorem jutusReadsAndWrites : Obligations.JutusReadsAndWrites := by
  refine ⟨?reads, ?writes, ?settings, ?counters⟩
  case reads =>
    refine fun a o s r hk hrc => ⟨fun v hv => ?_, fun b hv => ?_⟩
    · rw [exec_jutusRead, State.begun_clean_begin, State.jutusRun_running (s := State.begin .clean s) hk,
        State.jutusReadEntry_num (s := State.begin .clean s) (State.readValue_begin.trans hv) hrc]
    · rw [exec_jutusDump, State.begun_clean_begin, State.jutusRun_running (s := State.begin .clean s) hk,
        State.jutusDumpEntry_blob (s := State.begin .clean s) (State.readValue_begin.trans hv) hrc]
  case writes =>
    intro a v _ mem s s0 hk
    rw [exec_jutusWrite, State.jutusRun_running hk]
    refine ⟨fun hu => ?_, fun hu => by rw [State.jutusUnlockedOnly_locked hu]⟩
    rw [State.jutusUnlockedOnly_unlocked hu]
    exact ⟨fun r he ha hw => by rw [State.jutusPut_done (State.dictWrite_num he ha hw)], fun t ht => by rw [State.jutusPut_done ht]⟩
  case settings =>
    intro baud line seq s hk
    rw [exec_jutusBaud, State.begun_clean_begin, State.jutusRun_running (s := State.begin .clean s) hk]
    refine ⟨fun hu => ⟨fun hw => ?_, fun hl => ?_⟩, fun hu => ⟨?_, fun hl => ?_⟩⟩
    · rw [State.jutusUnlockedOnly_unlocked (s := State.begin .clean s) hu,
        State.jutusPut_done (State.dictWrite_num (s := State.begin .clean s) (entry?_baud _) (by decide) hw)]
      rfl
    · rw [exec_jutusAck line seq s hl hk, State.jutusUnlockedOnly_unlocked (s := State.begin .clean s) hu,
        State.jutusPut_ackLine (s := State.begin .clean s) hl seq.isLt hu]
    · rw [State.jutusUnlockedOnly_locked (s := State.begin .clean s) hu]
    · rw [exec_jutusAck line seq s hl hk, State.jutusUnlockedOnly_locked (s := State.begin .clean s) hu]
  case counters =>
    intro i s hk hu hi
    refine ⟨counterLines i.toNat s, fun k h0 h1 hc => mem_counterLines.mpr ⟨k, h0, h1, hc, rfl⟩, fun x hx => mem_counterLines.mp hx, ?_⟩
    rw [exec_jutusCounters, State.begun_clean_begin, State.jutusRun_running (s := State.begin .clean s) hk,
      State.jutusUnlockedOnly_unlocked (s := State.begin .clean s) hu, State.jutusCountersRun_eq hi, State.clearBlock_begin]
    rfl

/-! ## Unlocking -/

section
variable {s : State} {ht : Nat} {c k resp : Bytes}

theorem State.sampleTime_taken (hv : s.time.valid = true) (hn : s.now ≤ ht) :
    State.sampleTime ht s = { s with time := { base := ht, clocks := 0, valid := true } } := by
  rw [State.sampleTime, if_pos hv, if_neg (Nat.not_lt.mpr hn)]

theorem State.sampleTime_below (hv : s.time.valid = true) (hn : ht < s.now) : State.sampleTime ht s = State.bump 0x50C0 0x06 1 s := by
  rw [State.sampleTime, if_pos hv, if_pos hn]

/-- The response that unlocks (R402). -/
theorem State.jutusExpected_eq (hc : s.house.jutus.challenge = some c) (hk : s.house.jutus.deviceKey = some k) :
    s.jutusExpected = some ((hmac256 k (ascii "JUTUS" ++ c ++ toLE 2 s.node)).take 16) := by
  simp only [State.jutusExpected, hc, hk]

theorem State.jutusUnlockRun_right (hl : s.house.jutus.lockedOut = false) (he : s.jutusExpected = some resp) :
    s.jutusUnlockRun resp = (s.setJutus { s.house.jutus with unlocked := true, wrong := 0, challenge := none }).say ["ok"] := by
  simp only [State.jutusUnlockRun, hl, Bool.false_eq_true, if_false, he, if_true]

theorem State.jutusUnlockRun_wrong (hl : s.house.jutus.lockedOut = false) (he : s.jutusExpected ≠ some resp) :
    s.jutusUnlockRun resp = ((s.bump 0x50D0 0x0D 1).setJutus
      (if s.house.jutus.wrong + 1 < 3 then { s.house.jutus with wrong := s.house.jutus.wrong + 1 }
        else { s.house.jutus with wrong := 0, lockedOut := true })).say ["wrong"] := by
  simp only [State.jutusUnlockRun, hl, Bool.false_eq_true, if_false, if_neg he]
  by_cases hw : s.house.jutus.wrong + 1 < 3
  · rw [if_neg (Nat.not_le.mpr hw), if_pos hw]
  · rw [if_pos (Nat.not_lt.mp hw), if_neg hw]

end

theorem exec_jutusChallenge (ht : BitVec 64) (s : State) : exec (.jutusChallenge ht) s = .next (State.finish
    ((State.begun .clean s).jutusRun (fun x => (x.sampleTime ht.toNat).jutusChallengeRun))) := rfl

theorem exec_jutusUnlock (resp : Bytes) (s : State) : exec (.jutusUnlock resp) s = .next (State.finish
    ((State.begun .clean s).jutusRun (State.jutusUnlockRun resp))) := rfl

theorem exec_jutusLock (s : State) : exec .jutusLock s = .next (State.finish
    ((State.begun .clean s).jutusRun (State.jutusUnlockedOnly 0x311003 State.jutusLockRun))) := rfl

theorem exec_jutusUnlockExpiry (s : State) : exec .jutusUnlockExpiry s = .next (State.finish (State.jutusExpire (State.begun .clean s))) := rfl

theorem exec_jutusLockoutExpiry (s : State) : exec .jutusLockoutExpiry s = .next (State.finish (State.jutusFree (State.begun .clean s))) := rfl

/-- Settles O11: each command sets the monitor's fields alone, and its answer is one line. -/
theorem jutusUnlocksAndLocks : Obligations.JutusUnlocksAndLocks := by
  refine ⟨?challenge, ?response, fun s => ⟨fun hk hu => ?_, ?_, ?_⟩⟩
  case challenge =>
    intro ht s hk hv hn w
    simp only [w, State.sampleTime_taken hv hn]
    rw [exec_jutusChallenge, State.begun_clean_begin, State.jutusRun_running (s := State.begin .clean s) hk,
      State.sampleTime_taken (s := State.begin .clean s) hv hn]
    rfl
  case response =>
    intro resp c k s hk hl hc hd right j
    have he : (State.begin .clean s).jutusExpected = some right := State.jutusExpected_eq (s := State.begin .clean s) hc hd
    rw [exec_jutusUnlock, State.begun_clean_begin, State.jutusRun_running (s := State.begin .clean s) hk]
    refine ⟨fun hr => ?_, fun hr => ?_⟩
    · rw [State.jutusUnlockRun_right (s := State.begin .clean s) hl (hr ▸ he)]
      rfl
    · rw [State.jutusUnlockRun_wrong (s := State.begin .clean s) hl (fun h => hr (Option.some.inj (h.symm.trans he)))]
      rfl
  · rw [exec_jutusLock, State.begun_clean_begin, State.jutusRun_running (s := State.begin .clean s) hk,
      State.jutusUnlockedOnly_unlocked (s := State.begin .clean s) hu]
    rfl
  · rw [exec_jutusUnlockExpiry, State.begun_clean_begin]
    rfl
  · rw [exec_jutusLockoutExpiry, State.begun_clean_begin]
    rfl

/-! ## Hall time -/

theorem exec_hallTimeValid (sample : BitVec 64) (mem : MemAns) (s : State) : exec (.hallTimeValid sample mem) s = .next (State.finish
    (State.settleAll ((State.begun mem s).awake (State.hallValid sample.toNat)))) := rfl

theorem exec_hallTimeInvalid (x sample : BitVec 64) (mem : MemAns) (s : State) : exec (.hallTimeInvalid x sample mem) s = .next (State.finish
    (State.settleAll ((State.begun mem s).awake (State.hallInvalid x.toNat sample.toNat)))) := rfl

/-- Settles O12: a sample is taken where it is not below the largest seen; without one the clocks are counted (R337). -/
theorem hallTimeIsMonotonic : Obligations.HallTimeIsMonotonic := by
  intro x sample mem s hl s0
  have hl0 : s0.sys.lzReset = false := (State.begun_lzReset mem s).trans hl
  rw [exec_hallTimeValid, exec_hallTimeInvalid, State.awake_low hl0, State.awake_low hl0]
  refine ⟨fun hn => ?_, fun hn => ?_, fun hx => ?_, fun hx => ?_⟩
  · rw [State.hallValid, State.sampleTime_taken (s := { s0 with time := { s0.time with valid := true } }) rfl hn]
  · rw [State.hallValid, State.sampleTime_below (s := { s0 with time := { s0.time with valid := true } }) rfl hn]
    rfl
  · rw [State.hallInvalid, if_neg hx]
    rfl
  · rw [State.hallInvalid, if_pos hx]

end Sys2Proof.Machine
end

section
/-! PROOFS. The journal window: its requests, what their answers lead to, and the read-back of an image (R366, R387 to R394). -/

namespace Sys2Proof.Machine

/-! ## What the event log leaves alone -/

section
variable {s t : State}

theorem Logged.refl (s : State) : Logged s s := ⟨_, _, _, _, rfl⟩

theorem Logged.forEach {α : Type} {f : α → State → State} (hf : ∀ x u, Logged u (f x u)) (l : List α) (s : State) :
    Logged s (Sys2Proof.Machine.forEach l f s) := by
  induction l generalizing s with
  | nil => exact .refl s
  | cons x xs ih => exact (hf x s).trans (ih _)

theorem Logged.nv (h : Logged s t) : t.nv = s.nv := by obtain ⟨_, _, _, _, rfl⟩ := h; rfl
theorem Logged.pantry (h : Logged s t) : t.pantry = s.pantry := by obtain ⟨_, _, _, _, rfl⟩ := h; rfl
theorem Logged.hanks (h : Logged s t) : t.hanks = s.hanks := by obtain ⟨_, _, _, _, rfl⟩ := h; rfl
theorem Logged.regs (h : Logged s t) : t.regs = s.regs := by obtain ⟨_, _, _, _, rfl⟩ := h; rfl
theorem Logged.fw (h : Logged s t) : t.house.fw = s.house.fw := by obtain ⟨_, _, _, _, rfl⟩ := h; rfl
theorem Logged.journal (h : Logged s t) : t.house.journal = s.house.journal := by obtain ⟨_, _, _, _, rfl⟩ := h; rfl

/-- The counters of the event log itself: entered, suppressed, overwritten (R383, R384). -/
def logCounters : List Nat := [addrOf 0x50D0 0x08, addrOf 0x50D0 0x09, addrOf 0x50D0 0x0A]

variable {idx subi detail kind i k : Nat} (hk : addrOf i k ∉ logCounters)
include hk

omit hk in
theorem mem_logCounters : addrOf 0x50D0 0x08 ∈ logCounters ∧ addrOf 0x50D0 0x09 ∈ logCounters ∧ addrOf 0x50D0 0x0A ∈ logCounters := by
  simp [logCounters]

theorem State.ctr_bump_log {n l : Nat} (hl : addrOf 0x50D0 l ∈ logCounters) : (State.bump 0x50D0 l n s).ctr i k = s.ctr i k :=
  State.ctr_bump_ne (fun h => hk (by rw [h]; exact hl))

omit hk in
theorem State.ctr_congr (h : t.counters = s.counters) : t.ctr i k = s.ctr i k := by rw [State.ctr, State.ctr, h]

theorem State.ctr_enter : (State.enter kind idx subi detail s).ctr i k = s.ctr i k := by
  unfold State.enter
  dsimp only
  split
  · rw [State.ctr_bump_log hk mem_logCounters.1]
    exact State.ctr_congr rfl
  · rw [State.ctr_bump_log hk mem_logCounters.2.2, State.ctr_bump_log hk mem_logCounters.1]
    exact State.ctr_congr rfl

/-- An event moves the log's own counters alone. -/
theorem State.ctr_raise : (State.raise kind idx subi detail s).ctr i k = s.ctr i k := by
  unfold State.raise
  dsimp only
  split
  · exact State.ctr_enter hk
  · split
    · exact State.ctr_enter hk
    · exact State.ctr_bump_log hk mem_logCounters.2.1

theorem State.ctr_countNote_same : (State.countNote i k detail s).ctr i k = min Config.u64Max (s.ctr i k + 1) :=
  (State.ctr_raise hk).trans State.ctr_bump_same

theorem State.ctr_countNote_ne (hn : addrOf i k ≠ addrOf idx subi) : (State.countNote idx subi detail s).ctr i k = s.ctr i k :=
  (State.ctr_raise hk).trans (State.ctr_bump_ne hn)

end

/-! ## Requests go out -/

/-- Requests of the window have been issued. -/
def Issued (s t : State) : Prop :=
  ∃ (n : Nat) (out : List Out), t = { s with
    house := { s.house with journal := { s.house.journal with opened := n } }
    out := out }

theorem Issued.trans {s t u : State} (h : Issued s t) (g : Issued t u) : Issued s u := by
  obtain ⟨_, _, rfl⟩ := h
  obtain ⟨n, o, rfl⟩ := g
  exact ⟨n, o, rfl⟩

section
variable {s t : State} (h : Issued s t)
include h

theorem Issued.sys : t.sys = s.sys := by obtain ⟨_, _, rfl⟩ := h; rfl
theorem Issued.nv : t.nv = s.nv := by obtain ⟨_, _, rfl⟩ := h; rfl
theorem Issued.hearth : t.hearth = s.hearth := by obtain ⟨_, _, rfl⟩ := h; rfl
theorem Issued.pantry : t.pantry = s.pantry := by obtain ⟨_, _, rfl⟩ := h; rfl
theorem Issued.hanks : t.hanks = s.hanks := by obtain ⟨_, _, rfl⟩ := h; rfl
theorem Issued.regs : t.regs = s.regs := by obtain ⟨_, _, rfl⟩ := h; rfl
theorem Issued.events : t.house.events = s.house.events := by obtain ⟨_, _, rfl⟩ := h; rfl
theorem Issued.fw : t.house.fw = s.house.fw := by obtain ⟨_, _, rfl⟩ := h; rfl
theorem Issued.queue : t.house.journal.queue = s.house.journal.queue := by obtain ⟨_, _, rfl⟩ := h; rfl
theorem Issued.journalState : t.house.journal.state = s.house.journal.state := by obtain ⟨_, _, rfl⟩ := h; rfl
theorem Issued.ctr (i k : Nat) : t.ctr i k = s.ctr i k := by obtain ⟨_, _, rfl⟩ := h; rfl

end

section
variable {j : JournalSt} {r : NpReq} {u s : State} {k : Nat}

theorem npNext_eq_some_iff : State.npNext j = some r ↔ j.queue[j.opened]? = some r ∧ j.opened < 8 ∧
    (j.opened = 0 ∨ (State.npAlone r = false ∧ ∀ q ∈ j.queue.take j.opened, State.npAlone q = false)) := by
  unfold State.npNext
  cases hq : j.queue[j.opened]? with
  | none => simp
  | some x =>
    simp only [Option.ite_none_right_eq_some, Option.some.injEq, Bool.and_eq_true, decide_eq_true_eq, Bool.or_eq_true, beq_iff_eq,
      Bool.not_eq_true', Bool.or_eq_false_iff, List.any_eq_false, Bool.not_eq_true]
    constructor
    · rintro ⟨⟨h8, h⟩, rfl⟩
      exact ⟨rfl, h8, h⟩
    · rintro ⟨rfl, h8, h⟩
      exact ⟨⟨h8, h⟩, rfl⟩

theorem State.npPump_some (h : State.npNext u.house.journal = some r) :
    State.npPump (k + 1) u = State.npPump k (State.npIssue r (u.setJournal { u.house.journal with opened := u.house.journal.opened + 1 })) := by
  simp only [State.npPump, h]

theorem State.npPump_none (h : State.npNext u.house.journal = none) : State.npPump (k + 1) u = u := by
  simp only [State.npPump, h]

theorem State.npPump_issued (k : Nat) (u : State) : Issued u (State.npPump k u) := by
  induction k generalizing u with
  | zero => exact ⟨_, _, rfl⟩
  | succ k ih =>
    cases h : State.npNext u.house.journal with
    | none => rw [State.npPump_none h]; exact ⟨_, _, rfl⟩
    | some r =>
      rw [State.npPump_some h]
      exact Issued.trans ⟨_, _, rfl⟩ (ih _)

theorem State.npPush_issued (rs : List NpReq) : Issued (u.setJournal { u.house.journal with queue := u.house.journal.queue ++ rs }) (State.npPush rs u) :=
  State.npPump_issued 8 _

end

/-! ## Responses -/

section
variable {s : State} {r : NpReq} {rest : List NpReq} {k status : Nat} {rdata : Bytes}

/-- The oldest open request has left the queue: `rest` stays, with `k` of it open. -/
def State.npTaken (rest : List NpReq) (k : Nat) (s : State) : State := s.setJournal { s.house.journal with queue := rest, opened := k }

/-- A response without an error answers the oldest open request. -/
theorem State.journalResponse_ok (hq : s.house.journal.queue = r :: rest) (ho : s.house.journal.opened = k + 1) :
    s.journalResponse 0 rdata =
      State.npPump 8 (State.lineAnswered r 0 rdata (s.npTaken rest k)) := by
  simp only [State.journalResponse, State.npTaken, if_true, hq, ho, Nat.succ_ne_zero, if_false, Nat.add_sub_cancel]

/-- One with an error counts first. -/
theorem State.journalResponse_error (hs : status ≠ 0) (hq : s.house.journal.queue = r :: rest) (ho : s.house.journal.opened = k + 1) :
    s.journalResponse status rdata = (let u := s.countNote 0x50C0 0x07 s.fr.step
      State.npPump 8 (State.lineAnswered r status rdata (u.npTaken rest k))) := by
  have hj : (s.countNote 0x50C0 0x07 s.fr.step).house.journal = s.house.journal := (State.countNote_logged ..).journal
  simp only [State.journalResponse, State.npTaken, if_neg hs, hj, hq, ho, Nat.succ_ne_zero, if_false, Nat.add_sub_cancel]

/-- Whatever a response brings, its request is answered in a state that has no more than counted and logged. -/
theorem State.journalResponse_logged (hq : s.house.journal.queue = r :: rest) (ho : s.house.journal.opened = k + 1) :
    ∃ u : State, Logged s u ∧ s.journalResponse status rdata =
      State.npPump 8 (State.lineAnswered r status rdata (u.npTaken rest k)) := by
  by_cases hs : status = 0
  · subst hs
    exact ⟨s, .refl s, State.journalResponse_ok hq ho⟩
  · exact ⟨_, State.countNote_logged .., State.journalResponse_error hs hq ho⟩

theorem State.journalResponse_idle (ho : s.house.journal.opened = 0) : s.journalResponse 0 rdata = s := by
  simp only [State.journalResponse, if_true, ho]
  split <;> rfl

theorem State.lineAnswered_written (hw : r.write = true) :
    s.lineAnswered r 0 rdata = State.lineDone r (s.nvWrite (64 * r.line) r.data) := by
  simp only [State.lineAnswered, hw, Bool.not_true, Bool.false_eq_true, if_false, if_true]

theorem State.lineAnswered_failed (hs : status ≠ 0) (hw : r.write = true) :
    s.lineAnswered r status rdata = if r.again then s.journalFail r else s.issueAgain r := by
  simp only [State.lineAnswered, hw, Bool.not_true, Bool.false_eq_true, if_false, if_neg hs]

theorem State.lineAnswered_read (hw : r.write = false) : s.lineAnswered r status rdata = s.readBack r status rdata := by
  simp only [State.lineAnswered, hw, Bool.not_false, if_true]

theorem State.lineDone_data (h : r.what = 0) : s.lineDone r = s := by simp only [State.lineDone, h]

theorem State.lineDone_record (h : r.what = 1) : s.lineDone r = s.recordDone r := by simp only [State.lineDone, h]

/-! ## Records that are durable -/

/-- A start is complete: the core runs, `lz_ready` is high, and the rows that failed the read-back are raised as events. -/
theorem State.started_logged (s : State) : Logged { s with
    sys := { s.sys with hk := .running, ready := true }
    house := { s.house with fw := { s.house.fw with trial := none } }
    scrub := { s.scrub with failedRows := [] } } s.started :=
  Logged.forEach (fun _ _ => State.raise_logged ..) _ _

theorem State.ctr_started {i n : Nat} (hk : addrOf i n ∉ logCounters) : s.started.ctr i n = s.ctr i n :=
  forEach_proj (fun u => u.ctr i n) (fun _ _ => State.ctr_raise hk) _ _

theorem State.recordDone_start (h1 : r.recType = 0x22) (h2 : r.mark = 1) (h3 : s.sys.hk ≠ .running) :
    s.recordDone r = (s.bump 0x50D0 0x05 1).started := by
  have hc : (decide (r.recType = 0x22) && decide (r.mark = 1) && (s.bump 0x50D0 0x05 1).sys.hk != .running) = true := by
    simp [h1, h2, h3]
  exact if_pos hc

theorem State.recordDone_batch (h : r.recType = 0x30) : s.recordDone r = (s.bump 0x50D0 0x05 1).markJournaled r.mark := by
  simp [State.recordDone, h]

/-! ## Failures -/

theorem State.imageRefused_logged (detail : Nat) (s : State) : ∃ (q : List NpReq) (slots : List FwSlot), Logged { s with house := { s.house with
    journal := { s.house.journal with queue := q }
    fw := { s.house.fw with load := 3, detail := detail, image := none, slots := slots } } } (s.imageRefused detail) :=
  ⟨_, _, State.raise_logged ..⟩

theorem State.ctr_imageRefused {i n detail : Nat} (hk : addrOf i n ∉ logCounters) : (s.imageRefused detail).ctr i n = s.ctr i n :=
  State.ctr_raise hk

theorem State.journalFail_state : (s.journalFail r).house.journal.state = 1 ∧ (s.journalFail r).nv = s.nv := by
  have h := State.raise_logged 2 0x3200 0x01 1 (s.setJournal { s.house.journal with state := 1, queue := State.npKept s.house.journal, snapAt := none })
  simp only [State.journalFail, State.changed]
  split
  · obtain ⟨_, _, g⟩ := State.imageRefused_logged 5 (State.raise 2 0x3200 0x01 1
      (s.setJournal { s.house.journal with state := 1, queue := State.npKept s.house.journal, snapAt := none }))
    rw [g.journal, g.nv, h.journal, h.nv]
    exact ⟨rfl, rfl⟩
  · rw [h.journal, h.nv]
    exact ⟨rfl, rfl⟩

theorem State.ctr_journalFail {i n : Nat} (hk : addrOf i n ∉ logCounters) : (s.journalFail r).ctr i n = s.ctr i n := by
  simp only [State.journalFail, State.changed]
  split
  · exact (State.ctr_imageRefused hk).trans (State.ctr_raise hk)
  · exact State.ctr_raise hk

end

section
variable {s : State} {r : NpReq} {status : Nat} {rdata : Bytes}

/-- A write that fails is issued again once; a second failure degrades the journal (R392). -/
theorem State.lineAnswered_failed_keeps (hs : status ≠ 0) (hw : r.write = true) :
    (s.lineAnswered r status rdata).nv = s.nv ∧
      (∀ i n : Nat, addrOf i n ∉ logCounters → (s.lineAnswered r status rdata).ctr i n = s.ctr i n) ∧
      (r.again = false → (s.lineAnswered r status rdata).house.journal = { s.house.journal with
        queue := s.house.journal.queue.take s.house.journal.opened ++ { r with again := true } ::
          s.house.journal.queue.drop s.house.journal.opened }) ∧
      (r.again = true → (s.lineAnswered r status rdata).house.journal.state = 1) := by
  rw [State.lineAnswered_failed hs hw]
  cases r.again
  · exact ⟨rfl, fun _ _ _ => rfl, fun _ => rfl, fun h => absurd h Bool.false_ne_true⟩
  · exact ⟨State.journalFail_state.2, fun _ _ h => State.ctr_journalFail h, fun h => absurd h.symm Bool.false_ne_true,
      fun _ => State.journalFail_state.1⟩

end

theorem exec_journalResponse (st : BitVec 2) (d : BitVec 512) (s : State) : exec (.journalResponse st d) s =
    .next (State.finish ((State.begun .clean s).awake (State.journalResponse st.toNat (toLE 64 d.toNat)))) := rfl

/-- Settles O14: an answer is done by what its request is, and afterwards requests go out, which changes no more than how many stand open. -/
theorem journalWindowIsWritten : Obligations.JournalWindowIsWritten := by
  refine ⟨?written, ?order, ?failed, fun d s hl ho => ?_⟩
  case written =>
    intro d r rest k s hl hq ho hw s1
    have hx : exec (.journalResponse 0 d) s = .next (State.finish (State.npPump 8 (State.lineDone r s1))) := by
      rw [exec_journalResponse, State.begun_clean_begin, State.awake_low (s := State.begin .clean s) hl]
      refine congrArg (fun t => Host.Outcome.next (State.finish t)) ((State.journalResponse_ok (s := State.begin .clean s) hq ho).trans ?_)
      rw [State.lineAnswered_written hw]
      rfl
    refine ⟨fun h0 => ?_, fun h1 h2 h3 hk => ?_, fun h1 h2 => ?_⟩
    · rw [hx, State.lineDone_data h0]
    · have hp := State.npPump_issued 8 (s1.bump 0x50D0 0x05 1).started
      have hs := State.started_logged (s1.bump 0x50D0 0x05 1)
      refine ⟨State.npPump 8 (s1.bump 0x50D0 0x05 1).started, ?_, ?_, ?_, ?_, ?_, ?_⟩
      · rw [hx, State.lineDone_record h1, State.recordDone_start (s := s1) h2 h3 hk]
      · exact hp.sys.trans hs.sys
      · exact hp.nv.trans hs.nv
      · exact (hp.ctr ..).trans ((State.ctr_started (by decide)).trans State.ctr_bump_same)
      · exact hp.hearth.trans hs.hearth
      · exact hp.hanks.trans hs.hanks
    · have hp := State.npPump_issued 8 ((s1.bump 0x50D0 0x05 1).markJournaled r.mark)
      refine ⟨State.npPump 8 ((s1.bump 0x50D0 0x05 1).markJournaled r.mark), ?_, hp.nv, hp.events⟩
      rw [hx, State.lineDone_record h1, State.recordDone_batch h2]
  case order =>
    intro u k j
    refine ⟨fun r => npNext_eq_some_iff, fun r hr hw => ?_, State.npPump_none⟩
    rw [State.npPump_some hr, State.npIssue, hw]
    rfl
  case failed =>
    intro st d r rest k s hl hs hq ho hw
    have h0 : st.toNat ≠ 0 := fun h => hs (BitVec.eq_of_toNat_eq h)
    have hx : exec (.journalResponse st d) s = .next (State.finish (State.journalResponse st.toNat (toLE 64 d.toNat) (State.begin .clean s))) := by
      rw [exec_journalResponse, State.begun_clean_begin, State.awake_low (s := State.begin .clean s) hl]
    rw [hx, State.journalResponse_error (s := State.begin .clean s) h0 hq ho]
    have hu := State.countNote_logged 0x50C0 0x07 (State.begin .clean s).fr.step (State.begin .clean s)
    have hc : (State.countNote 0x50C0 0x07 (State.begin .clean s).fr.step (State.begin .clean s)).ctr 0x50C0 0x07 = _ :=
      State.ctr_countNote_same (by decide)
    generalize State.countNote 0x50C0 0x07 (State.begin .clean s).fr.step (State.begin .clean s) = u at hu hc ⊢
    obtain ⟨wnv, wctr, wagain, wdead⟩ := State.lineAnswered_failed_keeps (rdata := toLE 64 d.toNat) h0 hw
      (s := u.npTaken rest k)
    have hp := State.npPump_issued 8 ((u.npTaken rest k).lineAnswered r st.toNat (toLE 64 d.toNat))
    refine ⟨_, rfl, ?_, ?_, fun ha => ⟨?_, ?_⟩, fun ha => ?_⟩
    · exact (hp.ctr ..).trans ((wctr _ _ (by decide)).trans hc)
    · exact hp.nv.trans (wnv.trans hu.nv)
    · exact hp.queue.trans (congrArg JournalSt.queue (wagain ha))
    · have hst : u.house.journal.state = s.house.journal.state := congrArg JournalSt.state hu.journal
      exact hp.journalState.trans ((congrArg JournalSt.state (wagain ha)).trans hst)
    · exact hp.journalState.trans (wdead ha)
  · rw [exec_journalResponse, State.begun_clean_begin, State.awake_low (s := State.begin .clean s) hl]
    exact congrArg (fun t => Host.Outcome.next (State.finish t)) (State.journalResponse_idle (s := State.begin .clean s) ho)

/-! ## Images that are loaded -/

/-- Requests that are put at the end of the queue change the queue, and what may go out does. -/
theorem State.npPush_facts (rs : List NpReq) (s : State) : (s.npPush rs).house.journal.queue = s.house.journal.queue ++ rs ∧
    (s.npPush rs).house.fw = s.house.fw ∧ (s.npPush rs).nv = s.nv := by
  have h := State.npPush_issued (u := s) rs
  exact ⟨h.queue, h.fw, h.nv⟩

section
variable {s : State} {r : NpReq} {image rdata : Bytes} {status : Nat}

/-- With no line of an image queued, a refusal leaves the queue as it is. -/
theorem State.imageRefused_closed (detail : Nat) (ho : s.imageOpen = false) :
    s.imageRefused detail = State.raise 4 0x3100 0x01 detail { s with house := { s.house with fw := { s.house.fw with
      load := 3, detail := detail, image := none, slots := setAt s.house.fw.slots (1 - s.house.fw.inEffect) resetSlot } } } := by
  have hf : ∀ q ∈ s.house.journal.queue.drop s.house.journal.opened, (q.what != 3 && q.what != 4) = true := by
    intro q hq
    have hn := List.any_eq_false.mp ho q (List.mem_of_mem_drop hq)
    simpa using hn
  simp only [State.imageRefused, List.filter_eq_self.mpr hf, List.take_append_drop]
  rfl

theorem State.lineDone_lines (h : r.what = 3) : s.lineDone r = s.readBackStart := by simp only [State.lineDone, h]

/-- The reads of an image's lines in a slot. -/
def readBackReqs (slot : Nat) (image : Bytes) : List NpReq :=
  ((pieces 64 image).map (fit 64)).zipIdx.map (fun l =>
    { write := false, line := slot * 8192 + l.2, data := l.1, what := 4, recType := 0, mark := 0, again := false })

theorem slotBase_line (slot : Nat) : State.slotBase slot / 64 = slot * 8192 := by
  unfold State.slotBase
  omega

/-- Once no line of an image is left to write, every line is read back. -/
theorem State.readBackStart_last (hi : s.house.fw.image = some image) (hq : ∀ q ∈ s.house.journal.queue, q.what ≠ 3) :
    s.readBackStart = s.npPush (readBackReqs (1 - s.house.fw.inEffect) image) := by
  have hn : s.house.journal.queue.any (fun q => q.what == 3) = false := by simpa using hq
  simp only [State.readBackStart, hi, hn, Bool.false_eq_true, if_false, slotBase_line]
  rfl

theorem State.readBack_same (hs : status = 0) (hd : rdata = r.data) : s.readBack r status rdata = s := by
  simp [State.readBack, hs, hd]

theorem State.readBack_other (hi : s.house.fw.image = some image) (h : status ≠ 0 ∨ rdata ≠ r.data) :
    s.readBack r status rdata = s.imageRefused 5 := by
  have hc : (s.house.fw.image.isNone || (decide (status = 0) && decide (rdata = r.data))) = false := by
    rw [hi]
    rcases h with h | h
    · rw [decide_eq_false h]
      rfl
    · rw [decide_eq_false h, Bool.and_false]
      rfl
  rw [State.readBack, hc, if_neg Bool.false_ne_true]

end

section
variable {s : State} {image : Bytes}

/-- An image that has been verified stands as stored in a slot. -/
def State.stored (slot : Nat) (image : Bytes) (s : State) : State :=
  let h := image.take 512
  (s.setFw { s.house.fw with load := 2, detail := 0, image := none }).putSlot slot
    { state := 2, version := fld 4 4 h, security := fld 8 4 h, header := h }

/-- The detail with which a loaded image is refused, 0 when it verifies (Table 13.8). -/
def State.loadDetail (s : State) (image : Bytes) : Nat :=
  State.imageDetail s.house.fw.minimum (image.take 512) (image.drop 512) (image.length == 512 + fld 12 4 (image.take 512))

theorem State.verifyDone_eq (hi : s.house.fw.image = some image) (ho : s.imageOpen = false) : s.verifyDone =
    let d := if s.house.journal.state = 1 then 5 else s.loadDetail image
    if d != 0 then s.imageRefused d
    else
      let t := s.stored (1 - s.house.fw.inEffect) image
      if t.sys.hk = .recovery then t.startImage (1 - s.house.fw.inEffect) else t := by
  simp only [State.verifyDone, hi, ho, Bool.false_eq_true, if_false]
  rfl

theorem State.verifyDone_refused {detail : Nat} (hi : s.house.fw.image = some image) (ho : s.imageOpen = false)
    (hd : (if s.house.journal.state = 1 then 5 else s.loadDetail image) = detail) (h0 : detail ≠ 0) : s.verifyDone = s.imageRefused detail := by
  rw [State.verifyDone_eq hi ho]
  exact (if_pos (by rw [hd]; simpa using h0)).trans (by rw [hd])

theorem State.verifyDone_good (hi : s.house.fw.image = some image) (ho : s.imageOpen = false) (hj : s.house.journal.state ≠ 1)
    (hd : s.loadDetail image = 0) : s.verifyDone =
      if s.sys.hk = .recovery then (s.stored (1 - s.house.fw.inEffect) image).startImage (1 - s.house.fw.inEffect)
      else s.stored (1 - s.house.fw.inEffect) image := by
  rw [State.verifyDone_eq hi ho]
  simp only [if_neg hj, hd]
  rfl

end

theorem exec_firmwareVerifyDone (s : State) : exec .firmwareVerifyDone s =
    .next (State.finish ((State.begun .clean s).awake State.verifyDone)) := rfl

/-- Settles O17: the verification ends by the image's detail; a line that is read back is compared with what was written. -/
theorem firmwareVerifyStoresOrRefuses : Obligations.FirmwareVerifyStoresOrRefuses := by
  refine ⟨?verified, ?answered⟩
  case verified =>
    intro image s hl hi ho slot h d refused stored
    have hx : exec .firmwareVerifyDone s = .next (State.finish (State.verifyDone (State.begin .clean s))) := by
      rw [exec_firmwareVerifyDone, State.begun_clean_begin, State.awake_low (s := State.begin .clean s) hl]
    have hr (detail : Nat) : State.imageRefused detail (State.begin .clean s) = refused detail :=
      State.imageRefused_closed (s := State.begin .clean s) detail ho
    rw [hx]
    refine ⟨fun hj hd hk => ?_, fun hj hd hk => ?_, fun hj hd => ?_, fun hj => ?_⟩
    · rw [State.verifyDone_good (s := State.begin .clean s) hi ho hj hd, if_neg (c := (State.begin .clean s).sys.hk = .recovery) hk]
      rfl
    · rw [State.verifyDone_good (s := State.begin .clean s) hi ho hj hd, if_pos (c := (State.begin .clean s).sys.hk = .recovery) hk]
      rfl
    · rw [State.verifyDone_refused (s := State.begin .clean s) hi ho (if_neg hj) hd, hr]
      rfl
    · rw [State.verifyDone_refused (s := State.begin .clean s) hi ho (if_pos hj) (by decide), hr]
  case answered =>
    intro st d r rest k image s hl hq ho hi
    have hx : exec (.journalResponse st d) s = .next (State.finish (State.journalResponse st.toNat (toLE 64 d.toNat) (State.begin .clean s))) := by
      rw [exec_journalResponse, State.begun_clean_begin, State.awake_low (s := State.begin .clean s) hl]
    rw [hx]
    refine ⟨fun hw h3 hs hn => ?_, fun hw hs hd => ?_, fun hw h => ?_⟩
    · subst hs
      let u := ((State.begin .clean s).npTaken rest k).nvWrite (64 * r.line) r.data
      have hy := State.journalResponse_ok (s := State.begin .clean s) (rdata := toLE 64 d.toNat) hq ho
      rw [State.lineAnswered_written hw, State.lineDone_lines h3, State.readBackStart_last (s := u) hi hn] at hy
      obtain ⟨hq1, hf1, hn1⟩ := State.npPush_facts (readBackReqs (1 - s.house.fw.inEffect) image) u
      have hp := State.npPump_issued 8 (State.npPush (readBackReqs (1 - s.house.fw.inEffect) image) u)
      exact ⟨_, congrArg (fun t => Host.Outcome.next (State.finish t)) hy, hp.fw.trans hf1, hp.nv.trans hn1, hp.queue.trans hq1⟩
    · subst hs
      have hy := State.journalResponse_ok (s := State.begin .clean s) (rdata := toLE 64 d.toNat) hq ho
      rw [State.lineAnswered_read hw, State.readBack_same rfl hd] at hy
      exact congrArg (fun t => Host.Outcome.next (State.finish t)) hy
    · obtain ⟨u, hu, hy⟩ := State.journalResponse_logged (s := State.begin .clean s) (status := st.toNat) (rdata := toLE 64 d.toNat) hq ho
      have hs : st.toNat ≠ 0 ∨ toLE 64 d.toNat ≠ r.data := h.imp_left (fun h0 h1 => h0 (BitVec.eq_of_toNat_eq h1))
      rw [State.lineAnswered_read hw, State.readBack_other (s := u.npTaken rest k)
        ((congrArg FwSt.image hu.fw).trans hi) hs] at hy
      obtain ⟨_, _, hr⟩ := State.imageRefused_logged 5 (u.npTaken rest k)
      have hp := State.npPump_issued 8 ((u.npTaken rest k).imageRefused 5)
      refine ⟨_, congrArg (fun t => Host.Outcome.next (State.finish t)) hy, ?_, ?_, ?_, ?_, ?_⟩
      · exact congrArg FwSt.load (hp.fw.trans hr.fw)
      · exact congrArg FwSt.detail (hp.fw.trans hr.fw)
      · exact congrArg FwSt.image (hp.fw.trans hr.fw)
      · exact hp.nv.trans (hr.nv.trans hu.nv)
      · exact hp.hearth.trans (hr.hearth.trans hu.hearth)

end Sys2Proof.Machine
end

section
/-! PROOFS. Starts: the journal's own work, the boot ROM and the replay (R375 to R378, R389, R420). -/

namespace Sys2Proof.Machine

/-! ## What the journal's own work leaves alone -/

/-- The counters that a start may move beside its own: the event log's, the window's errors and the torn records. -/
def startCounters : List Nat := addrOf 0x50C0 0x07 :: addrOf 0x50D0 0x06 :: logCounters

/-- Counters, the event log, the journal's state and the output ports have changed, and of the counters only those of `startCounters`. -/
structure Journaled (s t : State) : Prop where
  upd : ∃ (counters : List (Nat × Nat)) (events : List Event) (nextSeq : Nat) (frameEvents : List (Nat × Nat × Nat × Nat))
    (journal : JournalSt) (out : List Out), t = { s with
      counters := counters
      house := { s.house with events := events, nextSeq := nextSeq, frameEvents := frameEvents, journal := journal }
      out := out }
  ctr : ∀ i k : Nat, addrOf i k ∉ startCounters → t.ctr i k = s.ctr i k

namespace Journaled

variable {s t u : State}

theorem refl (s : State) : Journaled s s := ⟨⟨_, _, _, _, _, _, rfl⟩, fun _ _ _ => rfl⟩

theorem trans (h : Journaled s t) (g : Journaled t u) : Journaled s u := by
  refine ⟨?_, fun i k hk => (g.ctr i k hk).trans (h.ctr i k hk)⟩
  obtain ⟨_, _, _, _, _, _, rfl⟩ := h.upd
  obtain ⟨a, b, c, d, e, f, rfl⟩ := g.upd
  exact ⟨a, b, c, d, e, f, rfl⟩

theorem forEach_mem {α : Type} {f : α → State → State} {l : List α} (hf : ∀ x ∈ l, ∀ u, Journaled u (f x u)) (s : State) :
    Journaled s (Sys2Proof.Machine.forEach l f s) := by
  induction l generalizing s with
  | nil => exact .refl s
  | cons x xs ih => exact (hf x List.mem_cons_self s).trans (ih (fun y hy => hf y (List.mem_cons_of_mem _ hy)) _)

theorem forEach {α : Type} {f : α → State → State} (hf : ∀ x u, Journaled u (f x u)) (l : List α) (s : State) :
    Journaled s (Sys2Proof.Machine.forEach l f s) := forEach_mem (fun x _ => hf x) s

theorem ite {p : Prop} [Decidable p] (h : Journaled s t) (g : Journaled s u) : Journaled s (if p then t else u) := by
  split
  · exact h
  · exact g

theorem of_issued (h : Issued s t) : Journaled s t := by
  refine ⟨?_, fun i k _ => h.ctr i k⟩
  obtain ⟨_, _, rfl⟩ := h
  exact ⟨_, _, _, _, _, _, rfl⟩

theorem of_logged (h : Logged s t) (hc : ∀ i k : Nat, addrOf i k ∉ startCounters → t.ctr i k = s.ctr i k) : Journaled s t := by
  refine ⟨?_, hc⟩
  obtain ⟨_, _, _, _, rfl⟩ := h
  exact ⟨_, _, _, _, _, _, rfl⟩

variable (h : Journaled s t)
include h

theorem sys : t.sys = s.sys := by obtain ⟨_, _, _, _, _, _, rfl⟩ := h.upd; rfl
theorem nv : t.nv = s.nv := by obtain ⟨_, _, _, _, _, _, rfl⟩ := h.upd; rfl
theorem hearth : t.hearth = s.hearth := by obtain ⟨_, _, _, _, _, _, rfl⟩ := h.upd; rfl
theorem pantry : t.pantry = s.pantry := by obtain ⟨_, _, _, _, _, _, rfl⟩ := h.upd; rfl
theorem hanks : t.hanks = s.hanks := by obtain ⟨_, _, _, _, _, _, rfl⟩ := h.upd; rfl
theorem regs : t.regs = s.regs := by obtain ⟨_, _, _, _, _, _, rfl⟩ := h.upd; rfl
theorem fx : t.fx = s.fx := by obtain ⟨_, _, _, _, _, _, rfl⟩ := h.upd; rfl
theorem ans : t.ans = s.ans := by obtain ⟨_, _, _, _, _, _, rfl⟩ := h.upd; rfl
theorem fw : t.house.fw = s.house.fw := by obtain ⟨_, _, _, _, _, _, rfl⟩ := h.upd; rfl
theorem ocper : t.house.ocper = s.house.ocper := by obtain ⟨_, _, _, _, _, _, rfl⟩ := h.upd; rfl
theorem jutus : t.house.jutus = s.house.jutus := by obtain ⟨_, _, _, _, _, _, rfl⟩ := h.upd; rfl

end Journaled

section
variable {s : State} {i k n : Nat}

theorem not_logCounter (h : addrOf i k ∉ startCounters) : addrOf i k ∉ logCounters :=
  fun hm => h (List.mem_cons_of_mem _ (List.mem_cons_of_mem _ hm))

theorem ne_of_start (h : addrOf i k ∉ startCounters) : addrOf i k ≠ addrOf 0x50C0 0x07 ∧ addrOf i k ≠ addrOf 0x50D0 0x06 := by
  rw [startCounters, List.mem_cons, List.mem_cons, not_or, not_or] at h
  exact ⟨h.1, h.2.1⟩

theorem State.raise_journaled (kind idx subi detail : Nat) (s : State) : Journaled s (State.raise kind idx subi detail s) :=
  .of_logged (State.raise_logged ..) (fun _ _ h => State.ctr_raise (not_logCounter h))

theorem State.npAsk_journaled (lines : List Nat) (s : State) : Journaled s (s.npAsk lines) := by
  refine .forEach (fun l u => ?_) lines s
  have he : Journaled u (u.emit (.np false l [] 0)) := ⟨⟨_, _, _, _, _, _, rfl⟩, fun _ _ _ => rfl⟩
  refine .ite (he.trans ?_) he
  exact .of_logged (State.countNote_logged ..) (fun i k h => State.ctr_countNote_ne (not_logCounter h) (ne_of_start h).1)

theorem State.askJournal_journaled (s : State) : Journaled s s.askJournal := State.npAsk_journaled ..

theorem State.npAsk_journal (lines : List Nat) (s : State) : (s.npAsk lines).house.journal = s.house.journal := by
  refine forEach_proj (fun u => u.house.journal) (fun l u => ?_) lines s
  show (ite _ _ _ : State).house.journal = _
  split
  · exact (State.countNote_logged ..).journal
  · rfl

theorem State.askJournal_journal (s : State) : s.askJournal.house.journal = s.house.journal := State.npAsk_journal ..

theorem State.setJournal_journaled (j : JournalSt) (s : State) : Journaled s (s.setJournal j) := ⟨⟨_, _, _, _, _, _, rfl⟩, fun _ _ _ => rfl⟩

theorem State.npPush_journaled (rs : List NpReq) (s : State) : Journaled s (s.npPush rs) :=
  (State.setJournal_journaled _ s).trans (.of_issued (State.npPump_issued ..))

theorem State.appendHere_journaled (typ : Nat) (body : Bytes) (mark : Nat) (s : State) : Journaled s (s.appendHere typ body mark) :=
  (State.setJournal_journaled _ s).trans (State.npPush_journaled ..)

theorem State.append_journaled (typ : Nat) (body : Bytes) (mark : Nat) (s : State) : Journaled s (s.append typ body mark) := by
  unfold State.append
  dsimp only
  refine .ite (.refl s) ?_
  exact (Journaled.ite (State.appendHere_journaled ..) (.refl s)).trans (State.appendHere_journaled ..)

theorem State.formatStream_journaled (s : State) : Journaled s s.formatStream :=
  (State.setJournal_journaled _ s).trans (State.npPush_journaled ..)

theorem State.countTorn_journaled (w : Walk) (s : State) : Journaled s (s.countTorn w) := by
  refine .ite (.of_logged (State.bump_logged ..) (fun i k h => ?_)) (.refl s)
  exact State.ctr_bump_ne (ne_of_start h).2

theorem State.foundJournal_journaled (x : Nat × Nat × Nat × Nat) (w : Walk) (state : Nat) (s : State) :
    Journaled s (s.foundJournal x w state) := State.setJournal_journaled ..

theorem State.replayAgain_journaled (s : State) : Journaled s s.replayAgain := by
  unfold State.replayAgain
  split
  · exact (Journaled.ite (.refl s) (State.setJournal_journaled ..)).trans (State.countTorn_journaled ..)
  · exact State.formatStream_journaled s

theorem State.restoreEvents_journaled (es : List Event) (s : State) : Journaled s (s.restoreEvents es) := by
  refine .forEach (fun e u => ?_) es s
  exact .ite (.refl u) ⟨⟨_, _, _, _, _, _, rfl⟩, fun _ _ _ => State.ctr_congr rfl⟩

theorem State.replayEvents_journaled (s : State) : Journaled s s.replayEvents := by
  unfold State.replayEvents
  split
  · refine (State.foundJournal_journaled _ _ 0 s).trans (.forEach_mem (fun r hr u => ?_) _)
    have h30 : r.typ = 0x30 := by simpa using (List.mem_filter.mp hr).2
    simp only [State.applyRec, h30]
    exact State.restoreEvents_journaled ..
  · exact .refl s

end

/-! ## The replay of a power-on -/

/-- The records of the journal have been applied: entries and units may have new values, the memories and what waits in the block do not. -/
structure Replayed (s t : State) : Prop where
  sys : t.sys = s.sys
  nv : t.nv = s.nv
  hearth : t.hearth = s.hearth
  pantry : t.pantry = s.pantry
  hanks : t.hanks = s.hanks
  localIn : t.fx.localIn = s.fx.localIn
  rxHeld : t.fx.rxHeld = s.fx.rxHeld
  cause : t.house.fw.cause = s.house.fw.cause
  journalState : t.house.journal.state = s.house.journal.state
  ctr : ∀ i k : Nat, addrOf i k ∉ startCounters → t.ctr i k = s.ctr i k

namespace Replayed

variable {s t u : State}

theorem refl (s : State) : Replayed s s := ⟨rfl, rfl, rfl, rfl, rfl, rfl, rfl, rfl, rfl, fun _ _ _ => rfl⟩

theorem trans (h : Replayed s t) (g : Replayed t u) : Replayed s u :=
  ⟨g.sys.trans h.sys, g.nv.trans h.nv, g.hearth.trans h.hearth, g.pantry.trans h.pantry, g.hanks.trans h.hanks, g.localIn.trans h.localIn,
    g.rxHeld.trans h.rxHeld, g.cause.trans h.cause, g.journalState.trans h.journalState, fun i k hk => (g.ctr i k hk).trans (h.ctr i k hk)⟩

theorem forEach {α : Type} {f : α → State → State} (hf : ∀ x u, Replayed u (f x u)) (l : List α) (s : State) :
    Replayed s (Sys2Proof.Machine.forEach l f s) := by
  induction l generalizing s with
  | nil => exact .refl s
  | cons x xs ih => exact (hf x s).trans (ih _)

theorem ite {p : Prop} [Decidable p] (h : Replayed s t) (g : Replayed s u) : Replayed s (if p then t else u) := by
  split
  · exact h
  · exact g

theorem of_journaled (h : Journaled s t) (hj : t.house.journal.state = s.house.journal.state) : Replayed s t :=
  ⟨h.sys, h.nv, h.hearth, h.pantry, h.hanks, congrArg FxSt.localIn h.fx, congrArg FxSt.rxHeld h.fx, congrArg FwSt.cause h.fw, hj, h.ctr⟩

end Replayed

section
variable {s : State}

theorem State.setJournal_replayed {j : JournalSt} (h : j.state = s.house.journal.state) : Replayed s (s.setJournal j) :=
  .of_journaled (State.setJournal_journaled ..) h

theorem State.npPush_replayed (rs : List NpReq) (s : State) : Replayed s (s.npPush rs) :=
  .of_journaled (State.npPush_journaled ..) (State.npPush_issued rs).journalState

theorem State.appendHere_replayed (typ : Nat) (body : Bytes) (mark : Nat) (s : State) : Replayed s (s.appendHere typ body mark) := by
  refine Replayed.trans (State.setJournal_replayed ?_) (State.npPush_replayed ..)
  rfl

theorem State.append_replayed (typ : Nat) (body : Bytes) (mark : Nat) (s : State) : Replayed s (s.append typ body mark) := by
  unfold State.append
  dsimp only
  refine .ite (.refl s) ?_
  exact (Replayed.ite (State.appendHere_replayed ..) (.refl s)).trans (State.appendHere_replayed ..)

theorem State.setEvents_replayed (es : List Event) (n : Nat) (s : State) :
    Replayed s { s with house := { s.house with events := es, nextSeq := n } } :=
  ⟨rfl, rfl, rfl, rfl, rfl, rfl, rfl, rfl, rfl, fun _ _ _ => rfl⟩

theorem State.restoreEvents_replayed (es : List Event) (s : State) : Replayed s (s.restoreEvents es) := by
  refine .forEach (fun e u => ?_) es s
  exact .ite (.refl u) (State.setEvents_replayed ..)

theorem State.applyRec_replayed (r : JRec) (s : State) : Replayed s (s.applyRec r) := by
  unfold State.applyRec
  dsimp only
  split
  case h_10 => exact State.restoreEvents_replayed ..
  all_goals exact ⟨rfl, rfl, rfl, rfl, rfl, rfl, rfl, rfl, rfl, fun _ _ _ => State.ctr_congr rfl⟩

theorem State.setReg_replayed (idx subi n : Nat) (s : State) : Replayed s (s.setReg idx subi n) :=
  ⟨rfl, rfl, rfl, rfl, rfl, rfl, rfl, rfl, rfl, fun _ _ _ => rfl⟩

theorem State.retiredMasks_replayed (s : State) : Replayed s s.retiredMasks := by
  unfold State.retiredMasks
  dsimp only
  exact (Replayed.ite (.refl s) (State.setReg_replayed ..)).trans (.forEach (fun c u => State.setReg_replayed _ _ _ u) _ _)

theorem State.countTorn_replayed (w : Walk) (s : State) : Replayed s (s.countTorn w) := by
  refine .of_journaled (State.countTorn_journaled w s) ?_
  unfold State.countTorn
  split
  · rfl
  · rfl

/-- The journal with an empty stream region, not yet written so. -/
def State.emptied (s : State) : State := s.setJournal { s.house.journal with
  state := 2, head := 0, tail := 0, used := 0, seq := 0, headSeq := 1, snapAt := none, queue := State.npKept s.house.journal }

theorem State.formatStream_replayed (s : State) : Replayed s.emptied s.formatStream := State.npPush_replayed ..

/-- A power-on goes on with the journal that it found, or with an empty one; either way it is not degraded. -/
theorem State.replay_cases (s : State) : ∃ u : State, Journaled s u ∧ u.house.journal.state ≠ 1 ∧ Replayed u s.replay := by
  unfold State.replay
  split
  · rename_i x w _ _
    refine ⟨s.foundJournal x w 0, State.foundJournal_journaled .., Nat.zero_ne_one, ?_⟩
    refine Replayed.trans (.forEach (fun r u => State.applyRec_replayed r u) w.recs _) ?_
    exact (State.countTorn_replayed w _).trans (State.retiredMasks_replayed _)
  · exact ⟨s.emptied, State.setJournal_journaled .., (Nat.succ_ne_self 1 : (2 : Nat) ≠ 1), State.formatStream_replayed s⟩

theorem State.firstStart_cases (body : Bytes) (s : State) :
    ∃ u : State, Journaled s u ∧ u.house.journal.state ≠ 1 ∧ Replayed u (s.firstStart body) := by
  obtain ⟨u, h1, h2, h3⟩ := State.replay_cases s
  refine ⟨u, h1, h2, h3.trans (Replayed.trans ?_ (State.append_replayed ..))⟩
  exact ⟨rfl, rfl, rfl, rfl, rfl, rfl, rfl, rfl, rfl, fun _ _ _ => rfl⟩

end

/-! ## The window as a start finds it -/

section
variable {s t : State}

/-- What is queued is written before a start reads. -/
def seenNv (q : List NpReq) (m : List Host.Cell) : List Host.Cell :=
  (q.filter (fun r => r.write)).foldl (fun m r => Memory.write m (64 * r.line) r.data) m

theorem State.npSeen_eq (s : State) : s.npSeen = { s with nv := seenNv s.house.journal.queue s.nv } := by
  unfold State.npSeen seenNv
  generalize s.house.journal.queue.filter (fun r => r.write) = l
  induction l generalizing s with
  | nil => rfl
  | cons r rs ih => exact ih (s.nvWrite (64 * r.line) r.data)

theorem State.npLost_congr (ha : t.ans = s.ans) : t.npLost = s.npLost := by
  funext lines
  rw [State.npLost, State.npLost, ha]

theorem State.slotGood_congr (hn : t.nv = s.nv) (ha : t.ans = s.ans) (hm : t.house.fw.minimum = s.house.fw.minimum) (slot : Nat) :
    t.slotGood slot = s.slotGood slot := by
  have hi : t.slotImage slot = s.slotImage slot := by simp only [State.slotImage, State.nvRead, hn]
  have hl : t.slotLines slot = s.slotLines slot := by
    unfold State.slotLines
    rw [hi, State.npLost_congr ha]
  unfold State.slotGood
  rw [hi, hl, hm, State.npLost_congr ha]

theorem State.seen_slotGood (hq : t.house.journal.queue = s.house.journal.queue) (hn : t.nv = s.nv) (ha : t.ans = s.ans)
    (hm : t.house.fw.minimum = s.house.fw.minimum) (slot : Nat) : t.npSeen.slotGood slot = s.npSeen.slotGood slot := by
  have hs : seenNv t.house.journal.queue t.nv = seenNv s.house.journal.queue s.nv := by rw [hq, hn]
  rw [State.npSeen_eq, State.npSeen_eq]
  exact State.slotGood_congr (t := { t with nv := seenNv t.house.journal.queue t.nv })
    (s := { s with nv := seenNv s.house.journal.queue s.nv }) hs ha hm slot

theorem State.streamBytes_congr (hz : t.sys.npSize = s.sys.npSize) : t.streamBytes = s.streamBytes := by
  rw [State.streamBytes, State.streamBytes, State.npBytes, State.npBytes, hz]

theorem State.walkGo_congr (hn : t.nv = s.nv) (ha : t.ans = s.ans) (hz : t.sys.npSize = s.sys.npSize) (k : Nat) (w : Walk) :
    t.walkGo k w = s.walkGo k w := by
  have hr : t.streamRead = s.streamRead := by
    funext off k
    rw [State.streamRead, State.streamRead, State.nvRead, State.nvRead, hn]
  induction k generalizing w with
  | zero => rfl
  | succ k ih =>
    unfold State.walkGo
    rw [hr, State.npLost_congr ha, State.streamBytes_congr hz]
    simp only [ih]

theorem State.firmwareRecord_congr (hn : t.nv = s.nv) (ha : t.ans = s.ans) (hz : t.sys.npSize = s.sys.npSize) :
    t.firmwareRecord = s.firmwareRecord := by
  have hb : t.superblock = s.superblock := by
    unfold State.superblock State.nvRead
    rw [hn, State.npLost_congr ha]
  have hw : t.walk = s.walk := by
    unfold State.walk
    rw [hb, State.streamBytes_congr hz]
    simp only [State.walkGo_congr hn ha hz]
  rw [State.firmwareRecord, State.firmwareRecord, hw]

/-- A slot that a firmware record names is one of the two. -/
theorem State.firmwareRecord_slot (s : State) : s.firmwareRecord.1 < 2 := by
  unfold State.firmwareRecord
  split
  · exact Nat.zero_lt_two
  · rename_i w _
    refine List.foldlRecOn (motive := fun x : Nat × Nat × Bool × Nat => x.1 < 2) w.recs _ Nat.zero_lt_two (fun x hx r _ => ?_)
    split
    · exact Nat.mod_lt _ Nat.zero_lt_two
    · split
      · exact hx
      · exact hx

end

/-! ## The boot ROM -/

section
variable {s : State} {slot : Nat}

/-- Both slots have been read and stand as they verify. -/
def State.looked (s : State) : State :=
  ((s.npAsk (s.npSeen.slotLines 0 ++ s.npSeen.slotLines 1)).putSlot 0 (s.npSeen.slotState 0)).putSlot 1 (s.npSeen.slotState 1)

theorem State.boot_eq (slot : Nat) (s : State) : s.boot slot =
    if (s.looked.fwSlot slot).state = 2 then s.looked.startImage slot
    else if (s.looked.fwSlot (1 - slot)).state = 2 then s.looked.startImage (1 - slot)
    else s.looked.recover := rfl

theorem State.fwSlot_looked (hl : s.house.fw.slots.length = 2) (hs : slot < 2) : s.looked.fwSlot slot = s.npSeen.slotState slot := by
  have hf : (s.npAsk (s.npSeen.slotLines 0 ++ s.npSeen.slotLines 1)).house.fw = s.house.fw := (State.npAsk_journaled ..).fw
  obtain ⟨a, b, hab⟩ : ∃ a b, s.house.fw.slots = [a, b] :=
    match hs : s.house.fw.slots, hl with | [a, b], _ => ⟨a, b, rfl⟩
  have hq : s.looked.house.fw.slots = [s.npSeen.slotState 0, s.npSeen.slotState 1] := by
    simp only [State.looked, State.putSlot, State.setFw, hf, hab]
    rfl
  rw [State.fwSlot, hq]
  rcases (by omega : slot = 0 ∨ slot = 1) with rfl | rfl
  · rfl
  · rfl

theorem State.slotState_good (s : State) (slot : Nat) : (s.slotState slot).state = 2 ↔ s.slotGood slot = true := by
  unfold State.slotState
  cases s.slotGood slot <;> simp [State.resetSlot]

theorem State.boot_good (hl : s.house.fw.slots.length = 2) (hs : slot < 2) (hg : s.npSeen.slotGood slot = true) :
    s.boot slot = s.looked.startImage slot := by
  rw [State.boot_eq, if_pos]
  rw [State.fwSlot_looked hl hs]
  exact (State.slotState_good ..).mpr hg

theorem State.boot_other (hl : s.house.fw.slots.length = 2) (hs : slot < 2) (hb : s.npSeen.slotGood slot = false)
    (hg : s.npSeen.slotGood (1 - slot) = true) : s.boot slot = s.looked.startImage (1 - slot) := by
  rw [State.boot_eq, if_neg, if_pos]
  · rw [State.fwSlot_looked hl (by omega)]
    exact (State.slotState_good ..).mpr hg
  · rw [State.fwSlot_looked hl hs, State.slotState_good, hb]
    exact Bool.false_ne_true

theorem State.boot_none (hl : s.house.fw.slots.length = 2) (hs : slot < 2) (hb : ∀ i < 2, s.npSeen.slotGood i = false) :
    s.boot slot = s.looked.recover := by
  have h (i : Nat) (hi : i < 2) : (s.looked.fwSlot i).state ≠ 2 := by
    rw [State.fwSlot_looked hl hi, Ne, State.slotState_good, hb i hi]
    exact Bool.false_ne_true
  rw [State.boot_eq, if_neg (h _ hs), if_neg (h _ (by omega))]

end

/-! ## The start of an image -/

section
variable {s : State} {slot : Nat}

/-- The image of a slot is in effect: its slot and version stand in their entries. -/
def State.chosen (slot v : Nat) (s : State) : State :=
  (s.setFw { s.house.fw with inEffect := slot, runningVersion := v }).setReg 0x3100 0x04 slot

/-- What ends a start: it is counted, raised as an event with its cause, and its running record is appended. -/
def State.bootUp (slot v cause : Nat) (s : State) : State :=
  let u := State.raise 5 0x3000 0x01 cause (State.bump 0x50D0 0x01 1 (s.chosen slot v))
  u.append 0x22 u.runningBody 1

theorem State.startImage_first (hc : s.house.fw.cause = 1) : s.startImage slot =
    (s.askJournal.firstStart (s.askJournal.npSeen.slotImage slot).2).bootUp slot (s.fwSlot slot).version 1 := by
  simp only [State.startImage, hc, if_true]
  rfl

theorem State.startImage_again (hc : s.house.fw.cause ≠ 1) : s.startImage slot =
    s.askJournal.replayAgain.bootUp slot (s.fwSlot slot).version s.house.fw.cause := by
  simp only [State.startImage, if_neg hc]
  rfl

theorem pieces_ne_nil {b : Bytes} (h : b ≠ []) : pieces 64 b ≠ [] := by
  obtain ⟨x, xs, rfl⟩ := List.exists_cons_of_ne_nil h
  exact List.cons_ne_nil _ _

theorem recordBytes_ne_nil (typ seq time : Nat) (body : Bytes) : State.recordBytes typ seq time body ≠ [] := by
  intro h
  have hl := congrArg List.length h
  simp only [State.recordBytes, length_fit, List.length_nil, List.length_append] at hl
  have h4 : (toLE 4 (crc32c (toLE 2 typ ++ zeros 2 ++ toLE 4 body.length ++ toLE 8 seq ++ toLE 8 time ++ body))).length = 4 := by
    simp [toLE]
  rw [h4] at hl
  unfold ceilDiv at hl
  omega

/-- A record that is appended has its header line among the requests. -/
theorem State.append_record (hj : s.house.journal.state ≠ 1) (typ : Nat) (body : Bytes) (mark : Nat) :
    ∃ r ∈ (s.append typ body mark).house.journal.queue, r.write = true ∧ r.what = 1 ∧ r.recType = typ ∧ r.mark = mark := by
  have here (u : State) : ∃ r ∈ (u.appendHere typ body mark).house.journal.queue, r.write = true ∧ r.what = 1 ∧ r.recType = typ ∧ r.mark = mark := by
    have hp := pieces_ne_nil (recordBytes_ne_nil typ (u.house.journal.seq + 1) u.now body)
    obtain ⟨x, xs, hx⟩ := List.exists_cons_of_ne_nil hp
    simp only [State.appendHere, (State.npPush_facts _ _).1]
    refine ⟨State.npWrite ((State.streamBase + u.house.journal.tail) / 64) x 1 typ mark, List.mem_append_right _ ?_, rfl, rfl, rfl, rfl⟩
    simp [State.recordReqs, hx]
  unfold State.append
  have hc : (decide (s.house.journal.state = 1) && s.house.journal.snapAt.isNone) = false := by simp [hj]
  simp only [hc, Bool.false_eq_true, if_false]
  exact here _

theorem State.bootUp_journaled (slot v cause : Nat) (s : State) : Journaled (State.bump 0x50D0 0x01 1 (s.chosen slot v)) (s.bootUp slot v cause) :=
  (State.raise_journaled ..).trans (State.append_journaled ..)

theorem State.bootUp_record (hj : s.house.journal.state ≠ 1) (slot v cause : Nat) :
    ∃ r ∈ (s.bootUp slot v cause).house.journal.queue, r.write = true ∧ r.what = 1 ∧ r.recType = 0x22 ∧ r.mark = 1 := by
  have hl : (State.raise 5 0x3000 0x01 cause (State.bump 0x50D0 0x01 1 (s.chosen slot v))).house.journal = s.house.journal :=
    (State.raise_logged ..).journal
  exact State.append_record (by rw [hl]; exact hj) ..

theorem State.bootUp_ctr (slot v cause : Nat) (s : State) :
    (s.bootUp slot v cause).ctr 0x50D0 0x01 = min Config.u64Max (s.ctr 0x50D0 0x01 + 1) :=
  ((State.bootUp_journaled slot v cause s).ctr _ _ (by decide)).trans State.ctr_bump_same

theorem State.bootUp_ctr_ne {i k : Nat} (hk : addrOf i k ∉ startCounters) (hn : addrOf i k ≠ addrOf 0x50D0 0x01) (slot v cause : Nat) (s : State) :
    (s.bootUp slot v cause).ctr i k = s.ctr i k :=
  ((State.bootUp_journaled slot v cause s).ctr _ _ hk).trans (State.ctr_bump_ne hn)

theorem State.bootUp_slot (slot v cause : Nat) (s : State) : (s.bootUp slot v cause).house.fw.inEffect = slot ∧
    (s.bootUp slot v cause).house.fw.cause = s.house.fw.cause ∧ (s.bootUp slot v cause).reg 0x3100 0x04 = slot := by
  have h := State.bootUp_journaled slot v cause s
  have hc : (State.bump 0x50D0 0x01 1 (s.chosen slot v)).house.fw.cause = s.house.fw.cause := rfl
  refine ⟨congrArg FwSt.inEffect h.fw, (congrArg FwSt.cause h.fw).trans hc, ?_⟩
  have hr : (s.bootUp slot v cause).reg 0x3100 0x04 = (s.chosen slot v).reg 0x3100 0x04 := by rw [State.reg, State.reg, h.regs]; rfl
  exact hr.trans State.reg_setReg_same

end

end Sys2Proof.Machine
end

section
/-! PROOFS. Restarts (R376, R377, R395). -/

namespace Sys2Proof.Machine

section
variable {s : State} {slot cause : Nat}

theorem Journaled.setSlots {t : State} (h : Journaled s t) (slots : List FwSlot) :
    Journaled (s.setFw { s.house.fw with slots := slots }) (t.setFw { t.house.fw with slots := slots }) := by
  refine ⟨?_, fun i k hk => h.ctr i k hk⟩
  obtain ⟨_, _, _, _, _, _, rfl⟩ := h.upd
  exact ⟨_, _, _, _, _, _, rfl⟩

theorem Journaled.putSlots {t : State} (h : Journaled s t) (x y : FwSlot) :
    ∃ slots : List FwSlot, Journaled (s.setFw { s.house.fw with slots := slots }) ((t.putSlot 0 x).putSlot 1 y) :=
  ⟨_, h.setSlots (setAt (setAt t.house.fw.slots 0 x) 1 y)⟩

theorem State.putSlots_journal (x y : FwSlot) : ((s.putSlot 0 x).putSlot 1 y).house.journal = s.house.journal := rfl

/-- The slots are what a look at them says; beside them only the window's own work has been done. -/
theorem State.looked_journaled (s : State) : (∃ slots : List FwSlot, Journaled (s.setFw { s.house.fw with slots := slots }) s.looked) ∧
    s.looked.house.journal = s.house.journal := by
  have h := State.npAsk_journaled (s.npSeen.slotLines 0 ++ s.npSeen.slotLines 1) s
  exact ⟨h.putSlots _ _, (State.putSlots_journal _ _).trans (State.npAsk_journal ..)⟩

theorem State.replayAgain_journalState (hj : s.house.journal.state ≠ 1) : s.replayAgain.house.journal.state ≠ 1 := by
  unfold State.replayAgain
  split
  · rename_i x w _ _
    rw [if_neg hj, (State.countTorn_replayed w _).journalState]
    exact hj
  · rw [(State.formatStream_replayed s).journalState]
    exact (Nat.succ_ne_self 1 : (2 : Nat) ≠ 1)

/-- A restart has begun: open Ocper transfers are abandoned and an unlock lapses (R376). -/
def State.restartBegun (cause : Nat) (s : State) : State := { s with
  sys := { s.sys with hk := .restarting }
  house := { s.house with
    ocper := [none, none], jutus := { s.house.jutus with unlocked := false }, fw := { s.house.fw with cause := cause } } }

/-- A restart into a slot that verifies starts its image, after no more than the window's own work. -/
theorem State.restart_good (hc : cause ≠ 1) (hl : s.house.fw.slots.length = 2) (hs : slot < 2) (hg : s.npSeen.slotGood slot = true) :
    ∃ (m : State) (slots : List FwSlot) (v : Nat), s.restart cause slot = m.bootUp slot v cause ∧
      Journaled ((s.restartBegun cause).setFw { (s.restartBegun cause).house.fw with slots := slots }) m ∧
      (s.house.journal.state ≠ 1 → m.house.journal.state ≠ 1) := by
  let u := (s.restartBegun cause).askJournal
  have hu : Journaled (s.restartBegun cause) u := State.askJournal_journaled _
  have huj : u.house.journal = s.house.journal := State.askJournal_journal _
  have hul : u.house.fw.slots.length = 2 := (congrArg (fun f => f.slots.length) hu.fw).trans hl
  have hum : u.house.fw.minimum = (s.restartBegun cause).house.fw.minimum := congrArg FwSt.minimum hu.fw
  have hug : u.npSeen.slotGood slot = true :=
    (State.seen_slotGood (s := s) (congrArg JournalSt.queue huj) hu.nv hu.ans hum slot).trans hg
  obtain ⟨⟨slots, hk⟩, hkj⟩ := State.looked_journaled u
  have hkc : u.looked.house.fw.cause = cause := (congrArg FwSt.cause hk.fw).trans (congrArg FwSt.cause hu.fw)
  have ha := State.askJournal_journaled u.looked
  have hr := State.replayAgain_journaled u.looked.askJournal
  refine ⟨u.looked.askJournal.replayAgain, slots, (u.looked.fwSlot slot).version, ?_, ?_, fun hj => ?_⟩
  · have hx := State.startImage_again (s := u.looked) (slot := slot) (by rw [hkc]; exact hc)
    rw [hkc] at hx
    exact (State.boot_good hul hs hug).trans hx
  · exact ((hu.setSlots slots).trans hk).trans (ha.trans hr)
  · refine State.replayAgain_journalState ?_
    rw [State.askJournal_journal, hkj, huj]
    exact hj

/-- The watchdog's expiries within 10 s. -/
def State.recentExpiries (s : State) : List Nat := s.house.fw.watchdogs.filter (fun t => decide (s.now < t + 10000000000))

/-- An expiry has been counted and noted. -/
def State.expired (times : List Nat) (s : State) : State := { State.bump 0x50D0 0x02 1 s with
  house := { s.house with fw := { s.house.fw with watchdogs := times } } }

theorem State.watchdog_same (h : s.recentExpiries.length < 2 ∨ (s.fwSlot (1 - s.house.fw.inEffect)).state ≠ 2) :
    s.watchdog = (s.expired (s.now :: s.recentExpiries)).restart 3 s.house.fw.inEffect := by
  refine if_neg ?_
  rw [Bool.and_eq_true, decide_eq_true_eq, decide_eq_true_eq, Decidable.not_and_iff_or_not, Nat.not_le]
  exact h.imp Nat.succ_lt_succ id

theorem State.watchdog_other (h : 2 ≤ s.recentExpiries.length) (hs : (s.fwSlot (1 - s.house.fw.inEffect)).state = 2) :
    s.watchdog = State.restart 4 (1 - s.house.fw.inEffect) (State.bump 0x50D0 0x04 1
      (State.append 0x21 (s.firmwareBody (1 - s.house.fw.inEffect) s.house.fw.inEffect 0) 0 (s.expired []))) := by
  refine if_pos ?_
  rw [Bool.and_eq_true, decide_eq_true_eq, decide_eq_true_eq]
  exact ⟨Nat.succ_le_succ h, hs⟩

theorem State.trialEnd_some {prev : Nat} (h : s.house.fw.trial = some prev) : s.trialEnd = State.restart 4 prev (State.bump 0x50D0 0x04 1
    (State.append 0x21 (s.firmwareBody prev (1 - prev) 0) 0 (s.setFw { s.house.fw with trial := none }))) := by
  simp only [State.trialEnd, h]
  rfl

end

theorem exec_watchdogExpiry (ht : BitVec 64) (mem : MemAns) (s : State) : exec (.watchdogExpiry ht mem) s =
    .next (State.finish ((State.begun mem s).guarded (fun x => (x.sampleTime ht.toNat).watchdog))) := rfl

theorem exec_trialTimerExpiry (mem : MemAns) (s : State) : exec (.trialTimerExpiry mem) s =
    .next (State.finish ((State.begun mem s).awake State.trialEnd)) := rfl

/-- Settles O15: a watchdog expiry and the end of a trial are restarts, and a restart into a good slot is the start of its image. -/
theorem coreRestarts : Obligations.CoreRestarts := by
  refine ⟨?watchdog, ?trial⟩
  case watchdog =>
    intro ht mem s s0 hl hf hk s1 f recent
    have hx : exec (.watchdogExpiry ht mem) s = .next (State.finish s1.watchdog) := by
      rw [exec_watchdogExpiry, State.guarded_up hl hf hk]
    rw [hx]
    refine ⟨fun h => ?_, fun h2 hs => congrArg (fun t => Host.Outcome.next (State.finish t)) (State.watchdog_other h2 hs)⟩
    rw [State.watchdog_same h]
    refine ⟨rfl, fun hl2 hs2 hg => ?_⟩
    have hg' : (s1.expired (s1.now :: s1.recentExpiries)).npSeen.slotGood f.inEffect = true :=
      (State.seen_slotGood (s := s1) (t := s1.expired (s1.now :: s1.recentExpiries)) rfl rfl rfl rfl f.inEffect).trans hg
    obtain ⟨m, slots, v, ht, hm, hj⟩ := State.restart_good (s := s1.expired (s1.now :: s1.recentExpiries)) (cause := 3) (by decide) hl2 hs2 hg'
    have hb := State.bootUp_journaled f.inEffect v 3 m
    obtain ⟨hslot, hcause, -⟩ := State.bootUp_slot f.inEffect v 3 m
    refine ⟨m.bootUp f.inEffect v 3, by rw [ht], ?_, ?_, hslot, ?_, ?_, fun h1 => ?_, ?_, ?_, ?_, ?_, ?_⟩
    · exact hb.sys.trans hm.sys
    · exact hcause.trans (congrArg FwSt.cause hm.fw)
    · have h3 := (State.bootUp_ctr_ne (i := 0x50D0) (k := 0x02) (by decide) (by decide) f.inEffect v 3 m).trans (hm.ctr _ _ (by decide))
      exact h3.trans State.ctr_bump_same
    · have h4 : (State.bump 0x50D0 0x02 1 s1).ctr 0x50D0 0x01 = s1.ctr 0x50D0 0x01 := State.ctr_bump_ne (by decide)
      have h5 : m.ctr 0x50D0 0x01 = s1.ctr 0x50D0 0x01 := (hm.ctr _ _ (by decide)).trans h4
      rw [State.bootUp_ctr, h5]
    · obtain ⟨r, hr, -, h⟩ := State.bootUp_record (hj h1) f.inEffect v 3
      exact ⟨r, hr, h⟩
    · exact hb.ocper.trans hm.ocper
    · exact (congrArg JutusSt.unlocked hb.jutus).trans (congrArg JutusSt.unlocked hm.jutus)
    · exact hb.hearth.trans hm.hearth
    · exact hb.pantry.trans hm.pantry
    · exact hb.hanks.trans hm.hanks
  case trial =>
    intro prev mem s s0 hl ht
    rw [exec_trialTimerExpiry, State.awake_low hl, State.trialEnd_some ht]
    rfl

end Sys2Proof.Machine
end

section
/-! PROOFS. Health periods and event frames (R379, R380, R386). -/

namespace Sys2Proof.Machine

theorem exec_healthPeriod (raw : List (BitVec 32)) (ht : BitVec 64) (s : State) : exec (.healthPeriod raw ht) s =
    .next (State.finish ((State.begun .clean s).ready (fun x => (x.sampleTime ht.toNat).healthTurn raw))) := rfl

theorem exec_eventFrameSend (i : BitVec 2) (ht : BitVec 64) (s : State) : exec (.eventFrameSend i ht) s =
    .next (State.finish ((State.begun .clean s).ready (fun x => (x.sampleTime ht.toNat).eventFrame i.toNat))) := rfl

theorem State.healthTurn_running {raw : List (BitVec 32)} {s : State} (h : s.sys.hk = .running) :
    s.healthTurn raw = ((s.scorePeriod raw).levelsTurn.shedTurn).nextPeriod := if_pos h

theorem State.eventFrame_due {i : Nat} {x : Subscriber} {s : State} (hx : s.house.subscribers[i]? = some x) (hk : s.sys.hk = .running)
    (he : s.gathered x ≠ []) (ht : x.lastAt = 0 ∨ x.lastAt + 100000 ≤ s.now) : s.eventFrame i =
      State.post 0x38 x.node (x.node % 2) x.job s.mem.epoch s.fr.step 0
        ([7, 0] ++ zeros 10 ++ toLE 4 ((s.gathered x).flatMap State.eventBytes).length ++ (s.gathered x).flatMap State.eventBytes)
        { s with house := { s.house with
          subscribers := setAt s.house.subscribers i { x with sent := maxL ((s.gathered x).map (fun e => e.seq)), lastAt := s.now } } } := by
  have hg : (x.lastAt != 0 && decide (s.now < x.lastAt + State.frameGap)) = false := by
    unfold State.frameGap
    rcases ht with h | h
    · simp [h]
    · simp [Nat.not_lt.mpr h]
  have hn : (s.gathered x).isEmpty = false := by simpa [List.isEmpty_eq_false_iff] using he
  simp only [State.eventFrame, hx, hk, hn, hg, bne_self_eq_false, Bool.or_self, Bool.false_eq_true, if_false]

/-- Settles O16: each command does its work on the state that its sample of hall time leaves. -/
theorem healthAndEventsAreReported : Obligations.HealthAndEventsAreReported := by
  refine ⟨fun raw ht s hr hk => ?_, ?_⟩
  · have hs : (State.sampleTime ht.toNat (State.begin .clean s)).sys.hk = .running := by rw [State.sampleTime_sys]; exact hk
    rw [exec_healthPeriod, State.begun_clean_begin, State.ready_up (s := State.begin .clean s) hr, State.healthTurn_running hs]
    rfl
  · intro i ht x s hr hk hx hv hn es s1 subs he hg
    rw [exec_eventFrameSend, State.begun_clean_begin, State.ready_up (s := State.begin .clean s) hr,
      State.sampleTime_taken (s := State.begin .clean s) hv hn]
    exact congrArg (fun t => Host.Outcome.next (State.finish t)) (State.eventFrame_due (s := s1) hx hk he hg)

end Sys2Proof.Machine
end

section
/-! PROOFS. Sites, the trailing view, the initial encode and table banks (R71, R75, R116, R137, R255, R429). -/

namespace Sys2Proof.Machine

/-! ## What the event log and the stores into the hearth leave alone -/

section
variable {s t u : State}

theorem Logged.land (h : Logged s t) : t.land = s.land := by obtain ⟨_, _, _, _, rfl⟩ := h; rfl
theorem Logged.card (h : Logged s t) : t.card = s.card := by obtain ⟨_, _, _, _, rfl⟩ := h; rfl
theorem Logged.code (h : Logged s t) : t.code = s.code := by obtain ⟨_, _, _, _, rfl⟩ := h; rfl
theorem Logged.fr (h : Logged s t) : t.fr = s.fr := by obtain ⟨_, _, _, _, rfl⟩ := h; rfl
theorem Logged.led (h : Logged s t) : t.led = s.led := by obtain ⟨_, _, _, _, rfl⟩ := h; rfl
theorem Logged.mem (h : Logged s t) : t.mem = s.mem := by obtain ⟨_, _, _, _, rfl⟩ := h; rfl
theorem Logged.loss (h : Logged s t) : t.loss = s.loss := by obtain ⟨_, _, _, _, rfl⟩ := h; rfl

/-- Bytes of the hearth have been written, and the memory ways told of it. -/
def Stored (s t : State) : Prop :=
  ∃ (hearth : List Host.Cell) (scrub : ScrubSt) (out : List Out), t = { s with hearth := hearth, scrub := scrub, out := out }

theorem Stored.refl (s : State) : Stored s s := ⟨_, _, _, rfl⟩

theorem Stored.trans (h : Stored s t) (g : Stored t u) : Stored s u := by
  obtain ⟨_, _, _, rfl⟩ := h
  obtain ⟨a, b, c, rfl⟩ := g
  exact ⟨a, b, c, rfl⟩

theorem Stored.forEach {α : Type} {f : α → State → State} (hf : ∀ x u, Stored u (f x u)) (l : List α) (s : State) :
    Stored s (Sys2Proof.Machine.forEach l f s) := by
  induction l generalizing s with
  | nil => exact .refl s
  | cons x xs ih => exact (hf x s).trans (ih _)

theorem Told.stored (h : Told s t) : Stored s t := by
  obtain ⟨a, b, rfl⟩ := h
  exact ⟨_, a, b, rfl⟩

theorem State.tellBlocks_told (key : Nat) (bs : Bytes) (s : State) : Told s (s.tellBlocks key bs) := State.tell_told ..

theorem State.hearthWrite_stored (key : Nat) (bs : Bytes) (s : State) : Stored s (s.hearthWrite key bs) := by
  obtain ⟨a, b, h⟩ := State.tellBlocks_told key bs s
  rw [State.hearthWrite, h]
  exact ⟨_, _, _, rfl⟩

theorem State.spanPut_stored (base : Nat) (xs : List (Nat × Nat × Nat)) (bs : Bytes) (s : State) : Stored s (State.spanPut base xs bs s) := by
  induction xs generalizing bs s with
  | nil => exact .refl s
  | cons x xs ih => exact (State.hearthWrite_stored ..).trans (ih _ _)

theorem State.spanWrite_stored (base off : Nat) (bs : Bytes) (s : State) : Stored s (s.spanWrite base off bs) := State.spanPut_stored ..

theorem State.writeView_stored (v : ViewWrite) (s : State) : Stored s (s.writeView v) := by
  unfold State.writeView
  split
  · exact .refl s
  · exact (State.spanWrite_stored ..).trans (State.clearBad_told ..).stored

end

/-! ## Bits -/

theorem bit_setBit_same (n i : Nat) : bit (setBit n i) i = true := by
  unfold setBit
  split
  · assumption
  · rename_i h
    unfold bit at h ⊢
    have hp : 0 < 2 ^ i := Nat.two_pow_pos i
    have hd : (n + 2 ^ i) / 2 ^ i = n / 2 ^ i + 1 := by rw [Nat.add_div_right _ hp]
    simp only [beq_iff_eq] at h ⊢
    omega

/-! ## Sites -/

section
variable {s : State} {x : Site}

theorem State.earlyTurn_due (h1 : x.remote = true) (h2 : s.fr.opened = true) (h3 : s.fr.rcSeen = false) (h4 : s.fr.phase = .gather)
    (h5 : bit s.land.early x.id = false) (h6 : s.fenced = false)
    (h7 : ∀ k : Nat, k < x.slots → s.slotPresent x k = true ∧ (State.isLeaf x k = false → (s.slotHdr x k).stamp = s.mem.epoch)) :
    s.earlyTurn x = (let s1 := State.closeRemote x s.mem.epoch 1 s
      State.changed 0x2220 0x01 (setBit s1.land.early x.id) { s1 with land := { s1.land with early := setBit s1.land.early x.id } }) := by
  have hr : (List.range x.slots).all (fun i => s.slotPresent x i && (State.isLeaf x i || (s.slotHdr x i).stamp == s.mem.epoch)) = true := by
    refine List.all_eq_true.mpr (fun k hk => ?_)
    obtain ⟨hp, hs⟩ := h7 k (List.mem_range.mp hk)
    rw [hp, Bool.true_and]
    cases hl : State.isLeaf x k
    · rw [hs hl, Bool.false_or, beq_self_eq_true]
    · rfl
  simp only [State.earlyTurn, hr, h1, h2, h3, h4, h5, h6, bne_self_eq_false, Bool.not_true, Bool.or_self, Bool.false_eq_true, if_false]

theorem State.siteTurn_local (h1 : x.remote = false) (h2 : bit s.land.closed x.id = false) (h3 : s.fenced = false)
    (h4 : s.leavesResolved x = true) (h5 : s.outputsFinal x = true) :
    s.siteTurn x = State.settle x (State.closeLocal x (State.resolveSite x s)) := by
  simp only [State.siteTurn, h1, h2, h3, h4, h5, Bool.or_self, Bool.false_eq_true, if_false, Bool.and_self, if_true]

/-- A site that has settled counts as closed. -/
theorem State.settle_closed (x : Site) (s : State) : bit (s.settle x).land.closed x.id = true := by
  unfold State.settle
  split
  · assumption
  · dsimp only
    split
    · exact bit_setBit_same ..
    · rw [forEach_proj (fun u : State => u.land.closed) (fun k u => ?_), forEach_proj (fun u : State => u.land.closed) (fun k u => ?_)]
      · exact bit_setBit_same ..
      · exact congrArg LandSt.closed (Logged.land (State.raise_logged ..))
      · exact congrArg LandSt.closed (Logged.land (State.countNote_logged ..))

end

theorem exec_earlyClose (i : BitVec 6) (mem : MemAns) (s : State) : exec (.earlyClose i mem) s =
    .next (State.finish (State.settleAll (State.siteEarly i.toNat (State.begun mem s)))) := rfl

theorem exec_siteClose (i : BitVec 6) (ht : BitVec 64) (mem : MemAns) (s : State) : exec (.siteClose i ht mem) s =
    .next (State.finish (State.settleAll (State.siteLate i.toNat ht.toNat (State.begun mem s)))) := rfl

/-- Settles O21: a site that is due takes its turn. -/
theorem sitesClose : Obligations.SitesClose := by
  refine ⟨?early, ?late⟩
  case early =>
    intro i mem x s s0 hx h1 h2 h3 h4 h5 h6 h7 s1
    have ht : State.siteEarly i.toNat s0 = s0.earlyTurn x := by simp only [State.siteEarly, hx]
    rw [exec_earlyClose, ht, State.earlyTurn_due h1 h2 h3 h4 h5 h6 h7]
  case late =>
    intro i ht mem x s s1 hx h1 h2 h3 h4 h5 t
    have hl : State.siteLate i.toNat ht.toNat (State.begun mem s) = State.landingPass (s1.siteTurn x) := by
      simp only [State.siteLate, s1, hx]
    rw [exec_siteClose, hl, State.siteTurn_local h1 h2 h3 h4 h5]
    exact ⟨rfl, State.settle_closed ..⟩

/-! ## Table banks -/

theorem exec_tableCopyDone (s : State) : exec .tableCopyDone s = .next (State.finish (State.copyDone (State.begun .clean s))) := rfl

theorem exec_tableBankCopyAgainDone (c : BitVec 4) (mem : MemAns) (s : State) : exec (.tableBankCopyAgainDone c mem) s =
    if s.hasChannel c.toNat then .next (State.finish (State.settleAll (State.bankAgain c.toNat (State.begun mem s)))) else .fault .noSuchPort := rfl

/-- Settles O27: the set is complete, or one bank is whole again. -/
theorem tableBanksAreCopied : Obligations.TableBanksAreCopied := by
  refine ⟨fun s h => ?_, ?again⟩
  · rw [exec_tableCopyDone, State.begun_clean_begin]
    exact congrArg (fun t => Host.Outcome.next (State.finish t)) (if_pos (c := (State.begin .clean s).whorl.copyState = 1) h)
  case again =>
    intro c mem s s0
    rw [exec_tableBankCopyAgainDone]
    refine ⟨fun h => ?_, fun h => if_neg (by simpa [State.hasChannel] using h)⟩
    exact if_pos (decide_eq_true h)

/-! ## The initial encode -/

theorem exec_initialEncodeStart (h : BitVec 12) (mem : MemAns) (s : State) : exec (.initialEncodeStart h mem) s =
    .next (State.finish (State.settleAll (State.encodeStart h.toNat mem (State.begun mem s)))) := rfl

/-- Settles O24: every condition of the command holds, so that it does its work. -/
theorem initialEncodeIsSent : Obligations.InitialEncodeIsSent := by
  intro h mem r l s s0 hh hl h1 h2 h3 h4 h5 h6 h7 h8 h9 sent todo s1 s2 digest
  have he : r.encodeWait.isEmpty = false := by simpa [List.isEmpty_eq_false_iff] using h4
  rw [exec_initialEncodeStart]
  refine congrArg (fun t => Host.Outcome.next (State.finish (State.settleAll t))) ?_
  show State.encodeStart h.toNat mem s0 = _
  simp only [State.encodeStart, hh, hl, h1, h2, h3, h5, h6, h7, h8, h9, he, bne_self_eq_false, Bool.not_true, Bool.or_self, Bool.false_eq_true,
    if_false]
  rfl

/-! ## The trailing view -/

section
variable {s t : State} {v : Nat} {r src : HankRt} {ws : List ViewWrite} {sat : Nat} {mem : MemAns}

/-- What a view's bytes are formed from does not depend on the output ports. -/
theorem State.columnView_asked (h : Asked s t) : t.columnView r src false = s.columnView r src false := by
  obtain ⟨o, rfl⟩ := h
  rfl

theorem State.coherent_asked (h : Asked s t) (ks : List PageKey) : t.coherent ks none = s.coherent ks none := by
  obtain ⟨o, rfl⟩ := h
  rfl

/-- The view is written and its stripes counted (R116). -/
def State.trailed (pos v : Nat) (r src : HankRt) (ws : List ViewWrite) (sat : Nat) (s : State) : State :=
  let s2 := State.countReread (fun x => x.1 == pos && x.2.1 == src.hank) s
  let s3 := State.bump 0x5030 0x0A (State.viewStripes r.desc).length (State.bump 0x5030 0x0B sat (forEach ws (fun w st => st.writeView w) s2))
  State.updHank v (fun x => { x with ungenerated := [] }) { s3 with card := { s3.card with trailing := s3.card.trailing ++ [v] } }

/-- A trailing pass that is due writes the view where no die holds a copy of its pages. -/
theorem State.trailingPass_due (hr : s.hank? v = some r) (hs : s.hank? r.desc.source = some src) (h1 : s.trailingViews.contains v = true)
    (h2 : s.card.trailing.contains v = false) (h3 : s.fr.opened = true) (h4 : s.fr.phase = .update) (h5 : s.fenced = false)
    (h6 : s.loss.frayed = false) (h7 : ∀ g : Nat, g < groupsOf src.desc.count → s.card.done.contains (s.myPos, src.hank, g) = true)
    (hv : (State.askMasters mem src s).columnView r src false = some (ws, sat))
    (hc : (State.askMasters mem src s).coherent (State.writePages s.C ws) none = true)
    (hC : (State.askMasters mem src s).C = s.C) :
    s.trailingPass v mem = State.trailed s.myPos v r src ws sat (State.askMasters mem src s) := by
  have hd : (List.range (groupsOf src.desc.count)).all (fun g => s.card.done.contains (s.myPos, src.hank, g)) = true :=
    List.all_eq_true.mpr (fun g hg => h7 g (List.mem_range.mp hg))
  have hC2 : (State.countReread (fun x => x.1 == s.myPos && x.2.1 == src.hank) (State.askMasters mem src s)).C = s.C := hC
  simp only [State.trailingPass, hr, hs, h1, h2, h3, h4, h5, h6, hd, beq_self_eq_true, Bool.not_true, Bool.not_false, Bool.and_self,
    Bool.false_eq_true, if_false, hv, hC2]
  have hc2 : (State.countReread (fun x => x.1 == s.myPos && x.2.1 == src.hank) (State.askMasters mem src s)).coherent
    (State.writePages s.C ws) none = true := hc
  simp only [hc2, Bool.not_true, Bool.false_eq_true, if_false]
  rfl

/-- A hank that is found after a change of that hank is the result of the change. -/
theorem State.hank?_updHank {f : HankRt → HankRt} {x : HankRt} (h : (State.updHank v f s).hank? v = some x) : ∃ y : HankRt, x = f y := by
  have hm := List.mem_of_find?_eq_some h
  have hx : (x.hank == v) = true := by
    rw [State.hank?] at h
    exact List.find?_some (p := fun r : HankRt => r.hank == v) h
  obtain ⟨y, -, rfl⟩ := List.mem_map.mp hm
  by_cases hy : (y.hank == v) = true
  · exact ⟨y, if_pos hy⟩
  · rw [if_neg hy] at hx
    exact absurd hx hy

theorem Stored.counters (h : Stored s t) : t.counters = s.counters := by obtain ⟨_, _, _, rfl⟩ := h; rfl
theorem Stored.card (h : Stored s t) : t.card = s.card := by obtain ⟨_, _, _, rfl⟩ := h; rfl
theorem Stored.fr (h : Stored s t) : t.fr = s.fr := by obtain ⟨_, _, _, rfl⟩ := h; rfl
theorem Stored.code (h : Stored s t) : t.code = s.code := by obtain ⟨_, _, _, rfl⟩ := h; rfl

theorem State.trailed_facts (pos v : Nat) (r src : HankRt) (ws : List ViewWrite) (sat : Nat) (s : State) :
    let t := State.trailed pos v r src ws sat s
    t.card.trailing = s.card.trailing ++ [v] ∧ (∀ x, t.hank? v = some x → x.ungenerated = []) ∧
      t.ctr 0x5030 0x0A = min Config.u64Max (s.ctr 0x5030 0x0A + (State.viewStripes r.desc).length) ∧ t.fr = s.fr ∧ t.code = s.code := by
  have hs : Stored (State.countReread (fun x => x.1 == pos && x.2.1 == src.hank) s)
      (forEach ws (fun w st => st.writeView w) (State.countReread (fun x => x.1 == pos && x.2.1 == src.hank) s)) :=
    .forEach (fun w u => State.writeView_stored w u) _ _
  have hcard : (forEach ws (fun w st => st.writeView w) (State.countReread (fun x => x.1 == pos && x.2.1 == src.hank) s)).card.trailing =
      (State.countReread (fun x => x.1 == pos && x.2.1 == src.hank) s).card.trailing := congrArg CardSt.trailing hs.card
  refine ⟨congrArg (fun l => l ++ [v]) hcard, fun x hx => ?_, ?_, hs.fr, hs.code⟩
  · obtain ⟨y, rfl⟩ := State.hank?_updHank hx
    rfl
  · refine State.ctr_bump_same.trans ?_
    rw [State.ctr_bump_ne (by decide), State.ctr_congr hs.counters]
    have h8 : (State.countReread (fun x => x.1 == pos && x.2.1 == src.hank) s).ctr 0x5030 0x0A = s.ctr 0x5030 0x0A :=
      State.ctr_bump_ne (by decide)
    rw [h8]

end

theorem exec_viewTrailingPass (v : BitVec 12) (mem : MemAns) (s : State) : exec (.viewTrailingPass v mem) s =
    .next (State.finish (State.settleAll (State.trailingPass v.toNat mem (State.begun mem s)))) := rfl

/-- Settles O23: the pass is due, and where the controllers answer every read it rests on the state alone. -/
theorem trailingViewIsWritten : Obligations.TrailingViewIsWritten := by
  intro v mem r src ws sat s s0 hr hs h1 h2 h3 h4 h5 h6 h7
  have hC (mem : MemAns) : (State.askMasters mem src s0).C = s0.C := by rw [State.C, State.C, (State.askMasters_keeps (.refl s0)).straps]
  rw [exec_viewTrailingPass]
  refine ⟨fun hv hc => ?_, fun hm hv hc => ?_⟩
  · have hC' := hC mem
    exact congrArg (fun t => Host.Outcome.next (State.finish (State.settleAll t)))
      (State.trailingPass_due hr hs h1 h2 h3 h4 h5 h6 h7 hv hc hC')
  · subst hm
    have ha : Asked s0 (State.askMasters .clean src s0) := State.askMasters_clean src s0
    obtain ⟨f1, f2, f3, f4, f5⟩ := State.trailed_facts s0.myPos v.toNat r src ws sat (State.askMasters .clean src s0)
    refine ⟨State.trailed s0.myPos v.toNat r src ws sat (State.askMasters .clean src s0), ?_, ?_⟩
    · exact congrArg (fun t => Host.Outcome.next (State.finish (State.settleAll t)))
        (State.trailingPass_due hr hs h1 h2 h3 h4 h5 h6 h7 ((State.columnView_asked ha).trans hv) ((State.coherent_asked ha _).trans hc) (hC .clean))
    · obtain ⟨o, ho⟩ := ha
      rw [ho] at f1 f2 f3 f4 f5 ⊢
      exact ⟨f1, f2, f3, f4, f5⟩

end Sys2Proof.Machine
end

section
/-! PROOFS. Groups that the carder computes, adopted groups and offload jobs (R95, R103, R146, R166, R167). -/

namespace Sys2Proof.Machine

/-! ## A group is computed and sent -/

section
variable {s t : State}

theorem State.countOut_same (o : GroupOut) (s : State) :
    (State.countOut o s).fr = s.fr ∧ (State.countOut o s).card.inflight = s.card.inflight := by
  have note (k d : Nat) (z : State) : (State.note 0x5030 k d z).fr = z.fr ∧ (State.note 0x5030 k d z).card = z.card :=
    ⟨Logged.fr (State.raise_logged ..), Logged.card (State.raise_logged ..)⟩
  unfold State.countOut
  dsimp only
  split <;> split <;> simp only [note, State.bump_fr, State.bump_card, and_self]

/-- A group that is launched stands in flight with one set for each role. -/
theorem State.launch_mem (l : Layout) (gr : GroupRt) (s : State) : ∃ x ∈ (State.launch l gr s).card.inflight,
    ∃ sets : List SetRt, sets.length = (State.rolesOf l).length ∧ x = { gr with sets := sets } := by
  obtain ⟨sets, hl, hin⟩ := State.launch_inflight l gr s
  refine ⟨{ gr with sets := sets }, ?_, sets, hl, rfl⟩
  rw [hin]
  exact List.mem_append_right _ (List.mem_singleton.mpr rfl)

/-- A group that is computed without a fault of the two lanes stands in flight with what its update gives. -/
theorem State.computeGroup_launched (l : Layout) (r : HankRt) (g : Nat) (grads : List W32) (mask : Option (List Bool)) (s : State) :
    ∃ gr ∈ (State.computeGroup l r g grads mask [] s).card.inflight, gr.position = l.position ∧ gr.hank = r.hank ∧ gr.group = g ∧
      gr.step = s.fr.step ∧ gr.encode = false ∧ gr.old = s.readGroup r g ∧
      gr.new = (updateGroup (s.hankIn r.hank r.desc.planes r.desc.formats r.desc.program (s.viewsOf r.hank)) g
        (elemsIn r.desc.count g) (s.readGroup r g) grads mask).stripes ∧ gr.sets.length = (State.rolesOf l).length := by
  have hs : State.shadow [] l.position r.hank g s = (s, true) := rfl
  unfold State.computeGroup
  simp only [hs, Bool.not_true, Bool.false_eq_true, if_false]
  refine (State.launch_mem l _ _).imp (fun x h => ⟨h.1, ?_⟩)
  obtain ⟨-, sets, hl, rfl⟩ := h
  exact ⟨rfl, rfl, rfl, congrArg (fun f => f.step) (State.countOut_same _ s).1, rfl, rfl, rfl, hl⟩

/-! ## The carder's start -/

/-- The state once a group's stripes, gradient and mask have been read. -/
def State.carded (r : HankRt) (l : Layout) (g : Nat) (mem : MemAns) (s : State) : State :=
  let s1 := State.countReread (fun x => x.1 == l.position && x.2.1 == r.hank && x.2.2.1 == g) s
  ((s1.askGroup mem r g).takeMem mem (s1.gradBlocks r.hank r.desc.count g)).readMask r g mem

variable {h g : Nat} {mem : MemAns} {faults : List UnitFault} {r r2 : HankRt} {l : Layout} {gs gs2 : List W32}
  {mask : Option (List Bool)}

/-- A group whose waits are met and whose stripes, mask and gradient can be read is computed. -/
theorem State.carderStart_ready (hh : s.hank? h = some r) (hl : s.code.layout = some l) (h1 : s.groupReady r g = true)
    (h2 : s.groupMoves h g = false) (h3 : s.whorl.badBanks.contains (g % s.C) = false) (h4 : s.fr.eN ≤ s.mem.epoch)
    (h5 : s.bobbinUsed (g % s.C) + stripesPerGroup r.desc.planes r.desc.formats ≤ s.bobbinShare)
    (h6 : s.gradient h r.desc.count g = some gs) (hb : (State.carded r l g mem s).badStripes r g = [])
    (hr : (State.carded r l g mem s).hank? h = some r2) (hm : (State.carded r l g mem s).groupMask r2 g = some mask)
    (hg : (State.carded r l g mem s).gradient h r2.desc.count g = some gs2) :
    s.carderStart h g mem faults = State.computeGroup l r2 g ((State.carded r l g mem s).zeroBadGrads h r2.desc.count g gs2) mask faults
      (State.carded r l g mem s) := by
  obtain rfl : r.hank = h := by simpa using List.find?_some (p := fun r : HankRt => r.hank == h) hh
  have h4' : ¬ s.mem.epoch < s.fr.eN := by omega
  have h5' : ¬ s.bobbinShare < s.bobbinUsed (g % s.C) + stripesPerGroup r.desc.planes r.desc.formats := by omega
  unfold State.carded at hb hr hm hg ⊢
  simp only [State.carderStart, hh, hl, h1, h2, h3, if_neg h4', if_neg h5', h6, hb, hr, hm, hg, Bool.not_true, Bool.or_self,
    Bool.false_eq_true, if_false, List.isEmpty_nil]

/-- A group has been asked for: groups held before count as read again, and requests stand on the output ports. -/
def Reread (s t : State) : Prop :=
  ∃ (card : CardSt) (counters : List (Nat × Nat)) (out : List Out), t = { s with card := card, counters := counters, out := out }

theorem Reread.fr (h : Reread s t) : t.fr = s.fr := by obtain ⟨_, _, _, rfl⟩ := h; rfl
theorem Reread.scrub (h : Reread s t) : t.scrub = s.scrub := by obtain ⟨_, _, _, rfl⟩ := h; rfl
theorem Reread.hank? (h : Reread s t) (k : Nat) : t.hank? k = s.hank? k := by obtain ⟨_, _, _, rfl⟩ := h; rfl
theorem Reread.groupMask (h : Reread s t) : t.groupMask r g = s.groupMask r g := by obtain ⟨_, _, _, rfl⟩ := h; rfl
theorem Reread.readGroup (h : Reread s t) : t.readGroup r g = s.readGroup r g := by obtain ⟨_, _, _, rfl⟩ := h; rfl

theorem Reread.gradSpan (h : Reread s t) (k fuel lo n : Nat) : t.gradSpan k fuel lo n = s.gradSpan k fuel lo n := by
  obtain ⟨_, _, _, rfl⟩ := h
  induction fuel generalizing lo n with
  | zero => rfl
  | succ fuel ih =>
    unfold State.gradSpan
    simp only [ih]
    rfl

theorem Reread.gradient (h : Reread s t) (k n : Nat) : t.gradient k n g = s.gradient k n g :=
  congrArg (Option.map (elemVals 4)) (h.gradSpan ..)

theorem Reread.viewsOf (h : Reread s t) (k : Nat) : t.viewsOf k = s.viewsOf k := by obtain ⟨_, _, _, rfl⟩ := h; rfl
theorem Reread.hankIn (h : Reread s t) (k p f q : Nat) (v : List ViewOf) : t.hankIn k p f q v = s.hankIn k p f q v := by
  obtain ⟨_, _, _, rfl⟩ := h; rfl

/-- Where the controllers answer every read, what is read of a group only asks for it. -/
theorem State.carded_clean (hm : s.maskCopyBad r 0 (State.maskStripe g) = false) : Reread s (State.carded r l g .clean s) := by
  unfold State.carded
  have a := (State.askGroup_clean r g (State.countReread (fun x => x.1 == l.position && x.2.1 == r.hank && x.2.2.1 == g) s)).trans
    (State.takeMem_clean ((State.countReread (fun x => x.1 == l.position && x.2.1 == r.hank && x.2.2.1 == g) s).gradBlocks r.hank
      r.desc.count g) _)
  have b := a.trans (State.readMask_clean r g (by obtain ⟨o, ho⟩ := a; rw [ho]; exact hm))
  obtain ⟨o, ho⟩ := b
  exact ⟨_, _, _, ho⟩

end

theorem exec_carderGroupStart (h : BitVec 12) (g : BitVec 27) (mem : MemAns) (faults : List UnitFault) (s : State)
    (hf : ∀ f ∈ faults, s.hasUnit f = true) : exec (.carderGroupStart h g mem faults) s =
      .next (State.finish (State.settleAll (State.carderStart h.toNat g.toNat mem faults (State.begun mem s)))) :=
  if_pos (List.all_eq_true.mpr hf)

/-- Settles O22: every wait of the group is met, and where the controllers answer every read that rests on the state alone. -/
theorem carderComputesAReadyGroup : Obligations.CarderComputesAReadyGroup := by
  intro h g mem faults r l gs s s0 hf hh hl h1 h2 h3 h4 h5 h6
  rw [exec_carderGroupStart h g mem faults s hf]
  obtain hk : r.hank = h.toNat := by simpa using List.find?_some (p := fun r : HankRt => r.hank == h.toNat) hh
  refine ⟨?reads, ?clean⟩
  case reads =>
    intro r2 gs2 mask s1 s2 hb hr hm hg
    have hc : State.carded r l g.toNat mem s0 = s2 := by simp only [State.carded, hk, s2, s1]
    rw [← hc] at hb hr hm hg ⊢
    exact congrArg (fun t => Host.Outcome.next (State.finish (State.settleAll t)))
      (State.carderStart_ready hh hl h1 h2 h3 h4 h5 h6 hb hr hm hg)
  case clean =>
    intro mask hmem hfs hbb hbl hm hmb hi o
    subst hmem hfs
    have hcb : s0.maskCopyBad r 0 (State.maskStripe g.toNat) = false := by
      simp only [State.maskCopyBad, hmb, State.spanBad, hbb, List.isEmpty_nil, if_true, List.contains_nil, Bool.or_self]
    have hp : Reread s0 (State.carded r l g.toNat .clean s0) := State.carded_clean hcb
    have hbb2 : (State.carded r l g.toNat .clean s0).scrub.badBlocks = [] := hp.scrub ▸ hbb
    have hbl2 : (State.carded r l g.toNat .clean s0).scrub.badLines = [] := hp.scrub ▸ hbl
    have hb : (State.carded r l g.toNat .clean s0).badStripes r g.toNat = [] := by
      simp only [State.badStripes, hbb2, hbl2, List.isEmpty_nil, Bool.and_self, if_true]
    have hz : (State.carded r l g.toNat .clean s0).zeroBadGrads h.toNat r.desc.count g.toNat gs = gs := by
      simp only [State.zeroBadGrads, hbb2, List.isEmpty_nil, if_true]
    refine ⟨_, congrArg (fun t => Host.Outcome.next (State.finish (State.settleAll t)))
      (State.carderStart_ready hh hl h1 h2 h3 h4 h5 h6 hb ((hp.hank? _).trans hh) (hp.groupMask.trans hm) ((hp.gradient _ _).trans h6)), ?_⟩
    rw [hz]
    obtain ⟨gr, hin, e1, e2, e3, e4, e5, e6, e7, e8⟩ :=
      State.computeGroup_launched l r g.toNat gs mask (State.carded r l g.toNat .clean s0)
    rw [hp.fr] at e4
    rw [hp.readGroup] at e6
    rw [hp.readGroup, hp.viewsOf, hp.hankIn] at e7
    exact ⟨gr, hin, e1, e2, e3, e4, e5, e6, e7, e8⟩

/-! ## An adopted group is taken up -/

section
variable {s t : State} {l : Layout} {pos h g : Nat} {faults : List UnitFault} {a : AdoptRt} {c : CompRt} {ctx : LostCtx}
  {mask : Option (List Bool)} {grads : List W32}

/-- The completions, the groups held and the counts have changed, and requests stand on the output ports. -/
def Took (s t : State) : Prop :=
  ∃ (comps : List CompRt) (held : List (Nat × Nat × Nat × Nat)) (counters : List (Nat × Nat)) (out : List Out),
    t = { s with loss := { s.loss with comps := comps }, card := { s.card with heldGroups := held }, counters := counters, out := out }

theorem Took.trans {u : State} (h : Took s t) (k : Took t u) : Took s u := by
  obtain ⟨_, _, _, _, rfl⟩ := h
  obtain ⟨a, b, c, d, rfl⟩ := k
  exact ⟨a, b, c, d, rfl⟩

theorem Took.asOf (h : Took s t) (n : Nat) : Took (s.asOf n) (t.asOf n) := by
  obtain ⟨_, _, _, _, rfl⟩ := h
  unfold State.asOf
  dsimp only
  split <;> exact ⟨_, _, _, _, rfl⟩

theorem Took.lostDesc (k : Took s t) : t.lostDesc l pos h = s.lostDesc l pos h := by obtain ⟨_, _, _, _, rfl⟩ := k; rfl
theorem Took.program (k : Took s t) (n : Nat) : t.program n = s.program n := by obtain ⟨_, _, _, _, rfl⟩ := k; rfl
theorem Took.scalars (k : Took s t) (n : Nat) : t.scalars n = s.scalars n := by obtain ⟨_, _, _, _, rfl⟩ := k; rfl
theorem Took.whorl (k : Took s t) : t.whorl = s.whorl := by obtain ⟨_, _, _, _, rfl⟩ := k; rfl
theorem Took.seedOf (k : Took s t) (n m : Nat) : t.seedOf n m = s.seedOf n m := by obtain ⟨_, _, _, _, rfl⟩ := k; rfl
theorem Took.viewsOf (k : Took s t) (n : Nat) : t.viewsOf n = s.viewsOf n := by obtain ⟨_, _, _, _, rfl⟩ := k; rfl
theorem Took.mayRecompute (k : Took s t) (n : Nat) : t.mayRecompute n = s.mayRecompute n := by obtain ⟨_, _, _, _, rfl⟩ := k; rfl
theorem Took.bobbinUsed (k : Took s t) (n : Nat) : t.bobbinUsed n = s.bobbinUsed n := by obtain ⟨_, _, _, _, rfl⟩ := k; rfl
theorem Took.bobbinShare (k : Took s t) : t.bobbinShare = s.bobbinShare := by obtain ⟨_, _, _, _, rfl⟩ := k; rfl
theorem Took.C (k : Took s t) : t.C = s.C := by obtain ⟨_, _, _, _, rfl⟩ := k; rfl
theorem Took.lostCtx (k : Took s t) (n : Nat) : t.lostCtx pos n = s.lostCtx pos n := by obtain ⟨_, _, _, _, rfl⟩ := k; rfl
theorem Took.lostMask (k : Took s t) (d : Desc) : t.lostMask d pos h g = s.lostMask d pos h g := by obtain ⟨_, _, _, _, rfl⟩ := k; rfl
theorem Took.readReserve (k : Took s t) : t.readReserve l pos h g = s.readReserve l pos h g := by obtain ⟨_, _, _, _, rfl⟩ := k; rfl
theorem Took.reserveBad (k : Took s t) : t.reserveBad l pos h g = s.reserveBad l pos h g := by obtain ⟨_, _, _, _, rfl⟩ := k; rfl
theorem Took.lostSrc (k : Took s t) (x : Site) (i : Nat) : t.lostSrc ctx x i = s.lostSrc ctx x i := by obtain ⟨_, _, _, _, rfl⟩ := k; rfl
theorem Took.slotRows (k : Took s t) (q : SlotSrc) (x : Site) (i : Nat) : t.slotRows ctx q x i = s.slotRows ctx q x i := by
  obtain ⟨_, _, _, _, rfl⟩ := k; rfl
theorem Took.denseEv (k : Took s t) (q : SlotSrc) (x : Site) (i : Nat) (sp : Span) : t.denseEv ctx q x i sp = s.denseEv ctx q x i sp := by
  obtain ⟨_, _, _, _, rfl⟩ := k; rfl
theorem Took.rowEv (k : Took s t) (q : SlotSrc) (x : Site) (i : Nat) (sp : Span) : t.rowEv ctx q x i sp = s.rowEv ctx q x i sp := by
  obtain ⟨_, _, _, _, rfl⟩ := k; rfl

theorem Took.keptRows (k : Took s t) (n : Nat) (x : Site) (cap : Nat) : t.keptRows ctx n x cap = s.keptRows ctx n x cap := by
  induction n generalizing x cap with
  | zero => rfl
  | succ n ih => simp only [State.keptRows, ih, k.lostSrc, k.slotRows]

theorem Took.siteEv (k : Took s t) (n : Nat) (x : Site) (sp : Span) : t.siteEv ctx n x sp = s.siteEv ctx n x sp := by
  induction n generalizing x sp with
  | zero => rfl
  | succ n ih => simp only [State.siteEv, ih, k.lostSrc, k.keptRows, k.denseEv, k.rowEv]

theorem Took.lostGrad (k : Took s t) (fuel lo n : Nat) : t.lostGrad ctx h fuel lo n = s.lostGrad ctx h fuel lo n := by
  induction fuel generalizing lo n with
  | zero => rfl
  | succ fuel ih => simp only [State.lostGrad, ih, k.siteEv]

/-- The inputs of a lost owner's update program at a step (R167). -/
def State.lostIn (l : Layout) (pos h step : Nat) (s : State) : HankIn :=
  let v := s.asOf step
  let d := v.lostDesc l pos h
  { planes := d.planes, formats := d.formats, prog := v.program d.program, scal := v.scalars d.program,
    draw := { table := v.whorl.tables, seed := v.seedOf h 0, step := step }, views := v.viewsOf h }

theorem Took.lostIn (k : Took s t) (n : Nat) : State.lostIn l pos h n t = State.lostIn l pos h n s := by
  have v := k.asOf n
  simp only [State.lostIn, v.lostDesc, v.program, v.scalars, v.whorl, v.seedOf, v.viewsOf]

/-- An adopted group whose inputs are at hand is computed: it stands in flight with what its update gives. -/
theorem State.computeAdopted_launched (old : List Bytes) (counter : Nat) (hf : c.faults = []) (h1 : s.mayRecompute c.step = true)
    (h2 : s.bobbinUsed (c.group % s.C) + l.sOf c.hank ≤ s.bobbinShare) (h3 : s.lostCtx c.position c.step = some ctx)
    (h4 : s.lostMask ((s.asOf c.step).lostDesc l c.position c.hank) c.position c.hank c.group = some mask)
    (h5 : s.lostGrad ctx c.hank State.gradFuel (Config.groupElems * c.group)
      (elemsIn ((s.asOf c.step).lostDesc l c.position c.hank).count c.group) = some (grads, [], [])) :
    ∃ gr ∈ (State.computeAdopted l c old counter s).card.inflight, gr.position = c.position ∧ gr.hank = c.hank ∧ gr.group = c.group ∧
      gr.step = c.step ∧ gr.encode = false ∧ gr.old = old ∧ gr.new = (updateGroup (State.lostIn l c.position c.hank c.step s) c.group
        (elemsIn ((s.asOf c.step).lostDesc l c.position c.hank).count c.group) old grads mask).stripes := by
  have hs : State.shadow c.faults c.position c.hank c.group s = (s, true) := by rw [hf]; rfl
  unfold State.computeAdopted
  simp only [h1, if_neg (Nat.not_lt.mpr h2), h3, h4, h5, hs, Bool.not_true, Bool.false_or, decide_eq_true_eq, Bool.false_eq_true,
    if_false, List.isEmpty_nil]
  refine (State.launch_mem l _ _).imp (fun x h => ⟨h.1, ?_⟩)
  obtain ⟨-, sets, hl, rfl⟩ := h
  exact ⟨rfl, rfl, rfl, rfl, rfl, rfl, rfl⟩

/-- A completion begins as an adopted group is taken up. -/
def State.freshComp (pos h g step : Nat) (faults : List UnitFault) : CompRt :=
  { position := pos, hank := h, group := g, step := step, plies := [], deadRoles := [], stripes := [], gone := [], decoded := [],
    faults := faults }

/-- The state with a completion that has just begun. -/
def State.tookUp (c : CompRt) (s : State) : State :=
  let s1 := State.dropComp c s
  { s1 with loss := { s1.loss with comps := s1.loss.comps ++ [c] } }

theorem State.tookUp_took (c : CompRt) (s : State) : Took s (State.tookUp c s) := ⟨_, _, _, _, rfl⟩

theorem State.tookUp_comps (h : s.loss.comps = []) : (State.tookUp c s).loss.comps = [c] := by
  have hd : (State.tookUp c s).loss.comps =
      s.loss.comps.filter (fun x => !(x.position == c.position && x.hank == c.hank && x.group == c.group)) ++ [c] := rfl
  rw [hd, h]
  rfl

theorem State.completeStart_due (ha : s.adoption pos h g = some a) (h1 : s.fr.opened = true)
    (h2 : s.fr.rcSeen = true ∨ s.compStep a < s.fr.step) (h3 : a.heir = s.myPos) (h4 : s.fenced = false) (h5 : s.loss.frayed = false)
    (h6 : a.atStep ≠ some (s.compStep a)) (h7 : s.inflight? pos h g = none) (h8 : s.underRepair pos h g = false)
    (h9 : s.disagrees pos h g = false) (h10 : s.loss.comps = []) :
    s.completeStart pos h g faults =
      State.advanceComp (State.freshComp pos h g (s.compStep a) faults) (State.tookUp (State.freshComp pos h g (s.compStep a) faults) s) := by
  have hr : (s.fr.rcSeen || decide (s.compStep a < s.fr.step)) = true := by simpa using h2
  have h6' : (a.atStep != some (s.compStep a)) = true := by simpa using h6
  simp only [State.completeStart, ha, h1, hr, h3, h4, h5, h6', h7, h8, h9, h10, Option.isNone_none, beq_self_eq_true, Bool.and_self,
    Bool.not_true, Bool.not_false, Bool.false_eq_true, if_false, List.any_nil]
  rfl

/-- A group that stands in the reserve at the step before is computed as soon as its reserve has been read. -/
theorem State.advanceComp_materialized (hc : s.loss.comps = [c]) (hl : s.code.layout = some l) (h1 : s.fenced = false)
    (h2 : s.loss.frayed = false) (ha : s.adoption c.position c.hank c.group = some a) (h3 : a.heir = l.position) (h0 : 0 < c.step)
    (h4 : a.atStep = some (c.step - 1)) (h5 : s.underRepair c.position c.hank c.group = false) (hans : s.ans = .clean)
    (hb : s.scrub.badBlocks = []) :
    ∃ u : State, Took s u ∧ State.advanceComp c s = State.computeAdopted l c (s.readReserve l c.position c.hank c.group) 0x06 u := by
  have h4' : (a.atStep == some c.step) = false := by rw [h4]; simp; omega
  let s1 := State.countReread (fun x => x.1 == c.position && x.2.1 == c.hank && x.2.2.1 == c.group) s
  obtain ⟨o, ho⟩ : Asked s1 (State.askReserve l c.position c.hank c.group s1) := State.askReserve_clean l _ _ _ hans
  have hu : Took s (State.askReserve l c.position c.hank c.group s1) := ⟨_, _, _, _, ho⟩
  refine ⟨_, hu, ?_⟩
  have hbad : (State.askReserve l c.position c.hank c.group s1).reserveBad l c.position c.hank c.group = [] := by
    rw [hu.reserveBad]
    simp only [State.reserveBad, hb, List.isEmpty_nil, if_true]
  have hfind : s.loss.comps.find? (fun x => x.position == c.position && x.hank == c.hank && x.group == c.group) = some c := by
    rw [hc]; simp
  unfold State.advanceComp
  simp only [hl, hfind, h1, h2, ha, h3, h4', h5, Bool.or_self, Bool.false_eq_true, if_false, bne_self_eq_false]
  simp only [h4, Option.isSome_some, beq_self_eq_true, Bool.and_self, if_true, s1] at hbad hu ⊢
  simp only [hbad, List.isEmpty_nil, if_true, hu.readReserve]

end

theorem exec_adoptedGroupComplete (p : BitVec 4) (h : BitVec 12) (g : BitVec 27) (mem : MemAns) (faults : List UnitFault) (s : State)
    (hf : ∀ f ∈ faults, s.hasUnit f = true) : exec (.adoptedGroupComplete p h g mem faults) s =
      .next (State.finish (State.settleAll (State.completeStart p.toNat h.toNat g.toNat faults (State.begun mem s)))) :=
  if_pos (List.all_eq_true.mpr hf)

/-- Settles O25: the completion begins, and where everything that it takes is at hand the same command ends it. -/
theorem adoptedGroupIsTakenUp : Obligations.AdoptedGroupIsTakenUp := by
  intro p h g mem faults a s s0 hf ha h1 h2 h3 h4 h5 h6 h7 h8 h9 h10 fresh
  rw [exec_adoptedGroupComplete p h g mem faults s hf]
  have hdue := State.completeStart_due (faults := faults) ha h1 h2 h3 h4 h5 h6 h7 h8 h9 h10
  refine ⟨congrArg (fun t => Host.Outcome.next (State.finish (State.settleAll t))) hdue, ?_⟩
  intro l ctx mask grads hmem hfs hl hstep hat hbb hmay hbob v d n hctx hmask hgrad hi old
  subst hmem hfs
  have h3' : a.heir = l.position := by
    rw [h3, State.myPos, hl]
  have hans : s0.ans = .clean := by
    show (State.begun .clean s).ans = .clean
    rw [State.begun_clean]
  have hk := State.tookUp_took fresh s0
  obtain ⟨u, hu, hadv⟩ := State.advanceComp_materialized (c := fresh) (s := State.tookUp fresh s0) (l := l) (a := a)
    (State.tookUp_comps h10) hl h4 h5 ha h3' hstep hat h8 hans hbb
  have hsu : Took s0 u := hk.trans hu
  obtain ⟨gr, hin, e⟩ := State.computeAdopted_launched (s := u) (c := fresh) (l := l) (ctx := ctx) (mask := mask) (grads := grads) old 0x06 rfl
    (hsu.mayRecompute _ |>.trans hmay) (by rw [hsu.bobbinUsed, hsu.C, hsu.bobbinShare]; exact hbob) ((hsu.lostCtx _).trans hctx)
    (by rw [hsu.lostMask, (hsu.asOf _).lostDesc]; exact hmask) (by rw [hsu.lostGrad, (hsu.asOf _).lostDesc]; exact hgrad)
  refine ⟨_, congrArg (fun t => Host.Outcome.next (State.finish (State.settleAll t))) (hdue.trans hadv), gr, ?_, ?_⟩
  · rw [hk.readReserve]; exact hin
  · rw [hsu.lostIn, (hsu.asOf _).lostDesc] at e
    exact e

/-! ## An offload job runs -/

section
variable {s t : State} {r : HankRt} {j : JobRt} {hdr : JobHdr} {h slot : Nat}

theorem Stored.paged (k : Stored s t) (d : Desc) : t.paged d = s.paged d := by obtain ⟨_, _, _, rfl⟩ := k; rfl
theorem Stored.hanks (k : Stored s t) : t.hanks = s.hanks := by obtain ⟨_, _, _, rfl⟩ := k; rfl
theorem Stored.off (k : Stored s t) : t.off = s.off := by obtain ⟨_, _, _, rfl⟩ := k; rfl
theorem Stored.tier (k : Stored s t) : t.tier = s.tier := by obtain ⟨_, _, _, rfl⟩ := k; rfl
theorem Stored.regs (k : Stored s t) : t.regs = s.regs := by obtain ⟨_, _, _, rfl⟩ := k; rfl
theorem Stored.pantry (k : Stored s t) : t.pantry = s.pantry := by obtain ⟨_, _, _, rfl⟩ := k; rfl

theorem State.offWrite_stored (o : Nat) (bs : Bytes) (hp : s.paged r.desc = false) : Stored s (State.offWrite r o bs s) := by
  unfold State.offWrite
  simp only [hp, Bool.false_eq_true, if_false]
  split
  · exact (State.spanWrite_stored ..).trans (State.clearBad_told ..).stored
  · exact State.spanWrite_stored ..

theorem State.putJobState_stored (slot state detail : Nat) (hp : s.paged r.desc = false) :
    Stored s (State.putJobState r slot state detail s) := by
  have h1 := State.offWrite_stored (State.jobOff slot) (toLE 1 state) hp
  unfold State.putJobState
  dsimp only
  split
  · exact h1
  · exact h1.trans (State.offWrite_stored _ _ ((h1.paged _).trans hp))

theorem State.coherent_alone (ks : List PageKey) (hq : s.tier.presence = []) : s.coherent ks none = true := by
  simp only [State.coherent, hq, List.isEmpty_nil, Bool.true_or]

/-- What an offload job leaves alone in a hank of which no die holds a copy, and what its end counts. -/
def State.JobEnded (h slot : Nat) (s t : State) : Prop :=
  t.job? h slot = none ∧ t.ctr 0x5040 0x0E = min Config.u64Max (s.ctr 0x5040 0x0E + 1) ∧ t.regs = s.regs ∧ t.hanks = s.hanks ∧
    t.fr = s.fr ∧ t.pantry = s.pantry

theorem State.job?_dropJob (s : State) : (State.dropJob h slot s).job? h slot = none := by
  refine List.find?_eq_none.mpr (fun x hx => ?_)
  have hf : x ∈ s.off.jobs.filter (fun y => !(y.hank == h && y.slot == slot)) := hx
  rw [Bool.not_eq_true]
  exact (Bool.not_eq_true' _).mp (List.mem_filter.mp hf).2

theorem State.job?_updJob {f : JobRt → JobRt} (hj : s.job? h slot = some j) (hf : ∀ x, (f x).hank = x.hank ∧ (f x).slot = x.slot) :
    (State.updJob h slot f s).job? h slot = some (f j) := by
  have hm (x : JobRt) : ((fun y : JobRt => y.hank == h && y.slot == slot) ∘
      (fun y => if y.hank == h && y.slot == slot then f y else y)) x = (x.hank == h && x.slot == slot) := by
    dsimp only [Function.comp]
    split
    · rw [(hf x).1, (hf x).2]
    · rfl
  have hp := List.find?_some (p := fun y : JobRt => y.hank == h && y.slot == slot) hj
  have he : (State.updJob h slot f s).job? h slot =
      (s.off.jobs.map (fun y => if y.hank == h && y.slot == slot then f y else y)).find? (fun y => y.hank == h && y.slot == slot) := rfl
  rw [he, List.find?_map, funext hm]
  exact (congrArg (Option.map _) hj).trans (congrArg some (if_pos hp))

theorem State.jobEnded_of (k : Stored s t) (n m : Nat) :
    State.JobEnded h slot s (((State.dropJob h slot t).bump 0x5040 0x0E 1).bump 0x5040 0x10 n |>.bump 0x5040 0x11 m) := by
  refine ⟨State.job?_dropJob t, ?_, ?_, ?_, ?_, ?_⟩
  case refine_2 => exact (by simp only [State.bump_regs] : _ = (State.dropJob h slot t).regs).trans k.regs
  case refine_3 => exact (by simp only [State.bump_hanks] : _ = (State.dropJob h slot t).hanks).trans k.hanks
  case refine_4 => exact (by simp only [State.bump_fr] : _ = (State.dropJob h slot t).fr).trans k.fr
  case refine_5 => exact (by simp only [State.bump_pantry] : _ = (State.dropJob h slot t).pantry).trans k.pantry
  rw [State.ctr_bump_ne (by decide), State.ctr_bump_ne (by decide), State.ctr_bump_same]
  exact congrArg (fun n => min Config.u64Max (n + 1)) ((State.ctr_congr rfl).trans (State.ctr_congr k.counters))

/-- A job whose targets are written ends: its state stands in its header, and it is counted. -/
theorem State.closeJob_ended (hh : s.hank? h = some r) (hj : s.job? h slot = some j) (hst : j.stage = 2) (hp : s.paged r.desc = false)
    (hq : s.tier.presence = []) : State.JobEnded h slot s (State.closeJob h slot s) := by
  have hr : s.offReady r (State.jobOff slot) = true := by simp only [State.offReady, hp, Bool.not_false, Bool.true_or]
  unfold State.closeJob
  simp only [hh, hj, hst, hr, State.coherent_alone _ hq, Bool.not_true, Bool.false_eq_true, if_false, if_true]
  simp only [show ((2 : Nat) = 5) = False by simp, show ((2 : Nat) = 4) = False by simp, show ((2 : Nat) = 3) = False by simp, if_false]
  have hw (b : Bool) (bs : Bytes) :
      Stored s (State.putJobState r slot 3 0 (if b = true then State.offWrite r (State.jobOff slot + 88) bs s else s)) := by
    cases b
    · exact State.putJobState_stored _ _ _ hp
    · have h1 := State.offWrite_stored (State.jobOff slot + 88) bs hp
      exact h1.trans (State.putJobState_stored _ _ _ ((h1.paged _).trans hp))
  have hz := hw (decide ((readJob (s.offRead r (State.jobOff slot) 128)).op = 3)) (toLE 8 j.result)
  simp only [decide_eq_true_eq] at hz
  exact State.jobEnded_of hz _ _

/-- An end of a job counts from any state that a write of its targets has led to. -/
theorem State.JobEnded.from {u : State} (k : State.JobEnded h slot t u) (hc : t.ctr 0x5040 0x0E = s.ctr 0x5040 0x0E)
    (h1 : t.regs = s.regs) (h2 : t.hanks = s.hanks) (h3 : t.fr = s.fr) (h4 : t.pantry = s.pantry) : State.JobEnded h slot s u := by
  obtain ⟨e1, e2, e3, e4, e5, e6⟩ := k
  exact ⟨e1, by rw [e2, hc], e3.trans h1, e4.trans h2, e5.trans h3, e6.trans h4⟩

/-- With no target in the cellar the targets are written and the job ends. -/
theorem State.putTargets_ended (ts : List (Nat × Bytes)) (hh : s.hank? r.hank = some r) (hj : s.job? r.hank slot = some j)
    (hp : s.paged r.desc = false) (hq : s.tier.presence = []) : State.JobEnded r.hank slot s (State.putTargets r slot ts s) := by
  have ht (o : Nat) : s.offTier r o = 0 := by simp only [State.offTier, hp, Bool.false_eq_true, if_false]
  have hf (l : List (Nat × Bytes)) : l.filter (fun x => s.offTier r x.1 == 2) = [] := by
    simp only [ht, List.filter_eq_nil_iff, beq_iff_eq]
    omega
  unfold State.putTargets
  simp only [hf, List.isEmpty_nil, if_true, List.map_nil]
  have hw (l : List (Nat × Bytes)) (u : State) (hu : Stored s u) :
      Stored s (forEach l (fun (x : Nat × Bytes) st => if st.offTier r x.1 = 2 then st else st.offWrite r x.1 x.2) u) := by
    induction l generalizing u with
    | nil => exact hu
    | cons x xs ih =>
      refine ih _ ?_
      dsimp only
      split
      · exact hu
      · exact hu.trans (State.offWrite_stored _ _ ((hu.paged _).trans hp))
  generalize hz : forEach _ _ s = z
  have hsz : Stored s z := hz ▸ hw _ _ (.refl s)
  have hjz : z.job? r.hank slot = some j := by rw [State.job?, hsz.off]; exact hj
  have hhz : z.hank? r.hank = some r := by rw [State.hank?, hsz.hanks]; exact hh
  have he := State.closeJob_ended (s := State.updJob r.hank slot (fun j => { j with stage := 2, want := [], got := [] }) z) hhz
    (State.job?_updJob hjz (fun _ => ⟨rfl, rfl⟩)) rfl ((hsz.paged _).trans hp) ((congrArg TierSt.presence hsz.tier).trans hq)
  exact he.from ((State.ctr_congr rfl).trans (State.ctr_congr hsz.counters)) hsz.regs hsz.hanks hsz.fr hsz.pantry

/-- A check-value job keeps its context and ends with the value. -/
theorem State.twisted_ended (c v : Nat) (x : TwistCtx) (hh : s.hank? r.hank = some r) (hj : s.job? r.hank slot = some j)
    (hp : s.paged r.desc = false) (hq : s.tier.presence = []) :
    State.JobEnded r.hank slot s ((((s.putTwist c x).bump 0x50B0 0x04 1).updJob r.hank slot
      (fun y => { y with stage := 2, got := [], result := v })).closeJob r.hank slot) := by
  have hz : ((s.putTwist c x).bump 0x50B0 0x04 1).job? r.hank slot = some j := hj
  have he := State.closeJob_ended (h := r.hank) (slot := slot) (r := r)
    (s := State.updJob r.hank slot (fun y => { y with stage := 2, got := [], result := v }) ((s.putTwist c x).bump 0x50B0 0x04 1)) hh
    (State.job?_updJob hz (fun _ => ⟨rfl, rfl⟩)) rfl hp hq
  refine he.from ?_ rfl rfl rfl rfl
  exact (State.ctr_congr (s := (s.putTwist c x).bump 0x50B0 0x04 1) rfl).trans
    ((State.ctr_bump_ne (by decide)).trans (State.ctr_congr rfl))

/-- A job in a hank of which no die holds a copy runs to its end. -/
theorem State.runJob_ended (hh : s.hank? r.hank = some r) (hj : s.job? r.hank j.slot = some j) (hp : s.paged r.desc = false)
    (hq : s.tier.presence = []) : State.JobEnded r.hank j.slot s (State.runJob r j hdr s) := by
  have hw (l : List (Nat × Nat)) : s.pagesWay r (l.map (fun x => x.1)) = (s, .go) := by
    simp only [State.pagesWay, hp, Bool.not_false, if_true]
  have hl (l : List (Nat × Nat)) : l.any (fun x => s.offTier r x.1 == 3 || s.offLost r x.1) = false := by
    simp only [State.offTier, State.offLost, hp, Bool.false_eq_true, if_false, Bool.false_and, Bool.or_false, List.any_eq_false]
    simp
  unfold State.runJob
  simp only [hw, hl, State.coherent_alone _ hq, Bool.not_true, Bool.or_false, Bool.false_eq_true, if_false, beq_iff_eq, reduceCtorEq]
  split
  · exact State.twisted_ended _ _ _ hh hj hp hq
  · exact State.putTargets_ended _ hh hj hp hq

/-- A job whose header and sources are at hand and can be read, and whose context is free, runs. -/
theorem State.jobComplete_ready (hh : s.hank? h = some r) (hj : s.job? h slot = some j) (h1 : j.stage = 0) (h2 : j.want = [])
    (h3 : s.offReady r (State.jobOff slot) = true) (h4 : s.contextBusy j (readJob (s.offRead r (State.jobOff slot) 128)) = false) :
    let hdr := readJob (s.offRead r (State.jobOff slot) 128)
    let spans := hdr.sources.flatMap (fun b => State.offPieces (hdr.block b) hdr.len)
    let near := spans.filter (fun x => !j.got.any (fun g => g.1 == x.1))
    let s1 := forEach near (fun x st => State.offAsk r x.1 x.2 st) s
    (∀ x ∈ spans, s.offLost r x.1 = false) → (∀ x ∈ near, s.offTier r x.1 ≠ 2) → (∀ x ∈ near, s1.offBad r x.1 x.2 = false) →
      s.jobComplete h slot = State.runJob r j hdr s1 := by
  intro hdr spans near s1 hlost htier hbad
  have hl : spans.any (fun x => s.offLost r x.1) = false := List.any_eq_false.mpr (fun x hx => by rw [hlost x hx]; decide)
  have hf : spans.filter (fun x => s.offTier r x.1 == 2 && !j.got.any (fun g => g.1 == x.1)) = [] := by
    refine List.filter_eq_nil_iff.mpr (fun x hx hc => ?_)
    rw [Bool.and_eq_true, beq_iff_eq] at hc
    exact htier x (List.mem_filter.mpr ⟨hx, hc.2⟩) hc.1
  have hb : near.any (fun x => s1.offBad r x.1 x.2) = false := List.any_eq_false.mpr (fun x hx => by rw [hbad x hx]; decide)
  simp only [hdr, spans, near, s1] at hl hf hb ⊢
  simp only [State.jobComplete, hh, hj, h1, h2, h3, h4, hl, hf, hb, show ¬ (2 ≤ 0) by omega, bne_self_eq_false, List.isEmpty_nil,
    Bool.not_true, Bool.or_self, Bool.false_eq_true, if_false]

/-- Reads of an offload job that are all answered OK only ask. -/
theorem State.offAsks_clean (l : List (Nat × Nat)) (ha : s.ans = .clean) :
    Asked s (forEach l (fun x st => State.offAsk r x.1 x.2 st) s) :=
  .forEach _ _ (fun _ _ ht => State.offAsk_clean _ _ _ (ht.ans.trans ha))

end

theorem exec_offloadJobComplete (h slot : BitVec 12) (mem : MemAns) (s : State) : exec (.offloadJobComplete h slot mem) s =
    .next (State.finish (State.settleAll (State.jobComplete h.toNat slot.toNat (State.begun mem s)))) := rfl

/-- Settles O28: the job runs, and in a hank of which no die holds a copy it ends. -/
theorem offloadJobRuns : Obligations.OffloadJobRuns := by
  intro h slot mem r j s s0 hh hj h1 h2 h3 hdr spans near h4
  rw [exec_offloadJobComplete]
  refine ⟨?runs, ?ends⟩
  case runs =>
    intro s1 hlost htier hbad
    exact congrArg (fun t => Host.Outcome.next (State.finish (State.settleAll t)))
      (State.jobComplete_ready hh hj h1 h2 h3 h4 hlost htier hbad)
  case ends =>
    intro hmem hp hq hbb
    subst hmem
    have ha : s0.ans = .clean := congrArg State.ans (State.begun_clean s)
    obtain hk : r.hank = h.toNat := by simpa using List.find?_some (p := fun r : HankRt => r.hank == h.toNat) hh
    have hjk := List.find?_some (p := fun y : JobRt => y.hank == h.toNat && y.slot == slot.toNat) hj
    obtain ⟨hjh, hjs⟩ : j.hank = h.toNat ∧ j.slot = slot.toNat := by simpa using hjk
    have hs1 := State.offAsks_clean (r := r) near ha
    generalize hz : forEach near (fun x st => State.offAsk r x.1 x.2 st) s0 = s1 at hs1
    have hpt : s1.paged r.desc = false := by obtain ⟨o, rfl⟩ := hs1; exact hp
    have hrun : s0.jobComplete h.toNat slot.toNat = State.runJob r j hdr s1 := by
      rw [← hz]
      refine State.jobComplete_ready hh hj h1 h2 h3 h4 (fun x _ => ?_) (fun x _ => ?_) (fun x _ => ?_)
      · simp only [State.offLost, hp, Bool.false_and]
      · simp only [State.offTier, hp, Bool.false_eq_true, if_false]
        omega
      · have hb1 : s1.scrub.badBlocks = [] := by obtain ⟨o, rfl⟩ := hs1; exact hbb
        rw [hz]
        simp only [State.offBad, hpt, Bool.false_eq_true, if_false, State.spanBad, hb1, List.isEmpty_nil, if_true]
    have hj1 : s1.job? r.hank j.slot = some j := by rw [hk, hjs]; obtain ⟨o, rfl⟩ := hs1; exact hj
    have he := State.runJob_ended (hdr := hdr) ((hs1.hank _).trans (hk.symm ▸ hh)) hj1 hpt (by obtain ⟨o, rfl⟩ := hs1; exact hq)
    rw [hk, hjs] at he
    refine ⟨_, congrArg (fun t => Host.Outcome.next (State.finish (State.settleAll t))) hrun, ?_⟩
    obtain ⟨o, rfl⟩ := hs1
    exact he

end Sys2Proof.Machine
end

section
/-! PROOFS. Reads and atomics on the porch (R41 to R51, R57, R263, R291). -/

namespace Sys2Proof.Machine

/-! ## Lists without repetition -/

theorem mem_of_nub {α : Type} [BEq α] {l : List α} {a : α} (h : a ∈ nub l) : a ∈ l := by
  have fold (l acc : List α) (h : a ∈ l.foldl (fun acc a => if acc.contains a then acc else acc ++ [a]) acc) : a ∈ acc ∨ a ∈ l := by
    induction l generalizing acc with
    | nil => exact .inl h
    | cons x xs ih =>
      rcases ih _ h with h | h
      · dsimp only at h
        split at h
        · exact .inl h
        · rcases List.mem_append.mp h with h | h
          · exact .inl h
          · exact .inr (List.mem_singleton.mp h ▸ List.mem_cons_self)
      · exact .inr (List.mem_cons_of_mem x h)
  exact (fold l [] h).resolve_left List.not_mem_nil

/-! ## What a read fetches -/

section
variable {s t : State} {q : HallReq} {r : HankRt} {mem : MemAns}

/-- With every read answered, and the first mask copy good where it is read, a mask map is only asked for. -/
theorem State.readMaskAt_clean {h : Nat} {offs : List Nat} (hh : s.hank? h = some r)
    (hm : ∀ o ∈ offs, s.maskCopyBad r 0 (o / Config.stripe) = false) : Asked s (State.readMaskAt h offs .clean s) := by
  have ha := State.takeMem_clean (s.maskBlocksAt r 0 offs) s
  have hb : (nub (offs.map (fun o => o / Config.stripe))).filter
      (fun t => (State.takeMem .clean (s.maskBlocksAt r 0 offs) s).maskCopyBad r 0 t) = [] := by
    refine List.filter_eq_nil_iff.mpr (fun t ht => ?_)
    obtain ⟨o, ho, rfl⟩ := List.mem_map.mp (mem_of_nub ht)
    obtain ⟨p, hp⟩ := ha
    rw [hp, show (({ s with out := s.out ++ p } : State).maskCopyBad r 0 (o / Config.stripe)) = false from hm o ho]
    decide
  unfold State.readMaskAt
  simp only [hh, hb, List.isEmpty_nil, if_true]
  exact ha

/-- A read whose accesses are all answered OK only asks, where the first copy of the mask that it needs is good. -/
theorem State.askRead_clean (ha : s.ans = .clean) (hr : s.maskHank r = some r) (hh : s.hank? r.hank = some r)
    (hm : ∀ o ∈ readMaskOffs r q, s.maskCopyBad r 0 (o / Config.stripe) = false) : Asked s (State.askRead r q .clean s) := by
  have h1 := State.askMaps_clean r q ha
  have h2 := h1.trans (State.takeMem_clean (nub ((State.askMaps r q s).readBlocks r q)) (State.askMaps r q s))
  have h3 := h2.trans (State.takeLines_clean (nub ((State.takeMem .clean (nub ((State.askMaps r q s).readBlocks r q))
    (State.askMaps r q s)).readLines r q)) _)
  unfold State.askRead
  dsimp only
  generalize State.takeLines .clean _ _ = u at h3 ⊢
  have hu : u.maskHank r = some r := by
    obtain ⟨p, rfl⟩ := h3
    exact hr
  rw [hu]
  refine h3.trans (State.readMaskAt_clean ((h3.hank _).trans hh) (fun o ho => ?_))
  obtain ⟨p, rfl⟩ := h3
  exact hm o ho

/-- A read that is granted, and asks for no cached copy, is served once it has fetched what it needs. -/
theorem State.hallRead_served {r2 : HankRt} (hw : s.wholeStatus q .read = none) (hh : s.hank? q.hank.toNat = some r) (h20 : q.region ≠ 0x20)
    (h1 : hasRegion r.desc q.region = true) (h2 : granted r.desc r.state q.region q.view.toNat .read = true) (hc : q.caches = false)
    (hr : (State.askRead r q mem (State.countLate r.desc s)).hank? q.hank.toNat = some r2) :
    State.hallRead q mem s = State.serveRead r2 q (State.askRead r q mem (State.countLate r.desc s)) := by
  have hm : mayCache r2 q = false := by simp only [mayCache, hc, Bool.false_and]
  simp only [State.hallRead, hw, hh, if_neg h20, h1, h2, Bool.and_self, if_true, hr, State.readOrHold, hm, Bool.false_eq_true, if_false]

theorem State.respond_ok (bs : Bytes) (side : Nat) (s : State) : State.respond q [Beat.ok bs side] s =
    s.emit (.hall q.ch.toNat q.way.toNat q.tag.toNat true .ok (fit 128 bs) side) := rfl

/-! ## What the reel counts -/

/-- Beside the reel's account, the counts, the answers that stand ready and the output ports, nothing has changed. -/
def Reeled (s t : State) : Prop :=
  ∃ (reel : List Nat) (counters : List (Nat × Nat)) (ans : MemAns) (out : List Out),
    t = { s with whorl := { s.whorl with reelBytes := reel }, counters := counters, ans := ans, out := out }

theorem Reeled.refl (s : State) : Reeled s s := ⟨_, _, _, _, rfl⟩

theorem Reeled.trans {u : State} (h : Reeled s t) (k : Reeled t u) : Reeled s u := by
  obtain ⟨_, _, _, _, rfl⟩ := h
  obtain ⟨a, b, c, d, rfl⟩ := k
  exact ⟨a, b, c, d, rfl⟩

theorem Reeled.forEach {α : Type} {f : α → State → State} (hf : ∀ x u, Reeled u (f x u)) (l : List α) (s : State) :
    Reeled s (Sys2Proof.Machine.forEach l f s) := by
  induction l generalizing s with
  | nil => exact .refl s
  | cons x xs ih => exact (hf x s).trans (ih _)

theorem Reeled.of_asked (h : Asked s t) : Reeled s t := by
  obtain ⟨o, rfl⟩ := h
  exact ⟨_, _, _, _, rfl⟩

theorem State.bump_reeled (i k n : Nat) (s : State) : Reeled s (State.bump i k n s) := ⟨_, _, _, _, rfl⟩

theorem State.chargeReel_reeled (ch n : Nat) (s : State) : Reeled s (State.chargeReel ch n s) := by
  have h : Reeled s { s with whorl := { s.whorl with reelBytes := addAt s.whorl.reelBytes ch n } } := ⟨_, _, _, _, rfl⟩
  unfold State.chargeReel
  dsimp only
  split
  · split
    · exact h.trans (State.bump_reeled ..)
    · exact h
  · exact h

theorem Reeled.regionBytes (h : Reeled s t) (k o n : Nat) : t.regionBytes r k o n = s.regionBytes r k o n := by
  obtain ⟨_, _, _, _, rfl⟩ := h; rfl

/-- What a read that has been counted and answered leaves as it was. -/
theorem Reeled.same (h : Reeled s t) : t.hearth = s.hearth ∧ t.pantry = s.pantry ∧ t.nv = s.nv ∧ t.hanks = s.hanks ∧ t.regs = s.regs ∧
    t.fr = s.fr := by
  obtain ⟨_, _, _, _, rfl⟩ := h
  exact ⟨rfl, rfl, rfl, rfl, rfl, rfl⟩

/-! ## A beat of a SCRATCH hank -/

theorem State.dataBeat_scratch {o : Nat} (hc : r.desc.cls = 7) (hp : s.paged r.desc = false) (ho : o < regionSpan r.desc 0)
    (hb : s.scrub.badBlocks = []) : s.dataBeat r o = (State.chargeReel (o / Config.stripe % s.C) 128 s,
      Beat.ok ((s.spanRead (r.desc.base 0) o 128).take (r.desc.count - o)) 0) := by
  have hcls : (decide (r.desc.cls = 1) && decide (0 < 5)) = false := by simp [hc]
  have hbad : s.regionBad r 0 o 128 = false := by
    simp only [State.regionBad, hcls, State.spanBad, hb, List.isEmpty_nil, Bool.false_eq_true, if_false, if_true]
  have hread : s.regionBytes r 0 o 128 = s.spanRead (r.desc.base 0) o 128 := if_neg (by simp [hc])
  have hread' : (State.chargeReel (o / Config.stripe % s.C) 128 s).regionBytes r 0 o 128 = s.regionBytes r 0 o 128 :=
    (State.chargeReel_reeled ..).regionBytes ..
  simp only [State.dataBeat, if_neg (Nat.not_le.mpr ho), hp, hbad, Bool.false_eq_true, if_false, hread', hread]

/-- A plain read of one beat of a SCRATCH hank that is not paged charges its channel's reel and returns the bytes. -/
theorem State.serveRead_scratch (hl : q.len = 1) (hv : q.view = 0) (hc : r.desc.cls = 7) (hp : s.paged r.desc = false)
    (ho : q.off < regionSpan r.desc 0) (hb : s.scrub.badBlocks = []) : ∃ u : State, Reeled s u ∧
      State.serveRead r q s = u.emit (.hall q.ch.toNat q.way.toNat q.tag.toNat true .ok
        (fit 128 ((s.spanRead (r.desc.base 0) q.off 128).take (r.desc.count - q.off))) 0) := by
  have ht : transposed q = false := by simp [transposed, hv]
  have hn : q.len.toNat = 1 := by rw [hl]; rfl
  have hbeat : State.readBeat r q 0 s = s.dataBeat r (q.off + 128 * 0) := by
    simp only [State.readBeat, hc]
  refine ⟨State.countUnlisted r (s.errorsOf r (s.readCodes r q)) (State.chargeReel (q.off / Config.stripe % s.C) 128 s),
    (State.chargeReel_reeled ..).trans (State.bump_reeled ..), ?_⟩
  simp only [State.serveRead, ht, hn, State.runBeats, List.range_one, List.foldl_cons, List.foldl_nil, hbeat, Nat.mul_zero, Nat.add_zero,
    State.dataBeat_scratch hc hp ho hb, Bool.false_eq_true, if_false, List.nil_append, State.respond_ok]

theorem State.dataBeat_outside {o : Nat} (ho : regionSpan r.desc 0 ≤ o) : s.dataBeat r o = (State.bump 0x5010 0x02 1 s, Beat.stop .poison) :=
  if_pos ho

end

/-- The row of a read that comes in with a selector of its own. -/
theorem exec_porchPlainRead {q : HallReq} {mem : MemAns} {s : State} (hq : q.ch.toNat < s.C) (ho : q.op.toNat < 3) (hv : q.view.toNat < 5) :
    exec (.porchPlainRead q mem) s = .next (State.finish (State.settleAll
      (State.takeHall (readAs 0 q) [] (State.hallRead (readAs 0 q) mem) (State.begun mem s)))) := by
  have h : exec (.porchPlainRead q mem) s = .next (State.finish (State.settleAll
      (if 3 ≤ q.op.toNat then State.portOther q (State.begun mem s) else if 5 ≤ q.view.toNat then
        State.portRead (readAs q.view q) mem (State.begun mem s) else State.portRead (readAs 0 q) mem (State.begun mem s)))) :=
    if_pos (decide_eq_true hq)
  rw [h, if_neg (by omega), if_neg (by omega)]
  rfl

/-- Settles O30: the beat, and the read of one such beat. -/
theorem scratchBeatReturnsItsBytes : Obligations.ScratchBeatReturnsItsBytes := by
  refine ⟨fun r o s hc hp => ⟨fun ho hb => State.dataBeat_scratch hc hp ho hb, State.dataBeat_outside⟩, ?_⟩
  intro q r s hq hr hop ht ho hv hreg hl hcache hh hc hp hw hg hoff hb
  rw [exec_porchPlainRead hq (by rw [ho]; decide) (by rw [hv]; decide), State.begun_clean]
  generalize hs0 : ({ s with out := [], ans := .clean } : State) = s0
  have hreg' : (readAs 0 q).region = 0 := hreg
  have hlate : State.countLate r.desc s0 = s0 := if_neg (by simp [hc])
  obtain hk : r.hank = q.hank.toNat := by simpa using List.find?_some (p := fun r : HankRt => r.hank == q.hank.toNat) hh
  have hh0 : s0.hank? q.hank.toNat = some r := by subst hs0; exact hh
  have hask : Asked s0 (State.askRead r (readAs 0 q) .clean s0) := by
    have hoffs : State.readMaskOffs r (readAs 0 q) = [] := by
      rw [State.readMaskOffs, if_neg (by rw [hreg']; decide)]
      exact if_pos (by rw [hc]; simp)
    refine State.askRead_clean (by subst hs0; rfl) (by simp [State.maskHank, hc]) (hk ▸ hh0) (by rw [hoffs]; simp)
  have hserve := State.hallRead_served (s := s0) (q := readAs 0 q) (mem := .clean) (r := r) (r2 := r) (by subst hs0; exact hw) hh0
    (by rw [hreg']; decide) (by rw [hreg']; rfl) (by rw [hreg']; exact hg) hcache (by rw [hlate]; exact (hask.hank _).trans hh0)
  rw [hlate] at hserve
  have hs1 : Reeled s0 (State.askRead r (readAs 0 q) .clean s0) := .of_asked hask
  have hsame : ∀ u : State, Asked s0 u → u.paged r.desc = false ∧ u.scrub.badBlocks = [] ∧
      u.spanRead (r.desc.base 0) q.off 128 = s.spanRead (r.desc.base 0) q.off 128 := by
    rintro u ⟨p, rfl⟩
    subst hs0
    exact ⟨hp, hb, rfl⟩
  obtain ⟨hp1, hb1, hread⟩ := hsame _ hask
  obtain ⟨u, hu, hru⟩ := State.serveRead_scratch (q := readAs 0 q) hl rfl hc hp1 hoff hb1
  have hend : State.takeHall (readAs 0 q) [] (State.hallRead (readAs 0 q) .clean) s0 = u.emit
      (.hall q.ch.toNat q.way.toNat q.tag.toNat true .ok (fit 128 ((s.spanRead (r.desc.base 0) q.off 128).take (r.desc.count - q.off))) 0) := by
    refine (State.takeHall_served (by subst hs0; exact hr) (by subst hs0; exact hop) (by subst hs0; exact ht)).trans ?_
    rw [hserve, hru]
    exact congrArg (fun bs => State.emit (.hall q.ch.toNat q.way.toNat q.tag.toNat true .ok (fit 128 (bs.take (r.desc.count - q.off))) 0) u) hread
  obtain ⟨f1, f2, f3, f4, f5, f6⟩ := (hs1.trans hu).same
  subst hs0
  exact ⟨_, u.out, congrArg (fun t => Host.Outcome.next (State.finish (State.settleAll t))) hend, rfl, f1, f2, f3, f4, f5, f6⟩

/-! ## The whorl window -/

section
variable {s : State} {q : HallReq} {r : HankRt}

theorem State.wholeStatus_bump (i k n : Nat) (q : HallReq) (op : HallOp) (s : State) :
    (State.bump i k n s).wholeStatus q op = s.wholeStatus q op := by
  have h : Reeled s (State.bump i k n s) := State.bump_reeled ..
  obtain ⟨_, _, _, _, h⟩ := h
  rw [h]
  rfl

/-- A beat of the whorl window returns sixteen words, and counts and charges them. -/
theorem State.windowBeat_served {tables : TableSet} {seed shape stream step o : Nat} (ho : o < 2 ^ 21) (hop : s.fr.opened = true) :
    s.windowBeat tables seed shape stream step o =
      (State.chargeWindow ((stream * 512 + o / Config.stripe) % s.C) 128 ((s.bump 0x5080 0x01 1).bump 0x5080 0x08 16),
        Beat.ok ((List.range 16).flatMap (fun i => shapeBytes shape (Sys2Proof.Machine.whorl tables seed step stream (o / 8 + i)))) 0) := by
  simp only [State.windowBeat, if_neg (Nat.not_le.mpr ho), hop, Bool.not_true, Bool.false_eq_true, if_false]
  rfl

/-- A window read of one beat while every table bank is whole. -/
theorem State.hallRead_window (hw : s.wholeStatus q .read = none) (hh : s.hank? q.hank.toNat = some r) (hreg : q.region = 0x20)
    (hl : q.len = 1) (hbank : s.whorl.badBanks = []) (hop : s.fr.opened = true) :
    let stream := q.off / 2 ^ 21 % 65536
    let o := q.off % 2 ^ 21
    State.hallRead q .clean s = State.emit (.hall q.ch.toNat q.way.toNat q.tag.toNat true .ok
      (fit 128 ((List.range 16).flatMap (fun i => shapeBytes (q.off / 2 ^ 37)
        (Sys2Proof.Machine.whorl s.whorl.tables (s.seedOf q.hank.toNat 1) s.fr.step stream (o / 8 + i))))) 0)
      (State.chargeWindow ((stream * 512 + o / Config.stripe) % s.C) 128 (State.bump 0x5080 0x08 16 (State.bump 0x5080 0x01 1 s))) := by
  intro stream o
  have hb : s.banksWhole q = true := by simp only [State.banksWhole, hbank, List.isEmpty_nil, Bool.true_or]
  have hn : q.len.toNat = 1 := by rw [hl]; rfl
  have ho : q.off % 2 ^ 21 < 2 ^ 21 := Nat.mod_lt _ (by decide)
  simp only [State.hallRead, hw, hh, hreg, if_true, State.readWindow, hb, State.serveWindow, State.runBeats, hn, List.range_one,
    List.foldl_cons, List.foldl_nil, Nat.mul_zero, Nat.add_zero, State.windowBeat_served ho hop, List.nil_append, State.respond_ok]
  rfl

end

theorem exec_whorlWindowRead {q : HallReq} {waited : BitVec 32} {mem : MemAns} {s : State} (hq : q.ch.toNat < s.C) :
    exec (.whorlWindowRead q waited mem) s = .next (State.finish (State.settleAll
      (State.portWindow (readAs 4 q) waited.toNat (State.begun mem s)))) := if_pos (decide_eq_true hq)

/-- Settles O31: the beat counts after the clocks that it waited. -/
theorem whorlWindowReturnsWords : Obligations.WhorlWindowReturnsWords := by
  intro q waited mem r s s0 hq hr hop ht hw hh hreg hl hbank hopen stream o data s1
  have hreg' : (readAs 4 q).region = 0x20 := hreg
  rw [exec_whorlWindowRead hq]
  refine congrArg (fun t => Host.Outcome.next (State.finish (State.settleAll t))) ?_
  refine (State.takeHall_served (q := readAs 4 q) hr hop ht).trans ?_
  have hc : ((readAs 4 q).region = 0x20 && (s0.wholeStatus (readAs 4 q) .read).isNone) = true := by
    rw [hw, hreg']
    rfl
  have hw1 := (State.wholeStatus_bump 0x5080 0x03 waited.toNat (readAs 4 q) .read s0).trans hw
  refine (congrArg (State.hallRead (readAs 4 q) .clean) (if_pos hc)).trans ?_
  exact State.hallRead_window (s := State.bump 0x5080 0x03 waited.toNat s0) (q := readAs 4 q) hw1 hh hreg hl hbank hopen

/-! ## Atomics -/

section
variable {s : State} {q : HallReq} {w : WBeat} {r : HankRt} {op : State.AtomicOp} {v : Nat}

/-- A read has been answered well: beside the counts, the health of the period and the output ports, nothing has changed. -/
def Fetched (s t : State) : Prop :=
  ∃ (house : HouseSt) (counters : List (Nat × Nat)) (out : List Out), t = { s with house := house, counters := counters, out := out }

theorem State.takeMem_fetched {mem : MemAns} {blocks : List Nat} (h : ∀ b ∈ blocks, b ∉ mem.bad) : Fetched s (State.takeMem mem blocks s) := by
  have hb : (blocks.filter (fun b => !s.blockWritten b)).filter (fun b => mem.bad.contains b) = [] := by
    refine List.filter_eq_nil_iff.mpr (fun b hb hc => ?_)
    exact h b (List.mem_filter.mp hb).1 (List.contains_iff_mem.mp hc)
  have ha : Asked s (forEach (blockRuns (blocks.filter (fun b => !s.blockWritten b))) (fun r st => st.askBlocks r.1 r.2) s) :=
    .forEach _ _ (fun _ t _ => .emit _ t)
  unfold State.takeMem
  simp only [hb, List.isEmpty_nil, if_true]
  obtain ⟨o, ho⟩ := ha
  rw [ho]
  split
  · exact ⟨_, _, _, rfl⟩
  · unfold State.countCorrected
    split <;> exact ⟨_, _, _, rfl⟩

theorem Fetched.framedHank {t : State} (h : Fetched s t) : t.framedHank r = s.framedHank r := by obtain ⟨_, _, _, rfl⟩ := h; rfl
theorem Fetched.spanRead {t : State} (h : Fetched s t) (b o n : Nat) : t.spanRead b o n = s.spanRead b o n := by
  obtain ⟨_, _, _, rfl⟩ := h; rfl
theorem Fetched.paged {t : State} (h : Fetched s t) (d : Desc) : t.paged d = s.paged d := by obtain ⟨_, _, _, rfl⟩ := h; rfl
theorem Fetched.scrub {t : State} (h : Fetched s t) : t.scrub = s.scrub := by obtain ⟨_, _, _, rfl⟩ := h; rfl
theorem Stored.framedHank {t : State} (h : Stored s t) : t.framedHank r = s.framedHank r := by obtain ⟨_, _, _, rfl⟩ := h; rfl

/-- The mark that a step's record takes of a FADD of the framed job (R293). -/
def State.fadded (b : Bool) (s : State) : State := { s with led := { s.led with fadd := s.led.fadd || b } }

theorem State.fadded_eq (b : Bool) (s : State) :
    State.fadded b s = if b = true then { s with led := { s.led with fadd := true } } else s := by
  cases b
  · simp [State.fadded]
  · simp [State.fadded]

/-- The read-modify-write of an atomic on a hank that is not paged. -/
theorem State.execAtomic_done (hp : s.paged r.desc = false)
    (hv : atomicNew op.code op.width r.desc.unordered (leNat (s.spanRead (r.desc.base 0) op.off op.width)) op.a op.b = some v) :
    State.execAtomic r op s = (let s1 := State.spanWrite (r.desc.base 0) op.off (toLE op.width v) s
      State.bump 0x5090 0x0F 1 (State.fadded (decide (op.code = 7) && s.framedHank r) s1),
      .done (leNat (s.spanRead (r.desc.base 0) op.off op.width))) := by
  have hw := State.spanWrite_stored (r.desc.base 0) op.off (toLE op.width v) s
  simp only [State.execAtomic, State.sharedRead, State.sharedWrite, hp, Bool.false_eq_true, if_false, hv, hw.paged, hw.framedHank,
    State.fadded_eq, Bool.and_eq_true, decide_eq_true_eq]

/-- An atomic in the right form on a SHARED hank that is not paged, whose word can be read and of which no die holds a copy, is done. -/
theorem State.runAtomic_done {writer : Option Nat} (hok : State.atomicOk r op = true) (hp : s.paged r.desc = false)
    (hpr : s.tier.presence = []) (ho : op.off < regionSpan r.desc 0) (hb : s.scrub.badBlocks = [])
    (hgood : ∀ b ∈ s.regionBlocks r 0 (op.off / 128 * 128) 128, b ∉ s.ans.bad)
    (hv : atomicNew op.code op.width r.desc.unordered (leNat (s.spanRead (r.desc.base 0) op.off op.width)) op.a op.b = some v) :
    let s1 := State.spanWrite (r.desc.base 0) op.off (toLE op.width v)
      (State.takeMem s.ans (s.regionBlocks r 0 (op.off / 128 * 128) 128) s)
    State.runAtomic r op writer s = (State.bump 0x5090 0x0F 1 (State.fadded (decide (op.code = 7) && s.framedHank r) s1),
      .done (leNat (s.spanRead (r.desc.base 0) op.off op.width))) := by
  intro s1
  have hc : r.desc.cls = 5 := by
    simp only [State.atomicOk, Bool.and_eq_true, beq_iff_eq] at hok
    exact hok.1.1
  have hm : Fetched s (State.takeMem s.ans (s.regionBlocks r 0 (op.off / 128 * 128) 128) s) := State.takeMem_fetched hgood
  have hway : s.pagesWay r [op.off] = (s, .go) := by simp only [State.pagesWay, hp, Bool.not_false, if_true]
  have hco (ks : List PageKey) : s.coherent ks writer = true := by
    simp only [State.coherent, hpr, List.isEmpty_nil, Bool.true_or]
  have hask : State.askShared r op.off s = State.takeMem s.ans (s.regionBlocks r 0 (op.off / 128 * 128) 128) s := by
    simp only [State.askShared, hp, Bool.false_eq_true, if_false]
  have hbad : (State.takeMem s.ans (s.regionBlocks r 0 (op.off / 128 * 128) 128) s).sharedBad r op.off = false := by
    have hn : (decide (r.desc.cls = 1) && decide (0 < 5)) = false := by simp [hc]
    simp only [State.sharedBad, hm.paged, hp, State.regionBad, hn, State.spanBad, hm.scrub, hb, List.isEmpty_nil, Bool.false_eq_true,
      if_false, if_true]
  have hex := State.execAtomic_done ((hm.paged _).trans hp) (by rw [hm.spanRead]; exact hv)
  rw [hm.spanRead, hm.framedHank] at hex
  simp only [State.runAtomic, if_neg (Nat.not_le.mpr ho), hway, hp, hco, hask, hbad, Bool.false_and, Bool.not_true, Bool.false_eq_true,
    if_false, beq_iff_eq, reduceCtorEq, hex, s1]

/-- An atomic in the right form on a LIVE SHARED hank that is not paged, whose word can be read, is done and answered. -/
theorem State.hallAtomic_done (hh : s.hank? q.hank.toNat = some r) (hf : s.fencedHank r.desc = false)
    (hop : State.porchAtomicOp q w = some op) (hok : State.atomicOk r op = true) (hst : r.state = 2) (hp : s.paged r.desc = false)
    (hpr : s.tier.presence = []) (ho : op.off < regionSpan r.desc 0) (hb : s.scrub.badBlocks = [])
    (hgood : ∀ b ∈ s.regionBlocks r 0 (op.off / 128 * 128) 128, b ∉ s.ans.bad)
    (hv : atomicNew op.code op.width r.desc.unordered (leNat (s.spanRead (r.desc.base 0) op.off op.width)) op.a op.b = some v) :
    let s1 := State.spanWrite (r.desc.base 0) op.off (toLE op.width v)
      (State.takeMem s.ans (s.regionBlocks r 0 (op.off / 128 * 128) 128) s)
    State.hallAtomic q w s = State.respond q
      [Beat.ok (zeros (op.off % 128) ++ toLE op.width (leNat (s.spanRead (r.desc.base 0) op.off op.width))) 0]
      (State.bump 0x5090 0x0F 1 (State.fadded (decide (op.code = 7) && s.framedHank r) s1)) := by
  intro s1
  have hrun := State.runAtomic_done (writer := q.writer) hok hp hpr ho hb hgood hv
  simp only [State.hallAtomic, hh, hf, hp, State.tryAtomic, hop, hok, hst, hrun, Bool.not_true, bne_self_eq_false, Bool.false_and,
    Bool.false_eq_true, if_false, State.answerAtomic, beq_iff_eq, reduceCtorEq, if_true, s1]

end

end Sys2Proof.Machine
end

section
/-! PROOFS. What a READ of the porch is answered (R44 to R51, R55, R57, R342, Table 2.9, Table 12.4). -/

namespace Sys2Proof.Machine

/-! ## The rows of a read -/

section
variable {q : HallReq} {mem : MemAns} {s : State} {x : Instr × HallReq}

/-- The four rows of a read differ in their selector alone. -/
def readRows (q : HallReq) (mem : MemAns) : List (Instr × HallReq) :=
  [(.porchPlainRead q mem, readAs 0 q), (.porchTransposedRead q mem, readAs 1 q),
   (.porchMaskedPlainRead q mem, readAs 2 q), (.porchMaskedTransposedRead q mem, readAs 3 q)]

/-- Each row is the same read with the row's selector. -/
theorem exec_readRows (hx : x ∈ readRows q mem) (hp : x.1 = .porchPlainRead q mem → q.op.toNat < 3 ∧ q.view.toNat < 5)
    (hq : q.ch.toNat < s.C) : (∃ v : BitVec 3, x.2 = readAs v q) ∧ exec x.1 s = .next (State.finish (State.settleAll
      (State.takeHall x.2 [] (State.hallRead x.2 mem) (State.begun mem s)))) := by
  simp only [readRows, List.mem_cons, List.not_mem_nil, or_false] at hx
  obtain rfl | rfl | rfl | rfl := hx
  · exact ⟨⟨_, rfl⟩, exec_porchPlainRead hq (hp rfl).1 (hp rfl).2⟩
  · exact ⟨⟨_, rfl⟩, if_pos (decide_eq_true hq)⟩
  · exact ⟨⟨_, rfl⟩, if_pos (decide_eq_true hq)⟩
  · exact ⟨⟨_, rfl⟩, if_pos (decide_eq_true hq)⟩

end

/-! ## What a read that fetches does to the hanks -/

section
variable {s t u : State} {q : HallReq} {r : HankRt} {mem : MemAns}

/-- The hanks are there with their descriptors and states. -/
def SameHanks (s t : State) : Prop :=
  ∀ (h : Nat) (r : HankRt), s.hank? h = some r → ∃ r2 : HankRt, t.hank? h = some r2 ∧ r2.desc = r.desc ∧ r2.state = r.state

theorem SameHanks.refl (s : State) : SameHanks s s := fun _ r h => ⟨r, h, rfl, rfl⟩

theorem SameHanks.trans (k : SameHanks s t) (m : SameHanks t u) : SameHanks s u := fun h r hr => by
  obtain ⟨r2, h2, d2, s2⟩ := k h r hr
  obtain ⟨r3, h3, d3, s3⟩ := m h r2 h2
  exact ⟨r3, h3, d3.trans d2, s3.trans s2⟩

theorem SameHanks.of_hanks (h : t.hanks = s.hanks) : SameHanks s t := fun k r hr => ⟨r, by rw [State.hank?, h]; exact hr, rfl, rfl⟩

theorem SameHanks.forEach {α : Type} {f : α → State → State} (hf : ∀ x u, SameHanks u (f x u)) (l : List α) (s : State) :
    SameHanks s (Sys2Proof.Machine.forEach l f s) := by
  induction l generalizing s with
  | nil => exact .refl s
  | cons x xs ih => exact (hf x s).trans (ih _)

/-- A change of one hank that keeps its number, descriptor and state. -/
theorem State.updHank_sameHanks {h : Nat} {f : HankRt → HankRt} (hf : ∀ r, (f r).hank = r.hank ∧ (f r).desc = r.desc ∧ (f r).state = r.state)
    (s : State) : SameHanks s (State.updHank h f s) := fun k r hr => by
  have hm (x : HankRt) : ((fun y : HankRt => y.hank == k) ∘ (fun y => if y.hank == h then f y else y)) x = (x.hank == k) := by
    dsimp only [Function.comp]
    split
    · rw [(hf x).1]
    · rfl
  have he : (State.updHank h f s).hank? k = (s.hanks.map (fun y => if y.hank == h then f y else y)).find? (fun y => y.hank == k) := rfl
  refine ⟨if r.hank == h then f r else r, ?_, ?_⟩
  · rw [he, List.find?_map, funext hm]
    exact congrArg (Option.map _) hr
  · split
    · exact (hf r).2
    · exact ⟨rfl, rfl⟩

/-- The memory and pantry ways have been read: beside the counts, the health of the period, what is known bad, and the output ports,
nothing has changed. -/
def Accessed (s t : State) : Prop :=
  ∃ (house : HouseSt) (counters : List (Nat × Nat)) (scrub : ScrubSt) (out : List Out),
    t = { s with house := house, counters := counters, scrub := scrub, out := out }

theorem Accessed.refl (s : State) : Accessed s s := ⟨_, _, _, _, rfl⟩

theorem Accessed.trans (h : Accessed s t) (k : Accessed t u) : Accessed s u := by
  obtain ⟨_, _, _, _, rfl⟩ := h
  obtain ⟨a, b, c, d, rfl⟩ := k
  exact ⟨a, b, c, d, rfl⟩

theorem Accessed.forEach {α : Type} {f : α → State → State} (hf : ∀ x u, Accessed u (f x u)) (l : List α) (s : State) :
    Accessed s (Sys2Proof.Machine.forEach l f s) := by
  induction l generalizing s with
  | nil => exact .refl s
  | cons x xs ih => exact (hf x s).trans (ih _)

theorem Accessed.ite {p : Prop} [Decidable p] (h : Accessed s t) (k : Accessed s u) : Accessed s (if p then t else u) := by
  split
  · exact h
  · exact k

theorem Accessed.hanks (h : Accessed s t) : t.hanks = s.hanks := by obtain ⟨_, _, _, _, rfl⟩ := h; rfl

theorem State.bump_accessed (i k n : Nat) (s : State) : Accessed s (State.bump i k n s) := ⟨_, _, _, _, rfl⟩

theorem State.countBad_accessed (n : Nat) (s : State) : Accessed s (State.countBad n s) := .ite (.refl s) ⟨_, _, _, _, rfl⟩

theorem State.countCorrected_accessed (n : Nat) (s : State) : Accessed s (State.countCorrected n s) := .ite (.refl s) ⟨_, _, _, _, rfl⟩

theorem State.takeMem_accessed (mem : MemAns) (blocks : List Nat) (s : State) : Accessed s (State.takeMem mem blocks s) := by
  unfold State.takeMem
  dsimp only
  have h1 : Accessed s (Sys2Proof.Machine.forEach (blockRuns (blocks.filter (fun b => !s.blockWritten b))) (fun r st => st.askBlocks r.1 r.2) s) :=
    .forEach (fun _ _ => ⟨_, _, _, _, rfl⟩) _ _
  generalize Sys2Proof.Machine.forEach _ _ s = z at h1 ⊢
  have h2 (n : Nat) : Accessed s (if n = 0 then z else (z.bump 0x50C0 0x03 n).countCorrected n) :=
    .ite h1 (h1.trans ((State.bump_accessed ..).trans (State.countCorrected_accessed ..)))
  refine .ite (h2 _) ((h2 _).trans ((State.bump_accessed ..).trans ((State.countBad_accessed ..).trans ⟨_, _, _, _, rfl⟩)))

theorem State.takeLines_accessed (mem : MemAns) (lines : List Nat) (s : State) : Accessed s (State.takeLines mem lines s) := by
  unfold State.takeLines
  dsimp only
  have h1 : Accessed s (Sys2Proof.Machine.forEach (lines.filter (fun l => !s.lineWritten l)) (fun l st => st.askLine l) s) :=
    .forEach (fun _ _ => ⟨_, _, _, _, rfl⟩) _ _
  exact .ite h1 (h1.trans ((State.bump_accessed ..).trans ((State.bump_accessed ..).trans ((State.countBad_accessed ..).trans
    ⟨_, _, _, _, rfl⟩))))

theorem State.askMaps_accessed (r : HankRt) (q : HallReq) (s : State) : Accessed s (State.askMaps r q s) := by
  refine .ite (.forEach (fun x u => ?_) _ _) (.refl s)
  unfold State.askMap
  split
  · exact State.takeMem_accessed ..
  · exact .refl u

theorem State.markMask_sameHanks (h copy n : Nat) (s : State) : SameHanks s (State.markMask h copy n s) := by
  have hu (x : Nat × Nat) : SameHanks s (State.updHank h (fun r => { r with maskBad := r.maskBad ++ [x] }) s) :=
    State.updHank_sameHanks (f := fun r => { r with maskBad := r.maskBad ++ [x] }) (fun _ => ⟨rfl, rfl, rfl⟩) s
  unfold State.markMask
  split
  · exact .refl s
  · split
    · exact .refl s
    · dsimp only
      split
      · exact (hu _).trans (.of_hanks (Logged.hanks (State.countNote_logged ..)))
      · exact hu _

theorem State.readMaskAt_sameHanks (h : Nat) (offs : List Nat) (mem : MemAns) (s : State) : SameHanks s (State.readMaskAt h offs mem s) := by
  have take (bs : List Nat) (z : State) : SameHanks z (State.takeMem mem bs z) := .of_hanks (State.takeMem_accessed ..).hanks
  have mark (c : Nat) (l : List Nat) (z : State) : SameHanks z (Sys2Proof.Machine.forEach l (fun n st => st.markMask h c n) z) :=
    .forEach (fun _ _ => State.markMask_sameHanks _ _ _ _) _ _
  unfold State.readMaskAt
  split
  · exact .refl s
  · dsimp only
    split
    · exact take _ s
    · exact ((take _ s).trans ((mark 0 _ _).trans ((take _ _).trans (mark 1 _ _)))).trans (.of_hanks rfl)

/-- What a read fetches leaves every hank with its descriptor and state. -/
theorem State.askRead_sameHanks (r : HankRt) (q : HallReq) (mem : MemAns) (s : State) : SameHanks s (State.askRead r q mem s) := by
  have h : SameHanks s (State.takeLines mem (nub ((State.takeMem mem (nub ((State.askMaps r q s).readBlocks r q))
      (State.askMaps r q s)).readLines r q)) (State.takeMem mem (nub ((State.askMaps r q s).readBlocks r q)) (State.askMaps r q s))) :=
    .of_hanks ((State.askMaps_accessed ..).trans ((State.takeMem_accessed ..).trans (State.takeLines_accessed ..))).hanks
  unfold State.askRead
  dsimp only
  split
  · exact h.trans (State.readMaskAt_sameHanks _ _ _ _)
  · exact h

/-- The count of a late read leaves what a read depends on. -/
theorem State.countLate_accessed (d : Desc) (s : State) : Accessed s (State.countLate d s) := .ite (State.bump_accessed ..) (.refl s)

end

/-! ## Refused and fenced accesses -/

section
variable {s : State} {q : HallReq} {r : HankRt} {op : HallOp} {mem : MemAns}

theorem forEach_emit {α : Type} (f : α → Out) (l : List α) (s : State) :
    forEach l (fun x st => State.emit (f x) st) s = { s with out := s.out ++ l.map f } := by
  induction l generalizing s with
  | nil => simp [forEach]
  | cons x xs ih =>
    refine (ih _).trans ?_
    simp [State.emit]

/-- A response of one status has that status and zero data in each item. -/
theorem State.respondAll_eq {st : HallStatus} (h : st ≠ .ok) (q : HallReq) (s : State) : State.respondAll q st s =
    { s with out := s.out ++ (List.range q.items).map (fun i =>
      Out.hall q.ch.toNat q.way.toNat q.tag.toNat (i + 1 == q.items) st (zeros 128) 0) } := by
  have hst : (Beat.stop st).status = st := rfl
  refine (forEach_emit _ _ s).trans (congrArg (fun l => ({ s with out := s.out ++ l } : State)) ?_)
  refine List.ext_getElem (by simp) (fun i h1 h2 => ?_)
  simp [hst, h]


/-- A refused request counts once in 0x5010.01, and in 0x5080.02 where the window's own fault is at hand. -/
theorem State.refuseHall_eq (q : HallReq) (op : HallOp) (s : State) : State.refuseHall q op s =
    (let u := State.bump 0x5010 0x01 1 (if s.windowFault q op then State.bump 0x5080 0x02 1 s else s)
     { u with out := u.out ++ (List.range q.items).map (fun i =>
        Out.hall q.ch.toNat q.way.toNat q.tag.toNat (i + 1 == q.items) .refused (zeros 128) 0) }) :=
  State.respondAll_eq (by decide) q _

theorem State.wholeStatus_absent (h : s.hank? q.hank.toNat = none) : s.wholeStatus q op = some .refused := by
  simp only [State.wholeStatus, h]

theorem State.wholeStatus_fenced (h : s.hank? q.hank.toNat = some r) (hf : s.fencedHank r.desc = true) :
    s.wholeStatus q op = some .fenced := by
  simp only [State.wholeStatus, h, hf, if_true]

/-- An access that the hank's class, state, region and selector do not grant, and that comes in by no aliased address, is refused. -/
theorem State.wholeStatus_refused (h : s.hank? q.hank.toNat = some r) (hf : s.fencedHank r.desc = false)
    (ha : s.aliasNamed q.hank.toNat = none)
    (hg : hasRegion r.desc q.region = false ∨ granted r.desc r.state q.region q.view.toNat op = false ∨ q.shapeOk = false) :
    s.wholeStatus q op = some .refused := by
  simp only [State.wholeStatus, h, hf, ha, Option.isSome_none, Bool.false_and, Bool.or_false, Bool.false_eq_true, if_false]
  refine if_neg (fun hc => ?_)
  simp only [Bool.and_eq_true] at hc
  obtain h1 | h1 | h1 := hg <;> simp [h1] at hc

/-- No class grants a read under a selector of 5 to 7. -/
theorem granted_selector {d : Desc} {state region view : Nat} (h : 5 ≤ view) : granted d state region view .read = false := by
  unfold granted
  split
  · have : (view == 4) = false := by simp; omega
    simp [this]
  · rw [if_pos (by omega)]

theorem State.wholeStatus_selector (h : s.hank? q.hank.toNat = some r) (hf : s.fencedHank r.desc = false) (hv : 5 ≤ q.view.toNat) :
    s.wholeStatus q .read = some .refused := by
  have h0 : (q.view == 0) = false := by
    rw [beq_eq_false_iff_ne]
    rintro h0
    rw [h0] at hv
    exact absurd hv (by decide)
  have ha : aliasGranted r.desc q.region q.view.toNat .read = false := by
    have h1 : (q.view.toNat == 0) = false := by simp; omega
    have h2 : (q.view.toNat == 2) = false := by simp; omega
    simp [aliasGranted, h1, h2]
  simp only [State.wholeStatus, h, hf, ha, granted_selector hv, Bool.and_false, Bool.or_self, Bool.false_and, Bool.false_eq_true, if_false]

theorem State.hallRead_refused (h : s.wholeStatus q .read = some .refused) : State.hallRead q mem s = State.refuseHall q .read s := by
  simp only [State.hallRead, h]

theorem State.hallRead_fenced (h : s.wholeStatus q .read = some .fenced) : State.hallRead q mem s = State.respondAll q .fenced s := by
  simp only [State.hallRead, h]

end

theorem exec_porchPlainRead_other {q : HallReq} {mem : MemAns} {s : State} (hq : q.ch.toNat < s.C) (ho : 3 ≤ q.op.toNat) :
    exec (.porchPlainRead q mem) s = .next (State.finish (State.settleAll (State.portOther q (State.begun mem s)))) := by
  have h : exec (.porchPlainRead q mem) s = .next (State.finish (State.settleAll
      (if 3 ≤ q.op.toNat then State.portOther q (State.begun mem s) else if 5 ≤ q.view.toNat then
        State.portRead (readAs q.view q) mem (State.begun mem s) else State.portRead (readAs 0 q) mem (State.begun mem s)))) :=
    if_pos (decide_eq_true hq)
  rw [h, if_pos ho]

theorem exec_porchPlainRead_selector {q : HallReq} {mem : MemAns} {s : State} (hq : q.ch.toNat < s.C) (ho : q.op.toNat < 3)
    (hv : 5 ≤ q.view.toNat) : exec (.porchPlainRead q mem) s = .next (State.finish (State.settleAll
      (State.takeHall (readAs q.view q) [] (State.hallRead (readAs q.view q) mem) (State.begun mem s)))) := by
  have h : exec (.porchPlainRead q mem) s = .next (State.finish (State.settleAll
      (if 3 ≤ q.op.toNat then State.portOther q (State.begun mem s) else if 5 ≤ q.view.toNat then
        State.portRead (readAs q.view q) mem (State.begun mem s) else State.portRead (readAs 0 q) mem (State.begun mem s)))) :=
    if_pos (decide_eq_true hq)
  rw [h, if_neg (by omega), if_pos hv]
  rfl

/-- A read that is granted is served once it has fetched what it needs. -/
theorem porchRead_served {q : HallReq} {mem : MemAns} {r : HankRt} {s : State} {x : Instr × HallReq} (hx : x ∈ readRows q mem)
    (hp : x.1 = .porchPlainRead q mem → q.op.toNat < 3 ∧ q.view.toNat < 5) (hq : q.ch.toNat < s.C)
    (hr : (State.begun mem s).sys.ready = true) (hop : (State.begun mem s).openOn q < 256) (ht : (State.begun mem s).tagOpen q = false)
    (hw : (State.begun mem s).wholeStatus x.2 .read = none) (hh : (State.begun mem s).hank? q.hank.toNat = some r)
    (h20 : q.region ≠ 0x20) (h1 : hasRegion r.desc q.region = true) (h2 : granted r.desc r.state q.region x.2.view.toNat .read = true)
    (hc : q.caches = false) :
    let s1 := State.askRead r x.2 mem (State.countLate r.desc (State.begun mem s))
    ∃ r2 : HankRt, s1.hank? q.hank.toNat = some r2 ∧ r2.desc = r.desc ∧ r2.state = r.state ∧
      exec x.1 s = .next (State.finish (State.settleAll (State.serveRead r2 x.2 s1))) := by
  intro s1
  obtain ⟨⟨v, hv⟩, he⟩ := exec_readRows hx hp hq
  rw [he]
  simp only [s1, hv] at hw h2 ⊢
  have hsame : SameHanks (State.begun mem s) (State.askRead r (readAs v q) mem (State.countLate r.desc (State.begun mem s))) :=
    (SameHanks.of_hanks (State.countLate_accessed ..).hanks).trans (State.askRead_sameHanks _ _ _ _)
  obtain ⟨r2, hr2, hd, hst⟩ := hsame _ r hh
  refine ⟨r2, hr2, hd, hst, congrArg (fun t => Host.Outcome.next (State.finish (State.settleAll t))) ?_⟩
  exact (State.takeHall_served (q := readAs v q) hr hop ht).trans
    (State.hallRead_served (q := readAs v q) hw hh h20 h1 h2 hc hr2)

/-- What a read is answered that the hank's row of Table 2.9 refuses, or that a fenced member takes. -/
theorem porchRead_refused (q : HallReq) (mem : MemAns) (s : State) :
    let s0 := State.begun mem s
    let answer (q2 : HallReq) (st : HallStatus) (u : State) : Host.Outcome State Fault Refusal :=
      .next (State.finish (State.settleAll { u with
        out := u.out ++ (List.range q2.items).map (fun i =>
          Out.hall q2.ch.toNat q2.way.toNat q2.tag.toNat (i + 1 == q2.items) st (zeros 128) 0) }))
    let refused (q2 : HallReq) (op : HallOp) : Host.Outcome State Fault Refusal :=
      answer q2 .refused (State.bump 0x5010 0x01 1 (if s0.windowFault q2 op then State.bump 0x5080 0x02 1 s0 else s0))
    q.ch.toNat < s.C → s0.sys.ready = true → s0.openOn q < 256 → s0.tagOpen q = false →
    (3 ≤ q.op.toNat →
      (s0.hank? q.hank.toNat = none → exec (.porchPlainRead q mem) s = refused q .none) ∧
      (∀ r : HankRt, s0.hank? q.hank.toNat = some r →
        (s0.fencedHank r.desc = true → exec (.porchPlainRead q mem) s = answer q .fenced s0) ∧
        (s0.fencedHank r.desc = false → exec (.porchPlainRead q mem) s = refused q .none))) ∧
    (q.op.toNat < 3 → 5 ≤ q.view.toNat →
      (s0.hank? q.hank.toNat = none → exec (.porchPlainRead q mem) s = refused (readAs q.view q) .read) ∧
      (∀ r : HankRt, s0.hank? q.hank.toNat = some r →
        (s0.fencedHank r.desc = true → exec (.porchPlainRead q mem) s = answer (readAs q.view q) .fenced s0) ∧
        (s0.fencedHank r.desc = false → exec (.porchPlainRead q mem) s = refused (readAs q.view q) .read))) ∧
    (∀ x ∈ readRows q mem, (x.1 = .porchPlainRead q mem → q.op.toNat < 3 ∧ q.view.toNat < 5) →
      (s0.hank? q.hank.toNat = none → exec x.1 s = refused x.2 .read) ∧
      (∀ r : HankRt, s0.hank? q.hank.toNat = some r →
        (s0.fencedHank r.desc = true → exec x.1 s = answer x.2 .fenced s0) ∧
        (s0.fencedHank r.desc = false → s0.aliasNamed q.hank.toNat = none →
          hasRegion r.desc q.region = false ∨ granted r.desc r.state q.region x.2.view.toNat .read = false ∨ q.shapeOk = false →
          exec x.1 s = refused x.2 .read))) := by
  intro s0 answer refused hq hr hop ht
  have toAnswer {q2 : HallReq} {st : HallStatus} {u v : State} (hst : st ≠ .ok) (h : u = State.respondAll q2 st v) :
      Host.Outcome.next (State.finish (State.settleAll u)) = answer q2 st v :=
    congrArg (fun t => Host.Outcome.next (State.finish (State.settleAll t))) (h.trans (State.respondAll_eq hst q2 v))
  have toRefused {q2 : HallReq} {op : HallOp} {u : State} (h : u = State.refuseHall q2 op s0) :
      Host.Outcome.next (State.finish (State.settleAll u)) = refused q2 op :=
    congrArg (fun t => Host.Outcome.next (State.finish (State.settleAll t))) (h.trans (State.refuseHall_eq q2 op s0))
  refine ⟨fun ho => ?other, fun ho hv => ?selector, fun x hx hp => ?rows⟩
  case other =>
    rw [exec_porchPlainRead_other hq ho, State.portOther, State.takeHall_served hr hop ht]
    refine ⟨fun hn => toRefused ?_, fun r hh => ⟨fun hf => toAnswer (by decide) ?_, fun hf => toRefused ?_⟩⟩
    · simp only [s0] at hn
      simp only [hn, s0]
    · simp only [s0] at hh hf
      simp only [hh, hf, if_true, s0]
    · simp only [s0] at hh hf
      simp only [hh, hf, Bool.false_eq_true, if_false, s0]
  case selector =>
    rw [exec_porchPlainRead_selector hq ho hv, State.takeHall_served (q := readAs q.view q) hr hop ht]
    exact ⟨fun hn => toRefused (State.hallRead_refused (State.wholeStatus_absent hn)),
      fun r hh => ⟨fun hf => toAnswer (by decide) (State.hallRead_fenced (State.wholeStatus_fenced hh hf)),
        fun hf => toRefused (State.hallRead_refused (State.wholeStatus_selector (q := readAs q.view q) hh hf hv))⟩⟩
  case rows =>
    obtain ⟨⟨v, hv⟩, he⟩ := exec_readRows hx hp hq
    rw [he, hv, State.takeHall_served (q := readAs v q) hr hop ht]
    exact ⟨fun hn => toRefused (State.hallRead_refused (State.wholeStatus_absent hn)),
      fun r hh => ⟨fun hf => toAnswer (by decide) (State.hallRead_fenced (State.wholeStatus_fenced hh hf)),
        fun hf ha hg => toRefused (State.hallRead_refused (State.wholeStatus_refused (q := readAs v q) hh hf ha hg))⟩⟩

/-! ## One beat of a LIVE STATE hank whose planes, mask and tiles are good -/

section
variable {s t : State} {q : HallReq} {r : HankRt} {codes sub : List (Nat × Nat)}

theorem Reeled.scrub (h : Reeled s t) : t.scrub = s.scrub := by obtain ⟨_, _, _, _, rfl⟩ := h; rfl
theorem Reeled.errorsOf (h : Reeled s t) : t.errorsOf r codes = s.errorsOf r codes := by obtain ⟨_, _, _, _, rfl⟩ := h; rfl
theorem Reeled.sideOf (h : Reeled s t) (es : List (Option Nat)) : t.sideOf r es = s.sideOf r es := by obtain ⟨_, _, _, _, rfl⟩ := h; rfl
theorem Reeled.elemCode (h : Reeled s t) (e : Nat) : t.elemCode r e = s.elemCode r e := by obtain ⟨_, _, _, _, rfl⟩ := h; rfl

/-- Nothing is known bad, under repair or listed, and no mask copy is marked. -/
structure State.GoodHank (s : State) (r : HankRt) : Prop where
  cls : r.desc.cls = 1
  live : r.state = 2
  blocks : s.scrub.badBlocks = []
  lines : s.scrub.badLines = []
  repairs : s.scrub.repairs = []
  tiles : s.scrub.tiles = []
  mask : r.maskBad = []

theorem State.GoodHank.reeled (g : s.GoodHank r) (h : Reeled s t) : t.GoodHank r :=
  ⟨g.cls, g.live, h.scrub ▸ g.blocks, h.scrub ▸ g.lines, h.scrub ▸ g.repairs, h.scrub ▸ g.tiles, g.mask⟩

theorem State.GoodHank.maskHank (g : s.GoodHank r) : s.maskHank r = some r := if_neg (by rw [g.cls]; decide)

theorem State.GoodHank.maskCopyBad (g : s.GoodHank r) (c n : Nat) : s.maskCopyBad r c n = false := by
  simp only [State.maskCopyBad, g.mask, State.spanBad, g.blocks, List.isEmpty_nil, List.contains_nil, if_true, Bool.or_self]

theorem State.GoodHank.keyBad (g : s.GoodHank r) (k : Nat × Bool) : s.keyBad k = false := by
  simp only [State.keyBad, g.blocks, g.lines, List.contains_nil]
  split <;> simp

/-- No row of Table 2.9 stands in the way of its beats. -/
theorem State.GoodHank.hurtBeat (g : s.GoodHank r) (offs : List Nat) (w : Nat) : s.hurtBeat r offs w = none := by
  have hs (n : Nat) : s.stripeHurt r 0 n = none := by
    simp only [State.stripeHurt, g.keyBad, g.repairs, List.any_nil, Bool.or_self, Bool.false_eq_true, if_false]
    split <;> rfl
  have hf (l : List Nat) : l.findSome? (fun n => s.stripeHurt r 0 n) = none := by simp [hs]
  simp only [State.hurtBeat, g.cls, g.live, if_true, hf]

/-- The elements in error among some codes are so among more of them. -/
theorem State.errorsOf_mono (hsub : ∀ x ∈ sub, x ∈ codes) (h : s.errorsOf r codes = []) : s.errorsOf r sub = [] := by
  unfold State.errorsOf at h ⊢
  split
  · rfl
  · rename_i hm
    rw [if_neg hm] at h
    cases hk : s.maskHank r with
    | none => rfl
    | some m =>
      simp only [hk, State.maskErrors, List.map_eq_nil_iff, List.filter_eq_nil_iff] at h ⊢
      exact fun x hx => h x (hsub x hx)

/-- Elements that are not in error give their data under the mask. -/
theorem State.GoodHank.maskStops (g : s.GoodHank r) (h : s.errorsOf r codes = []) : s.maskStops r codes = false := by
  cases hm : r.desc.masked
  · simp only [State.maskStops, hm, Bool.false_and]
  · have he : s.maskErrors r codes = [] := by simpa only [State.errorsOf, hm, g.maskHank, Bool.not_true, Bool.false_eq_true, if_false] using h
    have hb (e : Nat) : (s.maskBit r e).isNone = false := by
      simp only [State.maskBit, State.maskRead, g.maskCopyBad, Bool.not_false, if_true, Option.map_some, Option.isNone_some]
    simp only [State.maskStops, g.maskHank, he, hb, g.tiles, List.isEmpty_nil, List.contains_nil, Bool.not_true, Bool.false_or]
    simp

theorem State.findErrors_nil (r : HankRt) (s : State) : State.findErrors r [] s = s := rfl

theorem State.chargeBeat_reeled (r : HankRt) (k o : Nat) (s : State) : Reeled s (State.chargeBeat r k o s) := by
  unfold State.chargeBeat
  split
  · exact .refl s
  · exact State.chargeReel_reeled ..

/-- A plain beat returns its bytes, with the mask's side band for a masked selector. -/
theorem State.GoodHank.plainBeat (g : s.GoodHank r) {masked : Bool} {o : Nat} (ho : o < regionSpan r.desc 0)
    (he : s.errorsOf r (beatCodes r.desc o ((s.regionBytes r 0 o 128).take (regionEnd r.desc 0 - o))) = []) :
    s.plainBeat r masked o = (State.chargeBeat r 0 o s, Beat.ok ((s.regionBytes r 0 o 128).take (regionEnd r.desc 0 - o))
      (if masked then s.sideOf r ((List.range 64).map (fun i => if o / 2 + i < r.desc.count then some (o / 2 + i) else none)) else 0)) := by
  have hc := State.chargeBeat_reeled r 0 o s
  have hw : elemWidth r.desc = 2 := if_pos g.cls
  have hread : (State.chargeBeat r 0 o s).regionBytes r 0 o 128 = s.regionBytes r 0 o 128 := hc.regionBytes ..
  have he' := hc.errorsOf.trans he
  simp only [State.plainBeat, if_neg (Nat.not_le.mpr ho), g.hurtBeat, hread, State.checkMask, he', State.findErrors_nil,
    (g.reeled hc).maskStops he', hw, hc.sideOf, Bool.false_eq_true, if_false, Nat.reduceDiv]

/-- The elements of a beat of the transposed window lie in the beat's tile. -/
theorem mem_elemsOfTile {d : Desc} {b e : Nat} (hc : d.cls = 1) (he : e ∈ (tileElems d b).filterMap id) :
    e ∈ State.elemsOfTile d (b / tileEdge d) := by
  have ht : tileEdge d = 64 := if_pos hc
  have hw : elemWidth d = 2 := if_pos hc
  simp only [tileElems, ht, List.filterMap_map, List.mem_filterMap, List.mem_range, Function.comp, id] at he
  obtain ⟨i, hi, h⟩ := he
  split at h
  · rename_i hrc
    rw [Bool.and_eq_true, decide_eq_true_eq, decide_eq_true_eq] at hrc
    obtain ⟨hr, hcol⟩ := hrc
    obtain rfl : _ = e := Option.some.inj h
    simp only [State.elemsOfTile, State.tileRows, ht, hw, List.mem_flatMap, List.mem_map, List.mem_range]
    refine ⟨_, ⟨i, by omega, rfl⟩, b % 64, ?_, ?_⟩
    · dsimp only
      omega
    · dsimp only
      omega
  · exact absurd h (by simp)

theorem State.GoodHank.tileCodes (g : s.GoodHank r) (n : Nat) :
    s.tileCodes r n = (State.elemsOfTile r.desc n).map (fun e => (e, s.elemCode r e)) := by
  simp only [State.tileCodes, g.hurtBeat, Option.isNone_none]
  rw [List.filter_eq_self.mpr fun _ _ => rfl]

theorem State.GoodHank.tileCodes_reeled (g : s.GoodHank r) (h : Reeled s t) (n : Nat) : t.tileCodes r n = s.tileCodes r n := by
  simp only [g.tileCodes, (g.reeled h).tileCodes, h.elemCode]

theorem State.GoodHank.readCodes_reeled (g : s.GoodHank r) (h : Reeled s t) (q : HallReq) : t.readCodes r q = s.readCodes r q := by
  have htc : t.tileCodes r = s.tileCodes r := funext (g.tileCodes_reeled h)
  simp only [State.readCodes, htc, g.hurtBeat, (g.reeled h).hurtBeat, h.regionBytes]

/-- A tile without an error is gathered: its row segments are charged. -/
theorem State.GoodHank.gatherTile (g : s.GoodHank r) {n : Nat} (he : s.errorsOf r (s.tileCodes r n) = []) : Reeled s (State.gatherTile r n s) := by
  have hz : Reeled s (forEach ((tileRows r.desc n).flatMap segBeats) (fun o st => st.chargeBeat r 0 o) s) :=
    .forEach (fun o u => State.chargeBeat_reeled r 0 o u) _ _
  unfold State.gatherTile
  dsimp only
  generalize forEach _ _ s = z at hz ⊢
  rw [g.tileCodes_reeled hz, hz.errorsOf.trans he]
  exact hz.trans (.forEach (fun _ u => .refl u) _ _)

/-- A beat of the transposed window returns its elements column by column, with the mask's side band for a masked selector. -/
theorem State.GoodHank.transBeat (g : s.GoodHank r) {masked : Bool} {b : Nat} (hb : b < tileBeats r.desc)
    (he : s.errorsOf r (s.tileCodes r (b / tileEdge r.desc)) = []) :
    s.transBeat r masked b = (s, Beat.ok ((tileElems r.desc b).flatMap (fun e => match e with
      | some x => s.regionBytes r 0 (x * 2) 2
      | none => zeros 2)) (if masked then s.sideOf r (tileElems r.desc b) else 0)) := by
  have hw : elemWidth r.desc = 2 := if_pos g.cls
  have hsub : s.errorsOf r (((tileElems r.desc b).filterMap id).map (fun e => (e, s.elemCode r e))) = [] := by
    refine State.errorsOf_mono (fun x hx => ?_) he
    obtain ⟨e, hm, rfl⟩ := List.mem_map.mp hx
    rw [g.tileCodes]
    exact List.mem_map.mpr ⟨e, mem_elemsOfTile g.cls hm, rfl⟩
  simp only [State.transBeat, if_neg (Nat.not_le.mpr hb), g.hurtBeat, g.tiles, g.maskStops hsub, List.contains_nil, Bool.and_false,
    Bool.or_self, Bool.false_eq_true, if_false, hw] <;> rfl

/-- What a read of one plain beat checks against the mask. -/
theorem State.GoodHank.plainCodes (g : s.GoodHank r) (hl : q.len = 1) (hreg : q.region = 0) (ht : transposed q = false)
    (ho : q.off < regionSpan r.desc 0) (he : s.errorsOf r (s.readCodes r q) = []) :
    s.errorsOf r (beatCodes r.desc q.off ((s.regionBytes r 0 q.off 128).take (regionEnd r.desc 0 - q.off))) = [] := by
  cases hm : r.desc.masked
  · simp only [State.errorsOf, hm, Bool.not_false, if_true]
  · have hn : q.len.toNat = 1 := by rw [hl]; rfl
    have hoffs : State.beatOffs q (regionSpan r.desc 0) = [q.off] := by
      simp [State.beatOffs, hn, ho]
    have hcodes : s.readCodes r q = beatCodes r.desc q.off ((s.regionBytes r 0 q.off 128).take (regionEnd r.desc 0 - q.off)) := by
      simp [State.readCodes, hm, hreg, ht, hoffs, g.hurtBeat]
    rwa [hcodes] at he

/-- What a read of one transposed beat checks against the mask is its whole tile. -/
theorem State.GoodHank.transCodes (hl : q.len = 1) (hreg : q.region = 0) (ht : transposed q = true)
    (hb : q.off / 128 < tileBeats r.desc) (he : s.errorsOf r (s.readCodes r q) = []) :
    State.tilesOf r.desc q = [q.off / 128 / tileEdge r.desc] ∧ s.errorsOf r (s.tileCodes r (q.off / 128 / tileEdge r.desc)) = [] := by
  have hn : q.len.toNat = 1 := by rw [hl]; rfl
  have htiles : State.tilesOf r.desc q = [q.off / 128 / tileEdge r.desc] := by
    simp [State.tilesOf, hn, hb, nub]
  refine ⟨htiles, ?_⟩
  cases hm : r.desc.masked
  · simp only [State.errorsOf, hm, Bool.not_false, if_true]
  · have hcodes : s.readCodes r q = s.tileCodes r (q.off / 128 / tileEdge r.desc) := by
      simp [State.readCodes, hm, hreg, ht, htiles]
    rwa [hcodes] at he

/-- A read of one beat that is served ends with its item, and has only charged and counted. -/
theorem State.GoodHank.serveRead_plain (g : s.GoodHank r) (hl : q.len = 1) (hreg : q.region = 0) (ht : transposed q = false)
    (ho : q.off < regionSpan r.desc 0) (he : s.errorsOf r (s.readCodes r q) = []) : ∃ u : State, Reeled s u ∧
      State.serveRead r q s = u.emit (.hall q.ch.toNat q.way.toNat q.tag.toNat true .ok
        (fit 128 ((s.regionBytes r 0 q.off 128).take (regionEnd r.desc 0 - q.off))) (if State.maskedSel q then s.sideOf r
          ((List.range 64).map (fun i => if q.off / 2 + i < r.desc.count then some (q.off / 2 + i) else none)) else 0)) := by
  have hn : q.len.toNat = 1 := by rw [hl]; rfl
  have hbeat : State.readBeat r q 0 s = s.plainBeat r (State.maskedSel q) (q.off + 128 * 0) := by
    simp [State.readBeat, g.cls, hreg, ht]
  refine ⟨State.countUnlisted r (s.errorsOf r (s.readCodes r q)) (State.chargeBeat r 0 q.off s),
    (State.chargeBeat_reeled ..).trans (State.bump_reeled ..), ?_⟩
  simp only [State.serveRead, ht, hn, State.runBeats, List.range_one, List.foldl_cons, List.foldl_nil, hbeat, Nat.mul_zero, Nat.add_zero,
    g.plainBeat ho (g.plainCodes hl hreg ht ho he), Bool.false_eq_true, if_false, List.nil_append, State.respond_ok]

theorem State.GoodHank.serveRead_transposed (g : s.GoodHank r) (hl : q.len = 1) (hreg : q.region = 0) (ht : transposed q = true)
    (hb : q.off / 128 < tileBeats r.desc) (he : s.errorsOf r (s.readCodes r q) = []) : ∃ u : State, Reeled s u ∧
      State.serveRead r q s = u.emit (.hall q.ch.toNat q.way.toNat q.tag.toNat true .ok
        (fit 128 ((tileElems r.desc (q.off / 128)).flatMap (fun e => match e with
          | some x => s.regionBytes r 0 (x * 2) 2
          | none => zeros 2))) (if State.maskedSel q then s.sideOf r (tileElems r.desc (q.off / 128)) else 0)) := by
  have hn : q.len.toNat = 1 := by rw [hl]; rfl
  obtain ⟨htiles, herr⟩ := State.GoodHank.transCodes hl hreg ht hb he
  have hz := g.gatherTile herr
  have hbeat : State.readBeat r q 0 = fun z => z.transBeat r (State.maskedSel q) (q.off / 128 + 0) := by
    funext z
    simp [State.readBeat, g.cls, hreg, ht]
  have htrans := (g.reeled hz).transBeat (masked := State.maskedSel q) hb (by rw [g.tileCodes_reeled hz, hz.errorsOf]; exact herr)
  refine ⟨State.countUnlisted r (s.errorsOf r (s.readCodes r q)) (State.gatherTile r (q.off / 128 / tileEdge r.desc) s),
    hz.trans (State.bump_reeled ..), ?_⟩
  simp only [hz.regionBytes, hz.sideOf] at htrans
  simp only [State.serveRead, ht, htiles, forEach, List.foldl_cons, hn, State.runBeats, List.range_one, List.foldl_nil, hbeat, Nat.add_zero,
    htrans, if_true, List.nil_append, State.respond_ok]

end

/-- A state that differs in its output ports and in the answers that stand ready. -/
def State.quiet (s : State) : State := { s with out := [], ans := .clean }

/-- A read of one beat whose accesses are all answered OK fetches what it needs and is served. -/
theorem porchRead_live {q : HallReq} {r : HankRt} {s : State} {x : Instr × HallReq} (hx : x ∈ readRows q .clean)
    (ho : q.op.toNat < 3) (hv : q.view.toNat < 5) (hq : q.ch.toNat < s.C) (hr : s.sys.ready = true) (hop : s.openOn q < 256)
    (ht : s.tagOpen q = false) (hh : s.hank? q.hank.toNat = some r) (g : s.GoodHank r) (hreg : q.region = 0) (hc : q.caches = false)
    (hw : s.wholeStatus x.2 .read = none) (hg : granted r.desc r.state 0 x.2.view.toNat .read = true) :
    ∃ u : State, Reeled s u ∧ exec x.1 s = .next (State.finish (State.settleAll (State.serveRead r x.2 u))) := by
  obtain ⟨⟨v, hxv⟩, he⟩ := exec_readRows hx (fun _ => ⟨ho, hv⟩) hq
  have hb : State.begun .clean s = s.quiet := State.begun_clean s
  have hlate : Reeled s.quiet (State.countLate r.desc s.quiet) := by
    unfold State.countLate
    split
    · exact State.bump_reeled ..
    · exact .refl _
  have hk : r.hank = q.hank.toNat := by simpa using List.find?_some (p := fun r : HankRt => r.hank == q.hank.toNat) hh
  have hquiet : Reeled s s.quiet := ⟨_, _, _, _, rfl⟩
  have g1 : (State.countLate r.desc s.quiet).GoodHank r := (g.reeled hquiet).reeled hlate
  have facts : (State.countLate r.desc s.quiet).ans = .clean ∧ (State.countLate r.desc s.quiet).hank? r.hank = some r := by
    obtain ⟨_, _, _, _, hl⟩ := State.countLate_accessed r.desc s.quiet
    rw [hl, hk]
    exact ⟨rfl, hh⟩
  obtain ⟨hans, hh1⟩ := facts
  have hask := State.askRead_clean (q := x.2) hans g1.maskHank hh1 (fun o _ => g1.maskCopyBad ..)
  refine ⟨_, hquiet.trans (hlate.trans (.of_asked hask)), ?_⟩
  rw [he, hb]
  refine congrArg (fun t => Host.Outcome.next (State.finish (State.settleAll t))) ?_
  rw [hxv] at hw hg hask ⊢
  refine (State.takeHall_served (s := s.quiet) (q := readAs v q) hr hop ht).trans ?_
  have hreg' : (readAs v q).region = 0 := hreg
  exact State.hallRead_served (s := s.quiet) (q := readAs v q) hw hh (by rw [hreg']; decide) (by rw [hreg']; rfl) (by rw [hreg']; exact hg) hc
    ((hask.hank _).trans (hk ▸ hh1))

/-- The answer of a read of one beat, which leaves the memories, the hanks and the registers. -/
def Answers (i : Instr) (q : HallReq) (bs : Bytes) (side : Nat) (s : State) : Prop :=
  ∃ (t : State) (asks : List Out), exec i s = .next (State.finish (State.settleAll t)) ∧
    t.out = asks ++ [.hall q.ch.toNat q.way.toNat q.tag.toNat true .ok bs side] ∧
    t.hearth = s.hearth ∧ t.pantry = s.pantry ∧ t.nv = s.nv ∧ t.hanks = s.hanks ∧ t.regs = s.regs ∧ t.fr = s.fr

theorem Answers.of_reeled {s u w : State} {i : Instr} {q : HallReq} {bs : Bytes} {side : Nat} (hu : Reeled s u) (hw : Reeled u w)
    (he : exec i s = .next (State.finish (State.settleAll
      (w.emit (.hall q.ch.toNat q.way.toNat q.tag.toNat true .ok bs side))))) : Answers i q bs side s := by
  obtain ⟨f1, f2, f3, f4, f5, f6⟩ := (hu.trans hw).same
  exact ⟨_, w.out, he, rfl, f1, f2, f3, f4, f5, f6⟩

section
variable {q : HallReq} {r : HankRt} {s : State} {i : Instr} {v : BitVec 3}

/-- A plain row returns the bytes, with the side band of the elements for the masked selector. -/
theorem porchRead_plain (hx : (i, readAs v q) ∈ readRows q .clean) (hsel : State.transposed (readAs v q) = false)
    (ho : q.op.toNat < 3) (hv : q.view.toNat < 5) (hq : q.ch.toNat < s.C) (hr : s.sys.ready = true) (hop : s.openOn q < 256)
    (ht : s.tagOpen q = false) (hh : s.hank? q.hank.toNat = some r) (g : s.GoodHank r) (hreg : q.region = 0) (hl : q.len = 1)
    (hc : q.caches = false) (hw : s.wholeStatus (readAs v q) .read = none)
    (hg : granted r.desc r.state 0 (readAs v q).view.toNat .read = true) (hoff : q.off < regionSpan r.desc 0)
    (herr : s.errorsOf r (s.readCodes r (readAs v q)) = []) :
    Answers i q (fit 128 ((s.regionBytes r 0 q.off 128).take (regionEnd r.desc 0 - q.off))) (if State.maskedSel (readAs v q) then
      s.sideOf r ((List.range 64).map (fun k => if q.off / 2 + k < r.desc.count then some (q.off / 2 + k) else none)) else 0) s := by
  obtain ⟨u, hu, he⟩ := porchRead_live hx ho hv hq hr hop ht hh g hreg hc hw hg
  have herr' : u.errorsOf r (u.readCodes r (readAs v q)) = [] := by rw [g.readCodes_reeled hu, hu.errorsOf]; exact herr
  obtain ⟨w, hw2, hs⟩ := (g.reeled hu).serveRead_plain (q := readAs v q) hl hreg hsel hoff herr'
  rw [hs, hu.regionBytes, hu.sideOf] at he
  exact .of_reeled hu hw2 he

/-- A transposed row returns the elements of its beat column by column. -/
theorem porchRead_transposed (hx : (i, readAs v q) ∈ readRows q .clean) (hsel : State.transposed (readAs v q) = true)
    (ho : q.op.toNat < 3) (hv : q.view.toNat < 5) (hq : q.ch.toNat < s.C) (hr : s.sys.ready = true) (hop : s.openOn q < 256)
    (ht : s.tagOpen q = false) (hh : s.hank? q.hank.toNat = some r) (g : s.GoodHank r) (hreg : q.region = 0) (hl : q.len = 1)
    (hc : q.caches = false) (hw : s.wholeStatus (readAs v q) .read = none)
    (hg : granted r.desc r.state 0 (readAs v q).view.toNat .read = true) (hoff : q.off / 128 < tileBeats r.desc)
    (herr : s.errorsOf r (s.readCodes r (readAs v q)) = []) :
    Answers i q (fit 128 ((tileElems r.desc (q.off / 128)).flatMap (fun e => match e with
      | some x => s.regionBytes r 0 (x * 2) 2
      | none => zeros 2))) (if State.maskedSel (readAs v q) then s.sideOf r (tileElems r.desc (q.off / 128)) else 0) s := by
  obtain ⟨u, hu, he⟩ := porchRead_live hx ho hv hq hr hop ht hh g hreg hc hw hg
  have herr' : u.errorsOf r (u.readCodes r (readAs v q)) = [] := by rw [g.readCodes_reeled hu, hu.errorsOf]; exact herr
  obtain ⟨w, hw2, hs⟩ := (g.reeled hu).serveRead_transposed (q := readAs v q) hl hreg hsel hoff herr'
  simp only [hu.regionBytes, hu.sideOf] at hs
  rw [hs] at he
  exact .of_reeled hu hw2 he

end

/-- Settles O29: a read that is granted is served, one beat of it returns its bytes or its elements, and any other is refused or fenced. -/
theorem porchAnswersReads : Obligations.PorchAnswersReads := by
  refine ⟨?served, ?live, ?refused⟩
  case served =>
    intro q mem r s s0 rows x hx hp hq hr hop ht hw hh h20 h1 h2 hc
    exact porchRead_served hx hp hq hr hop ht hw hh h20 h1 h2 hc
  case live =>
    intro q r s w plain es gathered flat rows x hx ho hv hq hr hop ht hh hcls hst hreg hl hc hw hg hin hbb hbl hrep htiles hmb herr
    have g : s.GoodHank r := ⟨hcls, hst, hbb, hbl, hrep, htiles, hmb⟩
    have onPlain (i : Instr) (v : BitVec 3) (hi : (i, w v) ∈ readRows q .clean) (hv : State.transposed (w v) = false)
        (hyw : s.wholeStatus (w v) .read = none) (hyg : granted r.desc r.state 0 (w v).view.toNat .read = true)
        (hoff : q.off < regionSpan r.desc 0) (he : s.errorsOf r (s.readCodes r (w v)) = []) :=
      porchRead_plain hi hv ho ‹q.view.toNat < 5› hq hr hop ht hh g hreg hl hc hyw hyg hoff he
    have onTile (i : Instr) (v : BitVec 3) (hi : (i, w v) ∈ readRows q .clean) (hv : State.transposed (w v) = true)
        (hyw : s.wholeStatus (w v) .read = none) (hyg : granted r.desc r.state 0 (w v).view.toNat .read = true)
        (hoff : q.off / 128 < tileBeats r.desc) (he : s.errorsOf r (s.readCodes r (w v)) = []) :=
      porchRead_transposed hi hv ho ‹q.view.toNat < 5› hq hr hop ht hh g hreg hl hc hyw hyg hoff he
    simp only [rows, List.mem_cons, List.not_mem_nil, or_false] at hx
    obtain rfl | rfl | rfl | rfl := hx
    · exact onPlain _ 0 (by simp [readRows, w]) rfl hw hg (of_decide_eq_true hin) herr
    · exact onTile _ 1 (by simp [readRows, w]) rfl hw hg (of_decide_eq_true hin) herr
    · exact onPlain _ 2 (by simp [readRows, w]) rfl hw hg (of_decide_eq_true hin) herr
    · exact onTile _ 3 (by simp [readRows, w]) rfl hw hg (of_decide_eq_true hin) herr
  case refused =>
    exact porchRead_refused

end Sys2Proof.Machine
end

section
/-! PROOFS. The patrols, delta acknowledgements, landing messages, coded reads and accesses from outside (R84, R86, R98, R139, R162, R180 to
R183, R291, R305, R426 to R431). -/

namespace Sys2Proof.Machine

/-! ## The patrols -/

theorem forEach_same {α : Type} (l : List α) (s : State) : forEach l (fun _ st => st) s = s := by
  induction l generalizing s with
  | nil => rfl
  | cons _ xs ih => exact ih s

/-- What the internal patrol finds in the rows that it reads. -/
def foundAt (found : List (BitVec 16 × RowRead)) (x : Nat × Nat) : Option RowRead :=
  (found.find? (fun f => f.1.toNat == x.1)).map (fun f => f.2)

/-- The patrol reads its rows, counts them, and moves on. -/
def State.patrolled (s : State) : State :=
  State.bump 0x50C0 0x0E (s.patrolRow s.scrub.patrolRows).length { s with scrub := { s.scrub with
    merge := s.scrub.merge.filter (fun m => !(s.patrolRow s.scrub.patrolRows).contains m)
    passes := if s.scrub.patrolRows = 4097 then s.scrub.passes + 1 else s.scrub.passes
    patrolRows := if s.scrub.patrolRows = 4097 then 0 else s.scrub.patrolRows + 1 } }

theorem State.internalPatrol_eq (found : List (BitVec 16 × RowRead)) (s : State) :
    State.internalPatrol (found.map (fun f => (f.1.toNat, f.2))) s = forEach (s.patrolRow s.scrub.patrolRows) (fun x st =>
      match foundAt found x with
      | some f => State.rowFound true x.1 x.2 f st
      | none => st) s.patrolled := by
  unfold State.internalPatrol State.patrolled
  dsimp only
  congr 1
  funext x st
  rw [foundAt, List.find?_map]
  cases h : found.find? (fun f => f.1.toNat == x.1) with
  | none =>
    have h' : found.find? ((fun f : Nat × RowRead => f.1 == x.1) ∘ fun f => (f.1.toNat, f.2)) = none := h
    rw [h']
    rfl
  | some f =>
    have h' : found.find? ((fun f : Nat × RowRead => f.1 == x.1) ∘ fun f => (f.1.toNat, f.2)) = some f := h
    rw [h']
    rfl

theorem exec_internalPatrolRead (found : List (BitVec 16 × RowRead)) (mem : MemAns) (s : State) : exec (.internalPatrolRead found mem) s =
    .next (State.finish (State.settleAll ((State.begun mem s).ready
      (fun x => x.internalPatrol (found.map (fun f => (f.1.toNat, f.2))))))) := rfl

theorem exec_hearthPatrolRead {c : BitVec 4} (mem : MemAns) {s : State} (hc : c.toNat < s.C) : exec (.hearthPatrolRead c mem) s =
    .next (State.finish (State.settleAll ((State.begun mem s).ready (fun x => x.hearthPatrol c.toNat mem)))) := if_pos (decide_eq_true hc)

theorem exec_mergeBufferIdle {bank : BitVec 16} {s : State} (hb : s.hasRow bank.toNat 0 = true) :
    exec (.mergeBufferIdle bank) s = .next (State.finish (State.mergeIdle bank.toNat (State.begun .clean s))) := if_pos hb

/-- Settles O37: the patrol's rows, the patrol of the hearth with and without a rate, and a buffer that writes its row back. -/
theorem patrolsReadRows : Obligations.PatrolsReadRows := by
  refine ⟨?internal, ?hearth, ?merge⟩
  case internal =>
    intro found mem s s0 hr p banks rows s1 at_
    have he (found : List (BitVec 16 × RowRead)) : exec (.internalPatrolRead found mem) s = .next (State.finish (State.settleAll
        (forEach rows (fun x st => match foundAt found x with
          | some f => State.rowFound true x.1 x.2 f st
          | none => st) s1))) := by
      rw [exec_internalPatrolRead]
      refine congrArg (fun t => Host.Outcome.next (State.finish (State.settleAll t))) ?_
      exact (if_pos hr).trans (State.internalPatrol_eq found s0)
    refine ⟨he found, fun hn => ?_, fun _ _ _ => rfl⟩
    subst hn
    exact (he []).trans (congrArg (fun t => Host.Outcome.next (State.finish (State.settleAll t))) (forEach_same rows s1))
  case hearth =>
    intro c mem s hc s0 hr
    rw [exec_hearthPatrolRead mem hc]
    refine ⟨fun h0 => ?_, fun h0 => ?_⟩
    · refine congrArg (fun t => Host.Outcome.next (State.finish (State.settleAll t))) ((if_pos hr).trans ?_)
      exact if_pos (by rw [h0]; rfl)
    · refine congrArg (fun t => Host.Outcome.next (State.finish (State.settleAll t))) ((if_pos hr).trans ?_)
      have hn : ¬ ((s0.reg 0x3090 0x04 = 0 || !s0.sys.ready) = true) := by simp [h0, hr]
      refine (if_neg hn).trans ?_
      by_cases hc0 : c.toNat = 0
      · simp only [hc0, if_true]
        rfl
      · simp only [hc0, if_false]
        rfl
  case merge =>
    intro bank s hb
    rw [exec_mergeBufferIdle hb, State.begun_clean]
    rfl

/-! ## Messages that are taken in -/

/-- A message that is taken in has the effect of its row. -/
theorem exec_taken {c : Instr} {s u : State} {f : HeldMsg → State → State} (ha : Admits c s) (hp : portExists c s = true)
    (hf : ownEffect c = f) (hu : f (messageIn c) (takenIn c s) = u) : exec c s = .next (State.finish (State.settleAll u)) := by
  rw [exec_admitted ha hp, hf, hu]

/-! ## Delta acknowledgements -/

section
variable {m : HeldMsg} {r : ReqRt} {s : State}

/-- An acknowledgement repeats the hank, role and group of its set. -/
def repeatsSet (m : HeldMsg) (r : ReqRt) : Bool :=
  r.typ == 0x10 && fld 0 2 m.body == fld 0 2 r.body && fld 2 1 m.body == fld 2 1 r.body && fld 4 4 m.body == fld 8 4 r.body

theorem repeatsSet_eq (m : HeldMsg) (r : ReqRt) : (r.typ != 0x10 || fld 0 2 m.body != fld 0 2 r.body || fld 2 1 m.body != fld 2 1 r.body ||
    fld 4 4 m.body != fld 8 4 r.body) = !repeatsSet m r := by
  simp only [repeatsSet, Bool.not_and, bne]

theorem State.onDeltaAck_other (hr : s.openReq m.request = some r) (h : repeatsSet m r = false) : State.onDeltaAck m s = s := by
  simp only [State.onDeltaAck, hr, repeatsSet_eq, h, Bool.not_false, if_true]

theorem State.onDeltaAck_refused (hr : s.openReq m.request = some r) (h : repeatsSet m r = true) (hc : 2 ≤ fld 3 1 m.body) :
    State.onDeltaAck m s = State.note 0x5040 0x05 (State.hankDetail (fld 0 2 r.body) (fld 3 1 m.body * 2 ^ 32 + fld 8 4 r.body)) s := by
  simp only [State.onDeltaAck, hr, repeatsSet_eq, h, Bool.not_true, Bool.false_eq_true, if_false, ge_iff_le, hc, if_true]

theorem State.onDeltaAck_taken {gr : GroupRt} (hr : s.openReq m.request = some r) (h : repeatsSet m r = true) (hc : fld 3 1 m.body < 2)
    (hg : s.card.inflight.find? (fun x => State.setKey x (natAt r.key 2) == r.key) = some gr) :
    State.onDeltaAck m s = State.ackSet gr (natAt r.key 2) (State.freeReq r.engine r.entry s) := by
  simp only [State.onDeltaAck, hr, repeatsSet_eq, h, Bool.not_true, Bool.false_eq_true, if_false, ge_iff_le, Nat.not_le.mpr hc, hg]

end

/-- Settles O40: the acknowledgement of another set, of a set that was turned away, and of a set that was taken. -/
theorem acknowledgementsCommit : Obligations.AcknowledgementsCommit := by
  intro h body mem r s ha m t ends hr right
  refine ⟨fun hx => ?_, fun hx hc => ?_, fun hx hc gr hg => ?_⟩
  · exact exec_taken ha rfl rfl (State.onDeltaAck_other hr hx)
  · exact exec_taken ha rfl rfl (State.onDeltaAck_refused hr hx hc)
  · exact exec_taken ha rfl rfl (State.onDeltaAck_taken hr hx hc hg)

/-! ## Landing messages -/

section
variable {m : HeldMsg} {r : ReqRt} {s : State}

theorem State.onMirrorPiece_stored {j : Nat} {bm : BucketMap} (hj : s.senderPos m.source = some j) (hb : s.bucketMap = some bm)
    (h : (decide (fld 8 4 m.body < bm.mirrorArea) && m.step == s.fr.step && s.fr.opened && !s.fenced) = true) :
    let q := fld 8 4 m.body
    let data := m.body.drop 32
    let t1 := State.spanWrite (s.regionBase bm.mirrorHank) ((j * bm.mirrorArea + q) * 4096) data s
    let piece : MirrorRt := { sender := j, seq := q, site := fld 0 1 m.body, piece := fld 4 4 m.body, length := data.length,
                              count := fld 16 8 m.body, dropped := fld 24 8 m.body }
    State.onMirrorPiece m s = State.reply m 0x13 (State.mirrorAckBody m.body 0) (State.bump 0x5020 0x12 1 { t1 with land := { t1.land with
      mirrors := t1.land.mirrors.filter (fun x => !(x.sender == j && x.seq == q)) ++ [piece] } }) := by
  simp only [State.onMirrorPiece, hj, hb, h, if_true]

theorem State.onMirrorPiece_outside {j : Nat} {bm : BucketMap} (hj : s.senderPos m.source = some j) (hb : s.bucketMap = some bm)
    (h : (decide (fld 8 4 m.body < bm.mirrorArea) && m.step == s.fr.step && s.fr.opened && !s.fenced) = false) :
    State.onMirrorPiece m s = State.reply m 0x13 (State.mirrorAckBody m.body 1) (State.bump 0x5020 0x0C 1 s) := by
  simp only [State.onMirrorPiece, hj, hb, h, Bool.false_eq_true, if_false]

theorem State.onMirrorPiece_stranger (h : s.senderPos m.source = none ∨ s.bucketMap = none) :
    State.onMirrorPiece m s = State.reply m 0x13 (State.mirrorAckBody m.body 1) (State.bump 0x5020 0x0C 1 s) := by
  unfold State.onMirrorPiece
  dsimp only
  split
  · rename_i hj hb
    rw [hj, hb] at h
    exact absurd h (by simp)
  · rfl

theorem State.onMirrorAck_freed (hr : s.openReq m.request = some r) : State.onMirrorAck m s = State.freeReq r.engine r.entry s := by
  simp only [State.onMirrorAck, hr]

theorem State.onReRequest_held (h : m.step ≠ s.fr.step ∨ s.fr.opened = false ∨ s.fenced = true ∨
    (s.lostSiteOf m = none ∧ s.maySiteOf m = false)) : State.onReRequest m s = State.sendReAnswer m (s.reAnswer m) s := by
  unfold State.onReRequest
  split
  · rename_i hc
    obtain ⟨⟨hstep, hopen⟩, hf⟩ : (m.step = s.fr.step ∧ s.fr.opened = true) ∧ s.fenced = false := by simpa using hc
    obtain h | h | h | ⟨h1, h2⟩ := h
    · exact absurd hstep h
    · exact absurd (hopen.symm.trans h) (by decide)
    · exact absurd (hf.symm.trans h) (by decide)
    · simp only [h1, h2, Bool.false_eq_true, if_false]
  · rfl

theorem State.onReRequest_lost {c : LostCtx} {x : Site} {o : Outbox} (h1 : m.step = s.fr.step) (h2 : s.fr.opened = true)
    (h3 : s.fenced = false) (hl : s.lostSiteOf m = some (c, x, o)) : State.onReRequest m s = State.serveLost m c x o s := by
  simp only [State.onReRequest, h1, h2, h3, hl, decide_true, Bool.and_self, Bool.not_false, if_true]

theorem State.onReRequest_waits (h1 : m.step = s.fr.step) (h2 : s.fr.opened = true) (h3 : s.fenced = false)
    (hl : s.lostSiteOf m = none) (hm : s.maySiteOf m = true) :
    State.onReRequest m s = { s with loss := { s.loss with heldOut := s.loss.heldOut ++ [m] } } := by
  simp only [State.onReRequest, h1, h2, h3, hl, hm, decide_true, Bool.and_self, Bool.not_false, if_true]

section
variable {step node site slot length offset : Nat}

theorem State.onReAnswer_data (hr : s.openReq m.request = some r) (ht : r.typ = 0x14) (hk : r.key = [step, node, site, slot, length, offset])
    (h0 : fld 0 1 m.body = 0) (hl : (m.body.drop 136).length = length) :
    let s1 := State.freeReq r.engine r.entry s
    State.onReAnswer m s = State.serveHeldOut (State.advanceComps { s1 with loss := { s1.loss with inputs := s1.loss.inputs ++
      [{ step := step, node := node, site := site, slot := slot, offset := offset, header := sub 8 128 m.body, data := m.body.drop 136 }] } }) := by
  simp only [State.onReAnswer, hr, ht, hk, h0, hl, bne_self_eq_false, Bool.and_false, Bool.false_eq_true, if_false, if_true]

theorem State.onReAnswer_short (hr : s.openReq m.request = some r) (ht : r.typ = 0x14) (hk : r.key = [step, node, site, slot, length, offset])
    (h0 : fld 0 1 m.body = 0) (hl : (m.body.drop 136).length ≠ length) : State.onReAnswer m s = State.sendPulls
      [{ dest := r.dest, node := node, site := site, slot := slot, length := length, offset := offset }] step
      (State.freeReq r.engine r.entry s) := by
  have hl' : ((m.body.drop 136).length != length) = true := by simpa using hl
  simp only [State.onReAnswer, hr, ht, hk, h0, hl', decide_true, bne_self_eq_false, Bool.and_self, Bool.false_eq_true, if_false, if_true]

theorem State.onReAnswer_none (hr : s.openReq m.request = some r) (ht : r.typ = 0x14) (hk : r.key = [step, node, site, slot, length, offset])
    (h0 : fld 0 1 m.body ≠ 0) :
    let s1 := State.freeReq r.engine r.entry s
    State.onReAnswer m s = State.serveHeldOut (State.advanceComps { s1 with loss := { s1.loss with
      noInputs := s1.loss.noInputs ++ [(step, node, site, slot, offset)] } }) := by
  simp only [State.onReAnswer, hr, ht, hk, h0, decide_false, bne_self_eq_false, Bool.false_and, Bool.false_eq_true, if_false]

end

end

/-- Settles O41: what a mirror piece, a re-request and their answers do, case by case. -/
theorem landingMessagesAreServed : Obligations.LandingMessagesAreServed := by
  intro h body mem s ends
  refine ⟨fun ha => ?piece, fun ha => ?stranger, fun ha => ?ack, fun ha => ?ask, fun ha => ?answer⟩
  case piece =>
    intro m t j bm hj hb q data fits t1 piece
    exact ⟨fun hf => exec_taken ha rfl rfl (State.onMirrorPiece_stored hj hb hf),
      fun hf => exec_taken ha rfl rfl (State.onMirrorPiece_outside hj hb hf)⟩
  case stranger =>
    intro m t hn
    exact exec_taken ha rfl rfl (State.onMirrorPiece_stranger hn)
  case ack =>
    intro m t r hr
    exact exec_taken ha rfl rfl (State.onMirrorAck_freed hr)
  case ask =>
    intro m t
    refine ⟨fun hn => exec_taken ha rfl rfl (State.onReRequest_held hn), fun h1 h2 h3 => ⟨fun c x o hl => ?_, fun hn hm => ?_⟩⟩
    · exact exec_taken ha rfl rfl (State.onReRequest_lost h1 h2 h3 hl)
    · exact exec_taken ha rfl rfl (State.onReRequest_waits h1 h2 h3 hn hm)
  case answer =>
    intro m t r step node site slot length offset hr ht hk t1 input
    exact ⟨fun h0 hl => exec_taken ha rfl rfl (State.onReAnswer_data hr ht hk h0 hl),
      fun h0 hl => exec_taken ha rfl rfl (State.onReAnswer_short hr ht hk h0 hl),
      fun h0 => exec_taken ha rfl rfl (State.onReAnswer_none hr ht hk h0)⟩

/-! ## Coded reads -/

section
variable {m : HeldMsg} {r : ReqRt} {l : Layout} {hank bd o j : Nat} {s : State}

theorem State.onPlyRead_waits (h1 : s.mem.epoch < m.epoch) (h2 : s.fenced = false) :
    State.onPlyRead m s = { s with code := { s.code with heldReads := s.code.heldReads ++ [m] } } :=
  if_pos (by simp [h1, h2])

theorem State.onStripeRead_waits (h1 : s.mem.epoch < m.epoch) (h2 : s.fenced = false) :
    State.onStripeRead m s = { s with code := { s.code with heldReads := s.code.heldReads ++ [m] } } :=
  if_pos (by simp [h1, h2])

theorem State.onPlyRead_now (h : m.epoch ≤ s.mem.epoch ∨ s.fenced = true) : State.onPlyRead m s = State.answerPly m s := by
  refine if_neg (fun hc => ?_)
  rw [Bool.and_eq_true, decide_eq_true_eq, Bool.not_eq_true'] at hc
  obtain h | h := h
  · omega
  · exact absurd (h.symm.trans hc.2) (by decide)

theorem State.onStripeRead_now (h : m.epoch ≤ s.mem.epoch ∨ s.fenced = true) : State.onStripeRead m s = State.answerStripe m s := by
  refine if_neg (fun hc => ?_)
  rw [Bool.and_eq_true, decide_eq_true_eq, Bool.not_eq_true'] at hc
  obtain h | h := h
  · omega
  · exact absurd (h.symm.trans hc.2) (by decide)

theorem State.answerPly_fenced (h : s.fenced = true) :
    State.answerPly m s = State.readReply m 3 0 0 [] (State.bump 0x5040 0x09 1 s) := if_pos h

theorem State.answerStripe_fenced (h : s.fenced = true) :
    State.answerStripe m s = State.readReply m 3 0 0 [] (State.bump 0x5040 0x0A 1 s) := if_pos h

theorem State.answerPly_new (hf : s.fenced = false) (ho : s.code.oldLayout = none) :
    State.answerPly m s = State.answerNew m (fld 0 2 m.body) (fld 2 1 m.body) (fld 3 1 m.body) (fld 4 4 m.body) (State.bump 0x5040 0x09 1 s) := by
  have hf' : (State.bump 0x5040 0x09 1 s).fenced = false := hf
  have ho' : (State.bump 0x5040 0x09 1 s).code.oldLayout = none := ho
  simp only [State.answerPly, hf', ho', Bool.false_eq_true, if_false]

/-- This member holds a role of the band that a ply read names. -/
def State.holdsPly (l : Layout) (m : HeldMsg) (h role x hank bd : Nat) (s : State) : Bool :=
  hank == h && decide (role < l.m) && decide (x < l.n) && s.pliesHeld h && s.roleHolder l h bd x role == l.position && !s.readOld m

variable {h role x lap : Nat}

theorem State.answerNew_held (hl : s.code.layout = some l) (hb : l.bandOfLap lap = some (hank, bd, o)) :
    State.answerNew m h role x lap s = if State.holdsPly l m h role x hank bd s = true then
        if s.bandEmpty h bd x role then State.readReply m 0 0 0 (zeros Config.stripe) s
        else
          let s1 := s.askPlyStripe l h lap x role
          let s2 := if s1.plyBad l h lap x role then s1.startRecomp l h bd x role else s1
          State.readReply m 0 0 (s2.tagWord l h bd x role) (s2.readPly l h lap x role) s2
      else State.readReply m 2 0 0 [] s := by
  have hc : (hank = h && role < l.m && x < l.n && s.pliesHeld h && s.roleHolder l h bd x role == l.position && !s.readOld m) =
      State.holdsPly l m h role x hank bd s := rfl
  simp only [State.answerNew, hl, hb, hc]

/-- A role's holder answers from an empty band with zero. -/
theorem State.answerNew_empty (hl : s.code.layout = some l) (hb : l.bandOfLap lap = some (hank, bd, o))
    (hh : State.holdsPly l m h role x hank bd s = true) (he : s.bandEmpty hank bd x role = true) :
    State.answerNew m h role x lap s = State.readReply m 0 0 0 (zeros Config.stripe) s := by
  obtain rfl : hank = h := by simp only [State.holdsPly, Bool.and_eq_true, beq_iff_eq] at hh; exact hh.1.1.1.1.1
  rw [State.answerNew_held hl hb, if_pos hh, if_pos he]

/-- A role's holder answers with the ply and its tag word where the ply can be read. -/
theorem State.answerNew_ply (hl : s.code.layout = some l) (hb : l.bandOfLap lap = some (hank, bd, o))
    (hh : State.holdsPly l m h role x hank bd s = true) (he : s.bandEmpty hank bd x role = false)
    (hg : (s.askPlyStripe l hank lap x role).plyBad l hank lap x role = false) :
    State.answerNew m h role x lap s = State.readReply m 0 0 ((s.askPlyStripe l hank lap x role).tagWord l hank bd x role)
      ((s.askPlyStripe l hank lap x role).readPly l hank lap x role) (s.askPlyStripe l hank lap x role) := by
  obtain rfl : hank = h := by simp only [State.holdsPly, Bool.and_eq_true, beq_iff_eq] at hh; exact hh.1.1.1.1.1
  rw [State.answerNew_held hl hb, if_pos hh, if_neg (by rw [he]; decide)]
  simp only [hg, Bool.false_eq_true, if_false]

theorem State.answerNew_elsewhere (hl : s.code.layout = some l) (hb : l.bandOfLap lap = some (hank, bd, o))
    (hh : State.holdsPly l m h role x hank bd s = false) : State.answerNew m h role x lap s = State.readReply m 2 0 0 [] s := by
  rw [State.answerNew_held hl hb, if_neg (by rw [hh]; decide)]

/-- A stripe read that one position can answer for is answered for it. -/
theorem State.answerStripe_one (hf : s.fenced = false) (hl : s.code.layout = some l) (hlocal : m.isLocal = false)
    (ho : s.readOwners l (fld 0 2 m.body) (fld 4 4 m.body) = [j]) :
    State.answerStripe m s = State.answerStripeOf m l j (State.bump 0x5040 0x0A 1 s) := by
  have hf' : (State.bump 0x5040 0x0A 1 s).fenced = false := hf
  have hl' : (State.bump 0x5040 0x0A 1 s).code.layout = some l := hl
  have ho' : (State.bump 0x5040 0x0A 1 s).readOwners l (fld 0 2 m.body) (fld 4 4 m.body) = [j] := ho
  simp only [State.answerStripe, hf', hl', ho', hlocal, Bool.false_eq_true, if_false]

theorem State.readAnswer_stranger (hr : s.openReq m.request = some r) (hm : s.isMember m.source = false) :
    State.readAnswer m s = State.bump 0x5040 0x04 1 s := by
  simp only [State.readAnswer, hr, hm, Bool.not_false, if_true]

section
variable (hr : s.openReq m.request = some r) (hm : s.isMember m.source = true) (ht : r.typ = 0x16 ∨ r.typ = 0x17)
include hr hm ht

theorem State.readAnswer_recomp (hk : r.key.headD 0 = 1) :
    State.readAnswer m s = State.feedRecomp r.key m.body (State.freeReq r.engine r.entry s) := by
  have ht' : (r.typ != 0x16 && r.typ != 0x17) = false := by obtain ht | ht := ht <;> rw [ht] <;> rfl
  simp only [State.readAnswer, hr, hm, ht', hk, Bool.not_true, Bool.false_eq_true, if_false]

theorem State.readAnswer_comp (hk : r.key.headD 0 = 2) :
    State.readAnswer m s = State.feedComp r m.body (State.freeReq r.engine r.entry s) := by
  have ht' : (r.typ != 0x16 && r.typ != 0x17) = false := by obtain ht | ht := ht <;> rw [ht] <;> rfl
  simp only [State.readAnswer, hr, hm, ht', hk, Bool.not_true, Bool.false_eq_true, if_false]

theorem State.readAnswer_decode (hk : r.key.headD 0 = 3) :
    let x := State.feedDecode r.key m.body (State.freeReq r.engine r.entry s)
    State.readAnswer m s = State.decodeResult x.2 x.1 := by
  have ht' : (r.typ != 0x16 && r.typ != 0x17) = false := by obtain ht | ht := ht <;> rw [ht] <;> rfl
  simp only [State.readAnswer, hr, hm, ht', hk, Bool.not_true, Bool.false_eq_true, if_false]

end

end

/-- Settles O42: reads that wait, reads at a fenced member, reads that are answered, and what an answer feeds. -/
theorem codedReadsAreAnswered : Obligations.CodedReadsAreAnswered := by
  intro h body mem s ends
  refine ⟨fun c sub hc ha => ?both, fun ha => ?ply, fun ha => ?stripe, fun ha => ?answer⟩
  case both =>
    intro m t
    simp only [List.mem_cons, List.not_mem_nil, or_false, Prod.mk.injEq] at hc
    obtain ⟨rfl, rfl⟩ | ⟨rfl, rfl⟩ := hc
    · exact ⟨fun h1 h2 => exec_taken ha rfl rfl (State.onPlyRead_waits h1 h2),
        fun hf => exec_taken ha rfl rfl ((State.onPlyRead_now (.inr hf)).trans (State.answerPly_fenced hf))⟩
    · exact ⟨fun h1 h2 => exec_taken ha rfl rfl (State.onStripeRead_waits h1 h2),
        fun hf => exec_taken ha rfl rfl ((State.onStripeRead_now (.inr hf)).trans (State.answerStripe_fenced hf))⟩
  case ply =>
    intro m t he hf ho l hank bd o hl hb lap role x t1 here
    have hnew : State.onPlyRead m t = State.answerNew m (fld 0 2 m.body) role x lap t1 :=
      (State.onPlyRead_now (.inl he)).trans (State.answerPly_new hf ho)
    exact ⟨fun hh hz => exec_taken ha rfl rfl (hnew.trans (State.answerNew_empty hl hb hh hz)),
      fun hh hz hg => exec_taken ha rfl rfl (hnew.trans (State.answerNew_ply hl hb hh hz hg)),
      fun hh => exec_taken ha rfl rfl (hnew.trans (State.answerNew_elsewhere hl hb hh))⟩
  case stripe =>
    intro m t he hf l j hl ho
    exact exec_taken ha rfl rfl ((State.onStripeRead_now (.inl he)).trans (State.answerStripe_one hf hl rfl ho))
  case answer =>
    intro m t r hr
    exact ⟨fun hm => exec_taken ha rfl rfl (State.readAnswer_stranger hr hm),
      fun hm ht => ⟨fun hk => exec_taken ha rfl rfl (State.readAnswer_recomp hr hm ht hk),
        fun hk => exec_taken ha rfl rfl (State.readAnswer_comp hr hm ht hk),
        fun hk => exec_taken ha rfl rfl (State.readAnswer_decode hr hm ht hk)⟩⟩

end Sys2Proof.Machine
end

section
/-! PROOFS. Fill sets, adoption reports and accesses from outside (R170, R173, R180 to R183, R213, R291, R296, R305). -/

namespace Sys2Proof.Machine

/-! ## What sending does to the membership

Of its state, forming a message only notes the node that was sent something. -/

section
variable {s : State}

theorem State.evictOne_mem (s : State) : (State.evictOne s).mem = s.mem := by
  unfold State.evictOne
  dsimp only
  split <;> rfl

theorem State.evictFor_mem (node : Nat) (s : State) : (State.evictFor node s).mem = s.mem := by
  unfold State.evictFor
  dsimp only
  split
  · rfl
  · exact State.evictOne_mem s

theorem State.nextAlive_mem (dest cls : Nat) (s : State) : (State.nextAlive dest cls s).1.mem = s.mem := by
  have ht : (if cls = 2 then s.touchCtx dest else s).mem = s.mem := by split <;> rfl
  unfold State.nextAlive
  generalize (if cls = 2 then s.touchCtx dest else s) = z at ht ⊢
  have hz (b : Bool) : (if b then z.evictFor dest else z).mem = s.mem := by
    cases b
    · exact ht
    · exact (State.evictFor_mem dest z).trans ht
  dsimp only
  generalize List.find? _ z.fx.sendCtx = ctx
  have hb := hz (decide (cls = 2) && ctx.isNone)
  generalize (if (decide (cls = 2) && ctx.isNone) = true then z.evictFor dest else z) = y at hb ⊢
  split <;> split <;> assumption

theorem State.stamp_mem (m : TxMsg) (s : State) : (State.stamp m s).1.mem = s.mem := by
  have h := State.nextAlive_mem m.destination m.cls s
  unfold State.stamp
  simp only
  generalize State.nextAlive m.destination m.cls s = z at h ⊢
  split
  · exact h
  · exact h

theorem State.spend_mem (way cls step hdr unit : Nat) (s : State) : (State.spend way cls step hdr unit s).mem = s.mem := by
  unfold State.spend
  simp only
  split <;> rfl

theorem State.endEntry_mem (t : TxRt) (s : State) : (State.endEntry t s).mem = s.mem := by
  have hl (z : State) : (State.leaveReg true t.msg.way t.msg.cls t.msg.trailer t.ctx z).mem = z.mem := by
    unfold State.leaveReg
    split
    · rfl
    · split <;> rfl
  unfold State.endEntry
  dsimp only [State.emit]
  split
  · rfl
  · exact hl _

theorem State.pumpClass_mem (k way cls : Nat) (s : State) : (State.pumpClass k way cls s).mem = s.mem := by
  induction k generalizing s with
  | zero => rfl
  | succ k ih =>
    unfold State.pumpClass
    split
    · rfl
    · rename_i t _
      dsimp only
      generalize hz : State.spend way cls t.msg.step _ _ _ = z
      have h1 : z.mem = s.mem := by rw [← hz]; exact State.spend_mem ..
      have h2 : (if t.started then (z, t) else z.startMsg t).1.mem = z.mem := by
        split
        · rfl
        · exact State.stamp_mem t.msg z
      generalize (if t.started then (z, t) else z.startMsg t) = y at h2 ⊢
      have h3 (n : Nat) : (State.sendUnits y.2 n y.1).mem = y.1.mem := by
        refine forEach_proj (fun u : State => u.mem) (fun _ _ => ?_) _ _
        rfl
      have h4 := ((h3 (min t.left (s.creditAt way cls).unit)).trans h2).trans h1
      rw [ih]
      split
      · exact (State.endEntry_mem _ _).trans h4
      · exact h4

theorem State.pump_mem (s : State) : (State.pump s).mem = s.mem := by
  refine forEach_proj (fun u : State => u.mem) (fun x u => ?_) _ s
  split
  · exact State.pumpClass_mem ..
  · rfl

/-- Of the membership, at most the nodes that were sent something have changed. -/
def SentTo (s t : State) : Prop := ∃ l : List Nat, t.mem = { s.mem with sentTo := l }

theorem SentTo.of_mem {t : State} (h : t.mem = s.mem) : SentTo s t := ⟨s.mem.sentTo, h⟩

theorem SentTo.trans {t u : State} (h : SentTo s t) (k : SentTo t u) : SentTo s u := by
  obtain ⟨_, h⟩ := h
  obtain ⟨l, k⟩ := k
  exact ⟨l, by rw [k, h]⟩

theorem State.post_sentTo (typ dest way job epoch step request : Nat) (body : Bytes) (s : State) :
    SentTo s (State.post typ dest way job epoch step request body s) := by
  unfold State.post
  split
  · exact .of_mem rfl
  · split
    · exact .of_mem rfl
    · dsimp only
      refine SentTo.trans ?_ (.of_mem (State.pump_mem _))
      unfold State.markSent
      split
      · exact .of_mem rfl
      · exact ⟨_, rfl⟩

theorem SentTo.fx (f : FxSt) (s : State) : SentTo s { s with fx := f } := .of_mem rfl

theorem State.sendIn_sentTo (e : Nat) (w : ReqWait) (s : State) : SentTo s (State.sendIn e w s) :=
  (SentTo.fx _ s).trans (State.post_sentTo ..)

theorem State.enqueue_sentTo (w : ReqWait) (s : State) : SentTo s (State.enqueue w s) := by
  unfold State.enqueue
  split
  · exact State.sendIn_sentTo ..
  · exact .fx _ s

theorem State.freeReq_sentTo (engine entry : Nat) (s : State) : SentTo s (State.freeReq engine entry s) := by
  unfold State.freeReq
  dsimp only
  split
  · exact .of_mem rfl
  · refine SentTo.trans (.of_mem rfl) (State.enqueue_sentTo _ _)

end

/-! ## Fill sets and reports -/

section
variable {m : HeldMsg} {r : ReqRt} {k : HankRt} {s : State}

/-- The acknowledgement of a fill set. -/
def fillAcked (m : HeldMsg) (code : Nat) (s : State) : State :=
  State.reply m 0x1A (toLE 2 (fld 0 2 m.body) ++ toLE 1 code ++ [0] ++ toLE 4 (fld 4 4 m.body) ++ toLE 8 m.step) s

/-- A fill set is for a LOADING STATE hank of the group's shape at a spare or target of its position, which is not fenced. -/
def State.fillsRight (m : HeldMsg) (k : HankRt) (s : State) : Bool :=
  k.desc.cls == 1 && k.state == 1 && (s.spareOf == fld 2 1 m.body || (fld 8 1 m.body == 2 && s.myPos == fld 2 1 m.body)) &&
    decide (fld 4 4 m.body < groupsOf k.desc.count) && fld 3 1 m.body == stripesPerGroup k.desc.planes k.desc.formats && !s.fenced

/-- The pages that a fill set changes. -/
def State.fillPages (m : HeldMsg) (s : State) : List PageKey :=
  spanPages s.C (fld 0 2 m.body) 0 (fld 4 4 m.body * Config.stripe) Config.stripe

theorem State.onFillSet_absent (h : s.hank? (fld 0 2 m.body) = none) : State.onFillSet m s = fillAcked m 1 s := by
  simp only [State.onFillSet, h, fillAcked]

theorem State.fillsRight_eq (m : HeldMsg) (k : HankRt) (s : State) :
    (!(k.desc.cls = 1 && k.state = 1 && (s.spareOf == fld 2 1 m.body || (fld 8 1 m.body == 2 && s.myPos == fld 2 1 m.body)) &&
      fld 4 4 m.body < groupsOf k.desc.count && fld 3 1 m.body == stripesPerGroup k.desc.planes k.desc.formats) || s.fenced) =
      !State.fillsRight m k s := by
  simp only [State.fillsRight, Bool.not_and, Bool.not_not]
  rfl

theorem State.onFillSet_refused (h : s.hank? (fld 0 2 m.body) = some k) (hr : State.fillsRight m k s = false) :
    State.onFillSet m s = fillAcked m 1 s := by
  simp only [State.onFillSet, h, State.fillsRight_eq, hr, Bool.not_false, if_true, fillAcked]

theorem State.onFillSet_waits (h : s.hank? (fld 0 2 m.body) = some k) (hr : State.fillsRight m k s = true)
    (hc : s.coherent (State.fillPages m s) none = false) : State.onFillSet m s = State.invalidate (State.fillPages m s) none
      { s with tier := { s.tier with heldAtoms := s.tier.heldAtoms ++ [m] } } := by
  simp only [State.fillPages] at hc
  simp only [State.onFillSet, h, State.fillsRight_eq, hr, hc, Bool.not_true, Bool.not_false, Bool.false_eq_true, if_false, if_true,
    State.fillPages]

theorem State.onFillSet_stored (h : s.hank? (fld 0 2 m.body) = some k) (hr : State.fillsRight m k s = true)
    (hc : s.coherent (State.fillPages m s) none = true) :
    let g := fld 4 4 m.body
    let s1 := forEach (State.groupStripesOf k.desc g) (fun x st => st.clearKey (st.planeKey k x.1.1 (State.planeStripe g x.1) g))
      (State.writeGroup k g (pieces Config.stripe (m.body.drop 16)) s)
    State.onFillSet m s = fillAcked m 0 (State.checkSpare m.step (State.bump 0x5050 0x0F 1 { s1 with loss := { s1.loss with
      filled := s1.loss.filled.filter (fun f => !(f.1 == fld 0 2 m.body && f.2.1 == g)) ++ [(fld 0 2 m.body, g, m.step)],
      spareState := if s1.loss.spareState = 0 then 1 else s1.loss.spareState } })) := by
  simp only [State.fillPages] at hc
  simp only [State.onFillSet, h, State.fillsRight_eq, hr, hc, Bool.not_true, Bool.false_eq_true, if_false, fillAcked]

section
variable {kind pos h g : Nat}

theorem State.onFillAck_refused (hr : s.openReq m.request = some r) (ht : r.typ = 0x19) (hk : r.key = [kind, pos, h, g])
    (hc : fld 2 1 m.body ≠ 0) : State.onFillAck m s = State.copyGo (State.freeReq r.engine r.entry s) := by
  have hc' : (fld 2 1 m.body != 0) = true := by simpa using hc
  simp only [State.onFillAck, hr, ht, hk, hc', if_true]

theorem State.onFillAck_evac (hr : s.openReq m.request = some r) (ht : r.typ = 0x19) (hk : r.key = [1, pos, h, g])
    (hc : fld 2 1 m.body = 0) : State.onFillAck m s =
      State.copyGo (State.evacAck h g (fld 8 8 m.body) (State.freeReq r.engine r.entry s)) := by
  simp only [State.onFillAck, hr, ht, hk, hc, bne_self_eq_false, Bool.false_eq_true, if_false, if_true]

end

/-- The record that an adoption report brings. -/
def State.reported (m : HeldMsg) (heir : Nat) (s : State) : ReportRt :=
  { position := fld 2 1 m.body, step := m.step, epoch := m.epoch, heir := heir, hank := fld 0 2 m.body, flags := fld 3 1 m.body,
    groups := fld 4 4 m.body, digest := fld 8 8 m.body, touched := fld 16 8 m.body, committed := fld 24 8 m.body,
    unrecoverable := s.reportInputs (fld 2 1 m.body) (fld 0 2 m.body) m.step heir m.body }

/-- Acknowledging a report changes neither the members nor the reports. -/
theorem State.reply_report (m : HeldMsg) (typ : Nat) (bs : Bytes) (s : State) :
    (State.reply m typ bs s).posOf m.source = s.posOf m.source ∧ (State.reply m typ bs s).loss = s.loss := by
  have hn : (State.reply m typ bs s).mem.nodes = s.mem.nodes := by
    obtain ⟨_, h⟩ : SentTo s (State.reply m typ bs s) := State.post_sentTo ..
    rw [h]
  obtain ⟨_, _, _, _, _, _, _, h⟩ := State.reply_sent m typ bs s
  refine ⟨by simp only [State.posOf, hn], ?_⟩
  rw [h]

theorem State.onReport_dropped (h : s.posOf m.source = none ∨ m.epoch < s.loss.spreadEpoch) :
    State.onReport m s = State.reply m 0x1C (m.body.take 3 ++ zeros 5) s := by
  obtain ⟨hp, hl⟩ := State.reply_report m 0x1C (m.body.take 3 ++ zeros 5) s
  unfold State.onReport
  dsimp only
  cases hx : (State.reply m 0x1C (m.body.take 3 ++ zeros 5) s).posOf m.source with
  | none => rfl
  | some heir =>
    have h' : m.epoch < s.loss.spreadEpoch := h.resolve_left (by rw [← hp, hx]; exact Option.some_ne_none heir)
    rw [hl]
    exact if_pos h'

theorem State.onReport_taken {heir : Nat} (h : s.posOf m.source = some heir) (he : s.loss.spreadEpoch ≤ m.epoch) :
    let acked := State.reply m 0x1C (m.body.take 3 ++ zeros 5) s
    let x := State.reported m heir acked
    State.onReport m s = { acked with loss := { acked.loss with reports := acked.loss.reports.filter (fun y =>
      !(y.position == x.position && y.step == x.step && y.heir == x.heir && y.hank == x.hank)) ++ [x] } } := by
  intro acked x
  obtain ⟨hp, hl⟩ := State.reply_report m 0x1C (m.body.take 3 ++ zeros 5) s
  have hpos : acked.posOf m.source = some heir := hp.trans h
  have hn : ¬ m.epoch < acked.loss.spreadEpoch := by
    have : acked.loss.spreadEpoch = s.loss.spreadEpoch := congrArg LossSt.spreadEpoch hl
    omega
  simp only [acked] at hpos hn
  simp only [State.onReport, hpos, if_neg hn, x, acked, State.reported]

theorem State.onReportAck_open (hr : s.openReq m.request = some r) :
    State.onReportAck m s = if r.typ = 0x1B then State.freeReq r.engine r.entry s else s := by
  simp only [State.onReportAck, hr]

end

/-- Settles O43: what a fill set, a report and their acknowledgements do. -/
theorem fillsAndReportsAreTaken : Obligations.FillsAndReportsAreTaken := by
  intro h body mem s ends
  refine ⟨fun ha => ?fill, fun ha => ?fillAck, fun ha => ?report, fun ha => ?reportAck⟩
  case fill =>
    intro m t hank g ack target
    refine ⟨fun r hh => ?_, fun hn => exec_taken ha rfl rfl (State.onFillSet_absent hn)⟩
    intro ks right
    exact ⟨fun hr => exec_taken ha rfl rfl (State.onFillSet_refused hh hr),
      fun hr hc => exec_taken ha rfl rfl (State.onFillSet_waits hh hr hc),
      fun hr hc => exec_taken ha rfl rfl (State.onFillSet_stored hh hr hc)⟩
  case fillAck =>
    intro m t r kind pos hank g hr ht hk
    refine ⟨fun hc => exec_taken ha rfl rfl (State.onFillAck_refused hr ht hk hc), fun h1 hc => ?_⟩
    subst h1
    exact exec_taken ha rfl rfl (State.onFillAck_evac hr ht hk hc)
  case report =>
    intro m t acked
    refine ⟨fun hn => exec_taken ha rfl rfl (State.onReport_dropped hn), fun heir hp he => ?_⟩
    exact ⟨State.reported m heir acked, rfl, rfl, rfl, rfl, rfl, rfl, rfl, rfl, rfl, rfl,
      exec_taken ha rfl rfl (State.onReport_taken hp he)⟩
  case reportAck =>
    intro m t r hr
    exact exec_taken ha rfl rfl (State.onReportAck_open hr)

/-! ## Accesses from outside -/

section
variable {m : HeldMsg} {q : ReqRt} {r : HankRt} {v : Nat} {s : State}

theorem State.onWcomp_ends (hr : s.openReq m.request = some q) (ht : q.typ = 0x01) :
    State.onWcomp m s = State.writeEnd q (fld 0 1 m.body == 0) (State.freeReq q.engine q.entry s) := by
  simp only [State.onWcomp, hr, ht, if_true]

theorem State.onRdata_ends (hr : s.openReq m.request = some q) (ht : q.typ = 0x03) :
    State.onRdata m s = State.readEnd q (if fld 0 1 m.body == 0 && (m.body.drop 8).length == fld 8 4 q.body then some (m.body.drop 8)
      else none) (State.freeReq q.engine q.entry (State.cellarPoison q m s)) := by
  simp only [State.onRdata, hr, ht, if_true]

theorem State.fabricAtomic_absent (h : s.hank? (fld 0 2 m.body) = none) : State.fabricAtomic m s =
    State.reply m 0x06 ([1] ++ zeros 7 ++ s.freeBytes 8) (State.spendFree 8 (State.bump 0x5090 0x0C 1 s)) := by
  simp only [State.fabricAtomic, h]
  rfl

/-- An ATOMIC message on a LIVE SHARED hank that is not paged, whose word can be read, is done and answered with the old value. -/
theorem State.fabricAtomic_done (h : s.hank? (fld 0 2 m.body) = some r) (hst : r.state = 2) (hp : s.paged r.desc = false)
    (hpr : s.tier.presence = []) (hb : s.scrub.badBlocks = []) (hw : (State.fabricOp m.body).width = 4 ∨ (State.fabricOp m.body).width = 8)
    (hok : State.atomicOk r (State.fabricOp m.body) = true) (ho : (State.fabricOp m.body).off < regionSpan r.desc 0)
    (hgood : ∀ b ∈ s.regionBlocks r 0 ((State.fabricOp m.body).off / 128 * 128) 128, b ∉ s.ans.bad)
    (hv : atomicNew (State.fabricOp m.body).code (State.fabricOp m.body).width r.desc.unordered
      (leNat (s.spanRead (r.desc.base 0) (State.fabricOp m.body).off (State.fabricOp m.body).width)) (State.fabricOp m.body).a
      (State.fabricOp m.body).b = some v) :
    let op := State.fabricOp m.body
    let s1 := State.spanWrite (r.desc.base 0) op.off (toLE op.width v)
      (State.takeMem s.ans (s.regionBlocks r 0 (op.off / 128 * 128) 128) s)
    State.fabricAtomic m s = State.reply m 0x06 (zeros 8 ++ toLE 8 (leNat (s.spanRead (r.desc.base 0) op.off op.width)))
      (State.bump 0x5090 0x0F 1 (State.fadded (decide (op.code = 7) && s.framedHank r) s1)) := by
  have hrun := State.runAtomic_done (writer := none) hok hp hpr ho hb hgood hv
  have hw' : ((State.fabricOp m.body).width == 4 || (State.fabricOp m.body).width == 8) = true := by simpa using hw
  simp only [State.fabricAtomic, h, hw', hok, hst, hrun, Bool.and_self, Bool.not_true, bne_self_eq_false, Bool.false_eq_true, if_false,
    State.atomicReply]

end

/-- Settles O44: the ends of a write and of a read, and an ATOMIC for a hank that the block lacks or that it can do at once. -/
theorem outsideAccessesEnd : Obligations.OutsideAccessesEnd := by
  intro h body ht mem s ends
  refine ⟨fun ha => ?write, fun ha => ?read, fun ha => ?atomic⟩
  case write =>
    intro m t r hr hty
    exact exec_taken ha rfl rfl (State.onWcomp_ends hr hty)
  case read =>
    intro m t r hr hty well
    exact exec_taken ha rfl rfl (State.onRdata_ends hr hty)
  case atomic =>
    intro m t
    refine ⟨fun hn => exec_taken ha rfl rfl (State.fabricAtomic_absent hn), ?_⟩
    intro r v hh hst hp hpr hb op hw hok ho blocks hgood t1 old hv t2 t3
    have hf : Fetched t t1 := State.takeMem_fetched hgood
    have hv' : atomicNew op.code op.width r.desc.unordered (leNat (t.spanRead (r.desc.base 0) op.off op.width)) op.a op.b = some v := by
      rw [← hf.spanRead]
      exact hv
    refine exec_taken ha rfl rfl ((State.fabricAtomic_done hh hst hp hpr hb hw hok ho hgood hv').trans ?_)
    rw [← hf.framedHank, ← hf.spanRead]
    rfl

end Sys2Proof.Machine
end

section
/-! PROOFS. The order in which a delta set is checked, and what it does (R135, Table 5.5, R159, R171, R381). -/

namespace Sys2Proof.Machine

section
variable {m : HeldMsg} {s u : State} {faults : List UnitFault}

/-! ## Whether a set is for now -/

theorem State.sampledSet_notApplied (h : s.trySet m none = (u, false)) : State.sampledSet faults m s = u := by
  simp only [State.sampledSet, h, Bool.false_eq_true, if_false]

theorem State.sampledSet_applied (h : s.trySet m none = (u, true)) :
    State.sampledSet faults m s = forEach faults (fun f z => z.unitFault f) u := by
  simp only [State.sampledSet, h, if_true]

theorem State.trySet_stranger (hm : s.isMember m.source = false) : s.trySet m none = (State.bump 0x5040 0x04 1 s, false) := by
  simp only [State.trySet, hm, Bool.not_false, if_true]

theorem State.trySet_late (hm : s.isMember m.source = true) (h : m.epoch < s.mem.epoch ∨ (m.step < s.fr.step ∧ s.carried m = false)) :
    s.trySet m none = (State.bump 0x5040 0x04 1 s, false) := by
  have hc : (decide (m.epoch < s.mem.epoch) || (decide (m.step < s.fr.step) && !s.carried m)) = true := by simpa using h
  simp only [State.trySet, hm, hc, Bool.not_true, Bool.false_eq_true, if_false, if_true]

/-- A set is neither of an earlier epoch nor, unless it is carried, of an earlier step. -/
theorem State.notLate_of (he : s.mem.epoch ≤ m.epoch) (h : s.fr.step ≤ m.step ∨ s.carried m = true) :
    (decide (m.epoch < s.mem.epoch) || (decide (m.step < s.fr.step) && !s.carried m)) = false := by
  have h1 : decide (m.epoch < s.mem.epoch) = false := decide_eq_false (by omega)
  obtain h | h := h
  · have h2 : decide (m.step < s.fr.step) = false := decide_eq_false (by omega)
    simp only [h1, h2, Bool.false_and, Bool.or_self]
  · simp only [h1, h, Bool.not_true, Bool.and_false, Bool.or_self]

theorem State.trySet_early (hm : s.isMember m.source = true) (he : s.mem.epoch ≤ m.epoch) (h : s.fr.step ≤ m.step ∨ s.carried m = true)
    (hn : s.mem.epoch < m.epoch ∨ s.fr.step < m.step) :
    s.trySet m none = (State.holdSet 0 m (State.bump 0x5040 0x06 1 s), false) := by
  have hc : (decide (s.mem.epoch < m.epoch) || decide (s.fr.step < m.step)) = true := by simpa using hn
  simp only [State.trySet, hm, State.notLate_of he h, hc, Bool.not_true, Bool.false_eq_true, if_false, if_true, State.holdCounted,
    reduceCtorEq]

/-- A set of the epoch in effect and of the open step, or one that is carried, goes through orders 3 to 9. -/
theorem State.trySet_now {l : Layout} (hm : s.isMember m.source = true) (he : m.epoch = s.mem.epoch)
    (h : m.step = s.fr.step ∨ (m.step < s.fr.step ∧ s.carried m = true)) (hl : s.code.layout = some l) :
    s.trySet m none = s.handleSet m none l := by
  have h1 := State.notLate_of (s := s) (m := m) (by omega) (h.imp (by omega) And.right)
  have h2 : (decide (s.mem.epoch < m.epoch) || decide (s.fr.step < m.step)) = false := by
    have : ¬ s.fr.step < m.step := by obtain h | h := h <;> omega
    simp [he, this]
  simp only [State.trySet, hm, h1, h2, hl, Bool.not_true, Bool.false_eq_true, if_false]

/-! ## Orders 3 to 9 -/

variable {l : Layout} {j : Nat}

theorem State.handleSet_fenced (h : s.fenced = true ∨ s.loss.frayed = true) :
    s.handleSet m none l = (State.ackTo m 3 (State.bump 0x5040 0x05 1 s), false) := by
  have hc : (s.fenced || s.loss.frayed) = true := by simpa using h
  simp only [State.handleSet, hc, if_true]

/-- A set names no LIVE STATE hank of its shape here, or no group whose rows this member holds. -/
theorem State.setFor_none (h : (∀ r, s.hank? (fld 0 2 m.body) = some r → r.desc.cls = 1 → r.state ≠ 2) ∨
    fld 4 1 m.body ≠ l.sOf (fld 0 2 m.body) ∨ l.m ≤ fld 2 1 m.body ∨
    s.setOwner l m.source (fld 0 2 m.body) (fld 2 1 m.body) (fld 3 1 m.body) (fld 8 4 m.body) (fld 12 4 m.body) = none) :
    s.setFor m l = none := by
  cases hr : s.hank? (fld 0 2 m.body) with
  | none => simp only [State.setFor, hr, Bool.false_and, Bool.false_eq_true, if_false]
  | some r =>
    simp only [State.setFor, hr]
    split
    · rename_i hc
      simp only [Bool.and_eq_true, beq_iff_eq, decide_eq_true_eq] at hc
      obtain ⟨⟨⟨hcls, hst⟩, hlen⟩, hrole⟩ := hc
      obtain h | h | h | h := h
      · exact absurd hst (h r hr hcls)
      · exact absurd hlen h
      · omega
      · exact h
    · rfl

theorem State.setFor_some (hh : ∃ r, s.hank? (fld 0 2 m.body) = some r ∧ r.desc.cls = 1 ∧ r.state = 2)
    (hlen : fld 4 1 m.body = l.sOf (fld 0 2 m.body)) (hrole : fld 2 1 m.body < l.m)
    (ho : s.setOwner l m.source (fld 0 2 m.body) (fld 2 1 m.body) (fld 3 1 m.body) (fld 8 4 m.body) (fld 12 4 m.body) = some j) :
    s.setFor m l = some j := by
  obtain ⟨r, hr, hcls, hst⟩ := hh
  simp only [State.setFor, hr, hcls, hst, beq_self_eq_true, Bool.and_self, hlen, hrole, decide_true, if_true, ho]

section
variable (hf : s.fenced = false) (hy : s.loss.frayed = false)
include hf hy

theorem State.handleSet_strange (ho : s.setFor m l = none) :
    s.handleSet m none l = (State.ackTo m 2 (State.bump 0x5040 0x05 1 s), false) := by
  simp only [State.handleSet, hf, hy, ho, Bool.or_self, Bool.false_eq_true, if_false]

variable (ho : s.setFor m l = some j)
include ho

theorem State.handleSet_wrongSource (hr : s.rightSource j m.source (fld 0 2 m.body) (fld 8 4 m.body) = false) :
    s.handleSet m none l = (State.ackTo m 2 (State.bump 0x5040 0x05 1 (State.bump 0x5050 0x15 1 s)), false) := by
  simp only [State.handleSet, hf, hy, ho, hr, Bool.or_self, Bool.not_false, Bool.false_eq_true, if_false, if_true]

variable (hr : s.rightSource j m.source (fld 0 2 m.body) (fld 8 4 m.body) = true)
include hr

theorem State.handleSet_moves (h : ∃ i : Nat, i < l.sOf (fld 0 2 m.body) ∧ s.plyMoves l (fld 0 2 m.body) (fld 12 4 m.body + i) = true) :
    s.handleSet m none l = (State.holdSet 2 m (State.bump 0x5090 0x0D 1 s), false) := by
  have hmv : (List.range (l.sOf (fld 0 2 m.body))).any (fun i => s.plyMoves l (fld 0 2 m.body) (fld 12 4 m.body + i)) = true := by
    obtain ⟨i, hi, h⟩ := h
    exact List.any_eq_true.mpr ⟨i, List.mem_range.mpr hi, h⟩
  simp only [State.handleSet, hf, hy, ho, hr, hmv, Bool.or_self, Bool.not_true, Bool.false_eq_true, if_false, if_true, State.holdCounted,
    reduceCtorEq]

variable (hmv : ∀ i : Nat, i < l.sOf (fld 0 2 m.body) → s.plyMoves l (fld 0 2 m.body) (fld 12 4 m.body + i) = false)
include hmv

/-- Past orders 3 to 5 the slot's tag decides. -/
theorem State.handleSet_tagged {t : Nat} (ht : s.tag (fld 0 2 m.body) (State.groupPlace l j (fld 0 2 m.body) (fld 8 4 m.body)).band
      (State.groupPlace l j (fld 0 2 m.body) (fld 8 4 m.body)).residue (fld 2 1 m.body) (fld 3 1 m.body) = t) :
    s.handleSet m none l =
      if t = 1 then (State.holdSet 1 m (State.bump 0x5040 0x12 1 s), false)
      else if bit (fld 6 1 m.body) 0 && State.tagValid t then (State.ackTo m 1 (State.bump 0x5040 0x03 1 s), false)
      else if !bit (fld 6 1 m.body) 0 && t = 0 then (State.ackTo m 2 (State.bump 0x5040 0x05 1 s), false)
      else if State.tagValid t && t = State.tagOf m.step then (State.ackTo m 1 (State.bump 0x5040 0x03 1 s), false)
      else s.takeSet m none l (State.groupPlace l j (fld 0 2 m.body) (fld 8 4 m.body)) := by
  have hmv' : (List.range (l.sOf (fld 0 2 m.body))).any (fun i => s.plyMoves l (fld 0 2 m.body) (fld 12 4 m.body + i)) = false := by
    refine List.any_eq_false.mpr (fun i hi => ?_)
    rw [hmv i (List.mem_range.mp hi)]
    decide
  simp only [State.handleSet, hf, hy, ho, hr, hmv', ht, Bool.or_self, Bool.not_true, Bool.false_eq_true, if_false, State.holdCounted,
    reduceCtorEq]

end

/-- A set of an initial encode is applied to an empty band with the tag of the step that follows. -/
theorem State.takeSet_encode {p : State.GroupPlace} (hb : s.bandEmpty (fld 0 2 m.body) p.band p.residue (fld 2 1 m.body) = true)
    (he : bit (fld 6 1 m.body) 0 = true) : s.takeSet m none l p = (State.ackTo m 0 (State.bump 0x5040 0x0D 1
      (State.applySet l (fld 0 2 m.body) p.band p.residue (fld 2 1 m.body) (fld 3 1 m.body) (fld 12 4 m.body) (fld 5 1 m.body)
        (pieces Config.stripe (m.body.drop 16)) (m.step + 1) s)), true) := by
  simp only [State.takeSet, hb, he, if_true, Bool.not_true, Bool.false_and, Bool.false_eq_true, if_false]

/-- A set is applied to a band whose plies can be read. -/
theorem State.takeSet_update {p : State.GroupPlace} (hb : s.bandEmpty (fld 0 2 m.body) p.band p.residue (fld 2 1 m.body) = false)
    (he : bit (fld 6 1 m.body) 0 = false) :
    let s1 := forEach ((List.range (l.sOf (fld 0 2 m.body))).filter (fun i => !bit (fld 5 1 m.body) i))
      (fun i st => st.askPlyStripe l (fld 0 2 m.body) (fld 12 4 m.body + i) p.residue (fld 2 1 m.body)) s
    (∀ i : Nat, i < l.sOf (fld 0 2 m.body) → s1.plyBad l (fld 0 2 m.body) (fld 12 4 m.body + i) p.residue (fld 2 1 m.body) = false) →
    s.takeSet m none l p = (State.ackTo m 0 (State.bump 0x5040 0x02 1
      (State.applySet l (fld 0 2 m.body) p.band p.residue (fld 2 1 m.body) (fld 3 1 m.body) (fld 12 4 m.body) (fld 5 1 m.body)
        (pieces Config.stripe (m.body.drop 16)) m.step s1)), true) := by
  intro s1 hp
  have hbad : (List.range (l.sOf (fld 0 2 m.body))).any
      (fun i => s1.plyBad l (fld 0 2 m.body) (fld 12 4 m.body + i) p.residue (fld 2 1 m.body)) = false := by
    refine List.any_eq_false.mpr (fun i hi => ?_)
    rw [hp i (List.mem_range.mp hi)]
    decide
  simp only [s1] at hbad ⊢
  simp only [State.takeSet, hb, he, hbad, Bool.not_false, Bool.true_and, Bool.false_eq_true, if_false]

end

/-- The command that brings a delta set, and the unit faults that the spindles' samples find. -/
theorem exec_deltaSet {h : RxHdr} {body : Bytes} {faults : List UnitFault} {mem : MemAns} {s u : State}
    (hf : ∀ f ∈ faults, s.hasUnit f = true) (ha : Admits (.deltaSet h body faults mem) s)
    (hu : State.sampledSet faults (messageIn (.deltaSet h body faults mem)) (takenIn (.deltaSet h body faults mem) s) = u) :
    exec (.deltaSet h body faults mem) s = .next (State.finish (State.settleAll u)) :=
  exec_taken ha (List.all_eq_true.mpr hf) rfl hu

/-- Settles O39: the orders of Table 5.5 in turn. -/
theorem setsAreAppliedOnce : Obligations.SetsAreAppliedOnce := by
  intro h body faults mem s hf ha m t ends hank role slot g lap turnedAway
  have held {u : State} (hu : t.trySet m none = (u, false)) : ends u := exec_deltaSet hf ha (State.sampledSet_notApplied hu)
  have applied {u : State} (hu : t.trySet m none = (u, true)) : ends (forEach faults (fun f z => z.unitFault f) u) :=
    exec_deltaSet hf ha (State.sampledSet_applied hu)
  refine ⟨fun hm => held (State.trySet_stranger hm), fun hm => ⟨fun he => held (State.trySet_late hm (.inl he)),
    fun he hs hc => held (State.trySet_late hm (.inr ⟨hs, hc⟩)), fun he hs => held (State.trySet_early hm (by omega) hs (.inl he)),
    fun he hs => held (State.trySet_early hm (by omega) (.inl (by omega)) (.inr hs)), fun l he hs hl => ?_⟩⟩
  have now := State.trySet_now hm he hs hl
  refine ⟨fun hfen => held (now.trans (State.handleSet_fenced hfen)), fun hfen hfr => ⟨fun hn =>
    held (now.trans (State.handleSet_strange hfen hfr (State.setFor_none hn))), fun hh hlen hrole j ho => ?_⟩⟩
  have hfor : t.setFor m l = some j := State.setFor_some hh hlen hrole ho
  refine ⟨fun hr => held (now.trans (State.handleSet_wrongSource hfen hfr hfor hr)), fun hr => ⟨fun hmv =>
    held (now.trans (State.handleSet_moves hfen hfr hfor hr hmv)), fun hmv => ?_⟩⟩
  intro p tag
  have hset := now.trans (State.handleSet_tagged hfen hfr hfor hr hmv (t := tag) rfl)
  refine ⟨fun h1 => held (hset.trans (if_pos h1)), fun henc h2 _ => ?again, fun henc h0 hempty => ?encode, fun hupd =>
    ⟨fun h0 => ?untagged, fun h2 htag => ?there, ?update⟩⟩
  case again =>
    refine held (hset.trans ((if_neg (by omega)).trans (if_pos ?_)))
    rw [henc]
    exact decide_eq_true h2
  case encode =>
    refine applied (hset.trans ((if_neg (by omega)).trans ((if_neg ?_).trans ((if_neg ?_).trans ((if_neg ?_).trans
      (State.takeSet_encode hempty henc))))))
    · simp [h0, State.tagValid]
    · simp [henc]
    · simp [h0, State.tagValid]
  case untagged =>
    refine held (hset.trans ((if_neg (by omega)).trans ((if_neg ?_).trans (if_pos ?_))))
    · simp [hupd]
    · simp [h0, hupd]
  case there =>
    refine held (hset.trans ((if_neg (by omega)).trans ((if_neg ?_).trans ((if_neg ?_).trans (if_pos ?_)))))
    · simp [hupd]
    · simp [hupd]
      omega
    · simp [htag, State.tagValid, State.tagOf]
  case update =>
    intro h2 _ htag hempty t1 hgood
    refine applied (hset.trans ((if_neg (by omega)).trans ((if_neg ?_).trans ((if_neg ?_).trans ((if_neg ?_).trans
      (State.takeSet_update hempty hupd hgood))))))
    · simp [hupd]
    · simp [hupd]
      omega
    · simp [htag]

end Sys2Proof.Machine
end

section
/-! PROOFS. Messages of the membership and of a skein's changes (R200, R205, R207, R209, R216, R217, R222, R237). -/

namespace Sys2Proof.Machine

section
variable {m : HeldMsg} {s : State} {k : SkeinSec} {pos : Nat}

/-! ## HELLO -/

/-- A HELLO of a node has been counted in its interval. -/
def State.helloSeen (node : Nat) (s : State) : State :=
  { s with mem := { s.mem with helloSeen := natSet s.mem.helloSeen node (natGet s.mem.helloSeen node + 1) } }

theorem State.onHello_tooMany (h : 8 ≤ natGet s.mem.helloSeen m.source) : State.onHello m s = State.bump 0x5060 0x06 1 s := if_pos h

section
variable (h : natGet s.mem.helloSeen m.source < 8) (hk : s.skeinSec = some k)
  (hp : k.members.findIdx? (fun (x : Nat × Nat) => x.1 == m.source) = some pos)
include h hk hp

/-- A HELLO of a member of another table is counted. -/
theorem State.onHello_otherTable (hd : fld 8 8 m.body ≠ s.mem.digest) :
    State.onHello m s = State.countNote 0x5060 0x05 m.source (State.helloSeen m.source s) := by
  have hk' : (State.helloSeen m.source s).skeinSec = some k := hk
  have hd' : (fld 8 8 m.body != (State.helloSeen m.source s).mem.digest) = true := bne_iff_ne.mpr hd
  unfold State.helloSeen at hk' hd' ⊢
  simp only [State.onHello, if_neg (Nat.not_le.mpr h), hk', hp, hd', if_true]

/-- A HELLO of the epoch in effect confirms its position and is answered. -/
theorem State.onHello_confirms (hd : fld 8 8 m.body = s.mem.digest) (h0 : fld 2 1 m.body ≠ 0) (h5 : fld 2 1 m.body ≠ 5)
    (he : m.epoch = s.mem.epoch) : State.onHello m s =
      State.answerHello m.source { State.bump 0x5060 0x02 1 (State.helloSeen m.source s) with mem := { (State.helloSeen m.source s).mem with
        confirmed := setBit (State.helloSeen m.source s).mem.confirmed pos
        confirmedLive := if fld 2 1 m.body ≤ 3 then setBit (State.helloSeen m.source s).mem.confirmedLive pos
          else clearBit (State.helloSeen m.source s).mem.confirmedLive pos } } := by
  have hk' : (State.helloSeen m.source s).skeinSec = some k := hk
  have hd' : (fld 8 8 m.body != (State.helloSeen m.source s).mem.digest) = false := bne_eq_false_iff_eq.mpr hd
  have hs : (decide (fld 2 1 m.body = 5) || decide (fld 2 1 m.body = 0)) = false := by simp [h0, h5]
  have h1 : ¬ m.epoch < s.mem.epoch := by omega
  have h2 : ¬ s.mem.epoch < m.epoch := by omega
  have hlive : (decide (1 ≤ fld 2 1 m.body) && decide (fld 2 1 m.body ≤ 3)) = decide (fld 2 1 m.body ≤ 3) := by
    rw [decide_eq_true (show 1 ≤ fld 2 1 m.body by omega), Bool.true_and]
  unfold State.helloSeen at hk' hd' ⊢
  simp only [State.onHello, if_neg (Nat.not_le.mpr h), hk', hp, hd', hs, if_neg h1, if_neg h2, hlive, Bool.false_eq_true, if_false,
    decide_eq_true_eq]
  rfl

end

/-! ## Votes and records -/

/-- A vote is a named voter's first for a proposal on the epoch in effect. -/
def State.voteCounts (m : HeldMsg) (s : State) : Bool :=
  fld 4 4 (m.body.take 48) == s.mem.epoch && s.posOf m.source == some (fld 48 1 m.body) && bit s.mem.named (fld 48 1 m.body) &&
    !s.mem.votes.contains (fld 48 1 m.body, m.body.take 48)

theorem State.onVote_joins (h : State.voteCounts m s = true) :
    let s1 := State.bump 0x5060 0x09 1 s
    State.onVote m s = State.countVotes { s1 with mem := { s1.mem with
      votes := s1.mem.votes ++ [(fld 48 1 m.body, m.body.take 48)] } } := if_pos h

theorem State.onVote_ignored (h : State.voteCounts m s = false) : State.onVote m s = State.bump 0x5060 0x09 1 s :=
  if_neg (by rw [Bool.not_eq_true]; exact h)

theorem State.freeAsked_none (h : s.openReq m.request = none) : State.freeAsked m s = s := by
  simp only [State.freeAsked, h]

theorem State.freeAsked_asked {r : ReqRt} (h : s.openReq m.request = some r) (ht : r.typ = 0x33) :
    State.freeAsked m s = State.freeReq r.engine r.entry s := by
  simp only [State.freeAsked, h, ht, if_true]

/-- Freeing the request that a record answers changes neither the epoch nor the layout. -/
theorem State.freeAsked_keeps_epoch (m : HeldMsg) (s : State) : SentTo s (State.freeAsked m s) ∧ (State.freeAsked m s).code = s.code := by
  unfold State.freeAsked
  split
  · rename_i r _
    split
    · obtain ⟨_, _, _, _, _, _, _, h⟩ := State.freeReq_sent r.engine r.entry s
      exact ⟨State.freeReq_sentTo .., by rw [h]⟩
    · exact ⟨.of_mem rfl, rfl⟩
  · exact ⟨.of_mem rfl, rfl⟩

/-- A record that continues the epoch in effect with a valid count applies. -/
theorem State.onEpochRecord_applies (h1 : (readProposal m.body).base = s.mem.epoch)
    (h2 : (readProposal m.body).base < (readProposal m.body).epoch) (h3 : (readProposal m.body).skeinId = s.mem.skeinId)
    (h4 : s.code.layout.isSome = true) (h5 : ∀ v ∈ bitsOf 16 (fld 48 2 m.body), bit s.mem.named v = true)
    (h6 : (bitsOf 16 s.mem.named).length < 2 * (bitsOf 16 (fld 48 2 m.body)).length) :
    State.onEpochRecord m s = State.applyEpoch (readProposal m.body) (fld 48 2 m.body) true (State.freeAsked m s) := by
  obtain ⟨⟨l, hm⟩, hc⟩ := State.freeAsked_keeps_epoch m s
  have h5' : (bitsOf 16 (fld 48 2 m.body)).all (fun v => bit s.mem.named v) = true := List.all_eq_true.mpr h5
  unfold State.onEpochRecord
  refine if_pos ?_
  simp only [hm, hc, h1, h3, h4, h5', countMet, h6, decide_true, beq_self_eq_true, Bool.true_or, Bool.and_true, Bool.true_and]
  exact decide_eq_true (h1 ▸ h2)

end

/-- Settles O45: each message of the membership, case by case. -/
theorem membershipMessagesAreServed : Obligations.MembershipMessagesAreServed := by
  intro h body mem s ends
  refine ⟨fun ha => ?hello, fun ha => exec_taken ha rfl rfl rfl, fun ha => ?vote, fun ha => exec_taken ha rfl rfl rfl, fun ha => ?record⟩
  case hello =>
    intro m t
    refine ⟨fun h8 => exec_taken ha rfl rfl (State.onHello_tooMany h8), fun h8 k pos hk hp => ?_⟩
    intro t1 state
    exact ⟨fun hd => exec_taken ha rfl rfl (State.onHello_otherTable h8 hk hp hd),
      fun hd h0 h5 he => exec_taken ha rfl rfl (State.onHello_confirms h8 hk hp hd h0 h5 he)⟩
  case vote =>
    intro m t raw voter t1 counts
    exact ⟨fun hc => exec_taken ha rfl rfl (State.onVote_joins hc), fun hc => exec_taken ha rfl rfl (State.onVote_ignored hc)⟩
  case record =>
    intro m t p vs h1 h2 h3 h4 h5 h6
    have he := State.onEpochRecord_applies (m := m) h1 h2 h3 h4 h5 h6
    refine ⟨fun hr => exec_taken ha rfl rfl (he.trans ?_), fun r hr ht => exec_taken ha rfl rfl (he.trans ?_)⟩
    · rw [State.freeAsked_none hr]
    · rw [State.freeAsked_asked hr ht]

/-! ## A skein's changes -/

section
variable {m : HeldMsg} {s : State} {k : SkeinSec}

theorem State.onVacateAck_none (h : s.mem.vacating = none) : State.onVacateAck m s = s := by
  simp only [State.onVacateAck, h]

/-- With another acknowledgement awaited the vacate does not finish. -/
theorem State.onVacateAck_waits {id pos : Nat} {nodes : List Nat} (h : s.mem.vacating = some (id, pos, nodes))
    (hn : nodes.filter (fun n => n != m.source) ≠ []) : State.onVacateAck m s = { s with mem := { s.mem with
      vacating := some (id, pos, nodes.filter (fun n => n != m.source))
      vacateMore := s.mem.vacateMore.filter (fun n => n != m.source) } } := by
  obtain ⟨x, xs, hx⟩ := List.exists_cons_of_ne_nil hn
  simp only [State.onVacateAck, h, hx, State.vacateFinish]

/-- A RECODED of the skein and epoch of the plan from its position, while the member re-codes. -/
def State.recodedRight (m : HeldMsg) (k : SkeinSec) (s : State) : Bool :=
  fld 0 2 m.body == k.skeinId && fld 4 4 m.body == k.epoch && s.mem.recode != 0 && s.posOf m.source == some (fld 2 1 m.body)

/-- The position has sent RECODED. -/
def State.recodedBy (pos : Nat) (s : State) : State := { s with mem := { s.mem with recodedFrom := setBit s.mem.recodedFrom pos } }

theorem State.onRecoded_eq (hk : s.skeinSec = some k) : State.onRecoded m s =
    if State.recodedRight m k s then State.recodeEnd (State.recodedBy (fld 2 1 m.body) s) else s := by
  simp only [State.onRecoded, hk]
  rfl

theorem State.recodeEnd_waits (h : s.mem.recode ≠ 2) : State.recodeEnd s = s := by
  refine if_neg ?_
  simp [h]

/-- With the last position's RECODED the re-coding ends: the old store and tags go. -/
theorem State.recodeEnd_last (h : s.mem.recode = 2) (ha : ∀ i ∈ bitsOf 16 s.mem.named, bit s.mem.recodedFrom i = true) :
    State.recodeEnd s = State.setMemState 2 (State.bump 0x5060 0x12 1 { s with
      mem := { s.mem with recode := 0 }
      code := { s.code with oldLayout := none, oldStore := { base := 0, hanks := [] }, oldTags := [], oldRoles := [], oldTaken := [],
                            oldAdopted := [] } }) := by
  refine if_pos ?_
  rw [h, Bool.and_eq_true]
  exact ⟨rfl, List.all_eq_true.mpr ha⟩

/-- The notice that a member's record brings. -/
def noticedAs (m : HeldMsg) : Nat × Nat × Nat × Bool := (fld 16 1 m.body, fld 0 8 m.body, fld 8 8 m.body, fld 17 1 m.body == 1)

/-- A notice takes the place of one of its position. -/
def State.noticed (m : HeldMsg) (s : State) : State :=
  { s with led := { s.led with notices := s.led.notices.filter (fun x => x.1 != fld 16 1 m.body) ++ [noticedAs m] } }

theorem State.onNotice_older {x : Nat × Nat × Nat × Bool} (hx : s.led.notices.find? (fun y => y.1 == fld 16 1 m.body) = some x)
    (hlt : fld 0 8 m.body < x.2.1) : State.onNotice m s = State.bump 0x5070 0x05 1 s := by
  have hx' : (State.bump 0x5070 0x05 1 s).led.notices.find? (fun y => y.1 == fld 16 1 m.body) = some x := hx
  simp only [State.onNotice, hx', hlt, decide_true, Bool.true_or, if_true]

theorem State.onNotice_newer {x : Nat × Nat × Nat × Bool} (hp : fld 16 1 m.body < 16)
    (hx : s.led.notices.find? (fun y => y.1 == fld 16 1 m.body) = some x) (hle : x.2.1 ≤ fld 0 8 m.body) :
    State.onNotice m s = State.noticed m (State.bump 0x5070 0x05 1 s) := by
  have hx' : (State.bump 0x5070 0x05 1 s).led.notices.find? (fun y => y.1 == fld 16 1 m.body) = some x := hx
  simp only [State.onNotice, hx', Nat.not_lt.mpr hle, Nat.not_le.mpr hp, decide_false, Bool.or_self, Bool.false_eq_true, if_false,
    State.noticed, noticedAs]

theorem State.onNotice_first (hp : fld 16 1 m.body < 16) (hx : s.led.notices.find? (fun y => y.1 == fld 16 1 m.body) = none) :
    State.onNotice m s = State.noticed m (State.bump 0x5070 0x05 1 s) := by
  have hx' : (State.bump 0x5070 0x05 1 s).led.notices.find? (fun y => y.1 == fld 16 1 m.body) = none := hx
  simp only [State.onNotice, hx', Nat.not_le.mpr hp, decide_false, Bool.or_self, Bool.false_eq_true, if_false, State.noticed, noticedAs]

end

/-- Settles O46: vacates, their acknowledgements, RECODED and record notices, case by case. -/
theorem skeinChangesAreFollowed : Obligations.SkeinChangesAreFollowed := by
  intro h body mem s ends
  refine ⟨fun ha => exec_taken ha rfl rfl rfl, fun ha => ?ack, fun ha => ?recoded, fun ha => ?notice⟩
  case ack =>
    intro m t
    exact ⟨fun hn => exec_taken ha rfl rfl (State.onVacateAck_none hn),
      fun id pos nodes hv hn => exec_taken ha rfl rfl (State.onVacateAck_waits hv hn)⟩
  case recoded =>
    intro m t k hk right t1
    have he : State.onRecoded m t = if right then State.recodeEnd t1 else t := State.onRecoded_eq hk
    refine ⟨fun hr => exec_taken ha rfl rfl (he.trans (if_neg (by rw [hr]; decide))), fun hr h2 => ?_, fun hr h2 hall => ?_⟩
    · exact exec_taken ha rfl rfl (he.trans ((if_pos hr).trans (State.recodeEnd_waits h2)))
    · exact exec_taken ha rfl rfl (he.trans ((if_pos hr).trans (State.recodeEnd_last (s := t1) h2 hall)))
  case notice =>
    intro m t hp t1 n taken
    exact ⟨fun x hx => ⟨fun hlt => exec_taken ha rfl rfl (State.onNotice_older hx hlt),
      fun hle => exec_taken ha rfl rfl (State.onNotice_newer hp hx hle)⟩, fun hx => exec_taken ha rfl rfl (State.onNotice_first hp hx)⟩

end Sys2Proof.Machine
end

section
/-! PROOFS. Ocper requests to the dictionary (R376, R398 to R400). -/

namespace Sys2Proof.Machine

section
variable {m : HeldMsg} {s t : State}

/-! ## A request by the state of the firmware and its operation -/

theorem State.onOcper_putOff (ht : s.noteRequest (readOcper m) = t) (hk : t.sys.hk ≠ .running) :
    s.onOcper m = State.ocperAnswer (readOcper m) 2 []
      (State.countRetry (readOcper m).path (readOcper m).address ((readOcper m).op == 2 || (readOcper m).op == 5) t) := by
  have hk' : (t.sys.hk != .running) = true := bne_iff_ne.mpr hk
  simp only [State.onOcper, ht, hk', if_true]
  rfl

section
variable (ht : s.noteRequest (readOcper m) = t) (hk : t.sys.hk = .running)
include ht hk

theorem State.onOcper_badForm (hb : (readOcper m).badForm = true) : s.onOcper m = State.ocperAnswer (readOcper m) 4 [] t := by
  simp only [State.onOcper, ht, hk, hb, bne_self_eq_false, Bool.false_eq_true, if_false, if_true]

variable (hb : (readOcper m).badForm = false)
include hb

theorem State.onOcper_read (ho : (readOcper m).op = 1) : s.onOcper m = t.ocperRead (readOcper m) := by
  simp only [State.onOcper, ht, hk, hb, ho, bne_self_eq_false, Bool.false_eq_true, if_false]

theorem State.onOcper_write (ho : (readOcper m).op = 2) : s.onOcper m = t.ocperWrite (readOcper m) := by
  simp only [State.onOcper, ht, hk, hb, ho, bne_self_eq_false, Bool.false_eq_true, if_false]

theorem State.onOcper_blockRead (ho : (readOcper m).op = 3) : s.onOcper m = t.ocperBlockRead (readOcper m) := by
  simp only [State.onOcper, ht, hk, hb, ho, bne_self_eq_false, Bool.false_eq_true, if_false]

theorem State.onOcper_segment (ho : (readOcper m).op = 4) : s.onOcper m = t.ocperSegment (readOcper m) := by
  simp only [State.onOcper, ht, hk, hb, ho, bne_self_eq_false, Bool.false_eq_true, if_false]

theorem State.onOcper_apply (ho : (readOcper m).op = 5) : s.onOcper m = t.ocperApply (readOcper m) := by
  simp only [State.onOcper, ht, hk, hb, ho, bne_self_eq_false, Bool.false_eq_true, if_false]

end

/-! ## The five operations -/

variable {o : OcperMsg} {r : EntryRow} {b : OcperBuf} {u : State}

theorem State.ocperRead_scalar {v : Nat} (h : s.readValue o.path o.address = some (r, .num v)) (hb : r.ty.isBlob = false) :
    s.ocperRead o = State.ocperAnswer o 0 (toLE r.ty.bytes v) (State.afterRead r (addrIdx o.address) (addrSub o.address) s) := by
  simp only [State.ocperRead, h, hb, Bool.false_eq_true, if_false, valueBytes]

/-- A write that its client repeats writes nothing. -/
theorem State.ocperWrite_repeated (hx : s.house.xids.contains (o.client, o.xid) = true) :
    s.ocperWrite o = State.ocperAnswer o 0 [] s := if_pos hx

theorem State.ocperWrite_new {a : WriteAns} (hx : s.house.xids.contains (o.client, o.xid) = false)
    (he : entry? s.straps.build (addrIdx o.address) (addrSub o.address) = some r) (hl : o.data.length = r.ty.bytes)
    (hw : State.dictWrite o.path o.address (.num (leNat o.data)) s = (u, a)) : s.ocperWrite o = State.ocperWritten o a u := by
  have hx' : s.applied o = false := hx
  simp only [State.ocperWrite, hx', he, hl, hw, decide_true, Bool.or_true, Bool.false_eq_true, if_false, if_true]

theorem State.ocperWritten_done : State.ocperWritten o .done s = State.ocperAnswer o 0 [] (State.noteXid o s) := rfl

theorem State.ocperWritten_refused (why : Nat) :
    State.ocperWritten o (.refused why) s = State.ocperAnswer o (if why = 3 then 4 else 1) [] s := rfl

/-- A block read from the start takes the client's buffer as a snapshot. -/
theorem State.ocperBlockRead_snapshot {d : Bytes} (h : s.readValue o.path o.address = some (r, .blob d)) (hb : r.ty.isBlob = true)
    (hk : s.keptPiece o = none) (h0 : o.offset = 0) (hr : s.bufRoom o.client = true) :
    s.ocperBlockRead o = State.ocperPiece o d (State.putBuf { node := o.client, address := o.address, snapshot := true, data := d }
      (State.afterRead r (addrIdx o.address) (addrSub o.address) s)) := by
  simp only [State.ocperBlockRead, h, hb, hk, h0, hr, Option.isSome_none, Bool.not_true, Bool.false_eq_true, if_false, if_true, valueBytes]

/-- A block read that reached its snapshot's end and is repeated is answered with the same piece. -/
theorem State.ocperBlockRead_repeated {d piece : Bytes} (h : s.readValue o.path o.address = some (r, .blob d)) (hb : r.ty.isBlob = true)
    (hk : s.keptPiece o = some piece) : s.ocperBlockRead o = State.ocperAnswer o 0 piece s := by
  simp only [State.ocperBlockRead, h, hb, hk, Option.isSome_some, Bool.not_true, Bool.false_eq_true, if_false, if_true, Option.getD_some]

theorem State.ocperSegment_stored (he : (entry? s.straps.build (addrIdx o.address) (addrSub o.address)).isSome = true)
    (hl : o.offset + o.count ≤ State.xferSize) (hb : s.bufOf o.client = none) (hr : s.bufRoom o.client = true) :
    s.ocperSegment o = State.ocperAnswer o 0 [] (State.putBuf
      { node := o.client, address := o.address, snapshot := false, data := patch o.offset o.data (zeros (o.offset + o.count)) } s) := by
  have he' : (entry? s.straps.build (addrIdx o.address) (addrSub o.address)).isNone = false := by
    rw [← Option.not_isSome, he]
    rfl
  simp only [State.ocperSegment, he', if_neg (Nat.not_lt.mpr hl), hb, hr, Bool.false_eq_true, if_false, if_true, List.nil_append,
    List.length_nil, Nat.sub_zero]

section
variable (hx : s.house.xids.contains (o.client, o.xid) = false) (hbuf : s.bufOf o.client = some b) (hs : b.snapshot = false)
  (ha : b.address = o.address)
include hx hbuf hs ha

theorem State.ocperApply_short (he : (entry? s.straps.build (addrIdx o.address) (addrSub o.address)).isSome = true)
    (hl : b.data.length < o.count) : s.ocperApply o = State.ocperAnswer o 4 [] s := by
  have hx' : s.applied o = false := hx
  have he' : (entry? s.straps.build (addrIdx o.address) (addrSub o.address)).isNone = false := by
    rw [← Option.not_isSome, he]
    rfl
  simp only [State.ocperApply, hx', he', hbuf, hs, ha, hl, Bool.not_false, beq_self_eq_true, Bool.and_self, Bool.false_eq_true, if_false,
    if_true]

theorem State.ocperApply_done (hl : o.count ≤ b.data.length)
    (he : entry? s.straps.build (addrIdx o.address) (addrSub o.address) = some r) (hr : r.ty.isBlob = true)
    (hw : State.dictWrite o.path o.address (.blob (b.data.take o.count)) (State.freeBuf o.client s) = (u, .done)) :
    s.ocperApply o = State.ocperAnswer o 0 [] (State.noteXid o u) := by
  have hx' : s.applied o = false := hx
  simp only [State.ocperApply, hx', he, hbuf, hs, ha, hr, hw, if_neg (Nat.not_lt.mpr hl), Option.isNone_some, Bool.not_false, Bool.not_true,
    Bool.false_and, beq_self_eq_true, Bool.and_self, Bool.false_eq_true, if_false, if_true, reduceCtorEq, State.ocperWritten_done]

end

end

/-- Settles O47: every request while the firmware does not run, and each operation while it does. -/
theorem ocperServesTheDictionary : Obligations.OcperServesTheDictionary := by
  intro h q mem s ends
  have exec_of (c : Instr) (hc : c ∈ ocperCommands h q mem) (ha : Admits c s) {u : State}
      (hu : State.onOcper (messageIn c) (takenIn c s) = u) : ends c u := by
    have he := exec_ocper_admitted hc ha
    rw [hu] at he
    exact he
  refine ⟨fun c hc ha => ?all, fun ha => ?read, fun ha => ?write, fun ha => ?blockRead, fun ha => ?segment, fun ha => ?apply, fun b => ?timeout⟩
  case all =>
    intro o t
    exact ⟨fun hk => exec_of c hc ha (State.onOcper_putOff rfl hk), fun hk hb => exec_of c hc ha (State.onOcper_badForm rfl hk hb)⟩
  case read =>
    intro o t hk hb r v hv hr
    exact exec_of (.ocperRead h q mem) (by simp [ocperCommands]) ha ((State.onOcper_read (m := messageIn (.ocperRead h q mem)) rfl hk hb rfl).trans (State.ocperRead_scalar hv hr))
  case write =>
    intro o t hk hb
    have hdo := State.onOcper_write (m := messageIn (.ocperWrite h q mem)) rfl hk hb rfl
    refine ⟨fun hx => exec_of (.ocperWrite h q mem) (by simp [ocperCommands]) ha (hdo.trans (State.ocperWrite_repeated hx)), fun hx r u he hl => ⟨fun hw => ?_,
      fun why hw => ?_⟩⟩
    · exact exec_of (.ocperWrite h q mem) (by simp [ocperCommands]) ha (hdo.trans ((State.ocperWrite_new hx he hl hw).trans State.ocperWritten_done))
    · exact exec_of (.ocperWrite h q mem) (by simp [ocperCommands]) ha (hdo.trans ((State.ocperWrite_new hx he hl hw).trans (State.ocperWritten_refused why)))
  case blockRead =>
    intro o t hk hb r d hv hr
    have hdo := State.onOcper_blockRead (m := messageIn (.ocperBlockRead h q mem)) rfl hk hb rfl
    exact ⟨fun hp h0 hroom => exec_of (.ocperBlockRead h q mem) (by simp [ocperCommands]) ha (hdo.trans (State.ocperBlockRead_snapshot hv hr hp h0 hroom)),
      fun piece hp => exec_of (.ocperBlockRead h q mem) (by simp [ocperCommands]) ha (hdo.trans (State.ocperBlockRead_repeated hv hr hp))⟩
  case segment =>
    intro o t hk hb he hl hbuf hroom
    exact exec_of (.ocperBlockWriteSegment h q mem) (by simp [ocperCommands]) ha ((State.onOcper_segment (m := messageIn (.ocperBlockWriteSegment h q mem)) rfl hk hb rfl).trans (State.ocperSegment_stored he hl hbuf hroom))
  case apply =>
    intro o t hk hb hx b hbuf hs hadr
    have hdo := State.onOcper_apply (m := messageIn (.ocperBlockApply h q mem)) rfl hk hb rfl
    exact ⟨fun he hl => exec_of (.ocperBlockApply h q mem) (by simp [ocperCommands]) ha (hdo.trans (State.ocperApply_short hx hbuf hs hadr he hl)),
      fun hl r u he hr hw => exec_of (.ocperBlockApply h q mem) (by simp [ocperCommands]) ha (hdo.trans (State.ocperApply_done hx hbuf hs hadr hl he hr hw))⟩
  case timeout =>
    have he : exec (.ocperBufferTimeout b) s = .next (State.finish (State.ocperTimeout b.toNat (State.begun .clean s))) := rfl
    rw [he, State.begun_clean]
    rfl

end Sys2Proof.Machine
end

section
/-! PROOFS. The fabric's timers (R197, R207, R209, R319). -/

namespace Sys2Proof.Machine

section
variable {s : State}

theorem State.sampleTime_mem (ht : Nat) (s : State) : (State.sampleTime ht s).mem = s.mem := by
  obtain h | h | h := State.sampleTime_cases ht s <;> rw [h]
  rfl

theorem State.sampleTime_code (ht : Nat) (s : State) : (State.sampleTime ht s).code = s.code := by
  obtain h | h | h := State.sampleTime_cases ht s <;> rw [h]
  rfl

/-! ## The heartbeat period -/

/-- Without a layout the period only begins again. -/
theorem State.heartPeriod_none (h : s.code.layout = none) :
    State.heartPeriod s = { s with mem := { s.mem with heard := [], sentTo := [], askedNow := [] } } := by
  simp only [State.heartPeriod, h]

/-- No decode is started again where no aliased read waits. -/
theorem State.restartAlias_none (h : s.code.hallReads = []) : State.restartAlias s = s := by
  rw [State.restartAlias, h]
  rfl

/-! ## Suspicion and the end of a catch-up -/

/-- A member of the epoch that this one does not suspect yet has been silent for the bound (R209). -/
def State.suspicionDue (pos : Nat) (s : State) : Bool :=
  s.code.layout.isSome && bit s.mem.named pos && pos != s.myPos && !bit s.mem.suspected pos && !s.fenced &&
    decide (s.reg 0x2001 0x02 ≤ natAt s.mem.silent pos)

theorem State.suspect_due {pos : Nat} (h : State.suspicionDue pos s = true) : State.suspect pos s =
    State.countNote 0x5060 0x0C pos { s with mem := { s.mem with suspected := setBit s.mem.suspected pos } } := if_pos h

theorem State.suspect_idle {pos : Nat} (h : State.suspicionDue pos s = false) : State.suspect pos s = s :=
  if_neg (by rw [Bool.not_eq_true]; exact h)

/-! ## The HELLO interval -/

/-- The counts of a HELLO interval begin again. -/
def State.helloFresh (s : State) : State := { s with mem := { s.mem with helloSeen := [], helloAnswered := [] } }

/-- A partner's position is confirmed. -/
def State.isConfirmed (n : Nat) (s : State) : Bool :=
  match s.skeinSec.bind (fun k => k.members.findIdx? (fun (x : Nat × Nat) => x.1 == n)) with
  | some i => bit s.mem.confirmed i
  | none => false

/-- Each partner that is not confirmed has been sent a HELLO. -/
def State.hellosSent (s : State) : State :=
  forEach (s.helloFresh.partners.filter (fun x => !State.isConfirmed x.1 s.helloFresh)) (fun x st => State.sendHello x.1 st) s.helloFresh

theorem SentTo.forEach {α : Type} {f : α → State → State} (hf : ∀ x t, SentTo t (f x t)) (l : List α) (s : State) :
    SentTo s (Sys2Proof.Machine.forEach l f s) := by
  induction l generalizing s with
  | nil => exact .of_mem rfl
  | cons x xs ih => exact (hf x s).trans (ih _)

theorem State.sendHello_sentTo (node : Nat) (s : State) : SentTo s (State.sendHello node s) :=
  (SentTo.of_mem (t := State.bump 0x5060 0x01 1 s) rfl).trans (State.post_sentTo ..)

/-- A vacate that waits is not changed by the HELLO. -/
theorem State.hellosSent_vacating (s : State) :
    s.hellosSent.mem.vacating = s.mem.vacating ∧ s.hellosSent.mem.vacateMore = s.mem.vacateMore := by
  obtain ⟨l, h⟩ : SentTo s.helloFresh s.hellosSent := .forEach (fun _ _ => State.sendHello_sentTo ..) _ _
  rw [h]
  exact ⟨rfl, rfl⟩

theorem State.helloTick_settled (h : s.mem.vacating = none) : State.helloTick s = s.hellosSent := by
  have hv : s.hellosSent.mem.vacating = none := s.hellosSent_vacating.1.trans h
  show (match s.hellosSent.mem.vacating with
    | some (id, pos, nodes) => _
    | none => s.hellosSent) = _
  rw [hv]

theorem State.helloTick_vacating {id pos : Nat} {nodes : List Nat} (h : s.mem.vacating = some (id, pos, nodes)) :
    State.helloTick s = forEach (nodes ++ s.mem.vacateMore)
      (fun n st => State.sendMgmt 0x35 n (toLE 2 id ++ toLE 1 pos ++ [0] ++ toLE 4 st.mem.epoch) st) s.hellosSent := by
  obtain ⟨h1, h2⟩ := s.hellosSent_vacating
  have hv : s.hellosSent.mem.vacating = some (id, pos, nodes) := h1.trans h
  show (match s.hellosSent.mem.vacating with
    | some (id, pos, nodes) => forEach (nodes ++ s.hellosSent.mem.vacateMore)
        (fun n st => State.sendMgmt 0x35 n (toLE 2 id ++ toLE 1 pos ++ [0] ++ toLE 4 st.mem.epoch) st) s.hellosSent
    | none => s.hellosSent) = _
  rw [hv, h2]

/-! ## A request without an answer -/

variable {e n : Nat} {r : ReqRt}

theorem State.requestTimeout_set (h : s.fx.reqs.find? (fun x => x.engine == e && x.entry == n) = some r) (ht : r.typ = 0x10) :
    State.requestTimeout e n s = s := by
  simp only [State.requestTimeout, h, ht, if_true]

theorem State.requestTimeout_fails (h : s.fx.reqs.find? (fun x => x.engine == e && x.entry == n) = some r) (ht : r.typ ≠ 0x10) :
    State.requestTimeout e n s = State.requestFails r (State.bump 0x50A0 0x08 1 (State.freeReq e n s)) := by
  simp only [State.requestTimeout, h, ht, if_false]

section
variable (hk : r.key ≠ [])
include hk

theorem State.requestFails_write (ht : r.typ = 0x01) : State.requestFails r s = State.writeEnd r false s := by
  simp only [State.requestFails, List.isEmpty_eq_false_iff.mpr hk, ht, Bool.false_eq_true, if_false]

theorem State.requestFails_read (ht : r.typ = 0x03) : State.requestFails r s = State.readEnd r none s := by
  simp only [State.requestFails, List.isEmpty_eq_false_iff.mpr hk, ht, Bool.false_eq_true, if_false]

theorem State.requestFails_records (ht : r.typ = 0x33) : State.requestFails r s = s := by
  simp only [State.requestFails, List.isEmpty_eq_false_iff.mpr hk, ht, Bool.false_eq_true, if_false]

theorem State.requestFails_other (ht : r.typ ∉ [0x01, 0x03, 0x12, 0x33]) : State.requestFails r s = State.sendAgain r s := by
  simp only [List.mem_cons, List.not_mem_nil, or_false, not_or] at ht
  obtain ⟨h1, h3, h12, h33⟩ := ht
  unfold State.requestFails
  rw [if_neg (by rw [List.isEmpty_eq_false_iff.mpr hk]; decide)]
  split
  · exact absurd ‹_› h1
  · exact absurd ‹_› h3
  · exact absurd ‹_› h12
  · exact absurd ‹_› h33
  · rfl

end

end

theorem exec_heartbeatPeriod (ht : BitVec 64) (mem : MemAns) (s : State) : exec (.heartbeatPeriod ht mem) s = .next (State.finish
    (State.settleAll ((State.begun mem s).ready (fun x => State.restartAlias (State.heartPeriod (State.sampleTime ht.toNat x)))))) := rfl

theorem exec_suspicion (pos : BitVec 4) (mem : MemAns) (s : State) :
    exec (.suspicion pos mem) s = .next (State.finish (State.suspect pos.toNat (State.begun mem s))) := rfl

theorem exec_helloInterval (ht : BitVec 64) (mem : MemAns) (s : State) : exec (.helloInterval ht mem) s = .next (State.finish
    ((State.begun mem s).ready (fun x => State.helloTick (State.sampleTime ht.toNat x)))) := rfl

theorem exec_requestTimeout (e : BitVec 3) (n : BitVec 9) (mem : MemAns) (s : State) : exec (.requestTimeout e n mem) s =
    .next (State.finish (State.settleAll (State.requestTimeout e.toNat n.toNat (State.begun mem s)))) := rfl

/-- Settles O49: each timer of the fabric, case by case. -/
theorem fabricTimersAct : Obligations.FabricTimersAct := by
  intro ht mem s s0
  refine ⟨fun hr => ?heart, fun hr hl hh => ?bare, fun pos => ?suspicion, ?catchUp, fun hr => ?hello, fun e n r hf => ?request⟩
  case heart =>
    rw [exec_heartbeatPeriod]
    exact congrArg (fun t => Host.Outcome.next (State.finish (State.settleAll t))) (if_pos hr)
  case bare =>
    rw [exec_heartbeatPeriod]
    refine congrArg (fun t => Host.Outcome.next (State.finish (State.settleAll t))) ((if_pos hr).trans ?_)
    have hl' : (State.sampleTime ht.toNat s0).code.layout = none := (congrArg CodeSt.layout (State.sampleTime_code ..)).trans hl
    have hh' : (State.sampleTime ht.toNat s0).code.hallReads = [] := (congrArg CodeSt.hallReads (State.sampleTime_code ..)).trans hh
    exact (congrArg State.restartAlias (State.heartPeriod_none hl')).trans (State.restartAlias_none hh')
  case suspicion =>
    intro due
    rw [exec_suspicion]
    exact ⟨fun hd => congrArg (fun t => Host.Outcome.next (State.finish t)) (State.suspect_due hd),
      fun hd => congrArg (fun t => Host.Outcome.next (State.finish t)) (State.suspect_idle hd)⟩
  case catchUp => exact rfl
  case hello =>
    rw [exec_helloInterval]
    have hm := State.sampleTime_mem ht.toNat s0
    have hv : (State.sampleTime ht.toNat s0).mem.vacating = s0.mem.vacating := congrArg MemSt.vacating hm
    have hrun : (State.begun mem s).ready (fun x => State.helloTick (State.sampleTime ht.toNat x)) =
        State.helloTick (State.sampleTime ht.toNat s0) := if_pos hr
    rw [hrun]
    intro s1 s2 confirmed u
    have hc : s0.mem.confirmed = s2.mem.confirmed := (congrArg MemSt.confirmed hm).symm
    have hu : (State.sampleTime ht.toNat s0).hellosSent = u := by
      simp only [u, confirmed, hc]
      rfl
    rw [← hu]
    refine ⟨fun hn => congrArg (fun t => Host.Outcome.next (State.finish t)) (State.helloTick_settled (hv.trans hn)), fun id pos nodes hn => ?_⟩
    have hmore : s0.mem.vacateMore = (State.sampleTime ht.toNat s0).mem.vacateMore := (congrArg MemSt.vacateMore hm).symm
    rw [hmore]
    exact congrArg (fun t => Host.Outcome.next (State.finish t)) (State.helloTick_vacating (hv.trans hn))
  case request =>
    rw [exec_requestTimeout]
    refine ⟨fun h10 => congrArg (fun t => Host.Outcome.next (State.finish (State.settleAll t))) (State.requestTimeout_set hf h10), fun h10 =>
      ⟨congrArg (fun t => Host.Outcome.next (State.finish (State.settleAll t))) (State.requestTimeout_fails hf h10), fun hk =>
        ⟨State.requestFails_write hk, State.requestFails_read hk, State.requestFails_records hk, State.requestFails_other hk⟩⟩⟩

end Sys2Proof.Machine
end

section
/-! PROOFS. Writes whose entry gives them an action of its own: plans and contexts (R27, R28, R247), staged settings (R10, R255), the
housekeeper's (R385, R392, R394, R395) and requests (R61, R160, R242, R249, R290). -/

namespace Sys2Proof.Machine

/-! ## What such a write comes to -/

section
variable {c : Instr} {path : Path} {addr n : Nat} {v w : Val} {b : Bytes} {s t : State} {r : EntryRow}

/-- No STR or DOM passes the checks on the register port. -/
theorem State.not_regPort_of_writable (he : entry? s.straps.build (addrIdx addr) (addrSub addr) = some r) (hb : r.ty.isBlob = true)
    (hw : writable path addr v s = true) : path ≠ .regPort := by
  rintro rfl
  have hf : (s.writeFault .regPort r (addrIdx addr) (addrSub addr) (s.portValue addr v)).isNone = true := by
    simp only [writable, State.carriedValue, if_true, he, Bool.and_eq_true] at hw
    exact hw.2
  by_cases h1 : (addrSub addr == 0 || r.acc == .ro || r.acc == .rc) = true
  · rw [State.writeFault_unwritable h1] at hf
    cases hf
  · rw [State.writeFault_width (Bool.eq_false_iff.mpr h1) rfl (by rw [widthOk_portValue hb]; rfl)] at hf
    cases hf

/-- A STR or DOM is carried as it is by the paths that take one. -/
theorem State.carriedValue_blob (he : entry? s.straps.build (addrIdx addr) (addrSub addr) = some r) (hb : r.ty.isBlob = true)
    (hw : writable path addr (.blob b) s = true) : s.carriedValue path addr (.blob b) = .blob b :=
  if_neg (State.not_regPort_of_writable he hb hw)

/-- A number of at most 32 bits is carried as it is to an entry that is no U64. -/
theorem State.carriedValue_num (he : entry? s.straps.build (addrIdx addr) (addrSub addr) = some r) (hr : r.ty ≠ .u64) (hn : n < 2 ^ 32) :
    s.carriedValue path addr (.num n) = .num n := by
  by_cases hp : path = .regPort
  · rw [hp, State.carriedValue_word he hr hn]
  · exact if_neg hp

section
variable {s0 : State} (hs : State.begun (memOf c) s = s0) (hl : s0.sys.lzReset = false)
include hs hl

theorem exec_ownWrite (hn : writeNamed c = some (path, addr, v)) (hw : writable path addr v s0 = true) :
    exec c s = .next (State.finish (endWrite c (State.ownWrite path addr v s0))) := by
  rw [exec_write hn, hs, State.atPort_up hl (State.ready_of_writable hw)]

/-- A write that passes the checks and whose entry's rule does it is answered so. -/
theorem exec_write_done (hn : writeNamed c = some (path, addr, v)) (hw : writable path addr v s0 = true) (ha : addr ≠ 0x10FD04)
    (he : entry? s0.straps.build (addrIdx addr) (addrSub addr) = some r) (hv : s0.carriedValue path addr v = w)
    (hx : State.applyWrite path r (addrIdx addr) (addrSub addr) w s0 = (t, 0)) :
    exec c s = .next (State.finish (endWrite c (State.answerWrite path .done t))) := by
  rw [exec_ownWrite hs hl hn hw, State.ownWrite_done hv hw ha he hx]

theorem exec_blob_done (hn : writeNamed c = some (path, addr, .blob b)) (hw : writable path addr (.blob b) s0 = true)
    (ha : addr ≠ 0x10FD04) (he : entry? s0.straps.build (addrIdx addr) (addrSub addr) = some r) (hb : r.ty.isBlob = true)
    (hx : State.applyWrite path r (addrIdx addr) (addrSub addr) (.blob b) s0 = (t, 0)) :
    exec c s = .next (State.finish (endWrite c (State.answerWrite path .done t))) :=
  exec_write_done hs hl hn hw ha he (State.carriedValue_blob he hb hw) hx

theorem exec_num_done (hn : writeNamed c = some (path, addr, .num n)) (hw : writable path addr (.num n) s0 = true)
    (ha : addr ≠ 0x10FD04) (he : entry? s0.straps.build (addrIdx addr) (addrSub addr) = some r) (hr : r.ty ≠ .u64) (h32 : n < 2 ^ 32)
    (hx : State.applyWrite path r (addrIdx addr) (addrSub addr) (.num n) s0 = (t, 0)) :
    exec c s = .next (State.finish (endWrite c (State.answerWrite path .done t))) :=
  exec_write_done hs hl hn hw ha he (State.carriedValue_num he hr h32) hx

end

end

/-! ## Staged settings -/

section
variable {i k : Nat} {v : Val} {s : State}

/-- The value staged last is the one that the next threshold puts into effect. -/
theorem State.stagedAt_stage : (State.stage i k v s).stagedAt i k = some v := by
  unfold State.stagedAt State.stage
  dsimp only
  rw [find?_replaced_same _ [(addrOf i k, v)] (by simp)]
  rfl

theorem State.stage_kept : (State.stage i k v s).regs = s.regs ∧ (State.stage i k v s).hanks = s.hanks ∧
    (State.stage i k v s).hearth = s.hearth := by
  unfold State.stage
  dsimp only
  split
  · exact ⟨State.bump_regs .., State.bump_hanks .., State.bump_hearth ..⟩
  · exact ⟨rfl, rfl, rfl⟩

theorem State.ctr_stage : (State.stage i k v s).ctr 0x5000 0x09 =
    (if (s.stagedAt i k).isSome then min Config.u64Max (s.ctr 0x5000 0x09 + 1) else s.ctr 0x5000 0x09) := by
  unfold State.stage
  dsimp only
  split
  · exact (State.ctr_congr rfl).trans State.ctr_bump_same
  · exact State.ctr_congr rfl

end

section
variable (b : Build)

theorem entry?_coreClock : entry? b 0x1200 0x08 = some (row 0x1200 0x1200 0x08 0x08 .u32 .rs 0x44C 0x352 0x4E2) := by cases b <;> rfl
theorem entry?_tableSet : entry? b 0x2400 0x01 = some (row 0x2400 0x2400 0x01 0x01 .dom .rs 0 0x20000 0x20000) := by cases b <;> rfl

end

/-- Settles O53: either write is one of an entry of access RS, which stages the value that it carries. -/
theorem settingsAreStaged : Obligations.SettingsAreStaged := by
  intro path mhz b s hl s0
  have hs : State.begun .clean s = s0 := State.begun_clean_begin s
  refine ⟨fun hw => ⟨State.stage 0x1200 0x08 (.num mhz.toNat) s0, ?_, State.stagedAt_stage, ?_⟩, fun hw => ?_⟩
  · exact exec_num_done (c := .coreClockWrite path mhz) hs hl rfl hw (by decide) (entry?_coreClock s0.straps.build) (by decide) mhz.isLt
      (if_pos rfl)
  · obtain ⟨hr, hh, hm⟩ := State.stage_kept (i := 0x1200) (k := 0x08) (v := .num mhz.toNat) (s := s0)
    exact ⟨hr, hh, hm, State.ctr_stage⟩
  · exact exec_blob_done (c := .tableSetWrite path b) hs hl rfl hw (by decide) (entry?_tableSet s0.straps.build) rfl (if_pos rfl)

/-! ## Plans and contexts -/

section
variable {s t : State}

theorem Logged.adm (h : Logged s t) : t.adm = s.adm := by obtain ⟨_, _, _, _, rfl⟩ := h; rfl
theorem Logged.plans (h : Logged s t) : t.planPend = s.planPend ∧ t.planEff = s.planEff := by obtain ⟨_, _, _, _, rfl⟩ := h; exact ⟨rfl, rfl⟩

/-- A refusal of admission changes the result entries and the values spent on figures that the manual does not state, no more. -/
def Judged (s t : State) : Prop := ∃ (a : AdmSt) (n : Nat), t = { s with adm := a, free := n }

theorem Judged.plans (h : Judged s t) : t.planPend = s.planPend ∧ t.planEff = s.planEff := by obtain ⟨_, _, rfl⟩ := h; exact ⟨rfl, rfl⟩
theorem Judged.regs (h : Judged s t) : t.regs = s.regs := by obtain ⟨_, _, rfl⟩ := h; rfl
theorem Judged.hearth (h : Judged s t) : t.hearth = s.hearth := by obtain ⟨_, _, rfl⟩ := h; rfl
theorem Judged.counters (h : Judged s t) : t.counters = s.counters := by obtain ⟨_, _, rfl⟩ := h; rfl

/-- The state in which the result entries describe a refused load, before it is counted. -/
def State.loadRefused (r : Refuse) (tier : Nat) (s : State) : State :=
  State.setAdm { (s.writeRefusal r).adm with
    state := 3, digest := s.adm.loading.elim s.adm.digest planDigest, loading := none, context := none
    tier := if r.code = 0x23 then tier else s.adm.tier } (s.writeRefusal r)

/-- The state in which the result entries describe a refused context, before it is counted. -/
def State.contextRefused (plan : Bytes) (r : Refuse) (tier : Nat) (s : State) : State :=
  State.setAdm { (s.writeRefusal r).adm with
    state := if s.adm.loading.isSome then s.adm.state else 3
    digest := if s.adm.loading.isSome then s.adm.digest else planDigest plan
    tier := if r.code = 0x23 then tier else s.adm.tier } (s.writeRefusal r)

theorem State.loadRefused_judged (r : Refuse) (tier : Nat) (s : State) : Judged s (s.loadRefused r tier) := ⟨_, _, rfl⟩

/-- What a refusal counts and raises moves the counters and the event log alone. -/
theorem State.raise_bump_logged (kind idx subi detail i k : Nat) (s : State) :
    Logged s (State.raise kind idx subi detail (State.bump i k 1 s)) :=
  Logged.trans (State.bump_logged i k 1 s) (State.raise_logged ..)

theorem State.ctr_raise_bump {kind idx subi detail i k : Nat} (hk : addrOf i k ∉ logCounters) :
    (State.raise kind idx subi detail (State.bump i k 1 s)).ctr i k = min Config.u64Max (s.ctr i k + 1) :=
  (State.ctr_raise hk).trans State.ctr_bump_same

variable {r : Refuse} {tier : Nat} {plan b : Bytes} {p : Plan}

/-- A refused load is counted once, as a load or as a context (R27, R247). -/
theorem State.refuseLoad_eq : s.refuseLoad r tier =
    if s.adm.context.isSome then State.raise 4 0x2650 0x02 r.code (State.bump 0x5070 0x0A 1 (s.loadRefused r tier))
    else State.raise 4 0x1220 0x01 r.code (State.bump 0x5000 0x01 1 (s.loadRefused r tier)) := rfl

theorem State.refuseLoad_logged : Logged (s.loadRefused r tier) (s.refuseLoad r tier) := by
  rw [State.refuseLoad_eq]
  split
  · exact State.raise_bump_logged ..
  · exact State.raise_bump_logged ..

theorem State.refuseContext_eq : s.refuseContext plan r tier =
    State.raise 4 0x2650 0x02 r.code (State.bump 0x5070 0x0A 1 (s.contextRefused plan r tier)) := rfl

/-- A refused context is counted, and leaves the load in progress and the plans as they are (R247). -/
theorem State.refuseContext_facts : (s.refuseContext plan r tier).adm.loading = s.adm.loading ∧
    (s.refuseContext plan r tier).adm.code = r.code ∧ (s.refuseContext plan r tier).planPend = s.planPend ∧
    (s.refuseContext plan r tier).planEff = s.planEff ∧
    (s.refuseContext plan r tier).ctr 0x5070 0x0A = min Config.u64Max (s.ctr 0x5070 0x0A + 1) := by
  rw [State.refuseContext_eq]
  have h := State.raise_bump_logged 4 0x2650 0x02 r.code 0x5070 0x0A (s.contextRefused plan r tier)
  obtain ⟨hp, he⟩ := h.plans
  refine ⟨(congrArg AdmSt.loading h.adm).trans rfl, (congrArg AdmSt.code h.adm).trans rfl, hp, he, (State.ctr_raise_bump ?_).trans rfl⟩
  decide

/-! ### Admission -/

theorem State.finishAdmission_none (h : s.adm.loading = none) : s.finishAdmission = s := by
  simp only [State.finishAdmission, h]

theorem State.finishAdmission_ok (h : s.adm.loading = some b) (hj : s.judge (s.reg 0x1200 0x08) b = .ok p) :
    s.finishAdmission = State.changed 0x1210 0x01 2
      { s with
        adm := { s.adm with
          state := 2, code := 0, index := 0xFF, demand := 0, capacity := 0, digest := planDigest b, loading := none, context := none
          pendContext := s.adm.context }
        planPend := some p } := by
  simp only [State.finishAdmission, h, hj]
  rfl

theorem State.finishAdmission_error (h : s.adm.loading = some b) (hj : s.judge (s.reg 0x1200 0x08) b = .error (r, tier)) :
    s.finishAdmission = s.refuseLoad r tier := by
  simp only [State.finishAdmission, h, hj]

theorem exec_admissionComplete (mem : MemAns) :
    exec (.admissionComplete mem) s = .next (State.finish (State.begun mem s).finishAdmission) := rfl

/-! ### Contexts -/

theorem State.contextWrite_stale (h : fld 24 8 b ≠ tableDigest (tableBytes s.whorl.tables)) :
    s.contextWrite b = State.refuseContext (State.contextPlan b)
      { code := Config.unstatedFigure s.free % 256, index := 0xFF, demand := none, capacity := none } 0 (s.spendFree 1) := by
  simp only [State.contextWrite, bne_iff_ne.mpr h, if_true]

theorem State.contextWrite_error (h : fld 24 8 b = tableDigest (tableBytes s.whorl.tables))
    (hj : s.judge (s.reg 0x1200 0x08) (State.contextPlan b) = .error (r, tier)) :
    s.contextWrite b = s.refuseContext (State.contextPlan b) r tier := by
  simp only [State.contextWrite, h, bne_self_eq_false, Bool.false_eq_true, if_false, hj]

theorem State.contextWrite_ok (h : fld 24 8 b = tableDigest (tableBytes s.whorl.tables))
    (hj : s.judge (s.reg 0x1200 0x08) (State.contextPlan b) = .ok p) :
    s.contextWrite b = s.startLoad (State.contextPlan b) (some (fld 4 4 b, fld 16 8 b, sub 64 (16 * fld 37 1 b) b)) := by
  simp only [State.contextWrite, h, bne_self_eq_false, Bool.false_eq_true, if_false, hj]

end

section
variable (b : Build)

theorem entry?_planBytes : entry? b 0x1220 0x01 = some (row 0x1220 0x1220 0x01 0x01 .dom .wo 0 0 0x100000) := by cases b <;> rfl
theorem entry?_contextIn : entry? b 0x2650 0x02 = some (row 0x2650 0x2650 0x02 0x02 .dom .wo 0 0 0x101040) := by cases b <;> rfl

end

/-- Settles O52: admission and a context's write each end in one of their branches, and a refusal moves the result entries and counters. -/
theorem plansAreLoadedAndAdmitted : Obligations.PlansAreLoadedAndAdmitted := by
  intro path b mem s
  refine ⟨?load, ?admission⟩
  case load =>
    intro s0 hl hw
    exact exec_blob_done (c := .planLoad path b) (State.begun_clean_begin s) hl rfl hw (by decide) (entry?_planBytes s0.straps.build) rfl rfl
  case admission =>
    intro s0
    rw [exec_admissionComplete]
    refine ⟨fun h => ?_, fun p h hj => ?_, fun r tier h hj => ?_, fun hl hw => ?_⟩
    · rw [State.finishAdmission_none h]
    · rw [State.finishAdmission_ok h hj]
    · have hg := State.refuseLoad_logged (s := s0) (r := r) (tier := tier)
      have hk := State.loadRefused_judged r tier s0
      refine ⟨s0.refuseLoad r tier, by rw [State.finishAdmission_error h hj], congrArg AdmSt.state hg.adm, congrArg AdmSt.loading hg.adm,
        congrArg AdmSt.code hg.adm, (congrArg AdmSt.digest hg.adm).trans ?_, hg.plans.1.trans hk.plans.1, hg.plans.2.trans hk.plans.2,
        hg.regs.trans hk.regs, hg.hearth.trans hk.hearth, fun hc => ?_, fun hc => ?_⟩
      · exact congrArg (fun o : Option Bytes => o.elim s0.adm.digest planDigest) h
      · rw [State.refuseLoad_eq, hc]
        exact (State.ctr_raise_bump (by decide)).trans (congrArg (fun n => min Config.u64Max (n + 1)) (State.ctr_congr hk.counters))
      · rw [State.refuseLoad_eq, if_pos hc]
        exact (State.ctr_raise_bump (by decide)).trans (congrArg (fun n => min Config.u64Max (n + 1)) (State.ctr_congr hk.counters))
    · have done {t : State} (ht : State.contextWrite b s0 = t) :
          exec (.contextRestore path b mem) s = .next (State.finish (State.answerWrite path .done t)) :=
        exec_blob_done (c := .contextRestore path b mem) rfl hl rfl hw (by decide) (entry?_contextIn s0.straps.build) rfl
          (congrArg (fun t => (t, 0)) ht)
      refine ⟨fun p hd hj => done (State.contextWrite_ok hd hj), fun hd => ⟨_, done (State.contextWrite_stale hd), ?_⟩, fun r tier hd hj => ?_⟩
      · obtain ⟨ha, -, hp, he, hn⟩ := State.refuseContext_facts (s := s0.spendFree 1) (plan := State.contextPlan b) (tier := 0)
          (r := { code := Config.unstatedFigure s0.free % 256, index := 0xFF, demand := none, capacity := none })
        exact ⟨ha, hp, he, hn⟩
      · obtain ⟨ha, hc, hp, he, hn⟩ := State.refuseContext_facts (s := s0) (plan := State.contextPlan b) (tier := tier) (r := r)
        exact ⟨_, ⟨done (State.contextWrite_error hd hj), ha, hp, he, hn⟩, hc⟩

end Sys2Proof.Machine
end

section
/-! PROOFS. The housekeeper's writes (R178, R385, R392, R394, R395) and the requests (R61, R160, R242, R249, R290). -/

namespace Sys2Proof.Machine

section
variable (b : Build)

theorem entry?_image : entry? b 0x3100 0x01 = some (row 0x3100 0x3100 0x01 0x01 .dom .wo 0 0x201 0x80000) := by cases b <;> rfl
theorem entry?_minimum : entry? b 0x3100 0x06 = some (row 0x3100 0x3100 0x06 0x06 .u32 .rw 0 0 0xFFFFFFFF) := by cases b <;> rfl
theorem entry?_format : entry? b 0x3200 0x06 = some (row 0x3200 0x3200 0x06 0x06 .u16 .wo 0 0 0xFFFF) := by cases b <;> rfl
theorem entry?_replica : entry? b 0x2070 0x01 = some (row 0x2070 0x2070 0x01 0x01 .u16 .rw 0xFFFF 0 0xFFFF) := by cases b <;> rfl

end

section
variable {path : Path} {n l k : Nat} {b : Bytes} {s : State}

theorem State.firmwareLoad_degraded (h : s.house.journal.state = 1) : s.firmwareLoad b = s.imageRefused 5 := by
  simp only [State.firmwareLoad, h, if_true]

theorem State.ackEvents_old (h : k ≤ natAt s.house.acked l) : s.ackEvents l k = s := if_pos h

theorem State.ackEvents_new (h : natAt s.house.acked l < k) : s.ackEvents l k =
    { s with house := { s.house with
        acked := setAt s.house.acked l k
        events := mapIf (fun e => e.line == l && decide (e.seq ≤ k)) (fun e => { e with acked := true }) s.house.events } } :=
  if_neg (Nat.not_le.mpr h)

theorem State.doScalar_acked : State.doScalar path 0x3070 (0x10 + l) n s = (s.ackEvents l n, 0) := by
  simp [State.doScalar]

theorem State.replicaTarget_none : s.replicaTarget 0xFFFF = State.setReg 0x2070 0x01 0xFFFF s := by
  simp [State.replicaTarget]

theorem State.replicaTarget_some (hn : n ≠ 0xFFFF) (h : s.code.layout.isSome = true) :
    s.replicaTarget n = State.copyStart n (State.setReg 0x2070 0x01 n s) := by
  have hc : ¬ (n = 0xFFFF || (State.setReg 0x2070 0x01 n s).code.layout.isNone) = true := by
    simpa [hn, Option.isSome_iff_ne_none] using h
  exact if_neg hc

end

section
variable {path : Path} {l k : Nat} {v : Val} {s s0 t : State}

theorem State.ownWrite_acked (hl : l < 8) (hv : s.carriedValue path (0x307010 + l) v = .num k)
    (hw : writable path (0x307010 + l) v s = true) :
    s.ownWrite path (0x307010 + l) v = State.answerWrite path .done (s.ackEvents l k) := by
  obtain ⟨hi, hk⟩ := ackLine_address hl
  have he := entry?_ackLine s.straps.build hl
  rw [← hi, ← hk] at he
  refine State.ownWrite_done hv hw (by omega) he ?_
  rw [hi, hk]
  exact (if_neg (by decide)).trans (State.doScalar_acked (path := path))

theorem exec_eventAcknowledge {line : BitVec 3} {seq : BitVec 64} (hs : State.begun .clean s = s0) (hl : s0.sys.lzReset = false)
    (hv : s0.carriedValue path (0x307010 + line.toNat) (.num seq.toNat) = .num k)
    (hw : writable path (0x307010 + line.toNat) (.num seq.toNat) s0 = true) (ht : s0.ackEvents line.toNat k = t) :
    exec (.eventAcknowledge path line seq) s = .next (State.finish (State.answerWrite path .done t)) := by
  rw [exec_ownWrite (c := .eventAcknowledge path line seq) hs hl rfl hw, State.ownWrite_acked line.isLt hv hw, ht]
  rfl

end

/-- Settles O54: each is a write of an entry whose action is a function of the value alone, with its special case. -/
theorem housekeepingWritesAct : Obligations.HousekeepingWritesAct := by
  intro path b n mib node line seq mem s
  refine ⟨?plain, ?copy⟩
  case plain =>
    intro s0 done hl
    have hs : State.begun .clean s = s0 := State.begun_clean_begin s
    refine ⟨fun hw => ?_, fun hw => ?_, fun hw => ?_, fun k hv hw => ?_⟩
    · have load {t : State} (ht : s0.firmwareLoad b = t) : exec (.firmwareLoad path b) s = done t :=
        exec_blob_done (c := .firmwareLoad path b) hs hl rfl hw (by decide) (entry?_image s0.straps.build) rfl (congrArg (·, 0) ht)
      exact ⟨fun h => load (State.firmwareLoad_degraded h), fun _ => load rfl⟩
    · exact exec_num_done (c := .securityMinimumWrite path n) hs hl rfl hw (by decide) (entry?_minimum s0.straps.build) (by decide) n.isLt rfl
    · exact exec_num_done (c := .journalFormat path mib) hs hl rfl hw (by decide) (entry?_format s0.straps.build) (by decide)
        (Nat.lt_trans mib.isLt (by decide)) rfl
    · have ack {t : State} (ht : s0.ackEvents line.toNat k = t) : exec (.eventAcknowledge path line seq) s = done t :=
        exec_eventAcknowledge hs hl hv hw ht
      exact ⟨fun h => ack (State.ackEvents_old h), fun h => ack (State.ackEvents_new h)⟩
  case copy =>
    intro s0 done hl hw
    have copy {t : State} (ht : s0.replicaTarget node.toNat = t) : exec (.replicaCopyStart path node mem) s = done t :=
      exec_num_done (c := .replicaCopyStart path node mem) rfl hl rfl hw (by decide) (entry?_replica s0.straps.build) (by decide)
        (Nat.lt_trans node.isLt (by decide)) (congrArg (·, 0) ht)
    refine ⟨fun h => copy ?_, fun h hc => copy (State.replicaTarget_some ?_ hc)⟩
    · rw [h]
      exact State.replicaTarget_none
    · exact fun e => h (BitVec.eq_of_toNat_eq e)

end Sys2Proof.Machine
end

section
/-! PROOFS. The requests that a write brings (R61, R160, R242, R249, R290), and what reads return and clear (R363, R406, R416, R417). -/

namespace Sys2Proof.Machine

/-! ## A request's write -/

section
variable {c : Instr} {path : Path} {addr : Nat} {v w : Val} {b : Bytes} {s s0 : State} {r : EntryRow} {x : State × Nat}

/-- How a write ends that passed the checks of Table 14.3: with what its entry's rule says of it (0 done, 7 retry, 9 later, else refused). -/
def State.written (path : Path) (addr : Nat) (x : State × Nat) : State :=
  if x.2 = 0 then State.answerWrite path .done x.1
  else if x.2 = 7 then State.answerWrite path .retry x.1
  else if x.2 = 9 then x.1
  else State.answerWrite path (.refused x.2) (State.refuseWrite (State.pathNo path) addr x.2 x.1)

theorem exec_blob_written (hs : State.begun (memOf c) s = s0) (hl : s0.sys.lzReset = false) (hn : writeNamed c = some (path, addr, .blob b))
    (hw : writable path addr (.blob b) s0 = true) (ha : addr ≠ 0x10FD04)
    (he : entry? s0.straps.build (addrIdx addr) (addrSub addr) = some r) (hb : r.ty.isBlob = true)
    (hx : State.applyWrite path r (addrIdx addr) (addrSub addr) (.blob b) s0 = x) :
    exec c s = .next (State.finish (endWrite c (State.written path addr x))) := by
  rw [exec_ownWrite hs hl hn hw, State.ownWrite_applied (State.carriedValue_blob he hb hw) hw ha he, hx]
  rfl

/-- What passes the checks has the width, length and layout of its entry. -/
theorem State.widthOk_of_writable (he : entry? s.straps.build (addrIdx addr) (addrSub addr) = some r)
    (hv : s.carriedValue path addr v = w) (hw : writable path addr v s = true) : widthOk r (addrIdx addr) (addrSub addr) w = true := by
  have hf : (s.writeFault path r (addrIdx addr) (addrSub addr) w).isNone = true := by
    simp only [writable, hv, he, Bool.and_eq_true] at hw
    exact hw.2
  refine Decidable.byContradiction fun h3 => ?_
  by_cases h1 : (addrSub addr == 0 || r.acc == .ro || r.acc == .rc) = true
  · rw [State.writeFault_unwritable h1] at hf
    cases hf
  · by_cases h2 : s.pathBars path (addrOf (addrIdx addr) (addrSub addr)) = true
    · rw [State.writeFault_barred (Bool.eq_false_iff.mpr h1) h2] at hf
      cases hf
    · rw [State.writeFault_width (Bool.eq_false_iff.mpr h1) (Bool.eq_false_iff.mpr h2) (by rw [Bool.eq_false_iff.mpr h3]; rfl)] at hf
      cases hf

/-- A STR or DOM of one length only has that length where it passes the checks. -/
theorem State.length_of_writable {n : Nat} (he : entry? s.straps.build (addrIdx addr) (addrSub addr) = some r) (hb : r.ty.isBlob = true)
    (hlo : r.lo = n) (hhi : r.hi = n) (hw : writable path addr (.blob b) s = true) : b.length = n := by
  have h := State.widthOk_of_writable he (State.carriedValue_blob he hb hw) hw
  simp only [widthOk, hlo, hhi, Bool.and_eq_true, decide_eq_true_eq] at h
  obtain ⟨⟨⟨-, h1⟩, h2⟩, -⟩ := h
  omega

end

section
variable (b : Build)

theorem entry?_restore : entry? b 0x2640 0x01 = some (row 0x2640 0x2640 0x01 0x01 .dom .wo 0 0 0x21000) := by cases b <;> rfl
theorem entry?_probe : entry? b 0x2630 0x01 = some (row 0x2630 0x2630 0x01 0x01 .dom .wo 0 16 16) := by cases b <;> rfl
theorem entry?_maskRepair : entry? b 0x3040 0x02 = some (row 0x3040 0x3040 0x02 0x02 .dom .wo 0 0x1008 0x1008) := by cases b <;> rfl
theorem entry?_lostMask : entry? b 0x2040 0x07 = some (row 0x2040 0x2040 0x07 0x07 .dom .wo 0 0x1008 0x1008) := by cases b <;> rfl
theorem entry?_discard : entry? b 0x2520 0x01 = some (row 0x2520 0x2520 0x01 0x01 .dom .wo 0 24 24) := by cases b <;> rfl

end

/-! ## What each request's own checks say -/

section
variable {b : Bytes} {s : State} {cs : List Candidate}

theorem State.restoreRequest_layout (h : State.readCandidates b = none) : s.restoreRequest b = (s, 3) := by
  simp only [State.restoreRequest, h]

/-- The checks of a restore request that are not of its layout (R242). -/
def State.restorable (b : Bytes) (cs : List Candidate) (s : State) : Bool :=
  s.planEff.isSome && fld 0 4 b == s.jobTag && cs.all (fun c => fld 22 1 c.record == fld 5 1 b &&
    (State.recordHanks c.record).all (fun e => s.loadingAs e))

theorem State.not_restorable : (s.planEff.isNone || fld 0 4 b != s.jobTag ||
    !cs.all (fun c => fld 22 1 c.record == fld 5 1 b && (State.recordHanks c.record).all (fun e => s.loadingAs e))) =
    !s.restorable b cs := by
  rw [State.restorable, Bool.not_and, Bool.not_and, Option.not_isSome]
  rfl

theorem State.restoreRequest_checks (h : State.readCandidates b = some cs) (hr : s.restorable b cs = false) :
    s.restoreRequest b = (s, 4) := by
  simp only [State.restoreRequest, h]
  rw [if_pos (by rw [State.not_restorable, hr]; rfl)]

theorem State.restoreRequest_busy (h : State.readCandidates b = some cs) (hr : s.restorable b cs = true)
    (hb : s.led.restore.isSome = true) : s.restoreRequest b = (s, 5) := by
  simp only [State.restoreRequest, h]
  rw [if_neg (by rw [State.not_restorable, hr]; decide), if_pos hb]

theorem State.restoreRequest_taken (h : State.readCandidates b = some cs) (hr : s.restorable b cs = true)
    (hb : s.led.restore = none) : (s.restoreRequest b).2 = 0 := by
  simp only [State.restoreRequest, h]
  rw [if_neg (by rw [State.not_restorable, hr]; decide), if_neg (by rw [hb]; decide)]

theorem State.hashProbe_taken (h : b.length = 16) :
    s.hashProbe b = (State.serveProbe { s with led := { s.led with probe := some b } }, 0) :=
  if_neg (by rw [h]; decide)

/-- A mask stripe with which the digest is not the hank's is refused (R61). -/
theorem State.maskRepair_digest {r : HankRt} (hr : s.hank? (fld 0 2 b) = some r)
    (hd : s.maskDigestOf r (some (fld 4 4 b, b.drop 8)) ≠ r.maskDigest) : s.maskRepair b = (s, 4) := by
  simp only [State.maskRepair, hr]
  rw [if_pos (by simp only [bne_iff_ne.mpr hd, Bool.or_true])]

theorem State.lostMaskWrite_reserved (h : fld 1 1 b ≠ 0) : s.lostMaskWrite b = (s, 4) := if_pos (bne_iff_ne.mpr h)

/-- A discard that waits for the dies: Ocper writes again, the other paths are answered later (R290, log 104). -/
def State.discardLater (path : Path) (h off len : Nat) (s : State) : State × Nat :=
  match path with
  | .ocper _ => (s, 7)
  | _ => ({ s with tier := { s.tier with discards := s.tier.discards ++ [(path, h, off, len)] } }, 9)

section
variable {path : Path} {r : HankRt} (hlen : b.length = 24) (hr : s.hank? (fld 0 2 b) = some r) (hp : s.paged r.desc = true)
  (h0 : fld 2 6 b = 0) (ho : fld 8 8 b % 4096 = 0) (hl : fld 16 8 b % 4096 = 0)
include hlen hr hp h0 ho hl

/-- An aligned discard of a hank in tiers comes to what the pages' copies allow (R290). -/
theorem State.pageDiscard_paged {now : State × Bool} (hn : State.discardNow (fld 0 2 b) (fld 8 8 b) (fld 16 8 b) s = now) :
    s.pageDiscard path b = if now.2 then (now.1, 0) else now.1.discardLater path (fld 0 2 b) (fld 8 8 b) (fld 16 8 b) := by
  unfold State.pageDiscard
  dsimp only
  rw [if_neg (by rw [hlen]; decide), if_neg (by rw [h0, ho, hl]; decide), hr]
  dsimp only
  rw [if_neg (by rw [hp]; decide), hn]
  rfl

end

theorem State.discardNow_alone {h off len : Nat} (hq : s.tier.presence = []) : (State.discardNow h off len s).2 = true := by
  unfold State.discardNow
  dsimp only
  rw [if_neg (by rw [State.coherent_alone _ hq]; decide)]

end

/-- Settles O56: each request is the write of one entry, whose rule is a run of checks and then its action. -/
theorem requestsAreTakenOrRefused : Obligations.RequestsAreTakenOrRefused := by
  intro path b mem s s0 hl ends
  refine ⟨fun hw => ⟨?_, State.restoreRequest_layout, fun cs hc => ⟨State.restoreRequest_checks hc,
      fun hr hb => State.restoreRequest_busy hc hr hb, fun hr hb => State.restoreRequest_taken hc hr hb⟩⟩,
    fun hw => ⟨?_, ?_⟩, fun hw => ⟨?_, fun r hr _ hd => State.maskRepair_digest hr hd⟩, fun hw => ⟨?_, State.lostMaskWrite_reserved⟩,
    fun hw => ⟨?_, fun r hr hp h0 ho hn => ?_⟩⟩
  · exact exec_blob_written (c := .restoreRequest path b mem) rfl hl rfl hw (by decide) (entry?_restore s0.straps.build) rfl rfl
  · exact exec_blob_written (c := .hashProbe path b mem) rfl hl rfl hw (by decide) (entry?_probe s0.straps.build) rfl rfl
  · exact State.hashProbe_taken (State.length_of_writable (entry?_probe s0.straps.build) rfl rfl rfl hw)
  · exact exec_blob_written (c := .maskStripeRepair path b mem) rfl hl rfl hw (by decide) (entry?_maskRepair s0.straps.build) rfl rfl
  · exact exec_blob_written (c := .lostMaskCopy path b mem) rfl hl rfl hw (by decide) (entry?_lostMask s0.straps.build) rfl rfl
  · exact exec_blob_written (c := .pageDiscard path b mem) rfl hl rfl hw (by decide) (entry?_discard s0.straps.build) rfl rfl
  · intro now
    have h24 := State.length_of_writable (entry?_discard s0.straps.build) rfl rfl rfl hw
    have page := State.pageDiscard_paged (path := path) h24 hr hp h0 ho hn (now := now) rfl
    refine ⟨fun hq => ?_, fun hd n hpath => ?_, fun hd hpath => ?_⟩
    · rw [page, if_pos (State.discardNow_alone hq)]
    · subst hpath
      have later : State.pageDiscard (.ocper n) b s0 = (now.1, 7) := by
        rw [page, if_neg (by rw [hd]; decide)]
        rfl
      refine ⟨later, ?_⟩
      rw [exec_blob_written (c := .pageDiscard (.ocper n) b mem) rfl hl rfl hw (by decide) (entry?_discard s0.straps.build) rfl
        (show _ = (now.1, 7) from later)]
      rfl
    · rw [page, if_neg (by rw [hd]; decide)]
      cases path with
      | ocper n => exact absurd rfl (hpath n)
      | regPort => rfl
      | jutus => rfl
      | jtag => rfl

/-! ## Reads -/

section
variable {i k j l n : Nat} {s : State}

theorem State.ctr_clearCtr_zero (h : s.ctr j l = 0) : (State.clearCtr i k s).ctr j l = 0 := by
  by_cases he : addrOf j l = addrOf i k
  · rw [State.ctr, he]
    exact State.ctr_clearCtr_same
  · rw [State.ctr_clearCtr_ne he, h]

/-- Counters of an index that are cleared one after the other all read 0 at the end. -/
theorem State.ctr_clearAll (ks : List Nat) (s : State) :
    (∀ m, s.ctr i m = 0 → (forEach ks (fun k st => st.clearCtr i (k + 1)) s).ctr i m = 0) ∧
    ∀ k ∈ ks, (forEach ks (fun k st => st.clearCtr i (k + 1)) s).ctr i (k + 1) = 0 := by
  induction ks generalizing s with
  | nil => exact ⟨fun _ h => h, fun _ h => absurd h List.not_mem_nil⟩
  | cons k ks ih =>
    obtain ⟨keep, clear⟩ := ih (s.clearCtr i (k + 1))
    refine ⟨fun m h => keep m (State.ctr_clearCtr_zero h), fun m hm => ?_⟩
    rcases List.mem_cons.mp hm with rfl | hm
    · exact keep _ State.ctr_clearCtr_same
    · exact clear m hm

theorem State.ctr_clearBlock (h : n < highSub s.straps.build i) : (State.clearBlock i s).ctr i (n + 1) = 0 :=
  (State.ctr_clearAll _ s).2 n (List.mem_range.mpr h)

end

section
variable {path : Path} {addr n : Nat} {s : State} {r : EntryRow} {v : Val} {b : Bytes} (hk : s.sys.hk = .running)
include hk

theorem State.portReadOut_u64 (hv : s.readValue .regPort addr = some (r, .num n)) (hr : r.ty = .u64) : s.portReadOut addr =
    State.emit (.rp 0 (n % 2 ^ 32)) { s.afterRead r (addrIdx addr) (addrSub addr) with
      house := { (s.afterRead r (addrIdx addr) (addrSub addr)).house with latch := n / 2 ^ 32 } } := by
  simp only [State.portReadOut, State.wordRead, State.serves_running hk, hv, if_pos hr, Bool.not_true, Bool.false_eq_true, if_false]

theorem State.portReadOut_word (hv : s.readValue .regPort addr = some (r, .num n)) (hr : r.ty ≠ .u64) : s.portReadOut addr =
    State.emit (.rp 0 n) (s.afterRead r (addrIdx addr) (addrSub addr)) := by
  simp only [State.portReadOut, State.wordRead, State.serves_running hk, hv, if_neg hr, Bool.not_true, Bool.false_eq_true, if_false]

theorem State.portReadOut_blob (hv : s.readValue .regPort addr = some (r, .blob b)) : s.portReadOut addr = State.emit (.rp 1 0) s := by
  simp only [State.portReadOut, State.wordRead, State.serves_running hk, hv, Bool.not_true, Bool.false_eq_true, if_false]

/-- Outside the register port and JTAG a read returns the value's bytes; a locked monitor is barred from what a read clears (R401). -/
theorem State.readOut_value (hp : path ≠ .regPort) (hj : path ≠ .jtag) (hu : path ≠ .jutus ∨ s.house.jutus.unlocked = true)
    (hv : s.readValue path addr = some (r, v)) :
    s.readOut path addr = State.emit (.val path (valueBytes r.ty v)) (s.afterRead r (addrIdx addr) (addrSub addr)) := by
  have bar : ¬ (path = .jutus && !s.house.jutus.unlocked && r.acc = .rc && addrSub addr != 0) = true := by
    rcases hu with hu | hu
    · simp [hu]
    · simp [hu]
  have out : s.readOut path addr = s.valueReadOut path addr := by
    cases path with
    | regPort => exact absurd rfl hp
    | jtag => exact absurd rfl hj
    | jutus => rfl
    | ocper m => rfl
  rw [out, State.valueReadOut, State.serves_running hk, hv]
  exact if_neg bar

end

/-! ## The bulk read -/

/-- The row stands at the end of the entry tables. -/
theorem entryRows_bulk : entryRows.find? (fun r => r.covers 0x5FFE 0x02) = some (row 0x5FFE 0x5FFE 0x02 0x02 .dom .rc 0 0 0x7F8) := by
  have h1 : entryRows1.find? (fun r => r.covers 0x5FFE 0x02) = none := rfl
  have h2 : entryRows2.find? (fun r => r.covers 0x5FFE 0x02) = none := rfl
  have h3 : entryRows3.find? (fun r => r.covers 0x5FFE 0x02) = none := rfl
  have h4 : entryRows4.find? (fun r => r.covers 0x5FFE 0x02) = none := rfl
  have h5 : entryRows5.find? (fun r => r.covers 0x5FFE 0x02) = none := rfl
  simp only [entryRows, List.find?_append, h1, h2, h3, h4, h5, Option.none_or]
  rfl

theorem entry?_bulk (b : Build) : entry? b 0x5FFE 0x02 = some (row 0x5FFE 0x5FFE 0x02 0x02 .dom .rc 0 0 0x7F8) := by
  have hb : entryInBuild b 0x5FFE 0x02 = true := by cases b <;> rfl
  rw [entry?, if_neg (by decide), if_pos hb, entryRows_bulk]

section
variable {path : Path} {s : State}

theorem State.readValue_bulk : s.readValue path 0x5FFE02 = some (row 0x5FFE 0x5FFE 0x02 0x02 .dom .rc 0 0 0x7F8,
    .blob (if s.house.bulkNamed then s.counterBlock (s.reg 0x5FFE 0x01) else [])) := by
  rw [State.readValue, show addrIdx 0x5FFE02 = 0x5FFE from rfl, show addrSub 0x5FFE02 = 0x02 from rfl, entry?_bulk]
  rfl

theorem State.afterRead_bulk {r : EntryRow} (hr : r.acc = .rc) : s.afterRead r 0x5FFE 0x02 =
    if s.house.bulkNamed then s.clearBlock (s.reg 0x5FFE 0x01) else s := by
  simp [State.afterRead, hr]

/-- The register port takes the bulk read through the transfer window (log 61). -/
theorem State.xferTarget_bulk (hb : s.house.bulkNamed = true) :
    State.xferTarget .regPort 0x5FFE02 s =
      (let s1 := State.clearBlock (s.reg 0x5FFE 0x01) (State.setReg 0x10FD 0x02 0 (State.setReg 0x10FD 0x01 0x5FFE02 s))
       let bytes := s.counterBlock (s.reg 0x5FFE 0x01)
       { s1 with house := { s1.house with xfer := bytes, xferLen := bytes.length } }) := by
  have hreg : (State.setReg 0x10FD 0x02 0 (State.setReg 0x10FD 0x01 0x5FFE02 s)).reg 0x5FFE 0x01 = s.reg 0x5FFE 0x01 :=
    (State.reg_setReg_ne (by decide)).trans (State.reg_setReg_ne (by decide))
  have hnamed : (State.setReg 0x10FD 0x02 0 (State.setReg 0x10FD 0x01 0x5FFE02 s)).house.bulkNamed = true := hb
  unfold State.xferTarget
  dsimp only
  rw [if_neg (by decide), State.readEntry, State.readValue_bulk]
  dsimp only
  rw [show addrIdx 0x5FFE02 = 0x5FFE from rfl, show addrSub 0x5FFE02 = 0x02 from rfl, State.afterRead_bulk rfl, hreg, if_pos hnamed,
    if_pos hnamed]
  rfl

end

/-! ## The commands that read -/

theorem exec_portRead {c : Instr} {a : BitVec 24} (s : State) (h : c ∈ [Instr.u64ReadLatch a, .rcRead .regPort a]) :
    exec c s = .next (State.finish ((State.begun .clean s).ready (State.portReadOut a.toNat))) := by
  rcases List.mem_cons.mp h with rfl | h
  · rfl
  · rw [List.mem_singleton.mp h]
    rfl

theorem exec_rcRead (path : Path) (a : BitVec 24) (s : State) :
    exec (.rcRead path a) s = .next (State.finish ((State.begun .clean s).atPort path (State.readOut path a.toNat))) := rfl

theorem exec_counterBulkRead {path : Path} (hp : path ≠ .regPort) (s : State) :
    exec (.counterBulkRead path) s = .next (State.finish ((State.begun .clean s).atPort path (State.readOut path 0x5FFE02))) := by
  cases path with
  | regPort => exact absurd rfl hp
  | jtag => rfl
  | jutus => rfl
  | ocper m => rfl

theorem exec_counterBulkRead_port (s : State) : exec (.counterBulkRead .regPort) s =
    .next (State.finish ((State.begun .clean s).ready (State.ownWrite .regPort 0x10FD01 (.num 0x5FFE02)))) := rfl

/-- Settles O58: a read returns the value in effect, which the begin of a command leaves alone, and then does what its entry's access says. -/
theorem readsReturnAndClear : Obligations.ReadsReturnAndClear := by
  intro path a s hl hr hk s0 after
  have hs : State.begun .clean s = s0 := State.begun_clean_begin s
  have hl0 : s0.sys.lzReset = false := hl
  have hr0 : s0.sys.ready = true := hr
  have hk0 : s0.sys.hk = .running := hk
  refine ⟨fun c hc => ?port, fun hp hj hu r v hv => ?value, ?bulk, fun idx sub => State.ctr_clearCtr_same⟩
  case port =>
    rw [exec_portRead s hc, hs, State.ready_up hr0]
    refine ⟨fun r n hv => ⟨fun h64 => ?_, fun h64 => ?_⟩, fun r b hv => ?_⟩
    · rw [State.portReadOut_u64 hk0 (State.readValue_begin.trans hv) h64]
    · rw [State.portReadOut_word hk0 (State.readValue_begin.trans hv) h64]
    · rw [State.portReadOut_blob hk0 (State.readValue_begin.trans hv)]
  case value =>
    rw [exec_rcRead, hs, State.atPort_up hl0 (fun h => absurd h hp),
      State.readOut_value hk0 hp hj hu (State.readValue_begin.trans hv)]
  case bulk =>
    intro idx high bytes
    refine ⟨fun hp hj hu => ?_, fun hb => ?_, fun i hi => State.ctr_clearBlock hi⟩
    · have read : exec (.counterBulkRead path) s = .next (State.finish (State.emit (.val path
          (if s0.house.bulkNamed then s0.counterBlock (s0.reg 0x5FFE 0x01) else []))
          (if s0.house.bulkNamed then s0.clearBlock (s0.reg 0x5FFE 0x01) else s0))) := by
        rw [exec_counterBulkRead hp, hs, State.atPort_up hl0 (fun h => absurd h hp),
          State.readOut_value hk0 hp hj hu State.readValue_bulk, show addrIdx 0x5FFE02 = 0x5FFE from rfl,
          show addrSub 0x5FFE02 = 0x02 from rfl, State.afterRead_bulk (s := s0) rfl]
        rfl
      refine ⟨fun hb => ?_, fun hb => ?_⟩
      · rw [read, if_pos (show s0.house.bulkNamed = true from hb), if_pos (show s0.house.bulkNamed = true from hb)]
        rfl
      · rw [read, if_neg (show ¬ s0.house.bulkNamed = true from ne_true_of_eq_false hb),
          if_neg (show ¬ s0.house.bulkNamed = true from ne_true_of_eq_false hb)]
    · refine ⟨State.xferTarget .regPort 0x5FFE02 s0, ?_, ?_⟩
      · rw [exec_counterBulkRead_port, hs, State.ready_up hr0, State.ownWrite_xferTarget hr0 hk0 (by decide)]
        rfl
      · rw [State.xferTarget_bulk (s := s0) hb]
        obtain ⟨c, hc⟩ := State.clearBlock_counted idx (State.setReg 0x10FD 0x02 0 (State.setReg 0x10FD 0x01 0x5FFE02 s0))
        refine ⟨rfl, ?_, fun i hi => State.ctr_clearBlock hi, ?_⟩
        · show (State.clearBlock idx (State.setReg 0x10FD 0x02 0 (State.setReg 0x10FD 0x01 0x5FFE02 s0))).reg 0x10FD 0x02 = 0
          rw [hc]
          exact State.reg_setReg_same
        · show (State.clearBlock idx (State.setReg 0x10FD 0x02 0 (State.setReg 0x10FD 0x01 0x5FFE02 s0))).hearth = s.hearth
          rw [hc]
          rfl

end Sys2Proof.Machine
end

section
/-! PROOFS. What every operation of the block leaves steady, beside what Keeps.lean says: the TAP controller's rest state, the answers of the
memories that a command brings, what has been put out, each counter's bound by itself, and, but for the operations of the tick group, the
step's frame. One lemma per operation says so; callers cite it. -/

namespace Sys2Proof.Machine

/-- The TAP controller is where it stands between commands (log 189). -/
def State.Rests (s : State) : Prop := s.jtag.tap = .idle ∨ s.jtag.tap = .reset

/-- The part of the frame that only the tick group moves: its step, phase, signals, hall time, the held tick, the roll-call epoch and the step
sealed last. -/
abbrev FrameSt.core (f : FrameSt) : FrameSt :=
  { f with
    everSealed := true, sealReadyAt := none, noQuorumCounted := true, delayCounted := true, epochWaitCounted := true, drainStep := true
    withheld := true }

/-- `t` comes from `s` by operations of the block; with `frame` set, by none that moves the frame. -/
structure Steady (frame : Bool) (s t : State) : Prop where
  rest : s.Rests → t.Rests
  ans : t.ans = s.ans
  out : ∀ o ∈ s.out, o ∈ t.out
  counter : ∀ i k, s.ctr i k ≤ Config.u64Max → t.ctr i k ≤ Config.u64Max
  frame : frame = true → t.fr.core = s.fr.core

namespace Steady

variable {b : Bool}

theorem refl (s : State) : Steady b s s := ⟨id, rfl, fun _ h => h, fun _ _ h => h, fun _ => rfl⟩

theorem trans {s t u : State} (h : Steady b s t) (g : Steady b t u) : Steady b s u :=
  ⟨g.rest ∘ h.rest, g.ans.trans h.ans, fun o ho => g.out o (h.out o ho), fun i k hk => g.counter i k (h.counter i k hk),
    fun hb => (g.frame hb).trans (h.frame hb)⟩

/-- What does not move the frame is steady without it, too. -/
theorem weaken {s t : State} (h : Steady true s t) : Steady b s t := ⟨h.rest, h.ans, h.out, h.counter, fun _ => h.frame rfl⟩

/-- A record update of the other fields. -/
theorem put {s s0 : State} {straps sys time planEff planPend adm regs staged hanks hearth pantry nv tier land card code loss mem led whorl fx
    house scrub off prev free pending} :
    Steady b s { straps := straps, sys := sys, time := time, fr := s0.fr, planEff := planEff, planPend := planPend, adm := adm,
                 counters := s0.counters, regs := regs, staged := staged, hanks := hanks, hearth := hearth, pantry := pantry,
                 nv := nv, tier := tier, land := land, card := card, code := code, loss := loss, mem := mem, led := led,
                 whorl := whorl, fx := fx, house := house, jtag := s0.jtag, scrub := scrub, off := off, prev := prev, ans := s0.ans,
                 out := s0.out, free := free, pending := pending } ↔ Steady b s s0 :=
  ⟨fun h => ⟨h.rest, h.ans, h.out, h.counter, h.frame⟩, fun h => ⟨h.rest, h.ans, h.out, h.counter, h.frame⟩⟩

/-- An update that touches the frame outside its core, or any of it where the frame may move. -/
theorem putFrame {s s0 : State} {straps sys time fr planEff planPend adm regs staged hanks hearth pantry nv tier land card code loss mem led
    whorl fx house scrub off prev free pending} (hf : b = true → fr.core = s0.fr.core) (h : Steady b s s0) :
    Steady b s { straps := straps, sys := sys, time := time, fr := fr, planEff := planEff, planPend := planPend, adm := adm,
                 counters := s0.counters, regs := regs, staged := staged, hanks := hanks, hearth := hearth, pantry := pantry,
                 nv := nv, tier := tier, land := land, card := card, code := code, loss := loss, mem := mem, led := led,
                 whorl := whorl, fx := fx, house := house, jtag := s0.jtag, scrub := scrub, off := off, prev := prev, ans := s0.ans,
                 out := s0.out, free := free, pending := pending } :=
  ⟨h.rest, h.ans, h.out, h.counter, fun hb => (hf hb).trans (h.frame hb)⟩

theorem emit {s : State} {o : Out} : Steady b s { s with out := s.out ++ [o] } :=
  ⟨id, rfl, fun _ h => List.mem_append_left _ h, fun _ _ h => h, fun _ => rfl⟩

/-- A counter written with a value within the limit. -/
theorem setCounter {s : State} {k v : Nat} (hv : v ≤ Config.u64Max) : Steady b s { s with counters := natSet s.counters k v } := by
  refine ⟨id, rfl, fun _ h => h, fun i j hj => ?_, fun _ => rfl⟩
  show natGet (natSet s.counters k v) (addrOf i j) ≤ Config.u64Max
  by_cases he : addrOf i j = k
  · rwa [he, natGet_natSet_same]
  · rwa [natGet_natSet_ne _ _ he]

/-- The first component of a pair that is known by an equation. -/
theorem of_fst {α : Type} {s t : State} {p : State × α} {x : α} (h : Steady b s p.1) (e : p = (t, x)) : Steady b s t := by
  rw [e] at h
  exact h

/-- Both branches of a pair are steady. -/
theorem ite_fst {α : Type} {c : Prop} [Decidable c] {s : State} {p q : State × α} (h1 : Steady b s p.1) (h2 : Steady b s q.1) :
    Steady b s (if c then p else q).1 := by
  split
  · exact h1
  · exact h2

/-- A loop keeps steady what each turn does. -/
theorem foldl {α : Type} {f : State → α → State} {l : List α} {s0 s : State} (hf : ∀ st x, Steady b st (f st x)) (h : Steady b s0 s) :
    Steady b s0 (l.foldl f s) := by
  induction l generalizing s with
  | nil => exact h
  | cons x xs ih => exact ih (h.trans (hf s x))

theorem forEach {α : Type} {f : α → State → State} {l : List α} {s0 s : State} (hf : ∀ x st, Steady b st (f x st)) (h : Steady b s0 s) :
    Steady b s0 (forEach l f s) :=
  foldl (fun st x => hf x st) h

/-- A loop over a state and something else. -/
theorem foldl_fst {α β : Type} {f : State × β → α → State × β} {l : List α} {p : State × β} {s0 : State}
    (hf : ∀ acc x, Steady b acc.1 (f acc x).1) (h : Steady b s0 p.1) : Steady b s0 (l.foldl f p).1 := by
  induction l generalizing p with
  | nil => exact h
  | cons x xs ih => exact ih (h.trans (hf p x))

end Steady

end Sys2Proof.Machine
end

section
/-! PROOFS. What the operations of Machine/Ops.lean leave steady. -/

namespace Sys2Proof.Machine

variable {b : Bool} {t s : State}

theorem State.emit_steady {x0} (h : Steady b t s) : Steady b t (State.emit x0 s) := h.trans Steady.emit

theorem State.askBlocks_steady {x0 x1} (h : Steady b t s) : Steady b t (State.askBlocks x0 x1 s) := State.emit_steady h

theorem State.askLine_steady {x0} (h : Steady b t s) : Steady b t (State.askLine x0 s) := State.emit_steady h

theorem State.bump_steady {x0 x1 x2} (h : Steady b t s) : Steady b t (State.bump x0 x1 x2 s) :=
  h.trans (Steady.setCounter (Nat.min_le_left _ _))

theorem State.enter_steady {x0 x1 x2 x3} (h : Steady b t s) : Steady b t (State.enter x0 x1 x2 x3 s) := by
  unfold State.enter
  with_reducible repeat' first | exact h | simp only [Steady.put] | refine State.bump_steady ?_ | split

theorem State.setFrameEvents_steady {x0} (h : Steady b t s) : Steady b t (State.setFrameEvents x0 s) := Steady.put.mpr h

theorem State.raise_steady {x0 x1 x2 x3} (h : Steady b t s) : Steady b t (State.raise x0 x1 x2 x3 s) := by
  unfold State.raise
  with_reducible repeat' first
    | exact h | simp only [Steady.put] | refine State.enter_steady ?_ | refine State.setFrameEvents_steady ?_ | refine State.bump_steady ?_
    | split

theorem State.changed_steady {x0 x1 x2} (h : Steady b t s) : Steady b t (State.changed x0 x1 x2 s) := State.raise_steady h

theorem State.clearCtr_steady {x0 x1} (h : Steady b t s) : Steady b t (State.clearCtr x0 x1 s) :=
  h.trans (Steady.setCounter (Nat.zero_le _))

theorem State.note_steady {x0 x1 x2} (h : Steady b t s) : Steady b t (State.note x0 x1 x2 s) := State.raise_steady h

theorem State.countNote_steady {x0 x1 x2} (h : Steady b t s) : Steady b t (State.countNote x0 x1 x2 s) :=
  State.note_steady (State.bump_steady h)

theorem State.flushSuppressed_steady (h : Steady b t s) : Steady b t (State.flushSuppressed s) := by
  refine h.trans ?_
  unfold State.flushSuppressed
  with_reducible repeat' first
    | exact Steady.refl _ | simp only [Steady.put] | refine State.enter_steady ?_ | refine Steady.forEach (fun x st => ?_) ?_

theorem State.hearthPut_steady {x0 x1} (h : Steady b t s) : Steady b t (State.hearthPut x0 x1 s) :=
  h.trans ⟨id, rfl, fun _ h => h, fun _ _ h => h, fun _ => rfl⟩

theorem State.tell_steady {x0} (h : Steady b t s) : Steady b t (State.tell x0 s) := by
  unfold State.tell
  with_reducible repeat' first | exact h | simp only [Steady.put] | refine State.emit_steady ?_ | split

theorem State.hearthBeat_steady {x0 x1 x2} (h : Steady b t s) : Steady b t (State.hearthBeat x0 x1 x2 s) :=
  State.hearthPut_steady (State.tell_steady h)

theorem State.tellBlocks_steady {x0 x1} (h : Steady b t s) : Steady b t (State.tellBlocks x0 x1 s) := State.tell_steady h

theorem State.hearthWrite_steady {x0 x1} (h : Steady b t s) : Steady b t (State.hearthWrite x0 x1 s) :=
  State.hearthPut_steady (State.tellBlocks_steady h)

theorem State.mergeAt_steady {x0} (h : Steady b t s) : Steady b t (State.mergeAt x0 s) := by
  unfold State.mergeAt
  with_reducible repeat' first | exact h | simp only [Steady.put] | refine State.bump_steady ?_ | split

theorem State.nvWrite_steady {x0 x1} (h : Steady b t s) : Steady b t (State.nvWrite x0 x1 s) :=
  h.trans ⟨id, rfl, fun _ h => h, fun _ _ h => h, fun _ => rfl⟩

theorem State.pantryPut_steady {x0 x1} (h : Steady b t s) : Steady b t (State.pantryPut x0 x1 s) :=
  h.trans ⟨id, rfl, fun _ h => h, fun _ _ h => h, fun _ => rfl⟩

theorem State.pantryBeat_steady {x0 x1 x2} (h : Steady b t s) : Steady b t (State.pantryBeat x0 x1 x2 s) := by
  unfold State.pantryBeat
  with_reducible repeat' first | exact h | refine State.tell_steady ?_ | refine State.pantryPut_steady ?_

theorem State.tellLines_steady {x0 x1} (h : Steady b t s) : Steady b t (State.tellLines x0 x1 s) := by
  refine h.trans ?_
  unfold State.tellLines
  with_reducible repeat' first | exact Steady.refl _ | refine State.tell_steady ?_ | refine Steady.forEach (fun x st => ?_) ?_

theorem State.pantryWrite_steady {x0 x1} (h : Steady b t s) : Steady b t (State.pantryWrite x0 x1 s) :=
  State.pantryPut_steady (State.tellLines_steady h)

theorem State.refuseWrite_steady {x0 x1 x2} (h : Steady b t s) : Steady b t (State.refuseWrite x0 x1 x2 s) :=
  State.raise_steady (State.bump_steady (Steady.put.mpr h))

theorem State.sampleTime_steady {x0} (h : Steady b t s) : Steady b t (State.sampleTime x0 s) := by
  unfold State.sampleTime
  with_reducible repeat' first | exact h | simp only [Steady.put] | refine State.bump_steady ?_ | split

theorem State.setReg_steady {x0 x1 x2} (h : Steady b t s) : Steady b t (State.setReg x0 x1 x2 s) := Steady.put.mpr h

theorem State.spendFree_steady {x0} (h : Steady b t s) : Steady b t (State.spendFree x0 s) :=
  h.trans ⟨id, rfl, fun _ h => h, fun _ _ h => h, fun _ => rfl⟩

theorem State.stage_steady {x0 x1 x2} (h : Steady b t s) : Steady b t (State.stage x0 x1 x2 s) := by
  unfold State.stage
  with_reducible repeat' first | exact h | simp only [Steady.put] | refine State.bump_steady ?_ | split

theorem State.tellLater_steady (h : Steady b t s) : Steady b t (State.tellLater s) := by
  refine h.trans ?_
  unfold State.tellLater
  with_reducible repeat' first
    | exact Steady.refl _ | simp only [Steady.put] | refine State.tell_steady ?_ | refine Steady.forEach (fun x st => ?_) ?_ | split

theorem State.unstage_steady {x0 x1} (h : Steady b t s) : Steady b t (State.unstage x0 x1 s) := Steady.put.mpr h

theorem State.updHank_steady {x0 x1} (h : Steady b t s) : Steady b t (State.updHank x0 x1 s) := Steady.put.mpr h

end Sys2Proof.Machine
end

section
/-! PROOFS. What the operations of Machine/Layout.lean leave steady. -/

namespace Sys2Proof.Machine

variable {b : Bool} {t s : State}

theorem State.writeOwnPly_steady {x0 x1 x2 x3 x4} (h : Steady b t s) : Steady b t (State.writeOwnPly x0 x1 x2 x3 x4 s) := by
  unfold State.writeOwnPly
  with_reducible repeat' first | exact h | refine State.pantryWrite_steady ?_ | refine State.hearthWrite_steady ?_ | split

theorem State.carryPlies_steady {x0} (h : Steady b t s) : Steady b t (State.carryPlies x0 s) := by
  refine h.trans ?_
  unfold State.carryPlies
  with_reducible repeat' first
    | exact Steady.refl _ | refine State.writeOwnPly_steady ?_ | refine Steady.forEach (fun x st => ?_) ?_ | split

theorem State.writePlane_steady {x0 x1 x2 x3 x4} (h : Steady b t s) : Steady b t (State.writePlane x0 x1 x2 x3 x4 s) := by
  unfold State.writePlane
  with_reducible repeat' first
    | exact h | simp only [Steady.put] | refine State.pantryWrite_steady ?_ | refine State.hearthWrite_steady ?_ | split

theorem State.writeGroup_steady {x0 x1 x2} (h : Steady b t s) : Steady b t (State.writeGroup x0 x1 x2 s) := by
  refine h.trans ?_
  unfold State.writeGroup
  with_reducible repeat' first
    | exact Steady.refl _ | refine State.writePlane_steady ?_ | refine Steady.forEach (fun x st => ?_) ?_ | split

theorem State.writePly_steady {x0 x1 x2 x3 x4 x5} (h : Steady b t s) : Steady b t (State.writePly x0 x1 x2 x3 x4 x5 s) := by
  unfold State.writePly
  with_reducible repeat' first | exact h | simp only [Steady.put] | refine State.writeOwnPly_steady ?_ | split

theorem State.writeReserve_steady {x0 x1 x2 x3 x4} (h : Steady b t s) : Steady b t (State.writeReserve x0 x1 x2 x3 x4 s) := by
  refine h.trans ?_
  unfold State.writeReserve
  with_reducible repeat' first | exact Steady.refl _ | refine State.hearthWrite_steady ?_ | refine Steady.forEach (fun x st => ?_) ?_

end Sys2Proof.Machine
end

section
/-! PROOFS. What the operations of Machine/Fabric.lean leave steady. -/

namespace Sys2Proof.Machine

variable {b : Bool} {t s : State}

theorem State.countReturned_steady {x0 x1} (h : Steady b t s) : Steady b t (State.countReturned x0 x1 s) := Steady.put.mpr h

theorem State.countIssued_steady {x0 x1} (h : Steady b t s) : Steady b t (State.countIssued x0 x1 s) := Steady.put.mpr h

theorem State.takeCredits_steady {x0 x1} (h : Steady b t s) : Steady b t (State.takeCredits x0 x1 s) := by
  unfold State.takeCredits
  with_reducible repeat' first
    | exact h | simp only [Steady.put] | refine State.emit_steady ?_ | refine State.countReturned_steady ?_
    | refine State.countIssued_steady ?_ | split

theorem State.putTwist_steady {x0 x1} (h : Steady b t s) : Steady b t (State.putTwist x0 x1 s) := Steady.put.mpr h

theorem State.leaveReg_steady {x0 x1 x2 x3 x4} (h : Steady b t s) : Steady b t (State.leaveReg x0 x1 x2 x3 x4 s) := by
  unfold State.leaveReg
  with_reducible repeat' first | exact h | simp only [Steady.put] | refine State.putTwist_steady ?_ | split

theorem State.arrive_steady {x0 x1 x2} (h : Steady b t s) : Steady b t (State.arrive x0 x1 x2 s) := by
  unfold State.arrive
  with_reducible repeat' first
    | exact h | refine State.bump_steady ?_ | refine State.takeCredits_steady ?_ | refine State.leaveReg_steady ?_ | split

theorem State.authFailure_steady (h : Steady b t s) : Steady b t (State.authFailure s) := by
  unfold State.authFailure
  with_reducible repeat' first | exact h | simp only [Steady.put] | refine State.bump_steady ?_ | refine State.note_steady ?_ | split

theorem State.discard_steady {x0 x1} (h : Steady b t s) : Steady b t (State.discard x0 x1 s).1 := State.bump_steady h

theorem State.dropReqs_steady {x0} (h : Steady b t s) : Steady b t (State.dropReqs x0 s) := Steady.put.mpr h

theorem State.endEntry_steady {x0} (h : Steady b t s) : Steady b t (State.endEntry x0 s) := by
  unfold State.endEntry
  with_reducible repeat' first
    | exact h | refine State.leaveReg_steady ?_ | refine State.emit_steady ?_ | refine State.bump_steady ?_ | split

theorem State.setCredit_steady {x0 x1 x2} (h : Steady b t s) : Steady b t (State.setCredit x0 x1 x2 s) := Steady.put.mpr h

theorem State.spend_steady {x0 x1 x2 x3 x4} (h : Steady b t s) : Steady b t (State.spend x0 x1 x2 x3 x4 s) := by
  unfold State.spend
  with_reducible repeat' first
    | exact h | simp only [Steady.put] | refine State.setCredit_steady ?_ | refine State.countIssued_steady ?_ | split

theorem State.touchCtx_steady {x0} (h : Steady b t s) : Steady b t (State.touchCtx x0 s) := Steady.put.mpr h

theorem State.evictOne_steady (h : Steady b t s) : Steady b t (State.evictOne s) := by
  unfold State.evictOne
  with_reducible repeat' first | exact h | simp only [Steady.put] | refine State.bump_steady ?_ | split

theorem State.evictFor_steady {x0} (h : Steady b t s) : Steady b t (State.evictFor x0 s) := by
  unfold State.evictFor
  with_reducible repeat' first | exact h | simp only [Steady.put] | refine State.evictOne_steady ?_ | split

theorem State.nextAlive_steady {x0 x1} (h : Steady b t s) : Steady b t (State.nextAlive x0 x1 s).1 := by
  unfold State.nextAlive
  with_reducible repeat' first
    | exact h | simp only [Steady.put] | refine State.touchCtx_steady ?_ | refine State.evictFor_steady ?_ | split

theorem State.stamp_steady {x0} (h : Steady b t s) : Steady b t (State.stamp x0 s).1 := by
  unfold State.stamp
  with_reducible repeat' first
    | exact h | simp only [Steady.put] | refine State.nextAlive_steady ?_ | refine State.spendFree_steady ?_ | split

theorem State.startEntry_steady {x0} (h : Steady b t s) : Steady b t (State.startEntry x0 s) := State.emit_steady h

theorem State.startMsg_steady {x0} (h : Steady b t s) : Steady b t (State.startMsg x0 s).1 :=
  State.startEntry_steady (State.stamp_steady h)

theorem State.sendUnits_steady {x0 x1} (h : Steady b t s) : Steady b t (State.sendUnits x0 x1 s) := by
  refine h.trans ?_
  unfold State.sendUnits
  with_reducible repeat' first | exact Steady.refl _ | refine State.emit_steady ?_ | refine Steady.forEach (fun x st => ?_) ?_

theorem State.pumpClass_steady {x0 x1 x2} (h : Steady b t s) : Steady b t (State.pumpClass x0 x1 x2 s) := by
  refine h.trans ?_
  clear h
  induction x0 generalizing s
  · unfold State.pumpClass
    exact Steady.refl _
  · rename_i k ih
    have ih' : ∀ {t s : State}, Steady b t s → Steady b t (State.pumpClass k x1 x2 s) := fun h => h.trans (by apply ih)
    clear ih
    unfold State.pumpClass
    with_reducible repeat' first
      | exact Steady.refl _ | simp only [Steady.put] | refine State.spend_steady ?_ | refine State.startMsg_steady ?_
      | refine State.sendUnits_steady ?_ | refine State.endEntry_steady ?_ | refine ih' ?_ | split

theorem State.pump_steady (h : Steady b t s) : Steady b t (State.pump s) := by
  refine h.trans ?_
  unfold State.pump
  with_reducible repeat' first | exact Steady.refl _ | refine State.pumpClass_steady ?_ | refine Steady.forEach (fun x st => ?_) ?_ | split

theorem State.markSent_steady {x0} (h : Steady b t s) : Steady b t (State.markSent x0 s) := by
  unfold State.markSent
  with_reducible repeat' first | exact h | simp only [Steady.put] | split

theorem State.post_steady {x0 x1 x2 x3 x4 x5 x6 x7} (h : Steady b t s) : Steady b t (State.post x0 x1 x2 x3 x4 x5 x6 x7 s) := by
  unfold State.post
  with_reducible repeat' first
    | exact h | simp only [Steady.put] | refine State.bump_steady ?_ | refine State.pump_steady ?_ | refine State.markSent_steady ?_
    | split

theorem State.sendIn_steady {x0 x1} (h : Steady b t s) : Steady b t (State.sendIn x0 x1 s) := State.post_steady (Steady.put.mpr h)

theorem State.enqueue_steady {x0} (h : Steady b t s) : Steady b t (State.enqueue x0 s) := by
  unfold State.enqueue
  with_reducible repeat' first | exact h | simp only [Steady.put] | refine State.sendIn_steady ?_ | split

theorem State.evictOver_steady (h : Steady b t s) : Steady b t (State.evictOver s) := by
  refine h.trans ?_
  unfold State.evictOver
  with_reducible repeat' first | exact Steady.refl _ | refine State.evictOne_steady ?_ | refine Steady.forEach (fun x st => ?_) ?_ | split

theorem State.freeReq_steady {x0 x1} (h : Steady b t s) : Steady b t (State.freeReq x0 x1 s) := by
  unfold State.freeReq
  with_reducible repeat' first | exact h | simp only [Steady.put] | refine State.enqueue_steady ?_ | split

theorem State.freeSets_steady {x0} (h : Steady b t s) : Steady b t (State.freeSets x0 s) := Steady.put.mpr h

theorem State.noteTrailer_steady (h : Steady b t s) : Steady b t (State.noteTrailer s) := Steady.put.mpr h

theorem State.putRecv_steady {x0} (h : Steady b t s) : Steady b t (State.putRecv x0 s) := Steady.put.mpr h

theorem State.takeIn_steady {x0 x1} (h : Steady b t s) : Steady b t (State.takeIn x0 x1 s) := by
  unfold State.takeIn
  with_reducible repeat' first
    | exact h | simp only [Steady.put] | refine State.evictFor_steady ?_ | refine State.touchCtx_steady ?_ | refine State.putRecv_steady ?_
    | refine State.bump_steady ?_ | split

theorem State.receive_steady {x0 x1 x2} (h : Steady b t s) : Steady b t (State.receive x0 x1 x2 s).1 := by
  unfold State.receive
  with_reducible repeat' first
    | exact h | simp only [Steady.put] | refine State.arrive_steady ?_ | refine State.takeIn_steady ?_ | refine State.discard_steady ?_
    | refine State.noteTrailer_steady ?_ | refine State.authFailure_steady ?_ | split

theorem State.reply_steady {x0 x1 x2} (h : Steady b t s) : Steady b t (State.reply x0 x1 x2 s) := State.post_steady h

theorem State.request_steady {x0 x1 x2 x3 x4 x5} (h : Steady b t s) : Steady b t (State.request x0 x1 x2 x3 x4 x5 s) :=
  State.enqueue_steady h

theorem State.requestAlt_steady {x0 x1 x2 x3 x4} (h : Steady b t s) : Steady b t (State.requestAlt x0 x1 x2 x3 x4 s) :=
  State.enqueue_steady h

theorem State.sendMgmt_steady {x0 x1 x2} (h : Steady b t s) : Steady b t (State.sendMgmt x0 x1 x2 s) := State.post_steady h

end Sys2Proof.Machine
end

section
/-! PROOFS. What the operations of Machine/Journal.lean leave steady. -/

namespace Sys2Proof.Machine

variable {b : Bool} {t s : State}

theorem State.setJournal_steady {x0} (h : Steady b t s) : Steady b t (State.setJournal x0 s) := Steady.put.mpr h

theorem State.npIssue_steady {x0} (h : Steady b t s) : Steady b t (State.npIssue x0 s) := State.emit_steady h

theorem State.npPump_steady {x0} (h : Steady b t s) : Steady b t (State.npPump x0 s) := by
  refine h.trans ?_
  clear h
  induction x0 generalizing s
  · unfold State.npPump
    exact Steady.refl _
  · rename_i k ih
    have ih' : ∀ {t s : State}, Steady b t s → Steady b t (State.npPump k s) := fun h => h.trans (by apply ih)
    clear ih
    unfold State.npPump
    with_reducible repeat' first
      | exact Steady.refl _ | simp only [Steady.put] | refine State.npIssue_steady ?_ | refine State.setJournal_steady ?_ | refine ih' ?_
      | split

theorem State.npPush_steady {x0} (h : Steady b t s) : Steady b t (State.npPush x0 s) := State.npPump_steady (State.setJournal_steady h)

theorem State.appendHere_steady {x0 x1 x2} (h : Steady b t s) : Steady b t (State.appendHere x0 x1 x2 s) :=
  State.npPush_steady (State.setJournal_steady h)

theorem State.append_steady {x0 x1 x2} (h : Steady b t s) : Steady b t (State.append x0 x1 x2 s) := by
  unfold State.append
  with_reducible repeat' first | exact h | simp only [Steady.put] | refine State.appendHere_steady ?_ | split

theorem State.appendEvents_steady {x0} (h : Steady b t s) : Steady b t (State.appendEvents x0 s) := by
  refine h.trans ?_
  unfold State.appendEvents
  with_reducible repeat' first | exact Steady.refl _ | refine State.append_steady ?_ | refine Steady.forEach (fun x st => ?_) ?_

theorem State.snapshot_steady (h : Steady b t s) : Steady b t (State.snapshot s) := by
  unfold State.snapshot
  with_reducible repeat' first
    | exact h | refine State.setJournal_steady ?_ | refine State.append_steady ?_ | refine State.appendEvents_steady ?_

theorem State.compactIfDue_steady (h : Steady b t s) : Steady b t (State.compactIfDue s) := by
  unfold State.compactIfDue
  with_reducible repeat' first | exact h | simp only [Steady.put] | refine State.snapshot_steady ?_ | split

theorem State.countPeriod_steady {x0} (h : Steady b t s) : Steady b t (State.countPeriod x0 s) := Steady.put.mpr h

theorem State.countBad_steady {x0} (h : Steady b t s) : Steady b t (State.countBad x0 s) := by
  unfold State.countBad
  with_reducible repeat' first | exact h | refine State.countPeriod_steady ?_ | split

theorem State.countCorrected_steady {x0} (h : Steady b t s) : Steady b t (State.countCorrected x0 s) := by
  unfold State.countCorrected
  with_reducible repeat' first | exact h | refine State.countPeriod_steady ?_ | split

theorem State.journalEvents_steady (h : Steady b t s) : Steady b t (State.journalEvents s) := by
  unfold State.journalEvents
  with_reducible repeat' first | exact h | refine State.appendEvents_steady ?_ | split

theorem State.journalIfFull_steady (h : Steady b t s) : Steady b t (State.journalIfFull s) := by
  unfold State.journalIfFull
  with_reducible repeat' first | exact h | refine State.journalEvents_steady ?_ | split

theorem State.journalState_steady {x0 x1} (h : Steady b t s) : Steady b t (State.journalState x0 x1 s) := State.append_steady h

theorem State.loseWrites_steady (h : Steady b t s) : Steady b t (State.loseWrites s) := by
  refine h.trans ?_
  unfold State.loseWrites
  with_reducible repeat' first
    | exact Steady.refl _ | simp only [Steady.put] | refine State.emit_steady ?_ | refine State.note_steady ?_
    | refine Steady.forEach (fun x st => ?_) ?_ | split

theorem State.npAsk_steady {x0} (h : Steady b t s) : Steady b t (State.npAsk x0 s) := by
  refine h.trans ?_
  unfold State.npAsk
  with_reducible repeat' first
    | exact Steady.refl _ | simp only [Steady.put] | refine State.emit_steady ?_ | refine State.countNote_steady ?_
    | refine Steady.forEach (fun x st => ?_) ?_ | split

theorem State.stageSelf_steady {x0 x1 x2} (h : Steady b t s) : Steady b t (State.stageSelf x0 x1 x2 s) := by
  unfold State.stageSelf
  with_reducible repeat' first | exact h | simp only [Steady.put] | refine State.bump_steady ?_ | split

theorem State.retireLane_steady {x0 x1} (h : Steady b t s) : Steady b t (State.retireLane x0 x1 s) := by
  unfold State.retireLane
  with_reducible repeat' first
    | exact h | simp only [Steady.put] | refine State.journalState_steady ?_ | refine State.stageSelf_steady ?_ | split

theorem State.retireSpindle_steady {x0} (h : Steady b t s) : Steady b t (State.retireSpindle x0 s) := by
  unfold State.retireSpindle
  with_reducible repeat' first
    | exact h | simp only [Steady.put] | refine State.journalState_steady ?_ | refine State.stageSelf_steady ?_ | split

theorem State.takeLines_steady {x0 x1} (h : Steady b t s) : Steady b t (State.takeLines x0 x1 s) := by
  refine h.trans ?_
  unfold State.takeLines
  with_reducible repeat' first
    | exact Steady.refl _ | simp only [Steady.put] | refine State.askLine_steady ?_ | refine State.countBad_steady ?_
    | refine State.bump_steady ?_ | refine Steady.forEach (fun x st => ?_) ?_ | split

theorem State.takeMem_steady {x0 x1} (h : Steady b t s) : Steady b t (State.takeMem x0 x1 s) := by
  refine h.trans ?_
  unfold State.takeMem
  with_reducible repeat' first
    | exact Steady.refl _ | simp only [Steady.put] | refine State.askBlocks_steady ?_ | refine State.countCorrected_steady ?_
    | refine State.bump_steady ?_ | refine State.countBad_steady ?_ | refine Steady.forEach (fun x st => ?_) ?_ | split

theorem State.unitFault_steady {x0} (h : Steady b t s) : Steady b t (State.unitFault x0 s) := by
  unfold State.unitFault
  with_reducible repeat' first
    | exact h | simp only [Steady.put] | refine State.bump_steady ?_ | refine State.countPeriod_steady ?_
    | refine State.retireLane_steady ?_ | refine State.retireSpindle_steady ?_ | split

end Sys2Proof.Machine
end

section
/-! PROOFS. What the operations of Machine/Operands.lean leave steady. -/

namespace Sys2Proof.Machine

variable {b : Bool} {t s : State}

theorem State.clearBad_steady {x0} (h : Steady b t s) : Steady b t (State.clearBad x0 s) := by
  unfold State.clearBad
  with_reducible repeat' first | exact h | simp only [Steady.put] | split

theorem State.setLostBytes_steady {x0 x1 x2} (h : Steady b t s) : Steady b t (State.setLostBytes x0 x1 x2 s) := Steady.put.mpr h

end Sys2Proof.Machine
end

section
/-! PROOFS. What the operations of Machine/Operands.lean leave steady. -/

namespace Sys2Proof.Machine

variable {b : Bool} {t s : State}

theorem State.putHeader_steady {x0 x1 x2} (h : Steady b t s) : Steady b t (State.putHeader x0 x1 x2 s) :=
  State.setLostBytes_steady (Steady.put.mpr h)

theorem State.spanPut_steady {x0 x1 x2} (h : Steady b t s) : Steady b t (State.spanPut x0 x1 x2 s) := by
  refine h.trans ?_
  clear h
  induction x1 generalizing s x2
  · unfold State.spanPut
    exact Steady.refl _
  · rename_i a k ih
    have ih' : ∀ {t s : State} {x2}, Steady b t s → Steady b t (State.spanPut x0 k x2 s) := fun h => h.trans (by apply ih)
    clear ih
    unfold State.spanPut
    with_reducible repeat' first | exact Steady.refl _ | refine State.hearthWrite_steady ?_ | refine ih' ?_

theorem State.spanWrite_steady {x0 x1 x2} (h : Steady b t s) : Steady b t (State.spanWrite x0 x1 x2 s) := State.spanPut_steady h

end Sys2Proof.Machine
end

section
/-! PROOFS. What the operations of Machine/Landing.lean leave steady. -/

namespace Sys2Proof.Machine

variable {b : Bool} {t s : State}

theorem State.announce_steady {x0} (h : Steady b t s) : Steady b t (State.announce x0 s) :=
  State.changed_steady (State.bump_steady (Steady.put.mpr h))

theorem State.askSpan_steady {x0 x1 x2} (h : Steady b t s) : Steady b t (State.askSpan x0 x1 x2 s) := State.takeMem_steady h

theorem State.askSlots_steady {x0} (h : Steady b t s) : Steady b t (State.askSlots x0 s) := by
  refine h.trans ?_
  unfold State.askSlots
  with_reducible repeat' first | exact Steady.refl _ | refine State.askSpan_steady ?_ | refine Steady.forEach (fun x st => ?_) ?_

theorem State.putResult_steady {x0} (h : Steady b t s) : Steady b t (State.putResult x0 s) := Steady.put.mpr h

theorem State.closeLocal_steady {x0} (h : Steady b t s) : Steady b t (State.closeLocal x0 s) := by
  unfold State.closeLocal
  with_reducible repeat' first
    | exact h | simp only [Steady.put] | refine State.askSlots_steady ?_ | refine State.putResult_steady ?_
    | refine State.spanWrite_steady ?_ | refine State.putHeader_steady ?_ | split

theorem State.closeRemote_steady {x0 x1 x2} (h : Steady b t s) : Steady b t (State.closeRemote x0 x1 x2 s) := by
  unfold State.closeRemote
  with_reducible repeat' first
    | exact h | simp only [Steady.put] | refine State.askSlots_steady ?_ | refine State.spanWrite_steady ?_
    | refine State.putHeader_steady ?_ | refine State.putResult_steady ?_ | split

theorem State.confirmRemote_steady {x0} (h : Steady b t s) : Steady b t (State.confirmRemote x0 s) := by
  unfold State.confirmRemote
  with_reducible repeat' first | exact h | simp only [Steady.put] | refine State.putHeader_steady ?_ | split

theorem State.countHeaders_steady (h : Steady b t s) : Steady b t (State.countHeaders s) := State.bump_steady h

theorem State.earlyTurn_steady {x0} (h : Steady b t s) : Steady b t (State.earlyTurn x0 s) := by
  unfold State.earlyTurn
  with_reducible repeat' first
    | exact h | simp only [Steady.put] | refine State.closeRemote_steady ?_ | refine State.changed_steady ?_ | split

theorem State.resolveExclusion_steady (h : Steady b t s) : Steady b t (State.resolveExclusion s) := by
  unfold State.resolveExclusion
  with_reducible repeat' first | exact h | simp only [Steady.put] | split

theorem State.saturate_steady {x0} (h : Steady b t s) : Steady b t (State.saturate x0 s) := by
  unfold State.saturate
  with_reducible repeat' first | exact h | simp only [Steady.put] | refine State.bump_steady ?_ | split

theorem State.resolveSite_steady {x0} (h : Steady b t s) : Steady b t (State.resolveSite x0 s) := by
  unfold State.resolveSite
  with_reducible repeat' first | exact h | simp only [Steady.put] | refine State.saturate_steady ?_ | split

theorem State.sendReAnswer_steady {x0 x1} (h : Steady b t s) : Steady b t (State.sendReAnswer x0 x1 s) := by
  unfold State.sendReAnswer
  with_reducible repeat' first
    | exact h | simp only [Steady.put] | refine State.askSpan_steady ?_ | refine State.reply_steady ?_ | refine State.bump_steady ?_
    | split

theorem State.serveReqs_steady (h : Steady b t s) : Steady b t (State.serveReqs s) := by
  refine h.trans ?_
  unfold State.serveReqs
  with_reducible repeat' first
    | exact Steady.refl _ | simp only [Steady.put] | refine State.sendReAnswer_steady ?_ | refine Steady.forEach (fun x st => ?_) ?_

theorem State.settle_steady {x0} (h : Steady b t s) : Steady b t (State.settle x0 s) := by
  refine h.trans ?_
  unfold State.settle
  with_reducible repeat' first
    | exact Steady.refl _ | simp only [Steady.put] | refine State.bump_steady ?_ | refine State.note_steady ?_
    | refine State.countNote_steady ?_ | refine Steady.forEach (fun x st => ?_) ?_ | split

theorem State.reviseSite_steady {x0} (h : Steady b t s) : Steady b t (State.reviseSite x0 s) := by
  unfold State.reviseSite
  with_reducible repeat' first
    | exact h | simp only [Steady.put] | refine State.settle_steady ?_ | refine State.announce_steady ?_
    | refine State.confirmRemote_steady ?_ | refine State.closeRemote_steady ?_ | split

theorem State.landingPass_steady (h : Steady b t s) : Steady b t (State.landingPass s) := by
  refine h.trans ?_
  unfold State.landingPass
  with_reducible repeat' first
    | exact Steady.refl _ | refine State.resolveExclusion_steady ?_ | refine State.resolveSite_steady ?_ | refine State.serveReqs_steady ?_
    | refine State.reviseSite_steady ?_ | refine Steady.forEach (fun x st => ?_) ?_

theorem State.holdNotice_steady {x0} (h : Steady b t s) : Steady b t (State.holdNotice x0 s) := State.landingPass_steady (Steady.put.mpr h)

theorem State.landingThreshold_steady (h : Steady b t s) : Steady b t (State.landingThreshold s) := by
  refine h.trans ?_
  unfold State.landingThreshold
  with_reducible repeat' first
    | exact Steady.refl _ | simp only [Steady.put] | refine State.sendReAnswer_steady ?_ | refine State.dropReqs_steady ?_
    | refine Steady.forEach (fun x st => ?_) ?_

theorem State.onMirrorAck_steady {x0} (h : Steady b t s) : Steady b t (State.onMirrorAck x0 s) := by
  unfold State.onMirrorAck
  with_reducible repeat' first | exact h | refine State.freeReq_steady ?_ | split

theorem State.onMirrorPiece_steady {x0} (h : Steady b t s) : Steady b t (State.onMirrorPiece x0 s) := by
  unfold State.onMirrorPiece
  with_reducible repeat' first
    | exact h | simp only [Steady.put] | refine State.spanWrite_steady ?_ | refine State.reply_steady ?_ | refine State.bump_steady ?_
    | split

theorem State.sendPiece_steady {x0 x1 x2} (h : Steady b t s) : Steady b t (State.sendPiece x0 x1 x2 s) := by
  unfold State.sendPiece
  with_reducible repeat' first
    | exact h | simp only [Steady.put] | refine State.askSpan_steady ?_ | refine State.requestAlt_steady ?_ | refine State.bump_steady ?_
    | split

theorem State.sendMirror_steady (h : Steady b t s) : Steady b t (State.sendMirror s) := by
  refine h.trans ?_
  unfold State.sendMirror
  with_reducible repeat' first | exact Steady.refl _ | refine State.sendPiece_steady ?_ | refine Steady.forEach (fun x st => ?_) ?_ | split

theorem State.rollcallAt_steady {x0} (h : Steady false t s) : Steady false t (State.rollcallAt x0 s) := by
  refine h.trans ?_
  unfold State.rollcallAt
  with_reducible repeat' first
    | exact Steady.refl _ | exact fun h => absurd h Bool.false_ne_true | refine State.resolveExclusion_steady ?_
    | refine State.countNote_steady ?_ | refine State.landingPass_steady ?_ | refine State.sendMirror_steady ?_ | split
    | refine Steady.putFrame ?_ ?_

theorem State.siteTurn_steady {x0} (h : Steady b t s) : Steady b t (State.siteTurn x0 s) := by
  unfold State.siteTurn
  with_reducible repeat' first
    | exact h | refine State.reviseSite_steady ?_ | refine State.settle_steady ?_ | refine State.closeLocal_steady ?_
    | refine State.resolveSite_steady ?_ | split

end Sys2Proof.Machine
end

section
/-! PROOFS. What the operations of Machine/Carder.lean leave steady. -/

namespace Sys2Proof.Machine

variable {b : Bool} {t s : State}

theorem State.countOut_steady {x0} (h : Steady b t s) : Steady b t (State.countOut x0 s) := by
  unfold State.countOut
  with_reducible repeat' first | exact h | simp only [Steady.put] | refine State.bump_steady ?_ | refine State.note_steady ?_ | split

theorem State.countWords_steady {x0 x1} (h : Steady b t s) : Steady b t (State.countWords x0 x1 s) := State.bump_steady h

theorem State.writeView_steady {x0} (h : Steady b t s) : Steady b t (State.writeView x0 s) := by
  unfold State.writeView
  with_reducible repeat' first | exact h | refine State.spanWrite_steady ?_ | refine State.clearBad_steady ?_ | split

end Sys2Proof.Machine
end

section
/-! PROOFS. What the operations of Machine/Coherence.lean leave steady. -/

namespace Sys2Proof.Machine

variable {b : Bool} {t s : State}

theorem State.setDies_steady {x0 x1} (h : Steady b t s) : Steady b t (State.setDies x0 x1 s) := Steady.put.mpr h

theorem State.closeInv_steady {u : State} {x0 x1} (e : State.closeInv x0 x1 s = some u) (h : Steady b t s) : Steady b t u := by
  refine h.trans ?_
  clear h
  unfold State.closeInv at e
  split at e
  · exact absurd e (by simp)
  · cases e
    refine State.setDies_steady ?_
    simp only [Steady.put]
    exact Steady.refl _

theorem State.sendInv_steady {x0 x1} (h : Steady b t s) : Steady b t (State.sendInv x0 x1 s) := by
  unfold State.sendInv
  with_reducible repeat' first | exact h | simp only [Steady.put] | refine State.emit_steady ?_ | split

theorem State.invalidate_steady {x0 x1} (h : Steady b t s) : Steady b t (State.invalidate x0 x1 s) := by
  refine h.trans ?_
  unfold State.invalidate
  with_reducible repeat' first | exact Steady.refl _ | refine State.sendInv_steady ?_ | refine Steady.forEach (fun x st => ?_) ?_ | split

theorem State.grantCopy_steady {x0 x1} (h : Steady b t s) : Steady b t (State.grantCopy x0 x1 s).1 := by
  unfold State.grantCopy
  with_reducible repeat' first
    | exact h | simp only [Steady.put] | refine State.setDies_steady ?_ | refine State.invalidate_steady ?_ | split

end Sys2Proof.Machine
end

section
/-! PROOFS. What the operations of Machine/Coding.lean leave steady. -/

namespace Sys2Proof.Machine

variable {b : Bool} {t s : State}

theorem State.countAck_steady {x0 x1} (h : Steady b t s) : Steady b t (State.countAck x0 x1 s) := by
  unfold State.countAck
  with_reducible repeat' first | exact h | simp only [Steady.put] | split

theorem State.updGroup_steady {x0 x1} (h : Steady b t s) : Steady b t (State.updGroup x0 x1 s) := Steady.put.mpr h

theorem State.dropGroup_steady {x0} (h : Steady b t s) : Steady b t (State.dropGroup x0 s) := Steady.put.mpr h

theorem State.encodeDone_steady {x0} (h : Steady b t s) : Steady b t (State.encodeDone x0 s) := by
  unfold State.encodeDone
  with_reducible repeat' first
    | exact h | simp only [Steady.put] | refine State.dropGroup_steady ?_ | refine State.updHank_steady ?_ | split

theorem State.clearKey_steady {x0} (h : Steady b t s) : Steady b t (State.clearKey x0 s) := by
  unfold State.clearKey
  with_reducible repeat' first | exact h | simp only [Steady.put] | refine State.clearBad_steady ?_ | split

theorem State.viewDone_steady {x0 x1} (h : Steady b t s) : Steady b t (State.viewDone x0 x1 s) := by
  unfold State.viewDone
  with_reducible repeat' first | exact h | refine State.bump_steady ?_ | refine State.updHank_steady ?_ | split

theorem State.traceCommit_steady (h : Steady b t s) : Steady b t (State.traceCommit s) := Steady.put.mpr h

theorem State.healByCommit_steady {x0 x1 x2} (h : Steady b t s) : Steady b t (State.healByCommit x0 x1 x2 s) := by
  unfold State.healByCommit
  with_reducible repeat' first | exact h | simp only [Steady.put] | refine State.bump_steady ?_ | split

theorem State.sendFill_steady {x0 x1 x2 x3 x4 x5 x6} (h : Steady b t s) : Steady b t (State.sendFill x0 x1 x2 x3 x4 x5 x6 s) :=
  State.enqueue_steady (State.bump_steady h)

theorem State.commitOwn_steady {x0 x1} (h : Steady b t s) : Steady b t (State.commitOwn x0 x1 s) := by
  refine h.trans ?_
  unfold State.commitOwn
  with_reducible repeat' first
    | exact Steady.refl _ | simp only [Steady.put] | refine State.writeGroup_steady ?_ | refine State.clearKey_steady ?_
    | refine State.writeView_steady ?_ | refine State.updHank_steady ?_ | refine State.dropGroup_steady ?_ | refine State.bump_steady ?_
    | refine State.viewDone_steady ?_ | refine State.traceCommit_steady ?_ | refine State.healByCommit_steady ?_
    | refine State.sendFill_steady ?_ | refine Steady.forEach (fun x st => ?_) ?_ | split

theorem State.addPart_steady {x0 x1 x2 x3 x4 x5} (h : Steady b t s) : Steady b t (State.addPart x0 x1 x2 x3 x4 x5 s) := Steady.put.mpr h

theorem State.fillInherited_steady {x0 x1 x2 x3 x4} (h : Steady b t s) : Steady b t (State.fillInherited x0 x1 x2 x3 x4 s) := by
  unfold State.fillInherited
  with_reducible repeat' first | exact h | refine State.writeGroup_steady ?_ | refine State.updHank_steady ?_ | split

theorem State.storeAdopted_steady {x0 x1 x2 x3 x4 x5} (h : Steady b t s) : Steady b t (State.storeAdopted x0 x1 x2 x3 x4 x5 s) := by
  refine h.trans ?_
  unfold State.storeAdopted
  with_reducible repeat' first
    | exact Steady.refl _ | simp only [Steady.put] | refine State.writeReserve_steady ?_ | refine State.clearKey_steady ?_
    | refine State.addPart_steady ?_ | refine State.bump_steady ?_ | refine State.traceCommit_steady ?_
    | refine State.fillInherited_steady ?_ | refine State.sendFill_steady ?_ | refine Steady.forEach (fun x st => ?_) ?_ | split

theorem State.tryCommit_steady {x0} (h : Steady b t s) : Steady b t (State.tryCommit x0 s) := by
  unfold State.tryCommit
  with_reducible repeat' first
    | exact h | simp only [Steady.put] | refine State.commitOwn_steady ?_ | refine State.invalidate_steady ?_
    | refine State.healByCommit_steady ?_ | refine State.storeAdopted_steady ?_ | refine State.dropGroup_steady ?_ | split

theorem State.ackSet_steady {x0 x1} (h : Steady b t s) : Steady b t (State.ackSet x0 x1 s) := by
  unfold State.ackSet
  with_reducible repeat' first
    | exact h | simp only [Steady.put] | refine State.countAck_steady ?_ | refine State.updGroup_steady ?_
    | refine State.encodeDone_steady ?_ | refine State.tryCommit_steady ?_ | split

theorem State.ackTimeout_steady {x0 x1 x2 x3} (h : Steady b t s) : Steady b t (State.ackTimeout x0 x1 x2 x3 s) := by
  unfold State.ackTimeout
  with_reducible repeat' first
    | exact h | simp only [Steady.put] | refine State.countNote_steady ?_ | refine State.updGroup_steady ?_ | split

theorem State.addRepair_steady {x0 x1 x2 x3} (h : Steady b t s) : Steady b t (State.addRepair x0 x1 x2 x3 s) := by
  unfold State.addRepair
  with_reducible repeat' first | exact h | simp only [Steady.put] | split

theorem State.askStripes_steady {x0 x1 x2 x3} (h : Steady b t s) : Steady b t (State.askStripes x0 x1 x2 x3 s) :=
  State.takeLines_steady (State.takeMem_steady h)

theorem State.askGroup_steady {x0 x1 x2} (h : Steady b t s) : Steady b t (State.askGroup x0 x1 x2 s) := State.askStripes_steady h

theorem State.askKey_steady {x0} (h : Steady b t s) : Steady b t (State.askKey x0 s) := by
  unfold State.askKey
  with_reducible repeat' first | exact h | refine State.takeLines_steady ?_ | refine State.takeMem_steady ?_ | split

theorem State.askMaster_steady {x0 x1 x2} (h : Steady b t s) : Steady b t (State.askMaster x0 x1 x2 s) := State.askStripes_steady h

theorem State.holdMoving_steady {x0 x1 x2} (h : Steady b t s) : Steady b t (State.holdMoving x0 x1 x2 s) := by
  unfold State.holdMoving
  with_reducible repeat' first | exact h | simp only [Steady.put] | refine State.bump_steady ?_ | split

theorem State.waitEpoch_steady (h : Steady b t s) : Steady b t (State.waitEpoch s) := by
  unfold State.waitEpoch
  with_reducible repeat' first | exact h | exact fun _ => rfl | refine State.bump_steady ?_ | split | refine Steady.putFrame ?_ ?_

theorem State.countReread_steady {x0} (h : Steady b t s) : Steady b t (State.countReread x0 s) := State.bump_steady (Steady.put.mpr h)

theorem State.markMask_steady {x0 x1 x2} (h : Steady b t s) : Steady b t (State.markMask x0 x1 x2 s) := by
  unfold State.markMask
  with_reducible repeat' first | exact h | refine State.updHank_steady ?_ | refine State.countNote_steady ?_ | split

theorem State.readMask_steady {x0 x1 x2} (h : Steady b t s) : Steady b t (State.readMask x0 x1 x2 s) := by
  unfold State.readMask
  with_reducible repeat' first
    | exact h | simp only [Steady.put] | refine State.takeMem_steady ?_ | refine State.markMask_steady ?_ | refine State.bump_steady ?_
    | split

theorem State.noteReread_steady {x0 x1 x2} (h : Steady b t s) : Steady b t (State.noteReread x0 x1 x2 s) := Steady.put.mpr h

theorem State.shadow_steady {x0 x1 x2 x3} (h : Steady b t s) : Steady b t (State.shadow x0 x1 x2 x3 s).1 := by
  refine h.trans ?_
  unfold State.shadow
  with_reducible repeat' first
    | exact Steady.refl _ | simp only [Steady.put] | refine State.unitFault_steady ?_ | refine State.note_steady ?_
    | refine Steady.forEach (fun x st => ?_) ?_ | split

theorem State.sendSet_steady {x0 x1 x2 x3 x4} (h : Steady b t s) : Steady b t (State.sendSet x0 x1 x2 x3 x4 s) :=
  State.enqueue_steady (State.bump_steady (Steady.put.mpr h))

theorem State.launch_steady {x0 x1} (h : Steady b t s) : Steady b t (State.launch x0 x1 s) := by
  refine h.trans ?_
  unfold State.launch
  with_reducible repeat' first
    | exact Steady.refl _ | simp only [Steady.put] | refine State.bump_steady ?_ | refine State.sendSet_steady ?_
    | refine Steady.forEach (fun x st => ?_) ?_

theorem State.computeGroup_steady {x0 x1 x2 x3 x4 x5} (h : Steady b t s) : Steady b t (State.computeGroup x0 x1 x2 x3 x4 x5 s) := by
  unfold State.computeGroup
  with_reducible repeat' first
    | exact h | simp only [Steady.put] | refine State.shadow_steady ?_ | refine State.countWords_steady ?_
    | refine State.countOut_steady ?_ | refine State.launch_steady ?_ | split

theorem State.holdMask_steady {x0 x1 x2} (h : Steady b t s) : Steady b t (State.holdMask x0 x1 x2 s) := by
  unfold State.holdMask
  with_reducible repeat' first | exact h | simp only [Steady.put] | refine State.bump_steady ?_ | split

theorem State.carderStart_steady {x0 x1 x2 x3} (h : Steady b t s) : Steady b t (State.carderStart x0 x1 x2 x3 s) := by
  refine h.trans ?_
  unfold State.carderStart
  with_reducible repeat' first
    | exact Steady.refl _ | simp only [Steady.put] | refine State.holdMoving_steady ?_ | refine State.waitEpoch_steady ?_
    | refine State.countReread_steady ?_ | refine State.readMask_steady ?_ | refine State.takeMem_steady ?_
    | refine State.askGroup_steady ?_ | refine State.addRepair_steady ?_ | refine State.noteReread_steady ?_
    | refine State.computeGroup_steady ?_ | refine State.holdMask_steady ?_ | refine Steady.forEach (fun x st => ?_) ?_ | split

theorem State.encodeGroup_steady {x0 x1 x2} (h : Steady b t s) : Steady b t (State.encodeGroup x0 x1 x2 s) := State.launch_steady h

theorem State.encodeStart_steady {x0 x1} (h : Steady b t s) : Steady b t (State.encodeStart x0 x1 s) := by
  refine h.trans ?_
  unfold State.encodeStart
  with_reducible repeat' first
    | exact Steady.refl _ | simp only [Steady.put] | refine State.askGroup_steady ?_ | refine State.encodeGroup_steady ?_
    | refine State.addRepair_steady ?_ | refine State.updHank_steady ?_ | refine Steady.forEach (fun x st => ?_) ?_ | split

theorem State.onDeltaAck_steady {x0} (h : Steady b t s) : Steady b t (State.onDeltaAck x0 s) := by
  unfold State.onDeltaAck
  with_reducible repeat' first
    | exact h | simp only [Steady.put] | refine State.note_steady ?_ | refine State.freeReq_steady ?_ | refine State.ackSet_steady ?_
    | split

theorem State.resendSet_steady {x0 x1 x2} (h : Steady b t s) : Steady b t (State.resendSet x0 x1 x2 s) := by
  unfold State.resendSet
  with_reducible repeat' first
    | exact h | simp only [Steady.put] | refine State.freeSets_steady ?_ | refine State.updGroup_steady ?_ | refine State.sendSet_steady ?_
    | refine State.bump_steady ?_

theorem State.resendAll_steady (h : Steady b t s) : Steady b t (State.resendAll s) := by
  refine h.trans ?_
  unfold State.resendAll
  with_reducible repeat' first | exact Steady.refl _ | refine State.resendSet_steady ?_ | refine Steady.forEach (fun x st => ?_) ?_ | split

theorem State.retryCommits_steady (h : Steady b t s) : Steady b t (State.retryCommits s) := by
  refine h.trans ?_
  unfold State.retryCommits
  with_reducible repeat' first | exact Steady.refl _ | refine State.tryCommit_steady ?_ | refine Steady.forEach (fun x st => ?_) ?_

end Sys2Proof.Machine
end

section
/-! PROOFS. What the operations of Machine/Holder.lean leave steady. -/

namespace Sys2Proof.Machine

variable {b : Bool} {t s : State}

theorem State.ackTo_steady {x0 x1} (h : Steady b t s) : Steady b t (State.ackTo x0 x1 s) := State.reply_steady h

theorem State.readReply_steady {x0 x1 x2 x3 x4} (h : Steady b t s) : Steady b t (State.readReply x0 x1 x2 x3 x4 s) := State.reply_steady h

theorem State.answerAdopted_steady {x0 x1 x2} (h : Steady b t s) : Steady b t (State.answerAdopted x0 x1 x2 s) := by
  unfold State.answerAdopted
  with_reducible repeat' first
    | exact h | simp only [Steady.put] | refine State.readReply_steady ?_ | refine State.askKey_steady ?_
    | refine State.addRepair_steady ?_ | split

theorem State.askPlyStripe_steady {x0 x1 x2 x3 x4} (h : Steady b t s) : Steady b t (State.askPlyStripe x0 x1 x2 x3 x4 s) := by
  unfold State.askPlyStripe
  with_reducible repeat' first | exact h | refine State.askKey_steady ?_ | split

theorem State.setTag_steady {x0 x1 x2 x3 x4 x5} (h : Steady b t s) : Steady b t (State.setTag x0 x1 x2 x3 x4 x5 s) :=
  State.mergeAt_steady (Steady.put.mpr h)

theorem State.plyGood_steady {x0 x1 x2 x3 x4} (h : Steady b t s) : Steady b t (State.plyGood x0 x1 x2 x3 x4 s) := by
  unfold State.plyGood
  with_reducible repeat' first | exact h | refine State.clearKey_steady ?_ | split

theorem State.finishRecomp_steady {x0 x1} (h : Steady b t s) : Steady b t (State.finishRecomp x0 x1 s) := by
  refine h.trans ?_
  unfold State.finishRecomp
  with_reducible repeat' first
    | exact Steady.refl _ | simp only [Steady.put] | refine State.plyGood_steady ?_ | refine State.writePly_steady ?_
    | refine State.setTag_steady ?_ | refine State.bump_steady ?_ | refine Steady.forEach (fun x st => ?_) ?_

theorem State.askStripe_steady {x0 x1 x2 x3 x4 x5 x6} (h : Steady b t s) : Steady b t (State.askStripe x0 x1 x2 x3 x4 x5 x6 s) :=
  State.request_steady h

theorem State.askRecomp_steady {x0 x1} (h : Steady b t s) : Steady b t (State.askRecomp x0 x1 s) := by
  refine h.trans ?_
  unfold State.askRecomp
  with_reducible repeat' first
    | exact Steady.refl _ | simp only [Steady.put] | refine State.askStripe_steady ?_ | refine Steady.forEach (fun x st => ?_) ?_ | split

theorem State.startRecomp_steady {x0 x1 x2 x3 x4} (h : Steady b t s) : Steady b t (State.startRecomp x0 x1 x2 x3 x4 s) := by
  refine h.trans ?_
  unfold State.startRecomp
  with_reducible repeat' first
    | exact Steady.refl _ | simp only [Steady.put] | refine State.setTag_steady ?_ | refine State.finishRecomp_steady ?_
    | refine State.askRecomp_steady ?_ | refine Steady.forEach (fun x st => ?_) ?_ | split

theorem State.answerNew_steady {x0 x1 x2 x3 x4} (h : Steady b t s) : Steady b t (State.answerNew x0 x1 x2 x3 x4 s) := by
  unfold State.answerNew
  with_reducible repeat' first
    | exact h | refine State.readReply_steady ?_ | refine State.askPlyStripe_steady ?_ | refine State.startRecomp_steady ?_ | split

theorem State.answerOwn_steady {x0 x1} (h : Steady b t s) : Steady b t (State.answerOwn x0 x1 s) := by
  unfold State.answerOwn
  with_reducible repeat' first
    | exact h | simp only [Steady.put] | refine State.readReply_steady ?_ | refine State.askKey_steady ?_
    | refine State.addRepair_steady ?_ | split

theorem State.askOldPly_steady {x0 x1 x2 x3 x4 x5} (h : Steady b t s) : Steady b t (State.askOldPly x0 x1 x2 x3 x4 x5 s) := by
  unfold State.askOldPly
  with_reducible repeat' first | exact h | simp only [Steady.put] | refine State.askKey_steady ?_ | split

theorem State.answerPly_steady {x0} (h : Steady b t s) : Steady b t (State.answerPly x0 s) := by
  unfold State.answerPly
  with_reducible repeat' first
    | exact h | simp only [Steady.put] | refine State.bump_steady ?_ | refine State.readReply_steady ?_ | refine State.askOldPly_steady ?_
    | refine State.answerNew_steady ?_ | split

theorem State.answerStripeOf_steady {x0 x1 x2} (h : Steady b t s) : Steady b t (State.answerStripeOf x0 x1 x2 s) := by
  unfold State.answerStripeOf
  with_reducible repeat' first
    | exact h | refine State.readReply_steady ?_ | refine State.answerOwn_steady ?_ | refine State.answerAdopted_steady ?_ | split

theorem State.answerStripe_steady {x0} (h : Steady b t s) : Steady b t (State.answerStripe x0 s) := by
  unfold State.answerStripe
  with_reducible repeat' first
    | exact h | simp only [Steady.put] | refine State.bump_steady ?_ | refine State.readReply_steady ?_
    | refine State.answerStripeOf_steady ?_ | refine State.spendFree_steady ?_ | split

theorem State.applySet_steady {x0 x1 x2 x3 x4 x5 x6 x7 x8 x9} (h : Steady b t s) :
    Steady b t (State.applySet x0 x1 x2 x3 x4 x5 x6 x7 x8 x9 s) := by
  refine h.trans ?_
  unfold State.applySet
  with_reducible repeat' first
    | exact Steady.refl _ | refine State.plyGood_steady ?_ | refine State.writePly_steady ?_ | refine State.bump_steady ?_
    | refine State.setTag_steady ?_ | refine Steady.foldl_fst (fun acc x => ?_) ?_ | split

theorem State.askPly_steady {x0 x1 x2 x3 x4 x5} (h : Steady b t s) : Steady b t (State.askPly x0 x1 x2 x3 x4 x5 s) :=
  State.request_steady h

theorem State.updRecomp_steady {x0 x1} (h : Steady b t s) : Steady b t (State.updRecomp x0 x1 s) := Steady.put.mpr h

theorem State.holdSet_steady {x0 x1} (h : Steady b t s) : Steady b t (State.holdSet x0 x1 s) := Steady.put.mpr h

theorem State.holdCounted_steady {x0 x1 x2 x3 x4} (h : Steady b t s) : Steady b t (State.holdCounted x0 x1 x2 x3 x4 s) := by
  unfold State.holdCounted
  with_reducible repeat' first | exact h | refine State.holdSet_steady ?_ | refine State.bump_steady ?_ | split

theorem State.takeSet_steady {x0 x1 x2 x3} (h : Steady b t s) : Steady b t (State.takeSet x0 x1 x2 x3 s).1 := by
  refine h.trans ?_
  unfold State.takeSet
  with_reducible repeat' first
    | exact Steady.refl _ | simp only [Steady.put] | refine State.askPlyStripe_steady ?_ | refine State.holdCounted_steady ?_
    | refine State.startRecomp_steady ?_ | refine State.applySet_steady ?_ | refine State.ackTo_steady ?_ | refine State.bump_steady ?_
    | refine Steady.forEach (fun x st => ?_) ?_ | split

theorem State.handleSet_steady {x0 x1 x2} (h : Steady b t s) : Steady b t (State.handleSet x0 x1 x2 s).1 := by
  unfold State.handleSet
  with_reducible repeat' first
    | exact h | simp only [Steady.put] | refine State.ackTo_steady ?_ | refine State.bump_steady ?_ | refine State.holdCounted_steady ?_
    | refine State.takeSet_steady ?_ | split

theorem State.trySet_steady {x0 x1} (h : Steady b t s) : Steady b t (State.trySet x0 x1 s).1 := by
  unfold State.trySet
  with_reducible repeat' first
    | exact h | refine State.bump_steady ?_ | refine State.holdCounted_steady ?_ | refine State.handleSet_steady ?_
    | refine State.ackTo_steady ?_ | split

end Sys2Proof.Machine
end

section
/-! PROOFS. What the operations of Machine/Holder.lean leave steady. -/

namespace Sys2Proof.Machine

variable {b : Bool} {t s : State}

theorem State.onDeltaSet_steady {x0 x1} (h : Steady b t s) : Steady b t (State.onDeltaSet x0 x1 s) := State.trySet_steady h

theorem State.releaseSets_steady (h : Steady b t s) : Steady b t (State.releaseSets s) := by
  refine h.trans ?_
  unfold State.releaseSets
  with_reducible repeat' first
    | exact Steady.refl _ | simp only [Steady.put] | refine State.onDeltaSet_steady ?_ | refine Steady.forEach (fun x st => ?_) ?_

theorem State.feedRecomp_steady {x0 x1} (h : Steady b t s) : Steady b t (State.feedRecomp x0 x1 s) := by
  unfold State.feedRecomp
  with_reducible repeat' first
    | exact h | simp only [Steady.put] | refine State.updRecomp_steady ?_ | refine State.releaseSets_steady ?_
    | refine State.finishRecomp_steady ?_ | refine State.askRecomp_steady ?_ | split

theorem State.onPlyRead_steady {x0} (h : Steady b t s) : Steady b t (State.onPlyRead x0 s) := by
  unfold State.onPlyRead
  with_reducible repeat' first | exact h | simp only [Steady.put] | refine State.answerPly_steady ?_ | split

theorem State.onStripeRead_steady {x0} (h : Steady b t s) : Steady b t (State.onStripeRead x0 s) := by
  unfold State.onStripeRead
  with_reducible repeat' first | exact h | simp only [Steady.put] | refine State.answerStripe_steady ?_ | split

theorem State.releaseReads_steady (h : Steady b t s) : Steady b t (State.releaseReads s) := by
  refine h.trans ?_
  unfold State.releaseReads
  with_reducible repeat' first
    | exact Steady.refl _ | simp only [Steady.put] | refine State.onPlyRead_steady ?_ | refine State.onStripeRead_steady ?_
    | refine Steady.forEach (fun x st => ?_) ?_ | split

end Sys2Proof.Machine
end

section
/-! PROOFS. What the operations of Machine/Decoder.lean leave steady. -/

namespace Sys2Proof.Machine

variable {b : Bool} {t s : State}

theorem State.dropDecode_steady {x0} (h : Steady b t s) : Steady b t (State.dropDecode x0 s) := Steady.put.mpr h

theorem State.updDecode_steady {x0 x1} (h : Steady b t s) : Steady b t (State.updDecode x0 x1 s) := Steady.put.mpr h

theorem State.sendDecode_steady {x0 x1 x2 x3 x4 x5} (h : Steady b t s) : Steady b t (State.sendDecode x0 x1 x2 x3 x4 x5 s) := by
  refine h.trans ?_
  unfold State.sendDecode
  with_reducible repeat' first
    | exact Steady.refl _ | simp only [Steady.put] | refine State.updDecode_steady ?_ | refine State.enqueue_steady ?_
    | refine State.askStripe_steady ?_ | refine Steady.forEach (fun x st => ?_) ?_ | split

theorem State.advanceDecode_steady {x0 x1} (h : Steady b t s) : Steady b t (State.advanceDecode x0 x1 s).1 := by
  refine h.trans ?_
  clear h
  induction x0 generalizing s x1
  · unfold State.advanceDecode
    exact Steady.refl _
  · rename_i k ih
    have ih' : ∀ {t s : State} {x1}, Steady b t s → Steady b t (State.advanceDecode k x1 s).1 := fun h => h.trans (by apply ih)
    clear ih
    unfold State.advanceDecode
    with_reducible repeat' first
      | exact Steady.refl _ | simp only [Steady.put] | refine State.bump_steady ?_ | refine State.dropDecode_steady ?_
      | refine State.sendDecode_steady ?_ | refine ih' ?_ | split

theorem State.feedDecode_steady {x0 x1} (h : Steady b t s) : Steady b t (State.feedDecode x0 x1 s).1 := by
  unfold State.feedDecode
  with_reducible repeat' first | exact h | refine State.advanceDecode_steady ?_ | refine State.updDecode_steady ?_ | split

theorem State.startDecode_steady {x0} (h : Steady b t s) : Steady b t (State.startDecode x0 s).1 := by
  unfold State.startDecode
  with_reducible repeat' first | exact h | simp only [Steady.put] | refine State.advanceDecode_steady ?_ | split

end Sys2Proof.Machine
end

section
/-! PROOFS. What the operations of Machine/Fence.lean leave steady. -/

namespace Sys2Proof.Machine

variable {b : Bool} {t s : State}

theorem State.setLevel_steady {x0 x1} (h : Steady b t s) : Steady b t (State.setLevel x0 x1 s) := Steady.put.mpr h

theorem State.crossLevel_steady {x0 x1} (h : Steady b t s) : Steady b t (State.crossLevel x0 x1 s) := by
  unfold State.crossLevel
  with_reducible repeat' first | exact h | simp only [Steady.put] | refine State.setLevel_steady ?_ | split

theorem State.endFenceLevel_steady (h : Steady b t s) : Steady b t (State.endFenceLevel s) := by
  unfold State.endFenceLevel
  with_reducible repeat' first | exact h | refine State.setLevel_steady ?_ | split

theorem State.levelEvent_steady {x0 x1} (h : Steady b t s) : Steady b t (State.levelEvent x0 x1 s) := State.raise_steady h

theorem State.sendHello_steady {x0} (h : Steady b t s) : Steady b t (State.sendHello x0 s) := State.sendMgmt_steady (State.bump_steady h)

theorem State.helloAll_steady (h : Steady b t s) : Steady b t (State.helloAll s) := by
  refine h.trans ?_
  unfold State.helloAll
  with_reducible repeat' first | exact Steady.refl _ | refine State.sendHello_steady ?_ | refine Steady.forEach (fun x st => ?_) ?_

theorem State.setMemState_steady {x0} (h : Steady b t s) : Steady b t (State.setMemState x0 s) := by
  unfold State.setMemState
  with_reducible repeat' first | exact h | simp only [Steady.put] | refine State.helloAll_steady ?_ | split

theorem State.fence_steady {x0} (h : Steady b t s) : Steady b t (State.fence x0 s) := by
  unfold State.fence
  with_reducible repeat' first
    | exact h | simp only [Steady.put] | refine State.levelEvent_steady ?_ | refine State.setLevel_steady ?_ | refine State.bump_steady ?_
    | refine State.changed_steady ?_ | refine State.releaseReads_steady ?_ | refine State.releaseSets_steady ?_
    | refine State.setMemState_steady ?_ | split

theorem State.fray_steady (h : Steady b t s) : Steady b t (State.fray s) := by
  unfold State.fray
  with_reducible repeat' first | exact h | simp only [Steady.put] | refine State.fence_steady ?_ | refine State.countNote_steady ?_ | split

end Sys2Proof.Machine
end

section
/-! PROOFS. What the operations of Machine/LostSite.lean leave steady. -/

namespace Sys2Proof.Machine

variable {b : Bool} {t s : State}

theorem State.countLost_steady {x0} (h : Steady b t s) : Steady b t (State.countLost x0 s) := by
  refine h.trans ?_
  unfold State.countLost
  with_reducible repeat' first
    | exact Steady.refl _ | simp only [Steady.put] | refine State.bump_steady ?_ | refine Steady.forEach (fun x st => ?_) ?_ | split

theorem State.sendPulls_steady {x0 x1} (h : Steady b t s) : Steady b t (State.sendPulls x0 x1 s) := by
  refine h.trans ?_
  unfold State.sendPulls
  with_reducible repeat' first
    | exact Steady.refl _ | simp only [Steady.put] | refine State.enqueue_steady ?_ | refine Steady.forEach (fun x st => ?_) ?_ | split

end Sys2Proof.Machine
end

section
/-! PROOFS. What the operations of Machine/Loss.lean leave steady. -/

namespace Sys2Proof.Machine

variable {b : Bool} {t s : State}

theorem State.addLost_steady {x0 x1 x2 x3 x4} (h : Steady b t s) : Steady b t (State.addLost x0 x1 x2 x3 x4 s) := by
  unfold State.addLost
  with_reducible repeat' first | exact h | simp only [Steady.put] | refine State.countLost_steady ?_ | split

theorem State.relayReserve_steady {x0 x1} (h : Steady b t s) : Steady b t (State.relayReserve x0 x1 s) := by
  refine h.trans ?_
  unfold State.relayReserve
  with_reducible repeat' first
    | exact Steady.refl _ | simp only [Steady.put] | refine State.writeReserve_steady ?_ | refine Steady.forEach (fun x st => ?_) ?_

theorem State.adopt_steady {x0} (h : Steady b t s) : Steady b t (State.adopt x0 s) := by
  unfold State.adopt
  with_reducible repeat' first
    | exact h | simp only [Steady.put] | refine State.relayReserve_steady ?_ | refine State.bump_steady ?_ | split

theorem State.dropComp_steady {x0} (h : Steady b t s) : Steady b t (State.dropComp x0 s) := Steady.put.mpr h

theorem State.askReserve_steady {x0 x1 x2 x3} (h : Steady b t s) : Steady b t (State.askReserve x0 x1 x2 x3 s) := by
  refine h.trans ?_
  unfold State.askReserve
  with_reducible repeat' first | exact Steady.refl _ | refine State.askKey_steady ?_ | refine Steady.forEach (fun x st => ?_) ?_

theorem State.holdLost_steady {x0 x1 x2} (h : Steady b t s) : Steady b t (State.holdLost x0 x1 x2 s) := by
  unfold State.holdLost
  with_reducible repeat' first | exact h | simp only [Steady.put] | refine State.countNote_steady ?_ | split

theorem State.touchAdopted_steady {x0 x1 x2 x3} (h : Steady b t s) : Steady b t (State.touchAdopted x0 x1 x2 x3 s) := Steady.put.mpr h

theorem State.computeAdopted_steady {x0 x1 x2 x3} (h : Steady b t s) : Steady b t (State.computeAdopted x0 x1 x2 x3 s) := by
  unfold State.computeAdopted
  with_reducible repeat' first
    | exact h | simp only [Steady.put] | refine State.holdLost_steady ?_ | refine State.sendPulls_steady ?_ | refine State.shadow_steady ?_
    | refine State.dropComp_steady ?_ | refine State.addLost_steady ?_ | refine State.countWords_steady ?_
    | refine State.countOut_steady ?_ | refine State.bump_steady ?_ | refine State.touchAdopted_steady ?_ | refine State.launch_steady ?_
    | split

theorem State.sendReads_steady {x0 x1 x2 x3 x4 x5} (h : Steady b t s) : Steady b t (State.sendReads x0 x1 x2 x3 x4 x5 s) := by
  refine h.trans ?_
  unfold State.sendReads
  with_reducible repeat' first
    | exact Steady.refl _ | simp only [Steady.put] | refine State.askPly_steady ?_ | refine State.askStripe_steady ?_
    | refine Steady.forEach (fun x st => ?_) ?_ | split

theorem State.launchOld_steady {x0 x1 x2} (h : Steady b t s) : Steady b t (State.launchOld x0 x1 x2 s) := by
  unfold State.launchOld
  with_reducible repeat' first | exact h | refine State.launch_steady ?_ | split

theorem State.encodeOld_steady {x0 x1} (h : Steady b t s) : Steady b t (State.encodeOld x0 x1 s) := by
  refine h.trans ?_
  unfold State.encodeOld
  with_reducible repeat' first
    | exact Steady.refl _ | simp only [Steady.put] | refine State.launchOld_steady ?_ | refine State.startDecode_steady ?_
    | refine Steady.forEach (fun x st => ?_) ?_ | split

theorem State.updComp_steady {x0 x1} (h : Steady b t s) : Steady b t (State.updComp x0 x1 s) := Steady.put.mpr h

theorem State.keepDecoded_steady {x0 x1 x2 x3 x4} (h : Steady b t s) : Steady b t (State.keepDecoded x0 x1 x2 x3 x4 s) := by
  unfold State.keepDecoded
  with_reducible repeat' first | exact h | refine State.bump_steady ?_ | refine State.updComp_steady ?_ | split

theorem State.collect_steady {x0 x1 x2 x3} (h : Steady b t s) : Steady b t (State.collect x0 x1 x2 x3 s).1 := by
  refine h.trans ?_
  unfold State.collect
  with_reducible repeat' first
    | exact Steady.refl _ | refine State.keepDecoded_steady ?_ | refine State.sendReads_steady ?_
    | refine Steady.foldl_fst (fun acc x => ?_) ?_ | split

theorem State.completeAtN_steady {x0 x1 x2} (h : Steady b t s) : Steady b t (State.completeAtN x0 x1 x2 s) := by
  unfold State.completeAtN
  with_reducible repeat' first
    | exact h | simp only [Steady.put] | refine State.touchAdopted_steady ?_ | refine State.dropComp_steady ?_
    | refine State.storeAdopted_steady ?_ | refine State.bump_steady ?_ | refine State.invalidate_steady ?_ | split

theorem State.advanceTags_steady {x0 x1} (h : Steady b t s) : Steady b t (State.advanceTags x0 x1 s) := by
  unfold State.advanceTags
  with_reducible repeat' first
    | exact h | simp only [Steady.put] | refine State.sendReads_steady ?_ | refine State.encodeOld_steady ?_ | refine State.fray_steady ?_
    | refine State.collect_steady ?_ | refine State.holdLost_steady ?_ | refine State.completeAtN_steady ?_
    | refine State.computeAdopted_steady ?_ | split

theorem State.advanceComp_steady {x0} (h : Steady b t s) : Steady b t (State.advanceComp x0 s) := by
  refine h.trans ?_
  unfold State.advanceComp
  with_reducible repeat' first
    | exact Steady.refl _ | simp only [Steady.put] | refine State.dropComp_steady ?_ | refine State.countReread_steady ?_
    | refine State.askReserve_steady ?_ | refine State.computeAdopted_steady ?_ | refine State.addRepair_steady ?_
    | refine State.noteReread_steady ?_ | refine State.advanceTags_steady ?_ | refine Steady.forEach (fun x st => ?_) ?_ | split

theorem State.advanceComps_steady (h : Steady b t s) : Steady b t (State.advanceComps s) := by
  refine h.trans ?_
  unfold State.advanceComps
  with_reducible repeat' first | exact Steady.refl _ | refine State.advanceComp_steady ?_ | refine Steady.forEach (fun x st => ?_) ?_

theorem State.classLoss_steady {x0 x1} (h : Steady b t s) : Steady b t (State.classLoss x0 x1 s) := by
  unfold State.classLoss
  with_reducible repeat' first | exact h | simp only [Steady.put] | refine State.bump_steady ?_ | split

theorem State.classLosses_steady (h : Steady b t s) : Steady b t (State.classLosses s) := by
  refine h.trans ?_
  unfold State.classLosses
  with_reducible repeat' first
    | exact Steady.refl _ | simp only [Steady.put] | refine State.classLoss_steady ?_ | refine Steady.forEach (fun x st => ?_) ?_

theorem State.completeStart_steady {x0 x1 x2 x3} (h : Steady b t s) : Steady b t (State.completeStart x0 x1 x2 x3 s) := by
  unfold State.completeStart
  with_reducible repeat' first
    | exact h | simp only [Steady.put] | refine State.advanceComp_steady ?_ | refine State.updComp_steady ?_
    | refine State.dropComp_steady ?_ | split

theorem State.countLoss_steady {x0 x1} (h : Steady b t s) : Steady b t (State.countLoss x0 x1 s) := by
  unfold State.countLoss
  with_reducible repeat' first | exact h | simp only [Steady.put] | refine State.bump_steady ?_ | refine State.classLoss_steady ?_ | split

theorem State.coverPosition_steady {x0} (h : Steady b t s) : Steady b t (State.coverPosition x0 s) := by
  refine h.trans ?_
  unfold State.coverPosition
  with_reducible repeat' first
    | exact Steady.refl _ | simp only [Steady.put] | refine State.setTag_steady ?_ | refine State.relayReserve_steady ?_
    | refine Steady.forEach (fun x st => ?_) ?_ | split

theorem State.feedComp_steady {x0 x1} (h : Steady b t s) : Steady b t (State.feedComp x0 x1 s) := by
  unfold State.feedComp
  with_reducible repeat' first
    | exact h | simp only [Steady.put] | refine State.advanceComp_steady ?_ | refine State.updComp_steady ?_ | split

theorem State.gotOld_steady {x0 x1} (h : Steady b t s) : Steady b t (State.gotOld x0 x1 s) := by
  unfold State.gotOld
  with_reducible repeat' first
    | exact h | simp only [Steady.put] | refine State.updComp_steady ?_ | refine State.launchOld_steady ?_ | split

theorem State.lossThreshold_steady {x0} (h : Steady b t s) : Steady b t (State.lossThreshold x0 s) := by
  refine h.trans ?_
  unfold State.lossThreshold
  with_reducible repeat' first
    | exact Steady.refl _ | simp only [Steady.put] | refine State.sendReAnswer_steady ?_ | refine Steady.forEach (fun x st => ?_) ?_

theorem State.lostMaskStripe_steady {x0 x1 x2 x3} (h : Steady b t s) : Steady b t (State.lostMaskStripe x0 x1 x2 x3 s).1 := by
  refine h.trans ?_
  unfold State.lostMaskStripe
  with_reducible repeat' first | exact Steady.refl _ | simp only [Steady.put] | refine State.advanceComps_steady ?_ | split

theorem State.moveRoles_steady {x0} (h : Steady b t s) : Steady b t (State.moveRoles x0 s) := by
  refine h.trans ?_
  unfold State.moveRoles
  with_reducible repeat' first
    | exact Steady.refl _ | simp only [Steady.put] | refine State.startRecomp_steady ?_ | refine Steady.forEach (fun x st => ?_) ?_

theorem State.suggest_steady (h : Steady b t s) : Steady b t (State.suggest s) := Steady.put.mpr h

theorem State.oweRecords_steady {x0} (h : Steady b t s) : Steady b t (State.oweRecords x0 s) := by
  unfold State.oweRecords
  with_reducible repeat' first | exact h | simp only [Steady.put] | split

theorem State.renewReports_steady (h : Steady b t s) : Steady b t (State.renewReports s) := Steady.put.mpr (State.dropReqs_steady h)

theorem State.onLosses_steady {x0} (h : Steady b t s) : Steady b t (State.onLosses x0 s) := by
  refine h.trans ?_
  unfold State.onLosses
  with_reducible repeat' first
    | exact Steady.refl _ | simp only [Steady.put] | refine State.countLoss_steady ?_ | refine State.suggest_steady ?_
    | refine State.fray_steady ?_ | refine State.oweRecords_steady ?_ | refine State.adopt_steady ?_ | refine State.renewReports_steady ?_
    | refine State.moveRoles_steady ?_ | refine Steady.forEach (fun x st => ?_) ?_ | split

theorem State.reportLost_steady {x0 x1} (h : Steady b t s) : Steady b t (State.reportLost x0 x1 s) := by
  unfold State.reportLost
  with_reducible repeat' first
    | exact h | simp only [Steady.put] | refine State.countLost_steady ?_ | refine State.addLost_steady ?_ | split

theorem State.serveLost_steady {x0 x1 x2 x3} (h : Steady b t s) : Steady b t (State.serveLost x0 x1 x2 x3 s) := by
  unfold State.serveLost
  with_reducible repeat' first
    | exact h | simp only [Steady.put] | refine State.sendReAnswer_steady ?_ | refine State.sendPulls_steady ?_
    | refine State.spendFree_steady ?_ | refine State.reportLost_steady ?_ | split

theorem State.serveHeldOut_steady (h : Steady b t s) : Steady b t (State.serveHeldOut s) := by
  refine h.trans ?_
  unfold State.serveHeldOut
  with_reducible repeat' first
    | exact Steady.refl _ | simp only [Steady.put] | refine State.serveLost_steady ?_ | refine State.sendReAnswer_steady ?_
    | refine Steady.forEach (fun x st => ?_) ?_ | split

theorem State.onReAnswer_steady {x0} (h : Steady b t s) : Steady b t (State.onReAnswer x0 s) := by
  unfold State.onReAnswer
  with_reducible repeat' first
    | exact h | simp only [Steady.put] | refine State.freeReq_steady ?_ | refine State.sendPulls_steady ?_
    | refine State.serveHeldOut_steady ?_ | refine State.advanceComps_steady ?_ | split

theorem State.onReRequest_steady {x0} (h : Steady b t s) : Steady b t (State.onReRequest x0 s) := by
  unfold State.onReRequest
  with_reducible repeat' first
    | exact h | simp only [Steady.put] | refine State.serveLost_steady ?_ | refine State.sendReAnswer_steady ?_ | split

theorem State.onReport_steady {x0} (h : Steady b t s) : Steady b t (State.onReport x0 s) := by
  unfold State.onReport
  with_reducible repeat' first | exact h | simp only [Steady.put] | refine State.reply_steady ?_ | split

theorem State.onReportAck_steady {x0} (h : Steady b t s) : Steady b t (State.onReportAck x0 s) := by
  unfold State.onReportAck
  with_reducible repeat' first | exact h | refine State.freeReq_steady ?_ | split

theorem State.oweOpened_steady (h : Steady b t s) : Steady b t (State.oweOpened s) := State.oweRecords_steady h

theorem State.retryComps_steady (h : Steady b t s) : Steady b t (State.retryComps s) := by
  unfold State.retryComps
  with_reducible repeat' first | exact h | simp only [Steady.put] | refine State.advanceComps_steady ?_ | split

theorem State.sendReports_steady (h : Steady b t s) : Steady b t (State.sendReports s) := by
  refine h.trans ?_
  unfold State.sendReports
  with_reducible repeat' first
    | exact Steady.refl _ | simp only [Steady.put] | refine State.bump_steady ?_ | refine State.enqueue_steady ?_
    | refine Steady.forEach (fun x st => ?_) ?_ | split

end Sys2Proof.Machine
end

section
/-! PROOFS. What the operations of Machine/Rebuild.lean leave steady. -/

namespace Sys2Proof.Machine

variable {b : Bool} {t s : State}

theorem State.checkSpare_steady {x0} (h : Steady b t s) : Steady b t (State.checkSpare x0 s) := by
  unfold State.checkSpare
  with_reducible repeat' first | exact h | simp only [Steady.put] | refine State.changed_steady ?_ | split

theorem State.copyPump_steady {x0} (h : Steady b t s) : Steady b t (State.copyPump x0 s) := by
  refine h.trans ?_
  clear h
  induction x0 generalizing s
  · unfold State.copyPump
    exact Steady.refl _
  · rename_i k ih
    have ih' : ∀ {t s : State}, Steady b t s → Steady b t (State.copyPump k s) := fun h => h.trans (by apply ih)
    clear ih
    unfold State.copyPump
    with_reducible repeat' first
      | exact Steady.refl _ | simp only [Steady.put] | refine State.askGroup_steady ?_ | refine State.addRepair_steady ?_
      | refine State.sendFill_steady ?_ | refine ih' ?_ | refine Steady.forEach (fun x st => ?_) ?_ | split

theorem State.copyGo_steady (h : Steady b t s) : Steady b t (State.copyGo s) := by
  unfold State.copyGo
  with_reducible repeat' first | exact h | refine State.copyPump_steady ?_ | split

theorem State.copyAck_steady {x0 x1 x2} (h : Steady b t s) : Steady b t (State.copyAck x0 x1 x2 s) := by
  unfold State.copyAck
  with_reducible repeat' first
    | exact h | simp only [Steady.put] | refine State.changed_steady ?_ | refine State.bump_steady ?_ | refine State.copyGo_steady ?_
    | split

theorem State.copyStart_steady {x0} (h : Steady b t s) : Steady b t (State.copyStart x0 s) := by
  unfold State.copyStart
  with_reducible repeat' first | exact h | simp only [Steady.put] | refine State.dropReqs_steady ?_ | refine State.copyGo_steady ?_

theorem State.setDrain_steady {x0} (h : Steady b t s) : Steady b t (State.setDrain x0 s) := Steady.put.mpr h

theorem State.drainWrite_steady {x0 x1 x2 x3 x4} (h : Steady b t s) : Steady b t (State.drainWrite x0 x1 x2 x3 x4 s) :=
  State.request_steady h

theorem State.drainEnd_steady {x0} (h : Steady b t s) : Steady b t (State.drainEnd x0 s) := by
  unfold State.drainEnd
  with_reducible repeat' first
    | exact h | simp only [Steady.put] | refine State.bump_steady ?_ | refine State.setDrain_steady ?_ | refine State.drainWrite_steady ?_
    | refine State.suggest_steady ?_ | refine State.journalState_steady ?_ | split

theorem State.drainMove_steady {x0 x1 x2 x3 x4} (h : Steady b t s) : Steady b t (State.drainMove x0 x1 x2 x3 x4 s) := by
  unfold State.drainMove
  with_reducible repeat' first
    | exact h | simp only [Steady.put] | refine State.setDrain_steady ?_ | refine State.askKey_steady ?_ | refine State.addRepair_steady ?_
    | refine State.drainWrite_steady ?_ | split

theorem State.drainPump_steady {x0} (h : Steady b t s) : Steady b t (State.drainPump x0 s) := by
  refine h.trans ?_
  clear h
  induction x0 generalizing s
  · unfold State.drainPump
    exact Steady.refl _
  · rename_i k ih
    have ih' : ∀ {t s : State}, Steady b t s → Steady b t (State.drainPump k s) := fun h => h.trans (by apply ih)
    clear ih
    unfold State.drainPump
    with_reducible repeat' first | exact Steady.refl _ | refine State.drainMove_steady ?_ | refine ih' ?_ | split

theorem State.drainGo_steady (h : Steady b t s) : Steady b t (State.drainGo s) := by
  refine h.trans ?_
  unfold State.drainGo
  with_reducible repeat' first
    | exact Steady.refl _ | simp only [Steady.put] | refine State.addRepair_steady ?_ | refine State.drainPump_steady ?_
    | refine State.drainEnd_steady ?_ | refine Steady.forEach (fun x st => ?_) ?_ | split

theorem State.drainAnswer_steady {x0} (h : Steady b t s) : Steady b t (State.drainAnswer x0 s) := by
  unfold State.drainAnswer
  with_reducible repeat' first
    | exact h | simp only [Steady.put] | refine State.setDrain_steady ?_ | refine State.drainEnd_steady ?_ | refine State.drainGo_steady ?_
    | split

theorem State.drainOpen_steady {x0} (h : Steady b t s) : Steady b t (State.drainOpen x0 s) := by
  unfold State.drainOpen
  with_reducible repeat' first
    | exact h | exact fun _ => rfl | refine State.countNote_steady ?_ | refine State.setDrain_steady ?_ | refine State.drainWrite_steady ?_
    | refine State.drainGo_steady ?_ | split | refine Steady.putFrame ?_ ?_

theorem State.evacAck_steady {x0 x1 x2} (h : Steady b t s) : Steady b t (State.evacAck x0 x1 x2 s) := by
  unfold State.evacAck
  with_reducible repeat' first | exact h | simp only [Steady.put] | refine State.changed_steady ?_ | split

theorem State.evacStart_steady {x0} (h : Steady b t s) : Steady b t (State.evacStart x0 s) := by
  unfold State.evacStart
  with_reducible repeat' first | exact h | simp only [Steady.put] | refine State.changed_steady ?_ | split

theorem State.onFillAck_steady {x0} (h : Steady b t s) : Steady b t (State.onFillAck x0 s) := by
  unfold State.onFillAck
  with_reducible repeat' first
    | exact h | refine State.freeReq_steady ?_ | refine State.evacAck_steady ?_ | refine State.copyAck_steady ?_
    | refine State.copyGo_steady ?_ | split

theorem State.onFillSet_steady {x0} (h : Steady b t s) : Steady b t (State.onFillSet x0 s) := by
  refine h.trans ?_
  unfold State.onFillSet
  with_reducible repeat' first
    | exact Steady.refl _ | simp only [Steady.put] | refine State.reply_steady ?_ | refine State.invalidate_steady ?_
    | refine State.writeGroup_steady ?_ | refine State.clearKey_steady ?_ | refine State.checkSpare_steady ?_ | refine State.bump_steady ?_
    | refine Steady.forEach (fun x st => ?_) ?_ | split

theorem State.retryFills_steady (h : Steady b t s) : Steady b t (State.retryFills s) := by
  refine h.trans ?_
  unfold State.retryFills
  with_reducible repeat' first
    | exact Steady.refl _ | simp only [Steady.put] | refine State.onFillSet_steady ?_ | refine Steady.forEach (fun x st => ?_) ?_ | split

end Sys2Proof.Machine
end

section
/-! PROOFS. What the operations of Machine/Membership.lean leave steady. -/

namespace Sys2Proof.Machine

variable {b : Bool} {t s : State}

theorem State.afterEpoch_steady {x0} (h : Steady b t s) : Steady b t (State.afterEpoch x0 s) := by
  unfold State.afterEpoch
  with_reducible repeat' first
    | exact h | refine State.onLosses_steady ?_ | refine State.resendAll_steady ?_ | refine State.serveHeldOut_steady ?_
    | refine State.advanceComps_steady ?_ | refine State.releaseReads_steady ?_ | refine State.releaseSets_steady ?_

theorem State.answerHello_steady {x0} (h : Steady b t s) : Steady b t (State.answerHello x0 s) := by
  unfold State.answerHello
  with_reducible repeat' first | exact h | simp only [Steady.put] | refine State.sendHello_steady ?_ | split

theorem State.dropAwaited_steady (h : Steady b t s) : Steady b t (State.dropAwaited s) := by
  unfold State.dropAwaited
  with_reducible repeat' first | exact h | simp only [Steady.put] | split

theorem State.vacatePass_steady (h : Steady b t s) : Steady b t (State.vacatePass s) := by
  refine h.trans ?_
  unfold State.vacatePass
  with_reducible repeat' first
    | exact Steady.refl _ | simp only [Steady.put] | refine State.sendMgmt_steady ?_ | refine Steady.forEach (fun x st => ?_) ?_

theorem State.fencedEpoch_steady {x0} (h : Steady b t s) : Steady b t (State.fencedEpoch x0 s) := by
  refine h.trans ?_
  unfold State.fencedEpoch
  with_reducible repeat' first
    | exact Steady.refl _ | refine State.suggest_steady ?_ | refine State.countLoss_steady ?_ | refine State.releaseReads_steady ?_
    | refine State.releaseSets_steady ?_ | refine Steady.forEach (fun x st => ?_) ?_ | split

theorem State.recodeEnd_steady (h : Steady b t s) : Steady b t (State.recodeEnd s) := by
  unfold State.recodeEnd
  with_reducible repeat' first
    | exact h | simp only [Steady.put] | refine State.setMemState_steady ?_ | refine State.bump_steady ?_ | split

theorem State.applyEpoch_steady {x0 x1 x2} (h : Steady b t s) : Steady b t (State.applyEpoch x0 x1 x2 s) := by
  refine h.trans ?_
  unfold State.applyEpoch
  with_reducible repeat' first
    | exact Steady.refl _ | simp only [Steady.put] | refine State.changed_steady ?_ | refine State.bump_steady ?_
    | refine State.dropAwaited_steady ?_ | refine State.vacatePass_steady ?_ | refine State.fence_steady ?_
    | refine State.fencedEpoch_steady ?_ | refine State.recodeEnd_steady ?_ | refine State.afterEpoch_steady ?_ | split

theorem State.askRecords_steady {x0} (h : Steady b t s) : Steady b t (State.askRecords x0 s) := by
  unfold State.askRecords
  with_reducible repeat' first | exact h | simp only [Steady.put] | refine State.request_steady ?_ | split

theorem State.catchUpEnd_steady (h : Steady b t s) : Steady b t (State.catchUpEnd s) := by
  unfold State.catchUpEnd
  with_reducible repeat' first | exact h | simp only [Steady.put] | refine State.fence_steady ?_ | split

theorem State.countVotes_steady (h : Steady b t s) : Steady b t (State.countVotes s) := by
  refine h.trans ?_
  unfold State.countVotes
  with_reducible repeat' first | exact Steady.refl _ | simp only [Steady.put] | refine State.applyEpoch_steady ?_ | split

theorem State.discover_steady {x0} (h : Steady b t s) : Steady b t (State.discover x0 s) := by
  unfold State.discover
  with_reducible repeat' first | exact h | simp only [Steady.put] | split

theorem State.freeAsked_steady {x0} (h : Steady b t s) : Steady b t (State.freeAsked x0 s) := by
  unfold State.freeAsked
  with_reducible repeat' first | exact h | refine State.freeReq_steady ?_ | split

theorem State.sendVote_steady {x0 x1} (h : Steady b t s) : Steady b t (State.sendVote x0 x1 s) :=
  State.sendMgmt_steady (State.bump_steady h)

theorem State.resendVotes_steady (h : Steady b t s) : Steady b t (State.resendVotes s) := by
  refine h.trans ?_
  unfold State.resendVotes
  with_reducible repeat' first | exact Steady.refl _ | refine State.sendVote_steady ?_ | refine Steady.forEach (fun x st => ?_) ?_ | split

theorem State.heartPeriod_steady (h : Steady b t s) : Steady b t (State.heartPeriod s) := by
  refine h.trans ?_
  unfold State.heartPeriod
  with_reducible repeat' first
    | exact Steady.refl _ | simp only [Steady.put] | refine State.sendMgmt_steady ?_ | refine State.resendVotes_steady ?_
    | refine State.askRecords_steady ?_ | refine State.askRecomp_steady ?_ | refine State.retryComps_steady ?_
    | refine Steady.forEach (fun x st => ?_) ?_ | split

theorem State.helloTick_steady (h : Steady b t s) : Steady b t (State.helloTick s) := by
  refine h.trans ?_
  unfold State.helloTick
  with_reducible repeat' first
    | exact Steady.refl _ | simp only [Steady.put] | refine State.sendHello_steady ?_ | refine State.sendMgmt_steady ?_
    | refine Steady.forEach (fun x st => ?_) ?_ | split

end Sys2Proof.Machine
end

section
/-! PROOFS. What the operations of Machine/Membership.lean leave steady. -/

namespace Sys2Proof.Machine

variable {b : Bool} {t s : State}

theorem State.onAccepted_steady {x0} (h : Steady b t s) : Steady b t (State.onAccepted x0 s) := by
  unfold State.onAccepted
  with_reducible repeat' first | exact h | simp only [Steady.put] | refine State.askRecords_steady ?_ | split

theorem State.onEpochRecord_steady {x0} (h : Steady b t s) : Steady b t (State.onEpochRecord x0 s) := by
  unfold State.onEpochRecord
  with_reducible repeat' first
    | exact h | simp only [Steady.put] | refine State.freeAsked_steady ?_ | refine State.applyEpoch_steady ?_ | split

theorem State.sendRecords_steady {x0 x1 x2} (h : Steady b t s) : Steady b t (State.sendRecords x0 x1 x2 s) := by
  refine h.trans ?_
  unfold State.sendRecords
  with_reducible repeat' first | exact Steady.refl _ | refine State.post_steady ?_ | refine Steady.forEach (fun x st => ?_) ?_

theorem State.onEpochRequest_steady {x0} (h : Steady b t s) : Steady b t (State.onEpochRequest x0 s) := State.sendRecords_steady h

theorem State.onHeartbeat_steady {x0} (h : Steady b t s) : Steady b t (State.onHeartbeat x0 s) := by
  unfold State.onHeartbeat
  with_reducible repeat' first | exact h

theorem State.onHello_steady {x0} (h : Steady b t s) : Steady b t (State.onHello x0 s) := by
  unfold State.onHello
  with_reducible repeat' first
    | exact h | simp only [Steady.put] | refine State.bump_steady ?_ | refine State.countNote_steady ?_
    | refine State.answerHello_steady ?_ | refine State.sendRecords_steady ?_ | refine State.askRecords_steady ?_
    | refine State.discover_steady ?_ | split

theorem State.onProposal_steady {x0} (h : Steady b t s) : Steady b t (State.onProposal x0 s).1 := by
  refine h.trans ?_
  unfold State.onProposal
  with_reducible repeat' first
    | exact Steady.refl _ | simp only [Steady.put] | refine State.countNote_steady ?_ | refine State.bump_steady ?_
    | refine State.sendVote_steady ?_ | refine State.countVotes_steady ?_ | refine Steady.forEach (fun x st => ?_) ?_ | split

theorem State.onRecoded_steady {x0} (h : Steady b t s) : Steady b t (State.onRecoded x0 s) := by
  unfold State.onRecoded
  with_reducible repeat' first | exact h | simp only [Steady.put] | refine State.recodeEnd_steady ?_ | split

theorem State.onVacate_steady {x0} (h : Steady b t s) : Steady b t (State.onVacate x0 s) := State.vacatePass_steady (Steady.put.mpr h)

theorem State.vacateFinish_steady (h : Steady false t s) : Steady false t (State.vacateFinish s) := by
  unfold State.vacateFinish
  with_reducible repeat' first
    | exact h | exact fun h => absurd h Bool.false_ne_true | refine State.setMemState_steady ?_ | refine State.bump_steady ?_
    | refine State.endFenceLevel_steady ?_ | split | refine Steady.putFrame ?_ ?_

theorem State.onVacateAck_steady {x0} (h : Steady false t s) : Steady false t (State.onVacateAck x0 s) := by
  unfold State.onVacateAck
  with_reducible repeat' first | exact h | simp only [Steady.put] | refine State.vacateFinish_steady ?_ | split

theorem State.onVote_steady {x0} (h : Steady b t s) : Steady b t (State.onVote x0 s) := by
  unfold State.onVote
  with_reducible repeat' first | exact h | simp only [Steady.put] | refine State.bump_steady ?_ | refine State.countVotes_steady ?_ | split

theorem State.recodePass_steady (h : Steady b t s) : Steady b t (State.recodePass s) := by
  refine h.trans ?_
  unfold State.recodePass
  with_reducible repeat' first
    | exact Steady.refl _ | simp only [Steady.put] | refine State.sendMgmt_steady ?_ | refine State.recodeEnd_steady ?_
    | refine Steady.forEach (fun x st => ?_) ?_ | split

theorem State.suspect_steady {x0} (h : Steady b t s) : Steady b t (State.suspect x0 s) := by
  unfold State.suspect
  with_reducible repeat' first | exact h | simp only [Steady.put] | refine State.countNote_steady ?_ | split

theorem State.vacateStart_steady {x0} (h : Steady b t s) : Steady b t (State.vacateStart x0 s) := by
  refine h.trans ?_
  unfold State.vacateStart
  with_reducible repeat' first
    | exact Steady.refl _ | simp only [Steady.put] | refine State.sendMgmt_steady ?_ | refine State.setMemState_steady ?_
    | refine Steady.forEach (fun x st => ?_) ?_

end Sys2Proof.Machine
end

section
/-! PROOFS. What the operations of Machine/Ledger.lean leave steady. -/

namespace Sys2Proof.Machine

variable {b : Bool} {t s : State}

theorem State.askImage_steady {x0 x1 x2 x3} (h : Steady b t s) : Steady b t (State.askImage x0 x1 x2 x3 s) := State.request_steady h

theorem State.recordMac_steady {x1} (h : Steady b t s) : Steady b t (State.recordMac s x1).1 := by
  unfold State.recordMac
  with_reducible repeat' first | exact h | refine State.spendFree_steady ?_ | split

theorem State.issue_steady {x0} (h : Steady b t s) : Steady b t (State.issue x0 s) := by
  refine h.trans ?_
  unfold State.issue
  with_reducible repeat' first
    | exact Steady.refl _ | simp only [Steady.put] | refine State.recordMac_steady ?_ | refine State.bump_steady ?_
    | refine State.countNote_steady ?_ | refine State.sendMgmt_steady ?_ | refine Steady.forEach (fun x st => ?_) ?_ | split

theorem State.writeRecord_steady (h : Steady b t s) : Steady b t (State.writeRecord s) := State.issue_steady (Steady.put.mpr h)

theorem State.auditEnd_steady {x0} (h : Steady b t s) : Steady b t (State.auditEnd x0 s) := by
  unfold State.auditEnd
  with_reducible repeat' first
    | exact h | simp only [Steady.put] | refine State.writeRecord_steady ?_ | refine State.countNote_steady ?_ | split

theorem State.audit_steady (h : Steady b t s) : Steady b t (State.audit s) := by
  unfold State.audit
  with_reducible repeat' first | exact h | simp only [Steady.put] | refine State.auditEnd_steady ?_ | split

theorem State.auditAgain_steady (h : Steady b t s) : Steady b t (State.auditAgain s) := by
  unfold State.auditAgain
  with_reducible repeat' first | exact h | refine State.auditEnd_steady ?_ | split

theorem State.auditGrace_steady (h : Steady b t s) : Steady b t (State.auditGrace s) := by
  unfold State.auditGrace
  with_reducible repeat' first | exact h | refine State.auditEnd_steady ?_ | split

theorem State.serveProbe_steady (h : Steady b t s) : Steady b t (State.serveProbe s) := by
  refine h.trans ?_
  unfold State.serveProbe
  with_reducible repeat' first | exact Steady.refl _ | simp only [Steady.put] | refine State.bump_steady ?_ | split

theorem State.hashProbe_steady {x0} (h : Steady b t s) : Steady b t (State.hashProbe x0 s).1 := by
  unfold State.hashProbe
  with_reducible repeat' first | exact h | simp only [Steady.put] | refine State.serveProbe_steady ?_ | split

theorem State.issueAdopted_steady {x0 x1 x2} (h : Steady b t s) : Steady b t (State.issueAdopted x0 x1 x2 s) := by
  refine h.trans ?_
  unfold State.issueAdopted
  with_reducible repeat' first
    | exact Steady.refl _ | simp only [Steady.put] | refine State.countNote_steady ?_ | refine State.bump_steady ?_
    | refine State.issue_steady ?_ | split

theorem State.issueDue_steady (h : Steady b t s) : Steady b t (State.issueDue s) := by
  refine h.trans ?_
  unfold State.issueDue
  with_reducible repeat' first
    | exact Steady.refl _ | refine State.issueAdopted_steady ?_ | refine Steady.forEach (fun x st => ?_) ?_ | split

theorem State.ledgerThreshold_steady (h : Steady b t s) : Steady b t (State.ledgerThreshold s) := Steady.put.mpr h

theorem State.onNotice_steady {x0} (h : Steady b t s) : Steady b t (State.onNotice x0 s) := by
  unfold State.onNotice
  with_reducible repeat' first | exact h | simp only [Steady.put] | refine State.bump_steady ?_ | split

theorem State.probeRollcall_steady (h : Steady b t s) : Steady b t (State.probeRollcall s) := by
  unfold State.probeRollcall
  with_reducible repeat' first | exact h | simp only [Steady.put] | split

theorem State.setRestore_steady {x0} (h : Steady b t s) : Steady b t (State.setRestore x0 s) := Steady.put.mpr h

theorem State.restoreNone_steady {x0} (h : Steady b t s) : Steady b t (State.restoreNone x0 s) := by
  refine h.trans ?_
  unfold State.restoreNone
  with_reducible repeat' first
    | exact Steady.refl _ | simp only [Steady.put] | refine State.setRestore_steady ?_ | refine State.note_steady ?_
    | refine State.changed_steady ?_ | refine Steady.forEach (fun x st => ?_) ?_

theorem State.restoreNext_steady {x0} (h : Steady b t s) : Steady b t (State.restoreNext x0 s) := by
  unfold State.restoreNext
  with_reducible repeat' first
    | exact h | simp only [Steady.put] | refine State.dropReqs_steady ?_ | refine State.restoreNone_steady ?_
    | refine State.setRestore_steady ?_ | refine State.askImage_steady ?_ | split

theorem State.restoreFail_steady {x0 x1 x2} (h : Steady b t s) : Steady b t (State.restoreFail x0 x1 x2 s) := by
  unfold State.restoreFail
  with_reducible repeat' first | exact h | refine State.bump_steady ?_ | refine State.restoreNext_steady ?_ | split

theorem State.restoreOk_steady {x0 x1} (h : Steady b t s) : Steady b t (State.restoreOk x0 x1 s) := by
  unfold State.restoreOk
  with_reducible repeat' first
    | exact h | simp only [Steady.put] | refine State.bump_steady ?_ | refine State.setRestore_steady ?_ | refine State.changed_steady ?_

theorem State.restoreVerify_steady {x0 x1} (h : Steady b t s) : Steady b t (State.restoreVerify x0 x1 s) := by
  unfold State.restoreVerify
  with_reducible repeat' first
    | exact h | simp only [Steady.put] | refine State.restoreFail_steady ?_ | refine State.restoreOk_steady ?_ | split

theorem State.restorePump_steady {x0} (h : Steady b t s) : Steady b t (State.restorePump x0 s) := by
  refine h.trans ?_
  clear h
  induction x0 generalizing s
  · unfold State.restorePump
    exact Steady.refl _
  · rename_i k ih
    have ih' : ∀ {t s : State}, Steady b t s → Steady b t (State.restorePump k s) := fun h => h.trans (by apply ih)
    clear ih
    unfold State.restorePump
    with_reducible repeat' first
      | exact Steady.refl _ | refine State.askImage_steady ?_ | refine State.setRestore_steady ?_ | refine ih' ?_ | split

theorem State.restoreHeader_steady {x0 x1 x2} (h : Steady b t s) : Steady b t (State.restoreHeader x0 x1 x2 s) := by
  unfold State.restoreHeader
  with_reducible repeat' first
    | exact h | simp only [Steady.put] | refine State.restoreFail_steady ?_ | refine State.setRestore_steady ?_
    | refine State.restoreVerify_steady ?_ | refine State.restorePump_steady ?_ | split

theorem State.restoreStripe_steady {x0 x1 x2 x3} (h : Steady b t s) : Steady b t (State.restoreStripe x0 x1 x2 x3 s) := by
  unfold State.restoreStripe
  with_reducible repeat' first
    | exact h | simp only [Steady.put] | refine State.setRestore_steady ?_ | refine State.restoreVerify_steady ?_
    | refine State.restorePump_steady ?_ | refine State.invalidate_steady ?_ | refine State.clearKey_steady ?_
    | refine State.writePlane_steady ?_ | split

theorem State.restoreAnswer_steady {x0 x1} (h : Steady b t s) : Steady b t (State.restoreAnswer x0 x1 s) := by
  unfold State.restoreAnswer
  with_reducible repeat' first
    | exact h | refine State.restoreHeader_steady ?_ | refine State.restoreStripe_steady ?_ | refine State.restoreFail_steady ?_ | split

theorem State.restoreRequest_steady {x0} (h : Steady b t s) : Steady b t (State.restoreRequest x0 s).1 := by
  unfold State.restoreRequest
  with_reducible repeat' first | exact h | simp only [Steady.put] | refine State.restoreNext_steady ?_ | split

theorem State.restoredWrite_steady {x0} (h : Steady b t s) : Steady b t (State.restoredWrite x0 s) := by
  unfold State.restoredWrite
  with_reducible repeat' first | exact h | simp only [Steady.put] | split

theorem State.retryRestore_steady (h : Steady b t s) : Steady b t (State.retryRestore s) := by
  refine h.trans ?_
  unfold State.retryRestore
  with_reducible repeat' first
    | exact Steady.refl _ | simp only [Steady.put] | refine State.restoreAnswer_steady ?_ | refine Steady.forEach (fun x st => ?_) ?_

end Sys2Proof.Machine
end

section
/-! PROOFS. What the operations of Machine/Views.lean leave steady. -/

namespace Sys2Proof.Machine

variable {b : Bool} {t s : State}

theorem State.askMasters_steady {x0 x1} (h : Steady b t s) : Steady b t (State.askMasters x0 x1 s) := by
  refine h.trans ?_
  unfold State.askMasters
  with_reducible repeat' first | exact Steady.refl _ | refine State.askMaster_steady ?_ | refine Steady.forEach (fun x st => ?_) ?_

theorem State.repairHank_steady {x0} (h : Steady b t s) : Steady b t (State.repairHank x0 s) := by
  refine h.trans ?_
  unfold State.repairHank
  with_reducible repeat' first
    | exact Steady.refl _ | simp only [Steady.put] | refine State.addRepair_steady ?_ | refine State.noteReread_steady ?_
    | refine Steady.forEach (fun x st => ?_) ?_ | split

theorem State.generateView_steady {x0} (h : Steady b t s) : Steady b t (State.generateView x0 s) := by
  refine h.trans ?_
  unfold State.generateView
  with_reducible repeat' first
    | exact Steady.refl _ | simp only [Steady.put] | refine State.askMasters_steady ?_ | refine State.repairHank_steady ?_
    | refine State.invalidate_steady ?_ | refine State.countReread_steady ?_ | refine State.writeView_steady ?_
    | refine State.updHank_steady ?_ | refine State.bump_steady ?_ | refine State.askMaster_steady ?_
    | refine Steady.forEach (fun x st => ?_) ?_ | split

theorem State.trailingPass_steady {x0 x1} (h : Steady b t s) : Steady b t (State.trailingPass x0 x1 s) := by
  refine h.trans ?_
  unfold State.trailingPass
  with_reducible repeat' first
    | exact Steady.refl _ | simp only [Steady.put] | refine State.askMasters_steady ?_ | refine State.repairHank_steady ?_
    | refine State.countReread_steady ?_ | refine State.invalidate_steady ?_ | refine State.writeView_steady ?_
    | refine State.bump_steady ?_ | refine State.updHank_steady ?_ | refine Steady.forEach (fun x st => ?_) ?_ | split

theorem State.viewOnlyPass_steady (h : Steady b t s) : Steady b t (State.viewOnlyPass s) := by
  refine h.trans ?_
  unfold State.viewOnlyPass
  with_reducible repeat' first
    | exact Steady.refl _ | refine State.generateView_steady ?_ | refine Steady.forEach (fun x st => ?_) ?_ | split

end Sys2Proof.Machine
end

section
/-! PROOFS. What the operations of Machine/Tiers.lean leave steady. -/

namespace Sys2Proof.Machine

variable {b : Bool} {t s : State}

theorem State.writeMap_steady {x0} (h : Steady b t s) : Steady b t (State.writeMap x0 s) := by
  unfold State.writeMap
  with_reducible repeat' first | exact h | refine State.hearthWrite_steady ?_ | split

theorem State.putPage_steady {x0} (h : Steady b t s) : Steady b t (State.putPage x0 s) := by
  unfold State.putPage
  with_reducible repeat' first | exact h | simp only [Steady.put] | refine State.writeMap_steady ?_ | split

theorem State.orphan_steady {x0} (h : Steady b t s) : Steady b t (State.orphan x0 s) := Steady.put.mpr h

theorem State.dropMove_steady {x0} (h : Steady b t s) : Steady b t (State.dropMove x0 s) :=
  Steady.put.mpr (State.orphan_steady (State.dropReqs_steady h))

theorem State.abandonMove_steady {x0} (h : Steady b t s) : Steady b t (State.abandonMove x0 s) :=
  State.putPage_steady (State.dropMove_steady h)

theorem State.countFull_steady {x0 x1 x2 x3 x4} (h : Steady b t s) : Steady b t (State.countFull x0 x1 x2 x3 x4 s) := by
  unfold State.countFull
  with_reducible repeat' first | exact h | simp only [Steady.put] | refine State.bump_steady ?_ | split

theorem State.allocate_steady {x0 x1 x2} (h : Steady b t s) : Steady b t (State.allocate x0 x1 x2 s).1 := by
  unfold State.allocate
  with_reducible repeat' first
    | exact h | simp only [Steady.put] | refine State.bump_steady ?_ | refine State.putPage_steady ?_ | refine State.countFull_steady ?_
    | split

theorem State.answerDiscard_steady {x0} (h : Steady b t s) : Steady b t (State.answerDiscard x0 s) := by
  unfold State.answerDiscard
  with_reducible repeat' first | exact h | refine State.emit_steady ?_ | split

theorem State.askMap_steady {x0 x1 x2} (h : Steady b t s) : Steady b t (State.askMap x0 x1 x2 s) := by
  unfold State.askMap
  with_reducible repeat' first | exact h | refine State.takeMem_steady ?_ | split

theorem State.askPage_steady {x0 x1 x2} (h : Steady b t s) : Steady b t (State.askPage x0 x1 x2 s) := by
  unfold State.askPage
  with_reducible repeat' first | exact h | refine State.takeMem_steady ?_ | refine State.takeLines_steady ?_ | split

theorem State.attemptOver_steady {x0 x1 x2} (h : Steady b t s) : Steady b t (State.attemptOver x0 x1 x2 s) := Steady.put.mpr h

theorem State.charge_steady {x0 x1} (h : Steady b t s) : Steady b t (State.charge x0 x1 s) := by
  unfold State.charge
  with_reducible repeat' first | exact h | simp only [Steady.put] | refine State.bump_steady ?_ | split

theorem State.countLower_steady {x0} (h : Steady b t s) : Steady b t (State.countLower x0 s) := by
  unfold State.countLower
  with_reducible repeat' first | exact h | simp only [Steady.put] | refine State.countFull_steady ?_ | split

theorem State.unqueue_steady {x0} (h : Steady b t s) : Steady b t (State.unqueue x0 s) := Steady.put.mpr h

theorem State.memRequest_steady {x0 x1 x2 x3 x4 x5 x6} (h : Steady b t s) : Steady b t (State.memRequest x0 x1 x2 x3 x4 x5 x6 s) :=
  State.emit_steady (Steady.put.mpr h)

theorem State.pantryRequest_steady {x0 x1 x2} (h : Steady b t s) : Steady b t (State.pantryRequest x0 x1 x2 s) :=
  State.emit_steady (Steady.put.mpr h)

theorem State.moveReads_steady {x0 x1} (h : Steady b t s) : Steady b t (State.moveReads x0 x1 s) := by
  refine h.trans ?_
  unfold State.moveReads
  with_reducible repeat' first
    | exact Steady.refl _ | refine State.memRequest_steady ?_ | refine State.pantryRequest_steady ?_ | refine State.request_steady ?_
    | refine Steady.forEach (fun x st => ?_) ?_ | split

theorem State.startMove_steady {x0 x1 x2 x3} (h : Steady b t s) : Steady b t (State.startMove x0 x1 x2 x3 s) :=
  State.moveReads_steady (State.putPage_steady (Steady.put.mpr h))

theorem State.demote_steady {x0} (h : Steady b t s) : Steady b t (State.demote x0 s) := by
  unfold State.demote
  with_reducible repeat' first
    | exact h | simp only [Steady.put] | refine State.countLower_steady ?_ | refine State.startMove_steady ?_
    | refine State.charge_steady ?_ | split

theorem State.noVictim_steady {x0 x1} (h : Steady b t s) : Steady b t (State.noVictim x0 x1 s) := by
  unfold State.noVictim
  with_reducible repeat' first | exact h | refine State.countLower_steady ?_ | split

theorem State.promote_steady {x0 x1} (h : Steady b t s) : Steady b t (State.promote x0 x1 s) := by
  unfold State.promote
  with_reducible repeat' first
    | exact h | simp only [Steady.put] | refine State.countFull_steady ?_ | refine State.startMove_steady ?_
    | refine State.charge_steady ?_ | refine State.demote_steady ?_ | refine State.noVictim_steady ?_ | split

theorem State.demandOne_steady {x0} (h : Steady b t s) : Steady b t (State.demandOne x0 s) := by
  unfold State.demandOne
  with_reducible repeat' first
    | exact h | simp only [Steady.put] | refine State.unqueue_steady ?_ | refine State.allocate_steady ?_ | refine State.demote_steady ?_
    | refine State.noVictim_steady ?_ | refine State.promote_steady ?_ | refine State.putPage_steady ?_ | split

theorem State.discardNow_steady {x0 x1 x2} (h : Steady b t s) : Steady b t (State.discardNow x0 x1 x2 s).1 := by
  refine h.trans ?_
  unfold State.discardNow
  with_reducible repeat' first
    | exact Steady.refl _ | simp only [Steady.put] | refine State.invalidate_steady ?_ | refine State.abandonMove_steady ?_
    | refine State.putPage_steady ?_ | refine State.bump_steady ?_ | refine Steady.forEach (fun x st => ?_) ?_ | split

theorem State.freshMap_steady {x0} (h : Steady b t s) : Steady b t (State.freshMap x0 s) := by
  refine h.trans ?_
  unfold State.freshMap
  with_reducible repeat' first
    | exact Steady.refl _ | refine State.clearBad_steady ?_ | refine State.hearthWrite_steady ?_
    | refine Steady.forEach (fun x st => ?_) ?_

theorem State.heatPage_steady {x0 x1 x2} (h : Steady b t s) : Steady b t (State.heatPage x0 x1 x2 s) := State.putPage_steady h

theorem State.heatThreshold_steady (h : Steady b t s) : Steady b t (State.heatThreshold s) := by
  refine h.trans ?_
  unfold State.heatThreshold
  with_reducible repeat' first | exact Steady.refl _ | refine State.putPage_steady ?_ | refine Steady.forEach (fun x st => ?_) ?_

theorem State.homeDrop_steady {x0} (h : Steady b t s) : Steady b t (State.homeDrop x0 s) := State.orphan_steady (Steady.put.mpr h)

theorem State.updHome_steady {x0 x1} (h : Steady b t s) : Steady b t (State.updHome x0 x1 s) := Steady.put.mpr h

theorem State.homesOver_steady (h : Steady b t s) : Steady b t (State.homesOver s) := by
  unfold State.homesOver
  with_reducible repeat' first | exact h | simp only [Steady.put] | split

theorem State.homeSwitch_steady {x0} (h : Steady b t s) : Steady b t (State.homeSwitch x0 s) := by
  unfold State.homeSwitch
  with_reducible repeat' first
    | exact h | simp only [Steady.put] | refine State.updHank_steady ?_ | refine State.homesOver_steady ?_ | split

theorem State.placeRequest_steady {x0 x1 x2} (h : Steady b t s) : Steady b t (State.placeRequest x0 x1 x2 s) := by
  refine h.trans ?_
  unfold State.placeRequest
  with_reducible repeat' first
    | exact Steady.refl _ | refine State.pantryRequest_steady ?_ | refine State.memRequest_steady ?_
    | refine Steady.forEach (fun x st => ?_) ?_ | split

theorem State.homeWrites_steady {x0} (h : Steady b t s) : Steady b t (State.homeWrites x0 s) := by
  refine h.trans ?_
  unfold State.homeWrites
  with_reducible repeat' first
    | exact Steady.refl _ | simp only [Steady.put] | refine State.updHome_steady ?_ | refine State.pantryPut_steady ?_
    | refine State.hearthPut_steady ?_ | refine State.placeRequest_steady ?_ | refine State.clearKey_steady ?_
    | refine Steady.forEach (fun x st => ?_) ?_ | split

theorem State.homeAnswer_steady {x0 x1 x2 x3} (h : Steady b t s) : Steady b t (State.homeAnswer x0 x1 x2 x3 s) := by
  unfold State.homeAnswer
  with_reducible repeat' first
    | exact h | simp only [Steady.put] | refine State.homeDrop_steady ?_ | refine State.updHome_steady ?_
    | refine State.homeSwitch_steady ?_ | refine State.homeWrites_steady ?_ | split

theorem State.startHome_steady {x0 x1 x2} (h : Steady b t s) : Steady b t (State.startHome x0 x1 x2 s) := by
  refine h.trans ?_
  unfold State.startHome
  with_reducible repeat' first
    | exact Steady.refl _ | simp only [Steady.put] | refine State.charge_steady ?_ | refine State.placeRequest_steady ?_
    | refine Steady.forEach (fun x st => ?_) ?_ | split

theorem State.moveLap_steady {x0} (h : Steady b t s) : Steady b t (State.moveLap x0 s) := by
  unfold State.moveLap
  with_reducible repeat' first | exact h | simp only [Steady.put] | refine State.startHome_steady ?_ | split

theorem State.moveGroup_steady {x0} (h : Steady b t s) : Steady b t (State.moveGroup x0 s) := by
  unfold State.moveGroup
  with_reducible repeat' first | exact h | refine State.startHome_steady ?_ | split

theorem State.homeMoves_steady (h : Steady b t s) : Steady b t (State.homeMoves s) := by
  refine h.trans ?_
  unfold State.homeMoves
  with_reducible repeat' first
    | exact Steady.refl _ | refine State.homesOver_steady ?_ | refine State.moveLap_steady ?_ | refine State.moveGroup_steady ?_
    | refine Steady.forEach (fun x st => ?_) ?_

theorem State.markLost_steady (h : Steady b t s) : Steady b t (State.markLost s) := by
  refine h.trans ?_
  unfold State.markLost
  with_reducible repeat' first
    | exact Steady.refl _ | simp only [Steady.put] | refine State.abandonMove_steady ?_ | refine State.countNote_steady ?_
    | refine State.putPage_steady ?_ | refine Steady.forEach (fun x st => ?_) ?_ | split

theorem State.moveBadRead_steady {x0 x1 x2} (h : Steady b t s) : Steady b t (State.moveBadRead x0 x1 x2 s) := by
  unfold State.moveBadRead
  with_reducible repeat' first | exact h | refine State.abandonMove_steady ?_ | split

theorem State.moveFailed_steady {x0 x1 x2} (h : Steady b t s) : Steady b t (State.moveFailed x0 x1 x2 s) := by
  unfold State.moveFailed
  with_reducible repeat' first | exact h | refine State.bump_steady ?_ | refine State.abandonMove_steady ?_ | split

theorem State.updMove_steady {x0 x1} (h : Steady b t s) : Steady b t (State.updMove x0 x1 s) := Steady.put.mpr h

theorem State.moveWrites_steady {x0 x1} (h : Steady b t s) : Steady b t (State.moveWrites x0 x1 s) := by
  refine h.trans ?_
  unfold State.moveWrites
  with_reducible repeat' first
    | exact Steady.refl _ | simp only [Steady.put] | refine State.updMove_steady ?_ | refine State.hearthPut_steady ?_
    | refine State.clearBad_steady ?_ | refine State.memRequest_steady ?_ | refine State.pantryPut_steady ?_
    | refine State.pantryRequest_steady ?_ | refine State.request_steady ?_ | refine Steady.forEach (fun x st => ?_) ?_ | split

theorem State.moveOn_steady {x0} (h : Steady b t s) : Steady b t (State.moveOn x0 s) := by
  unfold State.moveOn
  with_reducible repeat' first | exact h | refine State.moveWrites_steady ?_ | split

theorem State.moveRead_steady {x0 x1 x2 x3 x4} (h : Steady b t s) : Steady b t (State.moveRead x0 x1 x2 x3 x4 s) := by
  unfold State.moveRead
  with_reducible repeat' first | exact h | simp only [Steady.put] | refine State.updMove_steady ?_ | refine State.moveOn_steady ?_ | split

theorem State.switchHome_steady {x0} (h : Steady b t s) : Steady b t (State.switchHome x0 s) := by
  unfold State.switchHome
  with_reducible repeat' first
    | exact h | simp only [Steady.put] | refine State.updHank_steady ?_ | refine State.putPage_steady ?_ | refine State.dropMove_steady ?_
    | refine State.bump_steady ?_ | split

theorem State.moveWritten_steady {x0 x1 x2} (h : Steady b t s) : Steady b t (State.moveWritten x0 x1 x2 s) := by
  unfold State.moveWritten
  with_reducible repeat' first
    | exact h | simp only [Steady.put] | refine State.updMove_steady ?_ | refine State.switchHome_steady ?_ | split

theorem State.placeOne_steady {x0} (h : Steady b t s) : Steady b t (State.placeOne x0 s) := by
  unfold State.placeOne
  with_reducible repeat' first
    | exact h | simp only [Steady.put] | refine State.countFull_steady ?_ | refine State.startMove_steady ?_
    | refine State.charge_steady ?_ | split

theorem State.moverPass_steady (h : Steady b t s) : Steady b t (State.moverPass s) := by
  refine h.trans ?_
  unfold State.moverPass
  with_reducible repeat' first
    | exact Steady.refl _ | refine State.demandOne_steady ?_ | refine State.homeMoves_steady ?_ | refine State.placeOne_steady ?_
    | refine State.promote_steady ?_ | refine Steady.forEach (fun x st => ?_) ?_ | split

theorem State.pageDiscard_steady {x0 x1} (h : Steady b t s) : Steady b t (State.pageDiscard x0 x1 s).1 := by
  unfold State.pageDiscard
  with_reducible repeat' first | exact h | simp only [Steady.put] | refine State.discardNow_steady ?_ | split

theorem State.pageGood_steady {x0 x1} (h : Steady b t s) : Steady b t (State.pageGood x0 x1 s) := by
  unfold State.pageGood
  with_reducible repeat' first | exact h | simp only [Steady.put] | refine State.clearBad_steady ?_ | split

theorem State.pageMerge_steady {x0 x1 x2 x3} (h : Steady b t s) : Steady b t (State.pageMerge x0 x1 x2 x3 s) := by
  unfold State.pageMerge
  with_reducible repeat' first | exact h | refine State.hearthBeat_steady ?_ | refine State.pantryBeat_steady ?_ | split

end Sys2Proof.Machine
end

section
/-! PROOFS. What the operations of Machine/Tiers.lean leave steady. -/

namespace Sys2Proof.Machine

variable {b : Bool} {t s : State}

theorem State.pageWrite_steady {x0 x1 x2} (h : Steady b t s) : Steady b t (State.pageWrite x0 x1 x2 s) := by
  unfold State.pageWrite
  with_reducible repeat' first | exact h | refine State.hearthWrite_steady ?_ | refine State.pantryWrite_steady ?_ | split

theorem State.queueDemand_steady {x0 x1 x2} (h : Steady b t s) : Steady b t (State.queueDemand x0 x1 x2 s) := by
  unfold State.queueDemand
  with_reducible repeat' first | exact h | simp only [Steady.put] | refine State.putPage_steady ?_ | split

theorem State.retryDiscards_steady (h : Steady b t s) : Steady b t (State.retryDiscards s) := by
  refine h.trans ?_
  unfold State.retryDiscards
  with_reducible repeat' first
    | exact Steady.refl _ | simp only [Steady.put] | refine State.discardNow_steady ?_ | refine State.answerDiscard_steady ?_
    | refine Steady.forEach (fun x st => ?_) ?_ | split

theorem State.retryMoves_steady (h : Steady b t s) : Steady b t (State.retryMoves s) := by
  refine h.trans ?_
  unfold State.retryMoves
  with_reducible repeat' first
    | exact Steady.refl _ | refine State.moveOn_steady ?_ | refine State.homeWrites_steady ?_ | refine Steady.forEach (fun x st => ?_) ?_

end Sys2Proof.Machine
end

section
/-! PROOFS. What the operations of Machine/Flags.lean leave steady. -/

namespace Sys2Proof.Machine

variable {b : Bool} {t s : State}

theorem State.chargeReel_steady {x0 x1} (h : Steady b t s) : Steady b t (State.chargeReel x0 x1 s) := by
  unfold State.chargeReel
  with_reducible repeat' first | exact h | simp only [Steady.put] | refine State.bump_steady ?_ | split

theorem State.listTile_steady {x0 x1} (h : Steady b t s) : Steady b t (State.listTile x0 x1 s) := by
  unfold State.listTile
  with_reducible repeat' first | exact h | simp only [Steady.put] | split

theorem State.listTiles_steady {x0 x1} (h : Steady b t s) : Steady b t (State.listTiles x0 x1 s) := by
  refine h.trans ?_
  unfold State.listTiles
  with_reducible repeat' first | exact Steady.refl _ | refine State.listTile_steady ?_ | refine Steady.forEach (fun x st => ?_) ?_

theorem State.findErrors_steady {x0 x1} (h : Steady b t s) : Steady b t (State.findErrors x0 x1 s) := by
  unfold State.findErrors
  with_reducible repeat' first | exact h | refine State.countNote_steady ?_ | refine State.listTiles_steady ?_ | split

theorem State.checkMask_steady {x0 x1} (h : Steady b t s) : Steady b t (State.checkMask x0 x1 s).1 := State.findErrors_steady h

theorem State.countUnlisted_steady {x0 x1} (h : Steady b t s) : Steady b t (State.countUnlisted x0 x1 s) := State.bump_steady h

theorem State.readMaskAt_steady {x0 x1 x2} (h : Steady b t s) : Steady b t (State.readMaskAt x0 x1 x2 s) := by
  refine h.trans ?_
  unfold State.readMaskAt
  with_reducible repeat' first
    | exact Steady.refl _ | simp only [Steady.put] | refine State.takeMem_steady ?_ | refine State.markMask_steady ?_
    | refine State.bump_steady ?_ | refine Steady.forEach (fun x st => ?_) ?_ | split

end Sys2Proof.Machine
end

section
/-! PROOFS. What the operations of Machine/Hall.lean leave steady. -/

namespace Sys2Proof.Machine

variable {b : Bool} {t s : State}

theorem State.outside_steady (h : Steady b t s) : Steady b t (State.outside s).1 := State.bump_steady h

theorem State.aliasAnswer_steady {x0 x1} (h : Steady b t s) : Steady b t (State.aliasAnswer x0 x1 s).1 := by
  unfold State.aliasAnswer
  with_reducible repeat' first
    | exact h | simp only [Steady.put] | refine State.outside_steady ?_ | refine State.addRepair_steady ?_ | refine State.bump_steady ?_
    | refine State.findErrors_steady ?_ | split

theorem State.askMaps_steady {x0 x1} (h : Steady b t s) : Steady b t (State.askMaps x0 x1 s) := by
  refine h.trans ?_
  unfold State.askMaps
  with_reducible repeat' first | exact Steady.refl _ | refine State.askMap_steady ?_ | refine Steady.forEach (fun x st => ?_) ?_ | split

theorem State.askRead_steady {x0 x1 x2} (h : Steady b t s) : Steady b t (State.askRead x0 x1 x2 s) := by
  unfold State.askRead
  with_reducible repeat' first
    | exact h | simp only [Steady.put] | refine State.askMaps_steady ?_ | refine State.takeMem_steady ?_ | refine State.takeLines_steady ?_
    | refine State.readMaskAt_steady ?_ | split

theorem State.cellarBeat_steady {x0 x1 x2} (h : Steady b t s) : Steady b t (State.cellarBeat x0 x1 x2 s).1 := by
  unfold State.cellarBeat
  with_reducible repeat' first
    | exact h | simp only [Steady.put] | refine State.queueDemand_steady ?_ | refine State.bump_steady ?_ | split

theorem State.chargeBeat_steady {x0 x1 x2} (h : Steady b t s) : Steady b t (State.chargeBeat x0 x1 x2 s) := by
  unfold State.chargeBeat
  with_reducible repeat' first | exact h | refine State.chargeReel_steady ?_ | split

theorem State.chargeWindow_steady {x0 x1} (h : Steady b t s) : Steady b t (State.chargeWindow x0 x1 s) := by
  unfold State.chargeWindow
  with_reducible repeat' first | exact h | simp only [Steady.put] | refine State.bump_steady ?_ | split

theorem State.countLate_steady {x0} (h : Steady b t s) : Steady b t (State.countLate x0 s) := by
  unfold State.countLate
  with_reducible repeat' first | exact h | refine State.bump_steady ?_ | split

theorem State.pageBeat_steady {x0 x1} (h : Steady b t s) : Steady b t (State.pageBeat x0 x1 s).1 := by
  unfold State.pageBeat
  with_reducible repeat' first
    | exact h | simp only [Steady.put] | refine State.cellarBeat_steady ?_ | refine State.bump_steady ?_
    | refine State.chargeReel_steady ?_ | refine State.heatPage_steady ?_ | split

theorem State.dataBeat_steady {x0 x1} (h : Steady b t s) : Steady b t (State.dataBeat x0 x1 s).1 := by
  unfold State.dataBeat
  with_reducible repeat' first
    | exact h | refine State.outside_steady ?_ | refine State.pageBeat_steady ?_ | refine State.bump_steady ?_
    | refine State.chargeReel_steady ?_ | split

theorem State.respond_steady {x0 x1} (h : Steady b t s) : Steady b t (State.respond x0 x1 s) := by
  refine h.trans ?_
  unfold State.respond
  with_reducible repeat' first | exact Steady.refl _ | refine State.emit_steady ?_ | refine Steady.forEach (fun x st => ?_) ?_

theorem State.respondAll_steady {x0 x1} (h : Steady b t s) : Steady b t (State.respondAll x0 x1 s) := State.respond_steady h

theorem State.dropHallRead_steady {x0} (h : Steady b t s) : Steady b t (State.dropHallRead x0 s) := Steady.put.mpr h

theorem State.runBeats_steady {x0 x1} (hf : ∀ {i t s}, Steady b t s → Steady b t (x0 i s).1) (h : Steady b t s) :
    Steady b t (State.runBeats x0 x1 s).1 := by
  unfold State.runBeats
  exact Steady.foldl_fst (fun acc x => hf (Steady.refl _)) h

theorem State.finishAlias_steady {x0 x1 x2} (h : Steady b t s) : Steady b t (State.finishAlias x0 x1 x2 s) := by
  refine h.trans ?_
  clear h
  unfold State.finishAlias
  with_reducible repeat' first
    | exact Steady.refl _ | assumption | refine State.runBeats_steady (fun hk => ?_) ?_ | refine State.aliasAnswer_steady ?_
    | refine State.dropHallRead_steady ?_ | refine State.countUnlisted_steady ?_ | refine State.respond_steady ?_ | split

theorem State.goAlias_steady {x0} (h : Steady b t s) : Steady b t (State.goAlias x0 s) := by
  unfold State.goAlias
  with_reducible repeat' first
    | exact h | refine State.respondAll_steady ?_ | refine State.dropHallRead_steady ?_ | refine State.finishAlias_steady ?_
    | refine State.bump_steady ?_ | split

theorem State.gotHall_steady {x0 x1} (h : Steady b t s) : Steady b t (State.gotHall x0 x1 s) := by
  refine h.trans ?_
  unfold State.gotHall
  with_reducible repeat' first
    | exact Steady.refl _ | simp only [Steady.put] | refine State.goAlias_steady ?_ | refine Steady.forEach (fun x st => ?_) ?_

theorem State.hallDecoded_steady {x0} (h : Steady b t s) : Steady b t (State.hallDecoded x0 s) := by
  unfold State.hallDecoded
  with_reducible repeat' first
    | exact h | simp only [Steady.put] | refine State.gotHall_steady ?_ | refine State.startDecode_steady ?_ | split

theorem State.decodeForHall_steady {x0 x1 x2 x3} (h : Steady b t s) : Steady b t (State.decodeForHall x0 x1 x2 x3 s) :=
  State.hallDecoded_steady (State.startDecode_steady h)

theorem State.gatherTile_steady {x0 x1} (h : Steady b t s) : Steady b t (State.gatherTile x0 x1 s) := by
  refine h.trans ?_
  unfold State.gatherTile
  with_reducible repeat' first
    | exact Steady.refl _ | refine State.chargeBeat_steady ?_ | refine State.findErrors_steady ?_
    | refine Steady.forEach (fun x st => ?_) ?_

theorem State.grantAll_steady {x0 x1} (h : Steady b t s) : Steady b t (State.grantAll x0 x1 s).1 := by
  refine h.trans ?_
  unfold State.grantAll
  with_reducible repeat' first
    | exact Steady.refl _ | refine State.grantCopy_steady ?_ | refine Steady.foldl_fst (fun acc x => ?_) ?_ | split

theorem State.refuseHall_steady {x0 x1} (h : Steady b t s) : Steady b t (State.refuseHall x0 x1 s) := by
  unfold State.refuseHall
  with_reducible repeat' first | exact h | refine State.bump_steady ?_ | refine State.respondAll_steady ?_ | split

theorem State.windowBeat_steady {x0 x1 x2 x3 x4 x5} (h : Steady b t s) : Steady b t (State.windowBeat x0 x1 x2 x3 x4 x5 s).1 := by
  unfold State.windowBeat
  with_reducible repeat' first
    | exact h | refine State.outside_steady ?_ | refine State.bump_steady ?_ | refine State.chargeWindow_steady ?_ | split

theorem State.serveWindow_steady {x0 x1 x2 x3} (h : Steady b t s) : Steady b t (State.serveWindow x0 x1 x2 x3 s) := by
  refine h.trans ?_
  clear h
  unfold State.serveWindow
  with_reducible repeat' first
    | exact Steady.refl _ | assumption | refine State.runBeats_steady (fun hk => ?_) ?_ | refine State.windowBeat_steady ?_
    | refine State.respond_steady ?_

theorem State.holdHall_steady {x0 x1 x2 x3} (h : Steady b t s) : Steady b t (State.holdHall x0 x1 x2 x3 s) := Steady.put.mpr h

theorem State.readWindow_steady {x0} (h : Steady b t s) : Steady b t (State.readWindow x0 s) := by
  unfold State.readWindow
  with_reducible repeat' first | exact h | refine State.serveWindow_steady ?_ | refine State.holdHall_steady ?_ | split

theorem State.landBeat_steady {x0 x1} (h : Steady b t s) : Steady b t (State.landBeat x0 x1 s).1 := by
  unfold State.landBeat
  with_reducible repeat' first | exact h | refine State.outside_steady ?_ | refine State.chargeReel_steady ?_ | split

theorem State.maskBeat_steady {x0 x1} (h : Steady b t s) : Steady b t (State.maskBeat x0 x1 s).1 := by
  unfold State.maskBeat
  with_reducible repeat' first | exact h | refine State.outside_steady ?_ | refine State.chargeReel_steady ?_ | split

theorem State.retryStripe_steady {x0 x1} (h : Steady b t s) : Steady b t (State.retryStripe x0 x1 s).1 :=
  State.addRepair_steady (State.bump_steady h)

theorem State.hurtBeat_steady {x0 x1 x2} {x : State × Beat} (e : State.hurtBeat x0 x1 x2 s = some x) (h : Steady b t s) :
    Steady b t x.1 := by
  refine h.trans ?_
  clear h
  unfold State.hurtBeat at e
  split at e
  · split at e
    · split at e
      · cases e
        exact State.retryStripe_steady (Steady.refl _)
      · exact absurd e (by simp)
    · split at e
      · cases e
        exact State.bump_steady (Steady.refl _)
      · exact absurd e (by simp)
  · split at e
    · cases e
      exact Steady.refl _
    · split at e
      · cases e
        exact State.bump_steady (Steady.refl _)
      · exact absurd e (by simp)

theorem State.transBeat_steady {x0 x1 x2} (h : Steady b t s) : Steady b t (State.transBeat x0 x1 x2 s).1 := by
  unfold State.transBeat
  with_reducible repeat' first
    | exact h | simp only [Steady.put] | refine State.outside_steady ?_ | refine State.hurtBeat_steady (by assumption) ?_ | split

theorem State.plainBeat_steady {x0 x1 x2} (h : Steady b t s) : Steady b t (State.plainBeat x0 x1 x2 s).1 := by
  unfold State.plainBeat
  with_reducible repeat' first
    | exact h | simp only [Steady.put] | refine State.outside_steady ?_ | refine State.chargeBeat_steady ?_
    | refine State.checkMask_steady ?_ | refine State.hurtBeat_steady (by assumption) ?_ | split

theorem State.scaleBeat_steady {x0 x1} (h : Steady b t s) : Steady b t (State.scaleBeat x0 x1 s).1 := by
  unfold State.scaleBeat
  with_reducible repeat' first
    | exact h | refine State.outside_steady ?_ | refine State.bump_steady ?_ | refine State.chargeReel_steady ?_ | split

theorem State.readBeat_steady {x0 x1 x2} (h : Steady b t s) : Steady b t (State.readBeat x0 x1 x2 s).1 := by
  unfold State.readBeat
  with_reducible repeat' first
    | exact h | refine State.landBeat_steady ?_ | refine State.maskBeat_steady ?_ | refine State.transBeat_steady ?_
    | refine State.plainBeat_steady ?_ | refine State.scaleBeat_steady ?_ | refine State.dataBeat_steady ?_ | split

theorem State.serveRead_steady {x0 x1} (h : Steady b t s) : Steady b t (State.serveRead x0 x1 s) := by
  refine h.trans ?_
  clear h
  unfold State.serveRead
  with_reducible repeat' first
    | exact Steady.refl _ | assumption | refine State.gatherTile_steady ?_ | refine State.runBeats_steady (fun hk => ?_) ?_
    | refine State.readBeat_steady ?_ | refine State.respond_steady ?_ | refine State.countUnlisted_steady ?_
    | refine Steady.forEach (fun x st => ?_) ?_ | split

theorem State.readOrHold_steady {x0 x1} (h : Steady b t s) : Steady b t (State.readOrHold x0 x1 s) := by
  unfold State.readOrHold
  with_reducible repeat' first
    | exact h | simp only [Steady.put] | refine State.grantAll_steady ?_ | refine State.serveRead_steady ?_
    | refine State.holdHall_steady ?_ | split

theorem State.readAlias_steady {x0 x1 x2} (h : Steady b t s) : Steady b t (State.readAlias x0 x1 x2 s) := by
  refine h.trans ?_
  unfold State.readAlias
  with_reducible repeat' first
    | exact Steady.refl _ | simp only [Steady.put] | refine State.respondAll_steady ?_ | refine State.takeMem_steady ?_
    | refine State.decodeForHall_steady ?_ | refine State.goAlias_steady ?_ | refine Steady.forEach (fun x st => ?_) ?_ | split

theorem State.hallRead_steady {x0 x1} (h : Steady b t s) : Steady b t (State.hallRead x0 x1 s) := by
  unfold State.hallRead
  with_reducible repeat' first
    | exact h | simp only [Steady.put] | refine State.refuseHall_steady ?_ | refine State.respondAll_steady ?_
    | refine State.readWindow_steady ?_ | refine State.countLate_steady ?_ | refine State.askRead_steady ?_
    | refine State.readOrHold_steady ?_ | refine State.readAlias_steady ?_ | split

theorem State.restartAlias_steady (h : Steady b t s) : Steady b t (State.restartAlias s) := by
  refine h.trans ?_
  unfold State.restartAlias
  with_reducible repeat' first
    | exact Steady.refl _ | refine State.decodeForHall_steady ?_ | refine Steady.forEach (fun x st => ?_) ?_ | split

end Sys2Proof.Machine
end

section
/-! PROOFS. What the operations of Machine/Porch.lean leave steady. -/

namespace Sys2Proof.Machine

variable {b : Bool} {t s : State}

theorem State.answerAtomic_steady {x0 x1 x2} (h : Steady b t s) : Steady b t (State.answerAtomic x0 x1 x2 s) := by
  unfold State.answerAtomic
  with_reducible repeat' first
    | exact h | refine State.respond_steady ?_ | refine State.respondAll_steady ?_ | refine State.bump_steady ?_ | split

theorem State.askShared_steady {x0 x1} (h : Steady b t s) : Steady b t (State.askShared x0 x1 s) := by
  unfold State.askShared
  with_reducible repeat' first | exact h | refine State.askPage_steady ?_ | refine State.takeMem_steady ?_ | split

theorem State.atomicReply_steady {x0 x1} (h : Steady b t s) : Steady b t (State.atomicReply x0 x1 s) := by
  unfold State.atomicReply
  with_reducible repeat' first | exact h | refine State.reply_steady ?_ | refine State.spendFree_steady ?_ | split

theorem State.unmark_steady {x0 x1 x2} (h : Steady b t s) : Steady b t (State.unmark x0 x1 x2 s) :=
  State.unqueue_steady (State.putPage_steady h)

theorem State.pageWay_steady {x0 x1 x2} (h : Steady b t s) : Steady b t (State.pageWay x0 x1 x2 s).1 := by
  unfold State.pageWay
  with_reducible repeat' first
    | exact h | simp only [Steady.put] | refine State.allocate_steady ?_ | refine State.unmark_steady ?_
    | refine State.queueDemand_steady ?_ | split

theorem State.pagesWay_steady {x0 x1} (h : Steady b t s) : Steady b t (State.pagesWay x0 x1 s).1 := by
  refine h.trans ?_
  unfold State.pagesWay
  with_reducible repeat' first
    | exact Steady.refl _ | refine State.pageWay_steady ?_ | refine Steady.foldl_fst (fun acc x => ?_) ?_ | split

theorem State.sharedWrite_steady {x0 x1 x2} (h : Steady b t s) : Steady b t (State.sharedWrite x0 x1 x2 s) := by
  unfold State.sharedWrite
  with_reducible repeat' first | exact h | refine State.pageWrite_steady ?_ | refine State.spanWrite_steady ?_ | split

theorem State.execAtomic_steady {x0 x1} (h : Steady b t s) : Steady b t (State.execAtomic x0 x1 s).1 := by
  unfold State.execAtomic
  with_reducible repeat' first
    | exact h | simp only [Steady.put] | refine State.sharedWrite_steady ?_ | refine State.heatPage_steady ?_ | refine State.bump_steady ?_
    | split

theorem State.runAtomic_steady {x0 x1 x2} (h : Steady b t s) : Steady b t (State.runAtomic x0 x1 x2 s).1 := by
  unfold State.runAtomic
  with_reducible repeat' first
    | exact h | simp only [Steady.put] | refine State.pagesWay_steady ?_ | refine State.bump_steady ?_ | refine State.attemptOver_steady ?_
    | refine State.invalidate_steady ?_ | refine State.askShared_steady ?_ | refine State.execAtomic_steady ?_ | split

theorem State.fabricAtomic_steady {x0} (h : Steady b t s) : Steady b t (State.fabricAtomic x0 s) := by
  unfold State.fabricAtomic
  with_reducible repeat' first
    | exact h | simp only [Steady.put] | refine State.atomicReply_steady ?_ | refine State.bump_steady ?_
    | refine State.runAtomic_steady ?_ | split

theorem State.atomicPass_steady (h : Steady b t s) : Steady b t (State.atomicPass s) := by
  refine h.trans ?_
  unfold State.atomicPass
  with_reducible repeat' first
    | exact Steady.refl _ | simp only [Steady.put] | refine State.fabricAtomic_steady ?_ | refine Steady.forEach (fun x st => ?_) ?_
    | split

theorem State.attemptsOver_steady {x0 x1} (h : Steady b t s) : Steady b t (State.attemptsOver x0 x1 s) := by
  refine h.trans ?_
  unfold State.attemptsOver
  with_reducible repeat' first
    | exact Steady.refl _ | refine State.attemptOver_steady ?_ | refine Steady.forEach (fun x st => ?_) ?_ | split

theorem State.countBank_steady {x0} (h : Steady b t s) : Steady b t (State.countBank x0 s) := by
  unfold State.countBank
  with_reducible repeat' first | exact h | refine State.bump_steady ?_ | split

theorem State.refuseWriteBeats_steady {x0 x1} (h : Steady b t s) : Steady b t (State.refuseWriteBeats x0 x1 s) := by
  unfold State.refuseWriteBeats
  with_reducible repeat' first | exact h | refine State.bump_steady ?_ | refine State.respondAll_steady ?_

theorem State.writeSlotHeader_steady {x0 x1 x2 x3} (h : Steady b t s) : Steady b t (State.writeSlotHeader x0 x1 x2 x3 s).1 := by
  unfold State.writeSlotHeader
  with_reducible repeat' first
    | exact h | simp only [Steady.put] | refine State.putHeader_steady ?_ | refine State.countBank_steady ?_ | refine State.bump_steady ?_
    | split

theorem State.writeRegion_steady {x0 x1 x2 x3 x4} (h : Steady b t s) : Steady b t (State.writeRegion x0 x1 x2 x3 x4 s) := by
  unfold State.writeRegion
  with_reducible repeat' first
    | exact h | simp only [Steady.put] | refine State.pantryBeat_steady ?_ | refine State.hearthBeat_steady ?_
    | refine State.clearBad_steady ?_ | split

theorem State.writeSlot_steady {x0 x1 x2 x3} (h : Steady b t s) : Steady b t (State.writeSlot x0 x1 x2 x3 s).1 := by
  unfold State.writeSlot
  with_reducible repeat' first
    | exact h | refine State.writeSlotHeader_steady ?_ | refine State.writeRegion_steady ?_ | refine State.countBank_steady ?_ | split

theorem State.headerWords_steady {x0 x1 x2 x3} (h : Steady b t s) : Steady b t (State.headerWords x0 x1 x2 x3 s) := by
  refine h.trans ?_
  unfold State.headerWords
  with_reducible repeat' first
    | exact Steady.refl _ | refine State.mergeAt_steady ?_ | refine State.setLostBytes_steady ?_ | refine State.bump_steady ?_
    | refine Steady.forEach (fun x st => ?_) ?_ | split

theorem State.writeOutbox_steady {x0 x1 x2} (h : Steady b t s) : Steady b t (State.writeOutbox x0 x1 x2 s).1 := by
  unfold State.writeOutbox
  with_reducible repeat' first
    | exact h | refine State.putHeader_steady ?_ | refine State.headerWords_steady ?_ | refine State.writeRegion_steady ?_ | split

theorem State.writeMaskBeat_steady {x0 x1 x2} (h : Steady b t s) : Steady b t (State.writeMaskBeat x0 x1 x2 s) := by
  unfold State.writeMaskBeat
  with_reducible repeat' first | exact h | refine State.writeRegion_steady ?_ | refine State.updHank_steady ?_

theorem State.writePage_steady {x0 x1 x2} (h : Steady b t s) : Steady b t (State.writePage x0 x1 x2 s).1 := by
  unfold State.writePage
  with_reducible repeat' first
    | exact h | simp only [Steady.put] | refine State.cellarBeat_steady ?_ | refine State.pageMerge_steady ?_
    | refine State.pageGood_steady ?_ | refine State.heatPage_steady ?_ | split

theorem State.writeBeat_steady {x0 x1 x2 x3} (h : Steady b t s) : Steady b t (State.writeBeat x0 x1 x2 x3 s).1 := by
  unfold State.writeBeat
  with_reducible repeat' first
    | exact h | refine State.outside_steady ?_ | refine State.writeSlot_steady ?_ | refine State.writeOutbox_steady ?_
    | refine State.writeMaskBeat_steady ?_ | refine State.writeRegion_steady ?_ | refine State.writePage_steady ?_ | split

theorem State.doWrite_steady {x0 x1 x2} (h : Steady b t s) : Steady b t (State.doWrite x0 x1 x2 s) := by
  refine h.trans ?_
  clear h
  unfold State.doWrite
  with_reducible repeat' first
    | exact Steady.refl _ | assumption | simp only [Steady.put] | refine State.attemptsOver_steady ?_
    | refine State.refuseWriteBeats_steady ?_ | refine State.restoredWrite_steady ?_ | refine State.runBeats_steady (fun hk => ?_) ?_
    | refine State.writeBeat_steady ?_ | refine State.respond_steady ?_ | refine State.landingPass_steady ?_ | split

theorem State.refuseAtomic_steady {x0} (h : Steady b t s) : Steady b t (State.refuseAtomic x0 s) := by
  unfold State.refuseAtomic
  with_reducible repeat' first | exact h | refine State.respondAll_steady ?_ | refine State.bump_steady ?_

theorem State.tryAtomic_steady {x0 x1 x2} (h : Steady b t s) : Steady b t (State.tryAtomic x0 x1 x2 s).1 := by
  unfold State.tryAtomic
  with_reducible repeat' first
    | exact h | simp only [Steady.put] | refine State.refuseAtomic_steady ?_ | refine State.respondAll_steady ?_
    | refine State.bump_steady ?_ | refine State.runAtomic_steady ?_ | refine State.answerAtomic_steady ?_ | split

theorem State.hallAtomic_steady {x0 x1} (h : Steady b t s) : Steady b t (State.hallAtomic x0 x1 s) := by
  unfold State.hallAtomic
  with_reducible repeat' first
    | exact h | simp only [Steady.put] | refine State.refuseAtomic_steady ?_ | refine State.respondAll_steady ?_
    | refine State.askMap_steady ?_ | refine State.tryAtomic_steady ?_ | refine State.holdHall_steady ?_ | split

theorem State.tryWrite_steady {x0 x1 x2} (h : Steady b t s) : Steady b t (State.tryWrite x0 x1 x2 s).1 := by
  unfold State.tryWrite
  with_reducible repeat' first
    | exact h | simp only [Steady.put] | refine State.pagesWay_steady ?_ | refine State.doWrite_steady ?_
    | refine State.invalidate_steady ?_ | split

theorem State.hallWrite_steady {x0 x1} (h : Steady b t s) : Steady b t (State.hallWrite x0 x1 s) := by
  unfold State.hallWrite
  with_reducible repeat' first
    | exact h | simp only [Steady.put] | refine State.refuseHall_steady ?_ | refine State.respondAll_steady ?_
    | refine State.tryWrite_steady ?_ | refine State.askMaps_steady ?_ | refine State.holdHall_steady ?_ | split

theorem State.stopHeld_steady {x0 x1 x2} (h : Steady b t s) : Steady b t (State.stopHeld x0 x1 x2 s) := by
  unfold State.stopHeld
  with_reducible repeat' first | exact h | refine State.refuseHall_steady ?_ | refine State.respondAll_steady ?_ | split

theorem State.retryHeld_steady {x0} (h : Steady b t s) : Steady b t (State.retryHeld x0 s).1 := by
  unfold State.retryHeld
  with_reducible repeat' first
    | exact h | simp only [Steady.put] | refine State.respondAll_steady ?_ | refine State.refuseHall_steady ?_
    | refine State.refuseAtomic_steady ?_ | refine State.stopHeld_steady ?_ | refine State.serveWindow_steady ?_
    | refine State.grantAll_steady ?_ | refine State.serveRead_steady ?_ | refine State.tryWrite_steady ?_
    | refine State.tryAtomic_steady ?_ | split

theorem State.heldPass_steady (h : Steady b t s) : Steady b t (State.heldPass s) := by
  refine h.trans ?_
  unfold State.heldPass
  with_reducible repeat' first
    | exact Steady.refl _ | simp only [Steady.put] | refine State.retryHeld_steady ?_ | refine Steady.forEach (fun x st => ?_) ?_ | split

theorem State.takeHall_steady {x0 x1 x2} (hx2 : ∀ {t s}, Steady b t s → Steady b t (x2 s)) (h : Steady b t s) :
    Steady b t (State.takeHall x0 x1 x2 s) := by
  unfold State.takeHall
  with_reducible repeat' first | exact h | refine State.holdHall_steady ?_ | refine State.bump_steady ?_ | refine hx2 ?_ | split

theorem State.portAtomic_steady {x0 x1} (h : Steady b t s) : Steady b t (State.portAtomic x0 x1 s) := by
  refine h.trans ?_
  clear h
  unfold State.portAtomic
  with_reducible repeat' first
    | exact Steady.refl _ | assumption | refine State.takeHall_steady (fun hk => ?_) ?_ | refine State.hallAtomic_steady ?_

theorem State.portOther_steady {x0} (h : Steady b t s) : Steady b t (State.portOther x0 s) := by
  refine h.trans ?_
  clear h
  unfold State.portOther
  with_reducible repeat' first
    | exact Steady.refl _ | assumption | refine State.takeHall_steady (fun hk => ?_) ?_ | refine State.respondAll_steady ?_
    | refine State.refuseHall_steady ?_ | split

theorem State.portRead_steady {x0 x1} (h : Steady b t s) : Steady b t (State.portRead x0 x1 s) := by
  refine h.trans ?_
  clear h
  unfold State.portRead
  with_reducible repeat' first
    | exact Steady.refl _ | assumption | refine State.takeHall_steady (fun hk => ?_) ?_ | refine State.hallRead_steady ?_

theorem State.portWindow_steady {x0 x1} (h : Steady b t s) : Steady b t (State.portWindow x0 x1 s) := by
  refine h.trans ?_
  clear h
  unfold State.portWindow
  with_reducible repeat' first
    | exact Steady.refl _ | assumption | refine State.takeHall_steady (fun hk => ?_) ?_ | refine State.bump_steady ?_
    | refine State.hallRead_steady ?_ | split

theorem State.portWrite_steady {x0 x1} (h : Steady b t s) : Steady b t (State.portWrite x0 x1 s) := by
  refine h.trans ?_
  clear h
  unfold State.portWrite
  with_reducible repeat' first
    | exact Steady.refl _ | assumption | refine State.takeHall_steady (fun hk => ?_) ?_ | refine State.hallWrite_steady ?_

end Sys2Proof.Machine
end

section
/-! PROOFS. What the operations of Machine/Offload.lean leave steady. -/

namespace Sys2Proof.Machine

variable {b : Bool} {t s : State}

theorem State.offAsk_steady {x0 x1 x2} (h : Steady b t s) : Steady b t (State.offAsk x0 x1 x2 s) := by
  unfold State.offAsk
  with_reducible repeat' first
    | exact h | refine State.askMap_steady ?_ | refine State.askPage_steady ?_ | refine State.takeMem_steady ?_ | split

theorem State.offFetch_steady {x0 x1} (h : Steady b t s) : Steady b t (State.offFetch x0 x1 s) := by
  unfold State.offFetch
  with_reducible repeat' first | exact h | refine State.queueDemand_steady ?_ | split

theorem State.headerFree_steady {x0 x1} (h : Steady b t s) : Steady b t (State.headerFree x0 x1 s).1 := by
  unfold State.headerFree
  with_reducible repeat' first | exact h | simp only [Steady.put] | refine State.invalidate_steady ?_ | split

theorem State.offWrite_steady {x0 x1 x2} (h : Steady b t s) : Steady b t (State.offWrite x0 x1 x2 s) := by
  refine h.trans ?_
  unfold State.offWrite
  with_reducible repeat' first
    | exact Steady.refl _ | refine State.pageWrite_steady ?_ | refine State.pageGood_steady ?_ | refine State.spanWrite_steady ?_
    | refine State.clearBad_steady ?_ | refine Steady.forEach (fun x st => ?_) ?_ | split

theorem State.putJobState_steady {x0 x1 x2 x3} (h : Steady b t s) : Steady b t (State.putJobState x0 x1 x2 x3 s) := by
  unfold State.putJobState
  with_reducible repeat' first | exact h | refine State.offWrite_steady ?_ | split

theorem State.enterJob_steady {x0 x1 x2 x3} (h : Steady b t s) : Steady b t (State.enterJob x0 x1 x2 x3 s) := Steady.put.mpr h

theorem State.refuseJob_steady {x0 x1 x2} (h : Steady b t s) : Steady b t (State.refuseJob x0 x1 x2 s) := by
  unfold State.refuseJob
  with_reducible repeat' first
    | exact h | simp only [Steady.put] | refine State.headerFree_steady ?_ | refine State.bump_steady ?_
    | refine State.putJobState_steady ?_ | refine State.enterJob_steady ?_ | split

theorem State.takeJob_steady {x0 x1 x2} (h : Steady b t s) : Steady b t (State.takeJob x0 x1 x2 s) := by
  unfold State.takeJob
  with_reducible repeat' first
    | exact h | simp only [Steady.put] | refine State.headerFree_steady ?_ | refine State.enterJob_steady ?_
    | refine State.putJobState_steady ?_ | split

theorem State.acceptJob_steady {x0 x1} {x : State × Bool} (h : Steady b t x.1) : Steady b t (State.acceptJob x0 x1 x).1 := by
  unfold State.acceptJob
  with_reducible repeat' first
    | exact h | simp only [Steady.put] | refine State.offAsk_steady ?_ | refine State.offFetch_steady ?_ | refine State.refuseJob_steady ?_
    | refine State.takeJob_steady ?_ | split

theorem State.takeSlots_steady {x0} (h : Steady b t s) : Steady b t (State.takeSlots x0 s) := by
  unfold State.takeSlots
  with_reducible repeat' first
    | exact h | simp only [Steady.put] | refine State.offFetch_steady ?_ | refine State.offAsk_steady ?_ | refine State.updHank_steady ?_
    | split

theorem State.acceptJobs_steady (h : Steady b t s) : Steady b t (State.acceptJobs s) := by
  refine h.trans ?_
  unfold State.acceptJobs
  with_reducible repeat' first
    | exact Steady.refl _ | simp only [Steady.put] | refine State.takeSlots_steady ?_ | refine State.acceptJob_steady ?_
    | refine Steady.forEach (fun x st => ?_) ?_ | refine Steady.foldl_fst (fun acc x => ?_) ?_ | split

theorem State.askCellar_steady {x0 x1 x2 x3} (h : Steady b t s) : Steady b t (State.askCellar x0 x1 x2 x3 s) := State.request_steady h

end Sys2Proof.Machine
end

section
/-! PROOFS. What the operations of Machine/Offload.lean leave steady. -/

namespace Sys2Proof.Machine

variable {b : Bool} {t s : State}

theorem State.dropJob_steady {x0 x1} (h : Steady b t s) : Steady b t (State.dropJob x0 x1 s) := Steady.put.mpr (State.dropReqs_steady h)

theorem State.updJob_steady {x0 x1 x2} (h : Steady b t s) : Steady b t (State.updJob x0 x1 x2 s) := Steady.put.mpr h

theorem State.spoilTargets_steady {x0 x1} (h : Steady b t s) : Steady b t (State.spoilTargets x0 x1 s) := by
  refine h.trans ?_
  unfold State.spoilTargets
  with_reducible repeat' first
    | exact Steady.refl _ | refine State.spendFree_steady ?_ | refine State.offWrite_steady ?_ | refine Steady.forEach (fun x st => ?_) ?_
    | split

theorem State.closeJob_steady {x0 x1} (h : Steady b t s) : Steady b t (State.closeJob x0 x1 s) := by
  unfold State.closeJob
  with_reducible repeat' first
    | exact h | simp only [Steady.put] | refine State.offFetch_steady ?_ | refine State.invalidate_steady ?_
    | refine State.dropJob_steady ?_ | refine State.bump_steady ?_ | refine State.putJobState_steady ?_ | refine State.updJob_steady ?_
    | refine State.spoilTargets_steady ?_ | refine State.offWrite_steady ?_ | split

theorem State.stopJob_steady {x0 x1} (h : Steady b t s) : Steady b t (State.stopJob x0 x1 s) :=
  State.closeJob_steady (State.updJob_steady (State.dropReqs_steady h))

theorem State.putCellar_steady {x0 x1 x2 x3} (h : Steady b t s) : Steady b t (State.putCellar x0 x1 x2 x3 s) := State.request_steady h

theorem State.putTargets_steady {x0 x1 x2} (h : Steady b t s) : Steady b t (State.putTargets x0 x1 x2 s) := by
  refine h.trans ?_
  unfold State.putTargets
  with_reducible repeat' first
    | exact Steady.refl _ | simp only [Steady.put] | refine State.offWrite_steady ?_ | refine State.updJob_steady ?_
    | refine State.putCellar_steady ?_ | refine State.closeJob_steady ?_ | refine Steady.forEach (fun x st => ?_) ?_ | split

theorem State.runJob_steady {x0 x1 x2} (h : Steady b t s) : Steady b t (State.runJob x0 x1 x2 s) := by
  unfold State.runJob
  with_reducible repeat' first
    | exact h | simp only [Steady.put] | refine State.pagesWay_steady ?_ | refine State.invalidate_steady ?_
    | refine State.closeJob_steady ?_ | refine State.updJob_steady ?_ | refine State.bump_steady ?_ | refine State.putTwist_steady ?_
    | refine State.putTargets_steady ?_ | split

theorem State.jobComplete_steady {x0 x1} (h : Steady b t s) : Steady b t (State.jobComplete x0 x1 s) := by
  refine h.trans ?_
  unfold State.jobComplete
  with_reducible repeat' first
    | exact Steady.refl _ | simp only [Steady.put] | refine State.closeJob_steady ?_ | refine State.offFetch_steady ?_
    | refine State.stopJob_steady ?_ | refine State.updJob_steady ?_ | refine State.askCellar_steady ?_ | refine State.offAsk_steady ?_
    | refine State.runJob_steady ?_ | refine Steady.forEach (fun x st => ?_) ?_ | split

theorem State.jobData_steady {x0 x1 x2 x3} (h : Steady b t s) : Steady b t (State.jobData x0 x1 x2 x3 s) := by
  unfold State.jobData
  with_reducible repeat' first | exact h | refine State.stopJob_steady ?_ | refine State.updJob_steady ?_ | split

theorem State.jobPass_steady (h : Steady b t s) : Steady b t (State.jobPass s) := by
  refine h.trans ?_
  unfold State.jobPass
  with_reducible repeat' first | exact Steady.refl _ | refine State.closeJob_steady ?_ | refine Steady.forEach (fun x st => ?_) ?_ | split

theorem State.jobWritten_steady {x0 x1 x2 x3} (h : Steady b t s) : Steady b t (State.jobWritten x0 x1 x2 x3 s) := by
  unfold State.jobWritten
  with_reducible repeat' first | exact h | simp only [Steady.put] | refine State.closeJob_steady ?_ | refine State.updJob_steady ?_ | split

end Sys2Proof.Machine
end

section
/-! PROOFS. What the operations of Machine/Structure.lean leave steady. -/

namespace Sys2Proof.Machine

variable {b : Bool} {t s : State}

theorem State.under_steady {x1} (h : Steady b t s) : Steady b t (State.under s x1) := Steady.put.mpr h

end Sys2Proof.Machine
end

section
/-! PROOFS. What the operations of Machine/Admission.lean leave steady. -/

namespace Sys2Proof.Machine

variable {b : Bool} {t s : State}

theorem State.contextApplies_steady (h : Steady b t s) : Steady b t (State.contextApplies s) := by
  unfold State.contextApplies
  with_reducible repeat' first | exact h | simp only [Steady.put] | split

theorem State.setAdm_steady {x0} (h : Steady b t s) : Steady b t (State.setAdm x0 s) := Steady.put.mpr h

theorem State.contextEpoch_steady (h : Steady b t s) : Steady b t (State.contextEpoch s) := by
  unfold State.contextEpoch
  with_reducible repeat' first | exact h | simp only [Steady.put] | refine State.setAdm_steady ?_ | split

theorem State.writeRefusal_steady {x0} (h : Steady b t s) : Steady b t (State.writeRefusal x0 s) :=
  State.spendFree_steady (State.setAdm_steady h)

theorem State.refuseContext_steady {x0 x1 x2} (h : Steady b t s) : Steady b t (State.refuseContext x0 x1 x2 s) := by
  unfold State.refuseContext
  with_reducible repeat' first
    | exact h | refine State.writeRefusal_steady ?_ | refine State.setAdm_steady ?_ | refine State.raise_steady ?_
    | refine State.bump_steady ?_

theorem State.startLoad_steady {x0 x1} (h : Steady b t s) : Steady b t (State.startLoad x0 x1 s) := State.setAdm_steady h

theorem State.contextWrite_steady {x0} (h : Steady b t s) : Steady b t (State.contextWrite x0 s) := by
  unfold State.contextWrite
  with_reducible repeat' first
    | exact h | simp only [Steady.put] | refine State.refuseContext_steady ?_ | refine State.spendFree_steady ?_
    | refine State.startLoad_steady ?_ | split

theorem State.refuseLoad_steady {x0 x1} (h : Steady b t s) : Steady b t (State.refuseLoad x0 x1 s) := by
  unfold State.refuseLoad
  with_reducible repeat' first
    | exact h | simp only [Steady.put] | refine State.writeRefusal_steady ?_ | refine State.setAdm_steady ?_ | refine State.raise_steady ?_
    | refine State.bump_steady ?_ | split

theorem State.finishAdmission_steady (h : Steady b t s) : Steady b t (State.finishAdmission s) := by
  unfold State.finishAdmission
  with_reducible repeat' first
    | exact h | simp only [Steady.put] | refine State.refuseLoad_steady ?_ | refine State.setAdm_steady ?_ | refine State.changed_steady ?_
    | split

theorem State.readmit_steady (h : Steady b t s) : Steady b t (State.readmit s) := by
  unfold State.readmit
  with_reducible repeat' first
    | exact h | refine State.writeRefusal_steady ?_ | refine State.setAdm_steady ?_ | refine State.countNote_steady ?_ | split

end Sys2Proof.Machine
end

section
/-! PROOFS. What the operations of Machine/Dict.lean leave steady. -/

namespace Sys2Proof.Machine

variable {b : Bool} {t s : State}

theorem State.xferAdvance_steady (h : Steady b t s) : Steady b t (State.xferAdvance s) := State.setReg_steady h

theorem State.clearBlock_steady {x0} (h : Steady b t s) : Steady b t (State.clearBlock x0 s) := by
  refine h.trans ?_
  unfold State.clearBlock
  with_reducible repeat' first | exact Steady.refl _ | refine State.clearCtr_steady ?_ | refine Steady.forEach (fun x st => ?_) ?_

theorem State.afterRead_steady {x0 x1 x2} (h : Steady b t s) : Steady b t (State.afterRead x0 x1 x2 s) := by
  unfold State.afterRead
  with_reducible repeat' first
    | exact h | refine State.xferAdvance_steady ?_ | refine State.clearCtr_steady ?_ | refine State.clearBlock_steady ?_ | split

theorem State.noEntry_steady (h : Steady b t s) : Steady b t (State.noEntry s) := State.bump_steady h

theorem State.readEntry_steady {x0 x1} (h : Steady b t s) : Steady b t (State.readEntry x0 x1 s).1 := by
  unfold State.readEntry
  with_reducible repeat' first | exact h | refine State.noEntry_steady ?_ | refine State.afterRead_steady ?_ | split

end Sys2Proof.Machine
end

section
/-! PROOFS. What the operations of Machine/Health.lean leave steady. -/

namespace Sys2Proof.Machine

variable {b : Bool} {t s : State}

theorem State.setHealth_steady {x0} (h : Steady b t s) : Steady b t (State.setHealth x0 s) := Steady.put.mpr h

theorem State.nextPeriod_steady (h : Steady b t s) : Steady b t (State.nextPeriod s) := State.setHealth_steady h

theorem State.stageMasks_steady {x0 x1 x2} (h : Steady b t s) : Steady b t (State.stageMasks x0 x1 x2 s) := by
  refine h.trans ?_
  unfold State.stageMasks
  with_reducible repeat' first
    | exact Steady.refl _ | refine State.stageSelf_steady ?_ | refine State.setHealth_steady ?_ | refine Steady.forEach (fun x st => ?_) ?_

theorem State.shedTurn_steady (h : Steady b t s) : Steady b t (State.shedTurn s) := by
  unfold State.shedTurn
  with_reducible repeat' first
    | exact h | simp only [Steady.put] | refine State.bump_steady ?_ | refine State.stageMasks_steady ?_ | refine State.setHealth_steady ?_
    | split

theorem State.levelTurn_steady {x0 x1 x2} (hx2 : ∀ {t s}, Steady b t s → Steady b t (x2 s)) (h : Steady b t s) :
    Steady b t (State.levelTurn x0 x1 x2 s) := by
  unfold State.levelTurn
  with_reducible repeat' first
    | exact h | simp only [Steady.put] | refine State.levelEvent_steady ?_ | refine State.crossLevel_steady ?_ | refine hx2 ?_ | split

theorem State.warn_steady (h : Steady b t s) : Steady b t (State.warn s) := by
  unfold State.warn
  with_reducible repeat' first
    | exact h | simp only [Steady.put] | refine State.levelEvent_steady ?_ | refine State.crossLevel_steady ?_
    | refine State.changed_steady ?_ | refine State.bump_steady ?_ | split

theorem State.levelsTurn_steady (h : Steady b t s) : Steady b t (State.levelsTurn s) := by
  refine h.trans ?_
  clear h
  unfold State.levelsTurn
  with_reducible repeat' first
    | exact Steady.refl _ | assumption | refine State.levelTurn_steady (fun hk => ?_) ?_ | refine State.warn_steady ?_
    | refine State.bump_steady ?_ | refine State.levelEvent_steady ?_ | refine State.crossLevel_steady ?_

theorem State.scorePeriod_steady {x0} (h : Steady b t s) : Steady b t (State.scorePeriod x0 s) := State.setHealth_steady h

theorem State.healthTurn_steady {x0} (h : Steady b t s) : Steady b t (State.healthTurn x0 s) := by
  unfold State.healthTurn
  with_reducible repeat' first
    | exact h | refine State.nextPeriod_steady ?_ | refine State.shedTurn_steady ?_ | refine State.levelsTurn_steady ?_
    | refine State.scorePeriod_steady ?_ | split

theorem State.shedThreshold_steady (h : Steady b t s) : Steady b t (State.shedThreshold s) := State.setHealth_steady h

end Sys2Proof.Machine
end

section
/-! PROOFS. What the operations of Machine/House.lean leave steady. -/

namespace Sys2Proof.Machine

variable {b : Bool} {t s : State}

theorem State.setFw_steady {x0} (h : Steady b t s) : Steady b t (State.setFw x0 s) := Steady.put.mpr h

theorem State.restoreEvents_steady {x0} (h : Steady b t s) : Steady b t (State.restoreEvents x0 s) := by
  refine h.trans ?_
  unfold State.restoreEvents
  with_reducible repeat' first | exact Steady.refl _ | simp only [Steady.put] | refine Steady.forEach (fun x st => ?_) ?_ | split

theorem State.applyRec_steady {x0} (h : Steady b t s) : Steady b t (State.applyRec x0 s) := by
  unfold State.applyRec
  with_reducible repeat' first
    | exact h | simp only [Steady.put] | refine State.setJournal_steady ?_ | refine State.setFw_steady ?_ | refine State.setReg_steady ?_
    | refine State.setHealth_steady ?_ | refine State.restoreEvents_steady ?_ | split

theorem State.npSeen_steady (h : Steady b t s) : Steady b t (State.npSeen s) := by
  refine h.trans ?_
  unfold State.npSeen
  with_reducible repeat' first | exact Steady.refl _ | refine State.nvWrite_steady ?_ | refine Steady.forEach (fun x st => ?_) ?_

theorem State.askJournal_steady (h : Steady b t s) : Steady b t (State.askJournal s) := State.npAsk_steady h

theorem State.putSlot_steady {x0 x1} (h : Steady b t s) : Steady b t (State.putSlot x0 x1 s) := State.setFw_steady h

theorem State.foundJournal_steady {x0 x1 x2} (h : Steady b t s) : Steady b t (State.foundJournal x0 x1 x2 s) := State.setJournal_steady h

theorem State.retiredMasks_steady (h : Steady b t s) : Steady b t (State.retiredMasks s) := by
  refine h.trans ?_
  unfold State.retiredMasks
  with_reducible repeat' first | exact Steady.refl _ | refine State.setReg_steady ?_ | refine Steady.forEach (fun x st => ?_) ?_ | split

theorem State.countTorn_steady {x0} (h : Steady b t s) : Steady b t (State.countTorn x0 s) := by
  unfold State.countTorn
  with_reducible repeat' first | exact h | refine State.bump_steady ?_ | split

theorem State.formatStream_steady (h : Steady b t s) : Steady b t (State.formatStream s) := State.npPush_steady (State.setJournal_steady h)

theorem State.replay_steady (h : Steady b t s) : Steady b t (State.replay s) := by
  refine h.trans ?_
  unfold State.replay
  with_reducible repeat' first
    | exact Steady.refl _ | refine State.applyRec_steady ?_ | refine State.foundJournal_steady ?_ | refine State.retiredMasks_steady ?_
    | refine State.countTorn_steady ?_ | refine State.formatStream_steady ?_ | refine Steady.forEach (fun x st => ?_) ?_ | split

theorem State.firstStart_steady {x0} (h : Steady b t s) : Steady b t (State.firstStart x0 s) :=
  State.append_steady (Steady.put.mpr (State.replay_steady h))

theorem State.replayAgain_steady (h : Steady b t s) : Steady b t (State.replayAgain s) := by
  unfold State.replayAgain
  with_reducible repeat' first
    | exact h | refine State.foundJournal_steady ?_ | refine State.countTorn_steady ?_ | refine State.formatStream_steady ?_ | split

theorem State.startImage_steady {x0} (h : Steady b t s) : Steady b t (State.startImage x0 s) := by
  unfold State.startImage
  with_reducible repeat' first
    | exact h | refine State.askJournal_steady ?_ | refine State.firstStart_steady ?_ | refine State.replayAgain_steady ?_
    | refine State.setReg_steady ?_ | refine State.setFw_steady ?_ | refine State.raise_steady ?_ | refine State.bump_steady ?_
    | refine State.append_steady ?_ | split

theorem State.replayEvents_steady (h : Steady b t s) : Steady b t (State.replayEvents s) := by
  refine h.trans ?_
  unfold State.replayEvents
  with_reducible repeat' first
    | exact Steady.refl _ | refine State.applyRec_steady ?_ | refine State.foundJournal_steady ?_
    | refine Steady.forEach (fun x st => ?_) ?_ | split

theorem State.recover_steady (h : Steady b t s) : Steady b t (State.recover s) := by
  refine h.trans ?_
  unfold State.recover
  with_reducible repeat' first
    | exact Steady.refl _ | simp only [Steady.put] | refine State.replayEvents_steady ?_ | refine State.raise_steady ?_
    | refine State.bump_steady ?_ | split

theorem State.boot_steady {x0} (h : Steady b t s) : Steady b t (State.boot x0 s) := by
  unfold State.boot
  with_reducible repeat' first
    | exact h | simp only [Steady.put] | refine State.npAsk_steady ?_ | refine State.putSlot_steady ?_ | refine State.startImage_steady ?_
    | refine State.recover_steady ?_ | split

theorem State.superDone_steady (h : Steady b t s) : Steady b t (State.superDone s) := State.setJournal_steady h

theorem State.compacted_steady (h : Steady b t s) : Steady b t (State.compacted s) := by
  unfold State.compacted
  with_reducible repeat' first
    | exact h | simp only [Steady.put] | refine State.setJournal_steady ?_ | refine State.bump_steady ?_ | refine State.superDone_steady ?_
    | split

theorem State.eventFrame_steady {x0} (h : Steady b t s) : Steady b t (State.eventFrame x0 s) := by
  unfold State.eventFrame
  with_reducible repeat' first | exact h | simp only [Steady.put] | refine State.post_steady ?_ | split

theorem State.watchRow_steady {x0 x1 x2 x3} (h : Steady b t s) : Steady b t (State.watchRow x0 x1 x2 x3 s) := Steady.put.mpr h

theorem State.powerOn_steady (h : Steady b t s) : Steady b t (State.powerOn s) := by
  unfold State.powerOn
  with_reducible repeat' first | exact h | refine State.askJournal_steady ?_ | refine State.setFw_steady ?_ | refine State.boot_steady ?_

theorem State.fillDone_steady {x0} (h : Steady b t s) : Steady b t (State.fillDone x0 s) := by
  refine h.trans ?_
  unfold State.fillDone
  with_reducible repeat' first
    | exact Steady.refl _ | simp only [Steady.put] | refine State.watchRow_steady ?_ | refine State.bump_steady ?_
    | refine State.powerOn_steady ?_ | refine Steady.forEach (fun x st => ?_) ?_

theorem State.imageRefused_steady {x0} (h : Steady b t s) : Steady b t (State.imageRefused x0 s) := by
  unfold State.imageRefused
  with_reducible repeat' first
    | exact h | refine State.setJournal_steady ?_ | refine State.putSlot_steady ?_ | refine State.setFw_steady ?_
    | refine State.raise_steady ?_

theorem State.firmwareLoad_steady {x0} (h : Steady b t s) : Steady b t (State.firmwareLoad x0 s) := by
  unfold State.firmwareLoad
  with_reducible repeat' first
    | exact h | refine State.imageRefused_steady ?_ | refine State.putSlot_steady ?_ | refine State.setFw_steady ?_
    | refine State.npPush_steady ?_ | split

theorem State.restart_steady {x0 x1} (h : Steady b t s) : Steady b t (State.restart x0 x1 s) := by
  unfold State.restart
  with_reducible repeat' first | exact h | simp only [Steady.put] | refine State.boot_steady ?_ | refine State.askJournal_steady ?_

theorem State.switchover_steady {x0} (h : Steady b t s) : Steady b t (State.switchover x0 s) := by
  unfold State.switchover
  with_reducible repeat' first
    | exact h | refine State.setFw_steady ?_ | refine State.append_steady ?_ | refine State.restart_steady ?_ | refine State.bump_steady ?_
    | split

theorem State.heldSwitch_steady (h : Steady b t s) : Steady b t (State.heldSwitch s) := by
  unfold State.heldSwitch
  with_reducible repeat' first | exact h | refine State.switchover_steady ?_ | split

theorem State.issueAgain_steady {x0} (h : Steady b t s) : Steady b t (State.issueAgain x0 s) := State.setJournal_steady h

theorem State.journalFail_steady {x0} (h : Steady b t s) : Steady b t (State.journalFail x0 s) := by
  unfold State.journalFail
  with_reducible repeat' first
    | exact h | refine State.changed_steady ?_ | refine State.setJournal_steady ?_ | refine State.imageRefused_steady ?_ | split

theorem State.journalFormat_steady (h : Steady b t s) : Steady b t (State.journalFormat s) :=
  State.append_steady (Steady.put.mpr (State.formatStream_steady h))

theorem State.readBack_steady {x0 x1 x2} (h : Steady b t s) : Steady b t (State.readBack x0 x1 x2 s) := by
  unfold State.readBack
  with_reducible repeat' first | exact h | refine State.imageRefused_steady ?_ | split

theorem State.started_steady (h : Steady b t s) : Steady b t (State.started s) := by
  refine h.trans ?_
  unfold State.started
  with_reducible repeat' first
    | exact Steady.refl _ | simp only [Steady.put] | refine State.setFw_steady ?_ | refine State.raise_steady ?_
    | refine Steady.forEach (fun x st => ?_) ?_

theorem State.markJournaled_steady {x0} (h : Steady b t s) : Steady b t (State.markJournaled x0 s) := Steady.put.mpr h

theorem State.snapshotDone_steady (h : Steady b t s) : Steady b t (State.snapshotDone s) := by
  unfold State.snapshotDone
  with_reducible repeat' first | exact h | refine State.npPush_steady ?_ | split

theorem State.recordDone_steady {x0} (h : Steady b t s) : Steady b t (State.recordDone x0 s) := by
  unfold State.recordDone
  with_reducible repeat' first
    | exact h | simp only [Steady.put] | refine State.bump_steady ?_ | refine State.started_steady ?_
    | refine State.markJournaled_steady ?_ | refine State.snapshotDone_steady ?_ | split

theorem State.readBackStart_steady (h : Steady b t s) : Steady b t (State.readBackStart s) := by
  unfold State.readBackStart
  with_reducible repeat' first | exact h | refine State.npPush_steady ?_ | split

theorem State.lineDone_steady {x0} (h : Steady b t s) : Steady b t (State.lineDone x0 s) := by
  unfold State.lineDone
  with_reducible repeat' first
    | exact h | refine State.recordDone_steady ?_ | refine State.compacted_steady ?_ | refine State.readBackStart_steady ?_
    | refine State.superDone_steady ?_ | split

theorem State.lineAnswered_steady {x0 x1 x2} (h : Steady b t s) : Steady b t (State.lineAnswered x0 x1 x2 s) := by
  unfold State.lineAnswered
  with_reducible repeat' first
    | exact h | refine State.readBack_steady ?_ | refine State.lineDone_steady ?_ | refine State.nvWrite_steady ?_
    | refine State.journalFail_steady ?_ | refine State.issueAgain_steady ?_ | split

theorem State.journalResponse_steady {x0 x1} (h : Steady b t s) : Steady b t (State.journalResponse x0 x1 s) := by
  unfold State.journalResponse
  with_reducible repeat' first
    | exact h | simp only [Steady.put] | refine State.countNote_steady ?_ | refine State.npPump_steady ?_
    | refine State.lineAnswered_steady ?_ | refine State.setJournal_steady ?_ | split

theorem State.retryJournal_steady (h : Steady b t s) : Steady b t (State.retryJournal s) := by
  unfold State.retryJournal
  with_reducible repeat' first | exact h | refine State.snapshot_steady ?_ | split

theorem State.trialEnd_steady (h : Steady b t s) : Steady b t (State.trialEnd s) := by
  unfold State.trialEnd
  with_reducible repeat' first
    | exact h | refine State.setFw_steady ?_ | refine State.append_steady ?_ | refine State.restart_steady ?_ | refine State.bump_steady ?_
    | split

theorem State.verifyDone_steady (h : Steady b t s) : Steady b t (State.verifyDone s) := by
  unfold State.verifyDone
  with_reducible repeat' first
    | exact h | simp only [Steady.put] | refine State.imageRefused_steady ?_ | refine State.setFw_steady ?_
    | refine State.putSlot_steady ?_ | refine State.startImage_steady ?_ | split

theorem State.watchdog_steady (h : Steady b t s) : Steady b t (State.watchdog s) := by
  unfold State.watchdog
  with_reducible repeat' first
    | exact h | simp only [Steady.put] | refine State.bump_steady ?_ | refine State.setFw_steady ?_ | refine State.append_steady ?_
    | refine State.restart_steady ?_ | split

end Sys2Proof.Machine
end

section
/-! PROOFS. What the operations of Machine/DictWrite.lean leave steady. -/

namespace Sys2Proof.Machine

variable {b : Bool} {t s : State}

theorem State.ackEvents_steady {x0 x1} (h : Steady b t s) : Steady b t (State.ackEvents x0 x1 s) := by
  unfold State.ackEvents
  with_reducible repeat' first | exact h | simp only [Steady.put] | split

theorem State.answerWrite_steady {x0 x1} (h : Steady b t s) : Steady b t (State.answerWrite x0 x1 s) := by
  unfold State.answerWrite
  with_reducible repeat' first | exact h | refine State.emit_steady ?_ | split

theorem State.stageTables_steady {x0} (h : Steady b t s) : Steady b t (State.stageTables x0 s) := by
  unfold State.stageTables
  with_reducible repeat' first | exact h | simp only [Steady.put] | refine State.bump_steady ?_ | split

theorem State.liftRetired_steady {x0 x1} (h : Steady b t s) : Steady b t (State.liftRetired x0 x1 s) := by
  unfold State.liftRetired
  with_reducible repeat' first
    | exact h | simp only [Steady.put] | refine State.setHealth_steady ?_ | refine State.journalState_steady ?_ | split

theorem State.doStage_steady {x0 x1 x2} (h : Steady b t s) : Steady b t (State.doStage x0 x1 x2 s) := by
  unfold State.doStage
  with_reducible repeat' first
    | exact h | refine State.stageTables_steady ?_ | refine State.stage_steady ?_ | refine State.liftRetired_steady ?_ | split

theorem State.setView_steady {x0 x1} (h : Steady b t s) : Steady b t (State.setView x0 x1 s) := Steady.put.mpr h

theorem State.xferTarget_steady {x0 x1} (h : Steady b t s) : Steady b t (State.xferTarget x0 x1 s) := by
  unfold State.xferTarget
  with_reducible repeat' first
    | exact h | simp only [Steady.put] | refine State.setReg_steady ?_ | refine State.readEntry_steady ?_ | split

theorem State.xferWord_steady {x0} (h : Steady b t s) : Steady b t (State.xferWord x0 s) := by
  unfold State.xferWord
  with_reducible repeat' first | exact h | simp only [Steady.put] | refine State.xferAdvance_steady ?_ | split

theorem State.raiseRollcall_steady (h : Steady false t s) : Steady false t (State.raiseRollcall s) := by
  unfold State.raiseRollcall
  with_reducible repeat' first | exact h | exact fun h => absurd h Bool.false_ne_true | refine Steady.putFrame ?_ ?_

theorem State.replicaTarget_steady {x0} (h : Steady b t s) : Steady b t (State.replicaTarget x0 s) := by
  unfold State.replicaTarget
  with_reducible repeat' first
    | exact h | simp only [Steady.put] | refine State.setReg_steady ?_ | refine State.copyStart_steady ?_ | split

theorem State.raiseMinimum_steady {x0} (h : Steady b t s) : Steady b t (State.raiseMinimum x0 s) :=
  State.journalState_steady (State.setFw_steady h)

theorem State.setJutus_steady {x0} (h : Steady b t s) : Steady b t (State.setJutus x0 s) := Steady.put.mpr h

theorem State.doScalar_steady {x0 x1 x2 x3} (h : Steady false t s) : Steady false t (State.doScalar x0 x1 x2 x3 s).1 := by
  refine h.trans ?_
  unfold State.doScalar
  with_reducible repeat' first
    | exact Steady.refl _ | refine Steady.ite_fst ?_ ?_ | simp only [Steady.put] | refine State.setView_steady ?_
    | refine State.xferTarget_steady ?_ | refine State.xferWord_steady ?_ | refine State.raiseRollcall_steady ?_
    | refine State.replicaTarget_steady ?_ | refine State.ackEvents_steady ?_ | refine State.raiseMinimum_steady ?_
    | refine State.setJutus_steady ?_ | refine State.journalFormat_steady ?_ | refine State.setReg_steady ?_

theorem State.setFx_steady {x0} (h : Steady b t s) : Steady b t (State.setFx x0 s) := Steady.put.mpr h

theorem State.lostMaskWrite_steady {x0} (h : Steady b t s) : Steady b t (State.lostMaskWrite x0 s).1 := by
  unfold State.lostMaskWrite
  with_reducible repeat' first | exact h | refine State.lostMaskStripe_steady ?_ | split

theorem State.maskRepair_steady {x0} (h : Steady b t s) : Steady b t (State.maskRepair x0 s).1 := by
  unfold State.maskRepair
  with_reducible repeat' first
    | exact h | simp only [Steady.put] | refine State.spanWrite_steady ?_ | refine State.clearBad_steady ?_
    | refine State.updHank_steady ?_ | split

theorem State.subscribe_steady {x0} (h : Steady b t s) : Steady b t (State.subscribe x0 s) := Steady.put.mpr h

end Sys2Proof.Machine
end

section
/-! PROOFS. What the operations of Machine/DictWrite.lean leave steady. -/

namespace Sys2Proof.Machine

variable {b : Bool} {t s : State}

theorem State.doBlob_steady {x0 x1 x2 x3} (h : Steady b t s) : Steady b t (State.doBlob x0 x1 x2 x3 s).1 := by
  refine h.trans ?_
  unfold State.doBlob
  with_reducible repeat' first
    | exact Steady.refl _ | refine Steady.ite_fst ?_ ?_ | simp only [Steady.put] | refine State.setFx_steady ?_
    | refine State.startLoad_steady ?_ | refine State.onProposal_steady ?_ | refine State.lostMaskWrite_steady ?_
    | refine State.serveHeldOut_steady ?_ | refine State.holdNotice_steady ?_ | refine State.pageDiscard_steady ?_
    | refine State.hashProbe_steady ?_ | refine State.restoreRequest_steady ?_ | refine State.contextWrite_steady ?_
    | refine State.maskRepair_steady ?_ | refine State.subscribe_steady ?_ | refine State.firmwareLoad_steady ?_
    | refine State.setJutus_steady ?_ | split

theorem State.applyWrite_steady {x0 x1 x2 x3 x4} (h : Steady false t s) : Steady false t (State.applyWrite x0 x1 x2 x3 x4 s).1 := by
  unfold State.applyWrite
  with_reducible repeat' first
    | exact h | refine State.doStage_steady ?_ | refine State.doScalar_steady ?_ | refine State.doBlob_steady ?_ | split

theorem State.countRetry_steady {x0 x1 x2} (h : Steady b t s) : Steady b t (State.countRetry x0 x1 x2 s) := by
  refine h.trans ?_
  clear h
  unfold State.countRetry
  dsimp only
  generalize (x2 && (s.loadsPlan x1 || (x1 == 0x10FD01 && s.sys.hk == .restarting))) = b
  cases b <;> cases x0 <;> first
    | exact Steady.refl _
    | exact State.bump_steady (Steady.refl _)
    | exact State.bump_steady (State.bump_steady (Steady.refl _))

theorem State.countTwist_steady {x0 x1} (h : Steady b t s) : Steady b t (State.countTwist x0 x1 s) := by
  unfold State.countTwist
  with_reducible repeat' first | exact h | refine State.bump_steady ?_ | split

theorem State.writeEntry_steady {x0 x1 x2} (h : Steady false t s) : Steady false t (State.writeEntry x0 x1 x2 s).1 := by
  unfold State.writeEntry
  with_reducible repeat' first
    | exact h | simp only [Steady.put] | refine State.noEntry_steady ?_ | refine State.refuseWrite_steady ?_
    | refine State.countTwist_steady ?_ | refine State.applyWrite_steady ?_ | split

theorem State.dictWrite_steady {x0 x1 x2} (h : Steady false t s) : Steady false t (State.dictWrite x0 x1 x2 s).1 := by
  unfold State.dictWrite
  with_reducible repeat' first
    | exact h | simp only [Steady.put] | refine State.refuseWrite_steady ?_ | refine State.writeEntry_steady ?_ | split

theorem State.gateWrite_steady {x0 x1 x2} (h : Steady false t s) : Steady false t (State.gateWrite x0 x1 x2 s).1 := by
  unfold State.gateWrite
  with_reducible repeat' first | exact h | refine State.dictWrite_steady ?_ | refine State.countRetry_steady ?_ | split

theorem State.ownWrite_steady {x0 x1 x2} (h : Steady false t s) : Steady false t (State.ownWrite x0 x1 x2 s) := by
  unfold State.ownWrite
  with_reducible repeat' first
    | exact h | simp only [Steady.put] | refine State.gateWrite_steady ?_ | refine State.answerWrite_steady ?_ | split

theorem State.wordRead_steady {x0 x1} (h : Steady b t s) : Steady b t (State.wordRead x0 x1 s).1 := by
  unfold State.wordRead
  with_reducible repeat' first
    | exact h | simp only [Steady.put] | refine State.countRetry_steady ?_ | refine State.noEntry_steady ?_
    | refine State.afterRead_steady ?_ | split

end Sys2Proof.Machine
end

section
/-! PROOFS. What the operations of Machine/Ocper.lean leave steady. -/

namespace Sys2Proof.Machine

variable {b : Bool} {t s : State}

theorem State.setBufs_steady {x0} (h : Steady b t s) : Steady b t (State.setBufs x0 s) := Steady.put.mpr h

theorem State.freeBuf_steady {x0} (h : Steady b t s) : Steady b t (State.freeBuf x0 s) := State.setBufs_steady h

theorem State.keepRequest_steady {x0} (h : Steady b t s) : Steady b t (State.keepRequest x0 s) := Steady.put.mpr h

theorem State.keepPiece_steady {x0 x1} (h : Steady b t s) : Steady b t (State.keepPiece x0 x1 s) := State.keepRequest_steady h

theorem State.noteRequest_steady {x0} (h : Steady b t s) : Steady b t (State.noteRequest x0 s) := by
  unfold State.noteRequest
  with_reducible repeat' first | exact h | refine State.keepRequest_steady ?_ | split

theorem State.noteXid_steady {x0} (h : Steady b t s) : Steady b t (State.noteXid x0 s) := Steady.put.mpr h

theorem State.ocperAnswer_steady {x0 x1 x2} (h : Steady b t s) : Steady b t (State.ocperAnswer x0 x1 x2 s) :=
  State.post_steady (State.bump_steady h)

theorem State.putBuf_steady {x0} (h : Steady b t s) : Steady b t (State.putBuf x0 s) := by
  unfold State.putBuf
  with_reducible repeat' first | exact h | simp only [Steady.put] | refine State.setBufs_steady ?_ | split

theorem State.ocperWritten_steady {x0 x1} (h : Steady b t s) : Steady b t (State.ocperWritten x0 x1 s) := by
  unfold State.ocperWritten
  with_reducible repeat' first | exact h | refine State.noteXid_steady ?_ | refine State.ocperAnswer_steady ?_ | split

theorem State.ocperApply_steady {x0} (h : Steady false t s) : Steady false t (State.ocperApply x0 s) := by
  unfold State.ocperApply
  with_reducible repeat' first
    | exact h | simp only [Steady.put] | refine State.ocperAnswer_steady ?_ | refine State.noEntry_steady ?_
    | refine State.dictWrite_steady ?_ | refine State.freeBuf_steady ?_ | refine State.putBuf_steady ?_
    | refine State.ocperWritten_steady ?_ | split

theorem State.ocperPiece_steady {x0 x1} (h : Steady b t s) : Steady b t (State.ocperPiece x0 x1 s) := by
  unfold State.ocperPiece
  with_reducible repeat' first
    | exact h | refine State.keepPiece_steady ?_ | refine State.freeBuf_steady ?_ | refine State.ocperAnswer_steady ?_ | split

theorem State.ocperRetry_steady {x0} (h : Steady b t s) : Steady b t (State.ocperRetry x0 s) := by
  unfold State.ocperRetry
  with_reducible repeat' first | exact h | refine State.ocperAnswer_steady ?_ | refine State.countRetry_steady ?_

theorem State.ocperBlockRead_steady {x0} (h : Steady b t s) : Steady b t (State.ocperBlockRead x0 s) := by
  unfold State.ocperBlockRead
  with_reducible repeat' first
    | exact h | refine State.ocperAnswer_steady ?_ | refine State.noEntry_steady ?_ | refine State.afterRead_steady ?_
    | refine State.putBuf_steady ?_ | refine State.ocperPiece_steady ?_ | refine State.ocperRetry_steady ?_ | split

theorem State.ocperRead_steady {x0} (h : Steady b t s) : Steady b t (State.ocperRead x0 s) := by
  unfold State.ocperRead
  with_reducible repeat' first
    | exact h | refine State.ocperAnswer_steady ?_ | refine State.noEntry_steady ?_ | refine State.afterRead_steady ?_ | split

theorem State.ocperSegment_steady {x0} (h : Steady b t s) : Steady b t (State.ocperSegment x0 s) := by
  unfold State.ocperSegment
  with_reducible repeat' first
    | exact h | refine State.ocperAnswer_steady ?_ | refine State.noEntry_steady ?_ | refine State.putBuf_steady ?_
    | refine State.ocperRetry_steady ?_ | split

theorem State.ocperTimeout_steady {x0} (h : Steady b t s) : Steady b t (State.ocperTimeout x0 s) := State.setBufs_steady h

theorem State.ocperWrite_steady {x0} (h : Steady false t s) : Steady false t (State.ocperWrite x0 s) := by
  unfold State.ocperWrite
  with_reducible repeat' first
    | exact h | refine State.ocperAnswer_steady ?_ | refine State.dictWrite_steady ?_ | refine State.ocperWritten_steady ?_ | split

theorem State.onOcper_steady {x0} (h : Steady false t s) : Steady false t (State.onOcper x0 s) := by
  unfold State.onOcper
  with_reducible repeat' first
    | exact h | simp only [Steady.put] | refine State.noteRequest_steady ?_ | refine State.ocperRetry_steady ?_
    | refine State.ocperAnswer_steady ?_ | refine State.ocperRead_steady ?_ | refine State.ocperWrite_steady ?_
    | refine State.ocperBlockRead_steady ?_ | refine State.ocperSegment_steady ?_ | refine State.ocperApply_steady ?_ | split

end Sys2Proof.Machine
end

section
/-! PROOFS. What the operations of Machine/Jutus.lean leave steady. -/

namespace Sys2Proof.Machine

variable {b : Bool} {t s : State}

theorem State.say_steady {x0} (h : Steady b t s) : Steady b t (State.say x0 s) := State.emit_steady h

theorem State.jutusChallengeRun_steady (h : Steady b t s) : Steady b t (State.jutusChallengeRun s) :=
  State.say_steady (State.setJutus_steady h)

theorem State.jutusCountersRun_steady {x0} (h : Steady b t s) : Steady b t (State.jutusCountersRun x0 s) := by
  unfold State.jutusCountersRun
  with_reducible repeat' first
    | exact h | refine State.say_steady ?_ | refine State.clearBlock_steady ?_ | refine State.noEntry_steady ?_ | split

theorem State.jutusRefuse_steady {x0 x1} (h : Steady b t s) : Steady b t (State.jutusRefuse x0 x1 s) :=
  State.say_steady (State.refuseWrite_steady h)

theorem State.jutusDumpEntry_steady {x0 x1} (h : Steady b t s) : Steady b t (State.jutusDumpEntry x0 x1 s) := by
  unfold State.jutusDumpEntry
  with_reducible repeat' first
    | exact h | refine State.say_steady ?_ | refine State.noEntry_steady ?_ | refine State.jutusRefuse_steady ?_
    | refine State.afterRead_steady ?_ | split

theorem State.jutusExpire_steady (h : Steady b t s) : Steady b t (State.jutusExpire s) := State.setJutus_steady h

theorem State.jutusFree_steady (h : Steady b t s) : Steady b t (State.jutusFree s) := State.setJutus_steady h

theorem State.jutusLockRun_steady (h : Steady b t s) : Steady b t (State.jutusLockRun s) := State.say_steady (State.setJutus_steady h)

theorem State.jutusWritten_steady {x} (h : Steady b t x.1) : Steady b t (State.jutusWritten x) := by
  unfold State.jutusWritten
  split
  · exact State.say_steady h
  · exact State.say_steady h
  · exact State.say_steady h

theorem State.jutusPut_steady {x0 x1} (h : Steady false t s) : Steady false t (State.jutusPut x0 x1 s) :=
  State.jutusWritten_steady (State.dictWrite_steady h)

theorem State.jutusReadEntry_steady {x0} (h : Steady b t s) : Steady b t (State.jutusReadEntry x0 s) := by
  unfold State.jutusReadEntry
  with_reducible repeat' first
    | exact h | refine State.say_steady ?_ | refine State.noEntry_steady ?_ | refine State.jutusRefuse_steady ?_
    | refine State.afterRead_steady ?_ | split

theorem State.jutusRun_steady {x0} (hx0 : ∀ {t s}, Steady b t s → Steady b t (x0 s)) (h : Steady b t s) :
    Steady b t (State.jutusRun x0 s) := by
  unfold State.jutusRun
  with_reducible repeat' first | exact h | refine hx0 ?_ | split

theorem State.jutusUnlockRun_steady {x0} (h : Steady b t s) : Steady b t (State.jutusUnlockRun x0 s) := by
  unfold State.jutusUnlockRun
  with_reducible repeat' first
    | exact h | simp only [Steady.put] | refine State.jutusRefuse_steady ?_ | refine State.say_steady ?_ | refine State.setJutus_steady ?_
    | refine State.bump_steady ?_ | split

theorem State.jutusUnlockedOnly_steady {x0 x1} (hx1 : ∀ {t s}, Steady b t s → Steady b t (x1 s)) (h : Steady b t s) :
    Steady b t (State.jutusUnlockedOnly x0 x1 s) := by
  unfold State.jutusUnlockedOnly
  with_reducible repeat' first | exact h | refine State.jutusRefuse_steady ?_ | refine hx1 ?_ | split

end Sys2Proof.Machine
end

section
/-! PROOFS. What the operations of Machine/Jtag.lean leave steady. -/

namespace Sys2Proof.Machine

variable {b : Bool} {t s : State}

theorem State.dictCapture_steady (h : Steady b t s) : Steady b t (State.dictCapture s) := State.emit_steady (State.spendFree_steady h)

theorem State.mbistCapture_steady (h : Steady b t s) : Steady b t (State.mbistCapture s) := State.emit_steady (State.spendFree_steady h)

theorem State.capture_steady (h : Steady b t s) : Steady b t (State.capture s) := by
  unfold State.capture
  with_reducible repeat' first
    | exact h | refine State.emit_steady ?_ | refine State.dictCapture_steady ?_ | refine State.mbistCapture_steady ?_ | split

end Sys2Proof.Machine
end

section
/-! PROOFS. What the operations of Machine/Scrub.lean leave steady. -/

namespace Sys2Proof.Machine

variable {b : Bool} {t s : State}

theorem State.recompAt_steady {x0 x1} (h : Steady b t s) : Steady b t (State.recompAt x0 x1 s) := by
  refine h.trans ?_
  unfold State.recompAt
  with_reducible repeat' first
    | exact Steady.refl _ | refine State.startRecomp_steady ?_ | refine Steady.forEach (fun x st => ?_) ?_ | split

theorem State.maskAt_steady {x0} (h : Steady b t s) : Steady b t (State.maskAt x0 s) := by
  refine h.trans ?_
  unfold State.maskAt
  with_reducible repeat' first
    | exact Steady.refl _ | simp only [Steady.put] | refine State.markMask_steady ?_ | refine Steady.forEach (fun x st => ?_) ?_ | split

theorem State.actBad_steady {x0 x1} (h : Steady b t s) : Steady b t (State.actBad x0 x1 s) := by
  refine h.trans ?_
  unfold State.actBad
  with_reducible repeat' first
    | exact Steady.refl _ | refine State.addRepair_steady ?_ | refine State.recompAt_steady ?_ | refine State.maskAt_steady ?_
    | refine Steady.forEach (fun x st => ?_) ?_ | split

theorem State.addBad_steady {x0} (h : Steady b t s) : Steady b t (State.addBad x0 s) := Steady.put.mpr h

theorem State.addBadLines_steady {x0} (h : Steady b t s) : Steady b t (State.addBadLines x0 s) := Steady.put.mpr h

theorem State.bankAgain_steady {x0} (h : Steady b t s) : Steady b t (State.bankAgain x0 s) := Steady.put.mpr h

theorem State.bobbinRead_steady {x0 x1 x2 x3} (h : Steady b t s) : Steady b t (State.bobbinRead x0 x1 x2 x3 s) := by
  refine h.trans ?_
  unfold State.bobbinRead
  with_reducible repeat' first
    | exact Steady.refl _ | refine State.askGroup_steady ?_ | refine State.takeMem_steady ?_ | refine State.addRepair_steady ?_
    | refine State.askReserve_steady ?_ | refine Steady.forEach (fun x st => ?_) ?_ | split

theorem State.closePantry_steady {x0} (h : Steady b t s) : Steady b t (State.closePantry x0 s) := State.tellLater_steady (Steady.put.mpr h)

theorem State.updWatch_steady {x0 x1 x2} (h : Steady b t s) : Steady b t (State.updWatch x0 x1 x2 s) := Steady.put.mpr h

theorem State.watchNew_steady {x0 x1 x2 x3 x4} (h : Steady b t s) : Steady b t (State.watchNew x0 x1 x2 x3 x4 s) :=
  State.note_steady (State.watchRow_steady h)

theorem State.corrected_steady {x0 x1} (h : Steady b t s) : Steady b t (State.corrected x0 x1 s) := by
  unfold State.corrected
  with_reducible repeat' first
    | exact h | simp only [Steady.put] | refine State.updWatch_steady ?_ | refine State.watchNew_steady ?_ | split

theorem State.errorReport_steady {x0 x1 x2} (h : Steady b t s) : Steady b t (State.errorReport x0 x1 x2 s) := by
  unfold State.errorReport
  with_reducible repeat' first
    | exact h | simp only [Steady.put] | refine State.bump_steady ?_ | refine State.countCorrected_steady ?_
    | refine State.countBad_steady ?_ | refine State.actBad_steady ?_ | refine State.addBad_steady ?_ | split

theorem State.patrolMove_steady {x0 x1} (h : Steady b t s) : Steady b t (State.patrolMove x0 x1 s) := Steady.put.mpr h

theorem State.patrolHearth_steady {x0 x1} (h : Steady b t s) : Steady b t (State.patrolHearth x0 x1 s) := by
  unfold State.patrolHearth
  with_reducible repeat' first
    | exact h | simp only [Steady.put] | refine State.patrolMove_steady ?_ | refine State.takeMem_steady ?_ | refine State.bump_steady ?_
    | refine State.actBad_steady ?_ | split

theorem State.patrolPantry_steady {x0} (h : Steady b t s) : Steady b t (State.patrolPantry x0 s) := by
  unfold State.patrolPantry
  with_reducible repeat' first
    | exact h | simp only [Steady.put] | refine State.patrolMove_steady ?_ | refine State.takeLines_steady ?_ | refine State.bump_steady ?_
    | refine State.actBad_steady ?_ | split

theorem State.hearthPatrol_steady {x0 x1} (h : Steady b t s) : Steady b t (State.hearthPatrol x0 x1 s) := by
  unfold State.hearthPatrol
  with_reducible repeat' first | exact h | refine State.patrolHearth_steady ?_ | refine State.patrolPantry_steady ?_ | split

theorem State.updRepair_steady {x0 x1} (h : Steady b t s) : Steady b t (State.updRepair x0 x1 s) := Steady.put.mpr h

theorem State.holdRepair_steady {x0 x1} (h : Steady b t s) : Steady b t (State.holdRepair x0 x1 s) :=
  State.countNote_steady (State.updRepair_steady h)

theorem State.homeTurn_steady {x0 x1 x2 x3 x4 x5} (h : Steady b t s) : Steady b t (State.homeTurn x0 x1 x2 x3 x4 x5 s) := by
  unfold State.homeTurn
  with_reducible repeat' first
    | exact h | simp only [Steady.put] | refine State.homeAnswer_steady ?_ | refine State.releaseSets_steady ?_
    | refine State.actBad_steady ?_ | split

theorem State.loseEvents_steady {x0} (h : Steady b t s) : Steady b t (State.loseEvents x0 s) := State.bump_steady (Steady.put.mpr h)

theorem State.loseKey_steady {x0} (h : Steady b t s) : Steady b t (State.loseKey x0 s) := by
  unfold State.loseKey
  with_reducible repeat' first
    | exact h | simp only [Steady.put] | refine State.changed_steady ?_ | refine State.setFx_steady ?_ | refine State.setJutus_steady ?_
    | split

theorem State.loseRow_steady {x0 x1 x2} (h : Steady b t s) : Steady b t (State.loseRow x0 x1 x2 s) := by
  refine h.trans ?_
  unfold State.loseRow
  with_reducible repeat' first
    | exact Steady.refl _ | exact fun _ => rfl | refine State.watchdog_steady ?_ | refine State.loseEvents_steady ?_
    | refine State.loseKey_steady ?_ | refine State.bobbinRead_steady ?_ | refine State.startRecomp_steady ?_
    | refine State.setLostBytes_steady ?_ | refine State.invalidate_steady ?_ | refine State.setDies_steady ?_
    | refine State.note_steady ?_ | refine Steady.forEach (fun x st => ?_) ?_ | split | refine Steady.putFrame ?_ ?_

theorem State.uncorrected_steady {x0 x1} (h : Steady b t s) : Steady b t (State.uncorrected x0 x1 s) := by
  unfold State.uncorrected
  with_reducible repeat' first | exact h | refine State.updWatch_steady ?_ | refine State.watchNew_steady ?_ | split

theorem State.rowFound_steady {x0 x1 x2 x3} (h : Steady b t s) : Steady b t (State.rowFound x0 x1 x2 x3 s) := by
  unfold State.rowFound
  with_reducible repeat' first
    | exact h | refine State.countCorrected_steady ?_ | refine State.bump_steady ?_ | refine State.corrected_steady ?_
    | refine State.loseRow_steady ?_ | refine State.uncorrected_steady ?_ | refine State.countBad_steady ?_ | split

theorem State.internalPatrol_steady {x0} (h : Steady b t s) : Steady b t (State.internalPatrol x0 s) := by
  refine h.trans ?_
  unfold State.internalPatrol
  with_reducible repeat' first
    | exact Steady.refl _ | simp only [Steady.put] | refine State.rowFound_steady ?_ | refine State.bump_steady ?_
    | refine Steady.forEach (fun x st => ?_) ?_ | split

theorem State.setMemOpen_steady {x0} (h : Steady b t s) : Steady b t (State.setMemOpen x0 s) := State.tellLater_steady (Steady.put.mpr h)

theorem State.repairReadBack_steady {x0 x1} (h : Steady b t s) : Steady b t (State.repairReadBack x0 x1 s) := by
  unfold State.repairReadBack
  with_reducible repeat' first | exact h | refine State.updRepair_steady ?_ | refine State.placeRequest_steady ?_ | split

theorem State.repairDone_steady {x0 x1} (h : Steady b t s) : Steady b t (State.repairDone x0 x1 s) :=
  State.bump_steady (Steady.put.mpr (State.clearKey_steady h))

theorem State.repairWrite_steady {x0 x1 x2} (h : Steady b t s) : Steady b t (State.repairWrite x0 x1 x2 s) := by
  unfold State.repairWrite
  with_reducible repeat' first
    | exact h | refine State.updRepair_steady ?_ | refine State.pantryPut_steady ?_ | refine State.hearthPut_steady ?_
    | refine State.placeRequest_steady ?_ | split

theorem State.repairStage_steady {x0} (h : Steady b t s) : Steady b t (State.repairStage x0 s) := by
  unfold State.repairStage
  with_reducible repeat' first
    | exact h | refine State.repairReadBack_steady ?_ | refine State.repairDone_steady ?_ | refine State.repairWrite_steady ?_
    | refine State.holdRepair_steady ?_ | split

theorem State.repairAnswer_steady {x0 x1 x2} (h : Steady b t s) : Steady b t (State.repairAnswer x0 x1 x2 s) := by
  unfold State.repairAnswer
  with_reducible repeat' first
    | exact h | simp only [Steady.put] | refine State.updRepair_steady ?_ | refine State.repairStage_steady ?_ | split

theorem State.memItem_steady {x0 x1 x2 x3} (h : Steady b t s) : Steady b t (State.memItem x0 x1 x2 x3 s) := by
  unfold State.memItem
  with_reducible repeat' first
    | exact h | simp only [Steady.put] | refine State.countCorrected_steady ?_ | refine State.bump_steady ?_
    | refine State.addBad_steady ?_ | refine State.countBad_steady ?_ | refine State.setMemOpen_steady ?_
    | refine State.moveBadRead_steady ?_ | refine State.moveRead_steady ?_ | refine State.repairAnswer_steady ?_
    | refine State.homeTurn_steady ?_ | split

theorem State.memWritten_steady {x0 x1} (h : Steady b t s) : Steady b t (State.memWritten x0 x1 s) := by
  unfold State.memWritten
  with_reducible repeat' first
    | exact h | simp only [Steady.put] | refine State.memRequest_steady ?_ | refine State.tellLater_steady ?_ | refine State.note_steady ?_
    | refine State.addBad_steady ?_ | refine State.moveWritten_steady ?_ | refine State.repairAnswer_steady ?_
    | refine State.homeTurn_steady ?_ | split

theorem State.memResponse_steady {x0 x1 x2 x3 x4 x5} (h : Steady b t s) : Steady b t (State.memResponse x0 x1 x2 x3 x4 x5 s) := by
  unfold State.memResponse
  with_reducible repeat' first
    | exact h | refine State.bump_steady ?_ | refine State.memWritten_steady ?_ | refine State.memItem_steady ?_ | split

theorem State.mendMask_steady {x0 x1} (h : Steady b t s) : Steady b t (State.mendMask x0 x1 s) := by
  unfold State.mendMask
  with_reducible repeat' first
    | exact h | simp only [Steady.put] | refine State.takeMem_steady ?_ | refine State.markMask_steady ?_ | refine State.clearBad_steady ?_
    | refine State.spanWrite_steady ?_ | refine State.updHank_steady ?_ | split

theorem State.mergeIdle_steady {x0} (h : Steady b t s) : Steady b t (State.mergeIdle x0 s) := Steady.put.mpr h

theorem State.moveRow_steady {x0} (h : Steady b t s) : Steady b t (State.moveRow x0 s) := by
  unfold State.moveRow
  with_reducible repeat' first | exact h | simp only [Steady.put] | refine State.bump_steady ?_ | refine State.spendFree_steady ?_ | split

theorem State.pantryLine_steady {x0 x1 x2} (h : Steady b t s) : Steady b t (State.pantryLine x0 x1 x2 s) := by
  unfold State.pantryLine
  with_reducible repeat' first
    | exact h | refine State.closePantry_steady ?_ | refine State.addBadLines_steady ?_ | refine State.countBad_steady ?_
    | refine State.bump_steady ?_ | refine State.moveBadRead_steady ?_ | refine State.moveRead_steady ?_
    | refine State.repairAnswer_steady ?_ | refine State.homeTurn_steady ?_ | split

theorem State.pantryOverdue_steady {x0 x1} (h : Steady b t s) : Steady b t (State.pantryOverdue x0 x1 s) := by
  unfold State.pantryOverdue
  with_reducible repeat' first | exact h | refine State.bump_steady ?_ | split

theorem State.pantryWritten_steady {x0 x1} (h : Steady b t s) : Steady b t (State.pantryWritten x0 x1 s) := by
  unfold State.pantryWritten
  with_reducible repeat' first
    | exact h | simp only [Steady.put] | refine State.pantryRequest_steady ?_ | refine State.closePantry_steady ?_
    | refine State.note_steady ?_ | refine State.addBadLines_steady ?_ | refine State.moveWritten_steady ?_
    | refine State.repairAnswer_steady ?_ | refine State.homeTurn_steady ?_ | split

theorem State.pantryResponse_steady {x0 x1 x2 x3} (h : Steady b t s) : Steady b t (State.pantryResponse x0 x1 x2 x3 s) := by
  unfold State.pantryResponse
  with_reducible repeat' first
    | exact h | refine State.bump_steady ?_ | refine State.pantryWritten_steady ?_ | refine State.pantryLine_steady ?_ | split

theorem State.tryRepairWrite_steady {x0} (h : Steady b t s) : Steady b t (State.tryRepairWrite x0 s) := by
  unfold State.tryRepairWrite
  with_reducible repeat' first
    | exact h | simp only [Steady.put] | refine State.invalidate_steady ?_ | refine State.repairWrite_steady ?_ | split

theorem State.repairBytes_steady {x0 x1} (h : Steady b t s) : Steady b t (State.repairBytes x0 x1 s) := by
  unfold State.repairBytes
  with_reducible repeat' first | exact h | refine State.tryRepairWrite_steady ?_ | refine State.updRepair_steady ?_ | split

theorem State.repairFailed_steady {x0} (h : Steady b t s) : Steady b t (State.repairFailed x0 s) := State.holdRepair_steady h

theorem State.repairLost_steady {x0} (h : Steady b t s) : Steady b t (State.repairLost x0 s) := by
  unfold State.repairLost
  with_reducible repeat' first | exact h | refine State.repairFailed_steady ?_ | split

theorem State.repairGot_steady {x0} (h : Steady b t s) : Steady b t (State.repairGot x0 s) := by
  unfold State.repairGot
  with_reducible repeat' first
    | exact h | simp only [Steady.put] | refine State.repairBytes_steady ?_ | refine State.repairLost_steady ?_
    | refine State.startDecode_steady ?_ | split

theorem State.repairBegin_steady {x0} (h : Steady b t s) : Steady b t (State.repairBegin x0 s) := by
  unfold State.repairBegin
  with_reducible repeat' first
    | exact h | refine State.updRepair_steady ?_ | refine State.startDecode_steady ?_ | refine State.repairGot_steady ?_ | split

theorem State.repairPass_steady (h : Steady b t s) : Steady b t (State.repairPass s) := by
  refine h.trans ?_
  unfold State.repairPass
  with_reducible repeat' first
    | exact Steady.refl _ | refine State.tryRepairWrite_steady ?_ | refine State.repairStage_steady ?_
    | refine Steady.forEach (fun x st => ?_) ?_

theorem State.repairStart_steady (h : Steady b t s) : Steady b t (State.repairStart s) := by
  refine h.trans ?_
  unfold State.repairStart
  with_reducible repeat' first
    | exact Steady.refl _ | refine State.mendMask_steady ?_ | refine State.repairBegin_steady ?_
    | refine Steady.forEach (fun x st => ?_) ?_

theorem State.retireRows_steady {x0} (h : Steady b t s) : Steady b t (State.retireRows x0 s) := by
  refine h.trans ?_
  unfold State.retireRows
  with_reducible repeat' first
    | exact Steady.refl _ | simp only [Steady.put] | refine State.moveRow_steady ?_ | refine State.journalState_steady ?_
    | refine Steady.forEach (fun x st => ?_) ?_

theorem State.sramReads_steady (h : Steady b t s) : Steady b t (State.sramReads s) := by
  refine h.trans ?_
  unfold State.sramReads
  with_reducible repeat' first | exact Steady.refl _ | refine State.rowFound_steady ?_ | refine Steady.forEach (fun x st => ?_) ?_ | split

end Sys2Proof.Machine
end

section
/-! PROOFS. What the operations of Machine/Threshold.lean leave steady. -/

namespace Sys2Proof.Machine

variable {b : Bool} {t s : State}

theorem State.recordTakes_steady (h : Steady b t s) : Steady b t (State.recordTakes s) := by
  unfold State.recordTakes
  with_reducible repeat' first
    | exact h | simp only [Steady.put] | refine State.setReg_steady ?_ | refine State.contextApplies_steady ?_ | split

theorem State.dropNotices_steady {x0} (h : Steady b t s) : Steady b t (State.dropNotices x0 s) := by
  unfold State.dropNotices
  with_reducible repeat' first | exact h | simp only [Steady.put] | split

theorem State.zeroScalars_steady {x0} (h : Steady b t s) : Steady b t (State.zeroScalars x0 s) := Steady.put.mpr h

theorem State.vacateTurn_steady {x0 x1} (h : Steady b t s) : Steady b t (State.vacateTurn x0 x1 s) := by
  unfold State.vacateTurn
  with_reducible repeat' first | exact h | simp only [Steady.put] | refine State.vacateStart_steady ?_ | split

end Sys2Proof.Machine
end

section
/-! PROOFS. What the operations of Machine/Threshold.lean leave steady. -/

namespace Sys2Proof.Machine

variable {b : Bool} {t s : State}

theorem State.leaveSkein_steady (h : Steady b t s) : Steady b t (State.leaveSkein s) := Steady.put.mpr h

theorem State.keepOld_steady {x0} (h : Steady b t s) : Steady b t (State.keepOld x0 s) := Steady.put.mpr h

theorem State.takeLayout_steady {x0 x1} (h : Steady b t s) : Steady b t (State.takeLayout x0 x1 s) := by
  refine h.trans ?_
  unfold State.takeLayout
  with_reducible repeat' first
    | exact Steady.refl _ | simp only [Steady.put] | refine State.startRecomp_steady ?_ | refine Steady.forEach (fun x st => ?_) ?_ | split

theorem State.takeMembership_steady {x0} (h : Steady b t s) : Steady b t (State.takeMembership x0 s) := Steady.put.mpr h

theorem State.enterSkein_steady {x0 x1 x2} (h : Steady b t s) : Steady b t (State.enterSkein x0 x1 x2 s) := by
  refine h.trans ?_
  unfold State.enterSkein
  with_reducible repeat' first
    | exact Steady.refl _ | simp only [Steady.put] | refine State.coverPosition_steady ?_ | refine State.keepOld_steady ?_
    | refine State.takeLayout_steady ?_ | refine State.takeMembership_steady ?_ | refine Steady.forEach (fun x st => ?_) ?_ | split

theorem State.planSkein_steady {x0 x1} (h : Steady b t s) : Steady b t (State.planSkein x0 x1 s) := by
  unfold State.planSkein
  with_reducible repeat' first
    | exact h | simp only [Steady.put] | refine State.leaveSkein_steady ?_ | refine State.enterSkein_steady ?_ | split

theorem State.dropPagesOf_steady {x0} (h : Steady b t s) : Steady b t (State.dropPagesOf x0 s) := by
  refine h.trans ?_
  unfold State.dropPagesOf
  with_reducible repeat' first
    | exact Steady.refl _ | simp only [Steady.put] | refine State.dropMove_steady ?_ | refine State.answerDiscard_steady ?_
    | refine Steady.forEach (fun x st => ?_) ?_

theorem State.zeroTail_steady {x0 x1} (h : Steady b t s) : Steady b t (State.zeroTail x0 x1 s) := by
  unfold State.zeroTail
  with_reducible repeat' first
    | exact h | simp only [Steady.put] | refine State.pantryWrite_steady ?_ | refine State.hearthWrite_steady ?_ | split

theorem State.zeroMaskTail_steady {x0 x1} (h : Steady b t s) : Steady b t (State.zeroMaskTail x0 x1 s) := by
  unfold State.zeroMaskTail
  with_reducible repeat' first | exact h | simp only [Steady.put] | refine State.spanWrite_steady ?_ | split

theorem State.zeroPadding_steady {x0} (h : Steady b t s) : Steady b t (State.zeroPadding x0 s) := by
  refine h.trans ?_
  unfold State.zeroPadding
  with_reducible repeat' first
    | exact Steady.refl _ | refine State.zeroTail_steady ?_ | refine State.zeroMaskTail_steady ?_
    | refine Steady.forEach (fun x st => ?_) ?_ | split

theorem State.padHank_steady {x0} (h : Steady b t s) : Steady b t (State.padHank x0 s) := by
  unfold State.padHank
  with_reducible repeat' first
    | exact h | simp only [Steady.put] | refine State.zeroPadding_steady ?_ | refine State.invalidate_steady ?_ | split

theorem State.openHank_steady {x0} (h : Steady b t s) : Steady b t (State.openHank x0 s) := by
  unfold State.openHank
  with_reducible repeat' first
    | exact h | simp only [Steady.put] | refine State.dropPagesOf_steady ?_ | refine State.freshMap_steady ?_
    | refine State.padHank_steady ?_ | split

theorem State.openHanks_steady {x0} (h : Steady b t s) : Steady b t (State.openHanks x0 s) := by
  refine h.trans ?_
  unfold State.openHanks
  with_reducible repeat' first | exact Steady.refl _ | refine State.openHank_steady ?_ | refine Steady.forEach (fun x st => ?_) ?_

theorem State.applyPlan_steady {x0 x1} (h : Steady b t s) : Steady b t (State.applyPlan x0 x1 s) := by
  unfold State.applyPlan
  with_reducible repeat' first
    | exact h | simp only [Steady.put] | refine State.recordTakes_steady ?_ | refine State.dropNotices_steady ?_
    | refine State.zeroScalars_steady ?_ | refine State.contextEpoch_steady ?_ | refine State.vacateTurn_steady ?_
    | refine State.planSkein_steady ?_ | refine State.openHanks_steady ?_ | refine State.helloAll_steady ?_
    | refine State.changed_steady ?_ | split

theorem State.keyTurn_steady (h : Steady b t s) : Steady b t (State.keyTurn s) := by
  unfold State.keyTurn
  with_reducible repeat' first | exact h | simp only [Steady.put] | split

theorem State.endHomeMoves_steady (h : Steady b t s) : Steady b t (State.endHomeMoves s) := by
  unfold State.endHomeMoves
  with_reducible repeat' first | exact h | simp only [Steady.put] | split

theorem State.discardPlan_steady {x0 x1} (h : Steady b t s) : Steady b t (State.discardPlan x0 x1 s) := by
  unfold State.discardPlan
  with_reducible repeat' first
    | exact h | simp only [Steady.put] | refine State.writeRefusal_steady ?_ | refine State.setAdm_steady ?_ | refine State.raise_steady ?_
    | refine State.bump_steady ?_

theorem State.planTurn_steady {x0} (h : Steady b t s) : Steady b t (State.planTurn x0 s) := by
  unfold State.planTurn
  with_reducible repeat' first | exact h | refine State.discardPlan_steady ?_ | refine State.applyPlan_steady ?_ | split

theorem State.dropPages_steady (h : Steady b t s) : Steady b t (State.dropPages s) := by
  refine h.trans ?_
  unfold State.dropPages
  with_reducible repeat' first
    | exact Steady.refl _ | refine State.dropPagesOf_steady ?_ | refine State.homeDrop_steady ?_
    | refine Steady.forEach (fun x st => ?_) ?_

theorem State.emptyHanks_steady (h : Steady b t s) : Steady b t (State.emptyHanks s) := Steady.put.mpr h

theorem State.vacateOthers_steady (h : Steady b t s) : Steady b t (State.vacateOthers s) := Steady.put.mpr h

theorem State.heldSkein_steady {x0} (h : Steady b t s) : Steady b t (State.heldSkein x0 s) := by
  unfold State.heldSkein
  with_reducible repeat' first
    | exact h | refine State.helloAll_steady ?_ | refine State.enterSkein_steady ?_ | refine State.leaveSkein_steady ?_ | split

theorem State.heldHanks_steady {x0} (h : Steady b t s) : Steady b t (State.heldHanks x0 s) := State.openHanks_steady (Steady.put.mpr h)

theorem State.putClock_steady {x0} (h : Steady b t s) : Steady b t (State.putClock x0 s) := State.setReg_steady (Steady.put.mpr h)

theorem State.putStaged_steady {x0 x1 x2} (h : Steady b t s) : Steady b t (State.putStaged x0 x1 x2 s) := by
  unfold State.putStaged
  with_reducible repeat' first
    | exact h | simp only [Steady.put] | refine State.putClock_steady ?_ | refine State.putTwist_steady ?_
    | refine State.switchover_steady ?_ | refine State.setReg_steady ?_ | refine State.journalState_steady ?_
    | refine State.setHealth_steady ?_ | refine State.retireRows_steady ?_ | split

theorem State.discardStaged_steady {x0} (h : Steady b t s) : Steady b t (State.discardStaged x0 s) :=
  State.raise_steady (State.bump_steady (Steady.put.mpr h))

theorem State.stagedTurn_steady {x0 x1} (h : Steady b t s) : Steady b t (State.stagedTurn x0 x1 s) := by
  unfold State.stagedTurn
  with_reducible repeat' first
    | exact h | simp only [Steady.put] | refine State.putStaged_steady ?_ | refine State.bump_steady ?_
    | refine State.discardStaged_steady ?_ | split

theorem State.tableTurn_steady (h : Steady b t s) : Steady b t (State.tableTurn s) := by
  unfold State.tableTurn
  with_reducible repeat' first | exact h | simp only [Steady.put] | refine State.bump_steady ?_ | split

theorem State.countSeeds_steady (h : Steady b t s) : Steady b t (State.countSeeds s) := State.bump_steady h

theorem State.fixTwist_steady (h : Steady b t s) : Steady b t (State.fixTwist s) := Steady.put.mpr h

theorem State.stagedAll_steady {x0} (h : Steady b t s) : Steady b t (State.stagedAll x0 s) := by
  refine h.trans ?_
  unfold State.stagedAll
  with_reducible repeat' first
    | exact Steady.refl _ | simp only [Steady.put] | refine State.stagedTurn_steady ?_ | refine State.tableTurn_steady ?_
    | refine State.countSeeds_steady ?_ | refine State.fixTwist_steady ?_ | refine State.readmit_steady ?_
    | refine Steady.forEach (fun x st => ?_) ?_ | split

theorem State.dropRepairs_steady (h : Steady b t s) : Steady b t (State.dropRepairs s) := Steady.put.mpr h

theorem State.applySettings_steady {x0} (h : Steady b t s) : Steady b t (State.applySettings x0 s) := by
  unfold State.applySettings
  with_reducible repeat' first
    | exact h | refine State.keyTurn_steady ?_ | refine State.carryPlies_steady ?_ | refine State.endHomeMoves_steady ?_
    | refine State.planTurn_steady ?_ | refine State.dropPages_steady ?_ | refine State.emptyHanks_steady ?_
    | refine State.vacateOthers_steady ?_ | refine State.heldSkein_steady ?_ | refine State.heldHanks_steady ?_
    | refine State.stagedAll_steady ?_ | refine State.dropRepairs_steady ?_

theorem State.beginStep_steady {x0} (h : Steady b t s) : Steady b t (State.beginStep x0 s) := by
  unfold State.beginStep
  with_reducible repeat' first
    | exact h | refine State.drainOpen_steady ?_ | refine State.evacStart_steady ?_ | refine State.oweOpened_steady ?_
    | refine State.countHeaders_steady ?_ | refine State.releaseReads_steady ?_ | refine State.releaseSets_steady ?_
    | refine State.serveProbe_steady ?_ | refine State.viewOnlyPass_steady ?_ | refine State.moverPass_steady ?_
    | refine State.acceptJobs_steady ?_

theorem State.cleanTiles_steady (h : Steady b t s) : Steady b t (State.cleanTiles s) := Steady.put.mpr h

theorem State.endStep_steady (h : Steady b t s) : Steady b t (State.endStep s) := by
  unfold State.endStep
  with_reducible repeat' first
    | exact h | simp only [Steady.put] | refine State.cleanTiles_steady ?_ | refine State.lossThreshold_steady ?_
    | refine State.ledgerThreshold_steady ?_ | refine State.landingThreshold_steady ?_ | refine State.shedThreshold_steady ?_
    | refine State.flushSuppressed_steady ?_

theorem State.keepContext_steady (h : Steady b t s) : Steady b t (State.keepContext s) := Steady.put.mpr h

theorem State.houseThreshold_steady (h : Steady b t s) : Steady b t (State.houseThreshold s) := by
  unfold State.houseThreshold
  with_reducible repeat' first
    | exact h | refine State.retryJournal_steady ?_ | refine State.journalEvents_steady ?_ | refine State.journalState_steady ?_
    | refine State.heldSwitch_steady ?_ | split

theorem State.fencedThreshold_steady {x0} (h : Steady false t s) : Steady false t (State.fencedThreshold x0 s) := by
  unfold State.fencedThreshold
  with_reducible repeat' first
    | exact h | refine State.applySettings_steady ?_ | refine State.emit_steady ?_ | refine State.keepContext_steady ?_
    | refine State.houseThreshold_steady ?_ | refine State.vacateFinish_steady ?_

theorem State.keepPrev_steady (h : Steady b t s) : Steady b t (State.keepPrev s) := Steady.put.mpr h

theorem State.traceOpen_steady {x0 x1} (h : Steady b t s) : Steady b t (State.traceOpen x0 x1 s) := Steady.put.mpr h

theorem State.openFrame_steady {x0 x1} (h : Steady false t s) : Steady false t (State.openFrame x0 x1 s) := by
  unfold State.openFrame
  with_reducible repeat' first
    | exact h | exact fun h => absurd h Bool.false_ne_true | refine State.traceOpen_steady ?_ | refine State.emit_steady ?_
    | refine Steady.putFrame ?_ ?_

theorem State.retryPads_steady (h : Steady b t s) : Steady b t (State.retryPads s) := by
  refine h.trans ?_
  unfold State.retryPads
  with_reducible repeat' first
    | exact Steady.refl _ | simp only [Steady.put] | refine State.padHank_steady ?_ | refine Steady.forEach (fun x st => ?_) ?_ | split

theorem State.threshold_steady {x0 x1} (h : Steady false t s) : Steady false t (State.threshold x0 x1 s) := by
  unfold State.threshold
  with_reducible repeat' first
    | exact h | refine State.endStep_steady ?_ | refine State.keepPrev_steady ?_ | refine State.heatThreshold_steady ?_
    | refine State.applySettings_steady ?_ | refine State.beginStep_steady ?_ | refine State.openFrame_steady ?_
    | refine State.keepContext_steady ?_ | refine State.houseThreshold_steady ?_

end Sys2Proof.Machine
end

section
/-! PROOFS. What the operations of Machine/Tick.lean leave steady. -/

namespace Sys2Proof.Machine

variable {b : Bool} {t s : State}

theorem State.copyDone_steady (h : Steady b t s) : Steady b t (State.copyDone s) := by
  unfold State.copyDone
  with_reducible repeat' first | exact h | simp only [Steady.put] | split

theorem State.creditBack_steady {x0 x1 x2 x3} (h : Steady b t s) : Steady b t (State.creditBack x0 x1 x2 x3 s) := by
  refine h.trans ?_
  unfold State.creditBack
  with_reducible repeat' first
    | exact Steady.refl _ | simp only [Steady.put] | refine State.countNote_steady ?_ | refine State.setCredit_steady ?_
    | refine State.countReturned_steady ?_ | refine Steady.forEach (fun x st => ?_) ?_ | split

theorem State.grantClass_steady {x0 x1 x2 x3} (h : Steady b t s) : Steady b t (State.grantClass x0 x1 x2 x3 s) := by
  unfold State.grantClass
  with_reducible repeat' first
    | exact h | simp only [Steady.put] | refine State.countNote_steady ?_ | refine State.setCredit_steady ?_ | split

theorem State.creditInit_steady {x0 x1 x2} (h : Steady b t s) : Steady b t (State.creditInit x0 x1 x2 s) := by
  refine h.trans ?_
  unfold State.creditInit
  with_reducible repeat' first
    | exact Steady.refl _ | simp only [Steady.put] | refine State.grantClass_steady ?_ | refine State.pump_steady ?_
    | refine Steady.forEach (fun x st => ?_) ?_ | split

theorem State.creditReturn_steady {x0 x1 x2} (h : Steady b t s) : Steady b t (State.creditReturn x0 x1 x2 s) := by
  refine h.trans ?_
  unfold State.creditReturn
  with_reducible repeat' first
    | exact Steady.refl _ | refine State.creditBack_steady ?_ | refine State.pump_steady ?_ | refine Steady.forEach (fun x st => ?_) ?_
    | split

theorem State.delaySeal_steady (h : Steady b t s) : Steady b t (State.delaySeal s) := by
  unfold State.delaySeal
  with_reducible repeat' first | exact h | exact fun _ => rfl | refine State.countNote_steady ?_ | split | refine Steady.putFrame ?_ ?_

theorem State.earlyTick_steady {x0} (h : Steady false t s) : Steady false t (State.earlyTick x0 s) := by
  unfold State.earlyTick
  with_reducible repeat' first
    | exact h | exact fun h => absurd h Bool.false_ne_true | refine State.countNote_steady ?_ | refine State.fence_steady ?_ | split
    | refine Steady.putFrame ?_ ?_

theorem State.fencedTick_steady {x0} (h : Steady false t s) : Steady false t (State.fencedTick x0 s) := by
  unfold State.fencedTick
  with_reducible repeat' first | exact h | refine State.fencedThreshold_steady ?_ | refine State.bump_steady ?_ | split

theorem State.hallInvalid_steady {x0 x1} (h : Steady b t s) : Steady b t (State.hallInvalid x0 x1 s) := by
  unfold State.hallInvalid
  with_reducible repeat' first | exact h | simp only [Steady.put] | refine State.sampleTime_steady ?_ | refine State.bump_steady ?_ | split

theorem State.hallValid_steady {x0} (h : Steady b t s) : Steady b t (State.hallValid x0 s) := State.sampleTime_steady (Steady.put.mpr h)

theorem State.invAck_steady {x0 x1} (h : Steady b t s) : Steady b t (State.invAck x0 x1 s) := by
  unfold State.invAck
  with_reducible repeat' first | exact h | refine State.bump_steady ?_ | refine State.closeInv_steady (by assumption) ?_ | split

theorem State.invOverdue_steady {x0 x1} (h : Steady b t s) : Steady b t (State.invOverdue x0 x1 s) := by
  unfold State.invOverdue
  with_reducible repeat' first | exact h | refine State.countNote_steady ?_ | split

theorem State.noteReady_steady (h : Steady b t s) : Steady b t (State.noteReady s) := by
  unfold State.noteReady
  with_reducible repeat' first | exact h | exact fun _ => rfl | split | refine Steady.putFrame ?_ ?_

theorem State.traceRollcall_steady {x0} (h : Steady b t s) : Steady b t (State.traceRollcall x0 s) := Steady.put.mpr h

theorem State.rollcall_steady {x0 x1 x2} (h : Steady false t s) : Steady false t (State.rollcall x0 x1 x2 s) := by
  unfold State.rollcall
  with_reducible repeat' first
    | exact h | simp only [Steady.put] | refine State.sampleTime_steady ?_ | refine State.bump_steady ?_
    | refine State.serveHeldOut_steady ?_ | refine State.advanceComps_steady ?_ | refine State.probeRollcall_steady ?_
    | refine State.classLosses_steady ?_ | refine State.rollcallAt_steady ?_ | refine State.traceRollcall_steady ?_ | split

theorem State.traceSeal_steady {x0} (h : Steady b t s) : Steady b t (State.traceSeal x0 s) := Steady.put.mpr h

theorem State.sealStep_steady (h : Steady false t s) : Steady false t (State.sealStep s) := by
  unfold State.sealStep
  with_reducible repeat' first
    | exact h | exact fun h => absurd h Bool.false_ne_true | refine State.traceSeal_steady ?_ | refine State.countNote_steady ?_
    | refine State.setMemState_steady ?_ | refine State.copyGo_steady ?_ | refine State.vacateFinish_steady ?_
    | refine State.threshold_steady ?_ | split | refine Steady.putFrame ?_ ?_

theorem State.unready_steady (h : Steady b t s) : Steady b t (State.unready s) := by
  unfold State.unready
  with_reducible repeat' first | exact h | exact fun _ => rfl | refine Steady.putFrame ?_ ?_

theorem State.withholdSeal_steady (h : Steady b t s) : Steady b t (State.withholdSeal s) := by
  unfold State.withholdSeal
  with_reducible repeat' first | exact h | exact fun _ => rfl | refine State.countNote_steady ?_ | split | refine Steady.putFrame ?_ ?_

theorem State.trySeal_steady (h : Steady false t s) : Steady false t (State.trySeal s) := by
  unfold State.trySeal
  with_reducible repeat' first
    | exact h | simp only [Steady.put] | refine State.unready_steady ?_ | refine State.noteReady_steady ?_
    | refine State.withholdSeal_steady ?_ | refine State.delaySeal_steady ?_ | refine State.sealStep_steady ?_ | split

theorem State.settlePlan_steady (h : Steady false t s) : Steady false t (State.settlePlan s) := by
  unfold State.settlePlan
  with_reducible repeat' first
    | exact h | refine State.recodePass_steady ?_ | refine State.issueDue_steady ?_ | refine State.sendReports_steady ?_
    | refine State.vacateFinish_steady ?_ | refine State.vacatePass_steady ?_ | refine State.serveHeldOut_steady ?_
    | refine State.retryPads_steady ?_ | refine State.drainGo_steady ?_ | refine State.copyGo_steady ?_
    | refine State.viewOnlyPass_steady ?_ | refine State.moverPass_steady ?_ | refine State.retryMoves_steady ?_
    | refine State.markLost_steady ?_ | refine State.retryDiscards_steady ?_ | refine State.jobPass_steady ?_
    | refine State.atomicPass_steady ?_ | refine State.heldPass_steady ?_ | refine State.repairPass_steady ?_
    | refine State.retryCommits_steady ?_ | refine State.retryRestore_steady ?_ | refine State.retryFills_steady ?_
    | refine State.trySeal_steady ?_ | refine State.auditAgain_steady ?_

theorem State.settleAll_steady (h : Steady false t s) : Steady false t (State.settleAll s) := by
  unfold State.settleAll
  with_reducible repeat' first | exact h | refine State.settlePlan_steady ?_ | split

theorem State.siteEarly_steady {x0} (h : Steady b t s) : Steady b t (State.siteEarly x0 s) := by
  unfold State.siteEarly
  with_reducible repeat' first | exact h | refine State.earlyTurn_steady ?_ | split

theorem State.siteLate_steady {x0 x1} (h : Steady b t s) : Steady b t (State.siteLate x0 x1 s) := by
  unfold State.siteLate
  with_reducible repeat' first
    | exact h | simp only [Steady.put] | refine State.sampleTime_steady ?_ | refine State.landingPass_steady ?_
    | refine State.siteTurn_steady ?_ | split

theorem State.tick_steady {x0 x1} (h : Steady false t s) : Steady false t (State.tick x0 x1 s) := by
  unfold State.tick
  with_reducible repeat' first
    | exact h | simp only [Steady.put] | refine State.sampleTime_steady ?_ | refine State.fencedTick_steady ?_
    | refine State.countNote_steady ?_ | refine State.earlyTick_steady ?_ | refine State.fence_steady ?_ | refine State.threshold_steady ?_
    | split

end Sys2Proof.Machine
end

section
/-! PROOFS. What the operations of Machine/Local.lean leave steady. -/

namespace Sys2Proof.Machine

variable {b : Bool} {t s : State}

theorem State.ready_steady {x0} (hx0 : ∀ {t s}, Steady b t s → Steady b t (x0 s)) (h : Steady b t s) : Steady b t (State.ready x0 s) := by
  unfold State.ready
  with_reducible repeat' first | exact h | refine hx0 ?_ | split

theorem State.awake_steady {x0} (hx0 : ∀ {t s}, Steady b t s → Steady b t (x0 s)) (h : Steady b t s) : Steady b t (State.awake x0 s) := by
  unfold State.awake
  with_reducible repeat' first | exact h | refine hx0 ?_ | split

theorem State.atPort_steady {x0 x1} (hx1 : ∀ {t s}, Steady b t s → Steady b t (x1 s)) (h : Steady b t s) :
    Steady b t (State.atPort x0 x1 s) := by
  refine h.trans ?_
  clear h
  unfold State.atPort
  with_reducible repeat' first
    | exact Steady.refl _ | assumption | refine State.ready_steady (fun hk => ?_) ?_ | refine State.awake_steady (fun hk => ?_) ?_
    | refine hx1 ?_ | split

theorem State.cellarPoison_steady {x0 x1} (h : Steady b t s) : Steady b t (State.cellarPoison x0 x1 s) := by
  unfold State.cellarPoison
  with_reducible repeat' first | exact h | refine State.bump_steady ?_ | split

theorem State.decodeResult_steady {x0} (h : Steady b t s) : Steady b t (State.decodeResult x0 s) := by
  unfold State.decodeResult
  with_reducible repeat' first
    | exact h | simp only [Steady.put] | refine State.repairGot_steady ?_ | refine State.hallDecoded_steady ?_
    | refine State.gotOld_steady ?_ | split

theorem State.handle_steady {x0 : HeldMsg → State → State} {x : State × Option HeldMsg} (hx0 :
    ∀ {m t s}, Steady false t s → Steady false t (x0 m s)) (h : Steady false t x.1) : Steady false t (State.handle x0 x) := by
  unfold State.handle
  split
  · exact h
  · exact State.settleAll_steady (hx0 (State.onAccepted_steady h))

theorem State.writeEnd_steady {x0 x1} (h : Steady b t s) : Steady b t (State.writeEnd x0 x1 s) := by
  unfold State.writeEnd
  with_reducible repeat' first
    | exact h | refine State.drainAnswer_steady ?_ | refine State.moveWritten_steady ?_ | refine State.moveFailed_steady ?_
    | refine State.jobWritten_steady ?_ | split

theorem State.onWcomp_steady {x0} (h : Steady b t s) : Steady b t (State.onWcomp x0 s) := by
  unfold State.onWcomp
  with_reducible repeat' first | exact h | refine State.writeEnd_steady ?_ | refine State.freeReq_steady ?_ | split

theorem State.readEnd_steady {x0 x1} (h : Steady b t s) : Steady b t (State.readEnd x0 x1 s) := by
  unfold State.readEnd
  with_reducible repeat' first
    | exact h | refine State.restoreAnswer_steady ?_ | refine State.moveRead_steady ?_ | refine State.moveFailed_steady ?_
    | refine State.jobData_steady ?_ | split

theorem State.onRdata_steady {x0} (h : Steady b t s) : Steady b t (State.onRdata x0 s) := by
  unfold State.onRdata
  with_reducible repeat' first
    | exact h | refine State.readEnd_steady ?_ | refine State.freeReq_steady ?_ | refine State.cellarPoison_steady ?_ | split

theorem State.readAnswer_steady {x0} (h : Steady b t s) : Steady b t (State.readAnswer x0 s) := by
  unfold State.readAnswer
  with_reducible repeat' first
    | exact h | refine State.bump_steady ?_ | refine State.freeReq_steady ?_ | refine State.feedRecomp_steady ?_
    | refine State.feedComp_steady ?_ | refine State.feedDecode_steady ?_ | refine State.decodeResult_steady ?_ | split

theorem State.onMessage_steady {x0} (h : Steady false t s) : Steady false t (State.onMessage x0 s) := by
  unfold State.onMessage
  with_reducible repeat' first
    | exact h | refine State.onWcomp_steady ?_ | refine State.onRdata_steady ?_ | refine State.fabricAtomic_steady ?_
    | refine State.onDeltaSet_steady ?_ | refine State.onDeltaAck_steady ?_ | refine State.onMirrorPiece_steady ?_
    | refine State.onMirrorAck_steady ?_ | refine State.onReRequest_steady ?_ | refine State.onReAnswer_steady ?_
    | refine State.onPlyRead_steady ?_ | refine State.onStripeRead_steady ?_ | refine State.readAnswer_steady ?_
    | refine State.onFillSet_steady ?_ | refine State.onFillAck_steady ?_ | refine State.onReport_steady ?_
    | refine State.onReportAck_steady ?_ | refine State.onHello_steady ?_ | refine State.onHeartbeat_steady ?_
    | refine State.onVote_steady ?_ | refine State.onEpochRequest_steady ?_ | refine State.onEpochRecord_steady ?_
    | refine State.onVacate_steady ?_ | refine State.onVacateAck_steady ?_ | refine State.onRecoded_steady ?_
    | refine State.onNotice_steady ?_ | refine State.onOcper_steady ?_ | split

theorem State.receiveLocal_steady {x0} (h : Steady b t s) : Steady b t (State.receiveLocal x0 s).1 := by
  unfold State.receiveLocal
  with_reducible repeat' first
    | exact h | simp only [Steady.put] | refine State.discard_steady ?_ | refine State.authFailure_steady ?_ | refine State.bump_steady ?_
    | split

theorem State.localPass_steady {x0} (h : Steady false t s) : Steady false t (State.localPass x0 s) := by
  refine h.trans ?_
  clear h
  induction x0 generalizing s
  · unfold State.localPass
    exact Steady.refl _
  · rename_i k ih
    have ih' : ∀ {t s : State}, Steady false t s → Steady false t (State.localPass k s) := fun h => h.trans (by apply ih)
    clear ih
    unfold State.localPass
    with_reducible repeat' first
      | exact Steady.refl _ | assumption | simp only [Steady.put] | refine State.handle_steady (fun hk => ?_) ?_
      | refine State.onMessage_steady ?_ | refine State.receiveLocal_steady ?_ | refine ih' ?_ | split

theorem State.rxPass_steady {x0} (h : Steady false t s) : Steady false t (State.rxPass x0 s) := by
  refine h.trans ?_
  clear h
  induction x0 generalizing s
  · unfold State.rxPass
    exact Steady.refl _
  · rename_i k ih
    have ih' : ∀ {t s : State}, Steady false t s → Steady false t (State.rxPass k s) := fun h => h.trans (by apply ih)
    clear ih
    unfold State.rxPass
    with_reducible repeat' first
      | exact Steady.refl _ | assumption | simp only [Steady.put] | refine State.handle_steady (fun hk => ?_) ?_
      | refine State.onMessage_steady ?_ | refine State.receive_steady ?_ | refine ih' ?_ | split

theorem State.journalRaise_steady (h : Steady b t s) : Steady b t (State.journalRaise s) := by
  unfold State.journalRaise
  with_reducible repeat' first | exact h | simp only [Steady.put] | refine State.append_steady ?_ | split

theorem State.finish_steady (h : Steady false t s) : Steady false t (State.finish s) := by
  unfold State.finish
  with_reducible repeat' first
    | exact h | refine State.localPass_steady ?_ | refine State.rxPass_steady ?_ | refine State.loseWrites_steady ?_
    | refine State.compactIfDue_steady ?_ | refine State.journalIfFull_steady ?_ | refine State.journalRaise_steady ?_
    | refine State.evictOver_steady ?_

theorem State.fromWay_steady {x0 x1 x2 x3} (hx3 : ∀ {m t s}, Steady false t s → Steady false t (x3 m s)) (h : Steady false t s) :
    Steady false t (State.fromWay x0 x1 x2 x3 s) := by
  refine h.trans ?_
  clear h
  unfold State.fromWay
  with_reducible repeat' first
    | exact Steady.refl _ | assumption | simp only [Steady.put] | refine State.awake_steady (fun hk => ?_) ?_
    | refine State.handle_steady (fun hk => ?_) ?_ | refine State.receive_steady ?_ | refine hx3 ?_ | split

theorem State.guarded_steady {x0} (hx0 : ∀ {t s}, Steady b t s → Steady b t (x0 s)) (h : Steady b t s) :
    Steady b t (State.guarded x0 s) := by
  unfold State.guarded
  with_reducible repeat' first | exact h | refine hx0 ?_ | split

theorem State.sendAgain_steady {x0} (h : Steady b t s) : Steady b t (State.sendAgain x0 s) := State.enqueue_steady h

theorem State.requestFails_steady {x0} (h : Steady b t s) : Steady b t (State.requestFails x0 s) := by
  unfold State.requestFails
  with_reducible repeat' first
    | exact h | refine State.writeEnd_steady ?_ | refine State.readEnd_steady ?_ | refine State.sendAgain_steady ?_ | split

theorem State.requestTimeout_steady {x0 x1} (h : Steady b t s) : Steady b t (State.requestTimeout x0 x1 s) := by
  unfold State.requestTimeout
  with_reducible repeat' first
    | exact h | refine State.requestFails_steady ?_ | refine State.bump_steady ?_ | refine State.freeReq_steady ?_ | split

end Sys2Proof.Machine
end

section
/-! PROOFS. What the operations of Machine/ExecFabric.lean leave steady. -/

namespace Sys2Proof.Machine

variable {b : Bool} {t s : State}

theorem State.sampledSet_steady {x0 x1} (h : Steady b t s) : Steady b t (State.sampledSet x0 x1 s) := by
  refine h.trans ?_
  unfold State.sampledSet
  with_reducible repeat' first
    | exact Steady.refl _ | simp only [Steady.put] | refine State.trySet_steady ?_ | refine State.unitFault_steady ?_
    | refine Steady.forEach (fun x st => ?_) ?_ | split

end Sys2Proof.Machine
end

section
/-! PROOFS. What the operations of Machine/ExecDict.lean leave steady. -/

namespace Sys2Proof.Machine

variable {b : Bool} {t s : State}

theorem State.portReadOut_steady {x0} (h : Steady b t s) : Steady b t (State.portReadOut x0 s) :=
  State.emit_steady (State.wordRead_steady h)

theorem State.valueReadOut_steady {x0 x1} (h : Steady b t s) : Steady b t (State.valueReadOut x0 x1 s) := by
  unfold State.valueReadOut
  with_reducible repeat' first
    | exact h | refine State.emit_steady ?_ | refine State.countRetry_steady ?_ | refine State.noEntry_steady ?_
    | refine State.refuseWrite_steady ?_ | refine State.afterRead_steady ?_ | split

end Sys2Proof.Machine
end

section
/-! PROOFS. The TAP controller stands where it rests between commands (log 189): a step changes it only by whole scans of the test port. -/

namespace Sys2Proof.Machine

section
variable {c : Instr} {s t : State} {mem : MemAns} {f : State → State} {p : Prop} [Decidable p] {r : Fault}

theorem Steady.ite {u : State} (h1 : Steady false s t) (h2 : Steady false s u) : Steady false s (if p then t else u) := by
  split
  · exact h1
  · exact h2

theorem State.begun_rests (h : s.Rests) : (State.begun mem s).Rests :=
  (State.sramReads_steady (b := false) (Steady.refl (State.begin mem s))).rest h

theorem State.finish_rests (h : s.Rests) : s.finish.Rests := (State.finish_steady (Steady.refl s)).rest h

theorem State.settleAll_rests (h : s.Rests) : s.settleAll.Rests := (State.settleAll_steady (Steady.refl s)).rest h

/-! ## The test port's own commands -/

theorem State.jtagId_rests (h : s.Rests) : s.jtagId.Rests := by
  rw [State.jtagId_eq h]
  exact .inl rfl

theorem State.jtagBypassed_rests {code : Nat} (h : s.Rests) : (State.jtagBypassed code s).Rests := by
  rw [State.jtagBypassed_eq h]
  exact .inl rfl

theorem State.jtagTest_rests {start : Bool} (h : s.Rests) : (State.jtagTest start s).Rests := by
  obtain ⟨_, _, _, -, -, he⟩ := State.jtagTest_eq start h
  rw [he]
  exact .inl rfl

/-- Both scans of DICTRD end in Run-Test/Idle, whatever the word that it reads. -/
theorem State.jtagDict_rests {addr : Nat} (h : s.Rests) : (State.jtagDict addr s).Rests := by
  by_cases hd : s.sys.lzReset = true ∨ s.sys.ready = false
  · rw [State.jtagDict_eq addr h (State.dictUpdate_low addr hd) rfl rfl]
    exact .inl rfl
  · obtain ⟨hl, hr⟩ := not_or.mp hd
    rw [State.jtagDict_eq addr h (State.dictUpdate_up addr (Bool.eq_false_iff.mpr hl) (Bool.not_eq_false _ ▸ hr))
      (congrArg JtagSt.ir (State.wordRead_jtag _ _)) (congrArg JtagSt.tap (State.wordRead_jtag _ _))]
    exact .inl rfl

theorem State.mbistEnd_rests {fail : Bool} {bank : Nat} (h : s.Rests) : (State.mbistEnd fail bank s).Rests := by
  unfold State.mbistEnd
  split
  · exact h
  · exact h

theorem State.jtagTlr_rests (_ : s.Rests) : s.jtagTlr.Rests := .inr rfl

theorem State.lzReset_rests {level : Bool} {n : Nat} (h : s.Rests) : (State.lzReset level n s).Rests := by
  unfold State.lzReset
  split
  · exact h
  · split
    · exact (Steady.forEach (b := false) (fun _ _ => State.emit_steady (Steady.refl _)) (Steady.refl _)).rest h
    · exact h

theorem State.readOut_rests {path : Path} {addr : Nat} (h : s.Rests) : (State.readOut path addr s).Rests := by
  cases path
  case regPort => exact (State.portReadOut_steady (b := false) (Steady.refl s)).rest h
  case jtag => exact State.jtagDict_rests h
  case jutus => exact (State.valueReadOut_steady (b := false) (Steady.refl s)).rest h
  case ocper => exact (State.valueReadOut_steady (b := false) (Steady.refl s)).rest h

theorem State.bulk_rests {path : Path} (h : s.Rests) :
    (if path = .regPort then s.ownWrite .regPort 0x10FD01 (.num 0x5FFE02) else s.readOut path 0x5FFE02).Rests := by
  split
  · exact (State.ownWrite_steady (Steady.refl s)).rest h
  · exact State.readOut_rests h

theorem State.atPort_rests {path : Path} (hf : ∀ {s : State}, s.Rests → (f s).Rests) (h : s.Rests) : (s.atPort path f).Rests := by
  unfold State.atPort State.ready State.awake
  split
  · split
    · exact hf h
    · exact h
  · split
    · exact h
    · exact hf h

/-! ## What a command makes of its effect -/

theorem rests_of_scan (hx : Host.Outcome.next (State.run f s) = (.next t : Host.Outcome State Fault Refusal))
    (hf : ∀ {s : State}, s.Rests → (f s).Rests) (h : s.Rests) : t.Rests := by
  cases hx
  exact State.finish_rests (hf (State.begun_rests h))

theorem rests_of_run (hx : Host.Outcome.next (State.run f s) = (.next t : Host.Outcome State Fault Refusal))
    (hf : ∀ {t s : State}, Steady false t s → Steady false t (f s)) (h : s.Rests) : t.Rests :=
  rests_of_scan hx (fun k => (hf (Steady.refl _)).rest k) h

theorem rests_of_runMem (hx : Host.Outcome.next (State.runMem mem f s) = (.next t : Host.Outcome State Fault Refusal))
    (hf : ∀ {t s : State}, Steady false t s → Steady false t (f s)) (h : s.Rests) : t.Rests := by
  cases hx
  exact State.finish_rests ((hf (Steady.refl _)).rest (State.begun_rests h))

theorem rests_of_runSettledMem (hx : Host.Outcome.next (State.runSettledMem mem f s) = (.next t : Host.Outcome State Fault Refusal))
    (hf : ∀ {t s : State}, Steady false t s → Steady false t (f s)) (h : s.Rests) : t.Rests := by
  cases hx
  exact State.finish_rests (State.settleAll_rests ((hf (Steady.refl _)).rest (State.begun_rests h)))

theorem rests_of_port_run (hx : (if p then .next (State.run f s) else .fault r : Host.Outcome State Fault Refusal) = .next t)
    (hf : ∀ {t s : State}, Steady false t s → Steady false t (f s)) (h : s.Rests) : t.Rests := by
  split at hx
  · exact rests_of_run hx hf h
  · cases hx

theorem rests_of_port_runSettledMem
    (hx : (if p then .next (State.runSettledMem mem f s) else .fault r : Host.Outcome State Fault Refusal) = .next t)
    (hf : ∀ {t s : State}, Steady false t s → Steady false t (f s)) (h : s.Rests) : t.Rests := by
  split at hx
  · exact rests_of_runSettledMem hx hf h
  · cases hx

/-- The own effect of a message is steady. -/
theorem ownEffect_steady {m : HeldMsg} {t s : State} (k : Steady false t s) : Steady false t (ownEffect c m s) := by
  cases c
  case wcomp => exact State.onWcomp_steady k
  case rdata => exact State.onRdata_steady k
  case fabricAtomic => exact State.fabricAtomic_steady k
  case deltaSet => exact State.sampledSet_steady k
  case deltaAck => exact State.onDeltaAck_steady k
  case mirrorPiece => exact State.onMirrorPiece_steady k
  case mirrorAck => exact State.onMirrorAck_steady k
  case reRequest => exact State.onReRequest_steady k
  case reRequestAnswer => exact State.onReAnswer_steady k
  case plyRead => exact State.onPlyRead_steady k
  case stripeRead => exact State.onStripeRead_steady k
  case readAnswer => exact State.readAnswer_steady k
  case fillSet => exact State.onFillSet_steady k
  case fillAck => exact State.onFillAck_steady k
  case adoptionReport => exact State.onReport_steady k
  case reportAck => exact State.onReportAck_steady k
  case hello => exact State.onHello_steady k
  case heartbeat => exact State.onHeartbeat_steady (x0 := m) k
  case vote => exact State.onVote_steady k
  case epochRequest => exact State.onEpochRequest_steady k
  case epochRecord => exact State.onEpochRecord_steady k
  case vacate => exact State.onVacate_steady k
  case vacateAck => exact State.onVacateAck_steady k
  case recoded => exact State.onRecoded_steady k
  case recordNotice => exact State.onNotice_steady k
  case ocperRead | ocperWrite | ocperBlockRead | ocperBlockWriteSegment | ocperBlockApply => exact State.onOcper_steady k
  all_goals exact k

theorem arrival_rests (h : s.Rests) : (arrival c s).Rests := by
  unfold arrival
  dsimp only
  split
  · exact (State.ready_steady (b := false) State.sampleTime_steady (Steady.refl _)).rest (State.begun_rests h)
  · exact State.begun_rests h

theorem rests_of_message {typ : Nat} {hdr : RxHdr} {body : Bytes} (hm : messageOf c = some (typ, hdr, body)) (hx : exec c s = .next t)
    (h : s.Rests) : t.Rests := by
  rw [exec_message hm (portExists_of_next hx)] at hx
  cases hx
  exact State.finish_rests ((State.fromWay_steady ownEffect_steady (Steady.refl _)).rest (arrival_rests h))

theorem exec_rests (hx : exec c s = .next t) (h : s.Rests) : t.Rests := by
  cases c
  case wcomp | rdata | fabricAtomic | deltaSet | deltaAck | mirrorPiece | mirrorAck | reRequest | reRequestAnswer | plyRead | stripeRead |
      readAnswer | fillSet | fillAck | adoptionReport | reportAck | hello | heartbeat | vote | epochRequest | epochRecord | vacate |
      vacateAck | recoded | recordNotice | ocperRead | ocperWrite | ocperBlockRead | ocperBlockWriteSegment | ocperBlockApply =>
    exact rests_of_message rfl hx h
  case planLoad | rollcallRequest | coreClockWrite | tableSetWrite | firmwareLoad | securityMinimumWrite | journalFormat |
      eventAcknowledge => exact rests_of_run hx (State.atPort_steady State.ownWrite_steady) h
  case restoreRequest | contextRestore | hashProbe | replicaCopyStart => exact rests_of_runMem hx (State.atPort_steady State.ownWrite_steady) h
  case epochProposal | exclusionNotice | maskStripeRepair | lostMaskCopy | pageDiscard | dictionaryWrite =>
    exact rests_of_runSettledMem hx (State.atPort_steady State.ownWrite_steady) h
  case transferTarget | transferDataWrite => exact rests_of_run hx (State.ready_steady State.ownWrite_steady) h
  case lzReset => exact rests_of_scan hx State.lzReset_rests h
  case sramFillDone => exact rests_of_runMem hx (fun k => Steady.ite k (State.fillDone_steady (State.sampleTime_steady k))) h
  case journalResponse => exact rests_of_run hx (State.awake_steady State.journalResponse_steady) h
  case creditInit => exact rests_of_run hx State.creditInit_steady h
  case hallTimeInvalid => exact rests_of_runSettledMem hx (State.awake_steady State.hallInvalid_steady) h
  case tick => exact rests_of_runSettledMem hx State.tick_steady h
  case rollcall => exact rests_of_runSettledMem hx State.rollcall_steady h
  case earlyClose => exact rests_of_runSettledMem hx State.siteEarly_steady h
  case siteClose => exact rests_of_runSettledMem hx State.siteLate_steady h
  case carderGroupStart => exact rests_of_port_runSettledMem hx State.carderStart_steady h
  case viewTrailingPass => exact rests_of_runSettledMem hx State.trailingPass_steady h
  case initialEncodeStart => exact rests_of_runSettledMem hx State.encodeStart_steady h
  case adoptedGroupComplete => exact rests_of_port_runSettledMem hx State.completeStart_steady h
  case audit => exact rests_of_runSettledMem hx (State.ready_steady (fun k => State.audit_steady (State.sampleTime_steady k))) h
  case sealDelayExpiry => exact rests_of_runSettledMem hx (State.ready_steady State.sampleTime_steady) h
  case auditGraceExpiry => exact rests_of_runSettledMem hx (State.ready_steady (fun k => State.auditGrace_steady (State.sampleTime_steady k))) h
  case porchPlainRead =>
    exact rests_of_port_runSettledMem hx (fun k => Steady.ite (State.portOther_steady k) (Steady.ite (State.portRead_steady k) (State.portRead_steady k))) h
  case porchTransposedRead | porchMaskedPlainRead | porchMaskedTransposedRead => exact rests_of_port_runSettledMem hx State.portRead_steady h
  case whorlWindowRead => exact rests_of_port_runSettledMem hx State.portWindow_steady h
  case porchWrite => exact rests_of_port_runSettledMem hx (fun k => State.landingPass_steady (State.portWrite_steady k)) h
  case porchAtomic => exact rests_of_port_runSettledMem hx State.portAtomic_steady h
  case invalidationAck => exact rests_of_port_runSettledMem hx (State.awake_steady State.invAck_steady) h
  case invalidationOverdue => exact rests_of_port_run hx State.invOverdue_steady h
  case memoryResponse => exact rests_of_port_runSettledMem hx (State.awake_steady State.memResponse_steady) h
  case controllerErrorReport => exact rests_of_port_runSettledMem hx (State.awake_steady State.errorReport_steady) h
  case pantryResponse => exact rests_of_runSettledMem hx (State.awake_steady State.pantryResponse_steady) h
  case pantryRequestOverdue => exact rests_of_run hx State.pantryOverdue_steady h
  case stripeRepairStart => exact rests_of_runSettledMem hx State.repairStart_steady h
  case internalPatrolRead => exact rests_of_runSettledMem hx (State.ready_steady State.internalPatrol_steady) h
  case hearthPatrolRead => exact rests_of_port_runSettledMem hx (State.ready_steady State.hearthPatrol_steady) h
  case mergeBufferIdle => exact rests_of_port_run hx State.mergeIdle_steady h
  case creditReturn => exact rests_of_runSettledMem hx State.creditReturn_steady h
  case heartbeatPeriod =>
    exact rests_of_runSettledMem hx (State.ready_steady (fun k => State.restartAlias_steady (State.heartPeriod_steady (State.sampleTime_steady k)))) h
  case suspicion => exact rests_of_runMem hx State.suspect_steady h
  case catchUpTimeout => exact rests_of_runMem hx State.catchUpEnd_steady h
  case helloInterval => exact rests_of_runMem hx (State.ready_steady (fun k => State.helloTick_steady (State.sampleTime_steady k))) h
  case ackTimeout => exact rests_of_runMem hx State.ackTimeout_steady h
  case requestTimeout => exact rests_of_runSettledMem hx State.requestTimeout_steady h
  case watchdogExpiry => exact rests_of_runMem hx (State.guarded_steady (fun k => State.watchdog_steady (State.sampleTime_steady k))) h
  case trialTimerExpiry => exact rests_of_runMem hx (State.awake_steady State.trialEnd_steady) h
  case healthPeriod => exact rests_of_run hx (State.ready_steady (fun k => State.healthTurn_steady (State.sampleTime_steady k))) h
  case ocperBufferTimeout => exact rests_of_run hx State.ocperTimeout_steady h
  case jutusUnlockExpiry => exact rests_of_run hx State.jutusExpire_steady h
  case jutusLockoutExpiry => exact rests_of_run hx State.jutusFree_steady h
  case eventFrameSend => exact rests_of_run hx (State.ready_steady (fun k => State.eventFrame_steady (State.sampleTime_steady k))) h
  case tableCopyDone => exact rests_of_run hx State.copyDone_steady h
  case offloadJobComplete => exact rests_of_runSettledMem hx State.jobComplete_steady h
  case admissionComplete => exact rests_of_runMem hx State.finishAdmission_steady h
  case firmwareVerifyDone => exact rests_of_run hx (State.awake_steady State.verifyDone_steady) h
  case transferDataRead | u64ReadLatch => exact rests_of_run hx (State.ready_steady State.portReadOut_steady) h
  case transferApply => exact rests_of_runSettledMem hx (State.ready_steady State.ownWrite_steady) h
  case rcRead => exact rests_of_scan hx (fun k => State.atPort_rests (fun k => State.readOut_rests k) k) h
  case counterBulkRead => exact rests_of_scan hx (fun k => State.atPort_rests State.bulk_rests k) h
  case jutusHelp | jutusVersion | jutusLog | jutusSensors | jutusHealth | jutusSkein | jutusStep | jutusFrameTrace | jutusPlan | jutusMasks | jutusJournal | jutusFirmware =>
    exact rests_of_run hx (State.jutusRun_steady State.say_steady) h
  case jutusRead => exact rests_of_run hx (State.jutusRun_steady State.jutusReadEntry_steady) h
  case jutusDump => exact rests_of_run hx (State.jutusRun_steady State.jutusDumpEntry_steady) h
  case jutusWrite => exact rests_of_runSettledMem hx (State.jutusRun_steady (State.jutusUnlockedOnly_steady State.jutusPut_steady)) h
  case jutusAck =>
    exact rests_of_run hx (State.jutusRun_steady (fun k => Steady.ite (State.jutusUnlockedOnly_steady State.jutusPut_steady k) (State.say_steady k))) h
  case jutusCounters => exact rests_of_run hx (State.jutusRun_steady (State.jutusUnlockedOnly_steady State.jutusCountersRun_steady)) h
  case jutusChallenge => exact rests_of_run hx (State.jutusRun_steady (fun k => State.jutusChallengeRun_steady (State.sampleTime_steady k))) h
  case jutusUnlock => exact rests_of_run hx (State.jutusRun_steady State.jutusUnlockRun_steady) h
  case jutusLock => exact rests_of_run hx (State.jutusRun_steady (State.jutusUnlockedOnly_steady State.jutusLockRun_steady)) h
  case jutusBaud => exact rests_of_run hx (State.jutusRun_steady (State.jutusUnlockedOnly_steady State.jutusPut_steady)) h
  case jtagIdcode => exact rests_of_scan hx State.jtagId_rests h
  case jtagDictrd => exact rests_of_scan hx State.jtagDict_rests h
  case jtagMbist => exact rests_of_scan hx State.jtagTest_rests h
  case mbistDone => exact rests_of_scan hx State.mbistEnd_rests h
  case jtagBypass => exact rests_of_scan hx State.jtagBypassed_rests h
  case jtagTestLogicReset => exact rests_of_scan hx State.jtagTlr_rests h
  case hallTimeValid => exact rests_of_runSettledMem hx (State.awake_steady State.hallValid_steady) h
  case tableBankCopyAgainDone => exact rests_of_port_runSettledMem hx State.bankAgain_steady h

end

/-- Settles O4: the straps, the queue and the free values are of the family Keeps; the controller's rest is of the family Steady, and a scan
of the test port starts and ends in it. -/
theorem everyStepKeepsStrapsAndQueue : Obligations.EveryStepKeepsStrapsAndQueue := by
  intro s t hx
  have hk := step_keeps hx
  refine ⟨hk.straps, hk.pending, hk.free, fun h => ?_⟩
  match hp : s.pending with
  | [] =>
    rw [step_idle hp] at hx
    cases hx
    exact h
  | c :: rest =>
    rw [step_front hp] at hx
    exact exec_rests (s := { s with pending := rest }) hx h

end Sys2Proof.Machine
end

section
/-! PROOFS. Porch atomics (R291 to R293, R340): what the memories answer to a command does not change while it runs. -/

namespace Sys2Proof.Machine

section
variable {q : HallReq} {w : WBeat} {mem : MemAns} {s : State}

theorem State.begun_ans : (State.begun mem s).ans = mem :=
  (State.sramReads_steady (b := false) (Steady.refl (State.begin mem s))).ans

theorem exec_porchAtomic (hc : q.ch.toNat < s.C) : exec (.porchAtomic q w mem) s =
    .next (State.finish (State.settleAll (State.portAtomic { q with op := 2 } w (State.begun mem s)))) :=
  if_pos (decide_eq_true hc)

end

/-- Settles O33: the port takes the request, and the atomic is done as a lemma of its own says, with the answers that the command brings. -/
theorem porchAtomicReadsAndModifies : Obligations.PorchAtomicReadsAndModifies := by
  intro q w mem r op v s s0 hc hr ho htag hh hf hop hok hst hp hpr hoff hb blocks old hgood hv s1 s2
  have hans : s0.ans = mem := State.begun_ans
  have hdone := State.hallAtomic_done (q := { q with op := 2 }) hh hf hop hok hst hp hpr hoff hb (by rw [hans]; exact hgood) hv
  rw [hans] at hdone
  rw [exec_porchAtomic hc]
  exact congrArg (fun t => Host.Outcome.next (State.finish (State.settleAll t)))
    ((State.takeHall_served (q := { q with op := 2 }) hr ho htag).trans hdone)

end Sys2Proof.Machine
end

section
/-! PROOFS. The end of the fill (R420), from a state whose counter of failed rows stands above the value at which it holds (R416). No step
leads to such a state (`everyStepKeepsTheInvariant`); the statement speaks of it all the same. -/

namespace Sys2Proof.Machine

/-- The block after reset, with 2^64 in the counter of failed rows. -/
def overCounted : State :=
  { State.reset with sys := { State.reset.sys with lzReset := false, filled := false }, counters := [(addrOf 0x50C0 0x0D, 2 ^ 64)] }

/-- The counter of failed rows after a command. -/
def failedRowsAfter : Host.Outcome State Fault Refusal → Nat
  | .next u => u.ctr 0x50C0 0x0D
  | _ => 0

/-- With no failed row the counter stays as it was. -/
theorem overCounted_stays : failedRowsAfter (exec (.sramFillDone [] 0 .clean) overCounted) = 2 ^ 64 := by decide +kernel

/-- What a command leaves to do brings no counter above the limit. -/
theorem State.finish_counter {t : State} {i k : Nat} (h : t.ctr i k ≤ Config.u64Max) : t.finish.ctr i k ≤ Config.u64Max :=
  (State.finish_steady (Steady.refl t)).counter i k h

/-- Refutes O13: with no row that failed, the counter of failed rows stays at 2^64 where the statement holds it at 2^64 - 1. -/
theorem not_fillDoneWithoutAnImageRecovers : ¬ Obligations.FillDoneWithoutAnImageRecovers := by
  intro h
  obtain ⟨none, -⟩ := h [] 0 .clean overCounted rfl rfl rfl
  obtain ⟨t, hx, -, -, -, hrows, -⟩ := none (by decide +kernel) (by decide +kernel)
  have hle : t.ctr 0x50C0 0x0D ≤ Config.u64Max := hrows ▸ Nat.min_le_left ..
  have hfin : t.finish.ctr 0x50C0 0x0D = 2 ^ 64 := by
    rw [← overCounted_stays, hx]
    rfl
  have hlim := hfin ▸ State.finish_counter hle
  exact absurd hlim (by decide)

end Sys2Proof.Machine
end

section
/-! PROOFS. The tick group: a threshold opens its step (R19, R358, R410), the audit and the seal (R210, R232, R233). -/

namespace Sys2Proof.Machine

/-- The core of a frame whose step has opened. -/
def FrameSt.opens (n ht : Nat) (f : FrameSt) : FrameSt :=
  { f.core with
    step := n, opened := true, phase := .gather, rcOut := false, rcSeen := false, sealedPin := false, htSample := ht, held := none, eN := 0 }

/-- What the core of an opened frame says. -/
theorem FrameSt.of_opens {f g : FrameSt} {n ht : Nat} (h : f.core = g.opens n ht) : f.step = n ∧ f.opened = true ∧ f.phase = .gather ∧
    f.rcOut = false ∧ f.rcSeen = false ∧ f.sealedPin = false ∧ f.htSample = ht ∧ f.held = none ∧ f.eN = 0 ∧ f.lastSealed = g.lastSealed :=
  ⟨congrArg FrameSt.step h, congrArg FrameSt.opened h, congrArg FrameSt.phase h, congrArg FrameSt.rcOut h, congrArg FrameSt.rcSeen h,
    congrArg FrameSt.sealedPin h, congrArg FrameSt.htSample h, congrArg FrameSt.held h, congrArg FrameSt.eN h,
    show f.core.lastSealed = (g.opens n ht).lastSealed from congrArg FrameSt.lastSealed h⟩

theorem FrameSt.opens_of_core {f g : FrameSt} {n ht : Nat} (h : f.core = g.core) : f.opens n ht = g.opens n ht := by
  rw [FrameSt.opens, h, FrameSt.opens]

section
variable {n ht : Nat} {s t : State}

/-! ## A threshold -/

/-- Nothing after the opening of the step moves its frame. -/
theorem State.threshold_opened : Steady true
    (State.openFrame n ht (State.applySettings n s.heatThreshold.keepPrev.endStep)) (State.threshold n ht s) :=
  State.keepContext_steady (State.houseThreshold_steady (State.beginStep_steady (Steady.refl _)))

/-- Nothing before it does, either. -/
theorem State.threshold_before : Steady true s (State.applySettings n s.heatThreshold.keepPrev.endStep) :=
  State.applySettings_steady (State.endStep_steady (State.keepPrev_steady (State.heatThreshold_steady (Steady.refl s))))

theorem State.openFrame_core : (State.openFrame n ht s).fr.core = s.fr.opens n ht := rfl

theorem State.openFrame_out : Out.threshold ∈ (State.openFrame n ht s).out := List.mem_append_right _ (List.mem_singleton.mpr rfl)

/-- After a threshold the frame is the opened one; of the frame before, the step sealed last is left. -/
theorem State.threshold_core : (State.threshold n ht s).fr.core = s.fr.opens n ht := by
  rw [State.threshold_opened.frame rfl, State.openFrame_core, FrameSt.opens_of_core ((State.threshold_before (n := n)).frame rfl)]

theorem State.tick_threshold (hr : s.sys.ready = true) (hf : (State.sampleTime ht s).fenced = false)
    (he : (State.sampleTime ht s).expects n = true) (hg : (State.sampleTime ht s).fr.phase ≠ .gather)
    (hu : (State.sampleTime ht s).fr.phase ≠ .update) (hq : (State.sampleTime ht s).quorum = true) :
    State.tick n ht s = State.threshold n (State.sampleTime ht s).now (State.sampleTime ht s) := by
  have hs : (State.sampleTime ht s).unsealed = false := by
    simp only [State.unsealed, beq_eq_false_iff_ne.mpr hg, beq_eq_false_iff_ne.mpr hu, Bool.or_self]
  simp only [State.tick, hr, hf, he, hs, hq, Bool.not_true, Bool.false_eq_true, if_false]

end

theorem exec_tick (n ht : BitVec 64) (mem : MemAns) (s : State) : exec (.tick n ht mem) s =
    .next (State.finish (State.settleAll (State.tick n.toNat ht.toNat (State.begun mem s)))) := rfl

/-- Settles O19: such a tick is a threshold, and no operation before or after the opening moves what the opening sets. -/
theorem stepOpensInGather : Obligations.StepOpensInGather := by
  intro n ht mem s s0 s1 hr hf he hg hu hq
  obtain ⟨hstep, hopened, hphase, hout, hseen, hpin, hht, hheld, heN, hlast⟩ :=
    FrameSt.of_opens (State.threshold_core (n := n.toNat) (ht := s1.now) (s := s1))
  refine ⟨State.threshold n.toNat s1.now s1, ?_, hstep, hopened, hphase, hout, hseen, hpin, hht, hheld, heN, hlast,
    State.threshold_opened.out _ State.openFrame_out⟩
  rw [exec_tick, State.tick_threshold hr hf he hg hu hq]

end Sys2Proof.Machine
end

section
/-! PROOFS. The audit of a step and its seal (R23, R210, R214, R232, R233). -/

namespace Sys2Proof.Machine

section
variable {s t : State}

/-! ## The seal -/

/-- `tk_sealed` rises: the frame says so, and the LIVE STATE hanks' digests are the sealed ones. -/
def State.sealMark (s : State) : State :=
  { s with
    fr := { s.fr with phase := .sealed, sealedPin := true, lastSealed := s.fr.step, everSealed := true }
    hanks := mapIf (fun (r : HankRt) => r.desc.cls == 1 && r.state == 2) (fun r => { r with digestSealed := r.digest }) s.hanks }

/-- A late seal counts. -/
def State.countLateSeal (late : Bool) (s : State) : State := if late then s.countNote 0x5000 0x04 s.fr.step else s

/-- A member that joins is one with its first seal. -/
def State.joinSealed (s : State) : State := if s.mem.state = 1 then s.setMemState 2 else s

/-- The state in which a seal stands, before what waits for it goes on. -/
def State.sealing (s : State) : State := ((s.sealMark.traceSeal s.lateSeal).countLateSeal s.lateSeal).joinSealed

theorem State.sealStep_eq (h : s.sealing.vacateFinish.copyGo.fr.held = none) : s.sealStep = s.sealing.vacateFinish.copyGo := by
  unfold State.sealStep
  dsimp only
  split
  · rename_i held
    exact absurd (held.symm.trans h) (Option.some_ne_none _)
  · rfl

/-- The frame of a step that has sealed. -/
def FrameSt.seals (f : FrameSt) : FrameSt := { f.core with phase := .sealed, sealedPin := true, lastSealed := f.step }

theorem State.countLateSeal_steady {b late : Bool} : Steady b s (s.countLateSeal late) := by
  cases late
  · exact .refl s
  · exact State.countNote_steady (.refl s)

theorem State.joinSealed_steady {b : Bool} : Steady b s s.joinSealed := by
  unfold State.joinSealed
  split
  · exact State.setMemState_steady (.refl s)
  · exact .refl s

theorem State.sealing_core : s.sealing.fr.core = s.fr.seals := by
  have h : Steady true s.sealMark s.sealing :=
    (State.traceSeal_steady (Steady.refl _)).trans (State.countLateSeal_steady.trans State.joinSealed_steady)
  exact h.frame rfl

theorem State.setMemState_fenced {n : Nat} : (s.setMemState n).fenced = s.fenced := by
  unfold State.setMemState
  split
  · rfl
  · obtain ⟨_, h⟩ : SentTo { s with mem := { s.mem with state := n } } (State.helloAll { s with mem := { s.mem with state := n } }) :=
      .forEach (fun _ _ => State.sendHello_sentTo ..) _ _
    rw [State.fenced, h]
    rfl

theorem State.countLateSeal_fenced {late : Bool} : (s.countLateSeal late).fenced = s.fenced := by
  cases late
  · rfl
  · have h : (s.countNote 0x5000 0x04 s.fr.step).mem = s.mem := (State.countNote_logged ..).mem
    show (s.countNote 0x5000 0x04 s.fr.step).fenced = s.fenced
    rw [State.fenced, h, State.fenced]

theorem State.joinSealed_fenced : s.joinSealed.fenced = s.fenced := by
  unfold State.joinSealed
  split
  · exact State.setMemState_fenced
  · rfl

theorem State.sealing_fenced : s.sealing.fenced = s.fenced := by
  rw [State.sealing, State.joinSealed_fenced, State.countLateSeal_fenced]
  rfl

/-- A vacate that ends at a member that is not fenced leaves the frame alone. -/
theorem State.vacateFinish_unfenced (h : s.fenced = false) : Steady true s s.vacateFinish := by
  unfold State.vacateFinish
  split
  · split
    · exact .refl s
    · dsimp only
      refine State.setMemState_steady (State.bump_steady (State.endFenceLevel_steady ?_))
      simp only [h, Bool.false_eq_true, if_false, Steady.put]
      exact .refl s
  · exact .refl s

theorem State.sealed_core (h : s.fenced = false) : s.sealing.vacateFinish.copyGo.fr.core = s.fr.seals := by
  have hs : Steady true s.sealing s.sealing.vacateFinish.copyGo :=
    State.copyGo_steady (State.vacateFinish_unfenced (State.sealing_fenced.trans h))
  rw [hs.frame rfl, State.sealing_core]

theorem FrameSt.of_seals {f g : FrameSt} (h : f.core = g.seals) : f.phase = .sealed ∧ f.sealedPin = true ∧ f.lastSealed = g.step ∧
    f.step = g.step ∧ f.held = g.held :=
  ⟨congrArg FrameSt.phase h, congrArg FrameSt.sealedPin h, show f.core.lastSealed = g.seals.lastSealed from congrArg FrameSt.lastSealed h,
    show f.core.step = g.seals.step from congrArg FrameSt.step h, show f.core.held = g.seals.held from congrArg FrameSt.held h⟩

/-- With no tick held, a seal at a member that is not fenced is the whole of what it does to the frame. -/
theorem State.sealStep_seals (h : s.fenced = false) (hh : s.fr.held = none) : s.sealStep.fr.phase = .sealed ∧ s.sealStep.fr.sealedPin = true ∧
    s.sealStep.fr.lastSealed = s.fr.step ∧ s.sealStep.fr.step = s.fr.step := by
  obtain ⟨hp, hpin, hl, hstep, hheld⟩ := FrameSt.of_seals (State.sealed_core h)
  rw [State.sealStep_eq (hheld.trans hh)]
  exact ⟨hp, hpin, hl, hstep⟩

/-! ## When a step seals -/

/-- The moment at which the conditions came to hold is all that `noteReady` notes. -/
theorem State.noteReady_eq : ∃ w : Option Nat, s.noteReady = { s with fr := { s.fr with sealReadyAt := w } } := by
  unfold State.noteReady
  split
  · exact ⟨s.fr.sealReadyAt, rfl⟩
  · exact ⟨_, rfl⟩

theorem State.trySeal_ready (hr : s.sealReady = true) (hq : s.quorum = true)
    (hd : s.noteReady.anySuspected = false ∨ s.noteReady.delayOver = true) : s.trySeal = s.noteReady.sealStep := by
  have hq' : s.noteReady.quorum = true := by
    obtain ⟨w, h⟩ := State.noteReady_eq (s := s)
    rw [h]
    exact hq
  have hsus : (s.noteReady.anySuspected && !s.noteReady.delayOver) = false := by
    rcases hd with hd | hd
    · rw [hd, Bool.false_and]
    · rw [hd, Bool.not_true, Bool.and_false]
  simp only [State.trySeal, hr, hq', hsus, Bool.not_true, Bool.false_eq_true, if_false]

theorem State.fenced_of_sealReady (h : s.sealReady = true) : s.fenced = false := by
  simp only [State.sealReady, State.auditReady, Bool.and_eq_true, Bool.not_eq_true', and_assoc] at h
  obtain ⟨_, _, hf, _⟩ := h
  exact hf

/-! ## The audit

Forming a message moves the ledger's counts of credits, and leaves the audit's result as it is. -/

/-- The audit's result of the open step. -/
def State.audited (s : State) : Nat := s.led.auditState

theorem State.evictFor_audited (node : Nat) (s : State) : (State.evictFor node s).audited = s.audited := by
  unfold State.evictFor State.evictOne
  dsimp only
  split
  · rfl
  · split
    · rfl
    · rfl

theorem State.nextAlive_audited (dest cls : Nat) (s : State) : (State.nextAlive dest cls s).1.audited = s.audited := by
  have ht : (if cls = 2 then s.touchCtx dest else s).audited = s.audited := by
    split
    · rfl
    · rfl
  unfold State.nextAlive
  generalize (if cls = 2 then s.touchCtx dest else s) = z at ht ⊢
  have hz (b : Bool) : (if b then z.evictFor dest else z).audited = s.audited := by
    cases b
    · exact ht
    · exact (State.evictFor_audited dest z).trans ht
  dsimp only
  generalize List.find? _ z.fx.sendCtx = ctx
  have hb := hz (decide (cls = 2) && ctx.isNone)
  generalize (if (decide (cls = 2) && ctx.isNone) = true then z.evictFor dest else z) = y at hb ⊢
  split <;> split <;> assumption

theorem State.stamp_audited (m : TxMsg) (s : State) : (State.stamp m s).1.audited = s.audited := by
  have h := State.nextAlive_audited m.destination m.cls s
  unfold State.stamp
  simp only
  generalize State.nextAlive m.destination m.cls s = z at h ⊢
  split
  · exact h
  · exact h

theorem State.spend_audited (way cls step hdr unit : Nat) (s : State) : (State.spend way cls step hdr unit s).audited = s.audited := by
  unfold State.spend
  simp only
  split
  · rfl
  · rfl

theorem State.leaveReg_audited {out : Bool} {way cls trailer : Nat} {ctx : Option Nat} (s : State) :
    (State.leaveReg out way cls trailer ctx s).audited = s.audited := by
  unfold State.leaveReg
  split
  · rfl
  · split
    · rfl
    · rfl

theorem State.endEntry_audited (t : TxRt) (s : State) : (State.endEntry t s).audited = s.audited := by
  unfold State.endEntry
  dsimp only [State.emit]
  split
  · rfl
  · exact State.leaveReg_audited _

theorem State.pumpClass_audited (k way cls : Nat) (s : State) : (State.pumpClass k way cls s).audited = s.audited := by
  induction k generalizing s with
  | zero => rfl
  | succ k ih =>
    unfold State.pumpClass
    split
    · rfl
    · rename_i t _
      dsimp only
      generalize hz : State.spend way cls t.msg.step _ _ _ = z
      have h1 : z.audited = s.audited := by rw [← hz]; exact State.spend_audited ..
      have h2 : (if t.started then (z, t) else z.startMsg t).1.audited = z.audited := by
        split
        · rfl
        · exact State.stamp_audited t.msg z
      generalize (if t.started then (z, t) else z.startMsg t) = y at h2 ⊢
      have h3 (n : Nat) : (State.sendUnits y.2 n y.1).audited = y.1.audited := by
        refine forEach_proj (fun u : State => u.audited) (fun _ _ => ?_) _ _
        rfl
      have h4 := ((h3 (min t.left (s.creditAt way cls).unit)).trans h2).trans h1
      rw [ih]
      split
      · exact (State.endEntry_audited _ _).trans h4
      · exact h4

theorem State.pump_audited (s : State) : (State.pump s).audited = s.audited := by
  refine forEach_proj (fun u : State => u.audited) (fun x u => ?_) _ s
  split
  · exact State.pumpClass_audited ..
  · rfl

theorem State.post_audited {typ dest way job epoch step request : Nat} {body : Bytes} (s : State) :
    (State.post typ dest way job epoch step request body s).audited = s.audited := by
  unfold State.post
  split
  · rfl
  · split
    · rfl
    · refine (State.pump_audited _).trans ?_
      unfold State.markSent
      split
      · rfl
      · rfl

theorem State.recordMac_audited {body : Bytes} (s : State) : (s.recordMac body).1.audited = s.audited := by
  unfold State.recordMac
  split
  · rfl
  · rfl

theorem State.countNote_audited {i k d : Nat} (s : State) : (s.countNote i k d).audited = s.audited :=
  congrArg LedSt.auditState (State.countNote_logged ..).led

/-- A record that is issued leaves the audit's result as it is. -/
theorem State.issue_audited (r : RecParts) (s : State) : (State.issue r s).audited = s.audited := by
  have notices {p : Prop} [Decidable p] {l : List Nat} {f : Nat → State → State} {u : State}
      (hf : ∀ n v, (f n v).audited = v.audited) : (if p then u else forEach l f u).audited = u.audited := by
    split
    · rfl
    · exact forEach_proj (fun v : State => v.audited) hf _ _
  unfold State.issue
  dsimp only
  refine (notices (fun _ _ => ?_)).trans ((State.countNote_audited _).trans ?_)
  · exact State.post_audited _
  · show State.audited (ite (α := State × Bytes) _ _ _).1 = s.audited
    split
    · exact State.recordMac_audited _
    · rfl

/-- An audit that balances ends so, with its record (R233). -/
theorem State.auditEnd_balanced (s : State) : (s.auditEnd 0).led.auditState = 1 :=
  State.issue_audited _ _

theorem State.auditEnd_failed {bits : Nat} (h : bits ≠ 0) : s.auditEnd bits = State.countNote 0x5070 0x02 s.fr.step
    { s with led := { s.led with block := s.conservation, auditState := 2, failing := bits, graceOver := true } } :=
  if_neg h

theorem State.audit_first (h : s.auditReady = true) (h0 : s.led.auditState = 0) (hn : s.led.auditAt = none) : s.audit =
    if s.auditBits = 0 then State.auditEnd 0 { s with led := { s.led with auditAt := some s.now } }
    else { s with led := { s.led with auditAt := some s.now } } := by
  simp only [State.audit, h, h0, hn, Bool.not_true, bne_self_eq_false, Option.isSome_none, Bool.or_self, Bool.false_eq_true, if_false]

theorem State.auditGrace_failed (h : s.auditReady = true) (h0 : s.led.auditState = 0) (hn : s.led.auditAt.isSome = true)
    (hg : s.graceDone = true) (hb : s.auditBits ≠ 0) : s.auditGrace = State.countNote 0x5070 0x02 s.fr.step
      { s with led := { s.led with block := s.conservation, auditState := 2, failing := s.auditBits, graceOver := true } } := by
  have go : (s.led.auditAt.isSome && decide (s.led.auditState = 0) && s.graceDone && s.auditReady) = true := by simp [h, h0, hn, hg]
  rw [State.auditGrace, if_pos go, State.auditEnd_failed hb]

end

/-! ## The commands -/

section
variable {ht : BitVec 64} {mem : MemAns} {s : State} (hr : (State.begun mem s).sys.ready = true)
include hr

theorem exec_audit : exec (.audit ht mem) s =
    .next (State.finish (State.settleAll (State.audit (State.sampleTime ht.toNat (State.begun mem s))))) :=
  congrArg (fun t => Host.Outcome.next (State.finish (State.settleAll t))) (State.ready_up hr)

theorem exec_auditGraceExpiry : exec (.auditGraceExpiry ht mem) s =
    .next (State.finish (State.settleAll (State.auditGrace (State.sampleTime ht.toNat (State.begun mem s))))) :=
  congrArg (fun t => Host.Outcome.next (State.finish (State.settleAll t))) (State.ready_up hr)

theorem exec_sealDelayExpiry : exec (.sealDelayExpiry ht mem) s =
    .next (State.finish (State.settleAll (State.sampleTime ht.toNat (State.begun mem s)))) :=
  congrArg (fun t => Host.Outcome.next (State.finish (State.settleAll t))) (State.ready_up hr)

end

/-- Settles O26: the audit's two commands are their branches; a seal moves the frame once, and nothing that waits for it moves the frame
again where the member is not fenced and no tick is held. -/
theorem auditAndSeal : Obligations.AuditAndSeal := by
  refine ⟨fun ht mem s => ?audit, fun ht mem s hr => ?delay⟩
  case audit =>
    intro s1 hr ha h0
    refine ⟨fun hn => ?_, fun hn hg hb => ?_⟩
    · intro s2
      rw [exec_audit hr, State.audit_first ha h0 hn]
      exact ⟨rfl, fun _ => State.auditEnd_balanced s2⟩
    · rw [exec_auditGraceExpiry hr, State.auditGrace_failed ha h0 hn hg hb]
  case delay =>
    intro s1
    refine ⟨exec_sealDelayExpiry hr, fun hset hready hq hheld hd => ⟨s1.noteReady.sealStep, ?_, ?_⟩, fun u => State.trySeal_ready⟩
    · rw [exec_sealDelayExpiry hr, hset, State.trySeal_ready hready hq hd]
    · have hf := State.fenced_of_sealReady hready
      obtain ⟨w, hw⟩ := State.noteReady_eq (s := s1)
      rw [hw]
      exact State.sealStep_seals hf hheld

end Sys2Proof.Machine
end
